-- ==== Sys2Proof/Word.lean ====
section
/-! DEFINITION. Word.lean: the widths the manual uses (spec/00 R3, R5). -/
namespace Sys2Proof

/-- A byte of memory. -/
abbrev Byte := BitVec 8
/-- A 32-bit scalar of the X stream, a k register, a control register. -/
abbrev Word := BitVec 32
/-- A 64-bit register of the A stream, a virtual address. -/
abbrev DWord := BitVec 64
/-- A vector register: 32 lanes of 32 bits, lane l in bits [32l+31:32l] (spec/07, introduction). -/
abbrev Vec := BitVec 1024

end Sys2Proof
end

