-- ==== Sys2Proof/Syntax.lean ====
section
/-! DEFINITION. Syntax.lean: the instructions of the three streams and the steps of the device, one constructor per row
of the opcode table (spec/02 R36-R39; spec/95). -/
namespace Sys2Proof

/-- The three streams of a unit (spec/00 R2). -/
inductive Stream where | a | x | m
  deriving DecidableEq, Repr

/-- Guard and token fields of an X syllable (spec/02 R25, R26, R28, R29). -/
structure XHdr where
  joined : Bool
  gp : Fin 8
  gn : Bool
  wait : Option (Fin 16)
  push : Option (Fin 16)
  deriving DecidableEq, Repr

/-- Token fields of a short A word (spec/02 R31). -/
structure AHdr where
  wait : Option (Fin 16)
  push : Option (Fin 16)
  deriving DecidableEq, Repr

/-- Token fields of a long A form with its stamp, bound and hand-back bit (spec/02 R33, spec/10 R205). -/
structure LHdr where
  wait : Option (Fin 16)
  push : Option (Fin 16)
  stamp : BitVec 24
  bound : BitVec 20
  hb : Bool
  deriving DecidableEq, Repr

/-- Token fields, stamp and bound of an M word (spec/02 R34). -/
structure MHdr where
  wait : Option (Fin 16)
  push : Option (Fin 16)
  stamp : BitVec 24
  bound : BitVec 20
  deriving DecidableEq, Repr

/-- A scalar source specifier (spec/00 R5, spec/02 R27). -/
inductive SSrc where
  | reg (n : Fin 56) | queue (q : Fin 4) | ofile (n : Fin 8) | lx (c : Fin 4) | imm (v : BitVec 7)
  deriving DecidableEq, Repr

/-- A vector source specifier (spec/00 R5, spec/02 R27). -/
inductive VSrc where
  | reg (n : Fin 28) | queue (q : Fin 4) | ofile (n : Fin 8) | lx (c : Fin 4) | imm (v : BitVec 7)
  deriving DecidableEq, Repr

/-- A scalar destination specifier (spec/00 R6, spec/02 R27). -/
inductive SDst where
  | reg (n : Fin 56) | queue (q : Fin 4) | ofile (n : Fin 8) | lx (c : Fin 4)
  deriving DecidableEq, Repr

/-- A vector destination specifier (spec/00 R6, spec/02 R27). -/
inductive VDst where
  | reg (n : Fin 28) | queue (q : Fin 4) | ofile (n : Fin 8) | lx (c : Fin 4)
  deriving DecidableEq, Repr

/-- The count destination of `accrd` (spec/11 R228); register 0 discards. -/
inductive CntDst where
  | reg (n : Fin 56) | ofile (n : Fin 8)
  deriving DecidableEq, Repr

/-- The format codes 0-8 (spec/03 R45). -/
inductive Fmt where | fp32 | bf16 | fp16 | f8 | int8 | d8 | d4 | t5 | int32
  deriving DecidableEq, Repr

/-- Source formats of `vcvt` (spec/07 R134). -/
inductive CvtSrc where | fp32 | bf16 | fp16 | f8 | int8 | int32
  deriving DecidableEq, Repr

/-- Dithered formats of `vdq` (spec/07 R135). -/
inductive DqFmt where | d8 | d4 | t5
  deriving DecidableEq, Repr

/-- Integer conditions (spec/07 R124). -/
inductive ICond where | eq | ne | lt | le | gt | ge | ltu | leu | gtu | geu
  deriving DecidableEq, Repr

/-- Float conditions (spec/07 R129). -/
inductive FCond where | eq | ne | lt | le | gt | ge | uo | or
  deriving DecidableEq, Repr

/-- Targets of `vrsh` (spec/07 R133). -/
inductive RshT where | i32 | i8 | n8
  deriving DecidableEq, Repr

/-- Operators of `vscan` (spec/07 R139). -/
inductive ScanOp where | add | maxi | mini | maxn | minn
  deriving DecidableEq, Repr

/-- Scalar types of the X loads and stores (spec/10 R199). -/
inductive XTy where | n8 | i8 | n16 | i16 | w32
  deriving DecidableEq, Repr

/-- Types of the A loads and stores (spec/10 R195). -/
inductive ATy where | n8 | i8 | n16 | i16 | n32 | i32 | w64
  deriving DecidableEq, Repr

/-- Scopes (spec/02 R35). -/
inductive Scope where | col | core | cluster | die | device | system
  deriving DecidableEq, Repr

/-- Fence kinds (spec/12 R242). -/
inductive FenceKind where | acq | rel | sc
  deriving DecidableEq, Repr

/-- Semantics of a returning atomic (spec/12 R244). -/
inductive Sem where | rlx | acq | rel | ar
  deriving DecidableEq, Repr

/-- What an A branch does with its outcome (spec/06 R114). -/
inductive BrMod where | branch | q | qb
  deriving DecidableEq, Repr

/-- The queue context an event instruction names (spec/05 R96). -/
inductive EvCtx where | own | ctx (c : Fin 8)
  deriving DecidableEq, Repr

/-- The count of `mloop` (spec/11 R231). -/
inductive MCount where | imm (n : BitVec 16) | kreg (k : Fin 8)
  deriving DecidableEq, Repr

/-- The instructions of the X, A and M streams and the steps of the device, one constructor per row of the
opcode table. The steps carry no operands: the agenda entry of a step holds what it acts on. -/
inductive Instr where
  -- X stream: scalar (spec/07 R121-R123)
  | xNop (h : XHdr)
  | xAdd (h : XHdr) (d : SDst) (a b : SSrc)
  | xSub (h : XHdr) (d : SDst) (a b : SSrc)
  | xAnd (h : XHdr) (d : SDst) (a b : SSrc)
  | xOr (h : XHdr) (d : SDst) (a b : SSrc)
  | xXor (h : XHdr) (d : SDst) (a b : SSrc)
  | xShl (h : XHdr) (d : SDst) (a b : SSrc)
  | xShr (h : XHdr) (d : SDst) (a b : SSrc)
  | xSra (h : XHdr) (d : SDst) (a b : SSrc)
  | xMin (h : XHdr) (uns : Bool) (d : SDst) (a b : SSrc)
  | xMax (h : XHdr) (uns : Bool) (d : SDst) (a b : SSrc)
  | xMul (h : XHdr) (d : SDst) (a b : SSrc)
  | xMulh (h : XHdr) (uns : Bool) (d : SDst) (a b : SSrc)
  | xSel (h : XHdr) (d : SDst) (a b : SSrc) (p : Fin 8)
  | xClz (h : XHdr) (d : SDst) (a : SSrc)
  | xPopc (h : XHdr) (d : SDst) (a : SSrc)
  | xBfx (h : XHdr) (sx : Bool) (w : Fin 64) (d : SDst) (a pos : SSrc)
  | xBfi (h : XHdr) (w : Fin 64) (d : SDst) (a b pos : SSrc)
  | xLea (h : XHdr) (k : Fin 8) (d : SDst) (a b : SSrc)
  | xAddi (h : XHdr) (d : SDst) (a : SSrc) (i : BitVec 16)
  | xAndi (h : XHdr) (d : SDst) (a : SSrc) (i : BitVec 16)
  | xOri (h : XHdr) (d : SDst) (a : SSrc) (i : BitVec 16)
  | xXori (h : XHdr) (d : SDst) (a : SSrc) (i : BitVec 16)
  | xShli (h : XHdr) (d : SDst) (a : SSrc) (i : BitVec 16)
  | xShri (h : XHdr) (d : SDst) (a : SSrc) (i : BitVec 16)
  | xSrai (h : XHdr) (d : SDst) (a : SSrc) (i : BitVec 16)
  | xLi (h : XHdr) (d : SDst) (i : BitVec 16)
  | xLih (h : XHdr) (d : SDst) (a : SSrc) (i : BitVec 16)
  | xMuli (h : XHdr) (d : SDst) (a : SSrc) (i : BitVec 16)
  -- compares and predicates (spec/07 R124, R125)
  | xCmp (h : XHdr) (c : ICond) (p : Fin 8) (a b : SSrc)
  | xCmpi (h : XHdr) (c : ICond) (p : Fin 8) (a : SSrc) (i : BitVec 16)
  | xPand (h : XHdr) (p a b : Fin 8)
  | xPor (h : XHdr) (p a b : Fin 8)
  | xPxor (h : XHdr) (p a b : Fin 8)
  | xPnot (h : XHdr) (p a : Fin 8)
  | xPmov (h : XHdr) (p a : Fin 8)
  | xPget (h : XHdr) (d : SDst) (a : Fin 8)
  -- vector floating point (spec/07 R126-R130)
  | vadd (h : XHdr) (d : VDst) (a b : VSrc)
  | vsub (h : XHdr) (d : VDst) (a b : VSrc)
  | vmul (h : XHdr) (d : VDst) (a b : VSrc)
  | vfma (h : XHdr) (d : VDst) (a b c : VSrc)
  | vfms (h : XHdr) (d : VDst) (a b c : VSrc)
  | vmin (h : XHdr) (d : VDst) (a b : VSrc)
  | vmax (h : XHdr) (d : VDst) (a b : VSrc)
  | vabs (h : XHdr) (d : VDst) (a : VSrc)
  | vneg (h : XHdr) (d : VDst) (a : VSrc)
  | vcmp (h : XHdr) (c : FCond) (d : VDst) (a b : VSrc)
  | vrcp (h : XHdr) (d : VDst) (a : VSrc)
  | vrsqrt (h : XHdr) (d : VDst) (a : VSrc)
  | vexp2 (h : XHdr) (d : VDst) (a : VSrc)
  | vlog2 (h : XHdr) (d : VDst) (a : VSrc)
  | vredsumO (h : XHdr) (d : SDst) (a : VSrc)
  | vredsumU (h : XHdr) (d : SDst) (a : VSrc)
  | vredmax (h : XHdr) (d : SDst) (a : VSrc)
  -- vector integer (spec/07 R131-R133)
  | viadd (h : XHdr) (d : VDst) (a b : VSrc)
  | visub (h : XHdr) (d : VDst) (a b : VSrc)
  | vimul (h : XHdr) (d : VDst) (a b : VSrc)
  | vand (h : XHdr) (d : VDst) (a b : VSrc)
  | vor (h : XHdr) (d : VDst) (a b : VSrc)
  | vxor (h : XHdr) (d : VDst) (a b : VSrc)
  | vshl (h : XHdr) (d : VDst) (a b : VSrc)
  | vshr (h : XHdr) (d : VDst) (a b : VSrc)
  | vsra (h : XHdr) (d : VDst) (a b : VSrc)
  | vimin (h : XHdr) (uns : Bool) (d : VDst) (a b : VSrc)
  | vimax (h : XHdr) (uns : Bool) (d : VDst) (a b : VSrc)
  | vicmp (h : XHdr) (c : ICond) (d : VDst) (a b : VSrc)
  | vmacw (h : XHdr) (uns : Bool) (pa pb : Fin 4) (d : VDst) (a b c : VSrc)
  | vrsh (h : XHdr) (t : RshT) (p : Fin 4) (d : VDst) (a b c : VSrc)
  | vdot4 (h : XHdr) (ua ub : Bool) (d : VDst) (a b c : VSrc)
  -- conversions and permutes (spec/07 R134-R139)
  | vcvt (h : XHdr) (dst : Fmt) (src : CvtSrc) (p : Fin 4) (d : VDst) (a c : VSrc)
  | vdq (h : XHdr) (f : DqFmt) (p : Fin 8) (d : VDst) (a b c : VSrc)
  | vbc (h : XHdr) (d : VDst) (a : SSrc)
  | vbcLn (h : XHdr) (d : VDst) (a : VSrc) (b : SSrc)
  | vperm (h : XHdr) (d : VDst) (a b c : VSrc)
  | vnzscan (h : XHdr) (f32 : Bool) (d : VDst) (a : VSrc) (b : SSrc)
  | vnzscanCnt (h : XHdr) (f32 : Bool) (d : SDst) (a : VSrc)
  | vnzscanMsk (h : XHdr) (f32 : Bool) (d : SDst) (a : VSrc)
  | vmerge (h : XHdr) (d : VDst) (a b c : VSrc)
  | vscan (h : XHdr) (op : ScanOp) (ex : Bool) (d : VDst) (a : VSrc)
  -- domain unit (spec/08 R142)
  | dadd (h : XHdr) (keep : Bool) (c a b : Fin 32)
  | dsub (h : XHdr) (keep : Bool) (c a b : Fin 32)
  | dmulc (h : XHdr) (keep : Bool) (c a : Fin 32) (k : SSrc)
  | dlt (h : XHdr) (keep : Bool) (a b : Fin 32)
  | dle (h : XHdr) (keep : Bool) (a b : Fin 32)
  | deq (h : XHdr) (keep : Bool) (a b : Fin 32)
  | dne (h : XHdr) (keep : Bool) (a b : Fin 32)
  | dint (h : XHdr) (a : Fin 32) (lo hi : SSrc)
  | dexcl (h : XHdr) (a : Fin 32) (v : SSrc)
  | dfix (h : XHdr) (a : Fin 32) (v : SSrc)
  | delem (h : XHdr) (keep : Bool) (a i : Fin 32) (t : Fin 28)
  | dlo (h : XHdr) (d : SDst) (a : Fin 32)
  | dhi (h : XHdr) (d : SDst) (a : Fin 32)
  | dsize (h : XHdr) (d : SDst) (a : Fin 32)
  | dget (h : XHdr) (d : SDst) (a : Fin 32) (w : Fin 4)
  | dtestIn (h : XHdr) (p : Fin 8) (a : Fin 32) (v : SSrc)
  | dtestOne (h : XHdr) (p : Fin 8) (a : Fin 32)
  | dpick (h : XHdr) (d : SDst) (a : Fin 32)
  | dset (h : XHdr) (a : Fin 32) (lo hi : SSrc)
  | dsetw (h : XHdr) (a : Fin 32) (lo w0 w1 : SSrc)
  | dprop (h : XHdr)
  | dsave (h : XHdr)
  | drest (h : XHdr)
  | ddrop (h : XHdr)
  | dclr (h : XHdr)
  -- X control (spec/06 R112, R115, R118)
  | xBr (h : XHdr) (disp : BitVec 16)
  | xJr (h : XHdr) (a : SSrc)
  | xCall (h : XHdr) (d : SDst) (disp : BitVec 16)
  | xRet (h : XHdr) (a : SSrc)
  | brq (h : XHdr) (disp : BitVec 16)
  | brqN (h : XHdr) (disp : BitVec 16)
  | xLoop (h : XHdr) (l : Bool) (a : SSrc) (disp : BitVec 16)
  | join (h : XHdr) (b : Fin 8) (m : BitVec 4)
  | ccset (h : XHdr) (b : Fin 8)
  | ccclr (h : XHdr) (b : Fin 8)
  | xPause (h : XHdr) (n : BitVec 16)
  | xFin (h : XHdr)
  -- X memory (spec/10 R199, spec/12 R241, spec/11 R228)
  | xLd (h : XHdr) (cls : Fin 8) (ty : XTy) (d : SDst) (a b : SSrc)
  | xSt (h : XHdr) (cls : Fin 8) (ty : XTy) (a b c : SSrc)
  | vld (h : XHdr) (cls : Fin 8) (d : VDst) (a b : SSrc)
  | vst (h : XHdr) (cls : Fin 8) (a b : SSrc) (c : VSrc)
  | vldx (h : XHdr) (cls : Fin 8) (d : VDst) (a : SSrc) (b : VSrc)
  | vstx (h : XHdr) (cls : Fin 8) (a : SSrc) (b c : VSrc)
  | ldacq (h : XHdr) (cls : Fin 8) (d : SDst) (a b : SSrc)
  | accrd (h : XHdr) (d : VDst) (acc : Fin 4) (row : SSrc) (cnt : CntDst)
  -- X fence and system (spec/12 R243, spec/18 R291)
  | xFence (h : XHdr) (k : FenceKind) (sc : Scope)
  | xTrap (h : XHdr) (n : BitVec 16)
  | eret (h : XHdr)
  | xSysr (h : XHdr) (d : SDst) (cr : BitVec 12)
  | xSysw (h : XHdr) (a : SSrc) (cr : BitVec 12)
  | halt (h : XHdr)
  | dbgstop (h : XHdr) (n : BitVec 16)
  | yield (h : XHdr)
  -- A stream: arithmetic (spec/10 R194)
  | aAdd (h : AHdr) (d a b : Fin 32)
  | aSub (h : AHdr) (d a b : Fin 32)
  | aAnd (h : AHdr) (d a b : Fin 32)
  | aOr (h : AHdr) (d a b : Fin 32)
  | aXor (h : AHdr) (d a b : Fin 32)
  | aShl (h : AHdr) (d a b : Fin 32)
  | aShr (h : AHdr) (d a b : Fin 32)
  | aSra (h : AHdr) (d a b : Fin 32)
  | aMul (h : AHdr) (d a b : Fin 32)
  | aMin (h : AHdr) (uns : Bool) (d a b : Fin 32)
  | aMax (h : AHdr) (uns : Bool) (d a b : Fin 32)
  | aBfx (h : AHdr) (sx : Bool) (w : Fin 64) (d a p : Fin 32)
  | aAddi (h : AHdr) (d a : Fin 32) (i : BitVec 16)
  | aAndi (h : AHdr) (d a : Fin 32) (i : BitVec 16)
  | aLi (h : AHdr) (d : Fin 32) (i : BitVec 16)
  | aLih (h : AHdr) (d a : Fin 32) (i : BitVec 16) (k : Fin 4)
  -- A memory (spec/10 R195-R198, spec/12 R239)
  | aLd (h : AHdr) (cls : Fin 8) (sp : Bool) (ty : ATy) (d a i : Fin 32) (off : BitVec 8)
  | aSt (h : AHdr) (cls : Fin 8) (sp : Bool) (ty : ATy) (d a i : Fin 32) (off : BitVec 8)
  | lda (h : AHdr) (cls : Fin 8) (sc : Scope) (ty : ATy) (d a i : Fin 32) (off : BitVec 8)
  | stl (h : AHdr) (cls : Fin 8) (sc : Scope) (ty : ATy) (d a i : Fin 32) (off : BitVec 8)
  | ldq (h : AHdr) (cls : Fin 8) (sp : Bool) (q : Fin 8) (a i : Fin 32) (off : BitVec 8)
  | ldd (h : AHdr) (cls : Fin 8) (sp : Bool) (q : Fin 4) (hs : Fin 16) (c : Fin 32)
  | stz (h : AHdr) (cls : Fin 8) (sp : Bool) (q : Fin 4) (hs : Fin 16) (c : Fin 32)
  -- atomics and reductions (spec/12 R244)
  | aswap (h : AHdr) (cls : Fin 8) (w64 : Bool) (sem : Sem) (d a v : Fin 32)
  | acas (h : AHdr) (cls : Fin 8) (w64 : Bool) (sem : Sem) (d a v : Fin 32)
  | aadd (h : AHdr) (cls : Fin 8) (w64 : Bool) (sem : Sem) (d a v : Fin 32)
  | aand (h : AHdr) (cls : Fin 8) (w64 : Bool) (sem : Sem) (d a v : Fin 32)
  | aor (h : AHdr) (cls : Fin 8) (w64 : Bool) (sem : Sem) (d a v : Fin 32)
  | axor (h : AHdr) (cls : Fin 8) (w64 : Bool) (sem : Sem) (d a v : Fin 32)
  | amin (h : AHdr) (cls : Fin 8) (w64 : Bool) (sem : Sem) (d a v : Fin 32)
  | amax (h : AHdr) (cls : Fin 8) (w64 : Bool) (sem : Sem) (d a v : Fin 32)
  | aminu (h : AHdr) (cls : Fin 8) (w64 : Bool) (sem : Sem) (d a v : Fin 32)
  | amaxu (h : AHdr) (cls : Fin 8) (w64 : Bool) (sem : Sem) (d a v : Fin 32)
  | redadd (h : AHdr) (cls : Fin 8) (w64 : Bool) (rel : Bool) (a v : Fin 32)
  | redmin (h : AHdr) (cls : Fin 8) (w64 : Bool) (uns : Bool) (rel : Bool) (a v : Fin 32)
  | redmax (h : AHdr) (cls : Fin 8) (w64 : Bool) (uns : Bool) (rel : Bool) (a v : Fin 32)
  | redand (h : AHdr) (cls : Fin 8) (w64 : Bool) (rel : Bool) (a v : Fin 32)
  | redor (h : AHdr) (cls : Fin 8) (w64 : Bool) (rel : Bool) (a v : Fin 32)
  | redxor (h : AHdr) (cls : Fin 8) (w64 : Bool) (rel : Bool) (a v : Fin 32)
  | redfaddO (h : AHdr) (cls : Fin 8) (rel : Bool) (a v : Fin 32)
  | redfaddU (h : AHdr) (cls : Fin 8) (rel : Bool) (a v : Fin 32)
  | redfmin (h : AHdr) (cls : Fin 8) (rel : Bool) (a v : Fin 32)
  | redfmax (h : AHdr) (cls : Fin 8) (rel : Bool) (a v : Fin 32)
  -- rings and owner bits (spec/10 R188, R191)
  | rgcfg (h : AHdr) (r : Fin 16) (c : Fin 32)
  | rgwfree (h : AHdr) (d : Fin 32) (r : Fin 16) (n : Fin 128)
  | rgwfill (h : AHdr) (d : Fin 32) (r : Fin 16) (n : Fin 128)
  | rgput (h : AHdr) (r : Fin 16) (n : Fin 128)
  | rgtake (h : AHdr) (r : Fin 16) (n : Fin 128)
  | rgrel (h : AHdr) (r : Fin 16) (n : Fin 128)
  | rgrot (h : AHdr) (s t : Fin 32)
  | give (h : AHdr) (t : Fin 32) (n : Fin 128)
  | take (h : AHdr) (t : Fin 32) (n : Fin 128)
  -- A control (spec/06 R114, R115, R118)
  | beq (h : AHdr) (mode : BrMod) (a b : Fin 32) (disp : BitVec 12)
  | bne (h : AHdr) (mode : BrMod) (a b : Fin 32) (disp : BitVec 12)
  | blt (h : AHdr) (mode : BrMod) (a b : Fin 32) (disp : BitVec 12)
  | bge (h : AHdr) (mode : BrMod) (a b : Fin 32) (disp : BitVec 12)
  | bltu (h : AHdr) (mode : BrMod) (a b : Fin 32) (disp : BitVec 12)
  | bgeu (h : AHdr) (mode : BrMod) (a b : Fin 32) (disp : BitVec 12)
  | jmp (h : AHdr) (disp : BitVec 26)
  | aJr (h : AHdr) (a : Fin 32)
  | aCall (h : AHdr) (d : Fin 32) (disp : BitVec 21)
  | aRet (h : AHdr) (a : Fin 32)
  | aLoop (h : AHdr) (l : Bool) (a : Fin 32) (disp : BitVec 11)
  | aPause (h : AHdr) (n : BitVec 16)
  -- fences, Col, counting barrier, seal (spec/12)
  | fenceAcq (h : AHdr) (sc : Scope)
  | fenceRel (h : AHdr) (sc : Scope)
  | fenceSc (h : AHdr) (sc : Scope)
  | colarrRlx (h : AHdr) (b : Fin 32)
  | colarrRel (h : AHdr) (b : Fin 32)
  | colwait (h : AHdr) (b : Fin 32)
  | colsync (h : AHdr) (b : Fin 32)
  | barc (h : AHdr) (d a e : Fin 32)
  -- A system and launch (spec/18 R292, spec/05 R95, R96)
  | aSysr (h : AHdr) (d : Fin 32) (cr : BitVec 12)
  | aSysw (h : AHdr) (a : Fin 32) (cr : BitVec 12)
  | aTrap (h : AHdr) (n : Fin 128)
  | tlbinv (h : AHdr) (v l : Fin 32)
  | ctxsw (h : AHdr) (b : Fin 32)
  | ctxbank (h : AHdr) (s v : Fin 32)
  | lnch (h : AHdr) (d r : Fin 32) (q : Fin 64)
  | lcancel (h : AHdr) (d i : Fin 32)
  | lcancelUnit (h : AHdr) (d i u : Fin 32)
  | lwait (h : AHdr) (d i : Fin 32)
  | evset (h : AHdr) (b : Fin 32) (c : EvCtx)
  | evclr (h : AHdr) (b : Fin 32) (c : EvCtx)
  | evtest (h : AHdr) (d b : Fin 32) (c : EvCtx)
  -- handles (spec/04 R71)
  | hld (h : AHdr) (cls : Fin 8) (r : Fin 16) (a : Fin 32) (off : BitVec 7)
  | hst (h : AHdr) (cls : Fin 8) (r : Fin 16) (a : Fin 32) (off : BitVec 7)
  | hview (h : AHdr) (d s : Fin 16) (k : Fin 32)
  | htrans (h : AHdr) (d s : Fin 16)
  | hshape (h : AHdr) (d s : Fin 16) (k : Fin 32)
  -- copy commands (spec/10 R205)
  | cpy (h : LHdr) (ss ds : Bool) (rp : Option (Fin 16)) (d s : Fin 16)
  | cpg (h : LHdr) (ss ds : Bool) (rp : Option (Fin 16)) (d s : Fin 16) (l : Fin 32)
  | cps (h : LHdr) (ss ds : Bool) (rp : Option (Fin 16)) (d s : Fin 16) (l : Fin 32)
  | cpq (h : LHdr) (ss ds : Bool) (rp : Option (Fin 16)) (d s : Fin 16)
  | cpm (h : LHdr) (o a b : Fin 32)
  -- M stream (spec/11 R217)
  | mnop (h : MHdr)
  | mlease (h : MHdr)
  | mfree (h : MHdr)
  | mfin (h : MHdr)
  | mmul (h : MHdr) (t c : Bool) (ra rb : Fin 16) (acc : Fin 4) (ks : Fin 128) (fa fb : Fmt) (bm nm : Bool)
      (ka kb : Fin 8) (wl i32 : Bool)
  | mwload (h : MHdr) (rb : Fin 16) (fb : Fmt) (kb : Fin 8)
  | mwloadnm (h : MHdr) (rb : Fin 16) (fb : Fmt) (kb : Fin 8)
  | mdrain (h : MHdr) (t c q : Bool) (ro : Fin 16) (acc : Fin 4) (f : Fmt) (ko : Option (Fin 8))
  | mzero (h : MHdr) (acc : Fin 4) (i32 : Bool)
  | msnap (h : MHdr) (ro : Fin 16) (acc : Fin 4) (kd : Fin 8)
  | mpred (h : MHdr) (ra rb : Fin 16) (fa fb : Fmt) (kd kt : Fin 8)
  | mscan (h : MHdr) (ro : Fin 16) (km kb : Fin 8)
  | mkli (h : MHdr) (kd : Fin 8) (i : BitVec 32)
  | mkadd (h : MHdr) (kd ks : Fin 8) (i : BitVec 24)
  | mloop (h : MHdr) (l : Bool) (n : MCount) (disp : BitVec 13)
  | mbnz (h : MHdr) (kn : Fin 8) (disp : BitVec 20)
  -- A words without any field (spec/06 R118, spec/12 R253)
  | aFin
  | seal
  -- steps of the device (spec/95): what each one acts on stands in `State.ev`
  | xResultLanding | tokenPoppable | queueEntryPoppable | aWordRetire | stampOverrun
  | waitBound | handlerStart | boundaryCauseDelivery | copyFault | oredFull
  | propagationRun | globalAccessAtOwner | pageTableWalk | pageFaultFreeze | faultBatchTimer
  | faultBatchCount | faultAnswer | priGroupResponse | priResponseFailure | replayListResend
  | invalidationComplete | atsInvalidation | inboundHostWrite | inboundHostRead | rgrotExchange
  | rgrotExchangeEnd | copyChannelStart | copyRowCommit | copyCommandComplete | leaseGrant
  | leaseEndCycles | leaseEndCommands | arrayCommandStart | arraySlotFetch | kStepStart
  | kStepLanding | arrayCommandRetire | drainStart | drainWrite | mzeroEffect
  | msnapWrite | mpredResult | mscanWrite | arrayReplay | queueDoorbell
  | queueHeadCheck | entryDispatch | unitDispatch | unitStart | unitCompletion
  | hostNodeDoorbell | completionRecord | cancelStop | preemption | phaseClose
  | sealInputRise | sealLineFire | sealLineArrival | phaseOpen | jobCompletion
  | closePhase | endJob | hostStop | hostResume | queueReset
  | resetTruncatedTrace | partitionSwap | bankSwitchTslice | colInputRise | colReleaseFire
  | colReleaseArrival | evsetEffect | evclrEffect | intervalRollback | phaseRestart
  | undoTimeout | holdTimeout | lineTagSweep | testPassComplete | dvreqWrite
  | voltageRampEnd | pllRelockEnd | dvfsSample | coolantShortfall | mailboxPart
  | mailboxBind | mailboxOvfext | mailboxDvreq | mailboxVmin | mailboxPwrlim
  | mailboxStage | mailboxAttest | mailboxColspan | mailboxRetry | mailboxTlbinv
  | deviceResetStart | bootctlGo | goTimeout | firmwareEventAck | spanReadRequest
  | spanWrite | spanReadCompletion | spanAtomic | spanCol | spanSeal
  | spanCredit | spanFaultReply | spanPortFail | breakpoint | headSample
  | recordedInputInject | lcWrite | sfcloRead | colerrWrite | accliveWrite
  | fltctlWrite | dbgctlPclr | trcctlWrite | replayctlWrite | registerWrite
  | imageLoad | queueTableRegistration | frqheadWrite | shadowWritebackEnd
  deriving DecidableEq, Repr

end Sys2Proof
end

