-- ==== Sys2Proof/Decode.lean ====
section
/-! DEFINITION. Decode.lean: the words of the three streams to the bit (spec/02 R25-R40 and the encoding tables of each
chapter), decoded totally, each refusal by name, and the encoder. A refused word raises ILLEGAL_INSTR at issue (R24). -/
namespace Sys2Proof

/-- Why a word is no instruction (spec/02 R40). -/
inductive DecodeError where
  | reservedOp
  | badField (what : String)
  deriving DecidableEq, Repr

/-- Refuse unless the field check holds. -/
def must (c : Bool) (what : String) : Except DecodeError Unit :=
  if c then .ok () else .error (.badField what)

/-! ## Fields -/

/-- Fields of an X syllable (R25); IMM16 is `sb ++ sc`. -/
structure XFields where
  s : BitVec 1 := 0
  op : BitVec 8 := 0
  g : BitVec 3 := 0
  gn : BitVec 1 := 0
  dst : BitVec 8 := 0
  sa : BitVec 8 := 0
  sb : BitVec 8 := 0
  sc : BitVec 8 := 0
  wf : BitVec 4 := 0
  we : BitVec 1 := 0
  pf : BitVec 4 := 0
  pe : BitVec 1 := 0
  sub : BitVec 3 := 0
  fn : BitVec 6 := 0
  deriving DecidableEq, Repr

/-- Fields of an A word (R31); FN/IMM11 is `fhi ++ sel`, IMM16 is `as2 ++ fhi ++ sel`. -/
structure AFields where
  op : BitVec 6 := 0
  ad : BitVec 5 := 0
  as1 : BitVec 5 := 0
  as2 : BitVec 5 := 0
  fhi : BitVec 7 := 0
  sel : BitVec 4 := 0
  wf : BitVec 4 := 0
  we : BitVec 1 := 0
  pf : BitVec 4 := 0
  pe : BitVec 1 := 0
  ac : BitVec 3 := 0
  md : BitVec 3 := 0
  deriving DecidableEq, Repr

/-- Fields of the second word of a long form (R33). -/
structure LFields where
  stamp : BitVec 24 := 0
  bound : BitVec 20 := 0
  ext : BitVec 4 := 0
  deriving DecidableEq, Repr

/-- Fields of an M word (R34). -/
structure MFields where
  op : BitVec 8 := 0
  stamp : BitVec 24 := 0
  bound : BitVec 20 := 0
  t : BitVec 1 := 0
  c : BitVec 1 := 0
  q : BitVec 1 := 0
  ra : BitVec 4 := 0
  rb : BitVec 4 := 0
  acc : BitVec 2 := 0
  ks : BitVec 7 := 0
  fa : BitVec 4 := 0
  fb : BitVec 4 := 0
  sp : BitVec 2 := 0
  wf : BitVec 4 := 0
  we : BitVec 1 := 0
  pf : BitVec 4 := 0
  pe : BitVec 1 := 0
  opnd : BitVec 36 := 0
  deriving DecidableEq, Repr

def xPack (f : XFields) : BitVec 64 :=
  f.s ++ f.op ++ f.g ++ f.gn ++ f.dst ++ f.sa ++ f.sb ++ f.sc ++ f.wf ++ f.we ++ f.pf ++ f.pe ++ f.sub ++ f.fn

def xUnpack (w : BitVec 64) : XFields :=
  { s := w.extractLsb' 63 1, op := w.extractLsb' 55 8, g := w.extractLsb' 52 3, gn := w.extractLsb' 51 1,
    dst := w.extractLsb' 43 8, sa := w.extractLsb' 35 8, sb := w.extractLsb' 27 8, sc := w.extractLsb' 19 8,
    wf := w.extractLsb' 15 4, we := w.extractLsb' 14 1, pf := w.extractLsb' 10 4, pe := w.extractLsb' 9 1,
    sub := w.extractLsb' 6 3, fn := w.extractLsb' 0 6 }

def aPack (f : AFields) : BitVec 48 :=
  f.op ++ f.ad ++ f.as1 ++ f.as2 ++ f.fhi ++ f.sel ++ f.wf ++ f.we ++ f.pf ++ f.pe ++ f.ac ++ f.md

def aUnpack (w : BitVec 48) : AFields :=
  { op := w.extractLsb' 42 6, ad := w.extractLsb' 37 5, as1 := w.extractLsb' 32 5, as2 := w.extractLsb' 27 5,
    fhi := w.extractLsb' 20 7, sel := w.extractLsb' 16 4, wf := w.extractLsb' 12 4, we := w.extractLsb' 11 1,
    pf := w.extractLsb' 7 4, pe := w.extractLsb' 6 1, ac := w.extractLsb' 3 3, md := w.extractLsb' 0 3 }

def lPack (f : LFields) : BitVec 48 := f.stamp ++ f.bound ++ f.ext

def lUnpack (w : BitVec 48) : LFields :=
  { stamp := w.extractLsb' 24 24, bound := w.extractLsb' 4 20, ext := w.extractLsb' 0 4 }

def mPack (f : MFields) : BitVec 128 :=
  f.op ++ f.stamp ++ f.bound ++ f.t ++ f.c ++ f.q ++ f.ra ++ f.rb ++ f.acc ++ f.ks ++ f.fa ++ f.fb ++ f.sp ++
    f.wf ++ f.we ++ f.pf ++ f.pe ++ f.opnd

def mUnpack (w : BitVec 128) : MFields :=
  { op := w.extractLsb' 120 8, stamp := w.extractLsb' 96 24, bound := w.extractLsb' 76 20, t := w.extractLsb' 75 1,
    c := w.extractLsb' 74 1, q := w.extractLsb' 73 1, ra := w.extractLsb' 69 4, rb := w.extractLsb' 65 4,
    acc := w.extractLsb' 63 2, ks := w.extractLsb' 56 7, fa := w.extractLsb' 52 4, fb := w.extractLsb' 48 4,
    sp := w.extractLsb' 46 2, wf := w.extractLsb' 42 4, we := w.extractLsb' 41 1, pf := w.extractLsb' 37 4,
    pe := w.extractLsb' 36 1, opnd := w.extractLsb' 0 36 }

/-! ## Operand fields -/

def encBool (b : Bool) : BitVec n := if b then 1 else 0

def decBool (b : BitVec n) (what : String) : Except DecodeError Bool :=
  if b = 0 then .ok false else if b = 1 then .ok true else .error (.badField what)

def fin8 (n : Nat) (b : BitVec 8) (what : String) : Except DecodeError (Fin n) :=
  if h : b.toNat < n then .ok ⟨b.toNat, h⟩ else .error (.badField what)

/-- A five-bit register number below `n`: tensor handles, rings, queues (R32). -/
def fin5 (n : Nat) (b : BitVec 5) (what : String) : Except DecodeError (Fin n) :=
  if h : b.toNat < n then .ok ⟨b.toNat, h⟩ else .error (.badField what)

def decTok (f : BitVec 4) (e : BitVec 1) : Except DecodeError (Option (Fin 16)) :=
  if e = 1 then .ok (some f.toFin) else if f = 0 then .ok none else .error (.badField "token field")

def encTokF (t : Option (Fin 16)) : BitVec 4 := match t with | some f => BitVec.ofFin f | none => 0

def encTokE (t : Option (Fin 16)) : BitVec 1 := match t with | some _ => 1 | none => 0

/-- Scalar sources (R5, R27). -/
def decSSrc (b : BitVec 8) : Except DecodeError SSrc :=
  if h : b.toNat < 56 then .ok (.reg ⟨b.toNat, h⟩)
  else if h : b.toNat - 56 < 4 then .ok (.queue ⟨b.toNat - 56, h⟩)
  else if b.toNat < 64 then .error (.badField "scalar source")
  else if h : b.toNat - 64 < 8 then .ok (.ofile ⟨b.toNat - 64, h⟩)
  else if h : b.toNat - 72 < 4 then .ok (.lx ⟨b.toNat - 72, h⟩)
  else if b.toNat < 128 then .error (.badField "scalar source")
  else .ok (.imm (b.setWidth 7))

def encSSrc : SSrc → BitVec 8
  | .reg n => BitVec.ofNat 8 n.val
  | .queue q => BitVec.ofNat 8 (56 + q.val)
  | .ofile n => BitVec.ofNat 8 (64 + n.val)
  | .lx c => BitVec.ofNat 8 (72 + c.val)
  | .imm v => 1#1 ++ v

/-- Vector sources (R5, R27). -/
def decVSrc (b : BitVec 8) : Except DecodeError VSrc :=
  if h : b.toNat < 28 then .ok (.reg ⟨b.toNat, h⟩)
  else if h : b.toNat - 28 < 4 then .ok (.queue ⟨b.toNat - 28, h⟩)
  else if b.toNat < 64 then .error (.badField "vector source")
  else if h : b.toNat - 64 < 8 then .ok (.ofile ⟨b.toNat - 64, h⟩)
  else if h : b.toNat - 72 < 4 then .ok (.lx ⟨b.toNat - 72, h⟩)
  else if b.toNat < 128 then .error (.badField "vector source")
  else .ok (.imm (b.setWidth 7))

def encVSrc : VSrc → BitVec 8
  | .reg n => BitVec.ofNat 8 n.val
  | .queue q => BitVec.ofNat 8 (28 + q.val)
  | .ofile n => BitVec.ofNat 8 (64 + n.val)
  | .lx c => BitVec.ofNat 8 (72 + c.val)
  | .imm v => 1#1 ++ v

/-- Scalar destinations (R6, R27). -/
def decSDst (b : BitVec 8) : Except DecodeError SDst :=
  if h : b.toNat < 56 then .ok (.reg ⟨b.toNat, h⟩)
  else if h : b.toNat - 56 < 4 then .ok (.queue ⟨b.toNat - 56, h⟩)
  else if b.toNat < 64 then .error (.badField "scalar destination")
  else if h : b.toNat - 64 < 8 then .ok (.ofile ⟨b.toNat - 64, h⟩)
  else if h : b.toNat - 72 < 4 then .ok (.lx ⟨b.toNat - 72, h⟩)
  else .error (.badField "scalar destination")

def encSDst : SDst → BitVec 8
  | .reg n => BitVec.ofNat 8 n.val
  | .queue q => BitVec.ofNat 8 (56 + q.val)
  | .ofile n => BitVec.ofNat 8 (64 + n.val)
  | .lx c => BitVec.ofNat 8 (72 + c.val)

/-- Vector destinations (R6, R27). -/
def decVDst (b : BitVec 8) : Except DecodeError VDst :=
  if h : b.toNat < 28 then .ok (.reg ⟨b.toNat, h⟩)
  else if h : b.toNat - 28 < 4 then .ok (.queue ⟨b.toNat - 28, h⟩)
  else if b.toNat < 64 then .error (.badField "vector destination")
  else if h : b.toNat - 64 < 8 then .ok (.ofile ⟨b.toNat - 64, h⟩)
  else if h : b.toNat - 72 < 4 then .ok (.lx ⟨b.toNat - 72, h⟩)
  else .error (.badField "vector destination")

def encVDst : VDst → BitVec 8
  | .reg n => BitVec.ofNat 8 n.val
  | .queue q => BitVec.ofNat 8 (28 + q.val)
  | .ofile n => BitVec.ofNat 8 (64 + n.val)
  | .lx c => BitVec.ofNat 8 (72 + c.val)

/-- The count destination of `accrd` (spec/11 R228). -/
def decCnt (b : BitVec 8) : Except DecodeError CntDst :=
  if h : b.toNat < 56 then .ok (.reg ⟨b.toNat, h⟩)
  else if b.toNat < 64 then .error (.badField "count destination")
  else if h : b.toNat - 64 < 8 then .ok (.ofile ⟨b.toNat - 64, h⟩)
  else .error (.badField "count destination")

def encCnt : CntDst → BitVec 8
  | .reg n => BitVec.ofNat 8 n.val
  | .ofile n => BitVec.ofNat 8 (64 + n.val)

/-- A predicate destination, 1-7 (R27). -/
def decPredD (b : BitVec 8) : Except DecodeError (Fin 8) :=
  if b = 0 then .error (.badField "predicate destination") else fin8 8 b "predicate destination"

def encICond : ICond → BitVec 6
  | .eq => 0 | .ne => 1 | .lt => 2 | .le => 3 | .gt => 4 | .ge => 5 | .ltu => 6 | .leu => 7 | .gtu => 8 | .geu => 9

def decICond (b : BitVec 6) : Except DecodeError ICond :=
  match b.toNat with
  | 0 => .ok .eq | 1 => .ok .ne | 2 => .ok .lt | 3 => .ok .le | 4 => .ok .gt | 5 => .ok .ge | 6 => .ok .ltu
  | 7 => .ok .leu | 8 => .ok .gtu | 9 => .ok .geu | _ => .error (.badField "condition")

def encFCond : FCond → BitVec 6
  | .eq => 0 | .ne => 1 | .lt => 2 | .le => 3 | .gt => 4 | .ge => 5 | .uo => 6 | .or => 7

def decFCond (b : BitVec 6) : Except DecodeError FCond :=
  match b.toNat with
  | 0 => .ok .eq | 1 => .ok .ne | 2 => .ok .lt | 3 => .ok .le | 4 => .ok .gt | 5 => .ok .ge | 6 => .ok .uo
  | 7 => .ok .or | _ => .error (.badField "condition")

/-- A field width, 1-32 (spec/07 R122). -/
def decWidth (b : BitVec 6) : Except DecodeError (Fin 64) :=
  if 1 ≤ b.toNat ∧ b.toNat ≤ 32 then .ok b.toFin else .error (.badField "width")

def decLea (b : BitVec 3) : Except DecodeError (Fin 8) :=
  if b.toNat ≤ 4 then .ok b.toFin else .error (.badField "shift")

def decShImm (b : BitVec 16) : Except DecodeError (BitVec 16) :=
  if b.toNat < 32 then .ok b else .error (.badField "shift count")

/-- A loop displacement, 1-32767 (spec/06 R112). -/
def decLoopImm (b : BitVec 16) : Except DecodeError (BitVec 16) :=
  if 1 ≤ b.toNat ∧ b.toNat ≤ 32767 then .ok b else .error (.badField "displacement")

/-- A pause count, 1-4095 (spec/06 R112, R118). -/
def decPauseImm (b : BitVec 16) : Except DecodeError (BitVec 16) :=
  if 1 ≤ b.toNat ∧ b.toNat ≤ 4095 then .ok b else .error (.badField "pause count")

/-- A control register number (spec/18 R291). -/
def decCr (b : BitVec 16) : Except DecodeError (BitVec 12) :=
  if b.toNat < 4096 then .ok (b.setWidth 12) else .error (.badField "register number")

def decMask (b : BitVec 8) : Except DecodeError (BitVec 4) :=
  if 1 ≤ b.toNat ∧ b.toNat ≤ 15 then .ok (b.setWidth 4) else .error (.badField "column mask")

def encXTy : XTy → BitVec 6 | .n8 => 0 | .i8 => 1 | .n16 => 2 | .i16 => 3 | .w32 => 4

def decXTy (b : BitVec 6) : Except DecodeError XTy :=
  match b.toNat with
  | 0 => .ok .n8 | 1 => .ok .i8 | 2 => .ok .n16 | 3 => .ok .i16 | 4 => .ok .w32 | _ => .error (.badField "type")

def encScanOp : ScanOp → BitVec 6 | .add => 0 | .maxi => 1 | .mini => 2 | .maxn => 3 | .minn => 4

def decScanOp (b : BitVec 6) : Except DecodeError ScanOp :=
  match b.toNat with
  | 0 => .ok .add | 1 => .ok .maxi | 2 => .ok .mini | 3 => .ok .maxn | 4 => .ok .minn
  | _ => .error (.badField "operator")

def encFence6 : FenceKind → BitVec 6 | .acq => 0 | .rel => 1 | .sc => 2

def decFence6 (b : BitVec 6) : Except DecodeError FenceKind :=
  match b.toNat with | 0 => .ok .acq | 1 => .ok .rel | 2 => .ok .sc | _ => .error (.badField "fence kind")

def encScope : Scope → BitVec 3 | .col => 0 | .core => 1 | .cluster => 2 | .die => 3 | .device => 4 | .system => 5

def decScope (b : BitVec 3) : Except DecodeError Scope :=
  match b.toNat with
  | 0 => .ok .col | 1 => .ok .core | 2 => .ok .cluster | 3 => .ok .die | 4 => .ok .device | 5 => .ok .system
  | _ => .error (.badField "scope")

/-- The scopes legal in A (R35). -/
def decAScope (b : BitVec 3) : Except DecodeError Scope :=
  if b = 0 then .error (.badField "scope") else decScope b

def encVmacw (u : Bool) (pa pb : Fin 4) : BitVec 6 := BitVec.ofNat 6 (16 * u.toNat + 4 * pb.val + pa.val)

def decVmacw (b : BitVec 6) : Except DecodeError (Bool × Fin 4 × Fin 4) :=
  if b.toNat < 32 then .ok (b.getLsbD 4, (b.extractLsb' 0 2).toFin, (b.extractLsb' 2 2).toFin)
  else .error (.badField "FN")

def encDot4 (ua ub : Bool) : BitVec 6 := BitVec.ofNat 6 (ua.toNat + 2 * ub.toNat)

def decDot4 (b : BitVec 6) : Except DecodeError (Bool × Bool) :=
  if b.toNat < 4 then .ok (b.getLsbD 0, b.getLsbD 1) else .error (.badField "FN")

def encRshT : RshT → BitVec 6 | .i32 => 0 | .i8 => 1 | .n8 => 2

def decRshT (b : BitVec 6) : Except DecodeError RshT :=
  match b.toNat with | 0 => .ok .i32 | 1 => .ok .i8 | 2 => .ok .n8 | _ => .error (.badField "target")

def decP4 (b : BitVec 3) : Except DecodeError (Fin 4) :=
  if h : b.toNat < 4 then .ok ⟨b.toNat, h⟩ else .error (.badField "part")

/-- With target i32 the part is 0 and SC is 0x00 (spec/07 R133). -/
def wfVrsh (t : RshT) (p : Fin 4) (_ : VDst) (_ _ c : VSrc) : Bool := t != .i32 || (p == 0 && c == .reg 0)

def encFmt : Fmt → BitVec 4
  | .fp32 => 0 | .bf16 => 1 | .fp16 => 2 | .f8 => 3 | .int8 => 4 | .d8 => 5 | .d4 => 6 | .t5 => 7 | .int32 => 8

/-- Format codes 9-15 are illegal in a word (R40). -/
def decFmt (b : BitVec 4) : Except DecodeError Fmt :=
  match b.toNat with
  | 0 => .ok .fp32 | 1 => .ok .bf16 | 2 => .ok .fp16 | 3 => .ok .f8 | 4 => .ok .int8 | 5 => .ok .d8 | 6 => .ok .d4
  | 7 => .ok .t5 | 8 => .ok .int32 | _ => .error (.badField "format")

def encCvtD (f : Fmt) (p : Fin 4) : BitVec 6 := BitVec.ofFin p ++ encFmt f

def decCvtD (b : BitVec 6) : Except DecodeError (Fmt × Fin 4) :=
  match decFmt (b.extractLsb' 0 4) with
  | .ok f => .ok (f, (b.extractLsb' 4 2).toFin)
  | .error e => .error e

def encCvtS : CvtSrc → BitVec 3 | .fp32 => 0 | .bf16 => 1 | .fp16 => 2 | .f8 => 3 | .int8 => 4 | .int32 => 5

def decCvtS (b : BitVec 3) : Except DecodeError CvtSrc :=
  match b.toNat with
  | 0 => .ok .fp32 | 1 => .ok .bf16 | 2 => .ok .fp16 | 3 => .ok .f8 | 4 => .ok .int8 | 5 => .ok .int32
  | _ => .error (.badField "source format")

/-- Width in bits of a format that `vcvt` takes; 0 for the others. -/
def Fmt.cvtWidth : Fmt → Nat
  | .fp32 => 32 | .bf16 => 16 | .fp16 => 16 | .f8 => 8 | .int8 => 8 | .int32 => 32 | _ => 0

def CvtSrc.fmt : CvtSrc → Fmt
  | .fp32 => .fp32 | .bf16 => .bf16 | .fp16 => .fp16 | .f8 => .f8 | .int8 => .int8 | .int32 => .int32

/-- Legal pairs, parts and SC of `vcvt` (spec/07 R134). -/
def wfVcvt (df : Fmt) (sf : CvtSrc) (p : Fin 4) (_ : VDst) (_ c : VSrc) : Bool :=
  df.cvtWidth != 0 && df != sf.fmt && p.val < 32 / min df.cvtWidth sf.fmt.cvtWidth &&
    (df.cvtWidth != 32 || c == .reg 0)

def encDqF : DqFmt → BitVec 6 | .d8 => 5 | .d4 => 6 | .t5 => 7

def decDqF (b : BitVec 6) : Except DecodeError DqFmt :=
  match b.toNat with | 5 => .ok .d8 | 6 => .ok .d4 | 7 => .ok .t5 | _ => .error (.badField "format")

/-- Legal parts of `vdq` (spec/07 R135). -/
def wfVdq (q : DqFmt) (p : Fin 8) (_ : VDst) (_ _ _ : VSrc) : Bool := q == .d4 || p.val < 4

def decW4 (b : BitVec 6) : Except DecodeError (Fin 4) :=
  if h : b.toNat < 4 then .ok ⟨b.toNat, h⟩ else .error (.badField "FN")

def encABfx (sx : Bool) (w : Fin 64) : BitVec 11 := BitVec.ofNat 11 (64 * sx.toNat + w.val)

def decABfx (b : BitVec 11) : Except DecodeError (Bool × Fin 64) :=
  if b.toNat < 128 then .ok (b.getLsbD 6, (b.extractLsb' 0 6).toFin) else .error (.badField "FN")

def decLihK (b : BitVec 3) : Except DecodeError (Fin 4) := decP4 b

def encATy : ATy → BitVec 3 | .n8 => 0 | .i8 => 1 | .n16 => 2 | .i16 => 3 | .n32 => 4 | .i32 => 5 | .w64 => 6

def decATy (b : BitVec 3) : Except DecodeError ATy :=
  match b.toNat with
  | 0 => .ok .n8 | 1 => .ok .i8 | 2 => .ok .n16 | 3 => .ok .i16 | 4 => .ok .n32 | 5 => .ok .i32 | 6 => .ok .w64
  | _ => .error (.badField "type")

def encTyOff (ty : ATy) (off : BitVec 8) : BitVec 11 := encATy ty ++ off

def decTyOff (b : BitVec 11) : Except DecodeError (ATy × BitVec 8) :=
  match decATy (b.extractLsb' 8 3) with
  | .ok t => .ok (t, b.extractLsb' 0 8)
  | .error e => .error e

def decOff (b : BitVec 11) : Except DecodeError (BitVec 8) :=
  if b.toNat < 256 then .ok (b.setWidth 8) else .error (.badField "FN")

def encSem : Sem → BitVec 3 | .rlx => 1 | .acq => 3 | .rel => 5 | .ar => 7

/-- A returning atomic has MOD[0] = 1 (spec/12 R244). -/
def decSem (b : BitVec 3) : Except DecodeError Sem :=
  match b.toNat with
  | 1 => .ok .rlx | 3 => .ok .acq | 5 => .ok .rel | 7 => .ok .ar | _ => .error (.badField "MOD")

def encRel (b : Bool) : BitVec 3 := if b then 4 else 0

def decRel (b : BitVec 3) : Except DecodeError Bool :=
  if b = 0 then .ok false else if b = 4 then .ok true else .error (.badField "MOD")

def encWU (w u : Bool) : BitVec 7 := BitVec.ofNat 7 (w.toNat + 2 * u.toNat)

def decWU (b : BitVec 7) : Except DecodeError (Bool × Bool) :=
  if b.toNat < 4 then .ok (b.getLsbD 0, b.getLsbD 1) else .error (.badField "FN")

/-- A slot count, 1-64 (spec/10 R191). -/
def decRn (b : BitVec 11) : Except DecodeError (Fin 128) :=
  if h : 1 ≤ b.toNat ∧ b.toNat ≤ 64 then .ok ⟨b.toNat, by omega⟩ else .error (.badField "count")

def encBrMod : BrMod → BitVec 3 | .branch => 0 | .q => 1 | .qb => 2

def decBrMod (b : BitVec 3) : Except DecodeError BrMod :=
  match b.toNat with | 0 => .ok .branch | 1 => .ok .q | 2 => .ok .qb | _ => .error (.badField "MOD")

def decNz (b : BitVec 11) : Except DecodeError (BitVec 11) :=
  if b = 0 then .error (.badField "displacement") else .ok b

def decB5 (b : BitVec 7) : Except DecodeError (Fin 32) :=
  if h : b.toNat < 32 then .ok ⟨b.toNat, h⟩ else .error (.badField "barrier")

def decB5F (b : BitVec 11) : Except DecodeError (Fin 32) :=
  if h : b.toNat < 32 then .ok ⟨b.toNat, h⟩ else .error (.badField "barrier")

def decQ64 (b : BitVec 7) : Except DecodeError (Fin 64) :=
  if h : b.toNat < 64 then .ok ⟨b.toNat, h⟩ else .error (.badField "queue")

def encEvCtx : EvCtx → BitVec 7 | .own => 8 | .ctx c => BitVec.ofNat 7 c.val

/-- FN[23] names the own context, FN[22:20] another (spec/05 R96). -/
def decEvCtx (b : BitVec 7) : Except DecodeError EvCtx :=
  if b = 8 then .ok .own
  else if h : b.toNat < 8 then .ok (.ctx ⟨b.toNat, h⟩) else .error (.badField "context")

/-- An even register from 2 to 26 (spec/04 R71). -/
def decKEven (b : BitVec 5) : Except DecodeError (Fin 32) :=
  if 2 ≤ b.toNat ∧ b.toNat ≤ 26 ∧ b.toNat % 2 = 0 then .ok b.toFin else .error (.badField "AS2")

def decKShape (b : BitVec 5) : Except DecodeError (Fin 32) :=
  if 2 ≤ b.toNat ∧ b.toNat ≤ 27 then .ok b.toFin else .error (.badField "AS2")

/-! ## X syllables (R25-R30, R36) -/

def xEncHdr (h : XHdr) : XFields :=
  { s := encBool h.joined, g := BitVec.ofFin h.gp, gn := encBool h.gn, wf := encTokF h.wait, we := encTokE h.wait,
    pf := encTokF h.push, pe := encTokE h.push }

def xDecHdr (f : XFields) : Except DecodeError XHdr := do
  let w ← decTok f.wf f.we; let p ← decTok f.pf f.pe
  pure { joined := f.s == 1, gp := f.g.toFin, gn := f.gn == 1, wait := w, push := p }

/-- The instruction of an X syllable's fields. -/
def decodeXF (f : XFields) : Except DecodeError Instr := do
  let h ← xDecHdr f
  match f.op.toNat with
  | 0x00 => do must (f.dst == 0) "DST"; must (f.sa == 0) "SA"; must (f.sb == 0) "SB"; must (f.sc == 0) "SC"; must (f.sub == 0) "SUB"; must (f.fn == 0) "FN"; pure (.xNop h)
  | 0x01 => do let d ← decSDst f.dst; let a ← decSSrc f.sa; let b ← decSSrc f.sb; must (f.sc == 0) "SC"; must (f.sub == 0) "SUB"; must (f.fn == 0) "FN"; pure (.xAdd h d a b)
  | 0x02 => do let d ← decSDst f.dst; let a ← decSSrc f.sa; let b ← decSSrc f.sb; must (f.sc == 0) "SC"; must (f.sub == 0) "SUB"; must (f.fn == 0) "FN"; pure (.xSub h d a b)
  | 0x03 => do let d ← decSDst f.dst; let a ← decSSrc f.sa; let b ← decSSrc f.sb; must (f.sc == 0) "SC"; must (f.sub == 0) "SUB"; must (f.fn == 0) "FN"; pure (.xAnd h d a b)
  | 0x04 => do let d ← decSDst f.dst; let a ← decSSrc f.sa; let b ← decSSrc f.sb; must (f.sc == 0) "SC"; must (f.sub == 0) "SUB"; must (f.fn == 0) "FN"; pure (.xOr h d a b)
  | 0x05 => do let d ← decSDst f.dst; let a ← decSSrc f.sa; let b ← decSSrc f.sb; must (f.sc == 0) "SC"; must (f.sub == 0) "SUB"; must (f.fn == 0) "FN"; pure (.xXor h d a b)
  | 0x06 => do let d ← decSDst f.dst; let a ← decSSrc f.sa; let b ← decSSrc f.sb; must (f.sc == 0) "SC"; must (f.sub == 0) "SUB"; must (f.fn == 0) "FN"; pure (.xShl h d a b)
  | 0x07 => do let d ← decSDst f.dst; let a ← decSSrc f.sa; let b ← decSSrc f.sb; must (f.sc == 0) "SC"; must (f.sub == 0) "SUB"; must (f.fn == 0) "FN"; pure (.xShr h d a b)
  | 0x08 => do let d ← decSDst f.dst; let a ← decSSrc f.sa; let b ← decSSrc f.sb; must (f.sc == 0) "SC"; must (f.sub == 0) "SUB"; must (f.fn == 0) "FN"; pure (.xSra h d a b)
  | 0x09 => do let d ← decSDst f.dst; let u ← decBool f.fn "FN"; let a ← decSSrc f.sa; let b ← decSSrc f.sb; must (f.sc == 0) "SC"; must (f.sub == 0) "SUB"; pure (.xMin h u d a b)
  | 0x0a => do let d ← decSDst f.dst; let u ← decBool f.fn "FN"; let a ← decSSrc f.sa; let b ← decSSrc f.sb; must (f.sc == 0) "SC"; must (f.sub == 0) "SUB"; pure (.xMax h u d a b)
  | 0x0b => do let d ← decSDst f.dst; let a ← decSSrc f.sa; let b ← decSSrc f.sb; must (f.sc == 0) "SC"; must (f.sub == 0) "SUB"; must (f.fn == 0) "FN"; pure (.xMul h d a b)
  | 0x0c => do let d ← decSDst f.dst; let u ← decBool f.fn "FN"; let a ← decSSrc f.sa; let b ← decSSrc f.sb; must (f.sc == 0) "SC"; must (f.sub == 0) "SUB"; pure (.xMulh h u d a b)
  | 0x0d => do let d ← decSDst f.dst; let p ← fin8 8 f.sc "predicate"; let a ← decSSrc f.sa; let b ← decSSrc f.sb; must (f.sub == 0) "SUB"; must (f.fn == 0) "FN"; pure (.xSel h d a b p)
  | 0x0e => do let d ← decSDst f.dst; let a ← decSSrc f.sa; must (f.sb == 0) "SB"; must (f.sc == 0) "SC"; must (f.sub == 0) "SUB"; must (f.fn == 0) "FN"; pure (.xClz h d a)
  | 0x0f => do let d ← decSDst f.dst; let a ← decSSrc f.sa; must (f.sb == 0) "SB"; must (f.sc == 0) "SC"; must (f.sub == 0) "SUB"; must (f.fn == 0) "FN"; pure (.xPopc h d a)
  | 0x10 => do let d ← decSDst f.dst; let a ← decSSrc f.sa; let pos ← decSSrc f.sb; let sx ← decBool f.sub "SUB"; let w ← decWidth f.fn; must (f.sc == 0) "SC"; pure (.xBfx h sx w d a pos)
  | 0x11 => do let d ← decSDst f.dst; let pos ← decSSrc f.sc; let w ← decWidth f.fn; let a ← decSSrc f.sa; let b ← decSSrc f.sb; must (f.sub == 0) "SUB"; pure (.xBfi h w d a b pos)
  | 0x12 => do let d ← decSDst f.dst; let k ← decLea f.sub; let a ← decSSrc f.sa; let b ← decSSrc f.sb; must (f.sc == 0) "SC"; must (f.fn == 0) "FN"; pure (.xLea h k d a b)
  | 0x20 => do let d ← decSDst f.dst; let a ← decSSrc f.sa; let i ← pure (f.sb ++ f.sc); must (f.sub == 0) "SUB"; must (f.fn == 0) "FN"; pure (.xAddi h d a i)
  | 0x21 => do let d ← decSDst f.dst; let a ← decSSrc f.sa; let i ← pure (f.sb ++ f.sc); must (f.sub == 0) "SUB"; must (f.fn == 0) "FN"; pure (.xAndi h d a i)
  | 0x22 => do let d ← decSDst f.dst; let a ← decSSrc f.sa; let i ← pure (f.sb ++ f.sc); must (f.sub == 0) "SUB"; must (f.fn == 0) "FN"; pure (.xOri h d a i)
  | 0x23 => do let d ← decSDst f.dst; let a ← decSSrc f.sa; let i ← pure (f.sb ++ f.sc); must (f.sub == 0) "SUB"; must (f.fn == 0) "FN"; pure (.xXori h d a i)
  | 0x24 => do let d ← decSDst f.dst; let a ← decSSrc f.sa; let i ← decShImm (f.sb ++ f.sc); must (f.sub == 0) "SUB"; must (f.fn == 0) "FN"; pure (.xShli h d a i)
  | 0x25 => do let d ← decSDst f.dst; let a ← decSSrc f.sa; let i ← decShImm (f.sb ++ f.sc); must (f.sub == 0) "SUB"; must (f.fn == 0) "FN"; pure (.xShri h d a i)
  | 0x26 => do let d ← decSDst f.dst; let a ← decSSrc f.sa; let i ← decShImm (f.sb ++ f.sc); must (f.sub == 0) "SUB"; must (f.fn == 0) "FN"; pure (.xSrai h d a i)
  | 0x27 => do let d ← decSDst f.dst; let i ← pure (f.sb ++ f.sc); must (f.sa == 0) "SA"; must (f.sub == 0) "SUB"; must (f.fn == 0) "FN"; pure (.xLi h d i)
  | 0x28 => do let d ← decSDst f.dst; let a ← decSSrc f.sa; let i ← pure (f.sb ++ f.sc); must (f.sub == 0) "SUB"; must (f.fn == 0) "FN"; pure (.xLih h d a i)
  | 0x29 => do let d ← decSDst f.dst; let a ← decSSrc f.sa; let i ← pure (f.sb ++ f.sc); must (f.sub == 0) "SUB"; must (f.fn == 0) "FN"; pure (.xMuli h d a i)
  | 0x38 => do let p ← decPredD f.dst; let c ← decICond f.fn; let a ← decSSrc f.sa; let b ← decSSrc f.sb; must (f.sc == 0) "SC"; must (f.sub == 0) "SUB"; pure (.xCmp h c p a b)
  | 0x39 => do let p ← decPredD f.dst; let a ← decSSrc f.sa; let c ← decICond f.fn; let i ← pure (f.sb ++ f.sc); must (f.sub == 0) "SUB"; pure (.xCmpi h c p a i)
  | 0x3a => do let p ← decPredD f.dst; let a ← fin8 8 f.sa "predicate"; let b ← fin8 8 f.sb "predicate"; must (f.sc == 0) "SC"; must (f.sub == 0) "SUB"; must (f.fn == 0) "FN"; pure (.xPand h p a b)
  | 0x3b => do let p ← decPredD f.dst; let a ← fin8 8 f.sa "predicate"; let b ← fin8 8 f.sb "predicate"; must (f.sc == 0) "SC"; must (f.sub == 0) "SUB"; must (f.fn == 0) "FN"; pure (.xPor h p a b)
  | 0x3c => do let p ← decPredD f.dst; let a ← fin8 8 f.sa "predicate"; let b ← fin8 8 f.sb "predicate"; must (f.sc == 0) "SC"; must (f.sub == 0) "SUB"; must (f.fn == 0) "FN"; pure (.xPxor h p a b)
  | 0x3d => do let p ← decPredD f.dst; let a ← fin8 8 f.sa "predicate"; must (f.sb == 0) "SB"; must (f.sc == 0) "SC"; must (f.sub == 0) "SUB"; must (f.fn == 0) "FN"; pure (.xPnot h p a)
  | 0x3e => do let p ← decPredD f.dst; let a ← fin8 8 f.sa "predicate"; must (f.sb == 0) "SB"; must (f.sc == 0) "SC"; must (f.sub == 0) "SUB"; must (f.fn == 0) "FN"; pure (.xPmov h p a)
  | 0x3f => do let d ← decSDst f.dst; let a ← fin8 8 f.sa "predicate"; must (f.sb == 0) "SB"; must (f.sc == 0) "SC"; must (f.sub == 0) "SUB"; must (f.fn == 0) "FN"; pure (.xPget h d a)
  | 0x40 => do let d ← decVDst f.dst; let a ← decVSrc f.sa; let b ← decVSrc f.sb; must (f.sc == 0) "SC"; must (f.sub == 0) "SUB"; must (f.fn == 0) "FN"; pure (.vadd h d a b)
  | 0x41 => do let d ← decVDst f.dst; let a ← decVSrc f.sa; let b ← decVSrc f.sb; must (f.sc == 0) "SC"; must (f.sub == 0) "SUB"; must (f.fn == 0) "FN"; pure (.vsub h d a b)
  | 0x42 => do let d ← decVDst f.dst; let a ← decVSrc f.sa; let b ← decVSrc f.sb; must (f.sc == 0) "SC"; must (f.sub == 0) "SUB"; must (f.fn == 0) "FN"; pure (.vmul h d a b)
  | 0x43 => do let d ← decVDst f.dst; let a ← decVSrc f.sa; let b ← decVSrc f.sb; let c ← decVSrc f.sc; must (f.sub == 0) "SUB"; must (f.fn == 0) "FN"; pure (.vfma h d a b c)
  | 0x44 => do let d ← decVDst f.dst; let a ← decVSrc f.sa; let b ← decVSrc f.sb; let c ← decVSrc f.sc; must (f.sub == 0) "SUB"; must (f.fn == 0) "FN"; pure (.vfms h d a b c)
  | 0x45 => do let d ← decVDst f.dst; let a ← decVSrc f.sa; let b ← decVSrc f.sb; must (f.sc == 0) "SC"; must (f.sub == 0) "SUB"; must (f.fn == 0) "FN"; pure (.vmin h d a b)
  | 0x46 => do let d ← decVDst f.dst; let a ← decVSrc f.sa; let b ← decVSrc f.sb; must (f.sc == 0) "SC"; must (f.sub == 0) "SUB"; must (f.fn == 0) "FN"; pure (.vmax h d a b)
  | 0x47 => do let d ← decVDst f.dst; let a ← decVSrc f.sa; must (f.sb == 0) "SB"; must (f.sc == 0) "SC"; must (f.sub == 0) "SUB"; must (f.fn == 0) "FN"; pure (.vabs h d a)
  | 0x48 => do let d ← decVDst f.dst; let a ← decVSrc f.sa; must (f.sb == 0) "SB"; must (f.sc == 0) "SC"; must (f.sub == 0) "SUB"; must (f.fn == 0) "FN"; pure (.vneg h d a)
  | 0x49 => do let c ← decFCond f.fn; let d ← decVDst f.dst; let a ← decVSrc f.sa; let b ← decVSrc f.sb; must (f.sc == 0) "SC"; must (f.sub == 0) "SUB"; pure (.vcmp h c d a b)
  | 0x4a => do let d ← decVDst f.dst; let a ← decVSrc f.sa; must (f.sb == 0) "SB"; must (f.sc == 0) "SC"; must (f.sub == 0) "SUB"; must (f.fn == 0) "FN"; pure (.vrcp h d a)
  | 0x4b => do let d ← decVDst f.dst; let a ← decVSrc f.sa; must (f.sb == 0) "SB"; must (f.sc == 0) "SC"; must (f.sub == 0) "SUB"; must (f.fn == 0) "FN"; pure (.vrsqrt h d a)
  | 0x4c => do let d ← decVDst f.dst; let a ← decVSrc f.sa; must (f.sb == 0) "SB"; must (f.sc == 0) "SC"; must (f.sub == 0) "SUB"; must (f.fn == 0) "FN"; pure (.vexp2 h d a)
  | 0x4d => do let d ← decVDst f.dst; let a ← decVSrc f.sa; must (f.sb == 0) "SB"; must (f.sc == 0) "SC"; must (f.sub == 0) "SUB"; must (f.fn == 0) "FN"; pure (.vlog2 h d a)
  | 0x4e => if f.sub == 0 then (do let d ← decSDst f.dst; let a ← decVSrc f.sa; must (f.sb == 0) "SB"; must (f.sc == 0) "SC"; must (f.fn == 0) "FN"; pure (.vredsumO h d a)) else if f.sub == 1 then (do let d ← decSDst f.dst; let a ← decVSrc f.sa; must (f.sb == 0) "SB"; must (f.sc == 0) "SC"; must (f.fn == 0) "FN"; pure (.vredsumU h d a)) else .error (.badField "SUB")
  | 0x4f => do let d ← decSDst f.dst; let a ← decVSrc f.sa; must (f.sb == 0) "SB"; must (f.sc == 0) "SC"; must (f.sub == 0) "SUB"; must (f.fn == 0) "FN"; pure (.vredmax h d a)
  | 0x70 => do let d ← decVDst f.dst; let a ← decVSrc f.sa; let b ← decVSrc f.sb; must (f.sc == 0) "SC"; must (f.sub == 0) "SUB"; must (f.fn == 0) "FN"; pure (.viadd h d a b)
  | 0x71 => do let d ← decVDst f.dst; let a ← decVSrc f.sa; let b ← decVSrc f.sb; must (f.sc == 0) "SC"; must (f.sub == 0) "SUB"; must (f.fn == 0) "FN"; pure (.visub h d a b)
  | 0x72 => do let d ← decVDst f.dst; let a ← decVSrc f.sa; let b ← decVSrc f.sb; must (f.sc == 0) "SC"; must (f.sub == 0) "SUB"; must (f.fn == 0) "FN"; pure (.vimul h d a b)
  | 0x73 => do let d ← decVDst f.dst; let a ← decVSrc f.sa; let b ← decVSrc f.sb; must (f.sc == 0) "SC"; must (f.sub == 0) "SUB"; must (f.fn == 0) "FN"; pure (.vand h d a b)
  | 0x74 => do let d ← decVDst f.dst; let a ← decVSrc f.sa; let b ← decVSrc f.sb; must (f.sc == 0) "SC"; must (f.sub == 0) "SUB"; must (f.fn == 0) "FN"; pure (.vor h d a b)
  | 0x75 => do let d ← decVDst f.dst; let a ← decVSrc f.sa; let b ← decVSrc f.sb; must (f.sc == 0) "SC"; must (f.sub == 0) "SUB"; must (f.fn == 0) "FN"; pure (.vxor h d a b)
  | 0x76 => do let d ← decVDst f.dst; let a ← decVSrc f.sa; let b ← decVSrc f.sb; must (f.sc == 0) "SC"; must (f.sub == 0) "SUB"; must (f.fn == 0) "FN"; pure (.vshl h d a b)
  | 0x77 => do let d ← decVDst f.dst; let a ← decVSrc f.sa; let b ← decVSrc f.sb; must (f.sc == 0) "SC"; must (f.sub == 0) "SUB"; must (f.fn == 0) "FN"; pure (.vshr h d a b)
  | 0x78 => do let d ← decVDst f.dst; let a ← decVSrc f.sa; let b ← decVSrc f.sb; must (f.sc == 0) "SC"; must (f.sub == 0) "SUB"; must (f.fn == 0) "FN"; pure (.vsra h d a b)
  | 0x79 => do let u ← decBool f.fn "FN"; let d ← decVDst f.dst; let a ← decVSrc f.sa; let b ← decVSrc f.sb; must (f.sc == 0) "SC"; must (f.sub == 0) "SUB"; pure (.vimin h u d a b)
  | 0x7a => do let u ← decBool f.fn "FN"; let d ← decVDst f.dst; let a ← decVSrc f.sa; let b ← decVSrc f.sb; must (f.sc == 0) "SC"; must (f.sub == 0) "SUB"; pure (.vimax h u d a b)
  | 0x7b => do let c ← decICond f.fn; let d ← decVDst f.dst; let a ← decVSrc f.sa; let b ← decVSrc f.sb; must (f.sc == 0) "SC"; must (f.sub == 0) "SUB"; pure (.vicmp h c d a b)
  | 0x7c => do let (u, pa, pb) ← decVmacw f.fn; let d ← decVDst f.dst; let a ← decVSrc f.sa; let b ← decVSrc f.sb; let c ← decVSrc f.sc; must (f.sub == 0) "SUB"; pure (.vmacw h u pa pb d a b c)
  | 0x7d => do let t ← decRshT f.fn; let p ← decP4 f.sub; let d ← decVDst f.dst; let a ← decVSrc f.sa; let b ← decVSrc f.sb; let c ← decVSrc f.sc; must (wfVrsh t p d a b c) "vrsh"; pure (.vrsh h t p d a b c)
  | 0x7e => do let (ua, ub) ← decDot4 f.fn; let d ← decVDst f.dst; let a ← decVSrc f.sa; let b ← decVSrc f.sb; let c ← decVSrc f.sc; must (f.sub == 0) "SUB"; pure (.vdot4 h ua ub d a b c)
  | 0x7f => do let (df, p) ← decCvtD f.fn; let sf ← decCvtS f.sub; let d ← decVDst f.dst; let a ← decVSrc f.sa; let c ← decVSrc f.sc; must (f.sb == 0) "SB"; must (wfVcvt df sf p d a c) "vcvt"; pure (.vcvt h df sf p d a c)
  | 0x80 => do let q ← decDqF f.fn; let p ← pure f.sub.toFin; let d ← decVDst f.dst; let a ← decVSrc f.sa; let b ← decVSrc f.sb; let c ← decVSrc f.sc; must (wfVdq q p d a b c) "vdq"; pure (.vdq h q p d a b c)
  | 0x81 => if f.sub == 0 then (do let d ← decVDst f.dst; let a ← decSSrc f.sa; must (f.sb == 0) "SB"; must (f.sc == 0) "SC"; must (f.fn == 0) "FN"; pure (.vbc h d a)) else if f.sub == 1 then (do let d ← decVDst f.dst; let a ← decVSrc f.sa; let b ← decSSrc f.sb; must (f.sc == 0) "SC"; must (f.fn == 0) "FN"; pure (.vbcLn h d a b)) else .error (.badField "SUB")
  | 0x90 => do let d ← decVDst f.dst; let a ← decVSrc f.sa; let b ← decVSrc f.sb; let c ← decVSrc f.sc; must (f.sub == 0) "SUB"; must (f.fn == 0) "FN"; pure (.vperm h d a b c)
  | 0x91 => if f.fn == 0 then (do let fl ← decBool f.sub "SUB"; let d ← decVDst f.dst; let a ← decVSrc f.sa; let b ← decSSrc f.sb; must (f.sc == 0) "SC"; pure (.vnzscan h fl d a b)) else if f.fn == 1 then (do let fl ← decBool f.sub "SUB"; let d ← decSDst f.dst; let a ← decVSrc f.sa; must (f.sb == 0) "SB"; must (f.sc == 0) "SC"; pure (.vnzscanCnt h fl d a)) else if f.fn == 2 then (do let fl ← decBool f.sub "SUB"; let d ← decSDst f.dst; let a ← decVSrc f.sa; must (f.sb == 0) "SB"; must (f.sc == 0) "SC"; pure (.vnzscanMsk h fl d a)) else .error (.badField "FN")
  | 0x92 => do let d ← decVDst f.dst; let a ← decVSrc f.sa; let b ← decVSrc f.sb; let c ← decVSrc f.sc; must (f.sub == 0) "SUB"; must (f.fn == 0) "FN"; pure (.vmerge h d a b c)
  | 0x93 => do let op ← decScanOp f.fn; let ex ← decBool f.sub "SUB"; let d ← decVDst f.dst; let a ← decVSrc f.sa; must (f.sb == 0) "SB"; must (f.sc == 0) "SC"; pure (.vscan h op ex d a)
  | 0xa0 => do let kp ← decBool f.sub "SUB"; let c ← fin8 32 f.dst "domain register"; let a ← fin8 32 f.sa "domain register"; let b ← fin8 32 f.sb "domain register"; must (f.sc == 0) "SC"; must (f.fn == 0) "FN"; pure (.dadd h kp c a b)
  | 0xa1 => do let kp ← decBool f.sub "SUB"; let c ← fin8 32 f.dst "domain register"; let a ← fin8 32 f.sa "domain register"; let b ← fin8 32 f.sb "domain register"; must (f.sc == 0) "SC"; must (f.fn == 0) "FN"; pure (.dsub h kp c a b)
  | 0xa2 => do let kp ← decBool f.sub "SUB"; let c ← fin8 32 f.dst "domain register"; let a ← fin8 32 f.sa "domain register"; let kk ← decSSrc f.sb; must (f.sc == 0) "SC"; must (f.fn == 0) "FN"; pure (.dmulc h kp c a kk)
  | 0xa3 => do let kp ← decBool f.sub "SUB"; let a ← fin8 32 f.dst "domain register"; let b ← fin8 32 f.sa "domain register"; must (f.sb == 0) "SB"; must (f.sc == 0) "SC"; must (f.fn == 0) "FN"; pure (.dlt h kp a b)
  | 0xa4 => do let kp ← decBool f.sub "SUB"; let a ← fin8 32 f.dst "domain register"; let b ← fin8 32 f.sa "domain register"; must (f.sb == 0) "SB"; must (f.sc == 0) "SC"; must (f.fn == 0) "FN"; pure (.dle h kp a b)
  | 0xa5 => do let kp ← decBool f.sub "SUB"; let a ← fin8 32 f.dst "domain register"; let b ← fin8 32 f.sa "domain register"; must (f.sb == 0) "SB"; must (f.sc == 0) "SC"; must (f.fn == 0) "FN"; pure (.deq h kp a b)
  | 0xa6 => do let kp ← decBool f.sub "SUB"; let a ← fin8 32 f.dst "domain register"; let b ← fin8 32 f.sa "domain register"; must (f.sb == 0) "SB"; must (f.sc == 0) "SC"; must (f.fn == 0) "FN"; pure (.dne h kp a b)
  | 0xa7 => do let a ← fin8 32 f.dst "domain register"; let lo ← decSSrc f.sa; let hi ← decSSrc f.sb; must (f.sc == 0) "SC"; must (f.sub == 0) "SUB"; must (f.fn == 0) "FN"; pure (.dint h a lo hi)
  | 0xa8 => do let a ← fin8 32 f.dst "domain register"; let v ← decSSrc f.sa; must (f.sb == 0) "SB"; must (f.sc == 0) "SC"; must (f.sub == 0) "SUB"; must (f.fn == 0) "FN"; pure (.dexcl h a v)
  | 0xa9 => do let a ← fin8 32 f.dst "domain register"; let v ← decSSrc f.sa; must (f.sb == 0) "SB"; must (f.sc == 0) "SC"; must (f.sub == 0) "SUB"; must (f.fn == 0) "FN"; pure (.dfix h a v)
  | 0xaa => do let kp ← decBool f.sub "SUB"; let a ← fin8 32 f.dst "domain register"; let i ← fin8 32 f.sa "domain register"; let t ← fin8 28 f.sb "vector register"; must (f.sc == 0) "SC"; must (f.fn == 0) "FN"; pure (.delem h kp a i t)
  | 0xab => do let d ← decSDst f.dst; let a ← fin8 32 f.sa "domain register"; must (f.sb == 0) "SB"; must (f.sc == 0) "SC"; must (f.sub == 0) "SUB"; must (f.fn == 0) "FN"; pure (.dlo h d a)
  | 0xac => do let d ← decSDst f.dst; let a ← fin8 32 f.sa "domain register"; must (f.sb == 0) "SB"; must (f.sc == 0) "SC"; must (f.sub == 0) "SUB"; must (f.fn == 0) "FN"; pure (.dhi h d a)
  | 0xad => do let d ← decSDst f.dst; let a ← fin8 32 f.sa "domain register"; must (f.sb == 0) "SB"; must (f.sc == 0) "SC"; must (f.sub == 0) "SUB"; must (f.fn == 0) "FN"; pure (.dsize h d a)
  | 0xae => do let d ← decSDst f.dst; let a ← fin8 32 f.sa "domain register"; let w ← decW4 f.fn; must (f.sb == 0) "SB"; must (f.sc == 0) "SC"; must (f.sub == 0) "SUB"; pure (.dget h d a w)
  | 0xaf => if f.fn == 0 then (do let p ← decPredD f.dst; let a ← fin8 32 f.sa "domain register"; let v ← decSSrc f.sb; must (f.sc == 0) "SC"; must (f.sub == 0) "SUB"; pure (.dtestIn h p a v)) else if f.fn == 1 then (do let p ← decPredD f.dst; let a ← fin8 32 f.sa "domain register"; must (f.sb == 0) "SB"; must (f.sc == 0) "SC"; must (f.sub == 0) "SUB"; pure (.dtestOne h p a)) else .error (.badField "FN")
  | 0xb0 => do let d ← decSDst f.dst; let a ← fin8 32 f.sa "domain register"; must (f.sb == 0) "SB"; must (f.sc == 0) "SC"; must (f.sub == 0) "SUB"; must (f.fn == 0) "FN"; pure (.dpick h d a)
  | 0xb1 => do let a ← fin8 32 f.dst "domain register"; let lo ← decSSrc f.sa; let hi ← decSSrc f.sb; must (f.sc == 0) "SC"; must (f.sub == 0) "SUB"; must (f.fn == 0) "FN"; pure (.dset h a lo hi)
  | 0xb2 => do let a ← fin8 32 f.dst "domain register"; let lo ← decSSrc f.sa; let w0 ← decSSrc f.sb; let w1 ← decSSrc f.sc; must (f.sub == 0) "SUB"; must (f.fn == 0) "FN"; pure (.dsetw h a lo w0 w1)
  | 0xb3 => do must (f.dst == 0) "DST"; must (f.sa == 0) "SA"; must (f.sb == 0) "SB"; must (f.sc == 0) "SC"; must (f.sub == 0) "SUB"; must (f.fn == 0) "FN"; pure (.dprop h)
  | 0xb4 => do must (f.dst == 0) "DST"; must (f.sa == 0) "SA"; must (f.sb == 0) "SB"; must (f.sc == 0) "SC"; must (f.sub == 0) "SUB"; must (f.fn == 0) "FN"; pure (.dsave h)
  | 0xb5 => do must (f.dst == 0) "DST"; must (f.sa == 0) "SA"; must (f.sb == 0) "SB"; must (f.sc == 0) "SC"; must (f.sub == 0) "SUB"; must (f.fn == 0) "FN"; pure (.drest h)
  | 0xb6 => do must (f.dst == 0) "DST"; must (f.sa == 0) "SA"; must (f.sb == 0) "SB"; must (f.sc == 0) "SC"; must (f.sub == 0) "SUB"; must (f.fn == 0) "FN"; pure (.ddrop h)
  | 0xb7 => do must (f.dst == 0) "DST"; must (f.sa == 0) "SA"; must (f.sb == 0) "SB"; must (f.sc == 0) "SC"; must (f.sub == 0) "SUB"; must (f.fn == 0) "FN"; pure (.dclr h)
  | 0xc0 => do let i ← pure (f.sb ++ f.sc); must (f.dst == 0) "DST"; must (f.sa == 0) "SA"; must (f.sub == 0) "SUB"; must (f.fn == 0) "FN"; pure (.xBr h i)
  | 0xc1 => do let a ← decSSrc f.sa; must (f.dst == 0) "DST"; must (f.sb == 0) "SB"; must (f.sc == 0) "SC"; must (f.sub == 0) "SUB"; must (f.fn == 0) "FN"; pure (.xJr h a)
  | 0xc2 => do let d ← decSDst f.dst; let i ← pure (f.sb ++ f.sc); must (f.sa == 0) "SA"; must (f.sub == 0) "SUB"; must (f.fn == 0) "FN"; pure (.xCall h d i)
  | 0xc3 => do let a ← decSSrc f.sa; must (f.dst == 0) "DST"; must (f.sb == 0) "SB"; must (f.sc == 0) "SC"; must (f.sub == 0) "SUB"; must (f.fn == 0) "FN"; pure (.xRet h a)
  | 0xc4 => if f.sub == 0 then (do must (f.sa == 60) "SA"; let i ← pure (f.sb ++ f.sc); must (f.dst == 0) "DST"; must (f.fn == 0) "FN"; pure (.brq h i)) else if f.sub == 1 then (do must (f.sa == 60) "SA"; let i ← pure (f.sb ++ f.sc); must (f.dst == 0) "DST"; must (f.fn == 0) "FN"; pure (.brqN h i)) else .error (.badField "SUB")
  | 0xc5 => do let l ← decBool f.sub "SUB"; let a ← decSSrc f.sa; let i ← decLoopImm (f.sb ++ f.sc); must (f.dst == 0) "DST"; must (f.fn == 0) "FN"; pure (.xLoop h l a i)
  | 0xc6 => do let b ← fin8 8 f.sa "CCS bit"; let m ← decMask f.sb; must (f.dst == 0) "DST"; must (f.sc == 0) "SC"; must (f.sub == 0) "SUB"; must (f.fn == 0) "FN"; pure (.join h b m)
  | 0xc7 => do let b ← fin8 8 f.sa "CCS bit"; must (f.dst == 0) "DST"; must (f.sb == 0) "SB"; must (f.sc == 0) "SC"; must (f.sub == 0) "SUB"; must (f.fn == 0) "FN"; pure (.ccset h b)
  | 0xc8 => do let b ← fin8 8 f.sa "CCS bit"; must (f.dst == 0) "DST"; must (f.sb == 0) "SB"; must (f.sc == 0) "SC"; must (f.sub == 0) "SUB"; must (f.fn == 0) "FN"; pure (.ccclr h b)
  | 0xc9 => do let i ← decPauseImm (f.sb ++ f.sc); must (f.dst == 0) "DST"; must (f.sa == 0) "SA"; must (f.sub == 0) "SUB"; must (f.fn == 0) "FN"; pure (.xPause h i)
  | 0xca => do must (f.dst == 0) "DST"; must (f.sa == 0) "SA"; must (f.sb == 0) "SB"; must (f.sc == 0) "SC"; must (f.sub == 0) "SUB"; must (f.fn == 0) "FN"; pure (.xFin h)
  | 0xd8 => do let d ← decSDst f.dst; let ty ← decXTy f.fn; let a ← decSSrc f.sa; let b ← decSSrc f.sb; let cl ← pure f.sub.toFin; must (f.sc == 0) "SC"; pure (.xLd h cl ty d a b)
  | 0xd9 => do let c ← decSSrc f.sc; let ty ← decXTy f.fn; let a ← decSSrc f.sa; let b ← decSSrc f.sb; let cl ← pure f.sub.toFin; must (f.dst == 0) "DST"; pure (.xSt h cl ty a b c)
  | 0xda => do let d ← decVDst f.dst; let a ← decSSrc f.sa; let b ← decSSrc f.sb; let cl ← pure f.sub.toFin; must (f.sc == 0) "SC"; must (f.fn == 0) "FN"; pure (.vld h cl d a b)
  | 0xdb => do let c ← decVSrc f.sc; let a ← decSSrc f.sa; let b ← decSSrc f.sb; let cl ← pure f.sub.toFin; must (f.dst == 0) "DST"; must (f.fn == 0) "FN"; pure (.vst h cl a b c)
  | 0xdc => do let d ← decVDst f.dst; let a ← decSSrc f.sa; let b ← decVSrc f.sb; let cl ← pure f.sub.toFin; must (f.sc == 0) "SC"; must (f.fn == 0) "FN"; pure (.vldx h cl d a b)
  | 0xdd => do let a ← decSSrc f.sa; let b ← decVSrc f.sb; let c ← decVSrc f.sc; let cl ← pure f.sub.toFin; must (f.dst == 0) "DST"; must (f.fn == 0) "FN"; pure (.vstx h cl a b c)
  | 0xde => do let d ← decSDst f.dst; let a ← decSSrc f.sa; let b ← decSSrc f.sb; let cl ← pure f.sub.toFin; must (f.sc == 0) "SC"; must (f.fn == 0) "FN"; pure (.ldacq h cl d a b)
  | 0xdf => do let d ← decVDst f.dst; let n ← fin8 4 f.sa "accumulator"; let r ← decSSrc f.sb; let t ← decCnt f.sc; must (f.sub == 0) "SUB"; must (f.fn == 0) "FN"; pure (.accrd h d n r t)
  | 0xe8 => do let k ← decFence6 f.fn; let s ← decScope f.sub; must (f.dst == 0) "DST"; must (f.sa == 0) "SA"; must (f.sb == 0) "SB"; must (f.sc == 0) "SC"; pure (.xFence h k s)
  | 0xf0 => do let i ← pure (f.sb ++ f.sc); must (f.dst == 0) "DST"; must (f.sa == 0) "SA"; must (f.sub == 0) "SUB"; must (f.fn == 0) "FN"; must (f.we == 0 && f.pe == 0) "token field"; pure (.xTrap h i)
  | 0xf1 => do must (f.dst == 0) "DST"; must (f.sa == 0) "SA"; must (f.sb == 0) "SB"; must (f.sc == 0) "SC"; must (f.sub == 0) "SUB"; must (f.fn == 0) "FN"; must (f.we == 0 && f.pe == 0) "token field"; pure (.eret h)
  | 0xf2 => do let d ← decSDst f.dst; let i ← decCr (f.sb ++ f.sc); must (f.sa == 0) "SA"; must (f.sub == 0) "SUB"; must (f.fn == 0) "FN"; pure (.xSysr h d i)
  | 0xf3 => do let a ← decSSrc f.sa; let i ← decCr (f.sb ++ f.sc); must (f.dst == 0) "DST"; must (f.sub == 0) "SUB"; must (f.fn == 0) "FN"; pure (.xSysw h a i)
  | 0xf4 => do must (f.dst == 0) "DST"; must (f.sa == 0) "SA"; must (f.sb == 0) "SB"; must (f.sc == 0) "SC"; must (f.sub == 0) "SUB"; must (f.fn == 0) "FN"; must (f.we == 0 && f.pe == 0) "token field"; pure (.halt h)
  | 0xf5 => do let i ← pure (f.sb ++ f.sc); must (f.dst == 0) "DST"; must (f.sa == 0) "SA"; must (f.sub == 0) "SUB"; must (f.fn == 0) "FN"; pure (.dbgstop h i)
  | 0xf6 => do must (f.dst == 0) "DST"; must (f.sa == 0) "SA"; must (f.sb == 0) "SB"; must (f.sc == 0) "SC"; must (f.sub == 0) "SUB"; must (f.fn == 0) "FN"; pure (.yield h)
  | _ => .error .reservedOp

def decodeX (w : BitVec 64) : Except DecodeError Instr := decodeXF (xUnpack w)

/-! ## A words (R31-R33, R38) -/

def aEncHdr (h : AHdr) : AFields :=
  { wf := encTokF h.wait, we := encTokE h.wait, pf := encTokF h.push, pe := encTokE h.push }

def aDecHdr (f : AFields) : Except DecodeError AHdr := do
  let w ← decTok f.wf f.we; let p ← decTok f.pf f.pe
  pure { wait := w, push := p }

/-- OPs 0x3C-0x3F start a long form (R33). -/
def isLong (w : BitVec 48) : Bool := 0x3C ≤ (aUnpack w).op.toNat

/-- The instruction of a short A word's fields. -/
def decodeAF (f : AFields) : Except DecodeError Instr := do
  let h ← aDecHdr f
  match f.op.toNat with
  | 0x00 => do let d ← pure f.ad.toFin; let a ← pure f.as1.toFin; let b ← pure f.as2.toFin; must (f.fhi == 0) "FHI"; must (f.sel == 0) "SEL"; must (f.ac == 0) "AC"; must (f.md == 0) "MD"; pure (.aAdd h d a b)
  | 0x01 => do let d ← pure f.ad.toFin; let a ← pure f.as1.toFin; let b ← pure f.as2.toFin; must (f.fhi == 0) "FHI"; must (f.sel == 0) "SEL"; must (f.ac == 0) "AC"; must (f.md == 0) "MD"; pure (.aSub h d a b)
  | 0x02 => do let d ← pure f.ad.toFin; let a ← pure f.as1.toFin; let b ← pure f.as2.toFin; must (f.fhi == 0) "FHI"; must (f.sel == 0) "SEL"; must (f.ac == 0) "AC"; must (f.md == 0) "MD"; pure (.aAnd h d a b)
  | 0x03 => do let d ← pure f.ad.toFin; let a ← pure f.as1.toFin; let b ← pure f.as2.toFin; must (f.fhi == 0) "FHI"; must (f.sel == 0) "SEL"; must (f.ac == 0) "AC"; must (f.md == 0) "MD"; pure (.aOr h d a b)
  | 0x04 => do let d ← pure f.ad.toFin; let a ← pure f.as1.toFin; let b ← pure f.as2.toFin; must (f.fhi == 0) "FHI"; must (f.sel == 0) "SEL"; must (f.ac == 0) "AC"; must (f.md == 0) "MD"; pure (.aXor h d a b)
  | 0x05 => do let d ← pure f.ad.toFin; let a ← pure f.as1.toFin; let b ← pure f.as2.toFin; must (f.fhi == 0) "FHI"; must (f.sel == 0) "SEL"; must (f.ac == 0) "AC"; must (f.md == 0) "MD"; pure (.aShl h d a b)
  | 0x06 => do let d ← pure f.ad.toFin; let a ← pure f.as1.toFin; let b ← pure f.as2.toFin; must (f.fhi == 0) "FHI"; must (f.sel == 0) "SEL"; must (f.ac == 0) "AC"; must (f.md == 0) "MD"; pure (.aShr h d a b)
  | 0x07 => do let d ← pure f.ad.toFin; let a ← pure f.as1.toFin; let b ← pure f.as2.toFin; must (f.fhi == 0) "FHI"; must (f.sel == 0) "SEL"; must (f.ac == 0) "AC"; must (f.md == 0) "MD"; pure (.aSra h d a b)
  | 0x08 => do let d ← pure f.ad.toFin; let a ← pure f.as1.toFin; let b ← pure f.as2.toFin; must (f.fhi == 0) "FHI"; must (f.sel == 0) "SEL"; must (f.ac == 0) "AC"; must (f.md == 0) "MD"; pure (.aMul h d a b)
  | 0x09 => do let d ← pure f.ad.toFin; let a ← pure f.as1.toFin; let b ← pure f.as2.toFin; let u ← decBool (f.fhi ++ f.sel) "FN"; must (f.ac == 0) "AC"; must (f.md == 0) "MD"; pure (.aMin h u d a b)
  | 0x0a => do let d ← pure f.ad.toFin; let a ← pure f.as1.toFin; let b ← pure f.as2.toFin; let u ← decBool (f.fhi ++ f.sel) "FN"; must (f.ac == 0) "AC"; must (f.md == 0) "MD"; pure (.aMax h u d a b)
  | 0x0b => do let d ← pure f.ad.toFin; let a ← pure f.as1.toFin; let p ← pure f.as2.toFin; let (sx, w) ← decABfx (f.fhi ++ f.sel); must (f.ac == 0) "AC"; must (f.md == 0) "MD"; pure (.aBfx h sx w d a p)
  | 0x0c => do let d ← pure f.ad.toFin; let a ← pure f.as1.toFin; let i ← pure (f.as2 ++ f.fhi ++ f.sel); must (f.ac == 0) "AC"; must (f.md == 0) "MD"; pure (.aAddi h d a i)
  | 0x0d => do let d ← pure f.ad.toFin; let a ← pure f.as1.toFin; let i ← pure (f.as2 ++ f.fhi ++ f.sel); must (f.ac == 0) "AC"; must (f.md == 0) "MD"; pure (.aAndi h d a i)
  | 0x0e => do let d ← pure f.ad.toFin; let i ← pure (f.as2 ++ f.fhi ++ f.sel); must (f.as1 == 0) "AS1"; must (f.ac == 0) "AC"; must (f.md == 0) "MD"; pure (.aLi h d i)
  | 0x0f => do let d ← pure f.ad.toFin; let a ← pure f.as1.toFin; let k ← decLihK f.md; let i ← pure (f.as2 ++ f.fhi ++ f.sel); must (f.ac == 0) "AC"; pure (.aLih h d a i k)
  | 0x10 => do let sp ← decBool f.md "MOD"; let d ← pure f.ad.toFin; let a ← pure f.as1.toFin; let i ← pure f.as2.toFin; let cl ← pure f.ac.toFin; let (ty, off) ← decTyOff (f.fhi ++ f.sel); pure (.aLd h cl sp ty d a i off)
  | 0x11 => do let sp ← decBool f.md "MOD"; let d ← pure f.ad.toFin; let a ← pure f.as1.toFin; let i ← pure f.as2.toFin; let cl ← pure f.ac.toFin; let (ty, off) ← decTyOff (f.fhi ++ f.sel); pure (.aSt h cl sp ty d a i off)
  | 0x12 => do let s ← decAScope f.md; let d ← pure f.ad.toFin; let a ← pure f.as1.toFin; let i ← pure f.as2.toFin; let cl ← pure f.ac.toFin; let (ty, off) ← decTyOff (f.fhi ++ f.sel); pure (.lda h cl s ty d a i off)
  | 0x13 => do let s ← decAScope f.md; let d ← pure f.ad.toFin; let a ← pure f.as1.toFin; let i ← pure f.as2.toFin; let cl ← pure f.ac.toFin; let (ty, off) ← decTyOff (f.fhi ++ f.sel); pure (.stl h cl s ty d a i off)
  | 0x14 => do let q ← fin5 8 f.ad "queue"; let a ← pure f.as1.toFin; let i ← pure f.as2.toFin; let cl ← pure f.ac.toFin; let sp ← decBool f.md "MOD"; let off ← decOff (f.fhi ++ f.sel); pure (.ldq h cl sp q a i off)
  | 0x15 => do let q ← fin5 4 f.ad "queue"; let hs ← fin5 16 f.as1 "register"; let c ← pure f.as2.toFin; let cl ← pure f.ac.toFin; let sp ← decBool f.md "MOD"; must (f.fhi == 0) "FHI"; must (f.sel == 0) "SEL"; pure (.ldd h cl sp q hs c)
  | 0x16 => do let q ← fin5 4 f.ad "queue"; let hs ← fin5 16 f.as1 "register"; let c ← pure f.as2.toFin; let cl ← pure f.ac.toFin; let sp ← decBool f.md "MOD"; must (f.fhi == 0) "FHI"; must (f.sel == 0) "SEL"; pure (.stz h cl sp q hs c)
  | 0x18 => if f.sel == 0 then (do let d ← pure f.ad.toFin; let a ← pure f.as1.toFin; let v ← pure f.as2.toFin; let cl ← pure f.ac.toFin; let sm ← decSem f.md; let w ← decBool f.fhi "FN"; pure (.aswap h cl w sm d a v)) else .error (.badField "selector")
  | 0x19 => if f.sel == 0 then (do let d ← pure f.ad.toFin; let a ← pure f.as1.toFin; let v ← pure f.as2.toFin; let cl ← pure f.ac.toFin; let sm ← decSem f.md; let w ← decBool f.fhi "FN"; pure (.acas h cl w sm d a v)) else .error (.badField "selector")
  | 0x1a => if f.sel == 0 then (do let d ← pure f.ad.toFin; let a ← pure f.as1.toFin; let v ← pure f.as2.toFin; let cl ← pure f.ac.toFin; let sm ← decSem f.md; let w ← decBool f.fhi "FN"; pure (.aadd h cl w sm d a v)) else .error (.badField "selector")
  | 0x1b => if f.sel == 0 then (do let d ← pure f.ad.toFin; let a ← pure f.as1.toFin; let v ← pure f.as2.toFin; let cl ← pure f.ac.toFin; let sm ← decSem f.md; let w ← decBool f.fhi "FN"; pure (.aand h cl w sm d a v)) else if f.sel == 1 then (do let d ← pure f.ad.toFin; let a ← pure f.as1.toFin; let v ← pure f.as2.toFin; let cl ← pure f.ac.toFin; let sm ← decSem f.md; let w ← decBool f.fhi "FN"; pure (.aor h cl w sm d a v)) else if f.sel == 2 then (do let d ← pure f.ad.toFin; let a ← pure f.as1.toFin; let v ← pure f.as2.toFin; let cl ← pure f.ac.toFin; let sm ← decSem f.md; let w ← decBool f.fhi "FN"; pure (.axor h cl w sm d a v)) else .error (.badField "selector")
  | 0x1c => if f.sel == 0 then (do let d ← pure f.ad.toFin; let a ← pure f.as1.toFin; let v ← pure f.as2.toFin; let cl ← pure f.ac.toFin; let sm ← decSem f.md; let w ← decBool f.fhi "FN"; pure (.amin h cl w sm d a v)) else if f.sel == 1 then (do let d ← pure f.ad.toFin; let a ← pure f.as1.toFin; let v ← pure f.as2.toFin; let cl ← pure f.ac.toFin; let sm ← decSem f.md; let w ← decBool f.fhi "FN"; pure (.amax h cl w sm d a v)) else if f.sel == 2 then (do let d ← pure f.ad.toFin; let a ← pure f.as1.toFin; let v ← pure f.as2.toFin; let cl ← pure f.ac.toFin; let sm ← decSem f.md; let w ← decBool f.fhi "FN"; pure (.aminu h cl w sm d a v)) else if f.sel == 3 then (do let d ← pure f.ad.toFin; let a ← pure f.as1.toFin; let v ← pure f.as2.toFin; let cl ← pure f.ac.toFin; let sm ← decSem f.md; let w ← decBool f.fhi "FN"; pure (.amaxu h cl w sm d a v)) else .error (.badField "selector")
  | 0x1d => if f.sel == 0 then (do let w ← decBool f.fhi "FN"; let a ← pure f.as1.toFin; let v ← pure f.as2.toFin; let cl ← pure f.ac.toFin; let rl ← decRel f.md; must (f.ad == 0) "AD"; pure (.redadd h cl w rl a v)) else if f.sel == 3 then (do let w ← decBool f.fhi "FN"; let a ← pure f.as1.toFin; let v ← pure f.as2.toFin; let cl ← pure f.ac.toFin; let rl ← decRel f.md; must (f.ad == 0) "AD"; pure (.redand h cl w rl a v)) else if f.sel == 4 then (do let w ← decBool f.fhi "FN"; let a ← pure f.as1.toFin; let v ← pure f.as2.toFin; let cl ← pure f.ac.toFin; let rl ← decRel f.md; must (f.ad == 0) "AD"; pure (.redor h cl w rl a v)) else if f.sel == 5 then (do let w ← decBool f.fhi "FN"; let a ← pure f.as1.toFin; let v ← pure f.as2.toFin; let cl ← pure f.ac.toFin; let rl ← decRel f.md; must (f.ad == 0) "AD"; pure (.redxor h cl w rl a v)) else if f.sel == 1 then (do let (w, u) ← decWU f.fhi; let a ← pure f.as1.toFin; let v ← pure f.as2.toFin; let cl ← pure f.ac.toFin; let rl ← decRel f.md; must (f.ad == 0) "AD"; pure (.redmin h cl w u rl a v)) else if f.sel == 2 then (do let (w, u) ← decWU f.fhi; let a ← pure f.as1.toFin; let v ← pure f.as2.toFin; let cl ← pure f.ac.toFin; let rl ← decRel f.md; must (f.ad == 0) "AD"; pure (.redmax h cl w u rl a v)) else .error (.badField "selector")
  | 0x1e => if f.sel == 0 then (do let rl ← decRel (f.md &&& 6); let cl ← pure f.ac.toFin; let a ← pure f.as1.toFin; let v ← pure f.as2.toFin; must (f.ad == 0) "AD"; must (f.fhi == 0) "FN"; pure (if f.md.getLsbD 0 then .redfaddU h cl rl a v else .redfaddO h cl rl a v)) else if f.sel == 1 then (do let a ← pure f.as1.toFin; let v ← pure f.as2.toFin; let cl ← pure f.ac.toFin; let rl ← decRel f.md; must (f.ad == 0) "AD"; must (f.fhi == 0) "FHI"; pure (.redfmin h cl rl a v)) else if f.sel == 2 then (do let a ← pure f.as1.toFin; let v ← pure f.as2.toFin; let cl ← pure f.ac.toFin; let rl ← decRel f.md; must (f.ad == 0) "AD"; must (f.fhi == 0) "FHI"; pure (.redfmax h cl rl a v)) else .error (.badField "selector")
  | 0x20 => do let r ← fin5 16 f.ad "register"; let c ← pure f.as1.toFin; must (f.as2 == 0) "AS2"; must (f.fhi == 0) "FHI"; must (f.sel == 0) "SEL"; must (f.ac == 0) "AC"; must (f.md == 0) "MD"; pure (.rgcfg h r c)
  | 0x21 => do let d ← pure f.ad.toFin; let r ← fin5 16 f.as1 "register"; let n ← decRn (f.fhi ++ f.sel); must (f.as2 == 0) "AS2"; must (f.ac == 0) "AC"; must (f.md == 0) "MD"; pure (.rgwfree h d r n)
  | 0x22 => do let d ← pure f.ad.toFin; let r ← fin5 16 f.as1 "register"; let n ← decRn (f.fhi ++ f.sel); must (f.as2 == 0) "AS2"; must (f.ac == 0) "AC"; must (f.md == 0) "MD"; pure (.rgwfill h d r n)
  | 0x23 => do let r ← fin5 16 f.as1 "register"; let n ← decRn (f.fhi ++ f.sel); must (f.ad == 0) "AD"; must (f.as2 == 0) "AS2"; must (f.ac == 0) "AC"; must (f.md == 0) "MD"; pure (.rgput h r n)
  | 0x24 => do let r ← fin5 16 f.as1 "register"; let n ← decRn (f.fhi ++ f.sel); must (f.ad == 0) "AD"; must (f.as2 == 0) "AS2"; must (f.ac == 0) "AC"; must (f.md == 0) "MD"; pure (.rgtake h r n)
  | 0x25 => do let r ← fin5 16 f.as1 "register"; let n ← decRn (f.fhi ++ f.sel); must (f.ad == 0) "AD"; must (f.as2 == 0) "AS2"; must (f.ac == 0) "AC"; must (f.md == 0) "MD"; pure (.rgrel h r n)
  | 0x26 => do let s ← pure f.as1.toFin; let t ← pure f.as2.toFin; must (f.ad == 0) "AD"; must (f.fhi == 0) "FHI"; must (f.sel == 0) "SEL"; must (f.ac == 0) "AC"; must (f.md == 0) "MD"; pure (.rgrot h s t)
  | 0x27 => if f.sel == 0 then (do let t ← pure f.as1.toFin; let n ← pure f.fhi.toFin; must (f.ad == 0) "AD"; must (f.as2 == 0) "AS2"; must (f.ac == 0) "AC"; must (f.md == 0) "MD"; pure (.give h t n)) else if f.sel == 1 then (do let t ← pure f.as1.toFin; let n ← pure f.fhi.toFin; must (f.ad == 0) "AD"; must (f.as2 == 0) "AS2"; must (f.ac == 0) "AC"; must (f.md == 0) "MD"; pure (.take h t n)) else .error (.badField "selector")
  | 0x28 => if f.sel == 0 then (do let a ← pure f.as1.toFin; let b ← pure f.as2.toFin; let m ← decBrMod f.md; let i ← pure (f.ad ++ f.fhi); must (f.ac == 0) "AC"; must (m != .q || i == 0) "displacement"; pure (.beq h m a b i)) else if f.sel == 1 then (do let a ← pure f.as1.toFin; let b ← pure f.as2.toFin; let m ← decBrMod f.md; let i ← pure (f.ad ++ f.fhi); must (f.ac == 0) "AC"; must (m != .q || i == 0) "displacement"; pure (.bne h m a b i)) else if f.sel == 2 then (do let a ← pure f.as1.toFin; let b ← pure f.as2.toFin; let m ← decBrMod f.md; let i ← pure (f.ad ++ f.fhi); must (f.ac == 0) "AC"; must (m != .q || i == 0) "displacement"; pure (.blt h m a b i)) else if f.sel == 3 then (do let a ← pure f.as1.toFin; let b ← pure f.as2.toFin; let m ← decBrMod f.md; let i ← pure (f.ad ++ f.fhi); must (f.ac == 0) "AC"; must (m != .q || i == 0) "displacement"; pure (.bge h m a b i)) else if f.sel == 4 then (do let a ← pure f.as1.toFin; let b ← pure f.as2.toFin; let m ← decBrMod f.md; let i ← pure (f.ad ++ f.fhi); must (f.ac == 0) "AC"; must (m != .q || i == 0) "displacement"; pure (.bltu h m a b i)) else if f.sel == 5 then (do let a ← pure f.as1.toFin; let b ← pure f.as2.toFin; let m ← decBrMod f.md; let i ← pure (f.ad ++ f.fhi); must (f.ac == 0) "AC"; must (m != .q || i == 0) "displacement"; pure (.bgeu h m a b i)) else .error (.badField "selector")
  | 0x29 => do let i ← pure (f.ad ++ f.as1 ++ f.as2 ++ f.fhi ++ f.sel); must (f.ac == 0) "AC"; must (f.md == 0) "MD"; pure (.jmp h i)
  | 0x2a => do let a ← pure f.as1.toFin; must (f.ad == 0) "AD"; must (f.as2 == 0) "AS2"; must (f.fhi == 0) "FHI"; must (f.sel == 0) "SEL"; must (f.ac == 0) "AC"; must (f.md == 0) "MD"; pure (.aJr h a)
  | 0x2b => do let d ← pure f.ad.toFin; let i ← pure (f.as1 ++ f.as2 ++ f.fhi ++ f.sel); must (f.ac == 0) "AC"; must (f.md == 0) "MD"; pure (.aCall h d i)
  | 0x2c => do let a ← pure f.as1.toFin; must (f.ad == 0) "AD"; must (f.as2 == 0) "AS2"; must (f.fhi == 0) "FHI"; must (f.sel == 0) "SEL"; must (f.ac == 0) "AC"; must (f.md == 0) "MD"; pure (.aRet h a)
  | 0x2d => do let a ← pure f.as1.toFin; let l ← decBool f.md "MOD"; let i ← decNz (f.fhi ++ f.sel); must (f.ad == 0) "AD"; must (f.as2 == 0) "AS2"; must (f.ac == 0) "AC"; pure (.aLoop h l a i)
  | 0x2e => do let i ← decPauseImm (f.as2 ++ f.fhi ++ f.sel); must (f.ad == 0) "AD"; must (f.as1 == 0) "AS1"; must (f.ac == 0) "AC"; must (f.md == 0) "MD"; pure (.aPause h i)
  | 0x2f => do must (f.ad == 0) "AD"; must (f.as1 == 0) "AS1"; must (f.as2 == 0) "AS2"; must (f.fhi == 0) "FHI"; must (f.sel == 0) "SEL"; must (f.ac == 0) "AC"; must (f.md == 0) "MD"; must (h == { wait := none, push := none }) "token field"; pure .aFin
  | 0x30 => if f.sel == 0 then (do let s ← decAScope f.md; must (f.ad == 0) "AD"; must (f.as1 == 0) "AS1"; must (f.as2 == 0) "AS2"; must (f.fhi == 0) "FHI"; must (f.ac == 0) "AC"; pure (.fenceAcq h s)) else if f.sel == 1 then (do let s ← decAScope f.md; must (f.ad == 0) "AD"; must (f.as1 == 0) "AS1"; must (f.as2 == 0) "AS2"; must (f.fhi == 0) "FHI"; must (f.ac == 0) "AC"; pure (.fenceRel h s)) else if f.sel == 2 then (do let s ← decAScope f.md; must (f.ad == 0) "AD"; must (f.as1 == 0) "AS1"; must (f.as2 == 0) "AS2"; must (f.fhi == 0) "FHI"; must (f.ac == 0) "AC"; pure (.fenceSc h s)) else .error (.badField "selector")
  | 0x31 => if f.sel == 0 then (do let b ← decB5 f.fhi; must (f.ad == 0) "AD"; must (f.as1 == 0) "AS1"; must (f.as2 == 0) "AS2"; must (f.ac == 0) "AC"; must (f.md == 0) "MD"; pure (.colarrRlx h b)) else if f.sel == 1 then (do let b ← decB5 f.fhi; must (f.ad == 0) "AD"; must (f.as1 == 0) "AS1"; must (f.as2 == 0) "AS2"; must (f.ac == 0) "AC"; must (f.md == 0) "MD"; pure (.colarrRel h b)) else .error (.badField "selector")
  | 0x32 => do let b ← decB5F (f.fhi ++ f.sel); must (f.ad == 0) "AD"; must (f.as1 == 0) "AS1"; must (f.as2 == 0) "AS2"; must (f.ac == 0) "AC"; must (f.md == 0) "MD"; pure (.colwait h b)
  | 0x33 => do let b ← decB5F (f.fhi ++ f.sel); must (f.ad == 0) "AD"; must (f.as1 == 0) "AS1"; must (f.as2 == 0) "AS2"; must (f.ac == 0) "AC"; must (f.md == 0) "MD"; pure (.colsync h b)
  | 0x34 => do let d ← pure f.ad.toFin; let a ← pure f.as1.toFin; let e ← pure f.as2.toFin; must (f.fhi == 0) "FHI"; must (f.sel == 0) "SEL"; must (f.ac == 0) "AC"; must (f.md == 0) "MD"; pure (.barc h d a e)
  | 0x35 => do must (f.ad == 0) "AD"; must (f.as1 == 0) "AS1"; must (f.as2 == 0) "AS2"; must (f.fhi == 0) "FHI"; must (f.sel == 0) "SEL"; must (f.ac == 0) "AC"; must (f.md == 0) "MD"; must (h == { wait := none, push := none }) "token field"; pure .seal
  | 0x38 => if f.sel == 0 then (do let d ← pure f.ad.toFin; let i ← pure (f.as2 ++ f.fhi); must (f.as1 == 0) "AS1"; must (f.ac == 0) "AC"; must (f.md == 0) "MD"; pure (.aSysr h d i)) else if f.sel == 1 then (do let a ← pure f.as1.toFin; let i ← pure (f.as2 ++ f.fhi); must (f.ad == 0) "AD"; must (f.ac == 0) "AC"; must (f.md == 0) "MD"; pure (.aSysw h a i)) else if f.sel == 2 then (do let n ← pure f.fhi.toFin; must (f.ad == 0) "AD"; must (f.as1 == 0) "AS1"; must (f.as2 == 0) "AS2"; must (f.ac == 0) "AC"; must (f.md == 0) "MD"; pure (.aTrap h n)) else if f.sel == 3 then (do let v ← pure f.as1.toFin; let l ← pure f.as2.toFin; must (f.ad == 0) "AD"; must (f.fhi == 0) "FHI"; must (f.ac == 0) "AC"; must (f.md == 0) "MD"; pure (.tlbinv h v l)) else if f.sel == 4 then (do let b ← pure f.as1.toFin; must (f.ad == 0) "AD"; must (f.as2 == 0) "AS2"; must (f.fhi == 0) "FHI"; must (f.ac == 0) "AC"; must (f.md == 0) "MD"; pure (.ctxsw h b)) else if f.sel == 5 then (do let s ← pure f.as1.toFin; let v ← pure f.as2.toFin; must (f.ad == 0) "AD"; must (f.fhi == 0) "FHI"; must (f.ac == 0) "AC"; must (f.md == 0) "MD"; pure (.ctxbank h s v)) else .error (.badField "selector")
  | 0x39 => if f.sel == 0 then (do let d ← pure f.ad.toFin; let r ← pure f.as1.toFin; let q ← decQ64 f.fhi; must (f.as2 == 0) "AS2"; must (f.ac == 0) "AC"; must (f.md == 0) "MD"; pure (.lnch h d r q)) else if f.sel == 1 then (do let d ← pure f.ad.toFin; let i ← pure f.as1.toFin; if f.fhi == 0 then (do must (f.as2 == 0) "AS2"; must (f.ac == 0) "AC"; must (f.md == 0) "MOD"; pure (.lcancel h d i)) else (do must (f.fhi == 1) "FN"; must (f.ac == 0) "AC"; must (f.md == 0) "MOD"; pure (.lcancelUnit h d i f.as2.toFin))) else if f.sel == 2 then (do let d ← pure f.ad.toFin; let i ← pure f.as1.toFin; must (f.as2 == 0) "AS2"; must (f.fhi == 0) "FHI"; must (f.ac == 0) "AC"; must (f.md == 0) "MD"; pure (.lwait h d i)) else .error (.badField "selector")
  | 0x3a => if f.sel == 0 then (do let b ← pure f.as1.toFin; let c ← decEvCtx f.fhi; must (f.ad == 0) "AD"; must (f.as2 == 0) "AS2"; must (f.ac == 0) "AC"; must (f.md == 0) "MD"; pure (.evset h b c)) else if f.sel == 1 then (do let b ← pure f.as1.toFin; let c ← decEvCtx f.fhi; must (f.ad == 0) "AD"; must (f.as2 == 0) "AS2"; must (f.ac == 0) "AC"; must (f.md == 0) "MD"; pure (.evclr h b c)) else if f.sel == 2 then (do let d ← pure f.ad.toFin; let b ← pure f.as1.toFin; let c ← decEvCtx f.fhi; must (f.as2 == 0) "AS2"; must (f.ac == 0) "AC"; must (f.md == 0) "MD"; pure (.evtest h d b c)) else .error (.badField "selector")
  | 0x3b => if f.sel == 0 then (do let r ← fin5 16 f.ad "register"; let a ← pure f.as1.toFin; let cl ← pure f.ac.toFin; let off ← pure f.fhi; must (f.as2 == 0) "AS2"; must (f.md == 0) "MD"; pure (.hld h cl r a off)) else if f.sel == 1 then (do let r ← fin5 16 f.ad "register"; let a ← pure f.as1.toFin; let cl ← pure f.ac.toFin; let off ← pure f.fhi; must (f.as2 == 0) "AS2"; must (f.md == 0) "MD"; pure (.hst h cl r a off)) else if f.sel == 2 then (do let d ← fin5 16 f.ad "register"; let s ← fin5 16 f.as1 "register"; let k ← decKEven f.as2; must (f.fhi == 0) "FHI"; must (f.ac == 0) "AC"; must (f.md == 0) "MD"; pure (.hview h d s k)) else if f.sel == 3 then (do let d ← fin5 16 f.ad "register"; let s ← fin5 16 f.as1 "register"; must (f.as2 == 0) "AS2"; must (f.fhi == 0) "FHI"; must (f.ac == 0) "AC"; must (f.md == 0) "MD"; pure (.htrans h d s)) else if f.sel == 4 then (do let d ← fin5 16 f.ad "register"; let s ← fin5 16 f.as1 "register"; let k ← decKShape f.as2; must (f.fhi == 0) "FHI"; must (f.ac == 0) "AC"; must (f.md == 0) "MD"; pure (.hshape h d s k)) else .error (.badField "selector")
  | _ => .error .reservedOp

/-- Ring-put fields FN[24] and FN[23:20] (spec/10 R205). -/
def decRp (b : BitVec 7) : Except DecodeError (Option (Fin 16)) :=
  if 32 ≤ b.toNat then .error (.badField "FN")
  else if b.getLsbD 4 then .ok (some (b.extractLsb' 0 4).toFin)
  else if b = 0 then .ok none else .error (.badField "ring")

def encRp : Option (Fin 16) → BitVec 7 | none => 0 | some r => BitVec.ofNat 7 (16 + r.val)

def decSpaces (b : BitVec 3) : Except DecodeError (Bool × Bool) :=
  if b.toNat < 4 then .ok (b.getLsbD 1, b.getLsbD 0) else .error (.badField "MOD")

def encSpaces (ss ds : Bool) : BitVec 3 := BitVec.ofNat 3 (2 * ss.toNat + ds.toNat)

def lDecHdr (f : AFields) (l : LFields) : Except DecodeError LHdr := do
  let w ← decTok f.wf f.we; let p ← decTok f.pf f.pe; let hb ← decBool l.ext "EXT"
  pure { wait := w, push := p, stamp := l.stamp, bound := l.bound, hb := hb }

def lEnc (h : LHdr) : LFields := { stamp := h.stamp, bound := h.bound, ext := encBool h.hb }

def lEncHdr (h : LHdr) : AFields :=
  { wf := encTokF h.wait, we := encTokE h.wait, pf := encTokF h.push, pe := encTokE h.push }

/-- The instruction of a long form's fields (spec/10 R205). -/
def decodeLF (f : AFields) (l : LFields) : Except DecodeError Instr := do
  let h ← lDecHdr f l
  must (f.ac == 0) "AC"
  match f.op.toNat with
  | 0x3C => do
    let d ← fin5 16 f.ad "handle"; let s ← fin5 16 f.as1 "handle"; must (f.as2 == 0) "AS2"; must (f.sel == 0) "FN"
    let rp ← decRp f.fhi; let (ss, ds) ← decSpaces f.md; pure (.cpy h ss ds rp d s)
  | 0x3D => do
    let d ← fin5 16 f.ad "handle"; let s ← fin5 16 f.as1 "handle"; let rp ← decRp f.fhi
    let (ss, ds) ← decSpaces f.md
    if f.sel == 0 then pure (.cpg h ss ds rp d s f.as2.toFin)
    else if f.sel == 1 then pure (.cps h ss ds rp d s f.as2.toFin) else .error (.badField "selector")
  | 0x3E => do
    let d ← fin5 16 f.ad "handle"; let s ← fin5 16 f.as1 "handle"; must (f.as2 == 0) "AS2"; must (f.sel == 0) "FN"
    let rp ← decRp f.fhi; let (ss, ds) ← decSpaces f.md; pure (.cpq h ss ds rp d s)
  | 0x3F => do
    must (f.fhi == 0) "FN"; must (f.sel == 0) "FN"; must (f.md == 0) "MOD"
    pure (.cpm h f.ad.toFin f.as1.toFin f.as2.toFin)
  | _ => .error .reservedOp

/-- The A word at the head of the stream; `w2` is the word after it. -/
def decodeA (w w2 : BitVec 48) : Except DecodeError Instr :=
  if isLong w then decodeLF (aUnpack w) (lUnpack w2) else decodeAF (aUnpack w)

/-! ## M words (R34, R39; spec/11 R217) -/

def mEncHdr (h : MHdr) : MFields :=
  { stamp := h.stamp, bound := h.bound, wf := encTokF h.wait, we := encTokE h.wait, pf := encTokF h.push,
    pe := encTokE h.push }

def mDecHdr (f : MFields) : Except DecodeError MHdr := do
  let w ← decTok f.wf f.we; let p ← decTok f.pf f.pe
  pure { wait := w, push := p, stamp := f.stamp, bound := f.bound }

/-- The fields of an M word other than the header and OP, with the named ones cleared, must be 0. -/
def mRest (f : MFields) : Except DecodeError Unit :=
  must (({ f with op := 0, stamp := 0, bound := 0, wf := 0, we := 0, pf := 0, pe := 0 } : MFields) == {}) "unused field"

/-- OPND with the k-register fields KA [35:33] and KB [32:30] cleared. -/
def opndRest (o : BitVec 36) (keep : Nat) : Bool := (o.toNat &&& (2 ^ 36 - 1 - keep)) == 0

def opK1 (o : BitVec 36) : Fin 8 := (o.extractLsb' 33 3).toFin
def opK2 (o : BitVec 36) : Fin 8 := (o.extractLsb' 30 3).toFin
def encOp (k1 k2 : Fin 8) (low : BitVec 30) : BitVec 36 :=
  (BitVec.ofFin k1 : BitVec 3) ++ (BitVec.ofFin k2 : BitVec 3) ++ low

/-- The instruction of an M word's fields. -/
def decodeMF (f : MFields) : Except DecodeError Instr := do
  let h ← mDecHdr f
  match f.op.toNat with
  | 0x00 => do mRest f; pure (.mnop h)
  | 0x01 => do mRest f; pure (.mlease h)
  | 0x02 => do mRest f; pure (.mfree h)
  | 0x03 => do mRest f; pure (.mfin h)
  | 0x10 => do
    let fa ← decFmt f.fa; let fb ← decFmt f.fb
    mRest { f with t := 0, c := 0, ra := 0, rb := 0, acc := 0, ks := 0, fa := 0, fb := 0, sp := 0, opnd := 0 }
    must (opndRest f.opnd 0xFF0000000) "OPND"; must (f.ks != 0) "KSTEPS"
    let wl := f.opnd.getLsbD 29
    must (!wl || (f.rb == 0 && !f.sp.getLsbD 0 && opK2 f.opnd == 0)) "latch form"
    pure (.mmul h (f.t == 1) (f.c == 1) f.ra.toFin f.rb.toFin f.acc.toFin f.ks.toFin fa fb (f.sp.getLsbD 0)
      (f.sp.getLsbD 1) (opK1 f.opnd) (opK2 f.opnd) wl (f.opnd.getLsbD 28))
  | 0x18 => do
    let fb ← decFmt f.fb; mRest { f with rb := 0, fb := 0, opnd := 0 }
    must (opndRest f.opnd 0x1C0000000) "OPND"; pure (.mwload h f.rb.toFin fb (opK2 f.opnd))
  | 0x19 => do
    let fb ← decFmt f.fb; mRest { f with rb := 0, fb := 0, opnd := 0 }
    must (opndRest f.opnd 0x1C0000000) "OPND"; pure (.mwloadnm h f.rb.toFin fb (opK2 f.opnd))
  | 0x30 => do
    let fa ← decFmt f.fa
    mRest { f with t := 0, c := 0, q := 0, ra := 0, acc := 0, fa := 0, opnd := 0 }
    must (opndRest f.opnd 0xF00000000) "OPND"
    let kv := f.opnd.getLsbD 32
    must (kv || opK1 f.opnd == 0) "KO"; must (f.q == 0 || kv) "Q"; must (!kv || f.q == 1 || fa == .int8) "KV"
    pure (.mdrain h (f.t == 1) (f.c == 1) (f.q == 1) f.ra.toFin f.acc.toFin fa
      (if kv then some (opK1 f.opnd) else none))
  | 0x31 => do
    mRest { f with acc := 0, opnd := 0 }; must (opndRest f.opnd 0x10000000) "OPND"
    pure (.mzero h f.acc.toFin (f.opnd.getLsbD 28))
  | 0x32 => do
    mRest { f with ra := 0, acc := 0, opnd := 0 }; must (opndRest f.opnd 0xE00000000) "OPND"
    pure (.msnap h f.ra.toFin f.acc.toFin (opK1 f.opnd))
  | 0x40 => do
    let fa ← decFmt f.fa; let fb ← decFmt f.fb
    mRest { f with ra := 0, rb := 0, ks := 0, fa := 0, fb := 0, opnd := 0 }
    must (opndRest f.opnd 0xFC0000000) "OPND"; must (f.ks == 1) "KSTEPS"; must ((opK1 f.opnd).val % 2 == 0) "KD"
    pure (.mpred h f.ra.toFin f.rb.toFin fa fb (opK1 f.opnd) (opK2 f.opnd))
  | 0x41 => do
    mRest { f with ra := 0, opnd := 0 }; must (opndRest f.opnd 0xFC0000000) "OPND"
    must ((opK1 f.opnd).val % 2 == 0) "KM"
    pure (.mscan h f.ra.toFin (opK1 f.opnd) (opK2 f.opnd))
  | 0x50 => do
    mRest { f with opnd := 0 }; must (opndRest f.opnd 0xEFFFFFFFF) "OPND"
    pure (.mkli h (opK1 f.opnd) (f.opnd.extractLsb' 0 32))
  | 0x51 => do
    mRest { f with opnd := 0 }; must (opndRest f.opnd 0xFC0FFFFFF) "OPND"
    pure (.mkadd h (opK1 f.opnd) (opK2 f.opnd) (f.opnd.extractLsb' 0 24))
  | 0x52 => do
    mRest { f with opnd := 0 }; must (opndRest f.opnd 0x3FFFFFFFF) "OPND"
    let d := f.opnd.extractLsb' 16 13; let k := (f.opnd.extractLsb' 29 3).toFin; let n := f.opnd.extractLsb' 0 16
    must (d != 0) "D"
    let kc := f.opnd.getLsbD 32
    must (if kc then n == 0 else k == 0) "count"
    pure (.mloop h (f.opnd.getLsbD 33) (if kc then .kreg k else .imm n) d)
  | 0x53 => do
    mRest { f with opnd := 0 }; must (opndRest f.opnd 0xE000FFFFF) "OPND"
    pure (.mbnz h (opK1 f.opnd) (f.opnd.extractLsb' 0 20))
  | _ => .error .reservedOp

def decodeM (w : BitVec 128) : Except DecodeError Instr := decodeMF (mUnpack w)

/-! ## The encoder -/

/-- The words of an instruction. -/
inductive Words where
  | x (w : BitVec 64)
  | a (w : BitVec 48)
  | long (w w2 : BitVec 48)
  | m (w : BitVec 128)
  deriving DecidableEq, Repr

/-- Decode the words again. -/
def Words.decode : Words → Except DecodeError Instr
  | .x w => decodeX w
  | .a w => decodeA w 0
  | .long w w2 => decodeA w w2
  | .m w => decodeM w

/-- The words of an X syllable, from the encoding tables of its chapter; none for anything else. -/
def encodeX : Instr → Option Words
  | .xAdd h d a b => some (.x (xPack { xEncHdr h with op := 0x1, dst := encSDst d, sa := encSSrc a, sb := encSSrc b }))
  | .xSub h d a b => some (.x (xPack { xEncHdr h with op := 0x2, dst := encSDst d, sa := encSSrc a, sb := encSSrc b }))
  | .xAnd h d a b => some (.x (xPack { xEncHdr h with op := 0x3, dst := encSDst d, sa := encSSrc a, sb := encSSrc b }))
  | .xOr h d a b => some (.x (xPack { xEncHdr h with op := 0x4, dst := encSDst d, sa := encSSrc a, sb := encSSrc b }))
  | .xXor h d a b => some (.x (xPack { xEncHdr h with op := 0x5, dst := encSDst d, sa := encSSrc a, sb := encSSrc b }))
  | .xShl h d a b => some (.x (xPack { xEncHdr h with op := 0x6, dst := encSDst d, sa := encSSrc a, sb := encSSrc b }))
  | .xShr h d a b => some (.x (xPack { xEncHdr h with op := 0x7, dst := encSDst d, sa := encSSrc a, sb := encSSrc b }))
  | .xSra h d a b => some (.x (xPack { xEncHdr h with op := 0x8, dst := encSDst d, sa := encSSrc a, sb := encSSrc b }))
  | .xMin h u d a b => some (.x (xPack { xEncHdr h with op := 0x9, dst := encSDst d, fn := encBool u, sa := encSSrc a, sb := encSSrc b }))
  | .xMax h u d a b => some (.x (xPack { xEncHdr h with op := 0xa, dst := encSDst d, fn := encBool u, sa := encSSrc a, sb := encSSrc b }))
  | .xMul h d a b => some (.x (xPack { xEncHdr h with op := 0xb, dst := encSDst d, sa := encSSrc a, sb := encSSrc b }))
  | .xMulh h u d a b => some (.x (xPack { xEncHdr h with op := 0xc, dst := encSDst d, fn := encBool u, sa := encSSrc a, sb := encSSrc b }))
  | .xSel h d a b p => some (.x (xPack { xEncHdr h with op := 0xd, dst := encSDst d, sc := BitVec.ofNat 8 p.val, sa := encSSrc a, sb := encSSrc b }))
  | .xClz h d a => some (.x (xPack { xEncHdr h with op := 0xe, dst := encSDst d, sa := encSSrc a }))
  | .xPopc h d a => some (.x (xPack { xEncHdr h with op := 0xf, dst := encSDst d, sa := encSSrc a }))
  | .xBfx h sx w d a pos => some (.x (xPack { xEncHdr h with op := 0x10, dst := encSDst d, sa := encSSrc a, sb := encSSrc pos, sub := encBool sx, fn := BitVec.ofFin w }))
  | .xBfi h w d a b pos => some (.x (xPack { xEncHdr h with op := 0x11, dst := encSDst d, sc := encSSrc pos, fn := BitVec.ofFin w, sa := encSSrc a, sb := encSSrc b }))
  | .xLea h k d a b => some (.x (xPack { xEncHdr h with op := 0x12, dst := encSDst d, sub := BitVec.ofFin k, sa := encSSrc a, sb := encSSrc b }))
  | .xAddi h d a i => some (.x (xPack { xEncHdr h with op := 0x20, dst := encSDst d, sa := encSSrc a, sb := (i).extractLsb' 8 8, sc := (i).extractLsb' 0 8 }))
  | .xAndi h d a i => some (.x (xPack { xEncHdr h with op := 0x21, dst := encSDst d, sa := encSSrc a, sb := (i).extractLsb' 8 8, sc := (i).extractLsb' 0 8 }))
  | .xOri h d a i => some (.x (xPack { xEncHdr h with op := 0x22, dst := encSDst d, sa := encSSrc a, sb := (i).extractLsb' 8 8, sc := (i).extractLsb' 0 8 }))
  | .xXori h d a i => some (.x (xPack { xEncHdr h with op := 0x23, dst := encSDst d, sa := encSSrc a, sb := (i).extractLsb' 8 8, sc := (i).extractLsb' 0 8 }))
  | .xLih h d a i => some (.x (xPack { xEncHdr h with op := 0x28, dst := encSDst d, sa := encSSrc a, sb := (i).extractLsb' 8 8, sc := (i).extractLsb' 0 8 }))
  | .xMuli h d a i => some (.x (xPack { xEncHdr h with op := 0x29, dst := encSDst d, sa := encSSrc a, sb := (i).extractLsb' 8 8, sc := (i).extractLsb' 0 8 }))
  | .xShli h d a i => some (.x (xPack { xEncHdr h with op := 0x24, dst := encSDst d, sa := encSSrc a, sb := (i).extractLsb' 8 8, sc := (i).extractLsb' 0 8 }))
  | .xShri h d a i => some (.x (xPack { xEncHdr h with op := 0x25, dst := encSDst d, sa := encSSrc a, sb := (i).extractLsb' 8 8, sc := (i).extractLsb' 0 8 }))
  | .xSrai h d a i => some (.x (xPack { xEncHdr h with op := 0x26, dst := encSDst d, sa := encSSrc a, sb := (i).extractLsb' 8 8, sc := (i).extractLsb' 0 8 }))
  | .xLi h d i => some (.x (xPack { xEncHdr h with op := 0x27, dst := encSDst d, sb := (i).extractLsb' 8 8, sc := (i).extractLsb' 0 8 }))
  | .xCmp h c p a b => some (.x (xPack { xEncHdr h with op := 0x38, dst := BitVec.ofNat 8 p.val, fn := encICond c, sa := encSSrc a, sb := encSSrc b }))
  | .xCmpi h c p a i => some (.x (xPack { xEncHdr h with op := 0x39, dst := BitVec.ofNat 8 p.val, sa := encSSrc a, fn := encICond c, sb := (i).extractLsb' 8 8, sc := (i).extractLsb' 0 8 }))
  | .xPand h p a b => some (.x (xPack { xEncHdr h with op := 0x3a, dst := BitVec.ofNat 8 p.val, sa := BitVec.ofNat 8 a.val, sb := BitVec.ofNat 8 b.val }))
  | .xPor h p a b => some (.x (xPack { xEncHdr h with op := 0x3b, dst := BitVec.ofNat 8 p.val, sa := BitVec.ofNat 8 a.val, sb := BitVec.ofNat 8 b.val }))
  | .xPxor h p a b => some (.x (xPack { xEncHdr h with op := 0x3c, dst := BitVec.ofNat 8 p.val, sa := BitVec.ofNat 8 a.val, sb := BitVec.ofNat 8 b.val }))
  | .xPnot h p a => some (.x (xPack { xEncHdr h with op := 0x3d, dst := BitVec.ofNat 8 p.val, sa := BitVec.ofNat 8 a.val }))
  | .xPmov h p a => some (.x (xPack { xEncHdr h with op := 0x3e, dst := BitVec.ofNat 8 p.val, sa := BitVec.ofNat 8 a.val }))
  | .xPget h d a => some (.x (xPack { xEncHdr h with op := 0x3f, dst := encSDst d, sa := BitVec.ofNat 8 a.val }))
  | .vadd h d a b => some (.x (xPack { xEncHdr h with op := 0x40, dst := encVDst d, sa := encVSrc a, sb := encVSrc b }))
  | .vsub h d a b => some (.x (xPack { xEncHdr h with op := 0x41, dst := encVDst d, sa := encVSrc a, sb := encVSrc b }))
  | .vmul h d a b => some (.x (xPack { xEncHdr h with op := 0x42, dst := encVDst d, sa := encVSrc a, sb := encVSrc b }))
  | .vfma h d a b c => some (.x (xPack { xEncHdr h with op := 0x43, dst := encVDst d, sa := encVSrc a, sb := encVSrc b, sc := encVSrc c }))
  | .vfms h d a b c => some (.x (xPack { xEncHdr h with op := 0x44, dst := encVDst d, sa := encVSrc a, sb := encVSrc b, sc := encVSrc c }))
  | .vmin h d a b => some (.x (xPack { xEncHdr h with op := 0x45, dst := encVDst d, sa := encVSrc a, sb := encVSrc b }))
  | .vmax h d a b => some (.x (xPack { xEncHdr h with op := 0x46, dst := encVDst d, sa := encVSrc a, sb := encVSrc b }))
  | .vabs h d a => some (.x (xPack { xEncHdr h with op := 0x47, dst := encVDst d, sa := encVSrc a }))
  | .vneg h d a => some (.x (xPack { xEncHdr h with op := 0x48, dst := encVDst d, sa := encVSrc a }))
  | .vcmp h c d a b => some (.x (xPack { xEncHdr h with op := 0x49, fn := encFCond c, dst := encVDst d, sa := encVSrc a, sb := encVSrc b }))
  | .vrcp h d a => some (.x (xPack { xEncHdr h with op := 0x4a, dst := encVDst d, sa := encVSrc a }))
  | .vrsqrt h d a => some (.x (xPack { xEncHdr h with op := 0x4b, dst := encVDst d, sa := encVSrc a }))
  | .vexp2 h d a => some (.x (xPack { xEncHdr h with op := 0x4c, dst := encVDst d, sa := encVSrc a }))
  | .vlog2 h d a => some (.x (xPack { xEncHdr h with op := 0x4d, dst := encVDst d, sa := encVSrc a }))
  | .vredsumO h d a => some (.x (xPack { xEncHdr h with op := 0x4e, sub := 0, dst := encSDst d, sa := encVSrc a }))
  | .vredsumU h d a => some (.x (xPack { xEncHdr h with op := 0x4e, sub := 1, dst := encSDst d, sa := encVSrc a }))
  | .vredmax h d a => some (.x (xPack { xEncHdr h with op := 0x4f, dst := encSDst d, sa := encVSrc a }))
  | .viadd h d a b => some (.x (xPack { xEncHdr h with op := 0x70, dst := encVDst d, sa := encVSrc a, sb := encVSrc b }))
  | .visub h d a b => some (.x (xPack { xEncHdr h with op := 0x71, dst := encVDst d, sa := encVSrc a, sb := encVSrc b }))
  | .vimul h d a b => some (.x (xPack { xEncHdr h with op := 0x72, dst := encVDst d, sa := encVSrc a, sb := encVSrc b }))
  | .vand h d a b => some (.x (xPack { xEncHdr h with op := 0x73, dst := encVDst d, sa := encVSrc a, sb := encVSrc b }))
  | .vor h d a b => some (.x (xPack { xEncHdr h with op := 0x74, dst := encVDst d, sa := encVSrc a, sb := encVSrc b }))
  | .vxor h d a b => some (.x (xPack { xEncHdr h with op := 0x75, dst := encVDst d, sa := encVSrc a, sb := encVSrc b }))
  | .vshl h d a b => some (.x (xPack { xEncHdr h with op := 0x76, dst := encVDst d, sa := encVSrc a, sb := encVSrc b }))
  | .vshr h d a b => some (.x (xPack { xEncHdr h with op := 0x77, dst := encVDst d, sa := encVSrc a, sb := encVSrc b }))
  | .vsra h d a b => some (.x (xPack { xEncHdr h with op := 0x78, dst := encVDst d, sa := encVSrc a, sb := encVSrc b }))
  | .vimin h u d a b => some (.x (xPack { xEncHdr h with op := 0x79, fn := encBool u, dst := encVDst d, sa := encVSrc a, sb := encVSrc b }))
  | .vimax h u d a b => some (.x (xPack { xEncHdr h with op := 0x7a, fn := encBool u, dst := encVDst d, sa := encVSrc a, sb := encVSrc b }))
  | .vicmp h c d a b => some (.x (xPack { xEncHdr h with op := 0x7b, fn := encICond c, dst := encVDst d, sa := encVSrc a, sb := encVSrc b }))
  | .vmacw h u pa pb d a b c => some (.x (xPack { xEncHdr h with op := 0x7c, fn := encVmacw u pa pb, dst := encVDst d, sa := encVSrc a, sb := encVSrc b, sc := encVSrc c }))
  | .vrsh h t p d a b c => some (.x (xPack { xEncHdr h with op := 0x7d, fn := encRshT t, sub := BitVec.ofNat 3 p.val, dst := encVDst d, sa := encVSrc a, sb := encVSrc b, sc := encVSrc c }))
  | .vdot4 h ua ub d a b c => some (.x (xPack { xEncHdr h with op := 0x7e, fn := encDot4 ua ub, dst := encVDst d, sa := encVSrc a, sb := encVSrc b, sc := encVSrc c }))
  | .vcvt h df sf p d a c => some (.x (xPack { xEncHdr h with op := 0x7f, fn := encCvtD df p, sub := encCvtS sf, dst := encVDst d, sa := encVSrc a, sc := encVSrc c }))
  | .vdq h q p d a b c => some (.x (xPack { xEncHdr h with op := 0x80, fn := encDqF q, sub := BitVec.ofFin p, dst := encVDst d, sa := encVSrc a, sb := encVSrc b, sc := encVSrc c }))
  | .vbc h d a => some (.x (xPack { xEncHdr h with op := 0x81, sub := 0, dst := encVDst d, sa := encSSrc a }))
  | .vbcLn h d a b => some (.x (xPack { xEncHdr h with op := 0x81, sub := 1, dst := encVDst d, sa := encVSrc a, sb := encSSrc b }))
  | .vperm h d a b c => some (.x (xPack { xEncHdr h with op := 0x90, dst := encVDst d, sa := encVSrc a, sb := encVSrc b, sc := encVSrc c }))
  | .vnzscan h fl d a b => some (.x (xPack { xEncHdr h with op := 0x91, fn := 0, sub := encBool fl, dst := encVDst d, sa := encVSrc a, sb := encSSrc b }))
  | .vnzscanCnt h fl d a => some (.x (xPack { xEncHdr h with op := 0x91, fn := 1, sub := encBool fl, dst := encSDst d, sa := encVSrc a }))
  | .vnzscanMsk h fl d a => some (.x (xPack { xEncHdr h with op := 0x91, fn := 2, sub := encBool fl, dst := encSDst d, sa := encVSrc a }))
  | .vmerge h d a b c => some (.x (xPack { xEncHdr h with op := 0x92, dst := encVDst d, sa := encVSrc a, sb := encVSrc b, sc := encVSrc c }))
  | .vscan h op ex d a => some (.x (xPack { xEncHdr h with op := 0x93, fn := encScanOp op, sub := encBool ex, dst := encVDst d, sa := encVSrc a }))
  | .dadd h kp c a b => some (.x (xPack { xEncHdr h with op := 0xa0, sub := encBool kp, dst := BitVec.ofNat 8 c.val, sa := BitVec.ofNat 8 a.val, sb := BitVec.ofNat 8 b.val }))
  | .dsub h kp c a b => some (.x (xPack { xEncHdr h with op := 0xa1, sub := encBool kp, dst := BitVec.ofNat 8 c.val, sa := BitVec.ofNat 8 a.val, sb := BitVec.ofNat 8 b.val }))
  | .dmulc h kp c a kk => some (.x (xPack { xEncHdr h with op := 0xa2, sub := encBool kp, dst := BitVec.ofNat 8 c.val, sa := BitVec.ofNat 8 a.val, sb := encSSrc kk }))
  | .dlt h kp a b => some (.x (xPack { xEncHdr h with op := 0xa3, sub := encBool kp, dst := BitVec.ofNat 8 a.val, sa := BitVec.ofNat 8 b.val }))
  | .dle h kp a b => some (.x (xPack { xEncHdr h with op := 0xa4, sub := encBool kp, dst := BitVec.ofNat 8 a.val, sa := BitVec.ofNat 8 b.val }))
  | .deq h kp a b => some (.x (xPack { xEncHdr h with op := 0xa5, sub := encBool kp, dst := BitVec.ofNat 8 a.val, sa := BitVec.ofNat 8 b.val }))
  | .dne h kp a b => some (.x (xPack { xEncHdr h with op := 0xa6, sub := encBool kp, dst := BitVec.ofNat 8 a.val, sa := BitVec.ofNat 8 b.val }))
  | .dint h a lo hi => some (.x (xPack { xEncHdr h with op := 0xa7, dst := BitVec.ofNat 8 a.val, sa := encSSrc lo, sb := encSSrc hi }))
  | .dexcl h a v => some (.x (xPack { xEncHdr h with op := 0xa8, dst := BitVec.ofNat 8 a.val, sa := encSSrc v }))
  | .dfix h a v => some (.x (xPack { xEncHdr h with op := 0xa9, dst := BitVec.ofNat 8 a.val, sa := encSSrc v }))
  | .delem h kp a i t => some (.x (xPack { xEncHdr h with op := 0xaa, sub := encBool kp, dst := BitVec.ofNat 8 a.val, sa := BitVec.ofNat 8 i.val, sb := BitVec.ofNat 8 t.val }))
  | .dlo h d a => some (.x (xPack { xEncHdr h with op := 0xab, dst := encSDst d, sa := BitVec.ofNat 8 a.val }))
  | .dhi h d a => some (.x (xPack { xEncHdr h with op := 0xac, dst := encSDst d, sa := BitVec.ofNat 8 a.val }))
  | .dsize h d a => some (.x (xPack { xEncHdr h with op := 0xad, dst := encSDst d, sa := BitVec.ofNat 8 a.val }))
  | .dpick h d a => some (.x (xPack { xEncHdr h with op := 0xb0, dst := encSDst d, sa := BitVec.ofNat 8 a.val }))
  | .dget h d a w => some (.x (xPack { xEncHdr h with op := 0xae, dst := encSDst d, sa := BitVec.ofNat 8 a.val, fn := BitVec.ofNat 6 w.val }))
  | .dtestIn h p a v => some (.x (xPack { xEncHdr h with op := 0xaf, fn := 0, dst := BitVec.ofNat 8 p.val, sa := BitVec.ofNat 8 a.val, sb := encSSrc v }))
  | .dtestOne h p a => some (.x (xPack { xEncHdr h with op := 0xaf, fn := 1, dst := BitVec.ofNat 8 p.val, sa := BitVec.ofNat 8 a.val }))
  | .dset h a lo hi => some (.x (xPack { xEncHdr h with op := 0xb1, dst := BitVec.ofNat 8 a.val, sa := encSSrc lo, sb := encSSrc hi }))
  | .dsetw h a lo w0 w1 => some (.x (xPack { xEncHdr h with op := 0xb2, dst := BitVec.ofNat 8 a.val, sa := encSSrc lo, sb := encSSrc w0, sc := encSSrc w1 }))
  | .dprop h => some (.x (xPack { xEncHdr h with op := 0xb3 }))
  | .dsave h => some (.x (xPack { xEncHdr h with op := 0xb4 }))
  | .drest h => some (.x (xPack { xEncHdr h with op := 0xb5 }))
  | .ddrop h => some (.x (xPack { xEncHdr h with op := 0xb6 }))
  | .dclr h => some (.x (xPack { xEncHdr h with op := 0xb7 }))
  | .xNop h => some (.x (xPack { xEncHdr h with op := 0x0 }))
  | .xBr h i => some (.x (xPack { xEncHdr h with op := 0xc0, sb := (i).extractLsb' 8 8, sc := (i).extractLsb' 0 8 }))
  | .xJr h a => some (.x (xPack { xEncHdr h with op := 0xc1, sa := encSSrc a }))
  | .xCall h d i => some (.x (xPack { xEncHdr h with op := 0xc2, dst := encSDst d, sb := (i).extractLsb' 8 8, sc := (i).extractLsb' 0 8 }))
  | .xRet h a => some (.x (xPack { xEncHdr h with op := 0xc3, sa := encSSrc a }))
  | .brq h i => some (.x (xPack { xEncHdr h with op := 0xc4, sub := 0, sa := 0x3c, sb := (i).extractLsb' 8 8, sc := (i).extractLsb' 0 8 }))
  | .brqN h i => some (.x (xPack { xEncHdr h with op := 0xc4, sub := 1, sa := 0x3c, sb := (i).extractLsb' 8 8, sc := (i).extractLsb' 0 8 }))
  | .xLoop h l a i => some (.x (xPack { xEncHdr h with op := 0xc5, sub := encBool l, sa := encSSrc a, sb := (i).extractLsb' 8 8, sc := (i).extractLsb' 0 8 }))
  | .join h b m => some (.x (xPack { xEncHdr h with op := 0xc6, sa := BitVec.ofNat 8 b.val, sb := m.setWidth 8 }))
  | .ccset h b => some (.x (xPack { xEncHdr h with op := 0xc7, sa := BitVec.ofNat 8 b.val }))
  | .ccclr h b => some (.x (xPack { xEncHdr h with op := 0xc8, sa := BitVec.ofNat 8 b.val }))
  | .xPause h i => some (.x (xPack { xEncHdr h with op := 0xc9, sb := (i).extractLsb' 8 8, sc := (i).extractLsb' 0 8 }))
  | .xFin h => some (.x (xPack { xEncHdr h with op := 0xca }))
  | .xLd h cl ty d a b => some (.x (xPack { xEncHdr h with op := 0xd8, dst := encSDst d, fn := encXTy ty, sa := encSSrc a, sb := encSSrc b, sub := BitVec.ofFin cl }))
  | .xSt h cl ty a b c => some (.x (xPack { xEncHdr h with op := 0xd9, sc := encSSrc c, fn := encXTy ty, sa := encSSrc a, sb := encSSrc b, sub := BitVec.ofFin cl }))
  | .vld h cl d a b => some (.x (xPack { xEncHdr h with op := 0xda, dst := encVDst d, sa := encSSrc a, sb := encSSrc b, sub := BitVec.ofFin cl }))
  | .vst h cl a b c => some (.x (xPack { xEncHdr h with op := 0xdb, sc := encVSrc c, sa := encSSrc a, sb := encSSrc b, sub := BitVec.ofFin cl }))
  | .vldx h cl d a b => some (.x (xPack { xEncHdr h with op := 0xdc, dst := encVDst d, sa := encSSrc a, sb := encVSrc b, sub := BitVec.ofFin cl }))
  | .vstx h cl a b c => some (.x (xPack { xEncHdr h with op := 0xdd, sa := encSSrc a, sb := encVSrc b, sc := encVSrc c, sub := BitVec.ofFin cl }))
  | .ldacq h cl d a b => some (.x (xPack { xEncHdr h with op := 0xde, dst := encSDst d, sa := encSSrc a, sb := encSSrc b, sub := BitVec.ofFin cl }))
  | .accrd h d n r t => some (.x (xPack { xEncHdr h with op := 0xdf, dst := encVDst d, sa := BitVec.ofNat 8 n.val, sb := encSSrc r, sc := encCnt t }))
  | .xFence h k s => some (.x (xPack { xEncHdr h with op := 0xe8, fn := encFence6 k, sub := encScope s }))
  | .xTrap h i => some (.x (xPack { xEncHdr h with op := 0xf0, sb := (i).extractLsb' 8 8, sc := (i).extractLsb' 0 8 }))
  | .eret h => some (.x (xPack { xEncHdr h with op := 0xf1 }))
  | .xSysr h d i => some (.x (xPack { xEncHdr h with op := 0xf2, dst := encSDst d, sb := (i.setWidth 16).extractLsb' 8 8, sc := (i.setWidth 16).extractLsb' 0 8 }))
  | .xSysw h a i => some (.x (xPack { xEncHdr h with op := 0xf3, sa := encSSrc a, sb := (i.setWidth 16).extractLsb' 8 8, sc := (i.setWidth 16).extractLsb' 0 8 }))
  | .halt h => some (.x (xPack { xEncHdr h with op := 0xf4 }))
  | .dbgstop h i => some (.x (xPack { xEncHdr h with op := 0xf5, sb := (i).extractLsb' 8 8, sc := (i).extractLsb' 0 8 }))
  | .yield h => some (.x (xPack { xEncHdr h with op := 0xf6 }))
  | _ => none

/-- The word of a short A instruction, from the encoding tables of its chapter; none for anything else. -/
def encodeA : Instr → Option Words
  | .aAdd h d a b => some (.a (aPack { aEncHdr h with op := 0x0, ad := BitVec.ofFin d, as1 := BitVec.ofFin a, as2 := BitVec.ofFin b }))
  | .aSub h d a b => some (.a (aPack { aEncHdr h with op := 0x1, ad := BitVec.ofFin d, as1 := BitVec.ofFin a, as2 := BitVec.ofFin b }))
  | .aAnd h d a b => some (.a (aPack { aEncHdr h with op := 0x2, ad := BitVec.ofFin d, as1 := BitVec.ofFin a, as2 := BitVec.ofFin b }))
  | .aOr h d a b => some (.a (aPack { aEncHdr h with op := 0x3, ad := BitVec.ofFin d, as1 := BitVec.ofFin a, as2 := BitVec.ofFin b }))
  | .aXor h d a b => some (.a (aPack { aEncHdr h with op := 0x4, ad := BitVec.ofFin d, as1 := BitVec.ofFin a, as2 := BitVec.ofFin b }))
  | .aShl h d a b => some (.a (aPack { aEncHdr h with op := 0x5, ad := BitVec.ofFin d, as1 := BitVec.ofFin a, as2 := BitVec.ofFin b }))
  | .aShr h d a b => some (.a (aPack { aEncHdr h with op := 0x6, ad := BitVec.ofFin d, as1 := BitVec.ofFin a, as2 := BitVec.ofFin b }))
  | .aSra h d a b => some (.a (aPack { aEncHdr h with op := 0x7, ad := BitVec.ofFin d, as1 := BitVec.ofFin a, as2 := BitVec.ofFin b }))
  | .aMul h d a b => some (.a (aPack { aEncHdr h with op := 0x8, ad := BitVec.ofFin d, as1 := BitVec.ofFin a, as2 := BitVec.ofFin b }))
  | .aMin h u d a b => some (.a (aPack { aEncHdr h with op := 0x9, ad := BitVec.ofFin d, as1 := BitVec.ofFin a, as2 := BitVec.ofFin b, fhi := ((encBool u : BitVec 11)).extractLsb' 4 7, sel := ((encBool u : BitVec 11)).extractLsb' 0 4 }))
  | .aMax h u d a b => some (.a (aPack { aEncHdr h with op := 0xa, ad := BitVec.ofFin d, as1 := BitVec.ofFin a, as2 := BitVec.ofFin b, fhi := ((encBool u : BitVec 11)).extractLsb' 4 7, sel := ((encBool u : BitVec 11)).extractLsb' 0 4 }))
  | .aBfx h sx w d a p => some (.a (aPack { aEncHdr h with op := 0xb, ad := BitVec.ofFin d, as1 := BitVec.ofFin a, as2 := BitVec.ofFin p, fhi := (encABfx sx w).extractLsb' 4 7, sel := (encABfx sx w).extractLsb' 0 4 }))
  | .aAddi h d a i => some (.a (aPack { aEncHdr h with op := 0xc, ad := BitVec.ofFin d, as1 := BitVec.ofFin a, as2 := (i).extractLsb' 11 5, fhi := (i).extractLsb' 4 7, sel := (i).extractLsb' 0 4 }))
  | .aAndi h d a i => some (.a (aPack { aEncHdr h with op := 0xd, ad := BitVec.ofFin d, as1 := BitVec.ofFin a, as2 := (i).extractLsb' 11 5, fhi := (i).extractLsb' 4 7, sel := (i).extractLsb' 0 4 }))
  | .aLi h d i => some (.a (aPack { aEncHdr h with op := 0xe, ad := BitVec.ofFin d, as2 := (i).extractLsb' 11 5, fhi := (i).extractLsb' 4 7, sel := (i).extractLsb' 0 4 }))
  | .aLih h d a i k => some (.a (aPack { aEncHdr h with op := 0xf, ad := BitVec.ofFin d, as1 := BitVec.ofFin a, md := BitVec.ofNat 3 k.val, as2 := (i).extractLsb' 11 5, fhi := (i).extractLsb' 4 7, sel := (i).extractLsb' 0 4 }))
  | .aLd h cl sp ty d a i off => some (.a (aPack { aEncHdr h with op := 0x10, md := encBool sp, ad := BitVec.ofFin d, as1 := BitVec.ofFin a, as2 := BitVec.ofFin i, ac := BitVec.ofFin cl, fhi := (encTyOff ty off).extractLsb' 4 7, sel := (encTyOff ty off).extractLsb' 0 4 }))
  | .aSt h cl sp ty d a i off => some (.a (aPack { aEncHdr h with op := 0x11, md := encBool sp, ad := BitVec.ofFin d, as1 := BitVec.ofFin a, as2 := BitVec.ofFin i, ac := BitVec.ofFin cl, fhi := (encTyOff ty off).extractLsb' 4 7, sel := (encTyOff ty off).extractLsb' 0 4 }))
  | .lda h cl s ty d a i off => some (.a (aPack { aEncHdr h with op := 0x12, md := encScope s, ad := BitVec.ofFin d, as1 := BitVec.ofFin a, as2 := BitVec.ofFin i, ac := BitVec.ofFin cl, fhi := (encTyOff ty off).extractLsb' 4 7, sel := (encTyOff ty off).extractLsb' 0 4 }))
  | .stl h cl s ty d a i off => some (.a (aPack { aEncHdr h with op := 0x13, md := encScope s, ad := BitVec.ofFin d, as1 := BitVec.ofFin a, as2 := BitVec.ofFin i, ac := BitVec.ofFin cl, fhi := (encTyOff ty off).extractLsb' 4 7, sel := (encTyOff ty off).extractLsb' 0 4 }))
  | .ldq h cl sp q a i off => some (.a (aPack { aEncHdr h with op := 0x14, ad := BitVec.ofNat 5 q.val, as1 := BitVec.ofFin a, as2 := BitVec.ofFin i, ac := BitVec.ofFin cl, md := encBool sp, fhi := (off.setWidth 11).extractLsb' 4 7, sel := (off.setWidth 11).extractLsb' 0 4 }))
  | .ldd h cl sp q hs c => some (.a (aPack { aEncHdr h with op := 0x15, ad := BitVec.ofNat 5 q.val, as1 := BitVec.ofNat 5 hs.val, as2 := BitVec.ofFin c, ac := BitVec.ofFin cl, md := encBool sp }))
  | .stz h cl sp q hs c => some (.a (aPack { aEncHdr h with op := 0x16, ad := BitVec.ofNat 5 q.val, as1 := BitVec.ofNat 5 hs.val, as2 := BitVec.ofFin c, ac := BitVec.ofFin cl, md := encBool sp }))
  | .aswap h cl w sm d a v => some (.a (aPack { aEncHdr h with op := 0x18, sel := 0, ad := BitVec.ofFin d, as1 := BitVec.ofFin a, as2 := BitVec.ofFin v, ac := BitVec.ofFin cl, md := encSem sm, fhi := encBool w }))
  | .acas h cl w sm d a v => some (.a (aPack { aEncHdr h with op := 0x19, sel := 0, ad := BitVec.ofFin d, as1 := BitVec.ofFin a, as2 := BitVec.ofFin v, ac := BitVec.ofFin cl, md := encSem sm, fhi := encBool w }))
  | .aadd h cl w sm d a v => some (.a (aPack { aEncHdr h with op := 0x1a, sel := 0, ad := BitVec.ofFin d, as1 := BitVec.ofFin a, as2 := BitVec.ofFin v, ac := BitVec.ofFin cl, md := encSem sm, fhi := encBool w }))
  | .aand h cl w sm d a v => some (.a (aPack { aEncHdr h with op := 0x1b, sel := 0, ad := BitVec.ofFin d, as1 := BitVec.ofFin a, as2 := BitVec.ofFin v, ac := BitVec.ofFin cl, md := encSem sm, fhi := encBool w }))
  | .aor h cl w sm d a v => some (.a (aPack { aEncHdr h with op := 0x1b, sel := 1, ad := BitVec.ofFin d, as1 := BitVec.ofFin a, as2 := BitVec.ofFin v, ac := BitVec.ofFin cl, md := encSem sm, fhi := encBool w }))
  | .axor h cl w sm d a v => some (.a (aPack { aEncHdr h with op := 0x1b, sel := 2, ad := BitVec.ofFin d, as1 := BitVec.ofFin a, as2 := BitVec.ofFin v, ac := BitVec.ofFin cl, md := encSem sm, fhi := encBool w }))
  | .amin h cl w sm d a v => some (.a (aPack { aEncHdr h with op := 0x1c, sel := 0, ad := BitVec.ofFin d, as1 := BitVec.ofFin a, as2 := BitVec.ofFin v, ac := BitVec.ofFin cl, md := encSem sm, fhi := encBool w }))
  | .amax h cl w sm d a v => some (.a (aPack { aEncHdr h with op := 0x1c, sel := 1, ad := BitVec.ofFin d, as1 := BitVec.ofFin a, as2 := BitVec.ofFin v, ac := BitVec.ofFin cl, md := encSem sm, fhi := encBool w }))
  | .aminu h cl w sm d a v => some (.a (aPack { aEncHdr h with op := 0x1c, sel := 2, ad := BitVec.ofFin d, as1 := BitVec.ofFin a, as2 := BitVec.ofFin v, ac := BitVec.ofFin cl, md := encSem sm, fhi := encBool w }))
  | .amaxu h cl w sm d a v => some (.a (aPack { aEncHdr h with op := 0x1c, sel := 3, ad := BitVec.ofFin d, as1 := BitVec.ofFin a, as2 := BitVec.ofFin v, ac := BitVec.ofFin cl, md := encSem sm, fhi := encBool w }))
  | .redadd h cl w rl a v => some (.a (aPack { aEncHdr h with op := 0x1d, sel := 0, fhi := encBool w, as1 := BitVec.ofFin a, as2 := BitVec.ofFin v, ac := BitVec.ofFin cl, md := encRel rl }))
  | .redand h cl w rl a v => some (.a (aPack { aEncHdr h with op := 0x1d, sel := 3, fhi := encBool w, as1 := BitVec.ofFin a, as2 := BitVec.ofFin v, ac := BitVec.ofFin cl, md := encRel rl }))
  | .redor h cl w rl a v => some (.a (aPack { aEncHdr h with op := 0x1d, sel := 4, fhi := encBool w, as1 := BitVec.ofFin a, as2 := BitVec.ofFin v, ac := BitVec.ofFin cl, md := encRel rl }))
  | .redxor h cl w rl a v => some (.a (aPack { aEncHdr h with op := 0x1d, sel := 5, fhi := encBool w, as1 := BitVec.ofFin a, as2 := BitVec.ofFin v, ac := BitVec.ofFin cl, md := encRel rl }))
  | .redmin h cl w u rl a v => some (.a (aPack { aEncHdr h with op := 0x1d, sel := 1, fhi := encWU w u, as1 := BitVec.ofFin a, as2 := BitVec.ofFin v, ac := BitVec.ofFin cl, md := encRel rl }))
  | .redmax h cl w u rl a v => some (.a (aPack { aEncHdr h with op := 0x1d, sel := 2, fhi := encWU w u, as1 := BitVec.ofFin a, as2 := BitVec.ofFin v, ac := BitVec.ofFin cl, md := encRel rl }))
  | .redfaddO h cl rl a v => some (.a (aPack { aEncHdr h with op := 0x1e, as1 := BitVec.ofFin a, as2 := BitVec.ofFin v, ac := BitVec.ofFin cl, md := encRel rl }))
  | .redfaddU h cl rl a v => some (.a (aPack { aEncHdr h with op := 0x1e, as1 := BitVec.ofFin a, as2 := BitVec.ofFin v, ac := BitVec.ofFin cl, md := encRel rl ||| 1 }))
  | .redfmin h cl rl a v => some (.a (aPack { aEncHdr h with op := 0x1e, sel := 1, as1 := BitVec.ofFin a, as2 := BitVec.ofFin v, ac := BitVec.ofFin cl, md := encRel rl }))
  | .redfmax h cl rl a v => some (.a (aPack { aEncHdr h with op := 0x1e, sel := 2, as1 := BitVec.ofFin a, as2 := BitVec.ofFin v, ac := BitVec.ofFin cl, md := encRel rl }))
  | .rgcfg h r c => some (.a (aPack { aEncHdr h with op := 0x20, ad := BitVec.ofNat 5 r.val, as1 := BitVec.ofFin c }))
  | .rgwfree h d r n => some (.a (aPack { aEncHdr h with op := 0x21, ad := BitVec.ofFin d, as1 := BitVec.ofNat 5 r.val, fhi := (BitVec.ofNat 11 n.val).extractLsb' 4 7, sel := (BitVec.ofNat 11 n.val).extractLsb' 0 4 }))
  | .rgwfill h d r n => some (.a (aPack { aEncHdr h with op := 0x22, ad := BitVec.ofFin d, as1 := BitVec.ofNat 5 r.val, fhi := (BitVec.ofNat 11 n.val).extractLsb' 4 7, sel := (BitVec.ofNat 11 n.val).extractLsb' 0 4 }))
  | .rgput h r n => some (.a (aPack { aEncHdr h with op := 0x23, as1 := BitVec.ofNat 5 r.val, fhi := (BitVec.ofNat 11 n.val).extractLsb' 4 7, sel := (BitVec.ofNat 11 n.val).extractLsb' 0 4 }))
  | .rgtake h r n => some (.a (aPack { aEncHdr h with op := 0x24, as1 := BitVec.ofNat 5 r.val, fhi := (BitVec.ofNat 11 n.val).extractLsb' 4 7, sel := (BitVec.ofNat 11 n.val).extractLsb' 0 4 }))
  | .rgrel h r n => some (.a (aPack { aEncHdr h with op := 0x25, as1 := BitVec.ofNat 5 r.val, fhi := (BitVec.ofNat 11 n.val).extractLsb' 4 7, sel := (BitVec.ofNat 11 n.val).extractLsb' 0 4 }))
  | .rgrot h s t => some (.a (aPack { aEncHdr h with op := 0x26, as1 := BitVec.ofFin s, as2 := BitVec.ofFin t }))
  | .give h t n => some (.a (aPack { aEncHdr h with op := 0x27, sel := 0, as1 := BitVec.ofFin t, fhi := BitVec.ofFin n }))
  | .take h t n => some (.a (aPack { aEncHdr h with op := 0x27, sel := 1, as1 := BitVec.ofFin t, fhi := BitVec.ofFin n }))
  | .beq h m a b i => some (.a (aPack { aEncHdr h with op := 0x28, sel := 0, as1 := BitVec.ofFin a, as2 := BitVec.ofFin b, md := encBrMod m, ad := (i).extractLsb' 7 5, fhi := (i).extractLsb' 0 7 }))
  | .bne h m a b i => some (.a (aPack { aEncHdr h with op := 0x28, sel := 1, as1 := BitVec.ofFin a, as2 := BitVec.ofFin b, md := encBrMod m, ad := (i).extractLsb' 7 5, fhi := (i).extractLsb' 0 7 }))
  | .blt h m a b i => some (.a (aPack { aEncHdr h with op := 0x28, sel := 2, as1 := BitVec.ofFin a, as2 := BitVec.ofFin b, md := encBrMod m, ad := (i).extractLsb' 7 5, fhi := (i).extractLsb' 0 7 }))
  | .bge h m a b i => some (.a (aPack { aEncHdr h with op := 0x28, sel := 3, as1 := BitVec.ofFin a, as2 := BitVec.ofFin b, md := encBrMod m, ad := (i).extractLsb' 7 5, fhi := (i).extractLsb' 0 7 }))
  | .bltu h m a b i => some (.a (aPack { aEncHdr h with op := 0x28, sel := 4, as1 := BitVec.ofFin a, as2 := BitVec.ofFin b, md := encBrMod m, ad := (i).extractLsb' 7 5, fhi := (i).extractLsb' 0 7 }))
  | .bgeu h m a b i => some (.a (aPack { aEncHdr h with op := 0x28, sel := 5, as1 := BitVec.ofFin a, as2 := BitVec.ofFin b, md := encBrMod m, ad := (i).extractLsb' 7 5, fhi := (i).extractLsb' 0 7 }))
  | .jmp h i => some (.a (aPack { aEncHdr h with op := 0x29, ad := (i).extractLsb' 21 5, as1 := (i).extractLsb' 16 5, as2 := (i).extractLsb' 11 5, fhi := (i).extractLsb' 4 7, sel := (i).extractLsb' 0 4 }))
  | .aJr h a => some (.a (aPack { aEncHdr h with op := 0x2a, as1 := BitVec.ofFin a }))
  | .aCall h d i => some (.a (aPack { aEncHdr h with op := 0x2b, ad := BitVec.ofFin d, as1 := (i).extractLsb' 16 5, as2 := (i).extractLsb' 11 5, fhi := (i).extractLsb' 4 7, sel := (i).extractLsb' 0 4 }))
  | .aRet h a => some (.a (aPack { aEncHdr h with op := 0x2c, as1 := BitVec.ofFin a }))
  | .aLoop h l a i => some (.a (aPack { aEncHdr h with op := 0x2d, as1 := BitVec.ofFin a, md := encBool l, fhi := (i).extractLsb' 4 7, sel := (i).extractLsb' 0 4 }))
  | .aPause h i => some (.a (aPack { aEncHdr h with op := 0x2e, as2 := (i).extractLsb' 11 5, fhi := (i).extractLsb' 4 7, sel := (i).extractLsb' 0 4 }))
  | .aFin => some (.a (aPack { aEncHdr { wait := none, push := none } with op := 0x2f }))
  | .fenceAcq h s => some (.a (aPack { aEncHdr h with op := 0x30, sel := 0, md := encScope s }))
  | .fenceRel h s => some (.a (aPack { aEncHdr h with op := 0x30, sel := 1, md := encScope s }))
  | .fenceSc h s => some (.a (aPack { aEncHdr h with op := 0x30, sel := 2, md := encScope s }))
  | .colarrRlx h b => some (.a (aPack { aEncHdr h with op := 0x31, sel := 0, fhi := BitVec.ofNat 7 b.val }))
  | .colarrRel h b => some (.a (aPack { aEncHdr h with op := 0x31, sel := 1, fhi := BitVec.ofNat 7 b.val }))
  | .colwait h b => some (.a (aPack { aEncHdr h with op := 0x32, fhi := (BitVec.ofNat 11 b.val).extractLsb' 4 7, sel := (BitVec.ofNat 11 b.val).extractLsb' 0 4 }))
  | .colsync h b => some (.a (aPack { aEncHdr h with op := 0x33, fhi := (BitVec.ofNat 11 b.val).extractLsb' 4 7, sel := (BitVec.ofNat 11 b.val).extractLsb' 0 4 }))
  | .barc h d a e => some (.a (aPack { aEncHdr h with op := 0x34, ad := BitVec.ofFin d, as1 := BitVec.ofFin a, as2 := BitVec.ofFin e }))
  | .seal => some (.a (aPack { aEncHdr { wait := none, push := none } with op := 0x35 }))
  | .aSysr h d i => some (.a (aPack { aEncHdr h with op := 0x38, sel := 0, ad := BitVec.ofFin d, as2 := (i).extractLsb' 7 5, fhi := (i).extractLsb' 0 7 }))
  | .aSysw h a i => some (.a (aPack { aEncHdr h with op := 0x38, sel := 1, as1 := BitVec.ofFin a, as2 := (i).extractLsb' 7 5, fhi := (i).extractLsb' 0 7 }))
  | .aTrap h n => some (.a (aPack { aEncHdr h with op := 0x38, sel := 2, fhi := BitVec.ofFin n }))
  | .tlbinv h v l => some (.a (aPack { aEncHdr h with op := 0x38, sel := 3, as1 := BitVec.ofFin v, as2 := BitVec.ofFin l }))
  | .ctxsw h b => some (.a (aPack { aEncHdr h with op := 0x38, sel := 4, as1 := BitVec.ofFin b }))
  | .ctxbank h s v => some (.a (aPack { aEncHdr h with op := 0x38, sel := 5, as1 := BitVec.ofFin s, as2 := BitVec.ofFin v }))
  | .lnch h d r q => some (.a (aPack { aEncHdr h with op := 0x39, sel := 0, ad := BitVec.ofFin d, as1 := BitVec.ofFin r, fhi := BitVec.ofNat 7 q.val }))
  | .lcancel h d i => some (.a (aPack { aEncHdr h with op := 0x39, sel := 1, ad := BitVec.ofFin d, as1 := BitVec.ofFin i }))
  | .lcancelUnit h d i u => some (.a (aPack { aEncHdr h with op := 0x39, sel := 1, ad := BitVec.ofFin d, as1 := BitVec.ofFin i, as2 := BitVec.ofFin u, fhi := 1 }))
  | .lwait h d i => some (.a (aPack { aEncHdr h with op := 0x39, sel := 2, ad := BitVec.ofFin d, as1 := BitVec.ofFin i }))
  | .evset h b c => some (.a (aPack { aEncHdr h with op := 0x3a, sel := 0, as1 := BitVec.ofFin b, fhi := encEvCtx c }))
  | .evclr h b c => some (.a (aPack { aEncHdr h with op := 0x3a, sel := 1, as1 := BitVec.ofFin b, fhi := encEvCtx c }))
  | .evtest h d b c => some (.a (aPack { aEncHdr h with op := 0x3a, sel := 2, ad := BitVec.ofFin d, as1 := BitVec.ofFin b, fhi := encEvCtx c }))
  | .hld h cl r a off => some (.a (aPack { aEncHdr h with op := 0x3b, sel := 0, ad := BitVec.ofNat 5 r.val, as1 := BitVec.ofFin a, ac := BitVec.ofFin cl, fhi := off }))
  | .hst h cl r a off => some (.a (aPack { aEncHdr h with op := 0x3b, sel := 1, ad := BitVec.ofNat 5 r.val, as1 := BitVec.ofFin a, ac := BitVec.ofFin cl, fhi := off }))
  | .hview h d s k => some (.a (aPack { aEncHdr h with op := 0x3b, sel := 2, ad := BitVec.ofNat 5 d.val, as1 := BitVec.ofNat 5 s.val, as2 := BitVec.ofFin k }))
  | .htrans h d s => some (.a (aPack { aEncHdr h with op := 0x3b, sel := 3, ad := BitVec.ofNat 5 d.val, as1 := BitVec.ofNat 5 s.val }))
  | .hshape h d s k => some (.a (aPack { aEncHdr h with op := 0x3b, sel := 4, ad := BitVec.ofNat 5 d.val, as1 := BitVec.ofNat 5 s.val, as2 := BitVec.ofFin k }))
  | _ => none

/-- The words of a copy long form (spec/10 R205). -/
def encodeL : Instr → Option Words
  | .cpy h ss ds rp d s => some (.long (aPack { lEncHdr h with op := 0x3c, ad := BitVec.ofNat 5 d.val, as1 := BitVec.ofNat 5 s.val, fhi := encRp rp, md := encSpaces ss ds }) (lPack (lEnc h)))
  | .cpg h ss ds rp d s l => some (.long (aPack { lEncHdr h with op := 0x3d, ad := BitVec.ofNat 5 d.val, as1 := BitVec.ofNat 5 s.val, as2 := BitVec.ofFin l, fhi := encRp rp, md := encSpaces ss ds }) (lPack (lEnc h)))
  | .cps h ss ds rp d s l => some (.long (aPack { lEncHdr h with op := 0x3d, sel := 1, ad := BitVec.ofNat 5 d.val, as1 := BitVec.ofNat 5 s.val, as2 := BitVec.ofFin l, fhi := encRp rp, md := encSpaces ss ds }) (lPack (lEnc h)))
  | .cpq h ss ds rp d s => some (.long (aPack { lEncHdr h with op := 0x3e, ad := BitVec.ofNat 5 d.val, as1 := BitVec.ofNat 5 s.val, fhi := encRp rp, md := encSpaces ss ds }) (lPack (lEnc h)))
  | .cpm h o a b => some (.long (aPack { lEncHdr h with op := 0x3f, ad := BitVec.ofFin o, as1 := BitVec.ofFin a, as2 := BitVec.ofFin b }) (lPack (lEnc h)))
  | _ => none

/-- The word of an M command (spec/11 R217). -/
def encodeM : Instr → Option Words
  | .mnop h => some (.m (mPack { mEncHdr h with op := 0x00 }))
  | .mlease h => some (.m (mPack { mEncHdr h with op := 0x01 }))
  | .mfree h => some (.m (mPack { mEncHdr h with op := 0x02 }))
  | .mfin h => some (.m (mPack { mEncHdr h with op := 0x03 }))
  | .mmul h t c ra rb acc ks fa fb bm nm ka kb wl i32 =>
    some (.m (mPack { mEncHdr h with op := 0x10, t := encBool t, c := encBool c, ra := BitVec.ofFin ra, rb := BitVec.ofFin rb, acc := BitVec.ofFin acc, ks := BitVec.ofFin ks, fa := encFmt fa, fb := encFmt fb, sp := BitVec.ofNat 2 (bm.toNat + 2 * nm.toNat), opnd := encOp ka kb ((encBool wl : BitVec 1) ++ (encBool i32 : BitVec 1) ++ (0 : BitVec 28)) }))
  | .mwload h rb fb kb => some (.m (mPack { mEncHdr h with op := 0x18, rb := BitVec.ofFin rb, fb := encFmt fb, opnd := encOp 0 kb 0 }))
  | .mwloadnm h rb fb kb => some (.m (mPack { mEncHdr h with op := 0x19, rb := BitVec.ofFin rb, fb := encFmt fb, opnd := encOp 0 kb 0 }))
  | .mdrain h t c q ro acc f ko =>
    some (.m (mPack { mEncHdr h with op := 0x30, t := encBool t, c := encBool c, q := encBool q, ra := BitVec.ofFin ro, acc := BitVec.ofFin acc, fa := encFmt f, opnd := match ko with | some k => encOp k 4 0 | none => 0 }))
  | .mzero h acc i32 => some (.m (mPack { mEncHdr h with op := 0x31, acc := BitVec.ofFin acc, opnd := encOp 0 0 ((0 : BitVec 1) ++ (encBool i32 : BitVec 1) ++ (0 : BitVec 28)) }))
  | .msnap h ro acc kd => some (.m (mPack { mEncHdr h with op := 0x32, ra := BitVec.ofFin ro, acc := BitVec.ofFin acc, opnd := encOp kd 0 0 }))
  | .mpred h ra rb fa fb kd kt => some (.m (mPack { mEncHdr h with op := 0x40, ra := BitVec.ofFin ra, rb := BitVec.ofFin rb, ks := 1, fa := encFmt fa, fb := encFmt fb, opnd := encOp kd kt 0 }))
  | .mscan h ro km kb => some (.m (mPack { mEncHdr h with op := 0x41, ra := BitVec.ofFin ro, opnd := encOp km kb 0 }))
  | .mkli h kd i => some (.m (mPack { mEncHdr h with op := 0x50, opnd := (BitVec.ofFin kd : BitVec 3) ++ (0 : BitVec 1) ++ i }))
  | .mkadd h kd ks i => some (.m (mPack { mEncHdr h with op := 0x51, opnd := encOp kd ks ((0 : BitVec 6) ++ i) }))
  | .mloop h l n d =>
    some (.m (mPack { mEncHdr h with op := 0x52, opnd := match n with
      | .kreg k => (0 : BitVec 2) ++ (encBool l : BitVec 1) ++ (1 : BitVec 1) ++ (BitVec.ofFin k : BitVec 3) ++ d ++ (0 : BitVec 16)
      | .imm c => (0 : BitVec 2) ++ (encBool l : BitVec 1) ++ (0 : BitVec 1) ++ (0 : BitVec 3) ++ d ++ c }))
  | .mbnz h kn d => some (.m (mPack { mEncHdr h with op := 0x53, opnd := (BitVec.ofFin kn : BitVec 3) ++ (0 : BitVec 13) ++ d }))
  | _ => none

/-- The words of a well-formed instruction; a step of the device has none. -/
def encode (i : Instr) : Option Words :=
  match encodeX i with
  | some w => some w
  | none =>
    match encodeA i with
    | some w => some w
    | none => match encodeL i with | some w => some w | none => encodeM i

/-! ## The opcode table's numbering -/

/-- The instruction the decoder reads from an instruction of `nbits` bits: 48 and 96 bits are A words (the second word
in bits 95:48), 64 an X syllable, 128 an M word. The table gives this part's rows no bits, so `nbits` 0 names none. -/
def decodeTableWord (nbits w : Nat) : Option Instr :=
  let r : Except DecodeError Instr :=
    if nbits == 48 || nbits == 96 then decodeA (BitVec.ofNat 48 w) (BitVec.ofNat 48 (w >>> 48))
    else if nbits == 64 then decodeX (BitVec.ofNat 64 w)
    else if nbits == 128 then decodeM (BitVec.ofNat 128 w)
    else .error .reservedOp
  match r with
  | .ok i => some i
  | .error _ => none

end Sys2Proof
end

