-- ==== Sys2Proof/Config.lean ====
section
/-! DEFINITION. Config.lean: what the part fixes and the manual does not give, and the free values. Every constant here
has no body, so nothing can be proved about its value (log 3). A free value is applied to the counter `State.free`,
which each use advances. -/
namespace Sys2Proof.Config
open Sys2Proof

/-- The voltage code that each FCODE of a domain was fused with, by itself (spec/16 R271). -/
opaque fusedCode : Fin 8 → Fin 9 → BitVec 4 → Byte

/-- The fused minimum VCODE of a domain for each FCODE (spec/16 R271): no faster code needs less (log 126). -/
def fusedVmin (d : Fin 8) (c : Fin 9) (f : BitVec 4) : Byte :=
  (List.range (f.toNat + 1)).foldl (fun (m : Byte) (i : Nat) =>
    let v := fusedCode d c (BitVec.ofNat 4 i)
    if m.ult v then v else m) 0

/-- Core cycles that a global access takes beyond the published lower bound (spec/06 R356). -/
opaque accessDelay : Nat → Nat

/-- Core cycles that a copy row takes beyond the published lower bound (spec/06 R356). -/
opaque rowDelay : Nat → Nat

/-- Which two of the remaining sums the next node of an unordered tree adds (spec/07 R130, spec/12 R246): from the use
counter and the number of additions made. -/
opaque treePick : Nat → Nat → Nat × Nat

/-- Word by word, whether the first of two racing values stays (spec/13 R261). -/
opaque racePick : Nat → Bool

/-- What ATS answers for a host page under a PASID, after so many invalidations (spec/09 R165): host physical page base, page size
and write permission. -/
opaque atsReply : Nat → BitVec 20 → Nat → Option (Nat × Nat × Bool)

/-- Attributes of a peer's own leaf, by peer device, peer partition and page (spec/09 R168): bits 8:0 of the leaf. -/
opaque peerAttr : BitVec 32 → BitVec 8 → Nat → BitVec 9

/-- Page requests the host allows to be outstanding (spec/09 R177). -/
opaque priAllocation : Nat

/-- Junction temperature of a domain at a sample (spec/16 R276). -/
opaque junction : Nat → Byte

/-- Whether a domain draws more than its fused maximum current at a sample (spec/16 R276). -/
opaque overCurrent : Nat → Bool

/-- By how many watts the power limit falls for an inlet above 45 °C, by the present limit and the excess in tenths of a degree
(spec/16 R279): the manual gives no scale. -/
opaque inletFall : Nat → Nat → Nat

/-- Module power in watts at a sample (spec/16 R276). -/
opaque modulePower : Nat → Nat

/-- Whether a firmware image's signature verifies over the digest of its header (spec/23 R344). -/
opaque signatureValid : BitVec 256 → BitVec 512 → Bool

/-- The fused security version (spec/23 R344). -/
opaque fusedVersion : Nat

/-- Whether a training or power-on step of a start passes, and the stack, die or port concerned (spec/23 R343). -/
opaque startStep : Nat → Bool × Byte

/-- The signed part of an attestation reply (spec/23 R345). -/
opaque attestation : Nat → BitVec 1024

/-- Bytes of a peer's memory that the device's own units read: no reply flit carries them (log 113). -/
opaque peerByte : Nat → Nat → BitVec 8

/-- The data that a sector with an unnoticed error is corrected to (spec/09 R180), by use. -/
opaque sectorData : Nat → BitVec 256

/-- Whether a store finds its stack's overflow table and extension full, by use, die, stack and the extension's size: what
compresses is not given (spec/09 R180, R182). -/
opaque overflowFull : Nat → Fin 8 → Fin 2 → Nat → Bool

/-- The clock-crossing FIFOs of a domain in a fabric cycle: the most entries held in a direction, and whether the fabric side held
its beat (spec/16 R275): the manual does not give the rates at which they fill and drain. -/
opaque fifoUse : Fin 8 → Fin 9 → Nat → Nat × Bool

/-- The status that an item more than 2^31 entries old and still running counts with (spec/05 R81), modulo 3, by its number. -/
opaque agedStatus : Nat → Nat

/-- The value of a result that the manual leaves open, by use. -/
opaque freeWord : Nat → Word

end Sys2Proof.Config
end

