-- ==== Sys2Proof/Machine/State.lean ====
section
/-! DEFINITION. Machine/State.lean: all the state the manual gives the device, as plain data, and the state after
reset. Register tables are cited by control register number; INVENTORY.md lists every piece with its rule. -/
namespace Sys2Proof.Machine
open Sys2Proof

/-- Bytes of one address space: addresses strictly rising, no entry equal to zero, which an unlisted address reads as
(DESIGN CHOICE, log 1). -/
abbrev Memory := List Host.Cell

/-- Why the machine stops. -/
inductive Fault where
  /-- Raised by `step` when the image bytes at the program counter have no translation: the manual gives no account of a
  fetch that does not translate (spec/02 R23). Safe: the machine stops where hardware goes on (log 7). -/
  | fetchUntranslated
  deriving DecidableEq, Repr

/-- Why an instruction has no meaning. -/
inductive Refusal where
  /-- Raised by the arms of `exec` that have no meaning yet. Safe. -/
  | notModelled (mnemonic : String)
  deriving DecidableEq, Repr

/-! ## Columns -/

/-- One hardware loop level (spec/06 R115-R117). -/
structure LoopReg where
  lc : Word
  ls : Word
  le : Word
  act : Bool
  deriving DecidableEq, Repr

/-- A blocking wait in progress: the first cycle at which the word was presented and did not issue, and the wait object
with its detail (spec/06 R111). -/
structure Waiting where
  since : Nat
  obj : Nat
  detail : DWord
  deriving DecidableEq, Repr

/-- One X column (spec/00 R5, R6; spec/06; spec/18 R286, R287). -/
structure Column where
  x : Vector Word 56
  v : Vector Vec 28
  o : Vector Vec 8
  lx : Vec
  p : BitVec 8
  pc : Word
  ended : Bool
  brtgt : Word
  brdly : BitVec 2
  hold : BitVec 12
  loop0 : LoopReg
  loop1 : LoopReg
  /-- CCS flags the column itself sees, those other columns see, and those set by the cycle in progress (R106). -/
  ccs : BitVec 8
  ccsOld : BitVec 8
  ccsNext : BitVec 8
  wait : Option Waiting
  /-- A domain syllable at the end of a loop has issued, and its loop evaluation waits for the end of its execution (spec/08
  R143). -/
  evalDue : Bool
  deriving DecidableEq, Repr

/-- Kind of an in-flight result (spec/18 R288). -/
inductive FlightKind where | scalar | vector | pred
  deriving DecidableEq, Repr

/-- An X result in flight (spec/00 R6, spec/18 R288); `land` is the X cycle t + L. -/
structure Flight where
  val : Vec
  dst : Byte
  col : Fin 4
  kind : FlightKind
  land : Nat
  fpf : BitVec 5
  push : Option (Fin 16)
  seq : Nat
  deriving DecidableEq, Repr

/-! ## Queues, flags, rings -/

/-- A queue entry; not poppable until `ready` (spec/06 R104, R108; spec/10 R196). -/
structure QEntry where
  id : Nat
  val : Vec
  ready : Bool
  deriving DecidableEq, Repr

/-- A token flag: tokens held, tokens travelling to the consumer, and pushes of issued words that have not retired
(spec/02 R28). -/
structure FlagSt where
  held : Nat
  travel : Nat
  owed : Nat
  deriving DecidableEq, Repr

/-- A configured ring (spec/10 R189, R359); `prod` and `cons`: 0 streams, 1 copy engine, 2 matrix array. -/
structure Ring where
  prod : Fin 3
  cons : Fin 3
  count : Nat
  base : Nat
  clm : Nat
  head : Nat
  tail : Nat
  nclaim : Nat
  nfill : Nat
  nres : Nat
  /-- The reserved slots in the order in which they were reserved: the reserving command's number, and whether it has
  ended and waits for its turn to put. -/
  res : List (Nat × Bool)
  deriving DecidableEq, Repr

/-! ## Domain unit -/

/-- A domain register (spec/08 R140). -/
structure Dom where
  lo : Word
  hi : Word
  win : BitVec 64
  deriving DecidableEq, Repr

/-- The relations that can stand (spec/08 R142). -/
inductive DomOp where | add | sub | mulc | lt | le | eq | ne | elem
  deriving DecidableEq, Repr

/-- A standing entry (spec/08 R153): operands in assembly order; `k` is the constant of `dmulc` or the vector register
of `delem`. -/
structure Standing where
  op : DomOp
  c : Fin 32
  a : Fin 32
  b : Fin 32
  k : Word
  deriving DecidableEq, Repr

/-- A checkpoint (spec/08 R161). -/
structure Checkpoint where
  d : Vector Dom 32
  fill : Nat
  dstat : Word
  pending : List Nat
  deriving DecidableEq, Repr

/-- A propagation run in progress or pending (spec/08 R154, R156). -/
structure DomRun where
  n : Nat
  limit : Nat
  pc : Word
  delay : Bool
  /-- The X cycle from which the run freezes X, and the bits of the initiating syllable. -/
  start : Nat
  word : BitVec 64
  deriving DecidableEq, Repr

/-- A trap that an execution of the domain unit has raised and that is not taken yet (spec/08 R157, R159): its cause, its details,
and the bits and the PC of the initiating syllable. -/
structure DomTrap where
  cause : Byte
  d0 : DWord
  d1 : DWord
  word : BitVec 64
  pc : Word
  deriving DecidableEq, Repr

/-- The domain state of a bank (spec/08 R161, R162). -/
structure DomState where
  d : Vector Dom 32
  table : List Standing
  queue : List Nat
  stack : List Checkpoint
  run : Option DomRun
  freg : Fin 32
  fent : Byte
  bnd : Bool
  inx : Bool
  fail : Bool
  bt : Bool
  proplim : BitVec 16
  failpc : Word
  failcnt : Word
  drun : BitVec 16
  /-- The X cycle of the last failure: a clear of FAIL in that cycle loses (R160). -/
  failAt : Option Nat
  trapDue : Option DomTrap
  deriving DecidableEq, Repr

/-! ## Outstanding accesses of the A stream -/

/-- A TLB entry (spec/09 R169). -/
structure TlbEntry where
  base : Nat
  size : Nat
  pa : Nat
  attr : BitVec 9
  deriving DecidableEq, Repr

/-- Operations performed at the owner (spec/12 R245). -/
inductive AtomOp where
  | swap | cas | add | and | or | xor | min | max | minu | maxu | fmin | fmax | faddU | faddO
  deriving DecidableEq, Repr

/-- One element of a dequantising load (spec/10 R197): where it lies and how it decodes. `pos` is a bit offset for the
packed nibbles and a digit number for T5. -/
structure LaneSpec where
  lane : Nat
  va : Nat
  fmt : Fmt
  pos : Nat
  scale : Word
  seed : Word
  row : Word
  col : Word
  deriving DecidableEq, Repr

/-- One byte written by a handle store: whole, a nibble, or some ternary digits, or the NaN byte (spec/03 R358). -/
inductive PartW where
  | whole (va : Nat) (b : Byte)
  | nib (va : Nat) (hi : Bool) (v : BitVec 4)
  | digits (va : Nat) (ds : List (Nat × Int))
  | nanByte (va : Nat)
  deriving DecidableEq, Repr

/-- Who asked for a translation (spec/09 R175). -/
inductive Requester where
  | access (g : Fin 512) (k : Fin 3) (id : Nat)
  | channel (d : Fin 8) (id : Nat)
  | peer (port : Fin 16) (tag : Nat)
  deriving DecidableEq, Repr

/-- Who waits for an invalidation (spec/09 R169; spec/23 R342). -/
inductive InvFor where
  | word (g : Fin 512)
  | mailbox
  deriving DecidableEq, Repr

/-- What an access does at its place. -/
inductive AccBody where
  | load (size : Nat)
  | store (data : List Byte)
  | atomic (op : AtomOp) (w64 : Bool) (v e : DWord) (returns : Bool)
  | barc (e : Word)
  | gather (lanes : List LaneSpec)
  /-- The parts that a handle store writes, and its elements, which name them in provenance records. -/
  | scatter (lanes : List LaneSpec) (ws : List PartW)
  deriving DecidableEq, Repr

/-- Where a returned value goes. -/
inductive ADst where
  | none
  | areg (n : Fin 32) (size : Nat) (sx : Bool)
  | handle (n : Fin 16)
  | queue (q : Fin 8) (id : Nat) (sx : Bool)
  /-- An accumulator filled by `ctxbank`, with its mode (spec/18 R295). -/
  | acc (n : Fin 4) (i32 : Bool)
  deriving DecidableEq, Repr

/-- An issued, unretired A word with a later effect (spec/06 R357; spec/09 R172; spec/10 R200). -/
structure AOp where
  id : Nat
  pc : Word
  /-- SFC at issue. -/
  sfc : BitVec 48
  va : DWord
  cls : Fin 8
  body : AccBody
  dst : ADst
  push : Option (Fin 16)
  /-- Accesses with these numbers, which an acquire or an acquire fence orders before this one, return first (spec/12 R239, R242). -/
  after : List Nat
  acquire : Bool
  confirmed : Bool
  performed : Bool
  /-- Its bytes below this address have performed: the parts of the lower pages (spec/13 R260). -/
  doneTo : Nat
  /-- The bytes that a load has read so far. -/
  got : List (Nat × Byte)
  /-- The translations, by die, that it waits with since it was confirmed (spec/09 R169). -/
  xlat : List (Fin 8 × TlbEntry)
  result : Vec
  /-- The fault it waits on: 0 none, otherwise the kind code of spec/09 R171. -/
  fault : Nat
  /-- The answer of that fault: none, retry, fail. -/
  answer : Option Bool
  deriving DecidableEq, Repr

/-- An event-vector operation of a unit that has not taken effect (spec/05 R96). -/
structure EvOp where
  id : Nat
  ctx : Fin 8
  bit : Nat
  set : Bool
  after : List Nat
  push : Option (Fin 16)
  deriving DecidableEq, Repr

/-! ## Units and traps -/

/-- What a bank holds of its unit (spec/01 R14-R20; spec/05 R88). -/
structure UnitInfo where
  part : Fin 8
  launch : DWord
  index : Word
  width : Word
  image : DWord
  aOff : Word
  aLen : Word
  xOff : Vector Word 4
  xLen : Vector Word 4
  mOff : Word
  mLen : Word
  flagBind : DWord
  detm : Bool
  lease : Bool
  colmask : Word
  qctx : Fin 8
  queue : Fin 64
  prio : Nat
  /-- Read and write masks of the set table: streams, copy engine, array (R19). -/
  rd : Vector (BitVec 768) 3
  wr : Vector (BitVec 768) 3
  /-- The first words may issue (R89). -/
  started : Bool
  startedAt : Nat
  deriving DecidableEq, Repr

/-- A trap taken and not yet resumed (spec/18 R285, R287). -/
structure TrapRec where
  cause : Byte
  strm : Stream
  col : Fin 4
  word : BitVec 128
  detail0 : DWord
  detail1 : DWord
  deriving DecidableEq, Repr

/-- State of a bank (spec/18 R302 BANKSTAT). -/
inductive BankSt where | empty | running | ready | awaiting | trapped
  deriving DecidableEq, Repr

/-- A boundary cause waiting for the next A word (spec/18 R284). -/
structure Boundary where
  cause : Byte
  detail0 : DWord
  detail1 : DWord
  deriving DecidableEq, Repr

/-- An access remembered by the alias-check mode (spec/22 R332). -/
structure AliasRec where
  pc : Word
  cls : Fin 8
  sp : Bool
  va : Nat
  size : Nat
  wr : Bool
  fromX : Option (Fin 4)
  cnt : Nat
  deriving DecidableEq, Repr

/-- Why the A stream issues nothing beside its waits. -/
inductive AHold where
  | free
  /-- `hld` waits for its handle (spec/04 R71). -/
  | handle (id : Nat)
  /-- `tlbinv` or `ctxbank` works until the cycle, or until told (spec/18 R295). -/
  | invalidate
  | until_ (t : Nat)
  deriving DecidableEq, Repr

/-- One context bank, or the system context (spec/18 R283, R296). -/
structure Bank where
  st : BankSt
  unit : Option UnitInfo
  left : BitVec 2
  cancelled : Bool
  /-- Status so far (0 ok, 1 cancel, 2 fault) and the cause reported in REASON. -/
  status : Nat
  reason : Byte
  -- A stream
  a : Vector DWord 28
  aReady : List (Fin 32 × Nat)
  h : Vector (BitVec 256) 16
  apc : Word
  aEnded : Bool
  aPause : BitVec 12
  aLoop0 : LoopReg
  aLoop1 : LoopReg
  aWait : Option Waiting
  aHold : AHold
  ops : List AOp
  evops : List EvOp
  nextId : Nat
  /-- Accesses that an acquire fence makes every later access follow (spec/12 R242). -/
  acqFence : List Nat
  /-- Release fences in force: the operations and the copy commands with lower numbers must have performed at the scope before a
  later store (spec/12 R242). -/
  relFence : List (Nat × Nat × Scope)
  sealed : Bool
  drained : Bool
  digest : List (DWord × DWord × DWord)
  -- X stream
  cols : Vector Column 4
  inflight : List Flight
  xcycle : Nat
  nextSeq : Nat
  xstores : List Host.Cell
  xsysw : List (Fin 4 × BitVec 12 × Word)
  /-- Core cycles that the next X issue cycle, and the A word presented, have already spent on bank conflicts (spec/10 R184). -/
  xBusy : Nat
  aBusy : Nat
  xEnded : Bool
  -- M stream
  k : Vector Word 8
  mpc : Word
  mEnded : Bool
  mPause : BitVec 12
  mLoop0 : LoopReg
  mLoop1 : LoopReg
  mWait : Option Waiting
  -- queues, flags, rings
  qsAX : Vector (List QEntry) 4
  qvAX : Vector (List QEntry) 4
  qsXA : Vector (List QEntry) 4
  qvXA : Vector (List QEntry) 4
  brq : List QEntry
  flags : Vector FlagSt 16
  rings : Vector (Option Ring) 16
  -- domain unit
  dom : DomState
  -- control registers of the bank
  fpctl : Word
  waitbndA : BitVec 20
  waitbndX : BitVec 20
  waitbndM : BitVec 20
  sfcBase : BitVec 48
  sfcSince : Option Nat
  sfchi : BitVec 16
  mergeTrap : Bool
  orderr : Bool
  orderrcnt : Word
  cpiss : Word
  cpstat : Vector Word 8
  colarr : Word
  colrel : Word
  /-- Releases on their way to the core (spec/12 R251). -/
  colTravel : Word
  /-- The pc of a `colsync` that has arrived and waits (spec/12 R250). -/
  colAt : Option Word
  oredseq : Word
  -- faults, traps, debug
  replay : List AOp
  trap : Option TrapRec
  pending : List Boundary
  /-- The stream, and the column, that stopped at a breakpoint: its word issues without stopping again (R327). -/
  bpSkip : Option (Stream × Fin 4)
  sliceStart : Nat
  px : Nat
  qa : Nat
  pa : Nat
  qx : Nat
  history : List AliasRec
  /-- Tiles that the unit has handed to the engines, by `give` or in a ring (spec/10 R187). -/
  handed : BitVec 768
  /-- SPILL bits of a saved bank (spec/18 R299). -/
  spillKeep : BitVec 4
  /-- SFC at which the unit's last word has issued (spec/22 R334). -/
  lastWord : BitVec 48
  deriving DecidableEq, Repr

/-! ## Core -/

/-- An accumulator with its checksum state (spec/11 R211, R235). -/
structure Acc where
  rows : Vector Vec 32
  i32 : Bool
  sumValid : Bool
  /-- A command since the marker took the integer path, whose checksums are compared at every step. -/
  sumInt : Bool
  crow : Vec
  ccol : Vec
  deriving DecidableEq, Repr

/-- A command kept for replay (spec/11 R234). -/
structure ReplayCmd where
  cluster : Fin 64
  id : Nat
  acc : Option (Fin 4)
  marker : Bool
  /-- A slot that it read was released (spec/10 R192). -/
  released : Bool
  deriving DecidableEq, Repr

/-- Use of a core's wide port (spec/10 R185): its first core cycle, how many, the tile, who has it (0 rotation, 1 array, 2 copy
engine, in the order in which they come first) and the number of the command. -/
structure WideUse where
  start : Nat
  n : Nat
  tile : Nat
  rank : Nat
  id : Nat
  deriving DecidableEq, Repr

/-- An issued `rgrot` (spec/10 R193): its bank, its tiles, its push, and the cycle of its issue. -/
structure Rot where
  bank : Fin 3
  src : Nat
  dst : Nat
  push : Option (Fin 16)
  since : Nat
  deriving DecidableEq, Repr

/-- One core (spec/10 R183-R187; spec/18 R302; spec/22 R335). -/
structure Core where
  banks : Vector Bank 3
  active : Fin 2
  /-- The bank whose trap the system context handles. -/
  handling : Option (Fin 2)
  ctxsw : Option (Fin 2)
  sp : Memory
  spShadow : Memory
  owner : BitVec 768
  ownerShadow : BitVec 768
  acc : Vector Acc 4
  accOwn : Fin 3
  acclive : BitVec 4
  spill0 : BitVec 4
  spill1 : BitVec 4
  /-- An issued `rgrot` whose exchange has not ended (spec/10 R193). -/
  rot : Option Rot
  wide : List WideUse
  window : List ReplayCmd
  ovfcnt : Word
  abftcnt : Word
  replays : BitVec 16
  scause : Word
  savebase0 : Word
  savebase1 : Word
  tslice : Word
  bp0 : Word
  bp1 : Word
  perfidx : BitVec 7
  perf : Vector Word 96
  perfFrom : Nat
  /-- Cycle and class of the last counted head cycle of each stream: 0 ISSUE, 1 FLAG with the flag in bits 7:4, 2 ENGINE,
  3 EMPTY (spec/22 R328, R330). -/
  heads : Vector (Nat × Nat) 3
  stopped : Bool
  deriving DecidableEq, Repr

/-! ## Matrix array -/

/-- An operand descriptor with its scale vector, as read at issue (spec/11 R214). -/
structure Desc where
  seed : Word
  row0 : Word
  col0 : Word
  tr : Bool
  smode : Nat
  vl : Nat
  nmmode : Nat
  scale : Word
  svec : Vec
  bits : List (BitVec 64)
  deriving DecidableEq, Repr

/-- A weight tile in a half of the latch (spec/11 R221). -/
structure WTile where
  rows : Vector Vec 32
  fmt : Fmt
  desc : Desc
  nm : Bool
  step : Nat
  tile : Nat
  /-- The command that loaded it. -/
  src : Nat
  deriving DecidableEq, Repr

/-- The lease-needing commands (spec/11 R217). -/
inductive ArrOp where | mul | wload | drain | zero | snap | pred | scan
  deriving DecidableEq, Repr

/-- An issued array command (spec/11 R217-R230). Times are in eighths of a core cycle where a fraction can arise. -/
structure ArrCmd where
  id : Nat
  core : Fin 512
  bank : Fin 2
  op : ArrOp
  pc : Word
  sfc : BitVec 48
  push : Option (Fin 16)
  issued : Nat
  t : Bool
  c : Bool
  q : Bool
  acc : Fin 4
  ksteps : Nat
  fa : Fmt
  fb : Fmt
  bm : Bool
  nm : Bool
  wl : Bool
  i32 : Bool
  ra : Fin 16
  rb : Fin 16
  aSlots : List Nat
  bSlots : List Nat
  out : Nat
  da : Option Desc
  db : Option Desc
  kd : Fin 8
  kdata0 : Word
  kdata1 : Word
  kbase : Word
  /-- The latched tile of a multiply with WL = 1. -/
  wt : Option WTile
  zeroed : Bool
  /-- The drain runs again after a replay. -/
  again : Bool
  started : Option Nat
  /-- K-steps begun. -/
  begun : Nat
  nextStart : Nat
  lastBegun : Bool
  landed : Nat
  retired : Bool
  logged : List Nat
  snapRows : Vector Vec 32
  deriving DecidableEq, Repr

/-- The array of one cluster, its lease and its cluster registers (spec/11 R212, R221, R237). -/
structure Cluster where
  holder : Option (Fin 8)
  last : Fin 8
  granted : Nat
  used : Nat
  requests : BitVec 8
  leasecmd : Byte
  leasecyc : BitVec 20
  abfttol : Word
  cmds : List ArrCmd
  nextId : Nat
  latchActive : Option WTile
  latchShadow : Option WTile
  /-- Format of the tile that the last issued loading command latches, and the cycle of its issue (R218). -/
  latchFmt : Option (Fmt × Nat)
  rotating : Bool
  replaying : Bool
  deriving DecidableEq, Repr

/-! ## Copy engine -/

/-- The side block as a command read it (spec/04 R66). -/
structure Side where
  base : Nat
  scale : Word
  mpitch : Nat
  svec : Nat
  metaVA : Nat
  deriving DecidableEq, Repr

inductive CopyOp where | cpy | cpg | cps | cpq | cpm
  deriving DecidableEq, Repr

/-- State of a copy command (spec/10 R204-R209). -/
inductive CopySt where | queued | running | stalled | finished | failed (cause : Nat)
  deriving DecidableEq, Repr

/-- A part of a row to be written, with the logical coordinates and the lane of its first element (spec/10 R206). -/
structure RowPart where
  part : PartW
  row : Word
  col : Word
  lane : Nat
  deriving DecidableEq, Repr

/-- A copy command of a core or a copy node (spec/10 R205, R210). -/
structure CopyCmd where
  id : Nat
  /-- The issuing place, or none for a copy node. -/
  src : Option (Fin 512 × Fin 2)
  /-- Partition, item number and node of a copy node, and its descriptor while that has not been read. -/
  node : Option (Fin 8 × Nat × Nat)
  desc : Option DWord
  op : CopyOp
  dstH : BitVec 256
  srcH : BitVec 256
  dstS : Side
  srcS : Side
  srcSp : Bool
  dstSp : Bool
  /-- The list of a `cpg` or `cps`, or the first list of a `cpm`; none for the source's idx. -/
  list : Option Nat
  listB : Nat
  hb : Bool
  ring : Option (Fin 16)
  push : Option (Fin 16)
  pc : Word
  kth : Word
  row : Nat
  rows : Nat
  st : CopySt
  /-- The issuing unit was cancelled: the command stops at its next row boundary (R208). -/
  stopping : Bool
  /-- Its counts have been read. -/
  counted : Bool
  /-- SFC at issue, and the kinds of provenance events it has logged (spec/11 R236). -/
  sfc : BitVec 48
  logged : List Nat
  /-- The global bytes that its present row has read, and what the row has still to write (spec/13 R260). -/
  got : List (Nat × Byte)
  out : Option (List RowPart)
  deriving DecidableEq, Repr

/-! ## Die -/

/-- An undo record (spec/21 R312): line address, old line, previous tag. -/
structure UndoRec where
  line : Nat
  old : BitVec 512
  tag : BitVec 20
  deriving DecidableEq, Repr

/-- An entry of the ordered-reduction buffer (spec/12 R247). -/
structure OredEntry where
  pa : Nat
  v : Word
  work : DWord
  unit : Word
  seq : Word
  deriving DecidableEq, Repr

/-- A pending merged reduction (spec/12 R246). -/
structure MergeEntry where
  pa : Nat
  w64 : Bool
  op : AtomOp
  vs : List DWord
  deriving DecidableEq, Repr

/-- One HBM stack's recovery and reduction state. -/
structure Stack where
  undo : List UndoRec
  tags : List (Nat × BitVec 20)
  /-- The tag of every line that `tags` does not list (log 26). -/
  tagRest : BitVec 20
  ored : List OredEntry
  merges : List MergeEntry
  ovfGiB : Nat
  deriving DecidableEq, Repr

/-- A held line of an irrevocable page (spec/21 R317): its partition, its virtual line address, its written bytes, and the bytes
among them that an untagged write left, which no rollback undoes (spec/21 R311). -/
structure HeldLine where
  part : Fin 8
  line : Nat
  bytes : List (Nat × Byte)
  kept : List Nat
  deriving DecidableEq, Repr

/-- A ready node in a Steppe, or a unit waiting to resume (spec/05 R85, R92). -/
structure Slot where
  part : Fin 8
  item : Nat
  node : Nat
  entered : Nat
  base : Nat
  cap : Nat
  queue : Fin 64
  seq : Word
  /-- A pre-empted unit: core, bank it left, save-pool slot. -/
  resume : Option (Fin 512 × Fin 2 × Nat)
  deriving DecidableEq, Repr

/-- A DVFS domain (spec/16 R271-R278). -/
structure Dvfs where
  vreq : Byte
  freq : BitVec 4
  vcur : Byte
  fcur : BitVec 4
  status : BitVec 4
  cap : BitVec 4
  thr : Bool
  tj : Byte
  /-- A change in progress: target code pair, and whether the next step is the voltage ramp. -/
  target : Option (BitVec 4 × Byte)
  /-- A voltage ramp in progress: the cycle it began and the VCODE it began at (R274). -/
  ramp : Option (Nat × Byte)
  sampStall : BitVec 16
  sampIssue : BitVec 16
  seq : Word
  hiwater : BitVec 10
  bpcnt : BitVec 16
  /-- The cycle up to which HIWATER and BPCNT count. -/
  fifoFrom : Nat
  /-- Head-cycles of the window in progress: issuing, and waiting on a busy engine (R277). -/
  headIssue : Nat
  headStall : Nat
  deriving DecidableEq, Repr

/-- One die (spec/09, spec/16, spec/18, spec/21, spec/22). -/
structure Die where
  xlatroot : Word
  walks : BitVec 16
  inberr : BitVec 16
  tlb : List TlbEntry
  copies : List CopyCmd
  nextCopy : Nat
  steppe : List Slot
  outside : List Slot
  dispatchAt : Nat
  hbmStacks : Vector Stack 2
  hold : List HeldLine
  press : Bool
  holdfull : Bool
  map : Vector (Fin 9) 8
  spare : Fin 9
  passes : Byte
  failed : BitVec 9
  retire : BitVec 9
  roten : Bool
  dvfs : Vector Dvfs 9
  dvfsStopped : Bool
  prov : List (BitVec 256)
  provHead : Word
  provTail : Word
  provDrop : Word
  trace : List (BitVec 256)
  traceLost : Nat
  savepool : Word
  savecnt : BitVec 13
  saved : List (Nat × Bank)
  sealDone : Bool
  writeback : Bool
  /-- Poisoned 32-byte sectors, by physical address / 32 (spec/09 R180). -/
  poison : List Nat
  deriving DecidableEq, Repr

/-! ## Partition -/

/-- A launch record (spec/01 R16). -/
structure LaunchRec where
  image : DWord
  lease : Bool
  dprom : BitVec 2
  detm : Bool
  prio : Nat
  width : Nat
  param : DWord
  sets : DWord
  flagBind : DWord
  flagInit : DWord
  colmask : Word
  tag : DWord
  wait : BitVec 256
  set : BitVec 256
  deriving DecidableEq, Repr

/-- What a graph node runs (spec/05 R82). -/
inductive NodeKind where | launch (r : LaunchRec) | copy (desc : DWord) (rank : Nat) | host (obj : DWord)
  deriving DecidableEq, Repr

/-- A node of a dispatched graph (spec/05 R84). `todo` holds the undispatched unit indices of a launch per die rank as a
next index and a stride is implied by R90. -/
structure NodeSt where
  kind : NodeKind
  preds : Nat
  succs : List Nat
  ready : Bool
  finished : Bool
  status : Nat
  reason : Byte
  left : Nat
  ok : Nat
  /-- Next undispatched unit index on each die rank. -/
  next : Vector Nat 8
  /-- Units completed by `lcancel` before dispatch. -/
  dropped : List Nat
  /-- The set masks of a launch as its dispatch checked them: streams, copy engine, array (spec/13 R264). -/
  rd : Vector (BitVec 768) 3
  wr : Vector (BitVec 768) 3
  deriving DecidableEq, Repr

/-- A dispatched graph, or a launch taken as a graph of one node (spec/05 R84). -/
structure Item where
  num : Nat
  queue : Fin 64
  seq : Word
  isGraph : Bool
  prio : Nat
  tag : DWord
  set : BitVec 256
  nodes : List NodeSt
  /-- Nodes remaining: the graph's completion counter (spec/01 R11). -/
  left : Nat
  /-- WIDTH of a launch taken from a launch queue; 0 for a graph (spec/05 R95). -/
  width : Nat
  finished : Bool
  status : Nat
  reason : Byte
  deriving DecidableEq, Repr

/-- A launch queue (spec/05 R75-R78). -/
structure Queue where
  base : DWord
  logsize : Nat
  graph : Bool
  device : Bool
  ctx : Fin 8
  qprio : Nat
  qcap : Nat
  cplbase : DWord
  cpllog : Nat
  head : Word
  tail : Word
  cpltail : Word
  enabled : Bool
  qovf : Bool
  cplstall : Bool
  baddesc : Bool
  /-- The entry at the head has passed its check (R77). -/
  checked : Bool
  /-- Positions of entries cancelled while they wait in the queue (R94). -/
  cancelled : List Word
  /-- Units cancelled while their entry waits: position and unit index (R95). -/
  dropped : List (Word × Nat)
  /-- Completion records that wait for room (R78). -/
  held : List (BitVec 256)
  deriving DecidableEq, Repr

/-- A page fault gathered and not yet answered (spec/09 R176-R178). -/
structure PageFault where
  va : Nat
  kind : Nat
  wr : Bool
  who : Requester
  time : Nat
  reported : Bool
  pri : Option Nat
  /-- The batch that gathered it. -/
  batch : Nat
  deriving DecidableEq, Repr

/-- A PCIe Page Request of the device (spec/09 R177). -/
structure PageRequest where
  pasid : BitVec 20
  va : Nat
  rd : Bool
  wr : Bool
  group : Nat
  last : Bool
  deriving DecidableEq, Repr

/-- A request that waits for a peer's reply under its tag: who asked, the run of bytes, and whether its page has faulted at the peer
(spec/09 R165, R174, spec/23 R339). -/
structure SpanAsk where
  tag : Nat
  who : Requester
  va : Nat
  n : Nat
  bad : Bool
  deriving DecidableEq, Repr

/-- A host-memory ring the host registers (spec/23 R338). -/
structure HostRing where
  base : DWord
  log : Nat
  head : Word
  tail : Word
  deriving DecidableEq, Repr

/-- A peer-aperture binding (spec/23 R340). -/
structure Aperture where
  ports : BitVec 16
  peer : Word
  ppart : Byte
  valid : Bool
  sealgrp : Bool
  deriving DecidableEq, Repr

/-- The phase of the open job (spec/05 R86; spec/21 R313, R321). -/
structure Phase where
  num : Nat
  closing : Bool
  /-- The close goes through a PB header (R86); `forced` one acts as if such headers stood at every head (R87, R314). -/
  pb : Bool
  forced : Bool
  jobEnd : Bool
  sealing : Bool
  inputs : BitVec 8
  /-- The seal line has fired, and e of the die whose input rose last (spec/21 R313). -/
  fired : Bool
  lastEdge : Nat
  /-- Seal inputs of the peers of the seal group, by aperture (spec/21 R313). -/
  peerSeals : BitVec 7
  pressFrom : Option Nat
  holdFrom : Option Nat
  okGraphs : Nat
  status : Nat
  reason : Byte
  /-- Graphs remaining: the phase's completion counter (spec/01 R11). -/
  graphs : Nat
  /-- Opening state: HEAD and TAIL of every queue, and every event vector (R321). -/
  heads : Vector Word 64
  tails : Vector Word 64
  evs : Vector (BitVec 256) 8
  /-- The PB headers that gave the phase its first graphs: queue and position (R321). -/
  pbq : List (Fin 64 × Word)
  openedAt : Nat
  /-- Poisoned sectors that the last rollback of the phase left: die × 2^40 + sector (R320). -/
  unrestored : List Nat
  /-- Tail of the recording ring when the attempt began (R324). -/
  rcdStart : Word
  /-- Number of the phase's first item. -/
  firstItem : Nat
  deriving DecidableEq, Repr

/-- A job in a slot of a partition (spec/05 R74, R86). -/
structure Job where
  qtbase : DWord
  qtcount : Nat
  queues : Vector (Option Queue) 64
  ev : Vector (BitVec 256) 8
  items : List Item
  nextItem : Nat
  phase : Phase
  okPhases : Nat
  /-- Status of each phase that has completed, the first phase first. -/
  past : List Nat
  status : Nat
  reason : Byte
  ended : Bool
  faults : List PageFault
  /-- The number of the batch of faults being gathered, and its beginning. -/
  batchNo : Nat
  batchFrom : Option Nat
  nextPri : Nat
  /-- The PASID that every request for the job carries (spec/23 R336). -/
  pasid : BitVec 20
  /-- Barriers whose AND line was high when last looked at (spec/12 R248). -/
  colHigh : Word
  /-- Peer inputs that stand high in the present generation of a spanned barrier: aperture and barrier (spec/23 R342). -/
  colPeers : List (Nat × Nat)
  digest : DWord
  deriving DecidableEq, Repr

/-- The state of a core that a partition swap keeps in the context shadow (spec/18 R300). -/
structure SwapCore where
  banks : Vector Bank 3
  acc : Vector Acc 4
  accOwn : Fin 3
  acclive : BitVec 4
  spill0 : BitVec 4
  spill1 : BitVec 4
  active : Fin 2
  handling : Option (Fin 2)
  ctxsw : Option (Fin 2)
  rot : Option Rot
  deriving DecidableEq, Repr

/-- What a step of the device acts on: a place, a die, a partition, numbers, as that step needs them; the other fields
are zero. -/
structure EvArgs where
  g : Fin 512
  k : Fin 3
  col : Fin 4
  st : Stream
  p : Fin 8
  d : Fin 8
  cl : Fin 64
  q : Fin 64
  dom : Fin 9
  port : Fin 16
  id : Nat
  n : Nat
  va : DWord
  w : Word
  w2 : Word
  flag : Bool
  req : Requester
  inv : InvFor
  op : AtomOp
  data : List Byte
  words : List DWord
  /-- Who sent a host request: requester ID + 2^16 × PASID; and its Relaxed Ordering attribute (spec/13 R255, R265). -/
  src : Nat
  relaxed : Bool
  deriving DecidableEq, Repr

def EvArgs.zero : EvArgs :=
  { g := 0, k := 0, col := 0, st := .a, p := 0, d := 0, cl := 0, q := 0, dom := 0, port := 0, id := 0, n := 0,
    va := 0, w := 0, w2 := 0, flag := false, req := .channel 0 0, inv := .mailbox, op := .swap, data := [],
    words := [], src := 0, relaxed := false }

/-- Something that happens at a cycle: the agenda's entry. -/
structure Due where
  at_ : Nat
  what : Instr
  args : EvArgs
  deriving DecidableEq, Repr

/-- A partition, named by its first die (spec/05 R74, spec/23 R338). -/
structure Part where
  ndies : Nat
  startedAt : Nat
  job : Option Job
  shadowJob : Option Job
  shadowCores : List (Nat × SwapCore)
  /-- Its stalled copy commands, by die rank. -/
  shadowCopies : List (Nat × CopyCmd)
  /-- Steppe slots of the job in shadow storage: die rank, inside the Steppe, slot (R300). -/
  shadowSteppe : List (Nat × Bool × Slot)
  /-- Its pre-empted units: die rank, pool slot, bank. -/
  shadowSaved : List (Nat × Nat × Bank)
  shadowColerr : Word
  /-- Its steps still to come, at their distance from the halt. -/
  shadowAgenda : List Due
  /-- Fault answers for the job in shadow storage: first page, pages, group, retry (R300). -/
  heldAnswers : List (Nat × Nat × Option Nat × Bool)
  /-- The Steppes of the partition dispatch nothing (R300, R319). -/
  halted : Bool
  ageq : BitVec 16
  predelta : BitVec 7
  fltMode : Bool
  fltCount : BitVec 12
  fltTimer : BitVec 15
  pristop : Bool
  allowwait : Bool
  frqfull : Bool
  trapimg : Word
  colerr : Word
  qreset : Option (Fin 64)
  /-- QRESET.QUEUE as last written (spec/18 R302). -/
  qresetQ : Fin 64
  rincur : BitVec 20
  hwm : BitVec 23
  undowait : Word
  rbLimit : Byte
  rbCount : Byte
  rollbacks : BitVec 16
  contCause : Byte
  stopen : Bool
  aliasMode : Bool
  hstop : Bool
  trcOpen : Bool
  trcBr : Bool
  trcQueue : Fin 64
  sampint : BitVec 16
  rpMode : BitVec 2
  rpNext : Option (BitVec 2)
  ondiv : Bool
  div : Bool
  divPhase : BitVec 16
  aliascnt : BitVec 15
  /-- Recorded entries of the phase being replayed (spec/22 R334). -/
  playback : List (BitVec 256)
  frq : HostRing
  trc : HostRing
  rcd : HostRing
  fansVA : DWord
  fansPages : Word
  /-- The command in progress, 0 none (CMDSTAT bit 0). -/
  cmd : Nat
  apertures : Vector Aperture 7
  colspan : Word
  deriving DecidableEq, Repr

/-! ## Device -/

/-- A firmware event (spec/23 R341). -/
structure FwEvent where
  code : Byte
  die : Byte
  unit : Byte
  data : DWord
  time : Nat
  deriving DecidableEq, Repr

/-- An image slot of the firmware (spec/23 R344). -/
structure FwImage where
  valid : Bool
  version : Word
  digest : BitVec 256
  deriving DecidableEq, Repr

/-- The device block, mailbox and firmware (spec/23 R337-R345). -/
structure Device where
  devfeat : BitVec 128
  reqfeat : BitVec 128
  drvfeat : BitVec 128
  actfeat : BitVec 128
  go : Bool
  fails : Byte
  minimal : Bool
  whyDetail : Byte
  whyReason : Byte
  fwSeq : Word
  fwEvent : FwEvent
  fwAck : Word
  fwQueue : List FwEvent
  mbCmd : Word
  mbStatus : Word
  mbArgs : BitVec 1024
  mbReply : BitVec 2048
  pwrlim : Nat
  spanerr : Nat
  /-- The steps of the start have passed (R343). -/
  stepsOk : Bool
  images : Vector FwImage 2
  /-- The inactive slot holds a staged image, which is tried first at the next start (R344). -/
  staged : Bool
  bootSlot : Fin 2
  msix : List Nat
  /-- Answers to the host's reads: the address, the data, and whether they are poisoned (spec/09 R181). -/
  hostReplies : List (DWord × List Byte × Bool)
  pageRequests : List PageRequest
  spanOut : List (Nat × Nat × DWord × List Byte)
  spanWait : List SpanAsk
  portFailed : BitVec 16
  resetAt : Nat
  /-- Changes of the host's translations so far (spec/09 R165). -/
  atsEpoch : Nat
  /-- The patch entry that the last load was refused for, or the number of entries for a refusal of the image (spec/01 R21). -/
  loadRefused : Option Nat
  deriving DecidableEq, Repr

/-- How the last word run by `exec` ended (the model's own field: the step reads it). -/
inductive How where
  | issued | stalled | holding | illegal | trapped | faulted
  deriving DecidableEq, Repr

/-- The actor that acts next (the model's own field, log 4), with the bits of its word. -/
structure Turn where
  core : Fin 512
  ctx : Fin 3
  stream : Stream
  col : Fin 4
  word : BitVec 128
  how : How
  /-- Queue ports popped by the word (spec/06 R108). -/
  pops : List Nat
  deriving DecidableEq, Repr

/-- The whole machine. -/
structure State where
  cycle : Nat
  turn : Turn
  agenda : List Due
  /-- What the step being run acts on (the agenda entry's arguments). -/
  ev : EvArgs
  free : Nat
  dev : Device
  parts : Vector Part 8
  dies : Vector Die 8
  clusters : Vector Cluster 64
  cores : Vector Core 512
  hbm : Memory
  host : Memory
  deriving DecidableEq, Repr

/-! ## Reset -/

def LoopReg.reset : LoopReg := { lc := 0, ls := 0, le := 0, act := false }

def Column.reset : Column :=
  { x := Vector.replicate 56 0, v := Vector.replicate 28 0, o := Vector.replicate 8 0, lx := 0, p := 1, pc := 0,
    ended := false, brtgt := 0, brdly := 0, hold := 0, loop0 := LoopReg.reset, loop1 := LoopReg.reset,
    ccs := 0, ccsOld := 0, ccsNext := 0, wait := none, evalDue := false }

def FlagSt.reset : FlagSt := { held := 0, travel := 0, owed := 0 }

/-- The singleton {0} (spec/01 R15). -/
def Dom.zero : Dom := { lo := 0, hi := 0, win := 1 }

def DomState.reset : DomState :=
  { d := Vector.replicate 32 Dom.zero, table := [], queue := [], stack := [], run := none, freg := 0, fent := 0,
    bnd := false, inx := false, fail := false, bt := false, proplim := 256, failpc := 0, failcnt := 0, drun := 0, failAt := none, trapDue := none }

def Bank.reset : Bank :=
  { st := .empty, unit := none, left := 0, cancelled := false, status := 0, reason := 0,
    a := Vector.replicate 28 0, aReady := [], h := Vector.replicate 16 0, apc := 0, aEnded := false, aPause := 0,
    aLoop0 := LoopReg.reset, aLoop1 := LoopReg.reset, aWait := none, aHold := .free, ops := [], evops := [],
    nextId := 0, acqFence := [], relFence := [], sealed := false, drained := false, digest := [],
    cols := Vector.replicate 4 Column.reset, inflight := [], xcycle := 0, nextSeq := 0, xstores := [], xsysw := [],
    xBusy := 0, aBusy := 0, xEnded := false,
    k := Vector.replicate 8 0, mpc := 0, mEnded := false, mPause := 0, mLoop0 := LoopReg.reset,
    mLoop1 := LoopReg.reset, mWait := none,
    qsAX := Vector.replicate 4 [], qvAX := Vector.replicate 4 [], qsXA := Vector.replicate 4 [],
    qvXA := Vector.replicate 4 [], brq := [], flags := Vector.replicate 16 FlagSt.reset,
    rings := Vector.replicate 16 none, dom := DomState.reset, fpctl := 0, waitbndA := 0, waitbndX := 0,
    waitbndM := 0, sfcBase := 0, sfcSince := none, sfchi := 0, mergeTrap := false, orderr := false, orderrcnt := 0,
    cpiss := 0, cpstat := Vector.replicate 8 0, colarr := 0, colrel := 0, colTravel := 0, colAt := none, oredseq := 0, replay := [], trap := none,
    pending := [], bpSkip := none, sliceStart := 0, px := 0, qa := 0, pa := 0, qx := 0, history := [], handed := 0, spillKeep := 0, lastWord := 0 }

def Acc.reset : Acc :=
  { rows := Vector.replicate 32 0, i32 := false, sumValid := false, sumInt := false, crow := 0, ccol := 0 }

def Core.reset : Core :=
  { banks := Vector.replicate 3 Bank.reset, active := 0, handling := none, ctxsw := none, sp := [], spShadow := [],
    owner := 0, ownerShadow := 0, acc := Vector.replicate 4 Acc.reset, accOwn := 2, acclive := 0, spill0 := 0,
    spill1 := 0, rot := none, wide := [], window := [], ovfcnt := 0, abftcnt := 0, replays := 0, scause := 0,
    savebase0 := 0, savebase1 := 0, tslice := 0, bp0 := 0xC0000000, bp1 := 0xC0000000, perfidx := 0,
    perf := Vector.replicate 96 0, perfFrom := 0, heads := Vector.replicate 3 (0, 3), stopped := false }

def Cluster.reset : Cluster :=
  { holder := none, last := 7, granted := 0, used := 0, requests := 0, leasecmd := 32, leasecyc := 4096,
    abfttol := 0x37800000, cmds := [], nextId := 0, latchActive := none, latchShadow := none, latchFmt := none,
    rotating := false, replaying := false }

def Stack.reset : Stack := { undo := [], tags := [], tagRest := BitVec.allOnes 20, ored := [], merges := [], ovfGiB := 0 }

def Dvfs.reset (d : Fin 8) (c : Fin 9) : Dvfs :=
  { vreq := Config.fusedVmin d c 7, freq := 7, vcur := Config.fusedVmin d c 7, fcur := 7, status := 0, cap := 8, thr := false,
    tj := 0, target := none, ramp := none, sampStall := 0, sampIssue := 0, seq := 0, hiwater := 0, bpcnt := 0, fifoFrom := 0,
    headIssue := 0, headStall := 0 }

def Die.reset (d : Fin 8) : Die :=
  { xlatroot := 0, walks := 0, inberr := 0, tlb := [], copies := [], nextCopy := 0, steppe := [], outside := [],
    dispatchAt := 0, hbmStacks := Vector.replicate 2 Stack.reset, hold := [], press := false, holdfull := false,
    map := Vector.ofFn (fun i => i.castLE (by decide)), spare := 8, passes := 0, failed := 0, retire := 0,
    roten := false, dvfs := Vector.ofFn (Dvfs.reset d), dvfsStopped := false, prov := [], provHead := 0,
    provTail := 0, provDrop := 0, trace := [], traceLost := 0, savepool := 0, savecnt := 0, saved := [],
    sealDone := false, writeback := false, poison := [] }

def HostRing.reset : HostRing := { base := 0, log := 0, head := 0, tail := 0 }

def Aperture.reset : Aperture := { ports := 0, peer := 0, ppart := 0, valid := false, sealgrp := false }

def Part.reset : Part :=
  { ndies := 0, startedAt := 0, job := none, shadowJob := none, shadowCores := [], shadowCopies := [], shadowSteppe := [],
    shadowSaved := [], shadowColerr := 0, shadowAgenda := [], heldAnswers := [], halted := false, ageq := 50,
    predelta := 16, fltMode := false, fltCount := 256, fltTimer := 20, pristop := false, allowwait := false,
    frqfull := false, trapimg := 0, colerr := 0, qreset := none, qresetQ := 0, rincur := 0, hwm := 3670016, undowait := 1000,
    rbLimit := 3, rbCount := 0, rollbacks := 0, contCause := 0, stopen := false, aliasMode := false, hstop := false,
    trcOpen := false, trcBr := false, trcQueue := 0, sampint := 0, rpMode := 0, rpNext := none, ondiv := false,
    div := false, divPhase := 0, aliascnt := 0, playback := [], frq := HostRing.reset, trc := HostRing.reset, rcd := HostRing.reset,
    fansVA := 0, fansPages := 0, cmd := 0, apertures := Vector.replicate 7 Aperture.reset, colspan := 0 }

def FwImage.reset : FwImage := { valid := false, version := 0, digest := 0 }

def Device.reset : Device :=
  { devfeat := 0x0FFF, reqfeat := 0x0004, drvfeat := 0, actfeat := 0, go := false, fails := 0, minimal := false,
    whyDetail := 0, whyReason := 0, fwSeq := 0, fwEvent := { code := 0, die := 0, unit := 0, data := 0, time := 0 },
    fwAck := 0, fwQueue := [], mbCmd := 0, mbStatus := 0, mbArgs := 0, mbReply := 0, pwrlim := 3200, spanerr := 0,
    stepsOk := false, staged := false,
    images := #v[{ valid := true, version := BitVec.ofNat 32 Config.fusedVersion, digest := 0 }, FwImage.reset], bootSlot := 0, msix := [], hostReplies := [], pageRequests := [], spanOut := [],
    spanWait := [], portFailed := 0, resetAt := 0, atsEpoch := 0, loadRefused := none }

def Turn.reset : Turn := { core := 0, ctx := 0, stream := .a, col := 0, word := 0, how := .issued, pops := [] }

/-- The machine right after reset: no partition, no job, every core empty, memory with nothing listed; the start
of spec/23 R343 is about to begin. -/
def State.reset : State :=
  { cycle := 0, turn := Turn.reset,
    agenda := [{ at_ := 0, what := .deviceResetStart, args := EvArgs.zero }], ev := EvArgs.zero, free := 0, dev := Device.reset,
    parts := Vector.replicate 8 Part.reset, dies := Vector.ofFn Die.reset, clusters := Vector.replicate 64 Cluster.reset,
    cores := Vector.replicate 512 Core.reset, hbm := [], host := [] }

end Sys2Proof.Machine
end

