-- ==== Sys2Proof/Machine/Bits.lean ====
section
/-! DEFINITION. Machine/Bits.lean: lanes, fields and small list operations. -/
namespace Sys2Proof.Machine
open Sys2Proof

/-- Lane `l` of a vector register (spec/07, introduction). -/
def lane (v : Vec) (l : Nat) : Word := v.extractLsb' (32 * l) 32

/-- A number whose digit `l` in base 2^32 is `f l`, for l below n. -/
def packNat (f : Nat → Word) : Nat → Nat
  | 0 => 0
  | n + 1 => packNat f n + (f n).toNat <<< (32 * n)

/-- The vector whose lane l is `f l`. -/
def ofLanes (f : Nat → Word) : Vec := BitVec.ofNat 1024 (packNat f 32)

/-- A vector lane by lane from another. -/
def mapLanes (f : Word → Word) (a : Vec) : Vec := ofLanes fun l => f (lane a l)

def zipLanes (f : Word → Word → Word) (a b : Vec) : Vec := ofLanes fun l => f (lane a l) (lane b l)

/-- Byte `k` of a vector register (spec/07 R132). -/
def vbyte (v : Vec) (k : Nat) : Byte := v.extractLsb' (8 * k) 8

/-- Replace `w` bits from bit `lo` up. -/
def setBits {n : Nat} (v : BitVec n) (lo w x : Nat) : BitVec n :=
  let mask := BitVec.ofNat n ((2 ^ w - 1) <<< lo)
  (v &&& ~~~ mask) ||| (BitVec.ofNat n ((x % 2 ^ w) <<< lo))

/-- Bits [lo+w-1:lo] as a number. -/
def field {n : Nat} (v : BitVec n) (lo w : Nat) : Nat := (v.toNat >>> lo) % 2 ^ w

def bit {n : Nat} (v : BitVec n) (i : Nat) : Bool := v.getLsbD i

def setBit {n : Nat} (v : BitVec n) (i : Nat) (b : Bool) : BitVec n :=
  if b then v ||| BitVec.ofNat n (1 <<< i) else v &&& ~~~ (BitVec.ofNat n (1 <<< i))

/-- Set or clear bits lo .. lo+n-1. -/
def setRun {w : Nat} (v : BitVec w) (lo n : Nat) (b : Bool) : BitVec w :=
  if b then v ||| BitVec.ofNat w ((2 ^ n - 1) <<< lo) else v &&& ~~~ (BitVec.ofNat w ((2 ^ n - 1) <<< lo))

/-- Leading zeros among `n` bits. -/
def clzNat (v : Nat) : Nat → Nat
  | 0 => 0
  | n + 1 => if v.testBit n then 0 else 1 + clzNat v n

/-- Set bits among `n` bits. -/
def popNat (v : Nat) : Nat → Nat
  | 0 => 0
  | n + 1 => (if v.testBit n then 1 else 0) + popNat v n

/-- clamp (spec/00 R4). -/
def clampInt (x lo hi : Int) : Int := if x < lo then lo else if x > hi then hi else x

/-- The last element that meets a test. -/
def lastWith {α : Type} (p : α → Bool) (l : List α) : Option α :=
  l.foldl (fun r x => if p x then some x else r) none

/-- Change the first element that meets a test. -/
def updateFirst {α : Type} (p : α → Bool) (f : α → α) : List α → List α
  | [] => []
  | x :: l => if p x then f x :: l else x :: updateFirst p f l

/-- The numbers lo, lo+1, … (n of them). -/
def upTo (lo : Nat) : Nat → List Nat
  | 0 => []
  | n + 1 => lo :: upTo (lo + 1) n

/-- Insert before the first element that comes strictly later. -/
def insertBy {α : Type} (lt : α → α → Bool) (x : α) : List α → List α
  | [] => [x]
  | y :: l => if lt x y then x :: y :: l else y :: insertBy lt x l

/-- Stable insertion sort. -/
def sortBy {α : Type} (lt : α → α → Bool) (l : List α) : List α := l.foldl (fun r x => insertBy lt x r) []

/-- The first index below n that meets a test. -/
def firstIdx (p : Nat → Bool) (n : Nat) : Option Nat := (upTo 0 n).find? p

end Sys2Proof.Machine
end

