-- ==== Sys2Proof/Machine/Loops.lean ====
section
/-! DEFINITION. Machine/Loops.lean: hardware loops and the next program counter of a column or a stream (spec/06 R113, R115,
R116; spec/08 R143). -/
namespace Sys2Proof.Machine
open Sys2Proof

def Bank.col (b : Bank) (c : Fin 4) : Column := b.cols.get c
def Bank.modCol (b : Bank) (c : Fin 4) (f : Column → Column) : Bank :=
  { b with cols := b.cols.set c.val (f (b.col c)) c.isLt }

/-- A loop level that is not active. -/
def LoopReg.off (l : LoopReg) : LoopReg := { l with act := false }

/-! ## Loops and the next program counter (spec/06 R113, R115, R116) -/

/-- A fetch past the end of an active loop deactivates it. -/
def LoopReg.fetch (l : LoopReg) (pc : Word) : LoopReg := if l.act && l.le.ult pc then l.off else l

/-- End-of-body evaluation of one level: the next pc when it loops. -/
def LoopReg.eval (l : LoopReg) : Option Word × LoopReg :=
  if l.lc = 0 then (none, l.off) else (some l.ls, { l with lc := l.lc - 1 })

/-- The pc after a word of `size` at `pc` that is neither a delay syllable nor a taken branch: level 1 is evaluated
first, level 0 at a shared end only when level 1 deactivates. -/
def loopStep (pc : Word) (size : Word) (l0 l1 : LoopReg) : Word × LoopReg × LoopReg :=
  let at1 := l1.act && l1.le == pc
  let at0 := l0.act && l0.le == pc
  let r1 := if at1 then l1.eval else (none, l1)
  match r1.1 with
  | some t => (t, l0.fetch t, r1.2.fetch t)
  | none =>
    let r0 := if at0 then l0.eval else (none, l0)
    let t := r0.1.getD (pc + size)
    (t, r0.2.fetch t, r1.2.fetch t)

/-- A taken branch reaches its target: the innermost loop is deactivated when the target lies outside it. -/
def loopJump (tgt : Word) (l0 l1 : LoopReg) : LoopReg × LoopReg :=
  let out (l : LoopReg) : Bool := tgt.ult l.ls || l.le.ult tgt
  if l1.act then (l0.fetch tgt, if out l1 then l1.off else l1)
  else if l0.act then (if out l0 then l0.off else l0, l1)
  else (l0, l1)

/-- Opening a level (R115). -/
def LoopReg.openAt (pc count disp : Word) : LoopReg :=
  { lc := (if count = 0 then 1 else count) - 1, ls := pc + 1, le := pc + disp, act := true }

/-- A column after a syllable that took no branch: the delay slots of an earlier branch run out, or the loops turn. -/
def Column.next (c : Column) : Column :=
  if c.brdly = 0 then
    let r := loopStep c.pc 1 c.loop0 c.loop1
    { c with pc := r.1, loop0 := r.2.1, loop1 := r.2.2 }
  else if c.brdly = 1 then
    let r := loopJump c.brtgt c.loop0 c.loop1
    { c with pc := c.brtgt, brdly := 0, loop0 := r.1, loop1 := r.2 }
  else { c with pc := c.pc + 1, brdly := c.brdly - 1 }

/-- A taken branch: two delay syllables, then the target (R113). -/
def Column.taken (c : Column) (tgt : Word) : Column := { c with pc := c.pc + 1, brtgt := tgt, brdly := 2 }

/-- The next word of the column stands at the end of an active loop and is no delay syllable. -/
def Column.atEnd (c : Column) : Bool :=
  c.brdly == 0 && ((c.loop0.act && c.loop0.le == c.pc) || (c.loop1.act && c.loop1.le == c.pc))

/-- Make the loop evaluation that a domain syllable has left for the end of its execution (R143). -/
def Column.settle (c : Column) : Column := if c.evalDue then { c.next with evalDue := false } else c

/-- One X cycle of a hold; at its end a domain syllable that started no run makes its loop evaluation. -/
def Column.tick (c : Column) (run : Bool) : Column :=
  let c := { c with hold := c.hold - 1 }
  if c.hold = 0 && !run then c.settle else c

/-- A failure redirect: column 0 goes on as if the syllable at `pc` were a taken branch; an evaluation it owed is not made
(spec/08 R159, R160). -/
def Column.redirect (c : Column) (pc tgt : Word) : Column := { c with pc := pc + 1, brtgt := tgt, brdly := 2, evalDue := false }

/-- The level fetches at `pc` after a write of its registers (R116). -/
def fetchBoth (pc : Word) (l : LoopReg × LoopReg) : LoopReg × LoopReg := (l.1.fetch pc, l.2.fetch pc)

end Sys2Proof.Machine
end

