-- ==== Sys2Proof/Machine/Relations.lean ====
section
/-! DEFINITION. Machine/Relations.lean: the sets of the domain unit, narrowing, relations, wakes, failure and one woken execution
(spec/00 R9, spec/08 R140-R160). -/
namespace Sys2Proof.Machine
open Sys2Proof

/-! ## Sets (R140, R141) -/

/-- A set of integers: lo + k for the bits k below 64 of the mask, and every value from lo + 64 to hi; nothing above
hi. -/
structure ISet where
  lo : Int
  hi : Int
  mask : Nat
  deriving DecidableEq, Repr

def ISet.mem (s : ISet) (x : Int) : Bool :=
  decide (s.lo ≤ x) && decide (x ≤ s.hi) && (decide (s.lo + 64 ≤ x) || s.mask.testBit (x - s.lo).toNat)

def allOnes64 : Nat := 18446744073709551615

/-- [lo, hi] -/
def ISet.interval (lo hi : Int) : ISet := { lo := lo, hi := hi, mask := allOnes64 }

def Dom.set (d : Dom) : ISet := { lo := d.lo.toInt, hi := d.hi.toInt, mask := d.win.toNat }
def Dom.span (d : Dom) : Int := d.hi.toInt - d.lo.toInt
def Dom.single (d : Dom) : Bool := d.lo == d.hi
def Dom.singleton (v : Word) : Dom := { lo := v, hi := v, win := 1 }

/-- The register for the members of [m, h] that meet `mem`, every value from m + 64 to h being one; none when there is no
member. -/
def domOfMem (m h : Int) (mem : Int → Bool) : Option Dom :=
  let ks : List Nat := (upTo 0 64).filter fun k => decide (m + (k : Int) ≤ h) && mem (m + (k : Int))
  let tail := decide (m + 64 ≤ h)
  let lo : Option Int := match ks with
    | k :: _ => some (m + (k : Int))
    | [] => if tail then some (m + 64) else none
  match lo with
  | none => none
  | some lo =>
    let hi : Int := if tail then h else m + ((ks.getLast?.getD 0 : Nat) : Int)
    let win : Nat := (upTo 0 64).foldl (fun (w k : Nat) =>
      let x := lo + (k : Int)
      if decide (x ≤ hi) && (decide (m + 64 ≤ x) || mem x) then w + 2 ^ k else w) 0
    some { lo := BitVec.ofInt 32 lo, hi := BitVec.ofInt 32 hi, win := BitVec.ofNat 64 win }

/-- set(d) ∩ S, none when empty. -/
def Dom.inter (d : Dom) (s : ISet) : Option Dom :=
  let a := d.set
  domOfMem (max a.lo s.lo) (min a.hi s.hi) fun x => a.mem x && s.mem x

/-- hull of a list of values (R141); none for the empty list. -/
def hullOf (l : List Int) : Option ISet :=
  match l with
  | [] => none
  | x :: r =>
    let lo := r.foldl min x
    let hi := r.foldl max x
    let mask := l.foldl (fun m y => let k := (y - lo).toNat; if decide (k < 64) && !m.testBit k then m + 2 ^ k else m) 0
    some { lo := lo, hi := hi, mask := mask }

/-- The members of a register whose span is at most 63. -/
def Dom.members (d : Dom) : List Int :=
  ((upTo 0 64).filter fun (k : Nat) => bit d.win k).map fun (k : Nat) => d.lo.toInt + (k : Int)

/-- sum(A, B) -/
def domSum (a b : Dom) : ISet :=
  let lo := a.lo.toInt + b.lo.toInt
  let hi := a.hi.toInt + b.hi.toInt
  if decide (a.span ≤ 63) && decide (b.span ≤ 63) then
    { lo := lo, hi := hi, mask := ((upTo 0 64).foldl (fun m k => if bit a.win k then m ||| b.win.toNat <<< k else m) 0) % 2 ^ 64 }
  else .interval lo hi

/-- diff(A, B) -/
def domDiff (a b : Dom) : ISet :=
  let lo := a.lo.toInt - b.hi.toInt
  let hi := a.hi.toInt - b.lo.toInt
  if decide (a.span ≤ 63) && decide (b.span ≤ 63) then
    let sb := b.span.toNat
    { lo := lo, hi := hi,
      mask := ((upTo 0 64).foldl (fun m k => if bit b.win k then m ||| a.win.toNat <<< (sb - k) else m) 0) % 2 ^ 64 }
  else .interval lo hi

/-! ## Narrow (R9) and the steps of a relation (R144-R147) -/

/-- An execution under way: the registers, INX, the registers narrowed so far and the register whose set emptied. -/
structure DX where
  d : Vector Dom 32
  inx : Bool
  nar : List Nat
  fail : Option (Fin 32)
  deriving DecidableEq, Repr

def DX.get (x : DX) (r : Fin 32) : Dom := x.d.get r

/-- Put a narrowed value. -/
def DX.put (x : DX) (r : Fin 32) (t : Dom) : DX :=
  if t = x.get r then x
  else { x with d := x.d.set r.val t r.isLt, nar := if x.nar.contains r.val then x.nar else x.nar ++ [r.val] }

/-- Narrow(dn, S) for a set that can be held exactly. -/
def DX.narrow (x : DX) (r : Fin 32) (s : ISet) : DX :=
  if x.fail.isSome then x
  else match (x.get r).inter s with
    | none => { x with fail := some r }
    | some t => x.put r t

/-- Narrow to a set that may be empty outright. -/
def DX.narrowOpt (x : DX) (r : Fin 32) (s : Option ISet) : DX :=
  match s with
  | some s => x.narrow r s
  | none => if x.fail.isSome then x else { x with fail := some r }

/-- Remove one value: a member beyond the window that is not hi sets INX and changes nothing (R146). -/
def DX.remove (x : DX) (r : Fin 32) (v : Int) : DX :=
  if x.fail.isSome then x
  else
    let d := x.get r
    let s := d.set
    if !s.mem v then x
    else if d.single then { x with fail := some r }
    else if decide (63 < v - s.lo) && v != s.hi then { x with inx := true }
    else
      let lo := if v = s.lo then s.lo + 1 else s.lo
      let hi := if v = s.hi then s.hi - 1 else s.hi
      match domOfMem lo hi fun y => s.mem y && y != v with
      | none => { x with fail := some r }
      | some t => x.put r t

/-- Rounding of a quotient by a non-zero k towards +∞ and −∞. -/
def ceilDiv (a k : Int) : Int := -Int.fdiv (-a) k
def floorDiv (a k : Int) : Int := Int.fdiv a k

/-- The steps of a relation, in order; `vt` gives the lanes of a vector register of column 0. -/
def relSteps (op : DomOp) (c a b : Fin 32) (k : Word) (vt : Nat → Vec) (x : DX) : DX :=
  match op with
  | .add =>
    let x := x.narrow c (domSum (x.get a) (x.get b))
    let x := x.narrow a (domDiff (x.get c) (x.get b))
    x.narrow b (domDiff (x.get c) (x.get a))
  | .sub =>
    let x := x.narrow c (domDiff (x.get a) (x.get b))
    let x := x.narrow a (domSum (x.get c) (x.get b))
    x.narrow b (domDiff (x.get a) (x.get c))
  | .mulc =>
    let k := k.toInt
    if k = 0 then x.narrow c (.interval 0 0)
    else
      let da := x.get a
      let p : Option ISet :=
        if decide (da.span ≤ 63) then hullOf (da.members.map fun v => k * v)
        else
          let u := k * da.lo.toInt
          let w := k * da.hi.toInt
          some (.interval (min u w) (max u w))
      let x := x.narrowOpt c p
      let dc := x.get c
      let q : Option ISet :=
        if decide (dc.span ≤ 63) then
          hullOf ((dc.members.filter fun (v : Int) => v % (k.natAbs : Int) == 0).map fun v => floorDiv v k)
        else
          let lo := min (ceilDiv dc.lo.toInt k) (ceilDiv dc.hi.toInt k)
          let hi := max (floorDiv dc.lo.toInt k) (floorDiv dc.hi.toInt k)
          if lo ≤ hi then some (.interval lo hi) else none
      x.narrowOpt a q
  | .lt =>
    let x := x.narrow a (.interval (-2147483648) ((x.get b).hi.toInt - 1))
    x.narrow b (.interval ((x.get a).lo.toInt + 1) 2147483647)
  | .le =>
    let x := x.narrow a (.interval (-2147483648) (x.get b).hi.toInt)
    x.narrow b (.interval (x.get a).lo.toInt 2147483647)
  | .eq =>
    let x := x.narrow a (x.get b).set
    x.narrow b (x.get a).set
  | .ne =>
    let x := if (x.get b).single then x.remove a (x.get b).lo.toInt else x
    if x.fail.isSome then x
    else if (x.get a).single then x.remove b (x.get a).lo.toInt else x
  | .elem =>
    let v := vt k.toNat
    let ln (i : Nat) : Int := (lane v i).toInt
    let sa := (x.get a).set
    let m := (upTo 0 32).foldl (fun (m i : Nat) => if sa.mem (ln i) then m + 2 ^ i else m) 0
    let x := x.narrow b { lo := 0, hi := 31, mask := m }
    let si := (x.get b).set
    x.narrowOpt a (hullOf (((upTo 0 32).filter fun (i : Nat) => si.mem (i : Int)).map ln))

/-! ## Wakes and failure (R153, R154, R159) -/

/-- The registers a standing entry names. -/
def Standing.names (e : Standing) (r : Nat) : Bool :=
  match e.op with
  | .add => e.c.val == r || e.a.val == r || e.b.val == r
  | .sub => e.c.val == r || e.a.val == r || e.b.val == r
  | .mulc => e.c.val == r || e.a.val == r
  | _ => e.a.val == r || e.b.val == r

/-- Append the entries that name a narrowed register, in ascending index, but those queued already and the one being
executed. -/
def DomState.wake (d : DomState) (cur : Option Nat) (r : Nat) : DomState :=
  d.table.zipIdx.foldl (fun d e =>
    if e.1.names r && !d.queue.contains e.2 && cur != some e.2 then { d with queue := d.queue ++ [e.2] } else d) d

/-- Write a finished execution: its registers, INX, and the wakes of each narrowed register in ascending number. -/
def DomState.commit (d : DomState) (cur : Option Nat) (x : DX) : DomState :=
  let d := { d with d := x.d, inx := d.inx || x.inx }
  (sortBy (fun a b => decide (a < b)) x.nar).foldl (fun d r => d.wake cur r) d

/-- The state of a failed execution. `ent` is 0xFF for an initiating instruction; `at_` is the X cycle whose clears of FAIL it
meets: that of an initiating syllable, none for a woken execution, during which X is frozen (R156, R160). -/
def DomState.failed (d : DomState) (r : Fin 32) (ent : Byte) (n : Nat) (at_ : Option Nat) : DomState :=
  { d with
    queue := [], bnd := false, fail := true, failcnt := d.failcnt + 1, freg := r, fent := ent,
    drun := BitVec.ofNat 16 n, run := none, failAt := at_ }

def DomState.start (d : DomState) : DX := { d := d.d, inx := false, nar := [], fail := none }

/-! ## One woken execution (R154-R160) -/

/-- The lanes of column 0's vector registers as they stand: nothing lands in a frozen X cycle (R147). -/
def Bank.domHeld (b : Bank) (n : Nat) : Vec := if h : n < 28 then (b.col 0).v[n] else 0

/-- A run ends: column 0 makes the loop evaluation that waited for it (R143). -/
def Bank.endRun (b : Bank) : Bank := b.modCol 0 Column.settle

/-- An execution of a run has raised a trap of column 0 that names the initiating syllable (R157, R159). -/
def Bank.owesTrap (b : Bank) (cause : Byte) (d0 d1 : DWord) (r : DomRun) : Bank :=
  { b with dom := { b.dom with trapDue := some { cause := cause, d0 := d0, d1 := d1, word := r.word, pc := r.pc } } }

/-- One woken execution of the run in progress. -/
def Bank.woken (b : Bank) : Bank :=
  match b.dom.run, b.dom.queue with
  | none, _ => b
  | some _, [] => ({ b with dom := { b.dom with run := none } } : Bank).endRun
  | some r, e :: q =>
    let n := r.n + 1
    let d := { b.dom with queue := q, run := some { r with n := n } }
    match d.table[e]? with
    | none => { b with dom := d }
    | some en =>
      let x := relSteps en.op en.c en.a en.b en.k b.domHeld d.start
      match x.fail with
      | some reg =>
        let b := { b with dom := d.failed reg (BitVec.ofNat 8 e) n none }
        if d.failpc != 0 && !r.delay then b.modCol 0 fun c => c.redirect r.pc d.failpc
        else b.endRun.owesTrap 22 (BitVec.ofNat 64 reg.val) (BitVec.ofNat 64 e) r
      | none =>
        let d := d.commit (some e) x
        if d.queue.isEmpty then ({ b with dom := { d with run := none, drun := BitVec.ofNat 16 n } } : Bank).endRun
        else if n = r.limit then
          let b := ({ b with dom := { d with run := none, bnd := true, drun := BitVec.ofNat 16 n } } : Bank).endRun
          if d.bt then b.owesTrap 25 (BitVec.ofNat 64 n) 0 r else b
        else { b with dom := d }

end Sys2Proof.Machine
end

