-- ==== Sys2Proof/Machine/Memory.lean ====
section
/-! DEFINITION. Machine/Memory.lean: bytes of an address space in canonical form, and little-endian values over them
(spec/02 R23, spec/10 R195). -/
namespace Sys2Proof.Machine
open Sys2Proof

/-- The byte at an address; an unlisted address reads 0 (log 1). -/
def Memory.read : Memory → Nat → Byte
  | [], _ => 0
  | c :: m, a => if c.1 = a then c.2 else if a < c.1 then 0 else Memory.read m a

/-- Write one byte, keeping the canonical form. -/
def Memory.write : Memory → Nat → Byte → Memory
  | [], a, b => if b = 0 then [] else [(a, b)]
  | c :: m, a, b =>
    if a < c.1 then (if b = 0 then c :: m else (a, b) :: c :: m)
    else if c.1 = a then (if b = 0 then m else (a, b) :: m)
    else c :: Memory.write m a b

/-- Every listed address is above `lo` (or there is none below), rising, with no zero byte. -/
def Memory.wfFrom : Option Nat → Memory → Bool
  | _, [] => true
  | lo, c :: m => (match lo with | none => true | some l => decide (l < c.1)) && c.2 != 0 && Memory.wfFrom (some c.1) m

/-- The canonical form: addresses strictly rising and no byte equal to what an unlisted address reads as. -/
def Memory.wf (m : Memory) : Bool := Memory.wfFrom none m

/-- `n` bytes from an address up. -/
def Memory.readN (m : Memory) : Nat → Nat → List Byte
  | _, 0 => []
  | a, n + 1 => m.read a :: m.readN (a + 1) n

/-- Write bytes from an address up. -/
def Memory.writeBytes (m : Memory) : Nat → List Byte → Memory
  | _, [] => m
  | a, b :: bs => Memory.writeBytes (m.write a b) (a + 1) bs

/-- The number little-endian bytes stand for. -/
def leNat : List Byte → Nat
  | [] => 0
  | b :: bs => b.toNat + 256 * leNat bs

/-- `n` little-endian bytes of a number. -/
def leBytes : Nat → Nat → List Byte
  | 0, _ => []
  | n + 1, v => BitVec.ofNat 8 v :: leBytes n (v / 256)

/-- A little-endian value of `n` bytes. -/
def Memory.readLE (m : Memory) (a n : Nat) : Nat := leNat (m.readN a n)

/-- Store a value as `n` little-endian bytes. -/
def Memory.writeLE (m : Memory) (a n v : Nat) : Memory := m.writeBytes a (leBytes n v)

end Sys2Proof.Machine
end

