-- ==== Sys2Proof/Machine/SaveArea.lean ====
section
/-! DEFINITION. Machine/SaveArea.lean: the bytes of a bank's save area and what they mean when reloaded (spec/18
R286-R290). Where R286 names a block without its inner layout, the layout is the model's (DESIGN CHOICE, log 15). -/
namespace Sys2Proof.Machine
open Sys2Proof

/-! ## Values -/

def b01 (b : Bool) : Nat := if b then 1 else 0

/-- `rgcfg` value of a ring in bits 20:0 (R189), then its pointers and counts (R286). -/
def Ring.word (r : Ring) : Nat :=
  r.base + r.count * 2 ^ 10 + r.prod.val * 2 ^ 17 + r.cons.val * 2 ^ 19 + r.clm * 2 ^ 21 + r.head * 2 ^ 27 +
    r.tail * 2 ^ 33 + r.nclaim * 2 ^ 39 + r.nfill * 2 ^ 46 + r.nres * 2 ^ 53

/-- A domain register as 128 bits (R140). -/
def Dom.bits (d : Dom) : Nat := d.lo.toNat + d.hi.toNat * 2 ^ 32 + d.win.toNat * 2 ^ 64
def Dom.ofBits (n : Nat) : Dom :=
  { lo := BitVec.ofNat 32 n, hi := BitVec.ofNat 32 (n / 2 ^ 32), win := BitVec.ofNat 64 (n / 2 ^ 64) }

def domOpCode : DomOp → Nat
  | .add => 0 | .sub => 1 | .mulc => 2 | .lt => 3 | .le => 4 | .eq => 5 | .ne => 6 | .elem => 7
def domOpOf (n : Nat) : DomOp :=
  match n with
  | 0 => .add | 1 => .sub | 2 => .mulc | 3 => .lt | 4 => .le | 5 => .eq | 6 => .ne | _ => .elem

/-- A standing entry in 8 bytes: operation, three register numbers, constant. -/
def Standing.word (e : Standing) : Nat :=
  domOpCode e.op + e.c.val * 2 ^ 8 + e.a.val * 2 ^ 16 + e.b.val * 2 ^ 24 + e.k.toNat * 2 ^ 32
def Standing.ofWord (n : Nat) : Standing :=
  { op := domOpOf (n % 256), c := Fin.ofNat 32 (n / 2 ^ 8), a := Fin.ofNat 32 (n / 2 ^ 16),
    b := Fin.ofNat 32 (n / 2 ^ 24), k := BitVec.ofNat 32 (n / 2 ^ 32) }

/-- DSTAT (spec/08 R162). -/
def DomState.dstat (d : DomState) : Word :=
  BitVec.ofNat 32 (b01 d.fail + b01 d.inx * 2 + b01 d.bnd * 4 + d.fent.toNat * 2 ^ 8 + d.freg.val * 2 ^ 16)
def DomState.setDstat (d : DomState) (w : Word) : DomState :=
  { d with fail := bit w 0, inx := bit w 1, bnd := bit w 2, fent := w.extractLsb' 8 8, freg := Fin.ofNat 32 (field w 16 5) }

/-- DTAB (spec/08 R162). -/
def DomState.dtab (d : DomState) : Word :=
  BitVec.ofNat 32 (d.table.length + d.queue.length * 2 ^ 8 + d.stack.length * 2 ^ 16)

/-- The queued entries as a mask (R161). -/
def queueMask (l : List Nat) : Nat := l.foldl (fun m i => m ||| 1 <<< i) 0

/-- LOOPSTAT (spec/06 R117). -/
def loopStat (l0 l1 : LoopReg) : Word := BitVec.ofNat 32 (b01 l0.act + 2 * b01 l1.act)

def loopBytes (l0 l1 : LoopReg) : List Byte :=
  [l0.lc, l0.ls, l0.le, l1.lc, l1.ls, l1.le].flatMap fun w => leBytes 4 w.toNat

def words32 (l : List Word) : List Byte := l.flatMap fun w => leBytes 4 w.toNat

/-- MERGECTL (spec/10 R209). -/
def Bank.mergectl (b : Bank) : Word := BitVec.ofNat 32 (b01 b.mergeTrap + 2 * b01 b.orderr)

/-- The control registers that belong to a bank, by number, and their values; `none` where the number names no register
of the bank (R286). The A loop registers stand for the loop numbers. -/
def Bank.ctrl (b : Bank) (sfc : BitVec 48) (n : Nat) : Option Word :=
  match n with
  | 0x010 => some (match b.unit with | some u => u.index | none => 0)
  | 0x011 => some (match b.unit with | some u => u.width | none => 0)
  | 0x020 => some b.fpctl
  | 0x032 => some (match b.unit with | some u => BitVec.ofNat 32 u.qctx.val | none => 0)
  | 0x040 => some (sfc.setWidth 32)
  | 0x041 => some (b.sfchi.setWidth 32)
  | 0x042 => some (match b.unit with | some u => BitVec.ofNat 32 (b01 u.detm) | none => 0)
  | 0x043 => some (b.waitbndA.setWidth 32)
  | 0x044 => some (b.waitbndX.setWidth 32)
  | 0x045 => some (b.waitbndM.setWidth 32)
  | 0x048 => some b.aLoop0.lc
  | 0x049 => some b.aLoop0.ls
  | 0x04A => some b.aLoop0.le
  | 0x04B => some b.aLoop1.lc
  | 0x04C => some b.aLoop1.ls
  | 0x04D => some b.aLoop1.le
  | 0x04E => some (loopStat b.aLoop0 b.aLoop1)
  | 0x050 => some b.dom.dstat
  | 0x051 => some (BitVec.ofNat 32 (b01 b.dom.bt))
  | 0x052 => some (b.dom.proplim.setWidth 32)
  | 0x053 => some b.dom.failpc
  | 0x054 => some b.dom.failcnt
  | 0x055 => some b.dom.dtab
  | 0x056 => some (b.dom.drun.setWidth 32)
  | 0x070 => some b.mergectl
  | 0x071 => some b.orderrcnt
  | 0x072 => some b.cpiss
  | 0x091 => some b.colarr
  | 0x092 => some b.colrel
  | 0x093 => some b.oredseq
  | _ => if h : 0x078 ≤ n ∧ n < 0x080 then some (b.cpstat[n - 0x078]'(by omega)) else none

/-! ## In-flight buffer (R288) -/

def kindCode : FlightKind → Nat | .scalar => 0 | .vector => 1 | .pred => 2

/-- Remaining cycles to the landing in lx, counted from the bank's next X cycle. -/
def Bank.rem (b : Bank) (f : Flight) : Int := (f.land : Int) - b.xcycle

/-- The order of the buffer: REM, then COL, then SEQ. -/
def Bank.inflightSorted (b : Bank) : List Flight :=
  sortBy (fun x y => decide (x.land < y.land) || (x.land == y.land && (decide (x.col < y.col) ||
    (x.col == y.col && decide (x.seq < y.seq))))) b.inflight

/-- One 144-byte entry; `base` is the lowest sequence number. -/
def flightBytes (b : Bank) (base : Nat) (f : Flight) : List Byte :=
  leBytes 128 f.val.toNat ++
  [f.dst, BitVec.ofNat 8 f.col.val, BitVec.ofInt 8 (b.rem f), BitVec.ofNat 8 (kindCode f.kind), f.fpf.setWidth 8,
    match f.push with | some p => BitVec.ofNat 8 (p.val + 16) | none => 0] ++
  leBytes 2 (f.seq - base) ++ leBytes 8 0

/-! ## The dump -/

/-- Header (R287). `where_` and `sfc` are those of the edge. -/
def Bank.headerBytes (b : Bank) (sfc : BitVec 48) (where_ : Nat) : List (Nat × List Byte) :=
  let r := b.trap.getD { cause := 0, strm := .a, col := 0, word := 0, detail0 := 0, detail1 := 0 }
  let pend := b01 (b.pending.any fun x => x.cause == 16) + 2 * b01 (b.pending.any fun x => x.cause == 18)
  let strm := match r.strm with | .a => 0 | .x => 1 | .m => 2
  let cst (c : Column) : Nat :=
    c.brtgt.toNat + c.brdly.toNat * 2 ^ 32 + b01 c.ended * 2 ^ 34 +
      b01 (match c.wait with | some w => w.obj == 6 | none => false) * 2 ^ 35 + c.hold.toNat * 2 ^ 36
  [(0x00, [r.cause, BitVec.ofNat 8 strm, BitVec.ofNat 8 r.col.val, BitVec.ofNat 8 pend]),
   (0x08, leBytes 8 sfc.toNat), (0x10, leBytes 2 where_),
   (0x18, leBytes 4 b.apc.toNat), (0x1C, leBytes 4 b.mpc.toNat),
   (0x20, b.cols.toList.flatMap fun c => leBytes 4 c.pc.toNat),
   (0x30, leBytes 16 r.word.toNat), (0x40, leBytes 8 r.detail0.toNat ++ leBytes 8 r.detail1.toNat),
   (0x60, b.cols.toList.flatMap fun c => leBytes 8 (cst c)),
   (0x80, leBytes 8 (b01 b.aEnded + 2 * b01 b.mEnded + 4 * b.aPause.toNat)),
   (0x88, leBytes 8 (match b.unit with | some u => u.launch.toNat | none => 0)),
   (0x90, leBytes 4 (match b.unit with | some u => u.index.toNat | none => 0))]

/-- A column's block at 0x3000 + 0x1800 c. -/
def Column.saveBytes (c : Column) : List Byte :=
  words32 c.x.toList ++ leBytes 32 0 ++ (upTo 0 8).map (fun i => BitVec.ofNat 8 (b01 (bit c.p i))) ++
  leBytes 128 c.lx.toNat ++ c.o.toList.flatMap (fun v => leBytes 128 v.toNat) ++
  c.v.toList.flatMap (fun v => leBytes 128 v.toNat) ++ leBytes 512 0 ++ loopBytes c.loop0 c.loop1

/-- The bit c of byte b of the CCS block is column c's flag of bit b (R286). -/
def Bank.ccsByte (b : Bank) (i : Nat) : Byte :=
  BitVec.ofNat 8 ((upTo 0 4).foldl (fun n c => n + b01 (bit (b.cols.toList.getD c Column.reset).ccs i) * 2 ^ c) 0)

def sQueueBytes (l : List QEntry) : List Byte :=
  let v := l.flatMap fun e => leBytes 4 (e.val.toNat % 2 ^ 32)
  v ++ List.replicate (64 - v.length) 0
def vQueueBytes (l : List QEntry) : List Byte :=
  let v := l.flatMap fun e => leBytes 128 e.val.toNat
  v ++ List.replicate (1024 - v.length) 0

/-- The domain block at 0xC000. FILL, QLEN and DEPTH stand in DTAB among the control registers (R162). -/
def DomState.saveBytes (d : DomState) : List (Nat × List Byte) :=
  let run := d.run.getD { n := 0, limit := 0, pc := 0, delay := false, start := 0, word := 0 }
  [(0xC000, d.d.toList.flatMap fun r => leBytes 16 r.bits),
   (0xC200, d.table.flatMap fun e => leBytes 8 e.word),
   (0xC400, d.queue.map fun i => BitVec.ofNat 8 i),
   (0xC440, leBytes 2 run.n ++ leBytes 2 run.limit ++ [BitVec.ofNat 8 (b01 d.bnd)])] ++
  (d.stack.zipIdx.map fun x =>
    (0xC480 + 576 * x.2, x.1.d.toList.flatMap (fun r => leBytes 16 r.bits) ++ leBytes 4 x.1.fill ++
      leBytes 4 x.1.dstat.toNat ++ leBytes 8 (queueMask x.1.pending)))

/-- An entry of the replay list: 28 bytes of its 32 carry something, so that sixteen of them and the count fill the 512 bytes. -/
def replayBytes (o : AOp) : List Byte :=
  leBytes 8 o.va.toNat ++ leBytes 4 o.pc.toNat ++ [BitVec.ofNat 8 o.cls.val, BitVec.ofNat 8 o.fault] ++ leBytes 2 0 ++
    leBytes 8 o.id ++ leBytes 8 0

/-- What a trap or a pre-emption writes at offsets 0x0000-0xFFFF: pieces over a block of zeros (R286). -/
def Bank.saveChunks (b : Bank) (sfc : BitVec 48) (where_ : Nat) : List (Nat × List Byte) :=
  let seqBase := match b.inflight with | [] => 0 | f :: l => l.foldl (fun m x => min m x.seq) f.seq
  b.headerBytes sfc where_ ++
  [(0x100, b.a.toList.flatMap fun v => leBytes 8 v.toNat), (0x200, b.h.toList.flatMap fun v => leBytes 32 v.toNat)] ++
  ((upTo 0 256).filterMap fun n => (b.ctrl sfc n).map fun w => (0x400 + 4 * n, leBytes 4 w.toNat)) ++
  [(0x800, leBytes 4 b.replay.length), (0x804, ((b.replay.take 16).flatMap replayBytes).take 508),
   (0xA00, words32 b.k.toList ++ loopBytes b.mLoop0 b.mLoop1 ++ leBytes 4 (loopStat b.mLoop0 b.mLoop1).toNat),
   (0xA40, b.rings.toList.flatMap fun r =>
     match r with
     | some r => if r.cons == 2 then [BitVec.ofNat 8 r.clm, BitVec.ofNat 8 r.head, BitVec.ofNat 8 r.tail] else [0, 0, 0]
     | none => [0, 0, 0]),
   (0xB00, b.flags.toList.map fun f => BitVec.ofNat 8 (f.held + f.travel)),
   (0xB10, (upTo 0 8).map b.ccsByte),
   (0xB18, b.rings.toList.flatMap fun r => leBytes 8 (match r with | some r => r.word | none => 0)),
   (0xC00, (b.qsAX.toList ++ b.qsXA.toList).flatMap sQueueBytes),
   (0xE00, (b.qsAX.toList ++ b.qsXA.toList ++ b.qvAX.toList ++ b.qvXA.toList).map fun l => BitVec.ofNat 8 l.length),
   (0xE10, leBytes 4 (b.brq.zipIdx.foldl (fun n x => n + (x.1.val.toNat % 2) * 2 ^ x.2) 0) ++
     [BitVec.ofNat 8 b.brq.length]),
   (0x1000, (b.qvAX.toList ++ b.qvXA.toList).flatMap vQueueBytes)] ++
  (b.cols.toList.zipIdx.map fun x => (0x3000 + 0x1800 * x.2, x.1.saveBytes)) ++
  [(0x9000, leBytes 16 b.inflight.length), (0x9010, b.inflightSorted.flatMap (flightBytes b seqBase))] ++
  b.dom.saveBytes

/-- Write pieces over a run of zeros that starts at `base` (64 KiB). -/
def overlay (size : Nat) (chunks : List (Nat × List Byte)) : List Byte :=
  chunks.foldl (fun bs x => bs.take x.1 ++ (x.2 ++ bs.drop (x.1 + x.2.length))) (List.replicate size 0)

/-! ## The reload -/

/-- A domain register as the reload takes it: an empty set becomes {LO}, any other becomes canonical (R290). The set is
{LO + k | WIN[k], k ≤ min(63, HI − LO)} ∪ [LO + 64, HI] (R140). -/
def Dom.normal (d : Dom) : Dom :=
  let lo := d.lo.toInt
  let hi := d.hi.toInt
  let span := hi - lo
  let low : List Nat := (upTo 0 64).filter fun k => decide ((k : Int) ≤ span) && bit d.win k
  if low.isEmpty && decide (span < 64) then { lo := d.lo, hi := d.lo, win := 1 }
  else
    let mn : Int := match low with | k :: _ => lo + (k : Int) | [] => lo + 64
    let mx : Int := if span ≥ 64 then hi else lo + ((low.getLast?.getD 0 : Nat) : Int)
    let inSet (x : Int) : Bool :=
      decide (x ≥ lo + 64 ∧ x ≤ hi) || (decide (x ≥ lo ∧ x ≤ lo + 63) && low.contains (x - lo).toNat)
    let win : Nat := (upTo 0 64).foldl (fun (w k : Nat) =>
      if decide ((k : Int) ≤ mx - mn) && inSet (mn + (k : Int)) then w + 2 ^ k else w) 0
    { lo := BitVec.ofInt 32 mn, hi := BitVec.ofInt 32 mx, win := BitVec.ofNat 64 win }

/-- A ring value read back: what `rgcfg` would accept, with counts that fit (R290); none for an unconfigured ring. -/
def Ring.ofWord (old : Option Ring) (n : Nat) : Option (Option Ring) :=
  let count := n / 2 ^ 10 % 128
  if count == 0 then some none
  else
    let prod := n / 2 ^ 17 % 4
    let cons := n / 2 ^ 19 % 4
    let base := n % 1024
    let nclaim := n / 2 ^ 39 % 128
    let nfill := n / 2 ^ 46 % 128
    let nres := n / 2 ^ 53 % 128
    let clm := n / 2 ^ 21 % 64
    let head := n / 2 ^ 27 % 64
    let tail := n / 2 ^ 33 % 64
    if h : prod < 3 ∧ cons < 3 then
      if prod == cons || decide (count > 64) || decide (base + count > 768) || decide (nclaim + nfill + nres > count) ||
          decide (clm ≥ count) || decide (head ≥ count) || decide (tail ≥ count) then none
      else
        let res := match old with | some r => r.res.take nres | none => []
        some (some
          { prod := ⟨prod, h.1⟩, cons := ⟨cons, h.2⟩, count := count, base := base, clm := clm, head := head,
            tail := tail, nclaim := nclaim, nfill := nfill, nres := nres, res := res })
    else none

/-- A DST is legal for its KIND (R290): the destination specifiers of R27, and a predicate number; predicate 0 is the
model's carrier of a push without a result (log 14). -/
def dstLegal (kind dst : Nat) : Bool :=
  match kind with
  | 0 => decide (dst ≤ 0x3B) || (decide (0x40 ≤ dst) && decide (dst ≤ 0x4B))
  | 1 => decide (dst ≤ 0x1F) || (decide (0x40 ≤ dst) && decide (dst ≤ 0x4B))
  | _ => decide (dst ≤ 7)

/-- The save area as a number per place. -/
abbrev SaveRead := Nat → Nat → Nat

/-- A flight read back from its entry. -/
def readFlight (r : SaveRead) (xcycle nextSeq i : Nat) : Option Flight :=
  let at_ := 0x9010 + 144 * i
  let rem := (BitVec.ofNat 8 (r (at_ + 130) 1)).toInt
  let kind := r (at_ + 131) 1
  let dst := r (at_ + 128) 1
  let pu := r (at_ + 133) 1
  if decide (rem < -2) || decide (rem > 15) || decide (kind > 2) || !dstLegal kind dst then none
  else
    let push := if pu.testBit 4 then some (Fin.ofNat 16 pu) else none
    some
      { val := BitVec.ofNat 1024 (r at_ 128), dst := BitVec.ofNat 8 dst, col := Fin.ofNat 4 (r (at_ + 129) 1),
        kind := if kind == 0 then .scalar else if kind == 1 then .vector else .pred,
        land := ((xcycle : Int) + rem).toNat, fpf := BitVec.ofNat 5 (r (at_ + 132) 1), push := push,
        seq := nextSeq + r (at_ + 134) 2 }

/-- A loop level read back; whether it is active has no place in the save area and stays with the bank. -/
def readLoop (r : SaveRead) (at_ lev : Nat) (act : Bool) : LoopReg :=
  { lc := BitVec.ofNat 32 (r (at_ + 12 * lev) 4), ls := BitVec.ofNat 32 (r (at_ + 12 * lev + 4) 4),
    le := BitVec.ofNat 32 (r (at_ + 12 * lev + 8) 4), act := act }

def readColumn (r : SaveRead) (old : Column) (c : Nat) : Column :=
  let at_ := 0x3000 + 0x1800 * c
  let cs := r (0x60 + 8 * c) 8
  { x := Vector.ofFn fun i => if i.val = 0 then 0 else BitVec.ofNat 32 (r (at_ + 4 * i.val) 4),
    v := Vector.ofFn fun i => BitVec.ofNat 1024 (r (at_ + 1416 + 128 * i.val) 128),
    o := Vector.ofFn fun i => BitVec.ofNat 1024 (r (at_ + 392 + 128 * i.val) 128),
    lx := BitVec.ofNat 1024 (r (at_ + 264) 128),
    p := BitVec.ofNat 8 ((upTo 1 7).foldl (fun m i => m + (r (at_ + 256 + i) 1 % 2) * 2 ^ i) 1),
    pc := BitVec.ofNat 32 (r (0x20 + 4 * c) 4), ended := cs.testBit 34, brtgt := BitVec.ofNat 32 cs,
    brdly := BitVec.ofNat 2 (cs / 2 ^ 32), hold := BitVec.ofNat 12 (cs / 2 ^ 36),
    loop0 := readLoop r (at_ + 5512) 0 old.loop0.act, loop1 := readLoop r (at_ + 5512) 1 old.loop1.act,
    ccs := BitVec.ofNat 8 ((upTo 0 8).foldl (fun m b => m + (r (0xB10 + b) 1 / 2 ^ c % 2) * 2 ^ b) 0),
    ccsOld := BitVec.ofNat 8 ((upTo 0 8).foldl (fun m b => m + (r (0xB10 + b) 1 / 2 ^ c % 2) * 2 ^ b) 0),
    ccsNext := BitVec.ofNat 8 ((upTo 0 8).foldl (fun m b => m + (r (0xB10 + b) 1 / 2 ^ c % 2) * 2 ^ b) 0),
    wait := none, evalDue := old.evalDue && r (0x20 + 4 * c) 4 == old.pc.toNat }

/-- A queue read back: its entries keep their numbers and readiness where the count did not change. -/
def readQueue (r : SaveRead) (old : List QEntry) (at_ size n : Nat) : List QEntry :=
  (upTo 0 n).map fun i =>
    match old[i]? with
    | some e => { e with val := BitVec.ofNat 1024 (r (at_ + size * i) size) }
    | none => { id := 0, val := BitVec.ofNat 1024 (r (at_ + size * i) size), ready := true }

def readDom (r : SaveRead) (xcycle : Nat) (d : DomState) : DomState :=
  let tab := r (0x400 + 4 * 0x055) 4
  let nt := tab % 128
  let nq := tab / 2 ^ 8 % 128
  let ns := tab / 2 ^ 16 % 16
  let regs (at_ : Nat) : Vector Dom 32 := Vector.ofFn fun i => (Dom.ofBits (r (at_ + 16 * i.val) 16)).normal
  ({ d with
    d := regs 0xC000,
    table := (upTo 0 nt).map fun i => Standing.ofWord (r (0xC200 + 8 * i) 8),
    queue := (upTo 0 nq).map fun i => r (0xC400 + i) 1,
    stack := (upTo 0 ns).map fun i =>
      let at_ := 0xC480 + 576 * i
      { d := regs at_, fill := r (at_ + 512) 4, dstat := BitVec.ofNat 32 (r (at_ + 516) 4),
        pending := (upTo 0 64).filter fun k => (r (at_ + 520) 8).testBit k },
    run := d.run.map fun x => { x with n := r 0xC440 2, limit := r 0xC442 2, start := xcycle + r 0x60 8 / 2 ^ 36 % 4096 },
    bt := (r (0x400 + 4 * 0x051) 4).testBit 0,
    proplim := BitVec.ofNat 16 (r (0x400 + 4 * 0x052) 4),
    failpc := BitVec.ofNat 32 (r (0x400 + 4 * 0x053) 4),
    failcnt := BitVec.ofNat 32 (r (0x400 + 4 * 0x054) 4),
    drun := BitVec.ofNat 16 (r (0x400 + 4 * 0x056) 4) } : DomState).setDstat (BitVec.ofNat 32 (r (0x400 + 4 * 0x050) 4 / 8 * 8 + r (0x400 + 4 * 0x050) 4 % 4 + r 0xC444 1 % 2 * 4))

/-- No two rings share a tile (spec/10 R191). -/
def ringsApart : List Ring → Bool
  | [] => true
  | x :: l => l.all (fun y => decide (x.base + x.count ≤ y.base) || decide (y.base + y.count ≤ x.base)) && ringsApart l

/-- The checks of R290 on the counts of the saved image and on the section ends. -/
def saveOk (r : SaveRead) (u : UnitInfo) : Bool :=
  let xlen (c : Nat) : Nat := (u.xLen.toList.getD c 0).toNat
  let cs (c : Nat) : Nat := r (0x60 + 8 * c) 8
  (decide ((r 0x18 4) < u.aLen.toNat) || (r 0x80 8).testBit 0) &&
  (decide ((r 0x1C 4) < u.mLen.toNat) || (r 0x80 8).testBit 1) &&
  (upTo 0 4).all (fun c => (decide (r (0x20 + 4 * c) 4 < xlen c) || (cs c).testBit 34) && cs c / 2 ^ 32 % 4 != 3) &&
  decide (r 0x9000 16 ≤ 64) &&
  (upTo 0 (min 64 (r 0x9000 16))).all (fun i => (readFlight r 16 0 i).isSome) &&
  (upTo 0 16).all (fun f => decide (r (0xB00 + f) 1 ≤ 15)) &&
  (upTo 0 8).all (fun q => decide (r (0xE00 + q) 1 ≤ 16)) && (upTo 0 8).all (fun q => decide (r (0xE08 + q) 1 ≤ 8)) &&
  decide (r 0xE14 1 ≤ 32) &&
  (upTo 0 16).all (fun i => (Ring.ofWord none (r (0xB18 + 8 * i) 8)).isSome) &&
  ringsApart (upTo 0 16 |>.filterMap fun i => (Ring.ofWord none (r (0xB18 + 8 * i) 8)).getD none) &&
  decide (r (0x400 + 4 * 0x055) 4 % 128 ≤ 64) && decide (r (0x400 + 4 * 0x055) 4 / 2 ^ 8 % 128 ≤ 64) &&
  decide (r (0x400 + 4 * 0x055) 4 / 2 ^ 16 % 16 ≤ 8)

/-- The replay list as the save area gives it: an entry keeps what the area has no place for from the access of its number, and
takes its address and PC; one that the handler has taken out is not sent again. -/
def readReplay (r : SaveRead) (old : List AOp) : List AOp :=
  (upTo 0 (min 16 (r 0x800 4))).filterMap fun i =>
    let at_ := 0x804 + 32 * i
    (old.find? fun (o : AOp) => o.id == r (at_ + 16) 8).map fun (o : AOp) =>
      { o with
        va := BitVec.ofNat 64 (r at_ 8), pc := BitVec.ofNat 32 (r (at_ + 8) 4), cls := Fin.ofNat 8 (r (at_ + 12) 1)
        fault := r (at_ + 13) 1 }

/-- A ring read back. The positions of a ring that the M stream reads stand twice: a handler may change either copy, and the one
that differs from what the dump wrote is taken. -/
def readRing (r : SaveRead) (old : Option Ring) (i : Nat) : Option Ring :=
  match (Ring.ofWord old (r (0xB18 + 8 * i) 8)).getD none with
  | none => none
  | some x =>
    let pick (off was now : Nat) : Nat := if r (0xA40 + 3 * i + off) 1 == was then now else r (0xA40 + 3 * i + off) 1 % x.count
    match old with
    | some o =>
      if x.cons.val == 2 && o.cons.val == 2 then
        some { x with clm := pick 0 o.clm x.clm, head := pick 1 o.head x.head, tail := pick 2 o.tail x.tail }
      else some x
    | none => some x

/-- The bank as its save area gives it (R289): what the area holds replaces what the bank held. The barrier states are the Col
tree's, which go on while the unit is frozen (spec/12 R248, R249): the area's COLARR and COLREL are not read back (log 123). -/
def Bank.reload (b : Bank) (r : SaveRead) : Bank :=
  let ctl (n : Nat) : Nat := r (0x400 + 4 * n) 4
  let fl (q : Nat) : Nat := r (0xE00 + q) 1
  let ml := r (0xA00 + 56) 4
  let brq := (upTo 0 (r 0xE14 1)).map fun i =>
    match b.brq[i]? with
    | some e => { e with val := BitVec.ofNat 1024 (r 0xE10 4 / 2 ^ i % 2) }
    | none => { id := 0, val := BitVec.ofNat 1024 (r 0xE10 4 / 2 ^ i % 2), ready := true }
  let cols : Vector Column 4 := Vector.ofFn fun c => readColumn r (b.cols.get c) c.val
  let n := min 64 (r 0x9000 16)
  let xc := max b.xcycle 2
  { b with
    a := Vector.ofFn fun i => if i.val = 0 then 0 else BitVec.ofNat 64 (r (0x100 + 8 * i.val) 8),
    h := Vector.ofFn fun i => BitVec.ofNat 256 (r (0x200 + 32 * i.val) 32),
    k := Vector.ofFn fun i => BitVec.ofNat 32 (r (0xA00 + 4 * i.val) 4),
    sfcBase := BitVec.ofNat 48 (r 0x08 8), sfcSince := none,
    apc := BitVec.ofNat 32 (r 0x18 4), mpc := BitVec.ofNat 32 (r 0x1C 4),
    aEnded := (r 0x80 8).testBit 0, mEnded := (r 0x80 8).testBit 1, aPause := BitVec.ofNat 12 (r 0x80 8 / 4),
    aLoop0 := readLoop r (0x400 + 4 * 0x048) 0 ((ctl 0x04E).testBit 0),
    aLoop1 := readLoop r (0x400 + 4 * 0x048) 1 ((ctl 0x04E).testBit 1),
    mLoop0 := readLoop r (0xA00 + 32) 0 (ml.testBit 0), mLoop1 := readLoop r (0xA00 + 32) 1 (ml.testBit 1),
    aWait := none, mWait := none,
    fpctl := BitVec.ofNat 32 (ctl 0x020) &&& 0x1F03, sfchi := BitVec.ofNat 16 (ctl 0x041),
    waitbndA := BitVec.ofNat 20 (ctl 0x043), waitbndX := BitVec.ofNat 20 (ctl 0x044),
    waitbndM := BitVec.ofNat 20 (ctl 0x045), mergeTrap := (ctl 0x070).testBit 0, orderr := (ctl 0x070).testBit 1,
    orderrcnt := BitVec.ofNat 32 (ctl 0x071), cpiss := BitVec.ofNat 32 (ctl 0x072),
    cpstat := Vector.ofFn fun i => BitVec.ofNat 32 (ctl (0x078 + i.val)), oredseq := BitVec.ofNat 32 (ctl 0x093),
    flags := Vector.ofFn fun i =>
      let n := r (0xB00 + i.val) 1
      let t := min (b.flags.get i).travel n
      { (b.flags.get i) with held := n - t, travel := t },
    rings := Vector.ofFn fun i => readRing r (b.rings.get i) i.val,
    replay := readReplay r b.replay,
    qsAX := Vector.ofFn fun i => readQueue r (b.qsAX.get i) (0xC00 + 64 * i.val) 4 (fl i.val),
    qsXA := Vector.ofFn fun i => readQueue r (b.qsXA.get i) (0xD00 + 64 * i.val) 4 (fl (4 + i.val)),
    qvAX := Vector.ofFn fun i => readQueue r (b.qvAX.get i) (0x1000 + 1024 * i.val) 128 (fl (8 + i.val)),
    qvXA := Vector.ofFn fun i => readQueue r (b.qvXA.get i) (0x2000 + 1024 * i.val) 128 (fl (12 + i.val)),
    brq := brq, cols := cols, xcycle := xc,
    inflight := sortBy (fun (x y : Flight) => decide (x.seq < y.seq)) ((upTo 0 n).filterMap fun i => readFlight r xc b.nextSeq i)
    nextSeq := b.nextSeq + 65536,
    dom := readDom r xc b.dom }

end Sys2Proof.Machine
end

