-- ==== Sys2Proof/Machine/Translate.lean ====
section
/-! DEFINITION. Machine/Translate.lean: virtual addresses, page tables and the memory-side TLB (spec/09). -/
namespace Sys2Proof.Machine
open Sys2Proof

/-- OWNER and OFFSET of a virtual address (R163). -/
def vaOwner (va : Nat) : Nat := va / 2 ^ 53 % 16
def vaOffset (va : Nat) : Nat := va % 2 ^ 53
def canonical (va : Nat) : Bool := decide (va < 2 ^ 57)
def mkVA (owner off : Nat) : Nat := owner * 2 ^ 53 + off

/-- The key of a device byte in `State.hbm`. -/
def hbmKey (d : Fin 8) (pa : Nat) : Nat := d.val * 2 ^ 40 + pa

/-- Bytes of memory of one die: 96 GB, GB being decimal (spec/00 R1, R3; log 13). -/
def dieBytes : Nat := 96000000000

/-- Fault kind codes (R171). -/
def fltNotPresent : Nat := 1
def fltWriteProt : Nat := 2
def fltBadPte : Nat := 3
def fltHostNoxl : Nat := 4

/-- What a translation gives: a page with its attributes (bits 8:0 of the leaf), or a fault kind. -/
inductive Xlat where
  | page (base size pa : Nat) (attr : BitVec 9)
  | fault (kind : Nat)
  deriving DecidableEq, Repr

/-- The leaf of a level with its page size, checked by R167; the whole page lies within the die. -/
def leafXlat (off e shift : Nat) (level : Nat) : Xlat :=
  let pa := e / 2 ^ 16 * 2 ^ 16
  let size := 2 ^ shift
  if level == 3 || e.testBit 2 || e / 2 ^ 9 % 128 != 0 || e / 8 % 4 == 3 || pa % size != 0 ||
      decide (dieBytes < pa + size)
  then .fault fltBadPte
  else .page (off / size * size) size pa (BitVec.ofNat 9 e)

/-- Entry shift, index width and table alignment of the levels below the root, in walk order (R166). -/
def walkLevels : List (Nat × Nat × Nat × Nat) := [(2, 30, 9, 4096), (1, 21, 9, 4096), (0, 16, 5, 256)]

/-- What an entry at a level says: a fault or a leaf at once, or the next table; the entry itself lies within the die (R167). -/
def walkEntry (m : Memory) (d : Fin 8) (off table level shift width : Nat) : Xlat ⊕ Nat :=
  let at_ := table + 8 * (off / 2 ^ shift % 2 ^ width)
  let e := m.readLE (hbmKey d at_) 8
  if decide (dieBytes < at_ + 8) then .inl (.fault fltBadPte)
  else if !e.testBit 0 then .inl (.fault fltNotPresent)
  else if e.testBit 1 then .inl (leafXlat off e shift level)
  else if e / 4 % 64 != 0 then .inl (.fault fltBadPte)
  else .inr (e / 256 * 256)

/-- The rest of a walk: the table at `table`, then the levels left. -/
def walkFrom (m : Memory) (d : Fin 8) (off : Nat) :
    Nat → Nat → Nat → Nat → List (Nat × Nat × Nat × Nat) → Xlat
  | table, level, shift, width, [] =>
    match walkEntry m d off table level shift width with
    | .inl r => r
    | .inr _ => .fault fltBadPte
  | table, level, shift, width, (l, sh, w, al) :: rest =>
    match walkEntry m d off table level shift width with
    | .inl r => r
    | .inr next =>
      if next % al != 0 then .fault fltBadPte else walkFrom m d off next l sh w rest

/-- A walk of a die's tables (R166, R167); a zero root has no tables (R179). -/
def walk (m : Memory) (d : Fin 8) (root : Word) (off : Nat) : Xlat :=
  if root == 0 then .fault fltNotPresent
  else walkFrom m d off (root.toNat * 2 ^ 17) 3 39 14 walkLevels

/-- The TLB entry a lookup uses: the smaller one when two match (R170). -/
def tlbLookup (t : List TlbEntry) (off : Nat) : Option TlbEntry :=
  (t.filter fun e => decide (e.base ≤ off) && decide (off < e.base + e.size)).foldl
    (fun r e => match r with | none => some e | some x => if e.size < x.size then some e else some x) none

/-- Translation at the owner: the TLB, else the tables. -/
def xlatDie (t : List TlbEntry) (m : Memory) (d : Fin 8) (root : Word) (off : Nat) : Xlat :=
  match tlbLookup t off with
  | some e => .page e.base e.size e.pa e.attr
  | none => walk m d root off

/-- Attribute fields of a leaf (R167). -/
def attrWR (a : BitVec 9) : Bool := a.getLsbD 8
def attrIRR (a : BitVec 9) : Bool := a.getLsbD 6
def attrC (a : BitVec 9) : Bool := a.getLsbD 5
/-- Ordering kind: 0 SO, 1 RC, 2 UO (R167, R168). -/
def attrKind (a : BitVec 9) : Nat := a.toNat / 8 % 4

/-- Where a translated byte lies: device memory, host memory, or a peer's aperture. -/
inductive Loc where
  | dev (d : Fin 8) (pa : Nat) (attr : BitVec 9)
  | host (addr : Nat) (wr : Bool)
  | peer (a : Nat) (off : Nat)
  | fault (kind : Nat)
  deriving DecidableEq, Repr

end Sys2Proof.Machine
end

