-- ==== Sys2Proof/Machine/Ops.lean ====
section
/-! DEFINITION. Machine/Ops.lean: the named operations over the state: places, the agenda, free values, units, tokens and
queues, the edge of a trap and the return from one. -/
namespace Sys2Proof.Machine
open Sys2Proof

/-! ## Places -/

def Core.bank (c : Core) (k : Fin 3) : Bank := c.banks.get k
def Core.setBank (c : Core) (k : Fin 3) (b : Bank) : Core := { c with banks := c.banks.set k.val b k.isLt }

def State.core (s : State) (g : Fin 512) : Core := s.cores.get g
def State.setCore (s : State) (g : Fin 512) (c : Core) : State := { s with cores := s.cores.set g.val c g.isLt }
def State.modCore (s : State) (g : Fin 512) (f : Core → Core) : State := s.setCore g (f (s.core g))
def State.bank (s : State) (g : Fin 512) (k : Fin 3) : Bank := (s.core g).bank k
def State.setBank (s : State) (g : Fin 512) (k : Fin 3) (b : Bank) : State := s.modCore g fun c => c.setBank k b
def State.modBank (s : State) (g : Fin 512) (k : Fin 3) (f : Bank → Bank) : State := s.setBank g k (f (s.bank g k))
def State.cluster (s : State) (c : Fin 64) : Cluster := s.clusters.get c
def State.modCluster (s : State) (c : Fin 64) (f : Cluster → Cluster) : State :=
  { s with clusters := s.clusters.set c.val (f (s.cluster c)) c.isLt }
def State.die (s : State) (d : Fin 8) : Die := s.dies.get d
def State.modDie (s : State) (d : Fin 8) (f : Die → Die) : State :=
  { s with dies := s.dies.set d.val (f (s.die d)) d.isLt }
def State.part (s : State) (p : Fin 8) : Part := s.parts.get p
def State.modPart (s : State) (p : Fin 8) (f : Part → Part) : State :=
  { s with parts := s.parts.set p.val (f (s.part p)) p.isLt }
def State.modJob (s : State) (p : Fin 8) (f : Job → Job) : State :=
  s.modPart p fun q => { q with job := q.job.map f }
def State.modDev (s : State) (f : Device → Device) : State := { s with dev := f s.dev }

/-- Die, cluster and place in the cluster of a core (spec/00 R2). -/
def dieOf (g : Fin 512) : Fin 8 := ⟨g.val / 64, by omega⟩
def clusterOf (g : Fin 512) : Fin 64 := ⟨g.val / 8, by omega⟩
def inCluster (g : Fin 512) : Fin 8 := ⟨g.val % 8, by omega⟩
/-- Core number 8 × logical cluster + core within its die. -/
def inDie (g : Fin 512) : Nat := g.val % 64
def coreAt (c : Fin 64) (i : Fin 8) : Fin 512 := ⟨8 * c.val + i.val, by omega⟩

/-- The partition a die belongs to (spec/05 R74). -/
def State.partOfDie (s : State) (d : Fin 8) : Option (Fin 8) :=
  (List.finRange 8).find? fun p => p.val ≤ d.val && decide (d.val < p.val + (s.part p).ndies)

/-- The die of a rank of a partition (spec/05 R74). -/
def State.dieOfRank (s : State) (p : Fin 8) (r : Nat) : Option (Fin 8) :=
  if h : r < (s.part p).ndies ∧ p.val + r < 8 then some ⟨p.val + r, h.2⟩ else none

/-! ## Locating a byte of global memory -/

/-- The translation of an offset of a die (spec/09 R169). -/
def State.xlat (s : State) (d : Fin 8) (off : Nat) : Xlat :=
  xlatDie (s.die d).tlb s.hbm d (s.die d).xlatroot off

/-- The PASID of a partition's job. -/
def State.pasid (s : State) (p : Fin 8) : BitVec 20 := match (s.part p).job with | some j => j.pasid | none => 0

/-- Where the byte at a virtual address lies for a partition's job (spec/09 R163-R165). -/
def State.locate (s : State) (p : Fin 8) (va : Nat) : Loc :=
  let o := vaOwner va
  if o < 8 then
    match s.dieOfRank p o with
    | none => .fault fltNotPresent
    | some d =>
      match s.xlat d (vaOffset va) with
      | .page base _ pa attr => .dev d (pa + (vaOffset va - base)) attr
      | .fault k => .fault k
  else if o == 8 then
    match Config.atsReply s.dev.atsEpoch (s.pasid p) (vaOffset va / 4096) with
    | some (base, _, wr) => .host (base + vaOffset va % 4096) wr
    | none => .fault fltHostNoxl
  else .peer (o - 9) (vaOffset va)

/-- The aperture of an owner is bound (spec/09 R164, spec/23 R340). -/
def State.ownerOk (s : State) (p : Fin 8) (va : Nat) : Bool :=
  let o := vaOwner va
  if o < 8 then decide (o < (s.part p).ndies)
  else if o == 8 then true
  else if h : o - 9 < 7 then ((s.part p).apertures[o - 9]).valid else false

/-- The byte that a held line has at a virtual address. -/
def heldByte (held : List HeldLine) (va : Nat) : Option Byte :=
  (held.findSome? fun h => if h.line == va / 64 then h.bytes.find? fun x => x.1 == va % 64 else none).map fun x => x.2

/-- A device reads a byte of global memory: a held line's bytes lie over the destination's (spec/21 R317). A byte stands in one held
line at most, since a later write takes it from the lines of the other dies. -/
def State.readLoc (s : State) (held : List HeldLine) (va : Nat) (l : Loc) : Byte :=
  let mem := match l with
    | .dev d pa _ => s.hbm.read (hbmKey d pa)
    | .host a _ => s.host.read a
    | .peer a off => Config.peerByte a off
    | .fault _ => 0
  (heldByte held va).getD mem

/-- Held lines of a partition on every die: what any device read sees (spec/21 R317). -/
def State.heldLines (s : State) (p : Fin 8) : List HeldLine := s.dies.toList.flatMap fun d => d.hold.filter fun h => h.part == p

/-- A device agent's plain read of a byte, 0 where it does not translate. -/
def State.gread (s : State) (p : Fin 8) (va : Nat) : Byte := s.readLoc (s.heldLines p) va (s.locate p va)

/-- `n` bytes of global memory as a device agent reads them. -/
def State.greadN (s : State) (p : Fin 8) (va n : Nat) : List Byte := (upTo va n).map fun a => s.gread p a

def State.greadLE (s : State) (p : Fin 8) (va n : Nat) : Nat := leNat (s.greadN p va n)

/-- Every byte of a run translates (a missing page, or no write permission when `wr`, is named by its kind). -/
def State.gfault (s : State) (p : Fin 8) (va n : Nat) (wr : Bool) : Option Nat :=
  (upTo va n).foldl (fun r a =>
    match r with
    | some k => some k
    | none =>
      match s.locate p a with
      | .fault k => some k
      | .dev _ _ at_ => if wr && !attrWR at_ then some fltWriteProt else none
      | .host _ w => if wr && !w then some fltWriteProt else none
      | .peer _ _ => none) none

/-- An untagged write of one byte by a device unit (spec/21 R311); nothing where it does not translate. -/
def State.rawWrite (s : State) (p : Fin 8) (va : Nat) (b : Byte) : State :=
  match s.locate p va with
  | .dev d pa _ => { s with hbm := s.hbm.write (hbmKey d pa) b }
  | .host a _ => { s with host := s.host.write a b }
  | _ => s

/-- Untagged writes of bytes from an address up. -/
def State.rawWriteN (s : State) (p : Fin 8) (va : Nat) (bs : List Byte) : State :=
  (bs.zipIdx).foldl (fun s x => s.rawWrite p (va + x.2) x.1) s

/-! ## Agenda and free values -/

/-- Put a step on the agenda for a cycle, after those already due then. -/
def State.scheduleAt (s : State) (t : Nat) (i : Instr) (a : EvArgs) : State :=
  { s with agenda := insertBy (fun x y => decide (x.at_ < y.at_)) { at_ := t, what := i, args := a } s.agenda }

/-- Put a step on the agenda `n` core cycles from now. -/
def State.schedule (s : State) (n : Nat) (i : Instr) (a : EvArgs) : State := s.scheduleAt (s.cycle + n) i a

/-- Take steps off the agenda. -/
def State.unschedule (s : State) (p : Due → Bool) : State := { s with agenda := s.agenda.filter fun x => !p x }

/-- Advance the free-value counter; the value used is the counter before it (log 3). -/
def State.useFree (s : State) : State := { s with free := s.free + 1 }

/-- Arguments of a step that names a place. -/
def EvArgs.at (g : Fin 512) (k : Fin 3) : EvArgs := { EvArgs.zero with g := g, k := k }
def EvArgs.ofDie (d : Fin 8) : EvArgs := { EvArgs.zero with d := d }
def EvArgs.ofPart (p : Fin 8) : EvArgs := { EvArgs.zero with p := p }

def State.how (s : State) (h : How) : State := { s with turn := { s.turn with how := h } }

/-! ## Units -/

def Bank.detm (b : Bank) : Bool := match b.unit with | some u => u.detm | none => false
def Bank.part (b : Bank) : Fin 8 := match b.unit with | some u => u.part | none => 0

/-- The partition of the core a bank belongs to; the system context serves the bank whose trap it handles. -/
def State.partAt (s : State) (g : Fin 512) : Fin 8 := (s.partOfDie (dieOf g)).getD 0

/-- SFC of a bank: the core cycles in which it has been active (spec/06 R109). -/
def State.sfc (s : State) (b : Bank) : BitVec 48 :=
  match b.sfcSince with
  | some t => b.sfcBase + BitVec.ofNat 48 (s.cycle - t)
  | none => b.sfcBase

/-- Stop and start the SFC count of a bank. -/
def Bank.holdSfc (b : Bank) (now : Nat) : Bank :=
  match b.sfcSince with
  | some t => { b with sfcBase := b.sfcBase + BitVec.ofNat 48 (now - t), sfcSince := none }
  | none => b

def Bank.runSfc (b : Bank) (now : Nat) : Bank :=
  match b.sfcSince with
  | some _ => b
  | none => { b with sfcSince := some now }

/-! ## Token flags (spec/01 R17, spec/02 R28) -/

def streamCode : Stream → Nat | .a => 0 | .x => 1 | .m => 2

/-- A flag is bound with both codes other than 3. -/
def Bank.binding (b : Bank) (f : Fin 16) : Nat × Nat :=
  match b.unit with
  | some u => (field u.flagBind (4 * f.val) 2, field u.flagBind (4 * f.val + 2) 2)
  | none => (3, 3)

def Bank.produces (b : Bank) (st : Stream) (f : Option (Fin 16)) : Bool :=
  match f with | none => true | some f => b.binding f == (streamCode st, (b.binding f).2) && (b.binding f).2 != 3
def Bank.consumes (b : Bank) (st : Stream) (f : Option (Fin 16)) : Bool :=
  match f with | none => true | some f => b.binding f == ((b.binding f).1, streamCode st) && (b.binding f).1 != 3

def Bank.flag (b : Bank) (f : Fin 16) : FlagSt := b.flags.get f
def Bank.modFlag (b : Bank) (f : Fin 16) (u : FlagSt → FlagSt) : Bank :=
  { b with flags := b.flags.set f.val (u (b.flag f)) f.isLt }

/-- The wait token is there. -/
def Bank.hasToken (b : Bank) (f : Option (Fin 16)) : Bool :=
  match f with | none => true | some f => decide (0 < (b.flag f).held)

/-- Room for one more push: held, travelling and owed tokens stay within 15 (log 8). -/
def Bank.hasRoom (b : Bank) (f : Option (Fin 16)) : Bool :=
  match f with
  | none => true
  | some f => decide ((b.flag f).held + (b.flag f).travel + (b.flag f).owed < 15)

def Bank.popToken (b : Bank) (f : Option (Fin 16)) : Bank :=
  match f with | none => b | some f => b.modFlag f fun t => { t with held := t.held - 1 }

/-- The word has issued and owes its push. -/
def Bank.owe (b : Bank) (f : Option (Fin 16)) : Bank :=
  match f with | none => b | some f => b.modFlag f fun t => { t with owed := t.owed + 1 }

/-- A retired word pushes: the token travels two core cycles (spec/06 R104). -/
def State.pushToken (s : State) (g : Fin 512) (k : Fin 3) (f : Option (Fin 16)) : State :=
  match f with
  | none => s
  | some f =>
    (s.modBank g k fun b => b.modFlag f fun t => { t with owed := t.owed - 1, travel := t.travel + 1 }).schedule 2
      .tokenPoppable { EvArgs.at g k with n := f.val }

/-- A word that ends without retiring owes nothing any more (spec/06 R357). -/
def Bank.unowe (b : Bank) (f : Option (Fin 16)) : Bank :=
  match f with | none => b | some f => b.modFlag f fun t => { t with owed := t.owed - 1 }

/-! ## Queues (spec/06 R108); ports 0-3 scalar, 4-7 vector, 8 the branch-outcome queue (A→X only) -/

def Bank.qAX (b : Bank) (q : Nat) : List QEntry :=
  if h : q < 4 then b.qsAX[q] else if h : q - 4 < 4 then b.qvAX[q - 4] else b.brq
def Bank.qXA (b : Bank) (q : Nat) : List QEntry :=
  if h : q < 4 then b.qsXA[q] else if h : q - 4 < 4 then b.qvXA[q - 4] else []
def Bank.setQAX (b : Bank) (q : Nat) (l : List QEntry) : Bank :=
  if h : q < 4 then { b with qsAX := b.qsAX.set q l }
  else if h : q - 4 < 4 then { b with qvAX := b.qvAX.set (q - 4) l } else { b with brq := l }
def Bank.setQXA (b : Bank) (q : Nat) (l : List QEntry) : Bank :=
  if h : q < 4 then { b with qsXA := b.qsXA.set q l }
  else if h : q - 4 < 4 then { b with qvXA := b.qvXA.set (q - 4) l } else b

/-- Depth of a queue: 16 scalar entries, 8 vector entries, 32 branch outcomes (port 8). -/
def qDepth (q : Nat) : Nat := if q < 4 then 16 else if q < 8 then 8 else 32

def headReady (l : List QEntry) : Bool := match l with | e :: _ => e.ready | [] => false
def headVal (l : List QEntry) : Vec := match l with | e :: _ => e.val | [] => 0

/-- Take a place in an A→X queue at issue; the entry is filled and becomes poppable later (spec/10 R196). -/
def Bank.reserveAX (b : Bank) (q : Nat) (v : Vec) : Bank :=
  { b.setQAX q (b.qAX q ++ [{ id := b.nextId, val := v, ready := false }]) with nextId := b.nextId + 1 }

/-- A retired A push becomes poppable four core cycles later (spec/06 R104). -/
def State.landAX (s : State) (g : Fin 512) (k : Fin 3) (q id : Nat) (v : Vec) : State :=
  (s.modBank g k fun b => b.setQAX q (updateFirst (fun e => e.id == id) (fun e => { e with val := v }) (b.qAX q))).schedule
    4 .queueEntryPoppable { EvArgs.at g k with n := q, id := id }

/-- A landed X push becomes poppable four core cycles later. -/
def State.pushXA (s : State) (g : Fin 512) (k : Fin 3) (q : Nat) (v : Vec) : State :=
  let id := (s.bank g k).nextId
  (s.modBank g k fun b => { b.setQXA q (b.qXA q ++ [{ id := id, val := v, ready := false }]) with
    nextId := b.nextId + 1, px := b.px + 1 }).schedule 4 .queueEntryPoppable { EvArgs.at g k with n := 16 + q, id := id }

/-! ## Waits and the turn -/

/-- Objects of waits that R111 does not bound: the interlock, a scratchpad conflict, a propagation run, a wait for owner
points or confirmations, an undo or hold stall. They tell the classes of spec/22 R328 apart. -/
def wInterlock : Nat := 256
def wConflict : Nat := 257
def wRun : Nat := 258
def wOwner : Nat := 259
def wUndo : Nat := 260

/-- A word that cannot issue: its wait is kept, or begins now, with its object (spec/06 R111); objects from 256 on are no
bounded waits. -/
def State.stall (s : State) (obj : Nat) (detail : DWord) : State :=
  let g := s.turn.core
  let k := s.turn.ctx
  let upd (w : Option Waiting) : Option Waiting :=
    some { since := match w with | some x => x.since | none => s.cycle, obj := obj, detail := detail }
  let s := match s.turn.stream with
    | .a => s.modBank g k fun b => { b with aWait := upd b.aWait }
    | .m => s.modBank g k fun b => { b with mWait := upd b.mWait }
    | .x => s.modBank g k fun b => b.modCol s.turn.col fun c => { c with wait := upd c.wait }
  s.how .stalled

/-- A column that presents but holds (spec/06 R105, R106). -/
def State.holdWord (s : State) (obj : Nat) (detail : DWord) : State := (s.stall obj detail).how .holding

/-! ## Rings in host memory and the trace (spec/22 R330, spec/23 R338) -/

/-- Put 32 bytes into a ring of the partition; false when the ring is full or not registered. -/
def State.ringPut (s : State) (p : Fin 8) (get : Part → HostRing) (set : Part → HostRing → Part) (bs : List Byte) :
    State × Bool :=
  let r := get (s.part p)
  if r.log = 0 || decide ((r.tail - r.head).toNat ≥ 2 ^ r.log) then (s, false)
  else
    let s := s.rawWriteN p (r.base.toNat + 32 * (r.tail.toNat % 2 ^ r.log)) bs
    (s.modPart p fun q => set q { get q with tail := (get q).tail + 1 }, true)

/-- The fields of a trace record (R330). -/
def traceBits (sfc where_ core kind queue pc d0 d1 : Nat) : BitVec 256 :=
  BitVec.ofNat 256 (sfc % 2 ^ 48 + where_ * 2 ^ 48 + core * 2 ^ 56 + kind * 2 ^ 64 + queue * 2 ^ 72 + pc * 2 ^ 96 +
    d0 * 2 ^ 128 + d1 * 2 ^ 192)

/-- Records a die's trace buffer holds: 4 MiB of 32 bytes. -/
def traceDepth : Nat := 131072

/-- Move a die's buffered trace records to the host ring as far as it has room. -/
def State.traceDrain (s : State) (p d : Fin 8) : List (BitVec 256) → State
  | [] => s.modDie d fun x => { x with trace := [] }
  | r :: l =>
    match s.ringPut p (fun q => q.trc) (fun q t => { q with trc := t }) (leBytes 32 r.toNat) with
    | (s, true) => State.traceDrain s p d l
    | (s, false) => s.modDie d fun x => { x with trace := r :: l }

/-- A trace record of a die: kept while the buffer has room, after a LOST record when some were dropped (R330). -/
def State.traceRecord (s : State) (p d : Fin 8) (r : BitVec 256) : State :=
  let x := s.die d
  let lost : List (BitVec 256) :=
    if x.traceLost = 0 then []
    else [traceBits (s.cycle - (s.part p).startedAt) (d.val - p.val + 0x30) 255 9 0 0 x.traceLost 0]
  let s :=
    if x.trace.length + lost.length < traceDepth then
      s.modDie d fun x => { x with trace := x.trace ++ lost ++ [r], traceLost := 0 }
    else s.modDie d fun x => { x with traceLost := x.traceLost + 1 }
  s.traceDrain p d (s.die d).trace

/-- An event of a unit, recorded when its queue is traced. -/
def State.traceAt (s : State) (g : Fin 512) (k : Fin 3) (stream col kind : Nat) (pc : Word) (d0 d1 : DWord) : State :=
  let b := s.bank g k
  match b.unit with
  | none => s
  | some u =>
    let q := s.part u.part
    if q.trcOpen && u.queue == q.trcQueue then
      let rank := (dieOf g).val - u.part.val
      s.traceRecord u.part (dieOf g)
        (traceBits (s.sfc b).toNat (rank + stream * 16 + col * 64) (inDie g) kind u.queue.val pc.toNat d0.toNat d1.toNat)
    else s

/-! ## Provenance (spec/11 R236, spec/22 R331) -/

/-- One record of a die's provenance log, dropped and counted when the log is full. -/
def State.provRecord (s : State) (d : Fin 8) (r : BitVec 256) : State :=
  s.modDie d fun x =>
    if decide (x.prov.length < 65536) then { x with prov := x.prov ++ [r], provTail := x.provTail + 1 }
    else { x with provDrop := if x.provDrop == BitVec.allOnes 32 then x.provDrop else x.provDrop + 1 }

/-- The fields of a provenance record (R236). `strm` is byte 6 without the die rank. -/
def provBits (sfc rank strm core pc kind step fmts acc row col i n : Nat) : BitVec 256 :=
  BitVec.ofNat 256 (sfc % 2 ^ 48 + (rank + strm) * 2 ^ 48 + core * 2 ^ 56 + pc * 2 ^ 64 + kind * 2 ^ 96 + step * 2 ^ 104 +
    fmts * 2 ^ 112 + acc * 2 ^ 120 + row * 2 ^ 128 + col * 2 ^ 160 + i * 2 ^ 192 + n * 2 ^ 200)

/-! ## The end of a lease (spec/11 R212) -/

/-- The first requesting core after a holder, the holder last. -/
def Cluster.nextHolder (c : Cluster) (last : Fin 8) : Option (Fin 8) :=
  ((List.finRange 8).map fun j => last + 1 + j).find? fun i => bit c.requests i.val

/-- The lease of a cluster ends: the next requester takes it two core cycles later. -/
def State.leaseEnds (s : State) (cl : Fin 64) : State :=
  match (s.cluster cl).holder with
  | none => s
  | some h =>
    let s := s.modCluster cl fun c => { c with holder := none, last := h }
    match (s.cluster cl).nextHolder h with
    | none => s
    | some i => s.schedule 2 .leaseGrant { EvArgs.zero with cl := cl, n := i.val }

/-- A core asks no more for the lease, and the lease it holds ends. -/
def State.endLease (s : State) (g : Fin 512) : State :=
  let cl := clusterOf g
  let s := s.modCluster cl fun c => { c with requests := setBit c.requests (inCluster g).val false }
  if (s.cluster cl).holder == some (inCluster g) then s.leaseEnds cl else s

/-! ## Stopping a unit (spec/01 R13, spec/18 R294) -/

/-- The streams of a unit stop on this edge with a status: results in flight are discarded, outstanding loads and
atomics write no register, no push that is still to come happens, the rings become unconfigured and a run is abandoned.
Stores, atomics and reductions still reach their places, and array commands are abandoned after the K-step in progress. Copy
commands run on where the rule says so (`run`: a trap without a handler and `halt`, R282, R294), else they stop at their next row
boundary. -/
def State.stopWith (s : State) (run : Bool) (g : Fin 512) (k : Fin 3) (status : Nat) (reason : Byte) : State :=
  let keep (o : AOp) : AOp := { o with dst := .none, push := none }
  let lands (o : AOp) : Bool := match o.body with | .load _ => o.performed | .gather _ => false | _ => true
  let s := s.modBank g k fun b =>
    { b.holdSfc s.cycle with
      aEnded := true, mEnded := true, xEnded := true, left := 0,
      cols := b.cols.map fun c => { c with ended := true, wait := none, evalDue := false },
      inflight := [], xstores := [], xsysw := [], aWait := none, mWait := none, aHold := .free,
      ops := (b.ops.filter lands).map keep, replay := (b.replay.filter fun o => lands o && o.answer != some false).map keep,
      evops := b.evops.map fun e => { e with push := none }, pending := [],
      rings := Vector.replicate 16 none, dom := { b.dom with run := none, queue := [], trapDue := none },
      status := max b.status status, reason := if b.status < status then reason else b.reason,
      trap := none, st := .ready }
  let s := s.modCore g fun c =>
    { c with rot := c.rot.map fun x => if x.bank == k then { x with push := none } else x }
  let mine (c : CopyCmd) : Bool := c.src == some (g, (⟨k.val % 2, by omega⟩ : Fin 2)) &&
    (c.st == .queued || c.st == .running || c.st == .stalled || c.st == .finished)
  let atEdge (c : CopyCmd) : Bool := mine c && !run && c.st != .running
  let stops := (s.die (dieOf g)).copies.filter atEdge
  let s := s.modDie (dieOf g) fun d =>
    { d with copies := d.copies.map fun (c : CopyCmd) =>
        if mine c then
          { c with
            st := if atEdge c then .failed 6 else c.st, stopping := !run, push := none, ring := none, hb := false }
        else c }
  let s := stops.foldl (fun (s : State) (c : CopyCmd) =>
    s.schedule 0 .copyCommandComplete { EvArgs.ofDie (dieOf g) with id := c.id }) s
  let s := s.modCluster (clusterOf g) fun c =>
    { c with
      cmds := c.cmds.filterMap fun a =>
        if a.core == g && a.bank.val == k.val then
          (if a.op == .mul && decide (a.landed < a.begun) && !a.retired then some { a with ksteps := a.begun, lastBegun := true, push := none } else none)
        else some a }
  let s := if (s.core g).active.val == k.val then s.endLease g else s
  let s := if (s.bank g k).replay.isEmpty then s else s.schedule 0 .replayListResend (EvArgs.at g k)
  (s.schedule 0 .arrayCommandStart { EvArgs.zero with cl := clusterOf g, flag := true }).schedule 1 .unitCompletion (EvArgs.at g k)

/-- The stop of a unit by a cancel or a containment. -/
def State.stopUnit (s : State) (g : Fin 512) (k : Fin 3) (status : Nat) (reason : Byte) : State :=
  s.stopWith false g k status reason

/-! ## Taking a trap (spec/00 R10, spec/18 R282-R285) -/

/-- The system context ends: its registers are cleared, and its issued stores go on to their places. -/
def Bank.endSystem (b : Bank) : Bank :=
  { Bank.reset with
    nextId := b.nextId,
    ops := (b.ops.filter fun o => match o.body with | .load _ => false | .gather _ => false | _ => true).map
      fun o => { o with dst := .none, push := none } }

/-- A trap inside the system context: the trapped unit completes with fault and the system context ends (R283). -/
def State.endHandler (s : State) (g : Fin 512) (cause : Byte) : State :=
  match (s.core g).handling with
  | none => s
  | some k =>
    let s := s.modCore g fun c => { (c.setBank 2 (c.bank 2).endSystem) with handling := none }
    s.stopWith true g (k.castLE (by decide)) 2 cause

/-- The woken execution in progress ends before another event takes effect, at most one core cycle later (spec/08 R156): its
cycles count in SFC. -/
def State.endExec (s : State) (g : Fin 512) (k : Fin 3) : State :=
  let mine (x : Due) : Bool := x.what == .propagationRun && x.args.g == g && x.args.k == k
  match s.agenda.find? mine with
  | none => s
  | some x =>
    (s.unschedule mine).modBank g k fun b => { b.woken with sfcBase := b.sfcBase + BitVec.ofNat 48 (x.at_ - s.cycle - 1) }

/-- Loop evaluations that domain syllables owe, and that no run holds back, are made before the edge (spec/08 R143). -/
def Bank.settleCols (b : Bank) : Bank := if b.dom.run.isSome then b else { b with cols := b.cols.map Column.settle }

/-- What a trap record names: the stream, column, word and PC of the trap, its cause and its details. -/
structure Edge where
  st : Stream
  col : Fin 4
  word : BitVec 128
  pc : Word
  cause : Byte
  d0 : DWord
  d1 : DWord
  deriving DecidableEq, Repr

/-- The trap edge. The bank freezes with its record, SCAUSE takes the cause, SFC stops, the other bank does not issue, and
the handler starts 264 core cycles later at the earliest (R282). In the system context it is a double trap (R283). -/
def State.edge (s : State) (g : Fin 512) (k : Fin 3) (e : Edge) : State :=
  if h : k.val < 2 then
    let kb : Fin 2 := ⟨k.val, h⟩
    let s := s.traceAt g k (streamCode e.st) e.col.val 5 e.pc (e.cause.setWidth 64) e.d0
    let s := s.modCore g fun c =>
      let sc := e.cause.toNat + kb.val * 256 + streamCode e.st * 512 + e.col.val * 2048
      { c.setBank k { ((c.bank k).holdSfc s.cycle).settleCols with
          st := .trapped
          trap := some { cause := e.cause, strm := e.st, col := e.col, word := e.word, detail0 := e.d0, detail1 := e.d1 } } with
        handling := some kb, scause := BitVec.ofNat 32 sc }
    ((s.endLease g).schedule 264 .handlerStart (EvArgs.at g k)).how .trapped
  else (s.endHandler g 31).how .trapped

/-- The trap that an execution of the domain unit has raised is taken: it is a cause of X. -/
def State.domTrap (s : State) (g : Fin 512) (k : Fin 3) : State :=
  match (s.bank g k).dom.trapDue with
  | none => s
  | some t =>
    (s.modBank g k fun b => { b with dom := { b.dom with trapDue := none } }).edge g k
      { st := .x, col := 0, word := t.word.setWidth 128, pc := t.pc, cause := t.cause, d0 := t.d0, d1 := t.d1 }

/-- A trap of a word at `pc`. The execution of a run in progress ends first; the trap it raises, a cause of X, comes before. -/
def State.takeTrapAt (s : State) (g : Fin 512) (k : Fin 3) (st : Stream) (col : Fin 4) (word : BitVec 128) (pc : Word)
    (cause : Byte) (d0 d1 : DWord) : State :=
  let s := s.endExec g k
  if (s.bank g k).dom.trapDue.isSome then s.domTrap g k
  else s.edge g k { st := st, col := col, word := word, pc := pc, cause := cause, d0 := d0, d1 := d1 }

def State.takeTrap (s : State) (g : Fin 512) (k : Fin 3) (st : Stream) (col : Fin 4) (word : BitVec 128) (cause : Byte)
    (d0 d1 : DWord) : State :=
  let b := s.bank g k
  s.takeTrapAt g k st col word (match st with | .a => b.apc | .m => b.mpc | .x => (b.col col).pc) cause d0 d1

/-- A trap of the word of the turn. -/
def State.trap (s : State) (cause : Byte) (d0 d1 : DWord) : State :=
  s.takeTrap s.turn.core s.turn.ctx s.turn.stream s.turn.col s.turn.word cause d0 d1

/-- ILLEGAL_INSTR of the word of the turn (spec/02 R24, R40). -/
def State.illegal (s : State) : State := (s.trap 1 0 0).how .illegal

/-! ## Returning from a trap (spec/18 R289, R290) -/

/-- The save area of a bank in the memory of the core's die (R286). -/
def State.saveVA (s : State) (g : Fin 512) (k : Fin 2) : Nat :=
  let rank := (dieOf g).val - (s.partAt g).val
  mkVA rank ((if k.val = 0 then (s.core g).savebase0 else (s.core g).savebase1).toNat * 2 ^ 17)

/-- Reading the save area of a bank. -/
def State.saveRead (s : State) (p : Fin 8) (va : Nat) : SaveRead := fun off n => s.greadLE p (va + off) n

/-- Write the dumped half of a bank's save area (R286). -/
def State.dump (s : State) (g : Fin 512) (k : Fin 2) : State :=
  let b := s.bank g (k.castLE (by decide))
  let rank := (dieOf g).val - (s.partAt g).val
  s.rawWriteN (s.partAt g) (s.saveVA g k)
    (overlay 65536 (b.saveChunks (s.sfc b) (rank + inDie g * 256)))

/-- A bank starts presenting words `n` core cycles from now: the second half of a switch or a return (R289, R296). -/
def State.activate (s : State) (g : Fin 512) (k : Fin 2) (n : Nat) : State :=
  (s.modCore g fun c => { c with active := k }).schedule n .bankSwitchTslice
    { EvArgs.at g (k.castLE (by decide)) with flag := true }

/-- A bank with a unit that can run (R296). -/
def Bank.runnable (b : Bank) : Bool :=
  (match b.unit with | some u => u.started | none => false) && (b.st == .ready || b.st == .running)

/-- Reload a bank from its save area, check it, and let it run again after 264 core cycles; a cancelled unit completes
by cancel, a bad image with BAD_RESUME (R289, R290). -/
def State.resumeBank (s : State) (g : Fin 512) (k : Fin 2) : State :=
  let kb : Fin 3 := k.castLE (by decide)
  let b := s.bank g kb
  let r := s.saveRead (s.partAt g) (s.saveVA g k)
  match b.unit with
  | none => s
  | some u =>
    let free := s.modCore g fun c => { c with handling := none, ctxsw := none, stopped := false }
    if b.cancelled then free.stopUnit g kb 1 0
    else if !saveOk r u then free.stopWith true g kb 2 32
    else
      let pend := r 3 1
      let waits := b.replay.any fun (o : AOp) => o.answer.isNone
      let s := s.setBank g kb { b.reload r with
        st := if waits then .awaiting else .ready, trap := none
        bpSkip := match b.trap with
          | some x => if x.cause == 29 && (x.detail0 == 0x10000 || x.detail0 == 0x10001) then some (x.strm, x.col) else none
          | none => none
        pending := b.pending.filter fun x => (x.cause == 16 && pend.testBit 0) || (x.cause == 18 && pend.testBit 1) }
      let other : Fin 2 := 1 - k
      let otherRuns := (s.bank g (other.castLE (by decide))).runnable
      let pick := if otherRuns && (waits || (s.core g).ctxsw == some other) then other else k
      let s := s.modCore g fun c => { c with handling := none, ctxsw := none, stopped := false }
      if waits && !otherRuns then s else s.activate g pick 264

/-- `eret`: the system context ends and the unit resumes. -/
def State.returnFromTrap (s : State) (g : Fin 512) : State :=
  match (s.core g).handling with
  | none => s
  | some k => (s.modCore g fun c => c.setBank 2 (c.bank 2).endSystem).resumeBank g k

end Sys2Proof.Machine
end

