-- ==== Sys2Proof/Machine/Flags.lean ====
section
/-! DEFINITION. Machine/Flags.lean: every flag computation of the manual: the FPCTL flags (spec/03 R61, R62), the truth of
the integer conditions (spec/07 R124), carry-free compares, and the sticky bits that a write of one clears. -/
namespace Sys2Proof.Machine
open Sys2Proof

/-! ## FPCTL flags, as FPCTL[12:8] shifted to [4:0] (spec/18 R288) -/

abbrev FFlags := BitVec 5
def fNone : FFlags := 0
def fNV : FFlags := 1
def fDZ : FFlags := 2
def fOF : FFlags := 4
def fUF : FFlags := 8
def fNX : FFlags := 16

/-- Rounding modes of FPCTL.RM. -/
inductive RMode where | rne | rtz | rdn | rup
  deriving DecidableEq, Repr

def rmodeOf (n : Nat) : RMode := match n % 4 with | 0 => .rne | 1 => .rtz | 2 => .rdn | _ => .rup

def fpctlRM (w : Word) : RMode := rmodeOf (field w 0 2)

/-- Flags that an operation sets are sticky: they stay until a write clears them. -/
def fpctlSet (w : Word) (f : FFlags) : Word := w ||| (f.setWidth 32 <<< 8)

/-- A write of FPCTL: RM takes bits 1:0, a one clears its sticky flag, the reserved bits stay zero. -/
def fpctlWrite (old w : Word) : Word := (old &&& ~~~w &&& 0x1F00) ||| (w &&& 3)

/-! ## Integer conditions -/

/-- The truth of a condition (spec/07 R124): signed for lt, le, gt, ge, unsigned for the forms with u. -/
def icond {n : Nat} (c : ICond) (a b : BitVec n) : Bool :=
  match c with
  | .eq => a == b
  | .ne => a != b
  | .lt => a.slt b
  | .le => a.sle b
  | .gt => b.slt a
  | .ge => b.sle a
  | .ltu => a.ult b
  | .leu => a.ule b
  | .gtu => b.ult a
  | .geu => b.ule a

/-! ## Sticky bits elsewhere -/

/-- A write of DSTAT clears FAIL and INX where it writes one (spec/08 R162). -/
def DomState.writeDstat (d : DomState) (w : Word) : DomState :=
  { d with fail := d.fail && !bit w 0, inx := d.inx && !bit w 1 }

/-- A write of MERGECTL: TRAP takes bit 0, a one in bit 1 clears ORDERR (spec/10 R209). -/
def Bank.writeMergectl (b : Bank) (w : Word) : Bank :=
  { b with mergeTrap := bit w 0, orderr := b.orderr && !bit w 1 }

end Sys2Proof.Machine
end

