-- ==== Sys2Proof/Machine/Operands.lean ====
section
/-! DEFINITION. Machine/Operands.lean: every operand form of the three streams, what a result does on its way, and the
gates a word passes before it issues (spec/00 R5, R6; spec/02 R24-R32; spec/06 R100, R108, R111-R116). -/
namespace Sys2Proof.Machine
open Sys2Proof

/-! ## The actor of the turn -/

def State.tb (s : State) : Bank := s.bank s.turn.core s.turn.ctx
def State.tc (s : State) : Column := s.tb.col s.turn.col
def State.modTb (s : State) (f : Bank → Bank) : State := s.modBank s.turn.core s.turn.ctx f
def State.modTc (s : State) (f : Column → Column) : State := s.modTb fun b => b.modCol s.turn.col f

/-! ## X sources (R5) and what an X cycle sees (R6, R102) -/

/-- The last-issued result of a column whose slot takes it in this X cycle. -/
def Bank.arriving (b : Bank) (c : Fin 4) (lag : Nat) (p : Flight → Bool) : Option Vec :=
  (lastWith (fun f => f.col == c && f.land + lag == b.xcycle && p f) b.inflight).map fun f => f.val

def Flight.isResult (f : Flight) : Bool := f.kind != .pred

/-- lxc: the own column reads a result at t + L, another column one X cycle later. -/
def Bank.lxRead (b : Bank) (me c : Fin 4) : Vec :=
  if me = c then (b.arriving c 0 Flight.isResult).getD (b.col c).lx else (b.col c).lx

/-- oN takes the value at t + L + 1. -/
def Bank.oRead (b : Bank) (me : Fin 4) (n : Fin 8) : Vec :=
  (b.arriving me 1 fun f => f.isResult && f.dst.toNat == 0x40 + n.val).getD ((b.col me).o.get n)

/-- A scalar main register takes the value at t + L + 2; x0 reads 0. -/
def Bank.xRead (b : Bank) (me : Fin 4) (n : Fin 56) : Word :=
  if n.val = 0 then 0
  else match b.arriving me 2 fun f => f.kind == .scalar && f.dst.toNat == n.val with
    | some v => v.setWidth 32
    | none => (b.col me).x.get n

/-- A vector main register takes the value at t + L + 2. -/
def Bank.vRead (b : Bank) (me : Fin 4) (n : Fin 28) : Vec :=
  (b.arriving me 2 fun f => f.kind == .vector && f.dst.toNat == n.val).getD ((b.col me).v.get n)

/-- A predicate of the issuing column; p0 reads true (spec/02 R26, spec/07 R119). -/
def Bank.pRead (b : Bank) (me : Fin 4) (p : Fin 8) : Bool :=
  if p.val = 0 then true
  else match b.arriving me 0 fun f => f.kind == .pred && f.dst.toNat == p.val with
    | some v => bit v 0
    | none => bit (b.col me).p p.val

/-- A small immediate: seven bits, sign-extended. -/
def smallImm (v : BitVec 7) : Word := v.signExtend 32

def Bank.readS (b : Bank) (me : Fin 4) : SSrc → Word
  | .reg n => b.xRead me n
  | .queue q => (headVal (b.qAX q.val)).setWidth 32
  | .ofile n => (b.oRead me n).setWidth 32
  | .lx c => (b.lxRead me c).setWidth 32
  | .imm v => smallImm v

def Bank.readV (b : Bank) (me : Fin 4) : VSrc → Vec
  | .reg n => b.vRead me n
  | .queue q => headVal (b.qAX (4 + q.val))
  | .ofile n => b.oRead me n
  | .lx c => b.lxRead me c
  | .imm v => ofLanes fun _ => smallImm v

/-- The operands of the syllable of the turn. -/
def State.rS (s : State) (x : SSrc) : Word := s.tb.readS s.turn.col x
def State.rV (s : State) (x : VSrc) : Vec := s.tb.readV s.turn.col x
def State.rP (s : State) (p : Fin 8) : Bool := s.tb.pRead s.turn.col p

/-- The queue ports a source pops: 0-3 scalar, 4-7 vector. -/
def sPorts : SSrc → List Nat
  | .queue q => [q.val]
  | _ => []
def vPorts : VSrc → List Nat
  | .queue q => [4 + q.val]
  | _ => []

/-! ## X destinations (R6) -/

def sdstCode : SDst → Byte
  | .reg n => BitVec.ofNat 8 n.val
  | .queue q => BitVec.ofNat 8 (0x38 + q.val)
  | .ofile n => BitVec.ofNat 8 (0x40 + n.val)
  | .lx c => BitVec.ofNat 8 (0x48 + c.val)
def vdstCode : VDst → Byte
  | .reg n => BitVec.ofNat 8 n.val
  | .queue q => BitVec.ofNat 8 (0x1C + q.val)
  | .ofile n => BitVec.ofNat 8 (0x40 + n.val)
  | .lx c => BitVec.ofNat 8 (0x48 + c.val)

/-- WriteResult (R6): the result of the syllable of the turn is in flight until t + L. -/
def Bank.deliver (b : Bank) (c : Fin 4) (dst : Byte) (kind : FlightKind) (v : Vec) (l : Nat) (fl : FFlags)
    (push : Option (Fin 16)) : Bank :=
  { b with
    inflight := b.inflight ++
      [{ val := v, dst := dst, col := c, kind := kind, land := b.xcycle + l, fpf := fl, push := push, seq := b.nextSeq }],
    nextSeq := b.nextSeq + 1 }

def State.wrS (s : State) (h : XHdr) (d : SDst) (v : Word) (l : Nat) (fl : FFlags) : State :=
  s.modTb fun b => b.deliver s.turn.col (sdstCode d) .scalar (v.setWidth 1024) l fl h.push
def State.wrV (s : State) (h : XHdr) (d : VDst) (v : Vec) (l : Nat) (fl : FFlags) : State :=
  s.modTb fun b => b.deliver s.turn.col (vdstCode d) .vector v l fl h.push
def State.wrP (s : State) (h : XHdr) (p : Fin 8) (v : Bool) (l : Nat) : State :=
  s.modTb fun b => b.deliver s.turn.col (BitVec.ofNat 8 p.val) .pred (if v then 1 else 0) l fNone h.push

/-- The push of a syllable without a result, `l` X cycles after its issue: at once for 0, else carried by an entry that
writes nothing (log 14). -/
def State.xPush (s : State) (h : XHdr) (l : Nat) : State :=
  match h.push with
  | none => s
  | some f =>
    if l = 0 then s.pushToken s.turn.core s.turn.ctx (some f)
    else s.modTb fun b => b.deliver s.turn.col 0 .pred 1 l fNone (some f)

/-! ## The next syllable (spec/06 R113, R116) -/

def State.xNext (s : State) : State := s.modTc Column.next

/-! ## Issue of an X syllable (R24, R26, R28, R100, R108) -/

/-- Landing pushes of this X cycle into an X→A queue: how many results end there. -/
def Bank.landingIn (b : Bank) (q : Nat) : Nat :=
  (b.inflight.filter fun f => f.land + 2 == b.xcycle &&
    ((f.kind == .scalar && decide (q < 4) && f.dst.toNat == 0x38 + q) ||
      (f.kind == .vector && decide (4 ≤ q) && f.dst.toNat == 0x18 + q))).length

/-- The first X→A queue without room for what lands in this cycle. -/
def Bank.landingFull (b : Bank) : Option Nat :=
  firstIdx (fun q => decide (qDepth q < (b.qXA q).length + b.landingIn q)) 8

/-- A propagation run has X frozen (spec/08 R143, R155). -/
def Bank.runFreezes (b : Bank) : Bool := match b.dom.run with | some r => decide (r.start ≤ b.xcycle) | none => false

/-- The distinct ports of a list. -/
def dedup (l : List Nat) : List Nat := l.foldr (fun x r => if r.contains x then r else x :: r) []

/-- What keeps a syllable from issuing: the encoding's token binding, then its waits; none when it may issue. -/
def State.xGate (s : State) (h : XHdr) (ports : List Nat) : Option State :=
  let b := s.tb
  if !b.consumes .x h.wait || !b.produces .x h.push then some s.illegal
  else if !b.hasToken h.wait then some (s.stall 1 (match h.wait with | some f => BitVec.ofNat 64 f.val | none => 0))
  else if !b.hasRoom h.push then some (s.stall 2 (match h.push with | some f => BitVec.ofNat 64 f.val | none => 0))
  else match ports.find? fun q => !headReady (b.qAX q) with
    | some q => some (if q = 8 then s.stall 5 0 else s.stall 3 (BitVec.ofNat 64 (q * 2 ^ 32)))
    | none =>
      match b.landingFull with
      | some q => some (s.stall 4 (BitVec.ofNat 64 ((8 + q) * 2 ^ 32 + qDepth q)))
      | none => if b.runFreezes then some (s.stall wRun 0) else none

/-- Pop a queue at issue; X's pops count for the alias-check mode (spec/22 R332). -/
def Bank.popAX (b : Bank) (q : Nat) : Bank := { b.setQAX q (b.qAX q).tail with qx := b.qx + 1 }

/-- The syllable issues: tokens and queue entries go, and the push is owed. -/
def State.xTake (s : State) (h : XHdr) (ports : List Nat) : State :=
  let s := s.modTb fun b =>
    let b := (b.popToken h.wait).owe h.push
    let b := if h.wait.isSome then { b with qx := b.qx + 1 } else b
    let b := { b with bpSkip := b.bpSkip.filter fun x => x != (.x, s.turn.col) }
    ports.foldl (fun b q => b.popAX q) b
  { (s.modTc fun c => { c with wait := none }) with turn := { s.turn with how := .issued, pops := ports } }

/-- The guard of the syllable (R26). -/
def State.guard (s : State) (h : XHdr) : Bool := s.rP h.gp != h.gn

/-- An X syllable with its gates. `l` is the delay of its push when it is guarded off; `blk` gives a trap or a further
wait of an effective syllable; `eff` is what an effective syllable does after its pops, the next pc included. -/
def xIssue (h : XHdr) (l : Nat) (srcs : List Nat) (blk : State → Option State) (eff : State → State) (s : State) :
    Host.Outcome State Fault Refusal :=
  let g := s.guard h
  let ports := if g then dedup srcs else []
  match s.xGate h ports with
  | some t => .next { t with turn := { t.turn with pops := ports } }
  | none =>
    if g then
      match blk s with
      | some t => .next t
      | none => .next (eff (s.xTake h ports))
    else .next ((s.xTake h []).xNext.xPush h l)

def noBlock (_ : State) : Option State := none

/-- An instruction with a scalar result of latency `l`. -/
def xScalar (h : XHdr) (d : SDst) (l : Nat) (srcs : List Nat) (f : State → Word × FFlags) (s : State) :
    Host.Outcome State Fault Refusal :=
  xIssue h l srcs noBlock (fun t => let r := f s; (t.wrS h d r.1 l r.2).xNext) s

/-- An instruction with a vector result of latency `l`. -/
def xVector (h : XHdr) (d : VDst) (l : Nat) (srcs : List Nat) (f : State → Vec × FFlags) (s : State) :
    Host.Outcome State Fault Refusal :=
  xIssue h l srcs noBlock (fun t => let r := f s; (t.wrV h d r.1 l r.2).xNext) s

/-- An instruction that writes a predicate of the column. -/
def xPredicate (h : XHdr) (p : Fin 8) (l : Nat) (srcs : List Nat) (f : State → Bool) (s : State) :
    Host.Outcome State Fault Refusal :=
  xIssue h l srcs noBlock (fun t => (t.wrP h p (f s) l).xNext) s

/-! ## A operands (R32) -/

/-- The value an A source field reads: a0 is 0, 28-31 give the head of an X→A queue, zero-extended (log 16). -/
def Bank.aVal (b : Bank) (n : Fin 32) : DWord :=
  if n.val = 0 then 0
  else if h : n.val < 28 then b.a[n.val]
  else ((headVal (b.qXA (n.val - 28))).setWidth 32).setWidth 64

def State.rA (s : State) (n : Fin 32) : DWord := s.tb.aVal n

/-- The result of an earlier word is not there yet (spec/10 R194, R195). -/
def Bank.aPending (b : Bank) (now : Nat) (n : Fin 32) : Bool :=
  (b.aReady.any fun x => x.1 == n && decide (now < x.2)) ||
    (b.ops.any fun o => match o.dst with | .areg m _ _ => m == n | _ => false)

/-- What keeps an A word from issuing, besides waits of its own. `extra` are queue places it pushes as `ldq` and `ldd`
do. -/
def State.aGate (s : State) (wait push : Option (Fin 16)) (srcs dsts : List (Fin 32)) (extra : List Nat) :
    Option State :=
  let b := s.tb
  let pops := dedup ((srcs.filter fun n => decide (28 ≤ n.val)).map fun n => n.val - 28)
  let pushes := ((dsts.filter fun n => decide (28 ≤ n.val)).map fun n => n.val - 28) ++ extra
  if !b.consumes .a wait || !b.produces .a push then some s.illegal
  else if !b.hasToken wait then some (s.stall 1 (match wait with | some f => BitVec.ofNat 64 f.val | none => 0))
  else if !b.hasRoom push then some (s.stall 2 (match push with | some f => BitVec.ofNat 64 f.val | none => 0))
  else if (srcs ++ dsts).any fun n => decide (0 < n.val) && decide (n.val < 28) && b.aPending s.cycle n then
    some (s.stall wInterlock 0)
  else match pops.find? fun q => !headReady (b.qXA q) with
    | some q => some (s.stall 3 (BitVec.ofNat 64 ((8 + q) * 2 ^ 32)))
    | none =>
      match pushes.find? fun q => decide (qDepth q ≤ (b.qAX q).length) with
      | some q => some (if q = 8 then s.stall 5 0 else s.stall 4 (BitVec.ofNat 64 (q * 2 ^ 32 + qDepth q)))
      | none => none

def Bank.popXA (b : Bank) (q : Nat) : Bank := { b.setQXA q (b.qXA q).tail with qa := b.qa + 1 }

/-- The next A word in sequence. -/
def Bank.aNext (b : Bank) (size : Word) : Bank :=
  let r := loopStep b.apc size b.aLoop0 b.aLoop1
  { b with apc := r.1, aLoop0 := r.2.1, aLoop1 := r.2.2 }

/-- The A word issues: token and queue entries go, the push is owed, the pc moves on. -/
def State.aTake (s : State) (wait push : Option (Fin 16)) (srcs : List (Fin 32)) (size : Word) : State :=
  let pops := dedup ((srcs.filter fun n => decide (28 ≤ n.val)).map fun n => n.val - 28)
  let s := s.modTb fun b =>
    let b := (b.popToken wait).owe push
    let b := if wait.isSome then { b with qa := b.qa + 1 } else b
    let b := pops.foldl (fun b q => b.popXA q) b
    { b.aNext size with
      aWait := none
      aBusy := 0
      colAt := none
      aReady := b.aReady.filter fun x => decide (s.cycle < x.2)
      bpSkip := b.bpSkip.filter fun x => x.1 != .a }
  s.how .issued

/-- A result of an A word: a0 discards it, 28-31 push an A→X queue, poppable four core cycles after the word retires at
issue; otherwise the register, available to a word issued `lat` cycles later. -/
def State.wrA (s : State) (d : Fin 32) (v : DWord) (lat : Nat) : State :=
  if d.val = 0 then s
  else if h : d.val < 28 then
    s.modTb fun b =>
      { b with
        a := b.a.set d.val v,
        aReady := if lat ≤ 1 then b.aReady else b.aReady ++ [(d, s.cycle + lat)] }
  else
    (s.modTb fun b => { b.reserveAX (d.val - 28) ((v.setWidth 32).setWidth 1024) with pa := b.pa + 1 }).schedule 4
      .queueEntryPoppable { EvArgs.at s.turn.core s.turn.ctx with n := d.val - 28, id := s.tb.nextId }

/-- The word's push when it retires (R357); pushes to X count for the alias-check mode. -/
def State.retirePush (s : State) (push : Option (Fin 16)) : State :=
  let s := if push.isSome then s.modTb fun b => { b with pa := b.pa + 1 } else s
  s.pushToken s.turn.core s.turn.ctx push

/-- A short A word with its gates: `blk` gives a trap or a further wait, `eff` what the word does after it issued. -/
def aWord (h : AHdr) (srcs dsts : List (Fin 32)) (extra : List Nat) (blk : State → Option State) (eff : State → State)
    (s : State) : Host.Outcome State Fault Refusal :=
  match s.aGate h.wait h.push srcs dsts extra with
  | some t => .next t
  | none =>
    match blk s with
    | some t => .next t
    | none => .next (eff (s.aTake h.wait h.push srcs 1))

/-- A word that retires at issue with one register result. -/
def aResult (h : AHdr) (d : Fin 32) (srcs : List (Fin 32)) (lat : Nat) (v : State → DWord) (s : State) :
    Host.Outcome State Fault Refusal :=
  aWord h srcs [d] [] noBlock (fun t => (t.wrA d (v s) lat).retirePush h.push) s

end Sys2Proof.Machine
end

