-- ==== Sys2Proof/Machine/Scratchpad.lean ====
section
/-! DEFINITION. Machine/Scratchpad.lean: the scratchpad with its checks, ports and slabs (spec/10 R183-R187, spec/13 R263)
and the alias-check mode (spec/22 R332). -/
namespace Sys2Proof.Machine
open Sys2Proof

def spSize : Nat := 0x300000
def tileOf (addr : Nat) : Nat := addr / 4096

/-- A tile's owner bit: true when the engines own it. -/
def Core.owned (c : Core) (t : Nat) : Bool := bit c.owner t

/-- Read and write masks that apply to an agent of a bank: 0 streams, 1 copy engine, 2 array. -/
def Bank.mayRead (b : Bank) (ent : Fin 3) (t : Nat) : Bool :=
  match b.unit with | some u => bit (u.rd.get ent) t || bit (u.wr.get ent) t | none => false
def Bank.mayWrite (b : Bank) (ent : Fin 3) (t : Nat) : Bool :=
  match b.unit with | some u => bit (u.wr.get ent) t | none => false

/-- The checks on one stream access in their order: SP_RANGE, MISALIGNED, SET_FAULT, OWNER_FAULT; the system context has
neither set nor owner checks (spec/18 R283). A failing check gives the cause and its details. -/
def State.spCheck (s : State) (g : Fin 512) (k : Fin 3) (wr : Bool) (addr size ln : Nat) : Option (Byte × DWord × DWord) :=
  let t := tileOf addr
  let b := s.bank g k
  if decide (spSize < addr + size) then some (10, BitVec.ofNat 64 addr, BitVec.ofNat 64 ln)
  else if addr % size != 0 then some (7, BitVec.ofNat 64 addr, BitVec.ofNat 64 ln)
  else if k.val = 2 then none
  else if !(if wr then b.mayWrite 0 t else b.mayRead 0 t) then some (13, BitVec.ofNat 64 t, 0)
  else if (s.core g).owned t then some (11, BitVec.ofNat 64 t, BitVec.ofNat 64 ln)
  else none

/-- The first failing check over the lanes of an access, lowest lane first. -/
def State.spCheckAll (s : State) (g : Fin 512) (k : Fin 3) (wr : Bool) (size : Nat) (addrs : List Nat) :
    Option (Byte × DWord × DWord) :=
  addrs.zipIdx.foldl (fun r a => match r with | some x => some x | none => s.spCheck g k wr a.1 size a.2) none

/-! ## The wide port (R185) -/

def WideUse.end_ (w : WideUse) : Nat := w.start + w.n

/-- A wide access occupies the slab of one of these tiles in this cycle. -/
def Core.slabBusy (c : Core) (now : Nat) (tiles : List Nat) : Bool :=
  c.wide.any fun w => decide (w.start ≤ now) && decide (now < w.end_) && tiles.any fun t => t % 8 == w.tile % 8

/-- The first cycle from now on that no use of the same or of a higher priority takes. -/
def Core.wideFree (c : Core) (now rank : Nat) : Nat :=
  c.wide.foldl (fun (t : Nat) (w : WideUse) => if decide (w.rank ≤ rank) && decide (t < w.end_) then w.end_ else t) now

/-- A use of `n` cycles begins; those of a lower priority give it the port and go on after it. -/
def Core.useWide (c : Core) (now rank id n tile : Nat) : Core :=
  let yield (w : WideUse) : WideUse :=
    if rank < w.rank then { w with start := max w.start now + n, n := w.end_ - max w.start now } else w
  { c with wide := { start := now, n := n, tile := tile, rank := rank, id := id } ::
      (c.wide.filter fun w => decide (now < w.end_)).map yield }

/-- The end of a command's use as it stands now: a use of a higher priority may have delayed it. -/
def Core.wideEnd (c : Core) (now rank id : Nat) : Nat :=
  c.wide.foldl (fun (t : Nat) (w : WideUse) => if w.rank == rank && w.id == id then max t w.end_ else t) now

def State.useWide (s : State) (g : Fin 512) (rank id n tile : Nat) : State :=
  s.modCore g fun c => c.useWide s.cycle rank id n tile

/-- Core cycles that one access takes on its port: the most distinct words it asks of a bank (R184). -/
def portCycles (addrs : List Nat) : Nat :=
  let ws := dedup (addrs.map fun a => a / 4)
  (upTo 0 32).foldl (fun m k => max m ((ws.filter fun w => w % 32 == k).length)) 1

def Core.spRead (c : Core) (addr n : Nat) : Nat := c.sp.readLE addr n
def State.spWrite (s : State) (g : Fin 512) (addr : Nat) (bs : List Byte) : State :=
  s.modCore g fun c => { c with sp := c.sp.writeBytes addr bs }

/-- Set the owner bits of a run of tiles. A flip ends the alias history of the tile (spec/22 R332). -/
def Core.setOwner (c : Core) (t n : Nat) (eng : Bool) : Core :=
  let flips (b : Bank) : Bank :=
    { b with history := b.history.filter fun (r : AliasRec) =>
        !(r.sp && decide (t ≤ tileOf r.va) && decide (tileOf r.va < t + n) && c.owned (tileOf r.va) != eng) }
  { c with owner := setRun c.owner t n eng, banks := c.banks.map flips }

/-! ## Alias-check mode (spec/22 R332) -/

/-- Report a pair: a trace record of kind 8 and the saturating count. -/
def State.aliasReport (s : State) (g : Fin 512) (k : Fin 3) (stream col : Nat) (pc : Word) (addr : Nat)
    (first second : Fin 8) (other : Nat) : State :=
  let p := (s.bank g k).part
  let d1 := first.val + second.val * 8 + other
  let s := s.traceAt g k stream col 8 pc (BitVec.ofNat 64 addr) (BitVec.ofNat 64 d1)
  s.modPart p fun q => { q with aliascnt := if q.aliascnt == BitVec.allOnes 15 then q.aliascnt else q.aliascnt + 1 }

/-- First common byte of two accesses, or of the words they touch. -/
def overlapAt (a an b bn : Nat) : Option Nat :=
  if max a b < min (a + an) (b + bn) then some (max a b) else none

/-- An access is compared with those remembered and remembered itself. `fromX` is the column of an X access. -/
def State.aliasNote (s : State) (g : Fin 512) (k : Fin 3) (pc : Word) (cls : Fin 8) (sp wr : Bool) (addr size : Nat)
    (fromX : Option (Fin 4)) : State :=
  let b := s.bank g k
  if !(s.part b.part).aliasMode then s
  else
    let hist := b.history
    let aa := hist.filter fun (r : AliasRec) => r.fromX.isNone
    let recent := aa.drop (aa.length - 64)
    let s := match fromX with
      | none =>
        let s := recent.foldl (fun (s : State) (r : AliasRec) =>
          match overlapAt r.va r.size addr size with
          | some x =>
            if r.sp == sp && r.cls != 0 && cls != 0 && r.cls != cls && (r.wr || wr) then
              s.aliasReport g k 0 0 pc x r.cls cls (r.pc.toNat * 2 ^ 32)
            else s
          | none => s) s
        if !sp then s
        else (hist.filter fun (r : AliasRec) => r.fromX.isSome && decide (b.qa ≤ r.cnt)).foldl (fun (s : State) (r : AliasRec) =>
          match overlapAt (r.va / 4 * 4) ((r.va + r.size + 3) / 4 * 4 - r.va / 4 * 4) (addr / 4 * 4) ((addr + size + 3) / 4 * 4 - addr / 4 * 4) with
          | some x =>
            if r.wr || wr then
              s.aliasReport g k 0 0 pc x r.cls cls ((r.fromX.getD 0).val * 64 + r.pc.toNat * 2 ^ 32)
            else s
          | none => s) s
      | some c =>
        (hist.filter fun (r : AliasRec) => r.fromX.isNone && r.sp && decide (b.qx ≤ r.cnt)).foldl (fun (s : State) (r : AliasRec) =>
          match overlapAt (r.va / 4 * 4) ((r.va + r.size + 3) / 4 * 4 - r.va / 4 * 4) (addr / 4 * 4) ((addr + size + 3) / 4 * 4 - addr / 4 * 4) with
          | some x =>
            if r.wr || wr then s.aliasReport g k 1 c.val pc x r.cls cls (c.val * 64 + pc.toNat * 2 ^ 32) else s
          | none => s) s
    let me : AliasRec :=
      { pc := pc, cls := cls, sp := sp, va := addr, size := size, wr := wr, fromX := fromX,
        cnt := if fromX.isSome then b.px else b.pa }
    let old := hist.filter fun (r : AliasRec) =>
      if r.fromX.isSome then decide (b.qa ≤ r.cnt) else recent.contains r || decide (b.qx ≤ r.cnt)
    s.modBank g k fun b => { b with history := old ++ [me] }

end Sys2Proof.Machine
end

