-- ==== Sys2Proof/Machine/Regs.lean ====
section
/-! DEFINITION. Machine/Regs.lean: the control registers: who may read and write each one, what it reads and what a write
does (spec/18 R293, R302 and the register tables of the other chapters). -/
namespace Sys2Proof.Machine
open Sys2Proof

/-- Core cycles in a microsecond at the reset operating point of 1.5 GHz (spec/16 R271); the model counts one clock for
every domain (log 24). -/
def usCycles : Nat := 1500

/-- A saturating value of `w` bits. -/
def sat (w v : Nat) : Nat := min v (2 ^ w - 1)

/-! ## Partition-wide operations -/

def State.inPart (s : State) (p : Fin 8) (g : Fin 512) : Bool :=
  decide (p.val ≤ (dieOf g).val) && decide ((dieOf g).val < p.val + (s.part p).ndies)

/-- Change every core of a partition. -/
def State.mapCores (s : State) (p : Fin 8) (f : Fin 512 → Core → Core) : State :=
  { s with cores := Vector.ofFn fun g => if s.inPart p g then f g (s.core g) else s.core g }

/-- The dies of a partition. -/
def State.partDies (s : State) (p : Fin 8) : List (Fin 8) :=
  (List.finRange 8).filter fun d => decide (p.val ≤ d.val) && decide (d.val < p.val + (s.part p).ndies)

/-- The places of a partition that hold a unit. -/
def State.partUnits (s : State) (p : Fin 8) : List (Fin 512 × Fin 2) :=
  ((List.finRange 512).filter fun g => s.inPart p g).flatMap fun g =>
    (List.finRange 2).filterMap fun k => if (s.bank g (k.castLE (by decide))).unit.isSome then some (g, k) else none

/-- A feature the driver accepted (spec/23 R343). -/
def State.feature (s : State) (i : Nat) : Bool := bit s.dev.actfeat i

/-! ## Head counters (spec/22 R329) -/

/-- The stored counter 32 s + k. -/
def Core.perfAt (c : Core) (i : Nat) : Nat := (c.perf.toList.getD i 0).toNat

/-- The counter an index names; EMPTY is what the other classes leave of the cycles since the counters were zeroed. -/
def Core.perfVal (c : Core) (now : Nat) : Word :=
  let i := c.perfidx.toNat
  if decide (96 ≤ i) then 0
  else if i % 32 == 2 then
    let base := 32 * (i / 32)
    let used := c.perfAt base + c.perfAt (base + 1) + ((upTo 0 16).foldl (fun (m n : Nat) => m + c.perfAt (base + 16 + n)) 0)
    BitVec.ofNat 32 (sat 32 (now - c.perfFrom - used))
  else BitVec.ofNat 32 (c.perfAt i)

/-- Add one to a counter, saturating. -/
def Core.perfBump (c : Core) (i : Nat) : Core :=
  if h : i < 96 then { c with perf := c.perf.set i (if c.perf[i] == BitVec.allOnes 32 then c.perf[i] else c.perf[i] + 1) }
  else c

def Core.perfClear (c : Core) (now : Nat) : Core := { c with perf := Vector.replicate 96 0, perfFrom := now }

/-! ## Registers of a core, cluster, die or partition -/

/-- The physical cluster of a core, which owns its DVFS registers (spec/16 R278). -/
def State.physOf (s : State) (g : Fin 512) : Fin 9 := (s.die (dieOf g)).map.get (Fin.ofNat 8 (inDie g / 8))

def State.dvfsOf (s : State) (d : Fin 8) (c : Fin 9) : Dvfs := (s.die d).dvfs.get c

/-- DVREQ and DVSTAT (spec/16 R278). -/
def Dvfs.req (v : Dvfs) : Word := BitVec.ofNat 32 (v.freq.toNat + v.vreq.toNat * 2 ^ 8)
/-- The present VCODE: a ramp moves it one code each half microsecond (spec/16 R274). -/
def Dvfs.vnow (v : Dvfs) (now : Nat) : Byte :=
  match v.ramp, v.target with
  | some (t, x), some (_, y) =>
    let n := (now - t) / (usCycles / 2)
    if x.toNat ≤ y.toNat then BitVec.ofNat 8 (min y.toNat (x.toNat + n)) else BitVec.ofNat 8 (max y.toNat (x.toNat - n))
  | _, _ => v.vcur

/-- HIWATER and BPCNT with the FIFO use of the cycles since they were last brought up to date, free values (spec/16 R275, R278; log
109). -/
def Dvfs.fifo (v : Dvfs) (d : Fin 8) (c : Fin 9) (now : Nat) : BitVec 10 × BitVec 16 :=
  let u := (upTo v.fifoFrom (now - v.fifoFrom)).map fun t => Config.fifoUse d c t
  (BitVec.ofNat 10 (u.foldl (fun (m : Nat) (x : Nat × Bool) => max m (min 48 x.1)) v.hiwater.toNat),
    BitVec.ofNat 16 (sat 16 (v.bpcnt.toNat + (u.filter fun x => x.2).length)))

def State.modDvfs (s : State) (d : Fin 8) (c : Fin 9) (f : Dvfs → Dvfs) : State :=
  s.modDie d fun x => { x with dvfs := x.dvfs.set c.val (f (x.dvfs.get c)) c.isLt }

def Dvfs.stat (v : Dvfs) (now : Nat) : Word :=
  BitVec.ofNat 32 (v.tj.toNat + v.fcur.toNat * 2 ^ 8 + v.cap.toNat * 2 ^ 12 + (v.vnow now).toNat * 2 ^ 16 + b01 v.thr * 2 ^ 24 +
    v.status.toNat * 2 ^ 28)

def bankStCode : BankSt → Nat | .empty => 0 | .running => 1 | .ready => 2 | .awaiting => 3 | .trapped => 4

/-- BANKSTAT (spec/18 R302); the banks of a host-stopped core read 4 (spec/22 R327). -/
def Core.bankstat (c : Core) : Word :=
  let code (b : Bank) : Nat := if c.stopped && b.unit.isSome then 4 else bankStCode b.st
  BitVec.ofNat 32 (c.active.val + code (c.bank 0) * 2 + code (c.bank 1) * 2 ^ 4)

def Core.accown (c : Core) : Word :=
  BitVec.ofNat 32 (c.accOwn.val + c.spill0.toNat * 2 ^ 8 + c.spill1.toNat * 2 ^ 12 +
    (upTo 0 4).foldl (fun (m i : Nat) => m + b01 (c.acc.toList.getD i Acc.reset).i32 * 2 ^ (16 + i)) 0)

/-- A value that reads zero when its feature is absent. -/
def State.ifFeature (s : State) (i : Nat) (w : Nat) : Word := if s.feature i then BitVec.ofNat 32 w else 0

/-- A register of a core, cluster, die or partition; none where the number names none. -/
def State.sharedReg (s : State) (g : Fin 512) (sys : Bool) (n : Nat) : Option Word :=
  let c := s.core g
  let u := s.cluster (clusterOf g)
  let d := s.die (dieOf g)
  let q := s.part (s.partAt g)
  let v := s.dvfsOf (dieOf g) (s.physOf g)
  match n with
  | 0x012 => some (BitVec.ofNat 32 (64 * q.ndies))
  | 0x030 => some (BitVec.ofNat 32 (q.predelta.toNat + q.ageq.toNat * 2 ^ 16))
  | 0x031 => some (BitVec.ofNat 32 (d.steppe.length + sat 13 d.outside.length * 2 ^ 16))
  | 0x060 => some d.xlatroot
  | 0x061 => some (BitVec.ofNat 32 (q.fltTimer.toNat + q.fltCount.toNat * 2 ^ 16 + b01 q.fltMode * 2 ^ 31))
  | 0x062 =>
    let pend := match q.job with | some j => j.faults.length | none => 0
    some (BitVec.ofNat 32 (b01 q.frqfull + 2 * b01 q.allowwait + 4 * b01 q.pristop + sat 16 pend * 2 ^ 16))
  | 0x063 => some (BitVec.ofNat 32 (d.walks.toNat + d.inberr.toNat * 2 ^ 16))
  | 0x080 => some (u.leasecmd.setWidth 32)
  | 0x081 => some (u.leasecyc.setWidth 32)
  | 0x082 => some u.abfttol
  | 0x083 => some c.ovfcnt
  | 0x084 => some c.abftcnt
  | 0x085 =>
    let infl := (u.cmds.filter fun a => a.core == g && !a.retired).length
    some (BitVec.ofNat 32 (infl % 16 + b01 (u.holder == some (inCluster g)) * 2 ^ 4 + c.replays.toNat * 2 ^ 16))
  | 0x090 => some q.colerr
  | 0x0A0 => some v.req
  | 0x0A1 => some (v.stat s.cycle)
  | 0x0A2 => some (BitVec.ofNat 32 (v.sampIssue.toNat + v.sampStall.toNat * 2 ^ 16))
  | 0x0A3 => some v.seq
  | 0x0A4 =>
    let u := v.fifo (dieOf g) (s.physOf g) s.cycle
    some (BitVec.ofNat 32 (u.2.toNat + u.1.toNat * 2 ^ 16))
  | 0x0B0 => some (if sys then c.scause else 0)
  | 0x0B1 => some c.savebase0
  | 0x0B2 => some c.savebase1
  | 0x0B3 => some q.trapimg
  | 0x0B4 => some c.accown
  | 0x0B5 => some (c.acclive.setWidth 32)
  | 0x0B6 => some c.tslice
  | 0x0B7 => some d.savepool
  | 0x0B8 => some (d.savecnt.setWidth 32)
  | 0x0B9 => some c.bankstat
  | 0x0BA => some (BitVec.ofNat 32 (b01 q.qreset.isSome * 2 ^ 31 + q.qresetQ.val))
  | 0x0C0 => some (q.rincur.setWidth 32)
  | 0x0C1 => some (q.hwm.setWidth 32)
  | 0x0C2 => some q.undowait
  | 0x0C3 =>
    let used := d.hbmStacks.toList.foldl (fun (m : Nat) (t : Stack) => max m t.undo.length) 0
    some (BitVec.ofNat 32 (sat 23 used + b01 d.holdfull * 2 ^ 30 + b01 d.press * 2 ^ 31))
  | 0x0C4 => some (BitVec.ofNat 32 (sat 20 d.hold.length))
  | 0x0C5 => some (BitVec.ofNat 32 (q.rbLimit.toNat + q.rbCount.toNat * 2 ^ 16))
  | 0x0C6 => some (BitVec.ofNat 32 (q.contCause.toNat + q.rollbacks.toNat * 2 ^ 16))
  | 0x0C7 => some (BitVec.ofNat 32 (d.spare.val + d.failed.toNat * 2 ^ 8 + d.passes.toNat * 2 ^ 24))
  | 0x0C8 => some (BitVec.ofNat 32 (b01 d.roten + d.retire.toNat * 2 ^ 9))
  | 0x0D0 => some (BitVec.ofNat 32 (b01 q.stopen + 4 * b01 (q.aliasMode && s.feature 10) + 16 * b01 q.hstop))
  | 0x0D1 => some c.bp0
  | 0x0D2 => some c.bp1
  | 0x0D3 => some (c.perfidx.setWidth 32)
  | 0x0D4 => some (c.perfVal s.cycle)
  | 0x0D5 => some (s.ifFeature 5 (q.sampint.toNat + q.trcQueue.val * 2 ^ 16 + b01 q.trcBr * 2 ^ 30 + b01 q.trcOpen * 2 ^ 31))
  | 0x0D6 => some d.provDrop
  | 0x0D7 => some (s.ifFeature 6 ((q.rpNext.getD q.rpMode).toNat + 4 * b01 q.ondiv))
  | 0x0D8 =>
    some (BitVec.ofNat 32 ((if s.feature 6 then q.divPhase.toNat + b01 q.div * 2 ^ 31 else 0) +
      (if s.feature 10 then q.aliascnt.toNat * 2 ^ 16 else 0)))
  | _ => none

/-- The registers with a field a unit may write, and those a system context may write besides. -/
def unitShared (n : Nat) : Bool := n == 0x083 || n == 0x084 || n == 0x0B5 || n == 0x0D3
def sysShared (n : Nat) : Bool :=
  [0x030, 0x060, 0x061, 0x080, 0x081, 0x082, 0x090, 0x0B1, 0x0B2, 0x0B3, 0x0B4, 0x0B6, 0x0B7, 0x0B8, 0x0BA, 0x0C1, 0x0C2,
    0x0C5, 0x0C8, 0x0D0, 0x0D1, 0x0D2, 0x0D5, 0x0D7].contains n

/-! ## Writes with a row of their own -/

/-- COLERR: a one resets the barrier and returns every unit's state for it to IDLE (spec/12 R249). -/
def State.writeColerr (s : State) (p : Fin 8) (w : Word) : State :=
  let idle (b : Bank) : Bank := { b with colarr := b.colarr &&& ~~~w, colrel := b.colrel &&& ~~~w, colTravel := b.colTravel &&& ~~~w }
  let s := s.unschedule fun (x : Due) =>
    (x.what == .colInputRise || x.what == .colReleaseArrival) && x.args.p == p && bit w x.args.id
  let s := s.modJob p fun j => { j with colHigh := j.colHigh &&& ~~~w }
  let s := s.mapCores p fun _ c => { c with banks := c.banks.map idle }
  let s := (s.partDies p).foldl (fun (s : State) (d : Fin 8) =>
    s.modDie d fun x => { x with saved := x.saved.map fun (y : Nat × Bank) => (y.1, idle y.2) }) s
  s.modPart p fun q => { q with colerr := q.colerr &&& ~~~w }

/-- ACCLIVE: the owning bank's unit only clears, the other bank's write is ignored, a system write sets (spec/18 R302). -/
def Core.writeAcclive (c : Core) (k : Fin 3) (w : Word) : Core :=
  if k.val = 2 then { c with acclive := w.setWidth 4 }
  else if c.accOwn.val = k.val then { c with acclive := c.acclive &&& w.setWidth 4 }
  else c

/-- Page requests that the host has and has not answered (spec/09 R177). -/
def outstandingPri (l : List PageFault) : Nat :=
  (dedup ((l.filter fun (f : PageFault) => f.reported && f.pri.isSome).map fun f => f.va)).length

/-- Send the page requests of these faults, oldest first, while the allocation has room: each page of a group once, the last of the
group marked (R177). -/
def State.priSend (s : State) (p : Fin 8) : List PageFault → State
  | [] => s
  | f :: l =>
    match (s.part p).job with
    | none => s
    | some j =>
      let mine (x : PageFault) : Bool := x.va == f.va && x.pri == f.pri
      if (j.faults.any fun x => mine x && x.reported) || decide (Config.priAllocation ≤ outstandingPri j.faults) then s.priSend p l
      else
        let more := j.faults.any fun x => x.pri == f.pri && !x.reported && x.va != f.va
        let r : PageRequest :=
          { pasid := j.pasid, va := f.va, rd := j.faults.any fun x => mine x && !x.wr, wr := j.faults.any fun x => mine x && x.wr
            group := f.pri.getD 0, last := !more }
        State.priSend ((s.modJob p fun j =>
          { j with faults := j.faults.map fun x => if mine x then { x with reported := true } else x }).modDev fun d =>
            { d with pageRequests := d.pageRequests ++ [r] }) p l

/-- Page requests go out unless Response Failure stopped them; ALLOWWAIT says that some wait for room. -/
def State.priRefill (s : State) (p : Fin 8) : State :=
  if (s.part p).pristop then s
  else
    let s := s.priSend p (match (s.part p).job with
      | some j => j.faults.filter fun f => f.pri.isSome && !f.reported
      | none => [])
    let wait := match (s.part p).job with
      | some j => j.faults.any fun (f : PageFault) => f.pri.isSome && !f.reported
      | none => false
    s.modPart p fun q => { q with allowwait := wait }

/-- FLTCTL: the mode, the batch size (not 0) and the timer; PRISTOP clears (spec/09 R179). -/
def State.writeFltctl (s : State) (p : Fin 8) (w : Word) : State :=
  (s.modPart p fun q =>
    { q with fltMode := bit w 31, fltTimer := w.setWidth 15, pristop := false
             fltCount := if field w 16 12 = 0 then q.fltCount else w.extractLsb' 16 12 }).priRefill p

/-- PCLR: the head counters of every core start again (spec/22 R329). -/
def State.clearPerf (s : State) (p : Fin 8) : State := s.mapCores p fun _ c => c.perfClear s.cycle

/-- DBGCTL. -/
def State.writeDbgctl (s : State) (p : Fin 8) (w : Word) : State :=
  let s := if bit w 3 then s.clearPerf p else s
  s.modPart p fun q => { q with stopen := bit w 0, aliasMode := bit w 2 && s.feature 10 }

/-- Flush the trace buffers of a partition's dies as far as the ring has room. -/
def State.traceFlush (s : State) (p : Fin 8) : State :=
  (s.partDies p).foldl (fun (s : State) (d : Fin 8) => s.traceDrain p d (s.die d).trace) s

/-- TRCCTL: opens a session, or flushes and closes it; ignored where trace is absent (spec/22 R330, spec/23 R343). -/
def State.writeTrcctl (s : State) (p : Fin 8) (w : Word) : State :=
  if !s.feature 5 then s
  else
    let was := (s.part p).trcOpen
    let s := if was && !bit w 31 then s.traceFlush p else s
    let s := s.modPart p fun q =>
      { q with trcOpen := bit w 31, trcBr := bit w 30, trcQueue := Fin.ofNat 64 (field w 16 6), sampint := w.setWidth 16 }
    let s := s.unschedule fun x => x.what == .headSample && x.args.p == p
    if bit w 31 && field w 0 16 != 0 then s.schedule (field w 0 16 * usCycles) .headSample (EvArgs.ofPart p) else s

/-- REPLAYCTL: a mode waits for the next phase while one is open; a write of 3 is ignored (spec/22 R334, R335). -/
def State.writeReplayctl (s : State) (p : Fin 8) (w : Word) : State :=
  if !s.feature 6 then s
  else
    s.modPart p fun q =>
      let m : BitVec 2 := w.setWidth 2
      let q := { q with ondiv := bit w 2 }
      if m = 3 then q else if q.job.isSome then { q with rpNext := some m } else { q with rpMode := m, rpNext := none }

/-- QRESET: the reset of a queue starts (spec/18 R301). `who` gives the schedule cycle of the closing trace record. -/
def State.startReset (s : State) (p : Fin 8) (q : Fin 64) (who : EvArgs) : State :=
  (s.modPart p fun x => { x with qreset := some q, qresetQ := q }).schedule 0 .queueReset { who with p := p, q := q }

/-- A write of a register of a core, cluster, die or partition that the writer may write. `who` names the writer's place
for a queue reset. -/
def State.sharedWrite (s : State) (g : Fin 512) (k : Fin 3) (who : EvArgs) (n : Nat) (w : Word) : State :=
  let p := s.partAt g
  let d := dieOf g
  let cl := clusterOf g
  match n with
  | 0x030 => s.modPart p fun q => { q with ageq := w.extractLsb' 16 16, predelta := w.setWidth 7 }
  | 0x060 => s.modDie d fun x => { x with xlatroot := w }
  | 0x061 => s.writeFltctl p w
  | 0x080 => s.modCluster cl fun c => { c with leasecmd := if field w 0 8 = 0 then c.leasecmd else w.setWidth 8 }
  | 0x081 => s.modCluster cl fun c => { c with leasecyc := if field w 0 20 < 16 then 16 else w.setWidth 20 }
  | 0x082 => s.modCluster cl fun c => { c with abfttol := w }
  | 0x083 => s.modCore g fun c => { c with ovfcnt := w }
  | 0x084 => s.modCore g fun c => { c with abftcnt := w }
  | 0x090 => s.writeColerr p w
  | 0x0B1 => s.modCore g fun c => { c with savebase0 := w }
  | 0x0B2 => s.modCore g fun c => { c with savebase1 := w }
  | 0x0B3 => s.modPart p fun q => { q with trapimg := w }
  | 0x0B4 =>
    s.modCore g fun c =>
      { c with spill0 := w.extractLsb' 8 4, spill1 := w.extractLsb' 12 4
               accOwn := if h : field w 0 2 < 3 then ⟨field w 0 2, h⟩ else c.accOwn }
  | 0x0B5 => s.modCore g fun c => c.writeAcclive k w
  | 0x0B6 => s.modCore g fun c => { c with tslice := w }
  | 0x0B7 => s.modDie d fun x => { x with savepool := w }
  | 0x0B8 => s.modDie d fun x => { x with savecnt := w.setWidth 13 }
  | 0x0BA => s.startReset p (Fin.ofNat 64 (field w 0 6)) who
  | 0x0C1 => s.modPart p fun q =>
      { q with hwm := if field w 0 23 = 0 then q.hwm else BitVec.ofNat 23 (min (field w 0 23) 4194304) }
  | 0x0C2 => s.modPart p fun q => { q with undowait := w }
  | 0x0C5 => s.modPart p fun q => { q with rbLimit := w.setWidth 8 }
  | 0x0C8 => s.modDie d fun x => { x with roten := bit w 0, retire := w.extractLsb' 9 9 }
  | 0x0D0 => s.writeDbgctl p w
  | 0x0D1 => s.modCore g fun c => { c with bp0 := w }
  | 0x0D2 => s.modCore g fun c => { c with bp1 := w }
  | 0x0D3 => s.modCore g fun c => { c with perfidx := w.setWidth 7 }
  | 0x0D5 => s.writeTrcctl p w
  | 0x0D7 => s.writeReplayctl p w
  | _ => s

/-! ## Registers of a bank or a column -/

/-- The six loop registers, 0x048-0x04D: LC0, LS0, LE0, LC1, LS1, LE1. -/
def loopWrite (l0 l1 : LoopReg) (n : Nat) (w : Word) : LoopReg × LoopReg :=
  match n with
  | 0x048 => ({ l0 with lc := w }, l1)
  | 0x049 => ({ l0 with ls := w }, l1)
  | 0x04A => ({ l0 with le := w }, l1)
  | 0x04B => (l0, { l1 with lc := w })
  | 0x04C => (l0, { l1 with ls := w })
  | 0x04D => (l0, { l1 with le := w })
  | _ => (l0, l1)

def loopRead (l0 l1 : LoopReg) (n : Nat) : Word :=
  match n with
  | 0x048 => l0.lc
  | 0x049 => l0.ls
  | 0x04A => l0.le
  | 0x04B => l1.lc
  | 0x04C => l1.ls
  | 0x04D => l1.le
  | _ => loopStat l0 l1

def isLoopReg (n : Nat) : Bool := decide (0x048 ≤ n) && decide (n ≤ 0x04E)

/-- The bank and column registers a stream may write (R61, R109, R111, R117, R162, R209). -/
def bankWritable (n : Nat) : Bool :=
  [0x020, 0x043, 0x044, 0x045, 0x048, 0x049, 0x04A, 0x04B, 0x04C, 0x04D, 0x050, 0x051, 0x052, 0x053, 0x054, 0x070,
    0x071].contains n

/-- A write of a bank's register; `col` is the writing column, none for the A stream. A write of LE acts for the next fetch: the
word at the pc, unless it is a delay syllable (R116). -/
def Bank.ctrlWrite (b : Bank) (col : Option (Fin 4)) (n : Nat) (w : Word) : Bank :=
  if isLoopReg n then
    match col with
    | some c => b.modCol c fun x =>
        let r := loopWrite x.loop0 x.loop1 n w
        let r := if x.brdly = 0 && !x.evalDue then fetchBoth x.pc r else r
        { x with loop0 := r.1, loop1 := r.2 }
    | none => let r := fetchBoth b.apc (loopWrite b.aLoop0 b.aLoop1 n w); { b with aLoop0 := r.1, aLoop1 := r.2 }
  else match n with
    | 0x020 => { b with fpctl := fpctlWrite b.fpctl w }
    | 0x043 => { b with waitbndA := w.setWidth 20 }
    | 0x044 => { b with waitbndX := w.setWidth 20 }
    | 0x045 => { b with waitbndM := w.setWidth 20 }
    | 0x050 => { b with dom := b.dom.writeDstat w }
    | 0x051 => { b with dom := { b.dom with bt := bit w 0 } }
    | 0x052 => { b with dom := { b.dom with proplim := if field w 0 16 = 0 then b.dom.proplim else w.setWidth 16 } }
    | 0x053 => { b with dom := { b.dom with failpc := w } }
    | 0x054 => { b with dom := { b.dom with failcnt := w } }
    | 0x070 => b.writeMergectl w
    | 0x071 => { b with orderrcnt := w }
    | _ => b

/-- A deferred write of column c to DSTAT in X cycle t leaves FAIL when a failure came in that cycle (R160). -/
def Bank.ctrlWriteX (b : Bank) (c : Fin 4) (n : Nat) (w : Word) : Bank :=
  let r := b.ctrlWrite (some c) n w
  if n == 0x050 && b.dom.failAt == some b.xcycle then { r with dom := { r.dom with fail := b.dom.fail } } else r

/-! ## sysr and sysw -/

/-- The value of a register as the actor of the turn reads it; none raises ILLEGAL_INSTR (R293). -/
def State.readReg (s : State) (n : Nat) : Option Word :=
  let g := s.turn.core
  let k := s.turn.ctx
  let b := s.tb
  if n = 0x012 then s.sharedReg g (k.val = 2) n
  else match b.ctrl (s.sfc b) n with
    | some w =>
      if k.val = 2 then none
      else if isLoopReg n then
        some (match s.turn.stream with | .x => loopRead s.tc.loop0 s.tc.loop1 n | _ => loopRead b.aLoop0 b.aLoop1 n)
      else if n = 0x020 then
        match s.turn.stream with
        | .x => some ((b.inflight.filter fun (f : Flight) => f.land == b.xcycle).foldl
            (fun (w : Word) (f : Flight) => fpctlSet w f.fpf) w)
        | _ => some w
      else some w
    | none => s.sharedReg g (k.val = 2) n

/-- The actor of the turn may write the register. -/
def State.mayWriteReg (s : State) (n : Nat) : Bool :=
  if s.turn.ctx.val = 2 then unitShared n || sysShared n else bankWritable n || unitShared n

/-- A read of SFCLO latches SFCHI (spec/06 R109). -/
def State.latchSfchi (s : State) (g : Fin 512) (k : Fin 3) : State :=
  s.modBank g k fun b => { b with sfchi := (s.sfc b).extractLsb' 32 16 }

/-- A queue reset is in progress: a write of QRESET waits. -/
def State.resetBusy (s : State) (n : Nat) : Bool := n == 0x0BA && (s.part (s.partAt s.turn.core)).qreset.isSome

/-- The place of the word of the turn, for the closing trace record of a queue reset. -/
def State.whoWrites (s : State) : EvArgs :=
  { EvArgs.at s.turn.core s.turn.ctx with
    st := s.turn.stream, col := s.turn.col, flag := true, n := (s.sfc s.tb).toNat
    w := match s.turn.stream with | .x => s.tc.pc | _ => s.tb.apc }

/-- A write by the actor of the turn that acts at once (A stream). -/
def State.writeReg (s : State) (n : Nat) (w : Word) : State :=
  if s.turn.ctx.val != 2 && bankWritable n then s.modTb fun b => b.ctrlWrite none n w
  else s.sharedWrite s.turn.core s.turn.ctx s.whoWrites n w

/-- A write of column c that acts at the end of its X cycle. -/
def State.writeRegX (s : State) (g : Fin 512) (k : Fin 3) (x : Fin 4 × BitVec 12 × Word) : State :=
  let n := x.2.1.toNat
  if k.val != 2 && bankWritable n then s.modBank g k fun b => b.ctrlWriteX x.1 n x.2.2
  else
    let b := s.bank g k
    s.sharedWrite g k
      { EvArgs.at g k with st := .x, col := x.1, flag := true, n := (s.sfc b).toNat, w := (b.col x.1).pc } n x.2.2

end Sys2Proof.Machine
end

