-- ==== Sys2Proof/Machine/Image.lean ====
section
/-! DEFINITION. Machine/Image.lean: code images in global memory: the header, fetching words, and placing an image's
sections in a unit (spec/01 R14, spec/02 R23). -/
namespace Sys2Proof.Machine
open Sys2Proof

/-- What the header of a code image gives. -/
structure ImageHdr where
  iflags : Nat
  aOff : Word
  aLen : Word
  xOff : Vector Word 4
  xLen : Vector Word 4
  mOff : Word
  mLen : Word
  pwidth : Word
  deriving DecidableEq, Repr

/-- The header lies at a canonical, 64-byte-aligned address of an owner that exists. -/
def State.imageAddrOk (s : State) (p : Fin 8) (va : Nat) : Bool :=
  canonical va && va % 64 == 0 && s.ownerOk p va

/-- Read and check a header: none for one that R14 calls bad, or that does not translate. R14 names no consequence for an offset
that is not a multiple of 64 and for IFLAGS[15:2] other than 0: the model calls such a header bad too (DESIGN CHOICE, log 124). -/
def State.readImage (s : State) (p : Fin 8) (va : Nat) : Option ImageHdr :=
  let r (off n : Nat) : Nat := s.greadLE p (va + off) n
  let w (off : Nat) : Word := BitVec.ofNat 32 (r off 4)
  if !s.imageAddrOk p va || (s.gfault p va 128 false).isSome then none
  else if r 0 4 != 0x444A5633 || r 4 2 != 1 || decide (4 ≤ r 6 2) || r 0x4C 52 != 0 then none
  else if !([0x08, 0x10, 0x14, 0x18, 0x1C, 0x30, 0x38, 0x40].all fun off => r off 4 % 64 == 0) then none
  else
    some
      { iflags := r 6 2, aOff := w 0x08, aLen := w 0x0C, xOff := Vector.ofFn fun c => w (0x10 + 4 * c.val),
        xLen := Vector.ofFn fun c => w (0x20 + 4 * c.val), mOff := w 0x30, mLen := w 0x34, pwidth := w 0x48 }

/-- A unit's fields with the sections of an image. -/
def UnitInfo.withImage (u : UnitInfo) (va : DWord) (i : ImageHdr) : UnitInfo :=
  { u with image := va, aOff := i.aOff, aLen := i.aLen, xOff := i.xOff, xLen := i.xLen, mOff := i.mOff, mLen := i.mLen }

/-- A unit with nothing in it. -/
def UnitInfo.blank (p : Fin 8) : UnitInfo :=
  { part := p, launch := 0, index := 0, width := 0, image := 0, aOff := 0, aLen := 0, xOff := Vector.replicate 4 0,
    xLen := Vector.replicate 4 0, mOff := 0, mLen := 0, flagBind := BitVec.allOnes 64, detm := false, lease := false,
    colmask := 0, qctx := 0, queue := 0, prio := 0, rd := Vector.replicate 3 0, wr := Vector.replicate 3 0,
    started := false, startedAt := 0 }

/-! ## Fetch -/

/-- `n` bytes of code, or none when they do not translate (log 7). -/
def State.fetch (s : State) (p : Fin 8) (va n : Nat) : Option Nat :=
  if (s.gfault p va n false).isSome then none else some (s.greadLE p va n)

/-- A fetched word: at or beyond the section end, a long form cut off by the section end (with the bits of its first word),
untranslated, or its bits. -/
inductive Fetched where
  | beyond
  | cut (w : BitVec 128)
  | untranslated
  | word (w : BitVec 128)
  deriving DecidableEq, Repr

/-- The A word at the program counter; a long form takes two words. A branch may reach the second word of a long form: it is
fetched by its own bits (R33). Where those bits are those of a first word (STAMP[23:18] from 0x3C to 0x3F), the spec does not
say what follows its words "as a short word", and the model lets it begin a long form with the word after it (DESIGN CHOICE, log
110). -/
def State.fetchA (s : State) (b : Bank) : Fetched :=
  match b.unit with
  | none => .beyond
  | some u =>
    if !b.apc.ult u.aLen then .beyond
    else
      let va := u.image.toNat + u.aOff.toNat + 6 * b.apc.toNat
      match s.fetch u.part va 6 with
      | none => .untranslated
      | some w =>
        if isLong (BitVec.ofNat 48 w) then
          if !(b.apc + 1).ult u.aLen then .cut (BitVec.ofNat 128 w)
          else match s.fetch u.part (va + 6) 6 with
            | none => .untranslated
            | some w2 => .word (BitVec.ofNat 128 (w + w2 * 2 ^ 48))
        else .word (BitVec.ofNat 128 w)

/-- The syllable at the program counter of column c. -/
def State.fetchX (s : State) (b : Bank) (c : Fin 4) : Fetched :=
  match b.unit with
  | none => .beyond
  | some u =>
    if !(b.col c).pc.ult (u.xLen.get c) then .beyond
    else match s.fetch u.part (u.image.toNat + (u.xOff.get c).toNat + 8 * (b.col c).pc.toNat) 8 with
      | none => .untranslated
      | some w => .word (BitVec.ofNat 128 w)

/-- The M word at the program counter. -/
def State.fetchM (s : State) (b : Bank) : Fetched :=
  match b.unit with
  | none => .beyond
  | some u =>
    if !b.mpc.ult u.mLen then .beyond
    else match s.fetch u.part (u.image.toNat + u.mOff.toNat + 16 * b.mpc.toNat) 16 with
      | none => .untranslated
      | some w => .word (BitVec.ofNat 128 w)

/-- What the bits of a fetched word decode to. -/
def decodeWord (st : Stream) (w : BitVec 128) : Option Instr :=
  let r := match st with
    | .a => decodeA (w.setWidth 48) (w.extractLsb' 48 48)
    | .x => decodeX (w.setWidth 64)
    | .m => decodeM w
  match r with
  | .ok i => some i
  | .error _ => none

end Sys2Proof.Machine
end

