-- ==== Sys2Proof/Machine/XScalar.lean ====
section
/-! DEFINITION. Machine/XScalar.lean: scalar integer, address, compare and predicate instructions of the X stream
(spec/07 R121-R125; `nop`: spec/02 R37). -/
namespace Sys2Proof.Machine
open Sys2Proof

/-! ## Word arithmetic (R121, R122) -/

/-- Shifts by a 32-bit count: 32 or more shifts everything out. -/
def shlW (a b : Word) : Word := if b.toNat < 32 then a <<< b.toNat else 0
def shrW (a b : Word) : Word := if b.toNat < 32 then a >>> b.toNat else 0
def sraW (a b : Word) : Word := if b.toNat < 32 then a.sshiftRight b.toNat else if bit a 31 then BitVec.allOnes 32 else 0

def minW (uns : Bool) (a b : Word) : Word := if (if uns then b.ult a else b.slt a) then b else a
def maxW (uns : Bool) (a b : Word) : Word := if (if uns then a.ult b else a.slt b) then b else a

/-- Bits 63:32 of the exact product. -/
def mulhW (uns : Bool) (a b : Word) : Word :=
  if uns then ((a.setWidth 64 * b.setWidth 64) >>> 32).setWidth 32
  else ((a.signExtend 64 * b.signExtend 64) >>> 32).setWidth 32

/-- `bfx`: w bits from pos up, bits above 31 reading as 0. -/
def bfxW (sx : Bool) (w : Nat) (a pos : Word) : Word :=
  let f := (a >>> (pos.toNat % 32)) &&& BitVec.ofNat 32 (2 ^ w - 1)
  if sx && decide (1 ≤ w) && bit f (w - 1) then f ||| BitVec.ofNat 32 (2 ^ 32 - 2 ^ w) else f

/-- `bfi`: w bits of b put at pos, bits beyond 31 dropped. -/
def bfiW (w : Nat) (a b pos : Word) : Word :=
  let m := BitVec.ofNat 32 ((2 ^ w - 1) <<< (pos.toNat % 32))
  (a &&& ~~~m) ||| ((b <<< (pos.toNat % 32)) &&& m)

/-- `lih`: the immediate over the low half of a. -/
def lihW (a : Word) (i : BitVec 16) : Word := (i.setWidth 32 <<< 16) ||| (a &&& 0xFFFF)

/-- The two-source scalar form. -/
def xBin (h : XHdr) (d : SDst) (a b : SSrc) (l : Nat) (f : Word → Word → Word) (s : State) :
    Host.Outcome State Fault Refusal :=
  xScalar h d l (sPorts a ++ sPorts b) (fun s => (f (s.rS a) (s.rS b), fNone)) s

/-- The form with a 16-bit immediate. -/
def xImm (h : XHdr) (d : SDst) (a : SSrc) (l : Nat) (f : Word → Word) (s : State) :
    Host.Outcome State Fault Refusal :=
  xScalar h d l (sPorts a) (fun s => (f (s.rS a), fNone)) s

/-! ## Meanings -/

/-- `nop` has no effect but its tokens and its guard (R37). -/
def execXNop (h : XHdr) (s : State) : Host.Outcome State Fault Refusal :=
  xIssue h 0 [] noBlock (fun t => t.xNext.xPush h 0) s

def execXAdd (h : XHdr) (d : SDst) (a b : SSrc) (s : State) : Host.Outcome State Fault Refusal :=
  xBin h d a b 1 (fun x y => x + y) s
def execXSub (h : XHdr) (d : SDst) (a b : SSrc) (s : State) : Host.Outcome State Fault Refusal :=
  xBin h d a b 1 (fun x y => x - y) s
def execXAnd (h : XHdr) (d : SDst) (a b : SSrc) (s : State) : Host.Outcome State Fault Refusal :=
  xBin h d a b 1 (fun x y => x &&& y) s
def execXOr (h : XHdr) (d : SDst) (a b : SSrc) (s : State) : Host.Outcome State Fault Refusal :=
  xBin h d a b 1 (fun x y => x ||| y) s
def execXXor (h : XHdr) (d : SDst) (a b : SSrc) (s : State) : Host.Outcome State Fault Refusal :=
  xBin h d a b 1 (fun x y => x ^^^ y) s
def execXShl (h : XHdr) (d : SDst) (a b : SSrc) (s : State) : Host.Outcome State Fault Refusal :=
  xBin h d a b 1 shlW s
def execXShr (h : XHdr) (d : SDst) (a b : SSrc) (s : State) : Host.Outcome State Fault Refusal :=
  xBin h d a b 1 shrW s
def execXSra (h : XHdr) (d : SDst) (a b : SSrc) (s : State) : Host.Outcome State Fault Refusal :=
  xBin h d a b 1 sraW s
def execXMin (h : XHdr) (uns : Bool) (d : SDst) (a b : SSrc) (s : State) : Host.Outcome State Fault Refusal :=
  xBin h d a b 1 (minW uns) s
def execXMax (h : XHdr) (uns : Bool) (d : SDst) (a b : SSrc) (s : State) : Host.Outcome State Fault Refusal :=
  xBin h d a b 1 (maxW uns) s
def execXMul (h : XHdr) (d : SDst) (a b : SSrc) (s : State) : Host.Outcome State Fault Refusal :=
  xBin h d a b 3 (fun x y => x * y) s
def execXMulh (h : XHdr) (uns : Bool) (d : SDst) (a b : SSrc) (s : State) : Host.Outcome State Fault Refusal :=
  xBin h d a b 3 (mulhW uns) s

/-- `sel`: if pC then a else b. -/
def execXSel (h : XHdr) (d : SDst) (a b : SSrc) (p : Fin 8) (s : State) : Host.Outcome State Fault Refusal :=
  xScalar h d 1 (sPorts a ++ sPorts b) (fun s => (if s.rP p then s.rS a else s.rS b, fNone)) s

def execXClz (h : XHdr) (d : SDst) (a : SSrc) (s : State) : Host.Outcome State Fault Refusal :=
  xScalar h d 1 (sPorts a) (fun s => (BitVec.ofNat 32 (clzNat (s.rS a).toNat 32), fNone)) s
def execXPopc (h : XHdr) (d : SDst) (a : SSrc) (s : State) : Host.Outcome State Fault Refusal :=
  xScalar h d 1 (sPorts a) (fun s => (BitVec.ofNat 32 (popNat (s.rS a).toNat 32), fNone)) s

def execXBfx (h : XHdr) (sx : Bool) (w : Fin 64) (d : SDst) (a pos : SSrc) (s : State) :
    Host.Outcome State Fault Refusal :=
  xBin h d a pos 1 (bfxW sx w.val) s
def execXBfi (h : XHdr) (w : Fin 64) (d : SDst) (a b pos : SSrc) (s : State) : Host.Outcome State Fault Refusal :=
  xScalar h d 1 (sPorts a ++ sPorts b ++ sPorts pos) (fun s => (bfiW w.val (s.rS a) (s.rS b) (s.rS pos), fNone)) s
def execXLea (h : XHdr) (k : Fin 8) (d : SDst) (a b : SSrc) (s : State) : Host.Outcome State Fault Refusal :=
  xBin h d a b 1 (fun x y => x + (y <<< k.val)) s

def execXAddi (h : XHdr) (d : SDst) (a : SSrc) (i : BitVec 16) (s : State) : Host.Outcome State Fault Refusal :=
  xImm h d a 1 (fun x => x + i.signExtend 32) s
def execXAndi (h : XHdr) (d : SDst) (a : SSrc) (i : BitVec 16) (s : State) : Host.Outcome State Fault Refusal :=
  xImm h d a 1 (fun x => x &&& i.setWidth 32) s
def execXOri (h : XHdr) (d : SDst) (a : SSrc) (i : BitVec 16) (s : State) : Host.Outcome State Fault Refusal :=
  xImm h d a 1 (fun x => x ||| i.setWidth 32) s
def execXXori (h : XHdr) (d : SDst) (a : SSrc) (i : BitVec 16) (s : State) : Host.Outcome State Fault Refusal :=
  xImm h d a 1 (fun x => x ^^^ i.setWidth 32) s
def execXShli (h : XHdr) (d : SDst) (a : SSrc) (i : BitVec 16) (s : State) : Host.Outcome State Fault Refusal :=
  xImm h d a 1 (fun x => shlW x (i.setWidth 32)) s
def execXShri (h : XHdr) (d : SDst) (a : SSrc) (i : BitVec 16) (s : State) : Host.Outcome State Fault Refusal :=
  xImm h d a 1 (fun x => shrW x (i.setWidth 32)) s
def execXSrai (h : XHdr) (d : SDst) (a : SSrc) (i : BitVec 16) (s : State) : Host.Outcome State Fault Refusal :=
  xImm h d a 1 (fun x => sraW x (i.setWidth 32)) s
def execXLi (h : XHdr) (d : SDst) (i : BitVec 16) (s : State) : Host.Outcome State Fault Refusal :=
  xScalar h d 1 [] (fun _ => (i.signExtend 32, fNone)) s
def execXLih (h : XHdr) (d : SDst) (a : SSrc) (i : BitVec 16) (s : State) : Host.Outcome State Fault Refusal :=
  xImm h d a 1 (fun x => lihW x i) s
def execXMuli (h : XHdr) (d : SDst) (a : SSrc) (i : BitVec 16) (s : State) : Host.Outcome State Fault Refusal :=
  xImm h d a 3 (fun x => x * i.signExtend 32) s

/-! ## Compares and predicates (R124, R125) -/

def execXCmp (h : XHdr) (c : ICond) (p : Fin 8) (a b : SSrc) (s : State) : Host.Outcome State Fault Refusal :=
  xPredicate h p 1 (sPorts a ++ sPorts b) (fun s => icond c (s.rS a) (s.rS b)) s
def execXCmpi (h : XHdr) (c : ICond) (p : Fin 8) (a : SSrc) (i : BitVec 16) (s : State) :
    Host.Outcome State Fault Refusal :=
  xPredicate h p 1 (sPorts a) (fun s => icond c (s.rS a) (i.signExtend 32)) s
def execXPand (h : XHdr) (p a b : Fin 8) (s : State) : Host.Outcome State Fault Refusal :=
  xPredicate h p 1 [] (fun s => s.rP a && s.rP b) s
def execXPor (h : XHdr) (p a b : Fin 8) (s : State) : Host.Outcome State Fault Refusal :=
  xPredicate h p 1 [] (fun s => s.rP a || s.rP b) s
def execXPxor (h : XHdr) (p a b : Fin 8) (s : State) : Host.Outcome State Fault Refusal :=
  xPredicate h p 1 [] (fun s => s.rP a != s.rP b) s
def execXPnot (h : XHdr) (p a : Fin 8) (s : State) : Host.Outcome State Fault Refusal :=
  xPredicate h p 1 [] (fun s => !s.rP a) s
def execXPmov (h : XHdr) (p a : Fin 8) (s : State) : Host.Outcome State Fault Refusal :=
  xPredicate h p 1 [] (fun s => s.rP a) s
def execXPget (h : XHdr) (d : SDst) (a : Fin 8) (s : State) : Host.Outcome State Fault Refusal :=
  xScalar h d 1 [] (fun s => (if s.rP a then 1 else 0, fNone)) s

end Sys2Proof.Machine
end

