-- ==== Sys2Proof/Machine/XControl.lean ====
section
/-! DEFINITION. Machine/XControl.lean: control instructions of the X stream (spec/06 R105, R106, R112-R118) and its fence
(spec/12 R243). -/
namespace Sys2Proof.Machine
open Sys2Proof

/-- A control syllable whose guard is true, issued as a delay syllable, is illegal before it pops anything (R113). -/
def xControl (h : XHdr) (srcs : List Nat) (blk : State → Option State) (eff : State → State) (s : State) :
    Host.Outcome State Fault Refusal :=
  if s.guard h && s.tc.brdly != 0 then .next s.illegal else xIssue h 0 srcs blk eff s

/-- A taken branch of the column, recorded in the trace when branches are (spec/22 R330). -/
def State.xTaken (s : State) (tgt : Word) : State :=
  let s :=
    if (s.part s.tb.part).trcBr then s.traceAt s.turn.core s.turn.ctx 1 s.turn.col.val 3 s.tc.pc (tgt.setWidth 64) 0 else s
  s.modTc fun c => c.taken tgt

/-- A return, recorded as one. -/
def State.xReturn (s : State) (tgt : Word) : State :=
  (s.traceAt s.turn.core s.turn.ctx 1 s.turn.col.val 4 s.tc.pc (tgt.setWidth 64) 0).modTc fun c => c.taken tgt

def execXBr (h : XHdr) (disp : BitVec 16) (s : State) : Host.Outcome State Fault Refusal :=
  xControl h [] noBlock (fun t => (t.xTaken (s.tc.pc + disp.signExtend 32)).xPush h 0) s

def execXJr (h : XHdr) (a : SSrc) (s : State) : Host.Outcome State Fault Refusal :=
  xControl h (sPorts a) noBlock (fun t => (t.xTaken (s.rS a)).xPush h 0) s

/-- `call`: the link PC + 3 is a result of latency 1; a guarded-off call pushes at t + 1. -/
def execXCall (h : XHdr) (d : SDst) (disp : BitVec 16) (s : State) : Host.Outcome State Fault Refusal :=
  if s.guard h && s.tc.brdly != 0 then .next s.illegal
  else xIssue h 1 [] noBlock (fun t =>
    (t.wrS h d (s.tc.pc + 3) 1 fNone).xTaken (s.tc.pc + disp.signExtend 32)) s

def execXRet (h : XHdr) (a : SSrc) (s : State) : Host.Outcome State Fault Refusal :=
  xControl h (sPorts a) noBlock (fun t => (t.xReturn (s.rS a)).xPush h 0) s

/-- `brq`: pop an outcome and take the branch when it differs from `.n`. Port 8 is the branch-outcome queue. -/
def xBrq (h : XHdr) (n : Bool) (disp : BitVec 16) (s : State) : Host.Outcome State Fault Refusal :=
  xControl h [8] noBlock (fun t =>
    let o := bit (headVal s.tb.brq) 0
    (if o != n then t.xTaken (s.tc.pc + disp.signExtend 32) else t.xNext).xPush h 0) s

def execBrq (h : XHdr) (disp : BitVec 16) (s : State) : Host.Outcome State Fault Refusal := xBrq h false disp s
def execBrqN (h : XHdr) (disp : BitVec 16) (s : State) : Host.Outcome State Fault Refusal := xBrq h true disp s

def execXLoop (h : XHdr) (l : Bool) (a : SSrc) (disp : BitVec 16) (s : State) : Host.Outcome State Fault Refusal :=
  xControl h (sPorts a) noBlock (fun t =>
    let r := LoopReg.openAt s.tc.pc (s.rS a) (disp.setWidth 32)
    ((t.modTc fun c => if l then { c with loop1 := r } else { c with loop0 := r }).xNext).xPush h 0) s

/-- The flag of a CCS bit of column c as the joining column sees it (R106). -/
def Bank.ccsSeen (b : Bank) (me c : Fin 4) (i : Nat) : Bool :=
  bit (if me = c then (b.col c).ccs else (b.col c).ccsOld) i

/-- Every column of the mask has its flag set. -/
def Bank.joined (b : Bank) (me : Fin 4) (bt : Fin 8) (m : BitVec 4) : Bool :=
  (List.finRange 4).all fun c => !bit m c.val || b.ccsSeen me c bt.val

/-- `join` presents but holds until the flag is set for every column of the mask; it clears nothing. -/
def execJoin (h : XHdr) (b : Fin 8) (m : BitVec 4) (s : State) : Host.Outcome State Fault Refusal :=
  xControl h []
    (fun t => if t.tb.joined t.turn.col b m then none else some (t.holdWord 6 (BitVec.ofNat 64 (b.val * 2 ^ 32 + m.toNat))))
    (fun t => t.xNext.xPush h 0) s

def execCcset (h : XHdr) (b : Fin 8) (s : State) : Host.Outcome State Fault Refusal :=
  xControl h [] noBlock
    (fun t => ((t.modTc fun c => { c with ccsNext := setBit c.ccsNext b.val true }).xNext).xPush h 0) s
def execCcclr (h : XHdr) (b : Fin 8) (s : State) : Host.Outcome State Fault Refusal :=
  xControl h [] noBlock
    (fun t => ((t.modTc fun c => { c with ccsNext := setBit c.ccsNext b.val false }).xNext).xPush h 0) s

/-- `pause n`: the column presents nothing for n X cycles. -/
def execXPause (h : XHdr) (n : BitVec 16) (s : State) : Host.Outcome State Fault Refusal :=
  xControl h [] noBlock (fun t => ((t.modTc fun c => { c with hold := n.setWidth 12 }).xNext).xPush h 0) s

/-- `fin` ends the column. -/
def execXFin (h : XHdr) (s : State) : Host.Outcome State Fault Refusal :=
  xControl h [] noBlock (fun t => ((t.modTc fun c => { c with ended := true }).xNext).xPush h 0) s

/-- The X cycle in which a result has made its last write. -/
def Flight.lastWrite (f : Flight) : Nat :=
  if f.kind == .pred then f.land
  else if decide (0x48 ≤ f.dst.toNat) then f.land
  else if decide (0x40 ≤ f.dst.toNat) then f.land + 1
  else f.land + 2

/-- The X fence holds its column until earlier results have landed: its own with scope column, else all (R243). -/
def execXFence (h : XHdr) (_k : FenceKind) (sc : Scope) (s : State) : Host.Outcome State Fault Refusal :=
  xIssue h 0 []
    (fun t =>
      if t.tb.inflight.any fun f => decide (t.tb.xcycle < f.lastWrite) && (sc != .col || f.col == t.turn.col) then
        some (t.holdWord wInterlock 0)
      else none)
    (fun t => t.xNext.xPush h 0) s

end Sys2Proof.Machine
end

