-- ==== Sys2Proof/Machine/EvStream.lean ====
section
/-! DEFINITION. Machine/EvStream.lean: what happens to a stream between its words: landings, tokens, queue entries, bounds,
stamps, breakpoints, boundary causes and the start of a handler. -/
namespace Sys2Proof.Machine
open Sys2Proof

/-! ## Stream ends (spec/01 R11) -/

/-- One stream of a unit has ended; when all three have, the unit's completion is looked for. -/
def State.streamEnd (s : State) (g : Fin 512) (k : Fin 3) : State :=
  let s := s.modBank g k fun b => { b with left := b.left - 1 }
  if (s.bank g k).left = 0 && k.val != 2 then s.schedule 0 .unitCompletion (EvArgs.at g k) else s

/-! ## Landing (spec/00 R6, spec/06 R100, R102) -/

/-- The results that reach lx, their flags and predicates in this cycle, oldest first. -/
def Bank.landLx (b : Bank) : Bank :=
  (b.inflight.filter fun (f : Flight) => f.land == b.xcycle).foldl (fun (b : Bank) (f : Flight) =>
    let b := { b with fpctl := fpctlSet b.fpctl f.fpf }
    b.modCol f.col fun c =>
      if f.kind == .pred then (if f.dst = 0 then c else { c with p := setBit c.p f.dst.toNat (bit f.val 0) })
      else { c with lx := f.val }) b

/-- The results that reach an operand register in this cycle. -/
def Bank.landO (b : Bank) : Bank :=
  (b.inflight.filter fun (f : Flight) => f.land + 1 == b.xcycle && f.isResult).foldl (fun (b : Bank) (f : Flight) =>
    if h : 0x40 ≤ f.dst.toNat ∧ f.dst.toNat - 0x40 < 8 then
      b.modCol f.col fun c => { c with o := c.o.set (f.dst.toNat - 0x40) f.val }
    else b) b

/-- A result reaches a main register. -/
def Bank.landMain (b : Bank) (f : Flight) : Bank :=
  b.modCol f.col fun c =>
    match f.kind with
    | .scalar => if h : f.dst.toNat < 56 then (if f.dst = 0 then c else { c with x := c.x.set f.dst.toNat (f.val.setWidth 32) }) else c
    | .vector => if h : f.dst.toNat < 28 then { c with v := c.v.set f.dst.toNat f.val } else c
    | .pred => c

/-- The X→A port a result pushes. -/
def Flight.port (f : Flight) : Option Nat :=
  let d := f.dst.toNat
  match f.kind with
  | .scalar => if decide (0x38 ≤ d) && decide (d ≤ 0x3B) then some (d - 0x38) else none
  | .vector => if decide (0x1C ≤ d) && decide (d ≤ 0x1F) then some (4 + (d - 0x1C)) else none
  | .pred => none

/-- The end of an X issue cycle of a place: what is due lands, stores write, deferred register writes act, the CCS flags
move on and the X issue cycle advances. -/
def State.landX (s : State) (g : Fin 512) (k : Fin 3) : State :=
  let b0 := s.bank g k
  let s := b0.xsysw.foldl (fun (s : State) (x : Fin 4 × BitVec 12 × Word) => s.writeRegX g k x) s
  let s := s.modBank g k fun b => { b.landLx.landO with xsysw := [] }
  let s := (b0.inflight.filter fun (f : Flight) => f.land == b0.xcycle).foldl
    (fun (s : State) (f : Flight) =>
      match f.push with
      | some p => (s.modBank g k fun b => { b with px := b.px + 1 }).pushToken g k (some p)
      | none => s) s
  let main := b0.inflight.filter fun (f : Flight) => f.land + 2 == b0.xcycle
  let s := s.modBank g k fun b => main.foldl (fun (b : Bank) (f : Flight) => b.landMain f) b
  let s := (sortBy (fun (x y : Flight) => decide (x.col < y.col)) main).foldl
    (fun (s : State) (f : Flight) => match f.port with | some q => s.pushXA g k q f.val | none => s) s
  let s := s.modCore g fun c => { c with sp := b0.xstores.foldl (fun (m : Memory) (x : Host.Cell) => m.write x.1 x.2) c.sp }
  let s := s.modBank g k fun b =>
    { b with
      xstores := [], xBusy := 0
      cols := b.cols.map fun c => { c with ccsOld := c.ccs, ccs := c.ccsNext }
      inflight := b.inflight.filter fun (f : Flight) => decide (b.xcycle < f.lastWrite)
      xcycle := b.xcycle + 1 }
  let b := s.bank g k
  if b.cols.toList.all (fun c => c.ended) && b.inflight.isEmpty && !b.xEnded then
    (s.modBank g k fun b => { b with xEnded := true }).streamEnd g k
  else s

def execXResultLanding (s : State) : Host.Outcome State Fault Refusal := .next (s.landX s.ev.g s.ev.k)

/-! ## Tokens and queue entries (spec/06 R104) -/

/-- A travelling token reaches its consumer. -/
def execTokenPoppable (s : State) : Host.Outcome State Fault Refusal :=
  .next (s.modBank s.ev.g s.ev.k fun b => b.modFlag (Fin.ofNat 16 s.ev.n) fun t =>
    if t.travel = 0 then t else { t with travel := t.travel - 1, held := t.held + 1 })

/-- A queue entry becomes poppable; numbers from 16 on name the X→A queues. -/
def execQueueEntryPoppable (s : State) : Host.Outcome State Fault Refusal :=
  let up (l : List QEntry) : List QEntry :=
    updateFirst (fun (e : QEntry) => e.id == s.ev.id) (fun (e : QEntry) => { e with ready := true }) l
  .next (s.modBank s.ev.g s.ev.k fun b =>
    if decide (16 ≤ s.ev.n) then b.setQXA (s.ev.n - 16) (up (b.qXA (s.ev.n - 16)))
    else b.setQAX s.ev.n (up (b.qAX s.ev.n)))

/-! ## Bounds, stamps and stops -/

/-- The wait of the actor of the turn. -/
def State.turnWait (s : State) : Option Waiting :=
  match s.turn.stream with
  | .a => s.tb.aWait
  | .m => s.tb.mWait
  | .x => s.tc.wait

/-- STAMP and BOUND of the long form or M word of the turn (spec/02 R33, R34). -/
def Turn.stamp (t : Turn) : Nat :=
  match t.stream with | .m => field t.word 96 24 | .a => field t.word 72 24 | .x => 0
def Turn.boundField (t : Turn) : Nat :=
  match t.stream with
  | .m => field t.word 76 20
  | .a => if isLong (t.word.setWidth 48) then field t.word 52 20 else 0
  | .x => 0

/-- The bound of the waits of the word of the turn; none when it has none (spec/06 R111). -/
def State.boundOf (s : State) : Option Nat :=
  let b := s.tb
  let reg := match s.turn.stream with | .a => b.waitbndA | .x => b.waitbndX | .m => b.waitbndM
  let n := if s.turn.boundField = 0 then reg.toNat else s.turn.boundField
  if n != 0 then some n else if b.detm then some (2 ^ 20 - 1) else none

/-- The wait of the actor of the turn has reached its bound (log 12). -/
def State.boundReached (s : State) : Bool :=
  match s.turnWait, s.boundOf with
  | some w, some n => decide (w.obj < 256) && decide (n ≤ s.cycle - w.since)
  | _, _ => false

/-- The bound of an issued rotation has come (`flag`; spec/10 R193): WAIT_BOUND names it when its exchange has not begun. A bank
that does not run takes it when it runs again. The rotation stays pending and the PCs are those of the next unissued words (log
44). -/
def State.rotBound (s : State) : State :=
  let g := s.ev.g
  let k := s.ev.k
  match (s.core g).rot with
  | none => s
  | some x =>
    if x.bank != k || x.since != s.ev.id || (s.cluster (clusterOf g)).rotating then s
    else if (s.bank g k).st == .running then
      s.takeTrapAt g k .a 0 (s.ev.va.setWidth 128) s.ev.w 3 7 0
    else s.schedule 1 .waitBound s.ev

/-- WAIT_BOUND, precise at the word that waits, or for a rotation that waits for its partners. -/
def execWaitBound (s : State) : Host.Outcome State Fault Refusal :=
  if s.ev.flag then .next s.rotBound
  else match s.turnWait with
  | some w => .next (s.trap 3 (BitVec.ofNat 64 w.obj) w.detail)
  | none => .next s

/-- STAMP_OVERRUN with the stamp and the SFC at the trap (spec/06 R110). -/
def State.overrun (s : State) : State := s.trap 4 (BitVec.ofNat 64 s.turn.stamp) ((s.sfc s.tb).setWidth 64)
def execStampOverrun (s : State) : Host.Outcome State Fault Refusal := .next s.overrun

/-- Core cycles until the stamp of the word of the turn, modulo 2^24. -/
def State.stampDelta (s : State) (stamp : BitVec 24) : Nat := (stamp - (s.sfc s.tb).setWidth 24).toNat

/-- A stamped word holds before its stamp and overruns after it; at its stamp it may issue (spec/06 R110). -/
def State.stampGate (s : State) (stamp : BitVec 24) : Option State :=
  if !s.tb.detm then none
  else
    let d := s.stampDelta stamp
    if d = 0 then none else if decide (d ≤ 2 ^ 23) then some (s.how .holding) else some s.overrun

/-- Breakpoint i stops the word of the turn, unissued (spec/22 R327). -/
def execBreakpoint (s : State) : Host.Outcome State Fault Refusal :=
  .next (s.trap 29 (BitVec.ofNat 64 (0x10000 + s.ev.n % 2)) 0)

/-- The breakpoint that the word of the turn meets. -/
def State.breakAt (s : State) : Option Nat :=
  let c := s.core s.turn.core
  let pc := match s.turn.stream with | .a => s.tb.apc | .x => s.tc.pc | .m => s.tb.mpc
  let hit (bp : Word) : Bool :=
    field bp 30 2 == streamCode s.turn.stream && (s.turn.stream != .x || field bp 28 2 == s.turn.col.val) &&
      field bp 0 28 == pc.toNat
  if s.turn.ctx.val = 2 || s.tb.bpSkip == some (s.turn.stream, s.turn.col) then none
  else if hit c.bp0 then some 0 else if hit c.bp1 then some 1 else none

/-- A cause that waits for the next A word boundary (spec/18 R284). -/
def State.raiseBoundary (s : State) (g : Fin 512) (k : Fin 3) (cause : Byte) (d0 d1 : DWord) : State :=
  s.modBank g k fun b =>
    if b.unit.isSome then { b with pending := b.pending ++ [{ cause := cause, detail0 := d0, detail1 := d1 }] } else b

/-- The first pending boundary cause is delivered before the next A word. -/
def execBoundaryCauseDelivery (s : State) : Host.Outcome State Fault Refusal :=
  let g := s.ev.g
  let k := s.ev.k
  match (s.bank g k).pending with
  | x :: l =>
    .next ((s.modBank g k fun b => { b with pending := l }).takeTrap g k .a 0 s.turn.word x.cause x.detail0 x.detail1)
  | [] => .next s

/-- COPY_FAULT waits for the next A word: `w` the command's pc, `w2` the row, `n` the cause (spec/10 R208). -/
def execCopyFault (s : State) : Host.Outcome State Fault Refusal :=
  .next (s.raiseBoundary s.ev.g s.ev.k 16 (BitVec.ofNat 64 (s.ev.w.toNat * 2 ^ 32 + s.ev.w2.toNat)) (BitVec.ofNat 64 s.ev.n))

/-- ORED_FULL waits for the next A word, naming the reduction's pc (spec/12 R247). -/
def execOredFull (s : State) : Host.Outcome State Fault Refusal :=
  .next (s.raiseBoundary s.ev.g s.ev.k 18 (s.ev.w.setWidth 64) 0)

/-! ## The handler (spec/18 R282, R283) -/

/-- What issued before the trap edge has ended: M commands retired, loads returned, stores performed. Accesses that wait
for a fault answer are in the replay list. -/
def State.quiet (s : State) (g : Fin 512) (k : Fin 3) : Bool :=
  let b := s.bank g k
  (b.ops.all fun (o : AOp) => o.fault != 0 || (o.performed && match o.dst with | .none => true | _ => false)) &&
    ((s.cluster (clusterOf g)).cmds.all fun (c : ArrCmd) => c.core != g || c.bank.val != k.val || c.retired)

/-- The handler's image as the unit of the system context, when it is usable (R283). -/
def State.handlerUnit (s : State) (g : Fin 512) : Option UnitInfo :=
  let p := s.partAt g
  let base := (s.part p).trapimg
  if base = 0 then none
  else
    let va := mkVA 0 (base.toNat * 2 ^ 17)
    match s.readImage p va with
    | none => none
    | some i =>
      if i.xLen.toList.drop 1 |>.any fun w => w != 0 then none
      else some { ((UnitInfo.blank p).withImage (BitVec.ofNat 64 va) i) with mLen := 0, started := true }

/-- The system context at the handler's start. -/
def Bank.handlerStart (old : Bank) (u : UnitInfo) (saveVA : Nat) (cause : Byte) : Bank :=
  let b := { Bank.reset with
    st := .running, unit := some u, ops := old.ops, nextId := old.nextId, mEnded := true, left := 2
    a := (Bank.reset.a.set 1 (BitVec.ofNat 64 saveVA)).set 2 (cause.setWidth 64)
    cols := Vector.replicate 4 { Column.reset with ended := true } }
  b.modCol 0 fun c => { c with ended := u.xLen.get 0 == 0, x := c.x.set 1 (cause.setWidth 32) }

/-- The dump, then the handler's first words; without a usable handler the unit completes with its cause. -/
def execHandlerStart (s : State) : Host.Outcome State Fault Refusal :=
  let g := s.ev.g
  match (s.core g).handling with
  | none => .next s
  | some k =>
    let kb : Fin 3 := k.castLE (by decide)
    if !s.quiet g kb then .next (s.schedule 1 .handlerStart s.ev)
    else
      let s := s.dump g k
      let cause := match (s.bank g kb).trap with | some t => t.cause | none => 0
      match s.handlerUnit g with
      | none => .next ((s.modCore g fun c => { c with handling := none }).stopWith true g kb 2 cause)
      | some u => .next (s.modBank g 2 fun b => b.handlerStart u (s.saveVA g k) cause)

/-! ## Register writes with a row of their own -/

def execLcWrite (s : State) : Host.Outcome State Fault Refusal :=
  .next (s.modBank s.ev.g s.ev.k fun b =>
    b.ctrlWrite (match s.ev.st with | .x => some s.ev.col | _ => none) (if s.ev.flag then 0x04B else 0x048) s.ev.w)

def execSfcloRead (s : State) : Host.Outcome State Fault Refusal := .next (s.latchSfchi s.ev.g s.ev.k)

def execColerrWrite (s : State) : Host.Outcome State Fault Refusal := .next (s.writeColerr s.ev.p s.ev.w)

def execAccliveWrite (s : State) : Host.Outcome State Fault Refusal :=
  .next (s.modCore s.ev.g fun c => c.writeAcclive s.ev.k s.ev.w)

def execFltctlWrite (s : State) : Host.Outcome State Fault Refusal := .next (s.writeFltctl s.ev.p s.ev.w)

def execDbgctlPclr (s : State) : Host.Outcome State Fault Refusal := .next (s.clearPerf s.ev.p)

def execTrcctlWrite (s : State) : Host.Outcome State Fault Refusal := .next (s.writeTrcctl s.ev.p s.ev.w)

def execReplayctlWrite (s : State) : Host.Outcome State Fault Refusal := .next (s.writeReplayctl s.ev.p s.ev.w)

end Sys2Proof.Machine
end

