-- ==== Sys2Proof/Machine/XSystem.lean ====
section
/-! DEFINITION. Machine/XSystem.lean: the system instructions of the X stream (spec/18 R291, R293, R294, R296). -/
namespace Sys2Proof.Machine
open Sys2Proof

/-- An instruction that is illegal, when its guard is true, where `bad` holds. -/
def xLegal (h : XHdr) (bad : Bool) (s : State) (k : Host.Outcome State Fault Refusal) : Host.Outcome State Fault Refusal :=
  if s.guard h && bad then .next s.illegal else k

/-- `trap n` (X): TRAP_INSTR with the column's pc past the `trap`; in the system context a double trap. -/
def execXTrap (h : XHdr) (n : BitVec 16) (s : State) : Host.Outcome State Fault Refusal :=
  xIssue h 0 [] (fun t => some ((t.xNext).trap 28 (n.setWidth 64) 0)) (fun t => t) s

/-- The accesses of the handler have performed. -/
def Bank.storesDone (b : Bank) : Bool :=
  b.ops.all fun o => match o.body with | .load _ => true | .gather _ => true | _ => o.performed

/-- `eret`: waits for the handler's A stream and its stores, then the unit resumes (R289). -/
def execEret (h : XHdr) (s : State) : Host.Outcome State Fault Refusal :=
  xLegal h (s.turn.ctx.val != 2 || s.turn.col.val != 0) s
    (xIssue h 0 [] (fun t => if t.tb.aEnded && t.tb.storesDone then none else some (t.stall wOwner 0))
      (fun t => t.returnFromTrap t.turn.core) s)

/-- `sysr` (X): the value at issue, in xD two X cycles later. -/
def execXSysr (h : XHdr) (d : SDst) (cr : BitVec 12) (s : State) : Host.Outcome State Fault Refusal :=
  xLegal h (s.readReg cr.toNat).isNone s
    (xIssue h 2 [] noBlock
      (fun t =>
        let t := if cr.toNat = 0x040 then t.latchSfchi t.turn.core t.turn.ctx else t
        (t.wrS h d ((s.readReg cr.toNat).getD 0) 2 fNone).xNext) s)

/-- `sysw` (X): the write acts for syllables that issue at a later X cycle. -/
def execXSysw (h : XHdr) (a : SSrc) (cr : BitVec 12) (s : State) : Host.Outcome State Fault Refusal :=
  xLegal h (!s.mayWriteReg cr.toNat) s
    (xIssue h 0 (sPorts a) (fun t => if t.resetBusy cr.toNat then some (t.stall wOwner 0) else none)
      (fun t => ((t.modTb fun b => { b with xsysw := b.xsysw ++ [(s.turn.col, cr, s.rS a)] }).xNext).xPush h 0) s)

/-- `halt` stops the unit with fault and cause HALTED; in the system context it ends the handler and the trapped unit
completes with the cause of SCAUSE (R294). -/
def State.haltAt (s : State) (g : Fin 512) (k : Fin 3) : State :=
  if k.val = 2 then s.endHandler g ((s.core g).scause.setWidth 8) else s.stopWith true g k 2 30

def execHalt (h : XHdr) (s : State) : Host.Outcome State Fault Refusal :=
  xIssue h 0 [] (fun t => some ((t.haltAt t.turn.core t.turn.ctx).how .trapped)) (fun t => t) s

/-- `dbgstop n`: DEBUG_STOP after the syllable when debug stops are enabled, else nothing. -/
def execDbgstop (h : XHdr) (n : BitVec 16) (s : State) : Host.Outcome State Fault Refusal :=
  xLegal h (s.turn.ctx.val == 2) s
    (xIssue h 0 [] noBlock
      (fun t =>
        let r := (t.xNext).xPush h 0
        if (s.part s.tb.part).stopen then r.trap 29 (n.setWidth 64) 0 else r) s)

/-- `yield`: the bank switches after the X cycle when the other bank can run and DETM is 0; reason 2 of the trace. -/
def execYield (h : XHdr) (s : State) : Host.Outcome State Fault Refusal :=
  xLegal h (s.turn.ctx.val == 2) s
    (xIssue h 0 [] noBlock
      (fun t =>
        let r := (t.xNext).xPush h 0
        if s.tb.detm then r else r.schedule 0 .bankSwitchTslice { EvArgs.at s.turn.core s.turn.ctx with n := 2 }) s)

end Sys2Proof.Machine
end

