-- ==== Sys2Proof/Machine/AScalar.lean ====
section
/-! DEFINITION. Machine/AScalar.lean: arithmetic, branches, loops and system words of the A stream (spec/10 R194, spec/06
R114-R118, spec/18 R292). -/
namespace Sys2Proof.Machine
open Sys2Proof

/-! ## Arithmetic (R194) -/

/-- A two-operand result, there for the next word. -/
def aBin (f : DWord → DWord → DWord) (h : AHdr) (d a b : Fin 32) (s : State) : Host.Outcome State Fault Refusal :=
  aResult h d [a, b] 1 (fun s => f (s.rA a) (s.rA b)) s

def execAAdd (h : AHdr) (d a b : Fin 32) (s : State) : Host.Outcome State Fault Refusal := aBin (· + ·) h d a b s
def execASub (h : AHdr) (d a b : Fin 32) (s : State) : Host.Outcome State Fault Refusal := aBin (· - ·) h d a b s
def execAAnd (h : AHdr) (d a b : Fin 32) (s : State) : Host.Outcome State Fault Refusal := aBin (· &&& ·) h d a b s
def execAOr (h : AHdr) (d a b : Fin 32) (s : State) : Host.Outcome State Fault Refusal := aBin (· ||| ·) h d a b s
def execAXor (h : AHdr) (d a b : Fin 32) (s : State) : Host.Outcome State Fault Refusal := aBin (· ^^^ ·) h d a b s
/-- A count of 64 or more gives 0, or 64 copies of the sign for `sra`. -/
def execAShl (h : AHdr) (d a b : Fin 32) (s : State) : Host.Outcome State Fault Refusal :=
  aBin (fun x y => if decide (64 ≤ y.toNat) then 0 else x <<< y.toNat) h d a b s
def execAShr (h : AHdr) (d a b : Fin 32) (s : State) : Host.Outcome State Fault Refusal :=
  aBin (fun x y => x >>> y.toNat) h d a b s
def execASra (h : AHdr) (d a b : Fin 32) (s : State) : Host.Outcome State Fault Refusal :=
  aBin (fun x y => x.sshiftRight y.toNat) h d a b s
/-- The product is there for a word issued 3 A cycles later. -/
def execAMul (h : AHdr) (d a b : Fin 32) (s : State) : Host.Outcome State Fault Refusal :=
  aResult h d [a, b] 3 (fun s => s.rA a * s.rA b) s
def execAMin (h : AHdr) (uns : Bool) (d a b : Fin 32) (s : State) : Host.Outcome State Fault Refusal :=
  aBin (fun x y => if (if uns then y.ult x else y.slt x) then y else x) h d a b s
def execAMax (h : AHdr) (uns : Bool) (d a b : Fin 32) (s : State) : Host.Outcome State Fault Refusal :=
  aBin (fun x y => if (if uns then x.ult y else x.slt y) then y else x) h d a b s

/-- Bits pos .. pos + w of a, for a field of w + 1 bits, sign- or zero-extended. -/
def bfx64 (sx : Bool) (w : Nat) (a p : DWord) : DWord :=
  let f := field a (p.toNat % 64) (w + 1)
  if sx && f.testBit w then BitVec.ofInt 64 ((f : Int) - 2 ^ (w + 1)) else BitVec.ofNat 64 f

def execABfx (h : AHdr) (sx : Bool) (w : Fin 64) (d a p : Fin 32) (s : State) : Host.Outcome State Fault Refusal :=
  aBin (bfx64 sx w.val) h d a p s

/-- A result from one register and an immediate. -/
def aImm (f : DWord → DWord) (h : AHdr) (d a : Fin 32) (s : State) : Host.Outcome State Fault Refusal :=
  aResult h d [a] 1 (fun s => f (s.rA a)) s

def execAAddi (h : AHdr) (d a : Fin 32) (i : BitVec 16) (s : State) : Host.Outcome State Fault Refusal :=
  aImm (fun x => x + i.signExtend 64) h d a s
def execAAndi (h : AHdr) (d a : Fin 32) (i : BitVec 16) (s : State) : Host.Outcome State Fault Refusal :=
  aImm (fun x => x &&& i.setWidth 64) h d a s
def execALi (h : AHdr) (d : Fin 32) (i : BitVec 16) (s : State) : Host.Outcome State Fault Refusal :=
  aResult h d [] 1 (fun _ => i.signExtend 64) s
def execALih (h : AHdr) (d a : Fin 32) (i : BitVec 16) (k : Fin 4) (s : State) : Host.Outcome State Fault Refusal :=
  aImm (fun x => setBits x (16 * k.val) 16 i.toNat) h d a s

/-! ## Branches (R114) -/

/-- A taken branch to `tgt`: no delay words, two cycles in which nothing issues; `pre` is the state before the word, whose
loops the branch leaves or keeps. -/
def State.aTaken (s : State) (pre : Bank) (tgt : Word) : State :=
  let r := loopJump tgt pre.aLoop0 pre.aLoop1
  s.modTb fun b => { b with apc := tgt, aLoop0 := r.1, aLoop1 := r.2, aPause := 2 }

/-- The trace of a taken branch, when branches are recorded. -/
def State.aTraceBr (s : State) (pc tgt : Word) : State :=
  if (s.part s.tb.part).trcBr then s.traceAt s.turn.core s.turn.ctx 0 0 3 pc (tgt.setWidth 64) 0 else s

/-- Push an outcome to the branch-outcome queue. -/
def State.pushOutcome (s : State) (o : Bool) : State :=
  (s.modTb fun b => { b.reserveAX 8 (if o then 1 else 0) with pa := b.pa + 1 }).schedule 4 .queueEntryPoppable
    { EvArgs.at s.turn.core s.turn.ctx with n := 8, id := s.tb.nextId }

/-- A conditional branch. -/
def aBranch (c : DWord → DWord → Bool) (h : AHdr) (mode : BrMod) (a b : Fin 32) (disp : BitVec 12) (s : State) :
    Host.Outcome State Fault Refusal :=
  let o := c (s.rA a) (s.rA b)
  let pc := s.tb.apc
  let tgt := pc + disp.signExtend 32
  aWord h [a, b] [] (if mode == .branch then [] else [8]) noBlock (fun t =>
    let t := if mode == .branch then t else t.pushOutcome o
    let t := if o && mode != .q then (t.aTraceBr pc tgt).aTaken s.tb tgt else t
    t.retirePush h.push) s

def execBeq (h : AHdr) (mode : BrMod) (a b : Fin 32) (disp : BitVec 12) (s : State) : Host.Outcome State Fault Refusal :=
  aBranch (icond .eq) h mode a b disp s
def execBne (h : AHdr) (mode : BrMod) (a b : Fin 32) (disp : BitVec 12) (s : State) : Host.Outcome State Fault Refusal :=
  aBranch (icond .ne) h mode a b disp s
def execBlt (h : AHdr) (mode : BrMod) (a b : Fin 32) (disp : BitVec 12) (s : State) : Host.Outcome State Fault Refusal :=
  aBranch (icond .lt) h mode a b disp s
def execBge (h : AHdr) (mode : BrMod) (a b : Fin 32) (disp : BitVec 12) (s : State) : Host.Outcome State Fault Refusal :=
  aBranch (icond .ge) h mode a b disp s
def execBltu (h : AHdr) (mode : BrMod) (a b : Fin 32) (disp : BitVec 12) (s : State) : Host.Outcome State Fault Refusal :=
  aBranch (icond .ltu) h mode a b disp s
def execBgeu (h : AHdr) (mode : BrMod) (a b : Fin 32) (disp : BitVec 12) (s : State) : Host.Outcome State Fault Refusal :=
  aBranch (icond .geu) h mode a b disp s

/-- A jump to a target that the word gives; `link` is the register that takes PC + 1, if any. -/
def aJump (h : AHdr) (srcs : List (Fin 32)) (link : Option (Fin 32)) (tgt : State → Word) (ret : Bool) (s : State) :
    Host.Outcome State Fault Refusal :=
  let pc := s.tb.apc
  let dest := tgt s
  aWord h srcs link.toList [] noBlock (fun t =>
    let t := if ret then t.traceAt t.turn.core t.turn.ctx 0 0 4 pc (dest.setWidth 64) 0 else t.aTraceBr pc dest
    let t := match link with | some d => t.wrA d ((pc + 1).setWidth 64) 1 | none => t
    (t.aTaken s.tb dest).retirePush h.push) s

def execJmp (h : AHdr) (disp : BitVec 26) (s : State) : Host.Outcome State Fault Refusal :=
  aJump h [] none (fun s => s.tb.apc + disp.signExtend 32) false s
def execAJr (h : AHdr) (a : Fin 32) (s : State) : Host.Outcome State Fault Refusal :=
  aJump h [a] none (fun s => (s.rA a).setWidth 32) false s
def execACall (h : AHdr) (d : Fin 32) (disp : BitVec 21) (s : State) : Host.Outcome State Fault Refusal :=
  aJump h [] (some d) (fun s => s.tb.apc + disp.signExtend 32) false s
def execARet (h : AHdr) (a : Fin 32) (s : State) : Host.Outcome State Fault Refusal :=
  aJump h [a] none (fun s => (s.rA a).setWidth 32) true s

/-! ## Loops, pause, fin (R115, R118) -/

def execALoop (h : AHdr) (l : Bool) (a : Fin 32) (disp : BitVec 11) (s : State) : Host.Outcome State Fault Refusal :=
  let r := LoopReg.openAt s.tb.apc ((s.rA a).setWidth 32) (disp.setWidth 32)
  aWord h [a] [] [] noBlock (fun t =>
    (t.modTb fun b => if l then { b with aLoop1 := r } else { b with aLoop0 := r }).retirePush h.push) s

/-- `pause n`: the stream issues nothing for n A cycles. -/
def execAPause (h : AHdr) (n : BitVec 16) (s : State) : Host.Outcome State Fault Refusal :=
  aWord h [] [] [] noBlock (fun t => (t.modTb fun b => { b with aPause := n.setWidth 12 }).retirePush h.push) s

/-- A word without token fields. -/
def noTokens : AHdr := { wait := none, push := none }

/-- `fin` ends the A stream. -/
def execAFin (s : State) : Host.Outcome State Fault Refusal :=
  aWord noTokens [] [] [] noBlock (fun t =>
    (t.modTb fun b => { b with aEnded := true }).streamEnd t.turn.core t.turn.ctx) s

/-! ## System words (R292) -/

/-- A word that is illegal where `bad` holds. -/
def aLegal (bad : Bool) (s : State) (k : Host.Outcome State Fault Refusal) : Host.Outcome State Fault Refusal :=
  if bad then .next s.illegal else k

def execASysr (h : AHdr) (d : Fin 32) (cr : BitVec 12) (s : State) : Host.Outcome State Fault Refusal :=
  aLegal (s.readReg cr.toNat).isNone s
    (aWord h [] [d] [] noBlock (fun t =>
      let t := if cr.toNat = 0x040 then t.latchSfchi t.turn.core t.turn.ctx else t
      (t.wrA d (((s.readReg cr.toNat).getD 0).setWidth 64) 1).retirePush h.push) s)

/-- A write acts for every later word; a write of QRESET waits while a reset is in progress. -/
def execASysw (h : AHdr) (a : Fin 32) (cr : BitVec 12) (s : State) : Host.Outcome State Fault Refusal :=
  aLegal (!s.mayWriteReg cr.toNat) s
    (aWord h [a] [] [] (fun t => if t.resetBusy cr.toNat then some (t.stall wOwner 0) else none)
      (fun t => (t.writeReg cr.toNat ((s.rA a).setWidth 32)).retirePush h.push) s)

/-- `trap n` (A): the pc stands after the word. -/
def execATrap (h : AHdr) (n : Fin 128) (s : State) : Host.Outcome State Fault Refusal :=
  aWord h [] [] [] noBlock (fun t => (t.retirePush h.push).trap 28 (BitVec.ofNat 64 n.val) 0) s

/-- `ctxsw`: chooses the bank that `eret` resumes; only in the system context. -/
def execCtxsw (h : AHdr) (b : Fin 32) (s : State) : Host.Outcome State Fault Refusal :=
  aLegal (s.turn.ctx.val != 2) s
    (aWord h [b] [] [] noBlock (fun t =>
      (t.modCore t.turn.core fun c => { c with ctxsw := some (Fin.ofNat 2 (s.rA b).toNat) }).retirePush h.push) s)

end Sys2Proof.Machine
end

