-- ==== Sys2Proof/Machine/Float.lean ====
section
/-! DEFINITION. Machine/Float.lean: exact values of the float formats, one rounding with its flags, and the arithmetic of
the vector unit (spec/03 R47-R49, R60, R63; spec/07 R126-R130). Every operation computes its exact value and rounds
once. -/
namespace Sys2Proof.Machine
open Sys2Proof

/-! ## Values -/

/-- A float value: a NaN (signaling or not), an infinity, or (−1)^neg × m × 2^e exactly. -/
inductive FVal where
  | nan (sig : Bool)
  | inf (neg : Bool)
  | fin (neg : Bool) (m : Nat) (e : Int)
  deriving DecidableEq, Repr

/-- A float format: precision, exponent of the smallest subnormal, width of the fraction, and the code of infinity without
the sign (F8: one past the largest finite), and the place of the sign. -/
structure FloatFmt where
  p : Nat
  emin : Int
  frac : Nat
  top : Nat
  sign : Nat
  f8 : Bool
  deriving DecidableEq, Repr

def fp32Fmt : FloatFmt := { p := 24, emin := -149, frac := 23, top := 0x7F800000, sign := 31, f8 := false }
def bf16Fmt : FloatFmt := { p := 8, emin := -133, frac := 7, top := 0x7F80, sign := 15, f8 := false }
def fp16Fmt : FloatFmt := { p := 11, emin := -24, frac := 10, top := 0x7C00, sign := 15, f8 := false }
def f8Fmt : FloatFmt := { p := 4, emin := -9, frac := 3, top := 0x80, sign := 7, f8 := true }

/-- The canonical quiet NaN of a format (R47, R48). -/
def FloatFmt.nan (f : FloatFmt) : Nat := if f.f8 then 0x80 else f.top + 2 ^ (f.frac - 1)

/-- The value of a code (R47, R48). -/
def FloatFmt.unpack (f : FloatFmt) (w : Nat) : FVal :=
  let neg := w.testBit f.sign
  let mag := w % 2 ^ f.sign
  if f.f8 && w % 256 == 0x80 then .nan false
  else if !f.f8 && decide (f.top < mag) then .nan (!mag.testBit (f.frac - 1))
  else if !f.f8 && mag == f.top then .inf neg
  else
    let ex := mag / 2 ^ f.frac
    let fr := mag % 2 ^ f.frac
    if ex = 0 then .fin neg fr f.emin else .fin neg (fr + 2 ^ f.frac) (f.emin + (ex - 1 : Nat))

def unpack32 (w : Word) : FVal := fp32Fmt.unpack w.toNat
def nan32 : Word := 0x7FC00000

/-! ## Rounding -/

/-- Whether the kept digits go up: `rem` of `2^sh` was cut off, and `sticky` says that the value lies above that. -/
def roundUp (rm : RMode) (neg : Bool) (kept rem sh : Nat) (sticky : Bool) : Bool :=
  let half := 2 ^ sh / 2
  match rm with
  | .rne => decide (half < rem) || (rem == half && decide (0 < sh) && (sticky || kept % 2 == 1))
  | .rtz => false
  | .rdn => neg && (rem != 0 || sticky)
  | .rup => !neg && (rem != 0 || sticky)

/-- Cut a magnitude q × 2^e (plus something below one unit of q when `sticky`) to a multiple of 2^k. -/
def cutTo (rm : RMode) (neg : Bool) (q : Nat) (e k : Int) (sticky : Bool) : Nat × Bool :=
  if k ≤ e then (q * 2 ^ (e - k).toNat, sticky)
  else
    let sh := (k - e).toNat
    let kept := q / 2 ^ sh
    let rem := q % 2 ^ sh
    (if roundUp rm neg kept rem sh sticky then kept + 1 else kept, rem != 0 || sticky)

/-- Round a magnitude to a format: the code without the sign, and the flags. Tininess is judged after rounding. -/
def FloatFmt.round (f : FloatFmt) (rm : RMode) (neg : Bool) (q : Nat) (e : Int) (sticky : Bool) : Nat × FFlags :=
  if q = 0 then (0, fNone)
  else
    let kn : Int := e + ((Nat.log2 q : Nat) : Int) + 1 - (f.p : Int)
    let k := if kn < f.emin then f.emin else kn
    let r := cutTo rm neg q e k sticky
    let code := (k - f.emin).toNat * 2 ^ f.frac + r.1
    if f.top ≤ code then
      let big := f.f8 || (match rm with | .rne => false | .rtz => true | .rdn => !neg | .rup => neg)
      (if big then f.top - 1 else f.top, fOF ||| fNX)
    else
      let un := cutTo rm neg q e kn sticky
      let tiny := decide (kn < f.emin) && !(kn + 1 == f.emin && un.1 == 2 ^ f.p)
      (code, if r.2 then (if tiny then fNX ||| fUF else fNX) else fNone)

/-- The code of a value in a format with a rounding mode (R60): a NaN is canonical, F8 has neither infinities nor a
negative zero. -/
def FloatFmt.pack (f : FloatFmt) (rm : RMode) (v : FVal) (sticky : Bool) : Nat × FFlags :=
  match v with
  | .nan _ => (f.nan, fNone)
  | .inf neg =>
    if f.f8 then ((if neg then 0xFF else 0x7F), fOF) else (f.top + (if neg then 2 ^ f.sign else 0), fNone)
  | .fin neg m e =>
    let r := f.round rm neg m e sticky
    (if neg && !(f.f8 && r.1 == 0) then r.1 + 2 ^ f.sign else r.1, r.2)

def pack32 (rm : RMode) (v : FVal) (sticky : Bool) : Word × FFlags :=
  let r := fp32Fmt.pack rm v sticky
  (BitVec.ofNat 32 r.1, r.2)

/-! ## Exact arithmetic -/

def FVal.isNan : FVal → Bool | .nan _ => true | _ => false
def FVal.isSig : FVal → Bool | .nan b => b | _ => false
def FVal.isZero : FVal → Bool | .fin _ m _ => m == 0 | _ => false

def FVal.neg : FVal → FVal
  | .nan b => .nan b
  | .inf n => .inf (!n)
  | .fin n m e => .fin (!n) m e

/-- A signed integer for a magnitude. -/
def signed (neg : Bool) (m : Nat) : Int := if neg then -(m : Int) else (m : Int)

/-- A value given as a signed integer times a power of two; the sign of an exact zero is a parameter. -/
def FVal.ofInt (zneg : Bool) (m : Int) (e : Int) : FVal :=
  if m = 0 then .fin zneg 0 0 else .fin (decide (m < 0)) m.natAbs e

/-- The exact product; `none` is 0 × ∞. -/
def FVal.mul (a b : FVal) : Option FVal :=
  match a, b with
  | .nan _, _ => some (.nan false)
  | _, .nan _ => some (.nan false)
  | .inf n, .inf n' => some (.inf (n != n'))
  | .inf n, .fin n' m _ => if m = 0 then none else some (.inf (n != n'))
  | .fin n m _, .inf n' => if m = 0 then none else some (.inf (n != n'))
  | .fin n m e, .fin n' m' e' => some (.fin (n != n') (m * m') (e + e'))

/-- The exact sum; `none` is ∞ − ∞. An exact zero takes the IEEE sign for the mode (R126). -/
def FVal.add (rm : RMode) (a b : FVal) : Option FVal :=
  match a, b with
  | .nan _, _ => some (.nan false)
  | _, .nan _ => some (.nan false)
  | .inf n, .inf n' => if n == n' then some (.inf n) else none
  | .inf n, .fin _ _ _ => some (.inf n)
  | .fin _ _ _, .inf n => some (.inf n)
  | .fin n m e, .fin n' m' e' =>
    let lo := if e < e' then e else e'
    let x := signed n (m * 2 ^ (e - lo).toNat) + signed n' (m' * 2 ^ (e' - lo).toNat)
    let zneg := if m = 0 ∧ m' = 0 ∧ n = n' then n else rm == .rdn
    some (FVal.ofInt zneg x lo)

/-- NV for a signaling operand (spec/07 R120). -/
def sigFlags (l : List FVal) : FFlags := if l.any FVal.isSig then fNV else fNone

/-- Round an exact result that may be invalid. -/
def finish32 (rm : RMode) (v : Option FVal) (f : FFlags) : Word × FFlags :=
  match v with
  | none => (nan32, f ||| fNV)
  | some v => let r := pack32 rm v false; (r.1, f ||| r.2)

def fadd32 (rm : RMode) (a b : Word) : Word × FFlags :=
  let x := unpack32 a
  let y := unpack32 b
  finish32 rm (x.add rm y) (sigFlags [x, y])

def fsub32 (rm : RMode) (a b : Word) : Word × FFlags :=
  let x := unpack32 a
  let y := unpack32 b
  finish32 rm (x.add rm y.neg) (sigFlags [x, y])

def fmul32 (rm : RMode) (a b : Word) : Word × FFlags :=
  let x := unpack32 a
  let y := unpack32 b
  finish32 rm (x.mul y) (sigFlags [x, y])

/-- a × b ± c, fused. 0 × ∞ is invalid whatever c is. -/
def ffma32 (rm : RMode) (minus : Bool) (a b c : Word) : Word × FFlags :=
  let x := unpack32 a
  let y := unpack32 b
  let z := unpack32 c
  let z' := if minus then z.neg else z
  let f := sigFlags [x, y, z]
  match x.mul y with
  | none => (nan32, f ||| fNV)
  | some p => finish32 rm (p.add rm z') f

/-- A correctly rounded quotient num / den × 2^e. -/
def roundQuot (rm : RMode) (neg : Bool) (num den : Nat) (e : Int) : Word × FFlags :=
  let sh := 64 + (Nat.log2 den + 1)
  let q := num * 2 ^ sh / den
  pack32 rm (.fin neg q (e - (sh : Int))) (num * 2 ^ sh % den != 0)

/-- The whole part of a square root, from bit `n - 1` down. -/
def isqrt (v : Nat) : Nat → Nat → Nat
  | 0, r => r
  | n + 1, r => if (r + 2 ^ n) * (r + 2 ^ n) ≤ v then isqrt v n (r + 2 ^ n) else isqrt v n r

def frcp32 (rm : RMode) (a : Word) : Word × FFlags :=
  match unpack32 a with
  | .nan b => (nan32, if b then fNV else fNone)
  | .inf n => (if n then 0x80000000 else 0, fNone)
  | .fin n m e =>
    if m = 0 then (if n then 0xFF800000 else 0x7F800000, fDZ) else roundQuot rm n 1 m (-e)

def frsqrt32 (rm : RMode) (a : Word) : Word × FFlags :=
  match unpack32 a with
  | .nan b => (nan32, if b then fNV else fNone)
  | .inf n => if n then (nan32, fNV) else (0, fNone)
  | .fin n m e =>
    if m = 0 then (if n then 0xFF800000 else 0x7F800000, fDZ)
    else if n then (nan32, fNV)
    else
      -- an even exponent, then q = whole part of 2^s / sqrt m
      let odd := e % 2 != 0
      let m := if odd then 2 * m else m
      let e := if odd then e - 1 else e
      let s := 64 + (Nat.log2 m + 1)
      let q := isqrt (2 ^ (2 * s) / m) (s + 2) 0
      pack32 rm (.fin false q (-(s : Int) - e / 2)) (q * q * m != 2 ^ (2 * s))

/-! ## 2^a and log₂ a by series of 320 fractional bits (log 10) -/

def seriesBits : Nat := 320
/-- ln 2 and 1 / ln 2 with 320 fractional bits. -/
def ln2Fixed : Nat := 1480553391661173448385607439722553250922680800745876974795605978609098082859138712941075737848984
def invLn2Fixed : Nat := 3081577904126213121686167198097690134163479766071396094403848907535455306605342191083616308484524

/-- Σ t^n / n! from term number n on, `term` being the term before. -/
def expSeries (t : Nat) : Nat → Nat → Nat → Nat
  | 0, _, _ => 0
  | fuel + 1, n, term =>
    let nx := term * t / 2 ^ seriesBits / n
    nx + expSeries t fuel (n + 1) nx

/-- Σ z^(2n+1) / (2n+1), `pw` being z^(2n+1). -/
def atanhSeries (z2 : Nat) : Nat → Nat → Nat → Nat
  | 0, _, _ => 0
  | fuel + 1, k, pw => pw / k + atanhSeries z2 fuel (k + 2) (pw * z2 / 2 ^ seriesBits)

def fexp232 (rm : RMode) (a : Word) : Word × FFlags :=
  match unpack32 a with
  | .nan b => (nan32, if b then fNV else fNone)
  | .inf n => (if n then 0 else 0x7F800000, fNone)
  | .fin n m e =>
    if m = 0 then (0x3F800000, fNone)
    else if 8 < ((Nat.log2 m : Nat) : Int) + e then
      -- magnitude 512 or more: beyond the format on one side
      if n then pack32 rm (.fin false 1 (-400)) false else pack32 rm (.fin false 1 400) false
    else
      -- x = a × 2^320, a whole number and a fraction
      let x : Int := if 0 ≤ e + 320 then signed n (m * 2 ^ (e + 320).toNat) else signed n 0
      let whole := x / 2 ^ seriesBits
      let fr := (x % 2 ^ seriesBits).toNat
      if fr = 0 then pack32 rm (.fin false 1 whole) false
      else
        let t := fr * ln2Fixed / 2 ^ seriesBits
        let one := 2 ^ seriesBits
        pack32 rm (.fin false (one + expSeries t 90 1 one) (whole - (seriesBits : Int))) true

def flog232 (rm : RMode) (a : Word) : Word × FFlags :=
  match unpack32 a with
  | .nan b => (nan32, if b then fNV else fNone)
  | .inf n => if n then (nan32, fNV) else (0x7F800000, fNone)
  | .fin n m e =>
    if m = 0 then (0xFF800000, fDZ)
    else if n then (nan32, fNV)
    else
      let l := Nat.log2 m
      let k : Int := e + (l : Int)
      if m = 2 ^ l then pack32 rm (if k = 0 then .fin false 0 0 else .fin (decide (k < 0)) k.natAbs 0) false
      else
        let one := 2 ^ seriesBits
        let z := (m - 2 ^ l) * one / (m + 2 ^ l)
        let ln := 2 * atanhSeries (z * z / one) 110 1 z
        let v : Int := k * 2 ^ seriesBits + (ln * invLn2Fixed / one : Nat)
        pack32 rm (.fin (decide (v < 0)) v.natAbs (-(seriesBits : Int))) true

/-! ## Compares -/

/-- The order of float bits with −0 below +0 (R128). -/
def fkey (w : Word) : Int := if bit w 31 then -(field w 0 31 : Int) - 1 else (field w 0 31 : Int)
def isNan32 (w : Word) : Bool := decide (0x7F800000 < field w 0 31)
def isSig32 (w : Word) : Bool := isNan32 w && !bit w 22

/-- The lesser or greater lane (R128). -/
def fmm32 (greater : Bool) (a b : Word) : Word :=
  if isNan32 a && isNan32 b then nan32
  else if isNan32 a then b
  else if isNan32 b then a
  else if greater then (if fkey a < fkey b then b else a)
  else (if fkey b < fkey a then b else a)

/-- A float condition and NV (R129). -/
def fcond (c : FCond) (a b : Word) : Bool × FFlags :=
  let un := isNan32 a || isNan32 b
  let sg := isSig32 a || isSig32 b
  let zz := field a 0 31 == 0 && field b 0 31 == 0
  let lt := decide (fkey a < fkey b) && !zz
  let eq := fkey a == fkey b || zz
  let quiet (x : Bool) : Bool × FFlags := (x, if sg then fNV else fNone)
  let loud (x : Bool) : Bool × FFlags := (!un && x, if un then fNV else fNone)
  match c with
  | .eq => quiet (!un && eq)
  | .ne => quiet (un || !eq)
  | .lt => loud lt
  | .le => loud (lt || eq)
  | .gt => loud (!lt && !eq)
  | .ge => loud (!lt)
  | .uo => quiet un
  | .or => quiet !un

/-! ## Lanes with flags -/

/-- Lane by lane with the flags of every lane. -/
def mapF (f : Nat → Word × FFlags) : Vec × FFlags :=
  (ofLanes fun l => (f l).1, (upTo 0 32).foldl (fun x l => x ||| (f l).2) fNone)

/-- One level of the ordered tree of `vredsum` (R130). -/
def pairSums (rm : RMode) : List Word → FFlags → List Word × FFlags
  | a :: b :: l, f =>
    let r := fadd32 rm a b
    let t := pairSums rm l (f ||| r.2)
    (r.1 :: t.1, t.2)
  | l, f => (l, f)

def treeSum (rm : RMode) : Nat → List Word → FFlags → Word × FFlags
  | 0, l, f => (l.headD 0, f)
  | n + 1, l, f => let r := pairSums rm l f; treeSum rm n r.1 r.2

/-- An unordered tree over sums: each node adds two of those left, which two being given by the use and the count of
additions so far. -/
def anyTree (rm : RMode) (pick : Nat → Nat × Nat) : Nat → Nat → List Word → FFlags → Word × FFlags
  | 0, _, l, f => (l.headD 0, f)
  | n + 1, i, l, f =>
    if l.length < 2 then (l.headD 0, f)
    else
      let x := (pick i).1 % l.length
      let rest := l.eraseIdx x
      let y := (pick i).2 % rest.length
      let r := fadd32 rm (l.getD x 0) (rest.getD y 0)
      anyTree rm pick n (i + 1) (rest.eraseIdx y ++ [r.1]) (f ||| r.2)

end Sys2Proof.Machine
end

