-- ==== Sys2Proof/Machine/Formats.lean ====
section
/-! DEFINITION. Machine/Formats.lean: dither, dithered codes, integer conversions and the conversions between all formats
(spec/00 R7, R8; spec/03 R48-R60). -/
namespace Sys2Proof.Machine
open Sys2Proof

/-! ## Dither (R7) -/

/-- j of `Dither(seed, row, col)`: the dither is (2j − 15) / 32. -/
def ditherJ (seed row col : Word) : Nat :=
  let h := seed ^^^ (row * 0x9E3779B1) ^^^ (col * 0x7FEB352D)
  let h := h ^^^ (h >>> 16)
  let h := h * 0x846CA68B
  let h := h ^^^ (h >>> 15)
  let h := h * 0x2C1B3C6D
  let h := h ^^^ (h >>> 16)
  (h >>> 28).toNat

/-! ## Formats -/

/-- Bits of an element; T5 packs five digits to a byte. -/
def fmtBits : Fmt → Nat
  | .fp32 => 32 | .bf16 => 16 | .fp16 => 16 | .f8 => 8 | .int8 => 8 | .d8 => 8 | .d4 => 4 | .t5 => 8 | .int32 => 32

def fmtCode : Fmt → Nat
  | .fp32 => 0 | .bf16 => 1 | .fp16 => 2 | .f8 => 3 | .int8 => 4 | .d8 => 5 | .d4 => 6 | .t5 => 7 | .int32 => 8

def fmtOf (n : Nat) : Option Fmt :=
  match n with
  | 0 => some .fp32 | 1 => some .bf16 | 2 => some .fp16 | 3 => some .f8 | 4 => some .int8 | 5 => some .d8
  | 6 => some .d4 | 7 => some .t5 | 8 => some .int32 | _ => none

/-- The float formats, codes 0-3. -/
def floatFmt : Fmt → Option FloatFmt
  | .fp32 => some fp32Fmt | .bf16 => some bf16Fmt | .fp16 => some fp16Fmt | .f8 => some f8Fmt
  | _ => none

def isFloatFmt (f : Fmt) : Bool := (floatFmt f).isSome
def isDithered : Fmt → Bool | .d8 => true | .d4 => true | .t5 => true | _ => false

/-- qmax of a dithered format (R8). -/
def qmax : Fmt → Int | .d8 => 127 | .d4 => 7 | _ => 1

/-- Something a conversion reports (R52, R236). -/
inductive FmtEvent where | none | saturation | nan | badScale | reservedT5
  deriving DecidableEq, Repr

/-! ## Dithered codes -/

/-- The digit i of a T5 byte; none for a reserved byte (R51). -/
def t5Digit (b : Nat) (i : Nat) : Option Int :=
  if b < 243 then some ((b / 3 ^ i % 3 : Nat) - (1 : Int)) else none

/-- A byte from its digits (R51). -/
def t5Byte (d : Nat → Int) : Nat :=
  ((upTo 0 5).foldl (fun n i => n + (d i + 1).toNat * 3 ^ i) 0)

/-- A stored D8 or D4 code; none for NaV (R50). -/
def codeOf (f : Fmt) (n : Nat) : Option Int :=
  match f with
  | .d4 => if n % 16 = 8 then none else some (BitVec.ofNat 4 n).toInt
  | _ => if n % 256 = 0x80 then none else some (BitVec.ofNat 8 n).toInt

/-- Quantise (R8, R52): the code, or NaV, with the event. The exact x/s + d + 1/2 = (32 x + (2j + 1) s) / (32 s) is
floored. A NaN under a bad scale meets two rows of the table of R52: the bad scale alone is recorded (DESIGN CHOICE, log 131). -/
def quantise (f : Fmt) (x s : FVal) (j : Nat) : Option Int × FmtEvent :=
  match s with
  | .nan _ => (none, .badScale)
  | .inf _ => (none, .badScale)
  | .fin sn sm se =>
    if sn || sm == 0 then (none, .badScale)
    else
      match x with
      | .nan _ => (none, .nan)
      | .inf n => (some (if n then -qmax f else qmax f), .saturation)
      | .fin xn xm xe =>
        let lo := if xe < se then xe else se
        let a := signed xn (xm * 2 ^ (xe - lo).toNat)
        let b : Int := (sm * 2 ^ (se - lo).toNat : Nat)
        let q := (32 * a + (2 * (j : Int) + 1) * b) / (32 * b)
        let c := clampInt q (-qmax f) (qmax f)
        (some c, if c = q then .none else .saturation)

/-- The exact value of Decode (R53); none is NaV. A zero product is +0 (log 17). -/
def decodeVal (q : Option Int) (s : FVal) (j : Nat) : FVal :=
  match q with
  | none => .nan false
  | some q =>
    let v : Int := 32 * q - (2 * (j : Int) - 15)
    match s with
    | .nan _ => .nan false
    | .inf n => .inf (n != decide (v < 0))
    | .fin n m e => FVal.ofInt false (signed n m * v) (e - 5)

/-! ## Integers (R49) -/

/-- Round an exact value to a whole number; the flag says that it was inexact. -/
def roundWhole (rm : RMode) (neg : Bool) (m : Nat) (e : Int) : Int × Bool :=
  let r := cutTo rm neg m e 0 false
  (signed neg r.1, r.2)

/-- A float converted to a two's-complement range: NaN gives 0, out of range and infinite saturate, all with NV; an
inexact result sets NX. -/
def toRange (rm : RMode) (lo hi : Int) (v : FVal) : Int × FFlags :=
  match v with
  | .nan _ => (0, fNV)
  | .inf n => (if n then lo else hi, fNV)
  | .fin n m e =>
    let r := roundWhole rm n m e
    let c := clampInt r.1 lo hi
    if c = r.1 then (c, if r.2 then fNX else fNone) else (c, fNV)

/-- Rounding an exact quotient x / s to INT8 under RNE, saturated (R198): a quotient that is no number gives 0. -/
def quotInt8 (x s : FVal) : Int × FmtEvent :=
  match x, s with
  | .nan _, _ => (0, .nan)
  | _, .nan _ => (0, .nan)
  | .inf _, .inf _ => (0, .nan)
  | .inf n, .fin sn _ _ => (if n != sn then -128 else 127, .saturation)
  | .fin _ _ _, .inf _ => (0, .none)
  | .fin xn xm xe, .fin sn sm se =>
    if sm = 0 then
      if xm = 0 then (0, .nan) else (if xn != sn then -128 else 127, .saturation)
    else
      let lo := if xe < se then xe else se
      let a := xm * 2 ^ (xe - lo).toNat
      let b := sm * 2 ^ (se - lo).toNat
      let q := a / b
      let r := a % b
      let up := decide (b < 2 * r) || (b == 2 * r && q % 2 == 1)
      let w := signed (xn != sn) (if up then q + 1 else q)
      let c := clampInt w (-128) 127
      (c, if c = w then .none else .saturation)

/-! ## vcvt (spec/07 R134) -/

def cvtSrcFmt : CvtSrc → Fmt
  | .fp32 => .fp32 | .bf16 => .bf16 | .fp16 => .fp16 | .f8 => .f8 | .int8 => .int8 | .int32 => .int32

/-- Convert one element between plain formats by R60. -/
def convertElem (rm : RMode) (src dst : Fmt) (x : Nat) : Nat × FFlags :=
  match floatFmt src with
  | some fs =>
    let v := fs.unpack x
    let sg := if v.isSig then fNV else fNone
    match floatFmt dst with
    | some fd => let r := fd.pack rm v false; (r.1, r.2 ||| sg)
    | none =>
      if dst == .int8 then
        let r := toRange rm (-128) 127 v
        ((BitVec.ofInt 8 r.1).toNat, r.2 ||| sg)
      else
        let r := toRange rm (-2147483648) 2147483647 v
        ((BitVec.ofInt 32 r.1).toNat, r.2 ||| sg)
  | none =>
    let w : Int := if src == .int8 then (BitVec.ofNat 8 x).toInt else (BitVec.ofNat 32 x).toInt
    match floatFmt dst with
    | some fd => fd.pack rm (FVal.ofInt false w 0) false
    | none =>
      if dst == .int8 then
        let c := clampInt w (-128) 127
        ((BitVec.ofInt 8 c).toNat, if c = w then fNone else fOF)
      else ((BitVec.ofInt 32 w).toNat, fNone)

/-- Place `n` elements of `w` bits, element f at index `at f`, over a register. -/
def placeElems (base : Vec) (w : Nat) (idx : Nat → Nat) (v : Nat → Nat) : Vec :=
  (upTo 0 32).foldl (fun r l => setBits r (w * idx l) w (v l)) base

/-- The whole conversion of `vcvt`. -/
def vcvtVal (rm : RMode) (dst : Fmt) (src : CvtSrc) (p : Nat) (a c : Vec) : Vec × FFlags :=
  let sf := cvtSrcFmt src
  let ws := fmtBits sf
  let wd := fmtBits dst
  let wn := min ws wd
  let elem (l : Nat) : Nat × FFlags :=
    convertElem rm sf dst (field a (ws * (if ws = wn then 32 * p + l else l)) ws)
  (placeElems (if wd = 32 then 0 else c) wd (fun l => if wd = wn then 32 * p + l else l) fun l => (elem l).1,
    (upTo 0 32).foldl (fun f l => f ||| (elem l).2) fNone)

/-! ## vdq (spec/07 R135) -/

def dqFmtOf : DqFmt → Fmt | .d8 => .d8 | .d4 => .d4 | .t5 => .t5

/-- The code of element e in a register; the flag says a reserved T5 byte. -/
def dqCode (f : DqFmt) (a : Vec) (e : Nat) : Option Int × Bool :=
  match f with
  | .d8 => (codeOf .d8 (field a (8 * e) 8), false)
  | .d4 => (codeOf .d4 (field a (4 * e) 4), false)
  | .t5 => let b := field a (8 * (e / 5)) 8; (t5Digit b (e % 5), decide (243 ≤ b))

/-- Lane l of `vdq`: the value, the flags, and whether the lane met a reserved T5 byte. -/
def vdqLane (f : DqFmt) (p : Nat) (a b c : Vec) (l : Nat) : Word × FFlags × Bool :=
  let tr := bit (lane b 3) 0
  let row := if tr then lane b 1 + BitVec.ofNat 32 l else lane b 1
  let col := if tr then lane b 2 else lane b 2 + BitVec.ofNat 32 l
  let q := dqCode f a (32 * p + l)
  let r := pack32 .rne (decodeVal q.1 (unpack32 (lane c l)) (ditherJ (lane b 0) row col)) false
  (r.1, if q.2 then r.2 ||| fNV else r.2, q.2)

end Sys2Proof.Machine
end

