-- ==== Sys2Proof/Machine/Owner.lean ====
section
/-! DEFINITION. Machine/Owner.lean: what happens at the owner of a byte: translation with its TLB, tags and undo records,
held irrevocable lines, poison, merged and ordered reductions, and the firmware's events (spec/09, spec/12 R246, R247, spec/13,
spec/21 R311-R317). -/
namespace Sys2Proof.Machine
open Sys2Proof

/-! ## Pages and walks (spec/09 R166-R169, R177, R179) -/

/-- The page a fault names: 64 KiB, or 4 KiB of host memory (R177). -/
def pageOf (va : Nat) : Nat := if vaOwner va = 8 then va / 4096 * 4096 else va / 65536 * 65536

def pagesOf (vas : List Nat) : List Nat := dedup (vas.map pageOf)

/-- The die whose TLB misses on a page. -/
def State.tlbMiss (s : State) (p : Fin 8) (page : Nat) : Option (Fin 8) :=
  if 8 ≤ vaOwner page then none
  else match s.dieOfRank p (vaOwner page) with
    | none => none
    | some d => if (tlbLookup (s.die d).tlb (vaOffset page)).isSome then none else some d

/-- The walk of a page that misses in its owner's TLB: counted, and its entry installed. -/
def State.walkPage (s : State) (p : Fin 8) (page : Nat) : State :=
  match s.tlbMiss p page with
  | none => s
  | some d => s.modDie d fun x =>
    let x := { x with walks := x.walks + 1 }
    match walk s.hbm d x.xlatroot (vaOffset page) with
    | .page base size pa at_ => { x with tlb := { base := base, size := size, pa := pa, attr := at_ } :: x.tlb }
    | .fault _ => x

/-- The requests of the host, of peers and of the device's own units: their walks end within the step that makes them (log 114). -/
def State.walkNow (s : State) (p : Fin 8) (vas : List Nat) : State :=
  (pagesOf vas).foldl (fun (s : State) (page : Nat) => s.walkPage p page) s

/-- The leaf a byte lies on, named by its first address, and its size. -/
def State.leafOf (s : State) (p : Fin 8) (va : Nat) : Nat × Nat :=
  if 8 ≤ vaOwner va then (pageOf va, if vaOwner va = 8 then 4096 else 65536)
  else match s.dieOfRank p (vaOwner va) with
    | none => (pageOf va, 65536)
    | some d =>
      match s.xlat d (vaOffset va) with
      | .page base size _ _ => (mkVA (vaOwner va) base, size)
      | .fault _ => (pageOf va, 65536)

/-! ## Firmware events (spec/23 R341) -/

/-- An event waits in firmware or, when the host has read the last one, stands in the record with MSI-X vector 1. -/
def State.fwRaise (s : State) (code die unit : Byte) (data : DWord) : State :=
  let e : FwEvent := { code := code, die := die, unit := unit, data := data, time := s.cycle - s.dev.resetAt }
  s.modDev fun d =>
    if d.fwAck == d.fwSeq && d.fwQueue.isEmpty then { d with fwSeq := d.fwSeq + 1, fwEvent := e, msix := d.msix ++ [1] }
    else if decide (d.fwQueue.length < 256) ||
        !(d.fwQueue.any fun (x : FwEvent) => x.code == code && x.die == die && x.unit == unit) then
      { d with fwQueue := d.fwQueue ++ [e] }
    else d

/-! ## Forcing a phase to close (R314) -/

/-- The open phase of a partition closes as if a PB header had reached the head of every queue. -/
def State.forceClose (s : State) (p : Fin 8) : State :=
  (s.modJob p fun j => { j with phase := { j.phase with closing := true, forced := true } }).schedule 0 .phaseClose
    (EvArgs.ofPart p)

/-- Undo pressure on a stack: PRESS, the firmware's event, the forced close and UNDOWAIT (R314, R315). -/
def State.pressure (s : State) (p d : Fin 8) (stack : Nat) : State :=
  let s := if (s.die d).press then s else s.fwRaise 1 (BitVec.ofNat 8 d.val) (BitVec.ofNat 8 (2 * d.val + stack)) 0
  let s := s.modDie d fun x => { x with press := true }
  let armed := match (s.part p).job with | some j => j.phase.pressFrom.isSome | none => true
  if armed then s
  else
    let s := (s.modJob p fun j => { j with phase := { j.phase with pressFrom := some s.cycle } }).forceClose p
    if (s.part p).undowait = 0 then s
    else s.schedule ((s.part p).undowait.toNat * usCycles) .undoTimeout (EvArgs.ofPart p)

/-- A full hold buffer: HOLDFULL, the forced close and UNDOWAIT (R317). -/
def State.holdPressure (s : State) (p d : Fin 8) : State :=
  let s := s.modDie d fun x => { x with holdfull := true }
  let armed := match (s.part p).job with | some j => j.phase.holdFrom.isSome | none => true
  if armed then s
  else
    let s := (s.modJob p fun j => { j with phase := { j.phase with holdFrom := some s.cycle } }).forceClose p
    if (s.part p).undowait = 0 then s
    else s.schedule ((s.part p).undowait.toNat * usCycles) .holdTimeout (EvArgs.ofPart p)

/-! ## Tags and undo records (R311, R312) -/

/-- The stack of a die that holds a physical address: bit 8 (spec/10 R203). -/
def stackOf (pa : Nat) : Fin 2 := Fin.ofNat 2 (pa / 256)

def State.stack (s : State) (d : Fin 8) (k : Fin 2) : Stack := (s.die d).hbmStacks.get k
def State.modStack (s : State) (d : Fin 8) (k : Fin 2) (f : Stack → Stack) : State :=
  s.modDie d fun x => { x with hbmStacks := x.hbmStacks.set k.val (f (x.hbmStacks.get k)) k.isLt }

/-- The tag of a line (log 26). -/
def Stack.tagOf (t : Stack) (line : Nat) : BitVec 20 :=
  match t.tags.find? fun x => x.1 == line with | some x => x.2 | none => t.tagRest

def Stack.setTag (t : Stack) (line : Nat) (v : BitVec 20) : Stack :=
  { t with tags := (line, v) :: t.tags.filter fun x => x.1 != line }

/-- A tagged write to the line needs an undo record first. -/
def State.needsRecord (s : State) (p d : Fin 8) (pa : Nat) : Bool :=
  (s.stack d (stackOf pa)).tagOf (pa / 64) != (s.part p).rincur

/-- The line's bytes as a 512-bit value. -/
def State.lineOf (s : State) (d : Fin 8) (pa : Nat) : BitVec 512 :=
  BitVec.ofNat 512 (s.hbm.readLE (hbmKey d (pa / 64 * 64)) 64)

/-- Log the line once in the interval and tag it; the pressure begins when the records reach HWM. -/
def State.tagLine (s : State) (p d : Fin 8) (pa : Nat) : State :=
  if !s.needsRecord p d pa then s
  else
    let k := stackOf pa
    let line := pa / 64
    let t := s.stack d k
    let s := s.modStack d k fun x =>
      { x.setTag line (s.part p).rincur with undo := x.undo ++ [{ line := line * 64, old := s.lineOf d pa, tag := t.tagOf line }] }
    if decide ((s.part p).hwm.toNat ≤ t.undo.length + 1) then s.pressure p d k.val else s

/-! ## Poison (spec/09 R180, spec/21 R309) -/

def State.poisoned (s : State) (d : Fin 8) (pa : Nat) : Bool := (s.die d).poison.contains (pa / 32)

/-- Sectors that a run of written bytes covers whole are good again. -/
def State.clearPoison (s : State) (d : Fin 8) (pas : List Nat) : State :=
  if (s.die d).poison.isEmpty then s
  else s.modDie d fun x =>
    { x with poison := x.poison.filter fun q => !((upTo (32 * q) 32).all fun a => pas.contains a) }

/-- What the memory controllers meet in the reads of this step (spec/09 R180, R181), which the step's arguments name as an input:
`words` are sectors (die × 2^40 + physical address / 32) and `w2` says what becomes of them: 1 corrected and written back, 2
uncorrectable, 3 corrected to data that differ from those written (log 112). -/
def State.sectorErrors (s : State) : State :=
  s.ev.words.foldl (fun (s : State) (w : DWord) =>
    let d : Fin 8 := Fin.ofNat 8 (w.toNat / 2 ^ 40)
    let n := w.toNat % 2 ^ 40
    if s.ev.w2 == 2 then s.modDie d fun x => { x with poison := if x.poison.contains n then x.poison else x.poison ++ [n] }
    else if s.ev.w2 == 3 then
      ({ s with hbm := s.hbm.writeLE (hbmKey d (32 * n)) 32 (Config.sectorData s.free).toNat } : State).useFree
    else s) s

/-- A poisoned sector lies under a byte that is read. -/
def State.readsPoison (s : State) (p : Fin 8) (vas : List Nat) : Bool :=
  vas.any fun va => match s.locate p va with | .dev d pa _ => s.poisoned d pa | _ => false

/-- The number of a sector: die × 2^40 + physical address / 32. -/
def sectorId (d : Fin 8) (sector : Nat) : Nat := d.val * 2 ^ 40 + sector

/-- The poisoned sectors under bytes that are read. -/
def State.poisonIds (s : State) (p : Fin 8) (vas : List Nat) : List Nat :=
  vas.filterMap fun va => match s.locate p va with
    | .dev d pa _ => if s.poisoned d pa then some (sectorId d (pa / 32)) else none
    | _ => none

/-- A rung-3 error of a partition starts a rollback (R319). -/
def State.rung3 (s : State) (p : Fin 8) (cause : Nat) : State :=
  s.schedule 0 .intervalRollback { EvArgs.ofPart p with n := cause }

/-- Bytes are consumed: a poisoned sector among them starts a rollback (R309, R310 code 40). -/
def State.consume (s : State) (p : Fin 8) (vas : List Nat) : State :=
  match s.poisonIds p vas with
  | [] => s
  | l => s.schedule 0 .intervalRollback { EvArgs.ofPart p with n := 40, words := l.map fun (x : Nat) => BitVec.ofNat 64 x }

/-! ## Held lines (R317) -/

/-- The peer of a binding is a member of the seal group (R313, spec/23 R336). -/
def State.inSealGroup (s : State) (a : Aperture) : Bool := a.sealgrp && s.feature 9

/-- The attributes of the peer's own leaf under an offset of an aperture (spec/09 R168). -/
def State.peerLeaf (s : State) (p : Fin 8) (a off : Nat) : BitVec 9 :=
  match (s.part p).apertures.toList[a]? with
  | some x => Config.peerAttr x.peer x.ppart (off / 65536)
  | none => 0

/-- The destination of the byte leaves the device only after the seal: an irrevocable page, host memory, or a peer outside the
seal group (spec/09 R168). -/
def State.irrevocable (s : State) (p : Fin 8) (l : Loc) : Bool :=
  match l with
  | .dev _ _ at_ => attrIRR at_
  | .host _ _ => true
  | .peer a off =>
    match (s.part p).apertures.toList[a]? with
    | some x => !s.inSealGroup x || attrIRR (s.peerLeaf p a off)
    | none => true
  | .fault _ => false

/-- A held image without one byte. -/
def HeldLine.drop (h : HeldLine) (i : Nat) : HeldLine :=
  { h with bytes := h.bytes.filter fun x => x.1 != i, kept := h.kept.filter fun x => x != i }

/-- A byte is written into a held image; one that no rollback undoes is marked. -/
def HeldLine.put (h : HeldLine) (i : Nat) (b : Byte) (tagged : Bool) : HeldLine :=
  { h.drop i with bytes := (i, b) :: (h.drop i).bytes, kept := if tagged then (h.drop i).kept else i :: (h.drop i).kept }

def HeldLine.at_ (h : HeldLine) (p : Fin 8) (va : Nat) : Bool := h.part == p && h.line == va / 64

/-- A held byte at a virtual address: the latest write of the owner order, so the images of other dies lose it (spec/13 R255). -/
def State.holdByte (s : State) (p die : Fin 8) (tagged : Bool) (va : Nat) (b : Byte) : State :=
  let drop (x : Die) : Die := { x with hold := x.hold.map fun (h : HeldLine) => if h.at_ p va then h.drop (va % 64) else h }
  let s : State := { s with dies := s.dies.map drop }
  s.modDie die fun x =>
    if x.hold.any fun (h : HeldLine) => h.at_ p va then
      { x with hold := x.hold.map fun (h : HeldLine) => if h.at_ p va then h.put (va % 64) b tagged else h }
    else
      { x with hold := x.hold ++
          [{ part := p, line := va / 64, bytes := [(va % 64, b)], kept := if tagged then [] else [va % 64] }] }

def holdDepth : Nat := 524288

/-! ## Stores -/

/-- The overflow table of a stack and its extension are full for a store that performs now (spec/09 R182). -/
def State.overflowFull (s : State) (d : Fin 8) (pa : Nat) : Bool :=
  Config.overflowFull s.free d (stackOf pa) (s.stack d (stackOf pa)).ovfGiB

/-- What keeps written bytes from performing: an undo record above the high-water mark, which only a tagged write needs (1), a full
hold buffer (2), or a full overflow table (3). -/
def State.storeBlocked (s : State) (p die : Fin 8) (tagged : Bool) (vas : List Nat) : Option Nat :=
  vas.findSome? fun va =>
    let l := s.locate p va
    if s.irrevocable p l then
      (if (s.die die).hold.any (fun h => h.at_ p va) || decide ((s.die die).hold.length < holdDepth) then none
       else some 2)
    else match l with
      | .dev d pa _ =>
        if tagged && s.needsRecord p d pa && decide ((s.part p).hwm.toNat ≤ (s.stack d (stackOf pa)).undo.length) then some 1
        else if s.overflowFull d pa then some 3
        else none
      | _ => none

/-- OVF_PRESSURE for the stack of an address (R182); the test of the next cycle is another one. -/
def State.raiseOverflow (s : State) (d : Fin 8) (pa : Nat) : State :=
  (s.fwRaise 2 (BitVec.ofNat 8 d.val) (BitVec.ofNat 8 (2 * d.val + (stackOf pa).val)) 0).useFree

/-- Writes to physical addresses of a die that their overflow tables keep from performing, raised at the first of them. -/
def State.overflowBlocked (s : State) (d : Fin 8) (pas : List Nat) : Option State :=
  (pas.find? fun pa => s.overflowFull d pa).map fun pa => s.raiseOverflow d pa

/-- What a blocked write raises, at the stack of the first byte that meets the reason. -/
def State.raiseBlocked (s : State) (p die : Fin 8) (tagged : Bool) (vas : List Nat) (why : Nat) : State :=
  let at_ := s.locate p ((vas.find? fun a => s.storeBlocked p die tagged [a] == some why).getD 0)
  match why, at_ with
  | 2, _ => s.holdPressure p die
  | 3, .dev d pa _ => s.raiseOverflow d pa
  | _, .dev d pa _ => s.pressure p d (stackOf pa).val
  | _, _ => s

/-- One byte performs: held, or written with its undo record. A write to a peer of the seal group goes out as a request of its own
(R165). -/
def State.storeByte (s : State) (p die : Fin 8) (tagged : Bool) (va : Nat) (b : Byte) : State :=
  let l := s.locate p va
  if s.irrevocable p l then s.holdByte p die tagged va b
  else match l with
    | .dev d pa _ =>
      let s := if tagged then s.tagLine p d pa else s
      { s with hbm := s.hbm.write (hbmKey d pa) b }
    | .host a _ => { s with host := s.host.write a b }
    | _ => s

/-- Written bytes perform, lowest first; sectors written whole lose their poison. -/
def State.storeBytes (s : State) (p die : Fin 8) (tagged : Bool) (ws : List (Nat × Byte)) : State :=
  let s := ws.foldl (fun (s : State) (x : Nat × Byte) => s.storeByte p die tagged x.1 x.2) s
  ((List.finRange 8).foldl (fun (s : State) (d : Fin 8) =>
    s.clearPoison d (ws.filterMap fun (x : Nat × Byte) =>
      match s.locate p x.1 with | .dev e pa _ => if e = d then some pa else none | _ => none)) s).useFree

/-- A run of bytes from an address up. -/
def runOf (va : Nat) (bs : List Byte) : List (Nat × Byte) := bs.zipIdx.map fun x => (va + x.2, x.1)

/-! ## Operations (spec/12 R245) -/

/-- The new value of an operation of `w` bits; `e` is the value `acas` expects. -/
def atomNew (op : AtomOp) (w64 : Bool) (old v e : DWord) : DWord :=
  let w := if w64 then 64 else 32
  let m (x : DWord) : DWord := BitVec.ofNat 64 (x.toNat % 2 ^ w)
  let sx (x : DWord) : DWord := if w64 then x else (x.setWidth 32).signExtend 64
  let f32 (g : Word → Word → Word) : DWord := (g (old.setWidth 32) (v.setWidth 32)).setWidth 64
  match op with
  | .swap => m v
  | .cas => if m old == m e then m v else m old
  | .add => m (old + v)
  | .and => m (old &&& v)
  | .or => m (old ||| v)
  | .xor => m (old ^^^ v)
  | .min => if (sx v).slt (sx old) then m v else m old
  | .max => if (sx old).slt (sx v) then m v else m old
  | .minu => if (m v).ult (m old) then m v else m old
  | .maxu => if (m old).ult (m v) then m v else m old
  | .fmin => f32 (fmm32 false)
  | .fmax => f32 (fmm32 true)
  | .faddU => f32 fun a b => (fadd32 .rne a b).1
  | .faddO => f32 fun a b => (fadd32 .rne a b).1

/-- What aD takes: old, zero-extended, or sign-extended for the signed minimum and maximum of 32 bits. -/
def atomOld (op : AtomOp) (w64 : Bool) (old : DWord) : DWord :=
  if w64 then old
  else match op with
    | .min => (old.setWidth 32).signExtend 64
    | .max => (old.setWidth 32).signExtend 64
    | _ => (old.setWidth 32).setWidth 64

/-- A counting-barrier arrival (R252): the new word, and the phase before it. -/
def barcNew (w e : Word) : Word :=
  let c := field w 0 31 + 1
  if decide (field e 0 31 ≤ c) then (if bit w 31 then 0 else BitVec.ofNat 32 (2 ^ 31))
  else BitVec.ofNat 32 (c % 2 ^ 31 + b01 (bit w 31) * 2 ^ 31)

/-! ## Recording (spec/22 R333; the entry's bytes are the model's, log 27) -/

/-- An entry: SFC or device time, die rank, stream and column, core, VA with the kind in bits 63:57, two data words. -/
def recEntry (time where_ core va kind d0 d1 : Nat) : BitVec 256 :=
  BitVec.ofNat 256 (time % 2 ^ 48 + where_ * 2 ^ 48 + core * 2 ^ 56 + (va % 2 ^ 57 + kind * 2 ^ 57) * 2 ^ 64 + d0 * 2 ^ 128 +
    d1 * 2 ^ 192)

/-- Put an entry into the recording ring while the partition records. -/
def State.recordPut (s : State) (p : Fin 8) (e : BitVec 256) : State :=
  if (s.part p).rpMode = 1 && s.feature 6 then
    (s.ringPut p (fun q => q.rcd) (fun q r => { q with rcd := r }) (leBytes 32 e.toNat)).1
  else s

/-- The entry of a recording that names the same event; none when the partition does not replay. -/
def State.replayed (s : State) (p : Fin 8) (time where_ core va kind : Nat) : Option (BitVec 256) :=
  let q := s.part p
  if q.rpMode = 2 && !q.div then
    q.playback.find? fun e => field e 0 128 == field (recEntry time where_ core va kind 0 0) 0 128
  else none

/-! ## Merged reductions (R246) -/

/-- Apply the unordered float contributions pending on one word of a die: one binary tree of rounded additions over the word
and the contributions, whose shape is free; a replay writes the logged value. -/
def State.applyMerge (s : State) (p d : Fin 8) (e : MergeEntry) : State :=
  let old : Word := BitVec.ofNat 32 (s.hbm.readLE (hbmKey d e.pa) 4)
  let l := old :: e.vs.map fun v => v.setWidth 32
  let r := (anyTree .rne (Config.treePick s.free) l.length 0 l fNone).1
  let time := s.cycle - (s.part p).startedAt
  let r := match s.replayed p time d.val 255 e.pa 3 with | some x => x.extractLsb' 192 32 | none => r
  let s := s.tagLine p d e.pa
  let s := { s with hbm := s.hbm.writeLE (hbmKey d e.pa) 4 r.toNat }
  (s.recordPut p (recEntry time d.val 255 e.pa 3 old.toNat r.toNat)).useFree

/-- Apply what is pending on the lines of these physical addresses. -/
def State.flushLines (s : State) (p d : Fin 8) (pas : List Nat) : State :=
  (List.finRange 2).foldl (fun (s : State) (k : Fin 2) =>
    let hit (e : MergeEntry) : Bool := pas.any fun a => a / 64 == e.pa / 64
    let due := (s.stack d k).merges.filter hit
    if due.isEmpty then s
    else
      let s := s.modStack d k fun x => { x with merges := x.merges.filter fun e => !hit e }
      due.foldl (fun (s : State) (e : MergeEntry) => s.applyMerge p d e) s) s

/-- An access reaches these addresses: pending merges there are applied first. -/
def State.flushAt (s : State) (p : Fin 8) (vas : List Nat) : State :=
  (List.finRange 8).foldl (fun (s : State) (d : Fin 8) =>
    if (s.die d).hbmStacks.toList.all (fun t => t.merges.isEmpty) then s
    else s.flushLines p d (vas.filterMap fun va =>
      match s.locate p va with | .dev e pa _ => if e = d then some pa else none | _ => none)) s

/-- A merged reduction pending on the lines of these addresses finds its overflow table full (spec/09 R182): what that raises. -/
def State.mergesBlocked (s : State) (p : Fin 8) (vas : List Nat) : Option State :=
  vas.findSome? fun va => match s.locate p va with
    | .dev d pa _ =>
      if (s.stack d (stackOf pa)).merges.any fun e => e.pa / 64 == pa / 64 then s.overflowBlocked d [pa] else none
    | _ => none

/-- The words of a die with merged reductions pending. -/
def State.mergedWords (s : State) (d : Fin 8) : List Nat :=
  (s.die d).hbmStacks.toList.flatMap fun t => t.merges.map fun e => e.pa

/-- Every pending merge of a die is applied. -/
def State.flushDie (s : State) (p d : Fin 8) : State :=
  (List.finRange 2).foldl (fun (s : State) (k : Fin 2) =>
    let due := (s.stack d k).merges
    let s := s.modStack d k fun x => { x with merges := [] }
    due.foldl (fun (s : State) (e : MergeEntry) => s.applyMerge p d e) s) s

/-- A contribution joins those pending on its word. -/
def State.addMerge (s : State) (d : Fin 8) (pa : Nat) (v : DWord) : State :=
  s.modStack d (stackOf pa) fun x =>
    if x.merges.any fun e => e.pa == pa then
      { x with merges := x.merges.map fun e => if e.pa == pa then { e with vs := e.vs ++ [v] } else e }
    else { x with merges := x.merges ++ [{ pa := pa, w64 := false, op := .faddU, vs := [v] }] }

/-! ## Handle elements in memory (spec/03 R50-R53, R60, R358) -/

/-- The scale is one a quantiser refuses: 0, negative, infinite or NaN (R52). -/
def badScale (w : Word) : Bool :=
  match unpack32 w with | .fin n m _ => n || m == 0 | _ => true

/-- The decoded FP32 value of an element whose bytes `rd` reads, with its own provenance kinds (R236): 1 NaN, 3 saturation, 9 bad
scale. -/
def decodeLane (rd : Nat → Nat → Nat) (l : LaneSpec) : Word × List Nat :=
  let s := unpack32 l.scale
  let j := ditherJ l.seed l.row l.col
  let out (v : FVal) (k : List Nat) : Word × List Nat :=
    let r := (pack32 .rne v false).1
    (r, k ++ (if isNan32 r then [1] else []) ++
      (match v with | .fin _ _ _ => if field r 0 31 == 0x7F800000 then [3] else [] | _ => []))
  let bs := if badScale l.scale then [9] else []
  match l.fmt with
  | .fp32 => out (unpack32 (BitVec.ofNat 32 (rd l.va 4))) []
  | .bf16 => out (bf16Fmt.unpack (rd l.va 2)) []
  | .fp16 => out (fp16Fmt.unpack (rd l.va 2)) []
  | .f8 => out (f8Fmt.unpack (rd l.va 1)) []
  | .int32 => out (FVal.ofInt false (BitVec.ofNat 32 (rd l.va 4)).toInt 0) []
  | .int8 =>
    match FVal.mul (FVal.ofInt false (BitVec.ofNat 8 (rd l.va 1)).toInt 0) s with
    | some v => out v bs
    | none => out (.nan false) bs
  | .d8 => out (decodeVal (codeOf .d8 (rd l.va 1)) s j) bs
  | .d4 => out (decodeVal (codeOf .d4 (rd l.va 1 / 2 ^ l.pos)) s j) bs
  | .t5 =>
    let b := rd l.va 1
    out (decodeVal (t5Digit b l.pos) s j) bs

/-- A provenance event in the making: its kind, and the logical coordinates and the lane of the element. -/
structure PEvent where
  kind : Nat
  row : Word
  col : Word
  i : Nat
  deriving DecidableEq, Repr

def LaneSpec.event (l : LaneSpec) (kind : Nat) : PEvent := { kind := kind, row := l.row, col := l.col, i := l.lane }

/-- The first lane of each byte address. -/
def firstLanes : List LaneSpec → List Nat → List LaneSpec
  | [], _ => []
  | l :: r, seen => if seen.contains l.va then firstLanes r seen else l :: firstLanes r (l.va :: seen)

/-- One RESERVED_T5 event for each reserved byte that is decoded. A record has no field for the byte's address, which the
coordinates of the first element read from it name (DESIGN CHOICE, log 115). -/
def reservedEvents (rd : Nat → Nat → Nat) (ls : List LaneSpec) : List PEvent :=
  ((firstLanes (ls.filter fun l => l.fmt == .t5) []).filter fun l => decide (243 ≤ rd l.va 1)).map fun l => l.event 4

/-- The events of decoding elements (spec/10 R197). -/
def decodeEvents (rd : Nat → Nat → Nat) (ls : List LaneSpec) : List PEvent :=
  ls.flatMap (fun l => (decodeLane rd l).2.map l.event) ++ reservedEvents rd ls

/-- Bytes of one stored element read as a whole. -/
def elemBytes : Fmt → Nat | .fp32 => 4 | .int32 => 4 | .bf16 => 2 | .fp16 => 2 | _ => 1

/-- The byte a part leaves over the old byte; the flag says that the old byte was reserved (R358). -/
def mergePart (old : Byte) : PartW → Byte × Bool
  | .whole _ b => (b, false)
  | .nib _ hi v => (setBits old (if hi then 4 else 0) 4 v.toNat, false)
  | .nanByte _ => (243, false)
  | .digits _ ds =>
    let keep (i : Nat) : Int := (t5Digit old.toNat i).getD 0
    let d (i : Nat) : Int := match ds.find? fun x => x.1 == i with | some x => x.2 | none => keep i
    (BitVec.ofNat 8 (t5Byte d), decide (243 ≤ old.toNat) && decide (ds.length < 5))

def PartW.va : PartW → Nat
  | .whole va _ => va
  | .nib va _ _ => va
  | .digits va _ => va
  | .nanByte va => va

/-- The events of merging parts into stored bytes: RESERVED_T5 for a reserved one, at the first element written into it (R358;
log 115). -/
def mergeEvents (ls : List LaneSpec) (ms : List (PartW × Byte × Bool)) : List PEvent :=
  (ms.filter fun m => m.2.2).filterMap fun m => (ls.find? fun l => l.va == m.1.va).map fun l => l.event 4

/-- The first event of each kind of a list, with how many of its kind followed it. -/
def firstKinds (l : List PEvent) : List (PEvent × Nat) :=
  [1, 2, 3, 4, 5, 9].filterMap fun k =>
    match l.filter fun x => x.kind == k with
    | [] => none
    | x :: r => some (x, min r.length 65535)

/-- Add to MORE of a command's record of a kind, if the log still holds it (spec/11 R236). -/
def moreIn (strm sfc core pc kind n : Nat) : List (BitVec 256) → List (BitVec 256)
  | [] => []
  | r :: l =>
    if field r 0 48 == sfc && field r 56 8 == core && field r 64 32 == pc && field r 96 8 == kind && field r 52 2 == strm then
      setBits r 208 16 (min (field r 208 16 + n) 65535) :: l
    else r :: moreIn strm sfc core pc kind n l

/-- The access provenance of an A word (spec/22 R331). -/
def State.provAccess (s : State) (g : Fin 512) (k : Fin 3) (sfc : BitVec 48) (pc : Word) (fmt : Nat) (ev : List PEvent) : State :=
  let rank := (dieOf g).val - (s.bank g k).part.val
  (firstKinds ev).foldl (fun (s : State) (x : PEvent × Nat) =>
    s.provRecord (dieOf g)
      (provBits sfc.toNat rank 0 (inDie g) pc.toNat x.1.kind 0xFF (fmt * 16) 0 x.1.row.toNat x.1.col.toNat x.1.i 0 +
        BitVec.ofNat 256 (x.2 * 2 ^ 208))) s

end Sys2Proof.Machine
end

