-- ==== Sys2Proof/Machine/AMemory.lean ====
section
/-! DEFINITION. Machine/AMemory.lean: loads, stores, atomics, reductions, barriers in memory and fences of the A stream
(spec/10 R195, R196, R200, spec/12 R239-R253). -/
namespace Sys2Proof.Machine
open Sys2Proof

/-! ## Outstanding accesses -/

def AOp.open_ (o : AOp) : Bool := !o.performed

def AccBody.isLoad : AccBody → Bool
  | .load _ => true
  | .gather _ => true
  | _ => false

/-- Reads a value: loads, returning atomics, `barc`. -/
def AccBody.returns : AccBody → Bool
  | .load _ => true
  | .gather _ => true
  | .atomic _ _ _ _ r => r
  | .barc _ => true
  | _ => false

/-- The bytes of a plain access; none for the element runs of a handle access. -/
def AOp.range (o : AOp) : Option (Nat × Nat) :=
  match o.body with
  | .load n => some (o.va.toNat, n)
  | .store d => some (o.va.toNat, d.length)
  | .atomic _ w _ _ _ => some (o.va.toNat, if w then 8 else 4)
  | .barc _ => some (o.va.toNat, 4)
  | _ => none

/-- Every byte an access touches. -/
def AOp.vas (o : AOp) : List Nat :=
  match o.body with
  | .gather l => l.flatMap fun x => upTo x.va (elemBytes x.fmt)
  | .scatter _ ws => ws.map PartW.va
  | _ => match o.range with | some (a, n) => upTo a n | none => []

/-- The bytes that have not performed. -/
def AOp.todo (o : AOp) : List Nat := if o.performed then [] else o.vas.filter fun a => decide (o.doneTo ≤ a)

/-- Two classes perform in program order (R200). -/
def classOrdered (a b : Fin 8) : Bool := a == 0 || b == 0 || a == b

/-- The ordering kind of the page a VA lies on, as the owner would translate it now; host pages are RC, and a peer's pages have the
kind of the peer's own leaf (spec/09 R168). -/
def State.kindAt (s : State) (p : Fin 8) (va : Nat) : Nat :=
  match s.locate p va with
  | .dev _ _ at_ => attrKind at_
  | .peer a off => attrKind (s.peerLeaf p a off) % 3
  | _ => 1

def State.anySo (s : State) (p : Fin 8) (vas : List Nat) : Bool := vas.any fun va => s.kindAt p va == 0

/-- Both plain stores or both loads: a pair that a UO page leaves unordered (spec/13 R258). -/
def AccBody.free : AccBody → AccBody → Bool
  | .store _, .store _ => true
  | .store _, .scatter _ _ => true
  | .scatter _ _, .store _ => true
  | .scatter _ _, .scatter _ _ => true
  | x, y => x.isLoad && y.isLoad

/-- Bytes of an access of class `cls` perform after an earlier access `x` of their stream has (spec/13 R256-R259): either lies on an
SO page, or they have bytes in common and R200 orders the two. -/
def State.follows (s : State) (p : Fin 8) (cls : Fin 8) (body : AccBody) (vas : List Nat) (x : AOp) : Bool :=
  let xs := x.todo
  if xs.isEmpty || vas.isEmpty then false
  else s.anySo p vas || s.anySo p xs ||
    (classOrdered x.cls cls && vas.any fun a => xs.contains a && !(body.free x.body && s.kindAt p a == 2))

/-- Accesses of a bank that have not retired, sent or waiting to be sent again. -/
def Bank.live (b : Bank) : List AOp := b.replay ++ b.ops

/-- The numbers of the accesses that acquires and acquire fences in force make every later access follow: they have not returned
(R239, R242). -/
def Bank.acquiring (b : Bank) : List Nat := (b.live.filter fun o => o.acquire || b.acqFence.contains o.id).map fun o => o.id

/-- A read that a word makes at its issue must follow an earlier access. -/
def State.readWaits (s : State) (b : Bank) (cls : Fin 8) (vas : List Nat) : Bool :=
  !b.acquiring.isEmpty || b.live.any fun x => s.follows b.part cls (.load 1) vas x

/-- An access counts as performed at a scope (R238). One that returns a value leaves the list as it returns. -/
def AOp.doneAt (o : AOp) (sc : Scope) : Bool :=
  o.confirmed && match sc with
    | .col => true
    | .core => true
    | .system => o.performed && !o.body.returns
    | _ => !o.body.returns && (o.performed || decide (8 ≤ vaOwner o.va.toNat))

/-- Copy commands of a place that have neither completed nor stopped on a fault. -/
def State.copiesOpen (s : State) (g : Fin 512) (k : Fin 3) (below : Nat) : Bool :=
  (s.die (dieOf g)).copies.any fun c =>
    (match c.src with | some (h, j) => h == g && j.val == k.val | none => false) && decide (c.id < below) &&
      (match c.st with | .failed _ => false | _ => true)

/-- The accesses of a place with numbers below `op` have performed at a scope, and its copy commands below `copy` with them. -/
def State.doneBelow (s : State) (g : Fin 512) (k : Fin 3) (op copy : Nat) (sc : Scope) : Bool :=
  let b := s.bank g k
  (b.ops.all fun o => o.doneAt sc || decide (op ≤ o.id)) && (b.replay.all fun o => decide (op ≤ o.id)) && !s.copiesOpen g k copy

/-- Every earlier access of the unit's A stream has performed at a scope, its copy commands included (R238). -/
def State.released (s : State) (g : Fin 512) (k : Fin 3) (sc : Scope) : Bool :=
  s.doneBelow g k (s.bank g k).nextId (s.die (dieOf g)).nextCopy sc

/-- The release fences in force let a later store issue (R242). -/
def State.relOk (s : State) (g : Fin 512) (k : Fin 3) : Bool :=
  (s.bank g k).relFence.all fun x => s.doneBelow g k x.1 x.2.1 x.2.2

/-- Core cycles of one way to the owner at the least (spec/06 R356). How many boundaries lie between two dies is not given: one
(log 116). -/
def State.oneWay (s : State) (g : Fin 512) (va : Nat) : Nat :=
  let o := vaOwner va
  if o < 8 then (if s.dieOfRank (s.partAt g) o == some (dieOf g) then 60 else 80)
  else if o == 8 then 600 else 660

/-- Core cycles by which a page without the C attribute makes a load longer at the least: 300 for 120 (spec/06 R356). -/
def State.hbmTime (s : State) (p : Fin 8) (va : Nat) : Nat :=
  match s.locate p va with | .dev _ _ at_ => if attrC at_ then 0 else 180 | _ => 0

/-! ## Issue -/

/-- What a global access meets at issue: SEAL_ORDER, alignment, R164, and the target of an atomic; then the waits of R172,
R239 and R242 and of the alias-check mode. -/
def gBlock (store : Bool) (release : Option Scope) (atom : Bool) (align va : Nat) (t : State) : Option State :=
  let g := t.turn.core
  let k := t.turn.ctx
  let b := t.tb
  let p := b.part
  let v := BitVec.ofNat 64 va
  if store && b.sealed then some (t.trap 19 0 0)
  else if va % align != 0 then some (t.trap 7 v 0)
  else if !canonical va then some (t.trap 8 v 0)
  else if !t.ownerOk p va then some (t.trap 9 v 0)
  else if atom && (vaOwner va == 8 || t.irrevocable p (t.locate p va)) then some (t.trap 17 v 0)
  else if decide (16 ≤ (b.ops.filter fun (o : AOp) => !o.confirmed).length) then some (t.stall wOwner 0)
  else if t.kindAt p va == 0 && b.ops.any (fun (o : AOp) => !o.confirmed) then some (t.stall wOwner 0)
  else if store && !t.relOk g k then some (t.stall wOwner 0)
  else if release.any fun sc => !t.released g k sc then some (t.stall wOwner 0)
  else if (t.part p).aliasMode && b.ops.any AOp.open_ then some (t.stall wOwner 0)
  else none

/-- The digest entry of a store-like access in program order (spec/22 R333). -/
def State.digestNote (s : State) (va size data : Nat) : State :=
  if (s.part s.tb.part).rpMode = 0 then s
  else s.modTb fun b => { b with digest := b.digest ++ [(BitVec.ofNat 64 va, BitVec.ofNat 64 size, BitVec.ofNat 64 data)] }

/-- Bytes a handle store writes, and the first eight data bytes of a store-like access. -/
def AccBody.count : AccBody → Nat
  | .scatter _ ws => ws.length
  | _ => 0
def AccBody.firstBytes : AccBody → List Byte
  | .store d => d.take 8
  | .atomic _ _ v _ _ => leBytes 8 v.toNat
  | .barc e => leBytes 4 e.toNat
  | .scatter _ ws => (ws.take 8).map fun (w : PartW) => match w with | .whole _ b => b | _ => 0
  | _ => []

/-- Send an access to its owner; `pre` is the state before the word. -/
def State.send (t pre : State) (cls : Fin 8) (va : Nat) (body : AccBody) (dst : ADst) (push : Option (Fin 16))
    (acquire : Bool) : State :=
  let g := t.turn.core
  let k := t.turn.ctx
  let b := pre.tb
  let o : AOp :=
    { id := t.tb.nextId, pc := b.apc, sfc := pre.sfc b, va := BitVec.ofNat 64 va, cls := cls, body := body, dst := dst,
      push := push, after := b.acquiring, acquire := acquire && pre.kindAt b.part va != 2, confirmed := false, performed := false,
      doneTo := 0, got := [], xlat := [], result := 0, fault := 0, answer := none }
  let n := t.oneWay g va + Config.accessDelay t.free
  let t := if body.isLoad then t
    else t.digestNote va ((o.range.map fun r => r.2).getD (o.body.count)) (leNat o.body.firstBytes)
  ((t.modTb fun b => { b with ops := b.ops ++ [o], nextId := b.nextId + 1 }).useFree).schedule n .globalAccessAtOwner
    { EvArgs.at g k with id := o.id }

/-- Where a returned value of `size` bytes goes; a queue entry is reserved at issue. -/
def State.loadDst (t : State) (d : Fin 32) (size : Nat) (sx : Bool) : State × ADst :=
  if d.val = 0 then (t, .none)
  else if d.val < 28 then (t, .areg d size sx)
  else
    let id := t.tb.nextId
    (t.modTb fun b => { b.reserveAX (d.val - 28) 0 with pa := b.pa + 1 }, .queue (Fin.ofNat 8 (d.val - 28)) id sx)

/-- A global access as a word. -/
def aGlobal (h : AHdr) (srcs dsts : List (Fin 32)) (extra : List Nat) (cls : Fin 8) (store : Bool) (release : Option Scope)
    (atom acq : Bool) (align : Nat) (va : State → Nat) (wr : Bool) (size : Nat) (body : State → AccBody) (dst : State → State × ADst) (s : State) :
    Host.Outcome State Fault Refusal :=
  aWord h srcs dsts extra (gBlock store release atom align (va s))
    (fun t =>
      let t := t.aliasNote t.turn.core t.turn.ctx s.tb.apc cls false wr (va s) size none
      let r := dst t
      r.1.send s cls (va s) (body s) r.2 h.push acq) s

/-! ## Scratchpad accesses (R183, R195; log 25) -/

/-- What a scratchpad access waits for: acquires and acquire fences, release fences where it writes, earlier global accesses that its
class orders before it, and every one in the alias-check mode (R200, R239, R242, spec/22 R332). -/
def State.spWaits (t : State) (wr : Bool) (cls : Fin 8) : Option State :=
  if !t.tb.acquiring.isEmpty || (wr && !t.relOk t.turn.core t.turn.ctx) ||
      t.tb.live.any (fun o => o.open_ && (classOrdered o.cls cls || (t.part t.tb.part).aliasMode)) then some (t.stall wOwner 0)
  else none

/-- What a scratchpad access of `n` bytes meets at issue. -/
def spBlock (wr : Bool) (cls : Fin 8) (addr n : Nat) (t : State) : Option State :=
  match t.spCheck t.turn.core t.turn.ctx wr addr n 0 with
  | some (c, d0, d1) => some (t.trap c d0 d1)
  | none =>
    match t.spWaits wr cls with
    | some u => some u
    | none => if (t.core t.turn.core).slabBusy t.cycle [tileOf addr] then some (t.stall wConflict 0) else none

/-- A word with a later retirement of its own: the push, and the queue entry that lands with it (`q` is the port + 1). -/
def State.retireLater (t : State) (n : Nat) (push : Option (Fin 16)) (q id : Nat) : State :=
  if push.isNone && q = 0 then t
  else t.schedule n .aWordRetire
    { EvArgs.at t.turn.core t.turn.ctx with
      flag := true, n := (match push with | some f => f.val + 1 | none => 0), q := Fin.ofNat 64 q, id := id }

/-- The value of a load, extended to 64 bits. -/
def extendA (size : Nat) (sx : Bool) (v : Nat) : DWord :=
  if sx then BitVec.ofInt 64 (if v.testBit (8 * size - 1) then (v : Int) - 2 ^ (8 * size) else v) else BitVec.ofNat 64 v

/-- A scratchpad load: the data are there 6 A cycles later, in a register or a queue entry. -/
def aSpLoad (h : AHdr) (cls : Fin 8) (d : Fin 32) (srcs : List (Fin 32)) (addr : State → Nat) (size : Nat) (sx : Bool)
    (s : State) : Host.Outcome State Fault Refusal :=
  aWord h srcs [d] [] (spBlock false cls (addr s) size)
    (fun t =>
      let v := extendA size sx ((s.core s.turn.core).spRead (addr s) size)
      let t := t.aliasNote t.turn.core t.turn.ctx s.tb.apc cls true false (addr s) size none
      if d.val < 28 then (t.wrA d v 6).retireLater 6 h.push 0 0
      else
        let id := t.tb.nextId
        (t.modTb fun b => { b.reserveAX (d.val - 28) ((v.setWidth 32).setWidth 1024) with pa := b.pa + 1 }).retireLater 6
          h.push (d.val - 27) id) s

/-- A scratchpad store performs at issue. -/
def aSpStore (h : AHdr) (cls : Fin 8) (srcs : List (Fin 32)) (addr : State → Nat) (bytes : State → List Byte) (size : Nat)
    (s : State) : Host.Outcome State Fault Refusal :=
  aWord h srcs [] [] (spBlock true cls (addr s) size)
    (fun t =>
      let t := t.aliasNote t.turn.core t.turn.ctx s.tb.apc cls true true (addr s) size none
      (t.spWrite t.turn.core (addr s) (bytes s)).retirePush h.push) s

/-! ## Loads and stores (R195, R196, spec/12 R239) -/

def atySize : ATy → Nat | .n8 => 1 | .i8 => 1 | .n16 => 2 | .i16 => 2 | .n32 => 4 | .i32 => 4 | .w64 => 8
def atySigned : ATy → Bool | .i8 => true | .i16 => true | .i32 => true | _ => false

/-- addr = aB + aI + off × size modulo 2^64. -/
def State.aAddr (s : State) (a i : Fin 32) (off : BitVec 8) (size : Nat) : Nat :=
  (s.rA a + s.rA i + off.signExtend 64 * BitVec.ofNat 64 size).toNat

def execALd (h : AHdr) (cls : Fin 8) (sp : Bool) (ty : ATy) (d a i : Fin 32) (off : BitVec 8) (s : State) :
    Host.Outcome State Fault Refusal :=
  let n := atySize ty
  if sp then aSpLoad h cls d [a, i] (fun s => s.aAddr a i off n) n (atySigned ty) s
  else aGlobal h [a, i] [d] [] cls false none false false n (fun s => s.aAddr a i off n) false n (fun _ => .load n)
    (fun t => t.loadDst d n (atySigned ty)) s

def execASt (h : AHdr) (cls : Fin 8) (sp : Bool) (ty : ATy) (d a i : Fin 32) (off : BitVec 8) (s : State) :
    Host.Outcome State Fault Refusal :=
  let n := atySize ty
  let bytes (s : State) : List Byte := leBytes n (s.rA d).toNat
  if sp then aSpStore h cls [d, a, i] (fun s => s.aAddr a i off n) bytes n s
  else aGlobal h [d, a, i] [] [] cls true none false false n (fun s => s.aAddr a i off n) true n (fun s => .store (bytes s))
    (fun t => (t, .none)) s

/-- `lda`: no later access performs before its value has returned. The pairing of a narrow scope is as strong as that of the
device: every scope sees the owner's one order (log 117). -/
def execLda (h : AHdr) (cls : Fin 8) (_sc : Scope) (ty : ATy) (d a i : Fin 32) (off : BitVec 8) (s : State) :
    Host.Outcome State Fault Refusal :=
  let n := atySize ty
  aGlobal h [a, i] [d] [] cls false none false true n (fun s => s.aAddr a i off n) false n (fun _ => .load n)
    (fun t => t.loadDst d n (atySigned ty)) s

/-- `stl`: waits until every earlier access has performed at the scope, then stores. -/
def execStl (h : AHdr) (cls : Fin 8) (sc : Scope) (ty : ATy) (d a i : Fin 32) (off : BitVec 8) (s : State) :
    Host.Outcome State Fault Refusal :=
  let n := atySize ty
  aGlobal h [d, a, i] [] [] cls true (some sc) false false n (fun s => s.aAddr a i off n) true n
    (fun s => .store (leBytes n (s.rA d).toNat)) (fun t => (t, .none)) s

/-- The port of `ldq`: codes 0-3 are qv0-qv3, 4-7 are qs0-qs3. -/
def ldqPort (q : Fin 8) : Nat := if q.val < 4 then 4 + q.val else q.val - 4

def execLdq (h : AHdr) (cls : Fin 8) (sp : Bool) (q : Fin 8) (a i : Fin 32) (off : BitVec 8) (s : State) :
    Host.Outcome State Fault Refusal :=
  let n := if q.val < 4 then 128 else 4
  let port := ldqPort q
  let reserve (t : State) (v : Vec) : State := t.modTb fun b => { b.reserveAX port v with pa := b.pa + 1 }
  if sp then
    let addr := s.aAddr a i off n
    aWord h [a, i] [] [port] (spBlock false cls addr n)
      (fun t =>
        let v : Vec := BitVec.ofNat 1024 ((s.core s.turn.core).spRead addr n)
        let t := t.aliasNote t.turn.core t.turn.ctx s.tb.apc cls true false addr n none
        let id := t.tb.nextId
        (reserve t v).retireLater 6 h.push (port + 1) id) s
  else aGlobal h [a, i] [] [port] cls false none false false n (fun s => s.aAddr a i off n) false n (fun _ => .load n)
    (fun t => (reserve t 0, .queue (Fin.ofNat 8 port) t.tb.nextId false)) s

/-! ## Atomics and reductions (spec/12 R244-R247) -/

def semAcq : Sem → Bool | .acq => true | .ar => true | _ => false
def semRel : Sem → Bool | .rel => true | .ar => true | _ => false

/-- The scope at which an atomic or a reduction releases: the device for owners 0-7, the system for a peer (R244). -/
def relScope (rel : Bool) (va : Nat) : Option Scope :=
  if rel then some (if vaOwner va < 8 then .device else .system) else none

/-- A returning atomic. `acas` also reads AD. -/
def aAtomic (op : AtomOp) (h : AHdr) (cls : Fin 8) (w64 : Bool) (sem : Sem) (d a v : Fin 32) (s : State) :
    Host.Outcome State Fault Refusal :=
  let n := if w64 then 8 else 4
  let srcs := [a, v] ++ (if op == .cas then [d] else [])
  aGlobal h srcs [d] [] cls true (relScope (semRel sem) (s.rA a).toNat) true (semAcq sem) n (fun s => (s.rA a).toNat) true n
    (fun s => .atomic op w64 (s.rA v) (s.rA d) true) (fun t => t.loadDst d n (!w64 && (op == .min || op == .max))) s

def execAswap (h : AHdr) (cls : Fin 8) (w64 : Bool) (sem : Sem) (d a v : Fin 32) (s : State) : Host.Outcome State Fault Refusal :=
  aAtomic .swap h cls w64 sem d a v s
def execAcas (h : AHdr) (cls : Fin 8) (w64 : Bool) (sem : Sem) (d a v : Fin 32) (s : State) : Host.Outcome State Fault Refusal :=
  aAtomic .cas h cls w64 sem d a v s
def execAadd (h : AHdr) (cls : Fin 8) (w64 : Bool) (sem : Sem) (d a v : Fin 32) (s : State) : Host.Outcome State Fault Refusal :=
  aAtomic .add h cls w64 sem d a v s
def execAand (h : AHdr) (cls : Fin 8) (w64 : Bool) (sem : Sem) (d a v : Fin 32) (s : State) : Host.Outcome State Fault Refusal :=
  aAtomic .and h cls w64 sem d a v s
def execAor (h : AHdr) (cls : Fin 8) (w64 : Bool) (sem : Sem) (d a v : Fin 32) (s : State) : Host.Outcome State Fault Refusal :=
  aAtomic .or h cls w64 sem d a v s
def execAxor (h : AHdr) (cls : Fin 8) (w64 : Bool) (sem : Sem) (d a v : Fin 32) (s : State) : Host.Outcome State Fault Refusal :=
  aAtomic .xor h cls w64 sem d a v s
def execAmin (h : AHdr) (cls : Fin 8) (w64 : Bool) (sem : Sem) (d a v : Fin 32) (s : State) : Host.Outcome State Fault Refusal :=
  aAtomic .min h cls w64 sem d a v s
def execAmax (h : AHdr) (cls : Fin 8) (w64 : Bool) (sem : Sem) (d a v : Fin 32) (s : State) : Host.Outcome State Fault Refusal :=
  aAtomic .max h cls w64 sem d a v s
def execAminu (h : AHdr) (cls : Fin 8) (w64 : Bool) (sem : Sem) (d a v : Fin 32) (s : State) : Host.Outcome State Fault Refusal :=
  aAtomic .minu h cls w64 sem d a v s
def execAmaxu (h : AHdr) (cls : Fin 8) (w64 : Bool) (sem : Sem) (d a v : Fin 32) (s : State) : Host.Outcome State Fault Refusal :=
  aAtomic .maxu h cls w64 sem d a v s

/-- A reduction: no result, relaxed or release. -/
def aReduce (op : AtomOp) (h : AHdr) (cls : Fin 8) (w64 rel : Bool) (a v : Fin 32) (s : State) :
    Host.Outcome State Fault Refusal :=
  let n := if w64 then 8 else 4
  aGlobal h [a, v] [] [] cls true (relScope rel (s.rA a).toNat) true false n (fun s => (s.rA a).toNat) true n
    (fun s => .atomic op w64 (s.rA v) 0 false) (fun t => (t, .none)) s

def execRedadd (h : AHdr) (cls : Fin 8) (w64 : Bool) (rel : Bool) (a v : Fin 32) (s : State) : Host.Outcome State Fault Refusal :=
  aReduce .add h cls w64 rel a v s
def execRedmin (h : AHdr) (cls : Fin 8) (w64 : Bool) (uns : Bool) (rel : Bool) (a v : Fin 32) (s : State) :
    Host.Outcome State Fault Refusal := aReduce (if uns then .minu else .min) h cls w64 rel a v s
def execRedmax (h : AHdr) (cls : Fin 8) (w64 : Bool) (uns : Bool) (rel : Bool) (a v : Fin 32) (s : State) :
    Host.Outcome State Fault Refusal := aReduce (if uns then .maxu else .max) h cls w64 rel a v s
def execRedand (h : AHdr) (cls : Fin 8) (w64 : Bool) (rel : Bool) (a v : Fin 32) (s : State) : Host.Outcome State Fault Refusal :=
  aReduce .and h cls w64 rel a v s
def execRedor (h : AHdr) (cls : Fin 8) (w64 : Bool) (rel : Bool) (a v : Fin 32) (s : State) : Host.Outcome State Fault Refusal :=
  aReduce .or h cls w64 rel a v s
def execRedxor (h : AHdr) (cls : Fin 8) (w64 : Bool) (rel : Bool) (a v : Fin 32) (s : State) : Host.Outcome State Fault Refusal :=
  aReduce .xor h cls w64 rel a v s
def execRedfaddU (h : AHdr) (cls : Fin 8) (rel : Bool) (a v : Fin 32) (s : State) : Host.Outcome State Fault Refusal :=
  aReduce .faddU h cls false rel a v s
def execRedfmin (h : AHdr) (cls : Fin 8) (rel : Bool) (a v : Fin 32) (s : State) : Host.Outcome State Fault Refusal :=
  aReduce .fmin h cls false rel a v s
def execRedfmax (h : AHdr) (cls : Fin 8) (rel : Bool) (a v : Fin 32) (s : State) : Host.Outcome State Fault Refusal :=
  aReduce .fmax h cls false rel a v s

/-- `redfadd.o`: its key takes the count of earlier ordered reductions, kept with the access; the owner must be a die. -/
def execRedfaddO (h : AHdr) (cls : Fin 8) (rel : Bool) (a v : Fin 32) (s : State) : Host.Outcome State Fault Refusal :=
  let va := (s.rA a).toNat
  aWord h [a, v] [] []
    (fun t =>
      if canonical va && va % 4 == 0 && !t.tb.sealed && decide (8 ≤ vaOwner va) && t.ownerOk t.tb.part va then
        some (t.trap 17 (BitVec.ofNat 64 va) 0)
      else gBlock true (relScope rel va) true 4 va t)
    (fun t =>
      let t := t.aliasNote t.turn.core t.turn.ctx s.tb.apc cls false true va 4 none
      let t := t.modTb fun b => { b with oredseq := b.oredseq + 1 }
      t.send s cls va (.atomic .faddO false (s.rA v) (s.tb.oredseq.setWidth 64) false) .none h.push false) s

/-- `barc`: an arrival at a counting word, release before and acquire after (R252). -/
def execBarc (h : AHdr) (d a e : Fin 32) (s : State) : Host.Outcome State Fault Refusal :=
  aGlobal h [a, e] [d] [] 0 true (some .device) true true 4 (fun s => (s.rA a).toNat) true 4
    (fun s => .barc ((s.rA e).setWidth 32)) (fun t => t.loadDst d 4 false) s

/-! ## Fences and seal (R242, R253) -/

/-- A fence waits until every earlier access is confirmed (spec/09 R172). -/
def fenceBlock (t : State) : Option State :=
  if t.tb.replay.isEmpty && t.tb.ops.all (fun o => o.confirmed) then none else some (t.stall wOwner 0)

/-- Later stores, atomics, reductions, arrivals, `lnch` and copy commands wait until every access before now has performed at the
scope. -/
def Bank.fenceRel (b : Bank) (copy : Nat) (sc : Scope) : Bank := { b with relFence := b.relFence ++ [(b.nextId, copy, sc)] }

/-- Every later access follows the earlier accesses that a test picks. -/
def Bank.fenceAcq (b : Bank) (f : AOp → Bool) : Bank :=
  { b with acqFence := (b.live.filter fun o => f o || b.acqFence.contains o.id).map fun o => o.id }

/-- `fence.acq`: later accesses follow every earlier access that returns a value, until it has returned. -/
def execFenceAcq (h : AHdr) (_sc : Scope) (s : State) : Host.Outcome State Fault Refusal :=
  aWord h [] [] [] fenceBlock (fun t => (t.modTb fun b => b.fenceAcq fun o => o.body.returns).retirePush h.push) s

/-- `fence.rel`: later stores wait for every earlier access. -/
def execFenceRel (h : AHdr) (sc : Scope) (s : State) : Host.Outcome State Fault Refusal :=
  aWord h [] [] [] fenceBlock (fun t =>
    (t.modTb fun b => b.fenceRel (t.die (dieOf t.turn.core)).nextCopy sc).retirePush h.push) s

/-- `fence.sc`: both, and later accesses follow every earlier access. -/
def execFenceSc (h : AHdr) (sc : Scope) (s : State) : Host.Outcome State Fault Refusal :=
  aWord h [] [] [] fenceBlock (fun t =>
    (t.modTb fun b =>
      (b.fenceAcq fun _ => true).fenceRel (t.die (dieOf t.turn.core)).nextCopy sc).retirePush h.push) s

/-- `seal`: a release at system scope, then the unit is drained for the phase's seal; a second one does nothing. -/
def execSeal (s : State) : Host.Outcome State Fault Refusal :=
  aWord noTokens [] [] []
    (fun t => if t.tb.sealed || t.released t.turn.core t.turn.ctx .system then none else some (t.stall wOwner 0))
    (fun t =>
      if t.tb.sealed then t
      else
        let p := t.tb.part
        ((t.modTb fun b => { b with sealed := true, drained := true }).schedule 0 .sealInputRise
          { EvArgs.ofPart p with d := dieOf t.turn.core }).schedule 0 .phaseClose (EvArgs.ofPart p)) s

end Sys2Proof.Machine
end

