-- ==== Sys2Proof/Machine/AEvents.lean ====
section
/-! DEFINITION. Machine/AEvents.lean: a global access at its owner and the retirement of an A word (spec/06 R356, R357, spec/09
R169-R172, spec/12 R244-R252, spec/13 R255-R261). -/
namespace Sys2Proof.Machine
open Sys2Proof

/-! ## Translation at the owner (spec/09 R169, R172) -/

def AccBody.writes : AccBody → Bool
  | .load _ => false
  | .gather _ => false
  | _ => true

/-- An ordered reduction stores nothing before the close of the phase. -/
def AOp.storesNow (o : AOp) : Bool := match o.body with | .atomic .faddO _ _ _ _ => false | b => b.writes

/-- A walk starts: it takes a free time and is counted. -/
def State.startWalk (s : State) (p d : Fin 8) (page : Nat) (wr : Bool) (who : Requester) : State :=
  if s.agenda.any fun (x : Due) =>
      x.what == .pageTableWalk && x.args.d == d && x.args.va.toNat == page && x.args.req == who then s
  else
    ((s.modDie d fun x => { x with walks := x.walks + 1 }).useFree).schedule (Config.accessDelay s.free) .pageTableWalk
      { EvArgs.ofPart p with d := d, va := BitVec.ofNat 64 page, flag := wr, req := who }

/-- The walks of the pages that miss. -/
def State.startWalks (s : State) (p : Fin 8) (pages : List Nat) (wr : Bool) (who : Requester) : State :=
  pages.foldl (fun (s : State) (x : Nat) => match s.tlbMiss p x with | some d => s.startWalk p d x wr who | none => s) s

/-- The fault kind of a page whose translation is at hand. -/
def State.pageFaultKind (s : State) (p : Fin 8) (page : Nat) (wr : Bool) : Option Nat :=
  match s.locate p page with
  | .fault k => some k
  | .dev _ _ at_ => if wr && !attrWR at_ then some fltWriteProt else none
  | .host _ w => if wr && !w then some fltWriteProt else none
  | .peer _ _ => none

/-- The faulting pages of a run of bytes. -/
def State.badPages (s : State) (p : Fin 8) (vas : List Nat) (wr : Bool) : List (Nat × Nat) :=
  (pagesOf vas).filterMap fun x => (s.pageFaultKind p x wr).map fun k => (x, k)

/-- The TLB entries, by die, that a run of bytes translates through. -/
def State.leaves (s : State) (p : Fin 8) (vas : List Nat) : List (Fin 8 × TlbEntry) :=
  (pagesOf vas).filterMap fun x =>
    if 8 ≤ vaOwner x then none
    else match s.dieOfRank p (vaOwner x) with
      | none => none
      | some d => (tlbLookup (s.die d).tlb (vaOffset x)).map fun e => (d, e)

/-- The TLBs as an access sees them that keeps the entries it has translated through (R169, R170). -/
def State.pinned (s : State) (l : List (Fin 8 × TlbEntry)) : State :=
  l.foldl (fun (s : State) (x : Fin 8 × TlbEntry) => s.modDie x.1 fun d =>
    { d with tlb := x.2 :: d.tlb.filter fun e => !(decide (e.base < x.2.base + x.2.size) && decide (x.2.base < e.base + e.size)) }) s

/-- The TLBs of another state. -/
def State.withTlbs (s t : State) : State := { s with dies := Vector.ofFn fun d => { s.die d with tlb := (t.die d).tlb } }

/-! ## Gathering faults (spec/09 R176-R178) -/

/-- The faults of the batch being gathered. -/
def Job.freshFaults (j : Job) : List PageFault := j.faults.filter fun f => f.batch == j.batchNo && f.pri.isNone && !f.reported

/-- The first fault of a batch starts its timer, and the COUNT-th closes it; both name the batch (R178). -/
def State.gatherBatch (s : State) (p : Fin 8) : State :=
  match (s.part p).job with
  | none => s
  | some j =>
    let q := s.part p
    let a := { EvArgs.ofPart p with id := j.batchNo }
    if j.freshFaults.isEmpty then s
    else
      let s := if j.batchFrom.isSome then s
        else
          let s := s.modJob p fun j => { j with batchFrom := some s.cycle }
          if q.fltTimer = 0 then s else s.schedule (q.fltTimer.toNat * usCycles) .faultBatchTimer a
      if decide (q.fltCount.toNat ≤ j.freshFaults.length) then s.schedule 0 .faultBatchCount a else s

/-- The faulting pages of one access or row wait for their answers: a page that is reported and unanswered, or whose request waits
for room, shares its answer; the others are a page group of their own in PRI mode, and join the batch in batched mode. -/
def State.gatherFaults (s : State) (p : Fin 8) (pages : List (Nat × Nat)) (wr : Bool) (who : Requester) : State :=
  match (s.part p).job with
  | none => s
  | some j =>
    let q := s.part p
    let fresh : PageFault :=
      { va := 0, kind := 0, wr := wr, who := who, time := s.cycle - q.startedAt, reported := false
        pri := if q.fltMode then some j.nextPri else none, batch := j.batchNo }
    let new := (pages.filter fun x => !j.faults.any fun f => f.va == x.1 && f.who == who).map fun x =>
      match j.faults.find? fun f => f.va == x.1 && (f.reported || f.pri.isSome) with
      | some f => { fresh with va := x.1, kind := x.2, reported := f.reported, pri := f.pri, batch := f.batch }
      | none => { fresh with va := x.1, kind := x.2 }
    let s := s.modJob p fun j => { j with faults := j.faults ++ new, nextPri := j.nextPri + b01 q.fltMode }
    if q.fltMode then s.priRefill p else s.gatherBatch p

/-! ## Performing -/

/-- The value bytes of an access read, lowest first. -/
def State.readVa (s : State) (held : List HeldLine) (p : Fin 8) (va n : Nat) : Nat :=
  leNat ((upTo va n).map fun a => s.readLoc held a (s.locate p a))

/-- The value of `n` bytes among those that an access has got. -/
def gotLE (got : List (Nat × Byte)) (va n : Nat) : Nat :=
  leNat ((upTo va n).map fun a => match got.find? fun x => x.1 == a with | some x => x.2 | none => 0)

/-- The bytes of a part as an access reads them: held ones, those a peer has sent, and memory's. -/
def State.readPart (s : State) (p : Fin 8) (got : List (Nat × Byte)) (part : List Nat) : List (Nat × Byte) :=
  let held := s.heldLines p
  part.map fun a => (a, match heldByte held a, got.find? fun x => x.1 == a with
    | some b, _ => b
    | none, some x => x.2
    | none, none => s.readLoc [] a (s.locate p a))

/-- The bytes that a plain store writes whole. -/
def AOp.storedBytes (o : AOp) : List (Nat × Byte) :=
  match o.body with
  | .store d => runOf o.va.toNat d
  | .scatter _ ws => ws.filterMap fun (w : PartW) => match w with | .whole a b => some (a, b) | _ => none
  | _ => []

/-- A plain store without some of its bytes. -/
def AOp.strip (o : AOp) (vas : List Nat) : AOp :=
  match o.body with
  | .store d => { o with body := .scatter [] (((runOf o.va.toNat d).filter fun x => !vas.contains x.1).map fun x => .whole x.1 x.2) }
  | .scatter l ws => { o with body := .scatter l (ws.filter fun w => !vas.contains w.va) }
  | _ => o

/-- The place of a unit's operation. -/
def Bank.modOp (b : Bank) (id : Nat) (f : AOp → AOp) : Bank :=
  { b with ops := b.ops.map fun (o : AOp) => if o.id == id then f o else o }

/-- An access whose acquires and acquire fences are over, and which no earlier access of its stream still precedes. -/
def State.mayPerform (s : State) (b : Bank) (o : AOp) (part : List Nat) : Bool :=
  !(o.after.any fun i => b.live.any fun x => x.id == i) &&
    !b.live.any fun x => decide (x.id < o.id) && s.follows b.part o.cls o.body part x

/-- Whether the racing word at a VA goes the other way (spec/13 R261). -/
def State.raceWord (s : State) (va : Nat) : Bool := Config.racePick (s.free * 2 ^ 60 + va / 4)

/-- The bytes of a part go to or come from a peer by requests of their own: reads, and writes that no seal holds back. -/
def State.atPeer (s : State) (p : Fin 8) (wr : Bool) (va : Nat) : Bool :=
  match s.locate p va with | .peer a off => !wr || !s.irrevocable p (.peer a off) | _ => false

/-- Two accesses of different classes, neither 0, race where they have bytes in common on pages that are not SO (spec/13 R261). -/
def State.races (s : State) (p : Fin 8) (o x : AOp) (part : List Nat) : Bool :=
  o.id != x.id && !classOrdered o.cls x.cls && (part.any fun a => x.todo.contains a) && !s.anySo p part

/-- The bytes of racing stores that go first where an access performs: word by word, of stores that could perform now. -/
def State.raceBytes (s : State) (g : Fin 512) (k : Fin 3) (o x : AOp) (part : List Nat) : List (Nat × Byte) :=
  let b := s.bank g k
  if !s.races b.part o x part then []
  else
    let ws := x.storedBytes.filter fun y =>
      (part.any fun a => a / 4 == y.1 / 4) && x.todo.contains y.1 && s.raceWord y.1 && !s.atPeer b.part true y.1
    let vas := ws.map fun y => y.1
    if x.confirmed && x.fault == 0 && s.mayPerform b x vas && (s.storeBlocked b.part (dieOf g) true vas).isNone then ws else []

/-- Racing stores of the stream perform some of their words now. -/
def State.raceEarly (s : State) (g : Fin 512) (k : Fin 3) (o : AOp) (part : List Nat) : State :=
  let b := s.bank g k
  if !b.ops.any fun x => s.races b.part o x part then s
  else
    (b.ops.foldl (fun (s : State) (x : AOp) =>
      match s.raceBytes g k o x part with
      | [] => s
      | ws => (s.storeBytes b.part (dieOf g) true ws).modBank g k fun b => b.modOp x.id fun y => y.strip (ws.map fun z => z.1)) s).useFree

/-- The place of a record of an A word: die rank, stream A. -/
def rankAt (s : State) (g : Fin 512) (k : Fin 3) : Nat := (dieOf g).val - (s.bank g k).part.val

/-- An atomic or a reduction performs: the value returned. -/
def State.performAtomic (s : State) (g : Fin 512) (k : Fin 3) (o : AOp) (op : AtomOp) (w64 : Bool) (v e : DWord)
    (ret : Bool) : State × DWord :=
  let p := (s.bank g k).part
  let va := o.va.toNat
  let n := if w64 then 8 else 4
  match op, s.locate p va with
  | .faddU, .dev d pa _ => (s.addMerge d pa v, 0)
  | .faddO, .dev d pa _ =>
    let u := (s.bank g k).unit
    let t := s.stack d (stackOf pa)
    if decide (4194304 ≤ t.ored.length) then
      (s.schedule (s.oneWay g va) .oredFull { EvArgs.at g k with w := o.pc }, 0)
    else
      let ent : OredEntry :=
        { pa := pa, v := v.setWidth 32, work := (u.map fun (x : UnitInfo) => x.launch).getD 0,
          unit := (u.map fun (x : UnitInfo) => x.index).getD 0, seq := e.setWidth 32 }
      (s.modStack d (stackOf pa) fun x => { x with ored := x.ored ++ [ent] }, 0)
  | _, .peer _ _ => (s, atomOld op w64 (BitVec.ofNat 64 (gotLE o.got va n)))
  | _, _ =>
    let old := BitVec.ofNat 64 (s.readVa (s.heldLines p) p va n)
    let new := atomNew op w64 old v e
    let time := o.sfc.toNat
    let rec_ := if ret then s.replayed p time (rankAt s g k) (inDie g) va 3 else none
    let old := match rec_ with | some x => x.extractLsb' 128 64 | none => old
    let new := match rec_ with | some x => x.extractLsb' 192 64 | none => new
    let s := s.storeBytes p (dieOf g) true (runOf va (leBytes n new.toNat))
    let s := if ret then s.recordPut p (recEntry time (rankAt s g k) (inDie g) va 3 old.toNat new.toNat) else s
    (s, atomOld op w64 old)

/-- `barc` performs: the phase before the arrival. -/
def State.performBarc (s : State) (g : Fin 512) (k : Fin 3) (o : AOp) (e : Word) : State × Word :=
  let p := (s.bank g k).part
  let va := o.va.toNat
  match s.locate p va with
  | .peer _ _ => (s, BitVec.ofNat 32 (gotLE o.got va 4 % 2))
  | _ =>
    let w : Word := BitVec.ofNat 32 (s.readVa (s.heldLines p) p va 4)
    let rec_ := s.replayed p o.sfc.toNat (rankAt s g k) (inDie g) va 3
    let w := match rec_ with | some x => x.extractLsb' 128 32 | none => w
    let new := match rec_ with | some x => x.extractLsb' 192 32 | none => barcNew w e
    let s := s.storeBytes p (dieOf g) true (runOf va (leBytes 4 new.toNat))
    let s := s.recordPut p (recEntry o.sfc.toNat (rankAt s g k) (inDie g) va 3 w.toNat new.toNat)
    (s, BitVec.ofNat 32 (b01 (bit w 31)))

/-- A store overtakes the bytes of earlier ones that a UO page leaves behind it: they never perform (spec/13 R258). -/
def State.overtake (s : State) (g : Fin 512) (k : Fin 3) (o : AOp) (part : List Nat) : State :=
  let behind (x : AOp) : Bool := decide (x.id < o.id) && classOrdered o.cls x.cls && o.body.free x.body && x.body.writes
  if !(s.bank g k).live.any behind then s
  else
    s.modBank g k fun b =>
      { b with
        ops := b.ops.map fun x => if behind x then x.strip part else x
        replay := b.replay.map fun x => if behind x then x.strip part else x }

/-- The lanes of an element load, decoded from the bytes it has got. -/
def gathered (got : List (Nat × Byte)) (lanes : List LaneSpec) : Vec :=
  ofLanes fun i => match lanes.find? fun (x : LaneSpec) => x.lane == i with
    | some x => (decodeLane (gotLE got) x).1
    | none => 0

/-- The bytes of one page of an access perform at its owner point: the state, and the access with what it has read. -/
def State.perform (s : State) (g : Fin 512) (k : Fin 3) (o : AOp) (part : List Nat) (last : Bool) : State × AOp :=
  let p := (s.bank g k).part
  let s := s.flushAt p (match o.body with | .atomic .faddU _ _ _ _ => [] | _ => part)
  let s := if !(match o.body with | .store _ => true | _ => false) then s.consume p part else s
  match o.body with
  | .load n =>
    let got := o.got.filter (fun x => !part.contains x.1) ++ s.readPart p o.got part
    let s := match o.dst with
      | .acc a i32 =>
        let row (i : Nat) : Vec := BitVec.ofNat 1024 (gotLE got (o.va.toNat + 128 * i) 128)
        s.modCore g fun c =>
          { c with acc := c.acc.set a.val { Acc.reset with rows := Vector.ofFn fun i => row i.val, i32 := i32 } a.isLt }
      | _ => s
    (s, { o with got := got, result := BitVec.ofNat 1024 (gotLE got o.va.toNat n) })
  | .store d => ((s.storeBytes p (dieOf g) true ((runOf o.va.toNat d).filter fun x => part.contains x.1)).overtake g k o part, o)
  | .atomic op w64 v e ret => let r := s.performAtomic g k o op w64 v e ret; (r.1, { o with result := r.2.setWidth 1024 })
  | .barc e => let r := s.performBarc g k o e; (r.1, { o with result := r.2.setWidth 1024 })
  | .gather lanes =>
    let got := o.got.filter (fun x => !part.contains x.1) ++ s.readPart p o.got part
    let o := { o with got := got, result := gathered got lanes }
    (if last then s.provAccess g k o.sfc o.pc (match lanes with | l :: _ => fmtCode l.fmt | [] => 0) (decodeEvents (gotLE got) lanes)
      else s, o)
  | .scatter lanes ws =>
    let held := s.heldLines p
    let ms := (ws.filter fun w => part.contains w.va).map fun (w : PartW) =>
      (w, mergePart (s.readLoc held w.va (s.locate p w.va)) w)
    let s := s.provAccess g k o.sfc o.pc 7 (mergeEvents lanes ms)
    ((s.storeBytes p (dieOf g) true (ms.map fun (x : PartW × Byte × Bool) => (x.1.va, x.2.1))).overtake g k o part, o)

/-- Mark an operation performed with its result; it retires now or when its reply has travelled back. -/
def State.performed (s : State) (g : Fin 512) (k : Fin 3) (o : AOp) (v : Vec) : State :=
  let n := if o.body.returns then s.oneWay g o.va.toNat + s.hbmTime (s.bank g k).part o.va.toNat else 0
  (s.modBank g k fun b => b.modOp o.id fun (x : AOp) => { x with performed := true, result := v }).schedule n .aWordRetire
    { EvArgs.at g k with id := o.id }

/-! ## Requests to peers (spec/09 R165, spec/23 R339) -/

/-- Runs of consecutive addresses, of at most seven sectors, of a rising list. -/
def runsOf : List Nat → List (Nat × Nat)
  | [] => []
  | a :: l =>
    match runsOf l with
    | (b, n) :: r => if a + 1 = b && decide (n < 224) then (a, n + 1) :: r else (a, 1) :: (b, n) :: r
    | [] => [(a, 1)]

/-- Requests for a peer's bytes go out with tags, under which they wait; `body` is what a request carries for its run. -/
def State.spanAsk (s : State) (who : Requester) (kind : Nat) (body : Nat → Nat → List Byte) (vas : List Nat) : State :=
  (runsOf (sortBy (fun (x y : Nat) => decide (x < y)) (dedup vas))).foldl (fun (s : State) (r : Nat × Nat) =>
    let tag := s.dev.spanWait.foldl (fun (m : Nat) (x : SpanAsk) => max m (x.tag + 1)) 0
    s.modDev fun d =>
      { d with
        spanOut := d.spanOut ++ [(kind, vaOwner r.1 - 9, BitVec.ofNat 64 (vaOffset r.1), leBytes 4 tag ++ body r.1 r.2)]
        spanWait := d.spanWait ++ [{ tag := tag, who := who, va := r.1, n := r.2, bad := false }] }) s

/-- The number of an operation in a request. -/
def AtomOp.code : AtomOp → Byte
  | .swap => 0 | .cas => 1 | .add => 2 | .and => 3 | .or => 4 | .xor => 5 | .min => 6 | .max => 7 | .minu => 8 | .maxu => 9
  | .fmin => 10 | .fmax => 11 | .faddU => 12 | .faddO => 13

/-- The kind of an access's request and what it carries (log 118). -/
def AOp.request (o : AOp) : Nat × (Nat → Nat → List Byte) :=
  match o.body with
  | .load _ => (1, fun _ n => leBytes 4 n)
  | .gather _ => (1, fun _ n => leBytes 4 n)
  | .atomic op w v e _ => (4, fun _ _ => [op.code, BitVec.ofNat 8 (b01 w)] ++ leBytes 8 v.toNat ++ leBytes 8 e.toNat)
  | .barc e => (4, fun _ _ => [(14 : Byte), 0] ++ leBytes 8 e.toNat ++ leBytes 8 0)
  | _ => (2, fun va n => (upTo va n).map fun a => match o.storedBytes.find? fun x => x.1 == a with | some x => x.2 | none => 0)

/-! ## The step of an access (spec/09 R169-R172, spec/13 R260) -/

/-- The bytes of the lowest page among those left, and where the next page begins. -/
def State.partOf (s : State) (p : Fin 8) (todo : List Nat) : List Nat × Nat :=
  let l := s.leafOf p (todo.foldl min (todo.headD 0))
  (todo.filter fun a => decide (a < l.1 + l.2), l.1 + l.2)

/-- The bytes of a page have performed: the access is done, or goes on with its next page. -/
def State.accAdvance (s : State) (g : Fin 512) (k : Fin 3) (o : AOp) (next : Nat) (last : Bool) : State :=
  if last then s.performed g k o o.result
  else
    ((s.modBank g k fun b => b.modOp o.id fun _ => { o with doneTo := next }).useFree).schedule (Config.accessDelay s.free)
      .globalAccessAtOwner { EvArgs.at g k with id := o.id }

/-- An access that a fault stops hears of it one way later. -/
def State.accessFaults (s : State) (g : Fin 512) (k : Fin 3) (o : AOp) (kind : Nat) (answer : Option Bool) : State :=
  (s.modBank g k fun b => b.modOp o.id fun (x : AOp) => { x with fault := kind, answer := answer }).schedule
    (s.oneWay g o.va.toNat) .pageFaultFreeze { EvArgs.at g k with id := o.id, n := kind }

/-- An operation whose target turns out irrevocable at its owner (spec/12 R245, R252). -/
def State.badTarget (s : State) (p : Fin 8) (o : AOp) : Bool :=
  (match o.body with | .atomic _ _ _ _ _ => true | .barc _ => true | _ => false) && s.irrevocable p (s.locate p o.va.toNat)

/-- The access, confirmed or not, as it waits at its owner: with its translations, and without an acquire on a UO page (spec/13
R258). -/
def State.atOwner (s : State) (p : Fin 8) (todo : List Nat) (ok : Bool) (o : AOp) : AOp :=
  { o with confirmed := ok, acquire := o.acquire && s.kindAt p o.va.toNat != 2, xlat := s.leaves p todo }

/-- The page of an access that is its turn: what must perform first has performed; a peer's bytes are asked for; a store finds room
for its undo record, its held line and its overflow entry; then it performs. -/
def State.accessPart (s : State) (g : Fin 512) (k : Fin 3) (o : AOp) (todo part : List Nat) (next : Nat) : State :=
  let b := s.bank g k
  let p := b.part
  let later (s : State) : State := s.schedule 1 .globalAccessAtOwner { EvArgs.at g k with id := o.id }
  let asked := part.filter fun a => s.atPeer p o.body.writes a && !o.got.any fun x => x.1 == a
  let waits := asked.filter fun a => s.dev.spanWait.any fun x =>
    x.who == .access g k o.id && decide (x.va ≤ a) && decide (a < x.va + x.n)
  if !s.mayPerform b o part then later s
  else if !asked.isEmpty then
    if waits.isEmpty then s.spanAsk (.access g k o.id) o.request.1 o.request.2 asked else s
  else match (if o.storesNow then s.storeBlocked p (dieOf g) true part else none) with
    | some why => later (s.raiseBlocked p (dieOf g) true part why)
    | none =>
      match s.mergesBlocked p part with
      | some t => later t
      | none =>
        let last := todo.length == part.length
        let r := (s.raceEarly g k o part).perform g k o part last
        r.1.accAdvance g k r.2 next last

/-- A global access at its owner: its pages translate or walks begin; a page that faults stops it, and its faulting pages are
gathered; else the lowest page is next. -/
def State.accessStep (s : State) (g : Fin 512) (k : Fin 3) (o : AOp) : State :=
  let p := (s.bank g k).part
  let who : Requester := .access g k o.id
  let wr := o.body.writes
  let todo := o.todo
  let misses := (pagesOf todo).filter fun x => (s.tlbMiss p x).isSome
  if todo.isEmpty then s.performed g k o o.result
  else if !misses.isEmpty then s.startWalks p misses wr who
  else
    let part := s.partOf p todo
    let bad := s.badPages p todo wr
    match s.badPages p part.1 wr with
    | (_, kind) :: _ => (s.gatherFaults p bad wr who).accessFaults g k o kind none
    | [] =>
      if s.badTarget p o then s.accessFaults g k o 17 (some false)
      else
        let o := s.atOwner p todo (bad.isEmpty && !todo.any fun a => s.atPeer p wr a && !o.got.any fun x => x.1 == a) o
        (s.modBank g k fun b => b.modOp o.id fun _ => o).accessPart g k o todo part.1 part.2

def execGlobalAccessAtOwner (s : State) : Host.Outcome State Fault Refusal :=
  let g := s.ev.g
  let k := s.ev.k
  match (s.bank g k).ops.find? fun (o : AOp) => o.id == s.ev.id with
  | none => .next s
  | some o =>
    if o.performed || o.fault != 0 then .next s
    else
      let s := s.sectorErrors
      if o.xlat.isEmpty then .next (s.accessStep g k o)
      else .next (((s.pinned o.xlat).accessStep g k o).withTlbs s)

/-! ## Retirement (spec/06 R357) -/

/-- Format code and bits of a handle (spec/04 R65-R67). -/
def hFmt (h : BitVec 256) : Nat := field h 57 4
def hRows (h : BitVec 256) : Nat := field h 96 32
def hCols (h : BitVec 256) : Nat := field h 160 24
def hRow0 (h : BitVec 256) : Nat := field h 128 32
def hCol0 (h : BitVec 256) : Nat := field h 192 24
def hPitch (h : BitVec 256) : Nat := field h 216 32
def hSeed (h : BitVec 256) : Word := h.extractLsb' 64 32
def hTR (h : BitVec 256) : Bool := bit h 61
def hSmode (h : BitVec 256) : Nat := field h 62 2
def hSide (h : BitVec 256) : Nat := field h 0 57
def hILVL (h : BitVec 256) : Nat := field h 185 3
def hOLVL (h : BitVec 256) : Bool := bit h 184
def hVL (h : BitVec 256) : Nat := if bit h 188 then 8 else 4
/-- M of an N:M level. -/
def hM (h : BitVec 256) : Nat := match hILVL h with | 2 => 2 | 3 => 4 | 4 => 8 | _ => 1

/-- The first failing reason of R67: none for a good handle; a bad format comes before. -/
inductive HCheck where | ok | format (code : Nat) | reason (r : Nat)
  deriving DecidableEq, Repr

def checkHandle (h : BitVec 256) : HCheck :=
  let fmt := hFmt h
  let il := hILVL h
  if decide (9 ≤ fmt) then .format fmt
  else if field h 189 3 != 0 || field h 248 8 != 0 || hSmode h == 3 || decide (5 ≤ il) || hSide h % 64 != 0 then .reason 1
  else if hRows h == 0 || hCols h == 0 || decide (2 ^ 32 < hRow0 h + hRows h) || decide (2 ^ 24 < hCol0 h + hCols h) then .reason 2
  else if (hOLVL h && decide (2 ≤ il)) || (hTR h && (hOLVL h || il != 0)) ||
      (il != 0 && (fmt == 6 || fmt == 7 || fmt == 8)) then .reason 3
  else if (fmt == 6 && hCol0 h % 2 == 1) || (fmt == 7 && hCol0 h % 5 != 0) ||
      (decide (2 ≤ il) && (hRow0 h % hM h != 0 || hRows h % hM h != 0 || hCol0 h % hVL h != 0 || hCols h % hVL h != 0)) then
    .reason 4
  else .ok

/-- The trap a bad handle raises for handle number `n`: FORMAT_FAULT or HANDLE_FAULT with its reason. -/
def HCheck.trap (c : HCheck) (n : Nat) : Option (Byte × DWord × DWord) :=
  match c with
  | .ok => none
  | .format f => some (5, BitVec.ofNat 64 f, 0)
  | .reason r => some (6, BitVec.ofNat 64 r, BitVec.ofNat 64 n)

/-- A value popped from an X→A queue by a word that is presented again goes back to its head. -/
def Bank.unpopXA (b : Bank) (q : Nat) (v : Vec) : Bank :=
  { b.setQXA q ({ id := b.nextId, val := v, ready := true } :: b.qXA q) with nextId := b.nextId + 1, qa := b.qa - 1 }

/-- `hld` has its bytes: a good handle is written and the stream goes on; a bad one traps at the word, or, when another
trap came first, leaves it to be presented again. -/
def State.landHandle (s : State) (g : Fin 512) (k : Fin 3) (o : AOp) (n : Fin 16) (v : BitVec 256) : State :=
  let s := s.modBank g k fun b => { b with aHold := .free }
  match (checkHandle v).trap n.val with
  | none => (s.modBank g k fun b => { b.aNext 1 with h := b.h.set n.val v }).pushToken g k o.push
  | some (c, d0, d1) =>
    let b := s.bank g k
    let w := match s.fetchA b with | .word w => w | _ => 0
    let s := s.modBank g k fun b =>
      let b := b.unowe o.push
      match decodeWord .a w with
      | some (.hld h _ _ base off) =>
        let b := match h.wait with | some f => b.modFlag f fun t => { t with held := t.held + 1 } | none => b
        if 28 ≤ base.val then b.unpopXA (base.val - 28) (((o.va - off.signExtend 64 * 32).setWidth 32).setWidth 1024) else b
      | _ => b
    if b.st == .running then s.takeTrap g k .a 0 w c d0 d1 else s

/-- The value of a loaded register. -/
def loadedValue (o : AOp) (size : Nat) (sx : Bool) : DWord :=
  match o.body with
  | .load _ => extendA size sx (field o.result 0 64)
  | _ => o.result.setWidth 64

/-- A word that retires after its issue: its value arrives, and it pushes its token. Scratchpad words carry the queue entry
(`q`, the port + 1) and the flag (`n`, the flag + 1) of what they push; others are found by number. -/
def execAWordRetire (s : State) : Host.Outcome State Fault Refusal :=
  let g := s.ev.g
  let k := s.ev.k
  let counted (s : State) (push : Option (Fin 16)) : State :=
    if push.isSome then s.modBank g k fun b => { b with pa := b.pa + 1 } else s
  if s.ev.flag then
    let push : Option (Fin 16) := if s.ev.n = 0 then none else some (Fin.ofNat 16 (s.ev.n - 1))
    let s1 := if s.ev.q = 0 then s
      else s.schedule 4 .queueEntryPoppable { EvArgs.at g k with n := s.ev.q.val - 1, id := s.ev.id }
    .next ((counted s1 push).pushToken g k push)
  else match (s.bank g k).ops.find? fun (o : AOp) => o.id == s.ev.id && o.performed with
    | none => .next s
    | some o =>
      let s := s.modBank g k fun b => { b with ops := b.ops.filter fun (x : AOp) => x.id != o.id }
      match o.dst with
      | .none => .next ((counted s o.push).pushToken g k o.push)
      | .areg n size sx =>
        let s := s.modBank g k fun b =>
          if h : n.val < 28 then { b with a := b.a.set n.val (loadedValue o size sx) } else b
        .next ((counted s o.push).pushToken g k o.push)
      | .queue q id sx =>
        let v := match o.body with
          | .load n => if n = 128 then o.result else ((extendA n sx (field o.result 0 64)).setWidth 32).setWidth 1024
          | .gather _ => o.result
          | _ => (o.result.setWidth 32).setWidth 1024
        .next ((counted (s.landAX g k q.val id v) o.push).pushToken g k o.push)
      | .acc _ _ => .next (((counted s o.push).modBank g k fun b => { b with aHold := .free }).pushToken g k o.push)
      | .handle n => .next ((counted s o.push).landHandle g k o n (o.result.setWidth 256))

end Sys2Proof.Machine
end

