-- ==== Sys2Proof/Machine/Faults.lean ====
section
/-! DEFINITION. Machine/Faults.lean: bank switches, page-table walks, frozen banks and the answers they wait for, invalidations,
and `ctxbank` (spec/09 R169-R179, spec/18 R295, R296). -/
namespace Sys2Proof.Machine
open Sys2Proof

/-! ## Bank switches (spec/18 R296) -/

def otherBank (k : Fin 3) : Fin 3 := if k.val = 0 then 1 else 0
def asBank (k : Fin 3) : Fin 2 := if k.val = 0 then 0 else 1

/-- A bank stops presenting words with what it has in flight; a wait begins anew when its word is presented again. -/
def Bank.park (b : Bank) (now : Nat) (st : BankSt) : Bank :=
  { (b.holdSfc now).settleCols with
    st := st, aWait := none, mWait := none, xBusy := 0, aBusy := 0
    cols := b.settleCols.cols.map fun (c : Column) => { c with wait := none } }

/-- The running bank freezes and the other one presents its first words 8 cycles later, when it can run. -/
def State.switchBank (s : State) (g : Fin 512) (k : Fin 3) (reason : Nat) : State :=
  let o := otherBank k
  if !(s.bank g o).runnable then s
  else
    let s := (s.endExec g k).traceAt g o 3 0 6 0 (BitVec.ofNat 64 o.val) (BitVec.ofNat 64 reason)
    let s := if (s.bank g k).st == .running then s.modBank g k fun b => b.park s.cycle .ready else s
    (s.endLease g).activate g (asBank o) 8

/-- A bank of the core is about to start presenting words. -/
def State.switching (s : State) (g : Fin 512) : Bool :=
  s.agenda.any fun (x : Due) => x.what == .bankSwitchTslice && x.args.g == g && x.args.flag

/-- No bank of the core presents words, or is about to: this one may start `n` cycles from now. -/
def State.startIfIdle (s : State) (g : Fin 512) (k : Fin 3) (n : Nat) : State :=
  if (s.bank g (otherBank k)).st == .running || (s.core g).handling.isSome || (s.core g).stopped || !(s.bank g k).runnable ||
      s.switching g then s
  else s.activate g (asBank k) n

/-- A bank starts presenting words (`flag`), sending its replay list first, or stops where its unit is marked (spec/01 R13); or the running bank is switched out for reason `n`. -/
def execBankSwitchTslice (s : State) : Host.Outcome State Fault Refusal :=
  let g := s.ev.g
  let k := s.ev.k
  let b := s.bank g k
  if s.ev.flag then
    if b.st == .ready && b.runnable && (s.core g).active == asBank k && (s.core g).handling.isNone && !(s.core g).stopped then
      if b.cancelled then .next (s.stopUnit g k 1 0)
      else
      let s := s.modBank g k fun b => { b.runSfc s.cycle with st := .running, sliceStart := s.cycle }
      .next (if b.replay.isEmpty then s else s.schedule 0 .replayListResend (EvArgs.at g k))
    else if (s.core g).active == asBank k then .next (s.startIfIdle g (otherBank k) 8)
    else .next s
  else if b.st == .running && (s.core g).active == asBank k && (s.core g).handling.isNone then
    .next (s.switchBank g k s.ev.n)
  else .next s

/-! ## Walks (R169) -/

/-- A step of a request is due already. -/
def Due.serves (x : Due) (who : Requester) : Bool :=
  match who with
  | .access g k id => x.what == .globalAccessAtOwner && x.args.g == g && x.args.k == k && x.args.id == id
  | .channel d id => x.what == .copyRowCommit && x.args.d == d && x.args.id == id
  | .peer _ _ => false

/-- The request that asked for a translation, or for a peer's bytes, goes on. -/
def State.rerun (s : State) (who : Requester) : State :=
  if s.agenda.any fun x => x.serves who then s
  else match who with
    | .access g k id => s.schedule 0 .globalAccessAtOwner { EvArgs.at g k with id := id }
    | .channel d id => s.schedule 0 .copyRowCommit { EvArgs.ofDie d with id := id }
    | .peer _ _ => s

/-- A faulting request: an access waits for its reply to reach the core, a channel stalls at its row. -/
def State.faulted (s : State) (who : Requester) (kind : Nat) : State :=
  match who with
  | .access g k id =>
    match (s.bank g k).ops.find? fun (o : AOp) => o.id == id with
    | some o => s.accessFaults g k o kind none
    | none => s
  | .channel d id =>
    s.modDie d fun x => { x with copies := x.copies.map fun (c : CopyCmd) => if c.id == id then { c with st := .stalled } else c }
  | .peer _ _ => s

/-- A walk ends: it installs its entry and the request goes on, or its fault is gathered; a walk that an invalidation met
installs nothing (`n` = 1). -/
def execPageTableWalk (s : State) : Host.Outcome State Fault Refusal :=
  let d := s.ev.d
  let page := s.ev.va.toNat
  match walk s.hbm d (s.die d).xlatroot (vaOffset page) with
  | .page base size pa at_ =>
    let e : TlbEntry := { base := base, size := size, pa := pa, attr := at_ }
    let s := if s.ev.n = 1 then s else s.modDie d fun x => { x with tlb := e :: x.tlb.filter fun y => y != e }
    .next (s.rerun s.ev.req)
  | .fault k => .next ((s.gatherFaults s.ev.p [(page, k)] s.ev.flag s.ev.req).faulted s.ev.req k)

/-! ## A frozen bank (R173, R174) -/

/-- The recorded SFC of the other bank at which a replayed resumption happens, if later than now (spec/22 R334). -/
def State.resumeDelay (s : State) (g : Fin 512) (k : Fin 3) : Nat :=
  let b := s.bank g k
  match s.replayed b.part (s.sfc b).toNat (rankAt s g k) (inDie g) 0 4 with
  | some e => (field e 128 48) - (s.sfc (s.bank g (otherBank k))).toNat
  | none => 0

/-- Every fault of a frozen bank has its answer: it is ready, and runs when the core runs nothing else. A marked unit stops when it
would resume (spec/01 R13). -/
def State.bankAnswered (s : State) (g : Fin 512) (k : Fin 3) : State :=
  let b := s.bank g k
  if b.st == .awaiting && b.replay.all (fun (o : AOp) => o.answer.isSome) then
    (s.modBank g k fun b => { b with st := .ready }).startIfIdle g k 8
  else s

/-- An access of the handler, which waits in place, has its answer: it goes on, or traps (spec/18 R283). -/
def State.handlerAnswered (s : State) (g : Fin 512) (id : Nat) : State :=
  match (s.bank g 2).ops.find? fun (o : AOp) => o.id == id with
  | none => s
  | some o =>
    match o.answer with
    | some true => (s.modBank g 2 fun b => b.modOp id fun (x : AOp) => { x with fault := 0, answer := none }).rerun (.access g 2 id)
    | some false => s.takeTrap g 2 .a 0 0 (if o.fault = 17 then 17 else 15) o.va (BitVec.ofNat 64 o.fault)
    | none => s

/-- A page-fault reply reaches the core: the access goes into the replay list; a running bank freezes and the core switches, and a
bank whose faults have all been answered meanwhile is ready at once. An access of the handler waits in place. -/
def execPageFaultFreeze (s : State) : Host.Outcome State Fault Refusal :=
  let g := s.ev.g
  let k := s.ev.k
  let b := s.bank g k
  match b.ops.find? fun (o : AOp) => o.id == s.ev.id with
  | none => .next s
  | some o =>
    if k.val = 2 then .next (s.handlerAnswered g o.id)
    else
      let s := s.modBank g k fun b =>
        { b with
          ops := b.ops.filter fun (x : AOp) => x.id != o.id
          replay := sortBy (fun (x y : AOp) => decide (x.id < y.id)) (b.replay ++ [{ o with confirmed := false }]) }
      if b.st == .running then
        let s := ((s.endExec g k).modBank g k fun b => b.park s.cycle .awaiting).endLease g
        .next ((s.switchBank g k 0).bankAnswered g k)
      else if b.st == .ready then .next ((s.modBank g k fun b => { b with st := .awaiting }).bankAnswered g k)
      else .next s

/-- A resumed bank sends its replay list again in program order, or takes MEM_FAULT at the first access answered fail; ATOMIC_TARGET
takes the same way, where only the owner could tell the target (spec/12 R245; log 119). -/
def execReplayListResend (s : State) : Host.Outcome State Fault Refusal :=
  let g := s.ev.g
  let k := s.ev.k
  let b := s.bank g k
  let p := b.part
  let n := s.resumeDelay g k
  if n != 0 then .next (s.schedule n .replayListResend s.ev)
  else
    let time := (s.sfc b).toNat
    let s := s.recordPut p (recEntry time (rankAt s g k) (inDie g) 0 4 (s.sfc (s.bank g (otherBank k))).toNat 0)
    match b.replay.find? fun (o : AOp) => o.answer == some false with
    | some o =>
      let s := s.modBank g k fun b => { b with replay := [], apc := o.pc, aHold := .free, st := .running }
      let w := match s.fetchA (s.bank g k) with | .word w => w | _ => 0
      .next (if o.fault = 17 then s.takeTrap g k .a 0 w 17 o.va 0 else s.takeTrap g k .a 0 w 15 o.va (BitVec.ofNat 64 o.fault))
    | none =>
      let again := b.replay.map fun (o : AOp) => { o with fault := 0, answer := none, confirmed := false }
      let s := s.modBank g k fun b =>
        { b with replay := [], ops := sortBy (fun (x y : AOp) => decide (x.id < y.id)) (again ++ b.ops) }
      .next (again.foldl (fun (s : State) (o : AOp) =>
        (s.useFree).schedule (s.oneWay g o.va.toNat + Config.accessDelay s.free) .globalAccessAtOwner
          { EvArgs.at g k with id := o.id }) s)

/-! ## Gathered faults (R176-R178) -/

/-- The 64 KiB page number of a fault. -/
def PageFault.page (f : PageFault) : Nat := f.va / 65536

/-- A range record in the making: first page, pages, kind, access bits, faults, time. -/
structure FaultRange where
  page : Nat
  pages : Nat
  kind : Nat
  acc : Nat
  faults : Nat
  time : Nat
  deriving DecidableEq, Repr

/-- The access bits of a record: a write, the copy engine, a peer. -/
def PageFault.acc (f : PageFault) : Nat :=
  b01 f.wr + 2 * (match f.who with | .channel _ _ => 1 | _ => 0) + 4 * (match f.who with | .peer _ _ => 1 | _ => 0)

/-- Merge a sorted batch: faults of one page and kind, and consecutive pages of one kind. -/
def mergeRanges : List PageFault → List FaultRange → List FaultRange
  | [], r => r.reverse
  | f :: l, r =>
    match r with
    | x :: rest =>
      if x.kind == f.kind && (f.page == x.page + x.pages - 1 || f.page == x.page + x.pages) then
        mergeRanges l
          ({ x with
             pages := f.page - x.page + 1, acc := x.acc ||| f.acc, faults := x.faults + 1,
             time := min x.time f.time } :: rest)
      else mergeRanges l ({ page := f.page, pages := 1, kind := f.kind, acc := f.acc, faults := 1, time := f.time } :: r)
    | [] => mergeRanges l [{ page := f.page, pages := 1, kind := f.kind, acc := f.acc, faults := 1, time := f.time }]

/-- A fault-range record. -/
def FaultRange.bytes (r : FaultRange) : List Byte :=
  leBytes 8 (r.page * 65536) ++ leBytes 4 r.pages ++ [BitVec.ofNat 8 r.kind, BitVec.ofNat 8 r.acc] ++
    leBytes 2 (min r.faults 65535) ++ leBytes 8 r.time ++ leBytes 8 0

/-- Write range records while the queue has room: the faults on the pages of those written are reported. False when it is full. -/
def State.writeRanges (s : State) (p : Fin 8) : List FaultRange → State × Bool
  | [] => (s, true)
  | r :: l =>
    match s.ringPut p (fun q => q.frq) (fun q x => { q with frq := x }) r.bytes with
    | (s, false) => (s, false)
    | (s, true) =>
      (s.modJob p fun j =>
        { j with
          faults := j.faults.map fun (f : PageFault) =>
            if f.pri.isNone && f.kind == r.kind && decide (r.page ≤ f.page) && decide (f.page < r.page + r.pages) then
              { f with reported := true }
            else f }).writeRanges p l

/-- The ranges of the unreported faults of a batch, sorted by VA and merged. -/
def Job.ranges (j : Job) (batch : Nat) : List FaultRange :=
  mergeRanges (sortBy (fun (x y : PageFault) => decide (x.page < y.page) || (x.page == y.page && decide (x.kind < y.kind)))
    (j.faults.filter fun (f : PageFault) => f.batch == batch && !f.reported && f.pri.isNone)) []

/-- Write closed batches in their order; what the queue has no room for is held, with FRQFULL. -/
def State.writeBatches (s : State) (p : Fin 8) : List Nat → State
  | [] => s.modPart p fun q => { q with frqfull := false }
  | n :: l =>
    match (s.part p).job with
    | none => s
    | some j =>
      match s.writeRanges p (j.ranges n) with
      | (s, true) => s.writeBatches p l
      | (s, false) => s.modPart p fun q => { q with frqfull := true }

/-- The numbers of the closed batches that hold unreported faults. -/
def Job.closed (j : Job) : List Nat :=
  sortBy (fun (x y : Nat) => decide (x < y))
    (dedup ((j.faults.filter fun f => f.pri.isNone && !f.reported && decide (f.batch < j.batchNo)).map fun f => f.batch))

def State.writeClosed (s : State) (p : Fin 8) : State :=
  match (s.part p).job with | some j => s.writeBatches p j.closed | none => s

/-- The batch being gathered ends: the next fault begins another, with a timer of its own. -/
def State.endBatch (s : State) (p : Fin 8) : State :=
  (s.unschedule fun (x : Due) => x.what == .faultBatchTimer && x.args.p == p).modJob p fun j =>
    { j with batchNo := j.batchNo + 1, batchFrom := none }

/-- The timer, or the COUNT-th fault, closes batch `id`; one that has ended meanwhile is left alone. -/
def State.closeBatch (s : State) (p : Fin 8) (id : Nat) : State :=
  match (s.part p).job with
  | none => s
  | some j => if j.batchNo == id && j.batchFrom.isSome then (s.endBatch p).writeClosed p else s

def execFaultBatchTimer (s : State) : Host.Outcome State Fault Refusal := .next (s.closeBatch s.ev.p s.ev.id)
def execFaultBatchCount (s : State) : Host.Outcome State Fault Refusal := .next (s.closeBatch s.ev.p s.ev.id)

/-- The host frees room in the fault-range queue (`w` is FRQHEAD): held batches are written. -/
def execFrqheadWrite (s : State) : Host.Outcome State Fault Refusal :=
  let p := s.ev.p
  let s := s.modPart p fun q => { q with frq := { q.frq with head := s.ev.w } }
  .next (if (s.part p).frqfull then s.writeClosed p else s)

/-! ## Answers (R174, R175, R177, R178) -/

/-- A requester hears the answer of one of its pages; `rest` are the faults still waiting. -/
def State.answerOne (s : State) (rest : List PageFault) (ok : Bool) (f : PageFault) : State :=
  let more := rest.any fun (x : PageFault) => x.who == f.who
  match f.who with
  | .access g k id =>
    let upd (o : AOp) : AOp :=
      if o.id != id then o
      else if !ok then { o with answer := some false }
      else if more || o.answer == some false then o
      else { o with answer := some true }
    let s := s.modBank g k fun b => { b with ops := b.ops.map upd, replay := b.replay.map upd }
    if k.val = 2 then s.handlerAnswered g id else s.bankAnswered g k
  | .channel d id =>
    if !ok then
      (s.modDie d fun x =>
        { x with copies := x.copies.map fun (c : CopyCmd) => if c.id == id && c.st == .stalled then { c with st := .failed 1 } else c }).schedule
        0 .copyCommandComplete { EvArgs.ofDie d with id := id }
    else if more then s
    else
      (s.modDie d fun x =>
        { x with copies := x.copies.map fun (c : CopyCmd) => if c.id == id && c.st == .stalled then { c with st := .running } else c }).rerun
        f.who
  | .peer port tag =>
    if more && ok then s
    else s.modDev fun d =>
      { d with spanOut := d.spanOut ++ [(8, port.val, BitVec.ofNat 64 tag, [if ok then (0 : Byte) else 1])] }

/-- Every waiting fault that meets a test takes an answer. -/
def State.answer (s : State) (p : Fin 8) (hit : PageFault → Bool) (ok : Bool) : State :=
  match (s.part p).job with
  | none => s
  | some j =>
    let rest := j.faults.filter fun f => !hit f
    let s := s.modJob p fun j => { j with faults := rest }
    let s := if j.batchFrom.isSome && ({ j with faults := rest } : Job).freshFaults.isEmpty then s.endBatch p else s
    ((j.faults.filter hit).foldl (fun (s : State) (f : PageFault) => s.answerOne rest ok f) s).priRefill p

/-- An answer for faults of the job in shadow storage is held until it swaps back in (spec/18 R300). -/
def State.holdAnswer (s : State) (p : Fin 8) (hit : PageFault → Bool) (x : Nat × Nat × Option Nat × Bool) : State :=
  match (s.part p).shadowJob with
  | some j => if j.faults.any hit then s.modPart p fun q => { q with heldAnswers := q.heldAnswers ++ [x] } else s
  | none => s

/-- The answer doorbell: `va`, `n` pages, `w` the status, 0 retry and 1 fail. -/
def execFaultAnswer (s : State) : Host.Outcome State Fault Refusal :=
  let p := s.ev.p
  let s := s.modPart p fun q => { q with fansVA := s.ev.va, fansPages := BitVec.ofNat 32 s.ev.n }
  let first := s.ev.va.toNat / 65536
  let hit (f : PageFault) : Bool := f.pri.isNone && decide (first ≤ f.page) && decide (f.page < first + s.ev.n)
  if s.ev.w = 0 || s.ev.w = 1 then
    .next ((s.holdAnswer p hit (first, s.ev.n, none, s.ev.w == 0)).answer p hit (s.ev.w == 0))
  else .next s

/-- A Page Request Group Response for group `id`: Success (`w` = 0) is retry, Invalid Request is fail. -/
def execPriGroupResponse (s : State) : Host.Outcome State Fault Refusal :=
  let hit (f : PageFault) : Bool := f.reported && f.pri == some s.ev.id
  .next ((s.holdAnswer s.ev.p hit (0, 0, some s.ev.id, s.ev.w == 0)).answer s.ev.p hit (s.ev.w == 0))

/-- Response Failure: every pending fault of the partition fails, and later ones are held until FLTCTL is written. -/
def execPriResponseFailure (s : State) : Host.Outcome State Fault Refusal :=
  let s := s.modPart s.ev.p fun q => { q with pristop := true }
  .next (s.answer s.ev.p (fun _ => true) false)

/-! ## Invalidations (R169; spec/18 R295, spec/23 R342) -/

/-- An entry overlaps a range of offsets. -/
def TlbEntry.meets (e : TlbEntry) (lo hi : Nat) : Bool := decide (e.base < hi) && decide (lo < e.base + e.size)

/-- Accesses that have translated through an entry of a die that overlaps a range, and not performed. -/
def State.usersOf (s : State) (d : Fin 8) (lo hi : Nat) : List DWord :=
  (List.finRange 512).flatMap fun g =>
    (List.finRange 3).flatMap fun k =>
      ((s.bank g k).ops.filter fun (o : AOp) => o.open_ && o.xlat.any fun x => x.1 == d && x.2.meets lo hi).map fun (o : AOp) =>
        BitVec.ofNat 64 (g.val * 2 ^ 48 + k.val * 2 ^ 40 + o.id)

def State.userOpen (s : State) (w : DWord) : Bool :=
  (s.bank (Fin.ofNat 512 (field w 48 9)) (Fin.ofNat 3 (field w 40 2))).ops.any fun (o : AOp) => o.id == field w 0 40 && o.open_

/-- A walk of a die overlaps a range of offsets. -/
def Due.walksIn (x : Due) (d : Fin 8) (lo hi : Nat) : Bool :=
  x.what == .pageTableWalk && x.args.d == d && decide (lo < vaOffset x.args.va.toNat + 65536) &&
    decide (vaOffset x.args.va.toNat < hi)

/-- An invalidation of a die rank over [va, va + len): the entries go at once and walks in progress install nothing; it
completes when those walks and the accesses that had translated have ended. `push` is a flag + 1. -/
def State.invalidate (s : State) (p : Fin 8) (rank va len push : Nat) (inv : InvFor) : State :=
  let lo := vaOffset va / 65536 * 65536
  let hi := (vaOffset va + len + 65535) / 65536 * 65536
  match s.dieOfRank p rank with
  | none => s.schedule 0 .invalidationComplete { EvArgs.ofPart p with inv := inv, id := push }
  | some d =>
    let users := s.usersOf d lo hi
    let s := s.modDie d fun x => { x with tlb := x.tlb.filter fun e => !e.meets lo hi }
    let s := { s with agenda := s.agenda.map fun (x : Due) => if x.walksIn d lo hi then { x with args := { x.args with n := 1 } } else x }
    s.schedule 0 .invalidationComplete
      { EvArgs.ofPart p with d := d, inv := inv, id := push, words := users, va := BitVec.ofNat 64 lo, n := hi, flag := true }

/-- Whoever asked for the invalidation hears of its end. -/
def execInvalidationComplete (s : State) : Host.Outcome State Fault Refusal :=
  let a := s.ev
  if a.flag && (a.words.any (fun w => s.userOpen w) ||
      s.agenda.any fun (x : Due) => x.walksIn a.d a.va.toNat a.n && x.args.n == 1) then
    .next (s.schedule 1 .invalidationComplete a)
  else match a.inv with
    | .mailbox => .next (s.modDev fun d => { d with mbStatus := 0, msix := d.msix ++ [0] })
    | .word g =>
      .next ((s.modBank g 2 fun b => { b with aHold := .free }).pushToken g 2
        (if a.id = 0 then none else some (Fin.ofNat 16 (a.id - 1))))

/-- `tlbinv aV, aL`: system context only; it returns when the invalidation has completed. -/
def execTlbinv (h : AHdr) (v l : Fin 32) (s : State) : Host.Outcome State Fault Refusal :=
  let va := (s.rA v).toNat
  let len := (s.rA l).toNat
  aLegal (s.turn.ctx.val != 2) s
    (aWord h [v, l] [] []
      (fun t => if decide (8 ≤ vaOwner va) || len == 0 then some t.illegal else none)
      (fun t =>
        let g := t.turn.core
        (t.modTb fun b => { b with aHold := .invalidate }).invalidate (t.partAt g) (vaOwner va) va len
          (match h.push with | some f => f.val + 1 | none => 0) (.word g)) s)

/-- ATS invalidation: the host's translations have changed (spec/09 R165). -/
def execAtsInvalidation (s : State) : Host.Outcome State Fault Refusal :=
  .next (s.modDev fun d => { d with atsEpoch := d.atsEpoch + 1 })

/-! ## `ctxbank` (spec/18 R295) -/

/-- An unretired array command of the core names the accumulator. -/
def State.accBusy (s : State) (g : Fin 512) (n : Fin 4) : Bool :=
  (s.cluster (clusterOf g)).cmds.any fun (c : ArrCmd) => c.core == g && c.acc == n && !c.retired &&
    (c.op == .mul || c.op == .drain || c.op == .zero || c.op == .snap)

/-- Bytes of an accumulator: element (i, j) at 128 i + 4 j. -/
def Acc.bytes (a : Acc) : List Byte := a.rows.toList.flatMap fun r => leBytes 128 r.toNat

/-- `ctxbank aS, aV`: spill accumulator aS[1:0] to the 4 KiB at aV, or fill it from there with the mode aS[3]. -/
def execCtxbank (h : AHdr) (a v : Fin 32) (s : State) : Host.Outcome State Fault Refusal :=
  let sel := s.rA a
  let va := (s.rA v).toNat
  let n : Fin 4 := Fin.ofNat 4 sel.toNat
  let fill := bit sel 2
  aLegal (s.turn.ctx.val != 2) s
    (aWord h [a, v] [] []
      (fun t =>
        if decide (16 ≤ sel.toNat) then some t.illegal
        else match gBlock (!fill) none false 4096 va t with
          | some u => some u
          | none => if t.accBusy t.turn.core n then some (t.stall wOwner 0) else none)
      (fun t =>
        let g := t.turn.core
        let op := t.tb.nextId
        if fill then
          let t := t.send s 0 va (.load 4096) (.acc n (bit sel 3)) h.push false
          t.modTb fun b => { b with aHold := .handle op }
        else t.send s 0 va (.store ((t.core g).acc.get n).bytes) .none h.push false) s)

end Sys2Proof.Machine
end

