-- ==== Sys2Proof/Machine/Handles.lean ====
section
/-! DEFINITION. Machine/Handles.lean: tensor handles, where an element lies and how it is encoded, and the handle instructions
with `ldd` and `stz` (spec/04, spec/10 R197, R198, spec/03 R50-R54, R358). -/
namespace Sys2Proof.Machine
open Sys2Proof

/-! ## Fields and addresses (R65-R69) -/

/-- Window rows and columns (R68). -/
def winRows (h : BitVec 256) : Nat := if hTR h then hCols h else hRows h
def winCols (h : BitVec 256) : Nat := if hTR h then hRows h else hCols h

/-- Bytes that n columns of a stored row occupy (R68). -/
def rowbytes (fmt n : Nat) : Nat :=
  match fmtOf fmt with
  | some .d4 => (n + 1) / 2
  | some .t5 => (n + 4) / 5
  | some f => n * elemBytes f
  | none => n

/-- Byte of a column within its row, and the place of the element in that byte. -/
def colByte (f : Fmt) (col : Nat) : Nat := match f with | .d4 => col / 2 | .t5 => col / 5 | _ => col * elemBytes f
def colPos (f : Fmt) (col : Nat) : Nat := match f with | .d4 => 4 * (col % 2) | .t5 => col % 5 | _ => 0

/-- Address of the element at a stored row and a column. -/
def elemAddr (h : BitVec 256) (f : Fmt) (base stored col : Nat) : Nat := (base + stored * hPitch h + colByte f col) % 2 ^ 64

/-- Logical row and column of window element (r, c); with a compressed outer level the row is the stored row (R68, R69). -/
def winCoords (h : BitVec 256) (r c : Nat) : Nat × Nat :=
  if hTR h then (hRow0 h + c, hCol0 h + r) else (hRow0 h + r, hCol0 h + c)

/-- The side block as a reader reads it (R66). -/
def sideFrom (rd : Nat → Nat → Nat) (va : Nat) : Side :=
  { base := rd va 8, scale := BitVec.ofNat 32 (rd (va + 8) 4), mpitch := rd (va + 12) 4, svec := rd (va + 16) 8,
    metaVA := rd (va + 24) 8 }

def State.sideAt (s : State) (p : Fin 8) (va : Nat) : Side := sideFrom (s.greadLE p) va

/-- The format uses the scale of its handle (R54). -/
def scaled : Fmt → Bool | .int8 => true | .d8 => true | .d4 => true | .t5 => true | _ => false

/-- The entry of the scale vector that an element uses; none in tensor mode. -/
def scaleEntry (h : BitVec 256) (f : Fmt) (x : Side) (row col : Nat) : Option Nat :=
  if !scaled f || hSmode h == 0 then none else some (x.svec + 4 * (if hSmode h == 1 then row else col))

def State.scaleOf (s : State) (p : Fin 8) (h : BitVec 256) (f : Fmt) (x : Side) (row col : Nat) : Word :=
  match scaleEntry h f x row col with
  | none => x.scale
  | some va => BitVec.ofNat 32 (s.greadLE p va 4)

/-! ## Encoding one element (spec/03 R48-R52, spec/10 R198) -/

/-- The code of an exact value in a format, none for NaV, with the kind of its event (R236): 0 none, 1 NaN, 3 saturation,
9 bad scale. -/
def encodeElem (f : Fmt) (v : FVal) (scale : Word) (j : Nat) : Option Nat × Nat :=
  let sc := unpack32 scale
  match f with
  | .int8 =>
    let q := quotInt8 v sc
    (some (BitVec.ofInt 8 q.1).toNat, match q.2 with | .nan => 1 | .saturation => 3 | _ => 0)
  | .int32 =>
    let r := toRange .rne (-2147483648) 2147483647 v
    (some (BitVec.ofInt 32 r.1).toNat, if v.isNan then 1 else if r.2 == fNV then 3 else 0)
  | _ =>
    match floatFmt f with
    | some fd =>
      let r := fd.pack .rne v false
      (some r.1, if v.isNan then 1 else if r.2 &&& fOF != 0 then 3 else 0)
    | none =>
      let q := quantise f v sc j
      (q.1.map fun (i : Int) => if f == .t5 then (i + 1).toNat else (BitVec.ofInt (fmtBits f) i).toNat,
        match q.2 with | .nan => 1 | .saturation => 3 | .badScale => 9 | _ => 0)

/-- One element to be written: its byte address, its place in the byte, its code. -/
structure ElemW where
  va : Nat
  pos : Nat
  code : Option Nat
  deriving DecidableEq, Repr

/-- The elements written into one byte, later ones over earlier ones, as one part (R358). -/
def bytePart (f : Fmt) (va : Nat) (l : List ElemW) : PartW :=
  let at_ (i : Nat) : Option ElemW := lastWith (fun (e : ElemW) => e.pos == i) l
  match f with
  | .d4 =>
    let nib (i : Nat) : Option Nat := (at_ i).map fun e => e.code.getD 8
    match nib 0, nib 4 with
    | some a, some b => .whole va (BitVec.ofNat 8 (a + 16 * b))
    | some a, none => .nib va false (BitVec.ofNat 4 a)
    | none, some b => .nib va true (BitVec.ofNat 4 b)
    | none, none => .nib va false 0
  | .t5 =>
    if l.any fun e => e.code.isNone then .nanByte va
    else
      let ds := (upTo 0 5).filterMap fun i => (at_ i).map fun (e : ElemW) => (i, ((e.code.getD 1 : Nat) : Int) - 1)
      if ds.length = 5 then
        .whole va (BitVec.ofNat 8 (t5Byte fun i => match ds.find? fun (x : Nat × Int) => x.1 == i with | some x => x.2 | none => 0))
      else .digits va ds
  | _ => .whole va 0

/-- All parts that write a list of elements of one format. -/
def partsOf (f : Fmt) (l : List ElemW) : List PartW :=
  match f with
  | .d4 => (dedup (l.map fun (e : ElemW) => e.va)).map fun va => bytePart f va (l.filter fun (e : ElemW) => e.va == va)
  | .t5 => (dedup (l.map fun (e : ElemW) => e.va)).map fun va => bytePart f va (l.filter fun (e : ElemW) => e.va == va)
  | _ => l.flatMap fun (e : ElemW) =>
      (leBytes (elemBytes f) (e.code.getD 0x80)).zipIdx.map fun (x : Byte × Nat) => PartW.whole (e.va + x.2) x.1

/-! ## `hst`, `hview`, `htrans`, `hshape` (R71, R72) -/

def State.hreg (s : State) (n : Fin 16) : BitVec 256 := s.tb.h.get n
def State.setH (s : State) (n : Fin 16) (v : BitVec 256) : State := s.modTb fun b => { b with h := b.h.set n.val v }

/-- `hld`: no word issues after it until its bytes have arrived and are checked. -/
def execHld (h : AHdr) (cls : Fin 8) (r : Fin 16) (a : Fin 32) (off : BitVec 7) (s : State) : Host.Outcome State Fault Refusal :=
  let va := (s.rA a + off.signExtend 64 * 32).toNat
  aWord h [a] [] [] (gBlock false none false 32 va) (fun t =>
    let id := t.tb.nextId
    let t := t.aliasNote t.turn.core t.turn.ctx s.tb.apc cls false false va 32 none
    let t := t.send s cls va (.load 32) (.handle r) h.push false
    t.modTb fun b =>
      { b with aHold := .handle id, apc := s.tb.apc, aLoop0 := s.tb.aLoop0, aLoop1 := s.tb.aLoop1 }) s

def execHst (h : AHdr) (cls : Fin 8) (r : Fin 16) (a : Fin 32) (off : BitVec 7) (s : State) : Host.Outcome State Fault Refusal :=
  aGlobal h [a] [] [] cls true none false false 32 (fun s => (s.rA a + off.signExtend 64 * 32).toNat) true 32
    (fun s => .store (leBytes 32 (s.hreg r).toNat)) (fun t => (t, .none)) s

/-- A word that makes a handle: `pre` is a failing reason of its own, `f` the handle it makes, which R67 then checks. -/
def aHandle (h : AHdr) (d src : Fin 16) (srcs : List (Fin 32)) (pre : State → Option Nat) (f : State → BitVec 256) (s : State) :
    Host.Outcome State Fault Refusal :=
  let v := f s
  aWord h srcs [] []
    (fun t =>
      let c : HCheck := if decide (9 ≤ hFmt (s.hreg src)) then .format (hFmt (s.hreg src)) else match pre s with
        | some r => .reason r
        | none => checkHandle v
      match c.trap d.val with
      | some (cause, d0, d1) => some (t.trap cause d0 d1)
      | none => none)
    (fun t => (t.setH d v).retirePush h.push) s

/-- The register after an even one. -/
def succReg (k : Fin 32) : Fin 32 := Fin.ofNat 32 (k.val + 1)

def execHview (h : AHdr) (d src : Fin 16) (k : Fin 32) (s : State) : Host.Outcome State Fault Refusal :=
  let o (s : State) : DWord := s.rA k
  let n (s : State) : DWord := s.rA (succReg k)
  let dr (s : State) : Nat := field (o s) 0 32
  let dc (s : State) : Nat := field (o s) 32 24
  let nr (s : State) : Nat := field (n s) 0 32
  let nc (s : State) : Nat := field (n s) 32 24
  aHandle h d src [k, succReg k]
    (fun s =>
      let v := s.hreg src
      if nr s == 0 || nc s == 0 || decide (winRows v < dr s + nr s) || decide (winCols v < dc s + nc s) ||
          field (o s) 56 8 != 0 || field (n s) 56 8 != 0 then some 2 else none)
    (fun s =>
      let v := s.hreg src
      let (ar, ac, lr, lc) := if hTR v then (dc s, dr s, nc s, nr s) else (dr s, dc s, nr s, nc s)
      setBits (setBits (setBits (setBits v 128 32 (hRow0 v + ar)) 192 24 (hCol0 v + ac)) 96 32 lr) 160 24 lc) s

def execHtrans (h : AHdr) (d src : Fin 16) (s : State) : Host.Outcome State Fault Refusal :=
  aHandle h d src [] (fun _ => none) (fun s => setBit (s.hreg src) 61 (!hTR (s.hreg src))) s

def execHshape (h : AHdr) (d src : Fin 16) (k : Fin 32) (s : State) : Host.Outcome State Fault Refusal :=
  let nr (s : State) : Nat := field (s.rA k) 0 32
  let nc (s : State) : Nat := field (s.rA k) 32 24
  aHandle h d src [k]
    (fun s =>
      let v := s.hreg src
      if field (s.rA k) 56 8 != 0 || hRow0 v != 0 || hCol0 v != 0 || hTR v || hOLVL v || hILVL v != 0 ||
          nr s * nc s != hRows v * hCols v || hPitch v != rowbytes (hFmt v) (hCols v) ||
          (nc s != hCols v && (hFmt v == 5 || hFmt v == 6 || hFmt v == 7)) then some 5 else none)
    (fun s =>
      let v := s.hreg src
      setBits (setBits (setBits v 96 32 (nr s)) 160 24 (nc s)) 216 32 (rowbytes (hFmt v) (nc s))) s

/-! ## Reads that a word makes at its issue (R66, R197) -/

/-- What stands in the way of reading a run of bytes at issue as a load of class `cls`: R164, an earlier access it must
follow, or a page that does not translate, for which a probe is sent as an access of the word. -/
def State.readBlock (s : State) (t : State) (cls : Fin 8) (va n : Nat) : Option State :=
  let p := t.tb.part
  let v := BitVec.ofNat 64 va
  let bytes := [va, va + n - 1]
  if bytes.any fun a => !canonical a then some (t.trap 8 v 0)
  else if bytes.any fun a => !t.ownerOk p a then some (t.trap 9 v 0)
  else if t.readWaits t.tb cls (upTo va n) then some (t.stall wOwner 0)
  else
    match bytes.find? fun x => (t.tlbMiss p (pageOf x)).isSome || (t.pageFaultKind p (pageOf x) false).isSome with
    | none => if t.readsPoison p (upTo va n) then some ((t.consume p (upTo va n)).stall wOwner 0) else none
    | some a =>
      if (t.tb.ops.any fun (o : AOp) => o.va.toNat == a && o.open_) ||
          decide (16 ≤ (t.tb.ops.filter fun (o : AOp) => !o.confirmed).length) then some (t.stall wOwner 0)
      else some ((t.send s cls a (.load 1) .none none false).stall wOwner 0)

/-- The first obstacle of a list of reads. -/
def State.readBlocks (s : State) (t : State) (cls : Fin 8) (l : List (Nat × Nat)) : Option State :=
  l.findSome? fun x => s.readBlock t cls x.1 x.2

/-- The trap of a bad address of a side block: HANDLE_FAULT 1 for handle `n` (R67). -/
def State.sideTrap (t : State) (n : Nat) : State := t.trap 6 1 (BitVec.ofNat 64 n)

/-! ## `ldd` and `stz` (spec/10 R197, R198) -/

/-- Lanes that reach an element. -/
def quantLanes (h : BitVec 256) (f : Fmt) (c : Nat) : Nat := min (if f == .t5 then 30 else 32) (winCols h - c)

/-- One lane: logical coordinates, stored row. -/
def quantCoord (h : BitVec 256) (idx : Nat) (r c : Nat) : Nat × Nat × Nat :=
  let x := winCoords h r c
  (if hOLVL h then idx else x.1, x.2, x.1)

/-- The checks before a lane is touched, then the reads at issue; none when all is at hand. -/
def quantBlock (sp : Bool) (cls : Fin 8) (hs : Fin 16) (noInt32 : Bool) (k : DWord) (s t : State) : Option State :=
  let h := s.hreg hs
  let p := t.tb.part
  let r := field k 0 32
  let c := field k 32 32
  match fmtOf (hFmt h) with
  | none => some (t.trap 5 (BitVec.ofNat 64 (hFmt h)) 0)
  | some f =>
    if hILVL h != 0 then some (t.trap 6 3 (BitVec.ofNat 64 hs.val))
    else if decide (winRows h ≤ r) || decide (winCols h ≤ c) then some (t.trap 6 2 (BitVec.ofNat 64 hs.val))
    else match s.readBlock t 0 (hSide h) 64 with
      | some u => some u
      | none =>
        let x := t.sideAt p (hSide h)
        let w := winCoords h r c
        if (f == .d4 && c % 2 == 1) || (f == .t5 && c % 5 != 0) then
          some (t.trap 7 (BitVec.ofNat 64 (elemAddr h f x.base w.1 w.2)) 0)
        else if noInt32 && f == .int32 then some (t.trap 5 8 0)
        else if decide (2 ^ 57 ≤ x.base) then some (t.sideTrap hs.val)
        else if hOLVL h && (decide (2 ^ 57 ≤ x.metaVA) || x.metaVA % 64 != 0) then some (t.sideTrap hs.val)
        else if scaled f && hSmode h != 0 && (decide (2 ^ 57 ≤ x.svec) || x.svec % 4 != 0) then some (t.sideTrap hs.val)
        else
          let ixva := x.metaVA + 4 * (hRow0 h + r)
          let ixBlock := if !hOLVL h then none
            else if sp then
              match t.spCheck t.turn.core t.turn.ctx false ixva 4 0 with
              | some (a, d0, d1) => some (t.trap a d0 d1)
              | none => none
            else s.readBlock t cls ixva 4
          match ixBlock with
          | some u => some u
          | none =>
            let idx := if sp then (t.core t.turn.core).spRead ixva 4 else t.greadLE p ixva 4
            let n := quantLanes h f c
            let rows := (upTo 0 n).map fun l => quantCoord h idx r (c + l)
            s.readBlocks t cls (rows.filterMap fun (y : Nat × Nat × Nat) => (scaleEntry h f x y.1 y.2.1).map fun va => (va, 4))

/-- Row index of a compressed window row. -/
def State.idxOf (s : State) (sp : Bool) (h : BitVec 256) (x : Side) (r : Nat) : Nat :=
  let va := x.metaVA + 4 * (hRow0 h + r)
  if !hOLVL h then 0 else if sp then (s.core s.turn.core).spRead va 4 else s.greadLE s.tb.part va 4

/-- The elements of a word as lanes with address, scale and coordinates. -/
def State.quantSpecs (s : State) (sp : Bool) (hs : Fin 16) (k : DWord) : List LaneSpec :=
  let h := s.hreg hs
  let p := s.tb.part
  let r := field k 0 32
  let c := field k 32 32
  match fmtOf (hFmt h) with
  | none => []
  | some f =>
    let x := s.sideAt p (hSide h)
    let idx := s.idxOf sp h x r
    (upTo 0 (quantLanes h f c)).map fun l =>
      let y := quantCoord h idx r (c + l)
      { lane := l, va := elemAddr h f x.base y.2.2 y.2.1, fmt := f, pos := colPos f y.2.1, scale := s.scaleOf p h f x y.1 y.2.1,
        seed := hSeed h, row := BitVec.ofNat 32 y.1, col := BitVec.ofNat 32 y.2.1 }

/-- The check of every element: R164 in global memory, R183 and R187 in the scratchpad; the first failing lane decides. -/
def elemBlock (sp wr : Bool) (cls : Fin 8) (l : List LaneSpec) (t : State) : Option State :=
  let p := t.tb.part
  match l.findSome? fun (x : LaneSpec) =>
      let v := BitVec.ofNat 64 x.va
      if sp then t.spCheck t.turn.core t.turn.ctx wr x.va (elemBytes x.fmt) x.lane
      else if !canonical x.va || !canonical (x.va + elemBytes x.fmt - 1) then some ((8 : Byte), v, (0 : DWord))
      else if !t.ownerOk p x.va || !t.ownerOk p (x.va + elemBytes x.fmt - 1) then some (9, v, 0)
      else none with
  | some (c, d0, d1) => some (t.trap c d0 d1)
  | none =>
    if sp then
      if (t.core t.turn.core).slabBusy t.cycle (l.map fun (x : LaneSpec) => tileOf x.va) then some (t.stall wConflict 0)
      else if decide (t.tb.aBusy + 1 < portCycles (l.map fun (x : LaneSpec) => x.va)) then some (t.stall wConflict 1)
      else t.spWaits wr cls
    else
      let anySo := l.any fun (x : LaneSpec) => t.kindAt p x.va == 0
      if decide (16 ≤ (t.tb.ops.filter fun (o : AOp) => !o.confirmed).length) ||
          (anySo && t.tb.ops.any fun (o : AOp) => !o.confirmed) then some (t.stall wOwner 0)
      else if wr && !t.relOk t.turn.core t.turn.ctx then some (t.stall wOwner 0)
      else if (t.part p).aliasMode && t.tb.ops.any AOp.open_ then some (t.stall wOwner 0)
      else none

/-- Note the elements for the alias-check mode. -/
def State.elemAlias (t : State) (pc : Word) (cls : Fin 8) (sp wr : Bool) (l : List LaneSpec) : State :=
  l.foldl (fun (t : State) (x : LaneSpec) =>
    t.aliasNote t.turn.core t.turn.ctx pc cls sp wr x.va (elemBytes x.fmt) none) t

/-- `ldd`: 32 elements, decoded, into vector queue q. -/
def execLdd (h : AHdr) (cls : Fin 8) (sp : Bool) (q : Fin 4) (hs : Fin 16) (c : Fin 32) (s : State) :
    Host.Outcome State Fault Refusal :=
  let k := s.rA c
  let port := 4 + q.val
  aWord h [c] [] [port]
    (fun t =>
      match quantBlock sp cls hs false k s t with
      | some u => some u
      | none => elemBlock sp false cls (s.quantSpecs sp hs k) t)
    (fun t =>
      let l := s.quantSpecs sp hs k
      let id := t.tb.nextId
      let t := t.elemAlias s.tb.apc cls sp false l
      if sp then
        let rd (a n : Nat) : Nat := (s.core s.turn.core).spRead a n
        let rs := l.map fun (x : LaneSpec) => (x.lane, decodeLane rd x)
        let v := ofLanes fun i => match rs.find? fun (y : Nat × Word × List Nat) => y.1 == i with | some y => y.2.1 | none => 0
        let t := t.provAccess t.turn.core t.turn.ctx (s.sfc s.tb) s.tb.apc (hFmt (s.hreg hs)) (decodeEvents rd l)
        (t.modTb fun b => { b.reserveAX port v with pa := b.pa + 1 }).retireLater 6 h.push (port + 1) id
      else
        let t := t.modTb fun b => { b.reserveAX port 0 with pa := b.pa + 1 }
        t.send s cls (match l with | x :: _ => x.va | [] => 0) (.gather l) (.queue (Fin.ofNat 8 port) id false) h.push false) s

/-- `stz`: one entry of vector queue q, quantised into the window's elements. -/
def execStz (h : AHdr) (cls : Fin 8) (sp : Bool) (q : Fin 4) (hs : Fin 16) (c : Fin 32) (s : State) :
    Host.Outcome State Fault Refusal :=
  let k := s.rA c
  let port := 4 + q.val
  aWord h [c] [] []
    (fun t =>
      if !headReady (t.tb.qXA port) then some (t.stall 3 (BitVec.ofNat 64 ((8 + port) * 2 ^ 32)))
      else if !sp && t.tb.sealed then some (t.trap 19 0 0)
      else match quantBlock sp cls hs true k s t with
        | some u => some u
        | none => elemBlock sp true cls (s.quantSpecs sp hs k) t)
    (fun t =>
      let l := s.quantSpecs sp hs k
      let v := headVal (s.tb.qXA port)
      let f := (fmtOf (hFmt (s.hreg hs))).getD .fp32
      let es := l.map fun (x : LaneSpec) =>
        (x, encodeElem f (unpack32 (lane v x.lane)) x.scale (ditherJ x.seed x.row x.col))
      let ws := partsOf f (es.map fun (y : LaneSpec × Option Nat × Nat) => { va := y.1.va, pos := y.1.pos, code := y.2.1 })
      let old (a : Nat) : Byte := BitVec.ofNat 8 ((s.core s.turn.core).spRead a 1)
      let ms := ws.map fun (w : PartW) => (w, mergePart (old w.va) w)
      let ev := (es.filter fun (y : LaneSpec × Option Nat × Nat) => y.2.2 != 0).map fun y => y.1.event y.2.2
      let t := (t.modTb fun b => b.popXA port).elemAlias s.tb.apc cls sp true l
      let t := t.provAccess t.turn.core t.turn.ctx (s.sfc s.tb) s.tb.apc (hFmt (s.hreg hs))
        (if sp then ev ++ mergeEvents l ms else ev)
      if sp then
        (ms.foldl (fun (t : State) (m : PartW × Byte × Bool) => t.spWrite t.turn.core m.1.va [m.2.1]) t).retirePush h.push
      else t.send s cls (match l with | x :: _ => x.va | [] => 0) (.scatter l ws) .none h.push false) s

end Sys2Proof.Machine
end

