-- ==== Sys2Proof/Machine/Rings.lean ====
section
/-! DEFINITION. Machine/Rings.lean: owner bits, rings and ring rotation (spec/10 R187-R193, R359). -/
namespace Sys2Proof.Machine
open Sys2Proof

/-! ## Tiles that an engine command names -/

/-- Rows of bytes: row r, from row0 on, is [base + r × pitch + c0, base + r × pitch + c1). -/
structure Span where
  base : Nat
  pitch : Nat
  row0 : Nat
  rows : Nat
  c0 : Nat
  c1 : Nat
  deriving DecidableEq, Repr

/-- The first byte of a span within [lo, hi). -/
def Span.firstIn (x : Span) (lo hi : Nat) : Option Nat :=
  let need := lo + 1 - (x.base + x.c1)
  let r := max x.row0 (if x.pitch = 0 then x.row0 else (need + x.pitch - 1) / x.pitch)
  let a := x.base + r * x.pitch + x.c0
  if decide (r < x.row0 + x.rows) && decide (lo < x.base + r * x.pitch + x.c1) && decide (a < hi) then some (max lo a) else none

/-- A span in the scratchpad touches a tile. -/
def Span.touch (x : Span) (t : Nat) : Bool := (x.firstIn (4096 * t) (4096 * (t + 1))).isSome

/-- The address after the last byte. -/
def Span.end_ (x : Span) : Nat := x.base + (x.row0 + x.rows - 1) * x.pitch + x.c1

/-- Rows kept of each group of M by an N:M level (R65). -/
def hN (h : BitVec 256) : Nat := hM h / 2

/-- Where the elements of a handle's window are stored (R68, R69): the whole groups of a bitmap level, the kept rows of an N:M
level. -/
def winSpan (h : BitVec 256) (base : Nat) : Span :=
  let last := hCol0 h + hCols h - 1
  match fmtOf (hFmt h) with
  | none => { base := base, pitch := 0, row0 := 0, rows := 0, c0 := 0, c1 := 0 }
  | some f =>
    let x : Span :=
      { base := base, pitch := hPitch h, row0 := hRow0 h, rows := hRows h, c0 := colByte f (hCol0 h),
        c1 := colByte f last + elemBytes f }
    match hILVL h with
    | 0 => x
    | 1 => { x with c0 := 64 * (hCol0 h / 64) * elemBytes f, c1 := 64 * (last / 64 + 1) * elemBytes f }
    | _ => { x with row0 := hN h * (hRow0 h / hM h), rows := hN h * (hRows h / hM h) }

/-- The index entries of a compressed window (R69). -/
def idxSpan (h : BitVec 256) (x : Side) : Span :=
  { base := x.metaVA, pitch := 4, row0 := hRow0 h, rows := if hOLVL h then hRows h else 0, c0 := 0, c1 := 4 }

/-- The bitmaps or the N:M entries of a window (R69). -/
def levelSpan (h : BitVec 256) (x : Side) : Span :=
  let last := hCol0 h + hCols h - 1
  match hILVL h with
  | 0 => { base := 0, pitch := 0, row0 := 0, rows := 0, c0 := 0, c1 := 0 }
  | 1 => { base := x.metaVA, pitch := x.mpitch, row0 := hRow0 h, rows := hRows h, c0 := 8 * (hCol0 h / 64), c1 := 8 * (last / 64 + 1) }
  | _ => { base := x.metaVA, pitch := x.mpitch, row0 := hRow0 h / hM h, rows := hRows h / hM h, c0 := 2 * (hCol0 h / hVL h)
           c1 := 2 * (last / hVL h + 1) }

/-- All that an endpoint names: its window and its metadata. -/
def endSpans (h : BitVec 256) (x : Side) : List Span := [winSpan h x.base, idxSpan h x, levelSpan h x]

/-- A handle's window in the scratchpad touches a tile. -/
def winTouch (h : BitVec 256) (base t : Nat) : Bool := (winSpan h base).touch t

/-- A run of bytes touches a tile. -/
def runTouch (addr n t : Nat) : Bool := decide (addr < 4096 * (t + 1)) && decide (4096 * t < addr + n)

/-- Bytes of an index list. -/
def Core.listBytes (c : Core) (addr : Nat) : Nat := 4 + 4 * c.spRead addr 4

/-- A copy command names a tile by an endpoint, a sidecar or a list. -/
def CopyCmd.names (k : CopyCmd) (c : Core) (t : Nat) : Bool :=
  match k.op with
  | .cpm =>
    let a := k.list.getD 0
    runTouch a (c.listBytes a) t || runTouch k.listB (c.listBytes k.listB) t ||
      runTouch k.dstS.base (c.listBytes a + c.listBytes k.listB - 4) t
  | _ =>
    (k.srcSp && (endSpans k.srcH k.srcS).any fun x => x.touch t) || (k.dstSp && (endSpans k.dstH k.dstS).any fun x => x.touch t) ||
      (k.src.isSome && match k.list with | some a => runTouch a (c.listBytes a) t | none => false)

def CopyCmd.inFlight (k : CopyCmd) : Bool := k.st == .queued || k.st == .running || k.st == .stalled

/-- An array command in flight names a tile. -/
def ArrCmd.names (a : ArrCmd) (t : Nat) : Bool :=
  a.aSlots.contains t || a.bSlots.contains t ||
    ((a.op == .drain || a.op == .snap || a.op == .scan) && a.out == t)

/-- An engine command in flight names a tile of the core: a copy command until its completion has handed its tiles back (R188,
R204). -/
def State.tileBusy (s : State) (g : Fin 512) (t : Nat) : Bool :=
  let c := s.core g
  ((s.die (dieOf g)).copies.any fun (k : CopyCmd) =>
      (match k.src with | some (h, _) => h == g | none => false) && k.names c t) ||
    ((s.cluster (clusterOf g)).cmds.any fun (a : ArrCmd) => a.core == g && !a.retired && a.names t) ||
    (match c.rot with | some x => x.src == t || x.dst == t | none => false)

/-! ## Ring state (R189, R190, R359) -/

def Ring.free (r : Ring) : Nat := r.count - r.nclaim - r.nfill - r.nres
def Ring.tile (r : Ring) (i : Nat) : Nat := r.base + i % r.count
def Ring.holds (r : Ring) (t : Nat) : Bool := decide (r.base ≤ t) && decide (t < r.base + r.count)

def Bank.ring (b : Bank) (r : Fin 16) : Option Ring := b.rings.get r
def State.setRing (s : State) (g : Fin 512) (k : Fin 3) (r : Fin 16) (x : Option Ring) : State :=
  s.modBank g k fun b => { b with rings := b.rings.set r.val x }

/-- The configured ring of a bank that a tile belongs to. -/
def Bank.ringOf (b : Bank) (t : Nat) : Option Nat :=
  firstIdx (fun i => match b.rings.toList.getD i none with | some r => r.holds t | none => false) 16

/-- Give the tiles of `n` slots from a slot on to the engines or the streams. -/
def State.slotOwner (s : State) (g : Fin 512) (r : Ring) (from_ n : Nat) (eng : Bool) : State :=
  s.modCore g fun c => (upTo from_ n).foldl (fun (c : Core) (i : Nat) => c.setOwner (r.tile i) 1 eng) c

/-- A free slot's tile belongs to the engines unless the producer is the streams; a filled one unless the consumer is. -/
def Ring.freeOwner (r : Ring) : Bool := r.prod.val != 0
def Ring.filledOwner (r : Ring) : Bool := r.cons.val != 0

/-- Reserve the slot at TAIL for a command. -/
def Ring.reserve (r : Ring) (id : Nat) : Ring :=
  { r with tail := (r.tail + 1) % r.count, nres := r.nres + 1, res := r.res ++ [(id, false)] }

/-- The reservations at the front whose commands have ended become filled, in order. -/
def putReady : Nat → Ring → Ring
  | 0, r => r
  | n + 1, r =>
    match r.res with
    | (_, true) :: l => putReady n { r with nfill := r.nfill + 1, nres := r.nres - 1, res := l }
    | _ => r

/-- A command has ended: its slot is put when every earlier reservation has been. The owner bits of slots that become
filled follow. -/
def State.ringPutSlot (s : State) (g : Fin 512) (k : Fin 3) (n : Fin 16) (id : Nat) : State :=
  match (s.bank g k).ring n with
  | none => s
  | some r =>
    let r1 := { r with res := r.res.map fun (x : Nat × Bool) => if x.1 == id then (id, true) else x }
    let r2 := putReady r1.res.length r1
    (s.setRing g k n (some r2)).slotOwner g r2 (r.head + r.nfill) (r2.nfill - r.nfill) r.filledOwner

/-- The slot of a command has not been put yet. -/
def State.putWaits (s : State) (g : Fin 512) (k : Fin 3) (n : Fin 16) (id : Nat) : Bool :=
  match (s.bank g k).ring n with
  | some r => r.res.any fun (x : Nat × Bool) => x.1 == id
  | none => false

/-- A ring's tiles return to the streams. -/
def State.unconfigure (s : State) (g : Fin 512) (r : Ring) : State := s.modCore g fun c => c.setOwner r.base r.count false

/-- The unit hands a run of tiles to the engines, or has it back. -/
def State.hand (s : State) (g : Fin 512) (k : Fin 3) (first n : Nat) (v : Bool) : State :=
  s.modBank g k fun b => { b with handed := setRun b.handed first n v }

/-! ## `give` and `take` (R188) -/

/-- The checks on a run of tiles: SP_RANGE, then RING_FAULT for the lowest tile of a configured ring. -/
def runBlock (t : State) (first n : Nat) : Option State :=
  if decide (768 < first + n) then some (t.trap 10 (BitVec.ofNat 64 (4096 * first)) 0)
  else match (upTo first n).findSome? fun i => t.tb.ringOf i with
    | some r => some (t.trap 12 (BitVec.ofNat 64 r) 0)
    | none => none

def execGive (h : AHdr) (t : Fin 32) (n : Fin 128) (s : State) : Host.Outcome State Fault Refusal :=
  let first := (s.rA t).toNat
  aWord h [t] [] [] (fun t => runBlock t first (n.val + 1))
    (fun t =>
      let g := t.turn.core
      ((t.hand g t.turn.ctx first (n.val + 1) true).modCore g fun c => c.setOwner first (n.val + 1) true).retirePush h.push) s

/-- `take` waits, as an engine wait, until no engine command in flight names a tile of the run. -/
def execTake (h : AHdr) (t : Fin 32) (n : Fin 128) (s : State) : Host.Outcome State Fault Refusal :=
  let first := (s.rA t).toNat
  aWord h [t] [] []
    (fun t =>
      match runBlock t first (n.val + 1) with
      | some u => some u
      | none =>
        if (upTo first (n.val + 1)).any fun i => t.tileBusy t.turn.core i then some (t.stall 10 (BitVec.ofNat 64 (2 * 2 ^ 32)))
        else none)
    (fun t =>
      let g := t.turn.core
      ((t.hand g t.turn.ctx first (n.val + 1) false).modCore g fun c => c.setOwner first (n.val + 1) false).retirePush h.push) s

/-! ## Ring instructions (R191) -/

/-- The ring a configuration value describes; none for one that `rgcfg` refuses. COUNT above 64 names no ring. -/
def Ring.ofConfig (v : DWord) : Option (Option Ring) :=
  let count := field v 10 7
  let prod := field v 17 2
  let cons := field v 19 2
  let base := field v 0 10
  if field v 21 43 != 0 then none
  else if count = 0 then some none
  else if h : prod < 3 ∧ cons < 3 then
    if prod == cons || decide (64 < count) || decide (768 < base + count) then none
    else some (some { prod := ⟨prod, h.1⟩, cons := ⟨cons, h.2⟩, count := count, base := base, clm := 0, head := 0, tail := 0,
                      nclaim := 0, nfill := 0, nres := 0, res := [] })
  else none

def State.ringTrap (t : State) (r : Fin 16) : State := t.trap 12 (BitVec.ofNat 64 r.val) 0

/-- The tiles overlap those of another configured ring. -/
def Bank.ringOverlap (b : Bank) (me : Fin 16) (x : Ring) : Bool :=
  (List.finRange 16).any fun i => i != me && match b.ring i with
    | some r => decide (r.base < x.base + x.count) && decide (x.base < r.base + r.count)
    | none => false

def execRgcfg (h : AHdr) (r : Fin 16) (c : Fin 32) (s : State) : Host.Outcome State Fault Refusal :=
  let v := s.rA c
  let old := s.tb.ring r
  aWord h [c] [] []
    (fun t =>
      let busy := match old with | some x => x.nfill != 0 || x.nclaim != 0 || x.nres != 0 | none => false
      match Ring.ofConfig v with
      | none => some (t.ringTrap r)
      | some n =>
        if busy || (match n with | some x => t.tb.ringOverlap r x | none => false) then some (t.ringTrap r) else none)
    (fun t =>
      let g := t.turn.core
      let k := t.turn.ctx
      let t := match old with | some x => (t.hand g k x.base x.count false).unconfigure g x | none => t
      let n := (Ring.ofConfig v).getD none
      let t := match n with | some x => (t.hand g k x.base x.count true).slotOwner g x 0 x.count x.freeOwner | none => t
      (t.setRing g t.turn.ctx r n).retirePush h.push) s

/-- Ring wait object detail: ring, filled, free. -/
def ringDetail (r : Fin 16) (x : Ring) : DWord := BitVec.ofNat 64 (r.val * 2 ^ 32 + x.nfill * 2 ^ 16 + x.free)

/-- A word on a configured ring with n from 1 to 64: illegal counts, RING_FAULT where `legal` does not hold, a ring wait
where `wait` holds. -/
def ringBlock (r : Fin 16) (n : Nat) (legal wait : Ring → Bool) (t : State) : Option State :=
  if n = 0 || decide (64 < n) then some t.illegal
  else match t.tb.ring r with
    | none => some (t.ringTrap r)
    | some x =>
      if decide (x.count < n) || !legal x then some (t.ringTrap r)
      else if wait x then some (t.stall 7 (ringDetail r x)) else none

/-- The configured ring of the word of the turn. -/
def State.ringAt (s : State) (r : Fin 16) : Ring :=
  (s.tb.ring r).getD { prod := 0, cons := 1, count := 1, base := 0, clm := 0, head := 0, tail := 0, nclaim := 0, nfill := 0,
                       nres := 0, res := [] }

def execRgwfree (h : AHdr) (d : Fin 32) (r : Fin 16) (n : Fin 128) (s : State) : Host.Outcome State Fault Refusal :=
  let x := s.ringAt r
  aWord h [] [d] [] (ringBlock r n.val (fun x => x.prod.val != 2) (fun x => decide (x.free < n.val)))
    (fun t => (t.wrA d (BitVec.ofNat 64 (x.tile x.tail)) 1).retirePush h.push) s

def execRgwfill (h : AHdr) (d : Fin 32) (r : Fin 16) (n : Fin 128) (s : State) : Host.Outcome State Fault Refusal :=
  let x := s.ringAt r
  aWord h [] [d] [] (ringBlock r n.val (fun x => x.cons.val != 2) (fun x => decide (x.nfill < n.val)))
    (fun t => (t.wrA d (BitVec.ofNat 64 (x.tile x.head)) 1).retirePush h.push) s

def execRgput (h : AHdr) (r : Fin 16) (n : Fin 128) (s : State) : Host.Outcome State Fault Refusal :=
  let x := s.ringAt r
  aWord h [] [] [] (ringBlock r n.val (fun x => x.prod.val == 0 && decide (n.val ≤ x.free)) (fun _ => false))
    (fun t =>
      let g := t.turn.core
      let y := { x with tail := (x.tail + n.val) % x.count, nfill := x.nfill + n.val }
      ((t.setRing g t.turn.ctx r (some y)).slotOwner g x x.tail n.val x.filledOwner).retirePush h.push) s

/-- `n` filled slots from HEAD become free. -/
def State.freeFilled (t : State) (g : Fin 512) (k : Fin 3) (r : Fin 16) (x : Ring) (n : Nat) : State :=
  let y := { x with head := (x.head + n) % x.count, clm := (x.clm + n) % x.count, nfill := x.nfill - n }
  (t.setRing g k r (some y)).slotOwner g x x.head n x.freeOwner

def execRgtake (h : AHdr) (r : Fin 16) (n : Fin 128) (s : State) : Host.Outcome State Fault Refusal :=
  let x := s.ringAt r
  aWord h [] [] [] (ringBlock r n.val (fun x => x.cons.val == 0 && decide (n.val ≤ x.nfill)) (fun _ => false))
    (fun t => (t.freeFilled t.turn.core t.turn.ctx r x n.val).retirePush h.push) s

/-- An unretired M command has read one of `n` claimed slots from CLM. -/
def State.claimBusy (s : State) (g : Fin 512) (x : Ring) (n : Nat) : Bool :=
  (upTo x.clm n).any fun i =>
    (s.cluster (clusterOf g)).cmds.any fun (a : ArrCmd) =>
      a.core == g && !a.retired && (a.aSlots.contains (x.tile i) || a.bSlots.contains (x.tile i))

/-- The replay window ends over the commands of a core that read one of these tiles (R192). -/
def State.endReplay (t : State) (g : Fin 512) (tiles : List Nat) : State :=
  let reads (id : Nat) : Bool := (t.cluster (clusterOf g)).cmds.any fun (a : ArrCmd) =>
    a.core == g && a.id == id && (a.aSlots ++ a.bSlots).any tiles.contains
  t.modCore g fun c =>
    { c with window := c.window.map fun (w : ReplayCmd) => if reads w.id then { w with released := true } else w }

/-- `n` claimed slots from CLM become free. -/
def State.freeClaimed (t : State) (g : Fin 512) (k : Fin 3) (r : Fin 16) (x : Ring) (n : Nat) : State :=
  let y := { x with clm := (x.clm + n) % x.count, nclaim := x.nclaim - n }
  ((t.endReplay g ((upTo x.clm n).map x.tile)).setRing g k r (some y)).slotOwner g x x.clm n x.freeOwner

/-- `rgrel` (R192). -/
def execRgrel (h : AHdr) (r : Fin 16) (n : Fin 128) (s : State) : Host.Outcome State Fault Refusal :=
  let x := s.ringAt r
  let m := min n.val x.nclaim
  aWord h [] [] []
    (ringBlock r n.val (fun x => x.cons.val == 2) (fun x => s.claimBusy s.turn.core x (min n.val x.nclaim)))
    (fun t => (t.freeClaimed t.turn.core t.turn.ctx r x m).retirePush h.push) s

/-! ## `rgrot` (R193) -/

/-- The check of one tile of a rotation. -/
def rotTile (t : State) (wr : Bool) (tile : Nat) : Option State :=
  let v := BitVec.ofNat 64 tile
  if decide (768 ≤ tile) then some (t.trap 10 (BitVec.ofNat 64 (4096 * tile)) 0)
  else match t.tb.ringOf tile with
    | some r => some (t.trap 12 (BitVec.ofNat 64 r) 0)
    | none =>
      if t.turn.ctx.val != 2 && !(if wr then t.tb.mayWrite 0 tile else t.tb.mayRead 0 tile) then some (t.trap 13 v 0)
      else if (t.core t.turn.core).owned tile then some (t.trap 11 v 0) else none

/-- The wait of an issued rotation for its partners is bounded as a ring wait: WAIT_BOUND looks for it after that time. `s` is the
state at issue. -/
def State.boundRot (t s : State) : State :=
  let n := s.tb.waitbndA.toNat
  let bound : Option Nat := if n != 0 then some n else if s.tb.detm then some (2 ^ 20 - 1) else none
  match bound with
  | none => t
  | some n =>
    t.schedule n .waitBound
      { EvArgs.at s.turn.core s.turn.ctx with flag := true, id := s.cycle, w := s.tb.apc, va := s.turn.word.setWidth 64 }

def execRgrot (h : AHdr) (a b : Fin 32) (s : State) : Host.Outcome State Fault Refusal :=
  let src := (s.rA a).toNat
  let dst := (s.rA b).toNat
  aWord h [a, b] [] []
    (fun t =>
      if (t.core t.turn.core).rot.isSome then some (t.stall 7 0)
      else match rotTile t false src with
        | some u => some u
        | none => rotTile t true dst)
    (fun t =>
      let g := t.turn.core
      let x : Rot := { bank := t.turn.ctx, src := src, dst := dst, push := h.push, since := t.cycle }
      let t := t.modCore g fun c => { (c.setOwner src 1 true).setOwner dst 1 true with rot := some x }
      let t := t.boundRot s
      if (List.finRange 8).all fun i => (t.core (coreAt (clusterOf g) i)).rot.isSome then
        t.schedule 0 .rgrotExchange { EvArgs.zero with cl := clusterOf g }
      else t) s

/-- The exchange starts: 16 cycles on every wide port. -/
def execRgrotExchange (s : State) : Host.Outcome State Fault Refusal :=
  let cl := s.ev.cl
  let s := s.modCluster cl fun c => { c with rotating := true }
  let s := (List.finRange 8).foldl (fun (s : State) (i : Fin 8) =>
    s.modCore (coreAt cl i) fun c =>
      match c.rot with
      | some x => c.useWide s.cycle 0 0 16 x.src
      | none => c) s
  .next (s.schedule 16 .rgrotExchangeEnd s.ev)

/-- The exchange ends: every tile has gone to the next core, the tiles return to the streams, the words retire. -/
def execRgrotExchangeEnd (s : State) : Host.Outcome State Fault Refusal :=
  let cl := s.ev.cl
  let old := s
  let s := (List.finRange 8).foldl (fun (s : State) (i : Fin 8) =>
    let nxt := coreAt cl (i + 1)
    match (old.core (coreAt cl i)).rot, (old.core nxt).rot with
    | some x, some y => s.spWrite nxt (4096 * y.dst) ((old.core (coreAt cl i)).sp.readN (4096 * x.src) 4096)
    | _, _ => s) s
  let s := (List.finRange 8).foldl (fun (s : State) (i : Fin 8) =>
    let g := coreAt cl i
    match (old.core g).rot with
    | some x => (s.modCore g fun c => { (c.setOwner x.src 1 false).setOwner x.dst 1 false with rot := none }).pushToken g x.bank x.push
    | none => s) s
  .next (s.modCluster cl fun c => { c with rotating := false })

end Sys2Proof.Machine
end

