-- ==== Sys2Proof/Machine/Copy.lean ====
section
/-! DEFINITION. Machine/Copy.lean: the copy commands and the rows of the copy engine (spec/10 R204-R210). -/
namespace Sys2Proof.Machine
open Sys2Proof

/-! ## Checks at issue (R204, R205, R206) -/

/-- R70 for dithered formats. -/
def movementOk (op : CopyOp) (d x : BitVec 256) (listed : Bool) : Bool :=
  let dith (h : BitVec 256) : Bool := hFmt h == 5 || hFmt h == 6 || hFmt h == 7
  if !(dith d || dith x) then true
  else match op with
    | .cpy =>
      hFmt d == hFmt x && hSeed d == hSeed x && hTR d == hTR x && hRow0 d == hRow0 x && hCol0 d == hCol0 x &&
        winRows d == winRows x && winCols d == winCols x && !hOLVL d && !hOLVL x
    | .cpg => hOLVL d && hFmt d == hFmt x && hSeed d == hSeed x && hCol0 d == hCol0 x
    | .cps => hOLVL x && !hOLVL d && hILVL d == 0 && hFmt d == hFmt x && hSeed d == hSeed x && hCol0 d == hCol0 x && !listed
    | _ => true

/-- Formats that a command refuses: the code met. -/
def formatBad (op : CopyOp) (d x : BitVec 256) : Option Nat :=
  if op == .cpq then (if hFmt x == 8 then some 8 else if hFmt d == 8 then some 8 else none)
  else if hFmt d != hFmt x && !(decide (hFmt d ≤ 3) && decide (hFmt x ≤ 3)) then some (hFmt x) else none

/-- Window shapes and row lengths: HANDLE_FAULT 2. -/
def shapeOk (op : CopyOp) (d x : BitVec 256) : Bool :=
  match op with
  | .cpg | .cps =>
    let ok (h : BitVec 256) : Bool :=
      decide (64 ≤ rowbytes (hFmt h) (winCols h)) && decide (rowbytes (hFmt h) (winCols h) ≤ 65536)
    winCols d == winCols x && ok d && ok x
  | _ => winRows d == winRows x && winCols d == winCols x

/-- The trap of the two handles, dD and sS being their numbers. -/
def copyHandles (op : CopyOp) (d x : BitVec 256) (dn xn : Nat) (listed : Bool) : Option (Byte × DWord × DWord) :=
  match (checkHandle d).trap dn with
  | some t => some t
  | none =>
    match (checkHandle x).trap xn with
    | some t => some t
    | none =>
      if !movementOk op d x listed then some (6, 6, BitVec.ofNat 64 dn)
      else match formatBad op d x with
        | some f => some (5, BitVec.ofNat 64 f, 0)
        | none => if shapeOk op d x then none else some (6, 2, BitVec.ofNat 64 dn)

/-- Set and owner checks over the scratchpad tiles that `touch` names: SET_FAULT, then OWNER_FAULT. -/
def State.engineTiles (t : State) (wr : Bool) (touch : Nat → Bool) : Option (Byte × DWord × DWord) :=
  let b := t.tb
  match firstIdx (fun i => touch i && !(if wr then b.mayWrite 1 i else b.mayRead 1 i)) 768 with
  | some i => some (13, BitVec.ofNat 64 i, 1)
  | none =>
    match firstIdx (fun i => touch i && !(t.core t.turn.core).owned i) 768 with
    | some i => some (11, BitVec.ofNat 64 i, 0)
    | none => none

/-- A command uses the scales of a handle: only `cpq` decodes and quantises (R60). -/
def usesScale (op : CopyOp) (h : BitVec 256) : Bool :=
  op == .cpq && hSmode h != 0 && match fmtOf (hFmt h) with | some f => scaled f | none => false

/-- A used address of a side block is not canonical, or META or SVEC is not aligned (R66, R67). -/
def sideBad (op : CopyOp) (h : BitVec 256) (x : Side) : Bool :=
  decide (2 ^ 57 ≤ x.base) || ((hOLVL h || hILVL h != 0) && (decide (2 ^ 57 ≤ x.metaVA) || x.metaVA % 64 != 0)) ||
    (usesScale op h && (decide (2 ^ 57 ≤ x.svec) || x.svec % 4 != 0))

/-- The entries of the scale vector that a window uses, where they are known at issue: not those of the logical rows of a
compressed level. -/
def scaleSpan (h : BitVec 256) (x : Side) : Span :=
  let z : Span := { base := x.svec, pitch := 4, row0 := hRow0 h, rows := hRows h, c0 := 0, c1 := 4 }
  if hSmode h != 1 then { z with row0 := hCol0 h, rows := hCols h } else if hOLVL h then { z with rows := 0 } else z

/-- R164 over spans of global memory: every byte is canonical, and of an owner that is there. -/
def State.globalSpans (t : State) (p : Fin 8) (l : List Span) : Option (Byte × DWord × DWord) :=
  match l.findSome? fun x => x.firstIn (2 ^ 57) (2 ^ 80) with
  | some a => some (8, BitVec.ofNat 64 a, 0)
  | none =>
    match l.findSome? fun x => (upTo 0 16).findSome? fun o =>
        if t.ownerOk p (o * 2 ^ 53) then none else x.firstIn (o * 2 ^ 53) ((o + 1) * 2 ^ 53) with
    | some a => some (9, BitVec.ofNat 64 a, 0)
    | none => none

/-- What an endpoint names in global memory. -/
def globalOf (op : CopyOp) (sp : Bool) (h : BitVec 256) (x : Side) : List Span :=
  (if sp then [] else endSpans h x) ++ (if usesScale op h then [scaleSpan h x] else [])

/-- One endpoint: side block addresses, then the scratchpad checks and R164. The window and the index entries of a destination are
written, its other metadata are read (spec/13 R263). -/
def State.endpoint (t : State) (op : CopyOp) (sp wr : Bool) (h : BitVec 256) (x : Side) (n : Nat) : Option (Byte × DWord × DWord) :=
  let part (wr : Bool) (y : Span) : Option (Byte × DWord × DWord) :=
    if y.rows = 0 then none
    else if decide (spSize < y.end_) then some (10, BitVec.ofNat 64 (y.end_ - 1), 0)
    else t.engineTiles wr y.touch
  if sideBad op h x then some (6, 1, BitVec.ofNat 64 n)
  else
    match if sp then [part wr (winSpan h x.base), part wr (idxSpan h x), part false (levelSpan h x)].findSome? id else none with
    | some e => some e
    | none => t.globalSpans t.tb.part (globalOf op sp h x)

/-- A list's count word: SP_RANGE, MISALIGNED, SET_FAULT. The output of `cpm` is checked for its range when the counts are read
(R207). -/
def State.listCheck (t : State) (wr : Bool) (addr : Nat) : Option (Byte × DWord × DWord) :=
  let v := BitVec.ofNat 64 addr
  let out := decide (spSize < addr + 4)
  if out && !wr then some (10, v, 0)
  else if addr % 4 != 0 then some (7, v, 0)
  else if !out && !(if wr then t.tb.mayWrite 1 (tileOf addr) else t.tb.mayRead 1 (tileOf addr)) then
    some (13, BitVec.ofNat 64 (tileOf addr), 1)
  else none

/-- Ring put at issue: RING_FAULT, or a ring wait for a free slot (R359). -/
def ringPutBlock (rp : Option (Fin 16)) (ent : Nat) (t : State) : Option State :=
  match rp with
  | none => none
  | some r =>
    match t.tb.ring r with
    | none => some (t.ringTrap r)
    | some x =>
      if x.prod.val != ent then some (t.ringTrap r)
      else if x.free = 0 then some (t.stall 7 (ringDetail r x)) else none

/-- Commands of a core that have not completed. -/
def State.copiesOf (s : State) (g : Fin 512) : List CopyCmd :=
  (s.die (dieOf g)).copies.filter fun (c : CopyCmd) => match c.src with | some (h, _) => h == g | none => false

/-- The waits before a copy command may look at its operands: a buffer entry, its earlier stores, acquires and a release fence. -/
def copyWait (t : State) : Option State :=
  let g := t.turn.core
  if decide (8 ≤ (t.copiesOf g).length) then some (t.stall 10 0)
  else if t.tb.live.any fun (o : AOp) => o.body.writes && o.open_ then some (t.stall wOwner 0)
  else if !t.tb.acquiring.isEmpty || !t.relOk g t.turn.ctx then some (t.stall wOwner 0)
  else none

/-! ## Issue -/

/-- CPSTAT of a command (R209). -/
def cpstatWord (st cause rows : Nat) : Word := BitVec.ofNat 32 (st * 2 ^ 30 + cause * 2 ^ 24 + min rows (2 ^ 24 - 1))

def Bank.setCpstat (b : Bank) (kth : Word) (w : Word) : Bank :=
  { b with cpstat := b.cpstat.set (kth.toNat % 8) w (Nat.mod_lt _ (by decide)) }

/-- A copy long form: the check of its encoding (R24, R40), its stamp, its gates, SEAL_ORDER where it writes global memory (`glob`,
spec/12 R253), waits and checks `blk`; then the command enters the buffer. -/
def aCopy (h : LHdr) (srcs : List (Fin 32)) (rp : Option (Fin 16)) (glob : Bool) (blk : State → Option State)
    (cmd : State → CopyCmd) (s : State) : Host.Outcome State Fault Refusal :=
  if !s.tb.consumes .a h.wait || !s.tb.produces .a h.push then .next s.illegal
  else match s.stampGate h.stamp with
  | some t => .next t
  | none =>
    match s.aGate h.wait h.push srcs [] [] with
    | some t => .next t
    | none =>
      if glob && s.tb.sealed then .next (s.trap 19 0 0)
      else match copyWait s with
      | some t => .next t
      | none =>
        match blk s with
        | some t => .next t
        | none =>
          match ringPutBlock rp 1 s with
          | some t => .next t
          | none =>
            let t := s.aTake h.wait h.push srcs 2
            let g := t.turn.core
            let k := t.turn.ctx
            let id := (s.die (dieOf g)).nextCopy
            let c := { cmd s with
              id := id, src := some (g, asBank k), hb := h.hb, ring := rp, push := h.push, pc := s.tb.apc, kth := s.tb.cpiss,
              sfc := s.sfc s.tb }
            let t := match rp with
              | some r => match t.tb.ring r with
                | some x => t.setRing g k r (some (x.reserve (2 ^ 32 + id)))
                | none => t
              | none => t
            let t := t.modTb fun b =>
              { b.setCpstat b.cpiss (cpstatWord 1 0 0) with
                cpiss := b.cpiss + 1
                digest := if (t.part b.part).rpMode = 0 then b.digest
                  else b.digest ++ [(BitVec.ofNat 64 c.dstS.base, BitVec.ofNat 64 (2 ^ 63 + id), 0)] }
            let t := t.modDie (dieOf g) fun d => { d with copies := d.copies ++ [c], nextCopy := d.nextCopy + 1 }
            .next (t.schedule 20 .copyChannelStart { EvArgs.ofDie (dieOf g) with id := id })

def Side.zero : Side := { base := 0, scale := 0, mpitch := 0, svec := 0, metaVA := 0 }

def CopyCmd.blank (op : CopyOp) : CopyCmd :=
  { id := 0, src := none, node := none, desc := none, op := op, dstH := 0, srcH := 0, dstS := Side.zero, srcS := Side.zero
    srcSp := false, dstSp := false, list := none, listB := 0, hb := false, ring := none, push := none, pc := 0, kth := 0, row := 0
    rows := 0, st := .queued, stopping := false, counted := false, sfc := 0, logged := [], got := [], out := none }

/-- A command between two handles; `l` is the register of its list, if any. -/
def aCopy2 (op : CopyOp) (h : LHdr) (ss ds : Bool) (rp : Option (Fin 16)) (d x : Fin 16) (l : Option (Fin 32)) (s : State) :
    Host.Outcome State Fault Refusal :=
  let dh := s.hreg d
  let xh := s.hreg x
  let p := s.tb.part
  let list := l.map fun a => (s.rA a).toNat
  let dside := s.sideAt p (hSide dh)
  let xside := s.sideAt p (hSide xh)
  aCopy h l.toList rp (!ds)
    (fun t =>
      match copyHandles op dh xh d.val x.val l.isSome with
      | some (c, d0, d1) => some (t.trap c d0 d1)
      | none =>
        match s.readBlocks t 0 [(hSide dh, 64), (hSide xh, 64)] with
        | some u => some u
        | none =>
          let checks : List (Option (Byte × DWord × DWord)) :=
            [t.endpoint op ds true dh dside d.val, t.endpoint op ss false xh xside x.val] ++
              (list.map fun a => t.listCheck false a).toList
          match checks.findSome? id with
          | some (c, d0, d1) => some (t.trap c d0 d1)
          | none => none)
    (fun _ =>
      { CopyCmd.blank op with
        dstH := dh, srcH := xh, dstS := dside, srcS := xside, srcSp := ss, dstSp := ds, list := list, rows := winRows dh }) s

def execCpy (h : LHdr) (ss ds : Bool) (rp : Option (Fin 16)) (d x : Fin 16) (s : State) : Host.Outcome State Fault Refusal :=
  aCopy2 .cpy h ss ds rp d x none s
def execCpg (h : LHdr) (ss ds : Bool) (rp : Option (Fin 16)) (d x : Fin 16) (l : Fin 32) (s : State) :
    Host.Outcome State Fault Refusal := aCopy2 .cpg h ss ds rp d x (some l) s
/-- `cps`: register 0 as the list means the source's idx. -/
def execCps (h : LHdr) (ss ds : Bool) (rp : Option (Fin 16)) (d x : Fin 16) (l : Fin 32) (s : State) :
    Host.Outcome State Fault Refusal := aCopy2 .cps h ss ds rp d x (if l.val = 0 then none else some l) s
def execCpq (h : LHdr) (ss ds : Bool) (rp : Option (Fin 16)) (d x : Fin 16) (s : State) : Host.Outcome State Fault Refusal :=
  aCopy2 .cpq h ss ds rp d x none s

/-- `cpm`: range and ownership of the output are checked when the counts are read (R207). -/
def execCpm (h : LHdr) (o a b : Fin 32) (s : State) : Host.Outcome State Fault Refusal :=
  let ov := (s.rA o).toNat
  let av := (s.rA a).toNat
  let bv := (s.rA b).toNat
  aCopy h [o, a, b] none false
    (fun t =>
      match [t.listCheck true ov, t.listCheck false av, t.listCheck false bv].findSome? id with
      | some (c, d0, d1) => some (t.trap c d0 d1)
      | none => none)
    (fun _ =>
      { CopyCmd.blank .cpm with dstS := { Side.zero with base := ov }, dstSp := true, list := some av, listB := bv, rows := 1 }) s

/-! ## The bytes of a row (R206, spec/13 R260) -/

def State.modCopy (s : State) (d : Fin 8) (id : Nat) (f : CopyCmd → CopyCmd) : State :=
  s.modDie d fun x => { x with copies := x.copies.map fun (c : CopyCmd) => if c.id == id then f c else c }

def CopyCmd.part (c : CopyCmd) (s : State) : Fin 8 :=
  match c.node with
  | some (p, _, _) => p
  | none => match c.src with | some (g, _) => s.partAt g | none => 0

def CopyCmd.inRange (c : CopyCmd) (s : State) (va : Nat) : Bool := canonical va && s.ownerOk (c.part s) va

/-- A command fails with a cause; its committed rows stay. -/
def State.failCopy (s : State) (d : Fin 8) (c : CopyCmd) (cause : Nat) : State :=
  (s.modCopy d c.id fun c => { c with st := .failed cause }).schedule 0 .copyCommandComplete { EvArgs.ofDie d with id := c.id }

/-- The step of a command, `n` cycles from now; `w` = 1: its use of the wide port has begun. -/
def State.rowStepIn (s : State) (d : Fin 8) (id n : Nat) (w : Word) : State :=
  s.schedule n .copyRowCommit { EvArgs.ofDie d with id := id, w := w }

/-- The step again, a free time from now. -/
def State.rowLater (s : State) (d : Fin 8) (id : Nat) : State := (s.useFree).rowStepIn d id (Config.rowDelay s.free) 0

/-- What stands in the way of global bytes that a row reads and writes: an address that fails R164 (a row fault), a walk, a page
fault, at which the channel stalls, poison, and a read that has not been made. The pages are read from the lowest up, a peer's by
requests; what is read stays with the command until its row ends. -/
def State.rowGate (s : State) (d : Fin 8) (c : CopyCmd) (reads writes : List Nat) : Option State :=
  let p := c.part s
  let who : Requester := .channel d c.id
  let todo := dedup (reads.filter fun v => !c.got.any fun x => x.1 == v)
  let miss (l : List Nat) : List Nat := (pagesOf l).filter fun x => (s.tlbMiss p x).isSome
  let rb := s.badPages p todo false
  let wb := s.badPages p writes true
  if (todo ++ writes).any fun v => !c.inRange s v then some (s.failCopy d c 2)
  else if !(miss (todo ++ writes)).isEmpty then some ((s.startWalks p (miss todo) false who).startWalks p (miss writes) true who)
  else if !(rb ++ wb).isEmpty then
    some (((s.gatherFaults p rb false who).gatherFaults p wb true who).modCopy d c.id fun c => { c with st := .stalled })
  else if todo.isEmpty then none
  else
    let part := (s.partOf p todo).1
    let asked := part.filter fun a => s.atPeer p false a
    if !asked.isEmpty then
      some (if s.dev.spanWait.any fun x => x.who == who then s else s.spanAsk who 1 (fun _ n => leBytes 4 n) asked)
    else if s.readsPoison p part then some (s.failCopy d c 3)
    else match s.mergesBlocked p part with
    | some t => some (t.rowStepIn d c.id 1 0)
    | none =>
      let s := s.flushAt p part
      let s := s.modCopy d c.id fun c => { c with got := c.got ++ s.readPart p [] part }
      some (if part.length == todo.length then s.rowStepIn d c.id 0 0 else s.rowLater d c.id)

/-- Bytes in the space of an endpoint: the scratchpad, or what the row has read. -/
def State.endRead (s : State) (c : CopyCmd) (sp : Bool) (a n : Nat) : Nat :=
  if sp then (match c.src with | some (g, _) => (s.core g).spRead a n | none => 0) else gotLE c.got a n

/-! ## Counts and lists -/

/-- A list entry: in the scratchpad of a unit's core, in global memory for a copy node. -/
def State.listWord (s : State) (c : CopyCmd) (addr : Nat) : Nat := s.endRead c c.src.isSome addr 4

/-- The list of `n` entries lies in the scratchpad on engine-owned tiles: none, or the cause of the failure. -/
def State.listFault (s : State) (c : CopyCmd) (addr n : Nat) (wr : Bool) : Option Nat :=
  match c.src with
  | none => none
  | some (g, k) =>
    let b := s.bank g (k.castLE (by decide))
    let touch (t : Nat) : Bool := runTouch addr (4 + 4 * n) t
    if decide (spSize < addr + 4 + 4 * n) then some 2
    else if (firstIdx (fun t => touch t && !(if wr then b.mayWrite 1 t else b.mayRead 1 t)) 768).isSome then some 2
    else if (firstIdx (fun t => touch t && !(s.core g).owned t) 768).isSome then some 4
    else none

/-- The count of a list, and its entries' region checked, against a limit of its own; or the cause of a failure. -/
def State.listCount (s : State) (c : CopyCmd) (addr limit : Nat) : Nat ⊕ Nat :=
  match s.listFault c addr 0 false with
  | some e => .inr e
  | none =>
    let n := s.listWord c addr
    if decide (limit < n) then .inr 2
    else match s.listFault c addr n false with | some e => .inr e | none => .inl n

/-- The rows of a command once its counts are read, or the cause of its failure. A list has 65,535 entries at most (R205). -/
def State.readCounts (s : State) (c : CopyCmd) : Nat ⊕ Nat :=
  match c.op, c.list with
  | .cpg, some a => s.listCount c a (min 65535 (hRows c.dstH))
  | .cps, some a => s.listCount c a 65535
  | .cps, none => .inl (hRows c.srcH)
  | .cpm, some a =>
    match s.listCount c a 65535, s.listCount c c.listB 65535 with
    | .inr e, _ => .inr e
    | _, .inr e => .inr e
    | .inl na, .inl nb =>
      match s.listFault c c.dstS.base (na + nb) true with
      | some e => .inr e
      | none => .inl 1
  | _, _ => .inl c.rows

/-- Core cycles of one row at the least, its wide cycles apart: 20, and its global accesses (spec/06 R356). -/
def State.rowTime (s : State) (d : Fin 8) (c : CopyCmd) : Nat :=
  let far (x : Side) : Nat :=
    let o := vaOwner x.base
    (if o < 8 then (if s.dieOfRank (c.part s) o == some d then 120 else 160) else if o == 8 then 1200 else 1320) +
      s.hbmTime (c.part s) x.base
  20 + (if c.srcSp || c.op == .cpm then 0 else far c.srcS) + (if c.dstSp then 0 else far c.dstS)

/-- The next row, or the end of the command. -/
def State.nextRow (s : State) (d : Fin 8) (c : CopyCmd) : State :=
  let a := { EvArgs.ofDie d with id := c.id }
  if c.stopping then (s.modCopy d c.id fun c => { c with st := .failed 6 }).schedule 0 .copyCommandComplete a
  else if decide (c.rows ≤ c.row) then (s.modCopy d c.id fun c => { c with st := .finished }).schedule 0 .copyCommandComplete a
  else (s.useFree).rowStepIn d c.id (s.rowTime d c + Config.rowDelay s.free) 0

/-- The counts are read, and the first row follows. -/
def State.countRows (s : State) (d : Fin 8) (c : CopyCmd) : State :=
  match s.readCounts c with
  | .inr e => s.failCopy d c e
  | .inl n =>
    let c := { c with counted := true, rows := n, got := [] }
    (s.modCopy d c.id fun _ => c).nextRow d c

/-- A channel takes the command when one of 16 is free: a unit's command reads its counts, a node's goes on to its descriptor. -/
def execCopyChannelStart (s : State) : Host.Outcome State Fault Refusal :=
  let d := s.ev.d
  match (s.die d).copies.find? fun (c : CopyCmd) => c.id == s.ev.id && c.st == .queued with
  | none => .next s
  | some c =>
    if decide (16 ≤ ((s.die d).copies.filter fun (c : CopyCmd) => c.st == .running || c.st == .stalled).length) then
      .next (s.schedule 1 .copyChannelStart s.ev)
    else
      let c := { c with st := .running }
      let s := s.modCopy d c.id fun _ => c
      .next (if c.desc.isSome then s.rowStepIn d c.id 0 0 else s.countRows d c)

/-! ## Copy nodes (R210) -/

def copyOpOf (n : Nat) : Option CopyOp :=
  match n with | 0 => some .cpy | 1 => some .cpg | 2 => some .cps | 3 => some .cpq | _ => none

/-- A copy node's check fails: the command ends with the cause code of the check, kept above 64. -/
def State.failNode (s : State) (d : Fin 8) (c : CopyCmd) (cause : Byte) : State := s.failCopy d c (64 + cause.toNat)

/-- The command of a copy descriptor whose bytes and side blocks have been read, or the cause that its checks raise. -/
def State.nodeCommand (s : State) (c : CopyCmd) (op : CopyOp) (dh xh : BitVec 256) (list : Nat) : CopyCmd ⊕ Byte :=
  let p := c.part s
  let listed := op == .cpg || (op == .cps && list != 0)
  let ds := sideFrom (gotLE c.got) (hSide dh)
  let xs := sideFrom (gotLE c.got) (hSide xh)
  if sideBad op dh ds || sideBad op xh xs then .inr 6
  else match s.globalSpans p (globalOf op false dh ds), s.globalSpans p (globalOf op false xh xs) with
    | some (e, _, _), _ => .inr e
    | _, some (e, _, _) => .inr e
    | none, none =>
      if listed && list % 4 != 0 then .inr 7
      else if listed && !canonical list then .inr 8
      else if listed && !s.ownerOk p list then .inr 9
      else .inl { c with
        desc := none, op := op, dstH := dh, srcH := xh, dstS := ds, srcS := xs, list := if listed then some list else none
        rows := winRows dh, got := [] }

/-- A copy node reads its descriptor, then the side blocks of its handles, and is checked as R205 and R206 say. -/
def State.prepNode (s : State) (d : Fin 8) (c : CopyCmd) (va : Nat) : State :=
  if va % 128 != 0 then s.failNode d c 16
  else match s.rowGate d c (upTo va 128) [] with
  | some t => t
  | none =>
    let h (off : Nat) : BitVec 256 := BitVec.ofNat 256 (gotLE c.got (va + off) 32)
    let list := gotLE c.got (va + 64) 8
    match copyOpOf (gotLE c.got (va + 72) 1) with
    | none => s.failNode d c 16
    | some op =>
      if gotLE c.got (va + 73) 55 != 0 then s.failNode d c 16
      else match copyHandles op (h 0) (h 32) 0 0 (op == .cpg || (op == .cps && list != 0)) with
      | some (e, _, _) => s.failNode d c e
      | none =>
        match s.rowGate d c (upTo (hSide (h 0)) 64 ++ upTo (hSide (h 32)) 64) [] with
        | some t => t
        | none =>
          match s.nodeCommand c op (h 0) (h 32) list with
          | .inr e => s.failNode d c e
          | .inl c => (s.modCopy d c.id fun _ => c).rowStepIn d c.id 0 0

/-- The counts of a copy node's list (R208: a page fault there stalls the channel). -/
def State.nodeCounts (s : State) (d : Fin 8) (c : CopyCmd) : State :=
  match s.rowGate d c (match c.list with | some a => upTo a 4 | none => []) [] with
  | some t => t
  | none => s.countRows d c

/-! ## Elements of a row (spec/03 R53, R60, spec/04 R68, R69) -/

/-- The exact value of an element (spec/03 R53, R60). -/
def elemExact (rd : Nat → Nat → Nat) (l : LaneSpec) : FVal :=
  let s := unpack32 l.scale
  let j := ditherJ l.seed l.row l.col
  match l.fmt with
  | .int32 => FVal.ofInt false (BitVec.ofNat 32 (rd l.va 4)).toInt 0
  | .int8 => (FVal.mul (FVal.ofInt false (BitVec.ofNat 8 (rd l.va 1)).toInt 0) s).getD (.nan false)
  | .d8 => decodeVal (codeOf .d8 (rd l.va 1)) s j
  | .d4 => decodeVal (codeOf .d4 (rd l.va 1 / 2 ^ l.pos)) s j
  | .t5 => decodeVal (t5Digit (rd l.va 1) l.pos) s j
  | f => match floatFmt f with | some fd => fd.unpack (rd l.va (elemBytes f)) | none => .nan false

/-- The metadata entry of an element under an inner level: its address and its size. -/
def levelEntry (h : BitVec 256) (x : Side) (row col : Nat) : Option (Nat × Nat) :=
  match hILVL h with
  | 0 => none
  | 1 => some (x.metaVA + row * x.mpitch + 8 * (col / 64), 8)
  | _ => some (x.metaVA + row / hM h * x.mpitch + 2 * (col / hVL h), 2)

/-- Kept row offsets of an N:M entry. -/
def nmOffsets (h : BitVec 256) (w : Nat) : List Nat := (upTo 0 (hN h)).map fun i => w / 16 ^ i % 16

/-- Offsets that are not strictly ascending, or not below M (R69). -/
def nmBad (h : BitVec 256) (w : Nat) : Bool :=
  let l := nmOffsets h w
  l.any (fun o => decide (hM h ≤ o)) || (l.zip l.tail).any fun x => decide (x.2 ≤ x.1)

/-- Where the element of a stored row and a column is stored; none for one that an inner level does not store (log 38). -/
def lanePlace (rd : Nat → Nat → Nat) (h : BitVec 256) (f : Fmt) (x : Side) (row col : Nat) : Option Nat :=
  match levelEntry h x row col with
  | none => some (elemAddr h f x.base row col)
  | some (a, n) =>
    let w := rd a n
    if n = 8 then
      if w.testBit (col % 64) then
        some (x.base + row * hPitch h + (64 * (col / 64) + ((upTo 0 (col % 64)).filter fun i => w.testBit i).length) * elemBytes f)
      else none
    else (firstIdx (fun i => (nmOffsets h w)[i]? == some (row % hM h)) (hN h)).map fun i =>
      elemAddr h f x.base (hN h * (row / hM h) + i) col

/-- The elements of window row r of an endpoint, whose metadata `rd` reads; an OLVL level gives the logical row. -/
def rowLanes (rd : Nat → Nat → Nat) (h : BitVec 256) (x : Side) (r : Nat) : List (Option LaneSpec) :=
  match fmtOf (hFmt h) with
  | none => []
  | some f =>
    (upTo 0 (winCols h)).map fun i =>
      let y := winCoords h r i
      let row := if hOLVL h then rd (x.metaVA + 4 * y.1) 4 else y.1
      (lanePlace rd h f x y.1 y.2).map fun va =>
        { lane := i, va := va, fmt := f, pos := colPos f y.2, scale := x.scale, seed := hSeed h, row := BitVec.ofNat 32 row,
          col := BitVec.ofNat 32 y.2 }

/-- The metadata that the elements of a window row need; an index entry where `idx`. -/
def rowMeta (h : BitVec 256) (x : Side) (r : Nat) (idx : Bool) : List Nat :=
  (if hOLVL h && idx then upTo (x.metaVA + 4 * (hRow0 h + r)) 4 else []) ++
    (dedup ((upTo 0 (winCols h)).filterMap fun i =>
      (levelEntry h x (winCoords h r i).1 (winCoords h r i).2).map fun e => e.1)).flatMap fun a => upTo a (if hILVL h = 1 then 8 else 2)

/-- BAD_NM events of the entries that a row decodes (R69). -/
def badNm (rd : Nat → Nat → Nat) (h : BitVec 256) (x : Side) (r : Nat) : List PEvent :=
  if decide (2 ≤ hILVL h) then
    (upTo 0 (winCols h)).filterMap fun i =>
      let y := winCoords h r i
      match levelEntry h x y.1 y.2 with
      | some (a, n) =>
        if y.2 % hVL h = 0 && nmBad h (rd a n) then
          some { kind := 5, row := BitVec.ofNat 32 y.1, col := BitVec.ofNat 32 y.2, i := i } else none
      | none => none
  else []

/-- The scale entry of an element of a command. -/
def laneScale (op : CopyOp) (h : BitVec 256) (x : Side) (l : LaneSpec) : Option Nat :=
  if usesScale op h then scaleEntry h l.fmt x l.row.toNat l.col.toNat else none

def withScale (op : CopyOp) (rd : Nat → Nat → Nat) (h : BitVec 256) (x : Side) (l : LaneSpec) : LaneSpec :=
  match laneScale op h x l with | some va => { l with scale := BitVec.ofNat 32 (rd va 4) } | none => l

def laneBytes (l : List (Option LaneSpec)) : List Nat := l.flatMap fun x => match x with | some y => upTo y.va (elemBytes y.fmt) | none => []

/-! ## What a row writes (R206, spec/03 R358) -/

/-- What one destination element takes: its code, the kind of its event, and the source byte of a code copy. -/
structure OutElem where
  lane : LaneSpec
  code : Option Nat
  kind : Nat
  src : Byte
  deriving DecidableEq, Repr

/-- The element that a destination lane takes: a code as it stands, or an exact value encoded. A source element that an inner level
does not store is 0 (log 38). -/
def outElem (code : Bool) (rd : Nat → Nat → Nat) (x : Option LaneSpec) (d : LaneSpec) : OutElem :=
  if code then
    match x with
    | none => { lane := d, code := some 0, kind := 0, src := 0 }
    | some x =>
      let b := rd x.va (elemBytes x.fmt)
      let k : Option Nat := match x.fmt with
        | .d4 => some (b / 2 ^ x.pos % 16)
        | .t5 => (t5Digit b x.pos).map fun (i : Int) => (i + 1).toNat
        | _ => some b
      { lane := d, code := k, kind := 0, src := BitVec.ofNat 8 b }
  else
    let v := match x with | some x => elemExact rd x | none => .fin false 0 0
    let r := encodeElem d.fmt v d.scale (ditherJ d.seed d.row d.col)
    { lane := d, code := r.1, kind := r.2, src := 0 }

def OutElem.w (e : OutElem) : ElemW := { va := e.lane.va, pos := e.lane.pos, code := e.code }

/-- Five digits of a T5 byte are written. -/
def coversByte (es : List OutElem) (va : Nat) : Bool := (upTo 0 5).all fun i => es.any fun e => e.lane.va == va && e.lane.pos == i

/-- The parts that a row writes. Whole T5 bytes of a code copy go over as they stand (spec/03 R358). -/
def outParts (code : Bool) (es : List OutElem) : List PartW :=
  match es with
  | [] => []
  | e :: _ =>
    if code && e.lane.fmt == .t5 then
      (dedup (es.map fun (e : OutElem) => e.lane.va)).map fun va =>
        let m := es.filter fun (e : OutElem) => e.lane.va == va
        if coversByte es va then .whole va (match m with | e :: _ => e.src | [] => 0) else bytePart .t5 va (m.map OutElem.w)
    else partsOf e.lane.fmt (es.map OutElem.w)

/-- The events of a row's elements: those of encoding, of decoding a reserved T5 byte (`cpq`), and of a reserved byte whose NaV goes
into part of a byte (R358). -/
def outEvents (op : CopyOp) (code : Bool) (rd : Nat → Nat → Nat) (xs : List (Option LaneSpec)) (es : List OutElem) : List PEvent :=
  ((es.filter fun e => e.kind != 0).map fun e => e.lane.event e.kind) ++
    (if op == .cpq then reservedEvents rd (xs.filterMap id) else []) ++
    (if code then (firstLanes ((es.filter fun e => e.code.isNone && !coversByte es e.lane.va).map fun e => e.lane) []).map
        fun l => l.event 4 else [])

/-- A part with the element it is named by. -/
def RowPart.of (es : List OutElem) (w : PartW) : RowPart :=
  match es.find? fun (e : OutElem) => decide (e.lane.va ≤ w.va) && decide (w.va < e.lane.va + elemBytes e.lane.fmt) with
  | some e => { part := w, row := e.lane.row, col := e.lane.col, lane := e.lane.lane }
  | none => { part := w, row := 0, col := 0, lane := 0 }

/-- The merges of parts over old bytes, and their events. -/
def mergeRow (old : Nat → Byte) (out : List RowPart) : List (Nat × Byte) × List PEvent :=
  let ms := out.map fun (r : RowPart) => (r, mergePart (old r.part.va) r.part)
  (ms.map fun m => (m.1.part.va, m.2.1),
    (ms.filter fun m => m.2.2).map fun m => { kind := 4, row := m.1.row, col := m.1.col, i := m.1.lane })

/-- Log the events of a command, a record for the first of each kind and MORE for the others, with stream 0 and STEP 0xFF: the
manual's completion record of the copy engine (spec/03 R63, spec/11 R236; log 120). -/
def State.copyEvents (s : State) (d : Fin 8) (id : Nat) (evs : List PEvent) : State :=
  evs.foldl (fun (s : State) (e : PEvent) =>
    match (s.die d).copies.find? fun (c : CopyCmd) => c.id == id with
    | none => s
    | some c =>
      let core := match c.src with | some (g, _) => inDie g | none => 0
      if c.logged.contains e.kind then
        s.modDie d fun x => { x with prov := moreIn 0 c.sfc.toNat core c.pc.toNat e.kind 1 x.prov }
      else
        (s.provRecord d (provBits c.sfc.toNat (d.val - (c.part s).val) 0 core c.pc.toNat e.kind 0xFF
          (hFmt c.srcH * 16 + hFmt c.dstH) 0 e.row.toNat e.col.toNat e.i 0)).modCopy d id fun c => { c with logged := c.logged ++ [e.kind] }) s

/-! ## Rows (R206) -/

/-- Source and destination window rows of row i, or a row fault. -/
def State.rowPair (s : State) (c : CopyCmd) (i : Nat) : Option (Nat × Nat) :=
  match c.op, c.list with
  | .cpg, some a =>
    let r := s.listWord c (a + 4 + 4 * i)
    if decide (winRows c.srcH ≤ r) || decide (winRows c.dstH ≤ i) then none else some (r, i)
  | .cps, none =>
    let t := if hOLVL c.srcH then s.endRead c c.srcSp (c.srcS.metaVA + 4 * (hRow0 c.srcH + i)) 4 else hRow0 c.srcH + i
    if decide (hRow0 c.dstH ≤ t) && decide (t - hRow0 c.dstH < winRows c.dstH) then some (i, t - hRow0 c.dstH) else none
  | .cps, some a =>
    let t := s.listWord c (a + 4 + 4 * i)
    if decide (t < winRows c.dstH) then some (i, t) else none
  | _, _ => some (i, i)

/-- The global bytes that name the rows of row i: a copy node's list entry, a global idx. -/
def CopyCmd.pairBytes (c : CopyCmd) (i : Nat) : List Nat :=
  (if c.src.isNone then (match c.list with | some a => upTo (a + 4 + 4 * i) 4 | none => []) else []) ++
    (if c.op == .cps && c.list.isNone && hOLVL c.srcH && !c.srcSp then upTo (c.srcS.metaVA + 4 * (hRow0 c.srcH + i)) 4 else [])

/-- The sidecar entry that a gathered row writes (R70). -/
def CopyCmd.sidecar (c : CopyCmd) (i logical : Nat) : List (Nat × Byte) :=
  if c.op == .cpg && hOLVL c.dstH then runOf (c.dstS.metaVA + 4 * (hRow0 c.dstH + i)) (leBytes 4 logical) else []

/-- Rows committed so far in CPSTAT. -/
def State.showRows (s : State) (c : CopyCmd) : State :=
  match c.src with
  | some (g, k) => s.modBank g (k.castLE (by decide)) fun b => b.setCpstat c.kth (cpstatWord 1 0 c.row)
  | none => s

/-- A row has committed whole. -/
def State.rowDone (s : State) (d : Fin 8) (c : CopyCmd) : State :=
  let up (c : CopyCmd) : CopyCmd := { c with row := c.row + 1, got := [], out := none }
  ((s.modCopy d c.id up).showRows (up c)).nextRow d (up c)

/-- A row's writes to global memory: the lowest page performs when a peer has answered, or when its undo records, held lines and
overflow entries find room; then the next page, a free time later. -/
def State.rowWrite (s : State) (d : Fin 8) (c : CopyCmd) (out : List RowPart) : State :=
  let p := c.part s
  let who : Requester := .channel d c.id
  let vas := out.map fun r => r.part.va
  match s.rowGate d c [] vas with
  | some t => t
  | none =>
    let part := (s.partOf p vas).1
    let rest := out.filter fun r => !part.contains r.part.va
    let goOn (s : State) : State :=
      if rest.isEmpty then s.rowDone d c else (s.modCopy d c.id fun c => { c with out := some rest }).rowLater d c.id
    let now := out.filter fun r => part.contains r.part.va
    let asked := (part.filter fun a => s.atPeer p true a).filter fun a => !c.got.any fun x => x.1 == a
    if part.any fun a => s.atPeer p true a then
      if asked.isEmpty then goOn s
      else if s.dev.spanWait.any fun x => x.who == who then s
      else
        let bs := (mergeRow (fun _ => 0) now).1
        s.spanAsk who 2 (fun va n => (upTo va n).map fun a => match bs.find? fun x => x.1 == a with | some x => x.2 | none => 0) asked
    else match s.storeBlocked p d true part with
      | some why => (s.raiseBlocked p d true part why).rowStepIn d c.id 1 0
      | none =>
        match s.mergesBlocked p part with
        | some t => t.rowStepIn d c.id 1 0
        | none =>
          let s := s.flushAt p part
          let held := s.heldLines p
          let m := mergeRow (fun a => s.readLoc held a (s.locate p a)) now
          goOn ((s.copyEvents d c.id m.2).storeBytes p d true m.1)

/-- Whole 256-byte units of tiles that bytes of the scratchpad lie in: cycles of the wide port, tile by tile (R185). -/
def wideUnits (vas : List Nat) : List (Nat × Nat) :=
  let us := dedup (vas.map fun a => a / 256)
  (dedup (us.map fun u => u / 16)).map fun t => (t, (us.filter fun u => u / 16 == t).length)

/-- A copy command uses the wide port for units of tiles, one tile after the other. -/
def Core.wideRow (c : Core) (now id : Nat) (l : List (Nat × Nat)) : Core :=
  let us := (l.foldl (fun (r : Nat × List WideUse) (x : Nat × Nat) =>
    (r.1 + x.2, { start := r.1, n := x.2, tile := x.1, rank := 2, id := id } :: r.2)) (now, [])).2
  { c with wide := us ++ c.wide.filter fun w => decide (now < w.end_) }

/-- The wide port of a command with bytes in the scratchpad: it waits for the port, then for the end of its use, which others may
delay (R185); `none` when that is over. -/
def State.rowPort (s : State) (d : Fin 8) (c : CopyCmd) (vas : List Nat) : Option State :=
  match c.src with
  | none => none
  | some (g, _) =>
    if vas.isEmpty then none
    else if s.ev.w = 0 then
      let t := (s.core g).wideFree s.cycle 2
      if decide (s.cycle < t) then some (s.rowStepIn d c.id (t - s.cycle) 0)
      else
        let s := s.modCore g fun x => x.wideRow s.cycle c.id (wideUnits vas)
        some (s.rowStepIn d c.id ((s.core g).wideEnd s.cycle 2 c.id - s.cycle) 1)
    else
      let t := (s.core g).wideEnd s.cycle 2 c.id
      if decide (s.cycle < t) then some (s.rowStepIn d c.id (t - s.cycle) 1) else none

/-- A row beyond the source window, which only a listed `cps` reaches, is checked as its scratchpad bytes are known: the cause of a
failure. -/
def State.rowFault (s : State) (c : CopyCmd) (xr : Nat) (vas : List Nat) : Option Nat :=
  match c.src with
  | none => none
  | some (g, k) =>
    if !c.srcSp || decide (xr < winRows c.srcH) then none
    else if vas.any fun a => decide (spSize ≤ a) || !(s.bank g (k.castLE (by decide))).mayRead 1 (tileOf a) then some 2
    else if vas.any fun a => !(s.core g).owned (tileOf a) then some 4 else none

/-- What a row puts: its parts with the elements that name them, the sidecar entry, and its events. A part of a byte that only a
peer's write can store is merged over the byte read from there. -/
def State.rowOut (s : State) (c : CopyCmd) (xr : Nat) (xs ds : List (Option LaneSpec)) (side : List (Nat × Byte)) :
    List RowPart × List PEvent :=
  let p := c.part s
  let code := c.op != .cpq && hFmt c.srcH == hFmt c.dstH
  let rdx := s.endRead c c.srcSp
  let es := (xs.zip ds).filterMap fun (y : Option LaneSpec × Option LaneSpec) => y.2.map fun l => outElem code rdx y.1 l
  let settle (w : PartW) : PartW :=
    if !c.dstSp && s.atPeer p true w.va then .whole w.va (mergePart (BitVec.ofNat 8 (gotLE c.got w.va 1)) w).1 else w
  ((outParts code es).map (fun w => RowPart.of es (settle w)) ++
      side.map fun x => { part := .whole x.1 x.2, row := 0, col := 0, lane := 0 },
    outEvents c.op code rdx xs es ++ badNm rdx c.srcH c.srcS xr)

/-- One row: the words that name its rows, the metadata of both, its elements and scales, then the wide port; then it writes. -/
def State.rowRead (s : State) (d : Fin 8) (c : CopyCmd) : State :=
  match s.rowGate d c (c.pairBytes c.row) [] with
  | some t => t
  | none =>
    match s.rowPair c c.row with
    | none => s.failCopy d c 2
    | some (xr, dr) =>
      let glob (sp : Bool) (l : List Nat) : List Nat := if sp then [] else l
      let convert := c.op == .cpg || c.op == .cpq || hFmt c.srcH != hFmt c.dstH
      let xm := rowMeta c.srcH c.srcS xr convert
      let dm := rowMeta c.dstH c.dstS dr (c.op == .cpq)
      match s.rowGate d c (glob c.srcSp xm ++ glob c.dstSp dm) [] with
      | some t => t
      | none =>
        let rdx := s.endRead c c.srcSp
        let rdd := s.endRead c c.dstSp
        let xs := rowLanes rdx c.srcH c.srcS xr
        let ds := rowLanes rdd c.dstH c.dstS dr
        let logical := if hOLVL c.srcH then rdx (c.srcS.metaVA + 4 * (hRow0 c.srcH + xr)) 4 else (winCoords c.srcH xr 0).1
        let side := c.sidecar c.row logical
        let scales (h : BitVec 256) (x : Side) (l : List (Option LaneSpec)) : List Nat :=
          l.flatMap fun y => match y.bind (laneScale c.op h x) with | some va => upTo va 4 | none => []
        let dv := laneBytes ds ++ side.map fun x => x.1
        let old := if c.dstSp then [] else (laneBytes ds).filter fun a => s.atPeer (c.part s) true a
        match s.rowGate d c
            (glob c.srcSp (laneBytes xs) ++ scales c.srcH c.srcS xs ++ scales c.dstH c.dstS ds ++ old) (glob c.dstSp dv) with
        | some t => t
        | none =>
          match s.rowFault c xr (laneBytes xs) with
          | some e => s.failCopy d c e
          | none =>
            match s.rowPort d c ((if c.srcSp then xm ++ laneBytes xs else []) ++ (if c.dstSp then dm ++ dv else [])) with
            | some t => t
            | none =>
              let fill (h : BitVec 256) (x : Side) (l : List (Option LaneSpec)) : List (Option LaneSpec) :=
                l.map fun y => y.map (withScale c.op (gotLE c.got) h x)
              let out := s.rowOut c xr (fill c.srcH c.srcS xs) (fill c.dstH c.dstS ds) side
              let s := s.copyEvents d c.id out.2
              match c.src, c.dstSp with
              | some (g, _), true =>
                let m := mergeRow (fun a => BitVec.ofNat 8 (rdd a 1)) out.1
                let s := s.copyEvents d c.id m.2
                (m.1.foldl (fun (s : State) (x : Nat × Byte) => s.spWrite g x.1 [x.2]) s).rowDone d c
              | _, _ =>
                if out.1.isEmpty then s.rowDone d c
                else (s.modCopy d c.id fun c => { c with got := [], out := some out.1 }).rowStepIn d c.id 0 0

/-! ## `cpm` (R207) -/

/-- The merge's state: entries written, newest first, dropped entries, last accepted of A, of B, and of the output. -/
structure MergeSt where
  out : List Nat
  drops : Nat
  ka : Option Nat
  kb : Option Nat
  ko : Option Nat
  deriving DecidableEq, Repr

def aboveOpt (v : Nat) (k : Option Nat) : Bool := match k with | some x => decide (x < v) | none => true

/-- Take an accepted entry into the output. -/
def MergeSt.emit (m : MergeSt) (v : Nat) : MergeSt :=
  if aboveOpt v m.ko then { m with out := v :: m.out, ko := some v } else m

/-- The merge loop, one entry of A or B a turn; with `trap` it stops at the first dropped entry. The flag says that it
stopped. -/
def mergeLists (trap : Bool) : Nat → List Nat → List Nat → MergeSt → MergeSt × Bool
  | 0, _, _, m => (m, false)
  | n + 1, a, b, m =>
    let dropA := match a with | x :: _ => !aboveOpt x m.ka | [] => false
    let dropB := match b with | x :: _ => !aboveOpt x m.kb | [] => false
    if dropA then
      let m := { m with drops := m.drops + 1 }
      if trap then (m, true) else mergeLists trap n a.tail b m
    else if dropB then
      let m := { m with drops := m.drops + 1 }
      if trap then (m, true) else mergeLists trap n a b.tail m
    else match a, b with
      | [], [] => (m, false)
      | x :: l, [] => mergeLists trap n l [] ({ m with ka := some x }.emit x)
      | [], y :: l => mergeLists trap n [] l ({ m with kb := some y }.emit y)
      | x :: la, y :: lb =>
        if x ≤ y then mergeLists trap n la (y :: lb) ({ m with ka := some x }.emit x)
        else mergeLists trap n (x :: la) lb ({ m with kb := some y }.emit y)

/-- The whole merge of a `cpm`. -/
def State.commitMerge (s : State) (d : Fin 8) (c : CopyCmd) : State :=
  match c.src with
  | none => s.failCopy d c 2
  | some (g, k) =>
    let kb : Fin 3 := k.castLE (by decide)
    let la := c.list.getD 0
    let na := s.listWord c la
    let nb := s.listWord c c.listB
    match s.rowPort d c (upTo la (4 + 4 * na) ++ upTo c.listB (4 + 4 * nb) ++ upTo c.dstS.base (4 + 4 * (na + nb))) with
    | some t => t
    | none =>
      let a := (upTo 0 na).map fun i => s.listWord c (la + 4 + 4 * i)
      let b := (upTo 0 nb).map fun i => s.listWord c (c.listB + 4 + 4 * i)
      let r := mergeLists (s.bank g kb).mergeTrap (na + nb + 1) a b { out := [], drops := 0, ka := none, kb := none, ko := none }
      let out := r.1.out.reverse
      let s := s.spWrite g (c.dstS.base + 4) (out.flatMap fun v => leBytes 4 v)
      let s := s.spWrite g c.dstS.base (leBytes 4 out.length)
      let s := s.modBank g kb fun b =>
        { b with orderr := b.orderr || decide (0 < r.1.drops), orderrcnt := b.orderrcnt + BitVec.ofNat 32 r.1.drops }
      let c := { c with row := out.length, rows := out.length }
      let s := (s.modCopy d c.id fun _ => c).showRows c
      if r.2 then s.failCopy d c 5 else s.nextRow d c

/-- The step of a running command: a copy node's descriptor and counts, a merge, or a row, which reads and then writes. -/
def execCopyRowCommit (s : State) : Host.Outcome State Fault Refusal :=
  let d := s.ev.d
  match (s.die d).copies.find? fun (c : CopyCmd) => c.id == s.ev.id && c.st == .running with
  | none => .next s
  | some c =>
    let s := s.sectorErrors
    match c.desc, c.out with
    | some va, _ => .next (s.prepNode d c va.toNat)
    | none, some out => .next (s.rowWrite d c out)
    | none, none =>
      if !c.counted then .next (s.nodeCounts d c)
      else if c.op == .cpm then .next (s.commitMerge d c)
      else .next (s.rowRead d c)

/-! ## Completion (R204, R208, R209) -/

/-- Bytes a command wrote. -/
def CopyCmd.bytes (c : CopyCmd) : Nat := if c.op == .cpm then 4 + 4 * c.row else c.row * rowbytes (hFmt c.dstH) (winCols c.dstH)

/-- The digest entry of a command stands with its committed rows, or goes when it failed. -/
def closeDigest (id : Nat) (ok : Bool) (c : CopyCmd) (l : List (DWord × DWord × DWord)) : List (DWord × DWord × DWord) :=
  l.filterMap fun x =>
    if x.2.1 == BitVec.ofNat 64 (2 ^ 63 + id) then
      if ok then some (x.1, BitVec.ofNat 64 c.bytes, BitVec.ofNat 64 c.row) else none
    else some x

/-- Filled slots that a copy command has read as its source leave a ring whose consumer is the copy engine. -/
def State.consumeSlots (s : State) (g : Fin 512) (k : Fin 3) (c : CopyCmd) : State :=
  if !c.srcSp then s
  else (List.finRange 16).foldl (fun (s : State) (i : Fin 16) =>
    match (s.bank g k).ring i with
    | some r =>
      if r.cons.val != 1 then s
      else
        let n := ((upTo 0 r.nfill).takeWhile fun j => winTouch c.srcH c.srcS.base (r.tile (r.head + j))).length
        if n = 0 then s else s.freeFilled g k i r n
    | none => s) s

/-- The effects of a completed command of a core. -/
def State.finishCopy (s : State) (g : Fin 512) (k : Fin 3) (c : CopyCmd) : State :=
  let s := s.modDie (dieOf g) fun d => { d with copies := d.copies.filter fun (x : CopyCmd) => x.id != c.id }
  let core := s.core g
  match c.st with
  | .failed cause =>
    let s := s.modBank g k fun b =>
      { (b.setCpstat c.kth (cpstatWord 3 cause c.row)).unowe c.push with digest := closeDigest c.id false c b.digest }
    if cause = 6 then s
    else s.schedule 0 .copyFault { EvArgs.at g k with w := c.pc, w2 := BitVec.ofNat 32 c.row, n := cause }
  | _ =>
    let s := s.modBank g k fun b =>
      { b.setCpstat c.kth (cpstatWord 2 0 c.row) with digest := closeDigest c.id true c b.digest }
    let s := s.consumeSlots g k c
    let s := if c.hb then
        s.modCore g fun x => (upTo 0 768).foldl (fun (x : Core) (t : Nat) => if c.names core t then x.setOwner t 1 false else x) x
      else s
    let s := if c.push.isSome then s.modBank g k fun b => { b with pa := b.pa + 1 } else s
    s.pushToken g k c.push

/-- The commands of a core that have ended take effect in issue order, each when its ring put has its turn. -/
def State.finishCopies (g : Fin 512) : Nat → State → State
  | 0, s => s
  | n + 1, s =>
    match s.copiesOf g with
    | [] => s
    | c :: _ =>
      if c.inFlight then s
      else match c.src with
        | none => s
        | some (_, k) =>
          let kb : Fin 3 := k.castLE (by decide)
          let s := match c.ring with | some r => s.ringPutSlot g kb r (2 ^ 32 + c.id) | none => s
          if (match c.ring with | some r => s.putWaits g kb r (2 ^ 32 + c.id) | none => false) then
            s.schedule 1 .copyCommandComplete { EvArgs.ofDie (dieOf g) with id := c.id }
          else State.finishCopies g n (s.finishCopy g kb c)

end Sys2Proof.Machine
end

