-- ==== Sys2Proof/Machine/Col.lean ====
section
/-! DEFINITION. Machine/Col.lean: the Col barriers: arrivals, waits, the AND line and the release (spec/12 R248-R251). -/
namespace Sys2Proof.Machine
open Sys2Proof

/-! ## The AND line (R248) -/

def Bank.member (b : Bank) (c : Nat) : Bool := match b.unit with | some u => bit u.colmask c | none => false
def Bank.arrived (b : Bank) (c : Nat) : Bool := bit b.colarr c

/-- An arrival of a place whose input has not risen yet. -/
def State.riseWaits (s : State) (g : Fin 512) (k : Fin 3) (c : Nat) : Bool :=
  s.agenda.any fun (x : Due) => x.what == .colInputRise && x.args.g == g && x.args.k == k && x.args.id == c

/-- The launch record of a Steppe slot's node. -/
def State.slotLaunch (s : State) (x : Slot) : Option LaunchRec :=
  match (s.part x.part).job with
  | none => none
  | some j =>
    match j.items.find? fun (i : Item) => i.num == x.item with
    | none => none
    | some i => match i.nodes[x.node]? with
      | some n => (match n.kind with | .launch r => some r | _ => none)
      | none => none

/-- A die's input: no member unit of its banks or saved units stands without its arrival, and its Steppe holds no undispatched
unit of a member launch. -/
def State.dieInput (s : State) (d : Fin 8) (c : Nat) : Bool :=
  let x := s.die d
  ((List.finRange 512).all fun g => dieOf g != d ||
      (List.finRange 2).all fun (k : Fin 2) =>
        let kb : Fin 3 := k.castLE (by decide)
        let b := s.bank g kb
        !b.member c || (b.arrived c && !s.riseWaits g kb c)) &&
    (x.saved.all fun (y : Nat × Bank) => !y.2.member c || y.2.arrived c) &&
    ((x.steppe ++ x.outside).all fun (y : Slot) =>
      y.resume.isSome || match s.slotLaunch y with | some r => !bit r.colmask c | none => true)

/-- The device's part of the AND line of a barrier. -/
def State.andLine (s : State) (p : Fin 8) (c : Nat) : Bool := (s.partDies p).all fun d => s.dieInput d c

/-- The peers of the partition's seal group, by aperture. -/
def State.sealPeers (s : State) (p : Fin 8) : List Nat :=
  if s.feature 9 then
    (upTo 0 7).filter fun a => match (s.part p).apertures.toList[a]? with | some x => x.valid && x.sealgrp | none => false
  else []

/-- e(x): 0 on the root die and 1 elsewhere (R251). -/
def edgeOf (p d : Fin 8) : Nat := if d = p then 0 else 1

/-- Look at one barrier's line after a change on a die: a line that has become high tells the peers of a spanned barrier,
and its release fires once every peer's input is high too. -/
def State.colLook (s : State) (p d : Fin 8) (c : Nat) : State :=
  match (s.part p).job with
  | none => s
  | some j =>
    if !s.andLine p c then s.modJob p fun j => { j with colHigh := setBit j.colHigh c false }
    else
      let peers := if bit (s.part p).colspan c then s.sealPeers p else []
      let was := bit j.colHigh c
      let s := s.modJob p fun j => { j with colHigh := setBit j.colHigh c true }
      let s := if was then s
        else peers.foldl (fun (s : State) (a : Nat) =>
          s.modDev fun v => { v with spanOut := v.spanOut ++ [(5, a, BitVec.ofNat 64 c, [BitVec.ofNat 8 (edgeOf p d)])] }) s
      let ready := peers.all fun a => j.colPeers.contains (a, c)
      if ready && (!was || !peers.isEmpty) then
        s.schedule 0 .colReleaseFire { EvArgs.ofPart p with d := d, id := c, n := edgeOf p d }
      else s

/-- Look at every barrier after a change on a die. -/
def State.colCheck (s : State) (p d : Fin 8) : State := (upTo 0 32).foldl (fun (s : State) (c : Nat) => s.colLook p d c) s

/-! ## Arrivals and waits (R249, R250) -/

/-- COL_FAULT with its reason; a non-member and a second arrival put the barrier into the error state. -/
def State.colFault (t : State) (c reason : Nat) : State :=
  let p := t.tb.part
  let t := if reason = 3 then t else t.modPart p fun q => { q with colerr := setBit q.colerr c true }
  t.trap 20 (BitVec.ofNat 64 c) (BitVec.ofNat 64 reason)

/-- What an arrival meets at issue. -/
def arriveBlock (c : Nat) (t : State) : Option State :=
  let b := t.tb
  if !t.relOk t.turn.core t.turn.ctx then some (t.stall wOwner 0)
  else if bit (t.part b.part).colerr c then some (t.colFault c 3)
  else if !b.member c then some (t.colFault c 1)
  else if b.arrived c then some (t.colFault c 2)
  else none

/-- The unit arrives; its input rises at once, or, for a release arrival (`drain`), after the accesses and copy commands issued
so far have performed. -/
def State.arrive (t : State) (c : Nat) (drain : Bool) : State :=
  let g := t.turn.core
  let k := t.turn.ctx
  let b := t.tb
  (t.modTb fun b => { b with colarr := setBit b.colarr c true, colrel := setBit b.colrel c false }).schedule 0 .colInputRise
    { EvArgs.at g k with
      p := b.part, id := c, flag := drain, n := (t.die (dieOf g)).nextCopy, va := BitVec.ofNat 64 b.nextId }

/-- The wait of `colwait`: an error traps, an arrival not yet released or a release still on its way waits. -/
def colBlock (c : Nat) (t : State) : Option State :=
  let b := t.tb
  if bit (t.part b.part).colerr c then some (t.colFault c 3)
  else if b.arrived c || (bit b.colrel c && bit b.colTravel c) then
    some (t.stall 8 (BitVec.ofNat 64 c))
  else none

/-- A completed wait returns the unit to IDLE. -/
def State.colDone (t : State) (c : Nat) : State := t.modTb fun b => { b with colrel := setBit b.colrel c false }

def execColarrRlx (h : AHdr) (b : Fin 32) (s : State) : Host.Outcome State Fault Refusal :=
  aWord h [] [] [] (arriveBlock b.val) (fun t => (t.arrive b.val false).retirePush h.push) s

def execColarrRel (h : AHdr) (b : Fin 32) (s : State) : Host.Outcome State Fault Refusal :=
  aWord h [] [] [] (arriveBlock b.val) (fun t => (t.arrive b.val true).retirePush h.push) s

def execColwait (h : AHdr) (b : Fin 32) (s : State) : Host.Outcome State Fault Refusal :=
  aWord h [] [] [] (colBlock b.val) (fun t => (t.colDone b.val).retirePush h.push) s

/-- `colsync`: a release arrival when the word is first presented, then the wait of `colwait`. -/
def execColsync (h : AHdr) (b : Fin 32) (s : State) : Host.Outcome State Fault Refusal :=
  aWord h [] [] []
    (fun t =>
      if t.tb.colAt == some t.tb.apc then colBlock b.val t
      else match arriveBlock b.val t with
        | some u => some u
        | none =>
          let t := t.arrive b.val true
          some ((t.modTb fun x => { x with colAt := some x.apc }).stall 8 (BitVec.ofNat 64 b.val)))
    (fun t => (t.colDone b.val).retirePush h.push) s

/-! ## Rise, release and arrival (R251) -/

/-- A unit's input rises, when its drain to system scope has ended (R238). -/
def execColInputRise (s : State) : Host.Outcome State Fault Refusal :=
  let a := s.ev
  if !(s.bank a.g a.k).arrived a.id then .next s
  else if a.flag && !s.doneBelow a.g a.k a.va.toNat a.n .system then .next (s.schedule 1 .colInputRise a)
  else .next (s.colLook a.p (dieOf a.g) a.id)

/-- The release fires: every arrived member moves to RELEASED, the generation ends, and the release travels to each die; `n` is
e(a) of the die of the last arriver. -/
def execColReleaseFire (s : State) : Host.Outcome State Fault Refusal :=
  let a := s.ev
  let p := a.p
  let free (b : Bank) : Bank :=
    if b.member a.id && b.arrived a.id then
      { b with
        colarr := setBit b.colarr a.id false, colrel := setBit b.colrel a.id true, colTravel := setBit b.colTravel a.id true }
    else b
  let s := s.mapCores p fun _ c => { c with banks := c.banks.map free }
  let s := (s.partDies p).foldl (fun (s : State) (d : Fin 8) =>
    (s.modDie d fun x => { x with saved := x.saved.map fun (y : Nat × Bank) => (y.1, free y.2) }).schedule
      (12 + 20 * (a.n + edgeOf p d)) .colReleaseArrival { EvArgs.ofPart p with d := d, id := a.id }) s
  let span := bit (s.part p).colspan a.id && !(s.sealPeers p).isEmpty
  let s := s.modJob p fun j =>
    { j with
      colPeers := j.colPeers.filter fun (x : Nat × Nat) => x.2 != a.id
      colHigh := if span then setBit j.colHigh a.id false else j.colHigh }
  .next (s.colLook p a.d a.id)

/-- The release reaches the members of a die: a `colwait` there completes in this cycle, unless a later release of the same
barrier is still on its way. -/
def execColReleaseArrival (s : State) : Host.Outcome State Fault Refusal :=
  let a := s.ev
  let more := s.agenda.any fun (x : Due) =>
    x.what == .colReleaseArrival && x.args.p == a.p && x.args.d == a.d && x.args.id == a.id
  let here (b : Bank) : Bank := if more then b else { b with colTravel := setBit b.colTravel a.id false }
  let s := s.mapCores a.p fun g c => if dieOf g == a.d then { c with banks := c.banks.map here } else c
  .next (s.modDie a.d fun x => { x with saved := x.saved.map fun (y : Nat × Bank) => (y.1, here y.2) })

end Sys2Proof.Machine
end

