-- ==== Sys2Proof/Machine/Domain.lean ====
section
/-! DEFINITION. Machine/Domain.lean: the instructions of the domain unit of column 0 (spec/08 R142-R161). -/
namespace Sys2Proof.Machine
open Sys2Proof

/-! ## Issue of a domain syllable (R142, R143) -/

/-- Column 0 goes on after a domain syllable of occupancy `n`: at the end of a loop the evaluation waits for the end of the
execution. -/
def Column.domNext (c : Column) (n : Nat) : Column := if decide (2 ≤ n) && c.atEnd then { c with evalDue := true } else c.next

def State.domNext (t : State) (n : Nat) : State := t.modTc fun c => c.domNext n

/-- A domain syllable: legal in column 0 only; it occupies its column for `n` X cycles whether or not its guard is true;
a guarded-off one pushes `l` X cycles later. -/
def domIssue (h : XHdr) (n l : Nat) (srcs : List Nat) (blk : State → Option State) (eff : State → State) (s : State) :
    Host.Outcome State Fault Refusal :=
  if s.turn.col != 0 then .next s.illegal
  else match xIssue h l srcs blk eff s with
    | .next t =>
      .next (if t.turn.how == .issued then
          t.modTc fun c =>
            let c := { c with hold := BitVec.ofNat 12 (n - 1) }
            if !s.guard h && decide (2 ≤ n) && s.tc.atEnd then
              { c with pc := s.tc.pc, loop0 := s.tc.loop0, loop1 := s.tc.loop1, evalDue := true }
            else c
        else t)
    | r => r

/-- The lanes of column 0's vector registers as a syllable that issues reads them. -/
def Bank.domLanes (b : Bank) (n : Nat) : Vec := if h : n < 28 then b.vRead 0 ⟨n, h⟩ else 0

/-- After an initiating execution that did not fail: the run over its queue, or its end at once. `t` has issued the
syllable and holds the committed domain state. -/
def State.domRun (t s : State) (h : XHdr) : State :=
  let d := t.tb.dom
  let d : DomState :=
    if d.queue.isEmpty then { d with bnd := false, drun := 0 }
    else
      { d with
        bnd := false
        run := some
          { n := 0, limit := d.proplim.toNat, pc := s.tc.pc, delay := s.tc.brdly != 0, start := s.tb.xcycle + 2
            word := s.turn.word.setWidth 64 } }
  ((t.modTb fun b => { b with dom := d }).domNext 2).xPush h 1

/-- A `.keep` enters its entry behind the others. -/
def DomState.enter (d : DomState) (keep : Option Standing) : DomState :=
  match keep with | some e => { d with table := d.table ++ [e] } | none => d

/-- An initiating execution: its result is committed and starts a run, or the syllable fails: it redirects column 0 to FAILPC
as a taken branch, or traps on this edge when FAILPC is 0 or the syllable is itself a delay syllable (R159, R160). `keep` enters
a standing entry after the commit. -/
def State.domInit (t s : State) (h : XHdr) (x : DX) (keep : Option Standing) : State :=
  let d := t.tb.dom
  match x.fail with
  | some r =>
    let t := (t.modTb fun b => { b with dom := d.failed r 0xFF 0 (some b.xcycle) }).xPush h 1
    if d.failpc != 0 && s.tc.brdly == 0 then t.modTc fun c => c.taken d.failpc
    else
      (t.modTc fun c => { c.next with hold := 1 }).takeTrapAt s.turn.core s.turn.ctx .x 0 s.turn.word s.tc.pc 22
        (BitVec.ofNat 64 r.val) 0xFF
  | none =>
    (t.modTb fun b => { b with dom := (d.commit none x).enter keep }).domRun s h

/-- A relation, standing or not: DOMAIN_TABLE when it should stand and the table is full (R153). -/
def domRel (h : XHdr) (keep : Bool) (srcs : List Nat) (op : DomOp) (c a b : Fin 32) (k : State → Word) (s : State) :
    Host.Outcome State Fault Refusal :=
  domIssue h 2 1 srcs
    (fun t => if keep && decide (64 ≤ t.tb.dom.table.length) then
        some (t.trap 23 (BitVec.ofNat 64 t.tb.dom.table.length) 0) else none)
    (fun t =>
      let kv := k s
      let x := relSteps op c a b kv s.tb.domLanes s.tb.dom.start
      t.domInit s h x (if keep then some { op := op, c := c, a := a, b := b, k := kv } else none)) s

/-- A narrowing by constants (R148, R149). -/
def domCon (h : XHdr) (srcs : List Nat) (f : State → DX → DX) (s : State) : Host.Outcome State Fault Refusal :=
  domIssue h 2 1 srcs noBlock (fun t => t.domInit s h (f s s.tb.dom.start) none) s

/-! ## Meanings -/

def noConst (_ : State) : Word := 0

def execDadd (h : XHdr) (keep : Bool) (c a b : Fin 32) (s : State) : Host.Outcome State Fault Refusal :=
  domRel h keep [] .add c a b noConst s
def execDsub (h : XHdr) (keep : Bool) (c a b : Fin 32) (s : State) : Host.Outcome State Fault Refusal :=
  domRel h keep [] .sub c a b noConst s
def execDmulc (h : XHdr) (keep : Bool) (c a : Fin 32) (k : SSrc) (s : State) : Host.Outcome State Fault Refusal :=
  domRel h keep (sPorts k) .mulc c a 0 (fun s => s.rS k) s
def execDlt (h : XHdr) (keep : Bool) (a b : Fin 32) (s : State) : Host.Outcome State Fault Refusal :=
  domRel h keep [] .lt 0 a b noConst s
def execDle (h : XHdr) (keep : Bool) (a b : Fin 32) (s : State) : Host.Outcome State Fault Refusal :=
  domRel h keep [] .le 0 a b noConst s
def execDeq (h : XHdr) (keep : Bool) (a b : Fin 32) (s : State) : Host.Outcome State Fault Refusal :=
  domRel h keep [] .eq 0 a b noConst s
def execDne (h : XHdr) (keep : Bool) (a b : Fin 32) (s : State) : Host.Outcome State Fault Refusal :=
  domRel h keep [] .ne 0 a b noConst s
def execDelem (h : XHdr) (keep : Bool) (a i : Fin 32) (t : Fin 28) (s : State) : Host.Outcome State Fault Refusal :=
  domRel h keep [] .elem 0 a i (fun _ => BitVec.ofNat 32 t.val) s

/-- `dint`: [L, H]; L > H is a failure. -/
def execDint (h : XHdr) (a : Fin 32) (lo hi : SSrc) (s : State) : Host.Outcome State Fault Refusal :=
  domCon h (sPorts lo ++ sPorts hi) (fun s x =>
    let l := (s.rS lo).toInt
    let u := (s.rS hi).toInt
    x.narrowOpt a (if l ≤ u then some (.interval l u) else none)) s

def execDexcl (h : XHdr) (a : Fin 32) (v : SSrc) (s : State) : Host.Outcome State Fault Refusal :=
  domCon h (sPorts v) (fun s x => x.remove a (s.rS v).toInt) s
def execDfix (h : XHdr) (a : Fin 32) (v : SSrc) (s : State) : Host.Outcome State Fault Refusal :=
  domCon h (sPorts v) (fun s x => x.narrow a (.interval (s.rS v).toInt (s.rS v).toInt)) s

/-- `dpick`: the least member as a result and as the register's new value (R149); its push is at t + 2. -/
def execDpick (h : XHdr) (d : SDst) (a : Fin 32) (s : State) : Host.Outcome State Fault Refusal :=
  domIssue h 2 2 [] noBlock (fun t =>
    let lo := (s.tb.dom.d.get a).lo
    let x := s.tb.dom.start.put a (Dom.singleton lo)
    (t.wrS h d lo 2 fNone).domInit s { h with push := none } x none) s

/-- Write a register without intersecting it (R150): an empty set is a failure. -/
def domSet (h : XHdr) (srcs : List Nat) (a : Fin 32) (f : State → Option Dom) (s : State) :
    Host.Outcome State Fault Refusal :=
  domCon h srcs (fun s x => match f s with | some t => x.put a t | none => { x with fail := some a }) s

def execDset (h : XHdr) (a : Fin 32) (lo hi : SSrc) (s : State) : Host.Outcome State Fault Refusal :=
  domSet h (sPorts lo ++ sPorts hi) a
    (fun s => domOfMem (s.rS lo).toInt (s.rS hi).toInt fun _ => true) s

def execDsetw (h : XHdr) (a : Fin 32) (lo w0 w1 : SSrc) (s : State) : Host.Outcome State Fault Refusal :=
  domSet h (sPorts lo ++ sPorts w0 ++ sPorts w1) a
    (fun s =>
      let l := (s.rS lo).toInt
      let w := (s.rS w1).toNat * 2 ^ 32 + (s.rS w0).toNat
      domOfMem l (min (l + 63) 2147483647) fun x => w.testBit (x - l).toNat) s

/-- A read of a domain register: a scalar after two X cycles (R151). -/
def domRead (h : XHdr) (d : SDst) (a : Fin 32) (f : Dom → Word) (s : State) : Host.Outcome State Fault Refusal :=
  domIssue h 1 2 [] noBlock (fun t => (t.wrS h d (f (s.tb.dom.d.get a)) 2 fNone).xNext) s

/-- The number of members, saturated (R151). -/
def Dom.size (d : Dom) : Word :=
  let sp := d.span.toNat
  BitVec.ofNat 32 (min 0xFFFFFFFF (popNat d.win.toNat (min 63 sp + 1) + (sp - 63)))

def execDlo (h : XHdr) (d : SDst) (a : Fin 32) (s : State) : Host.Outcome State Fault Refusal :=
  domRead h d a (fun r => r.lo) s
def execDhi (h : XHdr) (d : SDst) (a : Fin 32) (s : State) : Host.Outcome State Fault Refusal :=
  domRead h d a (fun r => r.hi) s
def execDsize (h : XHdr) (d : SDst) (a : Fin 32) (s : State) : Host.Outcome State Fault Refusal :=
  domRead h d a Dom.size s
def execDget (h : XHdr) (d : SDst) (a : Fin 32) (w : Fin 4) (s : State) : Host.Outcome State Fault Refusal :=
  domRead h d a (fun r =>
    match w.val with
    | 0 => r.lo
    | 1 => r.hi
    | 2 => r.win.setWidth 32
    | _ => (r.win >>> 32).setWidth 32) s

def execDtestIn (h : XHdr) (p : Fin 8) (a : Fin 32) (v : SSrc) (s : State) : Host.Outcome State Fault Refusal :=
  domIssue h 1 2 (sPorts v) noBlock
    (fun t => (t.wrP h p ((s.tb.dom.d.get a).set.mem (s.rS v).toInt) 2).xNext) s
def execDtestOne (h : XHdr) (p : Fin 8) (a : Fin 32) (s : State) : Host.Outcome State Fault Refusal :=
  domIssue h 1 2 [] noBlock (fun t => (t.wrP h p (s.tb.dom.d.get a).single 2).xNext) s

/-- `dprop` runs the pending queue; with BND = 0 it only takes its two X cycles (R158). -/
def execDprop (h : XHdr) (s : State) : Host.Outcome State Fault Refusal :=
  domIssue h 2 1 [] noBlock
    (fun t => if s.tb.dom.bnd then t.domRun s h else (t.domNext 2).xPush h 1) s

/-- A checkpoint of the current state: the queue counts only when a run is pending (R161). -/
def DomState.save (d : DomState) : DomState :=
  { d with stack := { d := d.d, fill := d.table.length, dstat := d.dstat, pending := if d.bnd then d.queue else [] } :: d.stack }

/-- Restore the top entry without popping it. -/
def DomState.restore (d : DomState) : DomState :=
  match d.stack with
  | [] => d
  | c :: _ => { d with d := c.d, table := d.table.take c.fill, queue := sortBy (fun a b => decide (a < b)) c.pending }.setDstat c.dstat

/-- An action on the checkpoint stack: DOMAIN_STACK at the wrong depth. -/
def domStack (h : XHdr) (n : Nat) (bad : Nat → Bool) (f : DomState → DomState) (s : State) :
    Host.Outcome State Fault Refusal :=
  domIssue h n (n - 1) []
    (fun t => if bad t.tb.dom.stack.length then some (t.trap 24 (BitVec.ofNat 64 t.tb.dom.stack.length) 0) else none)
    (fun t => ((t.modTb fun b => { b with dom := f b.dom }).domNext n).xPush h (n - 1)) s

def execDsave (h : XHdr) (s : State) : Host.Outcome State Fault Refusal :=
  domStack h 4 (fun n => decide (8 ≤ n)) DomState.save s
def execDrest (h : XHdr) (s : State) : Host.Outcome State Fault Refusal :=
  domStack h 4 (fun n => n == 0) DomState.restore s
def execDdrop (h : XHdr) (s : State) : Host.Outcome State Fault Refusal :=
  domStack h 2 (fun n => n == 0) (fun d => { d with stack := d.stack.tail }) s
/-- `dclr` empties the table, the queue and the stack. -/
def execDclr (h : XHdr) (s : State) : Host.Outcome State Fault Refusal :=
  domStack h 2 (fun _ => false) (fun d => { d with table := [], queue := [], stack := [], bnd := false }) s

/-! ## PROPAGATION_RUN (R154-R157) -/

/-- One woken execution of a run ends, two core cycles after it began; the next begins, or the trap it raised is taken on this
edge. -/
def execPropagationRun (s : State) : Host.Outcome State Fault Refusal :=
  let g := s.ev.g
  let k := s.ev.k
  if (s.bank g k).st != .running then .next s
  else
    let s := s.modBank g k Bank.woken
    if (s.bank g k).dom.trapDue.isSome then .next (s.domTrap g k)
    else if (s.bank g k).dom.run.isSome then .next (s.schedule 2 .propagationRun (EvArgs.at g k))
    else .next s

end Sys2Proof.Machine
end

