-- ==== Sys2Proof/Machine/MArray.lean ====
section
/-! DEFINITION. Machine/MArray.lean: what the matrix array reads and computes: operand tiles, the contribution of a K-step,
the accumulators, their checksums and the output of a drain (spec/03 R55-R60, spec/11 R211, R215, R216, R220, R223-R225,
R229, R235, R236). -/
namespace Sys2Proof.Machine
open Sys2Proof

/-! ## Commands of a cluster -/

def State.modCmd (s : State) (cl : Fin 64) (id : Nat) (f : ArrCmd → ArrCmd) : State :=
  s.modCluster cl fun c => { c with cmds := c.cmds.map fun (a : ArrCmd) => if a.id == id then f a else a }

def State.cmd (s : State) (cl : Fin 64) (id : Nat) : Option ArrCmd :=
  (s.cluster cl).cmds.find? fun (a : ArrCmd) => a.id == id

/-- K-steps in one activation slot (R215). -/
def perSlot (fa : Fmt) : Nat := if fa == .bf16 || fa == .fp16 then 2 else 4

/-! ## Provenance (R236) -/

/-- An event of an array command: kind, step, logical row and column, tile row and column. -/
structure ArrEvent where
  kind : Nat
  step : Nat
  row : Word
  col : Word
  i : Nat
  n : Nat
  deriving DecidableEq, Repr

/-- Log the events of a command: a record for the first of each kind, MORE for the others. -/
def State.arrEvents (s : State) (cl : Fin 64) (id : Nat) (evs : List ArrEvent) : State :=
  evs.foldl (fun (s : State) (e : ArrEvent) =>
    match s.cmd cl id with
    | none => s
    | some a =>
      let d := dieOf a.core
      let core := inDie a.core
      if a.logged.contains e.kind then
        s.modDie d fun x => { x with prov := moreIn 2 a.sfc.toNat core a.pc.toNat e.kind 1 x.prov }
      else
        let rank := d.val - (s.partAt a.core).val
        (s.provRecord d (provBits a.sfc.toNat rank 32 core a.pc.toNat e.kind e.step (fmtCode a.fa * 16 + fmtCode a.fb) a.acc.val
          e.row.toNat e.col.toNat e.i e.n)).modCmd cl id fun a => { a with logged := a.logged ++ [e.kind] }) s

/-! ## Tiles and coordinates (R215) -/

/-- The 32 rows of a tile. -/
def Core.tileRows (c : Core) (t : Nat) : List Vec :=
  (upTo 0 32).map fun i => BitVec.ofNat 1024 (c.spRead (4096 * t + 128 * i) 128)

/-- Logical coordinates of block position (r, c), swapped by TR (R68). -/
def Desc.coord (d : Desc) (r c : Nat) : Word × Word :=
  if d.tr then (d.row0 + BitVec.ofNat 32 c, d.col0 + BitVec.ofNat 32 r)
  else (d.row0 + BitVec.ofNat 32 r, d.col0 + BitVec.ofNat 32 c)

/-- The scale of row or column j (R216). -/
def Desc.scaleAt (d : Desc) (j : Nat) : Word := if d.smode = 0 then d.scale else lane d.svec j

/-- An element as it enters the array: NaV, an integer (R55), or a float value. -/
inductive Elem where
  | nav
  | int (v : Int)
  | flt (v : FVal)
  deriving DecidableEq, Repr

def Elem.zero (f : Fmt) : Elem := if isFloatFmt f then .flt (.fin false 0 0) else .int 0

/-- The stored code at element index `e` of a packed row, as an element with its dither. -/
def rowElem (f : Fmt) (seed : Word) (row : Vec) (e : Nat) (rc : Word × Word) : Elem :=
  let dith (q : Option Int) : Elem :=
    match q with
    | none => .nav
    | some q => .int (32 * q - (2 * (ditherJ seed rc.1 rc.2 : Int) - 15))
  match floatFmt f with
  | some ff => .flt (ff.unpack (field row (fmtBits f * e) (fmtBits f)))
  | none =>
    match f with
    | .int8 => .int (row.extractLsb' (8 * e) 8).toInt
    | .d4 => dith (codeOf .d4 (field row (4 * e) 4))
    | .t5 => dith (t5Digit (field row (8 * (e / 5)) 8) (e % 5))
    | _ => dith (codeOf .d8 (field row (8 * e) 8))

/-- Bitmaps of row i: the 64-bit word of group g (R224). -/
def Desc.bitmap (d : Desc) (i g : Nat) (groups : Nat) : BitVec 64 := d.bits.getD (i * groups + g) 0

/-- Groups of 64 k values in one slot, and in a whole command. -/
def slotGroups (fa : Fmt) : Nat := 32 * perSlot fa / 64
def cmdGroups (ksteps : Nat) : Nat := (32 * ksteps + 63) / 64

/-- Element (i, k) of K-step s of the activation slot that holds it. -/
def ArrCmd.aElem (a : ArrCmd) (d : Desc) (rows : List Vec) (s i k : Nat) : Elem :=
  let kk := 32 * (s % perSlot a.fa) + k
  let rc := d.coord i (32 * s + k)
  let row := rows.getD i 0
  if a.bm then
    let g := (32 * s + k) / 64
    let b := d.bitmap i g (cmdGroups a.ksteps)
    let pos := (32 * s + k) % 64
    if bit b pos then rowElem a.fa d.seed row (kk / 64 * 64 + popNat (b.toNat % 2 ^ pos) 64) rc else Elem.zero a.fa
  else rowElem a.fa d.seed row kk rc

/-- Every group of every row of the slot that holds step s has at most 32 set bits, of the groups that the command has (R224). -/
def ArrCmd.sparseSlot (a : ArrCmd) (d : Desc) (s : Nat) : Bool :=
  let g0 := s / perSlot a.fa * slotGroups a.fa
  (upTo 0 32).all fun i => (upTo g0 (slotGroups a.fa)).all fun g =>
    decide (cmdGroups a.ksteps ≤ g) || decide (popNat (d.bitmap i g (cmdGroups a.ksteps)).toNat 64 ≤ 32)

/-- N of M of an N:M mode. -/
def nmOf (mode : Nat) : Nat × Nat := match mode with | 1 => (1, 2) | 2 => (2, 4) | _ => (4, 8)

/-- Columns of an N:M block, and blocks of a group (R223). -/
def Desc.vlen (d : Desc) : Nat := if d.vl = 0 then 4 else 8
def Desc.blocks (d : Desc) : Nat := 32 / d.vlen

/-- The 16-bit entry of group g and block b, counted over the command. -/
def Desc.nmEntry (d : Desc) (g b : Nat) : BitVec 64 := d.bits.getD (g * d.blocks + b) 0

/-- The row k of the step that stored row r of a weight tile holds in column n: the kept row that its entry names, or r (R223). -/
def WTile.kOf (w : WTile) (r n : Nat) : Nat :=
  if w.nm then
    let nn := (nmOf w.desc.nmmode).1
    let mm := (nmOf w.desc.nmmode).2
    mm * (r / nn) + field (w.desc.nmEntry (w.step * (32 / mm) + r / nn) (n / w.desc.vlen)) (4 * (r % nn)) 4
  else r

/-- The stored elements of column n of a weight tile as (k, element), and zeros for the rows not kept (R215, R223). -/
def WTile.column (w : WTile) (n : Nat) : List (Nat × Elem) :=
  if w.nm then
    let kept := (upTo 0 16).map fun r =>
      let k := w.kOf r n
      (k, rowElem w.fmt w.desc.seed (w.rows.toList.getD r 0) n (w.desc.coord (32 * w.step + k) n))
    let kept := kept.filter fun (x : Nat × Elem) => decide (x.1 < 32)
    kept ++ ((upTo 0 32).filter fun k => !(kept.any fun (x : Nat × Elem) => x.1 == k)).map fun k => (k, Elem.zero w.fmt)
  else (upTo 0 32).map fun k =>
    (k, rowElem w.fmt w.desc.seed (w.rows.toList.getD k 0) n (w.desc.coord (32 * w.step + k) n))

/-- An event at row k and column n of a step's weights, in stored row r: ROW is ROW0 plus the row within the command, COL is COL0 + n,
whatever TR says (R236). -/
def WTile.event (w : WTile) (kind k n r : Nat) : ArrEvent :=
  { kind := kind, step := w.step, row := w.desc.row0 + BitVec.ofNat 32 (32 * w.step + k), col := w.desc.col0 + BitVec.ofNat 32 n,
    i := r, n := n }

/-- Reserved T5 bytes and bad N:M entries met when a weight tile is read (R51, R69). DESIGN CHOICE (log 115): the record of R236 has no
field for the byte's address of R51; it names the byte, or the entry, by the first element that it covers. -/
def WTile.events (w : WTile) : List ArrEvent :=
  let t5 : List ArrEvent :=
    if w.fmt == .t5 then
      (upTo 0 (if w.nm then 16 else 32)).flatMap fun r =>
        ((upTo 0 7).filter fun b => decide (243 ≤ field (w.rows.toList.getD r 0) (8 * b) 8)).map fun b =>
          w.event 4 (w.kOf r (5 * b)) (5 * b) r
    else []
  let nm : List ArrEvent :=
    if w.nm then
      let nn := (nmOf w.desc.nmmode).1
      let mm := (nmOf w.desc.nmmode).2
      (upTo 0 (32 / mm)).flatMap fun g =>
        ((upTo 0 w.desc.blocks).filter fun b =>
          let e := w.desc.nmEntry (w.step * (32 / mm) + g) b
          let offs := (upTo 0 nn).map fun i => field e (4 * i) 4
          (offs.any fun o => decide (mm ≤ o)) ||
            ((upTo 1 (nn - 1)).any fun i => decide (offs.getD i 0 ≤ offs.getD (i - 1) 0))).map fun b =>
          w.event 5 (mm * g) (w.desc.vlen * b) (mm * g)
    else []
  t5 ++ nm

/-! ## Contributions (spec/03 R56-R58) -/

/-- An exact product with its event kind: an integer sum times the scales, rounded once. -/
def intContribution (n : Int) (sa sb : Word) (shift : Nat) : Word × Nat :=
  let scaled := match (unpack32 sa).mul (unpack32 sb) with | some f => f.mul (FVal.ofInt false n 0) | none => none
  match scaled with
  | none => (nan32, 1)
  | some (.nan _) => (nan32, 1)
  | some (.inf b) => (if b then 0xFF800000 else 0x7F800000, 2)
  | some (.fin b m e) =>
    let r := pack32 .rne (.fin (b && m != 0) m (e - (shift : Int))) false
    (r.1, if r.2 &&& fOF == fOF then 3 else 0)

/-- The exact sum of float products, rounded once (R58). -/
def fltSum (ps : List (Option FVal)) : Word × Nat :=
  let bad := ps.any fun p => match p with | none => true | some v => v.isNan
  let pos := ps.any fun p => p == some (.inf false)
  let neg := ps.any fun p => p == some (.inf true)
  if bad || (pos && neg) then (nan32, 1)
  else if pos then (0x7F800000, 2)
  else if neg then (0xFF800000, 2)
  else
    let sum := ps.foldl (fun (r : FVal) (p : Option FVal) => (r.add .rne (p.getD (.fin false 0 0))).getD r) (FVal.fin false 0 0)
    let sum := match sum with | .fin _ 0 e => FVal.fin false 0 e | v => v
    let r := pack32 .rne sum false
    (r.1, if r.2 &&& fOF == fOF then 3 else 0)

/-- What a K-step gives one output element: an integer sum, or FP32 bits with an event kind; none is a NaV among the
operands. -/
inductive Contribution where
  | nav
  | int (n : Int)
  | flt (v : Word) (ev : Nat)
  deriving DecidableEq, Repr

/-- The sum of the products of row i of A with a column of B. -/
def dotProduct (arow : List Elem) (bcol : List (Nat × Elem)) : Contribution :=
  let ps := bcol.map fun (x : Nat × Elem) => (arow.getD x.1 .nav, x.2)
  if ps.any fun (p : Elem × Elem) => p.1 == .nav || p.2 == .nav then .nav
  else if ps.any fun (p : Elem × Elem) => match p.1 with | .flt _ => true | _ => false then
    let r := fltSum (ps.map fun (p : Elem × Elem) => match p.1, p.2 with | .flt x, .flt y => x.mul y | _, _ => none)
    .flt r.1 r.2
  else .int (ps.foldl (fun (n : Int) (p : Elem × Elem) => match p.1, p.2 with | .int x, .int y => n + x * y | _, _ => n) 0)

/-- Rows of A, each of 32 elements, of K-step s. -/
def ArrCmd.aRows (a : ArrCmd) (d : Desc) (rows : List Vec) (s : Nat) : List (List Elem) :=
  (upTo 0 32).map fun i => (upTo 0 32).map fun k => a.aElem d rows s i k

/-- log2 of ka × kb (R55). -/
def ditherShift (fa fb : Fmt) : Nat := (if isDithered fa then 5 else 0) + (if isDithered fb then 5 else 0)

/-- One element of the accumulator after a step, with the kinds of its events (R56-R59): those of the contribution, a NaN that the
addition makes of two infinities, and its overflow. DESIGN CHOICE (log 128): a NaN that the accumulator holds already is no new event. -/
def accStep (i32 : Bool) (old : Word) (c : Contribution) (sa sb : Word) (shift : Nat) : Word × List Nat :=
  let addF (v : Word) (ev : Nat) : Word × List Nat :=
    let r := fadd32 .rne old v
    let made := isNan32 r.1 && !isNan32 old && !isNan32 v
    (r.1, (if ev = 0 then [] else [ev]) ++ (if made then [1] else []) ++ (if r.2 &&& fOF == fOF then [3] else []))
  match c with
  | .nav => addF nan32 1
  | .flt v ev => addF v ev
  | .int n =>
    if i32 then
      let x := old.toInt + n
      let y := clampInt x (-2147483648) 2147483647
      (BitVec.ofInt 32 y, if x = y then [] else [3])
    else
      let r := intContribution n sa sb shift
      addF r.1 r.2

/-- An accumulator of zeros in its mode. -/
def Acc.zeroed (a : Acc) : Acc := { a with rows := Vector.replicate 32 0 }

/-- Sums of the checksum rows and columns of a float step (R235): the exact sum of the products with the summed operand,
rounded once, and added. -/
def Acc.addChecks (x : Acc) (ar : List (List Elem)) (bc : List (List (Nat × Elem))) : Acc :=
  let fv (e : Elem) : Option FVal := match e with | .flt v => some v | _ => none
  let addO (a b : Option FVal) : Option FVal := match a, b with | some x, some y => x.add .rne y | _, _ => none
  let mulO (a b : Option FVal) : Option FVal := match a, b with | some x, some y => x.mul y | _, _ => none
  let zero : Option FVal := some (.fin false 0 0)
  let asum (k : Nat) : Option FVal := ar.foldl (fun (r : Option FVal) (row : List Elem) => addO r (fv (row.getD k .nav))) zero
  let bsum (k : Nat) : Option FVal := bc.foldl (fun (r : Option FVal) (col : List (Nat × Elem)) =>
    col.foldl (fun (r : Option FVal) (y : Nat × Elem) => if y.1 == k then addO r (fv y.2) else r) r) zero
  let asums := (upTo 0 32).map asum
  let bsums := (upTo 0 32).map bsum
  let crow (n : Nat) : Word := (fltSum ((bc.getD n []).map fun (y : Nat × Elem) => mulO (asums.getD y.1 none) (fv y.2))).1
  let ccol (i : Nat) : Word := (fltSum ((upTo 0 32).map fun k => mulO (fv ((ar.getD i []).getD k .nav)) (bsums.getD k none))).1
  { x with
    crow := ofLanes fun n => (fadd32 .rne (lane x.crow n) (crow n)).1
    ccol := ofLanes fun i => (fadd32 .rne (lane x.ccol i) (ccol i)).1 }

/-- The accumulator after K-step s of a multiply, from its operand tiles, with its events. -/
def ArrCmd.stepAcc (a : ArrCmd) (d : Desc) (rows : List Vec) (w : WTile) (s : Nat) (x : Acc) : Acc × List ArrEvent :=
  let ar := a.aRows d rows s
  let bc := (upTo 0 32).map w.column
  let shift := ditherShift a.fa w.fmt
  let res := (upTo 0 32).map fun i => (upTo 0 32).map fun n =>
    accStep a.i32 (lane (x.rows.toList.getD i 0) n) (dotProduct (ar.getD i []) (bc.getD n [])) (d.scaleAt i)
      (w.desc.scaleAt n) shift
  let evs := (res.zipIdx).flatMap fun (r : List (Word × List Nat) × Nat) =>
    (r.1.zipIdx).flatMap fun (e : (Word × List Nat) × Nat) =>
      e.1.2.map fun k =>
        ({ kind := k, step := s, row := d.row0 + BitVec.ofNat 32 r.2, col := w.desc.col0 + BitVec.ofNat 32 e.2, i := r.2,
           n := e.2 } : ArrEvent)
  let rowsOut : Vector Vec 32 := Vector.ofFn fun (i : Fin 32) => ofLanes fun n => (((res.getD i.val []).getD n (0, [])).1)
  let x := { x with rows := rowsOut }
  (if a.c && isFloatFmt a.fa then x.addChecks ar bc else x, evs)

/-- The effect of T and of C before the first step: the accumulator starts from zero, and the checksums start or end. -/
def ArrCmd.openAcc (a : ArrCmd) (zero : Bool) (x : Acc) : Acc :=
  let x := if a.t && zero then x.zeroed else x
  if a.t then { x with sumValid := a.c, sumInt := !isFloatFmt a.fa, crow := 0, ccol := 0 }
  else { x with sumValid := x.sumValid && a.c, sumInt := x.sumInt || !isFloatFmt a.fa }

/-! ## The checksum comparison of a drain (R235) -/

/-- |Σ − c| ≤ TOL × (Σ|x| + |c|), exactly; skipped for a NaN or an infinity. A negative tolerance or a NaN fails. -/
def checkLine (tol : Word) (xs : List Word) (c : Word) : Bool :=
  let vs := xs.map unpack32
  let odd (v : FVal) : Bool := match v with | .fin _ _ _ => false | _ => true
  if (unpack32 c :: vs).any odd then true
  else
    let add (r : FVal) (v : FVal) : FVal := (r.add .rne v).getD r
    let abs (v : FVal) : FVal := match v with | .fin _ m e => .fin false m e | v => v
    let diff := abs (add (vs.foldl add (.fin false 0 0)) (unpack32 c).neg)
    let mag := add ((vs.map abs).foldl add (.fin false 0 0)) (abs (unpack32 c))
    match unpack32 tol with
    | .nan _ => false
    | .inf n => !n
    | .fin n m e =>
      if n && m != 0 then false
      else match add ((mag.mul (.fin false m e)).getD mag) diff.neg with
        | .fin b k _ => !b || k == 0
        | _ => false

/-- Every row and column agrees with its checksum. -/
def Acc.checks (x : Acc) (tol : Word) : Bool :=
  let at_ (i n : Nat) : Word := lane (x.rows.toList.getD i 0) n
  ((upTo 0 32).all fun n => checkLine tol ((upTo 0 32).map fun i => at_ i n) (lane x.crow n)) &&
    ((upTo 0 32).all fun i => checkLine tol ((upTo 0 32).map fun n => at_ i n) (lane x.ccol i))

/-! ## The output of a drain (R225) -/

/-- One element in the output format: its code, none for NaV, and the kind of its event (0 none). -/
def ArrCmd.outElem (a : ArrCmd) (i32 : Bool) (x : Word) (i n : Nat) : Option Nat × Nat :=
  let v : FVal := if i32 then FVal.ofInt false x.toInt 0 else unpack32 x
  let isn := if !i32 && isNan32 x then 1 else 0
  match a.fa with
  | .fp32 => if i32 then (some (pack32 .rne v false).1.toNat, 0) else (some x.toNat, isn)
  | .int32 => (some x.toNat, 0)
  | .int8 =>
    let s : Word := match a.da with | some d => d.scale | none => 0x3F800000
    let q := quotInt8 v (unpack32 s)
    (some (BitVec.ofInt 8 q.1).toNat, if isn != 0 then 1 else match q.2 with | .nan => 1 | .saturation => 3 | _ => 0)
  | f =>
    match floatFmt f with
    | some ff =>
      let r := ff.pack .rne v false
      (some r.1, if isn != 0 then 1 else if r.2 &&& fOF == fOF then 3 else 0)
    | none =>
      match a.da with
      | none => (some 0, 0)
      | some d =>
        let rc := d.coord i n
        let s := if d.smode = 2 then d.scaleAt n else d.scaleAt i
        let q := quantise f v (unpack32 s) (ditherJ d.seed rc.1 rc.2)
        (q.1.map fun (c : Int) => (BitVec.ofInt 8 c).toNat,
          match q.2 with | .nan => 1 | .saturation => 3 | .badScale => 9 | _ => 0)

/-- The bytes of output row i, from offset 0 of its tile row, with its events: ROW is output ROW0 + i and COL is output COL0 + n,
whatever TR says, and i and n with no descriptor (R236). -/
def ArrCmd.outRow (a : ArrCmd) (i32 : Bool) (row : Vec) (i : Nat) : List Byte × List ArrEvent :=
  let es := (upTo 0 32).map fun n => a.outElem i32 (lane row n) i n
  let evs := (es.zipIdx).filterMap fun (e : (Option Nat × Nat) × Nat) =>
    if e.1.2 = 0 then none
    else
      let rc := match a.da with | some d => (d.row0, d.col0) | none => (0, 0)
      some ({ kind := e.1.2, step := 255, row := rc.1 + BitVec.ofNat 32 i, col := rc.2 + BitVec.ofNat 32 e.2, i := i, n := e.2 } : ArrEvent)
  let code (n : Nat) : Option Nat := (es.getD n (none, 0)).1
  let bytes : List Byte :=
    match a.fa with
    | .d4 => (upTo 0 16).map fun b =>
        BitVec.ofNat 8 ((code (2 * b)).getD 8 % 16 + (code (2 * b + 1)).getD 8 % 16 * 16)
    | .t5 => (upTo 0 7).map fun b =>
        if (upTo 0 5).any fun j => decide (5 * b + j < 32) && (code (5 * b + j)).isNone then 243
        else BitVec.ofNat 8 (t5Byte fun j =>
          if 5 * b + j < 32 then (BitVec.ofNat 8 ((code (5 * b + j)).getD 0)).toInt else 0)
    | f => (upTo 0 32).flatMap fun n => leBytes (fmtBits f / 8) ((code n).getD 0x80)
  (bytes, evs)

/-! ## The predictor (R229) -/

/-- Neuron n of a predictor step: some row's sum exceeds τ; and the events of its rows: a NaN, an infinity, an overflow (R63). DESIGN
CHOICE (log 128): the operands have no descriptor, so ROW and I are the row i, and COL and N the neuron. -/
def predNeuron (fa fb : Fmt) (ar pr : List Vec) (tau : Word) (n : Nat) : Bool × List ArrEvent :=
  let ys := (upTo 0 32).map fun i =>
    fltSum ((upTo 0 32).map fun r =>
      match floatFmt fa, floatFmt fb with
      | some x, some y =>
        (x.unpack (field (ar.getD i 0) (fmtBits fa * r) (fmtBits fa))).mul (y.unpack (field (pr.getD r 0) (fmtBits fb * n) (fmtBits fb)))
      | _, _ => none)
  (ys.any fun (y : Word × Nat) => (fcond .gt y.1 tau).1,
    (ys.zipIdx).filterMap fun (y : (Word × Nat) × Nat) =>
      if y.1.2 = 0 then none
      else some { kind := y.1.2, step := 0, row := BitVec.ofNat 32 y.2, col := BitVec.ofNat 32 n, i := y.2, n := n })

end Sys2Proof.Machine
end

