-- ==== Sys2Proof/Machine/XMemory.lean ====
section
/-! DEFINITION. Machine/XMemory.lean: scratchpad accesses of the X stream (spec/10 R199, spec/12 R241) and `accrd`
(spec/11 R228). -/
namespace Sys2Proof.Machine
open Sys2Proof

def xtySize : XTy → Nat | .n8 => 1 | .i8 => 1 | .n16 => 2 | .i16 => 2 | .w32 => 4

/-- A loaded value, extended to 32 bits. -/
def xtyExtend (t : XTy) (v : Nat) : Word :=
  match t with
  | .i8 => (BitVec.ofNat 8 v).signExtend 32
  | .i16 => (BitVec.ofNat 16 v).signExtend 32
  | _ => BitVec.ofNat 32 v

/-- What stops an access: a failing check, or a wide access on a slab it touches. -/
def xMemBlock (wr : Bool) (size : Nat) (addrs : State → List Nat) (s t : State) : Option State :=
  let l := addrs s
  match t.spCheckAll t.turn.core t.turn.ctx wr size l with
  | some (cause, d0, d1) => some (t.trap cause d0 d1)
  | none => if (t.core t.turn.core).slabBusy t.cycle (l.map tileOf) then some (t.stall wConflict 0) else none

/-- A vector access also waits until its port has had the core cycles that its banks ask for beyond the first: they are a freeze
before it issues (R100, R101, R184). -/
def xVecBlock (wr : Bool) (addrs : State → List Nat) (s t : State) : Option State :=
  match xMemBlock wr 4 addrs s t with
  | some u => some u
  | none => if decide (t.tb.xBusy + 1 < portCycles (addrs s)) then some (t.stall wConflict 1) else none

/-- Note every lane for the alias-check mode. -/
def State.xAlias (t : State) (pc : Word) (cls : Fin 8) (wr : Bool) (size : Nat) (addrs : List Nat) : State :=
  addrs.foldl (fun t a => t.aliasNote t.turn.core t.turn.ctx pc cls true wr a size (some t.turn.col)) t

/-- A load of a scalar. -/
def xLoad (note : Bool) (h : XHdr) (cls : Fin 8) (ty : XTy) (d : SDst) (a b : SSrc) (s : State) :
    Host.Outcome State Fault Refusal :=
  let addrs (s : State) : List Nat := [(s.rS a + s.rS b).toNat]
  xIssue h 6 (sPorts a ++ sPorts b) (xMemBlock false (xtySize ty) addrs s)
    (fun t =>
      let v := (s.core s.turn.core).spRead ((addrs s).headD 0) (xtySize ty)
      let t := if note then t.xAlias s.tc.pc cls false (xtySize ty) (addrs s) else t
      (t.wrS h d (xtyExtend ty v) 6 fNone).xNext) s

/-- Stores of the cycle are kept until its end: loads of the same cycle do not see them (R199). -/
def State.xStore (t : State) (addr : Nat) (bs : List Byte) : State :=
  t.modTb fun b => { b with xstores := b.xstores ++ bs.zipIdx.map fun x => (addr + x.2, x.1) }

/-- Lanes of a strided or indexed vector access. -/
def strideAddrs (a b : Word) : List Nat := (upTo 0 32).map fun l => (a + 4 * b * BitVec.ofNat 32 l).toNat
def indexAddrs (a : Word) (v : Vec) : List Nat := (upTo 0 32).map fun l => (a + 4 * lane v l).toNat

/-- A vector load from lane addresses. -/
def xVLoad (h : XHdr) (cls : Fin 8) (d : VDst) (srcs : List Nat) (addrs : State → List Nat) (s : State) :
    Host.Outcome State Fault Refusal :=
  xIssue h 6 srcs (xVecBlock false addrs s)
    (fun t =>
      let l := addrs s
      let c := s.core s.turn.core
      let v := ofLanes fun i => BitVec.ofNat 32 (c.spRead (l.getD i 0) 4)
      ((t.xAlias s.tc.pc cls false 4 l).wrV h d v 6 fNone).xNext) s

/-- A vector store to lane addresses; the highest lane wins a shared word. -/
def xVStore (h : XHdr) (cls : Fin 8) (srcs : List Nat) (addrs : State → List Nat) (data : State → Vec) (s : State) :
    Host.Outcome State Fault Refusal :=
  xIssue h 0 srcs (xVecBlock true addrs s)
    (fun t =>
      let l := addrs s
      let v := data s
      let t := l.zipIdx.foldl (fun t x => t.xStore x.1 (leBytes 4 (lane v x.2).toNat)) t
      ((t.xAlias s.tc.pc cls true 4 l).xNext).xPush h 0) s

def execXLd (h : XHdr) (cls : Fin 8) (ty : XTy) (d : SDst) (a b : SSrc) (s : State) : Host.Outcome State Fault Refusal :=
  xLoad true h cls ty d a b s

def execXSt (h : XHdr) (cls : Fin 8) (ty : XTy) (a b c : SSrc) (s : State) : Host.Outcome State Fault Refusal :=
  let addrs (s : State) : List Nat := [(s.rS a + s.rS b).toNat]
  xIssue h 0 (sPorts a ++ sPorts b ++ sPorts c) (xMemBlock true (xtySize ty) addrs s)
    (fun t =>
      let t := t.xStore ((addrs s).headD 0) (leBytes (xtySize ty) (s.rS c).toNat)
      ((t.xAlias s.tc.pc cls true (xtySize ty) (addrs s)).xNext).xPush h 0) s

def execVld (h : XHdr) (cls : Fin 8) (d : VDst) (a b : SSrc) (s : State) : Host.Outcome State Fault Refusal :=
  xVLoad h cls d (sPorts a ++ sPorts b) (fun s => strideAddrs (s.rS a) (s.rS b)) s
def execVst (h : XHdr) (cls : Fin 8) (a b : SSrc) (c : VSrc) (s : State) : Host.Outcome State Fault Refusal :=
  xVStore h cls (sPorts a ++ sPorts b ++ vPorts c) (fun s => strideAddrs (s.rS a) (s.rS b)) (fun s => s.rV c) s
def execVldx (h : XHdr) (cls : Fin 8) (d : VDst) (a : SSrc) (b : VSrc) (s : State) : Host.Outcome State Fault Refusal :=
  xVLoad h cls d (sPorts a ++ vPorts b) (fun s => indexAddrs (s.rS a) (s.rV b)) s
def execVstx (h : XHdr) (cls : Fin 8) (a : SSrc) (b c : VSrc) (s : State) : Host.Outcome State Fault Refusal :=
  xVStore h cls (sPorts a ++ vPorts b ++ vPorts c) (fun s => indexAddrs (s.rS a) (s.rV b)) (fun s => s.rV c) s

/-- `ldacq`: a 32-bit load that the alias-check mode does not report. -/
def execLdacq (h : XHdr) (cls : Fin 8) (d : SDst) (a b : SSrc) (s : State) : Host.Outcome State Fault Refusal :=
  xLoad false h cls .w32 d a b s

/-! ## Accumulator use (spec/18 R297) -/

/-- The first-use check of an accumulator by a bank: the trap it raises, or none. -/
def Core.accCheck (c : Core) (k : Fin 3) (acc : Fin 4) : Option (Byte × DWord × DWord) :=
  if k.val = 2 || c.accOwn.val = k.val then none
  else if c.accOwn.val != 2 && c.acclive != 0 then some (26, BitVec.ofNat 64 acc.val, BitVec.ofNat 64 c.accOwn.val)
  else
    let sp := if k.val = 0 then c.spill0 else c.spill1
    if sp != 0 then some (27, BitVec.ofNat 64 acc.val, sp.setWidth 64) else none

/-- The bank takes the accumulators (the system context reads them as they are). -/
def Core.accTake (c : Core) (k : Fin 3) : Core := if k.val = 2 then c else { c with accOwn := k }

def cntCode : CntDst → Byte
  | .reg n => BitVec.ofNat 8 n.val
  | .ofile n => BitVec.ofNat 8 (0x40 + n.val)

/-- The count word beside a row (R227): bit 31 when a multiply owns the accumulator, from its start to its retirement,
and then the K-steps of it that have landed. -/
def State.rowCount (s : State) (g : Fin 512) (acc : Fin 4) : Word :=
  match (s.cluster (clusterOf g)).cmds.find? fun c =>
    c.op == .mul && c.core == g && c.acc == acc && c.started.isSome && !c.retired with
  | some c => BitVec.ofNat 32 (2 ^ 31 + c.landed % 128)
  | none => 0

/-- `accrd`: a row after 12 X cycles, and its count beside it, which never enters lx. -/
def execAccrd (h : XHdr) (d : VDst) (acc : Fin 4) (row : SSrc) (cnt : CntDst) (s : State) :
    Host.Outcome State Fault Refusal :=
  xIssue h 12 (sPorts row)
    (fun t => match (t.core t.turn.core).accCheck t.turn.ctx acc with
      | some (c, d0, d1) => some (t.trap c d0 d1)
      | none => none)
    (fun t =>
      let a := (s.core s.turn.core).acc.get acc
      let v := a.rows.toList.getD ((s.rS row).toNat % 32) 0
      let t := t.modCore t.turn.core fun c => c.accTake t.turn.ctx
      let t := t.modTb fun b => b.deliver s.turn.col (cntCode cnt) .scalar ((s.rowCount s.turn.core acc).setWidth 1024) 12 fNone none
      (t.wrV h d v 12 fNone).xNext) s

end Sys2Proof.Machine
end

