-- ==== Sys2Proof/Machine/Matrix.lean ====
section
/-! DEFINITION. Machine/Matrix.lean: the words of the M stream: leases, the checks and the issue of array commands, and the
stream's own registers and loops (spec/02 R34, R37; spec/11 R212-R219, R231). -/
namespace Sys2Proof.Machine
open Sys2Proof

/-! ## Gates of an M word (spec/02 R28, spec/06 R110, R111) -/

/-- A k register that an unretired command of the bank is still to write (R227, R229). -/
def State.kPending (s : State) (g : Fin 512) (k : Fin 3) (r : Fin 8) : Bool :=
  (s.cluster (clusterOf g)).cmds.any fun (a : ArrCmd) =>
    a.core == g && a.bank.val == k.val && !a.retired &&
      ((a.op == .pred && (a.kd == r || a.kd + 1 == r)) || (a.op == .snap && a.kd == r))

/-- The flags of the word are bound to M. -/
def Bank.bindsM (b : Bank) (h : MHdr) : Bool := b.consumes .m h.wait && b.produces .m h.push

/-- What keeps an M word from issuing: the token binding, its stamp, its tokens, a k register still to be written. -/
def State.mGate (s : State) (h : MHdr) (ks : List (Fin 8)) : Option State :=
  let b := s.tb
  if !b.bindsM h then some s.illegal
  else match s.stampGate (BitVec.ofNat 24 s.turn.stamp) with
    | some t => some t
    | none =>
      if !b.hasToken h.wait then some (s.stall 1 (match h.wait with | some f => BitVec.ofNat 64 f.val | none => 0))
      else if !b.hasRoom h.push then some (s.stall 2 (match h.push with | some f => BitVec.ofNat 64 f.val | none => 0))
      else if ks.any fun r => s.kPending s.turn.core s.turn.ctx r then some (s.stall wInterlock 0)
      else none

/-- The M word issues: its token goes, its push is owed, the pc moves on. -/
def State.mTake (s : State) (h : MHdr) : State :=
  (s.modTb fun b =>
    let b := (b.popToken h.wait).owe h.push
    let r := loopStep b.mpc 1 b.mLoop0 b.mLoop1
    { b with
      mpc := r.1, mLoop0 := r.2.1, mLoop1 := r.2.2, mWait := none
      bpSkip := b.bpSkip.filter fun x => x.1 != .m }).how .issued

/-- The push of a word that retires at its issue. -/
def State.mPush (s : State) (h : MHdr) : State := s.pushToken s.turn.core s.turn.ctx h.push

/-- An M word with its gates: `blk` gives a trap or a further wait, `eff` what it does after it issued. -/
def mWord (h : MHdr) (ks : List (Fin 8)) (blk : State → Option State) (eff : State → State) (s : State) :
    Host.Outcome State Fault Refusal :=
  match s.mGate h ks with
  | some t => .next t
  | none =>
    match blk s with
    | some t => .next t
    | none => .next (eff (s.mTake h))

def State.rK (s : State) (r : Fin 8) : Word := s.tb.k.get r
def State.wrK (s : State) (r : Fin 8) (v : Word) : State := s.modTb fun b => { b with k := b.k.set r.val v }

/-! ## Leases (R212, R213) -/

/-- A core takes the lease. -/
def State.grant (s : State) (cl : Fin 64) (i : Fin 8) : State :=
  let t := s.cycle
  let c := s.cluster cl
  (s.modCluster cl fun c =>
    { c with holder := some i, granted := t, used := 0, requests := setBit c.requests i.val false }).schedule
    c.leasecyc.toNat .leaseEndCycles { EvArgs.zero with cl := cl, n := i.val, id := t }

/-- A grant is on its way. -/
def State.grantPending (s : State) (cl : Fin 64) : Bool := s.agenda.any fun d => d.what == .leaseGrant && d.args.cl == cl

/-- The word of the turn asks for the lease: its core holds it, takes it at once, or has its request kept. -/
def State.askLease (t : State) (asks : Bool) : State × Bool :=
  let g := t.turn.core
  let cl := clusterOf g
  let me := inCluster g
  let c := t.cluster cl
  if c.holder == some me then (t, true)
  else if !asks then (t, false)
  else if c.holder.isNone && (t.tb.detm || !t.grantPending cl) then (t.grant cl me, true)
  else (t.modCluster cl fun c => { c with requests := setBit c.requests me.val true }, false)

/-- The wait for the lease. -/
def State.leaseWait (t : State) : State := t.stall 9 (BitVec.ofNat 64 (t.cluster (clusterOf t.turn.core)).used)

/-- A word that needs the lease, up to its own checks; false when it does not issue. It asks as it is presented, so its request stands
while it waits for a token, for room or for a register (R212); with DETM = 1 only `mlease` asks, at its stamp and when it is ready (R213,
R110). -/
def State.leaseGate (s : State) (h : MHdr) (ks : List (Fin 8)) (lease : Bool) : State × Bool :=
  let a := if s.tb.detm || !s.tb.bindsM h then (s, true) else s.askLease true
  match a.1.mGate h ks with
  | some t => (t, false)
  | none =>
    let b := if s.tb.detm then s.askLease lease else a
    if b.2 then b else (b.1.leaseWait, false)

def execMnop (h : MHdr) (s : State) : Host.Outcome State Fault Refusal :=
  mWord h [] noBlock (fun t => t.mPush h) s

/-- `mlease`: while holding it does nothing. -/
def execMlease (h : MHdr) (s : State) : Host.Outcome State Fault Refusal :=
  let a := s.leaseGate h [] true
  .next (if a.2 then (a.1.mTake h).mPush h else a.1)

def execMfree (h : MHdr) (s : State) : Host.Outcome State Fault Refusal :=
  mWord h [] noBlock (fun t => (t.endLease t.turn.core).mPush h) s

/-- `mfin` ends the M stream. -/
def execMfin (h : MHdr) (s : State) : Host.Outcome State Fault Refusal :=
  mWord h [] noBlock (fun t =>
    (((t.mPush h).modTb fun b => { b with mEnded := true }).streamEnd t.turn.core t.turn.ctx)) s

/-! ## The stream's own registers and loops (R231) -/

def execMkli (h : MHdr) (kd : Fin 8) (i : BitVec 32) (s : State) : Host.Outcome State Fault Refusal :=
  mWord h [kd] noBlock (fun t => (t.wrK kd i).mPush h) s

def execMkadd (h : MHdr) (kd ks : Fin 8) (i : BitVec 24) (s : State) : Host.Outcome State Fault Refusal :=
  mWord h [kd, ks] noBlock (fun t => (t.wrK kd (s.rK ks + i.signExtend 32)).mPush h) s

def mCount (s : State) : MCount → Word
  | .imm n => n.setWidth 32
  | .kreg r => s.rK r

/-- `mloop` opens a level; the next word is its body's first. -/
def execMloop (h : MHdr) (l : Bool) (n : MCount) (disp : BitVec 13) (s : State) : Host.Outcome State Fault Refusal :=
  let pc := s.tb.mpc
  mWord h (match n with | .kreg r => [r] | .imm _ => []) noBlock (fun t =>
    let r := LoopReg.openAt pc (mCount s n) (disp.setWidth 32)
    (t.modTb fun b => if l then { b with mLoop1 := r } else { b with mLoop0 := r }).mPush h) s

/-- A taken branch of the M stream costs two cycles in which nothing issues. -/
def State.mTaken (t : State) (old : Bank) (tgt : Word) : State :=
  let r := loopJump tgt old.mLoop0 old.mLoop1
  t.modTb fun b => { b with mpc := tgt, mLoop0 := r.1, mLoop1 := r.2, mPause := 2 }

def execMbnz (h : MHdr) (kn : Fin 8) (disp : BitVec 20) (s : State) : Host.Outcome State Fault Refusal :=
  let pc := s.tb.mpc
  let v := s.rK kn - 1
  mWord h [kn] noBlock (fun t =>
    let t := t.wrK kn v
    let tgt := pc + disp.signExtend 32
    let t :=
      if v = 0 then t
      else
        let t := if (s.part s.tb.part).trcBr then t.traceAt t.turn.core t.turn.ctx 2 0 3 pc (tgt.setWidth 64) 0 else t
        t.mTaken s.tb tgt
    t.mPush h) s

/-! ## The checks of R218 -/

def matrixTrap (t : State) (n : Nat) : State := t.trap 14 (BitVec.ofNat 64 n) 0
def formatTrap (t : State) (f : Fmt) : State := t.trap 5 (BitVec.ofNat 64 (fmtCode f)) 0
def setTrap (t : State) (tile : Nat) : State := t.trap 13 (BitVec.ofNat 64 tile) 2

/-- The first tile of a list that the array's set entry does not allow. -/
def State.setCheck (t : State) (wr : Bool) (tiles : List Nat) : Option State :=
  match tiles.find? fun x => !(if wr then t.tb.mayWrite 2 x else t.tb.mayRead 2 x) with
  | some x => some (setTrap t x)
  | none => none

/-- Go on with the next check when this one passes. -/
def orElseT (a : Option State) (b : Unit → Option State) : Option State := match a with | some t => some t | none => b ()

/-- Tiles of the scratchpad that n bytes at an address touch. -/
def runTiles (addr n : Nat) : List Nat :=
  (upTo (tileOf addr) (tileOf (addr + n - 1) + 1 - tileOf addr)).filter fun x => decide (x < 768)

/-- A piece that a command reads at issue, as runs of n bytes: the set check on its tiles, and then MATRIX_FAULT `why` where it is
misaligned, out of range, on an owner-0 tile or otherwise `bad` (R218, R263). -/
def State.pieceCheck (t : State) (runs : List Nat) (align n why : Nat) (bad : Bool) : Option State :=
  let tiles := runs.flatMap fun a => runTiles a n
  match t.setCheck false tiles with
  | some u => some u
  | none =>
    if bad || (runs.any fun a => a % align != 0 || decide (spSize < a + n)) || (tiles.any fun x => !(t.core t.turn.core).owned x)
    then some (matrixTrap t why) else none

/-- The descriptor at a byte address, without its vector and metadata (R214). -/
def Core.descAt (c : Core) (a : Nat) : Desc :=
  { seed := BitVec.ofNat 32 (c.spRead a 4), row0 := BitVec.ofNat 32 (c.spRead (a + 4) 4),
    col0 := BitVec.ofNat 32 (c.spRead (a + 8) 4), tr := (c.spRead (a + 12) 1).testBit 0, smode := c.spRead (a + 13) 1,
    vl := c.spRead (a + 14) 1, nmmode := c.spRead (a + 15) 1, scale := BitVec.ofNat 32 (c.spRead (a + 16) 4),
    svec := 0, bits := [] }

/-- The descriptor's tile and its fields (MATRIX_FAULT 1). -/
def State.descCheck (t : State) (a : Nat) : Option State :=
  let c := t.core t.turn.core
  t.pieceCheck [a] 64 64 1
    (decide (1 < c.spRead (a + 12) 1) || decide (2 < c.spRead (a + 13) 1) || decide (1 < c.spRead (a + 14) 1) ||
      decide (3 < c.spRead (a + 15) 1) || c.spRead (a + 30) 34 != 0)

/-- How a command uses a descriptor: its address, the vector SMODEs that are legal and used, and its metadata as bytes per
entry, rows and entries per row. -/
structure DescUse where
  addr : Nat
  scaled : Bool
  vec : Nat
  vecToo : Bool
  mbytes : Nat
  mrows : Nat
  mper : Nat

/-- The scale vector is used. -/
def DescUse.usesVec (u : DescUse) (d : Desc) : Bool :=
  u.scaled && (d.smode == u.vec || (u.vecToo && d.smode != 0)) && d.smode != 0

/-- SVEC and META of a descriptor (MATRIX_FAULT 2). -/
def State.partsCheck (t : State) (u : DescUse) : Option State :=
  let c := t.core t.turn.core
  let d := c.descAt u.addr
  orElseT (if u.usesVec d then t.pieceCheck [c.spRead (u.addr + 20) 4] 4 128 2 false else none) fun _ =>
    let meta_ := c.spRead (u.addr + 24) 4
    let pitch := c.spRead (u.addr + 28) 2
    if u.mbytes = 0 || u.mrows = 0 || u.mper = 0 then none
    else t.pieceCheck ((upTo 0 u.mrows).map fun r => meta_ + pitch * r) 1 (u.mbytes * u.mper) 2 (meta_ % 8 != 0)

/-- The SMODE is not legal for the operand (MATRIX_FAULT 3). -/
def State.smodeCheck (t : State) (u : DescUse) : Option State :=
  let d := (t.core t.turn.core).descAt u.addr
  if u.scaled && d.smode != 0 && d.smode != u.vec && !u.vecToo then some (matrixTrap t 3) else none

/-- The descriptor with its vector and metadata as read at issue. -/
def State.readDesc (t : State) (u : DescUse) : Desc :=
  let c := t.core t.turn.core
  let d := c.descAt u.addr
  let meta_ := c.spRead (u.addr + 24) 4
  let pitch := c.spRead (u.addr + 28) 2
  { d with
    svec := if u.usesVec d then BitVec.ofNat 1024 (c.spRead (c.spRead (u.addr + 20) 4) 128) else 0
    bits := if u.mbytes = 0 then []
      else (upTo 0 u.mrows).flatMap fun r => (upTo 0 u.mper).map fun j =>
        BitVec.ofNat 64 (c.spRead (meta_ + pitch * r + u.mbytes * j) u.mbytes) }

/-- A ring that the array reads n slots of, or writes one slot of (RING_FAULT). -/
def State.readRing (t : State) (r : Fin 16) (n : Nat) : Option State :=
  match t.tb.ring r with
  | none => some (t.ringTrap r)
  | some x => if x.cons.val != 2 || decide (x.count < n) then some (t.ringTrap r) else none
def State.writeRing (t : State) (r : Fin 16) : Option State :=
  match t.tb.ring r with
  | none => some (t.ringTrap r)
  | some x => if x.prod.val != 2 then some (t.ringTrap r) else none

/-- Tiles of the first n filled slots of a ring. -/
def State.nextSlots (t : State) (r : Fin 16) (n : Nat) : List Nat :=
  let x := t.ringAt r
  (upTo x.head n).map x.tile

/-- Wait for n filled slots, or for a free one. -/
def State.fillWait (t : State) (r : Fin 16) (n : Nat) : Option State :=
  let x := t.ringAt r
  if decide (x.nfill < n) then some (t.stall 7 (ringDetail r x)) else none
def State.freeWait (t : State) (r : Fin 16) : Option State :=
  let x := t.ringAt r
  if x.free = 0 then some (t.stall 7 (ringDetail r x)) else none

/-- Unretired lease-needing commands of the core. -/
def State.inflight (t : State) (g : Fin 512) : Nat :=
  ((t.cluster (clusterOf g)).cmds.filter fun (a : ArrCmd) => a.core == g && !a.retired).length

/-- The command-count wait (R219). -/
def State.countWait (t : State) : Option State :=
  if decide (8 ≤ t.inflight t.turn.core) then some (t.stall 10 (BitVec.ofNat 64 (2 ^ 32))) else none

/-- The first-use check of an accumulator (spec/18 R297). -/
def State.accUse (t : State) (acc : Fin 4) : Option State :=
  match (t.core t.turn.core).accCheck t.turn.ctx acc with
  | some (c, d0, d1) => some (t.trap c d0 d1)
  | none => none

/-! ## Issue (R219, R221, R359) -/

/-- A command with nothing in it, as the word of the turn issues it. -/
def State.newCmd (t : State) (op : ArrOp) (push : Option (Fin 16)) : ArrCmd :=
  { id := (t.cluster (clusterOf t.turn.core)).nextId, core := t.turn.core, bank := asBank t.turn.ctx, op := op,
    pc := t.tb.mpc, sfc := t.sfc t.tb, push := push, issued := t.cycle, t := false, c := false, q := false, acc := 0,
    ksteps := 0, fa := .fp32, fb := .fp32, bm := false, nm := false, wl := false, i32 := false, ra := 0, rb := 0,
    aSlots := [], bSlots := [], out := 0, da := none, db := none, kd := 0, kdata0 := 0, kdata1 := 0, kbase := 0,
    wt := none, zeroed := false, again := false, started := none, begun := 0, nextStart := 0, lastBegun := false,
    landed := 0, retired := false, logged := [], snapRows := Vector.replicate 32 0 }

/-- A cell command takes part in the array's order of starts (R222). -/
def ArrOp.cell (o : ArrOp) : Bool := o == .mul || o == .wload || o == .pred

/-- Keep the last 16 entries of a replay window (R234). -/
def keepLast (n : Nat) (l : List ReplayCmd) : List ReplayCmd := l.drop (l.length - n)

/-- Filled slots of a ring become claimed. -/
def State.claim (t : State) (r : Fin 16) (n : Nat) : State :=
  let x := t.ringAt r
  if n = 0 then t
  else
    let y := { x with head := (x.head + n) % x.count, nfill := x.nfill - n, nclaim := x.nclaim + n }
    (t.setRing t.turn.core t.turn.ctx r (some y)).slotOwner t.turn.core x x.head n true

/-- The step that a command's first event is. -/
def ArrOp.first (o : ArrOp) : Instr :=
  match o with
  | .mul => .arrayCommandStart
  | .wload => .arrayCommandStart
  | .pred => .arrayCommandStart
  | .drain => .drainStart
  | .zero => .mzeroEffect
  | .snap => .msnapWrite
  | .scan => .mscanWrite

/-- The command is in the array: it counts for the lease and the window, and its first event comes six cycles later. -/
def State.addCmd (t : State) (a : ArrCmd) : State :=
  let cl := clusterOf a.core
  let t := t.modCluster cl fun c =>
    { c with
      cmds := c.cmds ++ [a], nextId := c.nextId + 1, used := c.used + 1
      latchFmt := if a.op == .wload || (a.op == .mul && !a.wl) then some (a.fb, t.cycle) else c.latchFmt }
  let t :=
    if a.op == .mul || a.op == .wload then
      t.modCore a.core fun c =>
        { c with window := keepLast 16 (c.window ++
            [{ cluster := cl, id := a.id, acc := if a.op == .mul then some a.acc else none, marker := a.op == .mul && a.t, released := false }]) }
    else t
  let t := t.schedule 6 a.op.first { EvArgs.zero with cl := cl, id := a.id }
  if decide ((t.cluster cl).leasecmd.toNat ≤ (t.cluster cl).used) then
    t.schedule 0 .leaseEndCommands { EvArgs.zero with cl := cl }
  else t

/-- A lease-needing word: lease, then `pre` (traps and waits in R218's order), then the command is built and added. -/
def mCommand (h : MHdr) (ks : List (Fin 8)) (pre : State → Option State) (build : State → ArrCmd) (eff : State → State)
    (s : State) : Host.Outcome State Fault Refusal :=
  match s.leaseGate h ks false with
  | (t, false) => .next t
  | (t, true) =>
    match pre t with
    | some u => .next u
    | none => .next (eff ((t.mTake h).addCmd (build t)))

/-- The last loaded tile's format, if one was latched since the unit started. -/
def State.latched (t : State) : Option Fmt :=
  match (t.cluster (clusterOf t.turn.core)).latchFmt, t.tb.unit with
  | some (f, at_), some u => if decide (u.startedAt ≤ at_) then some f else none
  | _, _ => none

/-! ## `mmul` (R218, R220) -/

/-- The formats of a multiply; the failing code. -/
def mulFormats (fa fb : Fmt) (t i32 mode : Bool) (latch : Option Fmt) : Option Fmt :=
  let aOk := decide (1 ≤ fmtCode fa) && decide (fmtCode fa ≤ 5)
  let bOk := decide (1 ≤ fmtCode fb) && decide (fmtCode fb ≤ 7)
  if !aOk then some fa
  else if !bOk || (match latch with | some f => f != fb | none => false) || (isFloatFmt fa != isFloatFmt fb) ||
      (i32 && !(fa == .int8 && fb == .int8)) || (!t && i32 != mode) then some fb
  else none

/-- How `mmul` uses its descriptors. -/
def mulUseA (t : State) (ka : Fin 8) (ks : Nat) (fa : Fmt) (bm : Bool) : DescUse :=
  { addr := (t.rK ka).toNat, scaled := !isFloatFmt fa, vec := 1, vecToo := false, mbytes := if bm then 8 else 0, mrows := 32,
    mper := cmdGroups ks }
def nmUse (t : State) (kb : Fin 8) (ks : Nat) (fb : Fmt) (nm : Bool) : DescUse :=
  let addr := (t.rK kb).toNat
  let d := (t.core t.turn.core).descAt addr
  { addr := addr, scaled := !isFloatFmt fb, vec := 2, vecToo := false, mbytes := if nm && d.nmmode != 0 then 2 else 0,
    mrows := 32 / (nmOf d.nmmode).2 * ks, mper := d.blocks }

def execMmul (h : MHdr) (tt c : Bool) (ra rb : Fin 16) (acc : Fin 4) (ks : Fin 128) (fa fb : Fmt) (bm nm : Bool)
    (ka kb : Fin 8) (wl i32 : Bool) (s : State) : Host.Outcome State Fault Refusal :=
  let k := ks.val
  let na := (k + perSlot fa - 1) / perSlot fa
  let nb := if wl then 0 else k
  let ua (t : State) := mulUseA t ka k fa bm
  let ub (t : State) := nmUse t kb k fb nm
  mCommand h (if wl then [ka] else [ka, kb])
    (fun t =>
      let x := (t.core t.turn.core).acc.get acc
      let da (_ : Unit) := (t.core t.turn.core).descAt (ua t).addr
      let db (_ : Unit) := (t.core t.turn.core).descAt (ub t).addr
      orElseT (t.accUse acc) fun _ =>
      orElseT (if wl && t.latched.isNone then some (matrixTrap t 5) else none) fun _ =>
      orElseT (match mulFormats fa fb tt i32 x.i32 (if wl then t.latched else none) with
        | some f => some (formatTrap t f) | none => none) fun _ =>
      orElseT (t.readRing ra na) fun _ =>
      orElseT (if wl then none else t.readRing rb nb) fun _ =>
      orElseT (if !wl && ra == rb then some (t.ringTrap ra) else none) fun _ =>
      orElseT t.countWait fun _ =>
      orElseT (t.fillWait ra na) fun _ =>
      orElseT (if wl then none else t.fillWait rb nb) fun _ =>
      orElseT (t.setCheck false (t.nextSlots ra na ++ if wl then [] else t.nextSlots rb nb)) fun _ =>
      orElseT (t.descCheck (ua t).addr) fun _ =>
      orElseT (if wl then none else t.descCheck (ub t).addr) fun _ =>
      orElseT (t.partsCheck (ua t)) fun _ =>
      orElseT (if wl then none else t.partsCheck (ub t)) fun _ =>
      orElseT (t.smodeCheck (ua t)) fun _ =>
      orElseT (if wl then none else t.smodeCheck (ub t)) fun _ =>
      orElseT (if (da ()).nmmode != 0 || (bm && (da ()).tr) then some (matrixTrap t 4) else none) fun _ =>
      orElseT (if !wl && ((nm != ((db ()).nmmode != 0)) || (nm && (db ()).tr)) then some (matrixTrap t 4) else none) fun _ =>
      if wl && k != 1 then some (matrixTrap t 5) else none)
    (fun t =>
      { t.newCmd .mul h.push with
        t := tt, c := c, acc := acc, ksteps := k, fa := fa, fb := fb, bm := bm, nm := nm, wl := wl, i32 := i32, ra := ra, rb := rb
        aSlots := t.nextSlots ra na, bSlots := if wl then [] else t.nextSlots rb nb
        da := some (t.readDesc (ua t)), db := if wl then none else some (t.readDesc (ub t)) })
    (fun t =>
      let g := t.turn.core
      let t := (t.claim ra na).claim rb nb
      t.modCore g fun x =>
        let y := x.accTake t.turn.ctx
        { y with
          acclive := setBit y.acclive acc.val true
          acc := if tt then y.acc.set acc.val { y.acc.get acc with i32 := i32 } else y.acc }) s

/-! ## `mwload`, `mwloadnm` (R218, R221) -/

/-- A load of the shadow half from the next filled slot. -/
def mLoad (nm : Bool) (h : MHdr) (rb : Fin 16) (fb : Fmt) (kb : Fin 8) (s : State) : Host.Outcome State Fault Refusal :=
  let ub (t : State) := nmUse t kb 1 fb nm
  mCommand h [kb]
    (fun t =>
      let db (_ : Unit) := (t.core t.turn.core).descAt (ub t).addr
      let hi := if nm then 5 else 7
      orElseT (if decide (1 ≤ fmtCode fb) && decide (fmtCode fb ≤ hi) then none else some (formatTrap t fb)) fun _ =>
      orElseT (t.readRing rb 1) fun _ =>
      orElseT t.countWait fun _ =>
      orElseT (t.fillWait rb 1) fun _ =>
      orElseT (t.setCheck false (t.nextSlots rb 1)) fun _ =>
      orElseT (t.descCheck (ub t).addr) fun _ =>
      orElseT (t.partsCheck (ub t)) fun _ =>
      orElseT (t.smodeCheck (ub t)) fun _ =>
      if (nm != ((db ()).nmmode != 0)) || (nm && (db ()).tr) then some (matrixTrap t 4) else none)
    (fun t =>
      { t.newCmd .wload h.push with
        fb := fb, nm := nm, rb := rb, bSlots := t.nextSlots rb 1, db := some (t.readDesc (ub t)) })
    (fun t => t.claim rb 1) s

def execMwload (h : MHdr) (rb : Fin 16) (fb : Fmt) (kb : Fin 8) (s : State) : Host.Outcome State Fault Refusal :=
  mLoad false h rb fb kb s
def execMwloadnm (h : MHdr) (rb : Fin 16) (fb : Fmt) (kb : Fin 8) (s : State) : Host.Outcome State Fault Refusal :=
  mLoad true h rb fb kb s

/-! ## `mdrain`, `mzero`, `msnap`, `mscan`, `mpred` (R225-R230) -/

/-- The output formats that an accumulator mode reaches (R225). -/
def drainFormat (f : Fmt) (q mode : Bool) : Bool :=
  (if mode then f == .int32 || f == .fp32 || f == .int8 else f != .int32) && q == isDithered f

/-- The reserved slot of an output ring. -/
def State.outTile (t : State) (r : Fin 16) : Nat := let x := t.ringAt r; x.tile x.tail

/-- Reserve the slot at TAIL for a command. -/
def State.reserveOut (t : State) (r : Fin 16) (id : Nat) : State :=
  let x := t.ringAt r
  (t.setRing t.turn.core t.turn.ctx r (some (x.reserve id))).slotOwner t.turn.core x x.tail 1 true

def execMdrain (h : MHdr) (tt c q : Bool) (ro : Fin 16) (acc : Fin 4) (f : Fmt) (ko : Option (Fin 8)) (s : State) :
    Host.Outcome State Fault Refusal :=
  let use (t : State) (r : Fin 8) : DescUse :=
    { addr := (t.rK r).toNat, scaled := q, vec := 1, vecToo := true, mbytes := 0, mrows := 0, mper := 0 }
  mCommand h ko.toList
    (fun t =>
      let x := (t.core t.turn.core).acc.get acc
      orElseT (t.accUse acc) fun _ =>
      orElseT (if drainFormat f q x.i32 then none else some (formatTrap t f)) fun _ =>
      orElseT (t.writeRing ro) fun _ =>
      orElseT t.countWait fun _ =>
      orElseT (t.freeWait ro) fun _ =>
      orElseT (t.setCheck true [t.outTile ro]) fun _ =>
      match ko with
      | none => none
      | some r => orElseT (t.descCheck (use t r).addr) fun _ => t.partsCheck (use t r))
    (fun t =>
      { t.newCmd .drain h.push with
        t := tt, c := c, q := q, acc := acc, fa := f, ra := ro, out := t.outTile ro
        i32 := ((t.core t.turn.core).acc.get acc).i32
        da := ko.map fun r => t.readDesc (use t r) })
    (fun t =>
      let id := (t.cluster (clusterOf t.turn.core)).nextId - 1
      (t.reserveOut ro id).modCore t.turn.core fun x =>
        let y := x.accTake t.turn.ctx
        if tt then { y with acclive := setBit y.acclive acc.val false } else y) s

def execMzero (h : MHdr) (acc : Fin 4) (i32 : Bool) (s : State) : Host.Outcome State Fault Refusal :=
  mCommand h []
    (fun t => orElseT (t.accUse acc) fun _ => t.countWait)
    (fun t => { t.newCmd .zero h.push with acc := acc, i32 := i32 })
    (fun t =>
      t.modCore t.turn.core fun x =>
        let y := x.accTake t.turn.ctx
        { y with
          acclive := setBit y.acclive acc.val true
          acc := y.acc.set acc.val { y.acc.get acc with i32 := i32 } }) s

def execMsnap (h : MHdr) (ro : Fin 16) (acc : Fin 4) (kd : Fin 8) (s : State) : Host.Outcome State Fault Refusal :=
  mCommand h [kd]
    (fun t =>
      orElseT (t.accUse acc) fun _ =>
      orElseT (t.writeRing ro) fun _ =>
      orElseT t.countWait fun _ =>
      orElseT (t.freeWait ro) fun _ => t.setCheck true [t.outTile ro])
    (fun t =>
      let i32 := ((t.core t.turn.core).acc.get acc).i32
      { t.newCmd .snap h.push with
        acc := acc, ra := ro, out := t.outTile ro, kd := kd, i32 := i32, fa := if i32 then .int32 else .fp32 })
    (fun t =>
      let id := (t.cluster (clusterOf t.turn.core)).nextId - 1
      (t.reserveOut ro id).modCore t.turn.core fun x => x.accTake t.turn.ctx) s

def execMpred (h : MHdr) (ra rb : Fin 16) (fa fb : Fmt) (kd kt : Fin 8) (s : State) :
    Host.Outcome State Fault Refusal :=
  mCommand h [kd, kd + 1, kt]
    (fun t =>
      orElseT (if decide (1 ≤ fmtCode fa) && decide (fmtCode fa ≤ 3) then none else some (formatTrap t fa)) fun _ =>
      orElseT (if fb == .bf16 || fb == .fp16 then none else some (formatTrap t fb)) fun _ =>
      orElseT (t.readRing ra 1) fun _ =>
      orElseT (t.readRing rb 1) fun _ =>
      orElseT (if ra == rb then some (t.ringTrap ra) else none) fun _ =>
      orElseT t.countWait fun _ =>
      orElseT (t.fillWait ra 1) fun _ =>
      orElseT (t.fillWait rb 1) fun _ => t.setCheck false (t.nextSlots ra 1 ++ t.nextSlots rb 1))
    (fun t =>
      { t.newCmd .pred h.push with
        ksteps := 1, fa := fa, fb := fb, ra := ra, rb := rb, aSlots := t.nextSlots ra 1, bSlots := t.nextSlots rb 1, kd := kd
        kdata0 := t.rK kt })
    (fun t => (t.claim ra 1).claim rb 1) s

def execMscan (h : MHdr) (ro : Fin 16) (km kb : Fin 8) (s : State) : Host.Outcome State Fault Refusal :=
  mCommand h [km, km + 1, kb]
    (fun t =>
      orElseT (t.writeRing ro) fun _ =>
      orElseT t.countWait fun _ =>
      orElseT (t.freeWait ro) fun _ => t.setCheck true [t.outTile ro])
    (fun t =>
      { t.newCmd .scan h.push with
        ra := ro, out := t.outTile ro, kdata0 := t.rK km, kdata1 := t.rK (km + 1), kbase := t.rK kb })
    (fun t => t.reserveOut ro ((t.cluster (clusterOf t.turn.core)).nextId - 1)) s

end Sys2Proof.Machine
end

