-- ==== Sys2Proof/Machine/MEvents.lean ====
section
/-! DEFINITION. Machine/MEvents.lean: what happens in the matrix array after a command has issued (spec/11 R212, R220-R236). -/
namespace Sys2Proof.Machine
open Sys2Proof

/-- Arguments of a step of a command. -/
def EvArgs.cmd (cl : Fin 64) (id : Nat) : EvArgs := { EvArgs.zero with cl := cl, id := id }

/-! ## Leases (R212) -/

/-- A grant takes effect; a core that asks no more is passed over. -/
def execLeaseGrant (s : State) : Host.Outcome State Fault Refusal :=
  let cl := s.ev.cl
  let c := s.cluster cl
  if c.holder.isSome then .next s
  else
    let i : Fin 8 := Fin.ofNat 8 s.ev.n
    if bit c.requests i.val then .next (s.grant cl i)
    else match c.nextHolder c.last with
      | some j => .next (s.grant cl j)
      | none => .next s

/-- LEASECYC core cycles have passed since the grant. -/
def execLeaseEndCycles (s : State) : Host.Outcome State Fault Refusal :=
  let c := s.cluster s.ev.cl
  if c.holder == some (Fin.ofNat 8 s.ev.n) && c.granted == s.ev.id then .next (s.leaseEnds s.ev.cl) else .next s

/-- The holder has issued LEASECMD commands. -/
def execLeaseEndCommands (s : State) : Host.Outcome State Fault Refusal :=
  let c := s.cluster s.ev.cl
  if c.holder.isSome && decide (c.leasecmd.toNat ≤ c.used) then .next (s.leaseEnds s.ev.cl) else .next s

/-! ## Starts (R222, R233) -/

/-- No command that came before still has its last K-step to start. -/
def Cluster.mayStart (c : Cluster) (id : Nat) : Bool :=
  c.cmds.all fun (a : ArrCmd) => !a.op.cell || decide (id ≤ a.id) || a.lastBegun

/-- The next cell command looks whether it can start. -/
def State.tryStart (s : State) (cl : Fin 64) : State :=
  match (s.cluster cl).cmds.find? fun (a : ArrCmd) => a.op.cell && a.started.isNone with
  | some a => if decide (a.issued + 6 ≤ s.cycle) then s.schedule 0 .arrayCommandStart (EvArgs.cmd cl a.id) else s
  | none => s

/-- The last K-step of a command has started, or it has none to come. -/
def State.lastStep (s : State) (cl : Fin 64) (id : Nat) : State :=
  (s.modCmd cl id fun a => { a with lastBegun := true }).tryStart cl

/-- An earlier command of the core on the accumulator that has not taken effect on it. -/
def State.accEarlier (s : State) (cl : Fin 64) (a : ArrCmd) : Bool :=
  (s.cluster cl).cmds.any fun (b : ArrCmd) =>
    b.core == a.core && b.acc == a.acc && decide (b.id < a.id) && !b.retired &&
      match b.op with
      | .mul => decide (b.landed < b.ksteps)
      | .drain => b.started.isNone
      | .zero => true
      | _ => false

def State.modAcc (s : State) (g : Fin 512) (n : Fin 4) (f : Acc → Acc) : State :=
  s.modCore g fun c => { c with acc := c.acc.set n.val (f (c.acc.get n)) }

/-- The zeroing of a multiply with T = 1, once every earlier command has taken effect. -/
def State.openStep (s : State) (cl : Fin 64) (a : ArrCmd) : State :=
  if a.zeroed then s
  else (s.modAcc a.core a.acc (a.openAcc true)).modCmd cl a.id fun a => { a with zeroed := true }

/-- A started multiply whose zeroing waited for an earlier command looks again. -/
def State.openWaiting (s : State) (cl : Fin 64) : State :=
  match (s.cluster cl).cmds.find? fun (a : ArrCmd) =>
    a.op == .mul && a.t && !a.zeroed && a.started.isSome && !a.retired && !s.accEarlier cl a with
  | some a => s.openStep cl a
  | none => s

/-- A tile-start marker on a ring: the claimed slots at CLM whose reading commands have retired return to free. -/
def State.markRing (s : State) (g : Fin 512) (k : Fin 3) (r : Fin 16) : Nat → State
  | 0 => s
  | n + 1 =>
    match (s.bank g k).ring r with
    | some x =>
      if decide (0 < x.nclaim) && !s.claimBusy g x 1 then State.markRing (s.freeClaimed g k r x 1) g k r n else s
    | none => s

/-- Begin the fetch of a slot: the activation slot of step n, or its weight tile (`flag`). -/
def State.fetchSlot (s : State) (cl : Fin 64) (id n : Nat) (weight : Bool) : State :=
  s.schedule 0 .arraySlotFetch { EvArgs.cmd cl id with n := n, flag := weight }

/-- A command starts in the array; with `flag` the next one of the cluster looks whether it can. -/
def execArrayCommandStart (s : State) : Host.Outcome State Fault Refusal :=
  let cl := s.ev.cl
  if s.ev.flag then .next (s.tryStart cl)
  else match s.cmd cl s.ev.id with
    | none => .next s
    | some a =>
      let c := s.cluster cl
      if a.started.isSome || c.replaying || !c.mayStart a.id then .next s
      else
        let k : Fin 3 := a.bank.castLE (by decide)
        let s := s.modCmd cl a.id fun a => { a with started := some s.cycle, nextStart := 8 * s.cycle }
        match a.op with
        | .mul =>
          let s := if a.t then (s.markRing a.core k a.ra 64) else s
          let s := if a.t && !a.wl then (s.markRing a.core k a.rb 64) else s
          let s := if s.accEarlier cl a then s else s.openStep cl a
          let s :=
            if a.wl then
              let s := s.modCluster cl fun c =>
                match c.latchShadow with
                | some w => { c with latchActive := some w, latchShadow := none }
                | none => c
              let w := (s.cluster cl).latchActive
              s.modCmd cl a.id fun a => { a with wt := w }
            else s
          .next (s.fetchSlot cl a.id 0 false)
        | .wload => .next (s.fetchSlot cl a.id 0 true)
        | _ => .next (s.fetchSlot cl a.id 0 false)

/-! ## Fetches (R185, R221-R224) -/

/-- A command of the array asks for `n` cycles of its core's wide port (`w` = 0) or has had them (`w` = 1): the later cycle at which
its step looks again, while a use of a higher priority stands in the way. -/
def State.wideLate (s : State) (a : ArrCmd) : Option Nat :=
  let t := if s.ev.w = 0 then (s.core a.core).wideFree s.cycle 1 else (s.core a.core).wideEnd s.cycle 1 a.id
  if s.cycle < t then some t else none

/-- The wide port serves a command of the array for `n` cycles. -/
def State.takeWide (s : State) (a : ArrCmd) (i : Instr) (n tile : Nat) : State :=
  (s.useWide a.core 1 a.id n tile).schedule n i { s.ev with w := 1 }

/-- The weight tile of step n of a command, as it lies in its slot. -/
def State.weightTile (s : State) (a : ArrCmd) (n : Nat) : WTile :=
  let t := a.bSlots.getD n 0
  let l := (s.core a.core).tileRows t
  { rows := Vector.ofFn fun (i : Fin 32) => l.getD i.val 0
    fmt := a.fb
    desc := a.db.getD { seed := 0, row0 := 0, col0 := 0, tr := false, smode := 0, vl := 0, nmmode := 0, scale := 0, svec := 0, bits := [] }
    nm := a.nm, step := n, tile := t, src := a.id }

/-- The step interval in eighths of a core cycle (R222, R224). -/
def ArrCmd.interval (a : ArrCmd) (fb : Fmt) (n : Nat) : Nat :=
  let w (f : Fmt) : Nat := fmtBits f
  let full := if w a.fa = 16 || w fb = 16 then 8 else if fb == .d4 || fb == .t5 then 2 else 4
  match a.da with
  | some d => if a.bm && a.sparseSlot d n then full / 2 else full
  | none => full

/-- Step n has its operands: it starts at its exact time, rounded down. -/
def State.stepReady (s : State) (cl : Fin 64) (a : ArrCmd) (n : Nat) : State :=
  let exact := max a.nextStart (8 * s.cycle)
  (s.modCmd cl a.id fun a => { a with nextStart := exact }).scheduleAt (exact / 8) .kStepStart { EvArgs.cmd cl a.id with n := n }

/-- A fetch begins (`w` = 0) when the wide port is free of array and rotation, or ends (`w` = 1), the later for a rotation that
came between. -/
def execArraySlotFetch (s : State) : Host.Outcome State Fault Refusal :=
  let cl := s.ev.cl
  let n := s.ev.n
  match s.cmd cl s.ev.id with
  | none => .next s
  | some a =>
    let tile := if s.ev.flag then a.bSlots.getD n 0 else a.aSlots.getD (n / perSlot a.fa) 0
    match s.wideLate a with
    | some t => .next (s.scheduleAt t .arraySlotFetch s.ev)
    | none =>
    if s.ev.w = 0 then .next (s.takeWide a .arraySlotFetch (if s.ev.flag && a.nm then 8 else 16) tile)
    else if a.lastBegun then .next s
    else if s.ev.flag then
      match a.op with
      | .wload =>
        let w := s.weightTile a 0
        let s := (s.modCluster cl fun c => { c with latchShadow := some w }).arrEvents cl a.id w.events
        .next ((s.lastStep cl a.id).schedule 0 .arrayCommandRetire (EvArgs.cmd cl a.id))
      | .pred => .next (s.stepReady cl a 0)
      | _ =>
        let s := (s.arrEvents cl a.id (s.weightTile a n).events).stepReady cl a n
        if n + 1 < a.ksteps then .next (s.fetchSlot cl a.id (n + 1) ((n + 1) % perSlot a.fa != 0)) else .next s
    else
      let count := match a.da with | some d => a.bm && !a.sparseSlot d n | none => false
      let s := if count then s.modCore a.core fun c => { c with ovfcnt := c.ovfcnt + 1 } else s
      if a.wl then .next (s.stepReady cl a n) else .next (s.fetchSlot cl a.id n true)

/-! ## K-steps (R220-R222) -/

/-- A K-step starts: the halves of the latch swap, and its contribution lands 48 cycles later. -/
def execKStepStart (s : State) : Host.Outcome State Fault Refusal :=
  let cl := s.ev.cl
  let n := s.ev.n
  match s.cmd cl s.ev.id with
  | none => .next s
  | some a =>
    if a.op == .pred then
      .next ((s.lastStep cl a.id).schedule 50 .mpredResult (EvArgs.cmd cl a.id))
    else if a.lastBegun then .next s
    else
      let w := s.weightTile a n
      let s := if a.wl then s else s.modCluster cl fun c => { c with latchActive := some w, latchShadow := none }
      let fb := match a.wt with | some w => w.fmt | none => a.fb
      let s := s.modCmd cl a.id fun a => { a with begun := n + 1, nextStart := a.nextStart + a.interval fb n }
      let s := s.schedule 48 .kStepLanding { EvArgs.cmd cl a.id with n := n }
      if n + 1 = a.ksteps then .next (s.lastStep cl a.id) else .next s

/-- The accumulator after step n of a multiply. -/
def State.stepOf (s : State) (a : ArrCmd) (n : Nat) (x : Acc) : Acc × List ArrEvent :=
  let w := match a.wt with | some w => w | none => s.weightTile a n
  match a.da with
  | some d => a.stepAcc d ((s.core a.core).tileRows (a.aSlots.getD (n / perSlot a.fa) 0)) w n x
  | none => (x, [])

/-- A contribution lands, in ascending order of steps and after every earlier command on the accumulator. With `flag` a single
element fault of a checksummed integer step is corrected: `w` is 32 i + n (R235). -/
def execKStepLanding (s : State) : Host.Outcome State Fault Refusal :=
  let cl := s.ev.cl
  let n := s.ev.n
  match s.cmd cl s.ev.id with
  | none => .next s
  | some a =>
    if a.landed != n || s.accEarlier cl a then .next (s.schedule 1 .kStepLanding s.ev)
    else
      let s := s.openStep cl a
      let r := s.stepOf a n ((s.core a.core).acc.get a.acc)
      let s := (s.modAcc a.core a.acc fun _ => r.1).arrEvents cl a.id r.2
      let s :=
        if s.ev.flag && a.c && !isFloatFmt a.fa then
          let i := s.ev.w.toNat / 32 % 32
          let j := s.ev.w.toNat % 32
          (s.modCore a.core fun c => { c with abftcnt := c.abftcnt + 1 }).arrEvents cl a.id
            [{ kind := 6, step := n, row := (match a.da with | some d => d.row0 | none => 0) + BitVec.ofNat 32 i,
               col := (match a.wt, a.db with | some w, _ => w.desc.col0 | none, some d => d.col0 | none, none => 0) + BitVec.ofNat 32 j,
               i := i, n := j }]
        else s
      let s := s.modCmd cl a.id fun a => { a with landed := n + 1 }
      if decide (a.ksteps ≤ n + 1) then .next (s.schedule 0 .arrayCommandRetire (EvArgs.cmd cl a.id)) else .next s

/-! ## Retirement (R232) -/

/-- Commands that no replay window and nothing in progress needs any more are forgotten. -/
def State.forget (s : State) (cl : Fin 64) : State :=
  let kept (id : Nat) : Bool := (List.finRange 8).any fun i =>
    (s.core (coreAt cl i)).window.any fun (w : ReplayCmd) => w.cluster == cl && w.id == id
  let used (c : Cluster) (id : Nat) : Bool := c.cmds.any fun (b : ArrCmd) => kept b.id && match b.wt with | some w => w.src == id | none => false
  s.modCluster cl fun c => { c with cmds := c.cmds.filter fun (a : ArrCmd) => !a.retired || kept a.id || used c a.id }

/-- What waited for this command's accumulator looks again. -/
def State.wakeAcc (s : State) (cl : Fin 64) (a : ArrCmd) : State :=
  (s.cluster cl).cmds.foldl (fun (s : State) (b : ArrCmd) =>
    if b.core == a.core && b.acc == a.acc && !b.retired && b.started.isNone && decide (b.issued + 6 ≤ s.cycle) then
      match b.op with
      | .drain => s.schedule 0 .drainStart (EvArgs.cmd cl b.id)
      | .zero => s.schedule 0 .mzeroEffect (EvArgs.cmd cl b.id)
      | _ => s
    else s) s

/-- A command retires: its token is pushed, and a waiting command on its accumulator goes on. -/
def execArrayCommandRetire (s : State) : Host.Outcome State Fault Refusal :=
  let cl := s.ev.cl
  match s.cmd cl s.ev.id with
  | none => .next s
  | some a =>
    if a.retired then .next s
    else
      let s := s.modCmd cl a.id fun a => { a with retired := true, lastBegun := true }
      let s := s.pushToken a.core (a.bank.castLE (by decide)) a.push
      .next (((s.openWaiting cl).wakeAcc cl a).forget cl)

/-! ## Slots written by the array (R225, R227, R230, R359) -/

/-- The command has written its slot: it is put in the ring's order, and every command whose slot is put retires. -/
def State.putOut (s : State) (cl : Fin 64) (a : ArrCmd) : State :=
  let k : Fin 3 := a.bank.castLE (by decide)
  let s := (s.modCmd cl a.id fun a => { a with landed := 1 }).ringPutSlot a.core k a.ra a.id
  (s.cluster cl).cmds.foldl (fun (s : State) (b : ArrCmd) =>
    if b.core == a.core && b.bank == a.bank && (b.op == .drain || b.op == .snap || b.op == .scan) && !b.retired &&
        b.landed == 1 && b.ra == a.ra && !s.putWaits b.core k b.ra b.id then
      let s := if b.op == .snap then s.modBank b.core k fun x => { x with k := x.k.set b.kd.val b.kdata0 } else s
      s.schedule 0 .arrayCommandRetire (EvArgs.cmd cl b.id)
    else s) s

/-- An earlier command of the core on the accumulator has not retired. -/
def State.accUnretired (s : State) (cl : Fin 64) (a : ArrCmd) : Bool :=
  (s.cluster cl).cmds.any fun (b : ArrCmd) =>
    b.core == a.core && b.acc == a.acc && decide (b.id < a.id) && !b.retired &&
      (b.op == .mul || b.op == .drain || b.op == .zero || b.op == .snap)

/-- A replay of the accumulator is in progress: nothing reads or zeroes it before its end (R234). -/
def State.accReplaying (s : State) (g : Fin 512) (n : Fin 4) : Bool :=
  s.agenda.any fun (d : Due) => d.what == .arrayReplay && d.args.flag && d.args.g == g && Fin.ofNat 4 d.args.n == n

/-- The accumulator after a drain has read it: with T it is zeroed, and its checksums with it; with C = 0 the checksum state is valid no
longer (R225, R235). -/
def ArrCmd.drained (a : ArrCmd) (x : Acc) : Acc :=
  let x := if a.t then { x.zeroed with crow := 0, ccol := 0 } else x
  { x with sumValid := x.sumValid && a.c }

/-- The drain starts when every earlier command on the accumulator has retired: it reads the tile, compares the checksums,
and with T zeroes the accumulator. A float mismatch asks for a replay; a second one escalates. -/
def execDrainStart (s : State) : Host.Outcome State Fault Refusal :=
  let cl := s.ev.cl
  match s.cmd cl s.ev.id with
  | none => .next s
  | some a =>
    if a.started.isSome || s.accUnretired cl a then .next s
    else if s.accReplaying a.core a.acc then .next (s.schedule 1 .drainStart s.ev)
    else
      let x := (s.core a.core).acc.get a.acc
      let s :=
        if a.c && !x.sumValid then
          s.arrEvents cl a.id [{ kind := 8, step := 255, row := 0, col := 0, i := 0, n := 0 }]
        else s
      if a.c && x.sumValid && !x.sumInt && !x.checks (s.cluster cl).abfttol then
        if a.again then .next (s.rung3 (s.partAt a.core) 42)
        else .next ((s.modCmd cl a.id fun a => { a with again := true }).schedule 0 .arrayReplay
          { EvArgs.cmd cl a.id with g := a.core, n := a.acc.val, flag := false, w := 1 })
      else
        let s := s.modCmd cl a.id fun a => { a with started := some s.cycle, snapRows := x.rows }
        let s := s.modAcc a.core a.acc a.drained
        .next ((s.openWaiting cl).schedule 48 .drainWrite (EvArgs.cmd cl a.id))

/-- The write of a drained tile over the wide port: 16 cycles (`w` = 0 begins it), then the slot is put. -/
def execDrainWrite (s : State) : Host.Outcome State Fault Refusal :=
  let cl := s.ev.cl
  match s.cmd cl s.ev.id with
  | none => .next s
  | some a =>
    match s.wideLate a with
    | some t => .next (s.scheduleAt t .drainWrite s.ev)
    | none =>
    if s.ev.w = 0 then .next (s.takeWide a .drainWrite 16 a.out)
    else
      let rows := (upTo 0 32).map fun i => a.outRow a.i32 (a.snapRows.toList.getD i 0) i
      let s := (rows.zipIdx).foldl (fun (s : State) (r : (List Byte × List ArrEvent) × Nat) =>
        s.spWrite a.core (4096 * a.out + 128 * r.2) r.1.1) s
      .next ((s.arrEvents cl a.id (rows.flatMap fun (r : List Byte × List ArrEvent) => r.2)).putOut cl a)

/-- `mzero` takes effect after every earlier command of the core on the accumulator has retired. -/
def execMzeroEffect (s : State) : Host.Outcome State Fault Refusal :=
  let cl := s.ev.cl
  match s.cmd cl s.ev.id with
  | none => .next s
  | some a =>
    if a.retired || s.accUnretired cl a then .next s
    else if s.accReplaying a.core a.acc then .next (s.schedule 1 .mzeroEffect s.ev)
    else
      let s := s.modAcc a.core a.acc fun x => { x.zeroed with sumValid := false, sumInt := false, crow := 0, ccol := 0 }
      let s := s.modCmd cl a.id fun a => { a with started := some s.cycle }
      .next (s.schedule 0 .arrayCommandRetire (EvArgs.cmd cl a.id))

/-- `msnap`: the tile and the count word are taken at its start, 6 cycles after issue; the slot is written and put 16 + 48
cycles later. -/
def execMsnapWrite (s : State) : Host.Outcome State Fault Refusal :=
  let cl := s.ev.cl
  match s.cmd cl s.ev.id with
  | none => .next s
  | some a =>
    if a.started.isNone && s.accReplaying a.core a.acc then .next (s.schedule 1 .msnapWrite s.ev)
    else if a.started.isNone then
      let rows := ((s.core a.core).acc.get a.acc).rows
      let n := s.rowCount a.core a.acc
      .next ((s.modCmd cl a.id fun a => { a with started := some s.cycle, snapRows := rows, kdata0 := n }).schedule 48
        .msnapWrite (EvArgs.cmd cl a.id))
    else match s.wideLate a with
    | some t => .next (s.scheduleAt t .msnapWrite s.ev)
    | none =>
    if s.ev.w = 0 then .next (s.takeWide a .msnapWrite 16 a.out)
    else
      let s := (upTo 0 32).foldl (fun (s : State) (i : Nat) =>
        s.spWrite a.core (4096 * a.out + 128 * i) (leBytes 128 (a.snapRows.toList.getD i 0).toNat)) s
      .next (s.putOut cl a)

/-- `mpred`: the mask of the live neurons goes to its k pair, 48 cycles after the compute. -/
def execMpredResult (s : State) : Host.Outcome State Fault Refusal :=
  let cl := s.ev.cl
  match s.cmd cl s.ev.id with
  | none => .next s
  | some a =>
    let c := s.core a.core
    let ar := c.tileRows (a.aSlots.getD 0 0)
    let pr := c.tileRows (a.bSlots.getD 0 0)
    let res := (upTo 0 64).map fun n => predNeuron a.fa a.fb ar pr a.kdata0 n
    let mask := (res.zipIdx).foldl (fun (m : Nat) (r : (Bool × List ArrEvent) × Nat) => if r.1.1 then m + 2 ^ r.2 else m) 0
    let s := s.arrEvents cl a.id (res.flatMap fun (r : Bool × List ArrEvent) => r.2)
    let s := s.modBank a.core (a.bank.castLE (by decide)) fun b =>
      { b with k := (b.k.set a.kd.val (BitVec.ofNat 32 mask)).set (a.kd + 1).val (BitVec.ofNat 32 (mask / 2 ^ 32)) }
    .next (s.schedule 0 .arrayCommandRetire (EvArgs.cmd cl a.id))

/-- `mscan`: the list is written in 2 wide cycles and put 4 cycles after the start; the rest of the tile stays. -/
def execMscanWrite (s : State) : Host.Outcome State Fault Refusal :=
  let cl := s.ev.cl
  match s.cmd cl s.ev.id with
  | none => .next s
  | some a =>
    match s.wideLate a with
    | some t => .next (s.scheduleAt t .mscanWrite s.ev)
    | none =>
    if a.started.isNone then
      let s := s.modCmd cl a.id fun a => { a with started := some s.cycle }
      .next ((s.useWide a.core 1 a.id 2 a.out).schedule 4 .mscanWrite { EvArgs.cmd cl a.id with w := 1 })
    else
      let mask := a.kdata0.toNat + a.kdata1.toNat * 2 ^ 32
      let set := (upTo 0 64).filter fun b => mask.testBit b
      let words := set.length :: set.map fun b => (a.kbase + BitVec.ofNat 32 b).toNat
      let s := s.spWrite a.core (4096 * a.out) (words.flatMap fun w => leBytes 4 w)
      .next (s.putOut cl a)

/-! ## Replay (R234) -/

/-- The commands of a window on an accumulator from its most recent marker on; none when no marker lies in the window. -/
def replayList (n : Fin 4) (l : List ReplayCmd) : Option (List ReplayCmd) :=
  l.foldl (fun (r : Option (List ReplayCmd)) (w : ReplayCmd) =>
    if w.acc != some n then r else if w.marker then some [w] else r.map fun x => x ++ [w]) none

/-- A tile is still a claimed slot of one of the bank's rings. -/
def Bank.claimedTile (b : Bank) (t : Nat) : Bool :=
  b.rings.toList.any fun r => match r with
    | some x => (upTo x.clm x.nclaim).any fun i => x.tile i == t
    | none => false

/-- The commands that a replay executes again, with the loads that they latch; none when one is out of the window or one of
its slots was released or is claimed no more. A multiply that has not reached the accumulator yet follows the replay. -/
def State.replayCmds (s : State) (cl : Fin 64) (g : Fin 512) (n : Fin 4) : Option (List ArrCmd) :=
  let kept := (s.core g).window
  match replayList n (kept.filter fun (w : ReplayCmd) => match s.cmd cl w.id with | some a => a.zeroed | none => true) with
  | none => none
  | some l =>
    let cmds := l.filterMap fun (w : ReplayCmd) => s.cmd cl w.id
    let ok := cmds.all fun (a : ArrCmd) =>
      let b := s.bank g (a.bank.castLE (by decide))
      (a.aSlots ++ a.bSlots).all b.claimedTile &&
        match a.wt with
        | some w => kept.any (fun (x : ReplayCmd) => x.id == w.src && !x.released) && b.claimedTile w.tile
        | none => true
    if ok && cmds.length == l.length && l.all (fun (w : ReplayCmd) => !w.released) then some cmds else none

/-- An accumulator after the landed steps of these commands, from zero. -/
def State.rerunAcc (s : State) (cmds : List ArrCmd) (x : Acc) : Acc :=
  cmds.foldl (fun (x : Acc) (a : ArrCmd) =>
    (upTo 0 a.landed).foldl (fun (x : Acc) (n : Nat) =>
      (s.stepOf a n (if n = 0 then a.openAcc true x else x)).1) x) x.zeroed

/-- A replay of accumulator `n` of core `g`: it begins, or ends (`flag`). `w` = 1 names the drain `id` that found a mismatch.
It escalates to interval rollback when it cannot be made, and when an error meets the accumulator in its replay; another accumulator
of the cluster waits for the replay's end. -/
def execArrayReplay (s : State) : Host.Outcome State Fault Refusal :=
  let cl := clusterOf s.ev.g
  let g := s.ev.g
  let n : Fin 4 := Fin.ofNat 4 s.ev.n
  if !s.ev.flag && (s.cluster cl).replaying then
    if s.accReplaying g n then .next (s.rung3 (s.partAt g) 42) else .next (s.schedule 1 .arrayReplay s.ev)
  else
  match s.replayCmds cl g n with
  | none => .next ((s.modCluster cl fun c => { c with replaying := false }).rung3 (s.partAt g) 42)
  | some cmds =>
    if !s.ev.flag then
        let time := cmds.foldl (fun (t : Nat) (a : ArrCmd) => t + 16 * (a.aSlots.length + a.bSlots.length) + 48) 0
        let s := (s.modCluster cl fun c => { c with replaying := true }).modCore g fun c => { c with replays := c.replays + 1 }
        let s := s.modAcc g n Acc.zeroed
        let s := match cmds with
          | a :: _ => s.arrEvents cl a.id [{ kind := 7, step := 0, row := 0, col := 0, i := 0, n := 0 }]
          | [] => s
        .next (s.schedule time .arrayReplay { s.ev with flag := true })
    else
      let x := s.rerunAcc cmds ((s.core g).acc.get n)
      let s := (s.modAcc g n fun _ => x).modCluster cl fun c => { c with replaying := false }
      let s := s.tryStart cl
      if s.ev.w = 1 then .next (s.schedule 0 .drainStart (EvArgs.cmd cl s.ev.id)) else .next s

end Sys2Proof.Machine
end

