-- ==== Sys2Proof/Machine/Job.lean ====
section
/-! DEFINITION. Machine/Job.lean: queues, completion records, the event vector, work IDs, items, nodes, the Steppe and cancels as
shared operations (spec/05 R75-R94, spec/01 R11-R19). -/
namespace Sys2Proof.Machine
open Sys2Proof

/-! ## Queues and their descriptors (R75) -/

def Job.queue (j : Job) (q : Fin 64) : Option Queue := j.queues.get q
def State.queue (s : State) (p : Fin 8) (q : Fin 64) : Option Queue := (s.part p).job.bind fun j => j.queue q
def State.modQueue (s : State) (p : Fin 8) (q : Fin 64) (f : Queue → Queue) : State :=
  s.modJob p fun j => { j with queues := j.queues.set q.val ((j.queues.get q).map f) q.isLt }

/-- VA of a queue's descriptor. -/
def State.descVA (s : State) (p : Fin 8) (q : Fin 64) : Nat :=
  match (s.part p).job with | some j => j.qtbase.toNat + 64 * q.val | none => 0

def Queue.status (x : Queue) : Nat := b01 x.enabled + 2 * b01 x.qovf + 4 * b01 x.cplstall + 8 * b01 x.baddesc

/-- Write the device's fields of a descriptor to memory; TAIL belongs to the device where `lnch` produces. -/
def State.syncQueue (s : State) (p : Fin 8) (q : Fin 64) : State :=
  match s.queue p q with
  | none => s
  | some x =>
    let va := s.descVA p q
    let s := s.rawWriteN p (va + 32) (leBytes 4 x.head.toNat)
    let s := if x.device then s.rawWriteN p (va + 36) (leBytes 4 x.tail.toNat) else s
    (s.rawWriteN p (va + 44) (leBytes 4 x.cpltail.toNat)).rawWriteN p (va + 48) (leBytes 4 x.status)

def State.setQueue (s : State) (p : Fin 8) (q : Fin 64) (f : Queue → Queue) : State := (s.modQueue p q f).syncQueue p q

/-- The VA of entry `n` of a queue. -/
def Queue.entryVA (x : Queue) (n : Word) : Nat := x.base.toNat + 128 * (n.toNat % 2 ^ x.logsize)

/-- Queue `q` takes a look at its head, and tries to dispatch it. -/
def State.pokeQueue (s : State) (p : Fin 8) (q : Fin 64) : State :=
  match s.queue p q with
  | none => s
  | some x =>
    let a := { EvArgs.ofPart p with q := q }
    if !x.enabled || x.head == x.tail then s
    else if x.checked then s.schedule 0 .entryDispatch a
    else s.schedule 0 .queueHeadCheck a

def State.pokeQueues (s : State) (p : Fin 8) : State :=
  (List.finRange 64).foldl (fun (s : State) (q : Fin 64) => s.pokeQueue p q) s

/-! ## Completion records (R78) -/

/-- A work ID (R81). -/
def workId (level queue node : Nat) (seq : Word) : DWord :=
  BitVec.ofNat 64 (level * 2 ^ 60 + queue * 2 ^ 54 + node * 2 ^ 32 + seq.toNat)

/-- Core cycles since the partition started. -/
def State.devTime (s : State) (p : Fin 8) : Nat := s.cycle - (s.part p).startedAt

def recordBits (id tag : DWord) (status : Nat) (reason : Byte) (kind count time : Nat) : BitVec 256 :=
  BitVec.ofNat 256 (id.toNat + tag.toNat * 2 ^ 64 + status * 2 ^ 128 + reason.toNat * 2 ^ 136 + kind * 2 ^ 144 +
    count % 2 ^ 32 * 2 ^ 160 + time * 2 ^ 192)

/-- The completion ring has room: CPLHEAD is the host's, in the descriptor. -/
def State.cplRoom (s : State) (p : Fin 8) (q : Fin 64) (x : Queue) : Bool :=
  decide ((x.cpltail - BitVec.ofNat 32 (s.greadLE p (s.descVA p q + 40) 4)).toNat < 2 ^ x.cpllog)

/-- Write one record at CPLTAIL; MSI-X vector 2 + p fires (spec/23 R336). -/
def State.writeRecord (s : State) (p : Fin 8) (q : Fin 64) (x : Queue) (r : BitVec 256) : State :=
  let s := s.rawWriteN p (x.cplbase.toNat + 32 * (x.cpltail.toNat % 2 ^ x.cpllog)) (leBytes 32 r.toNat)
  (s.setQueue p q fun x => { x with cpltail := x.cpltail + 1 }).modDev fun d => { d with msix := d.msix ++ [2 + p.val] }

/-- A record is written, or held behind those that wait for room. -/
def State.putRecord (s : State) (p : Fin 8) (q : Fin 64) (r : BitVec 256) : State :=
  match s.queue p q with
  | none => s
  | some x =>
    if x.baddesc then s
    else if x.held.isEmpty && s.cplRoom p q x then s.writeRecord p q x r
    else s.setQueue p q fun x => { x with held := x.held ++ [r], cplstall := true }

/-- Write held records while there is room; the queue dispatches again when none is left. -/
def State.drainRecords (p : Fin 8) (q : Fin 64) : Nat → State → State
  | 0, s => s
  | n + 1, s =>
    match s.queue p q with
    | none => s
    | some x =>
      match x.held with
      | [] => (s.setQueue p q fun x => { x with cplstall := false }).pokeQueue p q
      | r :: l =>
        if s.cplRoom p q x then
          State.drainRecords p q n ((s.writeRecord p q x r).setQueue p q fun x => { x with held := l })
        else s

/-! ## Launch records and set tables (spec/01 R16-R19) -/

/-- The masks of a set-table entry: read, write. -/
def State.setMask (s : State) (p : Fin 8) (va entry : Nat) (wr : Bool) : BitVec 768 :=
  BitVec.ofNat 768 (s.greadLE p (va + 256 * entry + (if wr then 96 else 0)) 96)

/-- The 128 bytes at an address as a launch record. -/
def State.launchAt (s : State) (p : Fin 8) (va : Nat) : LaunchRec :=
  let w (i : Nat) : DWord := BitVec.ofNat 64 (s.greadLE p (va + 8 * i) 8)
  let w1 := w 1
  { image := w 0, lease := bit w1 42, dprom := w1.extractLsb' 40 2, detm := bit w1 39, prio := field w1 32 7, width := field w1 0 32,
    param := w 2, sets := w 3, flagBind := w 4, flagInit := w 5, colmask := (w 6).setWidth 32, tag := w 7,
    wait := BitVec.ofNat 256 (s.greadLE p (va + 64) 32), set := BitVec.ofNat 256 (s.greadLE p (va + 96) 32) }

/-- Bindings and initial counts that break R17. -/
def badFlags (bind init : DWord) : Bool :=
  (upTo 0 16).any fun n =>
    let a := field bind (4 * n) 2
    let b := field bind (4 * n + 2) 2
    if a == 3 || b == 3 then !(a == 3 && b == 3 && field init (4 * n) 4 == 0) else a == b

/-- An address for a structure aligned to 64 bytes. -/
def alignedVA (va : DWord) : Bool := va.toNat % 64 == 0 && canonical va.toNat

/-- The lowest failing code of R18; none when the record is accepted. -/
def State.checkLaunch (s : State) (p : Fin 8) (va : Nat) : Option Nat :=
  let r := s.launchAt p va
  let w (i : Nat) : DWord := BitVec.ofNat 64 (s.greadLE p (va + 8 * i) 8)
  let img := if alignedVA r.image then s.readImage p r.image.toNat else none
  let setsOk := alignedVA r.sets
  let res := field (w 1) 43 21 != 0 || field (w 6) 32 32 != 0 || decide (2 ≤ r.dprom.toNat) ||
    (setsOk && (upTo 0 3).any fun e => s.greadLE p (r.sets.toNat + 256 * e + 192) 64 != 0)
  if res then some 1
  else if r.width = 0 || (match img with | some i => i.pwidth != 0 && i.pwidth.toNat != r.width | none => false) then some 2
  else match img with
    | none => some 3
    | some i =>
      if !setsOk then some 3
      else if badFlags r.flagBind r.flagInit then some 4
      else if (r.dprom == 1 && i.iflags.testBit 0) || r.lease != i.iflags.testBit 1 then some 5
      else none

/-- The set table of a record breaks R19: a write mask meets a mask of another entry. -/
def State.setsOverlap (s : State) (p : Fin 8) (r : LaunchRec) : Bool :=
  (upTo 0 3).any fun i => (upTo 0 3).any fun k =>
    i != k && (s.setMask p r.sets.toNat i true &&& (s.setMask p r.sets.toNat k false ||| s.setMask p r.sets.toNat k true)) != 0

/-! ## Graph headers and node tables (R82, R83) -/

structure GraphHdr where
  nodes : Nat
  je : Bool
  pb : Bool
  prio : Nat
  ncount : Nat
  tag : DWord
  wait : BitVec 256
  set : BitVec 256
  deriving DecidableEq, Repr

def State.graphAt (s : State) (p : Fin 8) (va : Nat) : GraphHdr :=
  let w1 : DWord := BitVec.ofNat 64 (s.greadLE p (va + 8) 8)
  { nodes := s.greadLE p va 8, je := bit w1 40, pb := bit w1 39, prio := field w1 32 7, ncount := field w1 0 13,
    tag := BitVec.ofNat 64 (s.greadLE p (va + 16) 8), wait := BitVec.ofNat 256 (s.greadLE p (va + 24) 32),
    set := BitVec.ofNat 256 (s.greadLE p (va + 56) 32) }

/-- The check of a header at the head of its queue. -/
def State.checkHeader (s : State) (p : Fin 8) (va : Nat) : Option Nat :=
  let h := s.graphAt p va
  let w1 : DWord := BitVec.ofNat 64 (s.greadLE p (va + 8) 8)
  if field w1 41 23 != 0 || field w1 13 19 != 0 || s.greadLE p (va + 88) 40 != 0 || (h.ncount = 0 && !h.pb) ||
      (h.je && (!h.pb || h.ncount != 0)) || decide (4096 < h.ncount) then some 1
  else if h.nodes % 64 != 0 || !canonical h.nodes then some 2
  else none

/-- One entry of a node table. -/
structure NodeEntry where
  obj : DWord
  kind : Nat
  drank : Nat
  npred : Nat
  succs : List Nat
  reserved : Bool
  deriving DecidableEq, Repr

def State.nodeAt (s : State) (p : Fin 8) (h : GraphHdr) (i : Nat) : NodeEntry :=
  let va := h.nodes + 32 * i
  let off := s.greadLE p (va + 14) 2
  { obj := BitVec.ofNat 64 (s.greadLE p va 8), kind := s.greadLE p (va + 8) 1, drank := s.greadLE p (va + 9) 1,
    npred := s.greadLE p (va + 10) 2, reserved := s.greadLE p (va + 16) 16 != 0
    succs := (upTo off (s.greadLE p (va + 12) 2)).map fun k => s.greadLE p (h.nodes + 32 * h.ncount + 2 * k) 2 }

def State.nodesAt (s : State) (p : Fin 8) (h : GraphHdr) : List NodeEntry := (upTo 0 h.ncount).map fun i => s.nodeAt p h i

/-- The check of the node table and the records it names. -/
def State.checkNodes (s : State) (p : Fin 8) (l : List NodeEntry) : Option Nat :=
  let succs := l.flatMap fun n => n.succs
  if l.any fun n => n.reserved || decide (3 ≤ n.kind) then some 1
  else if l.any fun n => decide ((s.part p).ndies ≤ n.drank) then some 2
  else if l.zipIdx.any fun x => x.1.succs.any fun k => decide (k ≤ x.2) || decide (l.length ≤ k) then some 3
  else if l.zipIdx.any fun x => (succs.filter fun k => k == x.2).length != x.1.npred then some 4
  else if l.any fun n => n.kind == 0 && (s.checkLaunch p n.obj.toNat).isSome then some 5
  else none

/-! ## Items and nodes (R81, R84) -/

def State.modItem (s : State) (p : Fin 8) (num : Nat) (f : Item → Item) : State :=
  s.modJob p fun j => { j with items := j.items.map fun (i : Item) => if i.num == num then f i else i }
def State.item (s : State) (p : Fin 8) (num : Nat) : Option Item :=
  match (s.part p).job with | some j => j.items.find? fun (i : Item) => i.num == num | none => none
def State.modNode (s : State) (p : Fin 8) (num n : Nat) (f : NodeSt → NodeSt) : State :=
  s.modItem p num fun i => { i with nodes := i.nodes.modify n f }
/-- A node finishes: the graph's counter goes down by one (R11). -/
def State.finishNode (s : State) (p : Fin 8) (num n : Nat) (f : NodeSt → NodeSt) : State :=
  s.modItem p num fun i => { i with nodes := i.nodes.modify n fun y => { f y with finished := true }, left := i.left - 1 }
def State.node (s : State) (p : Fin 8) (num n : Nat) : Option NodeSt := (s.item p num).bind fun i => i.nodes[n]?

/-- The most recent item of a queue at a position. -/
def Job.itemAt (j : Job) (q : Nat) (seq : Word) (graph : Bool) : Option Item :=
  lastWith (fun (i : Item) => i.queue.val == q && i.seq == seq && i.isGraph == graph) j.items

/-- The item and the node of a unit's launch. -/
def State.unitNode (s : State) (u : UnitInfo) : Option (Item × Nat) :=
  match (s.part u.part).job with
  | none => none
  | some j =>
    let node := field u.launch 32 16
    (j.itemAt (field u.launch 54 6) (u.launch.setWidth 32) (node != 0)).map fun i => (i, node - 1)

/-- Cores of a partition. -/
def State.ncores (s : State) (p : Fin 8) : Nat := 64 * (s.part p).ndies

/-- Units below `n` that run on a die rank (R90). -/
def unitsBelow (ncores rank n : Nat) : Nat :=
  if ncores = 0 then 0 else n / ncores * 64 + min 64 (n % ncores - 64 * rank)

/-- The unit of a rank after unit `i`. -/
def nextUnit (ncores i : Nat) : Nat := if (i + 1) % 64 != 0 then i + 1 else i + 1 + ncores - 64

/-- A node as it stands at dispatch, a launch with the set masks that were checked there. -/
def NodeSt.fresh (k : NodeKind) (preds : Nat) (succs : List Nat) (ncores width : Nat) (rd wr : Vector (BitVec 768) 3) : NodeSt :=
  { kind := k, preds := preds, succs := succs, ready := false, finished := false, status := 0, reason := 0, left := width, ok := 0,
    next := Vector.ofFn fun r => if 64 * r.val < ncores then 64 * r.val else 2 ^ 33, dropped := [], rd := rd, wr := wr }

/-- The union of masks. -/
def unionMasks (rd wr : Vector (BitVec 768) 3) : BitVec 768 := (rd.toList ++ wr.toList).foldl (fun (m x : BitVec 768) => m ||| x) 0

/-- All the tiles a unit declares, and those that the units of a launch node will declare. -/
def UnitInfo.tiles (u : UnitInfo) : BitVec 768 := unionMasks u.rd u.wr
def NodeSt.tiles (x : NodeSt) : BitVec 768 := unionMasks x.rd x.wr

/-- The masks of a record's set table. -/
def State.launchMasks (s : State) (p : Fin 8) (r : LaunchRec) (wr : Bool) : Vector (BitVec 768) 3 :=
  Vector.ofFn fun e => s.setMask p r.sets.toNat e.val wr

/-! ## The event vector (R79, R80) -/

/-- One operation on the vector of a context, and a new look at the heads that wait for bits. -/
def State.eventOp (s : State) (p : Fin 8) (ctx : Fin 8) (f : BitVec 256 → BitVec 256) : State :=
  (s.modJob p fun j => { j with ev := j.ev.set ctx.val (f (j.ev.get ctx)) ctx.isLt }).pokeQueues p

/-! ## The Steppe (R85, R88) -/

def steppeDepth : Nat := 4096

/-- A node enters a die's Steppe, or waits outside a full one. -/
def State.addSlot (s : State) (d : Fin 8) (x : Slot) : State :=
  (s.modDie d fun y =>
    if decide (y.steppe.length < steppeDepth) then { y with steppe := y.steppe ++ [{ x with entered := s.cycle }] }
    else { y with outside := y.outside ++ [x] }).schedule 0 .unitDispatch (EvArgs.ofDie d)

/-- Slots leave a die's Steppe; nodes waiting outside enter, one for each freed slot. -/
def State.dropSlots (s : State) (d : Fin 8) (p : Slot → Bool) : State :=
  s.modDie d fun y =>
    let kept := y.steppe.filter fun x => !p x
    let out := y.outside.filter fun x => !p x
    let room := steppeDepth - kept.length
    { y with steppe := kept ++ (out.take room).map fun (x : Slot) => { x with entered := s.cycle }, outside := out.drop room }

/-- Core cycles of an aging interval. -/
def Part.ageCycles (q : Part) : Nat := q.ageq.toNat * usCycles

/-- The effective priority of a waiting node. -/
def Slot.prio (x : Slot) (age now : Nat) : Nat :=
  if age = 0 then min x.cap x.base else min x.cap (x.base + (now - x.entered) / age)

/-- A ready node takes a slot on every die on which it will run. -/
def State.enterSteppe (s : State) (p : Fin 8) (i : Item) (n : Nat) : State :=
  match i.nodes[n]?, s.queue p i.queue with
  | some x, some q =>
    let prio := match x.kind with | .launch r => if i.isGraph then min r.prio i.prio else r.prio | _ => i.prio
    let base := min prio q.qprio
    let slot : Slot :=
      { part := p, item := i.num, node := n, entered := s.cycle, base := base, cap := max q.qcap base, queue := i.queue, seq := i.seq,
        resume := none }
    let ranks := match x.kind with
      | .launch r => (upTo 0 8).filter fun k => decide (0 < unitsBelow (s.ncores p) k r.width)
      | .copy _ k => [k]
      | .host _ => [0]
    let s := s.modNode p i.num n fun y => { y with ready := true }
    ranks.foldl (fun (s : State) (k : Nat) => match s.dieOfRank p k with | some d => s.addSlot d slot | none => s) s
  | _, _ => s

/-! ## Completion of nodes and items (R11, R12, R79, R84) -/

/-- The most graphs that a phase counts at one time (R11). -/
def maxGraphs : Nat := 65535

/-- An item completes: its record, its event bits when ok, and the phase's counter, which goes down by one. Heads that wait for
room in a full counter are looked at again. -/
def State.itemDone (s : State) (p : Fin 8) (i : Item) : State :=
  let status := i.nodes.foldl (fun (m : Nat) (n : NodeSt) => max m n.status) 0
  let reason : Byte := match i.nodes.find? fun (n : NodeSt) => n.status == status with | some n => n.reason | none => 0
  let count := if i.isGraph then (i.nodes.filter fun (n : NodeSt) => n.status == 0).length
    else match i.nodes with | n :: _ => n.ok | [] => 0
  let s := s.modItem p i.num fun x => { x with finished := true, status := status, reason := reason, left := 0 }
  let id := workId (if i.isGraph then 2 else 1) i.queue.val 0 i.seq
  let s := s.putRecord p i.queue (recordBits id i.tag status reason (b01 i.isGraph) count (s.devTime p))
  let full := match (s.part p).job with | some j => j.phase.graphs == maxGraphs | none => false
  let s := s.modJob p fun j =>
    { j with
      phase := { j.phase with
        graphs := j.phase.graphs - 1
        okGraphs := j.phase.okGraphs + b01 (status == 0)
        status := max j.phase.status status
        reason := if j.phase.status < status then reason else j.phase.reason } }
  let ctx : Fin 8 := match s.queue p i.queue with | some q => q.ctx | none => 0
  let s := if status = 0 then s.eventOp p ctx (fun e => e ||| i.set) else s
  let s := if full then s.pokeQueues p else s
  match (s.part p).job with
  | some j => if j.phase.closing then s.schedule 0 .phaseClose (EvArgs.ofPart p) else s
  | none => s

/-- What becomes of node `n` once some nodes have finished: a bad predecessor passes its status on, good ones make it ready. -/
def settleNode (l : List NodeSt) (n : Nat) : Option (Nat × Byte) ⊕ Bool :=
  let preds := (l.take n).filter fun (x : NodeSt) => x.succs.contains n
  match preds.find? fun (x : NodeSt) => x.finished && x.status != 0 with
  | some x => .inl (some (preds.foldl (fun (m : Nat) (y : NodeSt) => if y.finished then max m y.status else m) 0, x.reason))
  | none => .inr (preds.all fun (x : NodeSt) => x.finished)

/-- Go once through the nodes of an item, in ascending order, which every edge follows; then the item is done when its counter
stands at zero. -/
def State.settle (s : State) (p : Fin 8) (num : Nat) : State :=
  match s.item p num with
  | none => s
  | some i =>
    let s := (upTo 0 i.nodes.length).foldl (fun (s : State) (n : Nat) =>
      match s.item p num with
      | none => s
      | some i =>
        match i.nodes[n]? with
        | none => s
        | some x =>
          if x.finished || x.ready then s
          else match settleNode i.nodes n with
            | .inl (some (st, why)) => s.finishNode p num n fun y => { y with status := st, reason := why }
            | .inl none => s
            | .inr true => s.enterSteppe p i n
            | .inr false => s) s
    match s.item p num with
    | some i => if !i.finished && i.left == 0 then s.itemDone p i else s
    | none => s

/-- A node completes. -/
def State.nodeDone (s : State) (p : Fin 8) (num n status : Nat) (reason : Byte) : State :=
  match s.node p num n with
  | none => s
  | some x =>
    if x.finished then s
    else (s.finishNode p num n fun y =>
      { y with status := max y.status status, reason := if y.status < status then reason else y.reason }).settle p num

/-- Units of a launch complete with a status; the last one completes the node (R11). -/
def State.unitsDone (s : State) (p : Fin 8) (num n units status : Nat) (reason : Byte) : State :=
  if units = 0 then s
  else
    let s := s.modNode p num n fun y =>
      { y with
        left := y.left - units, ok := if status = 0 then y.ok + units else y.ok, status := max y.status status
        reason := if y.status < status then reason else y.reason }
    match s.node p num n with
    | some y => if y.left = 0 then s.nodeDone p num n y.status y.reason else s
    | none => s

/-! ## Cancels (R13, R94) -/

/-- Mark a running unit: it stops at its next bundle boundary, or when it would next resume if a trap or a fault has it. A unit
whose counter stands at zero is not marked. -/
def State.markUnit (s : State) (g : Fin 512) (k : Fin 2) : State :=
  let kb : Fin 3 := k.castLE (by decide)
  if (s.bank g kb).unit.isNone || (s.bank g kb).cancelled || (s.bank g kb).left == 0 then s
  else (s.modBank g kb fun b => { b with cancelled := true }).schedule 0 .cancelStop (EvArgs.at g kb)

/-- The entries of a unit that completes by cancel or fault are discarded (spec/12 R247). -/
def State.dropOred (s : State) (u : UnitInfo) : State :=
  let keep (e : OredEntry) : Bool := !(e.work == u.launch && e.unit == u.index)
  (s.partDies u.part).foldl (fun (s : State) (x : Fin 8) =>
    s.modDie x fun y => { y with hbmStacks := y.hbmStacks.map fun (t : Stack) => { t with ored := t.ored.filter keep } }) s

/-- Tiles of a set return to the streams. -/
def Core.ownZero (c : Core) (m : BitVec 768) : Core := { c with owner := c.owner &&& ~~~m }

/-- The tiles of the units that stand in the banks of a core. -/
def Core.tilesHeld (c : Core) : BitVec 768 :=
  c.banks.toList.foldl (fun (m : BitVec 768) (b : Bank) => match b.unit with | some u => m ||| u.tiles | none => m) 0

/-- A saved unit completes by cancel: its ordered reductions go, and its tiles return to the streams, but for those that a unit now
on its core declares (R93, R247, spec/10 R187). -/
def State.endSaved (s : State) (g : Fin 512) (b : Bank) (u : UnitInfo) : State :=
  let s := (s.dropOred u).modCore g fun c => c.ownZero ((u.tiles ||| b.handed) &&& ~~~c.tilesHeld)
  match s.unitNode u with
  | some (i, n) => s.unitsDone u.part i.num n 1 1 0
  | none => s

/-- The saved units of a partition that meet a test complete by cancel and never resume (R93); a barrier may then find its members
complete (spec/12 R248). -/
def State.dropSaved (s : State) (p : Fin 8) (hit : UnitInfo → Bool) : State :=
  let mine (y : Nat × Bank) : Bool := match y.2.unit with | some u => hit u | none => false
  (s.partDies p).foldl (fun (s : State) (d : Fin 8) =>
    let gone := (s.die d).saved.filter mine
    if gone.isEmpty then s
    else
      let home (n : Nat) : Option (Fin 512) :=
        ((s.die d).steppe ++ (s.die d).outside).findSome? fun (x : Slot) =>
          match x.resume with | some (g, _, m) => (if m == n then some g else none) | none => none
      let s := s.modDie d fun x => { x with saved := x.saved.filter fun y => !mine y }
      let places := gone.map fun (y : Nat × Bank) => (home y.1, y.2)
      let s := s.dropSlots d fun (x : Slot) => match x.resume with
        | some (_, _, n) => gone.any fun (y : Nat × Bank) => y.1 == n
        | none => false
      (places.foldl (fun (s : State) (y : Option (Fin 512) × Bank) =>
        match y.1, y.2.unit with
        | some g, some u => s.endSaved g y.2 u
        | _, _ => s) s).colCheck p d) s

/-- Cancel a node: its undispatched units and slots go, its running units and copy command are marked. -/
def State.cancelNode (s : State) (p : Fin 8) (num n : Nat) : State :=
  match s.item p num with
  | none => s
  | some i =>
    match i.nodes[n]? with
    | none => s
    | some x =>
      if x.finished then s
      else
        let s := (s.partDies p).foldl (fun (s : State) (d : Fin 8) =>
          (s.dropSlots d fun (y : Slot) => y.part == p && y.item == num && y.node == n && y.resume.isNone).colCheck p d) s
        if !x.ready then s.nodeDone p num n 1 0
        else match x.kind with
          | .host _ => s.nodeDone p num n 1 0
          | .copy _ r =>
            match s.dieOfRank p r with
            | none => s
            | some d =>
              match (s.die d).copies.find? fun (c : CopyCmd) => c.node == some (p, num, n) with
              | none => s.nodeDone p num n 1 0
              | some c =>
                if c.st == .running then s.modCopy d c.id fun c => { c with stopping := true }
                else (s.modCopy d c.id fun c => { c with st := .failed 6 }).schedule 0 .copyCommandComplete { EvArgs.ofDie d with id := c.id }
          | .launch r =>
            let mine (u : UnitInfo) : Bool := match s.unitNode u with | some (j, m) => j.num == num && m == n | none => false
            let nc := s.ncores p
            let undone := (upTo 0 8).foldl (fun (t : Nat) (k : Nat) =>
              let nx := x.next.toList.getD k (2 ^ 33)
              t + (unitsBelow nc k r.width - unitsBelow nc k nx) -
                (x.dropped.filter fun u => u % nc / 64 == k && decide (nx ≤ u)).length) 0
            let s := s.modNode p num n fun y => { y with next := Vector.replicate 8 (2 ^ 33) }
            let s := (s.partUnits p).foldl (fun (s : State) (y : Fin 512 × Fin 2) =>
              match (s.bank y.1 (y.2.castLE (by decide))).unit with
              | some u => if mine u then s.markUnit y.1 y.2 else s
              | none => s) s
            (s.unitsDone p num n undone 1 0).dropSaved p mine

/-- Cancel an item: nodes not yet ready first, from the last to the first. -/
def State.cancelItem (s : State) (p : Fin 8) (num : Nat) : State :=
  match s.item p num with
  | none => s
  | some i =>
    if i.finished then s
    else (upTo 0 i.nodes.length).reverse.foldl (fun (s : State) (n : Nat) => s.cancelNode p num n) s

/-- An item that ended without running. -/
def Item.ended (num : Nat) (q : Fin 64) (seq : Word) (graph : Bool) (width : Nat) (tag : DWord) (status : Nat) (reason : Byte) : Item :=
  { num := num, queue := q, seq := seq, isGraph := graph, prio := 0, tag := tag, set := 0, nodes := [], left := 0, width := width,
    finished := true, status := status, reason := reason }

/-- An entry of a queue ends without running: its record, and an item that `lwait` finds complete. -/
def State.endEntry (s : State) (p : Fin 8) (q : Fin 64) (seq : Word) (status : Nat) (reason : Byte) : State :=
  match s.queue p q with
  | none => s
  | some x =>
    let va := x.entryVA seq
    let tag := if x.graph then (s.graphAt p va).tag else (s.launchAt p va).tag
    let width := if x.graph then 0 else (s.launchAt p va).width
    let id := workId (if x.graph then 2 else 1) q.val 0 seq
    let s := s.putRecord p q (recordBits id tag status reason (if status = 3 then 5 else b01 x.graph) 0 (s.devTime p))
    s.modJob p fun j =>
      { j with
        nextItem := j.nextItem + 1
        items := j.items ++ [Item.ended j.nextItem q seq x.graph width tag status reason] }

/-- HEAD moves past the entry at the head, and past entries cancelled in the queue. -/
def skipCancelled : Nat → Queue → Queue
  | 0, x => x
  | n + 1, x =>
    if x.head != x.tail && x.cancelled.contains x.head then
      skipCancelled n { x with head := x.head + 1, cancelled := x.cancelled.filter fun w => w != x.head }
    else x

def State.advance (s : State) (p : Fin 8) (q : Fin 64) : State :=
  let s := (s.setQueue p q fun x => skipCancelled x.cancelled.length { x with head := x.head + 1, checked := false }).pokeQueue p q
  match (s.part p).job with
  | some j => if j.phase.closing then s.schedule 0 .phaseClose (EvArgs.ofPart p) else s
  | none => s

/-- Cancel an entry that waits in its queue. -/
def State.cancelEntry (s : State) (p : Fin 8) (q : Fin 64) (seq : Word) : State :=
  match s.queue p q with
  | none => s
  | some x =>
    let s := s.endEntry p q seq 1 0
    if x.head == seq then s.advance p q else s.setQueue p q fun x => { x with cancelled := x.cancelled ++ [seq] }

/-- A position lies in the queue. -/
def Queue.waiting (x : Queue) (seq : Word) : Bool := decide ((seq - x.head).toNat < (x.tail - x.head).toNat) && !x.cancelled.contains seq

/-- Consume every waiting entry of a queue by cancel. -/
def State.cancelQueue (s : State) (p : Fin 8) (q : Fin 64) : State :=
  match s.queue p q with
  | none => s
  | some x =>
    let s := (upTo 0 (x.tail - x.head).toNat).foldl (fun (s : State) (n : Nat) =>
      let seq := x.head + BitVec.ofNat 32 n
      if x.cancelled.contains seq then s else s.endEntry p q seq 1 0) s
    s.setQueue p q fun x => { x with head := x.tail, checked := false, cancelled := [] }

/-- Every open item of the job is cancelled. -/
def State.cancelItems (s : State) (p : Fin 8) (hit : Item → Bool) : State :=
  match (s.part p).job with
  | none => s
  | some j => ((j.items.filter hit).filter fun (i : Item) => !i.finished).foldl (fun (s : State) (i : Item) => s.cancelItem p i.num) s

/-- Every queue of the job is disabled and its waiting entries complete by cancel. -/
def State.disableQueues (s : State) (p : Fin 8) : State :=
  (List.finRange 64).foldl (fun (s : State) (q : Fin 64) =>
    match s.queue p q with
    | none => s
    | some _ => (s.cancelQueue p q).setQueue p q fun x => { x with enabled := false }) s

end Sys2Proof.Machine
end

