-- ==== Sys2Proof/Machine/Launch.lean ====
section
/-! DEFINITION. Machine/Launch.lean: the launch instructions of the A stream and their event operations (spec/05 R95-R97). -/
namespace Sys2Proof.Machine
open Sys2Proof

/-! ## What a work ID names (R81) -/

/-- An entry in its queue, an item, a launch inside a graph, an item or a launch of `width` units that counts as complete by its
age, the open phase, a completed one, the job, or nothing. -/
inductive IdRef where
  | nothing
  | entry (q : Fin 64) (seq : Word)
  | item (i : Item)
  | node (i : Item) (n : Nat)
  | aged (width : Option Nat) (status : Nat)
  | phase
  | past (status : Nat)
  | job
  deriving DecidableEq, Repr

/-- An item, or, where its position lies more than 2^31 entries behind TAIL, what counts as complete (R81). -/
def Queue.named (x : Queue) (i : Item) : IdRef :=
  if decide (2 ^ 31 < (x.tail - i.seq).toNat) then
    .aged (if i.isGraph then none else some i.width) (if i.finished then i.status else Config.agedStatus i.num % 3)
  else .item i

/-- A launch inside a graph, by its node. -/
def Queue.namedNode (x : Queue) (i : Item) (n : Nat) : IdRef :=
  match i.nodes[n]? with
  | none => .nothing
  | some y =>
    match y.kind with
    | .launch r =>
      if decide (2 ^ 31 < (x.tail - i.seq).toNat) then
        .aged (some r.width) (if y.finished then y.status else Config.agedStatus i.num % 3)
      else .node i n
    | _ => .nothing

def State.resolve (s : State) (p : Fin 8) (id : DWord) : IdRef :=
  match (s.part p).job with
  | none => .nothing
  | some j =>
    let seq : Word := id.setWidth 32
    let node := field id 32 16
    let q : Fin 64 := Fin.ofNat 64 (field id 54 6)
    if bit id 63 || field id 48 6 != 0 then .nothing
    else match field id 60 3 with
      | 4 => .job
      | 3 =>
        if seq.toNat = j.phase.num then .phase
        else match j.past[seq.toNat]? with | some st => .past st | none => .nothing
      | 1 =>
        match j.queue q with
        | none => .nothing
        | some x =>
          if node = 0 then
            if x.graph then .nothing
            else if x.waiting seq then .entry q seq
            else match j.itemAt q.val seq false with | some i => x.named i | none => .nothing
          else match j.itemAt q.val seq true with | some i => x.namedNode i (node - 1) | none => .nothing
      | 2 =>
        match j.queue q with
        | none => .nothing
        | some x =>
          if !x.graph || node != 0 then .nothing
          else if x.waiting seq then .entry q seq
          else match j.itemAt q.val seq true with | some i => x.named i | none => .nothing
      | _ => .nothing

/-! ## `lnch` -/

/-- A result and a push that come `n` cycles after the word issued. -/
def State.wrALater (t : State) (d : Fin 32) (v : DWord) (n : Nat) (push : Option (Fin 16)) : State :=
  if d.val < 28 then (t.wrA d v n).retireLater n push 0 0
  else
    let id := t.tb.nextId
    (t.modTb fun b => { b.reserveAX (d.val - 28) ((v.setWidth 32).setWidth 1024) with pa := b.pa + 1 }).retireLater n push
      (d.val - 27) id

/-- Why `lnch` returns without producing: 16 for a queue it may not use, the code of R18 for a bad record. -/
def State.lnchRefusal (s : State) (p : Fin 8) (q : Fin 64) (va : Nat) : Option Nat :=
  match s.queue p q with
  | none => some 16
  | some x => if !x.enabled || !x.device then some 16 else if x.graph then none else s.checkLaunch p va

def State.lnchFull (s : State) (p : Fin 8) (q : Fin 64) : Bool :=
  match s.queue p q with | none => false | some x => decide (2 ^ x.logsize ≤ (x.tail - x.head).toNat)

/-- Produce the 128 bytes at an address into a queue. -/
def State.produce (s : State) (p : Fin 8) (q : Fin 64) (va : Nat) : State :=
  match s.queue p q with
  | none => s
  | some x =>
    let s := s.rawWriteN p (x.entryVA x.tail) (s.greadN p va 128)
    (s.setQueue p q fun x => { x with tail := x.tail + 1 }).pokeQueue p q

def execLnch (h : AHdr) (d r : Fin 32) (q : Fin 64) (s : State) : Host.Outcome State Fault Refusal :=
  let va := (s.rA r).toNat
  let p := s.tb.part
  aWord h [r] [d] []
    (fun t =>
      if t.tb.sealed then some (t.trap 19 0 0)
      else if va % 64 != 0 then some (t.trap 7 (BitVec.ofNat 64 va) 0)
      else match s.readBlock t 0 va 128 with
        | some u => some u
        | none =>
          if (t.lnchRefusal p q va).isSome then none
          else if t.lnchFull p q then some (t.stall 10 (BitVec.ofNat 64 (3 * 2 ^ 32 + q.val)))
          else if !t.released t.turn.core t.turn.ctx .device then some (t.stall wOwner 0)
          else none)
    (fun t =>
      match s.lnchRefusal p q va with
      | some k => (t.wrA d (BitVec.ofNat 64 (2 ^ 63 + k)) 1).retirePush h.push
      | none =>
        match s.queue p q with
        | none => t
        | some x =>
          (t.produce p q va).wrALater d (workId (if x.graph then 2 else 1) q.val 0 x.tail) 24 h.push) s

/-! ## `lcancel` and `lwait` -/

/-- Cancel what an ID names: the new state and the status. -/
def State.cancelRef (s : State) (p : Fin 8) (r : IdRef) : State × Nat :=
  match r with
  | .nothing => (s, 2)
  | .entry q seq => (s.cancelEntry p q seq, 0)
  | .item i => if i.finished then (s, 1) else (s.cancelItem p i.num, 0)
  | .node i n =>
    match i.nodes[n]? with
    | some x => if x.finished then (s, 1) else (s.cancelNode p i.num n, 0)
    | none => (s, 2)
  | .past _ => (s, 1)
  | .aged _ _ => (s, 1)
  | .phase => ((s.cancelItems p fun _ => true).forceClose p, 0)
  | .job =>
    match (s.part p).job with
    | none => (s, 2)
    | some j =>
      if j.ended then (s, 1)
      else
        let s := (s.cancelItems p fun _ => true).disableQueues p
        ((s.modJob p fun j => { j with phase := { j.phase with jobEnd := true } }).forceClose p, 0)

def execLcancel (h : AHdr) (d i : Fin 32) (s : State) : Host.Outcome State Fault Refusal :=
  let p := s.tb.part
  aWord h [i] [d] [] noBlock
    (fun t =>
      let r := t.cancelRef p (s.resolve p (s.rA i))
      (r.1.wrA d (BitVec.ofNat 64 r.2) 1).retirePush h.push) s

/-- Cancel one unit of a launch node. -/
def State.cancelUnit (s : State) (p : Fin 8) (i : Item) (n : Nat) (u : Nat) : State × Nat :=
  match i.nodes[n]? with
  | none => (s, 2)
  | some x =>
    match x.kind with
    | .launch r =>
      let mine (v : UnitInfo) : Bool :=
        v.index.toNat == u && match s.unitNode v with | some (j, m) => j.num == i.num && m == n | none => false
      if decide (r.width ≤ u) then (s, 2)
      else if x.finished || x.dropped.contains u then (s, 1)
      else if decide (x.next.toList.getD (u % s.ncores p / 64) (2 ^ 33) ≤ u) then
        let s := (s.modNode p i.num n fun y => { y with dropped := y.dropped ++ [u] }).unitsDone p i.num n 1 1 0
        ((s.partDies p).foldl (fun (s : State) (d : Fin 8) => s.schedule 0 .unitDispatch (EvArgs.ofDie d)) s, 0)
      else
        match (s.partUnits p).find? fun (y : Fin 512 × Fin 2) =>
            match (s.bank y.1 (y.2.castLE (by decide))).unit with | some v => mine v | none => false with
        | some y => if (s.bank y.1 (y.2.castLE (by decide))).left == 0 then (s, 1) else (s.markUnit y.1 y.2, 0)
        | none =>
          let saved := (s.partDies p).any fun d => (s.die d).saved.any fun (y : Nat × Bank) =>
            match y.2.unit with | some v => mine v | none => false
          if saved then (s.dropSaved p mine, 0) else (s, 1)
    | _ => (s, 2)

def execLcancelUnit (h : AHdr) (d i u : Fin 32) (s : State) : Host.Outcome State Fault Refusal :=
  let p := s.tb.part
  let n := (s.rA u).toNat
  aWord h [i, u] [d] [] noBlock
    (fun t =>
      let r : State × Nat := match s.resolve p (s.rA i) with
        | .item x =>
          if x.isGraph || decide (x.width ≤ n) then (t, 2) else if x.nodes.isEmpty then (t, 1) else t.cancelUnit p x 0 n
        | .aged (some w) _ => if decide (w ≤ n) then (t, 2) else (t, 1)
        | .node x m => t.cancelUnit p x m n
        | .entry q seq =>
          match t.queue p q with
          | none => (t, 2)
          | some y =>
            if y.graph || decide ((t.launchAt p (y.entryVA seq)).width ≤ n) then (t, 2)
            else if y.dropped.contains (seq, n) then (t, 1)
            else (t.modQueue p q fun y => { y with dropped := y.dropped ++ [(seq, n)] }, 0)
        | _ => (t, 2)
      (r.1.wrA d (BitVec.ofNat 64 r.2) 1).retirePush h.push) s

/-- The item an ID names contains the unit of the word. -/
def State.containsMe (s : State) (r : IdRef) : Bool :=
  match s.tb.unit with
  | none => false
  | some u =>
    match r, s.unitNode u with
    | .item i, some (j, _) => i.num == j.num
    | .node i n, some (j, m) => i.num == j.num && n == m
    | .phase, _ => true
    | .job, _ => true
    | _, _ => false

/-- The status an ID has reached: 3 when it names nothing, none while the item runs. -/
def State.refStatus (r : IdRef) : Option Nat :=
  match r with
  | .nothing => some 3
  | .item i => if i.finished then some i.status else none
  | .node i n => match i.nodes[n]? with | some x => (if x.finished then some x.status else none) | none => some 3
  | .past st => some st
  | .aged _ st => some st
  | _ => none

def execLwait (h : AHdr) (d i : Fin 32) (s : State) : Host.Outcome State Fault Refusal :=
  let p := s.tb.part
  let r := s.resolve p (s.rA i)
  aWord h [i] [d] []
    (fun t =>
      if t.containsMe r then some (t.trap 21 0 0)
      else if (State.refStatus r).isNone then some (t.stall 10 (BitVec.ofNat 64 (3 * 2 ^ 32 + field (s.rA i) 54 6)))
      else none)
    (fun t => (t.wrA d (BitVec.ofNat 64 ((State.refStatus r).getD 3)) 1).retirePush h.push) s

/-! ## Event-vector words (R96) -/

/-- The context a word names. -/
def State.evCtx (s : State) (c : EvCtx) : Fin 8 :=
  match c with | .ctx x => x | .own => match s.tb.unit with | some u => u.qctx | none => 0

def evBlock (v : DWord) (t : State) : Option State := if decide (256 ≤ v.toNat) then some (t.trap 21 0 0) else none

/-- An operation takes effect 20 cycles after issue at the earliest. -/
def State.evIssue (t : State) (h : AHdr) (set : Bool) (ctx : Fin 8) (n : Nat) : State :=
  let g := t.turn.core
  let k := t.turn.ctx
  let b := t.tb
  let e : EvOp :=
    { id := b.nextId, ctx := ctx, bit := n, set := set, push := h.push
      after := if set then b.live.map (fun (o : AOp) => o.id) else [] }
  let a := { EvArgs.at g k with p := b.part, id := e.id, n := (t.die (dieOf g)).nextCopy }
  let t := t.modTb fun b => { b with evops := b.evops ++ [e], nextId := b.nextId + 1 }
  if set then t.schedule 20 .evsetEffect a else t.schedule 20 .evclrEffect a

def execEvset (h : AHdr) (b : Fin 32) (c : EvCtx) (s : State) : Host.Outcome State Fault Refusal :=
  aWord h [b] [] [] (evBlock (s.rA b)) (fun t => t.evIssue h true (s.evCtx c) (s.rA b).toNat) s

def execEvclr (h : AHdr) (b : Fin 32) (c : EvCtx) (s : State) : Host.Outcome State Fault Refusal :=
  aWord h [b] [] [] (evBlock (s.rA b)) (fun t => t.evIssue h false (s.evCtx c) (s.rA b).toNat) s

/-- `evtest` takes its place after the unit's earlier operations. -/
def execEvtest (h : AHdr) (d b : Fin 32) (c : EvCtx) (s : State) : Host.Outcome State Fault Refusal :=
  let ctx := s.evCtx c
  let v := match (s.part s.tb.part).job with | some j => bit (j.ev.get ctx) (s.rA b).toNat | none => false
  aWord h [b] [d] []
    (fun t =>
      match evBlock (s.rA b) t with
      | some u => some u
      | none => if t.tb.evops.isEmpty then none else some (t.stall wInterlock 0))
    (fun t => (t.wrA d (BitVec.ofNat 64 (b01 v)) 1).retirePush h.push) s

/-- The unit's earlier operations and the accesses a set releases have ended: then the bit changes and the token is pushed. -/
def State.evEffect (s : State) (again : State → State) : State :=
  let g := s.ev.g
  let k := s.ev.k
  let b := s.bank g k
  match b.evops with
  | [] => s
  | e :: l =>
    if e.id != s.ev.id then (if b.evops.any fun (x : EvOp) => x.id == s.ev.id then again s else s)
    else if e.set && ((b.ops.any fun (o : AOp) => e.after.contains o.id && !o.doneAt .device) ||
        (b.replay.any fun (o : AOp) => e.after.contains o.id) || s.copiesOpen g k s.ev.n) then again s
    else
      let s := s.modBank g k fun b => { b with evops := l, pa := if e.push.isSome then b.pa + 1 else b.pa }
      (s.eventOp s.ev.p e.ctx fun v => setBit v e.bit e.set).pushToken g k e.push

def execEvsetEffect (s : State) : Host.Outcome State Fault Refusal :=
  .next (s.evEffect fun s => s.schedule 1 .evsetEffect s.ev)

def execEvclrEffect (s : State) : Host.Outcome State Fault Refusal :=
  .next (s.evEffect fun s => s.schedule 1 .evclrEffect s.ev)

end Sys2Proof.Machine
end

