-- ==== Sys2Proof/Machine/Sha.lean ====
section
/-! DEFINITION. Machine/Sha.lean: SHA-256 (FIPS 180-4), used by unit digests (spec/22 R333) and firmware images (spec/23
R344). The spec names the function and does not write it out. Its constants are stated here as what they are: the first 32 bits
of the fractional parts of the square roots and the cube roots of the first primes. -/
namespace Sys2Proof.Machine
open Sys2Proof

/-- The greatest r with r ^ k ≤ n whose bits from `b` up are those of `r`. -/
def rootBelow (k n : Nat) : (b : Nat) → (r : Nat) → Nat
  | 0, r => r
  | b + 1, r => rootBelow k n b (if (r + 2 ^ b) ^ k ≤ n then r + 2 ^ b else r)

/-- The first 32 bits of the fractional part of the k-th root of p. -/
def rootFraction (k p : Nat) : Word := BitVec.ofNat 32 (rootBelow k (p * 2 ^ (32 * k)) 40 0)

/-- The first 64 primes. -/
def smallPrimes : List Nat := (List.range 312).filter fun n => 2 ≤ n && (List.range n).all fun d => d < 2 || n % d != 0

/-- The eight words of a chaining value, and of the working variables a to h. -/
structure ShaWords where
  a : Word
  b : Word
  c : Word
  d : Word
  e : Word
  f : Word
  g : Word
  h : Word
  deriving DecidableEq, Repr

def ShaWords.words (x : ShaWords) : List Word := [x.a, x.b, x.c, x.d, x.e, x.f, x.g, x.h]

def ShaWords.ofWords (l : List Word) : ShaWords :=
  let w i := l.getD i 0
  { a := w 0, b := w 1, c := w 2, d := w 3, e := w 4, f := w 5, g := w 6, h := w 7 }

/-- Exclusive or of a word rotated right by each of the distances. -/
def turned (x : Word) (by_ : List Nat) : Word := by_.foldl (fun y n => y ^^^ x.rotateRight n) 0

/-- One round, with its constant and its word of the schedule already added. -/
def ShaWords.round (x : ShaWords) (kw : Word) : ShaWords :=
  let chosen := x.g ^^^ (x.e &&& (x.f ^^^ x.g))
  let most := (x.a &&& x.b) ||| (x.c &&& (x.a ||| x.b))
  let t := kw + chosen + turned x.e [25, 11, 6] + x.h
  { x with a := t + most + turned x.a [22, 13, 2], b := x.a, c := x.b, d := x.c, e := x.d + t, f := x.e, g := x.f, h := x.g }

/-- The schedule of a block runs as a window of sixteen words: the next word from those 16, 15, 7 and 2 before it. -/
def shaSlide (ws : List Word) : List Word :=
  let w i := ws.getD i 0
  let small (x : Word) (by_ : List Nat) (n : Nat) := turned x by_ ^^^ (x >>> n)
  ws.tail ++ [w 0 + small (w 1) [18, 7] 3 + w 9 + small (w 14) [19, 17] 10]

/-- The rounds of one block: the window and the working variables go on with each constant. -/
def shaBlock (start : ShaWords) (block : List Word) : ShaWords :=
  let last := (smallPrimes.map (rootFraction 3)).foldl
    (fun (x : ShaWords × List Word) k => (x.1.round (k + x.2.headD 0), shaSlide x.2)) (start, block)
  ShaWords.ofWords (List.zipWith (· + ·) start.words last.1.words)

/-- A number as n bytes, the most significant first. -/
def beBytes (n v : Nat) : List Byte := (leBytes n v).reverse

/-- A message as padded: one bit 1, zeros, and its length in bits, to a multiple of 64 bytes. -/
def shaPad (bs : List Byte) : List Byte :=
  bs ++ [0x80] ++ List.replicate ((119 - bs.length % 64) % 64) 0 ++ beBytes 8 (8 * bs.length)

/-- The i-th big-endian word of a run of bytes. -/
def beWord (bs : List Byte) (i : Nat) : Word := BitVec.ofNat 32 (leNat (((bs.drop (4 * i)).take 4).reverse))

/-- The 32 bytes of the digest. -/
def sha256 (bs : List Byte) : List Byte :=
  let m := shaPad bs
  let h := (List.range (m.length / 64)).foldl (fun x n => shaBlock x ((List.range 16).map (beWord (m.drop (64 * n)))))
    (ShaWords.ofWords ((smallPrimes.take 8).map (rootFraction 2)))
  h.words.flatMap fun w => beBytes 4 w.toNat

end Sys2Proof.Machine
end

