-- ==== Sys2Proof/Machine/Sched.lean ====
section
/-! DEFINITION. Machine/Sched.lean: queue heads, dispatch of entries, the Steppe's choice and placement, the start and the
completion of units, cancels of running units, and pre-emption (spec/05 R76-R93, spec/01 R11-R19, spec/18 R299). -/
namespace Sys2Proof.Machine
open Sys2Proof

/-! ## Copy commands end (spec/10 R204, R208, R210) -/

/-- The Steppe of a die chooses again at a cycle, if it does not so earlier. -/
def State.dispatchBy (s : State) (d : Fin 8) (t : Nat) : State :=
  if s.agenda.any fun (x : Due) => x.what == .unitDispatch && x.args.d == d && decide (x.at_ ≤ t) then s
  else s.scheduleAt t .unitDispatch (EvArgs.ofDie d)
def State.pokeDispatch (s : State) (d : Fin 8) : State := s.dispatchBy d s.cycle

/-- Work has ended: a phase that closes is looked at again. -/
def State.closeLook (s : State) (p : Fin 8) : State :=
  match (s.part p).job with
  | some j => if j.phase.closing then s.schedule 0 .phaseClose (EvArgs.ofPart p) else s
  | none => s

/-- The end of a copy node's command: ok, cancel, or fault with the cause of its failed check or with COPY_FAULT. -/
def State.nodeCopyDone (s : State) (d : Fin 8) (c : CopyCmd) (p : Fin 8) (num n : Nat) : State :=
  let s := s.modDie d fun x => { x with copies := x.copies.filter fun (y : CopyCmd) => y.id != c.id }
  match c.st with
  | .failed cause =>
    if cause = 6 then s.nodeDone p num n 1 0
    else s.nodeDone p num n 2 (if decide (64 ≤ cause) then BitVec.ofNat 8 (cause - 64) else 16)
  | _ => s.nodeDone p num n 0 0

def execCopyCommandComplete (s : State) : Host.Outcome State Fault Refusal :=
  let d := s.ev.d
  match (s.die d).copies.find? fun (c : CopyCmd) => c.id == s.ev.id && !c.inFlight with
  | none => .next s
  | some c =>
    match c.node, c.src with
    | some (p, num, n), _ => .next (((s.nodeCopyDone d c p num n).pokeDispatch d).closeLook p)
    | none, some (g, _) => .next ((State.finishCopies g 16 s).pokeDispatch d)
    | none, none => .next s

/-! ## Doorbells and heads (R76, R77) -/

/-- A new TAIL from the host: taken, or ignored with QOVF. -/
def execQueueDoorbell (s : State) : Host.Outcome State Fault Refusal :=
  let p := s.ev.p
  let q := s.ev.q
  match s.queue p q with
  | none => .next s
  | some x =>
    let n := (s.ev.w - x.head).toNat
    if !x.enabled then .next s
    else if x.device || decide (2 ^ x.logsize < n) || decide (n < (x.tail - x.head).toNat) then
      .next (s.setQueue p q fun x => { x with qovf := true })
    else .next ((s.modQueue p q fun x => { x with tail := s.ev.w }).pokeQueue p q)

/-- A PB header stands at the head of its queue: the open phase starts to close (R86). In a close that came from a command the
header belongs to the next phase. -/
def State.startClose (s : State) (p : Fin 8) (je : Bool) : State :=
  match (s.part p).job with
  | none => s
  | some j =>
    let ph := j.phase
    if ph.closing && !ph.pb then s.schedule 0 .phaseClose (EvArgs.ofPart p)
    else
      (s.modJob p fun j => { j with phase := { ph with closing := true, pb := true, jobEnd := ph.jobEnd || je } }).schedule 0
        .phaseClose (EvArgs.ofPart p)

/-- A record whose bytes are poisoned is consumed into the Steppe (spec/21 R309). -/
def State.consumed (s : State) (p : Fin 8) (va n : Nat) : Option State :=
  if s.readsPoison p (upTo va n) then some (s.consume p (upTo va n)) else none

/-- The entry at the head is checked: rejected, held, or the mark of a phase boundary. -/
def execQueueHeadCheck (s : State) : Host.Outcome State Fault Refusal :=
  let p := s.ev.p
  let q := s.ev.q
  match s.queue p q with
  | none => .next s
  | some x =>
    let va := x.entryVA x.head
    if !x.enabled || x.checked || x.head == x.tail || (s.part p).qreset == some q then .next s
    else match s.consumed p va 128 with
      | some t => .next t
      | none =>
        match (if x.graph then s.checkHeader p va else s.checkLaunch p va) with
        | some k => .next ((s.endEntry p q x.head 3 (BitVec.ofNat 8 k)).advance p q)
        | none =>
          let s := s.modQueue p q fun x => { x with checked := true }
          let h := s.graphAt p va
          if x.graph && h.pb then .next (s.startClose p h.je)
          else .next (s.schedule 0 .entryDispatch s.ev)

/-! ## Dispatch of an entry (R79, R84; spec/01 R19) -/

/-- A new item of the open phase: its counter starts with the nodes that have not finished, and the phase's goes up by one. -/
def State.newItem (s : State) (p : Fin 8) (q : Fin 64) (seq : Word) (graph : Bool) (width prio : Nat) (tag : DWord) (set : BitVec 256)
    (nodes : List NodeSt) : State :=
  s.modJob p fun j =>
    { j with
      nextItem := j.nextItem + 1
      phase := { j.phase with graphs := j.phase.graphs + 1 }
      items := j.items ++
        [{ num := j.nextItem, queue := q, seq := seq, isGraph := graph, prio := prio, tag := tag, set := set, nodes := nodes,
           left := (nodes.filter fun (n : NodeSt) => !n.finished).length, width := width, finished := false, status := 0, reason := 0 }] }

def State.nextItem (s : State) (p : Fin 8) : Nat := match (s.part p).job with | some j => j.nextItem | none => 0

/-- A launch whose sets overlap ends at once with SET_OVERLAP, and the phase's counter stands as it was; the phase takes the
status. -/
def State.overlapEnds (s : State) (p : Fin 8) (q : Fin 64) (seq : Word) : State :=
  (s.endEntry p q seq 2 33).modJob p fun j =>
    { j with
      phase := { j.phase with
        reason := if j.phase.status < 2 then 33 else j.phase.reason
        status := max j.phase.status 2 } }

/-- Units of the entry that were cancelled while it waited (R95). -/
def State.applyDropped (s : State) (p : Fin 8) (q : Fin 64) (seq : Word) (num : Nat) : State :=
  match s.queue p q with
  | none => s
  | some x =>
    let units := (x.dropped.filter fun (y : Word × Nat) => y.1 == seq).map fun (y : Word × Nat) => y.2
    let s := s.modQueue p q fun x => { x with dropped := x.dropped.filter fun (y : Word × Nat) => y.1 != seq }
    (s.modNode p num 0 fun y => { y with dropped := y.dropped ++ units }).unitsDone p num 0 units.length 1 0

/-- The launch at the head becomes an item. -/
def State.dispatchLaunch (s : State) (p : Fin 8) (q : Fin 64) (x : Queue) : State :=
  let seq := x.head
  let r := s.launchAt p (x.entryVA seq)
  if s.setsOverlap p r then (s.overlapEnds p q seq).advance p q
  else
    let num := s.nextItem p
    let y := NodeSt.fresh (.launch r) 0 [] (s.ncores p) r.width (s.launchMasks p r false) (s.launchMasks p r true)
    let s := s.newItem p q seq false r.width 127 r.tag r.set [y]
    ((s.applyDropped p q seq num).advance p q).settle p num

/-- A node of a graph at its dispatch; a launch whose sets overlap has already completed with fault. -/
def State.graphNode (s : State) (p : Fin 8) (e : NodeEntry) : NodeSt :=
  let nc := s.ncores p
  match e.kind with
  | 0 =>
    let r := s.launchAt p e.obj.toNat
    let y := NodeSt.fresh (.launch r) e.npred e.succs nc r.width (s.launchMasks p r false) (s.launchMasks p r true)
    if s.setsOverlap p r then { y with finished := true, status := 2, reason := 33 } else y
  | 1 => NodeSt.fresh (.copy e.obj e.drank) e.npred e.succs nc 1 (Vector.replicate 3 0) (Vector.replicate 3 0)
  | _ => NodeSt.fresh (.host e.obj) e.npred e.succs nc 1 (Vector.replicate 3 0) (Vector.replicate 3 0)

/-- The graph at a position becomes an item, or is rejected with its nodes' reason. -/
def State.openGraph (s : State) (p : Fin 8) (q : Fin 64) (x : Queue) (seq : Word) : State :=
  let h := s.graphAt p (x.entryVA seq)
  let l := s.nodesAt p h
  match s.checkNodes p l with
  | some k => s.endEntry p q seq 3 (BitVec.ofNat 8 k)
  | none =>
    let num := s.nextItem p
    (s.newItem p q seq true 0 h.prio h.tag h.set (l.map fun e => s.graphNode p e)).settle p num

/-- The head may leave its queue now: it has passed its check, the phase is open and its counter has room, and its wait condition
holds. -/
def State.mayDispatch (s : State) (p : Fin 8) (q : Fin 64) (x : Queue) : Bool :=
  match (s.part p).job with
  | none => false
  | some j =>
    let va := x.entryVA x.head
    let wait := if x.graph then (s.graphAt p va).wait else (s.launchAt p va).wait
    x.enabled && x.checked && x.head != x.tail && !x.cplstall && (s.part p).qreset != some q && !(s.part p).halted &&
      !j.phase.closing && !j.ended && decide (j.phase.graphs < maxGraphs) && (j.ev.get x.ctx &&& wait) == wait

def execEntryDispatch (s : State) : Host.Outcome State Fault Refusal :=
  let p := s.ev.p
  let q := s.ev.q
  match s.queue p q with
  | none => .next s
  | some x =>
    let h := s.graphAt p (x.entryVA x.head)
    if x.checked && x.graph && h.pb && x.head != x.tail then .next (s.startClose p h.je)
    else if !s.mayDispatch p q x then .next s
    else if x.graph then
      match s.consumed p h.nodes (32 * h.ncount) with
      | some t => .next t
      | none => .next ((s.openGraph p q x x.head).advance p q)
    else .next (s.dispatchLaunch p q x)

/-! ## What may run where (R88-R90; spec/13 R264) -/

/-- The launch runs in deterministic mode; the mode is a feature (spec/23 R343). -/
def State.isDetm (s : State) (r : LaunchRec) : Bool := r.detm && s.feature 8

/-- The other bank of the core holds a unit whose tiles meet these. -/
def State.tilesMeet (s : State) (g : Fin 512) (k : Fin 3) (m : BitVec 768) : Bool :=
  match (s.bank g (otherBank k)).unit with | some u => (u.tiles &&& m) != 0 | none => false

/-- The lowest unit at or after `i` that no `lcancel` has dropped. -/
def nextFree (nc : Nat) (dropped : List Nat) : Nat → Nat → Nat
  | 0, i => i
  | f + 1, i => if dropped.contains i then nextFree nc dropped f (nextUnit nc i) else i

/-- The lowest undispatched unit of a launch node on a die rank. -/
def NodeSt.lowest (x : NodeSt) (nc rank : Nat) : Nat := nextFree nc x.dropped x.dropped.length (x.next.toList.getD rank (2 ^ 33))

def rankOf (p d : Fin 8) : Nat := d.val - p.val

/-- A unit of the launch of a slot is on the core. -/
def State.launchOn (s : State) (g : Fin 512) (x : Slot) : Bool :=
  (List.finRange 2).any fun (k : Fin 2) =>
    match (s.bank g (k.castLE (by decide))).unit with
    | some u => (match s.unitNode u with | some (i, n) => u.part == x.part && i.num == x.item && n == x.node | none => false)
    | none => false

def State.savedBank (s : State) (d : Fin 8) (n : Nat) : Option Bank :=
  match (s.die d).saved.find? fun (y : Nat × Bank) => y.1 == n with | some y => some y.2 | none => none

def State.slotNode (s : State) (x : Slot) : Option NodeSt := s.node x.part x.item x.node

/-- A waiting node or a resumable unit can use a free slot of a core. -/
def State.slotFits (s : State) (d : Fin 8) (g : Fin 512) (k : Fin 3) (x : Slot) : Bool :=
  if (s.part x.part).halted then false
  else match x.resume with
    | some (h, _, n) =>
      h == g && match s.savedBank d n with
        | some b => (match b.unit with | some u => !s.tilesMeet g k u.tiles | none => false)
        | none => false
    | none =>
      match s.slotNode x with
      | none => false
      | some y =>
        match y.kind with
        | .launch r =>
          let nc := s.ncores x.part
          let i := y.lowest nc (rankOf x.part d)
          decide (i < r.width) && (!s.isDetm r || (i % nc % 64 == inDie g && !s.launchOn g x)) &&
            !s.tilesMeet g k y.tiles
        | _ => false

/-- The effective priority of a waiting slot now. -/
def State.slotPrio (s : State) (x : Slot) : Nat := x.prio (s.part x.part).ageCycles s.cycle

/-- The order of R89. -/
def State.slotBefore (s : State) (x y : Slot) : Bool :=
  let a := s.slotPrio x
  let b := s.slotPrio y
  decide (b < a) || (a == b &&
    (decide (x.entered < y.entered) || (x.entered == y.entered &&
      (decide (x.queue.val < y.queue.val) || (x.queue == y.queue &&
        (decide (x.seq.toNat < y.seq.toNat) || (x.seq == y.seq && decide (x.node < y.node))))))))

/-- The slot that R89 takes first among those that meet a test. -/
def State.bestSlot (s : State) (d : Fin 8) (ok : Slot → Bool) : Option Slot :=
  ((s.die d).steppe.filter ok).foldl (fun (r : Option Slot) (x : Slot) =>
    match r with | none => some x | some y => if s.slotBefore x y then some x else r) none

/-- A bank holds nothing and its core runs. -/
def State.bankFree (s : State) (g : Fin 512) (k : Fin 3) : Bool :=
  let b := s.bank g k
  b.st == .empty && b.unit.isNone && !(s.core g).stopped

/-- The free slots of a die in their filling order. -/
def State.freeSlots (s : State) (d : Fin 8) : List (Fin 512 × Fin 3) :=
  let cores := (List.finRange 512).filter fun g => dieOf g == d
  let both (g : Fin 512) : Bool := s.bankFree g 0 && s.bankFree g 1
  ((cores.filter both).map fun g => (g, (0 : Fin 3))) ++
    ((cores.filter fun g => !both g).filterMap fun g =>
      if s.bankFree g 0 then some (g, (0 : Fin 3)) else if s.bankFree g 1 then some (g, (1 : Fin 3)) else none)

/-! ## Placing a unit (R89, R90; spec/01 R15) -/

/-- What a bank holds of unit `i` of a launch. -/
def State.unitInfo (s : State) (x : Slot) (it : Item) (y : NodeSt) (r : LaunchRec) (i : Nat) : UnitInfo :=
  let p := x.part
  let ctx : Fin 8 := match s.queue p x.queue with | some q => q.ctx | none => 0
  let u := { UnitInfo.blank p with
    launch := workId 1 x.queue.val (if it.isGraph then x.node + 1 else 0) x.seq
    index := BitVec.ofNat 32 i, width := BitVec.ofNat 32 r.width, image := r.image, flagBind := r.flagBind, detm := s.isDetm r
    lease := r.lease, colmask := r.colmask, qctx := ctx, queue := x.queue, prio := s.slotPrio x, rd := y.rd, wr := y.wr }
  match s.readImage p r.image.toNat with | some h => u.withImage r.image h | none => u

/-- The bank at a unit's start (R15): zero registers, a1 = PARAM, the initial tokens. What the bank keeps is its SFC, its
numbering, and event operations of the last unit that have still to take effect. -/
def Bank.place (old : Bank) (u : UnitInfo) (r : LaunchRec) : Bank :=
  { Bank.reset with
    st := .ready, unit := some u, left := 3, a := Bank.reset.a.set 1 r.param
    cols := Vector.ofFn fun c => { Column.reset with ended := u.xLen.get c == 0 }
    flags := Vector.ofFn fun n => { FlagSt.reset with held := field r.flagInit (4 * n.val) 4 }
    evops := old.evops, nextId := old.nextId, sfcBase := old.sfcBase, sfcSince := old.sfcSince, sfchi := old.sfchi }

/-- SPILL bits of a bank. -/
def Core.setSpill (c : Core) (k : Fin 3) (v : BitVec 4) : Core :=
  if k.val = 0 then { c with spill0 := v } else if k.val = 1 then { c with spill1 := v } else c
def Core.spill (c : Core) (k : Fin 3) : BitVec 4 := if k.val = 0 then c.spill0 else c.spill1

/-- A launch node places its lowest unit; it leaves the Steppe of the die with its last one. -/
def State.placeUnit (s : State) (d : Fin 8) (g : Fin 512) (k : Fin 3) (x : Slot) (it : Item) (y : NodeSt) (r : LaunchRec) : State :=
  let p := x.part
  let nc := s.ncores p
  let rank := rankOf p d
  let i := y.lowest nc rank
  let u := s.unitInfo x it y r i
  let s := s.modNode p x.item x.node fun z => { z with next := z.next.set! rank (nextUnit nc i) }
  let s := s.modCore g fun c => c.setBank k ((c.bank k).place u r)
  let gone := match s.slotNode x with | some z => decide (r.width ≤ z.lowest nc rank) | none => true
  let s := if gone then s.dropSlots d fun z => z.part == p && z.item == x.item && z.node == x.node && z.resume.isNone else s
  (s.schedule 32 .unitStart (EvArgs.at g k)).colCheck p d

/-- The die's save pool slot, and the save area of a bank. -/
def State.poolVA (s : State) (g : Fin 512) (n : Nat) : Nat :=
  mkVA (rankOf (s.partAt g) (dieOf g)) (((s.die (dieOf g)).savepool.toNat + n) * 2 ^ 17)

def saveBytes : Nat := 131072

/-- A pre-empted unit comes back (spec/18 R299): its slot returns to the save area of the bank, and the bank is reloaded. -/
def State.resumeSaved (s : State) (d : Fin 8) (g : Fin 512) (k : Fin 3) (x : Slot) (n : Nat) : State :=
  match s.savedBank d n with
  | none => s
  | some b =>
    let p := s.partAt g
    let dest := s.saveVA g (asBank k)
    let s := s.rawWriteN p dest (s.greadN p (s.poolVA g n) saveBytes)
    let s := s.modDie d fun y => { y with saved := y.saved.filter fun (z : Nat × Bank) => z.1 != n }
    let s := s.dropSlots d fun z => z.resume == x.resume && z.part == x.part
    let keep := (s.bank g k).nextId
    let r := s.saveRead p dest
    match b.unit with
    | none => s
    | some u =>
      let back := { b with nextId := max b.nextId keep, st := .ready, spillKeep := 0, unit := some { u with prio := s.slotPrio x } }
      let s := s.modCore g fun c => (c.setBank k back).setSpill k b.spillKeep
      if !saveOk r u then s.stopUnit g k 2 32
      else
        (s.setBank g k (back.reload r)).startIfIdle g k 264

/-- The chosen slot takes the free bank. -/
def State.useSlot (s : State) (d : Fin 8) (g : Fin 512) (k : Fin 3) (x : Slot) : State :=
  match x.resume with
  | some (_, _, n) => s.resumeSaved d g k x n
  | none =>
    match s.item x.part x.item, s.slotNode x with
    | some it, some y => (match y.kind with | .launch r => s.placeUnit d g k x it y r | _ => s)
    | _, _ => s

/-! ## Host and copy nodes (R84, R89; spec/10 R210) -/

def State.kindOf (s : State) (x : Slot) : Nat :=
  if x.resume.isSome then 3
  else match s.slotNode x with
    | some y => (match y.kind with | .launch _ => 0 | .copy _ _ => 1 | .host _ => 2)
    | none => 4

/-- The record that asks the host for a node's action. -/
def State.askHost (s : State) (d : Fin 8) (x : Slot) : State :=
  let s := s.dropSlots d fun z => z.part == x.part && z.item == x.item && z.node == x.node
  match s.slotNode x with
  | some y =>
    match y.kind with
    | .host obj =>
      s.putRecord x.part x.queue (recordBits (workId 1 x.queue.val (x.node + 1) x.seq) obj 0 0 4 0 (s.devTime x.part))
    | _ => s
  | none => s

/-- Channels that run, wait at a row, or are about to start a copy node. -/
def State.busyChannels (s : State) (d : Fin 8) : Nat :=
  ((s.die d).copies.filter fun (c : CopyCmd) => c.st == .running || c.st == .stalled || (c.st == .queued && c.node.isSome)).length

/-- A copy node goes to a channel. -/
def State.startCopy (s : State) (d : Fin 8) (x : Slot) : State :=
  let s := s.dropSlots d fun z => z.part == x.part && z.item == x.item && z.node == x.node
  match s.slotNode x with
  | some y =>
    match y.kind with
    | .copy desc _ =>
      let id := (s.die d).nextCopy
      let c := { CopyCmd.blank .cpy with id := id, node := some (x.part, x.item, x.node), desc := some desc }
      (s.modDie d fun z => { z with copies := z.copies ++ [c], nextCopy := z.nextCopy + 1 }).schedule 0 .copyChannelStart
        { EvArgs.ofDie d with id := id }
    | _ => s
  | none => s

/-! ## The choice (R89) -/

/-- The next cycle at which a waiting node of the die is one aging step older. -/
def State.nextAge (s : State) (d : Fin 8) : Option Nat :=
  (s.die d).steppe.foldl (fun (m : Option Nat) (x : Slot) =>
    let a := (s.part x.part).ageCycles
    if a = 0 || decide (x.cap ≤ s.slotPrio x) then m
    else
      let t := x.entered + a * ((s.cycle - x.entered) / a + 1)
      match m with | none => some t | some u => some (min t u)) none

/-- Look again when a node has aged, for a pre-emption. -/
def State.awaitAge (s : State) (d : Fin 8) : State := match s.nextAge d with | none => s | some t => s.dispatchBy d t

/-- A slot with nothing left to dispatch. -/
def State.spent (s : State) (d : Fin 8) (x : Slot) : Bool :=
  x.resume.isNone && match s.slotNode x with
    | none => true
    | some y => y.finished || (match y.kind with | .launch r => decide (r.width ≤ y.lowest (s.ncores x.part) (rankOf x.part d)) | _ => false)

/-- Spent slots leave the Steppe. -/
def State.prune (s : State) (d : Fin 8) : State :=
  match s.partOfDie d with
  | none => s
  | some p => if (s.die d).steppe.any fun x => s.spent d x then (s.dropSlots d fun x => s.spent d x).colCheck p d else s

/-- A pre-emption of the die is in progress. -/
def State.preempting (s : State) (d : Fin 8) : Option Due :=
  s.agenda.find? fun (x : Due) => x.what == .preemption && x.args.d == d && x.args.flag

/-- The last undispatched unit of the node is promised to the bank that a pre-emption in progress frees (R92). -/
def State.promised (s : State) (d : Fin 8) (x : Slot) : Bool :=
  match s.preempting d with
  | none => false
  | some e =>
    x.resume.isNone && x.part == e.args.p && x.item == e.args.va.toNat && x.node == e.args.w.toNat &&
      match s.slotNode x with
      | some y => (match y.kind with
        | .launch r =>
          let nc := s.ncores x.part
          let i := y.lowest nc (rankOf x.part d)
          decide (r.width ≤ nextFree nc y.dropped y.dropped.length (nextUnit nc i))
        | _ => false)
      | none => false

/-- One choice of a die's Steppe: a host node, then a copy node with a free channel, then one unit every two core cycles. -/
def execUnitDispatch (s : State) : Host.Outcome State Fault Refusal :=
  let d := s.ev.d
  let s := s.prune d
  let ok (x : Slot) : Bool := !(s.part x.part).halted
  match s.bestSlot d fun x => ok x && s.kindOf x == 2 with
  | some x => .next ((s.askHost d x).pokeDispatch d)
  | none =>
    match (if decide (s.busyChannels d < 16) then s.bestSlot d fun x => ok x && s.kindOf x == 1 else none) with
    | some x => .next ((s.startCopy d x).pokeDispatch d)
    | none =>
      let choice := (s.freeSlots d).findSome? fun (y : Fin 512 × Fin 3) =>
        (s.bestSlot d fun x => s.slotFits d y.1 y.2 x && !s.promised d x).map fun (x : Slot) => (y.1, y.2, x)
      match choice with
      | some (g, k, x) =>
        if decide (s.cycle < (s.die d).dispatchAt) then .next (s.dispatchBy d (s.die d).dispatchAt)
        else
          let s := s.modDie d fun z => { z with dispatchAt := s.cycle + 2 }
          .next ((s.useSlot d g k x).dispatchBy d (s.cycle + 2))
      | none =>
        if (s.freeSlots d).isEmpty && !(s.die d).steppe.isEmpty then .next ((s.schedule 0 .preemption (EvArgs.ofDie d)).awaitAge d)
        else .next s

/-! ## Start and completion of a unit (R11, R15, R89) -/

/-- The unit starts: its tiles belong to the streams (spec/10 R187), and its first words issue now, when the core runs nothing
else. -/
def execUnitStart (s : State) : Host.Outcome State Fault Refusal :=
  let g := s.ev.g
  let k := s.ev.k
  match (s.bank g k).unit with
  | none => .next s
  | some u =>
    if u.started then .next s
    else
      let s := s.modBank g k fun b => { b with unit := some { u with started := true, startedAt := s.cycle } }
      let s := s.modCore g fun c => (c.ownZero u.tiles).setSpill k 0
      .next ((s.traceAt g k 3 0 1 0 u.launch (u.index.setWidth 64)).startIfIdle g k 0)

/-- Something of the unit is still open: a stream, an access, a copy or an array command, a ring exchange. -/
def State.unitOpen (s : State) (g : Fin 512) (k : Fin 3) : Bool :=
  let b := s.bank g k
  b.left != 0 || !b.ops.isEmpty || !b.replay.isEmpty ||
    ((s.die (dieOf g)).copies.any fun (c : CopyCmd) => match c.src with | some (h, j) => h == g && j.val == k.val | none => false) ||
    ((s.cluster (clusterOf g)).cmds.any fun (a : ArrCmd) => a.core == g && a.bank.val == k.val && !a.retired) ||
    (match (s.core g).rot with | some x => x.bank == k | none => false)

/-! ### Digests (spec/22 R333, R334) -/

/-- The first eight bytes of SHA-256 over the 24-byte entries, as a little-endian number. -/
def unitDigest (l : List (DWord × DWord × DWord)) : DWord :=
  let bytes := l.flatMap fun (x : DWord × DWord × DWord) => leBytes 8 x.1.toNat ++ leBytes 8 x.2.1.toNat ++ leBytes 8 x.2.2.toNat
  BitVec.ofNat 64 (leNat ((sha256 bytes).take 8))

/-- The first divergence: REPLAYSTAT, a record of kind 11, and a stop or a free run. -/
def State.diverge (s : State) (p d : Fin 8) (where_ core queue time : Nat) (pc : Word) (found : DWord) : State :=
  if (s.part p).div then s
  else
    let num := match (s.part p).job with | some j => j.phase.num | none => 0
    let s := s.modPart p fun q => { q with div := true, divPhase := BitVec.ofNat 16 num }
    let s := s.traceRecord p d (traceBits time where_ core 11 queue pc.toNat num found.toNat)
    if (s.part p).ondiv then
      (s.modPart p fun q => { q with playback := [] }).unschedule fun (x : Due) => x.what == .recordedInputInject && x.args.p == p
    else s.schedule 0 .hostStop { EvArgs.ofPart p with id := 1 }

/-- The digest of a completed unit is recorded, or compared with the recorded one. -/
def State.closeUnitDigest (s : State) (g : Fin 512) (k : Fin 3) (u : UnitInfo) : State :=
  let p := u.part
  let b := s.bank g k
  if (s.part p).rpMode = 0 || !s.feature 6 then s
  else
    let x := unitDigest b.digest
    let s := s.modJob p fun j => { j with digest := j.digest + x }
    let time := (s.sfc b).toNat
    let rank := rankOf p (dieOf g)
    let s := s.recordPut p (recEntry time rank (inDie g) u.index.toNat 7 u.launch.toNat x.toNat)
    if (s.part p).rpMode = 2 && !(s.part p).div then
      match (s.part p).playback.find? fun (e : BitVec 256) =>
          field e 121 7 == 7 && field e 64 57 == u.index.toNat && field e 128 64 == u.launch.toNat with
      | some e => if field e 192 64 == x.toNat then s else s.diverge p (dieOf g) rank (inDie g) u.queue.val b.lastWord.toNat b.apc x
      | none => s.diverge p (dieOf g) rank (inDie g) u.queue.val b.lastWord.toNat b.apc x
    else s

/-- Events on the agenda that would still act on the unit of a place. -/
def Due.ofPlace (x : Due) (g : Fin 512) (k : Fin 3) : Bool :=
  x.args.g == g && x.args.k == k &&
    (x.what == .tokenPoppable || x.what == .queueEntryPoppable || x.what == .aWordRetire || x.what == .colInputRise)

/-- The bank becomes empty, keeping its SFC, its numbering and its event operations. -/
def Bank.vacate (b : Bank) (sfc : BitVec 48) : Bank :=
  { Bank.reset with
    evops := b.evops.map fun e => { e with push := none }
    nextId := b.nextId, sfcBase := sfc, sfchi := b.sfchi }

/-- A bank that owns the accumulators gives them up, and its spilled tiles are forgotten (spec/18 R297). -/
def Core.dropAcc (c : Core) (k : Fin 3) : Core :=
  (if c.accOwn = k then { c with acclive := 0, accOwn := 2 } else c).setSpill k 0

/-- The unit leaves its bank, and the other bank may run. -/
def State.leaveBank (s : State) (g : Fin 512) (k : Fin 3) : State :=
  let b := s.bank g k
  let sfc := s.sfc b
  let s := s.unschedule fun (x : Due) => x.ofPlace g k
  let s := if (s.core g).active == asBank k then s.endLease g else s
  let s := if (s.core g).active == asBank k && (s.core g).handling.isNone && !(s.core g).stopped then s.switchBank g k 3 else s
  s.setBank g k (b.vacate sfc)

/-- A unit completes (R11): its digest, its trace record, its entries of a reduction that did not count, its bank. -/
def State.completeUnit (s : State) (g : Fin 512) (k : Fin 3) (u : UnitInfo) : State :=
  let b := s.bank g k
  let d := dieOf g
  let s := (s.closeUnitDigest g k u).traceAt g k 3 0 2 0 (BitVec.ofNat 64 b.status) (b.reason.setWidth 64)
  let s := if b.status = 0 then s else s.dropOred u
  let node := s.unitNode u
  let s := (s.leaveBank g k).modCore g fun c => (c.ownZero (u.tiles ||| b.handed)).dropAcc k
  let s := match node with
    | some (i, n) => s.unitsDone u.part i.num n 1 b.status b.reason
    | none => s
  ((s.pokeDispatch d).colCheck u.part d).closeLook u.part

def execUnitCompletion (s : State) : Host.Outcome State Fault Refusal :=
  let g := s.ev.g
  let k := s.ev.k
  match (s.bank g k).unit with
  | none => .next s
  | some u =>
    if (s.bank g k).left != 0 then .next s
    else if s.unitOpen g k then .next (s.schedule 1 .unitCompletion s.ev)
    else .next (s.completeUnit g k u)

/-! ## Host nodes and held records (R78, R84) -/

/-- The host writes the ID (`va`) of a host node that it has been asked for. -/
def execHostNodeDoorbell (s : State) : Host.Outcome State Fault Refusal :=
  let p := s.ev.p
  let id := s.ev.va
  let node := field id 32 16
  if field id 60 4 != 1 || node = 0 then .next s
  else match (s.part p).job with
    | none => .next s
    | some j =>
      match j.itemAt (field id 54 6) (id.setWidth 32) true with
      | none => .next s
      | some i =>
        match i.nodes[node - 1]? with
        | none => .next s
        | some y =>
          let asked := !((s.partDies p).any fun d => ((s.die d).steppe ++ (s.die d).outside).any fun (x : Slot) =>
            x.part == p && x.item == i.num && x.node == node - 1)
          match y.kind with
          | .host _ => .next (if y.ready && asked && !y.finished then s.nodeDone p i.num (node - 1) 0 0 else s)
          | _ => .next s

def execCompletionRecord (s : State) : Host.Outcome State Fault Refusal :=
  match s.queue s.ev.p s.ev.q with
  | none => .next s
  | some x => .next (if x.cplstall then State.drainRecords s.ev.p s.ev.q (x.held.length + 1) s else s)

/-! ## The stop of a marked unit (R13) -/

/-- A marked unit stops now, unless a trap or a fault holds it: then it stops when it would next resume. -/
def execCancelStop (s : State) : Host.Outcome State Fault Refusal :=
  let b := s.bank s.ev.g s.ev.k
  if b.cancelled && b.unit.isSome && (b.st == .running || b.st == .ready) then .next (s.stopUnit s.ev.g s.ev.k 1 0)
  else .next s

/-! ## Pre-emption (R92, R93; spec/18 R299) -/

/-- The lowest free slot of the die's save pool. -/
def State.poolSlot (s : State) (d : Fin 8) : Option Nat :=
  firstIdx (fun n => !((s.die d).saved.any fun (y : Nat × Bank) => y.1 == n)) (s.die d).savecnt.toNat

/-- Units that may be moved out for a waiting node: those whose bank its lowest unit can take. -/
def State.victims (s : State) (d : Fin 8) (x : Slot) : List (Fin 512 × Fin 3 × Nat) :=
  ((List.finRange 512).filter fun g => dieOf g == d).flatMap fun g =>
    ([0, 1] : List (Fin 3)).filterMap fun k =>
      let b := s.bank g k
      match b.unit with
      | some u =>
        if u.started && (b.st == .running || b.st == .ready) && !u.detm && !b.cancelled && b.left != 0 && !(s.core g).stopped &&
            s.slotFits d g k x then some (g, k, u.prio) else none
      | none => none

/-- The victim: the lowest priority, then the highest core, then bank 1. -/
def pickVictim (l : List (Fin 512 × Fin 3 × Nat)) : Option (Fin 512 × Fin 3 × Nat) :=
  l.foldl (fun (r : Option (Fin 512 × Fin 3 × Nat)) (x : Fin 512 × Fin 3 × Nat) =>
    match r with | none => some x | some y => if y.2.2 < x.2.2 then r else some x) none

/-- The waiting node that may pre-empt: the highest-priority node or unit that waits for a slot, where it is a node. -/
def State.topNode (s : State) (d : Fin 8) : Option Slot :=
  match s.bestSlot d fun x => !(s.part x.part).halted && (s.kindOf x == 0 || s.kindOf x == 3) with
  | none => none
  | some x => if x.resume.isNone then some x else none

/-- The victim is quiet: nothing that it issued before the freeze is still on its way to its bank. -/
def State.saveReady (s : State) (g : Fin 512) (k : Fin 3) : Bool :=
  let b := s.bank g k
  s.quiet g k && b.ops.isEmpty && b.evops.isEmpty && (b.replay.all fun (o : AOp) => o.answer.isSome) &&
    !((s.die (dieOf g)).copies.any fun (c : CopyCmd) => match c.src with | some (h, j) => h == g && j.val == k.val | none => false) &&
    (match (s.core g).rot with | some x => x.bank != k | none => true) && !(s.agenda.any fun (x : Due) => x.ofPlace g k)

/-- Live accumulators of the bank go to its spill region, accN at 0x10000 + 4096 N. -/
def State.spillLive (s : State) (g : Fin 512) (k : Fin 3) : State :=
  let c := s.core g
  if c.accOwn != k || c.acclive == 0 then s.modBank g k fun b => { b with spillKeep := c.spill k }
  else
    let va := s.saveVA g (asBank k) + 0x10000
    let s := (List.finRange 4).foldl (fun (s : State) (n : Fin 4) =>
      if bit c.acclive n.val then s.rawWriteN (s.partAt g) (va + 4096 * n.val) (c.acc.get n).bytes else s) s
    (s.modBank g k fun b => { b with spillKeep := c.acclive }).modCore g fun c => { c.setSpill k c.acclive with acclive := 0, accOwn := 2 }

/-- The save: the dump, the accumulators, the copy to the pool slot; the unit then waits in the Steppe. -/
def State.saveUnit (s : State) (d : Fin 8) (g : Fin 512) (k : Fin 3) (u : UnitInfo) (slot froze : Nat) : State :=
  let p := s.partAt g
  let s := (s.dump g (asBank k)).spillLive g k
  let s := s.rawWriteN p (s.poolVA g slot) (s.greadN p (s.saveVA g (asBank k)) saveBytes)
  let b := s.bank g k
  let cap := match s.queue u.part u.queue with | some q => max q.qcap u.prio | none => u.prio
  let node := s.unitNode u
  let x : Slot :=
    { part := u.part, item := (match node with | some (i, _) => i.num | none => 0)
      node := (match node with | some (_, n) => n | none => 0)
      entered := froze, base := u.prio, cap := cap, queue := u.queue, seq := u.launch.setWidth 32, resume := some (g, asBank k, slot) }
  let s := s.modDie d fun y => { y with saved := y.saved ++ [(slot, b)] }
  let s := s.modDie d fun y =>
    if decide (y.steppe.length < steppeDepth) then { y with steppe := y.steppe ++ [x] } else { y with outside := y.outside ++ [x] }
  s.leaveBank g k

/-- The unit of the node for which a bank was freed starts there, where it still waits and fits; `ev` names it (R92, R299). -/
def State.startChosen (s : State) (d : Fin 8) (g : Fin 512) (k : Fin 3) : State :=
  match (s.die d).steppe.find? fun (x : Slot) =>
      x.resume.isNone && x.part == s.ev.p && x.item == s.ev.va.toNat && x.node == s.ev.w.toNat with
  | some x =>
    if s.bankFree g k && s.slotFits d g k x then
      ((s.modDie d fun z => { z with dispatchAt := s.cycle + 2 }).useSlot d g k x).dispatchBy d (s.cycle + 2)
    else s.pokeDispatch d
  | none => s.pokeDispatch d

/-- Choose a victim and freeze it; or (`flag`) save the frozen one when it is quiet and place the chosen node's unit in its bank.
-/
def execPreemption (s : State) : Host.Outcome State Fault Refusal :=
  let d := s.ev.d
  if s.ev.flag then
    let g := s.ev.g
    let k := s.ev.k
    let b := s.bank g k
    match b.unit with
    | none => .next (s.pokeDispatch d)
    | some u =>
      if b.cancelled then .next (s.stopUnit g k 1 0)
      else if !s.saveReady g k || decide (s.cycle < (s.die d).dispatchAt) then .next (s.schedule 1 .preemption s.ev)
      else .next ((s.saveUnit d g k u s.ev.id s.ev.n).startChosen d g k)
  else if (s.preempting d).isSome || !(s.freeSlots d).isEmpty then .next s
  else match s.topNode d, s.poolSlot d with
    | some x, some slot =>
      let delta := (s.part x.part).predelta.toNat
      (match pickVictim (s.victims d x) with
      | some (g, k, q) =>
        if delta = 0 || decide (s.slotPrio x < q + delta) then .next s
        else
          let s := if (s.core g).active == asBank k then s.endLease g else s
          let s := (s.endExec g k).modBank g k fun b => b.park s.cycle .trapped
          .next (s.schedule 1 .preemption
            { EvArgs.at g k with
              d := d, flag := true, id := slot, n := s.cycle, p := x.part, va := BitVec.ofNat 64 x.item, w := BitVec.ofNat 32 x.node })
      | none => .next s)
    | _, _ => .next s

end Sys2Proof.Machine
end

