-- ==== Sys2Proof/Machine/Phase.lean ====
section
/-! DEFINITION. Machine/Phase.lean: the close of a phase, the seal, the next phase, the end of a job, host stops, queue resets and
partition swaps (spec/05 R86, R87, R91; spec/12 R247; spec/18 R300, R301; spec/21 R313-R318; spec/22 R327, R333, R334). -/
namespace Sys2Proof.Machine
open Sys2Proof

/-! ## Which steps on the agenda belong to a partition -/

/-- Steps that name a place, a die, a cluster, or a partition. -/
def placeEvents : List Instr :=
  [.globalAccessAtOwner, .aWordRetire, .tokenPoppable, .queueEntryPoppable, .unitStart, .unitCompletion, .handlerStart,
    .bankSwitchTslice, .propagationRun, .replayListResend, .pageFaultFreeze, .cancelStop, .colInputRise, .copyFault, .oredFull,
    .evsetEffect, .evclrEffect]
def dieEvents : List Instr := [.copyChannelStart, .copyRowCommit, .copyCommandComplete, .unitDispatch, .preemption, .pageTableWalk]
def clusterEvents : List Instr :=
  [.arrayCommandStart, .arraySlotFetch, .kStepStart, .kStepLanding, .drainStart, .drainWrite, .mzeroEffect, .msnapWrite, .mscanWrite,
    .mpredResult, .arrayCommandRetire, .leaseGrant, .leaseEndCommands, .leaseEndCycles, .rgrotExchange, .rgrotExchangeEnd,
    .arrayReplay]
def partEvents : List Instr :=
  [.queueHeadCheck, .entryDispatch, .phaseClose, .sealInputRise, .sealLineFire, .sealLineArrival, .phaseOpen, .jobCompletion,
    .faultBatchTimer, .faultBatchCount, .colReleaseFire, .colReleaseArrival, .undoTimeout, .holdTimeout, .recordedInputInject,
    .phaseRestart, .completionRecord, .intervalRollback]

def dieOfCluster (cl : Fin 64) : Fin 8 := ⟨cl.val / 8, by omega⟩

/-- A step acts on what a partition's job has in flight. -/
def State.ofPartition (s : State) (p : Fin 8) (x : Due) : Bool :=
  let dies := s.partDies p
  if placeEvents.contains x.what then s.inPart p x.args.g
  else if dieEvents.contains x.what then dies.contains x.args.d
  else if clusterEvents.contains x.what then dies.contains (dieOfCluster x.args.cl)
  else if partEvents.contains x.what then x.args.p == p
  else x.what == .invalidationComplete && match x.args.inv with | .word g => s.inPart p g | .mailbox => false

/-! ## The close of a phase (R86; spec/12 R247) -/

/-- A graph queue holds a PB header at its head, or is empty. -/
def State.atBoundary (s : State) (p : Fin 8) (x : Queue) : Bool :=
  !x.graph || !x.enabled || x.head == x.tail || (x.checked && (s.graphAt p (x.entryVA x.head)).pb)

/-- The key order of R247: QUEUE, SEQ, NODE of the launch, the unit, its count. -/
def OredEntry.key (e : OredEntry) : Nat :=
  ((((field e.work 54 6) * 2 ^ 32 + field e.work 0 32) * 2 ^ 16 + field e.work 32 16) * 2 ^ 32 + e.unit.toNat) * 2 ^ 32 + e.seq.toNat

/-- Apply the ordered reductions of a die's stack, each one as a rounded addition. -/
def State.applyOrdered (s : State) (p d : Fin 8) (k : Fin 2) : State :=
  let l := sortBy (fun (x y : OredEntry) => decide (x.key < y.key)) (s.stack d k).ored
  let s := s.modStack d k fun t => { t with ored := [] }
  l.foldl (fun (s : State) (e : OredEntry) =>
    let s := s.flushLines p d [e.pa]
    let old : Word := BitVec.ofNat 32 (s.hbm.readLE (hbmKey d e.pa) 4)
    let s := s.tagLine p d e.pa
    { s with hbm := s.hbm.writeLE (hbmKey d e.pa) 4 (fadd32 .rne old e.v).1.toNat }) s

/-- The words of a die with ordered reductions. -/
def State.orderedWords (s : State) (d : Fin 8) : List Nat :=
  (s.die d).hbmStacks.toList.flatMap fun t => t.ored.map fun e => e.pa

/-- The queues of a job let its phase close: each shows a boundary, or the close is forced. -/
def State.boundary (s : State) (p : Fin 8) (j : Job) : Bool :=
  j.phase.forced || j.queues.toList.all fun (x : Option Queue) => match x with | some x => s.atBoundary p x | none => true

/-- Every die of a partition looks at its seal input. -/
def State.sealLook (s : State) (p : Fin 8) : State :=
  (s.partDies p).foldl (fun (s : State) (d : Fin 8) => s.schedule 0 .sealInputRise { EvArgs.ofPart p with d := d }) s

/-- Every graph has completed and the queues show boundaries: the ordered reductions are applied and the seal begins. Until then a
phase that closes looks at its dies, whose drained units may let the seal begin (spec/12 R253). -/
def execPhaseClose (s : State) : Host.Outcome State Fault Refusal :=
  let p := s.ev.p
  match (s.part p).job with
  | none => .next s
  | some j =>
    if j.ended || !j.phase.closing || j.phase.sealing || (s.part p).halted then .next s
    else if j.phase.graphs != 0 || !s.boundary p j then .next (s.sealLook p)
    else
      match (s.partDies p).findSome? fun d => s.overflowBlocked d (s.orderedWords d) with
      | some t => .next (t.schedule 1 .phaseClose s.ev)
      | none =>
      let s := (s.partDies p).foldl (fun (s : State) (d : Fin 8) => (s.applyOrdered p d 0).applyOrdered p d 1) s
      .next ((s.modJob p fun j => { j with phase := { j.phase with sealing := true } }).sealLook p)

/-! ## The seal (spec/21 R313, R318) -/

/-- Every unit on the die has completed or is marked drained. -/
def State.dieDrained (s : State) (p d : Fin 8) : Bool :=
  (s.partUnits p).all fun (x : Fin 512 × Fin 2) => dieOf x.1 != d || (s.bank x.1 (x.2.castLE (by decide))).drained

/-- The inputs of the local dies and of the group's peers are all high. -/
def State.sealHigh (s : State) (p : Fin 8) (j : Job) : Bool :=
  (s.partDies p).all (fun d => bit j.phase.inputs d.val) && (s.sealPeers p).all fun a => bit j.phase.peerSeals a

/-- Some launch or copy node of the partition has still units to dispatch or a command to run. -/
def State.workToCome (s : State) (p : Fin 8) (j : Job) : Bool :=
  j.items.any fun (i : Item) => !i.finished && i.nodes.any fun (x : NodeSt) => !x.finished &&
    match x.kind with
    | .launch r => (List.finRange 8).any fun k => decide (x.lowest (s.ncores p) k.val < r.width)
    | .copy _ _ => true
    | .host _ => false

/-- Every unit of the phase has completed or is marked drained, none is to come, and a die's ordered reductions are applied, which
waits for the close (R313 step 1 and 2, spec/12 R253). -/
def State.mayRise (s : State) (p d : Fin 8) (j : Job) : Bool :=
  j.phase.closing && (j.phase.sealing ||
    (s.boundary p j && !s.workToCome p j && (s.partDies p).all fun x => s.dieDrained p x && (s.die x).saved.isEmpty) &&
      (s.die d).hbmStacks.toList.all fun (t : Stack) => t.ored.isEmpty)

/-- The line fires once, when every input is high and the phase has closed; its times count from the last rise or the close,
whichever is later (log 122). -/
def State.sealFire (s : State) (p : Fin 8) : State :=
  match (s.part p).job with
  | none => s
  | some j =>
    if !j.phase.sealing || j.phase.fired || !s.sealHigh p j then s
    else (s.modJob p fun j => { j with phase := { j.phase with fired := true } }).schedule 0 .sealLineFire
      { EvArgs.ofPart p with d := p, n := j.phase.lastEdge }

/-- A die whose units are drained applies its pending merges; in a phase that closes it raises its input when every unit of the
phase is drained, and the last input fires the line. -/
def execSealInputRise (s : State) : Host.Outcome State Fault Refusal :=
  let p := s.ev.p
  let d := s.ev.d
  match (s.part p).job with
  | none => .next s
  | some j =>
    if j.ended || !s.dieDrained p d then .next s
    else match s.overflowBlocked d (s.mergedWords d) with
    | some t => .next (t.schedule 1 .sealInputRise s.ev)
    | none =>
      let s := s.flushDie p d
      if !s.mayRise p d j then .next s
      else if bit j.phase.inputs d.val then .next (s.sealFire p)
      else
        let j := { j with phase := { j.phase with inputs := setBit j.phase.inputs d.val true, lastEdge := edgeOf p d } }
        let s := s.modJob p fun _ => j
        if !((s.partDies p).all fun d => bit j.phase.inputs d.val) then .next s
        else
          let s := (s.sealPeers p).foldl (fun (s : State) (a : Nat) =>
            s.modDev fun v => { v with spanOut := v.spanOut ++ [(6, a, 0, [BitVec.ofNat 8 (edgeOf p d)])] }) s
          .next (s.sealFire p)

/-- The line fires: it reaches die x 12 + 20 (e(a) + e(x)) core cycles later; `n` is e(a). -/
def execSealLineFire (s : State) : Host.Outcome State Fault Refusal :=
  let p := s.ev.p
  .next ((s.partDies p).foldl (fun (s : State) (d : Fin 8) =>
    s.schedule (12 + 20 * (s.ev.n + edgeOf p d)) .sealLineArrival { EvArgs.ofPart p with d := d }) s)

/-- Some line still carries a tag. -/
def Stack.carries (t : Stack) (v : BitVec 20) : Bool := t.tagRest == v || t.tags.any fun x => x.2 == v

/-- A held line leaves the device: its bytes perform at the host, at a peer, or at an irrevocable page of device memory. -/
def State.releaseLine (s : State) (p : Fin 8) (h : HeldLine) : State :=
  (sortBy (fun (x y : Nat × Byte) => decide (x.1 < y.1)) h.bytes).foldl (fun (s : State) (x : Nat × Byte) =>
    match s.locate p (h.line * 64 + x.1) with
    | .dev d pa _ => { s with hbm := s.hbm.write (hbmKey d pa) x.2 }
    | .host a _ => { s with host := s.host.write a x.2 }
    | .peer a off => s.modDev fun v => { v with spanOut := v.spanOut ++ [(2, a, BitVec.ofNat 64 off, [x.2])] }
    | .fault _ => s) s

/-- The places in device memory to which the held lines of a die go. -/
def State.heldWords (s : State) (p d : Fin 8) : List (Fin 8 × Nat) :=
  (s.die d).hold.flatMap fun (h : HeldLine) => h.bytes.filterMap fun (x : Nat × Byte) =>
    match s.locate p (h.line * 64 + x.1) with | .dev e pa _ => some (e, pa) | _ => none

/-- The seal reaches a die: its undo records are freed, its held lines leave in the order of their first images. With the last
die RINCUR advances and the phase completes; members on other devices finish a free time later (log 129). -/
def execSealLineArrival (s : State) : Host.Outcome State Fault Refusal :=
  let p := s.ev.p
  let d := s.ev.d
  let next := (s.part p).rincur + 1
  if (s.die d).hbmStacks.toList.any fun (t : Stack) => t.carries next then
    let swept := s.agenda.any fun (x : Due) => x.what == .lineTagSweep && x.args.d == d
    let s := if swept then s else s.schedule 1 .lineTagSweep { EvArgs.ofPart p with d := d }
    .next (s.schedule 1 .sealLineArrival s.ev)
  else
    let held := (s.die d).hold
    match (s.heldWords p d).findSome? fun x => s.overflowBlocked x.1 [x.2] with
    | some t => .next (t.schedule 1 .sealLineArrival s.ev)
    | none =>
    let s := s.modDie d fun x =>
      { x with hbmStacks := x.hbmStacks.map fun (t : Stack) => { t with undo := [] }
               hold := [], press := false, holdfull := false, sealDone := true }
    let s := held.foldl (fun (s : State) (h : HeldLine) => s.releaseLine p h) s
    if (s.partDies p).all fun x => (s.die x).sealDone then
      let s := (s.partDies p).foldl (fun (s : State) (x : Fin 8) => s.modDie x fun y => { y with sealDone := false }) s
      let s := s.unschedule fun (x : Due) => (x.what == .undoTimeout || x.what == .holdTimeout) && x.args.p == p
      let s := s.modJob p fun j => { j with phase := { j.phase with pressFrom := none, holdFrom := none } }
      let s := s.modPart p fun q => { q with rincur := next }
      if (s.sealPeers p).isEmpty then .next (s.schedule 0 .phaseOpen (EvArgs.ofPart p))
      else .next ((s.useFree).schedule (Config.accessDelay s.free) .phaseOpen (EvArgs.ofPart p))
    else .next s

/-- The background sweep: a line whose tag is 2^18 or more intervals older than RINCUR takes RINCUR - 2^18 (R312). -/
def sweepTag (rin v : BitVec 20) : BitVec 20 := if decide (2 ^ 18 ≤ (rin - v).toNat) then rin - BitVec.ofNat 20 (2 ^ 18) else v

def execLineTagSweep (s : State) : Host.Outcome State Fault Refusal :=
  let d := s.ev.d
  match s.partOfDie d with
  | none => .next s
  | some p =>
    let rin := (s.part p).rincur
    .next (s.modDie d fun x =>
      { x with hbmStacks := x.hbmStacks.map fun (t : Stack) =>
          { t with tagRest := sweepTag rin t.tagRest, tags := t.tags.map fun (y : Nat × BitVec 20) => (y.1, sweepTag rin y.2) } })

/-! ## Rotation (R91; spec/21 R325) -/

/-- A die after a rotation that makes physical cluster `r` the spare. -/
def Die.migrate (x : Die) (r : Fin 9) : Die :=
  { x with map := x.map.map fun (c : Fin 9) => if c == r then x.spare else c, spare := r, passes := 0 }

/-- At most one rotation: a retiring cluster first, else the next one in turn. -/
def Die.rotate (x : Die) : Die :=
  if x.passes = 0 || bit x.failed x.spare.val then x
  else match (List.finRange 9).find? fun c => bit x.retire c.val && x.map.toList.contains c with
    | some r => x.migrate r
    | none =>
      let n := x.spare + 1
      if !x.roten || bit x.failed n.val || bit x.retire x.spare.val then x else x.migrate n

/-! ## Opening a phase (R86; spec/21 R321; spec/22 R329, R334) -/

/-- Entries of the recording from a position up, to the phase's digest. -/
def State.readRecording (s : State) (p : Fin 8) (r : HostRing) : Nat → Word → List (BitVec 256)
  | 0, _ => []
  | n + 1, i =>
    let e : BitVec 256 := BitVec.ofNat 256 (s.greadLE p (r.base.toNat + 32 * (i.toNat % 2 ^ r.log)) 32)
    if field e 121 7 == 8 then [e] else e :: s.readRecording p r n (i + 1)

/-- An entry is a rollback marker. -/
def isMarker (e : BitVec 256) : Bool := field e 121 7 == 6

/-- What a recording says of the attempt that begins: all, or as far as the marker of the rollback that ends it (spec/21 R324). -/
def thisAttempt (l : List (BitVec 256)) : List (BitVec 256) :=
  l.takeWhile (fun e => !isMarker e) ++ (l.dropWhile fun e => !isMarker e).take 1

/-- What it says of the attempts after that rollback. -/
def nextAttempts (l : List (BitVec 256)) : List (BitVec 256) := (l.dropWhile fun e => !isMarker e).drop 1

/-- The recorded writes of an attempt and the rollback that ends it, at their times from its opening. -/
def State.armPlayback (s : State) (p : Fin 8) (l : List (BitVec 256)) : State :=
  (thisAttempt l).foldl (fun (s : State) (e : BitVec 256) =>
    let k := field e 121 7
    if k == 1 || k == 2 || k == 5 then
      s.schedule (field e 0 48) .recordedInputInject
        { EvArgs.ofPart p with
          va := e.extractLsb' 64 57 |>.setWidth 64, data := (leBytes 8 (field e 128 64)).take (field e 192 64), n := k }
    else if k == 6 then s.schedule (field e 0 48) .intervalRollback { EvArgs.ofPart p with n := field e 128 8, flag := true }
    else s) s

def State.loadPlayback (s : State) (p : Fin 8) : State :=
  let q := s.part p
  if q.rpMode != 2 || q.div then s
  else
    let l := s.readRecording p q.rcd (q.rcd.tail - q.rcd.head).toNat q.rcd.head
    (s.modPart p fun q => { q with playback := l, rcd := { q.rcd with head := q.rcd.head + BitVec.ofNat 32 l.length } }).armPlayback p l

/-- The state of a phase at its opening. -/
def Phase.start (num first now : Nat) (heads tails : Vector Word 64) (evs : Vector (BitVec 256) 8) (pbq : List (Fin 64 × Word)) (rcd : Word)
    (left : List Nat) : Phase :=
  { num := num, closing := false, pb := false, forced := false, jobEnd := false, sealing := false, inputs := 0, fired := false, lastEdge := 0,
    peerSeals := 0, pressFrom := none, holdFrom := none, okGraphs := 0, status := 0, reason := 0, graphs := 0, heads := heads,
    tails := tails, evs := evs, pbq := pbq, openedAt := now, unrestored := left, rcdStart := rcd, firstItem := first }

def Bank.zeroSfc (b : Bank) (now : Nat) : Bank := { b with sfcBase := 0, sfcSince := b.sfcSince.map fun _ => now, oredseq := 0 }

/-- What every phase begins with: SFC, head counters and OREDSEQ at zero, the barriers' lines low, the Steppes at work. -/
def State.phaseState (s : State) (p : Fin 8) (f : Job → Phase) : State :=
  let now := s.cycle
  let s := s.mapCores p fun _ c => { (c.perfClear now) with banks := c.banks.map fun (b : Bank) => b.zeroSfc now }
  (s.modJob p fun j => { j with phase := f j, colHigh := 0, colPeers := [], digest := 0 }).modPart p fun q => { q with halted := false }

/-- The PB headers that open the phase, each with its graph. They are dispatched as they stand: neither their WAIT bits nor CPLSTALL
of their queue is looked at (DESIGN CHOICE, log 121). -/
def State.openBoundary (s : State) (p : Fin 8) (pbq : List (Fin 64 × Word)) : State :=
  pbq.foldl (fun (s : State) (y : Fin 64 × Word) =>
    match s.queue p y.1 with
    | some x => s.openGraph p y.1 x y.2
    | none => s) s

/-- Every head is looked at again, and every Steppe chooses. -/
def State.wake (s : State) (p : Fin 8) : State :=
  (s.partDies p).foldl (fun (s : State) (d : Fin 8) => (s.dispatchBy d s.cycle)) (s.pokeQueues p)

/-- The next phase opens. -/
def State.beginPhase (s : State) (p : Fin 8) (num : Nat) (pbq : List (Fin 64 × Word)) : State :=
  let s := s.modPart p fun q => { q with rpMode := q.rpNext.getD q.rpMode, rpNext := none, rbCount := 0 }
  let s := s.loadPlayback p
  let heads (j : Job) : Vector Word 64 := j.queues.map fun (x : Option Queue) => match x with | some x => x.head | none => 0
  let tails (j : Job) : Vector Word 64 := j.queues.map fun (x : Option Queue) => match x with | some x => x.tail | none => 0
  let rcd := (s.part p).rcd.tail
  let now := s.cycle
  let s := s.phaseState p fun j => Phase.start num j.nextItem now (heads j) (tails j) j.ev pbq rcd []
  (s.openBoundary p pbq).wake p

/-- PB headers at the heads are consumed: those that carry a graph, with their positions. At the end of a job (`last`) no phase
follows, and a header with a graph stays in its queue, whose entries complete by cancel (DESIGN CHOICE, log 121). A header without
a graph leaves no record, and its work ID names nothing (DESIGN CHOICE, log 121). -/
def State.consumeBoundary (s : State) (p : Fin 8) (last : Bool) : State × List (Fin 64 × Word) :=
  (List.finRange 64).foldl (fun (r : State × List (Fin 64 × Word)) (q : Fin 64) =>
    match r.1.queue p q with
    | none => r
    | some x =>
      let h := r.1.graphAt p (x.entryVA x.head)
      if x.graph && x.checked && x.head != x.tail && h.pb && !(last && h.ncount != 0) then
        ((r.1.setQueue p q fun x => skipCancelled x.cancelled.length { x with head := x.head + 1, checked := false }),
          if h.ncount != 0 then r.2 ++ [(q, x.head)] else r.2)
      else r) (s, [])

/-- The phase digest is recorded, or compared with the recorded one (R333, R334). -/
def State.closePhaseDigest (s : State) (p : Fin 8) (j : Job) : State :=
  if (s.part p).rpMode = 0 || !s.feature 6 then s
  else
    let time := s.cycle - j.phase.openedAt
    let s := s.recordPut p (recEntry time 0x30 255 0 8 j.phase.num j.digest.toNat)
    if (s.part p).rpMode = 2 && !(s.part p).div then
      match (s.part p).playback.find? fun (e : BitVec 256) => field e 121 7 == 8 with
      | some e => if field e 192 64 == j.digest.toNat then s else s.diverge p p 0x30 255 0 (s.devTime p) 0 j.digest
      | none => s.diverge p p 0x30 255 0 (s.devTime p) 0 j.digest
    else s

/-- The phase's kind-2 record, then the next phase or the end of the job. -/
def execPhaseOpen (s : State) : Host.Outcome State Fault Refusal :=
  let p := s.ev.p
  match (s.part p).job with
  | none => .next s
  | some j =>
    if j.ended || !j.phase.sealing then .next s
    else
      let ph := j.phase
      let s := s.closePhaseDigest p j
      let s := s.putRecord p 0
        (recordBits (workId 3 0 0 (BitVec.ofNat 32 ph.num)) 0 ph.status ph.reason 2 ph.okGraphs (s.devTime p))
      let s := s.modJob p fun j =>
        { j with
          past := j.past ++ [ph.status], okPhases := j.okPhases + b01 (ph.status == 0)
          reason := if j.status < ph.status then ph.reason else j.reason
          status := max j.status ph.status }
      let r := if ph.pb then s.consumeBoundary p ph.jobEnd else (s, [])
      if ph.jobEnd then .next (r.1.schedule 0 .jobCompletion (EvArgs.ofPart p))
      else
        let s := r.1.modPart p fun q => { q with cmd := if q.cmd = 5 then 0 else q.cmd }
        let s := (s.partDies p).foldl (fun (s : State) (d : Fin 8) => s.modDie d Die.rotate) s
        .next (s.beginPhase p (ph.num + 1) r.2)

/-- The job's kind-3 record; then its queues are disabled and what waits in them completes by cancel. -/
def State.endJobRecord (s : State) (p : Fin 8) (status : Nat) (reason : Byte) : State :=
  let ok := match (s.part p).job with | some j => j.okPhases | none => 0
  s.putRecord p 0 (recordBits (workId 4 0 0 0) 0 status reason 3 ok (s.devTime p))

def execJobCompletion (s : State) : Host.Outcome State Fault Refusal :=
  let p := s.ev.p
  match (s.part p).job with
  | none => .next s
  | some j =>
    if j.ended then .next s
    else
      let s := s.modJob p fun j => { j with ended := true, phase := { j.phase with closing := false, sealing := false } }
      let s := (s.endJobRecord p j.status j.reason).disableQueues p
      .next (s.modPart p fun q => { q with cmd := if q.cmd = 5 || q.cmd = 6 then 0 else q.cmd })

/-! ## Commands 5 and 6 (R87) -/

/-- A job is open in the partition. -/
def State.jobOpen (s : State) (p : Fin 8) : Bool := match (s.part p).job with | some j => !j.ended | none => false

def State.isClosing (s : State) (p : Fin 8) : Bool := match (s.part p).job with | some j => j.phase.closing | none => false

def execClosePhase (s : State) : Host.Outcome State Fault Refusal :=
  let p := s.ev.p
  if (s.part p).cmd != 0 || !s.jobOpen p then .next s
  else
    let s := s.modPart p fun q => { q with cmd := 5 }
    .next (if s.isClosing p then s else s.forceClose p)

def execEndJob (s : State) : Host.Outcome State Fault Refusal :=
  let p := s.ev.p
  if (s.part p).cmd != 0 || !s.jobOpen p then .next s
  else
    let s := (s.modPart p fun q => { q with cmd := 6 }).modJob p fun j => { j with phase := { j.phase with jobEnd := true } }
    .next (if s.isClosing p then s else s.forceClose p)

/-! ## Host stop and resume (spec/22 R327) -/

/-- A host stop or a resume reaches the dies of the partition. -/
def State.toDies (s : State) (p : Fin 8) (i : Instr) : State :=
  (s.partDies p).foldl (fun (s : State) (d : Fin 8) =>
    s.schedule (12 + 20 * edgeOf p d + 12) i { EvArgs.ofPart p with d := d, flag := true }) s

/-- The last of the arrivals of a command has come. -/
def State.arrivalsLeft (s : State) (p : Fin 8) (i : Instr) : Bool :=
  s.agenda.any fun (x : Due) => x.what == i && x.args.p == p && x.args.flag && x.args.id == 0

/-- The record of a bank stopped by the host. -/
def hostTrap : TrapRec := { cause := 29, strm := .a, col := 0, word := 0, detail0 := 0xFFFFFFFF, detail1 := 0 }

/-- A core stops: its active bank is dumped when what it has issued has ended. -/
def State.stopCore (s : State) (p : Fin 8) (g : Fin 512) : State :=
  let k : Fin 3 := (s.core g).active.castLE (by decide)
  let s := if (s.core g).handling.isNone && (s.bank g k).st == .running then
      let s := (s.traceAt g k 0 0 5 (s.bank g k).apc 29 0xFFFFFFFF).endLease g
      let s := (s.endExec g k).modBank g k fun b => { b.park s.cycle .trapped with trap := some hostTrap }
      s.schedule 0 .hostStop { EvArgs.at g k with p := p, flag := true, id := 2 }
    else s
  s.modCore g fun c => { c with stopped := true }

/-- CMD 1 (`id` = 1 is the stop of a divergence, R334); an arrival at a die (`flag`); or the dump of a stopped bank (`id` = 2). -/
def execHostStop (s : State) : Host.Outcome State Fault Refusal :=
  let p := s.ev.p
  if !s.ev.flag then
    if (s.ev.id = 0 && (s.part p).cmd != 0) || (s.part p).hstop then .next s
    else
      let s := s.modPart p fun q => { q with hstop := true, cmd := if s.ev.id = 0 then 1 else q.cmd }
      .next (s.toDies p .hostStop)
  else if s.ev.id = 2 then
    if (s.bank s.ev.g s.ev.k).trap != some hostTrap then .next s
    else if s.quiet s.ev.g s.ev.k then .next (s.dump s.ev.g (asBank s.ev.k))
    else .next (s.schedule 1 .hostStop s.ev)
  else
    let s := ((List.finRange 512).filter fun g => dieOf g == s.ev.d).foldl (fun (s : State) (g : Fin 512) => s.stopCore p g) s
    .next (if s.arrivalsLeft p .hostStop then s else s.modPart p fun q => { q with cmd := if q.cmd = 1 then 0 else q.cmd })

/-- A core runs again: the stopped bank resumes as by `eret`, once it has been dumped. -/
def State.resumeCore (s : State) (p : Fin 8) (g : Fin 512) : State :=
  let k := (s.core g).active
  let kb : Fin 3 := k.castLE (by decide)
  if !(s.core g).stopped then s
  else if (s.bank g kb).trap == some hostTrap then
    if s.agenda.any fun (x : Due) => x.what == .hostStop && x.args.id == 2 && x.args.g == g then
      s.schedule 1 .hostResume { EvArgs.at g kb with p := p, flag := true, id := 2 }
    else s.resumeBank g k
  else
    let s := s.modCore g fun c => { c with stopped := false }
    (s.startIfIdle g kb 0).startIfIdle g (otherBank kb) 0

def execHostResume (s : State) : Host.Outcome State Fault Refusal :=
  let p := s.ev.p
  if !s.ev.flag then
    if (s.part p).cmd != 0 || !(s.part p).hstop then .next s
    else .next ((s.modPart p fun q => { q with hstop := false, cmd := 2 }).toDies p .hostResume)
  else if s.ev.id = 2 then .next (s.resumeCore p s.ev.g)
  else
    let s := ((List.finRange 512).filter fun g => dieOf g == s.ev.d).foldl (fun (s : State) (g : Fin 512) => s.resumeCore p g) s
    let s := s.dispatchBy s.ev.d s.cycle
    .next (if s.arrivalsLeft p .hostResume then s else s.modPart p fun q => { q with cmd := if q.cmd = 2 then 0 else q.cmd })

/-! ## Queue reset (spec/18 R301) -/

/-- The reset of a queue ends: it accepts entries again. -/
def State.resetDone (s : State) (p : Fin 8) (q : Fin 64) : State :=
  (s.modPart p fun x => { x with qreset := none, cmd := if x.cmd = 3 then 0 else x.cmd }).pokeQueue p q

/-- A `sysw` of QRESET (`flag`), or CMD 3, which waits (`id` = 1) while another reset is in progress. -/
def execQueueReset (s : State) : Host.Outcome State Fault Refusal :=
  let p := s.ev.p
  let q := s.ev.q
  let go (s : State) : State :=
    let s := (s.cancelQueue p q).cancelItems p fun (i : Item) => i.queue == q
    if (s.part p).trcOpen && (s.part p).trcQueue == q then s.schedule 0 .resetTruncatedTrace s.ev else s.resetDone p q
  if s.ev.flag then .next (go s)
  else if s.ev.id = 0 && (s.part p).cmd != 0 then .next s
  else if (s.part p).qreset.isSome then
    .next ((s.modPart p fun x => { x with cmd := 3 }).schedule 1 .queueReset { s.ev with id := 1 })
  else .next (go (s.modPart p fun x => { x with cmd := 3, qreset := some q, qresetQ := q }))

/-- Once the units of the reset have stopped, the session closes with its reset-truncated record. -/
def execResetTruncatedTrace (s : State) : Host.Outcome State Fault Refusal :=
  let p := s.ev.p
  let a := s.ev
  let busy := match (s.part p).job with | some j => j.items.any fun (i : Item) => i.queue == a.q && !i.finished | none => false
  if busy then .next (s.schedule 1 .resetTruncatedTrace a)
  else
    let d := if a.flag then dieOf a.g else p
    let rank := rankOf p d
    let rec_ :=
      if a.flag then traceBits a.n (rank + streamCode a.st * 16 + a.col.val * 64) (inDie a.g) 10 a.q.val a.w.toNat a.q.val 0
      else traceBits (s.devTime p) 0x30 255 10 a.q.val 0 a.q.val 0
    let s := (s.traceRecord p d rec_).traceFlush p
    let s := (s.modPart p fun x => { x with trcOpen := false }).unschedule fun (x : Due) => x.what == .headSample && x.args.p == p
    .next (s.resetDone p a.q)

/-! ## Partition swap (spec/18 R300) -/

/-- The steps that must end before the halt has completed. -/
def swapWaits : List Instr :=
  [.tokenPoppable, .queueEntryPoppable, .unitStart, .handlerStart, .evsetEffect, .evclrEffect, .bankSwitchTslice, .pageFaultFreeze,
    .propagationRun, .replayListResend, .pageTableWalk]

/-- A partition swap has halted the partition's cores and has not resumed them. -/
def State.swapHalted (s : State) (p : Fin 8) : Bool :=
  s.agenda.any fun (d : Due) => d.what == .partitionSwap && d.args.p == p && decide (2 ≤ d.args.id)

/-- What else lets the partition run leaves it halted under a swap. -/
def State.keepHalted (s : State) (p : Fin 8) : State :=
  if s.swapHalted p then (s.modPart p fun q => { q with halted := true }).mapCores p fun _ c => { c with stopped := true } else s

/-- Every issued M command has retired, every issued access has performed, every copy command has completed or stalled. -/
def State.haltDone (s : State) (p : Fin 8) : Bool :=
  let dies := s.partDies p
  ((List.finRange 512).all fun g => !s.inPart p g ||
      (s.core g).banks.toList.all fun (b : Bank) => b.ops.all fun (o : AOp) => o.performed && !o.body.returns || o.fault != 0) &&
    ((List.finRange 64).all fun cl => !dies.contains (dieOfCluster cl) ||
      ((s.cluster cl).cmds.all (fun (a : ArrCmd) => a.retired) && !(s.cluster cl).rotating)) &&
    (dies.all fun d => (s.die d).copies.all fun (c : CopyCmd) => c.st == .stalled) && (s.part p).qreset.isNone &&
    !(s.agenda.any fun (x : Due) => swapWaits.contains x.what && s.ofPartition p x)

/-- Freeze a core with both its banks. -/
def Core.halt (c : Core) (now : Nat) : Core :=
  { c with
    stopped := true
    banks := c.banks.mapFinIdx fun i b _ => if b.st == .running then b.park now (if i = 2 then .running else .ready) else b }

def Core.toShadow (c : Core) : SwapCore :=
  { banks := c.banks, acc := c.acc, accOwn := c.accOwn, acclive := c.acclive, spill0 := c.spill0, spill1 := c.spill1,
    active := c.active, handling := c.handling, ctxsw := c.ctxsw, rot := c.rot }

/-- What a core holds of a job that has never run on it. -/
def SwapCore.empty : SwapCore := Core.reset.toShadow

/-- The core flips its scratchpad and takes the incoming job's state. -/
def Core.swapIn (c : Core) (x : SwapCore) : Core :=
  { c with
    sp := c.spShadow, spShadow := c.sp, owner := c.ownerShadow, ownerShadow := c.owner
    banks := x.banks, acc := x.acc, accOwn := x.accOwn, acclive := x.acclive, spill0 := x.spill0, spill1 := x.spill1,
    active := x.active, handling := x.handling, ctxsw := x.ctxsw, rot := x.rot, wide := [], window := [] }

/-- The die rank of a copy command: that of its core, or of its node. -/
def copyRank (p : Fin 8) (d : Fin 8) (c : CopyCmd) : Nat × CopyCmd := (rankOf p d, c)

/-- Flip and move: the active job and the one in shadow storage change places. -/
def State.flip (s : State) (p : Fin 8) : State :=
  let q := s.part p
  let dies := s.partDies p
  let cores := (List.finRange 512).filter fun g => s.inPart p g
  let outCores := cores.map fun g => (g.val - 64 * p.val, (s.core g).toShadow)
  let outCopies := dies.flatMap fun d => (s.die d).copies.map (copyRank p d)
  let outSlots := dies.flatMap fun d =>
    ((s.die d).steppe.map fun (x : Slot) => (rankOf p d, true, x)) ++ (s.die d).outside.map fun (x : Slot) => (rankOf p d, false, x)
  let outSaved := dies.flatMap fun d => (s.die d).saved.map fun (x : Nat × Bank) => (rankOf p d, x.1, x.2)
  let outAgenda := (s.agenda.filter fun x => s.ofPartition p x).map fun (x : Due) => { x with at_ := x.at_ - s.cycle }
  let s := s.unschedule fun x => s.ofPartition p x
  let s := s.mapCores p fun g c =>
    c.swapIn (match q.shadowCores.find? fun (x : Nat × SwapCore) => x.1 == g.val - 64 * p.val with | some x => x.2 | none => SwapCore.empty)
  let s := dies.foldl (fun (s : State) (d : Fin 8) =>
    let r := rankOf p d
    s.modDie d fun x =>
      { x with
        copies := (q.shadowCopies.filter fun (y : Nat × CopyCmd) => y.1 == r).map fun (y : Nat × CopyCmd) => y.2
        steppe := (q.shadowSteppe.filter fun (y : Nat × Bool × Slot) => y.1 == r && y.2.1).map fun (y : Nat × Bool × Slot) => y.2.2
        outside := (q.shadowSteppe.filter fun (y : Nat × Bool × Slot) => y.1 == r && !y.2.1).map fun (y : Nat × Bool × Slot) => y.2.2
        saved := (q.shadowSaved.filter fun (y : Nat × Nat × Bank) => y.1 == r).map fun (y : Nat × Nat × Bank) => y.2
        writeback := true }) s
  let s := s.modPart p fun q =>
    { q with
      job := q.shadowJob, shadowJob := q.job, shadowCores := outCores, shadowCopies := outCopies, shadowSteppe := outSlots,
      shadowSaved := outSaved, colerr := q.shadowColerr, shadowColerr := q.colerr, shadowAgenda := outAgenda }
  let s := q.shadowAgenda.foldl (fun (s : State) (x : Due) => s.schedule x.at_ x.what x.args) s
  (s.useFree).schedule (1 + Config.accessDelay s.free) .shadowWritebackEnd (EvArgs.ofPart p)

/-- The incoming units resume, the held answers act, the Steppes dispatch. -/
def State.swapResume (s : State) (p : Fin 8) : State :=
  let s := (s.mapCores p fun _ c => { c with stopped := (c.bank (c.active.castLE (by decide))).trap == some hostTrap }).modPart p
    fun q => { q with halted := false, cmd := 0 }
  let s := ((List.finRange 512).filter fun g => s.inPart p g).foldl (fun (s : State) (g : Fin 512) =>
    let k : Fin 3 := (s.core g).active.castLE (by decide)
    (s.startIfIdle g k 264).startIfIdle g (otherBank k) 264) s
  let held := (s.part p).heldAnswers
  let s := s.modPart p fun q => { q with heldAnswers := [] }
  let s := held.foldl (fun (s : State) (x : Nat × Nat × Option Nat × Bool) =>
    s.answer p (fun (f : PageFault) =>
      match x.2.2.1 with
      | some i => f.reported && f.pri == some i
      | none => f.pri.isNone && decide (x.1 ≤ f.page) && decide (f.page < x.1 + x.2.1)) x.2.2.2) s
  s.wake p

/-- Core cycles from the flip to the resumption: one, and 147,456 bytes each way at 256 bytes a cycle. -/
def swapCycles : Nat := 1 + 2 * 576

/-- CMD 4 and its stages: 0 the command, 1 the wait for the last writeback, 2 the halt, 3 the resumption. -/
def execPartitionSwap (s : State) : Host.Outcome State Fault Refusal :=
  let p := s.ev.p
  match s.ev.id with
  | 0 =>
    if (s.part p).cmd != 0 || !s.feature 7 then .next s
    else .next ((s.modPart p fun q => { q with cmd := 4 }).schedule 0 .partitionSwap { s.ev with id := 1 })
  | 1 =>
    if (s.partDies p).any fun d => (s.die d).writeback then .next (s.schedule 1 .partitionSwap s.ev)
    else
      let s := ((List.finRange 512).filter fun g => s.inPart p g).foldl (fun (s : State) (g : Fin 512) => (s.endExec g 0).endExec g 1) s
      let s := (s.modPart p fun q => { q with halted := true }).mapCores p fun _ c => c.halt s.cycle
      let s := ((List.finRange 512).filter fun g => s.inPart p g).foldl (fun (s : State) (g : Fin 512) => s.endLease g) s
      .next (s.schedule 1 .partitionSwap { s.ev with id := 2 })
  | 2 =>
    if s.haltDone p then .next ((s.flip p).schedule swapCycles .partitionSwap { s.ev with id := 3 })
    else .next (s.schedule 1 .partitionSwap s.ev)
  | _ => .next (s.swapResume p)

/-- The background write of the outgoing shadow bank has ended. -/
def execShadowWritebackEnd (s : State) : Host.Outcome State Fault Refusal :=
  .next ((s.partDies s.ev.p).foldl (fun (s : State) (d : Fin 8) => s.modDie d fun x => { x with writeback := false }) s)

end Sys2Proof.Machine
end

