-- ==== Sys2Proof/Machine/Recovery.lean ====
section
/-! DEFINITION. Machine/Recovery.lean: interval rollback, the restart of a phase, job kill, the limits on undo pressure, and the
test passes of the spare cluster (spec/21 R308-R325). -/
namespace Sys2Proof.Machine
open Sys2Proof

/-! ## The stop (R319) -/

/-- A bank that holds nothing; its numbering goes on. -/
def Bank.wiped (b : Bank) : Bank := { Bank.reset with nextId := b.nextId }

/-- A core with both banks empty and the array handed back. -/
def Core.wiped (c : Core) : Core :=
  { c with
    banks := c.banks.map Bank.wiped, active := 0, handling := none, ctxsw := none, rot := none, wide := [], window := [],
    accOwn := 2, acclive := 0, spill0 := 0, spill1 := 0, owner := 0 }

/-- Scratchpad and accumulators at zero (R321). -/
def Core.cleared (c : Core) : Core := { c with sp := [], acc := Vector.replicate 4 Acc.reset }

def Cluster.wiped (c : Cluster) : Cluster :=
  { c with holder := none, requests := 0, cmds := [], latchActive := none, latchShadow := none, latchFmt := none, rotating := false,
           replaying := false }

def Stack.dropPending (t : Stack) : Stack := { t with ored := [], merges := [] }

/-- A die without the partition's work: what has not performed is discarded, held lines and saves too. -/
def Die.wiped (x : Die) : Die :=
  { x with copies := [], steppe := [], outside := [], hold := [], press := false, holdfull := false, saved := [], sealDone := false,
           hbmStacks := x.hbmStacks.map Stack.dropPending }

/-- A request comes from a partition. -/
def State.asks (s : State) (p : Fin 8) (who : Requester) : Bool :=
  match who with
  | .access g _ _ => s.inPart p g
  | .channel d _ => (s.partDies p).contains d
  | .peer _ _ => false

/-- A rollback of the partition is in progress: its phase is still to restart. -/
def State.restarting (s : State) (p : Fin 8) : Bool := s.agenda.any fun (d : Due) => d.what == .phaseRestart && d.args.p == p

/-- Every partition of the group stops, and the interval's unperformed work is discarded. -/
def State.stopAll (s : State) (p : Fin 8) : State :=
  let s := s.unschedule fun x => s.ofPartition p x
  let s := (s.partDies p).foldl (fun (s : State) (d : Fin 8) => s.modDie d Die.wiped) s
  let s := ((List.finRange 64).filter fun cl => (s.partDies p).contains (dieOfCluster cl)).foldl (fun (s : State) (cl : Fin 64) =>
    s.modCluster cl Cluster.wiped) s
  let s := s.mapCores p fun _ c => c.wiped
  let s := s.modDev fun v => { v with spanWait := v.spanWait.filter fun (x : SpanAsk) => !s.asks p x.who }
  (s.modJob p fun j => { j with faults := [], batchFrom := none }).modPart p fun q => { q with halted := true, allowwait := false }

/-! ## The restoration (R320) -/

/-- Write a record's line and tag back; the line is encoded anew, so its sectors are good. -/
def State.restoreRecord (s : State) (d : Fin 8) (k : Fin 2) (r : UndoRec) : State :=
  let s := { s with hbm := s.hbm.writeLE (hbmKey d r.line) 64 r.old.toNat }
  let s := s.modStack d k fun t => t.setTag (r.line / 64) r.tag
  s.modDie d fun x => { x with poison := x.poison.filter fun (q : Nat) => q / 2 != r.line / 64 }

/-- The records of a stack, newest first. -/
def State.restoreStack (s : State) (d : Fin 8) (k : Fin 2) : State :=
  let l := (s.stack d k).undo.reverse
  (l.foldl (fun (s : State) (r : UndoRec) => s.restoreRecord d k r) s).modStack d k fun t => { t with undo := [] }

def State.restore (s : State) (p : Fin 8) : State :=
  (s.partDies p).foldl (fun (s : State) (d : Fin 8) => (s.restoreStack d 0).restoreStack d 1) s

/-- Undo records are discarded without restoration (R323). -/
def State.dropUndo (s : State) (p : Fin 8) : State :=
  (s.partDies p).foldl (fun (s : State) (d : Fin 8) =>
    s.modDie d fun x => { x with hbmStacks := x.hbmStacks.map fun (t : Stack) => { t with undo := [] } }) s

/-! ## Job kill (R323) -/

/-- An open item completes by cancel. -/
def Item.cancelled (i : Item) : Item :=
  { i with nodes := i.nodes.map fun (n : NodeSt) =>
      if n.finished then n else { n with finished := true, status := max n.status 1, left := 0 } }

/-- Open items end as a cancel would end them. -/
def State.endItems (s : State) (p : Fin 8) : State :=
  match (s.part p).job with
  | none => s
  | some j => (j.items.filter fun (i : Item) => !i.finished).foldl (fun (s : State) (i : Item) =>
      (s.modItem p i.num Item.cancelled).itemDone p i.cancelled) s

/-- The job ends with status fault and the cause; its memory returns to the last seal, unless the Basin itself has failed. -/
def State.killJob (s : State) (p : Fin 8) (cause : Nat) : State :=
  if !s.jobOpen p then s
  else
    let s := s.stopAll p
    let s := if cause = 48 then s.dropUndo p else s.restore p
    let s := s.modPart p fun q => { q with contCause := BitVec.ofNat 8 cause }
    let s := (s.endItems p).disableQueues p
    let s := s.endJobRecord p 2 (BitVec.ofNat 8 cause)
    let s := s.modJob p fun j =>
      { j with
        ended := true, status := 2, reason := BitVec.ofNat 8 cause
        phase := { j.phase with closing := false, sealing := false, pressFrom := none, holdFrom := none } }
    (s.modPart p fun q => { q with halted := false, cmd := if q.cmd = 5 || q.cmd = 6 then 0 else q.cmd }).keepHalted p

/-! ## Rollback (R319-R322) -/

/-- The poisoned sectors of a partition's dies. -/
def State.poisonLeft (s : State) (p : Fin 8) : List Nat :=
  (s.partDies p).flatMap fun d => (s.die d).poison.map fun (q : Nat) => sectorId d q

/-- A restarted phase has consumed a sector that the rollback could not restore. -/
def State.poisonSealed (s : State) (p : Fin 8) (words : List DWord) : Bool :=
  match (s.part p).job with
  | some j => words.any fun w => j.phase.unrestored.contains w.toNat
  | none => false

/-- An error with cause `n` (consumed sectors in `words`): a rollback, or a job kill for the causes of rung 4 and at the limit. A rung-3
error that arises during a rollback joins it; one that arises while a partition swap has halted the cores starts one. An uncorrectable
SRAM word (41), a failed Basin (48) and a lost link (49) are inputs here; a word that SECDED corrects leaves nothing behind (log 112). -/
def execIntervalRollback (s : State) : Host.Outcome State Fault Refusal :=
  let p := s.ev.p
  let cause := s.ev.n
  let q := s.part p
  if !s.jobOpen p then .next s
  else if s.ev.flag && (q.rpMode != 2 || q.div) then .next s
  else if decide (44 ≤ cause) then .next (s.killJob p cause)
  else if s.restarting p then .next s
  else if cause = 40 && s.poisonSealed p s.ev.words then .next (s.killJob p 47)
  else if decide (q.rbLimit.toNat < q.rbCount.toNat + 1) then .next (s.killJob p 46)
  else
    let s := s.modPart p fun q =>
      { q with contCause := BitVec.ofNat 8 cause, rollbacks := q.rollbacks + 1, rbCount := q.rbCount + 1 }
    .next (((s.stopAll p).restore p).schedule 1 .phaseRestart (EvArgs.ofPart p))

/-- Queues return to their opening: HEAD, and TAIL where the device produces. -/
def Queue.rewind (x : Queue) (head tail : Word) : Queue :=
  { x with head := head, tail := if x.device then tail else x.tail, checked := false, cancelled := [], dropped := [] }

/-- A rollback marker replaces what was recorded of the discarded attempt (R324). -/
def State.markRollback (s : State) (p : Fin 8) (ph : Phase) (cause count : Nat) : State :=
  if (s.part p).rpMode != 1 then s
  else
    let s := s.modPart p fun q => { q with rcd := { q.rcd with tail := ph.rcdStart } }
    s.recordPut p (recEntry (s.cycle - ph.openedAt) 0x30 255 0 6 cause count)

/-- A phase that replays a recording goes on with the entries after the marker of this rollback. -/
def State.replayAttempt (s : State) (p : Fin 8) : State :=
  let q := s.part p
  if q.rpMode != 2 || q.div then s
  else
    let l := if q.playback.any isMarker then nextAttempts q.playback else q.playback
    (s.modPart p fun q => { q with playback := l }).armPlayback p l

/-- The phase starts again from its recorded opening state, after its notice to the host. -/
def execPhaseRestart (s : State) : Host.Outcome State Fault Refusal :=
  let p := s.ev.p
  match (s.part p).job with
  | none => .next s
  | some j =>
    let ph := j.phase
    let cause := (s.part p).contCause
    let count := (s.part p).rbCount.toNat
    let s := s.mapCores p fun _ c => c.cleared
    let s := (List.finRange 64).foldl (fun (s : State) (q : Fin 64) =>
      match s.queue p q with
      | none => s
      | some _ => s.setQueue p q fun x => x.rewind (ph.heads.get q) (ph.tails.get q)) s
    let s := s.modJob p fun j => { j with ev := ph.evs, items := j.items.filter fun (i : Item) => decide (i.num < ph.firstItem) }
    let s := s.putRecord p 0
      (recordBits (workId 3 0 0 (BitVec.ofNat 32 ph.num)) 0 2 cause 2 count (s.devTime p))
    let s := s.markRollback p ph cause.toNat count
    let rcd := (s.part p).rcd.tail
    let now := s.cycle
    let left := s.poisonLeft p
    let s := s.phaseState p fun j => Phase.start ph.num j.nextItem now ph.heads ph.tails ph.evs ph.pbq rcd left
    let s := s.replayAttempt p
    let s := ((s.openBoundary p ph.pbq).keepHalted p).wake p
    let cmd := (s.part p).cmd
    if cmd = 5 || cmd = 6 then
      let s := s.modJob p fun j => { j with phase := { j.phase with jobEnd := cmd == 6 } }
      .next (s.forceClose p)
    else .next s

/-! ## Limits on undo pressure (R315, R317) -/

def execUndoTimeout (s : State) : Host.Outcome State Fault Refusal :=
  let p := s.ev.p
  match (s.part p).job with
  | some j => .next (if j.phase.pressFrom.isSome then s.killJob p 44 else s)
  | none => .next s

def execHoldTimeout (s : State) : Host.Outcome State Fault Refusal :=
  let p := s.ev.p
  match (s.part p).job with
  | some j => .next (if j.phase.holdFrom.isSome then s.killJob p 45 else s)
  | none => .next s

/-! ## In-field test (R325) -/

/-- The spare of a die has completed a pass (`flag`), or has failed one: TEST_FAIL goes to firmware. -/
def execTestPassComplete (s : State) : Host.Outcome State Fault Refusal :=
  let d := s.ev.d
  if s.ev.flag then .next (s.modDie d fun x => { x with passes := if x.passes = 255 then 255 else x.passes + 1 })
  else
    let c := (s.die d).spare
    .next ((s.modDie d fun x => { x with failed := setBit x.failed c.val true }).fwRaise 4 (BitVec.ofNat 8 d.val)
      (BitVec.ofNat 8 c.val) 0)

end Sys2Proof.Machine
end

