-- ==== Sys2Proof/Machine/Power.lean ====
section
/-! DEFINITION. Machine/Power.lean: operating points, their changes, the samples and the limits that hardware enforces (spec/16
R271-R279). -/
namespace Sys2Proof.Machine
open Sys2Proof

/-- Logical cores of a physical cluster: none for the spare. -/
def State.domainCores (s : State) (d : Fin 8) (c : Fin 9) : List (Fin 512) :=
  (List.finRange 512).filter fun g => dieOf g == d && s.physOf g == c

/-- The domain runs a unit with DETM = 1. -/
def State.domainDetm (s : State) (d : Fin 8) (c : Fin 9) : Bool :=
  (s.domainCores d c).any fun g => (s.bank g 0).detm || (s.bank g 1).detm

/-! ## Changes (R274) -/

def EvArgs.domain (d : Fin 8) (c : Fin 9) : EvArgs := { EvArgs.ofDie d with dom := c }

/-- Core cycles of a ramp between two codes: 5 mV a code at 10 mV per microsecond. -/
def rampCycles (a b : Byte) : Nat := (max a.toNat b.toNat - min a.toNat b.toNat) * (usCycles / 2)

/-- The voltage begins to ramp to the target. -/
def State.startRamp (s : State) (d : Fin 8) (c : Fin 9) (dest : Byte) : State :=
  let v := s.dvfsOf d c
  (s.modDvfs d c fun v => { v with ramp := some (s.cycle, v.vcur) }).schedule (rampCycles v.vcur dest) .voltageRampEnd (EvArgs.domain d c)

/-- The second PLL relocks in one microsecond. -/
def State.startRelock (s : State) (d : Fin 8) (c : Fin 9) : State := s.schedule usCycles .pllRelockEnd (EvArgs.domain d c)

/-- A change starts: up, the voltage goes first; down, the frequency; at one frequency, only the voltage. -/
def State.startChange (s : State) (d : Fin 8) (c : Fin 9) (f : BitVec 4) (vc : Byte) : State :=
  let v := s.dvfsOf d c
  let s := s.modDvfs d c fun v => { v with target := some (f, vc), status := 1 }
  if f.toNat < v.fcur.toNat then s.startRelock d c else s.startRamp d c vc

/-- The change has finished. -/
def Dvfs.done (v : Dvfs) : Dvfs := { v with target := none, ramp := none, status := 0 }

def execVoltageRampEnd (s : State) : Host.Outcome State Fault Refusal :=
  let d := s.ev.d
  let c := s.ev.dom
  match (s.dvfsOf d c).target with
  | none => .next s
  | some (f, vc) =>
    let s := s.modDvfs d c fun v => { v with vcur := vc, ramp := none }
    .next (if (s.dvfsOf d c).fcur == f then s.modDvfs d c Dvfs.done else s.startRelock d c)

def execPllRelockEnd (s : State) : Host.Outcome State Fault Refusal :=
  let d := s.ev.d
  let c := s.ev.dom
  match (s.dvfsOf d c).target with
  | none => .next s
  | some (f, vc) =>
    let s := s.modDvfs d c fun v => { v with fcur := f }
    .next (if (s.dvfsOf d c).vcur == vc then s.modDvfs d c Dvfs.done else s.startRamp d c vc)

/-! ## Requests (R273) -/

/-- The first check that a request fails, as the code of STATUS. -/
def State.dvreqCheck (s : State) (d : Fin 8) (c : Fin 9) (f : BitVec 4) (vc : Byte) : Option Nat :=
  let v := s.dvfsOf d c
  if decide (9 ≤ f.toNat) || decide (101 ≤ vc.toNat) then some 2
  else if v.target.isSome then some 3
  else if decide (vc.toNat < 20) then some 4
  else if decide (vc.toNat < (Config.fusedVmin d c f).toNat) then some 5
  else if decide (v.cap.toNat < f.toNat) then some 6
  else if s.domainDetm d c then some 7
  else none

/-- A write of DVREQ: FCODE in bits 3:0, VCODE in bits 15:8. A denied request leaves only its code in STATUS. -/
def State.dvreq (s : State) (d : Fin 8) (c : Fin 9) (w : Word) : State :=
  let f : BitVec 4 := w.setWidth 4
  let vc : Byte := w.extractLsb' 8 8
  match s.dvreqCheck d c f vc with
  | some k => s.modDvfs d c fun v => { v with status := BitVec.ofNat 4 k }
  | none => (s.modDvfs d c fun v => { v with freq := f, vreq := vc }).startChange d c f vc

def execDvreqWrite (s : State) : Host.Outcome State Fault Refusal := .next (s.dvreq s.ev.d s.ev.dom s.ev.w)

/-! ## The sample (R276, R277) -/

/-- Core cycles of a sample window. -/
def sampleCycles : Nat := 10 * usCycles

/-- A ratio over the 24 heads of a cluster, scaled by 65,536. -/
def sampleRatio (n : Nat) : BitVec 16 := BitVec.ofNat 16 (sat 16 (n * 65536 / (24 * sampleCycles)))

/-- The domain takes the ratios of the window just ended, and brings its FIFO counts up to date. -/
def State.takeSample (s : State) (d : Fin 8) (c : Fin 9) : State :=
  let u := (s.dvfsOf d c).fifo d c s.cycle
  s.modDvfs d c fun v =>
    { v with
      sampIssue := sampleRatio v.headIssue, sampStall := sampleRatio v.headStall, seq := v.seq + 1, hiwater := u.1, bpcnt := u.2
      fifoFrom := max v.fifoFrom s.cycle, headIssue := 0, headStall := 0 }

/-- Hardware lowers a domain by one step at its present voltage, ahead of any request. -/
def State.stepDown (s : State) (d : Fin 8) (c : Fin 9) : State :=
  let v := s.dvfsOf d c
  if v.fcur = 0 then s
  else
    let now := v.vnow s.cycle
    let s := s.unschedule fun (x : Due) => (x.what == .voltageRampEnd || x.what == .pllRelockEnd) && x.args.d == d && x.args.dom == c
    (s.modDvfs d c fun v => { v with vcur := now, ramp := none }).startChange d c (v.fcur - 1) now

/-- The clusters of a die stop at once: nothing that their cores, arrays and columns have under way goes on. What has left them, an
access on its way to its owner point or a copy command, is not theirs. -/
def State.tripDie (s : State) (d : Fin 8) : State :=
  ((s.modDie d fun x => { x with dvfsStopped := true }).unschedule fun (x : Due) =>
    (clusterEvents.contains x.what && dieOfCluster x.args.cl == d) ||
      (placeEvents.contains x.what && x.what != .globalAccessAtOwner && dieOf x.args.g == d)).fwRaise 3 (BitVec.ofNat 8 d.val) 0xFF 0

/-- The limits of one domain, by the temperature and the current of this sample. -/
def State.domainLimits (s : State) (d : Fin 8) (c : Fin 9) : State :=
  let t := (Config.junction s.free).toNat
  let hot := decide (105 ≤ t)
  let s := s.useFree
  let exceeds := Config.overCurrent s.free
  let s := (s.useFree).modDvfs d c fun v => { v with tj := BitVec.ofNat 8 t }
  let s := if decide (115 ≤ t) && !(s.die d).dvfsStopped then s.tripDie d else s
  let s := if hot || exceeds then s.stepDown d c else s
  let v := s.dvfsOf d c
  if hot then
    let dest := match v.target with | some (f, _) => min f.toNat v.fcur.toNat | none => v.fcur.toNat
    s.modDvfs d c fun v => { v with cap := BitVec.ofNat 4 dest, thr := true }
  else if v.thr && decide (t < 100) then
    let cap := min 8 (v.cap.toNat + 1)
    s.modDvfs d c fun v => { v with cap := BitVec.ofNat 4 cap, thr := cap != 8 }
  else s

/-- All domains, die by die. -/
def domains : List (Fin 8 × Fin 9) := (List.finRange 8).flatMap fun d => (List.finRange 9).map fun c => (d, c)

/-- The domain with the highest FCODE, the lowest die and then the lowest physical cluster among equals. -/
def State.fastest (s : State) : Option (Fin 8 × Fin 9) :=
  domains.foldl (fun (r : Option (Fin 8 × Fin 9)) (x : Fin 8 × Fin 9) =>
    match r with
    | none => some x
    | some y => if (s.dvfsOf y.1 y.2).fcur.toNat < (s.dvfsOf x.1 x.2).fcur.toNat then some x else r) none

/-- Every 10 µs: each domain records its ratios, and the limits act. -/
def execDvfsSample (s : State) : Host.Outcome State Fault Refusal :=
  let s := domains.foldl (fun (s : State) (x : Fin 8 × Fin 9) => (s.takeSample x.1 x.2).domainLimits x.1 x.2) s
  let exceeds := decide (s.dev.pwrlim < Config.modulePower s.free)
  let s := s.useFree
  let s := match (if exceeds then s.fastest else none) with
    | some x => s.stepDown x.1 x.2
    | none => s
  .next (s.schedule sampleCycles .dvfsSample EvArgs.zero)

/-! ## Cooling (R279) -/

/-- The limit that a flow in hundredths of a litre a minute leaves: in proportion to its share of 2.0 L/min. -/
def flowLimit (limit flow : Nat) : Nat := if flow < 200 then limit * flow / 200 else limit

/-- The limit that an inlet temperature in tenths of a degree leaves: it falls above 45 °C, by a scale the spec does not give. -/
def inletLimit (limit inlet : Nat) : Nat := if 450 < inlet then limit - 1 - Config.inletFall limit (inlet - 450) else limit

/-- The coolant as measured, `n` the inlet temperature in tenths of a degree and `id` the flow in hundredths of a litre a minute:
where the inlet is too warm or the flow too low, PWRLIM falls, and firmware hears its new value (log 127). -/
def execCoolantShortfall (s : State) : Host.Outcome State Fault Refusal :=
  let n := min (flowLimit s.dev.pwrlim s.ev.id) (inletLimit s.dev.pwrlim s.ev.n)
  .next (if decide (450 < s.ev.n) || decide (s.ev.id < 200) then
    (s.modDev fun v => { v with pwrlim := n }).fwRaise 5 0xFF 0xFF (BitVec.ofNat 64 n) else s)

end Sys2Proof.Machine
end

