-- ==== Sys2Proof/Machine/Inbound.lean ====
section
/-! DEFINITION. Machine/Inbound.lean: requests that come from outside: the host's own writes and reads of device memory, the memory
window, recorded inputs, head samples, and the flits of the Span links (spec/09 R165, R175, R181, spec/13 R265, spec/22 R330, R334,
spec/23 R336-R340). -/
namespace Sys2Proof.Machine
open Sys2Proof

/-! ## Inbound writes (spec/13 R265, spec/21 R311, spec/22 R333) -/

/-- The log entries of an inbound write of kind 1, 2 or 5: eight bytes each, at the time since the phase opened (log 27). -/
def State.recordInbound (s : State) (p : Fin 8) (kind va : Nat) (data : List Byte) : State :=
  match (s.part p).job with
  | none => s
  | some j => (upTo 0 ((data.length + 7) / 8)).foldl (fun (s : State) (i : Nat) =>
      let l := (data.drop (8 * i)).take 8
      s.recordPut p (recEntry (s.cycle - j.phase.openedAt) 0x30 255 (va + 8 * i) kind (leNat l) l.length)) s

/-- The die that owns an address. -/
def State.ownerDie (s : State) (p : Fin 8) (va : Nat) : Fin 8 := (s.dieOfRank p (vaOwner va)).getD p

/-- An untagged write performs at its owner, or is held there on an irrevocable page (spec/09 R168): pending merges on its lines are
applied first, and sectors it covers whole are good again. -/
def State.writeUntagged (s : State) (p : Fin 8) (va : Nat) (data : List Byte) : State :=
  (s.flushAt p (upTo va data.length)).storeBytes p (s.ownerDie p va) false (runOf va data)

/-- What keeps a write from outside from performing, raised where it arises (spec/09 R182, spec/21 R314, R317). -/
def State.inboundBlocked (s : State) (p : Fin 8) (tagged : Bool) (vas : List Nat) : Option State :=
  let die := s.ownerDie p (vas.headD 0)
  match s.storeBlocked p die tagged vas with
  | some why => some (s.raiseBlocked p die tagged vas why)
  | none => s.mergesBlocked p vas

/-! ### The order of one source's writes (spec/13 R265) -/

/-- The source of a write that waits: the requester and PASID of a host's, the port of a peer's. -/
def Due.source (x : Due) : Option (Bool × Nat) :=
  match x.what with
  | .inboundHostWrite => some (true, x.args.src)
  | .spanWrite => some (false, x.args.port.val)
  | _ => none

/-- Some write of a source that arrived before arrival `n` has not performed; `all` counts those with Relaxed Ordering. -/
def State.writesBefore (s : State) (src : Bool × Nat) (n : Nat) (all : Bool) : Bool :=
  s.agenda.any fun (x : Due) => x.source == some src && x.args.n != 0 && decide (x.args.n < n) && (all || !x.args.relaxed)

/-- The number of an arrival: one that waits already keeps its own. -/
def State.arrivalNo (s : State) (n : Nat) : Nat := if n = 0 then s.free + 1 else n

/-- A write waits `d` cycles under the number of its arrival. -/
def State.writeWaits (s : State) (i : Instr) (d : Nat) : State :=
  (s.useFree).schedule d i { s.ev with n := s.arrivalNo s.ev.n }

/-- A partition that replays takes no live inbound writes (spec/22 R334). -/
def State.replaying (s : State) (p : Fin 8) : Bool := (s.part p).rpMode == 2 && !(s.part p).div

/-- An inbound host request that does not translate completes with Unsupported Request and is counted (spec/09 R175). -/
def State.inboundError (s : State) (p : Fin 8) (va : Nat) : State :=
  s.modDie ((s.dieOfRank p (vaOwner va)).getD p) fun x => { x with inberr := BitVec.ofNat 16 (sat 16 (x.inberr.toNat + 1)) }

/-- The host reaches only device memory; the fault of its request. -/
def State.hostFault (s : State) (p : Fin 8) (va n : Nat) (wr : Bool) : Bool :=
  decide (8 ≤ vaOwner va) || (s.gfault p va n wr).isSome

/-- Queues that hold completion records look whether the host has made room. -/
def State.pokeRecords (s : State) (p : Fin 8) : State :=
  (List.finRange 64).foldl (fun (s : State) (q : Fin 64) =>
    match s.queue p q with
    | some x => if x.cplstall then s.schedule 0 .completionRecord { EvArgs.ofPart p with q := q } else s
    | none => s) s

/-! ## The memory window (spec/23 R337, R338, R341-R343) -/

/-- A byte of BAR0 below the partition pages: the device block and the mailbox. -/
def Device.block (d : Device) (off : Nat) : Option Byte :=
  let at_ (base w : Nat) (v : Nat) : Option Byte :=
    if decide (base ≤ off) && decide (off < base + w) then some (BitVec.ofNat 8 (v / 2 ^ (8 * (off - base)))) else none
  let why := d.whyReason.toNat + d.whyDetail.toNat * 2 ^ 8 + b01 d.minimal * 2 ^ 23 + d.fails.toNat * 2 ^ 24
  let e := d.fwEvent
  let rec_ := d.fwSeq.toNat + e.code.toNat * 2 ^ 32 + e.die.toNat * 2 ^ 40 + e.unit.toNat * 2 ^ 48 + e.data.toNat * 2 ^ 64 +
    e.time % 2 ^ 64 * 2 ^ 128 + d.fwAck.toNat * 2 ^ 192
  [at_ 0x00 16 d.devfeat.toNat, at_ 0x10 16 d.reqfeat.toNat, at_ 0x20 16 d.drvfeat.toNat, at_ 0x30 16 d.actfeat.toNat,
    at_ 0x50 4 why, at_ 0x54 4 (b01 d.go), at_ 0x80 64 rec_, at_ 0x100 4 d.mbCmd.toNat, at_ 0x104 4 d.mbStatus.toNat,
    at_ 0x140 128 d.mbArgs.toNat, at_ 0x1C0 256 d.mbReply.toNat].findSome? id

def HostRing.page (r : HostRing) : Nat := r.base.toNat + r.log * 2 ^ 64 + r.head.toNat * 2 ^ 96 + r.tail.toNat * 2 ^ 128

/-- A byte of a partition page. Fields that only act when written read 0, a doorbell its queue's TAIL. -/
def State.pageByte (s : State) (p : Fin 8) (off : Nat) : Option Byte :=
  let q := s.part p
  let at_ (base w : Nat) (v : Nat) : Option Byte :=
    if decide (base ≤ off) && decide (off < base + w) then some (BitVec.ofNat 8 (v / 2 ^ (8 * (off - base)))) else none
  let tail : Nat := match s.queue p (Fin.ofNat 64 (off / 8)) with | some x => x.tail.toNat | none => 0
  let ap : Nat := match q.apertures.toList[(off - 0x320) / 16]? with
    | some a => a.ports.toNat + a.peer.toNat * 2 ^ 16 + a.ppart.toNat * 2 ^ 48 + (b01 a.valid + 2 * b01 a.sealgrp) * 2 ^ 56
    | none => 0
  let job := match q.job with | some j => j.qtbase.toNat + j.qtcount * 2 ^ 64 | none => 0
  let ring (r : HostRing) (present : Bool) : Nat := if present then r.page else 0
  if decide (off < 0x200) then some (BitVec.ofNat 8 (tail / 2 ^ (8 * (off % 8))))
  else if decide (0x320 ≤ off) && decide (off < 0x390) then some (BitVec.ofNat 8 (ap / 2 ^ (8 * ((off - 0x320) % 16))))
  else [at_ 0x200 8 0, at_ 0x208 8 q.fansVA.toNat, at_ 0x210 4 q.fansPages.toNat, at_ 0x214 4 0, at_ 0x220 20 (ring q.frq true),
    at_ 0x240 20 (ring q.trc (s.feature 5)), at_ 0x260 20 (ring q.rcd (s.feature 6)), at_ 0x280 4 0, at_ 0x284 4 (b01 (q.cmd != 0)),
    at_ 0x300 12 job].findSome? id

/-- The state as the window sees physical core `phys` of a die, and the core's logical index: what stands on a cluster in use, and for
the spare cluster its own DVFS domain, with cores and an array that hold nothing (log 125). -/
def State.windowView (s : State) (d : Fin 8) (phys : Nat) : State × Fin 512 :=
  let c : Fin 9 := Fin.ofNat 9 (phys / 8)
  match (List.finRange 8).find? fun l => (s.die d).map.get l == c with
  | some l => (s, ⟨64 * d.val + 8 * l.val + phys % 8, by omega⟩)
  | none =>
    let g : Fin 512 := ⟨64 * d.val + phys % 8, by omega⟩
    ((((s.modDie d fun x => { x with map := x.map.set 0 c }).modCore g fun _ => Core.reset).modCluster (clusterOf g) fun _ => Cluster.reset), g)

/-- A byte of the control registers that the window reaches. -/
def State.regByte (s : State) (off : Nat) : Option Byte :=
  let d : Fin 8 := Fin.ofNat 8 (off / 0x200000)
  let phys := off % 0x200000 / 0x4000
  if 72 ≤ phys then none
  else
    let v := s.windowView d phys
    (v.1.sharedReg v.2 true (off % 0x4000 / 4)).map fun (w : Word) => w.extractLsb' (8 * (off % 4)) 8

/-- A byte of a die's provenance log: record r of the ring, 0 where none stands. -/
def Die.provByte (x : Die) (off : Nat) : Byte :=
  match x.prov[(off / 32 + 65536 - x.provHead.toNat % 65536) % 65536]? with
  | some r => r.extractLsb' (8 * (off % 32)) 8
  | none => 0

/-- A byte of BAR0, or none at an offset that R337 does not assign. -/
def State.windowByte (s : State) (off : Nat) : Option Byte :=
  if decide (off < 0x400) then s.dev.block off
  else if decide (off < 0x440) then
    let x := s.die (Fin.ofNat 8 ((off - 0x400) / 8))
    some (BitVec.ofNat 8 ((x.provHead.toNat + x.provTail.toNat * 2 ^ 32) / 2 ^ (8 * (off % 8))))
  else if decide (0x10000 ≤ off) && decide (off < 0x18000) then s.pageByte (Fin.ofNat 8 (off / 0x1000)) (off % 0x1000)
  else if decide (0x1000000 ≤ off) && decide (off < 0x2000000) then s.regByte (off - 0x1000000)
  else if decide (0x2000000 ≤ off) && decide (off < 0x3000000) then
    some ((s.die (Fin.ofNat 8 ((off - 0x2000000) / 0x200000))).provByte (off % 0x200000))
  else none

/-- The bytes an access of 4 or 8 bytes at its alignment reads; none completes with Unsupported Request. -/
def State.windowRead (s : State) (off n : Nat) : Option (List Byte) :=
  if (n = 4 || n = 8) && off % n = 0 then (upTo off n).mapM fun a => s.windowByte a else none

/-- Put bytes into a numeric field that begins at `base`. -/
def patchBytes {w : Nat} (v : BitVec w) (at_ : Nat) (data : List Byte) : BitVec w := setBits v (8 * at_) (8 * data.length) (leNat data)

/-- The step that a mailbox command starts. -/
def mailboxStep (n : Nat) : Option Instr :=
  [Instr.mailboxPart, .mailboxBind, .mailboxOvfext, .mailboxDvreq, .mailboxVmin, .mailboxPwrlim, .mailboxStage, .mailboxAttest,
    .mailboxColspan, .mailboxRetry, .mailboxTlbinv][n - 1]?.filter fun _ => n != 0

/-- A write acts as it arrives: its step comes before every other step that is due. -/
def State.actNow (s : State) (i : Instr) (a : EvArgs) : State :=
  let t := match s.agenda with | d :: _ => min d.at_ s.cycle | [] => s.cycle
  { s with agenda := { at_ := t, what := i, args := a } :: s.agenda }

/-- A write to the device block or the mailbox; fields of the device and of firmware keep their values. -/
def State.blockWrite (s : State) (off : Nat) (data : List Byte) : State :=
  let w : Word := BitVec.ofNat 32 (leNat (data.take 4))
  if decide (0x20 ≤ off) && decide (off < 0x30) then
    if s.dev.go then s
    else s.modDev fun d => { d with drvfeat := patchBytes d.drvfeat (off - 0x20) data &&& 0xFFF }
  else if off = 0x54 || (off = 0x50 && data.length = 8) then
    if bit (BitVec.ofNat 32 (leNat (data.drop (0x54 - off)))) 0 then s.actNow .bootctlGo EvArgs.zero else s
  else if off = 0x98 then s.actNow .firmwareEventAck { EvArgs.zero with w := w }
  else if off = 0x100 then
    match mailboxStep w.toNat with
    | some i => s.actNow i { EvArgs.zero with data := leBytes 128 s.dev.mbArgs.toNat }
    | none => s
  else if decide (0x140 ≤ off) && decide (off < 0x1C0) then
    s.modDev fun d => { d with mbArgs := patchBytes d.mbArgs (off - 0x140) data }
  else s

/-- The base or the log of a host ring changes only while the ring holds nothing; the head is the host's. -/
def HostRing.write (r : HostRing) (off : Nat) (data : List Byte) : HostRing :=
  let v := leNat data
  let empty := r.head == r.tail
  match off with
  | 0 => if !empty then r else if data.length = 8 then { r with base := BitVec.ofNat 64 v }
         else { r with base := setBits r.base 0 32 v }
  | 4 => if empty then { r with base := setBits r.base 32 32 v } else r
  | 8 =>
    let r := if empty && decide (4 ≤ v % 2 ^ 32) && decide (v % 2 ^ 32 ≤ 16) then { r with log := v % 2 ^ 32 } else r
    if data.length = 8 then { r with head := BitVec.ofNat 32 (v / 2 ^ 32) } else r
  | 12 => { r with head := BitVec.ofNat 32 v }
  | _ => r

/-- CMD of a partition page (R338). -/
def State.pageCommand (s : State) (p : Fin 8) (w : Word) : State :=
  let a := EvArgs.ofPart p
  match w.toNat % 256 with
  | 3 => if decide (w.toNat < 2 ^ 14) then s.actNow .queueReset { a with q := Fin.ofNat 64 (w.toNat / 256) } else s
  | n =>
    if w.toNat != n then s
    else match n with
      | 1 => s.actNow .hostStop a
      | 2 => s.actNow .hostResume a
      | 4 => s.actNow .partitionSwap a
      | 5 => s.actNow .closePhase a
      | 6 => s.actNow .endJob a
      | _ => s

/-- A write to a partition page. -/
def State.pageWrite (s : State) (p : Fin 8) (off : Nat) (data : List Byte) : State :=
  let a := EvArgs.ofPart p
  let v := leNat data
  let w : Word := BitVec.ofNat 32 v
  if decide (off < 0x200) then
    if off % 8 = 0 then s.actNow .queueDoorbell { a with q := Fin.ofNat 64 (off / 8), w := w } else s
  else if off = 0x200 then
    if data.length = 8 then s.actNow .hostNodeDoorbell { a with va := BitVec.ofNat 64 v } else s
  else if off = 0x208 || off = 0x20C then
    s.modPart p fun q => { q with fansVA := patchBytes q.fansVA (off - 0x208) data }
  else if off = 0x210 then
    let s := s.modPart p fun q => { q with fansPages := w }
    if data.length = 8 then
      s.actNow .faultAnswer { a with va := (s.part p).fansVA, n := w.toNat, w := BitVec.ofNat 32 (v / 2 ^ 32) }
    else s
  else if off = 0x214 then s.actNow .faultAnswer { a with va := (s.part p).fansVA, n := (s.part p).fansPages.toNat, w := w }
  else if decide (0x220 ≤ off) && decide (off < 0x230) then
    let r := (s.part p).frq.write (off - 0x220) data
    (s.modPart p fun q => { q with frq := r }).actNow .frqheadWrite { a with w := r.head }
  else if decide (0x240 ≤ off) && decide (off < 0x250) then
    if s.feature 5 then (s.modPart p fun q => { q with trc := q.trc.write (off - 0x240) data }).traceFlush p else s
  else if decide (0x260 ≤ off) && decide (off < 0x270) then
    if s.feature 6 then s.modPart p fun q => { q with rcd := q.rcd.write (off - 0x260) data } else s
  else if off = 0x280 then s.pageCommand p w
  else s

/-- Registers that belong to one core or one cluster. -/
def coreRegs : List Nat :=
  [0x080, 0x081, 0x082, 0x083, 0x084, 0x085, 0x0B0, 0x0B1, 0x0B2, 0x0B4, 0x0B5, 0x0B6, 0x0B9, 0x0D1, 0x0D2, 0x0D3, 0x0D4]

/-- A write through the management window of a register of a core, cluster, die or partition; `n` is its number, `dom` the physical
cluster, and `flag` says that this is the spare, whose cores hold no registers. The window acts as a system context does (spec/21
R326, spec/22 R335, spec/23 R337), and DVREQ is its own (spec/16 R278). -/
def execRegisterWrite (s : State) : Host.Outcome State Fault Refusal :=
  let n := s.ev.n
  if n = 0x0A0 then .next (s.dvreq (dieOf s.ev.g) s.ev.dom s.ev.w)
  else if (unitShared n || sysShared n) && !(s.ev.flag && coreRegs.contains n) then
    .next (s.sharedWrite s.ev.g 2 { EvArgs.at s.ev.g 2 with flag := false } n s.ev.w)
  else .next s

/-- A write to a control register through the window. -/
def State.regWrite (s : State) (off : Nat) (data : List Byte) : State :=
  let d : Fin 8 := Fin.ofNat 8 (off / 0x200000)
  let phys := off % 0x200000 / 0x4000
  let g := (s.windowView d phys).2
  let spare := (s.die d).spare.val == phys / 8
  (upTo 0 (data.length / 4)).reverse.foldl (fun (s : State) (i : Nat) =>
    s.actNow .registerWrite
      { EvArgs.at g 2 with
        n := off % 0x4000 / 4 + i, w := BitVec.ofNat 32 (leNat ((data.drop (4 * i)).take 4)), dom := Fin.ofNat 9 (phys / 8)
        flag := spare }) s

/-- The host moves PROVHEAD: the records before it are consumed. -/
def Die.provConsume (x : Die) (w : Word) : Die := { x with prov := x.prov.drop (w - x.provHead).toNat, provHead := w }

/-- A write to the window: it acts at the offset's owner; one that R337 turns away changes nothing. -/
def State.windowWrite (s : State) (off : Nat) (data : List Byte) : State :=
  if (s.windowRead off data.length).isNone then s
  else if decide (off < 0x400) then s.blockWrite off data
  else if decide (off < 0x440) then
    if off % 8 = 0 then
      s.modDie (Fin.ofNat 8 ((off - 0x400) / 8)) fun x => x.provConsume (BitVec.ofNat 32 (leNat (data.take 4)))
    else s
  else if decide (off < 0x18000) then s.pageWrite (Fin.ofNat 8 (off / 0x1000)) (off % 0x1000) data
  else if decide (off < 0x2000000) then s.regWrite (off - 0x1000000) data
  else s

/-! ## Host requests (spec/13 R265) -/

/-- A posted host write of `data` at `va` of the partition's job; with `flag`, at offset `va` of the window, a doorbell among them.
Writes of one requester and PASID perform in the order in which they arrive, but for those with Relaxed Ordering, and a write of the
window follows all of them. -/
def execInboundHostWrite (s : State) : Host.Outcome State Fault Refusal :=
  let p := s.ev.p
  let va := s.ev.va.toNat
  let data := s.ev.data
  let free := s.ev.relaxed && !s.ev.flag
  if free && s.ev.n = 0 then .next (s.writeWaits .inboundHostWrite (Config.accessDelay s.free))
  else if !free && s.writesBefore (true, s.ev.src) (s.arrivalNo s.ev.n) s.ev.flag then .next (s.writeWaits .inboundHostWrite 1)
  else if s.ev.flag then .next (s.windowWrite va data)
  else if s.replaying p then .next s
  else
    let s := s.walkNow p (upTo va data.length)
    if s.hostFault p va data.length true then .next (s.inboundError p va)
    else match s.inboundBlocked p false (upTo va data.length) with
      | some t => .next (t.writeWaits .inboundHostWrite 1)
      | none => .next (((s.writeUntagged p va data).recordInbound p 1 va data).pokeRecords p)

/-- A host read of `n` bytes at `va`: performed data, and on irrevocable pages the last sealed data; with `flag`, of the window. It
follows every earlier write of its requester. The answer stands in the device's replies; a poisoned one is marked, and an Unsupported
Request has no bytes. -/
def execInboundHostRead (s : State) : Host.Outcome State Fault Refusal :=
  let p := s.ev.p
  let va := s.ev.va.toNat
  let n := s.ev.n
  let reply (s : State) (l : List Byte) (bad : Bool) : State :=
    s.modDev fun d => { d with hostReplies := d.hostReplies ++ [(s.ev.va, l, bad)] }
  let later (s : State) : State := (s.useFree).schedule 1 .inboundHostRead { s.ev with id := s.arrivalNo s.ev.id }
  if s.writesBefore (true, s.ev.src) (s.arrivalNo s.ev.id) true then .next (later s)
  else if s.ev.flag then .next (reply s ((s.windowRead va n).getD []) false)
  else
    let s := (s.sectorErrors).walkNow p (upTo va n)
    if s.hostFault p va n false then .next (reply (s.inboundError p va) [] false)
    else match s.mergesBlocked p (upTo va n) with
    | some t => .next (later t)
    | none =>
      let s := s.flushAt p (upTo va n)
      .next (reply s ((upTo va n).map fun a => s.readLoc [] a (s.locate p a)) (s.readsPoison p (upTo va n)))

/-- A recorded write of kind `n` is performed at its recorded time (spec/22 R334). -/
def execRecordedInputInject (s : State) : Host.Outcome State Fault Refusal :=
  let p := s.ev.p
  if !s.replaying p then .next s
  else match s.inboundBlocked p false (upTo s.ev.va.toNat s.ev.data.length) with
    | some t => .next (t.schedule 1 .recordedInputInject s.ev)
    | none => .next ((s.writeUntagged p s.ev.va.toNat s.ev.data).pokeRecords p)

/-! ## Head samples (spec/22 R328, R330) -/

/-- The class a stream's head had in the last core cycle, EMPTY where nothing was counted. -/
def Core.headClass (c : Core) (st : Fin 3) (now : Nat) : Nat := let x := c.heads.get st; if decide (now ≤ x.1 + 1) then x.2 else 3

/-- Every SAMPINT µs: a kind-7 record of each core whose unit is traced. -/
def execHeadSample (s : State) : Host.Outcome State Fault Refusal :=
  let p := s.ev.p
  if !(s.part p).trcOpen || (s.part p).sampint = 0 then .next s
  else
    let s := ((List.finRange 512).filter fun g => s.inPart p g).foldl (fun (s : State) (g : Fin 512) =>
      let c := s.core g
      let k : Fin 3 := c.active.castLE (by decide)
      let b := c.bank k
      let cls := c.headClass 0 s.cycle + c.headClass 1 s.cycle * 2 ^ 8 + c.headClass 2 s.cycle * 2 ^ 16
      s.traceAt g k 3 0 7 (b.col 0).pc (BitVec.ofNat 64 cls) (BitVec.ofNat 64 (b.apc.toNat + b.mpc.toNat * 2 ^ 32))) s
    .next (s.schedule ((s.part p).sampint.toNat * usCycles) .headSample (EvArgs.ofPart p))

/-! ## Span flits that arrive (spec/09 R165, R175, spec/23 R339, R340) -/

/-- The aperture of a partition that a port carries. -/
def State.portAperture (s : State) (p : Fin 8) (port : Fin 16) : Option (Nat × Aperture) :=
  if s.feature 4 && !bit s.dev.portFailed port.val then
    ((s.part p).apertures.toList.zipIdx.find? fun (x : Aperture × Nat) => x.1.valid && bit x.1.ports port.val).map fun x => (x.2, x.1)
  else none

/-- A flit that no binding explains is dropped and counted. -/
def State.dropFlit (s : State) : State := s.modDev fun d => { d with spanerr := d.spanerr + 1 }

/-- The local address of a peer's OFFSET: its die rank in bits 52:50 (spec/09 R163). -/
def peerVA (off : Nat) : Nat := mkVA (off / 2 ^ 50 % 8) (off % 2 ^ 50)

/-- Send a flit to the peer of a port. -/
def State.reply (s : State) (kind : Nat) (port : Fin 16) (tag : Nat) (l : List Byte) : State :=
  s.modDev fun d => { d with spanOut := d.spanOut ++ [(kind, port.val, BitVec.ofNat 64 tag, l)] }

/-- The pages of a peer's request that fault are gathered here, and the peer hears of the fault (kind in its second byte). -/
def State.peerFault (s : State) (p : Fin 8) (port : Fin 16) (tag : Nat) (bad : List (Nat × Nat)) (wr : Bool) : State :=
  (s.gatherFaults p bad wr (.peer port tag)).reply 8 port tag [2, BitVec.ofNat 8 ((bad.map fun (x : Nat × Nat) => x.2).headD 0)]

/-- What every arriving request does first: the aperture's binding, then translation; `f` takes the aperture and the VA. -/
def peerRequest (n : Nat) (wr : Bool) (f : Nat → Aperture → Nat → State → Host.Outcome State Fault Refusal) (s : State) :
    Host.Outcome State Fault Refusal :=
  let p := s.ev.p
  match s.portAperture p s.ev.port with
  | none => .next s.dropFlit
  | some (a, ap) =>
    let va := peerVA s.ev.va.toNat
    let s := s.walkNow p (upTo va n)
    match s.badPages p (upTo va n) wr with
    | [] => f a ap va s
    | bad => .next (s.peerFault p s.ev.port s.ev.id bad wr)

/-- A read request of `n` bytes with tag `id`: performed data, last sealed data on irrevocable pages, with a poison flag for
each sector after them. -/
def execSpanReadRequest (s : State) : Host.Outcome State Fault Refusal :=
  let p := s.ev.p
  let n := s.ev.n
  peerRequest n false (fun _ _ va s =>
    match s.mergesBlocked p (upTo va n) with
    | some t => .next (t.schedule 1 .spanReadRequest s.ev)
    | none =>
    let s := s.flushAt p (upTo va n)
    let l := (upTo va n).map fun a => s.readLoc [] a (s.locate p a)
    let flags : List Byte := (upTo 0 ((n + 31) / 32)).map fun i =>
      if s.readsPoison p (upTo (va + 32 * i) (min 32 (n - 32 * i))) then 1 else 0
    .next (s.reply 3 s.ev.port s.ev.id (l ++ flags))) s.sectorErrors

/-- Sectors that arrive poisoned are poisoned at their owner: bit i of `m` for the sector at `va` + 32 i. -/
def State.poisonSectors (s : State) (p : Fin 8) (va : Nat) (m : Word) : State :=
  (upTo 0 7).foldl (fun (s : State) (i : Nat) =>
    if !bit m i then s
    else match s.locate p (va + 32 * i) with
      | .dev d pa _ => s.modDie d fun x => { x with poison := if x.poison.contains (pa / 32) then x.poison else x.poison ++ [pa / 32] }
      | _ => s) s

/-- A write: tagged and logged when the peer belongs to the seal group, else untagged and recorded; `w` has the POISON bits. Writes over
one port perform in the order of their arrival, and each is answered under its tag when it has performed (log 118). -/
def execSpanWrite (s : State) : Host.Outcome State Fault Refusal :=
  let p := s.ev.p
  let data := s.ev.data
  if s.replaying p then .next s
  else if s.writesBefore (false, s.ev.port.val) (s.arrivalNo s.ev.n) true then .next (s.writeWaits .spanWrite 1)
  else peerRequest data.length true (fun _ ap va s =>
    let vas := upTo va data.length
    let own := s.inSealGroup ap
    match s.inboundBlocked p own vas with
    | some t => .next (t.writeWaits .spanWrite 1)
    | none =>
      let s := if own then (s.flushAt p vas).storeBytes p (s.ownerDie p va) true (runOf va data) else s.writeUntagged p va data
      let s := (s.poisonSectors p va s.ev.w).reply 3 s.ev.port s.ev.id []
      .next (if own then s else (s.recordInbound p 2 va data).pokeRecords p)) s

/-- An atomic or `barc` (`n` = 1) with its operands in `words`: it performs at the owner as one of this device's would, and its
old value, or the phase of the barrier, returns under the tag. -/
def execSpanAtomic (s : State) : Host.Outcome State Fault Refusal :=
  let p := s.ev.p
  let w64 := s.ev.flag
  let n := if w64 then 8 else 4
  let v := s.ev.words.headD 0
  let e := (s.ev.words.drop 1).headD 0
  peerRequest n true (fun _ ap va s =>
    let own := s.inSealGroup ap
    match s.locate p va, s.ev.n, s.ev.op with
    | .dev d pa _, 0, .faddU => .next ((s.addMerge d pa v).reply 3 s.ev.port s.ev.id (leBytes 8 0))
    | .dev d pa _, 0, .faddO =>
      let x : OredEntry := { pa := pa, v := v.setWidth 32, work := (s.ev.words.drop 2).headD 0, unit := s.ev.w, seq := e.setWidth 32 }
      .next ((s.modStack d (stackOf pa) fun t => { t with ored := t.ored ++ [x] }).reply 3 s.ev.port s.ev.id (leBytes 8 0))
    | _, barc, op =>
      match s.inboundBlocked p own (upTo va n) with
      | some t => .next (t.schedule 1 .spanAtomic s.ev)
      | none =>
        let s := (s.flushAt p (upTo va n)).consume p (upTo va n)
        let old := BitVec.ofNat 64 (s.readVa (s.heldLines p) p va n)
        let new := if barc = 0 then atomNew op w64 old v e else (barcNew (old.setWidth 32) (v.setWidth 32)).setWidth 64
        let ret := if barc = 0 then old else BitVec.ofNat 64 (b01 (bit old 31))
        let s := s.storeBytes p (s.ownerDie p va) own (runOf va (leBytes n new.toNat))
        .next (s.reply 3 s.ev.port s.ev.id (leBytes 8 ret.toNat))) s

/-! ### Replies to this device's own requests -/

def State.dropTag (s : State) (tag : Nat) : State :=
  s.modDev fun d => { d with spanWait := d.spanWait.filter fun (x : SpanAsk) => x.tag != tag }

def State.askOf (s : State) (tag : Nat) : Option SpanAsk := s.dev.spanWait.find? fun (x : SpanAsk) => x.tag == tag

/-- Bytes that a peer has sent, or taken, join what the access or the copy row has got. -/
def State.joinGot (s : State) (who : Requester) (l : List (Nat × Byte)) : State :=
  match who with
  | .access g k id =>
    let up (o : AOp) : AOp := if o.id == id then { o with got := o.got ++ l } else o
    s.modBank g k fun b => { b with ops := b.ops.map up, replay := b.replay.map up }
  | .channel d id => s.modCopy d id fun c => { c with got := c.got ++ l }
  | .peer _ _ => s

/-- Poisoned data reach the requester, which consumes them (spec/10 R208, spec/21 R309). -/
def State.joinPoison (s : State) (who : Requester) : State :=
  match who with
  | .access g k _ => s.rung3 (s.bank g k).part 40
  | .channel d id =>
    match (s.die d).copies.find? fun (c : CopyCmd) => c.id == id with
    | some c => s.failCopy d c 3
    | none => s
  | .peer _ _ => s

/-- The answer to a request: its bytes join, and with the last request of the requester it goes on. -/
def State.askDone (s : State) (x : SpanAsk) (data : List Byte) (bad : Bool) : State :=
  let s := (s.dropTag x.tag).joinGot x.who ((upTo 0 x.n).map fun i => (x.va + i, data.getD i 0))
  let s := if bad then s.joinPoison x.who else s
  if s.dev.spanWait.any fun (y : SpanAsk) => y.who == x.who then s else s.rerun x.who

/-- A read completion for tag `id`, or the answer to a write or an atomic; poison in it (`w`) is consumed (spec/21 R309). -/
def execSpanReadCompletion (s : State) : Host.Outcome State Fault Refusal :=
  match s.askOf s.ev.id with
  | none => .next s
  | some x => .next (s.askDone x s.ev.data (s.ev.w != 0))

/-- A Col flit of barrier `id`: the peer's input of the generation is high; its last arriver's e(a) is the first data byte. -/
def execSpanCol (s : State) : Host.Outcome State Fault Refusal :=
  let p := s.ev.p
  match s.portAperture p s.ev.port with
  | none => .next s.dropFlit
  | some (a, ap) =>
    let c := s.ev.id
    if !s.inSealGroup ap || !bit (s.part p).colspan c || decide (32 ≤ c) then .next s
    else
      let s := s.modJob p fun j => { j with colPeers := if j.colPeers.contains (a, c) then j.colPeers else j.colPeers ++ [(a, c)] }
      match (s.part p).job with
      | none => .next s
      | some j =>
        if s.andLine p c && (s.sealPeers p).all fun x => j.colPeers.contains (x, c) then
          .next (s.schedule 0 .colReleaseFire { EvArgs.ofPart p with d := p, id := c, n := (s.ev.data.headD 0).toNat })
        else .next s

/-- A seal flit: the peer's input on the seal line is high (spec/21 R313). -/
def execSpanSeal (s : State) : Host.Outcome State Fault Refusal :=
  let p := s.ev.p
  match s.portAperture p s.ev.port with
  | none => .next s.dropFlit
  | some (a, ap) =>
    if !s.inSealGroup ap then .next s
    else
      .next ((s.modJob p fun j =>
        { j with
          phase := { j.phase with peerSeals := setBit j.phase.peerSeals a true, lastEdge := (s.ev.data.headD 0).toNat } }).sealFire p)

/-- A credit flit frees a slot of the link's own flow control, which no rule lets a program, the host or firmware observe. A flit whose
KIND is none of the eight (`flag`) is discarded and counted (R339). -/
def execSpanCredit (s : State) : Host.Outcome State Fault Refusal := .next (if s.ev.flag then s.dropFlit else s)

/-- A fault reply for tag `id`: `w` = 2 says that the page faulted with kind `n`, which freezes the bank by R173 or stalls the channel; 0
and 1 are the answers retry and fail. -/
def execSpanFaultReply (s : State) : Host.Outcome State Fault Refusal :=
  match s.askOf s.ev.id with
  | none => .next s
  | some x =>
    if decide (2 ≤ s.ev.w.toNat) then
      .next ((s.modDev fun d =>
        { d with spanWait := d.spanWait.map fun (y : SpanAsk) => if y.tag == x.tag then { y with bad := true } else y }).faulted x.who
        s.ev.n)
    else
      let s := s.dropTag x.tag
      let f : PageFault :=
        { va := pageOf x.va, kind := s.ev.n, wr := false, who := x.who, time := 0, reported := true, pri := none, batch := 0 }
      let here := match (s.part s.ev.p).job with | some j => j.faults | none => []
      let rest := if s.dev.spanWait.any fun (y : SpanAsk) => y.who == x.who && y.bad then f :: here else here
      .next (s.answerOne rest (s.ev.w == 0) f)

/-- The port that carries an address of an aperture: requests are spread over its ports by address. -/
def Aperture.portOf (a : Aperture) (off : Nat) : Nat :=
  let l := (upTo 0 16).filter fun i => bit a.ports i
  (l[off / 256 % l.length]?).getD 16

/-- A request of a partition's aperture that travels over a port. -/
def State.overPort (s : State) (p : Fin 8) (ap off port : Nat) : Bool :=
  match (s.part p).apertures.toList[ap]? with | some a => a.valid && a.portOf off == port | none => false

/-- A requester's pending requests are plain writes. -/
def State.askWrites (s : State) (who : Requester) : Bool :=
  match who with
  | .access g k id =>
    match (s.bank g k).live.find? fun (o : AOp) => o.id == id with
    | some o => (match o.body with | .store _ => true | .scatter _ _ => true | _ => false)
    | none => true
  | .channel d id => (s.die d).copies.any fun (c : CopyCmd) => c.id == id && c.out.isSome
  | .peer _ _ => true

/-- A port fails: reads over it return poisoned sectors, writes over it are dropped and counted, firmware hears SEAL_LOST, and
a job with an open interval loses its seal group (R340; spec/21 R310). -/
def execSpanPortFail (s : State) : Host.Outcome State Fault Refusal :=
  let port := s.ev.port.val
  let lost := s.dev.spanOut.filter fun x =>
    x.1 == 2 && (List.finRange 8).any fun p => s.overPort p x.2.1 x.2.2.1.toNat port
  let s := s.modDev fun d =>
    { d with
      portFailed := setBit d.portFailed port true, spanerr := d.spanerr + lost.length
      spanOut := d.spanOut.filter fun x => !lost.contains x }
  let s := s.dev.spanWait.foldl (fun (s : State) (x : SpanAsk) =>
    if (List.finRange 8).any fun p => s.asks p x.who && s.overPort p (vaOwner x.va - 9) (vaOffset x.va) port then
      s.askDone x ((upTo 0 x.n).map fun i => Config.peerByte (vaOwner x.va - 9) (vaOffset x.va + i)) (!s.askWrites x.who)
    else s) s
  let peers := (List.finRange 8).filter fun p => (s.part p).apertures.toList.any fun (a : Aperture) =>
    a.valid && bit a.ports port && s.inSealGroup a
  let s := if peers.isEmpty then s else s.fwRaise 6 0xFF (BitVec.ofNat 8 port) 0
  .next (peers.foldl (fun (s : State) (p : Fin 8) => s.rung3 p 49) s)

end Sys2Proof.Machine
end

