-- ==== Sys2Proof/Machine/Loader.lean ====
section
/-! DEFINITION. Machine/Loader.lean: the loader of code images with its patch entries and its scan for unordered forms, and the
registration of a job's queue table (spec/01 R21, R22, spec/05 R75). -/
namespace Sys2Proof.Machine
open Sys2Proof

/-! ## Unordered forms (R22) -/

/-- A legal word that is an unordered form: a returning atomic, `redfadd.u` or `vredsum.u`. -/
def unorderedForm : Instr → Bool
  | .aswap .. => true
  | .acas .. => true
  | .aadd .. => true
  | .aand .. => true
  | .aor .. => true
  | .axor .. => true
  | .amin .. => true
  | .amax .. => true
  | .aminu .. => true
  | .amaxu .. => true
  | .redfaddU .. => true
  | .vredsumU .. => true
  | _ => false

/-- The bits of a run of bytes in the image. -/
def State.imageBits (s : State) (p : Fin 8) (va n : Nat) : BitVec 128 := BitVec.ofNat 128 (s.greadLE p va n)

/-- Some word of the A section from word `i` on, with `n` words left, is unordered; a long form, of which none is unordered, takes
two words (`skip` stands before its second). -/
def State.scanA (s : State) (p : Fin 8) (va : Nat) : Nat → Nat → Bool → Bool
  | 0, _, _ => false
  | n + 1, i, skip =>
    if skip then s.scanA p va n (i + 1) false
    else
      let w := s.imageBits p (va + 6 * i) 6
      if isLong (w.setWidth 48) then s.scanA p va n (i + 1) true
      else (match decodeWord .a w with | some x => unorderedForm x | none => false) || s.scanA p va n (i + 1) false

/-- Some syllable of a track is unordered. -/
def State.scanX (s : State) (p : Fin 8) (va n : Nat) : Bool :=
  (upTo 0 n).any fun i => match decodeWord .x (s.imageBits p (va + 8 * i) 8) with | some x => unorderedForm x | none => false

/-- The image at a VA holds an unordered form. -/
def State.hasUnordered (s : State) (p : Fin 8) (va : Nat) (h : ImageHdr) : Bool :=
  s.scanA p (va + h.aOff.toNat) h.aLen.toNat 0 false ||
    (List.finRange 4).any fun c => s.scanX p (va + (h.xOff.get c).toNat) (h.xLen.get c).toNat

/-! ## Patch entries (R21) -/

/-- Where the word of a section lies and its width in bits: section code, word index. -/
def State.patchPlace (s : State) (p : Fin 8) (va : Nat) (h : ImageHdr) (sect word : Nat) : Option (Nat × Nat) :=
  let doff := s.greadLE p (va + 0x38) 4
  let dlen := s.greadLE p (va + 0x3C) 4
  if sect = 0 then (if word < h.aLen.toNat then some (va + h.aOff.toNat + 6 * word, 48) else none)
  else if hs : 1 ≤ sect ∧ sect < 5 then
    let c : Fin 4 := ⟨sect - 1, by omega⟩
    if word < (h.xLen.get c).toNat then some (va + (h.xOff.get c).toNat + 8 * word, 64) else none
  else if sect = 5 then (if word < h.mLen.toNat then some (va + h.mOff.toNat + 16 * word, 128) else none)
  else if sect = 6 then (if 8 * word + 8 ≤ dlen then some (va + doff + 8 * word, 64) else none)
  else none

/-- The source of a patch value. -/
def State.patchSource (s : State) (p : Fin 8) (va src : Nat) (param : Nat) : Option Nat :=
  match src with
  | 0 => some 0
  | 1 => some (64 * (s.part p).ndies)
  | 2 => if decide (1 ≤ param) && decide (param < 2 ^ 32) then some param else none
  | 3 => some (s.part p).ndies
  | 4 => some param
  | 5 => some (va + s.greadLE p (va + 0x38) 4)
  | _ => none

/-- A value fits a field of `len` bits. -/
def fitsField (v : Int) (len : Nat) (sgn : Bool) : Bool :=
  if sgn then decide (-(2 ^ (len - 1) : Int) ≤ v) && decide (v < (2 ^ (len - 1) : Int)) else decide (0 ≤ v) && decide (v < (2 ^ len : Int))

/-- One entry applied, with the parameter index that LAUNCHW entries of the image name; none refuses the load. The spec names no
consequence for a reserved SECT, a WORD beyond its section, a LEN of 0 or above 64, or a PIDX above 63, which SRC may not even use:
the model refuses the load for each (DESIGN CHOICE, log 124). -/
def State.applyPatch (s : State) (p : Fin 8) (va : Nat) (h : ImageHdr) (params : List DWord) (entry : Nat) (launchw : Option Nat) :
    Option (State × Option Nat) :=
  let r (off n : Nat) : Nat := s.greadLE p (entry + off) n
  let src := r 7 1 / 16
  let len := r 6 1
  let pos := r 5 1
  let pidx := r 10 2
  let mul : Int := (BitVec.ofNat 16 (r 8 2)).toInt
  let add : Int := (BitVec.ofNat 32 (r 12 4)).toInt
  match params[pidx]?, s.patchPlace p va h (r 4 1) (r 0 4) with
  | some x, some (at_, width) =>
    match s.patchSource p va src x.toNat with
    | none => none
    | some v0 =>
      let v : Int := (v0 : Int) * mul + add
      let w := s.imageBits p at_ (width / 8)
      let same := match launchw with | some i => src != 2 || i == pidx | none => true
      if decide (len = 0) || decide (64 < len) || decide (width < pos + len) || !fitsField v len (r 7 1 % 2 == 1) ||
          field w pos len != 0 || !same then none
      else
        let s := s.writeUntagged p at_ (leBytes (width / 8) (setBits w pos len (v % (2 ^ len : Int)).toNat).toNat)
        if src = 2 then some (s.writeUntagged p (va + 0x48) (leBytes 4 x.toNat), some pidx) else some (s, launchw)
  | _, _ => none

/-- The entries from number `i` on, `n` of them: the entry that refuses, or the patched image. -/
def State.applyPatches (p : Fin 8) (va : Nat) (h : ImageHdr) (params : List DWord) (table : Nat) :
    Nat → Nat → Option Nat → State → State ⊕ Nat
  | 0, _, _, s => .inl s
  | n + 1, i, lw, s =>
    match s.applyPatch p va h params (table + 16 * i) lw with
    | none => .inr i
    | some (t, lw) => State.applyPatches p va h params table n (i + 1) lw t

/-- A refused load leaves no image: its MAGIC goes, and the failing entry is named. -/
def State.refuseLoad (s : State) (p : Fin 8) (va entry : Nat) : State :=
  (s.writeUntagged p va [0, 0, 0, 0]).modDev fun d => { d with loadRefused := some entry }

/-- The loader takes the image that stands at `va` with the 64 parameters in `words`: the scan for unordered forms sets or refuses
the promise, and every patch entry is applied once. The scan reads the words as they stand in the image, before the patch entries;
the spec gives the two no order (DESIGN CHOICE, log 124). -/
def execImageLoad (s : State) : Host.Outcome State Fault Refusal :=
  let p := s.ev.p
  let va := s.ev.va.toNat
  let count := s.greadLE p (va + 0x44) 4
  match s.readImage p va with
  | none => .next (s.modDev fun d => { d with loadRefused := some count })
  | some h =>
    let found := s.hasUnordered p va h
    let marked := h.iflags % 2 == 1
    if found && !marked then .next (s.refuseLoad p va count)
    else
      let s := if marked && !found then s.writeUntagged p (va + 6) (leBytes 2 (h.iflags - 1)) else s
      match State.applyPatches p va h (s.ev.words.take 64) (va + s.greadLE p (va + 0x40) 4) count 0 none s with
      | .inr i => .next (s.refuseLoad p va i)
      | .inl t => .next (t.modDev fun d => { d with loadRefused := none })

/-! ## Registering a queue table (R75) -/

/-- A queue from its descriptor; BADDESC where a range or alignment rule is broken. -/
def State.readQueue (s : State) (p : Fin 8) (va : Nat) : Queue :=
  let r (off n : Nat) : Nat := s.greadLE p (va + off) n
  let base := r 0 8
  let cpl := r 16 8
  let bad := base % 128 != 0 || !canonical base || decide (r 8 1 < 4) || decide (12 < r 8 1) || decide (1 < r 9 1) || decide (1 < r 10 1) ||
    decide (7 < r 11 1) || decide (127 < r 12 1) || decide (127 < r 13 1) || r 14 2 != 0 || cpl % 32 != 0 || !canonical cpl ||
    decide (r 24 1 < 4) || decide (16 < r 24 1) || r 25 7 != 0 || r 52 12 != 0
  { base := BitVec.ofNat 64 base, logsize := r 8 1, graph := r 9 1 == 1, device := r 10 1 == 1, ctx := Fin.ofNat 8 (r 11 1),
    qprio := r 12 1, qcap := r 13 1, cplbase := BitVec.ofNat 64 cpl, cpllog := r 24 1, head := 0, tail := 0, cpltail := 0,
    enabled := !bad, qovf := false, cplstall := false, baddesc := bad, checked := false, cancelled := [], dropped := [], held := [] }

/-- The device's own fields of a descriptor at registration: HEAD, TAIL, CPLHEAD and CPLTAIL 0, and STATUS. -/
def State.initDescriptor (s : State) (p : Fin 8) (va : Nat) (x : Queue) : State :=
  s.writeUntagged p (va + 32) (List.replicate 16 0 ++ leBytes 4 x.status)

/-- A new job over a registered table; its first phase, number 0, opens with it (R86). -/
def Job.fresh (va : DWord) (n now : Nat) (pasid : BitVec 20) (queues : Vector (Option Queue) 64) : Job :=
  { qtbase := va, qtcount := n, queues := queues, ev := Vector.replicate 8 0, items := [], nextItem := 0,
    phase := Phase.start 0 0 now (Vector.replicate 64 0) (Vector.replicate 64 0) (Vector.replicate 8 0) [] 0 [], okPhases := 0, past := [],
    status := 0, reason := 0, ended := false, faults := [], batchNo := 0, batchFrom := none, nextPri := 0, pasid := pasid,
    colHigh := 0, colPeers := [], digest := 0 }

/-- Firmware registers a queue table of `n` descriptors at `va` for the PASID in `w2`: the job takes the active slot, or, where a job is open there, the
slot in shadow storage (R74, R75, R311; spec/23 R338). -/
def execQueueTableRegistration (s : State) : Host.Outcome State Fault Refusal :=
  let p := s.ev.p
  let n := s.ev.n
  let va := s.ev.va.toNat
  let taken := match (s.part p).shadowJob with | some j => !j.ended | none => false
  if (s.part p).ndies = 0 || n = 0 || decide (64 < n) || (s.jobOpen p && (taken || !s.feature 7)) then .next s
  else
    let queues : Vector (Option Queue) 64 := Vector.ofFn fun i => if i.val < n then some (s.readQueue p (va + 64 * i.val)) else none
    let s := (upTo 0 n).foldl (fun (s : State) (i : Nat) =>
      match queues.toList.getD i none with | some x => s.initDescriptor p (va + 64 * i) x | none => s) s
    let j := Job.fresh s.ev.va n s.cycle (s.ev.w2.setWidth 20) queues
    if s.jobOpen p then .next (s.modPart p fun q => { q with shadowJob := some j, shadowColerr := 0 })
    else
      let s := s.modPart p fun q => { q with job := some j, rincur := 0, rbCount := 0, colerr := 0, halted := false }
      .next (s.beginPhase p 0 [])

end Sys2Proof.Machine
end

