-- ==== Sys2Proof/Machine/Firmware.lean ====
section
/-! DEFINITION. Machine/Firmware.lean: the start of the device, the firmware's events, and the mailbox (spec/23 R341-R345). The
bytes of a mailbox command's arguments stand in `data` in the order in which R342 names them, each field in as few bytes as its
range needs, little-endian (DESIGN CHOICE, log 29). -/
namespace Sys2Proof.Machine
open Sys2Proof

/-! ## The start (R343, R344) -/

/-- Core cycles in ten seconds. -/
def goCycles : Nat := 10 * 1000000 * usCycles

/-- A start fails with its reason: the count rises, a third failure enters minimal mode, a staged image is abandoned. -/
def State.startFails (s : State) (reason detail : Byte) : State :=
  (s.modDev fun d =>
    { d with
      fails := BitVec.ofNat 8 (sat 8 (d.fails.toNat + 1)), minimal := d.minimal || decide (2 ≤ d.fails.toNat), whyReason := reason,
      whyDetail := detail, stepsOk := false, staged := false
      images := if d.staged then d.images.set (1 - d.bootSlot.val) FwImage.reset else d.images }).unschedule
    fun (x : Due) => x.what == .goTimeout

/-- The machine after a reset: device memory, host memory and what the device keeps across resets stay. -/
def State.afterReset (s : State) : State :=
  let d := s.dev
  { State.reset with
    cycle := s.cycle, agenda := [], free := s.free, hbm := s.hbm, host := s.host
    dev := { Device.reset with
      fails := d.fails, minimal := d.minimal, whyReason := d.whyReason, whyDetail := d.whyDetail, images := d.images, staged := d.staged,
      bootSlot := d.bootSlot, resetAt := s.cycle, msix := d.msix, hostReplies := d.hostReplies, atsEpoch := d.atsEpoch } }

/-- The ROM accepts the image of a slot: it is valid and its version is not below the fused one. -/
def FwImage.boots (i : FwImage) : Bool := i.valid && decide (Config.fusedVersion ≤ i.version.toNat)

/-- The slot the ROM runs: a staged image first. -/
def Device.choose (d : Device) : Device :=
  let other : Fin 2 := if d.bootSlot = 0 then 1 else 0
  if d.staged && (d.images.get other).boots then d else { d with staged := false }

/-- What may fail after the ROM's step, by the reason of each: HBM training, UCIe training, the power-on tests, and a thermal trip or
the firmware's watchdog in the midst of them. -/
def startSteps : List Byte := [3, 4, 7, 8, 9]

/-- The first step that fails. -/
def State.runSteps (s : State) : List Byte → State
  | [] =>
    ((s.modDev fun d => { d with stepsOk := true }).schedule goCycles .goTimeout EvArgs.zero).schedule sampleCycles .dvfsSample
      EvArgs.zero
  | r :: l =>
    match Config.startStep s.free with
    | (true, _) => s.useFree.runSteps l
    | (false, x) => s.useFree.startFails r x

/-- A reset: the ROM verifies an image, and the steps run; in minimal mode nothing is started. -/
def execDeviceResetStart (s : State) : Host.Outcome State Fault Refusal :=
  let s := s.afterReset
  if s.dev.minimal then .next s
  else
    let s := s.modDev Device.choose
    let d := s.dev
    if d.staged || (d.images.get d.bootSlot).boots then .next (s.runSteps startSteps)
    else .next (s.startFails (if d.images.toList.any fun (i : FwImage) => i.valid then 2 else 1) 0)

/-- GO: the start succeeds when its steps have passed and every required feature is in DRVFEAT; ACTFEAT is fixed. -/
def execBootctlGo (s : State) : Host.Outcome State Fault Refusal :=
  let d := s.dev
  if d.go || !d.stepsOk then .next s
  else if d.reqfeat &&& ~~~d.drvfeat != 0 then .next (s.startFails 5 0)
  else
    .next ((s.modDev fun d =>
      { d with
        go := true, actfeat := d.devfeat &&& d.drvfeat, fails := 0, staged := false
        bootSlot := if d.staged then (if d.bootSlot = 0 then 1 else 0) else d.bootSlot }).unschedule
      fun (x : Due) => x.what == .goTimeout)

/-- GO has not come within 10 s. -/
def execGoTimeout (s : State) : Host.Outcome State Fault Refusal :=
  if s.dev.go || !s.dev.stepsOk then .next s else .next (s.startFails 6 0)

/-! ## The firmware event record (R341) -/

/-- The host writes the SEQ it has read (`w`): the next event that waits stands in the record. -/
def execFirmwareEventAck (s : State) : Host.Outcome State Fault Refusal :=
  .next (s.modDev fun d =>
    let d := { d with fwAck := s.ev.w }
    match d.fwQueue with
    | e :: l => if d.fwAck == d.fwSeq then { d with fwSeq := d.fwSeq + 1, fwEvent := e, fwQueue := l, msix := d.msix ++ [1] } else d
    | [] => d)

/-! ## The mailbox (R342) -/

/-- A number in the argument bytes. -/
def argAt (data : List Byte) (off n : Nat) : Nat := leNat ((data.drop off).take n)

/-- The command ends with a result, and vector 0 fires. -/
def State.mailboxDone (s : State) (r : Nat) : State := s.modDev fun d => { d with mbStatus := BitVec.ofNat 32 r, msix := d.msix ++ [0] }

/-- The reply area holds these bytes. -/
def State.mailboxReply (s : State) (l : List Byte) : State := s.modDev fun d => { d with mbReply := BitVec.ofNat 2048 (leNat l) }

/-- Every command: ignored while one is in progress; in minimal mode only 5, 7, 8 and 10 are served; a command of an absent
feature returns 3. `f` serves it: its result, or none while it goes on. -/
def mailbox (n : Nat) (feat : Option Nat) (f : List Byte → State → State × Option Nat) (s : State) : Host.Outcome State Fault Refusal :=
  if s.dev.mbStatus == 1 then .next s
  else
    let data := s.ev.data
    let s := s.modDev fun d =>
      { d with mbCmd := BitVec.ofNat 32 n, mbStatus := 1, mbArgs := BitVec.ofNat 1024 (leNat (data.take 128)) }
    let absent := match feat with | some i => !s.feature i | none => false
    if s.dev.minimal && !([5, 7, 8, 10].contains n) then .next (s.mailboxDone 4)
    else if absent && !s.dev.minimal then .next (s.mailboxDone 3)
    else match f data s with
      | (t, some r) => .next (t.mailboxDone r)
      | (t, none) => .next t

/-- Counts of dies per first die are sound: 1, 2, 4 or 8, aligned, and no die in two partitions. -/
def layoutOk (l : List Nat) : Bool :=
  l.length == 8 && (l.zipIdx.all fun (x : Nat × Nat) =>
    x.1 == 0 || ([1, 2, 4, 8].contains x.1 && x.2 % x.1 == 0 &&
      (upTo (x.2 + 1) (x.1 - 1)).all fun (d : Nat) => l.getD d 0 == 0))

/-- A job of the partition is open, in either of its slots. -/
def State.holdsJob (s : State) (p : Fin 8) : Bool :=
  s.jobOpen p || match (s.part p).shadowJob with | some j => !j.ended | none => false

/-- The partition at die `p` takes a die count. -/
def State.setPart (s : State) (p : Fin 8) (n : Nat) : State :=
  if (s.part p).ndies = n then s
  else (s.unschedule fun x => s.ofPartition p x).modPart p fun _ => { Part.reset with ndies := n, startedAt := s.cycle }

/-- PART: 8 bytes, a die count per first die (spec/05 R74). -/
def execMailboxPart (s : State) : Host.Outcome State Fault Refusal :=
  mailbox 1 none (fun data s =>
    let l := (upTo 0 8).map fun i => argAt data i 1
    let busy := (List.finRange 8).any fun p => (s.part p).ndies != l.getD p.val 0 && s.holdsJob p
    if !layoutOk l then (s, some 2)
    else if busy then (s, some 4)
    else ((List.finRange 8).foldl (fun (s : State) (p : Fin 8) => s.setPart p (l.getD p.val 0)) s, some 0)) s

/-- The binding of 16 bytes (R340); none where a reserved field is not 0. -/
def apertureOf (l : List Byte) : Option Aperture :=
  if argAt l 7 1 / 4 != 0 || argAt l 8 8 != 0 || decide (8 ≤ argAt l 6 1) then none
  else
    some
      { ports := BitVec.ofNat 16 (argAt l 0 2), peer := BitVec.ofNat 32 (argAt l 2 4), ppart := BitVec.ofNat 8 (argAt l 6 1),
        valid := argAt l 7 1 % 2 == 1, sealgrp := argAt l 7 1 / 2 % 2 == 1 }

/-- BIND: partition, aperture, entry; refused while the partition holds an active job. -/
def execMailboxBind (s : State) : Host.Outcome State Fault Refusal :=
  mailbox 2 (some 4) (fun data s =>
    let a := argAt data 1 1
    let p : Fin 8 := Fin.ofNat 8 (argAt data 0 1)
    match apertureOf ((data.drop 2).take 16) with
    | none => (s, some 2)
    | some x =>
      if decide (8 ≤ argAt data 0 1) || (s.part p).ndies = 0 then (s, some 2)
      else if h : a < 7 then
        if s.jobOpen p then (s, some 4)
        else (s.modPart p fun q => { q with apertures := q.apertures.set a x h }, some 0)
      else (s, some 2)) s

/-- OVFEXT: die, stack, size in GiB, at most the 44 whole GiB of a stack (spec/09 R182). -/
def execMailboxOvfext (s : State) : Host.Outcome State Fault Refusal :=
  mailbox 3 none (fun data s =>
    if decide (8 ≤ argAt data 0 1) || decide (2 ≤ argAt data 1 1) || decide (44 < argAt data 2 4) then (s, some 2)
    else
      (s.modStack (Fin.ofNat 8 (argAt data 0 1)) (Fin.ofNat 2 (argAt data 1 1)) fun t => { t with ovfGiB := argAt data 2 4 }, some 0)) s

/-- DVREQ: die, physical cluster, FCODE, VCODE; the reply is DVSTAT (spec/16 R273). -/
def execMailboxDvreq (s : State) : Host.Outcome State Fault Refusal :=
  mailbox 4 none (fun data s =>
    if decide (8 ≤ argAt data 0 1) || decide (9 ≤ argAt data 1 1) || decide (16 ≤ argAt data 2 1) then (s, some 2)
    else
      let d : Fin 8 := Fin.ofNat 8 (argAt data 0 1)
      let c : Fin 9 := Fin.ofNat 9 (argAt data 1 1)
      let s := s.dvreq d c (BitVec.ofNat 32 (argAt data 2 1 + argAt data 3 1 * 2 ^ 8))
      (s.mailboxReply (leBytes 4 ((s.dvfsOf d c).stat s.cycle).toNat), some 0)) s

/-- VMIN: die, physical cluster; the reply is one byte for each FCODE 0-8 (spec/16 R271). -/
def execMailboxVmin (s : State) : Host.Outcome State Fault Refusal :=
  mailbox 5 none (fun data s =>
    if decide (8 ≤ argAt data 0 1) || decide (9 ≤ argAt data 1 1) then (s, some 2)
    else
      let v (f : Nat) : Byte := Config.fusedVmin (Fin.ofNat 8 (argAt data 0 1)) (Fin.ofNat 9 (argAt data 1 1)) (BitVec.ofNat 4 f)
      (s.mailboxReply ((upTo 0 9).map v), some 0)) s

/-- PWRLIM: watts, 800 to 3,200 (spec/16 R279). -/
def execMailboxPwrlim (s : State) : Host.Outcome State Fault Refusal :=
  mailbox 6 none (fun data s =>
    let w := argAt data 0 4
    if decide (w < 800) || decide (3200 < w) then (s, some 2) else (s.modDev fun d => { d with pwrlim := w }, some 0)) s

/-- The image of `n` bytes at a host address, when its magic, length, digest, signature and version hold; header fields: magic at
0, version at 4, body length at 8, digest at 12, signature at 192. -/
def stagedImage (l : List Byte) : Option FwImage :=
  let version := argAt l 4 4
  let digest := (l.drop 12).take 32
  let sig : BitVec 512 := BitVec.ofNat 512 (argAt l 192 64)
  if decide (l.length < 256) || argAt l 0 4 != 0x57464D57 || argAt l 8 4 != l.length - 256 || sha256 (l.drop 256) != digest ||
      !Config.signatureValid (BitVec.ofNat 256 (leNat (sha256 (l.take 192)))) sig || decide (version < Config.fusedVersion) then none
  else some { valid := true, version := BitVec.ofNat 32 version, digest := BitVec.ofNat 256 (leNat digest) }

/-- STAGE: host VA, length; a verified image goes into the inactive slot (R344). -/
def execMailboxStage (s : State) : Host.Outcome State Fault Refusal :=
  mailbox 7 none (fun data s =>
    match stagedImage (s.host.readN (argAt data 0 8) (argAt data 8 4)) with
    | none => (s, some 2)
    | some i =>
      (s.modDev fun d => { d with images := d.images.set (1 - d.bootSlot.val) i, staged := true }, some 0)) s

/-- ATTEST: a nonce of 32 bytes; the reply has it, both slots' digests and versions, ACTFEAT, the partition layout, and the
signed part (R345). -/
def execMailboxAttest (s : State) : Host.Outcome State Fault Refusal :=
  mailbox 8 (some 11) (fun data s =>
    let im := s.dev.images.toList
    let layout := (List.finRange 8).map fun p => BitVec.ofNat 8 (s.part p).ndies
    let l := data.take 32 ++ im.flatMap (fun (i : FwImage) => leBytes 32 i.digest.toNat) ++
      im.flatMap (fun (i : FwImage) => leBytes 4 i.version.toNat) ++ leBytes 16 s.dev.actfeat.toNat ++ layout
    ((s.mailboxReply (l ++ leBytes 128 (Config.attestation s.free).toNat)).useFree, some 0)) s

/-- COLSPAN: partition, barrier (spec/12 R248). -/
def execMailboxColspan (s : State) : Host.Outcome State Fault Refusal :=
  mailbox 9 (some 9) (fun data s =>
    let p : Fin 8 := Fin.ofNat 8 (argAt data 0 1)
    if decide (8 ≤ argAt data 0 1) || (s.part p).ndies = 0 || decide (32 ≤ argAt data 1 1) then (s, some 2)
    else (s.modPart p fun q => { q with colspan := setBit q.colspan (argAt data 1 1) true }, some 0)) s

/-- RETRY: the count of failed starts is cleared and the device is reset, which leaves minimal mode (R343). -/
def execMailboxRetry (s : State) : Host.Outcome State Fault Refusal :=
  mailbox 10 none (fun _ s => ((s.modDev fun d => { d with fails := 0, minimal := false }).schedule 0 .deviceResetStart EvArgs.zero, none)) s

/-- TLBINV: partition, die rank, start VA, length; it ends with the invalidation (spec/09 R169). -/
def execMailboxTlbinv (s : State) : Host.Outcome State Fault Refusal :=
  mailbox 11 none (fun data s =>
    let p : Fin 8 := Fin.ofNat 8 (argAt data 0 1)
    let rank := argAt data 1 1
    let len := argAt data 10 8
    if decide (8 ≤ argAt data 0 1) || len = 0 || decide ((s.part p).ndies ≤ rank) then (s, some 2)
    else (s.invalidate p rank (argAt data 2 8) len 0 .mailbox, none)) s

end Sys2Proof.Machine
end

