-- ==== Sys2Proof/Machine/XVector.lean ====
section
/-! DEFINITION. Machine/XVector.lean: vector floating-point and integer instructions, conversions and permutes of the X
stream (spec/07 R126-R139). -/
namespace Sys2Proof.Machine
open Sys2Proof

/-- The rounding mode in force at issue (spec/03 R62). -/
def State.rm (s : State) : RMode := fpctlRM s.tb.fpctl

/-- A lane-wise form over two vectors, with flags. -/
def vBinF (h : XHdr) (d : VDst) (a b : VSrc) (l : Nat) (f : RMode → Word → Word → Word × FFlags) (s : State) :
    Host.Outcome State Fault Refusal :=
  xVector h d l (vPorts a ++ vPorts b)
    (fun s => let x := s.rV a; let y := s.rV b; mapF fun i => f s.rm (lane x i) (lane y i)) s

def vTerF (h : XHdr) (d : VDst) (a b c : VSrc) (l : Nat) (f : RMode → Word → Word → Word → Word × FFlags) (s : State) :
    Host.Outcome State Fault Refusal :=
  xVector h d l (vPorts a ++ vPorts b ++ vPorts c)
    (fun s => let x := s.rV a; let y := s.rV b; let z := s.rV c
      mapF fun i => f s.rm (lane x i) (lane y i) (lane z i)) s

def vUnF (h : XHdr) (d : VDst) (a : VSrc) (l : Nat) (f : RMode → Word → Word × FFlags) (s : State) :
    Host.Outcome State Fault Refusal :=
  xVector h d l (vPorts a) (fun s => let x := s.rV a; mapF fun i => f s.rm (lane x i)) s

/-- A lane-wise integer form, without flags. -/
def vBinI (h : XHdr) (d : VDst) (a b : VSrc) (f : Word → Word → Word) (s : State) : Host.Outcome State Fault Refusal :=
  xVector h d 2 (vPorts a ++ vPorts b) (fun s => (zipLanes f (s.rV a) (s.rV b), fNone)) s

/-! ## Floating point (R126-R130) -/

def execVadd (h : XHdr) (d : VDst) (a b : VSrc) (s : State) : Host.Outcome State Fault Refusal := vBinF h d a b 4 fadd32 s
def execVsub (h : XHdr) (d : VDst) (a b : VSrc) (s : State) : Host.Outcome State Fault Refusal := vBinF h d a b 4 fsub32 s
def execVmul (h : XHdr) (d : VDst) (a b : VSrc) (s : State) : Host.Outcome State Fault Refusal := vBinF h d a b 4 fmul32 s
def execVfma (h : XHdr) (d : VDst) (a b c : VSrc) (s : State) : Host.Outcome State Fault Refusal :=
  vTerF h d a b c 4 (fun rm => ffma32 rm false) s
def execVfms (h : XHdr) (d : VDst) (a b c : VSrc) (s : State) : Host.Outcome State Fault Refusal :=
  vTerF h d a b c 4 (fun rm => ffma32 rm true) s
def execVmin (h : XHdr) (d : VDst) (a b : VSrc) (s : State) : Host.Outcome State Fault Refusal :=
  vBinF h d a b 2 (fun _ x y => (fmm32 false x y, fNone)) s
def execVmax (h : XHdr) (d : VDst) (a b : VSrc) (s : State) : Host.Outcome State Fault Refusal :=
  vBinF h d a b 2 (fun _ x y => (fmm32 true x y, fNone)) s
def execVabs (h : XHdr) (d : VDst) (a : VSrc) (s : State) : Host.Outcome State Fault Refusal :=
  vUnF h d a 2 (fun _ x => (x &&& 0x7FFFFFFF, fNone)) s
def execVneg (h : XHdr) (d : VDst) (a : VSrc) (s : State) : Host.Outcome State Fault Refusal :=
  vUnF h d a 2 (fun _ x => (x ^^^ 0x80000000, fNone)) s
def execVcmp (h : XHdr) (c : FCond) (d : VDst) (a b : VSrc) (s : State) : Host.Outcome State Fault Refusal :=
  vBinF h d a b 2 (fun _ x y => let r := fcond c x y; (if r.1 then BitVec.allOnes 32 else 0, r.2)) s
def execVrcp (h : XHdr) (d : VDst) (a : VSrc) (s : State) : Host.Outcome State Fault Refusal := vUnF h d a 8 frcp32 s
def execVrsqrt (h : XHdr) (d : VDst) (a : VSrc) (s : State) : Host.Outcome State Fault Refusal := vUnF h d a 8 frsqrt32 s
def execVexp2 (h : XHdr) (d : VDst) (a : VSrc) (s : State) : Host.Outcome State Fault Refusal := vUnF h d a 8 fexp232 s
def execVlog2 (h : XHdr) (d : VDst) (a : VSrc) (s : State) : Host.Outcome State Fault Refusal := vUnF h d a 8 flog232 s

def lanesOf (v : Vec) : List Word := (upTo 0 32).map fun l => lane v l

/-- The fixed tree (R130). -/
def execVredsumO (h : XHdr) (d : SDst) (a : VSrc) (s : State) : Host.Outcome State Fault Refusal :=
  xScalar h d 16 (vPorts a) (fun s => treeSum s.rm 5 (lanesOf (s.rV a)) fNone) s

/-- A tree that the manual does not fix: a free value chooses it (R130, log 3). -/
def execVredsumU (h : XHdr) (d : SDst) (a : VSrc) (s : State) : Host.Outcome State Fault Refusal :=
  xIssue h 16 (vPorts a) noBlock (fun t =>
    let r := anyTree s.rm (Config.treePick s.free) 31 0 (lanesOf (s.rV a)) fNone
    (t.useFree.wrS h d r.1 16 r.2).xNext) s

/-- The greatest lane, NaN lanes skipped (R130). -/
def redmax : List Word → Word
  | [] => nan32
  | a :: l => let r := redmax l; if l.isEmpty then (if isNan32 a then nan32 else a) else fmm32 true a r

def execVredmax (h : XHdr) (d : SDst) (a : VSrc) (s : State) : Host.Outcome State Fault Refusal :=
  xScalar h d 6 (vPorts a) (fun s => (redmax (lanesOf (s.rV a)), fNone)) s

/-! ## Integer (R131-R133) -/

def execViadd (h : XHdr) (d : VDst) (a b : VSrc) (s : State) : Host.Outcome State Fault Refusal :=
  vBinI h d a b (fun x y => x + y) s
def execVisub (h : XHdr) (d : VDst) (a b : VSrc) (s : State) : Host.Outcome State Fault Refusal :=
  vBinI h d a b (fun x y => x - y) s
def execVimul (h : XHdr) (d : VDst) (a b : VSrc) (s : State) : Host.Outcome State Fault Refusal :=
  vBinI h d a b (fun x y => x * y) s
def execVand (h : XHdr) (d : VDst) (a b : VSrc) (s : State) : Host.Outcome State Fault Refusal :=
  vBinI h d a b (fun x y => x &&& y) s
def execVor (h : XHdr) (d : VDst) (a b : VSrc) (s : State) : Host.Outcome State Fault Refusal :=
  vBinI h d a b (fun x y => x ||| y) s
def execVxor (h : XHdr) (d : VDst) (a b : VSrc) (s : State) : Host.Outcome State Fault Refusal :=
  vBinI h d a b (fun x y => x ^^^ y) s
def execVshl (h : XHdr) (d : VDst) (a b : VSrc) (s : State) : Host.Outcome State Fault Refusal := vBinI h d a b shlW s
def execVshr (h : XHdr) (d : VDst) (a b : VSrc) (s : State) : Host.Outcome State Fault Refusal := vBinI h d a b shrW s
def execVsra (h : XHdr) (d : VDst) (a b : VSrc) (s : State) : Host.Outcome State Fault Refusal := vBinI h d a b sraW s
def execVimin (h : XHdr) (uns : Bool) (d : VDst) (a b : VSrc) (s : State) : Host.Outcome State Fault Refusal :=
  vBinI h d a b (minW uns) s
def execVimax (h : XHdr) (uns : Bool) (d : VDst) (a b : VSrc) (s : State) : Host.Outcome State Fault Refusal :=
  vBinI h d a b (maxW uns) s
def execVicmp (h : XHdr) (c : ICond) (d : VDst) (a b : VSrc) (s : State) : Host.Outcome State Fault Refusal :=
  vBinI h d a b (fun x y => if icond c x y then BitVec.allOnes 32 else 0) s

/-- A byte as an integer. -/
def byteInt (uns : Bool) (b : Byte) : Int := if uns then (b.toNat : Int) else b.toInt

/-- A sum clamped to 32 bits; a clamp sets OF (R132). -/
def clamp32 (x : Int) : Word × FFlags :=
  let c := clampInt x (-2147483648) 2147483647
  (BitVec.ofInt 32 c, if c = x then fNone else fOF)

def vmacwLane (uns : Bool) (pa pb : Nat) (a b c : Vec) (l : Nat) : Word × FFlags :=
  clamp32 ((lane c l).toInt + byteInt uns (vbyte a (32 * pa + l)) * (vbyte b (32 * pb + l)).toInt)

def vdot4Lane (ua ub : Bool) (a b c : Vec) (l : Nat) : Word × FFlags :=
  let p (i : Nat) : Int := byteInt ua (vbyte a (4 * l + i)) * byteInt ub (vbyte b (4 * l + i))
  clamp32 ((lane c l).toInt + (p 0 + p 1 + p 2 + p 3))

def execVmacw (h : XHdr) (uns : Bool) (pa pb : Fin 4) (d : VDst) (a b c : VSrc) (s : State) :
    Host.Outcome State Fault Refusal :=
  xVector h d 2 (vPorts a ++ vPorts b ++ vPorts c)
    (fun s => mapF (vmacwLane uns pa.val pb.val (s.rV a) (s.rV b) (s.rV c))) s

def execVdot4 (h : XHdr) (ua ub : Bool) (d : VDst) (a b c : VSrc) (s : State) : Host.Outcome State Fault Refusal :=
  xVector h d 3 (vPorts a ++ vPorts b ++ vPorts c) (fun s => mapF (vdot4Lane ua ub (s.rV a) (s.rV b) (s.rV c))) s

/-- The rounded shift of one lane, half toward +∞ (R133). -/
def rshVal (a b : Word) : Int :=
  let n := b.toNat % 32
  if n = 0 then a.toInt else (a.toInt + 2 ^ (n - 1)) / 2 ^ n

/-- `vrsh`: the register and its flags. -/
def vrshVal (t : RshT) (p : Nat) (a b c : Vec) : Vec × FFlags :=
  match t with
  | .i32 => (ofLanes fun l => BitVec.ofInt 32 (rshVal (lane a l) (lane b l)), fNone)
  | _ =>
    let lo : Int := if t == .i8 then -128 else 0
    let hi : Int := if t == .i8 then 127 else 255
    let y (l : Nat) : Int := rshVal (lane a l) (lane b l)
    (placeElems c 8 (fun l => 32 * p + l) fun l => (BitVec.ofInt 8 (clampInt (y l) lo hi)).toNat,
      if (upTo 0 32).all fun l => decide (clampInt (y l) lo hi = y l) then fNone else fOF)

def execVrsh (h : XHdr) (t : RshT) (p : Fin 4) (d : VDst) (a b c : VSrc) (s : State) : Host.Outcome State Fault Refusal :=
  xVector h d 2 (vPorts a ++ vPorts b ++ vPorts c) (fun s => vrshVal t p.val (s.rV a) (s.rV b) (s.rV c)) s

/-! ## Conversions (R134, R135) -/

def execVcvt (h : XHdr) (dst : Fmt) (src : CvtSrc) (p : Fin 4) (d : VDst) (a c : VSrc) (s : State) :
    Host.Outcome State Fault Refusal :=
  xVector h d 3 (vPorts a ++ vPorts c) (fun s => vcvtVal s.rm dst src p.val (s.rV a) (s.rV c)) s

/-- `vdq`, with the one RESERVED_T5 record of the syllable (R135, spec/22 R331). -/
def execVdq (h : XHdr) (f : DqFmt) (p : Fin 8) (d : VDst) (a b c : VSrc) (s : State) : Host.Outcome State Fault Refusal :=
  xIssue h 3 (vPorts a ++ vPorts b ++ vPorts c) noBlock (fun t =>
    let r (l : Nat) := vdqLane f p.val (s.rV a) (s.rV b) (s.rV c) l
    let t := match firstIdx (fun l => (r l).2.2) 32 with
      | none => t
      | some l =>
        let bk := s.tb
        let rank := (dieOf s.turn.core).val - (s.partAt s.turn.core).val
        t.provRecord (dieOf s.turn.core)
          (provBits (s.sfc bk).toNat rank (16 + 64 * s.turn.col.val) (inDie s.turn.core) s.tc.pc.toNat 4 0xFF
            (fmtCode (dqFmtOf f) * 16) 0 0 0 l 0)
    let v := mapF fun l => ((r l).1, (r l).2.1)
    (t.wrV h d v.1 3 v.2).xNext) s

/-! ## Permutes, merges and scans (R136-R139) -/

def vpermVal (a b c : Vec) : Vec :=
  ofLanes fun l =>
    let i := lane b l
    if bit i 31 then 0 else if bit i 5 then lane c (i.toNat % 32) else lane a (i.toNat % 32)

/-- The non-zero lanes in ascending order (R138). -/
def nzLanes (f32 : Bool) (a : Vec) : List Nat :=
  (upTo 0 32).filter fun l => if f32 then field (lane a l) 0 31 != 0 else lane a l != 0

/-- Operator and identity of a scan (R139). -/
def scanOp : ScanOp → (Word → Word → Word) × Word
  | .add => (fun x y => x + y, 0)
  | .maxi => (maxW false, 0x80000000)
  | .mini => (minW false, 0x7FFFFFFF)
  | .maxn => (maxW true, 0)
  | .minn => (minW true, 0xFFFFFFFF)

/-- The inclusive prefix of lanes 0..l. -/
def prefixVal (f : Word → Word → Word) (a : Vec) : Nat → Word
  | 0 => lane a 0
  | l + 1 => f (prefixVal f a l) (lane a (l + 1))

def vscanVal (op : ScanOp) (ex : Bool) (a : Vec) : Vec :=
  let o := scanOp op
  ofLanes fun l => if ex then (match l with | 0 => o.2 | l + 1 => prefixVal o.1 a l) else prefixVal o.1 a l

def execVbc (h : XHdr) (d : VDst) (a : SSrc) (s : State) : Host.Outcome State Fault Refusal :=
  xVector h d 2 (sPorts a) (fun s => let x := s.rS a; (ofLanes fun _ => x, fNone)) s
def execVbcLn (h : XHdr) (d : VDst) (a : VSrc) (b : SSrc) (s : State) : Host.Outcome State Fault Refusal :=
  xVector h d 2 (vPorts a ++ sPorts b)
    (fun s => let x := lane (s.rV a) ((s.rS b).toNat % 32); (ofLanes fun _ => x, fNone)) s
def execVperm (h : XHdr) (d : VDst) (a b c : VSrc) (s : State) : Host.Outcome State Fault Refusal :=
  xVector h d 2 (vPorts a ++ vPorts b ++ vPorts c) (fun s => (vpermVal (s.rV a) (s.rV b) (s.rV c), fNone)) s
def execVnzscan (h : XHdr) (f32 : Bool) (d : VDst) (a : VSrc) (b : SSrc) (s : State) :
    Host.Outcome State Fault Refusal :=
  xVector h d 3 (vPorts a ++ sPorts b) (fun s =>
    let nz := nzLanes f32 (s.rV a)
    let base := s.rS b
    (ofLanes fun l => match nz[l]? with | some i => base + BitVec.ofNat 32 i | none => 0xFFFFFFFF, fNone)) s
def execVnzscanCnt (h : XHdr) (f32 : Bool) (d : SDst) (a : VSrc) (s : State) : Host.Outcome State Fault Refusal :=
  xScalar h d 3 (vPorts a) (fun s => (BitVec.ofNat 32 (nzLanes f32 (s.rV a)).length, fNone)) s
def execVnzscanMsk (h : XHdr) (f32 : Bool) (d : SDst) (a : VSrc) (s : State) : Host.Outcome State Fault Refusal :=
  xScalar h d 3 (vPorts a) (fun s => (BitVec.ofNat 32 ((nzLanes f32 (s.rV a)).foldl (fun m l => m + 2 ^ l) 0), fNone)) s
def execVmerge (h : XHdr) (d : VDst) (a b c : VSrc) (s : State) : Host.Outcome State Fault Refusal :=
  xVector h d 2 (vPorts a ++ vPorts b ++ vPorts c) (fun s =>
    let x := s.rV a; let y := s.rV b; let z := s.rV c
    (ofLanes fun l => if lane z l != 0 then lane x l else lane y l, fNone)) s
def execVscan (h : XHdr) (op : ScanOp) (ex : Bool) (d : VDst) (a : VSrc) (s : State) :
    Host.Outcome State Fault Refusal :=
  xVector h d 3 (vPorts a) (fun s => (vscanVal op ex (s.rV a), fNone)) s

end Sys2Proof.Machine
end

