-- ==== Sys2Proof/Machine/Dispatch.lean ====
section
/-! DEFINITION. Machine/Dispatch.lean: the meaning of every instruction and step, one direct call per constructor. -/
namespace Sys2Proof.Machine
open Sys2Proof

def exec (i : Instr) (s : State) : Host.Outcome State Fault Refusal :=
  match i with
  | .xNop h => Sys2Proof.Machine.execXNop h s
  | .xAdd h d a b => Sys2Proof.Machine.execXAdd h d a b s
  | .xSub h d a b => Sys2Proof.Machine.execXSub h d a b s
  | .xAnd h d a b => Sys2Proof.Machine.execXAnd h d a b s
  | .xOr h d a b => Sys2Proof.Machine.execXOr h d a b s
  | .xXor h d a b => Sys2Proof.Machine.execXXor h d a b s
  | .xShl h d a b => Sys2Proof.Machine.execXShl h d a b s
  | .xShr h d a b => Sys2Proof.Machine.execXShr h d a b s
  | .xSra h d a b => Sys2Proof.Machine.execXSra h d a b s
  | .xMin h uns d a b => Sys2Proof.Machine.execXMin h uns d a b s
  | .xMax h uns d a b => Sys2Proof.Machine.execXMax h uns d a b s
  | .xMul h d a b => Sys2Proof.Machine.execXMul h d a b s
  | .xMulh h uns d a b => Sys2Proof.Machine.execXMulh h uns d a b s
  | .xSel h d a b p => Sys2Proof.Machine.execXSel h d a b p s
  | .xClz h d a => Sys2Proof.Machine.execXClz h d a s
  | .xPopc h d a => Sys2Proof.Machine.execXPopc h d a s
  | .xBfx h sx w d a pos => Sys2Proof.Machine.execXBfx h sx w d a pos s
  | .xBfi h w d a b pos => Sys2Proof.Machine.execXBfi h w d a b pos s
  | .xLea h k d a b => Sys2Proof.Machine.execXLea h k d a b s
  | .xAddi h d a i' => Sys2Proof.Machine.execXAddi h d a i' s
  | .xAndi h d a i' => Sys2Proof.Machine.execXAndi h d a i' s
  | .xOri h d a i' => Sys2Proof.Machine.execXOri h d a i' s
  | .xXori h d a i' => Sys2Proof.Machine.execXXori h d a i' s
  | .xShli h d a i' => Sys2Proof.Machine.execXShli h d a i' s
  | .xShri h d a i' => Sys2Proof.Machine.execXShri h d a i' s
  | .xSrai h d a i' => Sys2Proof.Machine.execXSrai h d a i' s
  | .xLi h d i' => Sys2Proof.Machine.execXLi h d i' s
  | .xLih h d a i' => Sys2Proof.Machine.execXLih h d a i' s
  | .xMuli h d a i' => Sys2Proof.Machine.execXMuli h d a i' s
  | .xCmp h c p a b => Sys2Proof.Machine.execXCmp h c p a b s
  | .xCmpi h c p a i' => Sys2Proof.Machine.execXCmpi h c p a i' s
  | .xPand h p a b => Sys2Proof.Machine.execXPand h p a b s
  | .xPor h p a b => Sys2Proof.Machine.execXPor h p a b s
  | .xPxor h p a b => Sys2Proof.Machine.execXPxor h p a b s
  | .xPnot h p a => Sys2Proof.Machine.execXPnot h p a s
  | .xPmov h p a => Sys2Proof.Machine.execXPmov h p a s
  | .xPget h d a => Sys2Proof.Machine.execXPget h d a s
  | .vadd h d a b => Sys2Proof.Machine.execVadd h d a b s
  | .vsub h d a b => Sys2Proof.Machine.execVsub h d a b s
  | .vmul h d a b => Sys2Proof.Machine.execVmul h d a b s
  | .vfma h d a b c => Sys2Proof.Machine.execVfma h d a b c s
  | .vfms h d a b c => Sys2Proof.Machine.execVfms h d a b c s
  | .vmin h d a b => Sys2Proof.Machine.execVmin h d a b s
  | .vmax h d a b => Sys2Proof.Machine.execVmax h d a b s
  | .vabs h d a => Sys2Proof.Machine.execVabs h d a s
  | .vneg h d a => Sys2Proof.Machine.execVneg h d a s
  | .vcmp h c d a b => Sys2Proof.Machine.execVcmp h c d a b s
  | .vrcp h d a => Sys2Proof.Machine.execVrcp h d a s
  | .vrsqrt h d a => Sys2Proof.Machine.execVrsqrt h d a s
  | .vexp2 h d a => Sys2Proof.Machine.execVexp2 h d a s
  | .vlog2 h d a => Sys2Proof.Machine.execVlog2 h d a s
  | .vredsumO h d a => Sys2Proof.Machine.execVredsumO h d a s
  | .vredsumU h d a => Sys2Proof.Machine.execVredsumU h d a s
  | .vredmax h d a => Sys2Proof.Machine.execVredmax h d a s
  | .viadd h d a b => Sys2Proof.Machine.execViadd h d a b s
  | .visub h d a b => Sys2Proof.Machine.execVisub h d a b s
  | .vimul h d a b => Sys2Proof.Machine.execVimul h d a b s
  | .vand h d a b => Sys2Proof.Machine.execVand h d a b s
  | .vor h d a b => Sys2Proof.Machine.execVor h d a b s
  | .vxor h d a b => Sys2Proof.Machine.execVxor h d a b s
  | .vshl h d a b => Sys2Proof.Machine.execVshl h d a b s
  | .vshr h d a b => Sys2Proof.Machine.execVshr h d a b s
  | .vsra h d a b => Sys2Proof.Machine.execVsra h d a b s
  | .vimin h uns d a b => Sys2Proof.Machine.execVimin h uns d a b s
  | .vimax h uns d a b => Sys2Proof.Machine.execVimax h uns d a b s
  | .vicmp h c d a b => Sys2Proof.Machine.execVicmp h c d a b s
  | .vmacw h uns pa pb d a b c => Sys2Proof.Machine.execVmacw h uns pa pb d a b c s
  | .vrsh h t p d a b c => Sys2Proof.Machine.execVrsh h t p d a b c s
  | .vdot4 h ua ub d a b c => Sys2Proof.Machine.execVdot4 h ua ub d a b c s
  | .vcvt h dst src p d a c => Sys2Proof.Machine.execVcvt h dst src p d a c s
  | .vdq h f p d a b c => Sys2Proof.Machine.execVdq h f p d a b c s
  | .vbc h d a => Sys2Proof.Machine.execVbc h d a s
  | .vbcLn h d a b => Sys2Proof.Machine.execVbcLn h d a b s
  | .vperm h d a b c => Sys2Proof.Machine.execVperm h d a b c s
  | .vnzscan h f32 d a b => Sys2Proof.Machine.execVnzscan h f32 d a b s
  | .vnzscanCnt h f32 d a => Sys2Proof.Machine.execVnzscanCnt h f32 d a s
  | .vnzscanMsk h f32 d a => Sys2Proof.Machine.execVnzscanMsk h f32 d a s
  | .vmerge h d a b c => Sys2Proof.Machine.execVmerge h d a b c s
  | .vscan h op ex d a => Sys2Proof.Machine.execVscan h op ex d a s
  | .dadd h keep c a b => Sys2Proof.Machine.execDadd h keep c a b s
  | .dsub h keep c a b => Sys2Proof.Machine.execDsub h keep c a b s
  | .dmulc h keep c a k => Sys2Proof.Machine.execDmulc h keep c a k s
  | .dlt h keep a b => Sys2Proof.Machine.execDlt h keep a b s
  | .dle h keep a b => Sys2Proof.Machine.execDle h keep a b s
  | .deq h keep a b => Sys2Proof.Machine.execDeq h keep a b s
  | .dne h keep a b => Sys2Proof.Machine.execDne h keep a b s
  | .dint h a lo hi => Sys2Proof.Machine.execDint h a lo hi s
  | .dexcl h a v => Sys2Proof.Machine.execDexcl h a v s
  | .dfix h a v => Sys2Proof.Machine.execDfix h a v s
  | .delem h keep a i' t => Sys2Proof.Machine.execDelem h keep a i' t s
  | .dlo h d a => Sys2Proof.Machine.execDlo h d a s
  | .dhi h d a => Sys2Proof.Machine.execDhi h d a s
  | .dsize h d a => Sys2Proof.Machine.execDsize h d a s
  | .dget h d a w => Sys2Proof.Machine.execDget h d a w s
  | .dtestIn h p a v => Sys2Proof.Machine.execDtestIn h p a v s
  | .dtestOne h p a => Sys2Proof.Machine.execDtestOne h p a s
  | .dpick h d a => Sys2Proof.Machine.execDpick h d a s
  | .dset h a lo hi => Sys2Proof.Machine.execDset h a lo hi s
  | .dsetw h a lo w0 w1 => Sys2Proof.Machine.execDsetw h a lo w0 w1 s
  | .dprop h => Sys2Proof.Machine.execDprop h s
  | .dsave h => Sys2Proof.Machine.execDsave h s
  | .drest h => Sys2Proof.Machine.execDrest h s
  | .ddrop h => Sys2Proof.Machine.execDdrop h s
  | .dclr h => Sys2Proof.Machine.execDclr h s
  | .xBr h disp => Sys2Proof.Machine.execXBr h disp s
  | .xJr h a => Sys2Proof.Machine.execXJr h a s
  | .xCall h d disp => Sys2Proof.Machine.execXCall h d disp s
  | .xRet h a => Sys2Proof.Machine.execXRet h a s
  | .brq h disp => Sys2Proof.Machine.execBrq h disp s
  | .brqN h disp => Sys2Proof.Machine.execBrqN h disp s
  | .xLoop h l a disp => Sys2Proof.Machine.execXLoop h l a disp s
  | .join h b m => Sys2Proof.Machine.execJoin h b m s
  | .ccset h b => Sys2Proof.Machine.execCcset h b s
  | .ccclr h b => Sys2Proof.Machine.execCcclr h b s
  | .xPause h n => Sys2Proof.Machine.execXPause h n s
  | .xFin h => Sys2Proof.Machine.execXFin h s
  | .xLd h cls ty d a b => Sys2Proof.Machine.execXLd h cls ty d a b s
  | .xSt h cls ty a b c => Sys2Proof.Machine.execXSt h cls ty a b c s
  | .vld h cls d a b => Sys2Proof.Machine.execVld h cls d a b s
  | .vst h cls a b c => Sys2Proof.Machine.execVst h cls a b c s
  | .vldx h cls d a b => Sys2Proof.Machine.execVldx h cls d a b s
  | .vstx h cls a b c => Sys2Proof.Machine.execVstx h cls a b c s
  | .ldacq h cls d a b => Sys2Proof.Machine.execLdacq h cls d a b s
  | .accrd h d acc row cnt => Sys2Proof.Machine.execAccrd h d acc row cnt s
  | .xFence h k sc => Sys2Proof.Machine.execXFence h k sc s
  | .xTrap h n => Sys2Proof.Machine.execXTrap h n s
  | .eret h => Sys2Proof.Machine.execEret h s
  | .xSysr h d cr => Sys2Proof.Machine.execXSysr h d cr s
  | .xSysw h a cr => Sys2Proof.Machine.execXSysw h a cr s
  | .halt h => Sys2Proof.Machine.execHalt h s
  | .dbgstop h n => Sys2Proof.Machine.execDbgstop h n s
  | .yield h => Sys2Proof.Machine.execYield h s
  | .aAdd h d a b => Sys2Proof.Machine.execAAdd h d a b s
  | .aSub h d a b => Sys2Proof.Machine.execASub h d a b s
  | .aAnd h d a b => Sys2Proof.Machine.execAAnd h d a b s
  | .aOr h d a b => Sys2Proof.Machine.execAOr h d a b s
  | .aXor h d a b => Sys2Proof.Machine.execAXor h d a b s
  | .aShl h d a b => Sys2Proof.Machine.execAShl h d a b s
  | .aShr h d a b => Sys2Proof.Machine.execAShr h d a b s
  | .aSra h d a b => Sys2Proof.Machine.execASra h d a b s
  | .aMul h d a b => Sys2Proof.Machine.execAMul h d a b s
  | .aMin h uns d a b => Sys2Proof.Machine.execAMin h uns d a b s
  | .aMax h uns d a b => Sys2Proof.Machine.execAMax h uns d a b s
  | .aBfx h sx w d a p => Sys2Proof.Machine.execABfx h sx w d a p s
  | .aAddi h d a i' => Sys2Proof.Machine.execAAddi h d a i' s
  | .aAndi h d a i' => Sys2Proof.Machine.execAAndi h d a i' s
  | .aLi h d i' => Sys2Proof.Machine.execALi h d i' s
  | .aLih h d a i' k => Sys2Proof.Machine.execALih h d a i' k s
  | .aLd h cls sp ty d a i' off => Sys2Proof.Machine.execALd h cls sp ty d a i' off s
  | .aSt h cls sp ty d a i' off => Sys2Proof.Machine.execASt h cls sp ty d a i' off s
  | .lda h cls sc ty d a i' off => Sys2Proof.Machine.execLda h cls sc ty d a i' off s
  | .stl h cls sc ty d a i' off => Sys2Proof.Machine.execStl h cls sc ty d a i' off s
  | .ldq h cls sp q a i' off => Sys2Proof.Machine.execLdq h cls sp q a i' off s
  | .ldd h cls sp q hs c => Sys2Proof.Machine.execLdd h cls sp q hs c s
  | .stz h cls sp q hs c => Sys2Proof.Machine.execStz h cls sp q hs c s
  | .aswap h cls w64 sem d a v => Sys2Proof.Machine.execAswap h cls w64 sem d a v s
  | .acas h cls w64 sem d a v => Sys2Proof.Machine.execAcas h cls w64 sem d a v s
  | .aadd h cls w64 sem d a v => Sys2Proof.Machine.execAadd h cls w64 sem d a v s
  | .aand h cls w64 sem d a v => Sys2Proof.Machine.execAand h cls w64 sem d a v s
  | .aor h cls w64 sem d a v => Sys2Proof.Machine.execAor h cls w64 sem d a v s
  | .axor h cls w64 sem d a v => Sys2Proof.Machine.execAxor h cls w64 sem d a v s
  | .amin h cls w64 sem d a v => Sys2Proof.Machine.execAmin h cls w64 sem d a v s
  | .amax h cls w64 sem d a v => Sys2Proof.Machine.execAmax h cls w64 sem d a v s
  | .aminu h cls w64 sem d a v => Sys2Proof.Machine.execAminu h cls w64 sem d a v s
  | .amaxu h cls w64 sem d a v => Sys2Proof.Machine.execAmaxu h cls w64 sem d a v s
  | .redadd h cls w64 rel a v => Sys2Proof.Machine.execRedadd h cls w64 rel a v s
  | .redmin h cls w64 uns rel a v => Sys2Proof.Machine.execRedmin h cls w64 uns rel a v s
  | .redmax h cls w64 uns rel a v => Sys2Proof.Machine.execRedmax h cls w64 uns rel a v s
  | .redand h cls w64 rel a v => Sys2Proof.Machine.execRedand h cls w64 rel a v s
  | .redor h cls w64 rel a v => Sys2Proof.Machine.execRedor h cls w64 rel a v s
  | .redxor h cls w64 rel a v => Sys2Proof.Machine.execRedxor h cls w64 rel a v s
  | .redfaddO h cls rel a v => Sys2Proof.Machine.execRedfaddO h cls rel a v s
  | .redfaddU h cls rel a v => Sys2Proof.Machine.execRedfaddU h cls rel a v s
  | .redfmin h cls rel a v => Sys2Proof.Machine.execRedfmin h cls rel a v s
  | .redfmax h cls rel a v => Sys2Proof.Machine.execRedfmax h cls rel a v s
  | .rgcfg h r c => Sys2Proof.Machine.execRgcfg h r c s
  | .rgwfree h d r n => Sys2Proof.Machine.execRgwfree h d r n s
  | .rgwfill h d r n => Sys2Proof.Machine.execRgwfill h d r n s
  | .rgput h r n => Sys2Proof.Machine.execRgput h r n s
  | .rgtake h r n => Sys2Proof.Machine.execRgtake h r n s
  | .rgrel h r n => Sys2Proof.Machine.execRgrel h r n s
  | .rgrot h s' t => Sys2Proof.Machine.execRgrot h s' t s
  | .give h t n => Sys2Proof.Machine.execGive h t n s
  | .take h t n => Sys2Proof.Machine.execTake h t n s
  | .beq h mode a b disp => Sys2Proof.Machine.execBeq h mode a b disp s
  | .bne h mode a b disp => Sys2Proof.Machine.execBne h mode a b disp s
  | .blt h mode a b disp => Sys2Proof.Machine.execBlt h mode a b disp s
  | .bge h mode a b disp => Sys2Proof.Machine.execBge h mode a b disp s
  | .bltu h mode a b disp => Sys2Proof.Machine.execBltu h mode a b disp s
  | .bgeu h mode a b disp => Sys2Proof.Machine.execBgeu h mode a b disp s
  | .jmp h disp => Sys2Proof.Machine.execJmp h disp s
  | .aJr h a => Sys2Proof.Machine.execAJr h a s
  | .aCall h d disp => Sys2Proof.Machine.execACall h d disp s
  | .aRet h a => Sys2Proof.Machine.execARet h a s
  | .aLoop h l a disp => Sys2Proof.Machine.execALoop h l a disp s
  | .aPause h n => Sys2Proof.Machine.execAPause h n s
  | .fenceAcq h sc => Sys2Proof.Machine.execFenceAcq h sc s
  | .fenceRel h sc => Sys2Proof.Machine.execFenceRel h sc s
  | .fenceSc h sc => Sys2Proof.Machine.execFenceSc h sc s
  | .colarrRlx h b => Sys2Proof.Machine.execColarrRlx h b s
  | .colarrRel h b => Sys2Proof.Machine.execColarrRel h b s
  | .colwait h b => Sys2Proof.Machine.execColwait h b s
  | .colsync h b => Sys2Proof.Machine.execColsync h b s
  | .barc h d a e => Sys2Proof.Machine.execBarc h d a e s
  | .aSysr h d cr => Sys2Proof.Machine.execASysr h d cr s
  | .aSysw h a cr => Sys2Proof.Machine.execASysw h a cr s
  | .aTrap h n => Sys2Proof.Machine.execATrap h n s
  | .tlbinv h v l => Sys2Proof.Machine.execTlbinv h v l s
  | .ctxsw h b => Sys2Proof.Machine.execCtxsw h b s
  | .ctxbank h s' v => Sys2Proof.Machine.execCtxbank h s' v s
  | .lnch h d r q => Sys2Proof.Machine.execLnch h d r q s
  | .lcancel h d i' => Sys2Proof.Machine.execLcancel h d i' s
  | .lcancelUnit h d i' u => Sys2Proof.Machine.execLcancelUnit h d i' u s
  | .lwait h d i' => Sys2Proof.Machine.execLwait h d i' s
  | .evset h b c => Sys2Proof.Machine.execEvset h b c s
  | .evclr h b c => Sys2Proof.Machine.execEvclr h b c s
  | .evtest h d b c => Sys2Proof.Machine.execEvtest h d b c s
  | .hld h cls r a off => Sys2Proof.Machine.execHld h cls r a off s
  | .hst h cls r a off => Sys2Proof.Machine.execHst h cls r a off s
  | .hview h d s' k => Sys2Proof.Machine.execHview h d s' k s
  | .htrans h d s' => Sys2Proof.Machine.execHtrans h d s' s
  | .hshape h d s' k => Sys2Proof.Machine.execHshape h d s' k s
  | .cpy h ss ds rp d s' => Sys2Proof.Machine.execCpy h ss ds rp d s' s
  | .cpg h ss ds rp d s' l => Sys2Proof.Machine.execCpg h ss ds rp d s' l s
  | .cps h ss ds rp d s' l => Sys2Proof.Machine.execCps h ss ds rp d s' l s
  | .cpq h ss ds rp d s' => Sys2Proof.Machine.execCpq h ss ds rp d s' s
  | .cpm h o a b => Sys2Proof.Machine.execCpm h o a b s
  | .mnop h => Sys2Proof.Machine.execMnop h s
  | .mlease h => Sys2Proof.Machine.execMlease h s
  | .mfree h => Sys2Proof.Machine.execMfree h s
  | .mfin h => Sys2Proof.Machine.execMfin h s
  | .mmul h t c ra rb acc ks fa fb bm nm ka kb wl i32 => Sys2Proof.Machine.execMmul h t c ra rb acc ks fa fb bm nm ka kb wl i32 s
  | .mwload h rb fb kb => Sys2Proof.Machine.execMwload h rb fb kb s
  | .mwloadnm h rb fb kb => Sys2Proof.Machine.execMwloadnm h rb fb kb s
  | .mdrain h t c q ro acc f ko => Sys2Proof.Machine.execMdrain h t c q ro acc f ko s
  | .mzero h acc i32 => Sys2Proof.Machine.execMzero h acc i32 s
  | .msnap h ro acc kd => Sys2Proof.Machine.execMsnap h ro acc kd s
  | .mpred h ra rb fa fb kd kt => Sys2Proof.Machine.execMpred h ra rb fa fb kd kt s
  | .mscan h ro km kb => Sys2Proof.Machine.execMscan h ro km kb s
  | .mkli h kd i' => Sys2Proof.Machine.execMkli h kd i' s
  | .mkadd h kd ks i' => Sys2Proof.Machine.execMkadd h kd ks i' s
  | .mloop h l n disp => Sys2Proof.Machine.execMloop h l n disp s
  | .mbnz h kn disp => Sys2Proof.Machine.execMbnz h kn disp s
  | .aFin => Sys2Proof.Machine.execAFin s
  | .seal => Sys2Proof.Machine.execSeal s
  | .xResultLanding => Sys2Proof.Machine.execXResultLanding s
  | .tokenPoppable => Sys2Proof.Machine.execTokenPoppable s
  | .queueEntryPoppable => Sys2Proof.Machine.execQueueEntryPoppable s
  | .aWordRetire => Sys2Proof.Machine.execAWordRetire s
  | .stampOverrun => Sys2Proof.Machine.execStampOverrun s
  | .waitBound => Sys2Proof.Machine.execWaitBound s
  | .handlerStart => Sys2Proof.Machine.execHandlerStart s
  | .boundaryCauseDelivery => Sys2Proof.Machine.execBoundaryCauseDelivery s
  | .copyFault => Sys2Proof.Machine.execCopyFault s
  | .oredFull => Sys2Proof.Machine.execOredFull s
  | .propagationRun => Sys2Proof.Machine.execPropagationRun s
  | .globalAccessAtOwner => Sys2Proof.Machine.execGlobalAccessAtOwner s
  | .pageTableWalk => Sys2Proof.Machine.execPageTableWalk s
  | .pageFaultFreeze => Sys2Proof.Machine.execPageFaultFreeze s
  | .faultBatchTimer => Sys2Proof.Machine.execFaultBatchTimer s
  | .faultBatchCount => Sys2Proof.Machine.execFaultBatchCount s
  | .faultAnswer => Sys2Proof.Machine.execFaultAnswer s
  | .priGroupResponse => Sys2Proof.Machine.execPriGroupResponse s
  | .priResponseFailure => Sys2Proof.Machine.execPriResponseFailure s
  | .replayListResend => Sys2Proof.Machine.execReplayListResend s
  | .invalidationComplete => Sys2Proof.Machine.execInvalidationComplete s
  | .atsInvalidation => Sys2Proof.Machine.execAtsInvalidation s
  | .inboundHostWrite => Sys2Proof.Machine.execInboundHostWrite s
  | .inboundHostRead => Sys2Proof.Machine.execInboundHostRead s
  | .rgrotExchange => Sys2Proof.Machine.execRgrotExchange s
  | .rgrotExchangeEnd => Sys2Proof.Machine.execRgrotExchangeEnd s
  | .copyChannelStart => Sys2Proof.Machine.execCopyChannelStart s
  | .copyRowCommit => Sys2Proof.Machine.execCopyRowCommit s
  | .copyCommandComplete => Sys2Proof.Machine.execCopyCommandComplete s
  | .leaseGrant => Sys2Proof.Machine.execLeaseGrant s
  | .leaseEndCycles => Sys2Proof.Machine.execLeaseEndCycles s
  | .leaseEndCommands => Sys2Proof.Machine.execLeaseEndCommands s
  | .arrayCommandStart => Sys2Proof.Machine.execArrayCommandStart s
  | .arraySlotFetch => Sys2Proof.Machine.execArraySlotFetch s
  | .kStepStart => Sys2Proof.Machine.execKStepStart s
  | .kStepLanding => Sys2Proof.Machine.execKStepLanding s
  | .arrayCommandRetire => Sys2Proof.Machine.execArrayCommandRetire s
  | .drainStart => Sys2Proof.Machine.execDrainStart s
  | .drainWrite => Sys2Proof.Machine.execDrainWrite s
  | .mzeroEffect => Sys2Proof.Machine.execMzeroEffect s
  | .msnapWrite => Sys2Proof.Machine.execMsnapWrite s
  | .mpredResult => Sys2Proof.Machine.execMpredResult s
  | .mscanWrite => Sys2Proof.Machine.execMscanWrite s
  | .arrayReplay => Sys2Proof.Machine.execArrayReplay s
  | .queueDoorbell => Sys2Proof.Machine.execQueueDoorbell s
  | .queueHeadCheck => Sys2Proof.Machine.execQueueHeadCheck s
  | .entryDispatch => Sys2Proof.Machine.execEntryDispatch s
  | .unitDispatch => Sys2Proof.Machine.execUnitDispatch s
  | .unitStart => Sys2Proof.Machine.execUnitStart s
  | .unitCompletion => Sys2Proof.Machine.execUnitCompletion s
  | .hostNodeDoorbell => Sys2Proof.Machine.execHostNodeDoorbell s
  | .completionRecord => Sys2Proof.Machine.execCompletionRecord s
  | .cancelStop => Sys2Proof.Machine.execCancelStop s
  | .preemption => Sys2Proof.Machine.execPreemption s
  | .phaseClose => Sys2Proof.Machine.execPhaseClose s
  | .sealInputRise => Sys2Proof.Machine.execSealInputRise s
  | .sealLineFire => Sys2Proof.Machine.execSealLineFire s
  | .sealLineArrival => Sys2Proof.Machine.execSealLineArrival s
  | .phaseOpen => Sys2Proof.Machine.execPhaseOpen s
  | .jobCompletion => Sys2Proof.Machine.execJobCompletion s
  | .closePhase => Sys2Proof.Machine.execClosePhase s
  | .endJob => Sys2Proof.Machine.execEndJob s
  | .hostStop => Sys2Proof.Machine.execHostStop s
  | .hostResume => Sys2Proof.Machine.execHostResume s
  | .queueReset => Sys2Proof.Machine.execQueueReset s
  | .resetTruncatedTrace => Sys2Proof.Machine.execResetTruncatedTrace s
  | .partitionSwap => Sys2Proof.Machine.execPartitionSwap s
  | .bankSwitchTslice => Sys2Proof.Machine.execBankSwitchTslice s
  | .colInputRise => Sys2Proof.Machine.execColInputRise s
  | .colReleaseFire => Sys2Proof.Machine.execColReleaseFire s
  | .colReleaseArrival => Sys2Proof.Machine.execColReleaseArrival s
  | .evsetEffect => Sys2Proof.Machine.execEvsetEffect s
  | .evclrEffect => Sys2Proof.Machine.execEvclrEffect s
  | .intervalRollback => Sys2Proof.Machine.execIntervalRollback s
  | .phaseRestart => Sys2Proof.Machine.execPhaseRestart s
  | .undoTimeout => Sys2Proof.Machine.execUndoTimeout s
  | .holdTimeout => Sys2Proof.Machine.execHoldTimeout s
  | .lineTagSweep => Sys2Proof.Machine.execLineTagSweep s
  | .testPassComplete => Sys2Proof.Machine.execTestPassComplete s
  | .dvreqWrite => Sys2Proof.Machine.execDvreqWrite s
  | .voltageRampEnd => Sys2Proof.Machine.execVoltageRampEnd s
  | .pllRelockEnd => Sys2Proof.Machine.execPllRelockEnd s
  | .dvfsSample => Sys2Proof.Machine.execDvfsSample s
  | .coolantShortfall => Sys2Proof.Machine.execCoolantShortfall s
  | .mailboxPart => Sys2Proof.Machine.execMailboxPart s
  | .mailboxBind => Sys2Proof.Machine.execMailboxBind s
  | .mailboxOvfext => Sys2Proof.Machine.execMailboxOvfext s
  | .mailboxDvreq => Sys2Proof.Machine.execMailboxDvreq s
  | .mailboxVmin => Sys2Proof.Machine.execMailboxVmin s
  | .mailboxPwrlim => Sys2Proof.Machine.execMailboxPwrlim s
  | .mailboxStage => Sys2Proof.Machine.execMailboxStage s
  | .mailboxAttest => Sys2Proof.Machine.execMailboxAttest s
  | .mailboxColspan => Sys2Proof.Machine.execMailboxColspan s
  | .mailboxRetry => Sys2Proof.Machine.execMailboxRetry s
  | .mailboxTlbinv => Sys2Proof.Machine.execMailboxTlbinv s
  | .deviceResetStart => Sys2Proof.Machine.execDeviceResetStart s
  | .bootctlGo => Sys2Proof.Machine.execBootctlGo s
  | .goTimeout => Sys2Proof.Machine.execGoTimeout s
  | .firmwareEventAck => Sys2Proof.Machine.execFirmwareEventAck s
  | .spanReadRequest => Sys2Proof.Machine.execSpanReadRequest s
  | .spanWrite => Sys2Proof.Machine.execSpanWrite s
  | .spanReadCompletion => Sys2Proof.Machine.execSpanReadCompletion s
  | .spanAtomic => Sys2Proof.Machine.execSpanAtomic s
  | .spanCol => Sys2Proof.Machine.execSpanCol s
  | .spanSeal => Sys2Proof.Machine.execSpanSeal s
  | .spanCredit => Sys2Proof.Machine.execSpanCredit s
  | .spanFaultReply => Sys2Proof.Machine.execSpanFaultReply s
  | .spanPortFail => Sys2Proof.Machine.execSpanPortFail s
  | .breakpoint => Sys2Proof.Machine.execBreakpoint s
  | .headSample => Sys2Proof.Machine.execHeadSample s
  | .recordedInputInject => Sys2Proof.Machine.execRecordedInputInject s
  | .lcWrite => Sys2Proof.Machine.execLcWrite s
  | .sfcloRead => Sys2Proof.Machine.execSfcloRead s
  | .colerrWrite => Sys2Proof.Machine.execColerrWrite s
  | .accliveWrite => Sys2Proof.Machine.execAccliveWrite s
  | .fltctlWrite => Sys2Proof.Machine.execFltctlWrite s
  | .dbgctlPclr => Sys2Proof.Machine.execDbgctlPclr s
  | .trcctlWrite => Sys2Proof.Machine.execTrcctlWrite s
  | .replayctlWrite => Sys2Proof.Machine.execReplayctlWrite s
  | .registerWrite => Sys2Proof.Machine.execRegisterWrite s
  | .imageLoad => Sys2Proof.Machine.execImageLoad s
  | .queueTableRegistration => Sys2Proof.Machine.execQueueTableRegistration s
  | .frqheadWrite => Sys2Proof.Machine.execFrqheadWrite s
  | .shadowWritebackEnd => Sys2Proof.Machine.execShadowWritebackEnd s

end Sys2Proof.Machine
end

