-- ==== Sys2Proof/Machine/Turns.lean ====
section
/-! DEFINITION. Machine/Turns.lean: one act of the device: the next due step of the agenda, or the next word of a stream,
or a whole X issue cycle (spec/06 R99-R101, R105, R110, R111; log 4). -/
namespace Sys2Proof.Machine
open Sys2Proof

/-- Run a meaning and go on with the state it leaves. -/
def andThen (o : Host.Outcome State Fault Refusal) (k : State → Host.Outcome State Fault Refusal) :
    Host.Outcome State Fault Refusal :=
  match o with
  | .next s => k s
  | .fault f => .fault f
  | .refused r => .refused r

/-! ## Whose turn it is -/

/-- The context of a core that may present words: the system context while a trap is handled, else the active bank. -/
def Core.presenting (c : Core) : Option (Fin 3) :=
  if c.stopped then none
  else
    let k : Fin 3 := if c.handling.isSome then 2 else c.active.castLE (by decide)
    if (c.bank k).st == .running then some k else none

/-- Give the turn to stream `st` of a core's presenting context. -/
def State.setTurn (s : State) (g : Fin 512) (k : Fin 3) (st : Stream) : State :=
  { s with turn := { core := g, ctx := k, stream := st, col := 0, word := 0, how := .issued, pops := [] } }

/-- The first core from `n` on that presents words; the clusters of a die stopped by its temperature do not (spec/16 R276). -/
def State.nextCore (s : State) (n : Nat) : Option (Fin 512 × Fin 3) :=
  (List.finRange 512).findSome? fun g =>
    if decide (n ≤ g.val) && !(s.die (dieOf g)).dvfsStopped then match (s.core g).presenting with | some k => some (g, k) | none => none else none

/-- The turn moves from core `n - 1` to the next core, or to the first core of the next core cycle. -/
def State.nextTurn (s : State) (n : Nat) : State :=
  match s.nextCore n with
  | some (g, k) => s.setTurn g k .a
  | none =>
    let s := { s with cycle := s.cycle + 1 }
    match s.nextCore 0 with
    | some (g, k) => s.setTurn g k .a
    | none => s.setTurn 0 0 .a

/-- After stream A comes M, then X, then the next core. -/
def State.passTurn (s : State) (g : Fin 512) (k : Fin 3) (st : Stream) : State :=
  match st with
  | .a => s.setTurn g k .m
  | .m => s.setTurn g k .x
  | .x => s.nextTurn (g.val + 1)

/-! ## Head classes (spec/22 R328, R329) -/

/-- The counters that a cycle spent on a wait object adds to. -/
def waitCounters (obj : Nat) (detail : DWord) : List Nat :=
  match obj with
  | 1 => [16 + detail.toNat % 16]
  | 2 => [16 + detail.toNat % 16]
  | 3 => [4]
  | 4 => [5]
  | 7 => [1]
  | 9 => [1]
  | 10 => if field detail 32 32 == 3 then [] else [1]
  | 257 => [1, 3]
  | 258 => [1]
  | 259 => [1]
  | 260 => [1]
  | _ => []

/-- Count one core cycle of a stream head; EMPTY is not stored. -/
def State.count (s : State) (g : Fin 512) (st : Stream) (ks : List Nat) : State :=
  if s.turn.ctx.val = 2 then s
  else
    let code : Nat := match ks with
      | k :: _ => if k = 0 then 0 else if 16 ≤ k then 1 + 16 * (k - 16) else if k = 1 then 2 else 3
      | [] => 3
    let s := s.modCore g fun c =>
      let c := ks.foldl (fun (c : Core) (k : Nat) => c.perfBump (32 * streamCode st + k)) c
      match st with
      | .a => { c with heads := c.heads.set 0 (s.cycle, code) }
      | .x => { c with heads := c.heads.set 1 (s.cycle, code) }
      | .m => { c with heads := c.heads.set 2 (s.cycle, code) }
    let s := if code = 0 then s.modBank g s.turn.ctx fun b => { b with lastWord := s.sfc b } else s
    s.modDvfs (dieOf g) (s.physOf g) fun v =>
      { v with headIssue := v.headIssue + b01 (code == 0), headStall := v.headStall + b01 (code == 2) }

/-- After a word of A or M: count its cycle, and raise WAIT_BOUND when its wait has lasted. -/
def State.afterWord (s : State) (st : Stream) : Host.Outcome State Fault Refusal :=
  let g := s.turn.core
  match s.turn.how, s.turnWait with
  | .issued, _ => .next (s.count g st [0])
  | .stalled, some w =>
    let s := if st == .a && w.obj == wConflict && w.detail == 1 then s.modTb fun b => { b with aBusy := b.aBusy + 1 } else s
    let s := s.count g st (waitCounters w.obj w.detail)
    if s.boundReached then exec .waitBound { s with ev := EvArgs.zero } else .next s
  | _, _ => .next s

/-! ## A and M words -/

/-- Run a fetched word of stream A or M, after the breakpoint check. A word that is illegally encoded and stands at an armed
breakpoint stops at the breakpoint: the spec gives the two causes no order (R24, R327; DESIGN CHOICE, log 110). -/
def runFetched (st : Stream) (f : Fetched) (s : State) : Host.Outcome State Fault Refusal :=
  match f with
  | .untranslated => .fault .fetchUntranslated
  | .beyond => .next s.illegal
  | .cut w => .next { s with turn := { s.turn with word := w } }.illegal
  | .word w =>
    let s := { s with turn := { s.turn with word := w } }
    match s.breakAt with
    | some i => exec .breakpoint { s with ev := { EvArgs.zero with n := i } }
    | none =>
      match decodeWord st w with
      | some i => exec i s
      | none => .next s.illegal

/-- What the A stream does in its cycle: a resumed bank sends its replay list again before the next word issues (spec/09 R174). -/
def turnA (s : State) : Host.Outcome State Fault Refusal :=
  let g := s.turn.core
  let k := s.turn.ctx
  let b := s.tb
  if b.aEnded then .next s
  else if b.aPause != 0 then .next (s.modTb fun b => { b with aPause := b.aPause - 1 })
  else match b.aHold with
    | .handle _ => .next (s.count g .a [1])
    | .invalidate => .next s
    | .until_ t => if decide (t ≤ s.cycle) then .next (s.modTb fun b => { b with aHold := .free }) else .next s
    | _ =>
      if !b.replay.isEmpty then .next s
      else if !b.pending.isEmpty then
        let w := match s.fetchA b with | .word w => w | _ => 0
        exec .boundaryCauseDelivery { s with ev := EvArgs.at g k, turn := { s.turn with word := w } }
      else andThen (runFetched .a (s.fetchA b) s) fun t => t.afterWord .a

/-- What the M stream does in its cycle. -/
def turnM (s : State) : Host.Outcome State Fault Refusal :=
  let b := s.tb
  if b.mEnded then .next s
  else if b.mPause != 0 then .next (s.modTb fun b => { b with mPause := b.mPause - 1 })
  else andThen (runFetched .m (s.fetchM b) s) fun t => t.afterWord .m

/-! ## The X issue cycle -/

/-- A presented syllable: its column, its bits and what executing it alone gives. -/
structure Presented where
  col : Fin 4
  word : BitVec 128
  res : State
  deriving Repr

def State.atCol (s : State) (c : Fin 4) (w : BitVec 128) : State :=
  { s with turn := { s.turn with col := c, word := w, how := .issued, pops := [] } }

/-- Execute the syllable of a column on a state; a breakpoint comes before the check of its encoding (log 110). -/
def execCol (c : Fin 4) (w : BitVec 128) (s : State) : Host.Outcome State Fault Refusal :=
  let s := s.atCol c w
  match s.breakAt with
  | some i => exec .breakpoint { s with ev := { EvArgs.zero with n := i } }
  | none => match decodeWord .x w with | some i => exec i s | none => .next s.illegal

/-- The columns that are not ended, with what they fetch. -/
def State.fetchCols (s : State) : List (Fin 4 × Fetched) :=
  (List.finRange 4).filterMap fun c => if (s.tb.col c).ended then none else some (c, s.fetchX s.tb c)

/-- Present every column that is not paused, on the state before the cycle. A column whose domain syllable still owes its loop
evaluation has fetched nothing past it (spec/08 R143). -/
def presentCols (s : State) : List (Fin 4 × Fetched) → Except Fault (List Presented)
  | [] => .ok []
  | (c, f) :: l =>
    match presentCols s l with
    | .error e => .error e
    | .ok r =>
      if (s.tb.col c).hold != 0 || (s.tb.col c).evalDue then .ok r
      else match f with
        | .untranslated => .error .fetchUntranslated
        | .cut _ | .beyond => .ok ({ col := c, word := 0, res := (s.atCol c 0).illegal } :: r)
        | .word w =>
          match execCol c w s with
          | .next t => .ok ({ col := c, word := w, res := t } :: r)
          | .fault e => .error e
          | .refused _ => .ok r

/-- The S bit of a fetched syllable. -/
def joinedBit (f : Fetched) : Bool := match f with | .word w => bit w 63 | _ => false

/-- A joined column waits in a `join` or is paused, so every joined column holds (R105). -/
def holdsJoined (s : State) (fs : List (Fin 4 × Fetched)) (ps : List Presented) : Bool :=
  fs.any fun x => joinedBit x.2 && ((s.tb.col x.1).hold != 0 || ps.any fun p => p.col == x.1 && p.res.turn.how == .holding)

/-- The lowest column whose syllable pops a port that another one pops (R108). -/
def conflictOf (ps : List Presented) : Option (Presented × Nat) :=
  ps.findSome? fun p =>
    match p.res.turn.pops.find? fun q => ps.any fun o => o.col != p.col && o.res.turn.pops.contains q with
    | some q => some (p, q)
    | none => none

/-- The operand specifier of a popped port (log 19). -/
def portSpec (q : Nat) : Nat := if q < 4 then 0x38 + q else if q < 8 then 0x1C + (q - 4) else 0x3C

/-- Keep the waits that presented columns began, and nothing else of what they did. -/
def State.keepWaits (s : State) (ps : List Presented) : State :=
  ps.foldl (fun (s : State) (p : Presented) =>
    if p.res.turn.how == .stalled || p.res.turn.how == .holding then
      s.modTb fun b => b.modCol p.col fun c => { c with wait := (p.res.tb.col p.col).wait }
    else s) s

/-- WAIT_BOUND for the lowest of these columns whose wait has reached its bound. -/
def boundCols (s : State) (cs : List (Fin 4 × BitVec 128)) : Host.Outcome State Fault Refusal :=
  match cs.find? fun x => (s.atCol x.1 x.2).boundReached with
  | some x => exec .waitBound { s.atCol x.1 x.2 with ev := EvArgs.zero }
  | none => .next s

/-- The X fence is judged on the state before the cycle, so its syllables issue first. -/
def isFence (w : BitVec 128) : Bool := field w 55 8 == 0xE8

/-- Issue the presented syllables one after the other; none when one finds too few tokens or too little room for all. -/
def issueCols : List Presented → State → Except Presented State
  | [], s => .ok s
  | p :: l, s =>
    match execCol p.col p.word s with
    | .next t => if t.turn.how == .issued then issueCols l t else .error { p with res := t }
    | _ => .ok s

/-- The first woken execution of a run ends after two core cycles in which X is frozen (spec/08 R143, R155). -/
def State.seekRun (s : State) (g : Fin 512) (k : Fin 3) : State :=
  let b := s.bank g k
  if b.st == .running && b.runFreezes && !(s.agenda.any fun d => d.what == .propagationRun && d.args.g == g && d.args.k == k)
  then s.schedule 2 .propagationRun (EvArgs.at g k) else s

/-- The wait of a presented syllable is for a bank of the scratchpad that serves another lane of its access. -/
def Presented.conflicts (p : Presented) : Bool :=
  match (p.res.tb.col p.col).wait with | some w => w.obj == wConflict && w.detail == 1 | none => false

/-- What a frozen cycle counts: the cause of the lowest column of those that present and cannot issue (spec/22 R328): its own wait, else
a propagation run, or a queue that is full for a result. -/
def freezeClass (b : Bank) (ps : List Presented) : List Nat :=
  let all := b.landingFull.isSome || b.runFreezes
  match ps.filter fun p => p.res.turn.how == .stalled || (all && p.res.turn.how != .holding) with
  | [] => []
  | p :: _ =>
    match p.res.turn.how, (p.res.tb.col p.col).wait with
    | .stalled, some w => waitCounters w.obj w.detail
    | _, _ => if b.runFreezes then [1] else [5]

/-- A frozen X cycle: waits are kept, the cycle is counted, bounds are checked; the ports of the accesses that wait for their
banks have had one more cycle. -/
def freezeCols (s : State) (ps : List Presented) : Host.Outcome State Fault Refusal :=
  let stalled := ps.filter fun p => p.res.turn.how == .stalled
  let s := s.count s.turn.core .x (freezeClass s.tb ps)
  let s := (s.keepWaits ps).modTb fun b => { b with xBusy := b.xBusy + b01 (stalled.any Presented.conflicts) }
  boundCols s ((ps.filter fun p => p.res.turn.how == .stalled || p.res.turn.how == .holding).map fun p => (p.col, p.word))

/-- The cycle issues: paused columns count down, the syllables issue, what is due lands. -/
def issueCycle (s : State) (holding going : List Presented) : Host.Outcome State Fault Refusal :=
  let g := s.turn.core
  let k := s.turn.ctx
  let base := (s.keepWaits holding).modTb fun b =>
    { b with cols := b.cols.map fun c => if c.ended || c.hold = 0 then c else c.tick b.dom.run.isSome }
  let order := (going.filter fun p => isFence p.word) ++ going.filter fun p => !isFence p.word
  match issueCols order base with
  | .error p => freezeCols s [p]
  | .ok t =>
    let t := if going.isEmpty then t else t.count g .x [0]
    if (t.bank g k).st == .running then
      andThen (exec .xResultLanding { t with ev := EvArgs.at g k }) fun t =>
        boundCols t (holding.map fun p => (p.col, p.word))
    else .next t

/-- The cause of an X issue cycle that is delivered: that of the lowest column (spec/02 R24, spec/18 R284). -/
def lowestCause (l : List Presented) : Option Presented :=
  l.foldl (fun (r : Option Presented) (p : Presented) =>
    match r with | none => some p | some q => if p.col < q.col then some p else r) none

/-- What the X stream does in its core cycle. An encoding that fails its check, or a shared port, is a cause at once; a cause
that arises at issue only when nothing freezes the cycle. -/
def turnX (s : State) : Host.Outcome State Fault Refusal :=
  let b := s.tb
  if b.xEnded then .next s
  else if b.dom.trapDue.isSome then .next (s.domTrap s.turn.core s.turn.ctx)
  else
    let fs := s.fetchCols
    match presentCols s fs with
    | .error e => .fault e
    | .ok ps =>
      let hj := holdsJoined s fs ps
      let held (p : Presented) : Bool := p.res.turn.how == .holding || (hj && bit p.word 63)
      let holding := ps.filter held
      let going := ps.filter fun p => !held p
      let frozen := going.any (fun p => p.res.turn.how == .stalled) || b.landingFull.isSome || b.runFreezes
      let shared := match conflictOf going with
        | some (p, q) => [{ p with res := (s.atCol p.col p.word).trap 2 (BitVec.ofNat 64 (portSpec q)) 0 }]
        | none => []
      match lowestCause ((ps.filter fun p => p.res.turn.how == .illegal) ++ shared ++
          if frozen then [] else going.filter fun p => p.res.turn.how == .trapped) with
      | some p => .next p.res
      | none =>
        if frozen then
          andThen (freezeCols s ps) fun t =>
            .next (t.seekRun s.turn.core s.turn.ctx)
        else issueCycle s (holding.filter fun p => p.res.turn.how == .holding) going

/-! ## One act -/

/-- TSLICE has run out for the active bank and the other bank can run (spec/18 R296). -/
def State.sliceDue (s : State) (g : Fin 512) : Bool :=
  let c := s.core g
  let k : Fin 3 := c.active.castLE (by decide)
  let o : Fin 3 := (1 - c.active).castLE (by decide)
  c.tslice != 0 && c.handling.isNone && (c.bank k).st == .running && !(c.bank k).detm &&
    decide ((c.bank k).sliceStart + c.tslice.toNat ≤ s.cycle + 1) && (c.bank o).runnable

/-- After the X turn of a core: the time slice. -/
def State.endCore (s : State) (g : Fin 512) : State :=
  if s.sliceDue g then
    s.schedule 0 .bankSwitchTslice { EvArgs.at g ((s.core g).active.castLE (by decide)) with n := 1 }
  else s

/-- The actor of the turn at a stream. -/
def State.onStream (s : State) (st : Stream) : State :=
  { s with turn := { s.turn with stream := st, col := 0, word := 0, how := .issued, pops := [] } }

/-- The streams of the core stopped on this edge: a trap, or a stop of the unit by its word. -/
def State.stopsCore (s : State) : Bool := s.turn.how == .trapped || s.turn.how == .illegal

/-- What the edge of a core cycle leaves when a cause arises on it. All three streams are judged on the state before the cycle;
an X cause comes first, then an A cause, then an M cause, and no other word of the cycle issues (spec/00 R10, spec/18 R282,
R284). -/
def State.edgeCause (s : State) : Option State :=
  ([turnX (s.onStream .x), turnA (s.onStream .a), turnM (s.onStream .m)] : List (Host.Outcome State Fault Refusal)).findSome? fun o =>
    match o with | .next t => if t.stopsCore then some t else none | _ => none

/-- The streams M and X go on after A in the same cycle. A cause that only the words of this cycle have brought about is no cause
of its edge: the word stays unissued and meets it on the next. -/
def onNextEdge (s : State) (o : Host.Outcome State Fault Refusal) : Host.Outcome State Fault Refusal :=
  andThen o fun t => .next (if t.stopsCore then s else t)

/-- The next word or X issue cycle, then the turn moves on. -/
def actTurn (s : State) : Host.Outcome State Fault Refusal :=
  let g := s.turn.core
  let k := s.turn.ctx
  let st := s.turn.stream
  if (s.core g).presenting != some k || (s.die (dieOf g)).dvfsStopped then .next (s.nextTurn (g.val + 1))
  else
    let s := s.onStream st
    match st with
    | .a =>
      match s.edgeCause with
      | some t => .next (t.nextTurn (g.val + 1))
      | none => andThen (turnA s) fun t => .next (t.passTurn g k .a)
    | .m => andThen (onNextEdge s (turnM s)) fun t => .next (t.passTurn g k .m)
    | .x => andThen (onNextEdge s (turnX s)) fun t => .next ((t.endCore g).passTurn g k .x)

/-- The first agenda entry when it is due, else the actor whose turn it is. -/
def act (s : State) : Host.Outcome State Fault Refusal :=
  match s.agenda with
  | [] => actTurn s
  | d :: l => if decide (d.at_ ≤ s.cycle) then exec d.what { s with agenda := l, ev := d.args } else actTurn s

/-! ## Placing one instruction where the next step fetches it -/

/-- Page tables of die 0 that map its first 1 GiB at physical address 0, writable, RC: the root at 2^17 points to a level-2
table at 2^19, whose first entry is the leaf. -/
def fetchRoot : Nat := 0x20000
def fetchTable : Nat := 0x80000
def fetchImage : Nat := 0x100000

/-- A unit whose A, X column 0 and M sections start at offset 128, 128 and 128 of the image and hold `aw` A words, `xw`
syllables and `mw` M words. -/
def fetchUnit (aw xw mw : Nat) : UnitInfo :=
  { UnitInfo.blank 0 with
    image := BitVec.ofNat 64 fetchImage, aOff := 128, aLen := BitVec.ofNat 32 aw,
    xOff := Vector.replicate 4 128, xLen := (Vector.replicate 4 0).set 0 (BitVec.ofNat 32 xw),
    mOff := 128, mLen := BitVec.ofNat 32 mw, width := 1, started := true,
    flagBind := 0, rd := Vector.replicate 3 (BitVec.allOnes 768), wr := Vector.replicate 3 (BitVec.allOnes 768) }

/-- The stream whose word has `nbits` bits. -/
def streamOf (nbits : Nat) : Stream :=
  if nbits == 48 || nbits == 96 then .a else if nbits == 128 then .m else .x

/-- The bytes that stand in the section: the word, and zeros up to the longest instruction. -/
def placeWord (s : State) (nbits w : Nat) : State :=
  let hbm := s.hbm.writeLE (hbmKey 0 fetchRoot) 8 (fetchTable + 1)
  let hbm := hbm.writeLE (hbmKey 0 fetchTable) 8 0x10B
  let hbm := hbm.writeLE (hbmKey 0 (fetchImage + 128)) 16 (w % 2 ^ nbits)
  let st := streamOf nbits
  let unit := match st with | .a => fetchUnit 2 0 0 | .x => fetchUnit 0 1 0 | .m => fetchUnit 0 0 1
  let s := { s with hbm := hbm, agenda := [] }
  let s := s.modDie 0 fun d => { d with xlatroot := 1, tlb := [], dvfsStopped := false }
  let s := s.modPart 0 fun p => { p with ndies := 1 }
  let s := s.modCore 0 fun c =>
    { c with active := 0, handling := none, stopped := false, bp0 := 0xC0000000, bp1 := 0xC0000000 }
  let s := s.modBank 0 0 fun b =>
    { b with
      st := .running, unit := some unit, left := 3, apc := 0, mpc := 0, aEnded := st != .a, mEnded := st != .m,
      xEnded := st != .x, aPause := 0, mPause := 0, aHold := .free, pending := [], bpSkip := none, xBusy := 0, aBusy := 0, replay := [],
      inflight := [], dom := { b.dom with run := none, trapDue := none }
      cols := b.cols.map fun c => { c with ended := true } }
  let s := s.modBank 0 0 fun b =>
    b.modCol 0 fun c => { c with ended := st != .x, pc := 0, hold := 0, brdly := 0, evalDue := false }
  s.setTurn 0 0 st

end Sys2Proof.Machine
end

