-- ==== Sys2Proof/Machine/Step.lean ====
section
/-! DEFINITION. Machine/Step.lean: one step of the device, and an instruction placed where the next step runs it. -/
namespace Sys2Proof.Machine
open Sys2Proof

/-- One indivisible act of the device: the next due step of the agenda, or the word or X issue cycle whose turn it is. -/
def step (s : State) : Host.Outcome State Fault Refusal := act s

/-- The state with one instruction placed in the image of a unit that runs in bank 0 of core 0 (log 6). -/
def State.withFetchWord (s : State) (nbits w : Nat) : State := placeWord s nbits w

end Sys2Proof.Machine
end

