-- ==== Sys2Proof/Claims/Common.lean ====
section
/-! DEFINITION. Claims/Common.lean: the terms the statements share: what a word leaves alone, and when a word of stream X
may issue. -/
namespace Sys2Proof.Claims
open Sys2Proof Sys2Proof.Machine

/-! ## Frames -/

/-- Only the turn, the agenda and the bank of the turn differ between two states, and the turn stays on its actor. -/
structure OnlyBank (s t : State) : Prop where
  state : t = { s with cores := t.cores, turn := t.turn, agenda := t.agenda }
  core : t.turn.core = s.turn.core
  ctx : t.turn.ctx = s.turn.ctx
  stream : t.turn.stream = s.turn.stream
  col : t.turn.col = s.turn.col
  word : t.turn.word = s.turn.word
  cores : ∀ g, g ≠ s.turn.core → t.core g = s.core g
  rest : t.core s.turn.core = { s.core s.turn.core with banks := (t.core s.turn.core).banks }
  banks : ∀ k, k ≠ s.turn.ctx → t.bank s.turn.core k = s.bank s.turn.core k

/-- Every byte of every memory reads as before: HBM, host memory, and the scratchpad of every core. -/
structure SameMemory (s t : State) : Prop where
  hbm : ∀ a, t.hbm.read a = s.hbm.read a
  host : ∀ a, t.host.read a = s.host.read a
  sp : ∀ g a, (t.core g).sp.read a = (s.core g).sp.read a

/-- Two states that differ only inside one core. -/
structure OnlyCore (g : Fin 512) (s t : State) : Prop where
  state : t = { s with cores := t.cores, turn := t.turn, agenda := t.agenda }
  cores : ∀ g', g' ≠ g → t.core g' = s.core g'

/-! ## Tokens -/

/-- The wait token is taken and the push is owed: it happens when the word retires (spec/02 R28, spec/06 R104). -/
def TokensOwed (wait push : Option (Fin 16)) (b b' : Bank) : Prop :=
  ∀ f, b'.flag f =
    { held := (b.flag f).held - (if wait = some f then 1 else 0), travel := (b.flag f).travel,
      owed := (b.flag f).owed + (if push = some f then 1 else 0) }

/-- The wait token is taken and the push token is on its way to its consumer. -/
def TokensSent (wait push : Option (Fin 16)) (b b' : Bank) : Prop :=
  ∀ f, b'.flag f =
    { held := (b.flag f).held - (if wait = some f then 1 else 0),
      travel := (b.flag f).travel + (if push = some f then 1 else 0), owed := (b.flag f).owed }

/-- The agenda after a push: the token is the consumer's two core cycles later (spec/06 R104). -/
def pushAgenda (s : State) (push : Option (Fin 16)) : List Due :=
  match push with
  | none => s.agenda
  | some f => (s.schedule 2 .tokenPoppable { EvArgs.at s.turn.core s.turn.ctx with n := f.val }).agenda

/-! ## When an X syllable may issue (spec/02 R26, R28; spec/06 R100, R104, R108; spec/08 R155) -/

/-- The flags are bound to X, the wait token is held, the push has room, the results that land in this X cycle fit their
queues, and no propagation run has X frozen. -/
structure XFree (h : XHdr) (s : State) : Prop where
  consumer : s.tb.consumes .x h.wait = true
  producer : s.tb.produces .x h.push = true
  token : s.tb.hasToken h.wait = true
  room : s.tb.hasRoom h.push = true
  landing : s.tb.landingFull = none
  running : s.tb.runFreezes = false

/-- A syllable whose guard is true and whose queue ports all have a poppable entry. -/
structure XReady (h : XHdr) (srcs : List Nat) (s : State) : Prop extends XFree h s where
  guard : s.guard h = true
  heads : ∀ q ∈ srcs, headReady (s.tb.qAX q) = true

/-- What an instruction of stream X asks beyond that, and what it does: its header, the queue ports its sources pop, what
must hold (a condition of the rule itself), what it changes in its bank, and how its column goes on. -/
structure XForm where
  hdr : XHdr
  srcs : List Nat
  need : State → Prop := fun _ => True
  upd : State → Bank → Bank := fun _ b => b
  col : State → Column → Column := fun _ c => c.next

/-- A form with a result: where it goes, its latency, its value and its flags. -/
structure XResult extends XForm where
  dst : Byte
  kind : FlightKind
  lat : Nat
  val : State → Vec
  flags : State → FFlags

/-- A bank with the parts of another that issuing a syllable may change: the columns, the results in flight, the token
flags, the A→X queues and the branch outcomes, and what counts its pops and its breakpoints. -/
def xParts (b new : Bank) : Bank :=
  { b with
    cols := new.cols, inflight := new.inflight, nextSeq := new.nextSeq, flags := new.flags, qsAX := new.qsAX,
    qvAX := new.qvAX, brq := new.brq, qx := new.qx, bpSkip := new.bpSkip }

/-- What an issued syllable does and leaves alone: the wait token and one entry of each popped queue go, its column waits no
more and goes on as the form says, the form's change of the bank is made, and nothing else of the bank changes but the results
in flight and the counters of the alias-check mode. -/
structure XTook (r : XForm) (s t : State) : Prop where
  only : OnlyBank s t
  issued : t.turn.how = .issued
  bank : t.tb = xParts (r.upd s s.tb) t.tb
  queues : ∀ q, q < 9 → t.tb.qAX q = if q ∈ r.srcs then (s.tb.qAX q).tail else s.tb.qAX q
  columns : ∀ c, c ≠ s.turn.col → t.tb.col c = s.tb.col c
  column : t.tc = r.col s { s.tc with wait := none }

/-- The result in flight that a syllable of the turn delivers (spec/00 R6). -/
def flightOf (s : State) (dst : Byte) (kind : FlightKind) (v : Vec) (lat : Nat) (fl : FFlags) (push : Option (Fin 16)) :
    Flight :=
  { val := v, dst := dst, col := s.turn.col, kind := kind, land := s.tb.xcycle + lat, fpf := fl, push := push,
    seq := s.tb.nextSeq }

/-- The result of a syllable is in flight until t + L, carrying its push. -/
structure XDelivers (r : XResult) (s t : State) : Prop where
  took : XTook r.toXForm s t
  flight : t.tb.inflight = s.tb.inflight ++ [flightOf s r.dst r.kind (r.val s) r.lat (r.flags s) r.hdr.push]
  tokens : TokensOwed r.hdr.wait r.hdr.push s.tb t.tb
  agenda : t.agenda = s.agenda

/-- An issued syllable without a result: its push token is on its way at once. -/
structure XActs (r : XForm) (s t : State) : Prop where
  took : XTook r s t
  flight : t.tb.inflight = s.tb.inflight ∧ t.tb.nextSeq = s.tb.nextSeq
  tokens : TokensSent r.hdr.wait r.hdr.push s.tb t.tb
  agenda : t.agenda = pushAgenda s r.hdr.push

/-- A scalar result. -/
def scalarTo (h : XHdr) (d : SDst) (lat : Nat) (srcs : List Nat) (v : State → Word) : XResult :=
  { hdr := h, srcs := srcs, dst := sdstCode d, kind := .scalar, lat := lat, val := fun s => (v s).setWidth 1024,
    flags := fun _ => 0 }

/-- A vector result given lane by lane. -/
def lanesTo (h : XHdr) (d : VDst) (lat : Nat) (srcs : List Nat) (f : State → Nat → Word) : XResult :=
  { hdr := h, srcs := srcs, dst := vdstCode d, kind := .vector, lat := lat, val := fun s => ofLanes (f s), flags := fun _ => 0 }

/-- A vector result whose lanes set flags: those of all lanes are collected. -/
def flaggedTo (h : XHdr) (d : VDst) (lat : Nat) (srcs : List Nat) (f : State → Nat → Word × FFlags) : XResult :=
  { hdr := h, srcs := srcs, dst := vdstCode d, kind := .vector, lat := lat, val := fun s => ofLanes fun l => (f s l).1,
    flags := fun s => (upTo 0 32).foldl (fun fl l => fl ||| (f s l).2) 0 }

/-- A predicate result. -/
def predTo (h : XHdr) (p : Fin 8) (lat : Nat) (srcs : List Nat) (v : State → Bool) : XResult :=
  { hdr := h, srcs := srcs, dst := BitVec.ofNat 8 p.val, kind := .pred, lat := lat, val := fun s => if v s then 1 else 0,
    flags := fun _ => 0 }

end Sys2Proof.Claims
end

