-- ==== Sys2Proof/Claims/Access.lean ====
section
/-! DEFINITION. Claims/Access.lean: when a word of stream A may issue, what it takes and leaves alone, and the results of its
arithmetic, branch and system words. -/
namespace Sys2Proof.Claims
open Sys2Proof Sys2Proof.Machine

/-! ## When an A word may issue (spec/02 R28, spec/06 R104, R108, spec/10 R194, R195) -/

/-- No earlier word still has to deliver the register. -/
def RegLanded (s : State) (n : Fin 32) : Prop :=
  (∀ x ∈ s.tb.aReady, x.1 = n → x.2 ≤ s.cycle) ∧ ∀ o ∈ s.tb.ops, ∀ m z sx, o.dst = .areg m z sx → m ≠ n

/-- The flags are bound to A, the wait token is held, the push has room, the registers have landed, the popped queues have
a poppable head and the pushed queues a free place. -/
structure AReady (wait push : Option (Fin 16)) (srcs dsts : List (Fin 32)) (extra : List Nat) (s : State) : Prop where
  consumer : s.tb.consumes .a wait = true
  producer : s.tb.produces .a push = true
  token : s.tb.hasToken wait = true
  room : s.tb.hasRoom push = true
  landed : ∀ n ∈ srcs ++ dsts, 0 < n.val → n.val < 28 → RegLanded s n
  heads : ∀ n ∈ srcs, 28 ≤ n.val → headReady (s.tb.qXA (n.val - 28)) = true
  places : ∀ n ∈ dsts, 28 ≤ n.val → (s.tb.qAX (n.val - 28)).length < 16
  extras : ∀ q ∈ extra, (s.tb.qAX q).length < qDepth q

/-- What an A word asks and does: its flags, the registers and queues it reads and writes, its size in words, what must
hold, what it changes in its bank after the pc has moved on, the registers that come later, and the steps it plans. -/
structure AForm where
  wait : Option (Fin 16) := none
  push : Option (Fin 16) := none
  srcs : List (Fin 32) := []
  dsts : List (Fin 32) := []
  extra : List Nat := []
  size : Word := 1
  need : State → Prop := fun _ => True
  upd : State → Bank → Bank := fun _ b => b
  late : State → List (Fin 32 × Nat) := fun _ => []
  plan : State → State := fun s => s

/-- The pc and the loops after a word that takes no branch (spec/06 R115, R117). -/
def movedOn (size : Word) (b : Bank) : Bank :=
  { b with
    apc := (loopStep b.apc size b.aLoop0 b.aLoop1).1, aLoop0 := (loopStep b.apc size b.aLoop0 b.aLoop1).2.1,
    aLoop1 := (loopStep b.apc size b.aLoop0 b.aLoop1).2.2 }

/-- A bank with the parts of another that issuing an A word may change beside its own effect: the token flags, the X→A
queues, its wait and the port cycles it has had, the registers still to come, and what counts its queue traffic and its breakpoints. -/
def aParts (b new : Bank) : Bank :=
  { b with
    flags := new.flags, qsXA := new.qsXA, aWait := new.aWait, aBusy := new.aBusy, colAt := new.colAt, aReady := new.aReady,
    bpSkip := new.bpSkip, qa := new.qa, pa := new.pa }

/-- What an issued A word does: only the bank of its turn differs from the state u, which is s but for what the instruction
changes outside its bank. -/
structure ATook (r : AForm) (s u t : State) : Prop where
  only : OnlyBank u t
  issued : t.turn.how = .issued
  bank : t.tb = aParts (r.upd s (movedOn r.size s.tb)) t.tb
  queues : ∀ q, q < 4 → t.tb.qXA q = if (∃ n ∈ r.srcs, n.val = 28 + q) then (s.tb.qXA q).tail else s.tb.qXA q
  wait : t.tb.aWait = none ∧ t.tb.aBusy = 0
  ready : t.tb.aReady = (s.tb.aReady.filter fun x => decide (s.cycle < x.2)) ++ r.late s

/-- A word that retires when it issues: its push is on its way (spec/06 R104, R357). -/
structure ARetires (r : AForm) (s u t : State) : Prop where
  took : ATook r s u t
  tokens : TokensSent r.wait r.push s.tb t.tb
  agenda : t.agenda = pushAgenda (r.plan u) r.push

/-- A word that retires later: its push is owed. -/
structure AOwes (r : AForm) (s u t : State) : Prop where
  took : ATook r s u t
  tokens : TokensOwed r.wait r.push s.tb t.tb
  agenda : t.agenda = (r.plan u).agenda

/-! ## Results (spec/02 R32, spec/10 R194) -/

/-- A result: a0 discards it, a1-a27 take it, a28-a31 take a place in the A→X queue of their number. -/
def aPut (d : Fin 32) (v : DWord) (b : Bank) : Bank :=
  if d.val = 0 then b
  else if h : d.val < 28 then { b with a := b.a.set d.val v }
  else
    { b with
      qsAX := b.qsAX.set (d.val - 28) (b.qsAX[d.val - 28]'(by omega) ++
        [{ id := b.nextId, val := (v.setWidth 32).setWidth 1024, ready := false }]) (by omega)
      nextId := b.nextId + 1 }

/-- A queue place that a word fills when it issues is poppable four core cycles later (spec/06 R104). -/
def poppable (q : Nat) (s : State) : State :=
  s.schedule 4 .queueEntryPoppable { EvArgs.at s.turn.core s.turn.ctx with n := q, id := s.tb.nextId }

/-- A word with one result that is there lat cycles later. -/
def aGives (h : AHdr) (d : Fin 32) (srcs : List (Fin 32)) (lat : Nat) (v : State → DWord) : AForm :=
  { wait := h.wait, push := h.push, srcs := srcs, dsts := [d], upd := fun s => aPut d (v s)
    late := fun s => if 0 < d.val ∧ d.val < 28 ∧ 1 < lat then [(d, s.cycle + lat)] else []
    plan := fun s => if 28 ≤ d.val then poppable (d.val - 28) s else s }

/-- The lesser and the greater of two 64-bit values. -/
def lesser64 (uns : Bool) (a b : DWord) : DWord :=
  if uns then (if a.toNat ≤ b.toNat then a else b) else if a.toInt ≤ b.toInt then a else b
def greater64 (uns : Bool) (a b : DWord) : DWord :=
  if uns then (if b.toNat ≤ a.toNat then a else b) else if b.toInt ≤ a.toInt then a else b

/-- The field of w bits of a from p up. -/
def fieldOf64 (sx : Bool) (w : Nat) (a p : DWord) : DWord :=
  let f := a.toNat / 2 ^ (p.toNat % 64) % 2 ^ w
  if sx && f.testBit (w - 1) then BitVec.ofInt 64 ((f : Int) - 2 ^ w) else BitVec.ofNat 64 f

/-- The arithmetic of the A stream. -/
inductive ArithForm : Instr → AForm → Prop
  | aAdd {h d a b} : ArithForm (.aAdd h d a b) (aGives h d [a, b] 1 fun s => s.rA a + s.rA b)
  | aSub {h d a b} : ArithForm (.aSub h d a b) (aGives h d [a, b] 1 fun s => s.rA a - s.rA b)
  | aAnd {h d a b} : ArithForm (.aAnd h d a b) (aGives h d [a, b] 1 fun s => s.rA a &&& s.rA b)
  | aOr {h d a b} : ArithForm (.aOr h d a b) (aGives h d [a, b] 1 fun s => s.rA a ||| s.rA b)
  | aXor {h d a b} : ArithForm (.aXor h d a b) (aGives h d [a, b] 1 fun s => s.rA a ^^^ s.rA b)
  | aShl {h d a b} : ArithForm (.aShl h d a b)
      (aGives h d [a, b] 1 fun s => if 64 ≤ (s.rA b).toNat then 0 else s.rA a <<< (s.rA b).toNat)
  | aShr {h d a b} : ArithForm (.aShr h d a b)
      (aGives h d [a, b] 1 fun s => if 64 ≤ (s.rA b).toNat then 0 else s.rA a >>> (s.rA b).toNat)
  | aSra {h d a b} : ArithForm (.aSra h d a b)
      (aGives h d [a, b] 1 fun s => BitVec.ofInt 64 ((s.rA a).toInt / 2 ^ (min (s.rA b).toNat 63)))
  | aMul {h d a b} : ArithForm (.aMul h d a b) (aGives h d [a, b] 3 fun s => s.rA a * s.rA b)
  | aMin {h uns d a b} : ArithForm (.aMin h uns d a b) (aGives h d [a, b] 1 fun s => lesser64 uns (s.rA a) (s.rA b))
  | aMax {h uns d a b} : ArithForm (.aMax h uns d a b) (aGives h d [a, b] 1 fun s => greater64 uns (s.rA a) (s.rA b))
  | aBfx {h sx w d a p} : ArithForm (.aBfx h sx w d a p)
      (aGives h d [a, p] 1 fun s => fieldOf64 sx (w.val + 1) (s.rA a) (s.rA p))
  | aAddi {h d a i} : ArithForm (.aAddi h d a i) (aGives h d [a] 1 fun s => s.rA a + i.signExtend 64)
  | aAndi {h d a i} : ArithForm (.aAndi h d a i) (aGives h d [a] 1 fun s => s.rA a &&& i.setWidth 64)
  | aLi {h d i} : ArithForm (.aLi h d i) (aGives h d [] 1 fun _ => i.signExtend 64)
  | aLih {h d a i k} : ArithForm (.aLih h d a i k)
      (aGives h d [a] 1 fun s =>
        (s.rA a &&& ~~~((0xFFFF : DWord) <<< (16 * k.val))) ||| (i.setWidth 64 <<< (16 * k.val)))

/-! ## Branches and control (spec/06 R114-R118) -/

/-- No branch of the partition and no event of the unit is traced (spec/22 R330). -/
def NoTrace (s : State) : Prop :=
  (s.part s.tb.part).trcBr = false ∧
    ∀ u, s.tb.unit = some u → ((s.part u.part).trcOpen && u.queue == (s.part u.part).trcQueue) = false

/-- A taken branch: the pc is the target, a loop it leaves ends, and nothing issues for two cycles (R114, R117). -/
def jumped (pre : Bank) (tgt : Word) (b : Bank) : Bank :=
  { b with
    apc := tgt, aLoop0 := (loopJump tgt pre.aLoop0 pre.aLoop1).1, aLoop1 := (loopJump tgt pre.aLoop0 pre.aLoop1).2,
    aPause := 2 }

/-- An outcome enters the branch-outcome queue. -/
def outcome (o : Bool) (b : Bank) : Bank :=
  { b with brq := b.brq ++ [{ id := b.nextId, val := if o then 1 else 0, ready := false }], nextId := b.nextId + 1 }

/-- A conditional branch in its three modes: `.q` only pushes its outcome, `.qb` does both (R114). -/
def branches (h : AHdr) (mode : BrMod) (a b : Fin 32) (disp : BitVec 12) (c : DWord → DWord → Bool) : AForm :=
  { wait := h.wait, push := h.push, srcs := [a, b], extra := if mode = .branch then [] else [8], need := NoTrace
    upd := fun s b' =>
      let b' := if mode = .branch then b' else outcome (c (s.rA a) (s.rA b)) b'
      if c (s.rA a) (s.rA b) = true ∧ mode ≠ .q then jumped s.tb (s.tb.apc + disp.signExtend 32) b' else b'
    plan := fun s => if mode = .branch then s else poppable 8 s }

/-- A jump, with the link in a register where there is one. -/
def jumps (h : AHdr) (srcs : List (Fin 32)) (tgt : State → Word) : AForm :=
  { wait := h.wait, push := h.push, srcs := srcs, need := NoTrace, upd := fun s b => jumped s.tb (tgt s) b }

/-- A level opens at a loop word: count 0 runs the body once (R115). -/
def opens (pc count disp : Word) : LoopReg :=
  { lc := if count = 0 then 0 else count - 1, ls := pc + 1, le := pc + disp, act := true }
def setLoop (l : Bool) (r : LoopReg) (b : Bank) : Bank := if l then { b with aLoop1 := r } else { b with aLoop0 := r }
def pauses (n : BitVec 12) (b : Bank) : Bank := { b with aPause := n }
/-- The stream has ended; the unit completes when it was the last of its streams. -/
def ends (b : Bank) : Bank := { b with aEnded := true, left := b.left - 1 }

def endsUnit (s : State) : State :=
  if s.tb.left - 1 = 0 ∧ s.turn.ctx.val ≠ 2 then s.schedule 0 .unitCompletion (EvArgs.at s.turn.core s.turn.ctx) else s

inductive BranchForm : Instr → AForm → Prop
  | beq {h m a b k} : BranchForm (.beq h m a b k) (branches h m a b k fun x y => x == y)
  | bne {h m a b k} : BranchForm (.bne h m a b k) (branches h m a b k fun x y => x != y)
  | blt {h m a b k} : BranchForm (.blt h m a b k) (branches h m a b k fun x y => decide (x.toInt < y.toInt))
  | bge {h m a b k} : BranchForm (.bge h m a b k) (branches h m a b k fun x y => decide (y.toInt ≤ x.toInt))
  | bltu {h m a b k} : BranchForm (.bltu h m a b k) (branches h m a b k fun x y => decide (x.toNat < y.toNat))
  | bgeu {h m a b k} : BranchForm (.bgeu h m a b k) (branches h m a b k fun x y => decide (y.toNat ≤ x.toNat))
  | jmp {h k} : BranchForm (.jmp h k) (jumps h [] fun s => s.tb.apc + k.signExtend 32)
  | aJr {h a} : BranchForm (.aJr h a) (jumps h [a] fun s => (s.rA a).setWidth 32)
  | aRet {h a} : BranchForm (.aRet h a) (jumps h [a] fun s => (s.rA a).setWidth 32)
  | aCall {h d k} : BranchForm (.aCall h d k)
      { aGives h d [] 1 (fun s => (s.tb.apc + 1).setWidth 64) with
        need := NoTrace
        upd := fun s b => jumped s.tb (s.tb.apc + k.signExtend 32) (aPut d ((s.tb.apc + 1).setWidth 64) b) }
  | aLoop {h l a k} : BranchForm (.aLoop h l a k)
      { wait := h.wait, push := h.push, srcs := [a]
        upd := fun s => setLoop l (opens s.tb.apc ((s.rA a).setWidth 32) (k.setWidth 32)) }
  | aPause {h n} : BranchForm (.aPause h n)
      { wait := h.wait, push := h.push, upd := fun _ => pauses (n.setWidth 12) }
  | aFin : BranchForm .aFin
      { upd := fun _ => ends
        plan := endsUnit }

end Sys2Proof.Claims
end

