-- ==== Sys2Proof/Claims/AMemory.lean ====
section
/-! DEFINITION. Claims/AMemory.lean: the accesses of stream A to global memory and to the scratchpad: when one may issue, and
what it leaves behind at its issue. -/
namespace Sys2Proof.Claims
open Sys2Proof Sys2Proof.Machine

/-! ## Global memory (spec/10 R195, spec/12 R238-R247, spec/09 R164, R172) -/

/-- A global access of a word may go out: the unit is not sealed where it stores, the address is aligned, canonical and its
owner exists, an atomic's page is no irrevocable one and not the host's, fewer than 16 accesses stand without their confirmation, none
at all before an SO page, and the fences and the release it makes are satisfied; the alias-check mode, which would wait, is off. -/
structure GlobalOk (store : Bool) (release : Option Scope) (atom : Bool) (align va : Nat) (s : State) : Prop where
  unsealed : store = true → s.tb.sealed = false
  aligned : va % align = 0
  canonical : canonical va = true
  owner : s.ownerOk s.tb.part va = true
  target : atom = true → vaOwner va ≠ 8 ∧ s.irrevocable s.tb.part (s.locate s.tb.part va) = false
  room : (s.tb.ops.filter fun (o : AOp) => !o.confirmed).length < 16
  strong : s.kindAt s.tb.part va = 0 → ∀ o ∈ s.tb.ops, o.confirmed = true
  fence : store = true → s.relOk s.turn.core s.turn.ctx = true
  released : ∀ sc, release = some sc → s.released s.turn.core s.turn.ctx sc = true
  quiet : (s.part s.tb.part).aliasMode = false

/-- An access as its word sends it: the flags and operands of the word, the class, whether it makes an acquire, where it goes,
the bytes of its range, what it is, what must hold, the place its value takes at issue, and what else its word does. -/
structure Access where
  hdr : AHdr
  srcs : List (Fin 32)
  dsts : List (Fin 32) := []
  extra : List Nat := []
  cls : Fin 8
  acq : Bool := false
  va : State → Nat
  range : Option Nat
  body : State → AccBody
  need : State → Prop
  dst : Bank → Bank × ADst := fun b => (b, .none)
  last : State → Nat → Bank → Bank := fun _ _ b => b
  base : State → State := fun s => s

/-- The place of a returned value: none for a0, the register, or a reserved entry of the A→X queue. -/
def landsIn (d : Fin 32) (size : Nat) (sx : Bool) (b : Bank) : Bank × ADst :=
  if d.val = 0 then (b, .none)
  else if d.val < 28 then (b, .areg d size sx)
  else (b.reserveAX (d.val - 28) 0, .queue (Fin.ofNat 8 (d.val - 28)) b.nextId sx)

/-- A reserved entry of the A→X queue of a port. -/
def landsAt (port : Nat) (b : Bank) : Bank × ADst := (b.reserveAX port 0, .queue (Fin.ofNat 8 port) b.nextId false)

/-- The number the access takes. -/
def Access.id (r : Access) (s : State) : Nat := (r.dst s.tb).1.nextId

/-- The access as it stands outstanding. -/
def Access.op (r : Access) (s : State) (d : ADst) : AOp :=
  { id := r.id s, pc := s.tb.apc, sfc := s.sfc s.tb, va := BitVec.ofNat 64 (r.va s), cls := r.cls, body := r.body s, dst := d
    push := r.hdr.push, after := s.tb.acquiring, acquire := r.acq && s.kindAt s.tb.part (r.va s) != 2
    confirmed := false, performed := false, doneTo := 0, got := [], xlat := [], result := 0, fault := 0, answer := none }

/-- The digest of the phase takes a store-like access in a recording (spec/22 R333). -/
def digested (r : Access) (s : State) (l : List (DWord × DWord × DWord)) : List (DWord × DWord × DWord) :=
  if (r.body s).isLoad = true ∨ (s.part s.tb.part).rpMode = 0 then l
  else l ++ [(BitVec.ofNat 64 (r.va s), BitVec.ofNat 64 (r.range.getD (r.body s).count), BitVec.ofNat 64 (leNat (r.body s).firstBytes))]

/-- The word of an access that reaches its owner n cycles later. -/
def Access.form (r : Access) (n : Nat) : AForm where
  wait := r.hdr.wait
  push := r.hdr.push
  srcs := r.srcs
  dsts := r.dsts
  extra := r.extra
  need := r.need
  upd s b :=
    r.last s (r.id s)
      { (r.dst b).1 with
        ops := (r.dst b).1.ops ++ [r.op s (r.dst b).2]
        nextId := r.id s + 1
        digest := digested r s (r.dst b).1.digest }
  plan s := s.schedule n .globalAccessAtOwner { EvArgs.at s.turn.core s.turn.ctx with id := r.id s }

/-- addr = aB + aI + off × size modulo 2^64 (R195). -/
def addr (a i : Fin 32) (off : BitVec 8) (size : Nat) (s : State) : Nat :=
  (s.rA a + s.rA i + off.signExtend 64 * BitVec.ofNat 64 size).toNat

/-- A load of n bytes into a register or a queue. -/
def loads (h : AHdr) (cls : Fin 8) (acq : Bool) (ty : ATy) (d a i : Fin 32) (off : BitVec 8) : Access where
  hdr := h
  srcs := [a, i]
  dsts := [d]
  cls := cls
  acq := acq
  va := addr a i off (atySize ty)
  range := some (atySize ty)
  body _ := .load (atySize ty)
  need s := GlobalOk false none false (atySize ty) (addr a i off (atySize ty) s) s
  dst := landsIn d (atySize ty) (atySigned ty)

/-- A store of the low bytes of a register. -/
def stores (h : AHdr) (cls : Fin 8) (rel : Option Scope) (ty : ATy) (d a i : Fin 32) (off : BitVec 8) : Access where
  hdr := h
  srcs := [d, a, i]
  cls := cls
  va := addr a i off (atySize ty)
  range := some (atySize ty)
  body s := .store (leBytes (atySize ty) (s.rA d).toNat)
  need s := GlobalOk true rel false (atySize ty) (addr a i off (atySize ty) s) s

def width (w64 : Bool) : Nat := if w64 then 8 else 4

/-- An atomic that returns the old value (R244); `acas` compares with AD. -/
def atomic (op : AtomOp) (h : AHdr) (cls : Fin 8) (w64 : Bool) (sem : Sem) (d a v : Fin 32) : Access where
  hdr := h
  srcs := [a, v] ++ (if op == .cas then [d] else [])
  dsts := [d]
  cls := cls
  acq := sem = .acq ∨ sem = .ar
  va s := (s.rA a).toNat
  range := some (width w64)
  body s := .atomic op w64 (s.rA v) (s.rA d) true
  need s := GlobalOk true (relScope (sem = .rel ∨ sem = .ar) (s.rA a).toNat) true (width w64) (s.rA a).toNat s
  dst := landsIn d (width w64) (!w64 && (op == .min || op == .max))

/-- A reduction: no result (R245). -/
def reduces (op : AtomOp) (h : AHdr) (cls : Fin 8) (w64 rel : Bool) (a v : Fin 32) : Access where
  hdr := h
  srcs := [a, v]
  cls := cls
  va s := (s.rA a).toNat
  range := some (width w64)
  body s := .atomic op w64 (s.rA v) 0 false
  need s := GlobalOk true (relScope rel (s.rA a).toNat) true (width w64) (s.rA a).toNat s

/-- The lanes of a handle access and its first address. -/
def firstVa (l : List LaneSpec) : Nat := match l with | x :: _ => x.va | [] => 0

/-- The checks of `ldd` and `stz` find nothing and the side block, the index and the scales are at hand (R197, R198). -/
structure QuantOk (sp wr : Bool) (cls : Fin 8) (hs : Fin 16) (k : DWord) (s : State) : Prop where
  handle : quantBlock sp cls hs wr k s s = none
  elements : elemBlock sp wr cls (s.quantSpecs sp hs k) s = none
  unsealed : wr = true → sp = false → s.tb.sealed = false
  quiet : (s.part s.tb.part).aliasMode = false

/-- The quantised elements of the head of a vector queue (R198). -/
def quantised (sp : Bool) (q : Fin 4) (hs : Fin 16) (k : DWord) (s : State) : List (LaneSpec × Option Nat × Nat) :=
  (s.quantSpecs sp hs k).map fun x =>
    (x, encodeElem ((fmtOf (hFmt (s.hreg hs))).getD .fp32) (unpack32 (lane (headVal (s.tb.qXA (4 + q.val))) x.lane)) x.scale
      (ditherJ x.seed x.row x.col))
def quantParts (sp : Bool) (q : Fin 4) (hs : Fin 16) (k : DWord) (s : State) : List PartW :=
  partsOf ((fmtOf (hFmt (s.hreg hs))).getD .fp32)
    ((quantised sp q hs k s).map fun y => { va := y.1.va, pos := y.1.pos, code := y.2.1 })
/-- The parts as they merge with the core's scratchpad. -/
def quantMerged (q : Fin 4) (hs : Fin 16) (k : DWord) (s : State) : List (PartW × Byte × Bool) :=
  (quantParts true q hs k s).map fun w => (w, mergePart (BitVec.ofNat 8 ((s.core s.turn.core).spRead w.va 1)) w)
/-- The state after the events of the elements, and those of the reserved bytes they merge with, are recorded (spec/03 R358, spec/11
R236). -/
def quantNoted (sp : Bool) (q : Fin 4) (hs : Fin 16) (k : DWord) (s : State) : State :=
  s.provAccess s.turn.core s.turn.ctx (s.sfc s.tb) s.tb.apc (hFmt (s.hreg hs))
    ((((quantised sp q hs k s).filter fun y => y.2.2 != 0).map fun y => y.1.event y.2.2) ++
      if sp then mergeEvents (s.quantSpecs sp hs k) (quantMerged q hs k s) else [])

inductive AccessOf : Instr → Access → Prop
  | aLd {h c ty d a i off} : AccessOf (.aLd h c false ty d a i off) (loads h c false ty d a i off)
  | aSt {h c ty d a i off} : AccessOf (.aSt h c false ty d a i off) (stores h c none ty d a i off)
  | lda {h c sc ty d a i off} : AccessOf (.lda h c sc ty d a i off) (loads h c true ty d a i off)
  | stl {h c sc ty d a i off} : AccessOf (.stl h c sc ty d a i off) (stores h c (some sc) ty d a i off)
  | ldqV {h c q a i off} : q.val < 4 → AccessOf (.ldq h c false q a i off)
      { hdr := h, srcs := [a, i], extra := [4 + q.val], cls := c, va := addr a i off 128, range := some 128
        body := fun _ => .load 128, need := fun s => GlobalOk false none false 128 (addr a i off 128 s) s
        dst := landsAt (4 + q.val) }
  | ldqS {h c q a i off} : 4 ≤ q.val → AccessOf (.ldq h c false q a i off)
      { hdr := h, srcs := [a, i], extra := [q.val - 4], cls := c, va := addr a i off 4, range := some 4
        body := fun _ => .load 4, need := fun s => GlobalOk false none false 4 (addr a i off 4 s) s
        dst := landsAt (q.val - 4) }
  | ldd {h c q hs k} : AccessOf (.ldd h c false q hs k)
      { hdr := h, srcs := [k], extra := [4 + q.val], cls := c
        va := fun s => firstVa (s.quantSpecs false hs (s.rA k)), range := none
        body := fun s => .gather (s.quantSpecs false hs (s.rA k)), need := fun s => QuantOk false false c hs (s.rA k) s
        dst := landsAt (4 + q.val) }
  | stz {h c q hs k} : AccessOf (.stz h c false q hs k)
      { hdr := h, srcs := [k], cls := c, va := fun s => firstVa (s.quantSpecs false hs (s.rA k)), range := none
        body := fun s => .scatter (s.quantSpecs false hs (s.rA k)) (quantParts false q hs (s.rA k) s)
        need := fun s => headReady (s.tb.qXA (4 + q.val)) = true ∧ QuantOk false true c hs (s.rA k) s
        dst := fun b => (b.popXA (4 + q.val), .none), base := fun s => quantNoted false q hs (s.rA k) s }
  | aswap {h c w m d a v} : AccessOf (.aswap h c w m d a v) (atomic .swap h c w m d a v)
  | acas {h c w m d a v} : AccessOf (.acas h c w m d a v) (atomic .cas h c w m d a v)
  | aadd {h c w m d a v} : AccessOf (.aadd h c w m d a v) (atomic .add h c w m d a v)
  | aand {h c w m d a v} : AccessOf (.aand h c w m d a v) (atomic .and h c w m d a v)
  | aor {h c w m d a v} : AccessOf (.aor h c w m d a v) (atomic .or h c w m d a v)
  | axor {h c w m d a v} : AccessOf (.axor h c w m d a v) (atomic .xor h c w m d a v)
  | amin {h c w m d a v} : AccessOf (.amin h c w m d a v) (atomic .min h c w m d a v)
  | amax {h c w m d a v} : AccessOf (.amax h c w m d a v) (atomic .max h c w m d a v)
  | aminu {h c w m d a v} : AccessOf (.aminu h c w m d a v) (atomic .minu h c w m d a v)
  | amaxu {h c w m d a v} : AccessOf (.amaxu h c w m d a v) (atomic .maxu h c w m d a v)
  | redadd {h c w r a v} : AccessOf (.redadd h c w r a v) (reduces .add h c w r a v)
  | redmin {h c w u r a v} : AccessOf (.redmin h c w u r a v) (reduces (if u then .minu else .min) h c w r a v)
  | redmax {h c w u r a v} : AccessOf (.redmax h c w u r a v) (reduces (if u then .maxu else .max) h c w r a v)
  | redand {h c w r a v} : AccessOf (.redand h c w r a v) (reduces .and h c w r a v)
  | redor {h c w r a v} : AccessOf (.redor h c w r a v) (reduces .or h c w r a v)
  | redxor {h c w r a v} : AccessOf (.redxor h c w r a v) (reduces .xor h c w r a v)
  | redfaddU {h c r a v} : AccessOf (.redfaddU h c r a v) (reduces .faddU h c false r a v)
  | redfmin {h c r a v} : AccessOf (.redfmin h c r a v) (reduces .fmin h c false r a v)
  | redfmax {h c r a v} : AccessOf (.redfmax h c r a v) (reduces .fmax h c false r a v)
  | redfaddO {h c r a v} : AccessOf (.redfaddO h c r a v)
      { reduces .faddO h c false r a v with
        body := fun s => .atomic .faddO false (s.rA v) (s.tb.oredseq.setWidth 64) false
        need := fun s => vaOwner (s.rA a).toNat < 8 ∧ GlobalOk true (relScope r (s.rA a).toNat) true 4 (s.rA a).toNat s
        dst := fun b => ({ b with oredseq := b.oredseq + 1 }, .none) }
  | barc {h d a e} : AccessOf (.barc h d a e)
      { hdr := h, srcs := [a, e], dsts := [d], cls := 0, acq := true, va := fun s => (s.rA a).toNat, range := some 4
        body := fun s => .barc ((s.rA e).setWidth 32), need := fun s => GlobalOk true (some .device) true 4 (s.rA a).toNat s
        dst := landsIn d 4 false }
  | hld {h c r a off} : AccessOf (.hld h c r a off)
      { hdr := h, srcs := [a], cls := c, va := fun s => (s.rA a + off.signExtend 64 * 32).toNat, range := some 32
        body := fun _ => .load 32
        need := fun s => GlobalOk false none false 32 (s.rA a + off.signExtend 64 * 32).toNat s
        dst := fun b => (b, .handle r)
        last := fun s n b =>
          { b with aHold := .handle n, apc := s.tb.apc, aLoop0 := s.tb.aLoop0, aLoop1 := s.tb.aLoop1 } }
  | hst {h c r a off} : AccessOf (.hst h c r a off)
      { hdr := h, srcs := [a], cls := c, va := fun s => (s.rA a + off.signExtend 64 * 32).toNat, range := some 32
        body := fun s => .store (leBytes 32 (s.hreg r).toNat)
        need := fun s => GlobalOk true none false 32 (s.rA a + off.signExtend 64 * 32).toNat s }
  | spill {h a v} : AccessOf (.ctxbank h a v)
      { hdr := h, srcs := [a, v], cls := 0, va := fun s => (s.rA v).toNat, range := some 4096
        body := fun s => .store ((s.core s.turn.core).acc.get (Fin.ofNat 4 (s.rA a).toNat)).bytes
        need := fun s => s.turn.ctx = 2 ∧ (s.rA a).toNat < 16 ∧ (s.rA a).getLsbD 2 = false ∧
          s.accBusy s.turn.core (Fin.ofNat 4 (s.rA a).toNat) = false ∧ GlobalOk true none false 4096 (s.rA v).toNat s }
  | fill {h a v n i32} : AccessOf (.ctxbank h a v)
      { hdr := h, srcs := [a, v], cls := 0, va := fun s => (s.rA v).toNat, range := some 4096, body := fun _ => .load 4096
        need := fun s => s.turn.ctx = 2 ∧ (s.rA a).toNat < 16 ∧ (s.rA a).getLsbD 2 = true ∧
          n = Fin.ofNat 4 (s.rA a).toNat ∧ i32 = (s.rA a).getLsbD 3 ∧ s.accBusy s.turn.core n = false ∧
          GlobalOk false none false 4096 (s.rA v).toNat s
        dst := fun b => (b, .acc n i32), last := fun _ n b => { b with aHold := .handle n } }

/-! ## The scratchpad (spec/10 R183, R187, R195) -/

/-- A scratchpad access of a word may be made: it lies in the scratchpad, is aligned, in the read or write set of the unit on a
tile the streams own (the system context has neither check), no access it must follow is outstanding, the release fences let it store,
and its slab is free. -/
structure ScratchOk (wr : Bool) (cls : Fin 8) (a n : Nat) (s : State) : Prop where
  range : a + n ≤ 3145728
  aligned : a % n = 0
  sets : s.turn.ctx.val ≠ 2 → (if wr then s.tb.mayWrite 0 (a / 4096) else s.tb.mayRead 0 (a / 4096)) = true
  owner : s.turn.ctx.val ≠ 2 → (s.core s.turn.core).owned (a / 4096) = false
  acquires : s.tb.acquiring = []
  fence : wr = true → s.relOk s.turn.core s.turn.ctx = true
  order : ∀ o ∈ s.tb.live, o.performed = true ∨ classOrdered o.cls cls = false
  slab : (s.core s.turn.core).slabBusy s.cycle [a / 4096] = false
  quiet : (s.part s.tb.part).aliasMode = false

/-- The little-endian value of n bytes of the core's scratchpad. -/
def spValue (a n : Nat) (s : State) : Nat := (s.core s.turn.core).spRead a n

/-- The state with bytes stored in the core's scratchpad. -/
def spStored (a : Nat) (l : List Byte) (s : State) : State := s.spWrite s.turn.core a l

/-- A word that ends later, with its queue entry and its push. -/
def endsLater (n : Nat) (h : AHdr) (q id : Nat) (s : State) : State := s.retireLater n h.push q id

/-- A scratchpad load of a register or a queue: the value is there 6 A cycles later (R195). -/
def spLoads (h : AHdr) (cls : Fin 8) (ty : ATy) (d a i : Fin 32) (off : BitVec 8) : AForm where
  wait := h.wait
  push := h.push
  srcs := [a, i]
  dsts := [d]
  need s := ScratchOk false cls (addr a i off (atySize ty) s) (atySize ty) s
  upd s := aPut d (extendA (atySize ty) (atySigned ty) (spValue (addr a i off (atySize ty) s) (atySize ty) s))
  late s := if 0 < d.val ∧ d.val < 28 then [(d, s.cycle + 6)] else []
  plan s := if d.val < 28 then endsLater 6 h 0 0 s else endsLater 6 h (d.val - 27) s.tb.nextId s

/-- A load of a queue: its entry is reserved and lands 6 A cycles later. -/
def spFeeds (h : AHdr) (srcs : List (Fin 32)) (port : Nat) (need : State → Prop) (v : State → Vec) : AForm where
  wait := h.wait
  push := h.push
  srcs := srcs
  extra := [port]
  need := need
  upd s b := b.reserveAX port (v s)
  plan s := endsLater 6 h (port + 1) s.tb.nextId s

/-- The elements a scratchpad `ldd` decodes, with the kinds of their events. -/
def spDecoded (hs : Fin 16) (k : DWord) (s : State) : List (Nat × Word × List Nat) :=
  (s.quantSpecs true hs k).map fun x => (x.lane, decodeLane (fun a n => spValue a n s) x)
def spLanes (hs : Fin 16) (k : DWord) (s : State) : Vec :=
  ofLanes fun i => match (spDecoded hs k s).find? fun y => y.1 == i with | some y => y.2.1 | none => 0
def spNoted (hs : Fin 16) (k : DWord) (s : State) : State :=
  s.provAccess s.turn.core s.turn.ctx (s.sfc s.tb) s.tb.apc (hFmt (s.hreg hs))
    (decodeEvents (fun a n => spValue a n s) (s.quantSpecs true hs k))

/-- Scratchpad loads: they retire later. -/
inductive ScratchLoad : Instr → AForm → (State → State) → Prop
  | aLd {h c ty d a i off} : ScratchLoad (.aLd h c true ty d a i off) (spLoads h c ty d a i off) id
  | ldqV {h c q a i off} : q.val < 4 → ScratchLoad (.ldq h c true q a i off)
      (spFeeds h [a, i] (4 + q.val) (fun s => ScratchOk false c (addr a i off 128 s) 128 s)
        fun s => BitVec.ofNat 1024 (spValue (addr a i off 128 s) 128 s)) id
  | ldqS {h c q a i off} : 4 ≤ q.val → ScratchLoad (.ldq h c true q a i off)
      (spFeeds h [a, i] (q.val - 4) (fun s => ScratchOk false c (addr a i off 4 s) 4 s)
        fun s => BitVec.ofNat 1024 (spValue (addr a i off 4 s) 4 s)) id
  | ldd {h c q hs k} : ScratchLoad (.ldd h c true q hs k)
      (spFeeds h [k] (4 + q.val) (fun s => QuantOk true false c hs (s.rA k) s) fun s => spLanes hs (s.rA k) s)
      fun s => spNoted hs (s.rA k) s

/-- Scratchpad stores: they perform at issue. -/
inductive ScratchStore : Instr → AForm → (State → State) → Prop
  | aSt {h c ty d a i off} : ScratchStore (.aSt h c true ty d a i off)
      { wait := h.wait, push := h.push, srcs := [d, a, i]
        need := fun s => ScratchOk true c (addr a i off (atySize ty) s) (atySize ty) s }
      fun s => spStored (addr a i off (atySize ty) s) (leBytes (atySize ty) (s.rA d).toNat) s
  | stz {h c q hs k} : ScratchStore (.stz h c true q hs k)
      { wait := h.wait, push := h.push, srcs := [k]
        need := fun s => headReady (s.tb.qXA (4 + q.val)) = true ∧ QuantOk true true c hs (s.rA k) s
        upd := fun _ b => b.popXA (4 + q.val) }
      fun s => (quantMerged q hs (s.rA k) s).foldl (fun (t : State) (m : PartW × Byte × Bool) => spStored m.1.va [m.2.1] t)
        (quantNoted true q hs (s.rA k) s)

end Sys2Proof.Claims
end

