-- ==== Sys2Proof/Claims/XForms.lean ====
section
/-! DEFINITION. Claims/XForms.lean: what the rules say the control, memory, domain and system instructions of stream X do
when they issue with a true guard. -/
namespace Sys2Proof.Claims
open Sys2Proof Sys2Proof.Machine

/-! ## Control (spec/06 R105, R106, R112-R118; spec/02 R37; spec/12 R243) -/

/-- No event of the unit of the turn is traced (spec/22 R330). -/
def Untraced (s : State) : Prop :=
  ∀ u, s.tb.unit = some u → ((s.part u.part).trcOpen && u.queue == (s.part u.part).trcQueue) = false

/-- The column of the turn is not in the delay slots of a branch: a control syllable is legal (R113). -/
def NoDelay (s : State) : Prop := s.tc.brdly = 0

/-- Every column of the mask has the bit of its flag set: this column's present flags, the others' of the cycle before
(R106). -/
def AllJoin (s : State) (bt : Fin 8) (m : BitVec 4) : Prop :=
  ∀ c : Fin 4, m.getLsbD c.val = true →
    (if s.turn.col = c then (s.tb.col c).ccs else (s.tb.col c).ccsOld).getLsbD bt.val = true

/-- The earlier results that the X fence waits for have made their last write (R243). -/
def Landed (s : State) (sc : Scope) : Prop :=
  ∀ f ∈ s.tb.inflight, (sc = .col → f.col = s.turn.col) → f.lastWrite ≤ s.tb.xcycle

/-- A branch is taken: two delay syllables, then the target (R113). -/
def branchTo (tgt : Word) (c : Column) : Column := { c with pc := c.pc + 1, brtgt := tgt, brdly := 2 }

/-- A level opens at the syllable of a loop (R115): count 0 runs the body once. -/
def opened (pc count : Word) (disp : BitVec 16) : LoopReg :=
  { lc := (if count = 0 then 0 else count - 1), ls := pc + 1, le := pc + disp.setWidth 32, act := true }

inductive ControlForm : Instr → XForm → Prop
  | xNop {h} : ControlForm (.xNop h) { hdr := h, srcs := [] }
  | xBr {h disp} : ControlForm (.xBr h disp)
      { hdr := h, srcs := [], need := fun s => NoDelay s ∧ Untraced s,
        col := fun s c => branchTo (s.tc.pc + disp.signExtend 32) c }
  | xJr {h a} : ControlForm (.xJr h a)
      { hdr := h, srcs := sPorts a, need := fun s => NoDelay s ∧ Untraced s, col := fun s c => branchTo (s.rS a) c }
  | xRet {h a} : ControlForm (.xRet h a)
      { hdr := h, srcs := sPorts a, need := fun s => NoDelay s ∧ Untraced s, col := fun s c => branchTo (s.rS a) c }
  | brq {h disp} : ControlForm (.brq h disp)
      { hdr := h, srcs := [8], need := fun s => NoDelay s ∧ Untraced s,
        col := fun s c => if (headVal s.tb.brq).getLsbD 0 then branchTo (s.tc.pc + disp.signExtend 32) c else c.next }
  | brqN {h disp} : ControlForm (.brqN h disp)
      { hdr := h, srcs := [8], need := fun s => NoDelay s ∧ Untraced s,
        col := fun s c => if (headVal s.tb.brq).getLsbD 0 then c.next else branchTo (s.tc.pc + disp.signExtend 32) c }
  | xLoop {h l a disp} : ControlForm (.xLoop h l a disp)
      { hdr := h, srcs := sPorts a, need := NoDelay,
        col := fun s c =>
          (if l then { c with loop1 := opened s.tc.pc (s.rS a) disp }
            else { c with loop0 := opened s.tc.pc (s.rS a) disp } : Column).next }
  | join {h b m} : ControlForm (.join h b m) { hdr := h, srcs := [], need := fun s => NoDelay s ∧ AllJoin s b m }
  | ccset {h b} : ControlForm (.ccset h b)
      { hdr := h, srcs := [], need := NoDelay,
        col := fun _ c => ({ c with ccsNext := c.ccsNext ||| BitVec.ofNat 8 (2 ^ b.val) } : Column).next }
  | ccclr {h b} : ControlForm (.ccclr h b)
      { hdr := h, srcs := [], need := NoDelay,
        col := fun _ c => ({ c with ccsNext := c.ccsNext &&& ~~~(BitVec.ofNat 8 (2 ^ b.val)) } : Column).next }
  | xPause {h n} : ControlForm (.xPause h n)
      { hdr := h, srcs := [], need := NoDelay, col := fun _ c => ({ c with hold := n.setWidth 12 } : Column).next }
  | xFin {h} : ControlForm (.xFin h)
      { hdr := h, srcs := [], need := NoDelay, col := fun _ c => ({ c with ended := true } : Column).next }
  | xFence {h k sc} : ControlForm (.xFence h k sc) { hdr := h, srcs := [], need := fun s => Landed s sc }

/-- `call`: the link, the address of the third syllable on, with latency 1, and a taken branch (R113). -/
def callResult (h : XHdr) (d : SDst) (disp : BitVec 16) : XResult :=
  { scalarTo h d 1 [] (fun s => s.tc.pc + 3) with
    need := fun s => NoDelay s ∧ Untraced s, col := fun s c => branchTo (s.tc.pc + disp.signExtend 32) c }

/-! ## Scratchpad (spec/10 R184-R187, R199; spec/12 R241; spec/13 R263) -/

/-- An access of the streams passes its checks, finds its slab free, and is not watched by the alias-check mode: every
element lies inside the 3 MiB, is aligned to its size, belongs to the unit's sets and not to the engines (the system context
checks no set and no owner). -/
structure SpOk (s : State) (wr : Bool) (size : Nat) (addrs : List Nat) : Prop where
  range : ∀ a ∈ addrs, a + size ≤ 3 * 2 ^ 20
  aligned : ∀ a ∈ addrs, a % size = 0
  set : s.turn.ctx.val < 2 → ∀ a ∈ addrs, (if wr then s.tb.mayWrite 0 (a / 4096) else s.tb.mayRead 0 (a / 4096)) = true
  owner : s.turn.ctx.val < 2 → ∀ a ∈ addrs, (s.core s.turn.core).owned (a / 4096) = false
  slab : (s.core s.turn.core).slabBusy s.cycle (addrs.map tileOf) = false
  unwatched : (s.part s.tb.part).aliasMode = false

/-- The bytes of the scratchpad of the core of the turn, little-endian. -/
def spNumber (s : State) (a n : Nat) : Nat := leNat ((upTo a n).map fun x => (s.core s.turn.core).sp.read x)

/-- A loaded element: its size, and its value extended to 32 bits. -/
def loadSize : XTy → Nat | .n8 => 1 | .i8 => 1 | .n16 => 2 | .i16 => 2 | .w32 => 4
def loadValue (t : XTy) (v : Nat) : Word :=
  match t with
  | .i8 => if 128 ≤ v then BitVec.ofNat 32 (v + (2 ^ 32 - 2 ^ 8)) else BitVec.ofNat 32 v
  | .i16 => if 32768 ≤ v then BitVec.ofNat 32 (v + (2 ^ 32 - 2 ^ 16)) else BitVec.ofNat 32 v
  | _ => BitVec.ofNat 32 v

/-- The address of a scalar access. -/
def scalarAddr (s : State) (a b : SSrc) : Nat := (s.rS a + s.rS b).toNat
/-- Lane l of a strided access lies at A + 4 l B, of an indexed one at A + 4 × lane l of B. -/
def stridedAddr (a b : Word) (l : Nat) : Nat := (a + BitVec.ofNat 32 (4 * l) * b).toNat
def indexedAddr (a : Word) (v : Vec) (l : Nat) : Nat := (a + 4 * lane v l).toNat
def laneAddrs (f : Nat → Nat) : List Nat := (upTo 0 32).map f

/-- The port has had the core cycles that a vector access needs before the one in which it issues: a word at each of k addresses of
one bank takes k of them (R184). -/
def PortReady (s : State) (addrs : List Nat) : Prop := portCycles addrs ≤ s.tb.xBusy + 1

inductive LoadForm : Instr → XResult → Prop
  | xLd {h cls ty d a b} : LoadForm (.xLd h cls ty d a b)
      { scalarTo h d 6 (sPorts a ++ sPorts b) (fun s => loadValue ty (spNumber s (scalarAddr s a b) (loadSize ty))) with
        need := fun s => SpOk s false (loadSize ty) [scalarAddr s a b] }
  | ldacq {h cls d a b} : LoadForm (.ldacq h cls d a b)
      { scalarTo h d 6 (sPorts a ++ sPorts b) (fun s => BitVec.ofNat 32 (spNumber s (scalarAddr s a b) 4)) with
        need := fun s => SpOk s false 4 [scalarAddr s a b] }
  | vld {h cls d a b} : LoadForm (.vld h cls d a b)
      { lanesTo h d 6 (sPorts a ++ sPorts b)
          (fun s l => BitVec.ofNat 32 (spNumber s (stridedAddr (s.rS a) (s.rS b) l) 4)) with
        need := fun s => SpOk s false 4 (laneAddrs (stridedAddr (s.rS a) (s.rS b))) ∧
          PortReady s (laneAddrs (stridedAddr (s.rS a) (s.rS b))) }
  | vldx {h cls d a b} : LoadForm (.vldx h cls d a b)
      { lanesTo h d 6 (sPorts a ++ vPorts b)
          (fun s l => BitVec.ofNat 32 (spNumber s (indexedAddr (s.rS a) (s.rV b) l) 4)) with
        need := fun s => SpOk s false 4 (laneAddrs (indexedAddr (s.rS a) (s.rV b))) ∧
          PortReady s (laneAddrs (indexedAddr (s.rS a) (s.rV b))) }

/-- The bytes an element puts at its address, the least significant first. -/
def putBytes (a n v : Nat) : List (Nat × Byte) := (upTo 0 n).map fun k => (a + k, BitVec.ofNat 8 (v / 2 ^ (8 * k)))

/-- The stores of a syllable wait for the end of its X cycle, in lane order (R199). -/
def storesNow (l : List (Nat × Byte)) (b : Bank) : Bank := { b with xstores := b.xstores ++ l }

inductive StoreForm : Instr → XForm → Prop
  | xSt {h cls ty a b c} : StoreForm (.xSt h cls ty a b c)
      { hdr := h, srcs := sPorts a ++ sPorts b ++ sPorts c,
        need := fun s => SpOk s true (loadSize ty) [scalarAddr s a b],
        upd := fun s => storesNow (putBytes (scalarAddr s a b) (loadSize ty) (s.rS c).toNat) }
  | vst {h cls a b c} : StoreForm (.vst h cls a b c)
      { hdr := h, srcs := sPorts a ++ sPorts b ++ vPorts c,
        need := fun s => SpOk s true 4 (laneAddrs (stridedAddr (s.rS a) (s.rS b))) ∧
          PortReady s (laneAddrs (stridedAddr (s.rS a) (s.rS b))),
        upd := fun s =>
          storesNow ((upTo 0 32).flatMap fun l => putBytes (stridedAddr (s.rS a) (s.rS b) l) 4 (lane (s.rV c) l).toNat) }
  | vstx {h cls a b c} : StoreForm (.vstx h cls a b c)
      { hdr := h, srcs := sPorts a ++ vPorts b ++ vPorts c,
        need := fun s => SpOk s true 4 (laneAddrs (indexedAddr (s.rS a) (s.rV b))) ∧
          PortReady s (laneAddrs (indexedAddr (s.rS a) (s.rV b))),
        upd := fun s =>
          storesNow ((upTo 0 32).flatMap fun l => putBytes (indexedAddr (s.rS a) (s.rV b) l) 4 (lane (s.rV c) l).toNat) }

/-! ## Domain registers (spec/08) -/

/-- The syllable of a column stands at the end of an active loop and is no delay syllable. -/
def endsLoop (c : Column) : Bool :=
  c.brdly == 0 && ((c.loop0.act && c.loop0.le == c.pc) || (c.loop1.act && c.loop1.le == c.pc))

/-- A domain syllable of n X cycles makes its column present nothing for the n - 1 that follow; at the end of a loop the
evaluation waits for the end of its execution (R143). -/
def holding (n : Nat) (c : Column) : Column :=
  { (if 2 ≤ n ∧ endsLoop c = true then { c with evalDue := true } else c.next : Column) with hold := BitVec.ofNat 12 (n - 1) }

/-- The domain register an instruction reads. -/
def domReg (s : State) (a : Fin 32) : Dom := s.tb.dom.d.get a

/-- Membership by R140: the window up to LO + 63, every value above it to HI. -/
def domHas (d : Dom) (x : Int) : Prop :=
  d.lo.toInt ≤ x ∧ x ≤ d.hi.toInt ∧ (x ≤ d.lo.toInt + 63 → d.win.getLsbD (x - d.lo.toInt).toNat = true)
def domHasB (d : Dom) (x : Int) : Bool :=
  decide (d.lo.toInt ≤ x) && decide (x ≤ d.hi.toInt) &&
    (!decide (x ≤ d.lo.toInt + 63) || d.win.getLsbD (x - d.lo.toInt).toNat)

/-- What R140 says of every value the device writes. -/
structure Canonical (d : Dom) : Prop where
  order : d.lo.toInt ≤ d.hi.toInt
  least : d.win.getLsbD 0 = true
  greatest : d.hi.toInt - d.lo.toInt ≤ 63 → d.win.getLsbD (d.hi.toInt - d.lo.toInt).toNat = true
  above : d.hi.toInt - d.lo.toInt ≤ 63 → ∀ k : Nat, d.hi.toInt - d.lo.toInt < (k : Int) → d.win.getLsbD k = false

/-- Members of a register, saturated (R151): those of the window and those above it. -/
def domCount (d : Dom) : Word :=
  BitVec.ofNat 32 (min (2 ^ 32 - 1)
    (((upTo 0 64).filter fun k => decide (k ≤ (d.hi.toInt - d.lo.toInt).toNat) && d.win.getLsbD k).length +
      (d.hi.toInt - d.lo.toInt - 63).toNat))

/-- Column 0, whose domain unit this is (R142). -/
def Column0 (s : State) : Prop := s.turn.col = 0

/-- A read of a domain register: a scalar after two X cycles (R143, R151). -/
def domReadResult (h : XHdr) (d : SDst) (v : State → Word) : XResult :=
  { scalarTo h d 2 [] v with need := Column0, col := fun _ c => holding 1 c }

inductive DomReadForm : Instr → XResult → Prop
  | dlo {h d a} : DomReadForm (.dlo h d a) (domReadResult h d fun s => (domReg s a).lo)
  | dhi {h d a} : DomReadForm (.dhi h d a) (domReadResult h d fun s => (domReg s a).hi)
  | dsize {h d a} : DomReadForm (.dsize h d a) (domReadResult h d fun s => domCount (domReg s a))
  | dget {h d a w} : DomReadForm (.dget h d a w)
      (domReadResult h d fun s =>
        if w = 0 then (domReg s a).lo else if w = 1 then (domReg s a).hi
        else if w = 2 then (domReg s a).win.extractLsb' 0 32 else (domReg s a).win.extractLsb' 32 32)
  | dtestIn {h p a v} : DomReadForm (.dtestIn h p a v)
      { predTo h p 2 (sPorts v) (fun s => domHasB (domReg s a) (s.rS v).toInt) with
        need := Column0, col := fun _ c => holding 1 c }
  | dtestOne {h p a} : DomReadForm (.dtestOne h p a)
      { predTo h p 2 [] (fun s => decide ((domReg s a).lo = (domReg s a).hi)) with
        need := Column0, col := fun _ c => holding 1 c }

/-- A syllable whose push comes l X cycles after its issue: an entry that writes nothing carries it. -/
structure XPushesAt (l : Nat) (r : XForm) (s t : State) : Prop where
  took : XTook r s t
  flight : t.tb.inflight = s.tb.inflight ++
    (match r.hdr.push with | none => [] | some f => [flightOf s 0 .pred 1 l 0 (some f)])
  tokens : TokensOwed r.hdr.wait r.hdr.push s.tb t.tb
  agenda : t.agenda = s.agenda

/-- The stack and table instructions and an empty `dprop` (R158, R161): the X cycles they take, what they ask of the
checkpoint stack, and what they leave. -/
inductive StackForm : Instr → Nat → XForm → Prop
  | dsave {h} : StackForm (.dsave h) 4
      { hdr := h, srcs := [], need := fun s => Column0 s ∧ s.tb.dom.stack.length < 8, col := fun _ c => holding 4 c,
        upd := fun _ b =>
          { b with dom := { b.dom with stack :=
              { d := b.dom.d, fill := b.dom.table.length, dstat := b.dom.dstat,
                pending := if b.dom.bnd then b.dom.queue else [] } :: b.dom.stack } } }
  | drest {h} : StackForm (.drest h) 4
      { hdr := h, srcs := [], need := fun s => Column0 s ∧ 0 < s.tb.dom.stack.length, col := fun _ c => holding 4 c,
        upd := fun _ b => { b with dom := b.dom.restore } }
  | ddrop {h} : StackForm (.ddrop h) 2
      { hdr := h, srcs := [], need := fun s => Column0 s ∧ 0 < s.tb.dom.stack.length, col := fun _ c => holding 2 c,
        upd := fun _ b => { b with dom := { b.dom with stack := b.dom.stack.tail } } }
  | dclr {h} : StackForm (.dclr h) 2
      { hdr := h, srcs := [], need := Column0, col := fun _ c => holding 2 c,
        upd := fun _ b => { b with dom := { b.dom with table := [], queue := [], stack := [], bnd := false } } }
  | dprop {h} : StackForm (.dprop h) 2
      { hdr := h, srcs := [], need := fun s => Column0 s ∧ s.tb.dom.bnd = false, col := fun _ c => holding 2 c }

/-- The relations and constants: the ports they pop, the execution of their steps on the registers (R144-R150), and the
entry that a `.keep` makes. -/
inductive NarrowsForm : Instr → XHdr → List Nat → (State → DX) → (State → Option Standing) → Prop
  | dadd {h keep c a b} : NarrowsForm (.dadd h keep c a b) h []
      (fun s =>
        let x := s.tb.dom.start
        let x := x.narrow c (domSum (x.get a) (x.get b))
        let x := x.narrow a (domDiff (x.get c) (x.get b))
        x.narrow b (domDiff (x.get c) (x.get a)))
      (fun _ => if keep then some { op := .add, c := c, a := a, b := b, k := 0 } else none)
  | dsub {h keep c a b} : NarrowsForm (.dsub h keep c a b) h []
      (fun s =>
        let x := s.tb.dom.start
        let x := x.narrow c (domDiff (x.get a) (x.get b))
        let x := x.narrow a (domSum (x.get c) (x.get b))
        x.narrow b (domDiff (x.get a) (x.get c)))
      (fun _ => if keep then some { op := .sub, c := c, a := a, b := b, k := 0 } else none)
  | dmulc {h keep c a k} : NarrowsForm (.dmulc h keep c a k) h (sPorts k)
      (fun s => relSteps .mulc c a 0 (s.rS k) s.tb.domLanes s.tb.dom.start)
      (fun s => if keep then some { op := .mulc, c := c, a := a, b := 0, k := s.rS k } else none)
  | dlt {h keep a b} : NarrowsForm (.dlt h keep a b) h []
      (fun s =>
        let x := s.tb.dom.start
        let x := x.narrow a (.interval (-2147483648) ((x.get b).hi.toInt - 1))
        x.narrow b (.interval ((x.get a).lo.toInt + 1) 2147483647))
      (fun _ => if keep then some { op := .lt, c := 0, a := a, b := b, k := 0 } else none)
  | dle {h keep a b} : NarrowsForm (.dle h keep a b) h []
      (fun s =>
        let x := s.tb.dom.start
        let x := x.narrow a (.interval (-2147483648) (x.get b).hi.toInt)
        x.narrow b (.interval (x.get a).lo.toInt 2147483647))
      (fun _ => if keep then some { op := .le, c := 0, a := a, b := b, k := 0 } else none)
  | deq {h keep a b} : NarrowsForm (.deq h keep a b) h []
      (fun s =>
        let x := s.tb.dom.start
        let x := x.narrow a (x.get b).set
        x.narrow b (x.get a).set)
      (fun _ => if keep then some { op := .eq, c := 0, a := a, b := b, k := 0 } else none)
  | dne {h keep a b} : NarrowsForm (.dne h keep a b) h []
      (fun s => relSteps .ne 0 a b 0 s.tb.domLanes s.tb.dom.start)
      (fun _ => if keep then some { op := .ne, c := 0, a := a, b := b, k := 0 } else none)
  | delem {h keep a i t} : NarrowsForm (.delem h keep a i t) h []
      (fun s => relSteps .elem 0 a i (BitVec.ofNat 32 t.val) s.tb.domLanes s.tb.dom.start)
      (fun _ => if keep then some { op := .elem, c := 0, a := a, b := i, k := BitVec.ofNat 32 t.val } else none)
  | dint {h a lo hi} : NarrowsForm (.dint h a lo hi) h (sPorts lo ++ sPorts hi)
      (fun s =>
        if (s.rS lo).toInt ≤ (s.rS hi).toInt then s.tb.dom.start.narrow a (.interval (s.rS lo).toInt (s.rS hi).toInt)
        else { s.tb.dom.start with fail := some a })
      (fun _ => none)
  | dexcl {h a v} : NarrowsForm (.dexcl h a v) h (sPorts v) (fun s => s.tb.dom.start.remove a (s.rS v).toInt) (fun _ => none)
  | dfix {h a v} : NarrowsForm (.dfix h a v) h (sPorts v)
      (fun s => s.tb.dom.start.narrow a (.interval (s.rS v).toInt (s.rS v).toInt)) (fun _ => none)
  | dset {h a lo hi} : NarrowsForm (.dset h a lo hi) h (sPorts lo ++ sPorts hi)
      (fun s =>
        match domOfMem (s.rS lo).toInt (s.rS hi).toInt (fun _ => true) with
        | some t => s.tb.dom.start.put a t
        | none => { s.tb.dom.start with fail := some a })
      (fun _ => none)
  | dsetw {h a lo w0 w1} : NarrowsForm (.dsetw h a lo w0 w1) h (sPorts lo ++ sPorts w0 ++ sPorts w1)
      (fun s =>
        match domOfMem (s.rS lo).toInt (min ((s.rS lo).toInt + 63) 2147483647)
          (fun x => ((s.rS w1).toNat * 2 ^ 32 + (s.rS w0).toNat).testBit (x - (s.rS lo).toInt).toNat) with
        | some t => s.tb.dom.start.put a t
        | none => { s.tb.dom.start with fail := some a })
      (fun _ => none)

/-- The domain state after an execution that did not fail: its registers and INX are written, the standing entries that name
a narrowed register wake, and a `.keep` enters its own entry afterwards (R153, R154). -/
def domAfter (d : DomState) (x : DX) (keep : Option Standing) : DomState :=
  match keep with
  | none => d.commit none x
  | some e => { d.commit none x with table := d.table ++ [e] }

/-- An execution that did not fail and woke nothing: BND and DRUN are 0 after it (R154). -/
def settled (h : XHdr) (srcs : List Nat) (x : State → DX) (keep : State → Option Standing) : XForm :=
  { hdr := h, srcs := srcs, col := fun _ c => holding 2 c
    need := fun s => Column0 s ∧ (x s).fail = none ∧ (domAfter s.tb.dom (x s) (keep s)).queue = [] ∧
      ((keep s).isSome = true → s.tb.dom.table.length < 64)
    upd := fun s b => { b with dom := { domAfter s.tb.dom (x s) (keep s) with bnd := false, drun := 0 } } }

/-- An execution whose narrowings wake entries: the run is due after the syllable's two X cycles, with the limit of PROPLIM
at issue, counting from 0; an evaluation of a loop waits for its end (R143, R154). -/
def running (h : XHdr) (srcs : List Nat) (x : State → DX) (keep : State → Option Standing) : XForm :=
  { hdr := h, srcs := srcs, col := fun _ c => holding 2 c
    need := fun s => Column0 s ∧ (x s).fail = none ∧ (domAfter s.tb.dom (x s) (keep s)).queue ≠ [] ∧
      ((keep s).isSome = true → s.tb.dom.table.length < 64)
    upd := fun s b =>
      { b with dom :=
          { domAfter s.tb.dom (x s) (keep s) with
            bnd := false
            run := some
              { n := 0, limit := s.tb.dom.proplim.toNat, pc := s.tc.pc, delay := s.tc.brdly != 0,
                start := s.tb.xcycle + 2, word := s.turn.word.setWidth 64 } } } }

/-- What R159 leaves of the domain state when the initiating execution fails at register r: no register is written. -/
def domFailed (d : DomState) (r : Fin 32) (xcycle : Nat) : DomState :=
  { d with
    queue := [], bnd := false, fail := true, failcnt := d.failcnt + 1, freg := r, fent := 0xFF, drun := 0, run := none,
    failAt := some xcycle }

/-- A failure with a redirect: FAILPC is not 0, and the syllable is no delay syllable (R159, R160). -/
def redirected (h : XHdr) (srcs : List Nat) (x : State → DX) (keep : State → Option Standing) (r : Fin 32) : XForm :=
  { hdr := h, srcs := srcs
    col := fun s c => { branchTo s.tb.dom.failpc c with hold := 1 }
    need := fun s => Column0 s ∧ (x s).fail = some r ∧ s.tb.dom.failpc ≠ 0 ∧ NoDelay s ∧
      ((keep s).isSome = true → s.tb.dom.table.length < 64)
    upd := fun s b => { b with dom := domFailed s.tb.dom r s.tb.xcycle } }

/-- A failure that traps: FAILPC is 0, or the syllable is a delay syllable (R159, R160). -/
def failTraps (h : XHdr) (srcs : List Nat) (x : State → DX) (keep : State → Option Standing) (r : Fin 32) : XForm :=
  { hdr := h, srcs := srcs, col := fun _ c => { c.next with hold := 1 }
    need := fun s => Column0 s ∧ (x s).fail = some r ∧ (s.tb.dom.failpc = 0 ∨ ¬NoDelay s) ∧
      ((keep s).isSome = true → s.tb.dom.table.length < 64)
    upd := fun s b => { b with dom := domFailed s.tb.dom r s.tb.xcycle } }

/-! ## System (spec/18 R291, R293, R296) -/

/-- The A and the handler's accesses are done: `eret` may end the handler (R289). -/
inductive SystemForm : Instr → XForm → Prop
  | xSysw {h a cr} : SystemForm (.xSysw h a cr)
      { hdr := h, srcs := sPorts a, need := fun s => s.mayWriteReg cr.toNat = true ∧ s.resetBusy cr.toNat = false,
        upd := fun s b => { b with xsysw := b.xsysw ++ [(s.turn.col, cr, s.rS a)] } }
  | dbgstop {h n} : SystemForm (.dbgstop h n)
      { hdr := h, srcs := [], need := fun s => s.turn.ctx.val < 2 ∧ (s.part s.tb.part).stopen = false }
  | yield {h} : SystemForm (.yield h) { hdr := h, srcs := [], need := fun s => s.turn.ctx.val < 2 ∧ s.tb.detm = true }

/-- `sysr`: the value at issue, two X cycles later (R293); a read of SFCLO latches SFCHI (spec/06 R109). -/
def sysrResult (h : XHdr) (d : SDst) (cr : BitVec 12) : XResult :=
  { scalarTo h d 2 [] (fun s => (s.readReg cr.toNat).getD 0) with
    need := fun s => (s.readReg cr.toNat).isSome = true
    upd := fun s b => if cr = 0x040 then { b with sfchi := (s.sfc b).extractLsb' 32 16 } else b }

end Sys2Proof.Claims
end

