-- ==== Sys2Proof/Claims/XSpecial.lean ====
section
/-! DEFINITION. Claims/XSpecial.lean: the instructions of stream X whose effect is not one result of the bank alone: the
unordered sum, `vdq`, the accumulator read, `dpick`, the system instructions, and the edge of a trap. -/
namespace Sys2Proof.Claims
open Sys2Proof Sys2Proof.Machine

/-! ## Results with an effect beside them -/

/-- A full binary tree of rounded additions: each node adds two of the sums that are left (spec/07 R130). -/
inductive AnyTree (rm : RMode) : List Word → FFlags → Word × FFlags → Prop
  | done {x f} : AnyTree rm [x] f (x, f)
  | node {l x y m f r} : l.Perm (x :: y :: m) → AnyTree rm (m ++ [(fadd32 rm x y).1]) (f ||| (fadd32 rm x y).2) r →
      AnyTree rm l f r

/-- The result of `vredsum.u` once its tree is given. -/
def treeResult (h : XHdr) (d : SDst) (a : VSrc) (r : Word × FFlags) : XResult :=
  { scalarTo h d 16 (vPorts a) (fun _ => r.1) with flags := fun _ => r.2 }

/-- The result of `vdq` (spec/07 R135). -/
def dqResult (h : XHdr) (f : DqFmt) (p : Fin 8) (d : VDst) (a b c : VSrc) : XResult :=
  flaggedTo h d 3 (vPorts a ++ vPorts b ++ vPorts c) fun s l =>
    ((vdqLane f p.val (s.rV a) (s.rV b) (s.rV c) l).1, (vdqLane f p.val (s.rV a) (s.rV b) (s.rV c) l).2.1)

/-- A lane of `vdq` decodes an element of a reserved T5 byte: 243 to 255 (spec/03 R51). -/
def decodesReserved (f : DqFmt) (p : Nat) (v : Vec) (l : Nat) : Prop := f = .t5 ∧ 243 ≤ field v (8 * ((32 * p + l) / 5)) 8

/-- The state in which `vdq` leaves its one event: no reserved byte, none; else the event of the lowest lane, after which
nothing but the provenance log of the die differs. -/
structure DqEvent (f : DqFmt) (p : Nat) (v : Vec) (s u : State) : Prop where
  none : (∀ l, l < 32 → ¬decodesReserved f p v l) → u = s
  one : ∀ l, l < 32 → decodesReserved f p v l → (∀ k, k < l → ¬decodesReserved f p v k) →
    u = s.provRecord (dieOf s.turn.core)
      (provBits (s.sfc s.tb).toNat ((dieOf s.turn.core).val - (s.partAt s.turn.core).val) (16 + 64 * s.turn.col.val)
        (inDie s.turn.core) s.tc.pc.toNat 4 0xFF (7 * 16) 0 0 0 l 0)

/-- A bank may use the accumulators: it owns them, or none is live and it left none behind; the system context may always
(spec/18 R297). -/
def AccUsable (s : State) : Prop :=
  s.turn.ctx.val = 2 ∨ (s.core s.turn.core).accOwn.val = s.turn.ctx.val ∨
    (((s.core s.turn.core).accOwn.val = 2 ∨ (s.core s.turn.core).acclive = 0) ∧
      (if s.turn.ctx.val = 0 then (s.core s.turn.core).spill0 else (s.core s.turn.core).spill1) = 0)

/-- The state with the accumulators taken by the bank of the turn; the system context takes nothing. -/
def accTaken (s : State) : State :=
  if s.turn.ctx.val = 2 then s else s.modCore s.turn.core fun c => { c with accOwn := s.turn.ctx }

/-- `accrd`: the count word is in flight beside the row, and the row carries the push (spec/11 R227). -/
structure AccRead (h : XHdr) (d : VDst) (acc : Fin 4) (row : SSrc) (cnt : Byte) (s t : State) : Prop where
  took : XTook { hdr := h, srcs := sPorts row } (accTaken s) t
  flight : t.tb.inflight = s.tb.inflight ++
    [flightOf s cnt .scalar ((s.rowCount s.turn.core acc).setWidth 1024) 12 0 none,
      { flightOf s (vdstCode d) .vector
          (((s.core s.turn.core).acc.get acc).rows.toList.getD ((s.rS row).toNat % 32) 0) 12 0 h.push with
        seq := s.tb.nextSeq + 1 }]
  tokens : TokensOwed h.wait h.push s.tb t.tb
  agenda : t.agenda = s.agenda

/-! ## `dpick` (spec/08 R149, R154) -/

/-- The execution of `dpick`: the register becomes the singleton of its least member. -/
def picked (s : State) (a : Fin 32) : DX :=
  s.tb.dom.start.put a (Dom.singleton (domReg s a).lo)

/-- `dpick`: the least member after two X cycles with the push; the register is that member alone. When that wakes no entry,
BND and DRUN are 0. -/
def pickSettled (h : XHdr) (d : SDst) (a : Fin 32) : XResult :=
  { scalarTo h d 2 [] (fun s => (domReg s a).lo) with
    need := fun s => Column0 s ∧ (domAfter s.tb.dom (picked s a) none).queue = []
    upd := fun s b => { b with dom := { domAfter s.tb.dom (picked s a) none with bnd := false, drun := 0 } }
    col := fun _ c => holding 2 c }

/-- When it wakes entries, the run is due after its two X cycles. -/
def pickRunning (h : XHdr) (d : SDst) (a : Fin 32) : XResult :=
  { scalarTo h d 2 [] (fun s => (domReg s a).lo) with
    need := fun s => Column0 s ∧ (domAfter s.tb.dom (picked s a) none).queue ≠ []
    upd := (running h [] (fun s => picked s a) fun _ => none).upd
    col := (running h [] (fun s => picked s a) fun _ => none).col }

/-! ## The edge of a trap (spec/00 R10, spec/18 R282, R285) -/

/-- SCAUSE: the cause, the bank, the stream and the column (spec/18 R285, R302). -/
def scauseOf (cause : Byte) (k : Nat) (st : Stream) (col : Nat) : Word :=
  BitVec.ofNat 32 (cause.toNat + 256 * k + 512 * (match st with | .a => 0 | .x => 1 | .m => 2) + 2048 * col)

/-- No woken execution of the domain unit of a place is under way, and none has raised a trap (spec/08 R156, R157). -/
structure PlaceIdle (g : Fin 512) (k : Fin 3) (s : State) : Prop where
  due : ∀ x ∈ s.agenda, ¬(x.what = .propagationRun ∧ x.args.g = g ∧ x.args.k = k)
  raised : (s.bank g k).dom.trapDue = none
def NoExecution (s : State) : Prop := PlaceIdle s.turn.core s.turn.ctx s

/-- A loop evaluation that a domain syllable owes is made (spec/08 R143). -/
def evaluated (c : Column) : Column := if c.evalDue = true then { c.next with evalDue := false } else c
/-- The columns of a bank at an edge: what they owe is made, unless a run is under way. -/
def columnsAtEdge (b : Bank) : Bank := if b.dom.run.isSome = true then b else { b with cols := b.cols.map evaluated }

/-- The trap edge for the word of the turn of a unit, from the state u that the word leaves. -/
structure TrapEdge (cause : Byte) (d0 d1 : DWord) (u t : State) : Prop where
  handling : ∃ k : Fin 2, k.val = u.turn.ctx.val ∧ (t.core u.turn.core).handling = some k
  scause : (t.core u.turn.core).scause = scauseOf cause u.turn.ctx.val u.turn.stream u.turn.col.val
  frozen : t.bank u.turn.core u.turn.ctx =
    { columnsAtEdge (u.tb.holdSfc u.cycle) with
      st := .trapped
      trap := some { cause := cause, strm := u.turn.stream, col := u.turn.col, word := u.turn.word, detail0 := d0,
                     detail1 := d1 } }
  banks : ∀ k, k ≠ u.turn.ctx → t.bank u.turn.core k = u.bank u.turn.core k
  cores : ∀ g, g ≠ u.turn.core → t.core g = u.core g
  memory : SameMemory u t
  handler : { at_ := u.cycle + 264, what := .handlerStart, args := EvArgs.at u.turn.core u.turn.ctx } ∈ t.agenda

/-- A unit has stopped with fault and a cause (spec/18 R294): its streams present nothing more, what it has in flight is
gone, and it completes one cycle later. -/
structure StoppedWith (cause : Byte) (g : Fin 512) (k : Fin 3) (s t : State) : Prop where
  status : (t.bank g k).status = 2 ∧ (t.bank g k).reason = cause
  ended : (t.bank g k).aEnded = true ∧ (t.bank g k).mEnded = true ∧ (t.bank g k).xEnded = true
  inflight : (t.bank g k).inflight = [] ∧ (t.bank g k).xstores = []
  banks : ∀ j, j ≠ k → (t.bank g j) = s.bank g j
  cores : ∀ g', g' ≠ g → t.core g' = s.core g'
  memory : SameMemory s t
  completes : { at_ := s.cycle + 1, what := .unitCompletion, args := EvArgs.at g k } ∈ t.agenda

/-- The state after a `trap` or `dbgstop` has moved its column on. -/
def columnNext (s : State) : State := s.modTc Column.next

/-! ## `eret` (spec/18 R289) -/

/-- The handler is done: its A stream has ended and its stores, atomics and reductions have performed. -/
def HandlerDone (s : State) : Prop :=
  s.turn.ctx.val = 2 ∧ s.turn.col = 0 ∧ s.tb.aEnded = true ∧
    (∀ o ∈ s.tb.ops, o.performed = true ∨ (∃ n, o.body = .load n) ∨ ∃ l, o.body = .gather l)

/-- The unit that resumes: it has no fault outstanding and no cancel, its saved image is sound, and `ctxsw` did not name
the other bank. -/
structure Resumes (s : State) (k : Fin 2) (b : Bank) (r : SaveRead) : Prop where
  handling : (s.core s.turn.core).handling = some k
  bank : b = s.bank s.turn.core (k.castLE (by decide))
  unit : ∃ u, b.unit = some u ∧ saveOk r u = true
  cancelled : b.cancelled = false
  replay : b.replay = []
  image : r = s.saveRead (s.partAt s.turn.core) (s.saveVA s.turn.core k)
  stays : (s.core s.turn.core).ctxsw = none

structure Resumed (s t : State) (k : Fin 2) (b : Bank) (r : SaveRead) : Prop where
  handling : (t.core s.turn.core).handling = none ∧ (t.core s.turn.core).active = k
  system : t.bank s.turn.core 2 = s.tb.endSystem
  bank : ∃ skip pend, t.bank s.turn.core (k.castLE (by decide)) =
    { b.reload r with st := .ready, trap := none, bpSkip := skip, pending := pend }
  cores : ∀ g, g ≠ s.turn.core → t.core g = s.core g
  memory : SameMemory s t
  starts : { at_ := s.cycle + 264, what := .bankSwitchTslice,
             args := { EvArgs.at s.turn.core (k.castLE (by decide)) with flag := true } } ∈ t.agenda

end Sys2Proof.Claims
end

