-- ==== Sys2Proof/Claims/StreamEvents.lean ====
section
/-! DEFINITION. Claims/StreamEvents.lean: what the steps between the words of a stream do: landings, tokens, queue entries,
bounds and stamps, handlers, register writes with a row of their own, accesses at their owners, and page faults. -/
namespace Sys2Proof.Claims
open Sys2Proof Sys2Proof.Machine

/-- What a step asks of the state, and what its next state is. -/
structure Event where
  need : State → Prop := fun _ => True
  holds : State → State → Prop

/-- A step whose next state is given whole. -/
def becomes (f : State → State) : Event := { holds := fun s t => t = f s }
def becomesIf (need : State → Prop) (f : State → State) : Event := { need := need, holds := fun s t => t = f s }

/-- A step is due, n cycles from the state s. -/
def Planned (s t : State) (n : Nat) (i : Instr) (a : EvArgs) : Prop := { at_ := s.cycle + n, what := i, args := a } ∈ t.agenda

/-! ## Landings (spec/00 R6, spec/06 R100, R102, R104) -/

/-- The bank of the step's place. -/
def evBank (s : State) : Bank := s.bank s.ev.g s.ev.k

/-- The end of an X issue cycle: the place moves on by one, what has been written is gone from flight, the stores of the
cycle stand in the scratchpad, and the CCS flags move on; nothing outside the core changes. -/
structure XCycleEnds (s t : State) : Prop where
  cycle : (t.bank s.ev.g s.ev.k).xcycle = (evBank s).xcycle + 1
  flight : (t.bank s.ev.g s.ev.k).inflight = (evBank s).inflight.filter fun f => decide ((evBank s).xcycle < f.lastWrite)
  stores : (t.bank s.ev.g s.ev.k).xstores = []
  scratch : (t.core s.ev.g).sp = (evBank s).xstores.foldl (fun m x => m.write x.1 x.2) (s.core s.ev.g).sp
  ccs : ∀ c, ((t.bank s.ev.g s.ev.k).col c).ccs = ((evBank s).col c).ccsNext ∧
    ((t.bank s.ev.g s.ev.k).col c).ccsOld = ((evBank s).col c).ccs
  cores : ∀ g, g ≠ s.ev.g → t.core g = s.core g
  memory : t.hbm = s.hbm ∧ t.host = s.host

/-- A scalar result whose latency has passed stands in lx, and two X cycles later in its register. -/
def scalarLands (f : Flight) : Event where
  need s := (evBank s).xsysw = [] ∧ (evBank s).inflight = [f] ∧ f.kind = .scalar ∧ 0 < f.dst.toNat ∧ f.dst.toNat < 56 ∧
    f.land + 2 = (evBank s).xcycle
  holds s t := ((t.bank s.ev.g s.ev.k).col f.col).x.toList[f.dst.toNat]? = some (f.val.setWidth 32)
def lxLands (f : Flight) : Event where
  need s := (evBank s).xsysw = [] ∧ (evBank s).inflight = [f] ∧ f.kind = .scalar ∧ f.land = (evBank s).xcycle
  holds s t := ((t.bank s.ev.g s.ev.k).col f.col).lx = f.val

/-- A travelling token reaches its consumer (R104). -/
def tokenArrives (b : Bank) (f : Fin 16) : Bank :=
  { b with flags := b.flags.set f.val { b.flag f with travel := (b.flag f).travel - 1, held := (b.flag f).held + 1 } }

/-- The first entry of a number becomes poppable. -/
def entryReady (id : Nat) (l : List QEntry) : List QEntry :=
  updateFirst (fun (e : QEntry) => e.id == id) (fun (e : QEntry) => { e with ready := true }) l

/-- The push of a word that retires later. -/
def pushed (s : State) (f : Fin 16) : State := (s.modBank s.ev.g s.ev.k fun b => { b with pa := b.pa + 1 }).pushToken s.ev.g s.ev.k (some f)

/-- A value that a register takes when its access has returned. -/
def registerTakes (b : Bank) (o : AOp) (n : Fin 32) (v : DWord) : Bank :=
  { b with ops := b.ops.filter fun x => x.id != o.id, a := if h : n.val < 28 then b.a.set n.val v else b.a }

/-! ## Propagation (spec/08 R154-R157) -/

/-- The lanes of column 0's vector registers as they stand: nothing lands while X is frozen (R147). -/
def heldLanes (b : Bank) (n : Nat) : Vec := if h : n < 28 then (b.col 0).v[n] else 0
/-- One woken execution of a run: its relation over the domains it names. -/
def runStep (b : Bank) (en : Standing) (q : List Nat) (r : DomRun) : DX :=
  relSteps en.op en.c en.a en.b en.k (heldLanes b) ({ b.dom with queue := q, run := some { r with n := r.n + 1 } } : DomState).start
def runAfter (b : Bank) (e : Nat) (en : Standing) (q : List Nat) (r : DomRun) : DomState :=
  ({ b.dom with queue := q, run := some { r with n := r.n + 1 } } : DomState).commit (some e) (runStep b en q r)
structure RunsOn (e : Nat) (en : Standing) (q : List Nat) (r : DomRun) (s : State) : Prop where
  running : (evBank s).st = .running
  raised : (evBank s).dom.trapDue = none
  run : (evBank s).dom.run = some r
  queue : (evBank s).dom.queue = e :: q
  entry : (evBank s).dom.table[e]? = some en
def withDom (d : DomState) (b : Bank) : Bank := { b with dom := d }
/-- A run is over: column 0 makes the loop evaluation that waited for it (R143). -/
def runOver (b : Bank) : Bank := b.modCol 0 evaluated
/-- A woken execution that fails leaves the registers as they were and names its entry and the executions so far (R159). -/
def failedRun (d : DomState) (f : Fin 32) (e n : Nat) : DomState :=
  { d with
    bnd := false, fail := true, failcnt := d.failcnt + 1, freg := f, fent := BitVec.ofNat 8 e, drun := BitVec.ofNat 16 n,
    run := none, queue := [], failAt := none }
/-- Column 0 goes on after a failure as if the initiating syllable at pc were a taken branch (R159, R160). -/
def failBranch (pc tgt : Word) (c : Column) : Column := { c with pc := pc + 1, brtgt := tgt, brdly := 2, evalDue := false }

/-! ## Traps of a place (spec/18 R282, R284) -/

/-- A unit's bank has taken a trap at its A stream, and its handler starts 264 cycles later. -/
structure Trapped (cause : Byte) (d0 d1 : DWord) (g : Fin 512) (k : Fin 2) (s t : State) : Prop where
  state : (t.bank g (k.castLE (by decide))).st = .trapped
  trap : ∃ w, (t.bank g (k.castLE (by decide))).trap =
    some { cause := cause, strm := .a, col := 0, word := w, detail0 := d0, detail1 := d1 }
  handling : (t.core g).handling = some k
  handler : Planned s t 264 .handlerStart (EvArgs.at g (k.castLE (by decide)))
  cores : ∀ g', g' ≠ g → t.core g' = s.core g'
  memory : SameMemory s t

/-- No event of the unit of a place is traced (spec/22 R330). -/
def PlaceUntraced (b : Bank) (s : State) : Prop :=
  ∀ u, b.unit = some u → ((s.part u.part).trcOpen && u.queue == (s.part u.part).trcQueue) = false

/-- A cause that waits for the next A word of its unit (R284). -/
def waits (cause : Byte) (d0 d1 : DWord) (b : Bank) : Bank :=
  { b with pending := b.pending ++ [{ cause := cause, detail0 := d0, detail1 := d1 }] }

/-! ## Accesses at their owners (spec/09 R169-R171, spec/12 R239-R252) -/

/-- An access reaches its owner for the first time, and every one of its pages is at hand with the rights it asks for. -/
structure Arrives (o : AOp) (s : State) : Prop where
  found : (evBank s).ops.find? (fun x => x.id == s.ev.id) = some o
  open_ : o.performed = false ∧ o.fault = 0
  fresh : o.xlat = [] ∧ o.doneTo = 0 ∧ o.got = [] ∧ s.ev.words = []
  bytes : o.vas ≠ []
  pages : ∀ x ∈ pagesOf o.vas, s.tlbMiss (evBank s).part x = none ∧ s.pageFaultKind (evBank s).part x o.body.writes = none
  leaf : (s.partOf (evBank s).part o.vas).1 = o.vas

/-- It has all it needs to perform: acquires before it are over, no earlier access of its stream precedes it, none races with it, its
bytes lie at no peer and no merged reduction is pending. -/
structure MayPerform (o : AOp) (s : State) : Prop extends Arrives o s where
  order : ∀ i ∈ o.after, ∀ x ∈ (evBank s).live, x.id ≠ i
  earlier : ∀ x ∈ (evBank s).live, x.id < o.id → s.follows (evBank s).part o.cls o.body o.vas x = false
  here : ∀ v ∈ o.vas, ∀ a off, s.locate (evBank s).part v ≠ .peer a off
  merges : ∀ d k, (s.stack d k).merges = []
  sound : s.poisonIds (evBank s).part o.vas = []
  races : ∀ x ∈ (evBank s).ops, s.races (evBank s).part o x o.vas = false

/-- The way back of a value: a page without the C attribute costs a load 180 cycles more (spec/06 R356). -/
def wayBack (o : AOp) (s : State) : Nat := s.oneWay s.ev.g o.va.toNat + s.hbmTime (evBank s).part o.va.toNat

/-- The access has performed with a value, and retires n cycles later. -/
structure Performed (o : AOp) (v : Vec) (n : Nat) (s t : State) : Prop where
  done : ∀ x ∈ (t.bank s.ev.g s.ev.k).ops, x.id = o.id → x.performed = true ∧ x.confirmed = true ∧ x.result = v
  listed : ((t.bank s.ev.g s.ev.k).ops.map fun x => x.id) = (evBank s).ops.map fun x => x.id
  retires : Planned s t n .aWordRetire { EvArgs.at s.ev.g s.ev.k with id := o.id }

/-- The bytes of an access lie one after the other in a die's memory and are not held for the phase's seal. -/
def InDie (p : Fin 8) (va n : Nat) (d : Fin 8) (pa : Nat) (s : State) : Prop :=
  ∀ i, i < n → ∃ a, s.locate p (va + i) = .dev d (pa + i) a ∧ attrIRR a = false

/-- Bytes stand in a die's memory, and every other byte of every memory reads as before. -/
structure StoredAt (d : Fin 8) (pa : Nat) (l : List Byte) (s t : State) : Prop where
  bytes : ∀ i, i < l.length → t.hbm.read (hbmKey d (pa + i)) = l[i]?.getD 0
  hbm : ∀ a, (∀ i, i < l.length → a ≠ hbmKey d (pa + i)) → t.hbm.read a = s.hbm.read a
  host : ∀ a, t.host.read a = s.host.read a
  sp : ∀ g a, (t.core g).sp.read a = (s.core g).sp.read a

/-- A load returns the little-endian value of its bytes as they stand, held lines included (R239). -/
def loadPerforms (o : AOp) (n : Nat) : Event where
  need s := MayPerform o s ∧ o.body = .load n ∧ ∀ a i, o.dst ≠ .acc a i
  holds s t := Performed o (BitVec.ofNat 1024 (s.readVa (s.heldLines (evBank s).part) (evBank s).part o.va.toNat n)) (wayBack o s) s t ∧
    SameMemory s t
/-- A load of elements returns each one decoded from its bytes (spec/10 R197). -/
def gatherPerforms (o : AOp) (l : List LaneSpec) : Event where
  need s := MayPerform o s ∧ o.body = .gather l
  holds s t := Performed o
      (ofLanes fun i => match l.find? fun x => x.lane == i with
        | some x => (decodeLane (fun a n => s.readVa (s.heldLines (evBank s).part) (evBank s).part a n) x).1
        | none => 0) (wayBack o s) s t ∧ SameMemory s t
/-- The undo records of the lines may be written, or are (spec/21 R312, R314). -/
def UndoRoom (d : Fin 8) (pa n : Nat) (s : State) : Prop :=
  ∀ i, i < n → s.needsRecord (evBank s).part d (pa + i) = true →
    (s.stack d (stackOf (pa + i))).undo.length < (s.part (evBank s).part).hwm.toNat
/-- The overflow table and extension of a byte's stack are full, which is a free value of the model (spec/09 R182). -/
def OverflowFull (d : Fin 8) (pa n : Nat) (s : State) : Prop :=
  ∃ i, i < n ∧ Config.overflowFull s.free d (stackOf (pa + i)) (s.stack d (stackOf (pa + i))).ovfGiB = true
/-- The access looks again in the next cycle, and no memory has changed. -/
def LooksAgain (o : AOp) (s t : State) : Prop :=
  Planned s t 1 .globalAccessAtOwner { EvArgs.at s.ev.g s.ev.k with id := o.id } ∧ SameMemory s t
/-- A store writes its bytes, or stalls on a full overflow table. -/
def storePerforms (o : AOp) (l : List Byte) (d : Fin 8) (pa : Nat) : Event where
  need s := MayPerform o s ∧ o.body = .store l ∧ InDie (evBank s).part o.va.toNat l.length d pa s ∧ UndoRoom d pa l.length s ∧
    s.hbm.wf = true
  holds s t := (¬OverflowFull d pa l.length s → Performed o 0 0 s t ∧ StoredAt d pa l s t) ∧
    (OverflowFull d pa l.length s → LooksAgain o s t)
/-- An atomic writes the operation's value and returns the old one, or stalls as a store (R244, R245). -/
def atomicPerforms (o : AOp) (op : AtomOp) (w : Bool) (v e : DWord) (ret : Bool) (d : Fin 8) (pa : Nat) : Event where
  need s := MayPerform o s ∧ o.body = .atomic op w v e ret ∧ op ≠ .faddU ∧ op ≠ .faddO ∧
    InDie (evBank s).part o.va.toNat (width w) d pa s ∧ UndoRoom d pa (width w) s ∧
    (s.part (evBank s).part).rpMode = 0 ∧ s.hbm.wf = true
  holds s t := (¬OverflowFull d pa (width w) s → ∃ old,
      old = BitVec.ofNat 64 (s.readVa (s.heldLines (evBank s).part) (evBank s).part o.va.toNat (width w)) ∧
      Performed o ((atomOld op w old).setWidth 1024) (if ret then wayBack o s else 0) s t ∧
      StoredAt d pa (leBytes (width w) (atomNew op w old v e).toNat) s t) ∧
    (OverflowFull d pa (width w) s → LooksAgain o s t)
/-- An access behind an acquire that is not over, or behind an earlier one that must perform first, looks again in the next
cycle. -/
def accessWaits (o : AOp) : Event where
  need s := Arrives o s ∧ s.badTarget (evBank s).part o = false ∧ ∃ x ∈ (evBank s).live,
    x.id ∈ o.after ∨ (x.id < o.id ∧ s.follows (evBank s).part o.cls o.body o.vas x = true)
  holds := LooksAgain o
/-- An atomic or an arrival whose target turns out irrevocable goes back with ATOMIC_TARGET (spec/12 R245, R252). -/
def badTargets (o : AOp) : Event where
  need s := Arrives o s ∧ s.badTarget (evBank s).part o = true
  holds s t := (∀ x ∈ (t.bank s.ev.g s.ev.k).ops, x.id = o.id → x.fault = 17 ∧ x.answer = some false) ∧
    Planned s t (s.oneWay s.ev.g o.va.toNat) .pageFaultFreeze { EvArgs.at s.ev.g s.ev.k with id := o.id, n := 17 } ∧ SameMemory s t

/-! ## Walks, frozen banks and answers (spec/09 R169-R178) -/

/-- A walk that finds a page installs its entry, and the access that asked goes on. -/
def walkFinds (base size pa : Nat) (at_ : BitVec 9) (g : Fin 512) (k : Fin 3) (id : Nat) : Event where
  need s := walk s.hbm s.ev.d (s.die s.ev.d).xlatroot (vaOffset s.ev.va.toNat) = .page base size pa at_ ∧ s.ev.n ≠ 1 ∧
    s.ev.req = .access g k id ∧ ∀ x ∈ s.agenda, x.serves (.access g k id) = false
  holds s t := t = (s.modDie s.ev.d fun x =>
      { x with
        tlb := { base := base, size := size, pa := pa, attr := at_ } ::
          x.tlb.filter fun y => y != { base := base, size := size, pa := pa, attr := at_ } }).schedule 0 .globalAccessAtOwner
        { EvArgs.at g k with id := id }

/-- The reply of a faulting access freezes its running bank: the access waits for its answer in the replay list. -/
def faultFreezes (o : AOp) : Event where
  need s := (evBank s).ops.find? (fun x => x.id == s.ev.id) = some o ∧ s.ev.k.val ≠ 2 ∧ o.answer = none ∧ (evBank s).st = .running ∧
    (s.bank s.ev.g (otherBank s.ev.k)).runnable = false
  holds s t := (t.bank s.ev.g s.ev.k).st = .awaiting ∧ { o with confirmed := false } ∈ (t.bank s.ev.g s.ev.k).replay ∧
    (∀ x ∈ (t.bank s.ev.g s.ev.k).ops, x.id ≠ o.id) ∧ SameMemory s t

/-- The batch that is named closes: it has no timer left, and the next fault begins another batch. -/
def batchCloses : Event where
  need s := ∃ j, (s.part s.ev.p).job = some j ∧ j.batchNo = s.ev.id ∧ j.batchFrom ≠ none
  holds s t := (∀ j, (t.part s.ev.p).job = some j → j.batchFrom = none ∧ j.batchNo = s.ev.id + 1) ∧
    (∀ x ∈ t.agenda, x.what = .faultBatchTimer → x.args.p ≠ s.ev.p)
/-- A timer whose batch has ended meanwhile does nothing. -/
def batchGone : Event := becomesIf (fun s => ∀ j, (s.part s.ev.p).job = some j → j.batchNo ≠ s.ev.id) id

/-- A fault of a copy channel is answered: the command goes on, or fails with cause 1 (R174). -/
structure ChannelFault (d : Fin 8) (id : Nat) (f : PageFault) (c : CopyCmd) (s : State) : Prop where
  job : ∃ j, (s.part s.ev.p).job = some j ∧ j.faults = [f]
  shadow : (s.part s.ev.p).shadowJob = none
  who : f.who = .channel d id
  copy : (s.die d).copies = [c]
  stalled : c.id = id ∧ c.st = .stalled
  idle : ∀ x ∈ s.agenda, x.serves (.channel d id) = false
def answered (d : Fin 8) (c : CopyCmd) (ok : Bool) (i : Instr) (s t : State) : Prop :=
  (∃ j, (t.part s.ev.p).job = some j ∧ j.faults = []) ∧
    (t.die d).copies = [{ c with st := if ok then .running else .failed 1 }] ∧
    Planned s t 0 i { EvArgs.ofDie d with id := c.id }

/-- A resumed bank sends its replay list again, in program order. -/
def resends (o : AOp) : Event where
  need s := s.resumeDelay s.ev.g s.ev.k = 0 ∧ (evBank s).replay = [o] ∧ (evBank s).ops = [] ∧ o.answer = some true
  holds s t := (t.bank s.ev.g s.ev.k).replay = [] ∧
    (t.bank s.ev.g s.ev.k).ops = [{ o with fault := 0, answer := none, confirmed := false }] ∧
    ∃ n, s.oneWay s.ev.g o.va.toNat ≤ n ∧ Planned s t n .globalAccessAtOwner { EvArgs.at s.ev.g s.ev.k with id := o.id }

/-! ## Registers of a core, a cluster, a die and a partition (spec/11 R237, spec/18 R302, spec/20 R308, spec/22 R335) -/

/-- What a write of a shared register makes of it, for the core g that it is written at. -/
inductive WritesReg : Nat → (Fin 512 → Word → State → State) → Prop
  | queues : WritesReg 0x030 fun g w s => s.modPart (s.partAt g) fun q => { q with ageq := w.extractLsb' 16 16, predelta := w.setWidth 7 }
  | xlatroot : WritesReg 0x060 fun g w s => s.modDie (dieOf g) fun x => { x with xlatroot := w }
  | leasecmd : WritesReg 0x080 fun g w s => s.modCluster (clusterOf g) fun c =>
      { c with leasecmd := if w.toNat % 256 = 0 then c.leasecmd else w.setWidth 8 }
  | leasecyc : WritesReg 0x081 fun g w s => s.modCluster (clusterOf g) fun c =>
      { c with leasecyc := if w.toNat % 2 ^ 20 < 16 then 16 else w.setWidth 20 }
  | abfttol : WritesReg 0x082 fun g w s => s.modCluster (clusterOf g) fun c => { c with abfttol := w }
  | ovfcnt : WritesReg 0x083 fun g w s => s.modCore g fun c => { c with ovfcnt := w }
  | abftcnt : WritesReg 0x084 fun g w s => s.modCore g fun c => { c with abftcnt := w }
  | savecnt : WritesReg 0x0B8 fun g w s => s.modDie (dieOf g) fun x => { x with savecnt := w.setWidth 13 }
  | savebase0 : WritesReg 0x0B1 fun g w s => s.modCore g fun c => { c with savebase0 := w }
  | savebase1 : WritesReg 0x0B2 fun g w s => s.modCore g fun c => { c with savebase1 := w }
  | trapimg : WritesReg 0x0B3 fun g w s => s.modPart (s.partAt g) fun q => { q with trapimg := w }
  | tslice : WritesReg 0x0B6 fun g w s => s.modCore g fun c => { c with tslice := w }
  | savepool : WritesReg 0x0B7 fun g w s => s.modDie (dieOf g) fun x => { x with savepool := w }
  | undowait : WritesReg 0x0C2 fun g w s => s.modPart (s.partAt g) fun q => { q with undowait := w }
  | rbLimit : WritesReg 0x0C5 fun g w s => s.modPart (s.partAt g) fun q => { q with rbLimit := w.setWidth 8 }
  | bp0 : WritesReg 0x0D1 fun g w s => s.modCore g fun c => { c with bp0 := w }
  | bp1 : WritesReg 0x0D2 fun g w s => s.modCore g fun c => { c with bp1 := w }
  | perfidx : WritesReg 0x0D3 fun g w s => s.modCore g fun c => { c with perfidx := w.setWidth 7 }

/-- COLERR takes its ones out: every unit of the partition is IDLE for those barriers. -/
structure ColReset (p : Fin 8) (w : Word) (s t : State) : Prop where
  err : (t.part p).colerr = (s.part p).colerr &&& ~~~w
  units : ∀ g k, s.inPart p g = true → (t.bank g k).colarr = (s.bank g k).colarr &&& ~~~w ∧
    (t.bank g k).colrel = (s.bank g k).colrel &&& ~~~w
  saved : ∀ d, d ∈ s.partDies p → (t.die d).saved.map (fun (y : Nat × Bank) => (y.1, y.2.colarr, y.2.colrel)) =
    (s.die d).saved.map fun (y : Nat × Bank) => (y.1, y.2.colarr &&& ~~~w, y.2.colrel &&& ~~~w)
  others : ∀ g, s.inPart p g = false → t.core g = s.core g
  memory : SameMemory s t

/-- A level at the next fetch: one whose end the pc has passed is no longer active (spec/06 R116). -/
def atFetch (pc : Word) (l : LoopReg) : LoopReg := if l.act = true ∧ l.le.toNat < pc.toNat then { l with act := false } else l

/-- The state in which a trap is taken: a woken execution in progress has ended first (spec/08 R156). -/
def afterExecution (s : State) : State := s.endExec s.turn.core s.turn.ctx

/-! ## The table -/

inductive StreamEvent : Instr → Event → Prop
  | xCycle : StreamEvent .xResultLanding { need := fun s => (evBank s).xsysw = [], holds := XCycleEnds }
  | lands {f} : StreamEvent .xResultLanding (scalarLands f)
  | lx {f} : StreamEvent .xResultLanding (lxLands f)
  | tokenPoppable : StreamEvent .tokenPoppable
      (becomesIf (fun s => 0 < ((evBank s).flag (Fin.ofNat 16 s.ev.n)).travel)
        fun s => s.modBank s.ev.g s.ev.k fun b => tokenArrives b (Fin.ofNat 16 s.ev.n))
  | entryAX : StreamEvent .queueEntryPoppable
      (becomesIf (fun s => s.ev.n < 9)
        fun s => s.modBank s.ev.g s.ev.k fun b => b.setQAX s.ev.n (entryReady s.ev.id (b.qAX s.ev.n)))
  | entryXA : StreamEvent .queueEntryPoppable
      (becomesIf (fun s => 16 ≤ s.ev.n ∧ s.ev.n < 24)
        fun s => s.modBank s.ev.g s.ev.k fun b => b.setQXA (s.ev.n - 16) (entryReady s.ev.id (b.qXA (s.ev.n - 16))))
  | retiresPush : StreamEvent .aWordRetire
      (becomesIf (fun s => s.ev.flag = true ∧ s.ev.n ≠ 0 ∧ s.ev.q = 0) fun s => pushed s (Fin.ofNat 16 (s.ev.n - 1)))
  | retiresLoad {o n size sx} : StreamEvent .aWordRetire
      (becomesIf
        (fun s => s.ev.flag = false ∧ (evBank s).ops.find? (fun o => o.id == s.ev.id && o.performed) = some o ∧
          o.dst = .areg n size sx ∧ o.push = none)
        fun s => s.modBank s.ev.g s.ev.k fun b => registerTakes b o n (loadedValue o size sx))
  | retiresStore {o f} : StreamEvent .aWordRetire
      (becomesIf
        (fun s => s.ev.flag = false ∧ (evBank s).ops.find? (fun o => o.id == s.ev.id && o.performed) = some o ∧
          o.dst = .none ∧ o.push = some f)
        fun s => pushed (s.modBank s.ev.g s.ev.k fun b => { b with ops := b.ops.filter fun x => x.id != o.id }) f)
  | stampOverrun : StreamEvent .stampOverrun
      { need := fun s => s.turn.ctx.val < 2 ∧ Untraced s ∧ (afterExecution s).tb.dom.trapDue = none
        holds := fun s t => TrapEdge 4 (BitVec.ofNat 64 s.turn.stamp) ((s.sfc s.tb).setWidth 64) (afterExecution s) t }
  | waitBound {w} : StreamEvent .waitBound
      { need := fun s => s.ev.flag = false ∧ s.turn.ctx.val < 2 ∧ Untraced s ∧ s.turnWait = some w ∧
          (afterExecution s).tb.dom.trapDue = none
        holds := fun s t => TrapEdge 3 (BitVec.ofNat 64 w.obj) w.detail (afterExecution s) t }
  | breakpoint : StreamEvent .breakpoint
      { need := fun s => s.turn.ctx.val < 2 ∧ Untraced s ∧ (afterExecution s).tb.dom.trapDue = none
        holds := fun s t => TrapEdge 29 (BitVec.ofNat 64 (0x10000 + s.ev.n % 2)) 0 (afterExecution s) t }
  | rotationBound {k x} : StreamEvent .waitBound
      { need := fun s => s.ev.flag = true ∧ s.ev.k = k.castLE (by decide) ∧ (s.core s.ev.g).rot = some x ∧ x.bank = s.ev.k ∧
          x.since = s.ev.id ∧ (s.cluster (clusterOf s.ev.g)).rotating = false ∧ (evBank s).st = .running ∧
          PlaceUntraced (evBank s) s ∧ PlaceIdle s.ev.g s.ev.k s
        holds := fun s t => Trapped 3 7 0 s.ev.g k s t ∧ (t.core s.ev.g).rot = some x }
  | boundary {x l k} : StreamEvent .boundaryCauseDelivery
      { need := fun s => s.ev.k = k.castLE (by decide) ∧ (evBank s).pending = x :: l ∧ PlaceUntraced (evBank s) s ∧
          PlaceIdle s.ev.g s.ev.k s
        holds := fun s t => Trapped x.cause x.detail0 x.detail1 s.ev.g k s t ∧ (t.bank s.ev.g s.ev.k).pending = l }
  | copyFault : StreamEvent .copyFault
      (becomesIf (fun s => (evBank s).unit.isSome = true)
        fun s => s.modBank s.ev.g s.ev.k
          (waits 16 (BitVec.ofNat 64 (s.ev.w.toNat * 2 ^ 32 + s.ev.w2.toNat)) (BitVec.ofNat 64 s.ev.n)))
  | oredFull : StreamEvent .oredFull
      (becomesIf (fun s => (evBank s).unit.isSome = true) fun s => s.modBank s.ev.g s.ev.k (waits 18 (s.ev.w.setWidth 64) 0))
  | runs {e en q r} : StreamEvent .propagationRun
      (becomesIf
        (fun s => RunsOn e en q r s ∧ (runStep (evBank s) en q r).fail = none ∧ (runAfter (evBank s) e en q r).queue ≠ [] ∧
          r.n + 1 ≠ r.limit)
        fun s => (s.modBank s.ev.g s.ev.k fun b => withDom (runAfter b e en q r) b).schedule 2 .propagationRun (EvArgs.at s.ev.g s.ev.k))
  | settles {e en q r} : StreamEvent .propagationRun
      (becomesIf
        (fun s => RunsOn e en q r s ∧ (runStep (evBank s) en q r).fail = none ∧ (runAfter (evBank s) e en q r).queue = [])
        fun s => s.modBank s.ev.g s.ev.k fun b =>
          runOver (withDom { runAfter b e en q r with run := none, drun := BitVec.ofNat 16 (r.n + 1) } b))
  | runBound {e en q r} : StreamEvent .propagationRun
      (becomesIf
        (fun s => RunsOn e en q r s ∧ (runStep (evBank s) en q r).fail = none ∧ (runAfter (evBank s) e en q r).queue ≠ [] ∧
          r.n + 1 = r.limit ∧ (evBank s).dom.bt = false)
        fun s => s.modBank s.ev.g s.ev.k fun b =>
          runOver (withDom { runAfter b e en q r with run := none, bnd := true, drun := BitVec.ofNat 16 (r.n + 1) } b))
  | runFails {e en q r f} : StreamEvent .propagationRun
      (becomesIf
        (fun s => RunsOn e en q r s ∧ (runStep (evBank s) en q r).fail = some f ∧ (evBank s).dom.failpc ≠ 0 ∧ r.delay = false)
        fun s => s.modBank s.ev.g s.ev.k fun b =>
          (withDom (failedRun b.dom f e (r.n + 1)) b).modCol 0 (failBranch r.pc b.dom.failpc))
  | handlerStart {k u} : StreamEvent .handlerStart
      { need := fun s => (s.core s.ev.g).handling = some k ∧ s.quiet s.ev.g (k.castLE (by decide)) = true ∧
          (s.dump s.ev.g k).handlerUnit s.ev.g = some u
        holds := fun s t => ∃ c, t = (s.dump s.ev.g k).modBank s.ev.g 2 fun b => b.handlerStart u (s.saveVA s.ev.g k) c }
  | handlerWaits {k} : StreamEvent .handlerStart
      (becomesIf (fun s => (s.core s.ev.g).handling = some k ∧ s.quiet s.ev.g (k.castLE (by decide)) = false)
        fun s => s.schedule 1 .handlerStart s.ev)
  | lcWrite : StreamEvent .lcWrite
      (becomesIf (fun s => s.ev.st = .a)
        fun s => s.modBank s.ev.g s.ev.k fun b =>
          { b with
            aLoop0 := atFetch b.apc (if s.ev.flag then b.aLoop0 else { b.aLoop0 with lc := s.ev.w })
            aLoop1 := atFetch b.apc (if s.ev.flag then { b.aLoop1 with lc := s.ev.w } else b.aLoop1) })
  | lcWriteX : StreamEvent .lcWrite
      (becomesIf (fun s => s.ev.st = .x ∧ ((evBank s).col s.ev.col).brdly = 0 ∧ ((evBank s).col s.ev.col).evalDue = false)
        fun s => s.modBank s.ev.g s.ev.k fun b => b.modCol s.ev.col fun c =>
          { c with
            loop0 := atFetch c.pc (if s.ev.flag then c.loop0 else { c.loop0 with lc := s.ev.w })
            loop1 := atFetch c.pc (if s.ev.flag then { c.loop1 with lc := s.ev.w } else c.loop1) })
  | sfcloRead : StreamEvent .sfcloRead
      (becomes fun s => s.modBank s.ev.g s.ev.k fun b => { b with sfchi := (s.sfc b).extractLsb' 32 16 })
  | colerrWrite : StreamEvent .colerrWrite { holds := fun s t => ColReset s.ev.p s.ev.w s t }
  | accliveWrite : StreamEvent .accliveWrite (becomes fun s => s.modCore s.ev.g fun c =>
        { c with acclive :=
            if s.ev.k = 2 then s.ev.w.setWidth 4
            else if c.accOwn = s.ev.k then c.acclive &&& s.ev.w.setWidth 4 else c.acclive })
  | fltctlWrite : StreamEvent .fltctlWrite
      { holds := fun s t => (t.part s.ev.p).fltMode = s.ev.w.getLsbD 31 ∧ (t.part s.ev.p).fltTimer = s.ev.w.setWidth 15 ∧
          (t.part s.ev.p).pristop = false ∧
          (t.part s.ev.p).fltCount = (if s.ev.w.extractLsb' 16 12 = 0 then (s.part s.ev.p).fltCount else s.ev.w.extractLsb' 16 12) ∧
          t.cores = s.cores ∧ t.hbm = s.hbm }
  | dbgctlPclr : StreamEvent .dbgctlPclr (becomes fun s => s.mapCores s.ev.p fun _ c =>
        { c with perf := Vector.replicate 96 0, perfFrom := s.cycle })
  | trcctlWrite : StreamEvent .trcctlWrite (becomesIf (fun s => s.feature 5 = false) id)
  | trcctlOpens : StreamEvent .trcctlWrite
      { need := fun s => s.feature 5 = true ∧ (s.part s.ev.p).trcOpen = false
        holds := fun s t => (t.part s.ev.p).trcOpen = s.ev.w.getLsbD 31 ∧ (t.part s.ev.p).trcBr = s.ev.w.getLsbD 30 ∧
          (t.part s.ev.p).trcQueue = Fin.ofNat 64 (s.ev.w.toNat / 2 ^ 16) ∧ (t.part s.ev.p).sampint = s.ev.w.setWidth 16 ∧
          t.cores = s.cores ∧ t.hbm = s.hbm }
  | replayctlWrite : StreamEvent .replayctlWrite (becomesIf (fun s => s.feature 6 = false) id)
  | replayctlMode : StreamEvent .replayctlWrite
      (becomesIf (fun s => s.feature 6 = true ∧ s.ev.w.toNat % 4 ≠ 3 ∧ (s.part s.ev.p).job = none)
        fun s => s.modPart s.ev.p fun q => { q with ondiv := s.ev.w.getLsbD 2, rpMode := s.ev.w.setWidth 2, rpNext := none })
  | registerWrite {n f} : WritesReg n f → StreamEvent .registerWrite
      (becomesIf (fun s => s.ev.n = n ∧ s.ev.flag = false) fun s => f s.ev.g s.ev.w s)
  | spareWrite {n f} : WritesReg n f → StreamEvent .registerWrite
      (becomesIf (fun s => s.ev.n = n ∧ s.ev.flag = true ∧ n ∈ coreRegs) id)
  | loads {o n} : StreamEvent .globalAccessAtOwner (loadPerforms o n)
  | stores {o l d pa} : StreamEvent .globalAccessAtOwner (storePerforms o l d pa)
  | atomics {o op w v e r d pa} : StreamEvent .globalAccessAtOwner (atomicPerforms o op w v e r d pa)
  | gathers {o l} : StreamEvent .globalAccessAtOwner (gatherPerforms o l)
  | accessWaits {o} : StreamEvent .globalAccessAtOwner (accessWaits o)
  | badTargets {o} : StreamEvent .globalAccessAtOwner (badTargets o)
  | walk {base size pa at_ g k id} : StreamEvent .pageTableWalk (walkFinds base size pa at_ g k id)
  | freezes {o} : StreamEvent .pageFaultFreeze (faultFreezes o)
  | timer : StreamEvent .faultBatchTimer batchCloses
  | count : StreamEvent .faultBatchCount batchCloses
  | timerGone : StreamEvent .faultBatchTimer batchGone
  | frqhead : StreamEvent .frqheadWrite
      (becomesIf (fun s => (s.part s.ev.p).frqfull = false)
        fun s => s.modPart s.ev.p fun q => { q with frq := { q.frq with head := s.ev.w } })
  | answerRetry {d id f c} : StreamEvent .faultAnswer
      { need := fun s => ChannelFault d id f c s ∧ s.ev.w = 0 ∧ f.pri = none ∧ s.ev.va.toNat / 65536 ≤ f.va / 65536 ∧
          f.va / 65536 < s.ev.va.toNat / 65536 + s.ev.n
        holds := answered d c true .copyRowCommit }
  | answerFail {d id f c} : StreamEvent .faultAnswer
      { need := fun s => ChannelFault d id f c s ∧ s.ev.w = 1 ∧ f.pri = none ∧ s.ev.va.toNat / 65536 ≤ f.va / 65536 ∧
          f.va / 65536 < s.ev.va.toNat / 65536 + s.ev.n
        holds := answered d c false .copyCommandComplete }
  | priRetry {d id f c} : StreamEvent .priGroupResponse
      { need := fun s => ChannelFault d id f c s ∧ s.ev.w = 0 ∧ f.reported = true ∧ f.pri = some s.ev.id
        holds := answered d c true .copyRowCommit }
  | priFail {d id f c} : StreamEvent .priResponseFailure
      { need := fun s => ChannelFault d id f c s
        holds := fun s t => answered d c false .copyCommandComplete s t ∧ (t.part s.ev.p).pristop = true }
  | resends {o} : StreamEvent .replayListResend (resends o)
  | invalidated {p} : StreamEvent .invalidationComplete
      (becomesIf (fun s => s.ev.flag = false ∧ s.ev.inv = .mailbox ∧ p = s.dev.msix)
        fun s => s.modDev fun d => { d with mbStatus := 0, msix := p ++ [0] })
  | ats : StreamEvent .atsInvalidation (becomes fun s => s.modDev fun d => { d with atsEpoch := d.atsEpoch + 1 })
  | slice {n} : StreamEvent .bankSwitchTslice
      { need := fun s => s.ev.flag = true ∧ (evBank s).st = .ready ∧ (evBank s).runnable = true ∧
          (s.core s.ev.g).active = asBank s.ev.k ∧ (s.core s.ev.g).handling = none ∧ (s.core s.ev.g).stopped = false ∧
          (evBank s).cancelled = false ∧ (evBank s).replay = [] ∧ n = s.cycle
        holds := fun s t => t = s.modBank s.ev.g s.ev.k fun b => { b.runSfc n with st := .running, sliceStart := n } }

end Sys2Proof.Claims
end

