-- ==== Sys2Proof/Claims/DeviceEvents.lean ====
section
/-! DEFINITION. Claims/DeviceEvents.lean: what the steps of operating points, of firmware and its mailbox, of the loader, of the
host and of the Span links do (spec/01 R21, spec/05 R75, spec/13 R265, spec/16 R273-R279, spec/22 R328-R334, spec/23 R336-R345). -/
namespace Sys2Proof.Claims
open Sys2Proof Sys2Proof.Machine

/-! ## Operating points (spec/16 R273-R279) -/

def evDvfs (s : State) : Dvfs := s.dvfsOf s.ev.d s.ev.dom
def reqF (s : State) : BitVec 4 := s.ev.w.setWidth 4
def reqV (s : State) : Byte := s.ev.w.extractLsb' 8 8
def setDvfs (f : Dvfs → Dvfs) (s : State) : State := s.modDvfs s.ev.d s.ev.dom f
def dvfsArgs (s : State) : EvArgs := EvArgs.domain s.ev.d s.ev.dom
/-- A request that passes its checks keeps its codes and becomes the domain's target. -/
def requested (f : BitVec 4) (vc : Byte) (v : Dvfs) : Dvfs := { v with freq := f, vreq := vc, target := some (f, vc), status := 1 }
/-- A request passes every check but that of the fused minimum, which is a free value of the model. -/
structure Requestable (s : State) : Prop where
  codes : (reqF s).toNat < 9 ∧ 20 ≤ (reqV s).toNat ∧ (reqV s).toNat < 101
  idle : (evDvfs s).target = none
  cap : (reqF s).toNat ≤ (evDvfs s).cap.toNat
  free : s.domainDetm s.ev.d s.ev.dom = false
/-- Below the fused minimum of its FCODE a request is denied with code 5 (R273); otherwise f. -/
def unlessBelow (f : State → State) (s : State) : State :=
  if (reqV s).toNat < (Config.fusedVmin s.ev.d s.ev.dom (reqF s)).toNat then setDvfs (fun v => { v with status := 5 }) s else f s
/-- The voltage leaves its present code. -/
def ramping (n : Nat) (v : Dvfs) : Dvfs := { v with ramp := some (n, v.vcur) }
def reached (v : Dvfs) : Dvfs := { v with target := none, ramp := none, status := 0 }

/-! ## The start and the mailbox (spec/23 R341-R344) -/

/-- A command with its arguments is in progress. -/
def accepted (n : Nat) (s : State) : State :=
  s.modDev fun d => { d with mbCmd := BitVec.ofNat 32 n, mbStatus := 1, mbArgs := BitVec.ofNat 1024 (leNat (s.ev.data.take 128)) }
/-- The mailbox serves the command: none is in progress, the device is not in minimal mode, and the feature is there. -/
def Served (feat : Option Nat) (s : State) : Prop :=
  s.dev.mbStatus ≠ 1 ∧ s.dev.minimal = false ∧ ∀ i, feat = some i → s.feature i = true
def arg (off n : Nat) (s : State) : Nat := argAt s.ev.data off n
/-- A command that passes its checks has its effect and ends with result 0. -/
def serves (n : Nat) (feat : Option Nat) (ok : State → Prop) (eff : State → State) : Event :=
  becomesIf (fun s => Served feat s ∧ ok s) fun s => (eff (accepted n s)).mailboxDone 0
/-- A command with an argument out of its range ends with result 2 and nothing else. -/
def refuses (n : Nat) (feat : Option Nat) (bad : State → Prop) : Event :=
  becomesIf (fun s => Served feat s ∧ bad s) fun s => (accepted n s).mailboxDone 2
def argPart (s : State) : Fin 8 := Fin.ofNat 8 (arg 0 1 s)
def argDie (s : State) : Fin 8 := Fin.ofNat 8 (arg 0 1 s)
def argCluster (s : State) : Fin 9 := Fin.ofNat 9 (arg 1 1 s)
/-- Die counts, one for each first die. -/
def layout (s : State) : List Nat := (upTo 0 8).map fun i => arg i 1 s
def laidOut (l : List Nat) (s : State) : State := (List.finRange 8).foldl (fun s p => s.setPart p (l.getD p.val 0)) s
/-- The start has succeeded. -/
structure Started (s t : State) : Prop where
  go : t.dev.go = true
  features : t.dev.actfeat = s.dev.devfeat &&& s.dev.drvfeat
  count : t.dev.fails = 0
  timer : ∀ x ∈ t.agenda, x.what ≠ .goTimeout
  cores : t.cores = s.cores
  memory : SameMemory s t

/-! ## Peers (spec/23 R339, R340) -/

/-- The port of the flit belongs to aperture a of the partition. -/
def Bound (a : Nat) (ap : Aperture) (s : State) : Prop := s.portAperture s.ev.p s.ev.port = some (a, ap)
def flitVA (s : State) : Nat := peerVA s.ev.va.toNat
/-- The translations of a run of bytes are at hand. -/
def AtHand (va n : Nat) (s : State) : Prop := s.walkNow s.ev.p (upTo va n) = s
/-- The bytes of a request may be reached. -/
def Reachable (n : Nat) (wr : Bool) (s : State) : Prop :=
  AtHand (flitVA s) n s ∧ s.badPages s.ev.p (upTo (flitVA s) n) wr = []
/-- Every answer has come but this one, and the requester goes on with the bytes. -/
def goesOn (x : SpanAsk) (s : State) : State :=
  ((s.dropTag x.tag).joinGot x.who ((upTo 0 x.n).map fun i => (x.va + i, s.ev.data.getD i 0))).rerun x.who
def Alone (x : SpanAsk) (s : State) : Prop := ∀ y ∈ s.dev.spanWait, y.who = x.who → y.tag = x.tag
/-- The answer to a read: the bytes, then a flag for each sector. -/
def readReply (p : Fin 8) (va n : Nat) (s : State) : List Byte :=
  (upTo va n).map (fun a => s.readLoc [] a (s.locate p a)) ++
    (upTo 0 ((n + 31) / 32)).map fun i => if s.readsPoison p (upTo (va + 32 * i) (min 32 (n - 32 * i))) then 1 else 0

/-- A write from outside performs as f says, or what keeps it from that is raised and it looks again in the next cycle. -/
def orLater (i : Instr) (va : State → Nat) (f : State → State) (s : State) : State :=
  match s.inboundBlocked s.ev.p false (upTo (va s) s.ev.data.length) with
  | none => f s
  | some u => u.writeWaits i 1

/-! ## The host (spec/13 R265) -/

/-- An answer to the host, with the mark of a poisoned one (spec/09 R181). -/
def hostReplied (l : List Byte) (bad : Bool) (s : State) : State :=
  s.modDev fun d => { d with hostReplies := d.hostReplies ++ [(s.ev.va, l, bad)] }
def hostVAs (n : Nat) (s : State) : List Nat := upTo s.ev.va.toNat n
/-- No earlier write of the host request's source is still to perform; `all` counts those with Relaxed Ordering. -/
def InTurn (n : Nat) (all : Bool) (s : State) : Prop := s.writesBefore (true, s.ev.src) (s.arrivalNo n) all = false
/-- A host write of device memory performs now, if its bytes may be written. -/
structure HostWrite (s : State) : Prop where
  memory : s.ev.flag = false
  turn : (s.ev.relaxed = false ∧ InTurn s.ev.n false s) ∨ (s.ev.relaxed = true ∧ s.ev.n ≠ 0)
  live : s.replaying s.ev.p = false
  atHand : AtHand s.ev.va.toNat s.ev.data.length s

/-! ## The table -/

inductive DeviceEvent : Instr → Event → Prop
  | raises : DeviceEvent .dvreqWrite
      (becomesIf (fun s => Requestable s ∧ (evDvfs s).fcur.toNat ≤ (reqF s).toNat)
        (unlessBelow fun s => (setDvfs (fun v => ramping s.cycle (requested (reqF s) (reqV s) v)) s).schedule
          (rampCycles (evDvfs s).vcur (reqV s)) .voltageRampEnd (dvfsArgs s)))
  | lowers : DeviceEvent .dvreqWrite
      (becomesIf (fun s => Requestable s ∧ (reqF s).toNat < (evDvfs s).fcur.toNat)
        (unlessBelow fun s => (setDvfs (requested (reqF s) (reqV s)) s).schedule usCycles .pllRelockEnd (dvfsArgs s)))
  | denies {k} : DeviceEvent .dvreqWrite
      (becomesIf (fun s => s.dvreqCheck s.ev.d s.ev.dom (reqF s) (reqV s) = some k)
        fun s => setDvfs (fun v => { v with status := BitVec.ofNat 4 k }) s)
  | rampEnds {f vc} : DeviceEvent .voltageRampEnd
      (becomesIf (fun s => (evDvfs s).target = some (f, vc) ∧ (evDvfs s).fcur = f)
        fun s => setDvfs (fun v => reached { v with vcur := vc }) s)
  | rampThenPll {f vc} : DeviceEvent .voltageRampEnd
      (becomesIf (fun s => (evDvfs s).target = some (f, vc) ∧ (evDvfs s).fcur ≠ f)
        fun s => (setDvfs (fun v => { v with vcur := vc, ramp := none }) s).schedule usCycles .pllRelockEnd (dvfsArgs s))
  | relocked {f vc} : DeviceEvent .pllRelockEnd
      (becomesIf (fun s => (evDvfs s).target = some (f, vc) ∧ (evDvfs s).vcur = vc)
        fun s => setDvfs (fun v => reached { v with fcur := f }) s)
  | sample : DeviceEvent .dvfsSample
      { holds := fun s t => Planned s t sampleCycles .dvfsSample EvArgs.zero ∧ SameMemory s t }
  | coolant {n} : DeviceEvent .coolantShortfall
      (becomesIf (fun s => (450 < s.ev.n ∨ s.ev.id < 200) ∧
          n = min (flowLimit s.dev.pwrlim s.ev.id) (inletLimit s.dev.pwrlim s.ev.n))
        fun s => (s.modDev fun v => { v with pwrlim := n }).fwRaise 5 0xFF 0xFF (BitVec.ofNat 64 n))
  | coolantEnough : DeviceEvent .coolantShortfall (becomesIf (fun s => s.ev.n ≤ 450 ∧ 200 ≤ s.ev.id) id)
  | part : DeviceEvent .mailboxPart (serves 1 none
      (fun s => layoutOk (layout s) = true ∧ ∀ p : Fin 8, (s.part p).ndies = (layout s).getD p.val 0 ∨ s.holdsJob p = false)
      fun s => laidOut (layout s) s)
  | partBad : DeviceEvent .mailboxPart (refuses 1 none fun s => layoutOk (layout s) = false)
  | bind {x a} : DeviceEvent .mailboxBind (serves 2 (some 4)
      (fun s => apertureOf ((s.ev.data.drop 2).take 16) = some x ∧ arg 0 1 s < 8 ∧ (s.part (argPart s)).ndies ≠ 0 ∧
        arg 1 1 s = Fin.val (n := 7) a ∧ s.jobOpen (argPart s) = false)
      fun s => s.modPart (argPart s) fun q => { q with apertures := q.apertures.set a.val x a.isLt })
  | ovfext : DeviceEvent .mailboxOvfext (serves 3 none
      (fun s => arg 0 1 s < 8 ∧ arg 1 1 s < 2 ∧ arg 2 4 s ≤ 44)
      fun s => s.modStack (argDie s) (Fin.ofNat 2 (arg 1 1 s)) fun t => { t with ovfGiB := arg 2 4 s })
  | dvreq : DeviceEvent .mailboxDvreq (serves 4 none
      (fun s => arg 0 1 s < 8 ∧ arg 1 1 s < 9 ∧ arg 2 1 s < 16)
      fun s =>
        let t := s.dvreq (argDie s) (argCluster s) (BitVec.ofNat 32 (arg 2 1 s + arg 3 1 s * 2 ^ 8))
        t.mailboxReply (leBytes 4 ((t.dvfsOf (argDie s) (argCluster s)).stat t.cycle).toNat))
  | vmin : DeviceEvent .mailboxVmin (serves 5 none
      (fun s => arg 0 1 s < 8 ∧ arg 1 1 s < 9)
      fun s => s.mailboxReply ((upTo 0 9).map fun f => Config.fusedVmin (argDie s) (argCluster s) (BitVec.ofNat 4 f)))
  | pwrlim : DeviceEvent .mailboxPwrlim (serves 6 none
      (fun s => 800 ≤ arg 0 4 s ∧ arg 0 4 s ≤ 3200) fun s => s.modDev fun d => { d with pwrlim := arg 0 4 s })
  | pwrlimBad : DeviceEvent .mailboxPwrlim (refuses 6 none fun s => arg 0 4 s < 800 ∨ 3200 < arg 0 4 s)
  | stage : DeviceEvent .mailboxStage
      (becomesIf (Served none) fun s =>
        match stagedImage (s.host.readN (arg 0 8 s) (arg 8 4 s)) with
        | some i =>
          ((accepted 7 s).modDev fun d => { d with images := d.images.set (1 - d.bootSlot.val) i, staged := true }).mailboxDone 0
        | none => (accepted 7 s).mailboxDone 2)
  | attest : DeviceEvent .mailboxAttest
      { need := Served (some 11)
        holds := fun s t => ∃ l, t = (((accepted 8 s).mailboxReply (s.ev.data.take 32 ++ l)).useFree).mailboxDone 0 }
  | colspan : DeviceEvent .mailboxColspan (serves 9 (some 9)
      (fun s => arg 0 1 s < 8 ∧ (s.part (argPart s)).ndies ≠ 0 ∧ arg 1 1 s < 32)
      fun s => s.modPart (argPart s) fun q => { q with colspan := setBit q.colspan (arg 1 1 s) true })
  | retry : DeviceEvent .mailboxRetry
      (becomesIf (Served none)
        fun s => ((accepted 10 s).modDev fun d => { d with fails := 0, minimal := false }).schedule 0 .deviceResetStart EvArgs.zero)
  | tlbinv : DeviceEvent .mailboxTlbinv
      (becomesIf (fun s => Served none s ∧ arg 0 1 s < 8 ∧ arg 10 8 s ≠ 0 ∧ arg 1 1 s < (s.part (argPart s)).ndies)
        fun s => (accepted 11 s).invalidate (argPart s) (arg 1 1 s) (arg 2 8 s) (arg 10 8 s) 0 .mailbox)
  | minimalReset : DeviceEvent .deviceResetStart (becomesIf (fun s => s.dev.minimal = true) fun s => s.afterReset)
  | boots : DeviceEvent .deviceResetStart
      (becomesIf (fun s => s.dev.minimal = false ∧ s.dev.staged = false)
        fun s =>
          if (s.dev.images.get s.dev.bootSlot).boots = true then s.afterReset.runSteps startSteps
          else s.afterReset.startFails (if s.dev.images.toList.any (fun i => i.valid) = true then 2 else 1) 0)
  | go : DeviceEvent .bootctlGo
      { need := fun s => s.dev.go = false ∧ s.dev.stepsOk = true ∧ s.dev.reqfeat &&& ~~~s.dev.drvfeat = 0
        holds := Started }
  | goFails : DeviceEvent .bootctlGo
      (becomesIf (fun s => s.dev.go = false ∧ s.dev.stepsOk = true ∧ s.dev.reqfeat &&& ~~~s.dev.drvfeat ≠ 0)
        fun s => s.startFails 5 0)
  | timeout : DeviceEvent .goTimeout
      (becomesIf (fun s => s.dev.go = false ∧ s.dev.stepsOk = true) fun s => s.startFails 6 0)
  | ack {e l} : DeviceEvent .firmwareEventAck
      { need := fun s => s.ev.w = s.dev.fwSeq ∧ s.dev.fwQueue = e :: l
        holds := fun s t => t.dev.fwEvent = e ∧ t.dev.fwQueue = l ∧ t.dev.fwSeq = s.dev.fwSeq + 1 ∧
          t.dev.msix = s.dev.msix ++ [1] ∧ t.cores = s.cores ∧ SameMemory s t }
  | spanRead {a ap} : DeviceEvent .spanReadRequest
      (becomesIf (fun s => s.ev.words = [] ∧ Bound a ap s ∧ Reachable s.ev.n false s ∧
          s.mergesBlocked s.ev.p (upTo (flitVA s) s.ev.n) = none)
        fun s => (s.flushAt s.ev.p (upTo (flitVA s) s.ev.n)).reply 3 s.ev.port s.ev.id
          (readReply s.ev.p (flitVA s) s.ev.n (s.flushAt s.ev.p (upTo (flitVA s) s.ev.n))))
  | unbound : DeviceEvent .spanReadRequest
      (becomesIf (fun s => s.portAperture s.ev.p s.ev.port = none) fun s => s.modDev fun d => { d with spanerr := d.spanerr + 1 })
  | spanWrite {a ap} : DeviceEvent .spanWrite
      (becomesIf
        (fun s => Bound a ap s ∧ Reachable s.ev.data.length true s ∧ s.replaying s.ev.p = false ∧ s.inSealGroup ap = false ∧
          s.writesBefore (false, s.ev.port.val) (s.arrivalNo s.ev.n) true = false)
        (orLater .spanWrite flitVA fun s => ((((s.writeUntagged s.ev.p (flitVA s) s.ev.data).poisonSectors s.ev.p (flitVA s) s.ev.w).reply 3 s.ev.port s.ev.id
          []).recordInbound s.ev.p 2 (flitVA s) s.ev.data).pokeRecords s.ev.p))
  | spanWriteWaits : DeviceEvent .spanWrite
      (becomesIf (fun s => s.replaying s.ev.p = false ∧ s.writesBefore (false, s.ev.port.val) (s.arrivalNo s.ev.n) true = true)
        fun s => s.writeWaits .spanWrite 1)
  | spanCompletes {x} : DeviceEvent .spanReadCompletion
      (becomesIf (fun s => s.askOf s.ev.id = some x ∧ s.ev.w = 0 ∧ Alone x s) (goesOn x))
  | spanAtomic {a ap d pa at_ v} : DeviceEvent .spanAtomic
      (becomesIf
        (fun s => Bound a ap s ∧ Reachable (width s.ev.flag) true s ∧ s.locate s.ev.p (flitVA s) = .dev d pa at_ ∧ s.ev.n = 0 ∧
          s.ev.op = .faddU ∧ s.ev.words.headD 0 = v)
        fun s => (s.addMerge d pa v).reply 3 s.ev.port s.ev.id (leBytes 8 0))
  | spanCol {a ap j} : DeviceEvent .spanCol
      { need := fun s => Bound a ap s ∧ s.inSealGroup ap = true ∧ bit (s.part s.ev.p).colspan s.ev.id = true ∧ s.ev.id < 32 ∧
          (s.part s.ev.p).job = some j
        holds := fun s t => ∃ i, (t.part s.ev.p).job = some i ∧ i.colPeers.contains (a, s.ev.id) = true ∧ i.ev = j.ev }
  | spanSeal {a ap j} : DeviceEvent .spanSeal
      { need := fun s => Bound a ap s ∧ s.inSealGroup ap = true ∧ (s.part s.ev.p).job = some j
        holds := fun s t => ∃ i, (t.part s.ev.p).job = some i ∧ i.phase.peerSeals = setBit j.phase.peerSeals a true ∧ i.ev = j.ev }
  | spanCredit : DeviceEvent .spanCredit (becomesIf (fun s => s.ev.flag = false) id)
  | unknownFlit : DeviceEvent .spanCredit
      (becomesIf (fun s => s.ev.flag = true) fun s => s.modDev fun d => { d with spanerr := d.spanerr + 1 })
  | spanFault {x} : DeviceEvent .spanFaultReply
      (becomesIf (fun s => s.askOf s.ev.id = some x ∧ 2 ≤ s.ev.w.toNat)
        fun s => (s.modDev fun d =>
          { d with spanWait := d.spanWait.map fun y => if y.tag == x.tag then { y with bad := true } else y }).faulted x.who s.ev.n)
  | portFails : DeviceEvent .spanPortFail
      { need := fun s => s.dev.spanWait = [] ∧ ∀ p : Fin 8, ∀ a ∈ (s.part p).apertures.toList, a.sealgrp = false
        holds := fun s t => bit t.dev.portFailed s.ev.port.val = true ∧ t.cores = s.cores ∧ SameMemory s t }
  | headSample : DeviceEvent .headSample
      { need := fun s => (s.part s.ev.p).trcOpen = true ∧ (s.part s.ev.p).sampint ≠ 0
        holds := fun s t => t.cores = s.cores ∧
          Planned s t ((s.part s.ev.p).sampint.toNat * usCycles) .headSample (EvArgs.ofPart s.ev.p) }
  | injects : DeviceEvent .recordedInputInject
      (becomesIf (fun s => s.replaying s.ev.p = true)
        fun s => match s.inboundBlocked s.ev.p false (upTo s.ev.va.toNat s.ev.data.length) with
          | none => (s.writeUntagged s.ev.p s.ev.va.toNat s.ev.data).pokeRecords s.ev.p
          | some u => u.schedule 1 .recordedInputInject s.ev)
  | loads {h} : DeviceEvent .imageLoad
      (becomesIf
        (fun s => s.readImage s.ev.p s.ev.va.toNat = some h ∧ s.hasUnordered s.ev.p s.ev.va.toNat h = false ∧ h.iflags % 2 = 0 ∧
          s.greadLE s.ev.p (s.ev.va.toNat + 0x44) 4 = 0)
        fun s => s.modDev fun d => { d with loadRefused := none })
  | refusesImage {h n} : DeviceEvent .imageLoad
      (becomesIf
        (fun s => s.readImage s.ev.p s.ev.va.toNat = some h ∧ s.hasUnordered s.ev.p s.ev.va.toNat h = true ∧ h.iflags % 2 = 0 ∧
          s.greadLE s.ev.p (s.ev.va.toNat + 0x44) 4 = n)
        fun s => s.refuseLoad s.ev.p s.ev.va.toNat n)
  | registers : DeviceEvent .queueTableRegistration
      { need := fun s => (s.part s.ev.p).ndies ≠ 0 ∧ s.ev.n ≠ 0 ∧ s.ev.n ≤ 64 ∧ s.jobOpen s.ev.p = false ∧
          ∀ d k, (s.stack d k).merges = []
        holds := fun s t => ∃ (u : State) (j : Job), t = (u.modPart s.ev.p fun q =>
            { q with job := some j, rincur := 0, rbCount := 0, colerr := 0, halted := false }).beginPhase s.ev.p 0 [] ∧
          u.cores = s.cores ∧ j.qtbase = s.ev.va ∧ j.qtcount = s.ev.n ∧ j.items = [] ∧ j.status = 0 ∧ j.pasid = s.ev.w2.setWidth 20 ∧
          ∀ i : Fin 64, j.queues.get i = if i.val < s.ev.n then some (s.readQueue s.ev.p (s.ev.va.toNat + 64 * i.val)) else none }
  | hostWindow : DeviceEvent .inboundHostWrite
      (becomesIf (fun s => s.ev.flag = true ∧ InTurn s.ev.n true s) fun s => s.windowWrite s.ev.va.toNat s.ev.data)
  | hostWaits : DeviceEvent .inboundHostWrite
      (becomesIf (fun s => (s.ev.relaxed = false ∨ s.ev.flag = true) ∧ ¬InTurn s.ev.n s.ev.flag s)
        fun s => s.writeWaits .inboundHostWrite 1)
  | hostRelaxed : DeviceEvent .inboundHostWrite
      (becomesIf (fun s => s.ev.relaxed = true ∧ s.ev.flag = false ∧ s.ev.n = 0)
        fun s => s.writeWaits .inboundHostWrite (Config.accessDelay s.free))
  | hostWrites : DeviceEvent .inboundHostWrite
      (becomesIf
        (fun s => HostWrite s ∧ s.hostFault s.ev.p s.ev.va.toNat s.ev.data.length true = false)
        (orLater .inboundHostWrite (fun s => s.ev.va.toNat) fun s =>
          ((s.writeUntagged s.ev.p s.ev.va.toNat s.ev.data).recordInbound s.ev.p 1 s.ev.va.toNat s.ev.data).pokeRecords s.ev.p))
  | hostUnsupported : DeviceEvent .inboundHostWrite
      (becomesIf
        (fun s => HostWrite s ∧ s.hostFault s.ev.p s.ev.va.toNat s.ev.data.length true = true)
        fun s => s.inboundError s.ev.p s.ev.va.toNat)
  | hostReads : DeviceEvent .inboundHostRead
      (becomesIf (fun s => s.ev.flag = false ∧ s.ev.words = [] ∧ InTurn s.ev.id true s ∧ AtHand s.ev.va.toNat s.ev.n s ∧
          s.hostFault s.ev.p s.ev.va.toNat s.ev.n false = false ∧ s.mergesBlocked s.ev.p (hostVAs s.ev.n s) = none)
        fun s =>
          let u := s.flushAt s.ev.p (hostVAs s.ev.n s)
          hostReplied ((hostVAs s.ev.n s).map fun a => u.readLoc [] a (u.locate s.ev.p a)) (u.readsPoison s.ev.p (hostVAs s.ev.n s)) u)
  | readWaits : DeviceEvent .inboundHostRead
      (becomesIf (fun s => ¬InTurn s.ev.id true s)
        fun s => (s.useFree).schedule 1 .inboundHostRead { s.ev with id := s.arrivalNo s.ev.id })
  | readUnsupported : DeviceEvent .inboundHostRead
      (becomesIf (fun s => s.ev.flag = false ∧ s.ev.words = [] ∧ InTurn s.ev.id true s ∧ AtHand s.ev.va.toNat s.ev.n s ∧
          s.hostFault s.ev.p s.ev.va.toNat s.ev.n false = true)
        fun s => hostReplied [] false (s.inboundError s.ev.p s.ev.va.toNat))
  | windowReads : DeviceEvent .inboundHostRead
      (becomesIf (fun s => s.ev.flag = true ∧ InTurn s.ev.id true s)
        fun s => hostReplied ((s.windowRead s.ev.va.toNat s.ev.n).getD []) false s)

end Sys2Proof.Claims
end

