-- ==== Sys2Proof/Claims/EngineEvents.lean ====
section
/-! DEFINITION. Claims/EngineEvents.lean: what the steps of the copy engine, of a rotation and of the matrix array do (spec/10
R193, R204-R210; spec/11 R212-R235). -/
namespace Sys2Proof.Claims
open Sys2Proof Sys2Proof.Machine

/-! ## The copy engine (R204, R206, R209) -/

def evCopies (s : State) : List CopyCmd := (s.die s.ev.d).copies
/-- Commands that a channel of the die works on. -/
def busyCopies (s : State) : Nat := ((evCopies s).filter fun c => c.st == .running || c.st == .stalled).length
def copyRuns (c : CopyCmd) (n : Nat) : CopyCmd := { c with st := .running, counted := true, rows := n, got := [] }
def copyEv (s : State) (c : CopyCmd) : EvArgs := { EvArgs.ofDie s.ev.d with id := c.id }

/-- A free channel takes a queued command of a core and reads its counts, and its first row comes not before its accesses have had
their time. -/
def channelStarts (c : CopyCmd) (n : Nat) : Event where
  need s := (evCopies s).find? (fun c => c.id == s.ev.id && c.st == .queued) = some c ∧ busyCopies s < 16 ∧ c.desc = none ∧
    c.stopping = false ∧ s.readCounts { c with st := .running } = .inl n ∧ c.row < n
  holds s t := (∃ m, s.rowTime s.ev.d (copyRuns c n) ≤ m ∧ Planned s t m .copyRowCommit (copyEv s c)) ∧
    evCopies t = (evCopies s).map (fun x => if x.id == c.id then copyRuns c n else x) ∧ t.cores = s.cores ∧ SameMemory s t
/-- With 16 commands in the channels a command waits. -/
def channelWaits (c : CopyCmd) : Event :=
  becomesIf (fun s => (evCopies s).find? (fun c => c.id == s.ev.id && c.st == .queued) = some c ∧ 16 ≤ busyCopies s)
    fun s => s.schedule 1 .copyChannelStart s.ev

/-- The elements of window row r of a scratchpad endpoint. -/
def rowElems (s : State) (c : CopyCmd) (h : BitVec 256) (x : Side) (r : Nat) : List (Option LaneSpec) :=
  (rowLanes (s.endRead c true) h x r).map fun l => l.map (withScale c.op (gotLE c.got) h x)
/-- The bytes that row `c.row` of a copy inside one scratchpad writes, each over the byte that stood there. -/
def rowBytes (s : State) (c : CopyCmd) : List (Nat × Byte) :=
  (mergeRow (fun a => BitVec.ofNat 8 (s.endRead c true a 1))
    (s.rowOut c c.row (rowElems s c c.srcH c.srcS c.row) (rowElems s c c.dstH c.dstS c.row) []).1).1

/-- A row of a `cpy` between windows of one scratchpad commits whole when the wide port has served it; the rows committed stand
in CPSTAT. -/
def rowCommits (c : CopyCmd) (g : Fin 512) (k : Fin 2) : Event where
  need s := s.ev.words = [] ∧ (evCopies s).find? (fun c => c.id == s.ev.id && c.st == .running) = some c ∧ c.op = .cpy ∧
    c.src = some (g, k) ∧ c.srcSp = true ∧ c.dstSp = true ∧ hOLVL c.srcH = false ∧ hOLVL c.dstH = false ∧
    c.row < winRows c.srcH ∧ c.desc = none ∧ c.out = none ∧ c.counted = true ∧ s.ev.w ≠ 0 ∧
    (s.core g).wideEnd s.cycle 2 c.id ≤ s.cycle
  holds s t := (t.core g).sp = (rowBytes s c).foldl (fun m x => m.write x.1 x.2) (s.core g).sp ∧
    (t.bank g (k.castLE (by decide))).cpstat =
      ((s.bank g (k.castLE (by decide))).setCpstat c.kth (cpstatWord 1 0 (c.row + 1))).cpstat ∧
    (∀ g', g' ≠ g → t.core g' = s.core g') ∧ t.hbm = s.hbm ∧ t.host = s.host

/-- The only command of a core, finished: its CPSTAT says so, its push travels, it leaves the engine. -/
def copyEnds (c : CopyCmd) (g : Fin 512) (k : Fin 2) (f : Fin 16) : Event where
  need s := s.ev.d = dieOf g ∧ (evCopies s).find? (fun c => c.id == s.ev.id && !c.inFlight) = some c ∧ s.copiesOf g = [c] ∧
    (∀ x ∈ evCopies s, x.id = c.id → x = c) ∧ c.st = .finished ∧ c.node = none ∧ c.src = some (g, k) ∧ c.ring = none ∧
    c.srcSp = false ∧ c.hb = false ∧ c.push = some f
  holds s t := evCopies t = (evCopies s).filter (fun x => x.id != c.id) ∧
    (t.bank g (k.castLE (by decide))).cpstat =
      ((s.bank g (k.castLE (by decide))).setCpstat c.kth (cpstatWord 2 0 c.row)).cpstat ∧
    ((t.bank g (k.castLE (by decide))).flag f).travel = ((s.bank g (k.castLE (by decide))).flag f).travel + 1 ∧
    (t.bank g (k.castLE (by decide))).pa = (s.bank g (k.castLE (by decide))).pa + 1 ∧ SameMemory s t

/-! ## Rotation (R193) -/

/-- The tile that core i gives and the tile that it takes into. -/
def rotTiles (s : State) (i : Fin 8) : Option (Nat × Nat) := (s.core (coreAt s.ev.cl i)).rot.map fun r => (r.src, r.dst)
def rotationStarts : Event where
  holds s t := (t.cluster s.ev.cl).rotating = true ∧ Planned s t 16 .rgrotExchangeEnd s.ev ∧ SameMemory s t ∧
    ∀ g, (t.core g).owner = (s.core g).owner ∧ (t.core g).banks = (s.core g).banks
def rotationEnds (give take : Fin 8 → Nat) : Event where
  need s := ∀ i, rotTiles s i = some (give i, take i)
  holds s t := (∀ i : Fin 8, (t.core (coreAt s.ev.cl (i + 1))).sp = (s.core (coreAt s.ev.cl (i + 1))).sp.writeBytes (4096 * take (i + 1))
      ((s.core (coreAt s.ev.cl i)).sp.readN (4096 * give i) 4096)) ∧
    (∀ i : Fin 8, (t.core (coreAt s.ev.cl i)).rot = none ∧ (t.core (coreAt s.ev.cl i)).owned (give i) = false ∧
      (t.core (coreAt s.ev.cl i)).owned (take i) = false) ∧
    (t.cluster s.ev.cl).rotating = false ∧ t.hbm = s.hbm ∧ t.host = s.host

/-! ## Leases (R212) -/

/-- A core of the cluster takes the lease. -/
def leaseGoes (i : Fin 8) (s : State) : State :=
  (s.modCluster s.ev.cl fun c =>
    { c with holder := some i, granted := s.cycle, used := 0, requests := setBit c.requests i.val false }).schedule
    (s.cluster s.ev.cl).leasecyc.toNat .leaseEndCycles { EvArgs.zero with cl := s.ev.cl, n := i.val, id := s.cycle }
/-- The lease is free again; the next core that asks takes it two cycles later. -/
structure LeaseOver (h : Fin 8) (s t : State) : Prop where
  free : (t.cluster s.ev.cl).holder = none ∧ (t.cluster s.ev.cl).last = h
  next : ∀ i, (s.cluster s.ev.cl).nextHolder h = some i → Planned s t 2 .leaseGrant { EvArgs.zero with cl := s.ev.cl, n := i.val }
  cores : t.cores = s.cores
  memory : SameMemory s t

/-! ## Commands of the array (R219-R225, R232) -/

/-- The step is about command `a`, the one command of its cluster with that number. -/
def StepOf (a : ArrCmd) (s : State) : Prop := s.cmd s.ev.cl s.ev.id = some a ∧ ∀ x ∈ (s.cluster s.ev.cl).cmds, x.id = a.id → x = a
def cmdEv (s : State) (a : ArrCmd) : EvArgs := EvArgs.cmd s.ev.cl a.id
/-- The command retires now. -/
def Retiring (a : ArrCmd) (s t : State) : Prop := Planned s t 0 .arrayCommandRetire (cmdEv s a)

/-- A cell command may start: it has not, no replay runs, and every earlier cell command has begun its last K-step. -/
def MayStart (a : ArrCmd) (s : State) : Prop :=
  s.ev.flag = false ∧ StepOf a s ∧ a.started = none ∧ (s.cluster s.ev.cl).replaying = false ∧
    (s.cluster s.ev.cl).mayStart a.id = true
def startedNow (s : State) (a : ArrCmd) : ArrCmd := { a with started := some s.cycle, nextStart := 8 * s.cycle }
/-- A load or a predictor step starts with its first fetch. -/
def startsFetch (a : ArrCmd) (weight : Bool) : Event :=
  becomesIf (fun s => MayStart a s ∧ a.op = (if weight then .wload else .pred))
    fun s => (s.modCmd s.ev.cl a.id (startedNow s)).schedule 0 .arraySlotFetch { cmdEv s a with n := 0, flag := weight }
/-- A multiply starts with the fetch of its first activation slot; with T, and with no earlier command on the accumulator
still to take effect, the accumulator is zero. -/
def mulStarts (a : ArrCmd) : Event where
  need s := MayStart a s ∧ a.op = .mul ∧ a.zeroed = false ∧ s.accEarlier s.ev.cl a = false
  holds s t := Planned s t 0 .arraySlotFetch { cmdEv s a with n := 0, flag := false } ∧
    (∀ i, ((t.core a.core).acc.get a.acc).rows.toList[i]? =
      if a.t then (if i < 32 then some 0 else none) else ((s.core a.core).acc.get a.acc).rows.toList[i]?) ∧
    SameMemory s t

/-- The tile of the slot that a fetch reads. -/
def fetched (a : ArrCmd) (s : State) : Nat := if s.ev.flag then a.bSlots.getD s.ev.n 0 else a.aSlots.getD (s.ev.n / perSlot a.fa) 0
/-- The wide port has served the command's use to its end, which a rotation may have put off (R185). -/
def SlotServed (a : ArrCmd) (s : State) : Prop := StepOf a s ∧ s.ev.w ≠ 0 ∧ (s.core a.core).wideEnd s.cycle 1 a.id ≤ s.cycle
/-- The wide port is free of rotation and array. -/
def PortFree (a : ArrCmd) (s : State) : Prop := StepOf a s ∧ s.ev.w = 0 ∧ (s.core a.core).wideFree s.cycle 1 ≤ s.cycle
/-- The wide port of the core serves the fetch for 16 cycles, or 8 for an N:M tile. -/
def fetchBegins (a : ArrCmd) (len : Nat) : Event :=
  becomesIf (fun s => PortFree a s ∧ len = (if s.ev.flag && a.nm then 8 else 16))
    fun s => (s.useWide a.core 1 a.id len (fetched a s)).schedule len .arraySlotFetch { s.ev with w := 1 }
/-- The step of a command waits for its wide port: for a use that goes first, or for one that came between. -/
def portWaits (a : ArrCmd) (i : Instr) (n : Nat) : Event :=
  becomesIf (fun s => StepOf a s ∧ a.started.isSome = true ∧ s.cycle < n ∧
      n = if s.ev.w = 0 then (s.core a.core).wideFree s.cycle 1 else (s.core a.core).wideEnd s.cycle 1 a.id)
    fun s => s.scheduleAt n i s.ev
def FetchDone (a : ArrCmd) (s : State) : Prop := SlotServed a s ∧ a.lastBegun = false
/-- A loaded tile stands in the shadow half of the latch, and the load retires. -/
def loadEnds (a : ArrCmd) : Event where
  need s := FetchDone a s ∧ s.ev.flag = true ∧ a.op = .wload
  holds s t := (t.cluster s.ev.cl).latchShadow = some (s.weightTile a 0) ∧ Retiring a s t ∧ t.cores = s.cores ∧ SameMemory s t
/-- After a dense activation slot comes the weight tile of the step. -/
def slotEnds (a : ArrCmd) : Event :=
  becomesIf (fun s => FetchDone a s ∧ s.ev.flag = false ∧ a.bm = false ∧ a.wl = false)
    fun s => s.schedule 0 .arraySlotFetch { cmdEv s a with n := s.ev.n, flag := true }
/-- A step starts at its exact time, in eighths of a core cycle, rounded down. -/
def weightEnds (a : ArrCmd) : Event where
  need s := FetchDone a s ∧ s.ev.flag = true ∧ a.op = .mul
  holds s t := { at_ := max a.nextStart (8 * s.cycle) / 8, what := .kStepStart, args := { cmdEv s a with n := s.ev.n } } ∈ t.agenda ∧
    t.cores = s.cores ∧ SameMemory s t

/-- A K-step starts: the halves of the latch swap, and its contribution lands 48 cycles later. -/
def stepStarts (a : ArrCmd) : Event where
  need s := StepOf a s ∧ a.op = .mul ∧ a.lastBegun = false ∧ a.wl = false
  holds s t := (t.cluster s.ev.cl).latchActive = some (s.weightTile a s.ev.n) ∧ (t.cluster s.ev.cl).latchShadow = none ∧
    Planned s t 48 .kStepLanding { cmdEv s a with n := s.ev.n } ∧ t.cores = s.cores ∧ SameMemory s t
def predStarts (a : ArrCmd) : Event where
  need s := StepOf a s ∧ a.op = .pred
  holds s t := Planned s t 50 .mpredResult (cmdEv s a) ∧ t.cores = s.cores ∧ SameMemory s t
/-- A contribution lands in its turn: the accumulator is what R56 to R59 make of it, and of the core nothing else changes. -/
def stepLands (a : ArrCmd) : Event where
  need s := StepOf a s ∧ a.landed = s.ev.n ∧ s.accEarlier s.ev.cl a = false ∧ a.zeroed = true ∧ s.ev.flag = false
  holds s t := (t.core a.core).acc.get a.acc = (s.stepOf a s.ev.n ((s.core a.core).acc.get a.acc)).1 ∧
    (∀ n, n ≠ a.acc → (t.core a.core).acc.get n = (s.core a.core).acc.get n) ∧
    (t.core a.core).banks = (s.core a.core).banks ∧ (∀ g, g ≠ a.core → t.core g = s.core g) ∧ SameMemory s t ∧
    (a.ksteps ≤ s.ev.n + 1 → Retiring a s t)
/-- A contribution out of its turn waits. -/
def stepWaits (a : ArrCmd) : Event :=
  becomesIf (fun s => StepOf a s ∧ (a.landed ≠ s.ev.n ∨ s.accEarlier s.ev.cl a = true)) fun s => s.schedule 1 .kStepLanding s.ev

/-- A command that retires pushes its token. -/
def retires (a : ArrCmd) (f : Fin 16) : Event where
  need s := StepOf a s ∧ a.retired = false ∧ a.push = some f
  holds s t := ((t.bank a.core (a.bank.castLE (by decide))).flag f).travel =
      ((s.bank a.core (a.bank.castLE (by decide))).flag f).travel + 1 ∧
    (∀ x ∈ (t.cluster s.ev.cl).cmds, x.id = a.id → x.retired = true) ∧ SameMemory s t

/-- A drain reads its tile when every earlier command on the accumulator has retired; T leaves zeros (R225). -/
def drainStarts (a : ArrCmd) : Event where
  need s := StepOf a s ∧ a.op = .drain ∧ a.started = none ∧ s.accUnretired s.ev.cl a = false ∧ a.c = false ∧
    s.accReplaying a.core a.acc = false
  holds s t := t.cmd s.ev.cl a.id = some { a with started := some s.cycle, snapRows := ((s.core a.core).acc.get a.acc).rows } ∧
    Planned s t 48 .drainWrite (cmdEv s a) ∧ (a.t = true → ((t.core a.core).acc.get a.acc).rows = Vector.replicate 32 0) ∧
    ((∀ x ∈ (s.cluster s.ev.cl).cmds, x.op ≠ .mul) → ((t.core a.core).acc.get a.acc).sumValid = false) ∧ SameMemory s t
/-- No drain reads and nothing zeroes an accumulator in its replay (R234). -/
def accWaits (a : ArrCmd) (i : Instr) : Event :=
  becomesIf (fun s => StepOf a s ∧ a.started = none ∧ a.retired = false ∧ s.accUnretired s.ev.cl a = false ∧
      s.accReplaying a.core a.acc = true) fun s => s.schedule 1 i s.ev
/-- The rows of an output tile, from its first byte up. -/
def rowsWritten (tile : Nat) (rows : List (List Byte)) (m : Memory) : Memory :=
  rows.zipIdx.foldl (fun m r => m.writeBytes (4096 * tile + 128 * r.2) r.1) m
/-- The scratchpad of the command's core after its output. -/
def Output (a : ArrCmd) (m : Memory) (s t : State) : Prop :=
  (t.core a.core).sp = m ∧ (∀ g, g ≠ a.core → (t.core g).sp = (s.core g).sp) ∧ t.hbm = s.hbm ∧ t.host = s.host
def drainWrites (a : ArrCmd) : Event where
  need := SlotServed a
  holds s t := Output a (rowsWritten a.out ((upTo 0 32).map fun i => (a.outRow a.i32 (a.snapRows.toList.getD i 0) i).1) (s.core a.core).sp) s t
def portTakes (a : ArrCmd) (i : Instr) : Event :=
  becomesIf (fun s => PortFree a s ∧ a.started.isSome = true)
    fun s => (s.useWide a.core 1 a.id 16 a.out).schedule 16 i { s.ev with w := 1 }

/-- `mzero` leaves zeros and no checksums, and retires (R226). -/
def zeroes (a : ArrCmd) : Event where
  need s := StepOf a s ∧ a.retired = false ∧ s.accUnretired s.ev.cl a = false ∧ s.accReplaying a.core a.acc = false
  holds s t := ((t.core a.core).acc.get a.acc).rows = Vector.replicate 32 0 ∧ ((t.core a.core).acc.get a.acc).sumValid = false ∧
    (∀ n, n ≠ a.acc → (t.core a.core).acc.get n = (s.core a.core).acc.get n) ∧ Retiring a s t ∧ SameMemory s t
/-- `msnap` takes its tile and its count at its start, and writes the tile as it lies (R227). -/
def snapTakes (a : ArrCmd) : Event :=
  becomesIf (fun s => StepOf a s ∧ a.started = none ∧ s.accReplaying a.core a.acc = false)
    fun s => (s.modCmd s.ev.cl a.id fun x =>
      { x with
        started := some s.cycle, snapRows := ((s.core a.core).acc.get a.acc).rows
        kdata0 := s.rowCount a.core a.acc }).schedule 48 .msnapWrite (cmdEv s a)
def snapWrites (a : ArrCmd) : Event where
  need s := SlotServed a s ∧ a.started.isSome = true
  holds s t := Output a ((upTo 0 32).foldl (fun m i => m.writeBytes (4096 * a.out + 128 * i) (leBytes 128 (a.snapRows.toList.getD i 0).toNat))
    (s.core a.core).sp) s t
/-- Which of the 64 neurons live, as a number (R229). -/
def liveMask (a : ArrCmd) (s : State) : Nat :=
  (((upTo 0 64).map fun n => predNeuron a.fa a.fb ((s.core a.core).tileRows (a.aSlots.getD 0 0))
    ((s.core a.core).tileRows (a.bSlots.getD 0 0)) a.kdata0 n).zipIdx).foldl (fun m r => if r.1.1 then m + 2 ^ r.2 else m) 0
def predEnds (a : ArrCmd) : Event where
  need := StepOf a
  holds s t := (t.bank a.core (a.bank.castLE (by decide))).k =
      ((s.bank a.core (a.bank.castLE (by decide))).k.set a.kd.val (BitVec.ofNat 32 (liveMask a s))).set (a.kd + 1).val
        (BitVec.ofNat 32 (liveMask a s / 2 ^ 32)) ∧ Retiring a s t ∧ SameMemory s t
/-- The list that `mscan` writes: how many, then KB plus the number of each set bit in rising order (R230). -/
def scanList (a : ArrCmd) : List Nat :=
  let set := (upTo 0 64).filter fun b => (a.kdata0.toNat + a.kdata1.toNat * 2 ^ 32).testBit b
  set.length :: set.map fun b => (a.kbase + BitVec.ofNat 32 b).toNat
def scanWrites (a : ArrCmd) : Event where
  need s := SlotServed a s ∧ a.started.isSome = true
  holds s t := Output a ((s.core a.core).sp.writeBytes (4096 * a.out) ((scanList a).flatMap fun w => leBytes 4 w)) s t

/-! ## Replay (R234) -/

def replayTime (l : List ArrCmd) : Nat := l.foldl (fun t a => t + 16 * (a.aSlots.length + a.bSlots.length) + 48) 0
def replayBegins (l : List ArrCmd) : Event where
  need s := s.ev.cl = clusterOf s.ev.g ∧ s.replayCmds s.ev.cl s.ev.g (Fin.ofNat 4 s.ev.n) = some l ∧ s.ev.flag = false ∧
    (s.cluster s.ev.cl).replaying = false
  holds s t := (t.cluster s.ev.cl).replaying = true ∧ (t.core s.ev.g).replays = (s.core s.ev.g).replays + 1 ∧
    ((t.core s.ev.g).acc.get (Fin.ofNat 4 s.ev.n)).rows = Vector.replicate 32 0 ∧
    Planned s t (replayTime l) .arrayReplay { s.ev with flag := true } ∧ SameMemory s t
/-- Another accumulator of the cluster waits for the end of a replay. -/
def replayWaits : Event :=
  becomesIf (fun s => s.ev.flag = false ∧ (s.cluster (clusterOf s.ev.g)).replaying = true ∧
    s.accReplaying s.ev.g (Fin.ofNat 4 s.ev.n) = false) fun s => s.schedule 1 .arrayReplay s.ev
/-- A replay that cannot be made escalates to a rollback. -/
def replayEscalates : Event :=
  becomesIf (fun s => s.ev.cl = clusterOf s.ev.g ∧ s.replayCmds s.ev.cl s.ev.g (Fin.ofNat 4 s.ev.n) = none ∧
      (s.ev.flag = true ∨ (s.cluster s.ev.cl).replaying = false))
    fun s => (s.modCluster s.ev.cl fun c => { c with replaying := false }).schedule 0 .intervalRollback
      { EvArgs.ofPart (s.partAt s.ev.g) with n := 42 }

/-! ## The table -/

inductive EngineEvent : Instr → Event → Prop
  | channel {c n} : EngineEvent .copyChannelStart (channelStarts c n)
  | channelWaits {c} : EngineEvent .copyChannelStart (channelWaits c)
  | row {c g k} : EngineEvent .copyRowCommit (rowCommits c g k)
  | copyEnds {c g k f} : EngineEvent .copyCommandComplete (copyEnds c g k f)
  | rotation : EngineEvent .rgrotExchange rotationStarts
  | rotationEnds {a b} : EngineEvent .rgrotExchangeEnd (rotationEnds a b)
  | grant {i} : EngineEvent .leaseGrant
      (becomesIf (fun s => (s.cluster s.ev.cl).holder = none ∧ i = Fin.ofNat 8 s.ev.n ∧
        bit (s.cluster s.ev.cl).requests i.val = true) (leaseGoes i))
  | leaseCycles {h} : EngineEvent .leaseEndCycles
      { need := fun s => (s.cluster s.ev.cl).holder = some h ∧ h = Fin.ofNat 8 s.ev.n ∧ (s.cluster s.ev.cl).granted = s.ev.id
        holds := LeaseOver h }
  | leaseCommands {h} : EngineEvent .leaseEndCommands
      { need := fun s => (s.cluster s.ev.cl).holder = some h ∧ (s.cluster s.ev.cl).leasecmd.toNat ≤ (s.cluster s.ev.cl).used
        holds := LeaseOver h }
  | startsFetch {a w} : EngineEvent .arrayCommandStart (startsFetch a w)
  | mulStarts {a} : EngineEvent .arrayCommandStart (mulStarts a)
  | fetchBegins {a n} : EngineEvent .arraySlotFetch (fetchBegins a n)
  | fetchWaits {a n} : EngineEvent .arraySlotFetch (portWaits a .arraySlotFetch n)
  | loadEnds {a} : EngineEvent .arraySlotFetch (loadEnds a)
  | slotEnds {a} : EngineEvent .arraySlotFetch (slotEnds a)
  | weightEnds {a} : EngineEvent .arraySlotFetch (weightEnds a)
  | stepStarts {a} : EngineEvent .kStepStart (stepStarts a)
  | predStarts {a} : EngineEvent .kStepStart (predStarts a)
  | stepLands {a} : EngineEvent .kStepLanding (stepLands a)
  | stepWaits {a} : EngineEvent .kStepLanding (stepWaits a)
  | retires {a f} : EngineEvent .arrayCommandRetire (retires a f)
  | drainStarts {a} : EngineEvent .drainStart (drainStarts a)
  | drainWaits {a} : EngineEvent .drainStart (accWaits a .drainStart)
  | zeroWaits {a} : EngineEvent .mzeroEffect (accWaits a .mzeroEffect)
  | snapWaits {a} : EngineEvent .msnapWrite (accWaits a .msnapWrite)
  | drainPortWaits {a n} : EngineEvent .drainWrite (portWaits a .drainWrite n)
  | snapPortWaits {a n} : EngineEvent .msnapWrite (portWaits a .msnapWrite n)
  | scanPortWaits {a n} : EngineEvent .mscanWrite (portWaits a .mscanWrite n)
  | drainPort {a} : EngineEvent .drainWrite (portTakes a .drainWrite)
  | drainWrites {a} : EngineEvent .drainWrite (drainWrites a)
  | zeroes {a} : EngineEvent .mzeroEffect (zeroes a)
  | snapTakes {a} : EngineEvent .msnapWrite (snapTakes a)
  | snapPort {a} : EngineEvent .msnapWrite (portTakes a .msnapWrite)
  | snapWrites {a} : EngineEvent .msnapWrite (snapWrites a)
  | predEnds {a} : EngineEvent .mpredResult (predEnds a)
  | scanWrites {a} : EngineEvent .mscanWrite (scanWrites a)
  | replayBegins {l} : EngineEvent .arrayReplay (replayBegins l)
  | replayWaits : EngineEvent .arrayReplay replayWaits
  | replayEscalates : EngineEvent .arrayReplay replayEscalates

end Sys2Proof.Claims
end

