-- ==== Sys2Proof/Claims/JobEvents.lean ====
section
/-! DEFINITION. Claims/JobEvents.lean: what the steps of queues, units, phases and barriers do (spec/05 R76-R96, spec/01 R11-R15,
spec/12 R248-R251, spec/18 R299-R301, spec/21 R313-R325, spec/22 R327). -/
namespace Sys2Proof.Claims
open Sys2Proof Sys2Proof.Machine

/-! ## Queues and their heads (R76-R79) -/

/-- The queue of a step. -/
def EvQueue (x : Queue) (s : State) : Prop := s.queue s.ev.p s.ev.q = some x
def headVA (x : Queue) : Nat := x.entryVA x.head
/-- How far a new TAIL lies ahead of HEAD. -/
def ahead (x : Queue) (s : State) : Nat := (s.ev.w - x.head).toNat
/-- A head that has not been looked at may be checked: the queue is enabled, holds an entry and is not being reset. -/
def HeadWaits (x : Queue) (s : State) : Prop :=
  EvQueue x s ∧ x.enabled = true ∧ x.checked = false ∧ x.head ≠ x.tail ∧ (s.part s.ev.p).qreset ≠ some s.ev.q ∧
    s.readsPoison s.ev.p (upTo (headVA x) 128) = false
def setChecked (x : Queue) : Queue := { x with checked := true }

/-! ## Dispatch (R84, R89, R90) -/

/-- Nothing spent stands in the Steppe, and no host node and no copy node with a free channel comes before a unit. -/
structure UnitsTurn (s : State) : Prop where
  pruned : s.prune s.ev.d = s
  hosts : s.bestSlot s.ev.d (fun x => !(s.part x.part).halted && s.kindOf x == 2) = none
  copies : 16 ≤ s.busyChannels s.ev.d ∨ s.bestSlot s.ev.d (fun x => !(s.part x.part).halted && s.kindOf x == 1) = none
/-- The first free slot for which a waiting node fits, with the node that R89 takes for it. -/
def Chosen (g : Fin 512) (k : Fin 3) (x : Slot) (s : State) : Prop :=
  ((s.freeSlots s.ev.d).findSome? fun y =>
    (s.bestSlot s.ev.d fun x => s.slotFits s.ev.d y.1 y.2 x && !s.promised s.ev.d x).map fun (x : Slot) => (y.1, y.2, x)) = some (g, k, x)
def dispatchedAt (n : Nat) (x : Die) : Die := { x with dispatchAt := n }
def startedUnit (n : Nat) (u : UnitInfo) : UnitInfo := { u with started := true, startedAt := n }

/-! ## Host nodes (R84) -/

/-- A doorbell names a host node that the host has been asked for. -/
structure AskedNode (j : Job) (i : Item) (n : Nat) (y : NodeSt) (s : State) : Prop where
  level : field s.ev.va 60 4 = 1 ∧ field s.ev.va 32 16 = n + 1
  job : (s.part s.ev.p).job = some j
  item : j.itemAt (field s.ev.va 54 6) (s.ev.va.setWidth 32) true = some i
  node : i.nodes[n]? = some y
  host : ∃ obj, y.kind = .host obj
  open_ : y.ready = true ∧ y.finished = false
  asked : ∀ d ∈ s.partDies s.ev.p, ∀ x ∈ (s.die d).steppe ++ (s.die d).outside,
    ¬ (x.part = s.ev.p ∧ x.item = i.num ∧ x.node = n)

/-! ## Pre-emption (R92, R299) -/

/-- A waiting node and the unit it may move out. -/
structure MovesOut (x : Slot) (slot : Nat) (g : Fin 512) (k : Fin 3) (q : Nat) (s : State) : Prop where
  choice : s.ev.flag = false ∧ s.preempting s.ev.d = none ∧ s.freeSlots s.ev.d = []
  waiting : s.topNode s.ev.d = some x
  room : s.poolSlot s.ev.d = some slot
  victim : pickVictim (s.victims s.ev.d x) = some (g, k, q)
  above : (s.part x.part).predelta ≠ 0 ∧ q + (s.part x.part).predelta.toNat ≤ s.slotPrio x
  asleep : (s.core g).active ≠ asBank k

/-! ## Phases (R86, R87; spec/21 R313, R318) -/

/-- The job of a step's partition is open. -/
def JobOpen (j : Job) (s : State) : Prop := (s.part s.ev.p).job = some j ∧ j.ended = false
/-- Nothing keeps the phase from closing: it is to close, its counter of graphs stands at zero, and every graph queue is empty or
shows its boundary. -/
structure MayClose (j : Job) (s : State) : Prop where
  job : JobOpen j s
  closing : j.phase.closing = true ∧ j.phase.sealing = false
  items : j.phase.graphs = 0
  queues : j.phase.forced = true ∨ ∀ x, some x ∈ j.queues.toList → s.atBoundary s.ev.p x = true
  runs : (s.part s.ev.p).halted = false
  ordered : ∀ d k, (s.stack d k).ored = []
def sealInput (s : State) (j : Job) : Job :=
  { j with phase := { j.phase with inputs := setBit j.phase.inputs s.ev.d.val true, lastEdge := edgeOf s.ev.p s.ev.d } }
/-- The input of the step's die may rise: its units are drained, the seal has begun, and its merges find room. -/
structure InputMay (j : Job) (s : State) : Prop where
  job : JobOpen j s
  drained : s.dieDrained s.ev.p s.ev.d = true
  room : s.overflowBlocked s.ev.d (s.mergedWords s.ev.d) = none
  sealing : j.phase.closing = true ∧ j.phase.sealing = true
  low : bit j.phase.inputs s.ev.d.val = false
def allInputs (s : State) (j : Job) : Bool := (s.partDies s.ev.p).all fun d => bit (sealInput s j).phase.inputs d.val
/-- The seal reaches the last die: RINCUR advances, the records are free, the phase completes. -/
structure Sealed (s t : State) : Prop where
  rincur : (t.part s.ev.p).rincur = (s.part s.ev.p).rincur + 1
  opens : Planned s t 0 .phaseOpen (EvArgs.ofPart s.ev.p)
  undo : ∀ k, (t.stack s.ev.d k).undo = []
  memory : SameMemory s t
/-- What a phase record says (R78, R86). -/
def phaseRecord (j : Job) (s : State) : BitVec 256 :=
  recordBits (workId 3 0 0 (BitVec.ofNat 32 j.phase.num)) 0 j.phase.status j.phase.reason 2 j.phase.okGraphs (s.devTime s.ev.p)
/-- The job takes a completed phase into its status. -/
def tookPhase (ph : Phase) (j : Job) : Job :=
  { j with
    past := j.past ++ [ph.status], okPhases := j.okPhases + b01 (ph.status == 0)
    reason := if j.status < ph.status then ph.reason else j.reason
    status := max j.status ph.status }
def jobEnds (j : Job) : Job := { j with ended := true, phase := { j.phase with closing := false, sealing := false } }
/-- Commands 5 and 6 end. -/
def cmdOver (q : Part) : Part := { q with cmd := if q.cmd = 5 || q.cmd = 6 then 0 else q.cmd }
/-- A phase closes on command (R87). -/
structure ClosesOn (n : Nat) (ends : Bool) (j : Job) (s t : State) : Prop where
  cmd : (t.part s.ev.p).cmd = n
  job : ∃ i, (t.part s.ev.p).job = some i ∧ i.phase.closing = true ∧ i.phase.forced = true ∧ i.phase.jobEnd = (j.phase.jobEnd || ends)
  closes : Planned s t 0 .phaseClose (EvArgs.ofPart s.ev.p)
  memory : SameMemory s t
  cores : t.cores = s.cores
def MayCommand (j : Job) (s : State) : Prop := JobOpen j s ∧ (s.part s.ev.p).cmd = 0 ∧ j.phase.closing = false

/-! ## Host stop, queue reset, swap (spec/22 R327, spec/18 R300, R301) -/

/-- A command travels to every die of the partition, 24 core cycles to the root and 44 to another. -/
def ToDies (i : Instr) (s t : State) : Prop :=
  ∀ d ∈ s.partDies s.ev.p, Planned s t (12 + 20 * edgeOf s.ev.p d + 12) i { EvArgs.ofPart s.ev.p with d := d, flag := true }
/-- The reset of a queue: its entries and its items complete by cancel. -/
def queueCleared (s : State) : State :=
  ((s.modPart s.ev.p fun x => { x with cmd := 3, qreset := some s.ev.q, qresetQ := s.ev.q }).cancelQueue s.ev.p s.ev.q).cancelItems s.ev.p
    fun (i : Item) => i.queue == s.ev.q

/-! ## Barriers (spec/12 R248, R251) -/

/-- A released member leaves ARRIVED for RELEASED. -/
def releasedBank (c : Nat) (b : Bank) : Bank :=
  if b.member c && b.arrived c then
    { b with colarr := setBit b.colarr c false, colrel := setBit b.colrel c true, colTravel := setBit b.colTravel c true }
  else b
structure Releases (s t : State) : Prop where
  travels : ∀ d ∈ s.partDies s.ev.p,
    Planned s t (12 + 20 * (s.ev.n + edgeOf s.ev.p d)) .colReleaseArrival { EvArgs.ofPart s.ev.p with d := d, id := s.ev.id }
  members : ∀ g k, t.bank g k = if s.inPart s.ev.p g then releasedBank s.ev.id (s.bank g k) else s.bank g k
  memory : SameMemory s t
/-- The release is there: no wait of the barrier is held any longer on the die. -/
structure ReleaseComes (s t : State) : Prop where
  members : ∀ g k, s.inPart s.ev.p g = true → dieOf g = s.ev.d →
    (t.bank g k).colTravel = setBit (s.bank g k).colTravel s.ev.id false ∧ (t.bank g k).colrel = (s.bank g k).colrel
  others : ∀ g, dieOf g ≠ s.ev.d → t.core g = s.core g
  memory : SameMemory s t

/-! ## Event operations (R96) -/

/-- The first operation of the unit takes effect on the event vector, and its token travels. -/
structure EventTakes (e : EvOp) (l : List EvOp) (j : Job) (s t : State) : Prop where
  vector : ∃ i, (t.part s.ev.p).job = some i ∧ i.ev.get e.ctx = setBit (j.ev.get e.ctx) e.bit e.set ∧
    ∀ c, c ≠ e.ctx → i.ev.get c = j.ev.get c
  ops : (t.bank s.ev.g s.ev.k).evops = l
  token : ∀ f, e.push = some f → ((t.bank s.ev.g s.ev.k).flag f).travel = ((evBank s).flag f).travel + 1
  memory : SameMemory s t
/-- What a set releases has ended. -/
def EventMay (e : EvOp) (l : List EvOp) (j : Job) (s : State) : Prop :=
  (evBank s).evops = e :: l ∧ e.id = s.ev.id ∧ (s.part s.ev.p).job = some j ∧
    (e.set = true → (∀ o ∈ (evBank s).ops, o.id ∈ e.after → o.doneAt .device = true) ∧ (∀ o ∈ (evBank s).replay, o.id ∉ e.after) ∧
      s.copiesOpen s.ev.g s.ev.k s.ev.n = false)

/-! ## Rollback (spec/21 R319-R325) -/

def rolledBack (cause : Nat) (q : Part) : Part :=
  { q with contCause := BitVec.ofNat 8 cause, rollbacks := q.rollbacks + 1, rbCount := q.rbCount + 1 }
/-- A rollback is allowed: the cause is one of rung 3 and the limit is not reached. -/
def MayRollBack (s : State) : Prop :=
  s.jobOpen s.ev.p = true ∧ s.ev.flag = false ∧ s.restarting s.ev.p = false ∧ s.ev.n < 44 ∧ s.ev.n ≠ 40 ∧
    (s.part s.ev.p).rbCount.toNat + 1 ≤ (s.part s.ev.p).rbLimit.toNat

/-! ## The table -/

inductive JobEvent : Instr → Event → Prop
  | doorbell {x} : JobEvent .queueDoorbell
      { need := fun s => EvQueue x s ∧ x.enabled = true ∧ x.device = false ∧ ahead x s ≤ 2 ^ x.logsize ∧
          (x.tail - x.head).toNat ≤ ahead x s
        holds := fun s t => t = (s.modQueue s.ev.p s.ev.q fun x => { x with tail := s.ev.w }).pokeQueue s.ev.p s.ev.q }
  | overflow {x} : JobEvent .queueDoorbell
      (becomesIf (fun s => EvQueue x s ∧ x.enabled = true ∧ (x.device = true ∨ 2 ^ x.logsize < ahead x s))
        fun s => s.setQueue s.ev.p s.ev.q fun x => { x with qovf := true })
  | accepts {x} : JobEvent .queueHeadCheck
      (becomesIf (fun s => HeadWaits x s ∧ x.graph = false ∧ s.checkLaunch s.ev.p (headVA x) = none)
        fun s => (s.modQueue s.ev.p s.ev.q setChecked).schedule 0 .entryDispatch s.ev)
  | rejects {x k} : JobEvent .queueHeadCheck
      (becomesIf (fun s => HeadWaits x s ∧ x.graph = false ∧ s.checkLaunch s.ev.p (headVA x) = some k)
        fun s => (s.endEntry s.ev.p s.ev.q x.head 3 (BitVec.ofNat 8 k)).advance s.ev.p s.ev.q)
  | launches {x} : JobEvent .entryDispatch
      (becomesIf (fun s => EvQueue x s ∧ x.graph = false ∧ s.mayDispatch s.ev.p s.ev.q x = true)
        fun s => s.dispatchLaunch s.ev.p s.ev.q x)
  | waitsForBits {x} : JobEvent .entryDispatch
      (becomesIf (fun s => EvQueue x s ∧ x.graph = false ∧ s.mayDispatch s.ev.p s.ev.q x = false) id)
  | places {g k x} : JobEvent .unitDispatch
      (becomesIf (fun s => UnitsTurn s ∧ Chosen g k x s ∧ (s.die s.ev.d).dispatchAt ≤ s.cycle)
        fun s => ((s.modDie s.ev.d (dispatchedAt (s.cycle + 2))).useSlot s.ev.d g k x).dispatchBy s.ev.d (s.cycle + 2))
  | paced {g k x} : JobEvent .unitDispatch
      (becomesIf (fun s => UnitsTurn s ∧ Chosen g k x s ∧ s.cycle < (s.die s.ev.d).dispatchAt)
        fun s => s.dispatchBy s.ev.d (s.die s.ev.d).dispatchAt)
  | asksHost {x} : JobEvent .unitDispatch
      (becomesIf (fun s => s.prune s.ev.d = s ∧
          s.bestSlot s.ev.d (fun x => !(s.part x.part).halted && s.kindOf x == 2) = some x)
        fun s => (s.askHost s.ev.d x).pokeDispatch s.ev.d)
  | starts {u} : JobEvent .unitStart
      (becomesIf (fun s => (evBank s).unit = some u ∧ u.started = false ∧ PlaceUntraced (evBank s) s)
        fun s => ((s.modBank s.ev.g s.ev.k fun b => { b with unit := some (startedUnit s.cycle u) }).modCore s.ev.g fun c =>
          (c.ownZero u.tiles).setSpill s.ev.k 0).startIfIdle s.ev.g s.ev.k 0)
  | completes {u} : JobEvent .unitCompletion
      (becomesIf (fun s => (evBank s).unit = some u ∧ (evBank s).left = 0 ∧ s.unitOpen s.ev.g s.ev.k = false)
        fun s => s.completeUnit s.ev.g s.ev.k u)
  | stillOpen {u} : JobEvent .unitCompletion
      (becomesIf (fun s => (evBank s).unit = some u ∧ (evBank s).left = 0 ∧ s.unitOpen s.ev.g s.ev.k = true)
        fun s => s.schedule 1 .unitCompletion s.ev)
  | hostNode {j i n y} : JobEvent .hostNodeDoorbell
      (becomesIf (AskedNode j i n y) fun s => s.nodeDone s.ev.p i.num n 0 0)
  | records {x} : JobEvent .completionRecord
      (becomesIf (fun s => EvQueue x s ∧ x.cplstall = true) fun s => State.drainRecords s.ev.p s.ev.q (x.held.length + 1) s)
  | cancels : JobEvent .cancelStop
      (becomesIf (fun s => (evBank s).cancelled = true ∧ (evBank s).unit.isSome = true ∧
          ((evBank s).st = .running ∨ (evBank s).st = .ready))
        fun s => s.stopUnit s.ev.g s.ev.k 1 0)
  | freezes {x slot g k q} : JobEvent .preemption
      (becomesIf (MovesOut x slot g k q)
        fun s => ((s.endExec g k).modBank g k fun b => b.park s.cycle .trapped).schedule 1 .preemption
          { EvArgs.at g k with
            d := s.ev.d, flag := true, id := slot, n := s.cycle, p := x.part, va := BitVec.ofNat 64 x.item, w := BitVec.ofNat 32 x.node })
  | saves {u} : JobEvent .preemption
      (becomesIf (fun s => s.ev.flag = true ∧ (evBank s).unit = some u ∧ (evBank s).cancelled = false ∧
          s.saveReady s.ev.g s.ev.k = true ∧ (s.die s.ev.d).dispatchAt ≤ s.cycle)
        fun s => (s.saveUnit s.ev.d s.ev.g s.ev.k u s.ev.id s.ev.n).startChosen s.ev.d s.ev.g s.ev.k)
  | savesLater {u} : JobEvent .preemption
      (becomesIf (fun s => s.ev.flag = true ∧ (evBank s).unit = some u ∧ (evBank s).cancelled = false ∧
          (s.saveReady s.ev.g s.ev.k = false ∨ s.cycle < (s.die s.ev.d).dispatchAt))
        fun s => s.schedule 1 .preemption s.ev)
  | closes {j} : JobEvent .phaseClose
      { need := MayClose j
        holds := fun s t => (∃ i, (t.part s.ev.p).job = some i ∧ i.phase.sealing = true) ∧
          ∀ d ∈ s.partDies s.ev.p, Planned s t 0 .sealInputRise { EvArgs.ofPart s.ev.p with d := d } }
  | inputRises {j} : JobEvent .sealInputRise
      (becomesIf
        (fun s => InputMay j s ∧ allInputs s j = false)
        fun s => (s.flushDie s.ev.p s.ev.d).modJob s.ev.p fun _ => sealInput s j)
  | lastInput {j} : JobEvent .sealInputRise
      { need := fun s => InputMay j s ∧ allInputs s j = true ∧ j.phase.fired = false ∧ s.sealPeers s.ev.p = []
        holds := fun s t => Planned s t 0 .sealLineFire { EvArgs.ofPart s.ev.p with d := s.ev.p, n := edgeOf s.ev.p s.ev.d } ∧
          ∃ i, (t.part s.ev.p).job = some i ∧ i.phase.fired = true }
  | lineFires : JobEvent .sealLineFire
      { holds := fun s t => ∀ d ∈ s.partDies s.ev.p,
          Planned s t (12 + 20 * (s.ev.n + edgeOf s.ev.p d)) .sealLineArrival { EvArgs.ofPart s.ev.p with d := d } }
  | lineArrives : JobEvent .sealLineArrival
      { need := fun s => (∀ k, (s.stack s.ev.d k).carries ((s.part s.ev.p).rincur + 1) = false) ∧ (s.die s.ev.d).hold = [] ∧
          (∀ d ∈ s.partDies s.ev.p, d ≠ s.ev.d → (s.die d).sealDone = true) ∧ s.sealPeers s.ev.p = []
        holds := Sealed }
  | jobEnd {j} : JobEvent .phaseOpen
      (becomesIf
        (fun s => JobOpen j s ∧ j.phase.sealing = true ∧ j.phase.pb = false ∧ j.phase.jobEnd = true ∧ (s.part s.ev.p).rpMode = 0)
        fun s => ((s.putRecord s.ev.p 0 (phaseRecord j s)).modJob s.ev.p (tookPhase j.phase)).schedule 0 .jobCompletion
          (EvArgs.ofPart s.ev.p))
  | jobCompletes {j} : JobEvent .jobCompletion
      (becomesIf (JobOpen j)
        fun s => (((s.modJob s.ev.p jobEnds).endJobRecord s.ev.p j.status j.reason).disableQueues s.ev.p).modPart s.ev.p cmdOver)
  | closePhase {j} : JobEvent .closePhase { need := MayCommand j, holds := ClosesOn 5 false j }
  | endJob {j} : JobEvent .endJob { need := MayCommand j, holds := ClosesOn 6 true j }
  | hostStop : JobEvent .hostStop
      { need := fun s => s.ev.flag = false ∧ s.ev.id = 0 ∧ (s.part s.ev.p).cmd = 0 ∧ (s.part s.ev.p).hstop = false
        holds := fun s t => (t.part s.ev.p).hstop = true ∧ (t.part s.ev.p).cmd = 1 ∧ ToDies .hostStop s t ∧ t.cores = s.cores }
  | hostResume : JobEvent .hostResume
      { need := fun s => s.ev.flag = false ∧ (s.part s.ev.p).cmd = 0 ∧ (s.part s.ev.p).hstop = true
        holds := fun s t => (t.part s.ev.p).hstop = false ∧ (t.part s.ev.p).cmd = 2 ∧ ToDies .hostResume s t ∧ t.cores = s.cores }
  | resets : JobEvent .queueReset
      (becomesIf
        (fun s => s.ev.flag = false ∧ s.ev.id = 0 ∧ (s.part s.ev.p).cmd = 0 ∧ (s.part s.ev.p).qreset = none ∧
          ((queueCleared s).part s.ev.p).trcOpen = false)
        fun s => (queueCleared s).resetDone s.ev.p s.ev.q)
  | resetWaits {q} : JobEvent .queueReset
      (becomesIf
        (fun s => s.ev.flag = false ∧ s.ev.id = 0 ∧ (s.part s.ev.p).cmd = 0 ∧ (s.part s.ev.p).qreset = some q)
        fun s => (s.modPart s.ev.p fun x => { x with cmd := 3 }).schedule 1 .queueReset { s.ev with id := 1 })
  | truncated : JobEvent .resetTruncatedTrace
      { need := fun s => (s.part s.ev.p).job = none
        holds := fun s t => (t.part s.ev.p).trcOpen = false ∧ (t.part s.ev.p).qreset = none ∧ t.cores = s.cores }
  | swaps : JobEvent .partitionSwap
      (becomesIf (fun s => s.ev.id = 0 ∧ (s.part s.ev.p).cmd = 0 ∧ s.feature 7 = true)
        fun s => (s.modPart s.ev.p fun q => { q with cmd := 4 }).schedule 0 .partitionSwap { s.ev with id := 1 })
  | flips : JobEvent .partitionSwap
      { need := fun s => s.ev.id = 2 ∧ s.haltDone s.ev.p = true
        holds := fun s t => (t.part s.ev.p).job = (s.part s.ev.p).shadowJob ∧ (t.part s.ev.p).shadowJob = (s.part s.ev.p).job ∧
          (∀ g, s.inPart s.ev.p g = true → (t.core g).sp = (s.core g).spShadow ∧ (t.core g).spShadow = (s.core g).sp ∧
            (t.core g).owner = (s.core g).ownerShadow ∧ (t.core g).ownerShadow = (s.core g).owner) ∧
          t.hbm = s.hbm ∧ t.host = s.host ∧ Planned s t swapCycles .partitionSwap { s.ev with id := 3 } }
  | swapResumes : JobEvent .partitionSwap
      (becomesIf (fun s => s.ev.id = 3) fun s => s.swapResume s.ev.p)
  | writebackEnds : JobEvent .shadowWritebackEnd
      { holds := fun s t => (∀ d ∈ s.partDies s.ev.p, (t.die d).writeback = false) ∧ t.cores = s.cores ∧ SameMemory s t }
  | rises : JobEvent .colInputRise
      (becomesIf
        (fun s => (evBank s).arrived s.ev.id = true ∧
          (s.ev.flag = true → s.doneBelow s.ev.g s.ev.k s.ev.va.toNat s.ev.n .system = true))
        fun s => s.colLook s.ev.p (dieOf s.ev.g) s.ev.id)
  | fires : JobEvent .colReleaseFire { holds := Releases }
  | arrives : JobEvent .colReleaseArrival
      { need := fun s => ∀ x ∈ s.agenda, x.what = .colReleaseArrival → x.args.p = s.ev.p → x.args.d = s.ev.d → x.args.id ≠ s.ev.id
        holds := ReleaseComes }
  | sets {e l j} : JobEvent .evsetEffect { need := EventMay e l j, holds := EventTakes e l j }
  | clears {e l j} : JobEvent .evclrEffect { need := EventMay e l j, holds := EventTakes e l j }
  | rollsBack : JobEvent .intervalRollback
      (becomesIf MayRollBack
        fun s => (((s.modPart s.ev.p (rolledBack s.ev.n)).stopAll s.ev.p).restore s.ev.p).schedule 1 .phaseRestart
          (EvArgs.ofPart s.ev.p))
  | kills : JobEvent .intervalRollback
      (becomesIf (fun s => s.jobOpen s.ev.p = true ∧ s.ev.flag = false ∧ 44 ≤ s.ev.n)
        fun s => s.killJob s.ev.p s.ev.n)
  | restarts {j} : JobEvent .phaseRestart
      { need := fun s => (s.part s.ev.p).job = some j ∧ j.phase.pbq = [] ∧ (s.part s.ev.p).cmd = 0 ∧ s.swapHalted s.ev.p = false
        holds := fun s t => (∀ g, s.inPart s.ev.p g = true → (t.core g).sp = []) ∧ (t.part s.ev.p).halted = false ∧
          ∃ i, (t.part s.ev.p).job = some i ∧ i.ev = j.phase.evs ∧ i.phase.num = j.phase.num ∧
            i.items = j.items.filter fun (i : Item) => decide (i.num < j.phase.firstItem) }
  | undo {j} : JobEvent .undoTimeout
      (becomesIf (fun s => (s.part s.ev.p).job = some j ∧ j.phase.pressFrom.isSome = true) fun s => s.killJob s.ev.p 44)
  | hold {j} : JobEvent .holdTimeout
      (becomesIf (fun s => (s.part s.ev.p).job = some j ∧ j.phase.holdFrom.isSome = true) fun s => s.killJob s.ev.p 45)
  | sweeps {p} : JobEvent .lineTagSweep
      { need := fun s => s.partOfDie s.ev.d = some p
        holds := fun s t => ∀ k, (t.stack s.ev.d k).tagRest = sweepTag (s.part p).rincur (s.stack s.ev.d k).tagRest ∧
          (t.stack s.ev.d k).tags = (s.stack s.ev.d k).tags.map (fun y => (y.1, sweepTag (s.part p).rincur y.2)) ∧
          (t.stack s.ev.d k).undo = (s.stack s.ev.d k).undo }
  | passes : JobEvent .testPassComplete
      (becomesIf (fun s => s.ev.flag = true)
        fun s => s.modDie s.ev.d fun x => { x with passes := if x.passes = 255 then 255 else x.passes + 1 })
  | fails : JobEvent .testPassComplete
      (becomesIf (fun s => s.ev.flag = false)
        fun s => (s.modDie s.ev.d fun x => { x with failed := setBit x.failed (s.die s.ev.d).spare.val true }).fwRaise 4
          (BitVec.ofNat 8 s.ev.d.val) (BitVec.ofNat 8 (s.die s.ev.d).spare.val) 0)

end Sys2Proof.Claims
end

