-- ==== Sys2Proof/Claims/MWords.lean ====
section
/-! DEFINITION. Claims/MWords.lean: when a word of stream M may issue, what its own words do, and the commands it sends to the
matrix array (spec/02 R34, R37; spec/11 R212-R231). -/
namespace Sys2Proof.Claims
open Sys2Proof Sys2Proof.Machine

/-! ## Issue (spec/02 R28, spec/06 R104, R110) -/

/-- The flags are bound to M, the wait token is held, the push has room, in DETM the stamp is due, and no command in flight
still has to write a k register that the word names. -/
structure MReady (h : MHdr) (ks : List (Fin 8)) (s : State) : Prop where
  consumer : s.tb.consumes .m h.wait = true
  producer : s.tb.produces .m h.push = true
  token : s.tb.hasToken h.wait = true
  room : s.tb.hasRoom h.push = true
  stamp : s.tb.detm = true → s.stampDelta (BitVec.ofNat 24 s.turn.stamp) = 0
  regs : ∀ r ∈ ks, s.kPending s.turn.core s.turn.ctx r = false

/-- What an M word asks and does. -/
structure MForm where
  hdr : MHdr
  ks : List (Fin 8) := []
  need : State → Prop := fun _ => True
  upd : State → Bank → Bank := fun _ b => b
  base : State → State := fun s => s
  plan : State → State := fun s => s

/-- The pc and the loops after a word that takes no branch (R231, spec/06 R115). -/
def mMoved (b : Bank) : Bank :=
  { b with
    mpc := (loopStep b.mpc 1 b.mLoop0 b.mLoop1).1, mLoop0 := (loopStep b.mpc 1 b.mLoop0 b.mLoop1).2.1,
    mLoop1 := (loopStep b.mpc 1 b.mLoop0 b.mLoop1).2.2, mWait := none }

def mParts (b new : Bank) : Bank := { b with flags := new.flags, bpSkip := new.bpSkip }

/-- A word that retires when it issues. -/
structure MRetires (r : MForm) (s t : State) : Prop where
  only : OnlyBank (r.base s) t
  issued : t.turn.how = .issued
  bank : t.tb = mParts (r.upd s (mMoved s.tb)) t.tb
  tokens : TokensSent r.hdr.wait r.hdr.push s.tb t.tb
  agenda : t.agenda = pushAgenda (r.plan (r.base s)) r.hdr.push

/-! ## The stream's own words (R212, R231) -/

def setK (kd : Fin 8) (v : Word) (b : Bank) : Bank := { b with k := b.k.set kd.val v }
def openM (l : Bool) (r : LoopReg) (b : Bank) : Bank := if l then { b with mLoop1 := r } else { b with mLoop0 := r }
/-- A taken branch: a loop it leaves ends, and nothing issues for two cycles. -/
def jumpedM (pre : Bank) (tgt : Word) (b : Bank) : Bank :=
  { b with
    mpc := tgt, mLoop0 := (loopJump tgt pre.mLoop0 pre.mLoop1).1, mLoop1 := (loopJump tgt pre.mLoop0 pre.mLoop1).2,
    mPause := 2 }
def endsM (b : Bank) : Bank := { b with mEnded := true, left := b.left - 1 }
/-- The lease of its cluster is the core's. -/
def Holds (s : State) : Prop := (s.cluster (clusterOf s.turn.core)).holder = some (inCluster s.turn.core)
/-- The lease is free and no grant is on its way. -/
def LeaseFree (s : State) : Prop :=
  (s.cluster (clusterOf s.turn.core)).holder = none ∧ (s.tb.detm = true ∨ s.grantPending (clusterOf s.turn.core) = false)
/-- The core takes the lease: its commands count from 0 and its LEASECYC cycles begin. -/
def leaseTaken (s : State) : State :=
  let cl := clusterOf s.turn.core
  (s.modCluster cl fun c =>
    { c with
      holder := some (inCluster s.turn.core), granted := s.cycle, used := 0
      requests := setBit c.requests (inCluster s.turn.core).val false }).schedule
    (s.cluster cl).leasecyc.toNat .leaseEndCycles { EvArgs.zero with cl := cl, n := (inCluster s.turn.core).val, id := s.cycle }

inductive MWordForm : Instr → MForm → Prop
  | mnop {h} : MWordForm (.mnop h) { hdr := h }
  | mlease {h} : MWordForm (.mlease h) { hdr := h, need := Holds }
  | mleaseTakes {h} : MWordForm (.mlease h) { hdr := h, need := LeaseFree, base := leaseTaken }
  | mfree {h} : MWordForm (.mfree h) { hdr := h, base := fun s => s.endLease s.turn.core }
  | mfin {h} : MWordForm (.mfin h)
      { hdr := h, upd := fun _ => endsM
        plan := endsUnit }
  | mkli {h kd i} : MWordForm (.mkli h kd i) { hdr := h, ks := [kd], upd := fun _ => setK kd i }
  | mkadd {h kd ks i} : MWordForm (.mkadd h kd ks i)
      { hdr := h, ks := [kd, ks], upd := fun s => setK kd (s.tb.k.get ks + i.signExtend 32) }
  | mloopImm {h l n d} : MWordForm (.mloop h l (.imm n) d)
      { hdr := h, upd := fun s => openM l (opens s.tb.mpc (n.setWidth 32) (d.setWidth 32)) }
  | mloopReg {h l r d} : MWordForm (.mloop h l (.kreg r) d)
      { hdr := h, ks := [r], upd := fun s => openM l (opens s.tb.mpc (s.tb.k.get r) (d.setWidth 32)) }
  | mbnzTaken {h kn d} : MWordForm (.mbnz h kn d)
      { hdr := h, ks := [kn], need := fun s => s.tb.k.get kn ≠ 1 ∧ (s.part s.tb.part).trcBr = false
        upd := fun s b => jumpedM s.tb (s.tb.mpc + d.signExtend 32) (setK kn (s.tb.k.get kn - 1) b) }
  | mbnzEnds {h kn d} : MWordForm (.mbnz h kn d)
      { hdr := h, ks := [kn], need := fun s => s.tb.k.get kn = 1, upd := fun _ => setK kn 0 }

/-! ## Commands (R213, R218, R219, R359) -/

/-- A ring that the array reads: its consumer is the array, and n of its slots are filled, all in the read set. -/
def Feeds (r : Fin 16) (n : Nat) (x : Ring) (s : State) : Prop :=
  s.tb.ring r = some x ∧ x.cons.val = 2 ∧ n ≤ x.count ∧ n ≤ x.nfill ∧ ∀ t ∈ (upTo x.head n).map x.tile, s.tb.mayRead 2 t = true
/-- A ring that the array writes: its producer is the array, and the slot at TAIL is free, in the write set. -/
def Drains (r : Fin 16) (x : Ring) (s : State) : Prop :=
  s.tb.ring r = some x ∧ x.prod.val = 2 ∧ x.free ≠ 0 ∧ s.tb.mayWrite 2 (x.tile x.tail) = true
/-- A descriptor passes its checks (MATRIX_FAULT 1, 2 and 3). -/
structure DescOk (u : DescUse) (s : State) : Prop where
  fields : s.descCheck u.addr = none
  parts : s.partsCheck u = none
  smode : s.smodeCheck u = none
/-- The bank may use the accumulator (spec/18 R297). -/
def AccFree (a : Fin 4) (s : State) : Prop := (s.core s.turn.core).accCheck s.turn.ctx a = none
/-- The array has a place for one more command of the core. -/
def ArrayRoom (s : State) : Prop := s.inflight s.turn.core < 8

/-- Filled slots become claimed; the slot at TAIL is reserved for a command (R191, R359). -/
def claimed (n : Nat) (x : Ring) : Ring :=
  { x with head := (x.head + n) % x.count, nfill := x.nfill - n, nclaim := x.nclaim + n }
def reservedFor (id : Nat) (x : Ring) : Ring :=
  { x with tail := (x.tail + 1) % x.count, nres := x.nres + 1, res := x.res ++ [(id, false)] }

/-- A command as its word sends it: what must hold beside the lease, the command, and what else its word does. -/
structure MCmd where
  hdr : MHdr
  ks : List (Fin 8)
  need : State → Prop
  cmd : State → ArrCmd
  more : State → State → Prop

/-- The command is in the array of its cluster, and its first event is six cycles later; its push is owed. -/
structure MSends (r : MCmd) (s t : State) : Prop where
  issued : t.turn.how = .issued
  tokens : TokensOwed r.hdr.wait r.hdr.push s.tb t.tb
  moved : t.tb.mpc = (mMoved s.tb).mpc ∧ t.tb.mLoop0 = (mMoved s.tb).mLoop0 ∧ t.tb.mLoop1 = (mMoved s.tb).mLoop1
  commands : (t.cluster (clusterOf s.turn.core)).cmds = (s.cluster (clusterOf s.turn.core)).cmds ++ [r.cmd s]
  counted : (t.cluster (clusterOf s.turn.core)).used = (s.cluster (clusterOf s.turn.core)).used + 1
  first : { at_ := s.cycle + 6, what := (r.cmd s).op.first,
            args := { EvArgs.zero with cl := clusterOf s.turn.core, id := (s.cluster (clusterOf s.turn.core)).nextId } } ∈ t.agenda
  clusters : ∀ c, c ≠ clusterOf s.turn.core → t.cluster c = s.cluster c
  cores : ∀ g, g ≠ s.turn.core → t.core g = s.core g
  memory : SameMemory s t
  streams : t.tb.a = s.tb.a ∧ t.tb.k = s.tb.k ∧ t.tb.cols = s.tb.cols ∧ t.tb.inflight = s.tb.inflight ∧ t.tb.ops = s.tb.ops
  values : ∀ n, ((t.core s.turn.core).acc.get n).rows = ((s.core s.turn.core).acc.get n).rows
  more : r.more s t

/-- Slots of a command's operands: bytes of K-steps per activation slot (R215). -/
def aCount (k : Nat) (fa : Fmt) : Nat := (k + perSlot fa - 1) / perSlot fa
def Live (a : Fin 4) (v : Bool) (s t : State) : Prop := (t.core s.turn.core).acclive.getLsbD a.val = v
def RingIs (r : Fin 16) (x : Ring) (t : State) : Prop := t.tb.ring r = some x

inductive MCmdForm : Instr → MCmd → Prop
  | mmul {h t c ra rb acc ks fa fb bm nm ka kb i32 x y} : ra ≠ rb → MCmdForm (.mmul h t c ra rb acc ks fa fb bm nm ka kb false i32)
      { hdr := h, ks := [ka, kb]
        need := fun s => AccFree acc s ∧
          mulFormats fa fb t i32 ((s.core s.turn.core).acc.get acc).i32 none = none ∧ ArrayRoom s ∧
          Feeds ra (aCount ks.val fa) x s ∧ Feeds rb ks.val y s ∧
          DescOk (mulUseA s ka ks.val fa bm) s ∧ DescOk (nmUse s kb ks.val fb nm) s ∧
          ((s.core s.turn.core).descAt (s.tb.k.get ka).toNat).nmmode = 0 ∧
          (bm = true → ((s.core s.turn.core).descAt (s.tb.k.get ka).toNat).tr = false) ∧
          (nm = true ↔ ((s.core s.turn.core).descAt (s.tb.k.get kb).toNat).nmmode ≠ 0) ∧
          (nm = true → ((s.core s.turn.core).descAt (s.tb.k.get kb).toNat).tr = false) ∧ 0 < ks.val
        cmd := fun s =>
          { s.newCmd .mul h.push with
            t := t, c := c, acc := acc, ksteps := ks.val, fa := fa, fb := fb, bm := bm, nm := nm, i32 := i32, ra := ra, rb := rb
            aSlots := (upTo x.head (aCount ks.val fa)).map x.tile, bSlots := (upTo y.head ks.val).map y.tile
            da := some (s.readDesc (mulUseA s ka ks.val fa bm)), db := some (s.readDesc (nmUse s kb ks.val fb nm)) }
        more := fun s u => Live acc true s u ∧ RingIs ra (claimed (aCount ks.val fa) x) u ∧ RingIs rb (claimed ks.val y) u ∧
          ((u.core s.turn.core).acc.get acc).i32 = (if t then i32 else ((s.core s.turn.core).acc.get acc).i32) }
  | mmulLatched {h t c ra rb acc fa fb bm nm ka kb i32 x f} : MCmdForm (.mmul h t c ra rb acc 1 fa fb bm nm ka kb true i32)
      { hdr := h, ks := [ka]
        need := fun s => AccFree acc s ∧ s.latched = some f ∧
          mulFormats fa fb t i32 ((s.core s.turn.core).acc.get acc).i32 (some f) = none ∧ ArrayRoom s ∧ Feeds ra 1 x s ∧
          DescOk (mulUseA s ka 1 fa bm) s ∧ ((s.core s.turn.core).descAt (s.tb.k.get ka).toNat).nmmode = 0 ∧
          (bm = true → ((s.core s.turn.core).descAt (s.tb.k.get ka).toNat).tr = false)
        cmd := fun s =>
          { s.newCmd .mul h.push with
            t := t, c := c, acc := acc, ksteps := 1, fa := fa, fb := fb, bm := bm, nm := nm, wl := true, i32 := i32, ra := ra, rb := rb
            aSlots := (upTo x.head 1).map x.tile, da := some (s.readDesc (mulUseA s ka 1 fa bm)) }
        more := fun s u => Live acc true s u ∧ RingIs ra (claimed 1 x) u }
  | mwload {h rb fb kb y} : MCmdForm (.mwload h rb fb kb)
      { hdr := h, ks := [kb]
        need := fun s => 1 ≤ fmtCode fb ∧ fmtCode fb ≤ 7 ∧ ArrayRoom s ∧ Feeds rb 1 y s ∧ DescOk (nmUse s kb 1 fb false) s ∧
          ((s.core s.turn.core).descAt (s.tb.k.get kb).toNat).nmmode = 0
        cmd := fun s =>
          { s.newCmd .wload h.push with
            fb := fb, rb := rb, bSlots := (upTo y.head 1).map y.tile, db := some (s.readDesc (nmUse s kb 1 fb false)) }
        more := fun _ u => RingIs rb (claimed 1 y) u }
  | mwloadnm {h rb fb kb y} : MCmdForm (.mwloadnm h rb fb kb)
      { hdr := h, ks := [kb]
        need := fun s => 1 ≤ fmtCode fb ∧ fmtCode fb ≤ 5 ∧ ArrayRoom s ∧ Feeds rb 1 y s ∧ DescOk (nmUse s kb 1 fb true) s ∧
          ((s.core s.turn.core).descAt (s.tb.k.get kb).toNat).nmmode ≠ 0 ∧
          ((s.core s.turn.core).descAt (s.tb.k.get kb).toNat).tr = false
        cmd := fun s =>
          { s.newCmd .wload h.push with
            fb := fb, nm := true, rb := rb, bSlots := (upTo y.head 1).map y.tile, db := some (s.readDesc (nmUse s kb 1 fb true)) }
        more := fun _ u => RingIs rb (claimed 1 y) u }
  | mdrain {h t c ro acc f x} : MCmdForm (.mdrain h t c false ro acc f none)
      { hdr := h, ks := []
        need := fun s => AccFree acc s ∧ drainFormat f false ((s.core s.turn.core).acc.get acc).i32 = true ∧ ArrayRoom s ∧ Drains ro x s
        cmd := fun s =>
          { s.newCmd .drain h.push with
            t := t, c := c, acc := acc, fa := f, ra := ro, out := x.tile x.tail, i32 := ((s.core s.turn.core).acc.get acc).i32 }
        more := fun s u => RingIs ro (reservedFor (s.cluster (clusterOf s.turn.core)).nextId x) u ∧ (t = true → Live acc false s u) }
  | mdrainDesc {h t c q ro acc f r x} : MCmdForm (.mdrain h t c q ro acc f (some r))
      { hdr := h, ks := [r]
        need := fun s => AccFree acc s ∧ drainFormat f q ((s.core s.turn.core).acc.get acc).i32 = true ∧ ArrayRoom s ∧ Drains ro x s ∧
          s.descCheck (s.tb.k.get r).toNat = none ∧
          s.partsCheck { addr := (s.tb.k.get r).toNat, scaled := q, vec := 1, vecToo := true, mbytes := 0, mrows := 0, mper := 0 } = none
        cmd := fun s =>
          { s.newCmd .drain h.push with
            t := t, c := c, q := q, acc := acc, fa := f, ra := ro, out := x.tile x.tail
            i32 := ((s.core s.turn.core).acc.get acc).i32
            da := some (s.readDesc
              { addr := (s.tb.k.get r).toNat, scaled := q, vec := 1, vecToo := true, mbytes := 0, mrows := 0, mper := 0 }) }
        more := fun s u => RingIs ro (reservedFor (s.cluster (clusterOf s.turn.core)).nextId x) u ∧ (t = true → Live acc false s u) }
  | mzero {h acc i32} : MCmdForm (.mzero h acc i32)
      { hdr := h, ks := [], need := fun s => AccFree acc s ∧ ArrayRoom s
        cmd := fun s => { s.newCmd .zero h.push with acc := acc, i32 := i32 }
        more := fun s u => Live acc true s u ∧ ((u.core s.turn.core).acc.get acc).i32 = i32 }
  | msnap {h ro acc kd x} : MCmdForm (.msnap h ro acc kd)
      { hdr := h, ks := [kd], need := fun s => AccFree acc s ∧ ArrayRoom s ∧ Drains ro x s
        cmd := fun s =>
          { s.newCmd .snap h.push with
            acc := acc, ra := ro, out := x.tile x.tail, kd := kd, i32 := ((s.core s.turn.core).acc.get acc).i32
            fa := if ((s.core s.turn.core).acc.get acc).i32 then .int32 else .fp32 }
        more := fun s u => RingIs ro (reservedFor (s.cluster (clusterOf s.turn.core)).nextId x) u }
  | mpred {h ra rb fa fb kd kt x y} : ra ≠ rb → MCmdForm (.mpred h ra rb fa fb kd kt)
      { hdr := h, ks := [kd, kd + 1, kt]
        need := fun s => (1 ≤ fmtCode fa ∧ fmtCode fa ≤ 3) ∧ (fb = .bf16 ∨ fb = .fp16) ∧ ArrayRoom s ∧ Feeds ra 1 x s ∧ Feeds rb 1 y s
        cmd := fun s =>
          { s.newCmd .pred h.push with
            ksteps := 1, fa := fa, fb := fb, ra := ra, rb := rb, aSlots := (upTo x.head 1).map x.tile
            bSlots := (upTo y.head 1).map y.tile, kd := kd, kdata0 := s.tb.k.get kt }
        more := fun _ u => RingIs ra (claimed 1 x) u ∧ RingIs rb (claimed 1 y) u }
  | mscan {h ro km kb x} : MCmdForm (.mscan h ro km kb)
      { hdr := h, ks := [km, km + 1, kb], need := fun s => ArrayRoom s ∧ Drains ro x s
        cmd := fun s =>
          { s.newCmd .scan h.push with
            ra := ro, out := x.tile x.tail, kdata0 := s.tb.k.get km, kdata1 := s.tb.k.get (km + 1), kbase := s.tb.k.get kb }
        more := fun s u => RingIs ro (reservedFor (s.cluster (clusterOf s.turn.core)).nextId x) u }

end Sys2Proof.Claims
end

