-- ==== Sys2Proof/Claims/AWords.lean ====
section
/-! DEFINITION. Claims/AWords.lean: the words of stream A beside arithmetic, branches and accesses: fences, Col barriers, system
words, handles, owner bits, rings, launches, events and copies. -/
namespace Sys2Proof.Claims
open Sys2Proof Sys2Proof.Machine

/-- A word without an operand that only changes its bank. -/
def changes (h : AHdr) (srcs : List (Fin 32)) (need : State → Prop) (f : State → Bank → Bank) : AForm :=
  { wait := h.wait, push := h.push, srcs := srcs, need := need, upd := f }

/-! ## Fences (spec/12 R242) -/

/-- Every earlier access is confirmed, and none waits to be sent again (spec/09 R172). -/
def AllConfirmed (s : State) : Prop := s.tb.replay = [] ∧ ∀ o ∈ s.tb.ops, o.confirmed = true
/-- The earlier accesses that a value still comes from, or that an earlier acquire fence holds. -/
def returning (b : Bank) : List Nat :=
  (b.live.filter fun (o : AOp) => o.body.returns || b.acqFence.contains o.id).map fun o => o.id
def outstanding (b : Bank) : List Nat := b.live.map fun (o : AOp) => o.id
def acquires (l : Bank → List Nat) (b : Bank) : Bank := { b with acqFence := l b }
/-- A release fence covers the accesses and the copy commands so far, at its scope. -/
def releases (sc : Scope) (s : State) (b : Bank) : Bank :=
  { b with relFence := b.relFence ++ [(b.nextId, (s.die (dieOf s.turn.core)).nextCopy, sc)] }
/-- Everything the unit's A stream has sent has performed at a scope: its accesses, and its copy commands have completed (R238). -/
def AllPerformed (sc : Scope) (s : State) : Prop := s.released s.turn.core s.turn.ctx sc = true
def seals (b : Bank) : Bank := { b with sealed := true, drained := true }

/-! ## Col barriers (spec/12 R248-R250) -/

/-- A Col barrier may be arrived at: no release fence waits, the barrier is not in error, the unit is a member and has not
arrived yet. -/
structure MayArrive (c : Nat) (s : State) : Prop where
  fence : s.relOk s.turn.core s.turn.ctx = true
  good : (s.part s.tb.part).colerr.getLsbD c = false
  member : ∃ u, s.tb.unit = some u ∧ u.colmask.getLsbD c = true
  idle : s.tb.colarr.getLsbD c = false
def arrives (c : Nat) (b : Bank) : Bank := { b with colarr := setBit b.colarr c true, colrel := setBit b.colrel c false }
/-- The unit's input rises in this cycle, or once what it has sent has performed (R249, R251). -/
def rises (c : Nat) (drain : Bool) (s : State) : State :=
  s.schedule 0 .colInputRise
    { EvArgs.at s.turn.core s.turn.ctx with
      p := s.tb.part, id := c, flag := drain, n := (s.die (dieOf s.turn.core)).nextCopy, va := BitVec.ofNat 64 s.tb.nextId }
/-- A wait at a Col barrier is over: no error, no arrival that is not released yet, and the release has come to the die. -/
structure ColOver (c : Nat) (s : State) : Prop where
  good : (s.part s.tb.part).colerr.getLsbD c = false
  released : s.tb.colarr.getLsbD c = false
  here : s.tb.colrel.getLsbD c = true → s.tb.colTravel.getLsbD c = false
def leaves (c : Nat) (b : Bank) : Bank := { b with colrel := setBit b.colrel c false }

/-! ## Handles (spec/04 R71, R72) -/

/-- A handle word makes the handle v: its source has a format, its own reason does not hold, and v passes the checks of R67. -/
structure HandleOk (src : Fin 16) (bad : State → Prop) (v : State → BitVec 256) (s : State) : Prop where
  format : hFmt (s.hreg src) < 9
  own : ¬bad s
  good : checkHandle (v s) = .ok
def makes (h : AHdr) (d : Fin 16) (srcs : List (Fin 32)) (src : Fin 16) (bad : State → Prop) (v : State → BitVec 256) : AForm :=
  changes h srcs (HandleOk src bad v) fun s b => { b with h := b.h.set d.val (v s) }
/-- Fields of a handle set anew: rows, row 0, columns, column 0, pitch (R65). -/
def withRows (n : Nat) (h : BitVec 256) : BitVec 256 := setBits h 96 32 n
def withRow0 (n : Nat) (h : BitVec 256) : BitVec 256 := setBits h 128 32 n
def withCols (n : Nat) (h : BitVec 256) : BitVec 256 := setBits h 160 24 n
def withCol0 (n : Nat) (h : BitVec 256) : BitVec 256 := setBits h 192 24 n
def withPitch (n : Nat) (h : BitVec 256) : BitVec 256 := setBits h 216 32 n
/-- Low 32 bits, and bits 55:32, of a register. -/
def lo32 (v : DWord) : Nat := v.toNat % 2 ^ 32
def mid24 (v : DWord) : Nat := v.toNat / 2 ^ 32 % 2 ^ 24
/-- A view: offsets in the register k, sizes in the next (R71). -/
def viewed (s : State) (src : Fin 16) (k : Fin 32) : BitVec 256 :=
  let v := s.hreg src
  let o := s.rA k
  let n := s.rA (succReg k)
  if hTR v then withCols (lo32 n) (withRows (mid24 n) (withCol0 (hCol0 v + lo32 o) (withRow0 (hRow0 v + mid24 o) v)))
  else withCols (mid24 n) (withRows (lo32 n) (withCol0 (hCol0 v + mid24 o) (withRow0 (hRow0 v + lo32 o) v)))
def viewBad (src : Fin 16) (k : Fin 32) (s : State) : Prop :=
  let v := s.hreg src
  let o := s.rA k
  let n := s.rA (succReg k)
  lo32 n = 0 ∨ mid24 n = 0 ∨ winRows v < lo32 o + lo32 n ∨ winCols v < mid24 o + mid24 n ∨ o.toNat / 2 ^ 56 ≠ 0 ∨ n.toNat / 2 ^ 56 ≠ 0
/-- A shape: rows and columns in the register k (R72). -/
def shaped (s : State) (src : Fin 16) (k : Fin 32) : BitVec 256 :=
  withPitch (rowbytes (hFmt (s.hreg src)) (mid24 (s.rA k))) (withCols (mid24 (s.rA k)) (withRows (lo32 (s.rA k)) (s.hreg src)))
def shapeBad (src : Fin 16) (k : Fin 32) (s : State) : Prop :=
  let v := s.hreg src
  let n := s.rA k
  n.toNat / 2 ^ 56 ≠ 0 ∨ hRow0 v ≠ 0 ∨ hCol0 v ≠ 0 ∨ hTR v = true ∨ hOLVL v = true ∨ hILVL v ≠ 0 ∨
    lo32 n * mid24 n ≠ hRows v * hCols v ∨ hPitch v ≠ rowbytes (hFmt v) (hCols v) ∨
    (mid24 n ≠ hCols v ∧ (hFmt v = 5 ∨ hFmt v = 6 ∨ hFmt v = 7))

/-! ## Owner bits and rings (spec/10 R187-R192, R359) -/

/-- The unit has handed a run of tiles to the engines, or has it back. -/
def hands (first n : Nat) (v : Bool) (b : Bank) : Bank := { b with handed := setRun b.handed first n v }
/-- A run of tiles lies in the scratchpad and on no configured ring. -/
def RunOk (first n : Nat) (s : State) : Prop := first + n ≤ 768 ∧ ∀ t, first ≤ t → t < first + n → s.tb.ringOf t = none
/-- The state with the owner bits of the run set: the engines' or the streams'. -/
def owns (first n : Nat) (eng : Bool) (s : State) : State := s.modCore s.turn.core fun c => c.setOwner first n eng
/-- The histories of the alias-check mode end with a flip of their tile (spec/22 R332). -/
def historyOf (u : State) (b : Bank) : Bank := { b with history := u.tb.history }
/-- The state with the owner bits of n slots from a slot on set. -/
def slotsOwn (x : Ring) (from_ n : Nat) (eng : Bool) (s : State) : State := s.slotOwner s.turn.core x from_ n eng
/-- A configured ring of at least n slots, n from 1 to 64. -/
structure RingUse (r : Fin 16) (n : Nat) (x : Ring) (s : State) : Prop where
  config : s.tb.ring r = some x
  count : 0 < n ∧ n ≤ 64 ∧ n ≤ x.count
def ringSet (r : Fin 16) (x : Option Ring) (b : Bank) : Bank := { b with rings := b.rings.set r.val x }
/-- A ring to configure, from the value of a register (R190). -/
def newRing (v : DWord) (x : Ring) : Prop := Ring.ofConfig v = some (some x)
def Idle (x : Ring) : Prop := x.nfill = 0 ∧ x.nclaim = 0 ∧ x.nres = 0
/-- The tiles of the old ring return to the streams; those of the new one belong to its producer. -/
def reconfigured (old : Option Ring) (new : Option Ring) (s : State) : State :=
  let s := match old with | some x => owns x.base x.count false s | none => s
  match new with | some x => slotsOwn x 0 x.count (x.prod.val != 0) s | none => s
/-- What the unit has handed out follows the tiles of its rings. -/
def ringHands (old new : Option Ring) (b : Bank) : Bank :=
  let b := match old with | some x => hands x.base x.count false b | none => b
  match new with | some x => hands x.base x.count true b | none => b
/-- The replay window ends over the commands that read one of m claimed slots from CLM (spec/10 R192). -/
def windowEnds (x : Ring) (m : Nat) (s : State) : State :=
  let freed (a : ArrCmd) : Bool :=
    a.core == s.turn.core && (a.aSlots ++ a.bSlots).any ((upTo x.clm m).map x.tile).contains
  s.modCore s.turn.core fun c =>
    { c with
      window := c.window.map fun (w : ReplayCmd) =>
        if (s.cluster (clusterOf s.turn.core)).cmds.any fun (a : ArrCmd) => a.id == w.id && freed a then { w with released := true }
        else w }
/-- n free slots from TAIL become filled. -/
def putting (n : Nat) (x : Ring) : Ring := { x with tail := (x.tail + n) % x.count, nfill := x.nfill + n }
/-- n filled slots from HEAD become free. -/
def taking (n : Nat) (x : Ring) : Ring :=
  { x with head := (x.head + n) % x.count, clm := (x.clm + n) % x.count, nfill := x.nfill - n }
/-- n claimed slots from CLM become free. -/
def releasing (n : Nat) (x : Ring) : Ring := { x with clm := (x.clm + n) % x.count, nclaim := x.nclaim - n }

/-! ## Launches and events (spec/05 R95-R97) -/

/-- A launch of a device queue may be produced: the unit is not sealed, the record is aligned and at hand, the queue is one
the device may use with a free place, the record is good, and everything earlier has performed. -/
structure LaunchOk (q : Fin 64) (va : Nat) (x : Queue) (s : State) : Prop where
  unsealed : s.tb.sealed = false
  aligned : va % 64 = 0
  read : s.readBlock s 0 va 128 = none
  queue : s.queue s.tb.part q = some x
  usable : s.lnchRefusal s.tb.part q va = none
  room : (x.tail - x.head).toNat < 2 ^ x.logsize
  performed : AllPerformed .device s

/-- The unit's event operation of a word, with what it must follow (R96). -/
def eventOp (h : AHdr) (set : Bool) (ctx : Fin 8) (n : Nat) (b : Bank) : EvOp :=
  { id := b.nextId, ctx := ctx, bit := n, set := set, push := h.push, after := if set then outstanding b else [] }
def asks (h : AHdr) (set : Bool) (b : Fin 32) (c : EvCtx) : AForm :=
  { wait := h.wait, push := h.push, srcs := [b], need := fun s => (s.rA b).toNat < 256
    upd := fun s k => { k with
      evops := k.evops ++ [eventOp h set (s.evCtx c) (s.rA b).toNat s.tb]
      nextId := k.nextId + 1 }
    plan := fun s => s.schedule 20 (if set then .evsetEffect else .evclrEffect)
      { EvArgs.at s.turn.core s.turn.ctx with p := s.tb.part, id := s.tb.nextId, n := (s.die (dieOf s.turn.core)).nextCopy } }

/-- The bound of a rotation's wait for its partners: WAITBND_A, or in DETM mode the longest there is (spec/06 R111, spec/10
R193). -/
def rotBounded (s : State) : State :=
  let later (n : Nat) : State := s.schedule n .waitBound
    { EvArgs.at s.turn.core s.turn.ctx with flag := true, id := s.cycle, w := s.tb.apc, va := s.turn.word.setWidth 64 }
  if s.tb.waitbndA.toNat ≠ 0 then later s.tb.waitbndA.toNat else if s.tb.detm = true then later (2 ^ 20 - 1) else s

/-! ## The tables -/

/-- Words that retire when they issue, with the state their effect outside the bank leaves. -/
inductive RetireForm : Instr → AForm → (State → State) → Prop
  | fenceAcq {h sc} : RetireForm (.fenceAcq h sc) (changes h [] AllConfirmed fun _ => acquires returning) id
  | fenceRel {h sc} : RetireForm (.fenceRel h sc) (changes h [] AllConfirmed (releases sc)) id
  | fenceSc {h sc} : RetireForm (.fenceSc h sc)
      (changes h [] AllConfirmed fun s b => releases sc s (acquires outstanding b)) id
  | seal : RetireForm .seal
      { need := fun s => s.tb.sealed = false ∧ AllPerformed .system s, upd := fun _ => seals
        plan := fun s => (s.schedule 0 .sealInputRise { EvArgs.ofPart s.tb.part with d := dieOf s.turn.core }).schedule 0 .phaseClose
          (EvArgs.ofPart s.tb.part) } id
  | sealAgain : RetireForm .seal { need := fun s => s.tb.sealed = true } id
  | colarrRlx {h c} : RetireForm (.colarrRlx h c)
      { changes h [] (MayArrive c.val) (fun _ => arrives c.val) with plan := rises c.val false } id
  | colarrRel {h c} : RetireForm (.colarrRel h c)
      { changes h [] (MayArrive c.val) (fun _ => arrives c.val) with plan := rises c.val true } id
  | colwait {h c} : RetireForm (.colwait h c) (changes h [] (ColOver c.val) fun _ => leaves c.val) id
  | colsync {h c} : RetireForm (.colsync h c)
      (changes h [] (fun s => s.tb.colAt = some s.tb.apc ∧ ColOver c.val s) fun _ => leaves c.val) id
  | sysr {h d cr w} : RetireForm (.aSysr h d cr)
      { aGives h d [] 1 (fun _ => w.setWidth 64) with need := fun s => cr.toNat ≠ 0x040 ∧ s.readReg cr.toNat = some w } id
  | sfclo {h d w} : RetireForm (.aSysr h d 0x040)
      { aGives h d [] 1 (fun _ => w.setWidth 64) with
        need := fun s => s.readReg 0x040 = some w
        upd := fun s b => aPut d (w.setWidth 64) { b with sfchi := (s.sfc s.tb).extractLsb' 32 16 } } id
  | ctxsw {h b} : RetireForm (.ctxsw h b) (changes h [b] (fun s => s.turn.ctx = 2) fun _ b => b)
      fun s => s.modCore s.turn.core fun c => { c with ctxsw := some (Fin.ofNat 2 (s.rA b).toNat) }
  | hview {h d x k} : RetireForm (.hview h d x k) (makes h d [k, succReg k] x (viewBad x k) fun s => viewed s x k) id
  | htrans {h d x} : RetireForm (.htrans h d x)
      (makes h d [] x (fun _ => False) fun s => setBit (s.hreg x) 61 (!(s.hreg x).getLsbD 61)) id
  | hshape {h d x k} : RetireForm (.hshape h d x k) (makes h d [k] x (shapeBad x k) fun s => shaped s x k) id
  | give {h t n} : RetireForm (.give h t n)
      (changes h [t] (fun s => RunOk (s.rA t).toNat (n.val + 1) s) fun s b =>
        hands (s.rA t).toNat (n.val + 1) true (historyOf (owns (s.rA t).toNat (n.val + 1) true s) b))
      fun s => owns (s.rA t).toNat (n.val + 1) true s
  | take {h t n} : RetireForm (.take h t n)
      (changes h [t]
        (fun s => RunOk (s.rA t).toNat (n.val + 1) s ∧
          ∀ i, (s.rA t).toNat ≤ i → i < (s.rA t).toNat + (n.val + 1) → s.tileBusy s.turn.core i = false)
        fun s b => hands (s.rA t).toNat (n.val + 1) false (historyOf (owns (s.rA t).toNat (n.val + 1) false s) b))
      fun s => owns (s.rA t).toNat (n.val + 1) false s
  | rgcfg {h r c x old} : RetireForm (.rgcfg h r c)
      (changes h [c]
        (fun s => newRing (s.rA c) x ∧ s.tb.ring r = old ∧ (∀ y, old = some y → Idle y) ∧ s.tb.ringOverlap r x = false)
        fun s b => ringSet r (some x) (ringHands old (some x) (historyOf (reconfigured old (some x) s) b)))
      fun s => reconfigured old (some x) s
  | rgcfgOff {h r c old} : RetireForm (.rgcfg h r c)
      (changes h [c] (fun s => Ring.ofConfig (s.rA c) = some none ∧ s.tb.ring r = old ∧ (∀ y, old = some y → Idle y))
        fun s b => ringSet r none (ringHands old none (historyOf (reconfigured old none s) b)))
      fun s => reconfigured old none s
  | rgwfree {h d r n x} : RetireForm (.rgwfree h d r n)
      { aGives h d [] 1 (fun _ => BitVec.ofNat 64 (x.tile x.tail)) with
        need := fun s => RingUse r n.val x s ∧ x.prod.val ≠ 2 ∧ n.val ≤ x.free } id
  | rgwfill {h d r n x} : RetireForm (.rgwfill h d r n)
      { aGives h d [] 1 (fun _ => BitVec.ofNat 64 (x.tile x.head)) with
        need := fun s => RingUse r n.val x s ∧ x.cons.val ≠ 2 ∧ n.val ≤ x.nfill } id
  | rgput {h r n x} : RetireForm (.rgput h r n)
      (changes h [] (fun s => RingUse r n.val x s ∧ x.prod.val = 0 ∧ n.val ≤ x.free)
        fun s b => ringSet r (some (putting n.val x)) (historyOf (slotsOwn x x.tail n.val (x.cons.val != 0) s) b))
      (slotsOwn x x.tail n.val (x.cons.val != 0))
  | rgtake {h r n x} : RetireForm (.rgtake h r n)
      (changes h [] (fun s => RingUse r n.val x s ∧ x.cons.val = 0 ∧ n.val ≤ x.nfill)
        fun s b => ringSet r (some (taking n.val x)) (historyOf (slotsOwn x x.head n.val (x.prod.val != 0) s) b))
      (slotsOwn x x.head n.val (x.prod.val != 0))
  | rgrel {h r n x} : RetireForm (.rgrel h r n)
      (changes h []
        (fun s => RingUse r n.val x s ∧ x.cons.val = 2 ∧ s.claimBusy s.turn.core x (min n.val x.nclaim) = false)
        fun s b => ringSet r (some (releasing (min n.val x.nclaim) x))
          (historyOf (slotsOwn x x.clm (min n.val x.nclaim) (x.prod.val != 0) s) b))
      fun s => slotsOwn x x.clm (min n.val x.nclaim) (x.prod.val != 0) (windowEnds x (min n.val x.nclaim) s)
  | lnchRefused {h d r q k} : RetireForm (.lnch h d r q)
      { aGives h d [r] 1 (fun _ => BitVec.ofNat 64 (2 ^ 63 + k)) with
        need := fun s => s.tb.sealed = false ∧ (s.rA r).toNat % 64 = 0 ∧ s.readBlock s 0 (s.rA r).toNat 128 = none ∧
          s.lnchRefusal s.tb.part q (s.rA r).toNat = some k } id
  | lcancelQueued {h d i q seq} : RetireForm (.lcancel h d i)
      { aGives h d [i] 1 (fun _ => 0) with need := fun s => s.resolve s.tb.part (s.rA i) = .entry q seq }
      fun s => s.cancelEntry s.tb.part q seq
  | lcancelNothing {h d i} : RetireForm (.lcancel h d i)
      { aGives h d [i] 1 (fun _ => 2) with need := fun s => s.resolve s.tb.part (s.rA i) = .nothing } id
  | lcancelDone {h d i x} : RetireForm (.lcancel h d i)
      { aGives h d [i] 1 (fun _ => 1) with
        need := fun s => s.resolve s.tb.part (s.rA i) = .item x ∧ x.finished = true } id
  | lcancelAged {h d i w st} : RetireForm (.lcancel h d i)
      { aGives h d [i] 1 (fun _ => 1) with need := fun s => s.resolve s.tb.part (s.rA i) = .aged w st } id
  | lcancelUnitAged {h d i u w st} : RetireForm (.lcancelUnit h d i u)
      { aGives h d [i, u] 1 (fun s => if w ≤ (s.rA u).toNat then 2 else 1) with
        need := fun s => s.resolve s.tb.part (s.rA i) = .aged (some w) st } id
  | lcancelPast {h d i st} : RetireForm (.lcancel h d i)
      { aGives h d [i] 1 (fun _ => 1) with need := fun s => s.resolve s.tb.part (s.rA i) = .past st } id
  | lcancelUnitNothing {h d i u} : RetireForm (.lcancelUnit h d i u)
      { aGives h d [i, u] 1 (fun _ => 2) with need := fun s => s.resolve s.tb.part (s.rA i) = .nothing } id
  | lcancelUnitQueued {h d i u q x seq} : RetireForm (.lcancelUnit h d i u)
      { aGives h d [i, u] 1 (fun _ => 0) with
        need := fun s => s.resolve s.tb.part (s.rA i) = .entry q seq ∧ s.queue s.tb.part q = some x ∧ x.graph = false ∧
          (s.rA u).toNat < (s.launchAt s.tb.part (x.entryVA seq)).width ∧ (seq, (s.rA u).toNat) ∉ x.dropped }
      fun s => s.modQueue s.tb.part q fun y => { y with dropped := y.dropped ++ [(seq, (s.rA u).toNat)] }
  | lwait {h d i st} : RetireForm (.lwait h d i)
      { aGives h d [i] 1 (fun _ => BitVec.ofNat 64 st) with
        need := fun s => State.refStatus (s.resolve s.tb.part (s.rA i)) = some st ∧
          s.containsMe (s.resolve s.tb.part (s.rA i)) = false } id
  | evtest {h d b c j} : RetireForm (.evtest h d b c)
      { aGives h d [b] 1 (fun s => if (j.ev.get (s.evCtx c)).getLsbD (s.rA b).toNat = true then 1 else 0) with
        need := fun s => (s.rA b).toNat < 256 ∧ s.tb.evops = [] ∧ (s.part s.tb.part).job = some j } id

/-- Words that retire later, without an access of their own. -/
inductive LaterForm : Instr → AForm → (State → State) → Prop
  | evset {h b c} : LaterForm (.evset h b c) (asks h true b c) id
  | evclr {h b c} : LaterForm (.evclr h b c) (asks h false b c) id
  | tlbinv {h v l} : LaterForm (.tlbinv h v l)
      (changes h [v, l] (fun s => s.turn.ctx = 2 ∧ vaOwner (s.rA v).toNat < 8 ∧ s.rA l ≠ 0) fun _ b => { b with aHold := .invalidate })
      fun s => s.invalidate (s.partAt s.turn.core) (vaOwner (s.rA v).toNat) (s.rA v).toNat (s.rA l).toNat
        (match h.push with | some f => f.val + 1 | none => 0) (.word s.turn.core)
  | lnch {h d r q x} : LaterForm (.lnch h d r q)
      { wait := h.wait, push := h.push, srcs := [r], dsts := [d], need := fun s => LaunchOk q (s.rA r).toNat x s
        upd := fun _ => aPut d (workId (if x.graph then 2 else 1) q.val 0 x.tail)
        late := fun s => if 0 < d.val ∧ d.val < 28 then [(d, s.cycle + 24)] else []
        plan := fun s => if d.val < 28 then endsLater 24 h 0 0 s else endsLater 24 h (d.val - 27) s.tb.nextId s }
      fun s => s.produce s.tb.part q (s.rA r).toNat
  | rgrot {h a b} : LaterForm (.rgrot h a b)
      { changes h [a, b]
        (fun s => (s.core s.turn.core).rot = none ∧ rotTile s false (s.rA a).toNat = none ∧ rotTile s true (s.rA b).toNat = none ∧
          ∃ i : Fin 8, coreAt (clusterOf s.turn.core) i ≠ s.turn.core ∧ (s.core (coreAt (clusterOf s.turn.core) i)).rot = none)
        fun s => historyOf (owns (s.rA b).toNat 1 true (owns (s.rA a).toNat 1 true s)) with
        plan := rotBounded }
      fun s => (owns (s.rA b).toNat 1 true (owns (s.rA a).toNat 1 true s)).modCore s.turn.core fun c =>
        { c with rot := some { bank := s.turn.ctx, src := (s.rA a).toNat, dst := (s.rA b).toNat, push := h.push, since := s.cycle } }

/-! ## Copy commands (spec/10 R204-R209) -/

/-- A copy long form may enter the buffer: its stamp is due, a unit that writes global memory is not sealed, the buffer has a place,
no earlier store and no acquire is outstanding, the release fences are satisfied, and a ring put has a free slot of the engines. -/
structure CopyReady (h : LHdr) (rp : Option (Fin 16)) (glob : Bool) (s : State) : Prop where
  stamp : s.stampGate h.stamp = none
  unsealed : glob = true → s.tb.sealed = false
  room : (s.copiesOf s.turn.core).length < 8
  stores : ∀ o ∈ s.tb.live, o.body.writes = true → o.performed = true
  acquires : s.tb.acquiring = []
  fence : s.relOk s.turn.core s.turn.ctx = true
  ring : ∀ r, rp = some r → ∃ x, s.tb.ring r = some x ∧ x.prod = 1 ∧ x.free ≠ 0

/-- The command in its buffer, from what its word names. -/
def bufferEntry (h : LHdr) (rp : Option (Fin 16)) (c : CopyCmd) (s : State) : CopyCmd :=
  { c with
    id := (s.die (dieOf s.turn.core)).nextCopy, src := some (s.turn.core, asBank s.turn.ctx), hb := h.hb, ring := rp, push := h.push,
    pc := s.tb.apc, kth := s.tb.cpiss, sfc := s.sfc s.tb }
def buffered (c : CopyCmd) (s : State) : State :=
  s.modDie (dieOf s.turn.core) fun d => { d with copies := d.copies ++ [c], nextCopy := d.nextCopy + 1 }
/-- The bank after: CPISS and CPSTAT, the reserved slot, and the digest in a recording. -/
def copyNoted (rp : Option (Fin 16)) (c : CopyCmd) (s : State) (b : Bank) : Bank :=
  let id := (s.die (dieOf s.turn.core)).nextCopy
  let b := match rp with
    | some r => (match b.ring r with | some x => ringSet r (some (x.reserve (2 ^ 32 + id))) b | none => b)
    | none => b
  { b with
    cpiss := b.cpiss + 1
    cpstat := b.cpstat.set (b.cpiss.toNat % 8) (cpstatWord 1 0 0) (Nat.mod_lt _ (by decide))
    digest := if (s.part s.tb.part).rpMode = 0 then b.digest
      else b.digest ++ [(BitVec.ofNat 64 c.dstS.base, BitVec.ofNat 64 (2 ^ 63 + id), 0)] }
def copies (h : LHdr) (srcs : List (Fin 32)) (rp : Option (Fin 16)) (glob : Bool) (need : State → Prop) (c : State → CopyCmd) : AForm :=
  { wait := h.wait, push := h.push, srcs := srcs, size := 2, need := fun s => CopyReady h rp glob s ∧ need s
    upd := fun s => copyNoted rp (c s) s
    plan := fun s => s.schedule 20 .copyChannelStart
      { EvArgs.ofDie (dieOf s.turn.core) with id := (s.die (dieOf s.turn.core)).nextCopy - 1 } }

/-- A command between the windows of two handles. -/
def between (op : CopyOp) (ss ds : Bool) (d x : Fin 16) (list : Option Nat) (s : State) : CopyCmd :=
  { CopyCmd.blank op with
    dstH := s.hreg d, srcH := s.hreg x, dstS := s.sideAt s.tb.part (hSide (s.hreg d))
    srcS := s.sideAt s.tb.part (hSide (s.hreg x)), srcSp := ss, dstSp := ds, list := list, rows := winRows (s.hreg d) }
/-- The checks of R205 and R206 on the two handles, their side blocks at hand, and the endpoints and the list. -/
structure HandlesOk (op : CopyOp) (ss ds : Bool) (d x : Fin 16) (list : Option Nat) (s : State) : Prop where
  handles : copyHandles op (s.hreg d) (s.hreg x) d.val x.val list.isSome = none
  read : s.readBlocks s 0 [(hSide (s.hreg d), 64), (hSide (s.hreg x), 64)] = none
  dst : s.endpoint op ds true (s.hreg d) (s.sideAt s.tb.part (hSide (s.hreg d))) d.val = none
  src : s.endpoint op ss false (s.hreg x) (s.sideAt s.tb.part (hSide (s.hreg x))) x.val = none
  list : ∀ a, list = some a → s.listCheck false a = none
def merging (o a b : Fin 32) (s : State) : CopyCmd :=
  { CopyCmd.blank .cpm with
    dstS := { Side.zero with base := (s.rA o).toNat }, dstSp := true, list := some (s.rA a).toNat, listB := (s.rA b).toNat, rows := 1 }

/-- The copy long forms, with the command each leaves in the buffer of its die. -/
inductive CopyForm : Instr → AForm → (State → CopyCmd) → Prop
  | cpy {h ss ds rp d x} : CopyForm (.cpy h ss ds rp d x)
      (copies h [] rp (!ds) (HandlesOk .cpy ss ds d x none) fun s => bufferEntry h rp (between .cpy ss ds d x none s) s)
      fun s => bufferEntry h rp (between .cpy ss ds d x none s) s
  | cpg {h ss ds rp d x l} : CopyForm (.cpg h ss ds rp d x l)
      (copies h [l] rp (!ds) (fun s => HandlesOk .cpg ss ds d x (some (s.rA l).toNat) s)
        fun s => bufferEntry h rp (between .cpg ss ds d x (some (s.rA l).toNat) s) s)
      fun s => bufferEntry h rp (between .cpg ss ds d x (some (s.rA l).toNat) s) s
  | cps {h ss ds rp d x l} : l.val ≠ 0 → CopyForm (.cps h ss ds rp d x l)
      (copies h [l] rp (!ds) (fun s => HandlesOk .cps ss ds d x (some (s.rA l).toNat) s)
        fun s => bufferEntry h rp (between .cps ss ds d x (some (s.rA l).toNat) s) s)
      fun s => bufferEntry h rp (between .cps ss ds d x (some (s.rA l).toNat) s) s
  | cpsIdx {h ss ds rp d x} : CopyForm (.cps h ss ds rp d x 0)
      (copies h [] rp (!ds) (HandlesOk .cps ss ds d x none) fun s => bufferEntry h rp (between .cps ss ds d x none s) s)
      fun s => bufferEntry h rp (between .cps ss ds d x none s) s
  | cpq {h ss ds rp d x} : CopyForm (.cpq h ss ds rp d x)
      (copies h [] rp (!ds) (HandlesOk .cpq ss ds d x none) fun s => bufferEntry h rp (between .cpq ss ds d x none s) s)
      fun s => bufferEntry h rp (between .cpq ss ds d x none s) s
  | cpm {h o a b} : CopyForm (.cpm h o a b)
      (copies h [o, a, b] none false
        (fun s => s.listCheck true (s.rA o).toNat = none ∧ s.listCheck false (s.rA a).toNat = none ∧
          s.listCheck false (s.rA b).toNat = none)
        fun s => bufferEntry h none (merging o a b s) s)
      fun s => bufferEntry h none (merging o a b s) s

end Sys2Proof.Claims
end

