-- ==== Sys2Proof/Claims/XTable.lean ====
section
/-! DEFINITION. Claims/XTable.lean: the results that the rules of spec/07 give the instructions of stream X, one table per
family: a row relates an instruction to its result. -/
namespace Sys2Proof.Claims
open Sys2Proof Sys2Proof.Machine

/-! ## Scalars (spec/07 R121-R123, R125) -/

/-- A shift by an unsigned 32-bit count: 32 and more shift everything out, an arithmetic shift then leaves the sign. -/
def shiftLeft (a b : Word) : Word := if 32 ≤ b.toNat then 0 else a <<< b.toNat
def shiftRight (a b : Word) : Word := if 32 ≤ b.toNat then 0 else a >>> b.toNat
def shiftArith (a b : Word) : Word := BitVec.ofInt 32 (a.toInt / 2 ^ (min b.toNat 31))

/-- The lesser and the greater of two words, signed or unsigned. -/
def lesser (uns : Bool) (a b : Word) : Word :=
  if uns then (if a.toNat ≤ b.toNat then a else b) else if a.toInt ≤ b.toInt then a else b
def greater (uns : Bool) (a b : Word) : Word :=
  if uns then (if b.toNat ≤ a.toNat then a else b) else if b.toInt ≤ a.toInt then a else b

/-- Bits 63:32 of the exact product. -/
def highProduct (uns : Bool) (a b : Word) : Word :=
  if uns then BitVec.ofNat 32 (a.toNat * b.toNat / 2 ^ 32) else BitVec.ofInt 32 (a.toInt * b.toInt / 2 ^ 32)

/-- The field of w bits of a from pos up, bits above 31 reading as 0, sign-extended from its highest bit or not. -/
def fieldOf (sx : Bool) (w : Nat) (a pos : Word) : Word :=
  let f := (a.toNat >>> (pos.toNat % 32)) % 2 ^ w
  if sx && f.testBit (w - 1) then BitVec.ofInt 32 ((f : Int) - 2 ^ w) else BitVec.ofNat 32 f

/-- The truth of a condition over two words. -/
def holdsFor (c : ICond) (a b : Word) : Bool :=
  match c with
  | .eq => a == b | .ne => a != b
  | .lt => decide (a.toInt < b.toInt) | .le => decide (a.toInt ≤ b.toInt)
  | .gt => decide (b.toInt < a.toInt) | .ge => decide (b.toInt ≤ a.toInt)
  | .ltu => decide (a.toNat < b.toNat) | .leu => decide (a.toNat ≤ b.toNat)
  | .gtu => decide (b.toNat < a.toNat) | .geu => decide (b.toNat ≤ a.toNat)

/-- The scalar integer and address instructions and `pget`. -/
inductive ScalarForm : Instr → XResult → Prop
  | xAdd {h d a b} : ScalarForm (.xAdd h d a b) (scalarTo h d 1 (sPorts a ++ sPorts b) fun s => s.rS a + s.rS b)
  | xSub {h d a b} : ScalarForm (.xSub h d a b) (scalarTo h d 1 (sPorts a ++ sPorts b) fun s => s.rS a - s.rS b)
  | xAnd {h d a b} : ScalarForm (.xAnd h d a b) (scalarTo h d 1 (sPorts a ++ sPorts b) fun s => s.rS a &&& s.rS b)
  | xOr {h d a b} : ScalarForm (.xOr h d a b) (scalarTo h d 1 (sPorts a ++ sPorts b) fun s => s.rS a ||| s.rS b)
  | xXor {h d a b} : ScalarForm (.xXor h d a b) (scalarTo h d 1 (sPorts a ++ sPorts b) fun s => s.rS a ^^^ s.rS b)
  | xShl {h d a b} : ScalarForm (.xShl h d a b)
      (scalarTo h d 1 (sPorts a ++ sPorts b) fun s => shiftLeft (s.rS a) (s.rS b))
  | xShr {h d a b} : ScalarForm (.xShr h d a b)
      (scalarTo h d 1 (sPorts a ++ sPorts b) fun s => shiftRight (s.rS a) (s.rS b))
  | xSra {h d a b} : ScalarForm (.xSra h d a b)
      (scalarTo h d 1 (sPorts a ++ sPorts b) fun s => shiftArith (s.rS a) (s.rS b))
  | xMin {h uns d a b} : ScalarForm (.xMin h uns d a b)
      (scalarTo h d 1 (sPorts a ++ sPorts b) fun s => lesser uns (s.rS a) (s.rS b))
  | xMax {h uns d a b} : ScalarForm (.xMax h uns d a b)
      (scalarTo h d 1 (sPorts a ++ sPorts b) fun s => greater uns (s.rS a) (s.rS b))
  | xMul {h d a b} : ScalarForm (.xMul h d a b) (scalarTo h d 3 (sPorts a ++ sPorts b) fun s => s.rS a * s.rS b)
  | xMulh {h uns d a b} : ScalarForm (.xMulh h uns d a b)
      (scalarTo h d 3 (sPorts a ++ sPorts b) fun s => highProduct uns (s.rS a) (s.rS b))
  | xSel {h d a b p} : ScalarForm (.xSel h d a b p)
      (scalarTo h d 1 (sPorts a ++ sPorts b) fun s => if s.rP p then s.rS a else s.rS b)
  | xClz {h d a} : ScalarForm (.xClz h d a)
      (scalarTo h d 1 (sPorts a) fun s => BitVec.ofNat 32 (clzNat (s.rS a).toNat 32))
  | xPopc {h d a} : ScalarForm (.xPopc h d a)
      (scalarTo h d 1 (sPorts a) fun s => BitVec.ofNat 32 (popNat (s.rS a).toNat 32))
  | xBfx {h sx w d a pos} : ScalarForm (.xBfx h sx w d a pos)
      (scalarTo h d 1 (sPorts a ++ sPorts pos) fun s => fieldOf sx w.val (s.rS a) (s.rS pos))
  | xBfi {h w d a b pos} : ScalarForm (.xBfi h w d a b pos)
      (scalarTo h d 1 (sPorts a ++ sPorts b ++ sPorts pos) fun s =>
      let m : Word := BitVec.ofNat 32 ((2 ^ w.val - 1) * 2 ^ ((s.rS pos).toNat % 32))
      (s.rS a &&& ~~~m) ||| ((s.rS b <<< ((s.rS pos).toNat % 32)) &&& m))
  | xLea {h k d a b} : ScalarForm (.xLea h k d a b)
      (scalarTo h d 1 (sPorts a ++ sPorts b) fun s => s.rS a + s.rS b * BitVec.ofNat 32 (2 ^ k.val))
  | xAddi {h d a i} : ScalarForm (.xAddi h d a i) (scalarTo h d 1 (sPorts a) fun s => s.rS a + i.signExtend 32)
  | xAndi {h d a i} : ScalarForm (.xAndi h d a i) (scalarTo h d 1 (sPorts a) fun s => s.rS a &&& i.setWidth 32)
  | xOri {h d a i} : ScalarForm (.xOri h d a i) (scalarTo h d 1 (sPorts a) fun s => s.rS a ||| i.setWidth 32)
  | xXori {h d a i} : ScalarForm (.xXori h d a i) (scalarTo h d 1 (sPorts a) fun s => s.rS a ^^^ i.setWidth 32)
  | xShli {h d a i} : ScalarForm (.xShli h d a i)
      (scalarTo h d 1 (sPorts a) fun s => shiftLeft (s.rS a) (i.setWidth 32))
  | xShri {h d a i} : ScalarForm (.xShri h d a i)
      (scalarTo h d 1 (sPorts a) fun s => shiftRight (s.rS a) (i.setWidth 32))
  | xSrai {h d a i} : ScalarForm (.xSrai h d a i)
      (scalarTo h d 1 (sPorts a) fun s => shiftArith (s.rS a) (i.setWidth 32))
  | xLi {h d i} : ScalarForm (.xLi h d i) (scalarTo h d 1 [] fun _ => i.signExtend 32)
  | xLih {h d a i} : ScalarForm (.xLih h d a i)
      (scalarTo h d 1 (sPorts a) fun s => (i.setWidth 32 <<< 16) ||| (s.rS a &&& 0xFFFF))
  | xMuli {h d a i} : ScalarForm (.xMuli h d a i) (scalarTo h d 3 (sPorts a) fun s => s.rS a * i.signExtend 32)
  | xPget {h d p} : ScalarForm (.xPget h d p) (scalarTo h d 1 [] fun s => if s.rP p then 1 else 0)

/-! ## Compares and predicates (spec/07 R124, R125) -/

inductive PredForm : Instr → XResult → Prop
  | xCmp {h c p a b} : PredForm (.xCmp h c p a b)
      (predTo h p 1 (sPorts a ++ sPorts b) fun s => holdsFor c (s.rS a) (s.rS b))
  | xCmpi {h c p a i} : PredForm (.xCmpi h c p a i)
      (predTo h p 1 (sPorts a) fun s => holdsFor c (s.rS a) (i.signExtend 32))
  | xPand {h p a b} : PredForm (.xPand h p a b) (predTo h p 1 [] fun s => s.rP a && s.rP b)
  | xPor {h p a b} : PredForm (.xPor h p a b) (predTo h p 1 [] fun s => s.rP a || s.rP b)
  | xPxor {h p a b} : PredForm (.xPxor h p a b) (predTo h p 1 [] fun s => Bool.xor (s.rP a) (s.rP b))
  | xPnot {h p a} : PredForm (.xPnot h p a) (predTo h p 1 [] fun s => !s.rP a)
  | xPmov {h p a} : PredForm (.xPmov h p a) (predTo h p 1 [] fun s => s.rP a)

/-! ## Vector integer, permute, merge and scan (spec/07 R131, R136-R139) -/

/-- A lane-wise integer form of latency 2. -/
def laneWise (h : XHdr) (d : VDst) (a b : VSrc) (f : Word → Word → Word) : XResult :=
  lanesTo h d 2 (vPorts a ++ vPorts b) fun s l => f (lane (s.rV a) l) (lane (s.rV b) l)

/-- The inclusive prefix of lanes 0 to l under an operator. -/
def prefixUpTo (f : Word → Word → Word) (v : Vec) (l : Nat) : Word :=
  (upTo 1 l).foldl (fun x k => f x (lane v k)) (lane v 0)

def scanOperator : ScanOp → Word → Word → Word
  | .add => fun x y => x + y | .maxi => greater false | .mini => lesser false | .maxn => greater true | .minn => lesser true
def scanIdentity : ScanOp → Word
  | .add => 0 | .maxi => 0x80000000 | .mini => 0x7FFFFFFF | .maxn => 0 | .minn => 0xFFFFFFFF

/-- The non-zero lanes in ascending order; `.f32` takes −0 as zero. -/
def nonZero (f32 : Bool) (v : Vec) : List Nat :=
  (upTo 0 32).filter fun l => lane v l != 0 && !(f32 && lane v l == 0x80000000)

inductive VectorForm : Instr → XResult → Prop
  | viadd {h d a b} : VectorForm (.viadd h d a b) (laneWise h d a b fun x y => x + y)
  | visub {h d a b} : VectorForm (.visub h d a b) (laneWise h d a b fun x y => x - y)
  | vimul {h d a b} : VectorForm (.vimul h d a b) (laneWise h d a b fun x y => x * y)
  | vand {h d a b} : VectorForm (.vand h d a b) (laneWise h d a b fun x y => x &&& y)
  | vor {h d a b} : VectorForm (.vor h d a b) (laneWise h d a b fun x y => x ||| y)
  | vxor {h d a b} : VectorForm (.vxor h d a b) (laneWise h d a b fun x y => x ^^^ y)
  | vshl {h d a b} : VectorForm (.vshl h d a b) (laneWise h d a b shiftLeft)
  | vshr {h d a b} : VectorForm (.vshr h d a b) (laneWise h d a b shiftRight)
  | vsra {h d a b} : VectorForm (.vsra h d a b) (laneWise h d a b shiftArith)
  | vimin {h uns d a b} : VectorForm (.vimin h uns d a b) (laneWise h d a b (lesser uns))
  | vimax {h uns d a b} : VectorForm (.vimax h uns d a b) (laneWise h d a b (greater uns))
  | vicmp {h c d a b} : VectorForm (.vicmp h c d a b)
      (laneWise h d a b fun x y => if holdsFor c x y then 0xFFFFFFFF else 0)
  | vbc {h d a} : VectorForm (.vbc h d a) (lanesTo h d 2 (sPorts a) fun s _ => s.rS a)
  | vbcLn {h d a b} : VectorForm (.vbcLn h d a b)
      (lanesTo h d 2 (vPorts a ++ sPorts b) fun s _ => lane (s.rV a) ((s.rS b).toNat % 32))
  | vperm {h d a b c} : VectorForm (.vperm h d a b c)
      (lanesTo h d 2 (vPorts a ++ vPorts b ++ vPorts c) fun s l =>
      let i := lane (s.rV b) l
      if i.getLsbD 31 then 0 else lane (if i.getLsbD 5 then s.rV c else s.rV a) (i.toNat % 32))
  | vmerge {h d a b c} : VectorForm (.vmerge h d a b c)
      (lanesTo h d 2 (vPorts a ++ vPorts b ++ vPorts c) fun s l =>
      if lane (s.rV c) l = 0 then lane (s.rV b) l else lane (s.rV a) l)
  | vnzscan {h f32 d a b} : VectorForm (.vnzscan h f32 d a b)
      (lanesTo h d 3 (vPorts a ++ sPorts b) fun s l =>
      match (nonZero f32 (s.rV a))[l]? with
      | some i => s.rS b + BitVec.ofNat 32 i
      | none => 0xFFFFFFFF)
  | vnzscanCnt {h f32 d a} : VectorForm (.vnzscanCnt h f32 d a)
      (scalarTo h d 3 (vPorts a) fun s => BitVec.ofNat 32 (nonZero f32 (s.rV a)).length)
  | vnzscanMsk {h f32 d a} : VectorForm (.vnzscanMsk h f32 d a)
      (scalarTo h d 3 (vPorts a) fun s =>
      BitVec.ofNat 32 ((nonZero f32 (s.rV a)).foldl (fun m l => m + 2 ^ l) 0))
  | vscan {h op ex d a} : VectorForm (.vscan h op ex d a)
      (lanesTo h d 3 (vPorts a) fun s l =>
      if ex then (if l = 0 then scanIdentity op else prefixUpTo (scanOperator op) (s.rV a) (l - 1))
      else prefixUpTo (scanOperator op) (s.rV a) l)

/-! ## Multiply-accumulate, rounding shift and conversion (spec/07 R132-R134) -/

/-- Byte k of a register as a number, signed or unsigned. -/
def byteOf (uns : Bool) (v : Vec) (k : Nat) : Int := if uns then ((vbyte v k).toNat : Int) else (vbyte v k).toInt

/-- An exact sum clamped to 32 bits; OF when the clamp changes it. -/
def clampTo32 (x : Int) : Word × FFlags :=
  if x < -2147483648 then (0x80000000, 4) else if 2147483647 < x then (0x7FFFFFFF, 4) else (BitVec.ofInt 32 x, 0)

/-- The rounded shift of `vrsh`, half toward +∞. -/
def roundedShift (a : Word) (n : Nat) : Int := if n = 0 then a.toInt else (a.toInt + 2 ^ (n - 1)) / 2 ^ n

inductive NarrowForm : Instr → XResult → Prop
  | vmacw {h uns pa pb d a b c} : NarrowForm (.vmacw h uns pa pb d a b c)
      (flaggedTo h d 2 (vPorts a ++ vPorts b ++ vPorts c) fun s l =>
      clampTo32 ((lane (s.rV c) l).toInt +
        byteOf uns (s.rV a) (32 * pa.val + l) * byteOf false (s.rV b) (32 * pb.val + l)))
  | vdot4 {h ua ub d a b c} : NarrowForm (.vdot4 h ua ub d a b c)
      (flaggedTo h d 3 (vPorts a ++ vPorts b ++ vPorts c) fun s l =>
      clampTo32 ((lane (s.rV c) l).toInt +
        (byteOf ua (s.rV a) (4 * l) * byteOf ub (s.rV b) (4 * l) +
          byteOf ua (s.rV a) (4 * l + 1) * byteOf ub (s.rV b) (4 * l + 1) +
          byteOf ua (s.rV a) (4 * l + 2) * byteOf ub (s.rV b) (4 * l + 2) +
          byteOf ua (s.rV a) (4 * l + 3) * byteOf ub (s.rV b) (4 * l + 3))))
  | vrsh {h t p d a b c} : NarrowForm (.vrsh h t p d a b c)
      { hdr := h, srcs := vPorts a ++ vPorts b ++ vPorts c, dst := vdstCode d, kind := .vector, lat := 2,
        val := fun s => (vrshVal t p.val (s.rV a) (s.rV b) (s.rV c)).1,
        flags := fun s => (vrshVal t p.val (s.rV a) (s.rV b) (s.rV c)).2 }
  | vcvt {h df sf p d a c} : NarrowForm (.vcvt h df sf p d a c)
      { hdr := h, srcs := vPorts a ++ vPorts c, dst := vdstCode d, kind := .vector, lat := 3,
        val := fun s => (vcvtVal (fpctlRM s.tb.fpctl) df sf p.val (s.rV a) (s.rV c)).1,
        flags := fun s => (vcvtVal (fpctlRM s.tb.fpctl) df sf p.val (s.rV a) (s.rV c)).2 }

/-! ## Floating point (spec/07 R126-R130): lane by lane in the rounding mode of FPCTL.RM -/

def floatTwo (h : XHdr) (d : VDst) (a b : VSrc) (lat : Nat) (f : RMode → Word → Word → Word × FFlags) : XResult :=
  flaggedTo h d lat (vPorts a ++ vPorts b) fun s l => f (fpctlRM s.tb.fpctl) (lane (s.rV a) l) (lane (s.rV b) l)
def floatThree (h : XHdr) (d : VDst) (a b c : VSrc) (f : RMode → Word → Word → Word → Word × FFlags) : XResult :=
  flaggedTo h d 4 (vPorts a ++ vPorts b ++ vPorts c) fun s l =>
    f (fpctlRM s.tb.fpctl) (lane (s.rV a) l) (lane (s.rV b) l) (lane (s.rV c) l)
def floatOne (h : XHdr) (d : VDst) (a : VSrc) (f : RMode → Word → Word × FFlags) : XResult :=
  flaggedTo h d 8 (vPorts a) fun s l => f (fpctlRM s.tb.fpctl) (lane (s.rV a) l)

inductive FloatForm : Instr → XResult → Prop
  | vadd {h d a b} : FloatForm (.vadd h d a b) (floatTwo h d a b 4 fadd32)
  | vsub {h d a b} : FloatForm (.vsub h d a b) (floatTwo h d a b 4 fsub32)
  | vmul {h d a b} : FloatForm (.vmul h d a b) (floatTwo h d a b 4 fmul32)
  | vfma {h d a b c} : FloatForm (.vfma h d a b c) (floatThree h d a b c fun rm => ffma32 rm false)
  | vfms {h d a b c} : FloatForm (.vfms h d a b c) (floatThree h d a b c fun rm => ffma32 rm true)
  | vmin {h d a b} : FloatForm (.vmin h d a b) (laneWise h d a b (fmm32 false))
  | vmax {h d a b} : FloatForm (.vmax h d a b) (laneWise h d a b (fmm32 true))
  | vabs {h d a} : FloatForm (.vabs h d a) (lanesTo h d 2 (vPorts a) fun s l => lane (s.rV a) l &&& 0x7FFFFFFF)
  | vneg {h d a} : FloatForm (.vneg h d a) (lanesTo h d 2 (vPorts a) fun s l => lane (s.rV a) l ^^^ 0x80000000)
  | vcmp {h c d a b} : FloatForm (.vcmp h c d a b)
      (floatTwo h d a b 2 fun _ x y => (if (fcond c x y).1 then 0xFFFFFFFF else 0, (fcond c x y).2))
  | vrcp {h d a} : FloatForm (.vrcp h d a) (floatOne h d a frcp32)
  | vrsqrt {h d a} : FloatForm (.vrsqrt h d a) (floatOne h d a frsqrt32)
  | vexp2 {h d a} : FloatForm (.vexp2 h d a) (floatOne h d a fexp232)
  | vlog2 {h d a} : FloatForm (.vlog2 h d a) (floatOne h d a flog232)
  | vredsumO {h d a} : FloatForm (.vredsumO h d a)
      { hdr := h, srcs := vPorts a, dst := sdstCode d, kind := .scalar, lat := 16,
        val := fun s => (treeSum (fpctlRM s.tb.fpctl) 5 (lanesOf (s.rV a)) 0).1.setWidth 1024,
        flags := fun s => (treeSum (fpctlRM s.tb.fpctl) 5 (lanesOf (s.rV a)) 0).2 }
  | vredmax {h d a} : FloatForm (.vredmax h d a) (scalarTo h d 6 (vPorts a) fun s => redmax (lanesOf (s.rV a)))

end Sys2Proof.Claims
end

