-- ==== Sys2Proof/Claims/Whole.lean ====
section
/-! DEFINITION. Claims/Whole.lean: the terms of the statements about the machine as a whole: guarded-off syllables, traps that
replace a syllable, the step that runs a decoded word, the memories' form, and the state after reset. -/
namespace Sys2Proof.Claims
open Sys2Proof Sys2Proof.Machine

/-! ## Syllables that have no effect of their own (spec/02 R26, spec/18 R293, spec/10 R183) -/

/-- The syllables whose guard only decides whether they write: their results by spec/07, spec/10 and spec/11. -/
inductive Guarded : Instr → XResult → Prop
  | scalar {i r} : ScalarForm i r → Guarded i r
  | pred {i r} : PredForm i r → Guarded i r
  | vector {i r} : VectorForm i r → Guarded i r
  | narrow {i r} : NarrowForm i r → Guarded i r
  | float {i r} : FloatForm i r → Guarded i r
  | load {i r} : LoadForm i r → Guarded i r

/-- The first check of an access that fails decides its trap: SP_RANGE, MISALIGNED, SET_FAULT, OWNER_FAULT, in that order,
with the details of spec/18 R284: the address or the tile, and the lane (0 for a scalar). -/
inductive AccessTrap (s : State) (wr : Bool) (size a : Nat) : Byte → DWord → DWord → Prop
  | range : 3 * 2 ^ 20 < a + size → AccessTrap s wr size a 10 (BitVec.ofNat 64 a) 0
  | aligned : a + size ≤ 3 * 2 ^ 20 → a % size ≠ 0 → AccessTrap s wr size a 7 (BitVec.ofNat 64 a) 0
  | set : a + size ≤ 3 * 2 ^ 20 → a % size = 0 → (if wr then s.tb.mayWrite 0 (a / 4096) else s.tb.mayRead 0 (a / 4096)) = false →
      AccessTrap s wr size a 13 (BitVec.ofNat 64 (a / 4096)) 0
  | owner : a + size ≤ 3 * 2 ^ 20 → a % size = 0 → (if wr then s.tb.mayWrite 0 (a / 4096) else s.tb.mayRead 0 (a / 4096)) = true →
      (s.core s.turn.core).owned (a / 4096) = true → AccessTrap s wr size a 11 (BitVec.ofNat 64 (a / 4096)) 0

/-- The scalar accesses of stream X, with their header, ports, address, direction and size. -/
inductive ScalarAccess : Instr → XHdr → List Nat → (State → Nat) → Bool → Nat → Prop
  | ld {h cls ty d a b} : ScalarAccess (.xLd h cls ty d a b) h (sPorts a ++ sPorts b) (fun s => scalarAddr s a b) false (loadSize ty)
  | ldacq {h cls d a b} : ScalarAccess (.ldacq h cls d a b) h (sPorts a ++ sPorts b) (fun s => scalarAddr s a b) false 4
  | st {h cls ty a b c} : ScalarAccess (.xSt h cls ty a b c) h (sPorts a ++ sPorts b ++ sPorts c) (fun s => scalarAddr s a b) true
      (loadSize ty)

/-- The control syllables that R113 forbids in the delay slots of a branch. -/
inductive NotInDelay : Instr → XHdr → Prop
  | form {i r} : ControlForm i r → (∀ h, i ≠ .xNop h) → (∀ h k sc, i ≠ .xFence h k sc) → NotInDelay i r.hdr
  | call {h d disp} : NotInDelay (.xCall h d disp) h

/-- The reads and writes of a special register that the context may not make (R293). -/
inductive RegisterRefused (s : State) : Instr → XHdr → Prop
  | read {h d cr} : s.readReg cr.toNat = none → RegisterRefused s (.xSysr h d cr) h
  | write {h a cr} : s.mayWriteReg cr.toNat = false → RegisterRefused s (.xSysw h a cr) h

/-- The instructions that only the system context may run, and `eret` only in column 0 (R291, R292). -/
inductive SystemOnly (s : State) : Instr → Prop
  | eret {h} : s.guard h = true → SystemOnly s (.eret h)
  | ctxsw {h b} : SystemOnly s (.ctxsw h b)
  | ctxbank {h a v} : SystemOnly s (.ctxbank h a v)
  | tlbinv {h v l} : SystemOnly s (.tlbinv h v l)

/-! ## Encodings and values of single rules (spec/07 R128, R136, R137) -/

/-- The OP, SUB and FN fields of an X syllable (spec/02 R25). -/
def opField (w : BitVec 64) : Byte := w.extractLsb' 55 8
def subField (w : BitVec 64) : BitVec 3 := w.extractLsb' 6 3
def fnField (w : BitVec 64) : BitVec 6 := w.extractLsb' 0 6
/-- An instruction encodes with this OP, and with these SUB and FN where they are given. -/
def EncodesWith (i : Instr) (op : Byte) (sub fn : Option Nat) : Prop :=
  ∃ w : BitVec 64, encode i = some (.x w) ∧ opField w = op ∧ (∀ n, sub = some n → (subField w).toNat = n) ∧
    ∀ n, fn = some n → (fnField w).toNat = n

/-- A NaN of FP32, and the order of its other values, −0 below +0. -/
def nanWord (w : Word) : Bool := decide (0x7F800000 < w.toNat % 2 ^ 31)
def orderKey (w : Word) : Int := if 2 ^ 31 ≤ w.toNat then -((w.toNat % 2 ^ 31 : Nat) : Int) - 1 else (w.toNat : Int)

/-- What R128 makes of two lanes. -/
structure Picks (greater : Bool) (a b r : Word) : Prop where
  both : nanWord a = true → nanWord b = true → r = 0x7FC00000
  left : nanWord a = true → nanWord b = false → r = b
  right : nanWord a = false → nanWord b = true → r = a
  one : nanWord a = false → nanWord b = false → r = a ∨ r = b
  least : nanWord a = false → nanWord b = false →
    if greater then orderKey a ≤ orderKey r ∧ orderKey b ≤ orderKey r else orderKey r ≤ orderKey a ∧ orderKey r ≤ orderKey b

/-! ## The trap of a failing domain syllable (spec/08 R159, R160) -/

/-- The state that a failing syllable leaves: its tokens are taken, its column holds for its two X cycles, and the failure's own
registers are written, no other; DOMAIN_FAIL is then taken on this edge. -/
structure FailsByTrap (h : XHdr) (srcs : List Nat) (x : State → DX) (keep : State → Option Standing) (r : Fin 32) (s t : State) :
    Prop where
  trapped : ∃ u, XPushesAt 1 (failTraps h srcs x keep r) s u ∧ TrapEdge 22 (BitVec.ofNat 64 r.val) 0xFF u t

/-! ## The special-register write of stream A (spec/18 R293) -/

structure RegisterWritten (h : AHdr) (a : Fin 32) (cr : BitVec 12) (s t : State) : Prop where
  took : ∃ u, AOwes { wait := h.wait, push := h.push, srcs := [a] } s s u ∧ t = (u.writeReg cr.toNat ((s.rA a).setWidth 32)).retirePush h.push

/-! ## The turn of a stream (spec/00 R1-R3, spec/06 R99, R100) -/

/-- Nothing of the agenda is due: the word whose turn it is comes next. -/
def NothingDue (s : State) : Prop := ∀ d l, s.agenda = d :: l → s.cycle < d.at_
/-- The context of the turn presents words. -/
def Presents (s : State) : Prop :=
  (s.core s.turn.core).presenting = some s.turn.ctx ∧ (s.die (dieOf s.turn.core)).dvfsStopped = false
/-- The state in which a word of A or M is executed. -/
def atWord (w : BitVec 128) (s : State) : State := { s with turn := { s.turn with col := 0, how := .issued, pops := [], word := w } }

/-- A word of the cycle left the state t. Where t stops the core, a cause has come up that only the words before it in this cycle
brought about: the state s before it stands, and the word meets the cause on the next edge (spec/18 R284). -/
def unlessStopped (s t : State) : State := if t.stopsCore = true then s else t

/-- Stream A has a word to run: it has not ended, pauses or holds for nothing, has nothing to send again and no boundary cause to
deliver; and no word of the cycle meets a cause. -/
structure ATurn (s : State) (w : BitVec 128) (i : Instr) : Prop where
  due : NothingDue s
  presents : Presents s
  stream : s.turn.stream = .a
  quiet : (s.onStream .a).edgeCause = none
  going : s.tb.aEnded = false ∧ s.tb.aPause = 0 ∧ s.tb.aHold = .free ∧ s.tb.replay = [] ∧ s.tb.pending = []
  fetched : s.fetchA s.tb = .word w
  decoded : decodeWord .a w = some i
  goes : (atWord w s).breakAt = none

structure MTurn (s : State) (w : BitVec 128) (i : Instr) : Prop where
  due : NothingDue s
  presents : Presents s
  stream : s.turn.stream = .m
  going : s.tb.mEnded = false ∧ s.tb.mPause = 0
  fetched : s.fetchM s.tb = .word w
  decoded : decodeWord .m w = some i
  goes : (atWord w s).breakAt = none

/-- The state in which the syllable of column c is executed. -/
def atColumn (c : Fin 4) (w : BitVec 128) (s : State) : State :=
  { s with turn := { s.turn with col := c, how := .issued, pops := [], word := w } }

/-- Column c alone has a syllable to run, and its X cycle is not frozen. -/
structure XTurn (s : State) (c : Fin 4) (w : BitVec 128) (i : Instr) : Prop where
  due : NothingDue s
  presents : Presents s
  stream : s.turn.stream = .x
  going : s.tb.xEnded = false ∧ s.tb.landingFull = none ∧ s.tb.runFreezes = false ∧ s.tb.dom.trapDue = none
  alone : ∀ c', (s.tb.col c').ended = decide (c' ≠ c)
  held : (s.tb.col c).hold = 0 ∧ (s.tb.col c).evalDue = false
  fetched : s.fetchX s.tb c = .word w
  decoded : decodeWord .x w = some i
  goes : (atColumn c w s).breakAt = none

/-! ## The memories (log 1) -/

/-- Every memory is in its canonical form. -/
structure MemoriesCanonical (s : State) : Prop where
  hbm : s.hbm.wf = true
  host : s.host.wf = true
  sp : ∀ g, (s.core g).sp.wf = true
  shadow : ∀ g, (s.core g).spShadow.wf = true

/-- The bytes that wait in the bank for the end of its X cycle, the last one to each address. -/
def lastByte (l : List Host.Cell) (a : Nat) : Option Byte := (l.reverse.find? fun x => x.1 == a).map fun x => x.2

/-! ## Reset (spec/18 R302, spec/21 R326, spec/11 R237, spec/05 R98, spec/16 R271, spec/08 R140, R162) -/

structure ResetBank (b : Bank) : Prop where
  empty : b.st = .empty ∧ b.unit = none
  pcs : b.apc = 0 ∧ b.mpc = 0 ∧ ∀ c, (b.col c).pc = 0
  domains : ∀ r, b.dom.d.get r = { lo := 0, hi := 0, win := 1 }
  proplim : b.dom.proplim = 256
  queues : (∀ q, q < 9 → b.qAX q = []) ∧ ∀ q, q < 8 → b.qXA q = []
  nothing : b.inflight = [] ∧ b.ops = [] ∧ b.rings = Vector.replicate 16 none

structure ResetState (s : State) : Prop where
  banks : ∀ g k, ResetBank (s.bank g k)
  owners : ∀ g, (s.core g).accOwn = 2 ∧ (s.core g).acclive = 0 ∧ (s.core g).handling = none
  leases : ∀ c, (s.cluster c).leasecmd = 32 ∧ (s.cluster c).leasecyc = 4096 ∧ (s.cluster c).abfttol = 0x37800000 ∧ (s.cluster c).holder = none
  ages : ∀ p, (s.part p).ageq = 50 ∧ (s.part p).predelta = 16
  recovery : ∀ p, (s.part p).undowait = 1000 ∧ (s.part p).rbLimit = 3 ∧ (s.part p).rincur = 0 ∧ (s.part p).colerr = 0
  clocks : ∀ d c, (s.dvfsOf d c).fcur = 7
  tlb : ∀ d, (s.die d).xlatroot = 0 ∧ (s.die d).tlb = []

end Sys2Proof.Claims
end

