-- ==== Sys2Proof/WellFormed.lean ====
section
/-! DEFINITION. WellFormed.lean: the operand values an encoding admits beyond what the types say (spec/02 R27, R40; the
encoding rules of each chapter). -/
namespace Sys2Proof

/-- No token field, as on `trap`, `eret` and `halt` (spec/18 R291). -/
def XHdr.noTokens (h : XHdr) : Bool := h.wait == none && h.push == none

/-- A shift count of an immediate shift (spec/07 R123). -/
def wfShift (i : BitVec 16) : Bool := i.toNat < 32

/-- A width of 1 to 32 (spec/07 R122). -/
def wfWidth (w : Fin 64) : Bool := 1 ≤ w.val && w.val ≤ 32

/-- A pause of 1 to 4095 cycles (spec/06 R112, R118). -/
def wfPause (n : BitVec 16) : Bool := 1 ≤ n.toNat && n.toNat ≤ 4095

/-- A ring count of 1 to 64 (spec/10 R191). -/
def wfRing (n : Fin 128) : Bool := 1 ≤ n.val && n.val ≤ 64

/-- The operands of `mmul` (spec/11 R217): KSTEPS at least 1; the latch form names no B ring, no second descriptor and no
bitmap. -/
def wfMmul (ks : Fin 128) (rb : Fin 16) (bm wl : Bool) (kb : Fin 8) : Bool :=
  ks != 0 && (!wl || (rb == 0 && !bm && kb == 0))

/-- The operands of `mdrain` (spec/11 R217): Q needs a descriptor, and a descriptor needs Q or INT8. -/
def wfMdrain (q : Bool) (f : Fmt) (ko : Option (Fin 8)) : Bool :=
  (!q || ko.isSome) && (ko.isNone || q || f == .int8)

/-- A branch that only pushes has displacement 0 (spec/06 R114). -/
def wfBranch (m : BrMod) (i : BitVec 12) : Bool := m != .q || i == 0

/-- Well-formed instructions: those an encoding stands for. A step of the device is no word and is well-formed as it
stands. -/
def Instr.wf : Instr → Bool
  | .xBfx _ _ w _ _ _ => wfWidth w
  | .xBfi _ w _ _ _ _ => wfWidth w
  | .xLea _ k _ _ _ => k.val ≤ 4
  | .xShli _ _ _ i => wfShift i
  | .xShri _ _ _ i => wfShift i
  | .xSrai _ _ _ i => wfShift i
  | .xCmp _ _ p _ _ => p != 0
  | .xCmpi _ _ p _ _ => p != 0
  | .xPand _ p _ _ => p != 0
  | .xPor _ p _ _ => p != 0
  | .xPxor _ p _ _ => p != 0
  | .xPnot _ p _ => p != 0
  | .xPmov _ p _ => p != 0
  | .vrsh _ t p d a b c => wfVrsh t p d a b c
  | .vcvt _ df sf p d a c => wfVcvt df sf p d a c
  | .vdq _ q p d a b c => wfVdq q p d a b c
  | .dtestIn _ p _ _ => p != 0
  | .dtestOne _ p _ => p != 0
  | .xLoop _ _ _ i => 1 ≤ i.toNat && i.toNat ≤ 32767
  | .join _ _ m => m != 0
  | .xPause _ n => wfPause n
  | .xTrap h _ => h.noTokens
  | .eret h => h.noTokens
  | .halt h => h.noTokens
  | .lda _ _ sc _ _ _ _ _ => sc != .col
  | .stl _ _ sc _ _ _ _ _ => sc != .col
  | .rgwfree _ _ _ n => wfRing n
  | .rgwfill _ _ _ n => wfRing n
  | .rgput _ _ n => wfRing n
  | .rgtake _ _ n => wfRing n
  | .rgrel _ _ n => wfRing n
  | .beq _ m _ _ i => wfBranch m i
  | .bne _ m _ _ i => wfBranch m i
  | .blt _ m _ _ i => wfBranch m i
  | .bge _ m _ _ i => wfBranch m i
  | .bltu _ m _ _ i => wfBranch m i
  | .bgeu _ m _ _ i => wfBranch m i
  | .aLoop _ _ _ i => i != 0
  | .aPause _ n => wfPause n
  | .fenceAcq _ sc => sc != .col
  | .fenceRel _ sc => sc != .col
  | .fenceSc _ sc => sc != .col
  | .hview _ _ _ k => 2 ≤ k.val && k.val ≤ 26 && k.val % 2 == 0
  | .hshape _ _ _ k => 2 ≤ k.val && k.val ≤ 27
  | .mmul _ _ _ _ rb _ ks _ _ bm _ _ kb wl _ => wfMmul ks rb bm wl kb
  | .mdrain _ _ _ q _ _ f ko => wfMdrain q f ko
  | .mpred _ _ _ _ _ kd _ => kd.val % 2 == 0
  | .mscan _ _ km _ => km.val % 2 == 0
  | .mloop _ _ _ d => d != 0
  | _ => true

end Sys2Proof
end

