-- ==== Sys2Proof/Laws/Encode.lean ====
section
/-! SUPPORT. Laws/Encode.lean: every field codec undoes its encoder, and unpacking a packed word gives its fields back. -/
namespace Sys2Proof

/-! ### Fields of an append -/

theorem extract_append_high {m k : Nat} (a : BitVec m) (b : BitVec k) (s n : Nat) (h : k ≤ s) :
    (a ++ b).extractLsb' s n = a.extractLsb' (s - k) n := by
  ext i hi
  have h1 : ¬ (s + i < k) := by omega
  have h2 : s + i - k = s - k + i := by omega
  simp [BitVec.getElem_extractLsb', BitVec.getLsbD_append, h1, h2]

theorem extract_append_low {m k : Nat} (a : BitVec m) (b : BitVec k) (s n : Nat) (h : s + n ≤ k) :
    (a ++ b).extractLsb' s n = b.extractLsb' s n := by
  ext i hi
  have h1 : s + i < k := by omega
  simp [BitVec.getElem_extractLsb', BitVec.getLsbD_append, h1]

theorem extract_all {n : Nat} (a : BitVec n) : a.extractLsb' 0 n = a := by
  ext i hi
  simp

@[simp] theorem xUnpack_xPack (f : XFields) : xUnpack (xPack f) = f := by
  have e (s n : Nat) : (xPack f).extractLsb' s n = BitVec.extractLsb' (n := 1 + 8 + 3 + 1 + 8 + 8 + 8 + 8 + 4 + 1 + 4 + 1 + 3 + 6) s n
      (f.s ++ f.op ++ f.g ++ f.gn ++ f.dst ++ f.sa ++ f.sb ++ f.sc ++ f.wf ++ f.we ++ f.pf ++ f.pe ++ f.sub ++ f.fn) := rfl
  simp (disch := decide) only [xUnpack, e, extract_append_high, extract_append_low, Nat.reduceSub, extract_all]

@[simp] theorem aUnpack_aPack (f : AFields) : aUnpack (aPack f) = f := by
  have e (s n : Nat) : (aPack f).extractLsb' s n = BitVec.extractLsb' (n := 6 + 5 + 5 + 5 + 7 + 4 + 4 + 1 + 4 + 1 + 3 + 3) s n
      (f.op ++ f.ad ++ f.as1 ++ f.as2 ++ f.fhi ++ f.sel ++ f.wf ++ f.we ++ f.pf ++ f.pe ++ f.ac ++ f.md) := rfl
  simp (disch := decide) only [aUnpack, e, extract_append_high, extract_append_low, Nat.reduceSub, extract_all]

@[simp] theorem lUnpack_lPack (f : LFields) : lUnpack (lPack f) = f := by
  have e (s n : Nat) : (lPack f).extractLsb' s n = BitVec.extractLsb' (n := 24 + 20 + 4) s n
      (f.stamp ++ f.bound ++ f.ext) := rfl
  simp (disch := decide) only [lUnpack, e, extract_append_high, extract_append_low, Nat.reduceSub, extract_all]

@[simp] theorem mUnpack_mPack (f : MFields) : mUnpack (mPack f) = f := by
  have e (s n : Nat) : (mPack f).extractLsb' s n = BitVec.extractLsb' (n := 8 + 24 + 20 + 1 + 1 + 1 + 4 + 4 + 2 + 7 + 4 + 4 + 2 + 4 + 1 + 4 + 1 + 36) s n
      (f.op ++ f.stamp ++ f.bound ++ f.t ++ f.c ++ f.q ++ f.ra ++ f.rb ++ f.acc ++ f.ks ++ f.fa ++ f.fb ++ f.sp ++
        f.wf ++ f.we ++ f.pf ++ f.pe ++ f.opnd) := rfl
  simp (disch := decide) only [mUnpack, e, extract_append_high, extract_append_low, Nat.reduceSub, extract_all]

/-! ### Field codecs -/

@[simp] theorem must_true (what : String) : must true what = .ok () := rfl

@[simp] theorem ok_bind {α β : Type} (a : α) (f : α → Except DecodeError β) : (Except.ok a >>= f) = f a := rfl

@[simp] theorem decTok_enc (t : Option (Fin 16)) : decTok (encTokF t) (encTokE t) = .ok t := by
  cases t <;> rfl

@[simp] theorem decBool_encBool {n : Nat} (b : Bool) (what : String) :
    decBool (encBool b : BitVec (n + 1)) what = .ok b := by
  cases b
  · rfl
  · simp [decBool, encBool]

theorem toNat_ofNat_lt {w n : Nat} (h : n < 2 ^ w) : (BitVec.ofNat w n).toNat = n := by
  rw [BitVec.toNat_ofNat, Nat.mod_eq_of_lt h]

/-- A register number below `n` in an eight-bit field. -/
theorem fin8_enc {n : Nat} (hn : n ≤ 256) (p : Fin n) (what : String) : fin8 n (BitVec.ofNat 8 p.val) what = .ok p := by
  have h := toNat_ofNat_lt (w := 8) (n := p.val) (by omega)
  simp [fin8, h]

/-- A register number below `n` in a five-bit field. -/
theorem fin5_enc {n : Nat} (hn : n ≤ 32) (p : Fin n) (what : String) : fin5 n (BitVec.ofNat 5 p.val) what = .ok p := by
  have h := toNat_ofNat_lt (w := 5) (n := p.val) (by omega)
  simp [fin5, h]

@[simp] theorem toFin_ofFin {w : Nat} (p : Fin (2 ^ w)) : (BitVec.ofFin p).toFin = p := rfl

/-- The specifier of a small immediate. -/
theorem imm7 (v : BitVec 7) : ((1#1 ++ v : BitVec 8)).toNat = 128 + v.toNat ∧ (1#1 ++ v : BitVec 8).setWidth 7 = v := by
  have h : (1#1 ++ v : BitVec 8).toNat = 128 + v.toNat := by
    have : (1#1 ++ v : BitVec 8).toNat = 1 <<< 7 ||| v.toNat := BitVec.toNat_append ..
    rw [this, ← Nat.shiftLeft_add_eq_or_of_lt v.isLt]; rfl
  refine ⟨h, BitVec.eq_of_toNat_eq ?_⟩
  rw [BitVec.toNat_setWidth, h]
  omega

@[simp] theorem decSSrc_enc (x : SSrc) : decSSrc (encSSrc x) = .ok x := by
  cases x with
  | reg n => simp [decSSrc, encSSrc, toNat_ofNat_lt (w := 8) (n := n.val) (by omega)]
  | queue q =>
    have := toNat_ofNat_lt (w := 8) (n := 56 + q.val) (by omega)
    simp [decSSrc, encSSrc, this]
  | ofile n =>
    have := toNat_ofNat_lt (w := 8) (n := 64 + n.val) (by omega)
    have h1 : ¬ 64 + n.val < 56 := by omega
    have h2 : ¬ 64 + n.val - 56 < 4 := by omega
    have h3 : ¬ 64 + n.val < 64 := by omega
    simp [decSSrc, encSSrc, this, h1, h2, h3]
  | lx c =>
    have := toNat_ofNat_lt (w := 8) (n := 72 + c.val) (by omega)
    have h1 : ¬ 72 + c.val < 56 := by omega
    have h2 : ¬ 72 + c.val - 56 < 4 := by omega
    have h3 : ¬ 72 + c.val < 64 := by omega
    have h4 : ¬ 72 + c.val - 64 < 8 := by omega
    simp [decSSrc, encSSrc, this, h1, h2, h3, h4]
  | imm v =>
    obtain ⟨h, h'⟩ := imm7 v
    have h0 : ¬ 128 + v.toNat < 56 := by omega
    have h1 : ¬ 128 + v.toNat - 56 < 4 := by omega
    have h2 : ¬ 128 + v.toNat < 64 := by omega
    have h3 : ¬ 128 + v.toNat - 64 < 8 := by omega
    have h4 : ¬ 128 + v.toNat - 72 < 4 := by omega
    have h5 : ¬ 128 + v.toNat < 128 := by omega
    simp only [decSSrc, encSSrc, h, h', h0, h1, h2, h3, h4, h5, dite_false, if_false]

@[simp] theorem decVSrc_enc (x : VSrc) : decVSrc (encVSrc x) = .ok x := by
  cases x with
  | reg n => simp [decVSrc, encVSrc, toNat_ofNat_lt (w := 8) (n := n.val) (by omega)]
  | queue q =>
    have := toNat_ofNat_lt (w := 8) (n := 28 + q.val) (by omega)
    simp [decVSrc, encVSrc, this]
  | ofile n =>
    have := toNat_ofNat_lt (w := 8) (n := 64 + n.val) (by omega)
    have h1 : ¬ 64 + n.val < 28 := by omega
    have h2 : ¬ 64 + n.val - 28 < 4 := by omega
    have h3 : ¬ 64 + n.val < 64 := by omega
    simp [decVSrc, encVSrc, this, h1, h2, h3]
  | lx c =>
    have := toNat_ofNat_lt (w := 8) (n := 72 + c.val) (by omega)
    have h1 : ¬ 72 + c.val < 28 := by omega
    have h2 : ¬ 72 + c.val - 28 < 4 := by omega
    have h3 : ¬ 72 + c.val < 64 := by omega
    have h4 : ¬ 72 + c.val - 64 < 8 := by omega
    simp [decVSrc, encVSrc, this, h1, h2, h3, h4]
  | imm v =>
    obtain ⟨h, h'⟩ := imm7 v
    have h0 : ¬ 128 + v.toNat < 28 := by omega
    have h1 : ¬ 128 + v.toNat - 28 < 4 := by omega
    have h2 : ¬ 128 + v.toNat < 64 := by omega
    have h3 : ¬ 128 + v.toNat - 64 < 8 := by omega
    have h4 : ¬ 128 + v.toNat - 72 < 4 := by omega
    have h5 : ¬ 128 + v.toNat < 128 := by omega
    simp only [decVSrc, encVSrc, h, h', h0, h1, h2, h3, h4, h5, dite_false, if_false]

@[simp] theorem decSDst_enc (x : SDst) : decSDst (encSDst x) = .ok x := by
  cases x with
  | reg n => simp [decSDst, encSDst, toNat_ofNat_lt (w := 8) (n := n.val) (by omega)]
  | queue q =>
    have := toNat_ofNat_lt (w := 8) (n := 56 + q.val) (by omega)
    simp [decSDst, encSDst, this]
  | ofile n =>
    have := toNat_ofNat_lt (w := 8) (n := 64 + n.val) (by omega)
    have h1 : ¬ 64 + n.val < 56 := by omega
    have h2 : ¬ 64 + n.val - 56 < 4 := by omega
    have h3 : ¬ 64 + n.val < 64 := by omega
    simp [decSDst, encSDst, this, h1, h2, h3]
  | lx c =>
    have := toNat_ofNat_lt (w := 8) (n := 72 + c.val) (by omega)
    have h1 : ¬ 72 + c.val < 56 := by omega
    have h2 : ¬ 72 + c.val - 56 < 4 := by omega
    have h3 : ¬ 72 + c.val < 64 := by omega
    have h4 : ¬ 72 + c.val - 64 < 8 := by omega
    simp [decSDst, encSDst, this, h1, h2, h3, h4]

@[simp] theorem decVDst_enc (x : VDst) : decVDst (encVDst x) = .ok x := by
  cases x with
  | reg n => simp [decVDst, encVDst, toNat_ofNat_lt (w := 8) (n := n.val) (by omega)]
  | queue q =>
    have := toNat_ofNat_lt (w := 8) (n := 28 + q.val) (by omega)
    simp [decVDst, encVDst, this]
  | ofile n =>
    have := toNat_ofNat_lt (w := 8) (n := 64 + n.val) (by omega)
    have h1 : ¬ 64 + n.val < 28 := by omega
    have h2 : ¬ 64 + n.val - 28 < 4 := by omega
    have h3 : ¬ 64 + n.val < 64 := by omega
    simp [decVDst, encVDst, this, h1, h2, h3]
  | lx c =>
    have := toNat_ofNat_lt (w := 8) (n := 72 + c.val) (by omega)
    have h1 : ¬ 72 + c.val < 28 := by omega
    have h2 : ¬ 72 + c.val - 28 < 4 := by omega
    have h3 : ¬ 72 + c.val < 64 := by omega
    have h4 : ¬ 72 + c.val - 64 < 8 := by omega
    simp [decVDst, encVDst, this, h1, h2, h3, h4]

@[simp] theorem decCnt_enc (x : CntDst) : decCnt (encCnt x) = .ok x := by
  cases x with
  | reg n => simp [decCnt, encCnt, toNat_ofNat_lt (w := 8) (n := n.val) (by omega)]
  | ofile n =>
    have := toNat_ofNat_lt (w := 8) (n := 64 + n.val) (by omega)
    have h1 : ¬ 64 + n.val < 56 := by omega
    have h3 : ¬ 64 + n.val < 64 := by omega
    simp [decCnt, encCnt, this, h1, h3]

@[simp] theorem decICond_enc (x : ICond) : decICond (encICond x) = .ok x := by cases x <;> rfl
@[simp] theorem decFCond_enc (x : FCond) : decFCond (encFCond x) = .ok x := by cases x <;> rfl
@[simp] theorem decXTy_enc (x : XTy) : decXTy (encXTy x) = .ok x := by cases x <;> rfl
@[simp] theorem decScanOp_enc (x : ScanOp) : decScanOp (encScanOp x) = .ok x := by cases x <;> rfl
@[simp] theorem decFence6_enc (x : FenceKind) : decFence6 (encFence6 x) = .ok x := by cases x <;> rfl
@[simp] theorem decScope_enc (x : Scope) : decScope (encScope x) = .ok x := by cases x <;> rfl
@[simp] theorem decRshT_enc (x : RshT) : decRshT (encRshT x) = .ok x := by cases x <;> rfl
@[simp] theorem decFmt_enc (x : Fmt) : decFmt (encFmt x) = .ok x := by cases x <;> rfl
@[simp] theorem decCvtS_enc (x : CvtSrc) : decCvtS (encCvtS x) = .ok x := by cases x <;> rfl
@[simp] theorem decDqF_enc (x : DqFmt) : decDqF (encDqF x) = .ok x := by cases x <;> rfl
@[simp] theorem decATy_enc (x : ATy) : decATy (encATy x) = .ok x := by cases x <;> rfl
@[simp] theorem decSem_enc (x : Sem) : decSem (encSem x) = .ok x := by cases x <;> rfl
@[simp] theorem decRel_enc (x : Bool) : decRel (encRel x) = .ok x := by cases x <;> rfl
@[simp] theorem decBrMod_enc (x : BrMod) : decBrMod (encBrMod x) = .ok x := by cases x <;> rfl

/-- A predicate destination other than p0. -/
theorem decPredD_enc (p : Fin 8) (h : (p != 0) = true) : decPredD (BitVec.ofNat 8 p.val) = .ok p := by
  have h0 : ¬ BitVec.ofNat 8 p.val = 0 := by revert p; decide
  rw [decPredD, if_neg h0]
  exact fin8_enc (by decide) p _

theorem decAScope_enc (x : Scope) (h : (x != .col) = true) : decAScope (encScope x) = .ok x := by
  cases x <;> first | rfl | simp at h

theorem decWidth_enc (w : Fin 64) (h : wfWidth w = true) : decWidth (BitVec.ofFin w) = .ok w := by
  simp only [wfWidth, Bool.and_eq_true, decide_eq_true_eq] at h
  simp [decWidth, h]

theorem decLea_enc (k : Fin 8) (h : (decide (k.val ≤ 4)) = true) : decLea (BitVec.ofFin k) = .ok k := by
  simp only [decide_eq_true_eq] at h
  simp [decLea, h]

/-! ### Immediates cut into fields and joined again -/

theorem join_eq {n m k : Nat} (i : BitVec n) (e : m + k = n) :
    (i.extractLsb' k m ++ i.extractLsb' 0 k) = BitVec.cast e.symm i := by
  ext j hj
  have hn : j < n := by omega
  simp only [BitVec.getElem_append, BitVec.getElem_extractLsb', BitVec.getElem_cast]
  split
  · next h => simp [BitVec.getLsbD_eq_getElem hn]
  · next h =>
    have : k + (j - k) = j := by omega
    simp [this, BitVec.getLsbD_eq_getElem hn]

@[simp] theorem join_8_8 (i : BitVec 16) : i.extractLsb' 8 8 ++ i.extractLsb' 0 8 = i := join_eq i rfl
@[simp] theorem join_7_4 (i : BitVec 11) : i.extractLsb' 4 7 ++ i.extractLsb' 0 4 = i := join_eq i rfl
@[simp] theorem join_5_7 (i : BitVec 12) : i.extractLsb' 7 5 ++ i.extractLsb' 0 7 = i := join_eq i rfl

theorem join_step {n a b c : Nat} (i : BitVec n) (s : Nat) (hs : s = c + b) :
    (i.extractLsb' s a ++ i.extractLsb' c b) = i.extractLsb' c (a + b) := by
  subst hs
  ext j hj
  simp only [BitVec.getElem_append, BitVec.getElem_extractLsb']
  split
  · next h => rfl
  · next h =>
    have : c + b + (j - b) = c + j := by omega
    simp [this]

@[simp] theorem join_5_7_4 (i : BitVec 16) : i.extractLsb' 11 5 ++ i.extractLsb' 4 7 ++ i.extractLsb' 0 4 = i := by
  rw [join_step i 11 rfl]; exact join_eq i rfl
@[simp] theorem join_5_5_7_4 (i : BitVec 21) :
    i.extractLsb' 16 5 ++ i.extractLsb' 11 5 ++ i.extractLsb' 4 7 ++ i.extractLsb' 0 4 = i := by
  rw [join_step i 16 rfl, join_step i 11 rfl]; exact join_eq i rfl
@[simp] theorem join_5_5_5_7_4 (i : BitVec 26) :
    i.extractLsb' 21 5 ++ i.extractLsb' 16 5 ++ i.extractLsb' 11 5 ++ i.extractLsb' 4 7 ++ i.extractLsb' 0 4 = i := by
  rw [join_step i 21 rfl, join_step i 16 rfl, join_step i 11 rfl]; exact join_eq i rfl

/-! ### Codecs of immediates and of fields with a condition -/

theorem decShImm_enc (i : BitVec 16) (h : wfShift i = true) : decShImm i = .ok i := by
  simp only [wfShift, decide_eq_true_eq] at h
  simp [decShImm, h]

theorem decLoopImm_enc (i : BitVec 16) (h : (decide (1 ≤ i.toNat) && decide (i.toNat ≤ 32767)) = true) :
    decLoopImm i = .ok i := by
  simp only [Bool.and_eq_true, decide_eq_true_eq] at h
  simp [decLoopImm, h]

theorem decPauseImm_enc (i : BitVec 16) (h : wfPause i = true) : decPauseImm i = .ok i := by
  simp only [wfPause, Bool.and_eq_true, decide_eq_true_eq] at h
  simp [decPauseImm, h]

theorem decNz_enc (i : BitVec 11) (h : (i != 0) = true) : decNz i = .ok i := by
  rw [decNz, if_neg (by simpa using h)]

@[simp] theorem decCr_enc (i : BitVec 12) : decCr (i.setWidth 16) = .ok i := by
  have h : (i.setWidth 16).toNat = i.toNat := by rw [BitVec.toNat_setWidth, Nat.mod_eq_of_lt (by omega)]
  have h2 : (i.setWidth 16).setWidth 12 = i := BitVec.eq_of_toNat_eq (by rw [BitVec.toNat_setWidth, h]; omega)
  simp only [decCr, h, h2, i.isLt, if_true]

theorem decMask_enc (m : BitVec 4) (h : (m != 0) = true) : decMask (m.setWidth 8) = .ok m := by
  have h1 : (m.setWidth 8).toNat = m.toNat := by rw [BitVec.toNat_setWidth, Nat.mod_eq_of_lt (by omega)]
  have h2 : (m.setWidth 8).setWidth 4 = m := BitVec.eq_of_toNat_eq (by rw [BitVec.toNat_setWidth, h1]; omega)
  have h3 : m.toNat ≠ 0 := fun e => by
    have : m = 0 := BitVec.eq_of_toNat_eq e
    simp [this] at h
  have h4 : 1 ≤ m.toNat ∧ m.toNat ≤ 15 := by omega
  simp only [decMask, h1, h2, h4, and_self, if_true]

@[simp] theorem decOff_enc (off : BitVec 8) : decOff (off.setWidth 11) = .ok off := by
  have h1 : (off.setWidth 11).toNat = off.toNat := by rw [BitVec.toNat_setWidth, Nat.mod_eq_of_lt (by omega)]
  have h2 : (off.setWidth 11).setWidth 8 = off := BitVec.eq_of_toNat_eq (by rw [BitVec.toNat_setWidth, h1]; omega)
  simp only [decOff, h1, h2, show off.toNat < 256 from off.isLt, if_true]

@[simp] theorem decVmacw_enc (u : Bool) (pa pb : Fin 4) : decVmacw (encVmacw u pa pb) = .ok (u, pa, pb) := by
  have h : (encVmacw u pa pb).toNat < 32 ∧ (encVmacw u pa pb).getLsbD 4 = u ∧
      ((encVmacw u pa pb).extractLsb' 0 2).toFin = pa ∧ ((encVmacw u pa pb).extractLsb' 2 2).toFin = pb := by
    revert u pa pb; decide
  simp only [decVmacw, h, if_true]

@[simp] theorem decDot4_enc (ua ub : Bool) : decDot4 (encDot4 ua ub) = .ok (ua, ub) := by
  cases ua <;> cases ub <;> rfl

@[simp] theorem decP4_enc (p : Fin 4) : decP4 (BitVec.ofNat 3 p.val) = .ok p := by
  have h := toNat_ofNat_lt (w := 3) (n := p.val) (by omega)
  simp [decP4, h]

@[simp] theorem decLihK_enc (p : Fin 4) : decLihK (BitVec.ofNat 3 p.val) = .ok p := decP4_enc p

@[simp] theorem decCvtD_enc (f : Fmt) (p : Fin 4) : decCvtD (encCvtD f p) = .ok (f, p) := by
  have h1 : (encCvtD f p).extractLsb' 0 4 = encFmt f := by
    rw [encCvtD]; exact (extract_append_low _ _ 0 4 (by decide)).trans (extract_all _)
  have h2 : (encCvtD f p).extractLsb' 4 2 = BitVec.ofFin p := by
    rw [encCvtD]; exact (extract_append_high _ _ 4 2 (by decide)).trans (extract_all _)
  simp only [decCvtD, h1, h2, decFmt_enc, toFin_ofFin]

@[simp] theorem decW4_enc (w : Fin 4) : decW4 (BitVec.ofNat 6 w.val) = .ok w := by
  have h := toNat_ofNat_lt (w := 6) (n := w.val) (by omega)
  simp [decW4, h]

@[simp] theorem decABfx_enc (sx : Bool) (w : Fin 64) : decABfx (encABfx sx w) = .ok (sx, w) := by
  have h : (encABfx sx w).toNat < 128 ∧ (encABfx sx w).getLsbD 6 = sx ∧ ((encABfx sx w).extractLsb' 0 6).toFin = w := by
    revert sx w; decide
  simp only [decABfx, h, if_true]

@[simp] theorem decTyOff_enc (ty : ATy) (off : BitVec 8) : decTyOff (encTyOff ty off) = .ok (ty, off) := by
  have h1 : (encTyOff ty off).extractLsb' 8 3 = encATy ty := by
    rw [encTyOff]; exact (extract_append_high _ _ 8 3 (by decide)).trans (extract_all _)
  have h2 : (encTyOff ty off).extractLsb' 0 8 = off := by
    rw [encTyOff]; exact (extract_append_low _ _ 0 8 (by decide)).trans (extract_all _)
  simp only [decTyOff, h1, h2, decATy_enc]

@[simp] theorem decWU_enc (w u : Bool) : decWU (encWU w u) = .ok (w, u) := by cases w <;> cases u <;> rfl

theorem decRn_enc (n : Fin 128) (h : wfRing n = true) : decRn (BitVec.ofNat 11 n.val) = .ok n := by
  simp only [wfRing, Bool.and_eq_true, decide_eq_true_eq] at h
  have h1 := toNat_ofNat_lt (w := 11) (n := n.val) (by omega)
  simp [decRn, h1, h]

@[simp] theorem decB5_enc (b : Fin 32) : decB5 (BitVec.ofNat 7 b.val) = .ok b := by
  have h := toNat_ofNat_lt (w := 7) (n := b.val) (by omega)
  simp [decB5, h]

@[simp] theorem decB5F_enc (b : Fin 32) : decB5F (BitVec.ofNat 11 b.val) = .ok b := by
  have h := toNat_ofNat_lt (w := 11) (n := b.val) (by omega)
  simp [decB5F, h]

@[simp] theorem decQ64_enc (q : Fin 64) : decQ64 (BitVec.ofNat 7 q.val) = .ok q := by
  have h := toNat_ofNat_lt (w := 7) (n := q.val) (by omega)
  simp [decQ64, h]

@[simp] theorem decEvCtx_enc (c : EvCtx) : decEvCtx (encEvCtx c) = .ok c := by
  cases c with
  | own => rfl
  | ctx c =>
    have h := toNat_ofNat_lt (w := 7) (n := c.val) (by omega)
    have h8 : ¬ BitVec.ofNat 7 c.val = 8 := by revert c; decide
    simp only [decEvCtx, encEvCtx, h, h8, if_false, c.isLt, dite_true]

theorem decKEven_enc (k : Fin 32) (h : (decide (2 ≤ k.val) && decide (k.val ≤ 26) && k.val % 2 == 0) = true) :
    decKEven (BitVec.ofFin k) = .ok k := by
  simp only [Bool.and_eq_true, decide_eq_true_eq, beq_iff_eq] at h
  simp [decKEven, h]

theorem decKShape_enc (k : Fin 32) (h : (decide (2 ≤ k.val) && decide (k.val ≤ 27)) = true) :
    decKShape (BitVec.ofFin k) = .ok k := by
  simp only [Bool.and_eq_true, decide_eq_true_eq] at h
  simp [decKShape, h]

@[simp] theorem decRp_enc (rp : Option (Fin 16)) : decRp (encRp rp) = .ok rp := by
  cases rp with
  | none => rfl
  | some r =>
    have h : ¬ 32 ≤ (encRp (some r)).toNat ∧ (encRp (some r)).getLsbD 4 = true ∧
        ((encRp (some r)).extractLsb' 0 4).toFin = r := by revert r; decide
    simp only [decRp, h, if_true, if_false]

@[simp] theorem decSpaces_enc (ss ds : Bool) : decSpaces (encSpaces ss ds) = .ok (ss, ds) := by
  cases ss <;> cases ds <;> rfl

/-! ### Headers -/

@[simp] theorem pure_ok_bind {α β : Type} (a : α) (f : α → Except DecodeError β) :
    ((pure a : Except DecodeError α) >>= f) = f a := rfl

theorem xDecHdr_enc (h : XHdr) (f : XFields) (h1 : f.s = encBool h.joined) (h2 : f.g = BitVec.ofFin h.gp)
    (h3 : f.gn = encBool h.gn) (h4 : f.wf = encTokF h.wait) (h5 : f.we = encTokE h.wait)
    (h6 : f.pf = encTokF h.push) (h7 : f.pe = encTokE h.push) : xDecHdr f = .ok h := by
  cases h with
  | mk j g n w p =>
    simp only at h1 h2 h3 h4 h5 h6 h7
    simp only [xDecHdr, h1, h2, h3, h4, h5, h6, h7, decTok_enc, ok_bind, toFin_ofFin]
    cases j <;> cases n <;> rfl

theorem aDecHdr_enc (h : AHdr) (f : AFields) (h4 : f.wf = encTokF h.wait) (h5 : f.we = encTokE h.wait)
    (h6 : f.pf = encTokF h.push) (h7 : f.pe = encTokE h.push) : aDecHdr f = .ok h := by
  simp only [aDecHdr, h4, h5, h6, h7, decTok_enc, ok_bind]
  rfl

theorem lDecHdr_enc (h : LHdr) (f : AFields) (h4 : f.wf = encTokF h.wait) (h5 : f.we = encTokE h.wait)
    (h6 : f.pf = encTokF h.push) (h7 : f.pe = encTokE h.push) : lDecHdr f (lEnc h) = .ok h := by
  simp only [lDecHdr, lEnc, h4, h5, h6, h7, decTok_enc, decBool_encBool, ok_bind]
  rfl

theorem mDecHdr_enc (h : MHdr) (f : MFields) (h1 : f.stamp = h.stamp) (h2 : f.bound = h.bound)
    (h4 : f.wf = encTokF h.wait) (h5 : f.we = encTokE h.wait) (h6 : f.pf = encTokF h.push)
    (h7 : f.pe = encTokE h.push) : mDecHdr f = .ok h := by
  simp only [mDecHdr, h1, h2, h4, h5, h6, h7, decTok_enc, ok_bind]
  rfl

theorem decodeA_short (f : AFields) (w2 : BitVec 48) (h : ¬ 0x3C ≤ f.op.toNat) :
    decodeA (aPack f) w2 = decodeAF f := by
  simp [decodeA, isLong, h]

theorem decodeA_long (f : AFields) (l : LFields) (h : 0x3C ≤ f.op.toNat) :
    decodeA (aPack f) (lPack l) = decodeLF f l := by
  simp [decodeA, isLong, h]

/-! ### The OPND field of an M word -/

@[simp] theorem opK1_encOp (k1 k2 : Fin 8) (low : BitVec 30) : opK1 (encOp k1 k2 low) = k1 := by
  have e : (encOp k1 k2 low).extractLsb' 33 3 = BitVec.extractLsb' (n := 3 + 3 + 30) 33 3
      ((BitVec.ofFin k1 : BitVec 3) ++ (BitVec.ofFin k2 : BitVec 3) ++ low) := rfl
  rw [opK1, e, extract_append_high _ _ _ _ (by decide), extract_append_high _ _ _ _ (by decide), extract_all]

@[simp] theorem opK2_encOp (k1 k2 : Fin 8) (low : BitVec 30) : opK2 (encOp k1 k2 low) = k2 := by
  have e : (encOp k1 k2 low).extractLsb' 30 3 = BitVec.extractLsb' (n := 3 + 3 + 30) 30 3
      ((BitVec.ofFin k1 : BitVec 3) ++ (BitVec.ofFin k2 : BitVec 3) ++ low) := rfl
  rw [opK2, e, extract_append_high _ _ _ _ (by decide), extract_append_low _ _ _ _ (by decide), extract_all]

/-- The unused bits of OPND are clear when every bit outside the kept ones is. -/
theorem opndRest_of (o : BitVec 36) (keep : Nat) (hk : keep < 2 ^ 36)
    (h : ∀ j : Fin 36, keep.testBit j.val = false → o.getLsbD j.val = false) : opndRest o keep = true := by
  have : o.toNat &&& (2 ^ 36 - 1 - keep) = 0 := by
    rw [Nat.sub_sub, Nat.add_comm 1 keep]
    apply Nat.eq_of_testBit_eq
    intro j
    rw [Nat.testBit_and, Nat.testBit_two_pow_sub_succ hk, Nat.zero_testBit]
    by_cases hj : j < 36
    · cases hb : keep.testBit j
      · have := h ⟨j, hj⟩ hb
        simp only [BitVec.getLsbD] at this
        simp [this]
      · simp
    · simp [hj]
  simp only [opndRest, this, beq_self_eq_true]

theorem opndRest_encOp (k1 k2 : Fin 8) : opndRest (encOp k1 k2 0) 0xFC0000000 = true := by revert k1 k2; decide
theorem opndRest_k2 (k2 : Fin 8) : opndRest (encOp 0 k2 0) 0x1C0000000 = true := by revert k2; decide
theorem opndRest_k1 (k1 : Fin 8) : opndRest (encOp k1 0 0) 0xE00000000 = true := by revert k1; decide

theorem opndRest_mmul (k1 k2 : Fin 8) (wl i32 : Bool) :
    opndRest (encOp k1 k2 ((encBool wl : BitVec 1) ++ (encBool i32 : BitVec 1) ++ (0 : BitVec 28))) 0xFF0000000 = true := by
  revert k1 k2 wl i32; decide

theorem low_bits (k1 k2 : Fin 8) (a b : Bool) :
    (encOp k1 k2 ((encBool a : BitVec 1) ++ (encBool b : BitVec 1) ++ (0 : BitVec 28))).getLsbD 29 = a ∧
      (encOp k1 k2 ((encBool a : BitVec 1) ++ (encBool b : BitVec 1) ++ (0 : BitVec 28))).getLsbD 28 = b := by
  revert k1 k2 a b; decide

theorem opndRest_mkli (k : Fin 8) (i : BitVec 32) :
    opndRest ((BitVec.ofFin k : BitVec 3) ++ (0 : BitVec 1) ++ i) 0xEFFFFFFFF = true := by
  refine opndRest_of _ _ (by decide) fun j hj => ?_
  have : ∀ j : Fin 36, Nat.testBit 0xEFFFFFFFF j.val = false → j = 32 := by decide
  cases this j hj
  show BitVec.getLsbD (w := 3 + 1 + 32) _ 32 = false
  rw [BitVec.getLsbD_append, BitVec.getLsbD_append]
  rfl

theorem opndRest_mkadd (k1 k2 : Fin 8) (i : BitVec 24) : opndRest (encOp k1 k2 ((0 : BitVec 6) ++ i)) 0xFC0FFFFFF = true := by
  refine opndRest_of _ _ (by decide) fun j hj => ?_
  have : ∀ j : Fin 36, Nat.testBit 0xFC0FFFFFF j.val = false → 24 ≤ j.val ∧ j.val < 30 := by decide
  have hj := this j hj
  show BitVec.getLsbD (w := 3 + 3 + (6 + 24)) ((BitVec.ofFin k1 : BitVec 3) ++ (BitVec.ofFin k2 : BitVec 3) ++ ((0 : BitVec 6) ++ i)) j.val = false
  have h1 : j.val < 6 + 24 := by omega
  have h2 : ¬ j.val < 24 := by omega
  rw [BitVec.getLsbD_append, if_pos h1, BitVec.getLsbD_append, if_neg h2]
  exact BitVec.getLsbD_zero

theorem opndRest_mloop (l c : Bool) (k : Fin 8) (d : BitVec 13) (n : BitVec 16) :
    opndRest ((0 : BitVec 2) ++ (encBool l : BitVec 1) ++ (encBool c : BitVec 1) ++ (BitVec.ofFin k : BitVec 3) ++ d ++ n)
      0x3FFFFFFFF = true := by
  refine opndRest_of _ _ (by decide) fun j hj => ?_
  have : ∀ j : Fin 36, Nat.testBit 0x3FFFFFFFF j.val = false → 34 ≤ j.val := by decide
  have hj := this j hj
  show BitVec.getLsbD (w := 2 + 1 + 1 + 3 + 13 + 16) _ j.val = false
  have h1 : ¬ j.val < 16 := by omega
  have h2 : ¬ j.val - 16 < 13 := by omega
  have h3 : ¬ j.val - 16 - 13 < 3 := by omega
  have h4 : ¬ j.val - 16 - 13 - 3 < 1 := by omega
  have h5 : ¬ j.val - 16 - 13 - 3 - 1 < 1 := by omega
  rw [BitVec.getLsbD_append, if_neg h1, BitVec.getLsbD_append, if_neg h2, BitVec.getLsbD_append, if_neg h3,
    BitVec.getLsbD_append, if_neg h4, BitVec.getLsbD_append, if_neg h5]
  exact BitVec.getLsbD_zero

theorem mloop_fields (l c : Bool) (k : Fin 8) (d : BitVec 13) (n : BitVec 16) :
    let o : BitVec 36 :=
      (0 : BitVec 2) ++ (encBool l : BitVec 1) ++ (encBool c : BitVec 1) ++ (BitVec.ofFin k : BitVec 3) ++ d ++ n
    o.extractLsb' 16 13 = d ∧ (o.extractLsb' 29 3).toFin = k ∧ o.extractLsb' 0 16 = n ∧ o.getLsbD 32 = c ∧
      o.getLsbD 33 = l := by
  have e (s m : Nat) : BitVec.extractLsb' (n := 36) s m
      ((0 : BitVec 2) ++ (encBool l : BitVec 1) ++ (encBool c : BitVec 1) ++ (BitVec.ofFin k : BitVec 3) ++ d ++ n) =
      BitVec.extractLsb' (n := 2 + 1 + 1 + 3 + 13 + 16) s m
      ((0 : BitVec 2) ++ (encBool l : BitVec 1) ++ (encBool c : BitVec 1) ++ (BitVec.ofFin k : BitVec 3) ++ d ++ n) := rfl
  refine ⟨?_, ?_, ?_, ?_, ?_⟩
  · simp (disch := decide) only [e, extract_append_high, extract_append_low, Nat.reduceSub, extract_all]
  · simp (disch := decide) only [e, extract_append_high, extract_append_low, Nat.reduceSub, extract_all]
  · simp (disch := decide) only [e, extract_append_high, extract_append_low, Nat.reduceSub, extract_all]
  · show BitVec.getLsbD (w := 2 + 1 + 1 + 3 + 13 + 16) _ 32 = c
    rw [BitVec.getLsbD_append, BitVec.getLsbD_append, BitVec.getLsbD_append, BitVec.getLsbD_append]
    cases c <;> rfl
  · show BitVec.getLsbD (w := 2 + 1 + 1 + 3 + 13 + 16) _ 33 = l
    rw [BitVec.getLsbD_append, BitVec.getLsbD_append, BitVec.getLsbD_append, BitVec.getLsbD_append]
    cases l <;> rfl

theorem opndRest_mbnz (k : Fin 8) (d : BitVec 20) :
    opndRest ((BitVec.ofFin k : BitVec 3) ++ (0 : BitVec 13) ++ d) 0xE000FFFFF = true := by
  refine opndRest_of _ _ (by decide) fun j hj => ?_
  have : ∀ j : Fin 36, Nat.testBit 0xE000FFFFF j.val = false → 20 ≤ j.val ∧ j.val < 33 := by decide
  have hj := this j hj
  show BitVec.getLsbD (w := 3 + 13 + 20) _ j.val = false
  have h1 : ¬ j.val < 20 := by omega
  have h2 : j.val - 20 < 13 := by omega
  rw [BitVec.getLsbD_append, if_neg h1, BitVec.getLsbD_append, if_pos h2]
  exact BitVec.getLsbD_zero

theorem mkli_fields (k : Fin 8) (i : BitVec 32) :
    opK1 ((BitVec.ofFin k : BitVec 3) ++ (0 : BitVec 1) ++ i) = k ∧
      BitVec.extractLsb' (n := 36) 0 32 ((BitVec.ofFin k : BitVec 3) ++ (0 : BitVec 1) ++ i) = i := by
  have e (s m : Nat) : BitVec.extractLsb' (n := 36) s m ((BitVec.ofFin k : BitVec 3) ++ (0 : BitVec 1) ++ i) =
      BitVec.extractLsb' (n := 3 + 1 + 32) s m ((BitVec.ofFin k : BitVec 3) ++ (0 : BitVec 1) ++ i) := rfl
  constructor <;> simp (disch := decide) only [opK1, e, extract_append_high, extract_append_low, Nat.reduceSub, extract_all]

theorem mbnz_fields (k : Fin 8) (d : BitVec 20) :
    opK1 ((BitVec.ofFin k : BitVec 3) ++ (0 : BitVec 13) ++ d) = k ∧
      BitVec.extractLsb' (n := 36) 0 20 ((BitVec.ofFin k : BitVec 3) ++ (0 : BitVec 13) ++ d) = d := by
  have e (s m : Nat) : BitVec.extractLsb' (n := 36) s m ((BitVec.ofFin k : BitVec 3) ++ (0 : BitVec 13) ++ d) =
      BitVec.extractLsb' (n := 3 + 13 + 20) s m ((BitVec.ofFin k : BitVec 3) ++ (0 : BitVec 13) ++ d) := rfl
  constructor <;> simp (disch := decide) only [opK1, e, extract_append_high, extract_append_low, Nat.reduceSub, extract_all]

theorem mkadd_imm (k1 k2 : Fin 8) (i : BitVec 24) : (encOp k1 k2 ((0 : BitVec 6) ++ i)).extractLsb' 0 24 = i := by
  have e : (encOp k1 k2 ((0 : BitVec 6) ++ i)).extractLsb' 0 24 = BitVec.extractLsb' (n := 3 + 3 + (6 + 24)) 0 24
      ((BitVec.ofFin k1 : BitVec 3) ++ (BitVec.ofFin k2 : BitVec 3) ++ ((0 : BitVec 6) ++ i)) := rfl
  simp (disch := decide) only [e, extract_append_high, extract_append_low, Nat.reduceSub, extract_all]

theorem ksteps_enc (ks : Fin 128) (h : (ks != 0) = true) : (BitVec.ofFin ks != (0 : BitVec 7)) = true := by
  revert ks; decide
theorem ring_enc (rb : Fin 16) : (BitVec.ofFin rb == (0 : BitVec 4)) = (rb == 0) := by revert rb; decide
theorem opnd_mdrain (k : Fin 8) :
    opndRest (encOp k 4 0) 0xF00000000 = true ∧ (encOp k 4 0).getLsbD 32 = true := by revert k; decide
theorem opnd_mzero (i32 : Bool) :
    opndRest (encOp 0 0 ((0 : BitVec 1) ++ (encBool i32 : BitVec 1) ++ (0 : BitVec 28))) 0x10000000 = true ∧
      (encOp 0 0 ((0 : BitVec 1) ++ (encBool i32 : BitVec 1) ++ (0 : BitVec 28))).getLsbD 28 = i32 := by
  revert i32; decide

theorem encBool1_eq (b : Bool) : ((encBool b : BitVec 1) == 1) = b := by cases b <;> rfl

end Sys2Proof
end

