-- ==== Sys2Proof/Laws/PerInstr.lean ====
section
/-! SUPPORT. Laws/PerInstr.lean: for every instruction, its words decode to it (spec/02 R25-R40). -/
namespace Sys2Proof.Laws

/-- The words of a well-formed instruction decode to it. -/
def Encoding.Statement (i : Instr) : Prop := i.wf = true → ∀ w, encode i = some w → w.decode = .ok i

theorem noTokens_enc (h : XHdr) (hwf : h.noTokens = true) : h.wait = none ∧ h.push = none := by
  simpa [XHdr.noTokens] using hwf

theorem Encoding.xNop h : Encoding.Statement (.xNop h) := by
  intro _ w hw
  cases hw
  simp only [Words.decode, decodeX, xUnpack_xPack]
  rw [decodeXF, xDecHdr_enc h _ rfl rfl rfl rfl rfl rfl rfl, ok_bind]
  show (must ((0) == 0) "DST" >>= _) = _
  simp only [ok_bind]
  rfl
theorem Encoding.xAdd h d a b : Encoding.Statement (.xAdd h d a b) := by
  intro _ w hw
  cases hw
  simp only [Words.decode, decodeX, xUnpack_xPack]
  rw [decodeXF, xDecHdr_enc h _ rfl rfl rfl rfl rfl rfl rfl, ok_bind]
  show (decSDst (encSDst d) >>= _) = _
  simp only [decSDst_enc, decSSrc_enc, ok_bind]
  rfl
theorem Encoding.xSub h d a b : Encoding.Statement (.xSub h d a b) := by
  intro _ w hw
  cases hw
  simp only [Words.decode, decodeX, xUnpack_xPack]
  rw [decodeXF, xDecHdr_enc h _ rfl rfl rfl rfl rfl rfl rfl, ok_bind]
  show (decSDst (encSDst d) >>= _) = _
  simp only [decSDst_enc, decSSrc_enc, ok_bind]
  rfl
theorem Encoding.xAnd h d a b : Encoding.Statement (.xAnd h d a b) := by
  intro _ w hw
  cases hw
  simp only [Words.decode, decodeX, xUnpack_xPack]
  rw [decodeXF, xDecHdr_enc h _ rfl rfl rfl rfl rfl rfl rfl, ok_bind]
  show (decSDst (encSDst d) >>= _) = _
  simp only [decSDst_enc, decSSrc_enc, ok_bind]
  rfl
theorem Encoding.xOr h d a b : Encoding.Statement (.xOr h d a b) := by
  intro _ w hw
  cases hw
  simp only [Words.decode, decodeX, xUnpack_xPack]
  rw [decodeXF, xDecHdr_enc h _ rfl rfl rfl rfl rfl rfl rfl, ok_bind]
  show (decSDst (encSDst d) >>= _) = _
  simp only [decSDst_enc, decSSrc_enc, ok_bind]
  rfl
theorem Encoding.xXor h d a b : Encoding.Statement (.xXor h d a b) := by
  intro _ w hw
  cases hw
  simp only [Words.decode, decodeX, xUnpack_xPack]
  rw [decodeXF, xDecHdr_enc h _ rfl rfl rfl rfl rfl rfl rfl, ok_bind]
  show (decSDst (encSDst d) >>= _) = _
  simp only [decSDst_enc, decSSrc_enc, ok_bind]
  rfl
theorem Encoding.xShl h d a b : Encoding.Statement (.xShl h d a b) := by
  intro _ w hw
  cases hw
  simp only [Words.decode, decodeX, xUnpack_xPack]
  rw [decodeXF, xDecHdr_enc h _ rfl rfl rfl rfl rfl rfl rfl, ok_bind]
  show (decSDst (encSDst d) >>= _) = _
  simp only [decSDst_enc, decSSrc_enc, ok_bind]
  rfl
theorem Encoding.xShr h d a b : Encoding.Statement (.xShr h d a b) := by
  intro _ w hw
  cases hw
  simp only [Words.decode, decodeX, xUnpack_xPack]
  rw [decodeXF, xDecHdr_enc h _ rfl rfl rfl rfl rfl rfl rfl, ok_bind]
  show (decSDst (encSDst d) >>= _) = _
  simp only [decSDst_enc, decSSrc_enc, ok_bind]
  rfl
theorem Encoding.xSra h d a b : Encoding.Statement (.xSra h d a b) := by
  intro _ w hw
  cases hw
  simp only [Words.decode, decodeX, xUnpack_xPack]
  rw [decodeXF, xDecHdr_enc h _ rfl rfl rfl rfl rfl rfl rfl, ok_bind]
  show (decSDst (encSDst d) >>= _) = _
  simp only [decSDst_enc, decSSrc_enc, ok_bind]
  rfl
theorem Encoding.xMin h u d a b : Encoding.Statement (.xMin h u d a b) := by
  intro _ w hw
  cases hw
  simp only [Words.decode, decodeX, xUnpack_xPack]
  rw [decodeXF, xDecHdr_enc h _ rfl rfl rfl rfl rfl rfl rfl, ok_bind]
  show (decSDst (encSDst d) >>= _) = _
  simp only [decSDst_enc, decBool_encBool, decSSrc_enc, ok_bind]
  rfl
theorem Encoding.xMax h u d a b : Encoding.Statement (.xMax h u d a b) := by
  intro _ w hw
  cases hw
  simp only [Words.decode, decodeX, xUnpack_xPack]
  rw [decodeXF, xDecHdr_enc h _ rfl rfl rfl rfl rfl rfl rfl, ok_bind]
  show (decSDst (encSDst d) >>= _) = _
  simp only [decSDst_enc, decBool_encBool, decSSrc_enc, ok_bind]
  rfl
theorem Encoding.xMul h d a b : Encoding.Statement (.xMul h d a b) := by
  intro _ w hw
  cases hw
  simp only [Words.decode, decodeX, xUnpack_xPack]
  rw [decodeXF, xDecHdr_enc h _ rfl rfl rfl rfl rfl rfl rfl, ok_bind]
  show (decSDst (encSDst d) >>= _) = _
  simp only [decSDst_enc, decSSrc_enc, ok_bind]
  rfl
theorem Encoding.xMulh h u d a b : Encoding.Statement (.xMulh h u d a b) := by
  intro _ w hw
  cases hw
  simp only [Words.decode, decodeX, xUnpack_xPack]
  rw [decodeXF, xDecHdr_enc h _ rfl rfl rfl rfl rfl rfl rfl, ok_bind]
  show (decSDst (encSDst d) >>= _) = _
  simp only [decSDst_enc, decBool_encBool, decSSrc_enc, ok_bind]
  rfl
theorem Encoding.xSel h d a b p : Encoding.Statement (.xSel h d a b p) := by
  intro _ w hw
  cases hw
  simp only [Words.decode, decodeX, xUnpack_xPack]
  rw [decodeXF, xDecHdr_enc h _ rfl rfl rfl rfl rfl rfl rfl, ok_bind]
  show (decSDst (encSDst d) >>= _) = _
  simp only [decSDst_enc, fin8_enc (n := 8) (by decide), decSSrc_enc, ok_bind]
  rfl
theorem Encoding.xClz h d a : Encoding.Statement (.xClz h d a) := by
  intro _ w hw
  cases hw
  simp only [Words.decode, decodeX, xUnpack_xPack]
  rw [decodeXF, xDecHdr_enc h _ rfl rfl rfl rfl rfl rfl rfl, ok_bind]
  show (decSDst (encSDst d) >>= _) = _
  simp only [decSDst_enc, decSSrc_enc, ok_bind]
  rfl
theorem Encoding.xPopc h d a : Encoding.Statement (.xPopc h d a) := by
  intro _ w hw
  cases hw
  simp only [Words.decode, decodeX, xUnpack_xPack]
  rw [decodeXF, xDecHdr_enc h _ rfl rfl rfl rfl rfl rfl rfl, ok_bind]
  show (decSDst (encSDst d) >>= _) = _
  simp only [decSDst_enc, decSSrc_enc, ok_bind]
  rfl
theorem Encoding.xBfx h sx w d a pos : Encoding.Statement (.xBfx h sx w d a pos) := by
  intro hwf w hw
  cases hw
  simp only [Words.decode, decodeX, xUnpack_xPack]
  rw [decodeXF, xDecHdr_enc h _ rfl rfl rfl rfl rfl rfl rfl, ok_bind]
  show (decSDst (encSDst d) >>= _) = _
  simp only [decSDst_enc, decSSrc_enc, decBool_encBool, decWidth_enc _ hwf, ok_bind]
  rfl
theorem Encoding.xBfi h w d a b pos : Encoding.Statement (.xBfi h w d a b pos) := by
  intro hwf w hw
  cases hw
  simp only [Words.decode, decodeX, xUnpack_xPack]
  rw [decodeXF, xDecHdr_enc h _ rfl rfl rfl rfl rfl rfl rfl, ok_bind]
  show (decSDst (encSDst d) >>= _) = _
  simp only [decSDst_enc, decSSrc_enc, decWidth_enc _ hwf, ok_bind]
  rfl
theorem Encoding.xLea h k d a b : Encoding.Statement (.xLea h k d a b) := by
  intro hwf w hw
  cases hw
  simp only [Words.decode, decodeX, xUnpack_xPack]
  rw [decodeXF, xDecHdr_enc h _ rfl rfl rfl rfl rfl rfl rfl, ok_bind]
  show (decSDst (encSDst d) >>= _) = _
  simp only [decSDst_enc, decLea_enc _ hwf, decSSrc_enc, ok_bind]
  rfl
theorem Encoding.xAddi h d a i : Encoding.Statement (.xAddi h d a i) := by
  intro _ w hw
  cases hw
  simp only [Words.decode, decodeX, xUnpack_xPack]
  rw [decodeXF, xDecHdr_enc h _ rfl rfl rfl rfl rfl rfl rfl, ok_bind]
  show (decSDst (encSDst d) >>= _) = _
  simp only [decSDst_enc, decSSrc_enc, ok_bind, pure_ok_bind, join_8_8]
  rfl
theorem Encoding.xAndi h d a i : Encoding.Statement (.xAndi h d a i) := by
  intro _ w hw
  cases hw
  simp only [Words.decode, decodeX, xUnpack_xPack]
  rw [decodeXF, xDecHdr_enc h _ rfl rfl rfl rfl rfl rfl rfl, ok_bind]
  show (decSDst (encSDst d) >>= _) = _
  simp only [decSDst_enc, decSSrc_enc, ok_bind, pure_ok_bind, join_8_8]
  rfl
theorem Encoding.xOri h d a i : Encoding.Statement (.xOri h d a i) := by
  intro _ w hw
  cases hw
  simp only [Words.decode, decodeX, xUnpack_xPack]
  rw [decodeXF, xDecHdr_enc h _ rfl rfl rfl rfl rfl rfl rfl, ok_bind]
  show (decSDst (encSDst d) >>= _) = _
  simp only [decSDst_enc, decSSrc_enc, ok_bind, pure_ok_bind, join_8_8]
  rfl
theorem Encoding.xXori h d a i : Encoding.Statement (.xXori h d a i) := by
  intro _ w hw
  cases hw
  simp only [Words.decode, decodeX, xUnpack_xPack]
  rw [decodeXF, xDecHdr_enc h _ rfl rfl rfl rfl rfl rfl rfl, ok_bind]
  show (decSDst (encSDst d) >>= _) = _
  simp only [decSDst_enc, decSSrc_enc, ok_bind, pure_ok_bind, join_8_8]
  rfl
theorem Encoding.xShli h d a i : Encoding.Statement (.xShli h d a i) := by
  intro hwf w hw
  cases hw
  simp only [Words.decode, decodeX, xUnpack_xPack]
  rw [decodeXF, xDecHdr_enc h _ rfl rfl rfl rfl rfl rfl rfl, ok_bind]
  show (decSDst (encSDst d) >>= _) = _
  simp only [decSDst_enc, decSSrc_enc, decShImm_enc _ hwf, ok_bind, join_8_8]
  rfl
theorem Encoding.xShri h d a i : Encoding.Statement (.xShri h d a i) := by
  intro hwf w hw
  cases hw
  simp only [Words.decode, decodeX, xUnpack_xPack]
  rw [decodeXF, xDecHdr_enc h _ rfl rfl rfl rfl rfl rfl rfl, ok_bind]
  show (decSDst (encSDst d) >>= _) = _
  simp only [decSDst_enc, decSSrc_enc, decShImm_enc _ hwf, ok_bind, join_8_8]
  rfl
theorem Encoding.xSrai h d a i : Encoding.Statement (.xSrai h d a i) := by
  intro hwf w hw
  cases hw
  simp only [Words.decode, decodeX, xUnpack_xPack]
  rw [decodeXF, xDecHdr_enc h _ rfl rfl rfl rfl rfl rfl rfl, ok_bind]
  show (decSDst (encSDst d) >>= _) = _
  simp only [decSDst_enc, decSSrc_enc, decShImm_enc _ hwf, ok_bind, join_8_8]
  rfl
theorem Encoding.xLi h d i : Encoding.Statement (.xLi h d i) := by
  intro _ w hw
  cases hw
  simp only [Words.decode, decodeX, xUnpack_xPack]
  rw [decodeXF, xDecHdr_enc h _ rfl rfl rfl rfl rfl rfl rfl, ok_bind]
  show (decSDst (encSDst d) >>= _) = _
  simp only [decSDst_enc, ok_bind, pure_ok_bind, join_8_8]
  rfl
theorem Encoding.xLih h d a i : Encoding.Statement (.xLih h d a i) := by
  intro _ w hw
  cases hw
  simp only [Words.decode, decodeX, xUnpack_xPack]
  rw [decodeXF, xDecHdr_enc h _ rfl rfl rfl rfl rfl rfl rfl, ok_bind]
  show (decSDst (encSDst d) >>= _) = _
  simp only [decSDst_enc, decSSrc_enc, ok_bind, pure_ok_bind, join_8_8]
  rfl
theorem Encoding.xMuli h d a i : Encoding.Statement (.xMuli h d a i) := by
  intro _ w hw
  cases hw
  simp only [Words.decode, decodeX, xUnpack_xPack]
  rw [decodeXF, xDecHdr_enc h _ rfl rfl rfl rfl rfl rfl rfl, ok_bind]
  show (decSDst (encSDst d) >>= _) = _
  simp only [decSDst_enc, decSSrc_enc, ok_bind, pure_ok_bind, join_8_8]
  rfl
theorem Encoding.xCmp h c p a b : Encoding.Statement (.xCmp h c p a b) := by
  intro hwf w hw
  cases hw
  simp only [Words.decode, decodeX, xUnpack_xPack]
  rw [decodeXF, xDecHdr_enc h _ rfl rfl rfl rfl rfl rfl rfl, ok_bind]
  show (decPredD (BitVec.ofNat 8 p.val) >>= _) = _
  simp only [decPredD_enc _ hwf, decICond_enc, decSSrc_enc, ok_bind]
  rfl
theorem Encoding.xCmpi h c p a i : Encoding.Statement (.xCmpi h c p a i) := by
  intro hwf w hw
  cases hw
  simp only [Words.decode, decodeX, xUnpack_xPack]
  rw [decodeXF, xDecHdr_enc h _ rfl rfl rfl rfl rfl rfl rfl, ok_bind]
  show (decPredD (BitVec.ofNat 8 p.val) >>= _) = _
  simp only [decPredD_enc _ hwf, decSSrc_enc, decICond_enc, ok_bind, pure_ok_bind, join_8_8]
  rfl
theorem Encoding.xPand h p a b : Encoding.Statement (.xPand h p a b) := by
  intro hwf w hw
  cases hw
  simp only [Words.decode, decodeX, xUnpack_xPack]
  rw [decodeXF, xDecHdr_enc h _ rfl rfl rfl rfl rfl rfl rfl, ok_bind]
  show (decPredD (BitVec.ofNat 8 p.val) >>= _) = _
  simp only [decPredD_enc _ hwf, fin8_enc (n := 8) (by decide), ok_bind]
  rfl
theorem Encoding.xPor h p a b : Encoding.Statement (.xPor h p a b) := by
  intro hwf w hw
  cases hw
  simp only [Words.decode, decodeX, xUnpack_xPack]
  rw [decodeXF, xDecHdr_enc h _ rfl rfl rfl rfl rfl rfl rfl, ok_bind]
  show (decPredD (BitVec.ofNat 8 p.val) >>= _) = _
  simp only [decPredD_enc _ hwf, fin8_enc (n := 8) (by decide), ok_bind]
  rfl
theorem Encoding.xPxor h p a b : Encoding.Statement (.xPxor h p a b) := by
  intro hwf w hw
  cases hw
  simp only [Words.decode, decodeX, xUnpack_xPack]
  rw [decodeXF, xDecHdr_enc h _ rfl rfl rfl rfl rfl rfl rfl, ok_bind]
  show (decPredD (BitVec.ofNat 8 p.val) >>= _) = _
  simp only [decPredD_enc _ hwf, fin8_enc (n := 8) (by decide), ok_bind]
  rfl
theorem Encoding.xPnot h p a : Encoding.Statement (.xPnot h p a) := by
  intro hwf w hw
  cases hw
  simp only [Words.decode, decodeX, xUnpack_xPack]
  rw [decodeXF, xDecHdr_enc h _ rfl rfl rfl rfl rfl rfl rfl, ok_bind]
  show (decPredD (BitVec.ofNat 8 p.val) >>= _) = _
  simp only [decPredD_enc _ hwf, fin8_enc (n := 8) (by decide), ok_bind]
  rfl
theorem Encoding.xPmov h p a : Encoding.Statement (.xPmov h p a) := by
  intro hwf w hw
  cases hw
  simp only [Words.decode, decodeX, xUnpack_xPack]
  rw [decodeXF, xDecHdr_enc h _ rfl rfl rfl rfl rfl rfl rfl, ok_bind]
  show (decPredD (BitVec.ofNat 8 p.val) >>= _) = _
  simp only [decPredD_enc _ hwf, fin8_enc (n := 8) (by decide), ok_bind]
  rfl
theorem Encoding.xPget h d a : Encoding.Statement (.xPget h d a) := by
  intro _ w hw
  cases hw
  simp only [Words.decode, decodeX, xUnpack_xPack]
  rw [decodeXF, xDecHdr_enc h _ rfl rfl rfl rfl rfl rfl rfl, ok_bind]
  show (decSDst (encSDst d) >>= _) = _
  simp only [decSDst_enc, fin8_enc (n := 8) (by decide), ok_bind]
  rfl
theorem Encoding.vadd h d a b : Encoding.Statement (.vadd h d a b) := by
  intro _ w hw
  cases hw
  simp only [Words.decode, decodeX, xUnpack_xPack]
  rw [decodeXF, xDecHdr_enc h _ rfl rfl rfl rfl rfl rfl rfl, ok_bind]
  show (decVDst (encVDst d) >>= _) = _
  simp only [decVDst_enc, decVSrc_enc, ok_bind]
  rfl
theorem Encoding.vsub h d a b : Encoding.Statement (.vsub h d a b) := by
  intro _ w hw
  cases hw
  simp only [Words.decode, decodeX, xUnpack_xPack]
  rw [decodeXF, xDecHdr_enc h _ rfl rfl rfl rfl rfl rfl rfl, ok_bind]
  show (decVDst (encVDst d) >>= _) = _
  simp only [decVDst_enc, decVSrc_enc, ok_bind]
  rfl
theorem Encoding.vmul h d a b : Encoding.Statement (.vmul h d a b) := by
  intro _ w hw
  cases hw
  simp only [Words.decode, decodeX, xUnpack_xPack]
  rw [decodeXF, xDecHdr_enc h _ rfl rfl rfl rfl rfl rfl rfl, ok_bind]
  show (decVDst (encVDst d) >>= _) = _
  simp only [decVDst_enc, decVSrc_enc, ok_bind]
  rfl
theorem Encoding.vfma h d a b c : Encoding.Statement (.vfma h d a b c) := by
  intro _ w hw
  cases hw
  simp only [Words.decode, decodeX, xUnpack_xPack]
  rw [decodeXF, xDecHdr_enc h _ rfl rfl rfl rfl rfl rfl rfl, ok_bind]
  show (decVDst (encVDst d) >>= _) = _
  simp only [decVDst_enc, decVSrc_enc, ok_bind]
  rfl
theorem Encoding.vfms h d a b c : Encoding.Statement (.vfms h d a b c) := by
  intro _ w hw
  cases hw
  simp only [Words.decode, decodeX, xUnpack_xPack]
  rw [decodeXF, xDecHdr_enc h _ rfl rfl rfl rfl rfl rfl rfl, ok_bind]
  show (decVDst (encVDst d) >>= _) = _
  simp only [decVDst_enc, decVSrc_enc, ok_bind]
  rfl
theorem Encoding.vmin h d a b : Encoding.Statement (.vmin h d a b) := by
  intro _ w hw
  cases hw
  simp only [Words.decode, decodeX, xUnpack_xPack]
  rw [decodeXF, xDecHdr_enc h _ rfl rfl rfl rfl rfl rfl rfl, ok_bind]
  show (decVDst (encVDst d) >>= _) = _
  simp only [decVDst_enc, decVSrc_enc, ok_bind]
  rfl
theorem Encoding.vmax h d a b : Encoding.Statement (.vmax h d a b) := by
  intro _ w hw
  cases hw
  simp only [Words.decode, decodeX, xUnpack_xPack]
  rw [decodeXF, xDecHdr_enc h _ rfl rfl rfl rfl rfl rfl rfl, ok_bind]
  show (decVDst (encVDst d) >>= _) = _
  simp only [decVDst_enc, decVSrc_enc, ok_bind]
  rfl
theorem Encoding.vabs h d a : Encoding.Statement (.vabs h d a) := by
  intro _ w hw
  cases hw
  simp only [Words.decode, decodeX, xUnpack_xPack]
  rw [decodeXF, xDecHdr_enc h _ rfl rfl rfl rfl rfl rfl rfl, ok_bind]
  show (decVDst (encVDst d) >>= _) = _
  simp only [decVDst_enc, decVSrc_enc, ok_bind]
  rfl
theorem Encoding.vneg h d a : Encoding.Statement (.vneg h d a) := by
  intro _ w hw
  cases hw
  simp only [Words.decode, decodeX, xUnpack_xPack]
  rw [decodeXF, xDecHdr_enc h _ rfl rfl rfl rfl rfl rfl rfl, ok_bind]
  show (decVDst (encVDst d) >>= _) = _
  simp only [decVDst_enc, decVSrc_enc, ok_bind]
  rfl
theorem Encoding.vcmp h c d a b : Encoding.Statement (.vcmp h c d a b) := by
  intro _ w hw
  cases hw
  simp only [Words.decode, decodeX, xUnpack_xPack]
  rw [decodeXF, xDecHdr_enc h _ rfl rfl rfl rfl rfl rfl rfl, ok_bind]
  show (decFCond (encFCond c) >>= _) = _
  simp only [decFCond_enc, decVDst_enc, decVSrc_enc, ok_bind]
  rfl
theorem Encoding.vrcp h d a : Encoding.Statement (.vrcp h d a) := by
  intro _ w hw
  cases hw
  simp only [Words.decode, decodeX, xUnpack_xPack]
  rw [decodeXF, xDecHdr_enc h _ rfl rfl rfl rfl rfl rfl rfl, ok_bind]
  show (decVDst (encVDst d) >>= _) = _
  simp only [decVDst_enc, decVSrc_enc, ok_bind]
  rfl
theorem Encoding.vrsqrt h d a : Encoding.Statement (.vrsqrt h d a) := by
  intro _ w hw
  cases hw
  simp only [Words.decode, decodeX, xUnpack_xPack]
  rw [decodeXF, xDecHdr_enc h _ rfl rfl rfl rfl rfl rfl rfl, ok_bind]
  show (decVDst (encVDst d) >>= _) = _
  simp only [decVDst_enc, decVSrc_enc, ok_bind]
  rfl
theorem Encoding.vexp2 h d a : Encoding.Statement (.vexp2 h d a) := by
  intro _ w hw
  cases hw
  simp only [Words.decode, decodeX, xUnpack_xPack]
  rw [decodeXF, xDecHdr_enc h _ rfl rfl rfl rfl rfl rfl rfl, ok_bind]
  show (decVDst (encVDst d) >>= _) = _
  simp only [decVDst_enc, decVSrc_enc, ok_bind]
  rfl
theorem Encoding.vlog2 h d a : Encoding.Statement (.vlog2 h d a) := by
  intro _ w hw
  cases hw
  simp only [Words.decode, decodeX, xUnpack_xPack]
  rw [decodeXF, xDecHdr_enc h _ rfl rfl rfl rfl rfl rfl rfl, ok_bind]
  show (decVDst (encVDst d) >>= _) = _
  simp only [decVDst_enc, decVSrc_enc, ok_bind]
  rfl
theorem Encoding.vredsumO h d a : Encoding.Statement (.vredsumO h d a) := by
  intro _ w hw
  cases hw
  simp only [Words.decode, decodeX, xUnpack_xPack]
  rw [decodeXF, xDecHdr_enc h _ rfl rfl rfl rfl rfl rfl rfl, ok_bind]
  show (decSDst (encSDst d) >>= _) = _
  simp only [decSDst_enc, decVSrc_enc, ok_bind]
  rfl
theorem Encoding.vredsumU h d a : Encoding.Statement (.vredsumU h d a) := by
  intro _ w hw
  cases hw
  simp only [Words.decode, decodeX, xUnpack_xPack]
  rw [decodeXF, xDecHdr_enc h _ rfl rfl rfl rfl rfl rfl rfl, ok_bind]
  show (decSDst (encSDst d) >>= _) = _
  simp only [decSDst_enc, decVSrc_enc, ok_bind]
  rfl
theorem Encoding.vredmax h d a : Encoding.Statement (.vredmax h d a) := by
  intro _ w hw
  cases hw
  simp only [Words.decode, decodeX, xUnpack_xPack]
  rw [decodeXF, xDecHdr_enc h _ rfl rfl rfl rfl rfl rfl rfl, ok_bind]
  show (decSDst (encSDst d) >>= _) = _
  simp only [decSDst_enc, decVSrc_enc, ok_bind]
  rfl
theorem Encoding.viadd h d a b : Encoding.Statement (.viadd h d a b) := by
  intro _ w hw
  cases hw
  simp only [Words.decode, decodeX, xUnpack_xPack]
  rw [decodeXF, xDecHdr_enc h _ rfl rfl rfl rfl rfl rfl rfl, ok_bind]
  show (decVDst (encVDst d) >>= _) = _
  simp only [decVDst_enc, decVSrc_enc, ok_bind]
  rfl
theorem Encoding.visub h d a b : Encoding.Statement (.visub h d a b) := by
  intro _ w hw
  cases hw
  simp only [Words.decode, decodeX, xUnpack_xPack]
  rw [decodeXF, xDecHdr_enc h _ rfl rfl rfl rfl rfl rfl rfl, ok_bind]
  show (decVDst (encVDst d) >>= _) = _
  simp only [decVDst_enc, decVSrc_enc, ok_bind]
  rfl
theorem Encoding.vimul h d a b : Encoding.Statement (.vimul h d a b) := by
  intro _ w hw
  cases hw
  simp only [Words.decode, decodeX, xUnpack_xPack]
  rw [decodeXF, xDecHdr_enc h _ rfl rfl rfl rfl rfl rfl rfl, ok_bind]
  show (decVDst (encVDst d) >>= _) = _
  simp only [decVDst_enc, decVSrc_enc, ok_bind]
  rfl
theorem Encoding.vand h d a b : Encoding.Statement (.vand h d a b) := by
  intro _ w hw
  cases hw
  simp only [Words.decode, decodeX, xUnpack_xPack]
  rw [decodeXF, xDecHdr_enc h _ rfl rfl rfl rfl rfl rfl rfl, ok_bind]
  show (decVDst (encVDst d) >>= _) = _
  simp only [decVDst_enc, decVSrc_enc, ok_bind]
  rfl
theorem Encoding.vor h d a b : Encoding.Statement (.vor h d a b) := by
  intro _ w hw
  cases hw
  simp only [Words.decode, decodeX, xUnpack_xPack]
  rw [decodeXF, xDecHdr_enc h _ rfl rfl rfl rfl rfl rfl rfl, ok_bind]
  show (decVDst (encVDst d) >>= _) = _
  simp only [decVDst_enc, decVSrc_enc, ok_bind]
  rfl
theorem Encoding.vxor h d a b : Encoding.Statement (.vxor h d a b) := by
  intro _ w hw
  cases hw
  simp only [Words.decode, decodeX, xUnpack_xPack]
  rw [decodeXF, xDecHdr_enc h _ rfl rfl rfl rfl rfl rfl rfl, ok_bind]
  show (decVDst (encVDst d) >>= _) = _
  simp only [decVDst_enc, decVSrc_enc, ok_bind]
  rfl
theorem Encoding.vshl h d a b : Encoding.Statement (.vshl h d a b) := by
  intro _ w hw
  cases hw
  simp only [Words.decode, decodeX, xUnpack_xPack]
  rw [decodeXF, xDecHdr_enc h _ rfl rfl rfl rfl rfl rfl rfl, ok_bind]
  show (decVDst (encVDst d) >>= _) = _
  simp only [decVDst_enc, decVSrc_enc, ok_bind]
  rfl
theorem Encoding.vshr h d a b : Encoding.Statement (.vshr h d a b) := by
  intro _ w hw
  cases hw
  simp only [Words.decode, decodeX, xUnpack_xPack]
  rw [decodeXF, xDecHdr_enc h _ rfl rfl rfl rfl rfl rfl rfl, ok_bind]
  show (decVDst (encVDst d) >>= _) = _
  simp only [decVDst_enc, decVSrc_enc, ok_bind]
  rfl
theorem Encoding.vsra h d a b : Encoding.Statement (.vsra h d a b) := by
  intro _ w hw
  cases hw
  simp only [Words.decode, decodeX, xUnpack_xPack]
  rw [decodeXF, xDecHdr_enc h _ rfl rfl rfl rfl rfl rfl rfl, ok_bind]
  show (decVDst (encVDst d) >>= _) = _
  simp only [decVDst_enc, decVSrc_enc, ok_bind]
  rfl
theorem Encoding.vimin h u d a b : Encoding.Statement (.vimin h u d a b) := by
  intro _ w hw
  cases hw
  simp only [Words.decode, decodeX, xUnpack_xPack]
  rw [decodeXF, xDecHdr_enc h _ rfl rfl rfl rfl rfl rfl rfl, ok_bind]
  show (decBool (encBool u) "FN" >>= _) = _
  simp only [decBool_encBool, decVDst_enc, decVSrc_enc, ok_bind]
  rfl
theorem Encoding.vimax h u d a b : Encoding.Statement (.vimax h u d a b) := by
  intro _ w hw
  cases hw
  simp only [Words.decode, decodeX, xUnpack_xPack]
  rw [decodeXF, xDecHdr_enc h _ rfl rfl rfl rfl rfl rfl rfl, ok_bind]
  show (decBool (encBool u) "FN" >>= _) = _
  simp only [decBool_encBool, decVDst_enc, decVSrc_enc, ok_bind]
  rfl
theorem Encoding.vicmp h c d a b : Encoding.Statement (.vicmp h c d a b) := by
  intro _ w hw
  cases hw
  simp only [Words.decode, decodeX, xUnpack_xPack]
  rw [decodeXF, xDecHdr_enc h _ rfl rfl rfl rfl rfl rfl rfl, ok_bind]
  show (decICond (encICond c) >>= _) = _
  simp only [decICond_enc, decVDst_enc, decVSrc_enc, ok_bind]
  rfl
theorem Encoding.vmacw h u pa pb d a b c : Encoding.Statement (.vmacw h u pa pb d a b c) := by
  intro _ w hw
  cases hw
  simp only [Words.decode, decodeX, xUnpack_xPack]
  rw [decodeXF, xDecHdr_enc h _ rfl rfl rfl rfl rfl rfl rfl, ok_bind]
  show (decVmacw (encVmacw u pa pb) >>= _) = _
  simp only [decVmacw_enc, decVDst_enc, decVSrc_enc, ok_bind]
  rfl
theorem Encoding.vrsh h t p d a b c : Encoding.Statement (.vrsh h t p d a b c) := by
  intro hwf w hw
  cases hw
  simp only [Words.decode, decodeX, xUnpack_xPack]
  rw [decodeXF, xDecHdr_enc h _ rfl rfl rfl rfl rfl rfl rfl, ok_bind]
  show (decRshT (encRshT t) >>= _) = _
  simp only [decRshT_enc, decP4_enc, decVDst_enc, decVSrc_enc, ok_bind]
  rw [show wfVrsh t p d a b c = true from hwf]
  rfl
theorem Encoding.vdot4 h ua ub d a b c : Encoding.Statement (.vdot4 h ua ub d a b c) := by
  intro _ w hw
  cases hw
  simp only [Words.decode, decodeX, xUnpack_xPack]
  rw [decodeXF, xDecHdr_enc h _ rfl rfl rfl rfl rfl rfl rfl, ok_bind]
  show (decDot4 (encDot4 ua ub) >>= _) = _
  simp only [decDot4_enc, decVDst_enc, decVSrc_enc, ok_bind]
  rfl
theorem Encoding.vcvt h df sf p d a c : Encoding.Statement (.vcvt h df sf p d a c) := by
  intro hwf w hw
  cases hw
  simp only [Words.decode, decodeX, xUnpack_xPack]
  rw [decodeXF, xDecHdr_enc h _ rfl rfl rfl rfl rfl rfl rfl, ok_bind]
  show (decCvtD (encCvtD df p) >>= _) = _
  simp only [decCvtD_enc, decCvtS_enc, decVDst_enc, decVSrc_enc, ok_bind]
  rw [show wfVcvt df sf p d a c = true from hwf]
  rfl
theorem Encoding.vdq h q p d a b c : Encoding.Statement (.vdq h q p d a b c) := by
  intro hwf w hw
  cases hw
  simp only [Words.decode, decodeX, xUnpack_xPack]
  rw [decodeXF, xDecHdr_enc h _ rfl rfl rfl rfl rfl rfl rfl, ok_bind]
  show (decDqF (encDqF q) >>= _) = _
  simp only [decDqF_enc, decVDst_enc, decVSrc_enc, ok_bind, pure_ok_bind, toFin_ofFin]
  rw [show wfVdq q p d a b c = true from hwf]
  rfl
theorem Encoding.vbc h d a : Encoding.Statement (.vbc h d a) := by
  intro _ w hw
  cases hw
  simp only [Words.decode, decodeX, xUnpack_xPack]
  rw [decodeXF, xDecHdr_enc h _ rfl rfl rfl rfl rfl rfl rfl, ok_bind]
  show (decVDst (encVDst d) >>= _) = _
  simp only [decVDst_enc, decSSrc_enc, ok_bind]
  rfl
theorem Encoding.vbcLn h d a b : Encoding.Statement (.vbcLn h d a b) := by
  intro _ w hw
  cases hw
  simp only [Words.decode, decodeX, xUnpack_xPack]
  rw [decodeXF, xDecHdr_enc h _ rfl rfl rfl rfl rfl rfl rfl, ok_bind]
  show (decVDst (encVDst d) >>= _) = _
  simp only [decVDst_enc, decVSrc_enc, decSSrc_enc, ok_bind]
  rfl
theorem Encoding.vperm h d a b c : Encoding.Statement (.vperm h d a b c) := by
  intro _ w hw
  cases hw
  simp only [Words.decode, decodeX, xUnpack_xPack]
  rw [decodeXF, xDecHdr_enc h _ rfl rfl rfl rfl rfl rfl rfl, ok_bind]
  show (decVDst (encVDst d) >>= _) = _
  simp only [decVDst_enc, decVSrc_enc, ok_bind]
  rfl
theorem Encoding.vnzscan h fl d a b : Encoding.Statement (.vnzscan h fl d a b) := by
  intro _ w hw
  cases hw
  simp only [Words.decode, decodeX, xUnpack_xPack]
  rw [decodeXF, xDecHdr_enc h _ rfl rfl rfl rfl rfl rfl rfl, ok_bind]
  show (decBool (encBool fl) "SUB" >>= _) = _
  simp only [decBool_encBool, decVDst_enc, decVSrc_enc, decSSrc_enc, ok_bind]
  rfl
theorem Encoding.vnzscanCnt h fl d a : Encoding.Statement (.vnzscanCnt h fl d a) := by
  intro _ w hw
  cases hw
  simp only [Words.decode, decodeX, xUnpack_xPack]
  rw [decodeXF, xDecHdr_enc h _ rfl rfl rfl rfl rfl rfl rfl, ok_bind]
  show (decBool (encBool fl) "SUB" >>= _) = _
  simp only [decBool_encBool, decSDst_enc, decVSrc_enc, ok_bind]
  rfl
theorem Encoding.vnzscanMsk h fl d a : Encoding.Statement (.vnzscanMsk h fl d a) := by
  intro _ w hw
  cases hw
  simp only [Words.decode, decodeX, xUnpack_xPack]
  rw [decodeXF, xDecHdr_enc h _ rfl rfl rfl rfl rfl rfl rfl, ok_bind]
  show (decBool (encBool fl) "SUB" >>= _) = _
  simp only [decBool_encBool, decSDst_enc, decVSrc_enc, ok_bind]
  rfl
theorem Encoding.vmerge h d a b c : Encoding.Statement (.vmerge h d a b c) := by
  intro _ w hw
  cases hw
  simp only [Words.decode, decodeX, xUnpack_xPack]
  rw [decodeXF, xDecHdr_enc h _ rfl rfl rfl rfl rfl rfl rfl, ok_bind]
  show (decVDst (encVDst d) >>= _) = _
  simp only [decVDst_enc, decVSrc_enc, ok_bind]
  rfl
theorem Encoding.vscan h op ex d a : Encoding.Statement (.vscan h op ex d a) := by
  intro _ w hw
  cases hw
  simp only [Words.decode, decodeX, xUnpack_xPack]
  rw [decodeXF, xDecHdr_enc h _ rfl rfl rfl rfl rfl rfl rfl, ok_bind]
  show (decScanOp (encScanOp op) >>= _) = _
  simp only [decScanOp_enc, decBool_encBool, decVDst_enc, decVSrc_enc, ok_bind]
  rfl
theorem Encoding.dadd h kp c a b : Encoding.Statement (.dadd h kp c a b) := by
  intro _ w hw
  cases hw
  simp only [Words.decode, decodeX, xUnpack_xPack]
  rw [decodeXF, xDecHdr_enc h _ rfl rfl rfl rfl rfl rfl rfl, ok_bind]
  show (decBool (encBool kp) "SUB" >>= _) = _
  simp only [decBool_encBool, fin8_enc (n := 32) (by decide), ok_bind]
  rfl
theorem Encoding.dsub h kp c a b : Encoding.Statement (.dsub h kp c a b) := by
  intro _ w hw
  cases hw
  simp only [Words.decode, decodeX, xUnpack_xPack]
  rw [decodeXF, xDecHdr_enc h _ rfl rfl rfl rfl rfl rfl rfl, ok_bind]
  show (decBool (encBool kp) "SUB" >>= _) = _
  simp only [decBool_encBool, fin8_enc (n := 32) (by decide), ok_bind]
  rfl
theorem Encoding.dmulc h kp c a kk : Encoding.Statement (.dmulc h kp c a kk) := by
  intro _ w hw
  cases hw
  simp only [Words.decode, decodeX, xUnpack_xPack]
  rw [decodeXF, xDecHdr_enc h _ rfl rfl rfl rfl rfl rfl rfl, ok_bind]
  show (decBool (encBool kp) "SUB" >>= _) = _
  simp only [decBool_encBool, fin8_enc (n := 32) (by decide), decSSrc_enc, ok_bind]
  rfl
theorem Encoding.dlt h kp a b : Encoding.Statement (.dlt h kp a b) := by
  intro _ w hw
  cases hw
  simp only [Words.decode, decodeX, xUnpack_xPack]
  rw [decodeXF, xDecHdr_enc h _ rfl rfl rfl rfl rfl rfl rfl, ok_bind]
  show (decBool (encBool kp) "SUB" >>= _) = _
  simp only [decBool_encBool, fin8_enc (n := 32) (by decide), ok_bind]
  rfl
theorem Encoding.dle h kp a b : Encoding.Statement (.dle h kp a b) := by
  intro _ w hw
  cases hw
  simp only [Words.decode, decodeX, xUnpack_xPack]
  rw [decodeXF, xDecHdr_enc h _ rfl rfl rfl rfl rfl rfl rfl, ok_bind]
  show (decBool (encBool kp) "SUB" >>= _) = _
  simp only [decBool_encBool, fin8_enc (n := 32) (by decide), ok_bind]
  rfl
theorem Encoding.deq h kp a b : Encoding.Statement (.deq h kp a b) := by
  intro _ w hw
  cases hw
  simp only [Words.decode, decodeX, xUnpack_xPack]
  rw [decodeXF, xDecHdr_enc h _ rfl rfl rfl rfl rfl rfl rfl, ok_bind]
  show (decBool (encBool kp) "SUB" >>= _) = _
  simp only [decBool_encBool, fin8_enc (n := 32) (by decide), ok_bind]
  rfl
theorem Encoding.dne h kp a b : Encoding.Statement (.dne h kp a b) := by
  intro _ w hw
  cases hw
  simp only [Words.decode, decodeX, xUnpack_xPack]
  rw [decodeXF, xDecHdr_enc h _ rfl rfl rfl rfl rfl rfl rfl, ok_bind]
  show (decBool (encBool kp) "SUB" >>= _) = _
  simp only [decBool_encBool, fin8_enc (n := 32) (by decide), ok_bind]
  rfl
theorem Encoding.dint h a lo hi : Encoding.Statement (.dint h a lo hi) := by
  intro _ w hw
  cases hw
  simp only [Words.decode, decodeX, xUnpack_xPack]
  rw [decodeXF, xDecHdr_enc h _ rfl rfl rfl rfl rfl rfl rfl, ok_bind]
  show (fin8 32 (BitVec.ofNat 8 a.val) "domain register" >>= _) = _
  simp only [fin8_enc (n := 32) (by decide), decSSrc_enc, ok_bind]
  rfl
theorem Encoding.dexcl h a v : Encoding.Statement (.dexcl h a v) := by
  intro _ w hw
  cases hw
  simp only [Words.decode, decodeX, xUnpack_xPack]
  rw [decodeXF, xDecHdr_enc h _ rfl rfl rfl rfl rfl rfl rfl, ok_bind]
  show (fin8 32 (BitVec.ofNat 8 a.val) "domain register" >>= _) = _
  simp only [fin8_enc (n := 32) (by decide), decSSrc_enc, ok_bind]
  rfl
theorem Encoding.dfix h a v : Encoding.Statement (.dfix h a v) := by
  intro _ w hw
  cases hw
  simp only [Words.decode, decodeX, xUnpack_xPack]
  rw [decodeXF, xDecHdr_enc h _ rfl rfl rfl rfl rfl rfl rfl, ok_bind]
  show (fin8 32 (BitVec.ofNat 8 a.val) "domain register" >>= _) = _
  simp only [fin8_enc (n := 32) (by decide), decSSrc_enc, ok_bind]
  rfl
theorem Encoding.delem h kp a i t : Encoding.Statement (.delem h kp a i t) := by
  intro _ w hw
  cases hw
  simp only [Words.decode, decodeX, xUnpack_xPack]
  rw [decodeXF, xDecHdr_enc h _ rfl rfl rfl rfl rfl rfl rfl, ok_bind]
  show (decBool (encBool kp) "SUB" >>= _) = _
  simp only [decBool_encBool, fin8_enc (n := 32) (by decide), fin8_enc (n := 28) (by decide), ok_bind]
  rfl
theorem Encoding.dlo h d a : Encoding.Statement (.dlo h d a) := by
  intro _ w hw
  cases hw
  simp only [Words.decode, decodeX, xUnpack_xPack]
  rw [decodeXF, xDecHdr_enc h _ rfl rfl rfl rfl rfl rfl rfl, ok_bind]
  show (decSDst (encSDst d) >>= _) = _
  simp only [decSDst_enc, fin8_enc (n := 32) (by decide), ok_bind]
  rfl
theorem Encoding.dhi h d a : Encoding.Statement (.dhi h d a) := by
  intro _ w hw
  cases hw
  simp only [Words.decode, decodeX, xUnpack_xPack]
  rw [decodeXF, xDecHdr_enc h _ rfl rfl rfl rfl rfl rfl rfl, ok_bind]
  show (decSDst (encSDst d) >>= _) = _
  simp only [decSDst_enc, fin8_enc (n := 32) (by decide), ok_bind]
  rfl
theorem Encoding.dsize h d a : Encoding.Statement (.dsize h d a) := by
  intro _ w hw
  cases hw
  simp only [Words.decode, decodeX, xUnpack_xPack]
  rw [decodeXF, xDecHdr_enc h _ rfl rfl rfl rfl rfl rfl rfl, ok_bind]
  show (decSDst (encSDst d) >>= _) = _
  simp only [decSDst_enc, fin8_enc (n := 32) (by decide), ok_bind]
  rfl
theorem Encoding.dget h d a w : Encoding.Statement (.dget h d a w) := by
  intro _ w hw
  cases hw
  simp only [Words.decode, decodeX, xUnpack_xPack]
  rw [decodeXF, xDecHdr_enc h _ rfl rfl rfl rfl rfl rfl rfl, ok_bind]
  show (decSDst (encSDst d) >>= _) = _
  simp only [decSDst_enc, fin8_enc (n := 32) (by decide), decW4_enc, ok_bind]
  rfl
theorem Encoding.dtestIn h p a v : Encoding.Statement (.dtestIn h p a v) := by
  intro hwf w hw
  cases hw
  simp only [Words.decode, decodeX, xUnpack_xPack]
  rw [decodeXF, xDecHdr_enc h _ rfl rfl rfl rfl rfl rfl rfl, ok_bind]
  show (decPredD (BitVec.ofNat 8 p.val) >>= _) = _
  simp only [decPredD_enc _ hwf, fin8_enc (n := 32) (by decide), decSSrc_enc, ok_bind]
  rfl
theorem Encoding.dtestOne h p a : Encoding.Statement (.dtestOne h p a) := by
  intro hwf w hw
  cases hw
  simp only [Words.decode, decodeX, xUnpack_xPack]
  rw [decodeXF, xDecHdr_enc h _ rfl rfl rfl rfl rfl rfl rfl, ok_bind]
  show (decPredD (BitVec.ofNat 8 p.val) >>= _) = _
  simp only [decPredD_enc _ hwf, fin8_enc (n := 32) (by decide), ok_bind]
  rfl
theorem Encoding.dpick h d a : Encoding.Statement (.dpick h d a) := by
  intro _ w hw
  cases hw
  simp only [Words.decode, decodeX, xUnpack_xPack]
  rw [decodeXF, xDecHdr_enc h _ rfl rfl rfl rfl rfl rfl rfl, ok_bind]
  show (decSDst (encSDst d) >>= _) = _
  simp only [decSDst_enc, fin8_enc (n := 32) (by decide), ok_bind]
  rfl
theorem Encoding.dset h a lo hi : Encoding.Statement (.dset h a lo hi) := by
  intro _ w hw
  cases hw
  simp only [Words.decode, decodeX, xUnpack_xPack]
  rw [decodeXF, xDecHdr_enc h _ rfl rfl rfl rfl rfl rfl rfl, ok_bind]
  show (fin8 32 (BitVec.ofNat 8 a.val) "domain register" >>= _) = _
  simp only [fin8_enc (n := 32) (by decide), decSSrc_enc, ok_bind]
  rfl
theorem Encoding.dsetw h a lo w0 w1 : Encoding.Statement (.dsetw h a lo w0 w1) := by
  intro _ w hw
  cases hw
  simp only [Words.decode, decodeX, xUnpack_xPack]
  rw [decodeXF, xDecHdr_enc h _ rfl rfl rfl rfl rfl rfl rfl, ok_bind]
  show (fin8 32 (BitVec.ofNat 8 a.val) "domain register" >>= _) = _
  simp only [fin8_enc (n := 32) (by decide), decSSrc_enc, ok_bind]
  rfl
theorem Encoding.dprop h : Encoding.Statement (.dprop h) := by
  intro _ w hw
  cases hw
  simp only [Words.decode, decodeX, xUnpack_xPack]
  rw [decodeXF, xDecHdr_enc h _ rfl rfl rfl rfl rfl rfl rfl, ok_bind]
  show (must ((0) == 0) "DST" >>= _) = _
  simp only [ok_bind]
  rfl
theorem Encoding.dsave h : Encoding.Statement (.dsave h) := by
  intro _ w hw
  cases hw
  simp only [Words.decode, decodeX, xUnpack_xPack]
  rw [decodeXF, xDecHdr_enc h _ rfl rfl rfl rfl rfl rfl rfl, ok_bind]
  show (must ((0) == 0) "DST" >>= _) = _
  simp only [ok_bind]
  rfl
theorem Encoding.drest h : Encoding.Statement (.drest h) := by
  intro _ w hw
  cases hw
  simp only [Words.decode, decodeX, xUnpack_xPack]
  rw [decodeXF, xDecHdr_enc h _ rfl rfl rfl rfl rfl rfl rfl, ok_bind]
  show (must ((0) == 0) "DST" >>= _) = _
  simp only [ok_bind]
  rfl
theorem Encoding.ddrop h : Encoding.Statement (.ddrop h) := by
  intro _ w hw
  cases hw
  simp only [Words.decode, decodeX, xUnpack_xPack]
  rw [decodeXF, xDecHdr_enc h _ rfl rfl rfl rfl rfl rfl rfl, ok_bind]
  show (must ((0) == 0) "DST" >>= _) = _
  simp only [ok_bind]
  rfl
theorem Encoding.dclr h : Encoding.Statement (.dclr h) := by
  intro _ w hw
  cases hw
  simp only [Words.decode, decodeX, xUnpack_xPack]
  rw [decodeXF, xDecHdr_enc h _ rfl rfl rfl rfl rfl rfl rfl, ok_bind]
  show (must ((0) == 0) "DST" >>= _) = _
  simp only [ok_bind]
  rfl
theorem Encoding.xBr h i : Encoding.Statement (.xBr h i) := by
  intro _ w hw
  cases hw
  simp only [Words.decode, decodeX, xUnpack_xPack]
  rw [decodeXF, xDecHdr_enc h _ rfl rfl rfl rfl rfl rfl rfl, ok_bind]
  show (pure (((i).extractLsb' 8 8) ++ ((i).extractLsb' 0 8)) >>= _) = _
  simp only [ok_bind, pure_ok_bind, join_8_8]
  rfl
theorem Encoding.xJr h a : Encoding.Statement (.xJr h a) := by
  intro _ w hw
  cases hw
  simp only [Words.decode, decodeX, xUnpack_xPack]
  rw [decodeXF, xDecHdr_enc h _ rfl rfl rfl rfl rfl rfl rfl, ok_bind]
  show (decSSrc (encSSrc a) >>= _) = _
  simp only [decSSrc_enc, ok_bind]
  rfl
theorem Encoding.xCall h d i : Encoding.Statement (.xCall h d i) := by
  intro _ w hw
  cases hw
  simp only [Words.decode, decodeX, xUnpack_xPack]
  rw [decodeXF, xDecHdr_enc h _ rfl rfl rfl rfl rfl rfl rfl, ok_bind]
  show (decSDst (encSDst d) >>= _) = _
  simp only [decSDst_enc, ok_bind, pure_ok_bind, join_8_8]
  rfl
theorem Encoding.xRet h a : Encoding.Statement (.xRet h a) := by
  intro _ w hw
  cases hw
  simp only [Words.decode, decodeX, xUnpack_xPack]
  rw [decodeXF, xDecHdr_enc h _ rfl rfl rfl rfl rfl rfl rfl, ok_bind]
  show (decSSrc (encSSrc a) >>= _) = _
  simp only [decSSrc_enc, ok_bind]
  rfl
theorem Encoding.brq h i : Encoding.Statement (.brq h i) := by
  intro _ w hw
  cases hw
  simp only [Words.decode, decodeX, xUnpack_xPack]
  rw [decodeXF, xDecHdr_enc h _ rfl rfl rfl rfl rfl rfl rfl, ok_bind]
  show (must ((0x3c) == 60) "SA" >>= _) = _
  simp only [ok_bind, pure_ok_bind, join_8_8]
  rfl
theorem Encoding.brqN h i : Encoding.Statement (.brqN h i) := by
  intro _ w hw
  cases hw
  simp only [Words.decode, decodeX, xUnpack_xPack]
  rw [decodeXF, xDecHdr_enc h _ rfl rfl rfl rfl rfl rfl rfl, ok_bind]
  show (must ((0x3c) == 60) "SA" >>= _) = _
  simp only [ok_bind, pure_ok_bind, join_8_8]
  rfl
theorem Encoding.xLoop h l a i : Encoding.Statement (.xLoop h l a i) := by
  intro hwf w hw
  cases hw
  simp only [Words.decode, decodeX, xUnpack_xPack]
  rw [decodeXF, xDecHdr_enc h _ rfl rfl rfl rfl rfl rfl rfl, ok_bind]
  show (decBool (encBool l) "SUB" >>= _) = _
  simp only [decBool_encBool, decSSrc_enc, decLoopImm_enc _ hwf, ok_bind, join_8_8]
  rfl
theorem Encoding.join h b m : Encoding.Statement (.join h b m) := by
  intro hwf w hw
  cases hw
  simp only [Words.decode, decodeX, xUnpack_xPack]
  rw [decodeXF, xDecHdr_enc h _ rfl rfl rfl rfl rfl rfl rfl, ok_bind]
  show (fin8 8 (BitVec.ofNat 8 b.val) "CCS bit" >>= _) = _
  simp only [fin8_enc (n := 8) (by decide), decMask_enc _ hwf, ok_bind]
  rfl
theorem Encoding.ccset h b : Encoding.Statement (.ccset h b) := by
  intro _ w hw
  cases hw
  simp only [Words.decode, decodeX, xUnpack_xPack]
  rw [decodeXF, xDecHdr_enc h _ rfl rfl rfl rfl rfl rfl rfl, ok_bind]
  show (fin8 8 (BitVec.ofNat 8 b.val) "CCS bit" >>= _) = _
  simp only [fin8_enc (n := 8) (by decide), ok_bind]
  rfl
theorem Encoding.ccclr h b : Encoding.Statement (.ccclr h b) := by
  intro _ w hw
  cases hw
  simp only [Words.decode, decodeX, xUnpack_xPack]
  rw [decodeXF, xDecHdr_enc h _ rfl rfl rfl rfl rfl rfl rfl, ok_bind]
  show (fin8 8 (BitVec.ofNat 8 b.val) "CCS bit" >>= _) = _
  simp only [fin8_enc (n := 8) (by decide), ok_bind]
  rfl
theorem Encoding.xPause h i : Encoding.Statement (.xPause h i) := by
  intro hwf w hw
  cases hw
  simp only [Words.decode, decodeX, xUnpack_xPack]
  rw [decodeXF, xDecHdr_enc h _ rfl rfl rfl rfl rfl rfl rfl, ok_bind]
  show (decPauseImm (((i).extractLsb' 8 8) ++ ((i).extractLsb' 0 8)) >>= _) = _
  simp only [decPauseImm_enc _ hwf, ok_bind, join_8_8]
  rfl
theorem Encoding.xFin h : Encoding.Statement (.xFin h) := by
  intro _ w hw
  cases hw
  simp only [Words.decode, decodeX, xUnpack_xPack]
  rw [decodeXF, xDecHdr_enc h _ rfl rfl rfl rfl rfl rfl rfl, ok_bind]
  show (must ((0) == 0) "DST" >>= _) = _
  simp only [ok_bind]
  rfl
theorem Encoding.xLd h cl ty d a b : Encoding.Statement (.xLd h cl ty d a b) := by
  intro _ w hw
  cases hw
  simp only [Words.decode, decodeX, xUnpack_xPack]
  rw [decodeXF, xDecHdr_enc h _ rfl rfl rfl rfl rfl rfl rfl, ok_bind]
  show (decSDst (encSDst d) >>= _) = _
  simp only [decSDst_enc, decXTy_enc, decSSrc_enc, ok_bind, pure_ok_bind]
  rfl
theorem Encoding.xSt h cl ty a b c : Encoding.Statement (.xSt h cl ty a b c) := by
  intro _ w hw
  cases hw
  simp only [Words.decode, decodeX, xUnpack_xPack]
  rw [decodeXF, xDecHdr_enc h _ rfl rfl rfl rfl rfl rfl rfl, ok_bind]
  show (decSSrc (encSSrc c) >>= _) = _
  simp only [decSSrc_enc, decXTy_enc, ok_bind, pure_ok_bind]
  rfl
theorem Encoding.vld h cl d a b : Encoding.Statement (.vld h cl d a b) := by
  intro _ w hw
  cases hw
  simp only [Words.decode, decodeX, xUnpack_xPack]
  rw [decodeXF, xDecHdr_enc h _ rfl rfl rfl rfl rfl rfl rfl, ok_bind]
  show (decVDst (encVDst d) >>= _) = _
  simp only [decVDst_enc, decSSrc_enc, ok_bind, pure_ok_bind]
  rfl
theorem Encoding.vst h cl a b c : Encoding.Statement (.vst h cl a b c) := by
  intro _ w hw
  cases hw
  simp only [Words.decode, decodeX, xUnpack_xPack]
  rw [decodeXF, xDecHdr_enc h _ rfl rfl rfl rfl rfl rfl rfl, ok_bind]
  show (decVSrc (encVSrc c) >>= _) = _
  simp only [decVSrc_enc, decSSrc_enc, ok_bind, pure_ok_bind]
  rfl
theorem Encoding.vldx h cl d a b : Encoding.Statement (.vldx h cl d a b) := by
  intro _ w hw
  cases hw
  simp only [Words.decode, decodeX, xUnpack_xPack]
  rw [decodeXF, xDecHdr_enc h _ rfl rfl rfl rfl rfl rfl rfl, ok_bind]
  show (decVDst (encVDst d) >>= _) = _
  simp only [decVDst_enc, decSSrc_enc, decVSrc_enc, ok_bind, pure_ok_bind]
  rfl
theorem Encoding.vstx h cl a b c : Encoding.Statement (.vstx h cl a b c) := by
  intro _ w hw
  cases hw
  simp only [Words.decode, decodeX, xUnpack_xPack]
  rw [decodeXF, xDecHdr_enc h _ rfl rfl rfl rfl rfl rfl rfl, ok_bind]
  show (decSSrc (encSSrc a) >>= _) = _
  simp only [decSSrc_enc, decVSrc_enc, ok_bind, pure_ok_bind]
  rfl
theorem Encoding.ldacq h cl d a b : Encoding.Statement (.ldacq h cl d a b) := by
  intro _ w hw
  cases hw
  simp only [Words.decode, decodeX, xUnpack_xPack]
  rw [decodeXF, xDecHdr_enc h _ rfl rfl rfl rfl rfl rfl rfl, ok_bind]
  show (decSDst (encSDst d) >>= _) = _
  simp only [decSDst_enc, decSSrc_enc, ok_bind, pure_ok_bind]
  rfl
theorem Encoding.accrd h d n r t : Encoding.Statement (.accrd h d n r t) := by
  intro _ w hw
  cases hw
  simp only [Words.decode, decodeX, xUnpack_xPack]
  rw [decodeXF, xDecHdr_enc h _ rfl rfl rfl rfl rfl rfl rfl, ok_bind]
  show (decVDst (encVDst d) >>= _) = _
  simp only [decVDst_enc, fin8_enc (n := 4) (by decide), decSSrc_enc, decCnt_enc, ok_bind]
  rfl
theorem Encoding.xFence h k s : Encoding.Statement (.xFence h k s) := by
  intro _ w hw
  cases hw
  simp only [Words.decode, decodeX, xUnpack_xPack]
  rw [decodeXF, xDecHdr_enc h _ rfl rfl rfl rfl rfl rfl rfl, ok_bind]
  show (decFence6 (encFence6 k) >>= _) = _
  simp only [decFence6_enc, decScope_enc, ok_bind]
  rfl
theorem Encoding.xTrap h i : Encoding.Statement (.xTrap h i) := by
  intro hwf w hw
  cases hw
  obtain ⟨h1, h2⟩ := noTokens_enc h hwf
  simp only [Words.decode, decodeX, xUnpack_xPack]
  rw [decodeXF, xDecHdr_enc h _ rfl rfl rfl rfl rfl rfl rfl, ok_bind]
  show (pure (((i).extractLsb' 8 8) ++ ((i).extractLsb' 0 8)) >>= _) = _
  simp only [pure_ok_bind, join_8_8, xEncHdr, h1, h2]
  rfl
theorem Encoding.eret h : Encoding.Statement (.eret h) := by
  intro hwf w hw
  cases hw
  obtain ⟨h1, h2⟩ := noTokens_enc h hwf
  simp only [Words.decode, decodeX, xUnpack_xPack]
  rw [decodeXF, xDecHdr_enc h _ rfl rfl rfl rfl rfl rfl rfl, ok_bind]
  show (must ((0) == 0) "DST" >>= _) = _
  simp only [xEncHdr, h1, h2]
  rfl
theorem Encoding.xSysr h d i : Encoding.Statement (.xSysr h d i) := by
  intro _ w hw
  cases hw
  simp only [Words.decode, decodeX, xUnpack_xPack]
  rw [decodeXF, xDecHdr_enc h _ rfl rfl rfl rfl rfl rfl rfl, ok_bind]
  show (decSDst (encSDst d) >>= _) = _
  simp only [decSDst_enc, decCr_enc, ok_bind, join_8_8]
  rfl
theorem Encoding.xSysw h a i : Encoding.Statement (.xSysw h a i) := by
  intro _ w hw
  cases hw
  simp only [Words.decode, decodeX, xUnpack_xPack]
  rw [decodeXF, xDecHdr_enc h _ rfl rfl rfl rfl rfl rfl rfl, ok_bind]
  show (decSSrc (encSSrc a) >>= _) = _
  simp only [decSSrc_enc, decCr_enc, ok_bind, join_8_8]
  rfl
theorem Encoding.halt h : Encoding.Statement (.halt h) := by
  intro hwf w hw
  cases hw
  obtain ⟨h1, h2⟩ := noTokens_enc h hwf
  simp only [Words.decode, decodeX, xUnpack_xPack]
  rw [decodeXF, xDecHdr_enc h _ rfl rfl rfl rfl rfl rfl rfl, ok_bind]
  show (must ((0) == 0) "DST" >>= _) = _
  simp only [xEncHdr, h1, h2]
  rfl
theorem Encoding.dbgstop h i : Encoding.Statement (.dbgstop h i) := by
  intro _ w hw
  cases hw
  simp only [Words.decode, decodeX, xUnpack_xPack]
  rw [decodeXF, xDecHdr_enc h _ rfl rfl rfl rfl rfl rfl rfl, ok_bind]
  show (pure (((i).extractLsb' 8 8) ++ ((i).extractLsb' 0 8)) >>= _) = _
  simp only [ok_bind, pure_ok_bind, join_8_8]
  rfl
theorem Encoding.yield h : Encoding.Statement (.yield h) := by
  intro _ w hw
  cases hw
  simp only [Words.decode, decodeX, xUnpack_xPack]
  rw [decodeXF, xDecHdr_enc h _ rfl rfl rfl rfl rfl rfl rfl, ok_bind]
  show (must ((0) == 0) "DST" >>= _) = _
  simp only [ok_bind]
  rfl
theorem Encoding.aAdd h d a b : Encoding.Statement (.aAdd h d a b) := by
  intro _ w hw
  cases hw
  rw [Words.decode, decodeA_short _ _ (show ¬ 0x3C ≤ (0x00 : BitVec 6).toNat from by decide), decodeAF, aDecHdr_enc h _ rfl rfl rfl rfl, ok_bind]
  show (pure d >>= _) = _
  simp only [ok_bind, pure_ok_bind]
  rfl
theorem Encoding.aSub h d a b : Encoding.Statement (.aSub h d a b) := by
  intro _ w hw
  cases hw
  rw [Words.decode, decodeA_short _ _ (show ¬ 0x3C ≤ (0x01 : BitVec 6).toNat from by decide), decodeAF, aDecHdr_enc h _ rfl rfl rfl rfl, ok_bind]
  show (pure d >>= _) = _
  simp only [ok_bind, pure_ok_bind]
  rfl
theorem Encoding.aAnd h d a b : Encoding.Statement (.aAnd h d a b) := by
  intro _ w hw
  cases hw
  rw [Words.decode, decodeA_short _ _ (show ¬ 0x3C ≤ (0x02 : BitVec 6).toNat from by decide), decodeAF, aDecHdr_enc h _ rfl rfl rfl rfl, ok_bind]
  show (pure d >>= _) = _
  simp only [ok_bind, pure_ok_bind]
  rfl
theorem Encoding.aOr h d a b : Encoding.Statement (.aOr h d a b) := by
  intro _ w hw
  cases hw
  rw [Words.decode, decodeA_short _ _ (show ¬ 0x3C ≤ (0x03 : BitVec 6).toNat from by decide), decodeAF, aDecHdr_enc h _ rfl rfl rfl rfl, ok_bind]
  show (pure d >>= _) = _
  simp only [ok_bind, pure_ok_bind]
  rfl
theorem Encoding.aXor h d a b : Encoding.Statement (.aXor h d a b) := by
  intro _ w hw
  cases hw
  rw [Words.decode, decodeA_short _ _ (show ¬ 0x3C ≤ (0x04 : BitVec 6).toNat from by decide), decodeAF, aDecHdr_enc h _ rfl rfl rfl rfl, ok_bind]
  show (pure d >>= _) = _
  simp only [ok_bind, pure_ok_bind]
  rfl
theorem Encoding.aShl h d a b : Encoding.Statement (.aShl h d a b) := by
  intro _ w hw
  cases hw
  rw [Words.decode, decodeA_short _ _ (show ¬ 0x3C ≤ (0x05 : BitVec 6).toNat from by decide), decodeAF, aDecHdr_enc h _ rfl rfl rfl rfl, ok_bind]
  show (pure d >>= _) = _
  simp only [ok_bind, pure_ok_bind]
  rfl
theorem Encoding.aShr h d a b : Encoding.Statement (.aShr h d a b) := by
  intro _ w hw
  cases hw
  rw [Words.decode, decodeA_short _ _ (show ¬ 0x3C ≤ (0x06 : BitVec 6).toNat from by decide), decodeAF, aDecHdr_enc h _ rfl rfl rfl rfl, ok_bind]
  show (pure d >>= _) = _
  simp only [ok_bind, pure_ok_bind]
  rfl
theorem Encoding.aSra h d a b : Encoding.Statement (.aSra h d a b) := by
  intro _ w hw
  cases hw
  rw [Words.decode, decodeA_short _ _ (show ¬ 0x3C ≤ (0x07 : BitVec 6).toNat from by decide), decodeAF, aDecHdr_enc h _ rfl rfl rfl rfl, ok_bind]
  show (pure d >>= _) = _
  simp only [ok_bind, pure_ok_bind]
  rfl
theorem Encoding.aMul h d a b : Encoding.Statement (.aMul h d a b) := by
  intro _ w hw
  cases hw
  rw [Words.decode, decodeA_short _ _ (show ¬ 0x3C ≤ (0x08 : BitVec 6).toNat from by decide), decodeAF, aDecHdr_enc h _ rfl rfl rfl rfl, ok_bind]
  show (pure d >>= _) = _
  simp only [ok_bind, pure_ok_bind]
  rfl
theorem Encoding.aMin h u d a b : Encoding.Statement (.aMin h u d a b) := by
  intro _ w hw
  cases hw
  rw [Words.decode, decodeA_short _ _ (show ¬ 0x3C ≤ (0x09 : BitVec 6).toNat from by decide), decodeAF, aDecHdr_enc h _ rfl rfl rfl rfl, ok_bind]
  show (pure d >>= _) = _
  simp only [decBool_encBool, ok_bind, pure_ok_bind, join_7_4]
  rfl
theorem Encoding.aMax h u d a b : Encoding.Statement (.aMax h u d a b) := by
  intro _ w hw
  cases hw
  rw [Words.decode, decodeA_short _ _ (show ¬ 0x3C ≤ (0x0a : BitVec 6).toNat from by decide), decodeAF, aDecHdr_enc h _ rfl rfl rfl rfl, ok_bind]
  show (pure d >>= _) = _
  simp only [decBool_encBool, ok_bind, pure_ok_bind, join_7_4]
  rfl
theorem Encoding.aBfx h sx w d a p : Encoding.Statement (.aBfx h sx w d a p) := by
  intro _ w hw
  cases hw
  rw [Words.decode, decodeA_short _ _ (show ¬ 0x3C ≤ (0x0b : BitVec 6).toNat from by decide), decodeAF, aDecHdr_enc h _ rfl rfl rfl rfl, ok_bind]
  show (pure d >>= _) = _
  simp only [decABfx_enc, ok_bind, pure_ok_bind, join_7_4]
  rfl
theorem Encoding.aAddi h d a i : Encoding.Statement (.aAddi h d a i) := by
  intro _ w hw
  cases hw
  rw [Words.decode, decodeA_short _ _ (show ¬ 0x3C ≤ (0x0c : BitVec 6).toNat from by decide), decodeAF, aDecHdr_enc h _ rfl rfl rfl rfl, ok_bind]
  show (pure d >>= _) = _
  simp only [ok_bind, pure_ok_bind, join_5_7_4]
  rfl
theorem Encoding.aAndi h d a i : Encoding.Statement (.aAndi h d a i) := by
  intro _ w hw
  cases hw
  rw [Words.decode, decodeA_short _ _ (show ¬ 0x3C ≤ (0x0d : BitVec 6).toNat from by decide), decodeAF, aDecHdr_enc h _ rfl rfl rfl rfl, ok_bind]
  show (pure d >>= _) = _
  simp only [ok_bind, pure_ok_bind, join_5_7_4]
  rfl
theorem Encoding.aLi h d i : Encoding.Statement (.aLi h d i) := by
  intro _ w hw
  cases hw
  rw [Words.decode, decodeA_short _ _ (show ¬ 0x3C ≤ (0x0e : BitVec 6).toNat from by decide), decodeAF, aDecHdr_enc h _ rfl rfl rfl rfl, ok_bind]
  show (pure d >>= _) = _
  simp only [ok_bind, pure_ok_bind, join_5_7_4]
  rfl
theorem Encoding.aLih h d a i k : Encoding.Statement (.aLih h d a i k) := by
  intro _ w hw
  cases hw
  rw [Words.decode, decodeA_short _ _ (show ¬ 0x3C ≤ (0x0f : BitVec 6).toNat from by decide), decodeAF, aDecHdr_enc h _ rfl rfl rfl rfl, ok_bind]
  show (pure d >>= _) = _
  simp only [decLihK_enc, ok_bind, pure_ok_bind, join_5_7_4]
  rfl
theorem Encoding.aLd h cl sp ty d a i off : Encoding.Statement (.aLd h cl sp ty d a i off) := by
  intro _ w hw
  cases hw
  rw [Words.decode, decodeA_short _ _ (show ¬ 0x3C ≤ (0x10 : BitVec 6).toNat from by decide), decodeAF, aDecHdr_enc h _ rfl rfl rfl rfl, ok_bind]
  show (decBool (encBool sp) "MOD" >>= _) = _
  simp only [decBool_encBool, decTyOff_enc, ok_bind, pure_ok_bind, join_7_4]
  rfl
theorem Encoding.aSt h cl sp ty d a i off : Encoding.Statement (.aSt h cl sp ty d a i off) := by
  intro _ w hw
  cases hw
  rw [Words.decode, decodeA_short _ _ (show ¬ 0x3C ≤ (0x11 : BitVec 6).toNat from by decide), decodeAF, aDecHdr_enc h _ rfl rfl rfl rfl, ok_bind]
  show (decBool (encBool sp) "MOD" >>= _) = _
  simp only [decBool_encBool, decTyOff_enc, ok_bind, pure_ok_bind, join_7_4]
  rfl
theorem Encoding.lda h cl s ty d a i off : Encoding.Statement (.lda h cl s ty d a i off) := by
  intro hwf w hw
  cases hw
  rw [Words.decode, decodeA_short _ _ (show ¬ 0x3C ≤ (0x12 : BitVec 6).toNat from by decide), decodeAF, aDecHdr_enc h _ rfl rfl rfl rfl, ok_bind]
  show (decAScope (encScope s) >>= _) = _
  simp only [decAScope_enc _ hwf, decTyOff_enc, ok_bind, pure_ok_bind, join_7_4]
  rfl
theorem Encoding.stl h cl s ty d a i off : Encoding.Statement (.stl h cl s ty d a i off) := by
  intro hwf w hw
  cases hw
  rw [Words.decode, decodeA_short _ _ (show ¬ 0x3C ≤ (0x13 : BitVec 6).toNat from by decide), decodeAF, aDecHdr_enc h _ rfl rfl rfl rfl, ok_bind]
  show (decAScope (encScope s) >>= _) = _
  simp only [decAScope_enc _ hwf, decTyOff_enc, ok_bind, pure_ok_bind, join_7_4]
  rfl
theorem Encoding.ldq h cl sp q a i off : Encoding.Statement (.ldq h cl sp q a i off) := by
  intro _ w hw
  cases hw
  rw [Words.decode, decodeA_short _ _ (show ¬ 0x3C ≤ (0x14 : BitVec 6).toNat from by decide), decodeAF, aDecHdr_enc h _ rfl rfl rfl rfl, ok_bind]
  show (fin5 8 (BitVec.ofNat 5 q.val) "queue" >>= _) = _
  simp only [fin5_enc (n := 8) (by decide), decBool_encBool, decOff_enc, ok_bind, pure_ok_bind, join_7_4]
  rfl
theorem Encoding.ldd h cl sp q hs c : Encoding.Statement (.ldd h cl sp q hs c) := by
  intro _ w hw
  cases hw
  rw [Words.decode, decodeA_short _ _ (show ¬ 0x3C ≤ (0x15 : BitVec 6).toNat from by decide), decodeAF, aDecHdr_enc h _ rfl rfl rfl rfl, ok_bind]
  show (fin5 4 (BitVec.ofNat 5 q.val) "queue" >>= _) = _
  simp only [fin5_enc (n := 4) (by decide), fin5_enc (n := 16) (by decide), decBool_encBool, ok_bind, pure_ok_bind]
  rfl
theorem Encoding.stz h cl sp q hs c : Encoding.Statement (.stz h cl sp q hs c) := by
  intro _ w hw
  cases hw
  rw [Words.decode, decodeA_short _ _ (show ¬ 0x3C ≤ (0x16 : BitVec 6).toNat from by decide), decodeAF, aDecHdr_enc h _ rfl rfl rfl rfl, ok_bind]
  show (fin5 4 (BitVec.ofNat 5 q.val) "queue" >>= _) = _
  simp only [fin5_enc (n := 4) (by decide), fin5_enc (n := 16) (by decide), decBool_encBool, ok_bind, pure_ok_bind]
  rfl
theorem Encoding.aswap h cl w sm d a v : Encoding.Statement (.aswap h cl w sm d a v) := by
  intro _ w hw
  cases hw
  rw [Words.decode, decodeA_short _ _ (show ¬ 0x3C ≤ (0x18 : BitVec 6).toNat from by decide), decodeAF, aDecHdr_enc h _ rfl rfl rfl rfl, ok_bind]
  show (pure d >>= _) = _
  simp only [decSem_enc, decBool_encBool, ok_bind, pure_ok_bind]
  rfl
theorem Encoding.acas h cl w sm d a v : Encoding.Statement (.acas h cl w sm d a v) := by
  intro _ w hw
  cases hw
  rw [Words.decode, decodeA_short _ _ (show ¬ 0x3C ≤ (0x19 : BitVec 6).toNat from by decide), decodeAF, aDecHdr_enc h _ rfl rfl rfl rfl, ok_bind]
  show (pure d >>= _) = _
  simp only [decSem_enc, decBool_encBool, ok_bind, pure_ok_bind]
  rfl
theorem Encoding.aadd h cl w sm d a v : Encoding.Statement (.aadd h cl w sm d a v) := by
  intro _ w hw
  cases hw
  rw [Words.decode, decodeA_short _ _ (show ¬ 0x3C ≤ (0x1a : BitVec 6).toNat from by decide), decodeAF, aDecHdr_enc h _ rfl rfl rfl rfl, ok_bind]
  show (pure d >>= _) = _
  simp only [decSem_enc, decBool_encBool, ok_bind, pure_ok_bind]
  rfl
theorem Encoding.aand h cl w sm d a v : Encoding.Statement (.aand h cl w sm d a v) := by
  intro _ w hw
  cases hw
  rw [Words.decode, decodeA_short _ _ (show ¬ 0x3C ≤ (0x1b : BitVec 6).toNat from by decide), decodeAF, aDecHdr_enc h _ rfl rfl rfl rfl, ok_bind]
  show (pure d >>= _) = _
  simp only [decSem_enc, decBool_encBool, ok_bind, pure_ok_bind]
  rfl
theorem Encoding.aor h cl w sm d a v : Encoding.Statement (.aor h cl w sm d a v) := by
  intro _ w hw
  cases hw
  rw [Words.decode, decodeA_short _ _ (show ¬ 0x3C ≤ (0x1b : BitVec 6).toNat from by decide), decodeAF, aDecHdr_enc h _ rfl rfl rfl rfl, ok_bind]
  show (pure d >>= _) = _
  simp only [decSem_enc, decBool_encBool, ok_bind, pure_ok_bind]
  rfl
theorem Encoding.axor h cl w sm d a v : Encoding.Statement (.axor h cl w sm d a v) := by
  intro _ w hw
  cases hw
  rw [Words.decode, decodeA_short _ _ (show ¬ 0x3C ≤ (0x1b : BitVec 6).toNat from by decide), decodeAF, aDecHdr_enc h _ rfl rfl rfl rfl, ok_bind]
  show (pure d >>= _) = _
  simp only [decSem_enc, decBool_encBool, ok_bind, pure_ok_bind]
  rfl
theorem Encoding.amin h cl w sm d a v : Encoding.Statement (.amin h cl w sm d a v) := by
  intro _ w hw
  cases hw
  rw [Words.decode, decodeA_short _ _ (show ¬ 0x3C ≤ (0x1c : BitVec 6).toNat from by decide), decodeAF, aDecHdr_enc h _ rfl rfl rfl rfl, ok_bind]
  show (pure d >>= _) = _
  simp only [decSem_enc, decBool_encBool, ok_bind, pure_ok_bind]
  rfl
theorem Encoding.amax h cl w sm d a v : Encoding.Statement (.amax h cl w sm d a v) := by
  intro _ w hw
  cases hw
  rw [Words.decode, decodeA_short _ _ (show ¬ 0x3C ≤ (0x1c : BitVec 6).toNat from by decide), decodeAF, aDecHdr_enc h _ rfl rfl rfl rfl, ok_bind]
  show (pure d >>= _) = _
  simp only [decSem_enc, decBool_encBool, ok_bind, pure_ok_bind]
  rfl
theorem Encoding.aminu h cl w sm d a v : Encoding.Statement (.aminu h cl w sm d a v) := by
  intro _ w hw
  cases hw
  rw [Words.decode, decodeA_short _ _ (show ¬ 0x3C ≤ (0x1c : BitVec 6).toNat from by decide), decodeAF, aDecHdr_enc h _ rfl rfl rfl rfl, ok_bind]
  show (pure d >>= _) = _
  simp only [decSem_enc, decBool_encBool, ok_bind, pure_ok_bind]
  rfl
theorem Encoding.amaxu h cl w sm d a v : Encoding.Statement (.amaxu h cl w sm d a v) := by
  intro _ w hw
  cases hw
  rw [Words.decode, decodeA_short _ _ (show ¬ 0x3C ≤ (0x1c : BitVec 6).toNat from by decide), decodeAF, aDecHdr_enc h _ rfl rfl rfl rfl, ok_bind]
  show (pure d >>= _) = _
  simp only [decSem_enc, decBool_encBool, ok_bind, pure_ok_bind]
  rfl
theorem Encoding.redadd h cl w rl a v : Encoding.Statement (.redadd h cl w rl a v) := by
  intro _ w hw
  cases hw
  rw [Words.decode, decodeA_short _ _ (show ¬ 0x3C ≤ (0x1d : BitVec 6).toNat from by decide), decodeAF, aDecHdr_enc h _ rfl rfl rfl rfl, ok_bind]
  show (decBool (encBool w) "FN" >>= _) = _
  simp only [decBool_encBool, decRel_enc, ok_bind, pure_ok_bind]
  rfl
theorem Encoding.redmin h cl w u rl a v : Encoding.Statement (.redmin h cl w u rl a v) := by
  intro _ w hw
  cases hw
  rw [Words.decode, decodeA_short _ _ (show ¬ 0x3C ≤ (0x1d : BitVec 6).toNat from by decide), decodeAF, aDecHdr_enc h _ rfl rfl rfl rfl, ok_bind]
  show (decWU (encWU w u) >>= _) = _
  simp only [decWU_enc, decRel_enc, ok_bind, pure_ok_bind]
  rfl
theorem Encoding.redmax h cl w u rl a v : Encoding.Statement (.redmax h cl w u rl a v) := by
  intro _ w hw
  cases hw
  rw [Words.decode, decodeA_short _ _ (show ¬ 0x3C ≤ (0x1d : BitVec 6).toNat from by decide), decodeAF, aDecHdr_enc h _ rfl rfl rfl rfl, ok_bind]
  show (decWU (encWU w u) >>= _) = _
  simp only [decWU_enc, decRel_enc, ok_bind, pure_ok_bind]
  rfl
theorem Encoding.redand h cl w rl a v : Encoding.Statement (.redand h cl w rl a v) := by
  intro _ w hw
  cases hw
  rw [Words.decode, decodeA_short _ _ (show ¬ 0x3C ≤ (0x1d : BitVec 6).toNat from by decide), decodeAF, aDecHdr_enc h _ rfl rfl rfl rfl, ok_bind]
  show (decBool (encBool w) "FN" >>= _) = _
  simp only [decBool_encBool, decRel_enc, ok_bind, pure_ok_bind]
  rfl
theorem Encoding.redor h cl w rl a v : Encoding.Statement (.redor h cl w rl a v) := by
  intro _ w hw
  cases hw
  rw [Words.decode, decodeA_short _ _ (show ¬ 0x3C ≤ (0x1d : BitVec 6).toNat from by decide), decodeAF, aDecHdr_enc h _ rfl rfl rfl rfl, ok_bind]
  show (decBool (encBool w) "FN" >>= _) = _
  simp only [decBool_encBool, decRel_enc, ok_bind, pure_ok_bind]
  rfl
theorem Encoding.redxor h cl w rl a v : Encoding.Statement (.redxor h cl w rl a v) := by
  intro _ w hw
  cases hw
  rw [Words.decode, decodeA_short _ _ (show ¬ 0x3C ≤ (0x1d : BitVec 6).toNat from by decide), decodeAF, aDecHdr_enc h _ rfl rfl rfl rfl, ok_bind]
  show (decBool (encBool w) "FN" >>= _) = _
  simp only [decBool_encBool, decRel_enc, ok_bind, pure_ok_bind]
  rfl
theorem Encoding.redfaddO h cl rl a v : Encoding.Statement (.redfaddO h cl rl a v) := by
  intro _ w hw
  cases hw
  rw [Words.decode, decodeA_short _ _ (show ¬ 0x3C ≤ (0x1e : BitVec 6).toNat from by decide), decodeAF, aDecHdr_enc h _ rfl rfl rfl rfl, ok_bind]
  show (decRel (encRel rl &&& 6) >>= _) = _
  rw [show decRel (encRel rl &&& 6) = .ok rl by cases rl <;> rfl]
  show Except.ok (if (encRel rl).getLsbD 0 = true then Instr.redfaddU h cl rl a v else Instr.redfaddO h cl rl a v) = _
  rw [show (encRel rl).getLsbD 0 = false by cases rl <;> decide]
  rfl
theorem Encoding.redfaddU h cl rl a v : Encoding.Statement (.redfaddU h cl rl a v) := by
  intro _ w hw
  cases hw
  rw [Words.decode, decodeA_short _ _ (show ¬ 0x3C ≤ (0x1e : BitVec 6).toNat from by decide), decodeAF, aDecHdr_enc h _ rfl rfl rfl rfl, ok_bind]
  show (decRel ((encRel rl ||| 1) &&& 6) >>= _) = _
  rw [show decRel ((encRel rl ||| 1) &&& 6) = .ok rl by cases rl <;> rfl]
  show Except.ok (if (encRel rl ||| 1).getLsbD 0 = true then Instr.redfaddU h cl rl a v else Instr.redfaddO h cl rl a v) = _
  rw [show (encRel rl ||| 1).getLsbD 0 = true by cases rl <;> decide]
  rfl
theorem Encoding.redfmin h cl rl a v : Encoding.Statement (.redfmin h cl rl a v) := by
  intro _ w hw
  cases hw
  rw [Words.decode, decodeA_short _ _ (show ¬ 0x3C ≤ (0x1e : BitVec 6).toNat from by decide), decodeAF, aDecHdr_enc h _ rfl rfl rfl rfl, ok_bind]
  show (pure a >>= _) = _
  simp only [decRel_enc, ok_bind, pure_ok_bind]
  rfl
theorem Encoding.redfmax h cl rl a v : Encoding.Statement (.redfmax h cl rl a v) := by
  intro _ w hw
  cases hw
  rw [Words.decode, decodeA_short _ _ (show ¬ 0x3C ≤ (0x1e : BitVec 6).toNat from by decide), decodeAF, aDecHdr_enc h _ rfl rfl rfl rfl, ok_bind]
  show (pure a >>= _) = _
  simp only [decRel_enc, ok_bind, pure_ok_bind]
  rfl
theorem Encoding.rgcfg h r c : Encoding.Statement (.rgcfg h r c) := by
  intro _ w hw
  cases hw
  rw [Words.decode, decodeA_short _ _ (show ¬ 0x3C ≤ (0x20 : BitVec 6).toNat from by decide), decodeAF, aDecHdr_enc h _ rfl rfl rfl rfl, ok_bind]
  show (fin5 16 (BitVec.ofNat 5 r.val) "register" >>= _) = _
  simp only [fin5_enc (n := 16) (by decide), ok_bind, pure_ok_bind]
  rfl
theorem Encoding.rgwfree h d r n : Encoding.Statement (.rgwfree h d r n) := by
  intro hwf w hw
  cases hw
  rw [Words.decode, decodeA_short _ _ (show ¬ 0x3C ≤ (0x21 : BitVec 6).toNat from by decide), decodeAF, aDecHdr_enc h _ rfl rfl rfl rfl, ok_bind]
  show (pure d >>= _) = _
  simp only [fin5_enc (n := 16) (by decide), decRn_enc _ hwf, ok_bind, pure_ok_bind, join_7_4]
  rfl
theorem Encoding.rgwfill h d r n : Encoding.Statement (.rgwfill h d r n) := by
  intro hwf w hw
  cases hw
  rw [Words.decode, decodeA_short _ _ (show ¬ 0x3C ≤ (0x22 : BitVec 6).toNat from by decide), decodeAF, aDecHdr_enc h _ rfl rfl rfl rfl, ok_bind]
  show (pure d >>= _) = _
  simp only [fin5_enc (n := 16) (by decide), decRn_enc _ hwf, ok_bind, pure_ok_bind, join_7_4]
  rfl
theorem Encoding.rgput h r n : Encoding.Statement (.rgput h r n) := by
  intro hwf w hw
  cases hw
  rw [Words.decode, decodeA_short _ _ (show ¬ 0x3C ≤ (0x23 : BitVec 6).toNat from by decide), decodeAF, aDecHdr_enc h _ rfl rfl rfl rfl, ok_bind]
  show (fin5 16 (BitVec.ofNat 5 r.val) "register" >>= _) = _
  simp only [fin5_enc (n := 16) (by decide), decRn_enc _ hwf, ok_bind, join_7_4]
  rfl
theorem Encoding.rgtake h r n : Encoding.Statement (.rgtake h r n) := by
  intro hwf w hw
  cases hw
  rw [Words.decode, decodeA_short _ _ (show ¬ 0x3C ≤ (0x24 : BitVec 6).toNat from by decide), decodeAF, aDecHdr_enc h _ rfl rfl rfl rfl, ok_bind]
  show (fin5 16 (BitVec.ofNat 5 r.val) "register" >>= _) = _
  simp only [fin5_enc (n := 16) (by decide), decRn_enc _ hwf, ok_bind, join_7_4]
  rfl
theorem Encoding.rgrel h r n : Encoding.Statement (.rgrel h r n) := by
  intro hwf w hw
  cases hw
  rw [Words.decode, decodeA_short _ _ (show ¬ 0x3C ≤ (0x25 : BitVec 6).toNat from by decide), decodeAF, aDecHdr_enc h _ rfl rfl rfl rfl, ok_bind]
  show (fin5 16 (BitVec.ofNat 5 r.val) "register" >>= _) = _
  simp only [fin5_enc (n := 16) (by decide), decRn_enc _ hwf, ok_bind, join_7_4]
  rfl
theorem Encoding.rgrot h s t : Encoding.Statement (.rgrot h s t) := by
  intro _ w hw
  cases hw
  rw [Words.decode, decodeA_short _ _ (show ¬ 0x3C ≤ (0x26 : BitVec 6).toNat from by decide), decodeAF, aDecHdr_enc h _ rfl rfl rfl rfl, ok_bind]
  show (pure s >>= _) = _
  simp only [ok_bind, pure_ok_bind]
  rfl
theorem Encoding.give h t n : Encoding.Statement (.give h t n) := by
  intro _ w hw
  cases hw
  rw [Words.decode, decodeA_short _ _ (show ¬ 0x3C ≤ (0x27 : BitVec 6).toNat from by decide), decodeAF, aDecHdr_enc h _ rfl rfl rfl rfl, ok_bind]
  show (pure t >>= _) = _
  simp only [ok_bind, pure_ok_bind]
  rfl
theorem Encoding.take h t n : Encoding.Statement (.take h t n) := by
  intro _ w hw
  cases hw
  rw [Words.decode, decodeA_short _ _ (show ¬ 0x3C ≤ (0x27 : BitVec 6).toNat from by decide), decodeAF, aDecHdr_enc h _ rfl rfl rfl rfl, ok_bind]
  show (pure t >>= _) = _
  simp only [ok_bind, pure_ok_bind]
  rfl
theorem Encoding.beq h m a b i : Encoding.Statement (.beq h m a b i) := by
  intro hwf w hw
  cases hw
  rw [Words.decode, decodeA_short _ _ (show ¬ 0x3C ≤ (0x28 : BitVec 6).toNat from by decide), decodeAF, aDecHdr_enc h _ rfl rfl rfl rfl, ok_bind]
  show (pure a >>= _) = _
  simp only [decBrMod_enc, ok_bind, pure_ok_bind, join_5_7]
  show (must (m != .q || i == 0) "displacement" >>= _) = _
  rw [show (m != .q || i == 0) = true from hwf]
  rfl
theorem Encoding.bne h m a b i : Encoding.Statement (.bne h m a b i) := by
  intro hwf w hw
  cases hw
  rw [Words.decode, decodeA_short _ _ (show ¬ 0x3C ≤ (0x28 : BitVec 6).toNat from by decide), decodeAF, aDecHdr_enc h _ rfl rfl rfl rfl, ok_bind]
  show (pure a >>= _) = _
  simp only [decBrMod_enc, ok_bind, pure_ok_bind, join_5_7]
  show (must (m != .q || i == 0) "displacement" >>= _) = _
  rw [show (m != .q || i == 0) = true from hwf]
  rfl
theorem Encoding.blt h m a b i : Encoding.Statement (.blt h m a b i) := by
  intro hwf w hw
  cases hw
  rw [Words.decode, decodeA_short _ _ (show ¬ 0x3C ≤ (0x28 : BitVec 6).toNat from by decide), decodeAF, aDecHdr_enc h _ rfl rfl rfl rfl, ok_bind]
  show (pure a >>= _) = _
  simp only [decBrMod_enc, ok_bind, pure_ok_bind, join_5_7]
  show (must (m != .q || i == 0) "displacement" >>= _) = _
  rw [show (m != .q || i == 0) = true from hwf]
  rfl
theorem Encoding.bge h m a b i : Encoding.Statement (.bge h m a b i) := by
  intro hwf w hw
  cases hw
  rw [Words.decode, decodeA_short _ _ (show ¬ 0x3C ≤ (0x28 : BitVec 6).toNat from by decide), decodeAF, aDecHdr_enc h _ rfl rfl rfl rfl, ok_bind]
  show (pure a >>= _) = _
  simp only [decBrMod_enc, ok_bind, pure_ok_bind, join_5_7]
  show (must (m != .q || i == 0) "displacement" >>= _) = _
  rw [show (m != .q || i == 0) = true from hwf]
  rfl
theorem Encoding.bltu h m a b i : Encoding.Statement (.bltu h m a b i) := by
  intro hwf w hw
  cases hw
  rw [Words.decode, decodeA_short _ _ (show ¬ 0x3C ≤ (0x28 : BitVec 6).toNat from by decide), decodeAF, aDecHdr_enc h _ rfl rfl rfl rfl, ok_bind]
  show (pure a >>= _) = _
  simp only [decBrMod_enc, ok_bind, pure_ok_bind, join_5_7]
  show (must (m != .q || i == 0) "displacement" >>= _) = _
  rw [show (m != .q || i == 0) = true from hwf]
  rfl
theorem Encoding.bgeu h m a b i : Encoding.Statement (.bgeu h m a b i) := by
  intro hwf w hw
  cases hw
  rw [Words.decode, decodeA_short _ _ (show ¬ 0x3C ≤ (0x28 : BitVec 6).toNat from by decide), decodeAF, aDecHdr_enc h _ rfl rfl rfl rfl, ok_bind]
  show (pure a >>= _) = _
  simp only [decBrMod_enc, ok_bind, pure_ok_bind, join_5_7]
  show (must (m != .q || i == 0) "displacement" >>= _) = _
  rw [show (m != .q || i == 0) = true from hwf]
  rfl
theorem Encoding.jmp h i : Encoding.Statement (.jmp h i) := by
  intro _ w hw
  cases hw
  rw [Words.decode, decodeA_short _ _ (show ¬ 0x3C ≤ (0x29 : BitVec 6).toNat from by decide), decodeAF, aDecHdr_enc h _ rfl rfl rfl rfl, ok_bind]
  show (pure (((i).extractLsb' 21 5) ++ ((i).extractLsb' 16 5) ++ ((i).extractLsb' 11 5) ++ ((i).extractLsb' 4 7) ++ ((i).extractLsb' 0 4)) >>= _) = _
  simp only [ok_bind, pure_ok_bind, join_5_5_5_7_4]
  rfl
theorem Encoding.aJr h a : Encoding.Statement (.aJr h a) := by
  intro _ w hw
  cases hw
  rw [Words.decode, decodeA_short _ _ (show ¬ 0x3C ≤ (0x2a : BitVec 6).toNat from by decide), decodeAF, aDecHdr_enc h _ rfl rfl rfl rfl, ok_bind]
  show (pure a >>= _) = _
  simp only [ok_bind, pure_ok_bind]
  rfl
theorem Encoding.aCall h d i : Encoding.Statement (.aCall h d i) := by
  intro _ w hw
  cases hw
  rw [Words.decode, decodeA_short _ _ (show ¬ 0x3C ≤ (0x2b : BitVec 6).toNat from by decide), decodeAF, aDecHdr_enc h _ rfl rfl rfl rfl, ok_bind]
  show (pure d >>= _) = _
  simp only [ok_bind, pure_ok_bind, join_5_5_7_4]
  rfl
theorem Encoding.aRet h a : Encoding.Statement (.aRet h a) := by
  intro _ w hw
  cases hw
  rw [Words.decode, decodeA_short _ _ (show ¬ 0x3C ≤ (0x2c : BitVec 6).toNat from by decide), decodeAF, aDecHdr_enc h _ rfl rfl rfl rfl, ok_bind]
  show (pure a >>= _) = _
  simp only [ok_bind, pure_ok_bind]
  rfl
theorem Encoding.aLoop h l a i : Encoding.Statement (.aLoop h l a i) := by
  intro hwf w hw
  cases hw
  rw [Words.decode, decodeA_short _ _ (show ¬ 0x3C ≤ (0x2d : BitVec 6).toNat from by decide), decodeAF, aDecHdr_enc h _ rfl rfl rfl rfl, ok_bind]
  show (pure a >>= _) = _
  simp only [decBool_encBool, decNz_enc _ hwf, ok_bind, pure_ok_bind, join_7_4]
  rfl
theorem Encoding.aPause h i : Encoding.Statement (.aPause h i) := by
  intro hwf w hw
  cases hw
  rw [Words.decode, decodeA_short _ _ (show ¬ 0x3C ≤ (0x2e : BitVec 6).toNat from by decide), decodeAF, aDecHdr_enc h _ rfl rfl rfl rfl, ok_bind]
  show (decPauseImm (((i).extractLsb' 11 5) ++ ((i).extractLsb' 4 7) ++ ((i).extractLsb' 0 4)) >>= _) = _
  simp only [decPauseImm_enc _ hwf, ok_bind, join_5_7_4]
  rfl
theorem Encoding.fenceAcq h s : Encoding.Statement (.fenceAcq h s) := by
  intro hwf w hw
  cases hw
  rw [Words.decode, decodeA_short _ _ (show ¬ 0x3C ≤ (0x30 : BitVec 6).toNat from by decide), decodeAF, aDecHdr_enc h _ rfl rfl rfl rfl, ok_bind]
  show (decAScope (encScope s) >>= _) = _
  simp only [decAScope_enc _ hwf, ok_bind]
  rfl
theorem Encoding.fenceRel h s : Encoding.Statement (.fenceRel h s) := by
  intro hwf w hw
  cases hw
  rw [Words.decode, decodeA_short _ _ (show ¬ 0x3C ≤ (0x30 : BitVec 6).toNat from by decide), decodeAF, aDecHdr_enc h _ rfl rfl rfl rfl, ok_bind]
  show (decAScope (encScope s) >>= _) = _
  simp only [decAScope_enc _ hwf, ok_bind]
  rfl
theorem Encoding.fenceSc h s : Encoding.Statement (.fenceSc h s) := by
  intro hwf w hw
  cases hw
  rw [Words.decode, decodeA_short _ _ (show ¬ 0x3C ≤ (0x30 : BitVec 6).toNat from by decide), decodeAF, aDecHdr_enc h _ rfl rfl rfl rfl, ok_bind]
  show (decAScope (encScope s) >>= _) = _
  simp only [decAScope_enc _ hwf, ok_bind]
  rfl
theorem Encoding.colarrRlx h b : Encoding.Statement (.colarrRlx h b) := by
  intro _ w hw
  cases hw
  rw [Words.decode, decodeA_short _ _ (show ¬ 0x3C ≤ (0x31 : BitVec 6).toNat from by decide), decodeAF, aDecHdr_enc h _ rfl rfl rfl rfl, ok_bind]
  show (decB5 (BitVec.ofNat 7 b.val) >>= _) = _
  simp only [decB5_enc, ok_bind]
  rfl
theorem Encoding.colarrRel h b : Encoding.Statement (.colarrRel h b) := by
  intro _ w hw
  cases hw
  rw [Words.decode, decodeA_short _ _ (show ¬ 0x3C ≤ (0x31 : BitVec 6).toNat from by decide), decodeAF, aDecHdr_enc h _ rfl rfl rfl rfl, ok_bind]
  show (decB5 (BitVec.ofNat 7 b.val) >>= _) = _
  simp only [decB5_enc, ok_bind]
  rfl
theorem Encoding.colwait h b : Encoding.Statement (.colwait h b) := by
  intro _ w hw
  cases hw
  rw [Words.decode, decodeA_short _ _ (show ¬ 0x3C ≤ (0x32 : BitVec 6).toNat from by decide), decodeAF, aDecHdr_enc h _ rfl rfl rfl rfl, ok_bind]
  show (decB5F (((BitVec.ofNat 11 b.val).extractLsb' 4 7) ++ ((BitVec.ofNat 11 b.val).extractLsb' 0 4)) >>= _) = _
  simp only [decB5F_enc, ok_bind, join_7_4]
  rfl
theorem Encoding.colsync h b : Encoding.Statement (.colsync h b) := by
  intro _ w hw
  cases hw
  rw [Words.decode, decodeA_short _ _ (show ¬ 0x3C ≤ (0x33 : BitVec 6).toNat from by decide), decodeAF, aDecHdr_enc h _ rfl rfl rfl rfl, ok_bind]
  show (decB5F (((BitVec.ofNat 11 b.val).extractLsb' 4 7) ++ ((BitVec.ofNat 11 b.val).extractLsb' 0 4)) >>= _) = _
  simp only [decB5F_enc, ok_bind, join_7_4]
  rfl
theorem Encoding.barc h d a e : Encoding.Statement (.barc h d a e) := by
  intro _ w hw
  cases hw
  rw [Words.decode, decodeA_short _ _ (show ¬ 0x3C ≤ (0x34 : BitVec 6).toNat from by decide), decodeAF, aDecHdr_enc h _ rfl rfl rfl rfl, ok_bind]
  show (pure d >>= _) = _
  simp only [ok_bind, pure_ok_bind]
  rfl
theorem Encoding.aSysr h d i : Encoding.Statement (.aSysr h d i) := by
  intro _ w hw
  cases hw
  rw [Words.decode, decodeA_short _ _ (show ¬ 0x3C ≤ (0x38 : BitVec 6).toNat from by decide), decodeAF, aDecHdr_enc h _ rfl rfl rfl rfl, ok_bind]
  show (pure d >>= _) = _
  simp only [ok_bind, pure_ok_bind, join_5_7]
  rfl
theorem Encoding.aSysw h a i : Encoding.Statement (.aSysw h a i) := by
  intro _ w hw
  cases hw
  rw [Words.decode, decodeA_short _ _ (show ¬ 0x3C ≤ (0x38 : BitVec 6).toNat from by decide), decodeAF, aDecHdr_enc h _ rfl rfl rfl rfl, ok_bind]
  show (pure a >>= _) = _
  simp only [ok_bind, pure_ok_bind, join_5_7]
  rfl
theorem Encoding.aTrap h n : Encoding.Statement (.aTrap h n) := by
  intro _ w hw
  cases hw
  rw [Words.decode, decodeA_short _ _ (show ¬ 0x3C ≤ (0x38 : BitVec 6).toNat from by decide), decodeAF, aDecHdr_enc h _ rfl rfl rfl rfl, ok_bind]
  show (pure n >>= _) = _
  simp only [ok_bind, pure_ok_bind]
  rfl
theorem Encoding.tlbinv h v l : Encoding.Statement (.tlbinv h v l) := by
  intro _ w hw
  cases hw
  rw [Words.decode, decodeA_short _ _ (show ¬ 0x3C ≤ (0x38 : BitVec 6).toNat from by decide), decodeAF, aDecHdr_enc h _ rfl rfl rfl rfl, ok_bind]
  show (pure v >>= _) = _
  simp only [ok_bind, pure_ok_bind]
  rfl
theorem Encoding.ctxsw h b : Encoding.Statement (.ctxsw h b) := by
  intro _ w hw
  cases hw
  rw [Words.decode, decodeA_short _ _ (show ¬ 0x3C ≤ (0x38 : BitVec 6).toNat from by decide), decodeAF, aDecHdr_enc h _ rfl rfl rfl rfl, ok_bind]
  show (pure b >>= _) = _
  simp only [ok_bind, pure_ok_bind]
  rfl
theorem Encoding.ctxbank h s v : Encoding.Statement (.ctxbank h s v) := by
  intro _ w hw
  cases hw
  rw [Words.decode, decodeA_short _ _ (show ¬ 0x3C ≤ (0x38 : BitVec 6).toNat from by decide), decodeAF, aDecHdr_enc h _ rfl rfl rfl rfl, ok_bind]
  show (pure s >>= _) = _
  simp only [ok_bind, pure_ok_bind]
  rfl
theorem Encoding.lnch h d r q : Encoding.Statement (.lnch h d r q) := by
  intro _ w hw
  cases hw
  rw [Words.decode, decodeA_short _ _ (show ¬ 0x3C ≤ (0x39 : BitVec 6).toNat from by decide), decodeAF, aDecHdr_enc h _ rfl rfl rfl rfl, ok_bind]
  show (pure d >>= _) = _
  simp only [decQ64_enc, ok_bind, pure_ok_bind]
  rfl
theorem Encoding.lcancel h d i : Encoding.Statement (.lcancel h d i) := by
  intro _ w hw
  cases hw
  rw [Words.decode, decodeA_short _ _ (show ¬ 0x3C ≤ (0x39 : BitVec 6).toNat from by decide), decodeAF, aDecHdr_enc h _ rfl rfl rfl rfl, ok_bind]
  rfl
theorem Encoding.lcancelUnit h d i u : Encoding.Statement (.lcancelUnit h d i u) := by
  intro _ w hw
  cases hw
  rw [Words.decode, decodeA_short _ _ (show ¬ 0x3C ≤ (0x39 : BitVec 6).toNat from by decide), decodeAF, aDecHdr_enc h _ rfl rfl rfl rfl, ok_bind]
  rfl
theorem Encoding.lwait h d i : Encoding.Statement (.lwait h d i) := by
  intro _ w hw
  cases hw
  rw [Words.decode, decodeA_short _ _ (show ¬ 0x3C ≤ (0x39 : BitVec 6).toNat from by decide), decodeAF, aDecHdr_enc h _ rfl rfl rfl rfl, ok_bind]
  show (pure d >>= _) = _
  simp only [ok_bind, pure_ok_bind]
  rfl
theorem Encoding.evset h b c : Encoding.Statement (.evset h b c) := by
  intro _ w hw
  cases hw
  rw [Words.decode, decodeA_short _ _ (show ¬ 0x3C ≤ (0x3a : BitVec 6).toNat from by decide), decodeAF, aDecHdr_enc h _ rfl rfl rfl rfl, ok_bind]
  show (pure b >>= _) = _
  simp only [decEvCtx_enc, ok_bind, pure_ok_bind]
  rfl
theorem Encoding.evclr h b c : Encoding.Statement (.evclr h b c) := by
  intro _ w hw
  cases hw
  rw [Words.decode, decodeA_short _ _ (show ¬ 0x3C ≤ (0x3a : BitVec 6).toNat from by decide), decodeAF, aDecHdr_enc h _ rfl rfl rfl rfl, ok_bind]
  show (pure b >>= _) = _
  simp only [decEvCtx_enc, ok_bind, pure_ok_bind]
  rfl
theorem Encoding.evtest h d b c : Encoding.Statement (.evtest h d b c) := by
  intro _ w hw
  cases hw
  rw [Words.decode, decodeA_short _ _ (show ¬ 0x3C ≤ (0x3a : BitVec 6).toNat from by decide), decodeAF, aDecHdr_enc h _ rfl rfl rfl rfl, ok_bind]
  show (pure d >>= _) = _
  simp only [decEvCtx_enc, ok_bind, pure_ok_bind]
  rfl
theorem Encoding.hld h cl r a off : Encoding.Statement (.hld h cl r a off) := by
  intro _ w hw
  cases hw
  rw [Words.decode, decodeA_short _ _ (show ¬ 0x3C ≤ (0x3b : BitVec 6).toNat from by decide), decodeAF, aDecHdr_enc h _ rfl rfl rfl rfl, ok_bind]
  show (fin5 16 (BitVec.ofNat 5 r.val) "register" >>= _) = _
  simp only [fin5_enc (n := 16) (by decide), ok_bind, pure_ok_bind]
  rfl
theorem Encoding.hst h cl r a off : Encoding.Statement (.hst h cl r a off) := by
  intro _ w hw
  cases hw
  rw [Words.decode, decodeA_short _ _ (show ¬ 0x3C ≤ (0x3b : BitVec 6).toNat from by decide), decodeAF, aDecHdr_enc h _ rfl rfl rfl rfl, ok_bind]
  show (fin5 16 (BitVec.ofNat 5 r.val) "register" >>= _) = _
  simp only [fin5_enc (n := 16) (by decide), ok_bind, pure_ok_bind]
  rfl
theorem Encoding.hview h d s k : Encoding.Statement (.hview h d s k) := by
  intro hwf w hw
  cases hw
  rw [Words.decode, decodeA_short _ _ (show ¬ 0x3C ≤ (0x3b : BitVec 6).toNat from by decide), decodeAF, aDecHdr_enc h _ rfl rfl rfl rfl, ok_bind]
  show (fin5 16 (BitVec.ofNat 5 d.val) "register" >>= _) = _
  simp only [fin5_enc (n := 16) (by decide), decKEven_enc _ hwf, ok_bind]
  rfl
theorem Encoding.htrans h d s : Encoding.Statement (.htrans h d s) := by
  intro _ w hw
  cases hw
  rw [Words.decode, decodeA_short _ _ (show ¬ 0x3C ≤ (0x3b : BitVec 6).toNat from by decide), decodeAF, aDecHdr_enc h _ rfl rfl rfl rfl, ok_bind]
  show (fin5 16 (BitVec.ofNat 5 d.val) "register" >>= _) = _
  simp only [fin5_enc (n := 16) (by decide), ok_bind]
  rfl
theorem Encoding.hshape h d s k : Encoding.Statement (.hshape h d s k) := by
  intro hwf w hw
  cases hw
  rw [Words.decode, decodeA_short _ _ (show ¬ 0x3C ≤ (0x3b : BitVec 6).toNat from by decide), decodeAF, aDecHdr_enc h _ rfl rfl rfl rfl, ok_bind]
  show (fin5 16 (BitVec.ofNat 5 d.val) "register" >>= _) = _
  simp only [fin5_enc (n := 16) (by decide), decKShape_enc _ hwf, ok_bind]
  rfl
theorem Encoding.cpy h ss ds rp d s : Encoding.Statement (.cpy h ss ds rp d s) := by
  intro _ w hw
  cases hw
  rw [Words.decode, decodeA_long _ _ (show 0x3C ≤ (0x3C : BitVec 6).toNat from by decide), decodeLF, lDecHdr_enc h _ rfl rfl rfl rfl, ok_bind]
  show (fin5 16 (BitVec.ofNat 5 d.val) "handle" >>= _) = _
  simp only [fin5_enc (n := 16) (by decide), ok_bind]
  show (decRp (encRp rp) >>= _) = _
  simp only [decRp_enc, decSpaces_enc, ok_bind]
  rfl
theorem Encoding.cpg h ss ds rp d s l : Encoding.Statement (.cpg h ss ds rp d s l) := by
  intro _ w hw
  cases hw
  rw [Words.decode, decodeA_long _ _ (show 0x3C ≤ (0x3D : BitVec 6).toNat from by decide), decodeLF, lDecHdr_enc h _ rfl rfl rfl rfl, ok_bind]
  show (fin5 16 (BitVec.ofNat 5 d.val) "handle" >>= _) = _
  simp only [fin5_enc (n := 16) (by decide), decRp_enc, decSpaces_enc, ok_bind]
  rfl
theorem Encoding.cps h ss ds rp d s l : Encoding.Statement (.cps h ss ds rp d s l) := by
  intro _ w hw
  cases hw
  rw [Words.decode, decodeA_long _ _ (show 0x3C ≤ (0x3D : BitVec 6).toNat from by decide), decodeLF, lDecHdr_enc h _ rfl rfl rfl rfl, ok_bind]
  show (fin5 16 (BitVec.ofNat 5 d.val) "handle" >>= _) = _
  simp only [fin5_enc (n := 16) (by decide), decRp_enc, decSpaces_enc, ok_bind]
  rfl
theorem Encoding.cpq h ss ds rp d s : Encoding.Statement (.cpq h ss ds rp d s) := by
  intro _ w hw
  cases hw
  rw [Words.decode, decodeA_long _ _ (show 0x3C ≤ (0x3E : BitVec 6).toNat from by decide), decodeLF, lDecHdr_enc h _ rfl rfl rfl rfl, ok_bind]
  show (fin5 16 (BitVec.ofNat 5 d.val) "handle" >>= _) = _
  simp only [fin5_enc (n := 16) (by decide), ok_bind]
  show (decRp (encRp rp) >>= _) = _
  simp only [decRp_enc, decSpaces_enc, ok_bind]
  rfl
theorem Encoding.cpm h o a b : Encoding.Statement (.cpm h o a b) := by
  intro _ w hw
  cases hw
  rw [Words.decode, decodeA_long _ _ (show 0x3C ≤ (0x3F : BitVec 6).toNat from by decide), decodeLF, lDecHdr_enc h _ rfl rfl rfl rfl, ok_bind]
  rfl
theorem Encoding.mnop h : Encoding.Statement (.mnop h) := by
  intro _ w hw
  cases hw
  rw [Words.decode, decodeM, mUnpack_mPack, decodeMF, mDecHdr_enc h _ rfl rfl rfl rfl rfl rfl, ok_bind]
  rfl
theorem Encoding.mlease h : Encoding.Statement (.mlease h) := by
  intro _ w hw
  cases hw
  rw [Words.decode, decodeM, mUnpack_mPack, decodeMF, mDecHdr_enc h _ rfl rfl rfl rfl rfl rfl, ok_bind]
  rfl
theorem Encoding.mfree h : Encoding.Statement (.mfree h) := by
  intro _ w hw
  cases hw
  rw [Words.decode, decodeM, mUnpack_mPack, decodeMF, mDecHdr_enc h _ rfl rfl rfl rfl rfl rfl, ok_bind]
  rfl
theorem Encoding.mfin h : Encoding.Statement (.mfin h) := by
  intro _ w hw
  cases hw
  rw [Words.decode, decodeM, mUnpack_mPack, decodeMF, mDecHdr_enc h _ rfl rfl rfl rfl rfl rfl, ok_bind]
  rfl
theorem Encoding.mmul h t c ra rb acc ks fa fb bm nm ka kb wl i32 : Encoding.Statement (.mmul h t c ra rb acc ks fa fb bm nm ka kb wl i32) := by
  intro hwf w hw
  cases hw
  rw [Words.decode, decodeM, mUnpack_mPack, decodeMF, mDecHdr_enc h _ rfl rfl rfl rfl rfl rfl, ok_bind]
  show (decFmt (encFmt fa) >>= _) = _
  simp only [decFmt_enc, ok_bind]
  obtain ⟨h29, h28⟩ := low_bits ka kb wl i32
  have hsp : (BitVec.ofNat 2 (bm.toNat + 2 * nm.toNat)).getLsbD 0 = bm ∧
      (BitVec.ofNat 2 (bm.toNat + 2 * nm.toNat)).getLsbD 1 = nm := by cases bm <;> cases nm <;> decide
  have hk : (BitVec.ofFin ks != (0 : BitVec 7)) = true := ksteps_enc ks (Bool.and_eq_true _ _ ▸ hwf : _ ∧ _).1
  have hl : (!wl || (BitVec.ofFin rb == (0 : BitVec 4) && !bm && kb == 0)) = true := by
    have : (!wl || (rb == 0 && !bm && kb == 0)) = true := (Bool.and_eq_true _ _ ▸ hwf : _ ∧ _).2
    rw [ring_enc rb]
    exact this
  show (must (opndRest (encOp ka kb ((encBool wl : BitVec 1) ++ (encBool i32 : BitVec 1) ++ (0 : BitVec 28)))
    0xFF0000000) "OPND" >>= _) = _
  simp only [opndRest_mmul, must_true, ok_bind, hk, hl, h29, h28, hsp, opK1_encOp, opK2_encOp, encBool1_eq]
  rfl
theorem Encoding.mwload h rb fb kb : Encoding.Statement (.mwload h rb fb kb) := by
  intro _ w hw
  cases hw
  rw [Words.decode, decodeM, mUnpack_mPack, decodeMF, mDecHdr_enc h _ rfl rfl rfl rfl rfl rfl, ok_bind]
  show (decFmt (encFmt fb) >>= _) = _
  simp only [decFmt_enc, ok_bind]
  show (must (opndRest (encOp 0 kb 0) 0x1C0000000) "OPND" >>= _) = _
  rw [opndRest_k2, must_true, ok_bind]
  show Except.ok (Instr.mwload h rb fb (opK2 (encOp 0 kb 0))) = _
  rw [opK2_encOp]
theorem Encoding.mwloadnm h rb fb kb : Encoding.Statement (.mwloadnm h rb fb kb) := by
  intro _ w hw
  cases hw
  rw [Words.decode, decodeM, mUnpack_mPack, decodeMF, mDecHdr_enc h _ rfl rfl rfl rfl rfl rfl, ok_bind]
  show (decFmt (encFmt fb) >>= _) = _
  simp only [decFmt_enc, ok_bind]
  show (must (opndRest (encOp 0 kb 0) 0x1C0000000) "OPND" >>= _) = _
  rw [opndRest_k2, must_true, ok_bind]
  show Except.ok (Instr.mwloadnm h rb fb (opK2 (encOp 0 kb 0))) = _
  rw [opK2_encOp]
theorem Encoding.mdrain h t c q ro acc f ko : Encoding.Statement (.mdrain h t c q ro acc f ko) := by
  intro hwf w hw
  cases hw
  rw [Words.decode, decodeM, mUnpack_mPack, decodeMF, mDecHdr_enc h _ rfl rfl rfl rfl rfl rfl, ok_bind]
  show (decFmt (encFmt f) >>= _) = _
  simp only [decFmt_enc, ok_bind]
  cases ko with
  | none =>
    have hq : q = false := by
      have : (!q || false) = true := (Bool.and_eq_true _ _ ▸ hwf : _ ∧ _).1
      cases q <;> simp_all
    subst hq
    cases t <;> cases c <;> rfl
  | some k =>
    have hq : (q || f == .int8) = true := (Bool.and_eq_true _ _ ▸ hwf : _ ∧ _).2
    obtain ⟨hb, hv⟩ := opnd_mdrain k
    show (must (opndRest (encOp k 4 0) 0xF00000000) "OPND" >>= _) = _
    simp only [hb, must_true, ok_bind, hv, encBool1_eq, Bool.true_or, Bool.not_true, Bool.false_or, Bool.or_true, hq, if_true,
      opK1_encOp]
    rfl
theorem Encoding.mzero h acc i32 : Encoding.Statement (.mzero h acc i32) := by
  intro _ w hw
  cases hw
  rw [Words.decode, decodeM, mUnpack_mPack, decodeMF, mDecHdr_enc h _ rfl rfl rfl rfl rfl rfl, ok_bind]
  have hb := opnd_mzero i32
  show (must (opndRest (encOp 0 0 ((0 : BitVec 1) ++ (encBool i32 : BitVec 1) ++ (0 : BitVec 28))) 0x10000000) "OPND" >>= _) = _
  simp only [hb, must_true, ok_bind]
  rfl
theorem Encoding.msnap h ro acc kd : Encoding.Statement (.msnap h ro acc kd) := by
  intro _ w hw
  cases hw
  rw [Words.decode, decodeM, mUnpack_mPack, decodeMF, mDecHdr_enc h _ rfl rfl rfl rfl rfl rfl, ok_bind]
  show (must (opndRest (encOp kd 0 0) 0xE00000000) "OPND" >>= _) = _
  simp only [opndRest_k1, must_true, ok_bind, opK1_encOp]
  rfl
theorem Encoding.mpred h ra rb fa fb kd kt : Encoding.Statement (.mpred h ra rb fa fb kd kt) := by
  intro hwf w hw
  cases hw
  rw [Words.decode, decodeM, mUnpack_mPack, decodeMF, mDecHdr_enc h _ rfl rfl rfl rfl rfl rfl, ok_bind]
  show (decFmt (encFmt fa) >>= _) = _
  simp only [decFmt_enc, ok_bind]
  show (must (opndRest (encOp kd kt 0) 0xFC0000000) "OPND" >>= _) = _
  simp only [opndRest_encOp, must_true, ok_bind, opK1_encOp, opK2_encOp, show (kd.val % 2 == 0) = true from hwf]
  rfl
theorem Encoding.mscan h ro km kb : Encoding.Statement (.mscan h ro km kb) := by
  intro hwf w hw
  cases hw
  rw [Words.decode, decodeM, mUnpack_mPack, decodeMF, mDecHdr_enc h _ rfl rfl rfl rfl rfl rfl, ok_bind]
  show (must (opndRest (encOp km kb 0) 0xFC0000000) "OPND" >>= _) = _
  simp only [opndRest_encOp, must_true, ok_bind, opK1_encOp, opK2_encOp, show (km.val % 2 == 0) = true from hwf]
  rfl
theorem Encoding.mkli h kd i : Encoding.Statement (.mkli h kd i) := by
  intro _ w hw
  cases hw
  rw [Words.decode, decodeM, mUnpack_mPack, decodeMF, mDecHdr_enc h _ rfl rfl rfl rfl rfl rfl, ok_bind]
  show (must (opndRest ((BitVec.ofFin kd : BitVec 3) ++ (0 : BitVec 1) ++ i) 0xEFFFFFFFF) "OPND" >>= _) = _
  simp only [opndRest_mkli, must_true, ok_bind]
  rw [(mkli_fields kd i).1, (mkli_fields kd i).2]
  rfl
theorem Encoding.mkadd h kd ks i : Encoding.Statement (.mkadd h kd ks i) := by
  intro _ w hw
  cases hw
  rw [Words.decode, decodeM, mUnpack_mPack, decodeMF, mDecHdr_enc h _ rfl rfl rfl rfl rfl rfl, ok_bind]
  show (must (opndRest (encOp kd ks ((0 : BitVec 6) ++ i)) 0xFC0FFFFFF) "OPND" >>= _) = _
  simp only [opndRest_mkadd, must_true, ok_bind, opK1_encOp, opK2_encOp, mkadd_imm]
  rfl
theorem Encoding.mloop h l n d : Encoding.Statement (.mloop h l n d) := by
  intro hwf w hw
  cases hw
  rw [Words.decode, decodeM, mUnpack_mPack, decodeMF, mDecHdr_enc h _ rfl rfl rfl rfl rfl rfl, ok_bind]
  have hd : (d != 0) = true := hwf
  have go (o : BitVec 36) (c : Bool) (k : Fin 8) (m : BitVec 16) (hc : (if c = true then m == 0 else k == 0) = true)
      (hr : opndRest o 0x3FFFFFFFF = true)
      (ho : o.extractLsb' 16 13 = d ∧ (o.extractLsb' 29 3).toFin = k ∧ o.extractLsb' 0 16 = m ∧ o.getLsbD 32 = c ∧
        o.getLsbD 33 = l) :
      (must (opndRest o 0x3FFFFFFFF) "OPND" >>= fun _ => must (o.extractLsb' 16 13 != 0) "D" >>= fun _ =>
        must (if o.getLsbD 32 = true then o.extractLsb' 0 16 == 0 else (o.extractLsb' 29 3).toFin == 0) "count" >>= fun _ =>
        pure (Instr.mloop h (o.getLsbD 33)
          (if o.getLsbD 32 = true then .kreg (o.extractLsb' 29 3).toFin else .imm (o.extractLsb' 0 16))
          (o.extractLsb' 16 13))) = Except.ok (.mloop h l (if c = true then .kreg k else .imm m) d) := by
    obtain ⟨h1, h2, h3, h4, h5⟩ := ho
    rw [hr, h1, h2, h3, h4, h5, hd, hc]
    rfl
  cases n with
  | kreg k => exact go _ true k 0 rfl (opndRest_mloop l true k d 0) (mloop_fields l true k d 0)
  | imm c => exact go _ false 0 c rfl (opndRest_mloop l false 0 d c) (mloop_fields l false 0 d c)
theorem Encoding.mbnz h kn d : Encoding.Statement (.mbnz h kn d) := by
  intro _ w hw
  cases hw
  rw [Words.decode, decodeM, mUnpack_mPack, decodeMF, mDecHdr_enc h _ rfl rfl rfl rfl rfl rfl, ok_bind]
  show (must (opndRest ((BitVec.ofFin kn : BitVec 3) ++ (0 : BitVec 13) ++ d) 0xE000FFFFF) "OPND" >>= _) = _
  simp only [opndRest_mbnz, must_true, ok_bind]
  rw [(mbnz_fields kn d).1, (mbnz_fields kn d).2]
  rfl
theorem Encoding.aFin : Encoding.Statement .aFin := by
  intro _ w hw
  cases hw
  rfl
theorem Encoding.seal : Encoding.Statement .seal := by
  intro _ w hw
  cases hw
  rfl
theorem Encoding.xResultLanding : Encoding.Statement .xResultLanding := fun _ _ hw => nomatch hw
theorem Encoding.tokenPoppable : Encoding.Statement .tokenPoppable := fun _ _ hw => nomatch hw
theorem Encoding.queueEntryPoppable : Encoding.Statement .queueEntryPoppable := fun _ _ hw => nomatch hw
theorem Encoding.aWordRetire : Encoding.Statement .aWordRetire := fun _ _ hw => nomatch hw
theorem Encoding.stampOverrun : Encoding.Statement .stampOverrun := fun _ _ hw => nomatch hw
theorem Encoding.waitBound : Encoding.Statement .waitBound := fun _ _ hw => nomatch hw
theorem Encoding.handlerStart : Encoding.Statement .handlerStart := fun _ _ hw => nomatch hw
theorem Encoding.boundaryCauseDelivery : Encoding.Statement .boundaryCauseDelivery := fun _ _ hw => nomatch hw
theorem Encoding.copyFault : Encoding.Statement .copyFault := fun _ _ hw => nomatch hw
theorem Encoding.oredFull : Encoding.Statement .oredFull := fun _ _ hw => nomatch hw
theorem Encoding.propagationRun : Encoding.Statement .propagationRun := fun _ _ hw => nomatch hw
theorem Encoding.globalAccessAtOwner : Encoding.Statement .globalAccessAtOwner := fun _ _ hw => nomatch hw
theorem Encoding.pageTableWalk : Encoding.Statement .pageTableWalk := fun _ _ hw => nomatch hw
theorem Encoding.pageFaultFreeze : Encoding.Statement .pageFaultFreeze := fun _ _ hw => nomatch hw
theorem Encoding.faultBatchTimer : Encoding.Statement .faultBatchTimer := fun _ _ hw => nomatch hw
theorem Encoding.faultBatchCount : Encoding.Statement .faultBatchCount := fun _ _ hw => nomatch hw
theorem Encoding.faultAnswer : Encoding.Statement .faultAnswer := fun _ _ hw => nomatch hw
theorem Encoding.priGroupResponse : Encoding.Statement .priGroupResponse := fun _ _ hw => nomatch hw
theorem Encoding.priResponseFailure : Encoding.Statement .priResponseFailure := fun _ _ hw => nomatch hw
theorem Encoding.replayListResend : Encoding.Statement .replayListResend := fun _ _ hw => nomatch hw
theorem Encoding.invalidationComplete : Encoding.Statement .invalidationComplete := fun _ _ hw => nomatch hw
theorem Encoding.atsInvalidation : Encoding.Statement .atsInvalidation := fun _ _ hw => nomatch hw
theorem Encoding.inboundHostWrite : Encoding.Statement .inboundHostWrite := fun _ _ hw => nomatch hw
theorem Encoding.inboundHostRead : Encoding.Statement .inboundHostRead := fun _ _ hw => nomatch hw
theorem Encoding.rgrotExchange : Encoding.Statement .rgrotExchange := fun _ _ hw => nomatch hw
theorem Encoding.rgrotExchangeEnd : Encoding.Statement .rgrotExchangeEnd := fun _ _ hw => nomatch hw
theorem Encoding.copyChannelStart : Encoding.Statement .copyChannelStart := fun _ _ hw => nomatch hw
theorem Encoding.copyRowCommit : Encoding.Statement .copyRowCommit := fun _ _ hw => nomatch hw
theorem Encoding.copyCommandComplete : Encoding.Statement .copyCommandComplete := fun _ _ hw => nomatch hw
theorem Encoding.leaseGrant : Encoding.Statement .leaseGrant := fun _ _ hw => nomatch hw
theorem Encoding.leaseEndCycles : Encoding.Statement .leaseEndCycles := fun _ _ hw => nomatch hw
theorem Encoding.leaseEndCommands : Encoding.Statement .leaseEndCommands := fun _ _ hw => nomatch hw
theorem Encoding.arrayCommandStart : Encoding.Statement .arrayCommandStart := fun _ _ hw => nomatch hw
theorem Encoding.arraySlotFetch : Encoding.Statement .arraySlotFetch := fun _ _ hw => nomatch hw
theorem Encoding.kStepStart : Encoding.Statement .kStepStart := fun _ _ hw => nomatch hw
theorem Encoding.kStepLanding : Encoding.Statement .kStepLanding := fun _ _ hw => nomatch hw
theorem Encoding.arrayCommandRetire : Encoding.Statement .arrayCommandRetire := fun _ _ hw => nomatch hw
theorem Encoding.drainStart : Encoding.Statement .drainStart := fun _ _ hw => nomatch hw
theorem Encoding.drainWrite : Encoding.Statement .drainWrite := fun _ _ hw => nomatch hw
theorem Encoding.mzeroEffect : Encoding.Statement .mzeroEffect := fun _ _ hw => nomatch hw
theorem Encoding.msnapWrite : Encoding.Statement .msnapWrite := fun _ _ hw => nomatch hw
theorem Encoding.mpredResult : Encoding.Statement .mpredResult := fun _ _ hw => nomatch hw
theorem Encoding.mscanWrite : Encoding.Statement .mscanWrite := fun _ _ hw => nomatch hw
theorem Encoding.arrayReplay : Encoding.Statement .arrayReplay := fun _ _ hw => nomatch hw
theorem Encoding.queueDoorbell : Encoding.Statement .queueDoorbell := fun _ _ hw => nomatch hw
theorem Encoding.queueHeadCheck : Encoding.Statement .queueHeadCheck := fun _ _ hw => nomatch hw
theorem Encoding.entryDispatch : Encoding.Statement .entryDispatch := fun _ _ hw => nomatch hw
theorem Encoding.unitDispatch : Encoding.Statement .unitDispatch := fun _ _ hw => nomatch hw
theorem Encoding.unitStart : Encoding.Statement .unitStart := fun _ _ hw => nomatch hw
theorem Encoding.unitCompletion : Encoding.Statement .unitCompletion := fun _ _ hw => nomatch hw
theorem Encoding.hostNodeDoorbell : Encoding.Statement .hostNodeDoorbell := fun _ _ hw => nomatch hw
theorem Encoding.completionRecord : Encoding.Statement .completionRecord := fun _ _ hw => nomatch hw
theorem Encoding.cancelStop : Encoding.Statement .cancelStop := fun _ _ hw => nomatch hw
theorem Encoding.preemption : Encoding.Statement .preemption := fun _ _ hw => nomatch hw
theorem Encoding.phaseClose : Encoding.Statement .phaseClose := fun _ _ hw => nomatch hw
theorem Encoding.sealInputRise : Encoding.Statement .sealInputRise := fun _ _ hw => nomatch hw
theorem Encoding.sealLineFire : Encoding.Statement .sealLineFire := fun _ _ hw => nomatch hw
theorem Encoding.sealLineArrival : Encoding.Statement .sealLineArrival := fun _ _ hw => nomatch hw
theorem Encoding.phaseOpen : Encoding.Statement .phaseOpen := fun _ _ hw => nomatch hw
theorem Encoding.jobCompletion : Encoding.Statement .jobCompletion := fun _ _ hw => nomatch hw
theorem Encoding.closePhase : Encoding.Statement .closePhase := fun _ _ hw => nomatch hw
theorem Encoding.endJob : Encoding.Statement .endJob := fun _ _ hw => nomatch hw
theorem Encoding.hostStop : Encoding.Statement .hostStop := fun _ _ hw => nomatch hw
theorem Encoding.hostResume : Encoding.Statement .hostResume := fun _ _ hw => nomatch hw
theorem Encoding.queueReset : Encoding.Statement .queueReset := fun _ _ hw => nomatch hw
theorem Encoding.resetTruncatedTrace : Encoding.Statement .resetTruncatedTrace := fun _ _ hw => nomatch hw
theorem Encoding.partitionSwap : Encoding.Statement .partitionSwap := fun _ _ hw => nomatch hw
theorem Encoding.bankSwitchTslice : Encoding.Statement .bankSwitchTslice := fun _ _ hw => nomatch hw
theorem Encoding.colInputRise : Encoding.Statement .colInputRise := fun _ _ hw => nomatch hw
theorem Encoding.colReleaseFire : Encoding.Statement .colReleaseFire := fun _ _ hw => nomatch hw
theorem Encoding.colReleaseArrival : Encoding.Statement .colReleaseArrival := fun _ _ hw => nomatch hw
theorem Encoding.evsetEffect : Encoding.Statement .evsetEffect := fun _ _ hw => nomatch hw
theorem Encoding.evclrEffect : Encoding.Statement .evclrEffect := fun _ _ hw => nomatch hw
theorem Encoding.intervalRollback : Encoding.Statement .intervalRollback := fun _ _ hw => nomatch hw
theorem Encoding.phaseRestart : Encoding.Statement .phaseRestart := fun _ _ hw => nomatch hw
theorem Encoding.undoTimeout : Encoding.Statement .undoTimeout := fun _ _ hw => nomatch hw
theorem Encoding.holdTimeout : Encoding.Statement .holdTimeout := fun _ _ hw => nomatch hw
theorem Encoding.lineTagSweep : Encoding.Statement .lineTagSweep := fun _ _ hw => nomatch hw
theorem Encoding.testPassComplete : Encoding.Statement .testPassComplete := fun _ _ hw => nomatch hw
theorem Encoding.dvreqWrite : Encoding.Statement .dvreqWrite := fun _ _ hw => nomatch hw
theorem Encoding.voltageRampEnd : Encoding.Statement .voltageRampEnd := fun _ _ hw => nomatch hw
theorem Encoding.pllRelockEnd : Encoding.Statement .pllRelockEnd := fun _ _ hw => nomatch hw
theorem Encoding.dvfsSample : Encoding.Statement .dvfsSample := fun _ _ hw => nomatch hw
theorem Encoding.coolantShortfall : Encoding.Statement .coolantShortfall := fun _ _ hw => nomatch hw
theorem Encoding.mailboxPart : Encoding.Statement .mailboxPart := fun _ _ hw => nomatch hw
theorem Encoding.mailboxBind : Encoding.Statement .mailboxBind := fun _ _ hw => nomatch hw
theorem Encoding.mailboxOvfext : Encoding.Statement .mailboxOvfext := fun _ _ hw => nomatch hw
theorem Encoding.mailboxDvreq : Encoding.Statement .mailboxDvreq := fun _ _ hw => nomatch hw
theorem Encoding.mailboxVmin : Encoding.Statement .mailboxVmin := fun _ _ hw => nomatch hw
theorem Encoding.mailboxPwrlim : Encoding.Statement .mailboxPwrlim := fun _ _ hw => nomatch hw
theorem Encoding.mailboxStage : Encoding.Statement .mailboxStage := fun _ _ hw => nomatch hw
theorem Encoding.mailboxAttest : Encoding.Statement .mailboxAttest := fun _ _ hw => nomatch hw
theorem Encoding.mailboxColspan : Encoding.Statement .mailboxColspan := fun _ _ hw => nomatch hw
theorem Encoding.mailboxRetry : Encoding.Statement .mailboxRetry := fun _ _ hw => nomatch hw
theorem Encoding.mailboxTlbinv : Encoding.Statement .mailboxTlbinv := fun _ _ hw => nomatch hw
theorem Encoding.deviceResetStart : Encoding.Statement .deviceResetStart := fun _ _ hw => nomatch hw
theorem Encoding.bootctlGo : Encoding.Statement .bootctlGo := fun _ _ hw => nomatch hw
theorem Encoding.goTimeout : Encoding.Statement .goTimeout := fun _ _ hw => nomatch hw
theorem Encoding.firmwareEventAck : Encoding.Statement .firmwareEventAck := fun _ _ hw => nomatch hw
theorem Encoding.spanReadRequest : Encoding.Statement .spanReadRequest := fun _ _ hw => nomatch hw
theorem Encoding.spanWrite : Encoding.Statement .spanWrite := fun _ _ hw => nomatch hw
theorem Encoding.spanReadCompletion : Encoding.Statement .spanReadCompletion := fun _ _ hw => nomatch hw
theorem Encoding.spanAtomic : Encoding.Statement .spanAtomic := fun _ _ hw => nomatch hw
theorem Encoding.spanCol : Encoding.Statement .spanCol := fun _ _ hw => nomatch hw
theorem Encoding.spanSeal : Encoding.Statement .spanSeal := fun _ _ hw => nomatch hw
theorem Encoding.spanCredit : Encoding.Statement .spanCredit := fun _ _ hw => nomatch hw
theorem Encoding.spanFaultReply : Encoding.Statement .spanFaultReply := fun _ _ hw => nomatch hw
theorem Encoding.spanPortFail : Encoding.Statement .spanPortFail := fun _ _ hw => nomatch hw
theorem Encoding.breakpoint : Encoding.Statement .breakpoint := fun _ _ hw => nomatch hw
theorem Encoding.headSample : Encoding.Statement .headSample := fun _ _ hw => nomatch hw
theorem Encoding.recordedInputInject : Encoding.Statement .recordedInputInject := fun _ _ hw => nomatch hw
theorem Encoding.lcWrite : Encoding.Statement .lcWrite := fun _ _ hw => nomatch hw
theorem Encoding.sfcloRead : Encoding.Statement .sfcloRead := fun _ _ hw => nomatch hw
theorem Encoding.colerrWrite : Encoding.Statement .colerrWrite := fun _ _ hw => nomatch hw
theorem Encoding.accliveWrite : Encoding.Statement .accliveWrite := fun _ _ hw => nomatch hw
theorem Encoding.fltctlWrite : Encoding.Statement .fltctlWrite := fun _ _ hw => nomatch hw
theorem Encoding.dbgctlPclr : Encoding.Statement .dbgctlPclr := fun _ _ hw => nomatch hw
theorem Encoding.trcctlWrite : Encoding.Statement .trcctlWrite := fun _ _ hw => nomatch hw
theorem Encoding.replayctlWrite : Encoding.Statement .replayctlWrite := fun _ _ hw => nomatch hw
theorem Encoding.registerWrite : Encoding.Statement .registerWrite := fun _ _ hw => nomatch hw
theorem Encoding.imageLoad : Encoding.Statement .imageLoad := fun _ _ hw => nomatch hw
theorem Encoding.queueTableRegistration : Encoding.Statement .queueTableRegistration := fun _ _ hw => nomatch hw
theorem Encoding.frqheadWrite : Encoding.Statement .frqheadWrite := fun _ _ hw => nomatch hw
theorem Encoding.shadowWritebackEnd : Encoding.Statement .shadowWritebackEnd := fun _ _ hw => nomatch hw

end Sys2Proof.Laws
end

