-- ==== Sys2Proof/Certificates/Slice0/Obligations.lean ====
section
/-! DEFINITION. Certificates/Slice0/Obligations.lean: the statements for the provers. A table of Claims/ relates an instruction
to what the rules say it needs and does; a statement says that exec answers a next state that is so, for every row. -/
open Sys2Proof Sys2Proof.Machine Sys2Proof.Claims

/-! ## Stream X: results -/

/-- spec/07 R121-R123, R125: the scalar integer and address instructions deliver their result at their latency. -/
def Obligations.ScalarResults : Prop :=
  ∀ (i : Instr) (r : XResult) (s : State), ScalarForm i r → XReady r.hdr r.srcs s → ∃ t, exec i s = .next t ∧ XDelivers r s t

/-- spec/07 R124, R125: compares and predicate operations. -/
def Obligations.PredicateResults : Prop :=
  ∀ (i : Instr) (r : XResult) (s : State), PredForm i r → XReady r.hdr r.srcs s → ∃ t, exec i s = .next t ∧ XDelivers r s t

/-- spec/07 R131, R136-R139: vector integer, permute, merge and scan. -/
def Obligations.VectorResults : Prop :=
  ∀ (i : Instr) (r : XResult) (s : State), VectorForm i r → XReady r.hdr r.srcs s → ∃ t, exec i s = .next t ∧ XDelivers r s t

/-- spec/07 R132-R134: multiply-accumulate, rounding shift and conversion. -/
def Obligations.NarrowResults : Prop :=
  ∀ (i : Instr) (r : XResult) (s : State), NarrowForm i r → XReady r.hdr r.srcs s → ∃ t, exec i s = .next t ∧ XDelivers r s t

/-- spec/07 R126-R130: the lane-wise floating-point instructions, `vredsum.o` and `vredmax`. -/
def Obligations.FloatResults : Prop :=
  ∀ (i : Instr) (r : XResult) (s : State), FloatForm i r → XReady r.hdr r.srcs s → ∃ t, exec i s = .next t ∧ XDelivers r s t

/-- spec/07 R130: `vredsum.u` gives the sum of some full binary tree of rounded additions. Which tree is a free value of the
model (log 3): the statement holds for every tree it may choose. -/
def Obligations.UnorderedSum : Prop :=
  ∀ (h : XHdr) (d : SDst) (a : VSrc) (s : State), XReady h (vPorts a) s →
    ∃ (t : State) (r : Word × FFlags), exec (.vredsumU h d a) s = .next t ∧
      AnyTree (fpctlRM s.tb.fpctl) (lanesOf (s.rV a)) 0 r ∧ XDelivers (treeResult h d a r) s.useFree t

/-- spec/07 R135, spec/03 R51: `vdq` decodes a register of codes and leaves at most one event. -/
def Obligations.DecodeResults : Prop :=
  ∀ (h : XHdr) (f : DqFmt) (p : Fin 8) (d : VDst) (a b c : VSrc) (s : State), XReady h (vPorts a ++ vPorts b ++ vPorts c) s →
    ∃ t u : State, exec (.vdq h f p d a b c) s = .next t ∧ DqEvent f p.val (s.rV a) s u ∧ XDelivers (dqResult h f p d a b c) u t

/-- spec/11 R227, R228, spec/18 R297: `accrd` delivers a row of an accumulator and its count word. -/
def Obligations.AccumulatorRead : Prop :=
  ∀ (h : XHdr) (d : VDst) (acc : Fin 4) (row : SSrc) (cnt : CntDst) (s : State), XReady h (sPorts row) s → AccUsable s →
    ∃ t, exec (.accrd h d acc row cnt) s = .next t ∧ AccRead h d acc row (cntCode cnt) s t

/-- spec/07 R128. -/
def Obligations.LesserGreaterBits : Prop :=
  (∀ (a b : Word), Picks false a b (fmm32 false a b) ∧ Picks true a b (fmm32 true a b)) ∧
  (∀ (h : XHdr) (d : VDst) (a b : VSrc), EncodesWith (.vmin h d a b) 0x45 none none ∧ EncodesWith (.vmax h d a b) 0x46 none none ∧
    EncodesWith (.vabs h d a) 0x47 none none ∧ EncodesWith (.vneg h d a) 0x48 none none) ∧
  ∀ (h : XHdr) (d : VDst) (a b : VSrc) (s : State),
    (XReady h (vPorts a ++ vPorts b) s →
      (∃ t, exec (.vmin h d a b) s = .next t ∧ XDelivers (laneWise h d a b (fmm32 false)) s t) ∧
      ∃ t, exec (.vmax h d a b) s = .next t ∧ XDelivers (laneWise h d a b (fmm32 true)) s t) ∧
    (XReady h (vPorts a) s →
      (∃ t, exec (.vabs h d a) s = .next t ∧
        XDelivers (lanesTo h d 2 (vPorts a) fun s l => lane (s.rV a) l &&& 0x7FFFFFFF) s t) ∧
      ∃ t, exec (.vneg h d a) s = .next t ∧
        XDelivers (lanesTo h d 2 (vPorts a) fun s l => lane (s.rV a) l ^^^ 0x80000000) s t)

/-- spec/07 R136. -/
def Obligations.PermuteSelects : Prop :=
  ∀ (h : XHdr) (d : VDst) (a b c : VSrc), EncodesWith (.vperm h d a b c) 0x90 (some 0) (some 0) ∧
    ∀ s : State, XReady h (vPorts a ++ vPorts b ++ vPorts c) s → ∃ t, exec (.vperm h d a b c) s = .next t ∧
      XDelivers (lanesTo h d 2 (vPorts a ++ vPorts b ++ vPorts c) fun s l =>
        if (lane (s.rV b) l).getLsbD 31 = true then 0
        else if (lane (s.rV b) l).getLsbD 5 = false then lane (s.rV a) ((lane (s.rV b) l).toNat % 32)
        else lane (s.rV c) ((lane (s.rV b) l).toNat % 32)) s t

/-- spec/07 R137. -/
def Obligations.BroadcastMerge : Prop :=
  ∀ (h : XHdr) (d : VDst) (x : SSrc) (a b c : VSrc),
    EncodesWith (.vbc h d x) 0x81 (some 0) (some 0) ∧ EncodesWith (.vbcLn h d a x) 0x81 (some 1) (some 0) ∧
    (∀ w, encode (.vbc h d x) = some (.x w) → w.extractLsb' 27 8 = 0) ∧ EncodesWith (.vmerge h d a b c) 0x92 (some 0) (some 0) ∧
    ∀ s : State,
      (XReady h (sPorts x) s → ∃ t, exec (.vbc h d x) s = .next t ∧ XDelivers (lanesTo h d 2 (sPorts x) fun s _ => s.rS x) s t) ∧
      (XReady h (vPorts a ++ sPorts x) s → ∃ t, exec (.vbcLn h d a x) s = .next t ∧
        XDelivers (lanesTo h d 2 (vPorts a ++ sPorts x) fun s _ => lane (s.rV a) ((s.rS x).toNat % 32)) s t) ∧
      (XReady h (vPorts a ++ vPorts b ++ vPorts c) s → ∃ t, exec (.vmerge h d a b c) s = .next t ∧
        XDelivers (lanesTo h d 2 (vPorts a ++ vPorts b ++ vPorts c) fun s l =>
          if lane (s.rV c) l ≠ 0 then lane (s.rV a) l else lane (s.rV b) l) s t)

/-! ## Stream X: control, scratchpad, system -/

/-- spec/06 R105-R118, spec/12 R243: branches, loops, joins, flags, pauses, `fin` and the X fence. -/
def Obligations.ControlRuns : Prop :=
  (∀ (i : Instr) (r : XForm) (s : State), ControlForm i r → XReady r.hdr r.srcs s → r.need s → ∃ t, exec i s = .next t ∧ XActs r s t) ∧
  ∀ (h : XHdr) (d : SDst) (disp : BitVec 16) (s : State), XReady h [] s → (callResult h d disp).need s →
    ∃ t, exec (.xCall h d disp) s = .next t ∧ XDelivers (callResult h d disp) s t

/-- spec/02 R26: a syllable whose guard is false pops nothing, writes nothing and goes on to the next; its push comes when
that of the effective syllable would. -/
def Obligations.GuardedOff : Prop :=
  ∀ (i : Instr) (r : XResult) (s : State), Guarded i r → XFree r.hdr s → s.guard r.hdr = false →
    ∃ t, exec i s = .next t ∧ XPushesAt r.lat { hdr := r.hdr, srcs := [] } s t

/-- spec/06 R113: a control syllable in the delay slots of a taken branch raises ILLEGAL_INSTR. -/
def Obligations.IllegalInDelay : Prop :=
  ∀ (i : Instr) (h : XHdr) (s : State), NotInDelay i h → s.guard h = true → s.tc.brdly ≠ 0 → s.turn.ctx.val < 2 → Untraced s →
    NoExecution s → ∃ t, exec i s = .next t ∧ TrapEdge 1 0 0 s t

/-- spec/10 R183-R185, R195, spec/12 R241: scratchpad loads of stream X. -/
def Obligations.ScratchpadLoads : Prop :=
  ∀ (i : Instr) (r : XResult) (s : State), LoadForm i r → XReady r.hdr r.srcs s → r.need s → ∃ t, exec i s = .next t ∧ XDelivers r s t

/-- spec/10 R183-R186, R199: scratchpad stores of stream X, which wait for the end of their X cycle. -/
def Obligations.ScratchpadStores : Prop :=
  ∀ (i : Instr) (r : XForm) (s : State), StoreForm i r → XReady r.hdr r.srcs s → r.need s → ∃ t, exec i s = .next t ∧ XActs r s t

/-- spec/10 R186, R199: at the end of the X cycle the bytes that wait are stored, the last one to each address, and every other
byte of every memory reads as before. -/
def Obligations.StoresLandTogether : Prop :=
  ∀ s : State, (evBank s).xsysw = [] → (s.core s.ev.g).sp.wf = true →
    ∃ t, exec .xResultLanding s = .next t ∧
      (∀ a b, lastByte (evBank s).xstores a = some b → (t.core s.ev.g).sp.read a = b) ∧
      (∀ a, lastByte (evBank s).xstores a = none → (t.core s.ev.g).sp.read a = (s.core s.ev.g).sp.read a) ∧
      (∀ g a, g ≠ s.ev.g → (t.core g).sp.read a = (s.core g).sp.read a) ∧
      (∀ a, t.hbm.read a = s.hbm.read a) ∧ ∀ a, t.host.read a = s.host.read a

/-- spec/10 R183: a scalar access of a unit that fails a check takes the trap of the first check that fails. -/
def Obligations.AccessChecks : Prop :=
  ∀ (i : Instr) (h : XHdr) (srcs : List Nat) (va : State → Nat) (wr : Bool) (n : Nat) (s : State) (c : Byte) (d0 d1 : DWord),
    ScalarAccess i h srcs va wr n → XReady h srcs s → s.turn.ctx.val < 2 → Untraced s → NoExecution s → AccessTrap s wr n (va s) c d0 d1 →
    ∃ t, exec i s = .next t ∧ TrapEdge c d0 d1 s t

/-- spec/18 R291, R293, R296: `sysr`, `sysw`, `dbgstop` and `yield` of stream X. -/
def Obligations.SystemSyllables : Prop :=
  (∀ (i : Instr) (r : XForm) (s : State), SystemForm i r → XReady r.hdr r.srcs s → r.need s → ∃ t, exec i s = .next t ∧ XActs r s t) ∧
  (∀ (h : XHdr) (d : SDst) (cr : BitVec 12) (s : State), XReady h [] s → (sysrResult h d cr).need s →
    ∃ t, exec (.xSysr h d cr) s = .next t ∧ XDelivers (sysrResult h d cr) s t) ∧
  (∀ (h : XHdr) (n : BitVec 16) (s : State), XReady h [] s → s.turn.ctx.val < 2 → Untraced s → NoExecution s →
    (s.part s.tb.part).stopen = true → ∃ t u : State, exec (.dbgstop h n) s = .next t ∧ XActs { hdr := h, srcs := [] } s u ∧ TrapEdge 29 (n.setWidth 64) 0 u t) ∧
  ∀ (h : XHdr) (s : State), XReady h [] s → s.turn.ctx.val < 2 → s.tb.detm = false →
    ∃ u : State, XActs { hdr := h, srcs := [] } s u ∧
      exec (.yield h) s = .next (u.schedule 0 .bankSwitchTslice { EvArgs.at s.turn.core s.turn.ctx with n := 2 })

/-- spec/18 R291, R293: a special register that the context may not read or write raises ILLEGAL_INSTR. -/
def Obligations.RegisterAccessRefused : Prop :=
  ∀ (i : Instr) (h : XHdr) (s : State), RegisterRefused s i h → s.guard h = true → s.turn.ctx.val < 2 → Untraced s →
    NoExecution s → ∃ t, exec i s = .next t ∧ TrapEdge 1 0 0 s t

/-- spec/18 R291, R292: the instructions of the system context raise ILLEGAL_INSTR in a unit. -/
def Obligations.SystemOnlyRefused : Prop :=
  ∀ (i : Instr) (s : State), SystemOnly s i → s.turn.ctx.val < 2 → Untraced s → NoExecution s →
    ∃ t, exec i s = .next t ∧ TrapEdge 1 0 0 s t

/-- spec/18 R282, R285, R291, R292: `trap n` of either stream takes the trap after its word, and in the system context it is a
double trap. -/
def Obligations.TrapsTaken : Prop :=
  (∀ (h : XHdr) (n : BitVec 16) (s : State), XReady h [] s → s.turn.ctx.val < 2 → Untraced s → NoExecution s →
    ∃ t, exec (.xTrap h n) s = .next t ∧ TrapEdge 28 (n.setWidth 64) 0 (columnNext s) t) ∧
  (∀ (h : AHdr) (n : Fin 128) (s : State), AReady h.wait h.push [] [] [] s → s.turn.ctx.val < 2 → Untraced s → NoExecution s →
    ∃ t u : State, exec (.aTrap h n) s = .next t ∧ ARetires { wait := h.wait, push := h.push } s s u ∧
      TrapEdge 28 (BitVec.ofNat 64 n.val) 0 u t) ∧
  ∀ (h : XHdr) (n : BitVec 16) (s : State) (k : Fin 2), XReady h [] s → s.turn.ctx.val = 2 →
    (s.core s.turn.core).handling = some k → (s.bank s.turn.core (k.castLE (by decide))).status < 2 →
    ∃ t, exec (.xTrap h n) s = .next t ∧ (t.core s.turn.core).handling = none ∧
      (t.bank s.turn.core (k.castLE (by decide))).status = 2 ∧ (t.bank s.turn.core (k.castLE (by decide))).reason = 31 ∧
      SameMemory s t ∧
      { at_ := s.cycle + 1, what := .unitCompletion, args := EvArgs.at s.turn.core (k.castLE (by decide)) } ∈ t.agenda

/-- spec/18 R289, R290: `eret` ends the handler and the trapped unit resumes from its save area. -/
def Obligations.HandlerReturns : Prop :=
  ∀ (h : XHdr) (s : State) (k : Fin 2) (b : Bank) (r : SaveRead), XReady h [] s → HandlerDone s → Resumes s k b r →
    ∃ t, exec (.eret h) s = .next t ∧ Resumed s t k b r

/-- spec/18 R294: `halt` in a unit stops it on one edge with fault and cause HALTED. -/
def Obligations.HaltStops : Prop :=
  ∀ (h : XHdr) (s : State), XReady h [] s → s.turn.ctx.val < 2 → s.tb.status < 2 →
    ∃ t, exec (.halt h) s = .next t ∧ StoppedWith 30 s.turn.core s.turn.ctx s t

/-! ## Domain registers -/

/-- spec/08 R151: the four reads; a scalar whose latency has passed is the value of lx in its column. -/
def Obligations.DomainReads : Prop :=
  (∀ (h : XHdr) (d : SDst) (a : Fin 32) (w : Fin 4) (s : State), XReady h [] s → Column0 s →
    (∃ t, exec (.dlo h d a) s = .next t ∧ XDelivers (domReadResult h d fun s => (domReg s a).lo) s t) ∧
    (∃ t, exec (.dhi h d a) s = .next t ∧ XDelivers (domReadResult h d fun s => (domReg s a).hi) s t) ∧
    (∃ t, exec (.dsize h d a) s = .next t ∧ XDelivers (domReadResult h d fun s => domCount (domReg s a)) s t) ∧
    ∃ t, exec (.dget h d a w) s = .next t ∧
      XDelivers (domReadResult h d fun s =>
        if w = 0 then (domReg s a).lo else if w = 1 then (domReg s a).hi
        else if w = 2 then (domReg s a).win.extractLsb' 0 32 else (domReg s a).win.extractLsb' 32 32) s t) ∧
  ∀ (f : Flight) (s : State), (lxLands f).need s → ∃ t, exec .xResultLanding s = .next t ∧ (lxLands f).holds s t

/-- spec/08 R152: the two tests, and neither narrows. -/
def Obligations.DomainTests : Prop :=
  ∀ (h : XHdr) (p : Fin 8) (a : Fin 32) (v : SSrc) (s : State), Column0 s →
    (XReady h (sPorts v) s → ∃ t, exec (.dtestIn h p a v) s = .next t ∧ t.tb.dom = s.tb.dom ∧
      ∃ b : Bool, (b = true ↔ domHas (domReg s a) (s.rS v).toInt) ∧
        XDelivers { predTo h p 2 (sPorts v) (fun _ => b) with need := Column0, col := fun _ c => holding 1 c } s t) ∧
    (XReady h [] s → ∃ t, exec (.dtestOne h p a) s = .next t ∧ t.tb.dom = s.tb.dom ∧
      ∃ b : Bool, (b = true ↔ (domReg s a).lo = (domReg s a).hi) ∧
        XDelivers { predTo h p 2 [] (fun _ => b) with need := Column0, col := fun _ c => holding 1 c } s t)

/-- spec/00 R9, spec/08 R140: an intersection holds exactly the common members, in the one form a register has, and is
empty when there are none. -/
def Obligations.NarrowIsExact : Prop :=
  ∀ (d : Dom) (s : ISet), Canonical d →
    match d.inter s with
    | some t => Canonical t ∧ ∀ x : Int, domHas t x ↔ domHas d x ∧ s.mem x = true
    | none => ∀ x : Int, ¬(domHas d x ∧ s.mem x = true)

/-- spec/08 R143-R150, R154: a relation or constant that narrows without failing writes its registers, wakes the standing
entries of what it narrowed, and starts a run when there is one to make. -/
def Obligations.RelationsNarrow : Prop :=
  ∀ (i : Instr) (h : XHdr) (srcs : List Nat) (x : State → DX) (keep : State → Option Standing) (s : State),
    NarrowsForm i h srcs x keep → XReady h srcs s →
    ((settled h srcs x keep).need s → ∃ t, exec i s = .next t ∧ XPushesAt 1 (settled h srcs x keep) s t) ∧
    ((running h srcs x keep).need s → ∃ t, exec i s = .next t ∧ XPushesAt 1 (running h srcs x keep) s t)

/-- spec/08 R159, R160: one whose set empties writes no register: it redirects to FAILPC, or traps DOMAIN_FAIL. -/
def Obligations.RelationsFail : Prop :=
  ∀ (i : Instr) (h : XHdr) (srcs : List Nat) (x : State → DX) (keep : State → Option Standing) (r : Fin 32) (s : State),
    NarrowsForm i h srcs x keep → XReady h srcs s →
    ((redirected h srcs x keep r).need s → ∃ t, exec i s = .next t ∧ XPushesAt 1 (redirected h srcs x keep r) s t) ∧
    ((failTraps h srcs x keep r).need s → s.turn.stream = .x → s.turn.ctx.val < 2 → Untraced s → NoExecution s → ∃ t, exec i s = .next t ∧ FailsByTrap h srcs x keep r s t)

/-- spec/08 R149, R154: `dpick` delivers the least member and makes it the only one. That a pick which wakes nothing leaves DRUN
0 is the model's reading (log 22). -/
def Obligations.PickGuesses : Prop :=
  ∀ (h : XHdr) (d : SDst) (a : Fin 32) (s : State), XReady h [] s →
    ((pickSettled h d a).need s → ∃ t, exec (.dpick h d a) s = .next t ∧ XDelivers (pickSettled h d a) s t) ∧
    ((pickRunning h d a).need s → ∃ t, exec (.dpick h d a) s = .next t ∧ XDelivers (pickRunning h d a) s t)

/-- spec/08 R158, R161: the checkpoint stack, the table, and `dprop` with nothing pending. That `dprop` then leaves DRUN as it
was is the model's reading (log 21). -/
def Obligations.CheckpointStack : Prop :=
  ∀ (i : Instr) (n : Nat) (r : XForm) (s : State), StackForm i n r → XReady r.hdr r.srcs s → r.need s →
    ∃ t, exec i s = .next t ∧ XPushesAt (n - 1) r s t

/-! ## Stream A -/

/-- spec/10 R194: the arithmetic of stream A. -/
def Obligations.ArithmeticWords : Prop :=
  ∀ (i : Instr) (r : AForm) (s : State), ArithForm i r → AReady r.wait r.push r.srcs r.dsts r.extra s → r.need s →
    ∃ t, exec i s = .next t ∧ ARetires r s s t

/-- spec/06 R114-R118: branches in their three modes, jumps, calls, loops, pauses and `fin`. -/
def Obligations.BranchWords : Prop :=
  ∀ (i : Instr) (r : AForm) (s : State), BranchForm i r → AReady r.wait r.push r.srcs r.dsts r.extra s → r.need s →
    ∃ t, exec i s = .next t ∧ ARetires r s s t

/-- spec/10 R195-R198, spec/12 R238-R247, R252, R254: the global accesses leave an outstanding access of the word's bytes, at the
owner not before the travel time. How much later is a free value of the model (log 5). -/
def Obligations.GlobalAccesses : Prop :=
  ∀ (i : Instr) (r : Access) (s : State), AccessOf i r → AReady r.hdr.wait r.hdr.push r.srcs r.dsts r.extra s → r.need s →
    ∃ (n : Nat) (t : State), exec i s = .next t ∧ s.oneWay s.turn.core (r.va s) ≤ n ∧ AOwes (r.form n) s (r.base s).useFree t

/-- spec/10 R183, R195-R198: scratchpad loads and stores of stream A. -/
def Obligations.ScratchpadWords : Prop :=
  (∀ (i : Instr) (r : AForm) (base : State → State) (s : State), ScratchLoad i r base →
    AReady r.wait r.push r.srcs r.dsts r.extra s → r.need s → ∃ t, exec i s = .next t ∧ AOwes r s (base s) t) ∧
  ∀ (i : Instr) (r : AForm) (base : State → State) (s : State), ScratchStore i r base →
    AReady r.wait r.push r.srcs r.dsts r.extra s → r.need s → ∃ t, exec i s = .next t ∧ ARetires r s (base s) t

/-- spec/10 R195: a scratchpad store of a register writes its low bytes at its address, and every other byte of every memory
reads as before. -/
def Obligations.ScratchpadStoreFrame : Prop :=
  ∀ (h : AHdr) (c : Fin 8) (ty : ATy) (d a i : Fin 32) (off : BitVec 8) (s : State),
    AReady h.wait h.push [d, a, i] [] [] s → ScratchOk true c (addr a i off (atySize ty) s) (atySize ty) s →
    (s.core s.turn.core).sp.wf = true →
    ∃ t, exec (.aSt h c true ty d a i off) s = .next t ∧
      (∀ k, k < atySize ty → (t.core s.turn.core).sp.read (addr a i off (atySize ty) s + k) =
        BitVec.ofNat 8 ((s.rA d).toNat / 2 ^ (8 * k))) ∧
      (∀ x, x < addr a i off (atySize ty) s ∨ addr a i off (atySize ty) s + atySize ty ≤ x →
        (t.core s.turn.core).sp.read x = (s.core s.turn.core).sp.read x) ∧
      (∀ g x, g ≠ s.turn.core → (t.core g).sp.read x = (s.core g).sp.read x) ∧
      (∀ x, t.hbm.read x = s.hbm.read x) ∧ ∀ x, t.host.read x = s.host.read x

/-- spec/04 R71-R73, spec/05 R95-R97, spec/10 R187-R192, spec/12 R242-R254, spec/18 R292-R295: fences, barriers, system words,
handles, owner bits, rings, refused launches, cancels, waits and event tests. -/
def Obligations.WordsThatRetire : Prop :=
  ∀ (i : Instr) (r : AForm) (base : State → State) (s : State), RetireForm i r base →
    AReady r.wait r.push r.srcs r.dsts r.extra s → r.need s → ∃ t, exec i s = .next t ∧ ARetires r s (base s) t

/-- spec/05 R95, R96, spec/09 R170, spec/10 R193: event operations, invalidation, launches and rotations retire later. -/
def Obligations.WordsThatRetireLater : Prop :=
  ∀ (i : Instr) (r : AForm) (base : State → State) (s : State), LaterForm i r base →
    AReady r.wait r.push r.srcs r.dsts r.extra s → r.need s → ∃ t, exec i s = .next t ∧ AOwes r s (base s) t

/-- spec/18 R293: `sysw` of stream A writes the register and retires. -/
def Obligations.RegisterWriteWords : Prop :=
  ∀ (h : AHdr) (a : Fin 32) (cr : BitVec 12) (s : State), AReady h.wait h.push [a] [] [] s → s.mayWriteReg cr.toNat = true →
    s.resetBusy cr.toNat = false → ∃ t, exec (.aSysw h a cr) s = .next t ∧ RegisterWritten h a cr s t

/-- spec/10 R204-R209: the copy long forms put their command into the buffer. -/
def Obligations.CopyWords : Prop :=
  ∀ (i : Instr) (r : AForm) (c : State → CopyCmd) (s : State), CopyForm i r c →
    AReady r.wait r.push r.srcs r.dsts r.extra s → r.need s → ∃ t, exec i s = .next t ∧ AOwes r s (buffered (c s) s) t

/-! ## Stream M -/

/-- spec/11 R212, R231: leases, index registers, loops and the end of stream M. -/
def Obligations.MatrixWords : Prop :=
  ∀ (i : Instr) (r : MForm) (s : State), MWordForm i r → MReady r.hdr r.ks s → r.need s → ∃ t, exec i s = .next t ∧ MRetires r s t

/-- spec/11 R213-R230, spec/10 R359: the commands that stream M sends to the array. -/
def Obligations.MatrixCommands : Prop :=
  ∀ (i : Instr) (r : MCmd) (s : State), MCmdForm i r → MReady r.hdr r.ks s → Holds s → r.need s → ∃ t, exec i s = .next t ∧ MSends r s t

/-! ## Steps of the device -/

/-- spec/00 R6, spec/06 R102-R111, spec/08 R154-R157, spec/09 R169-R178, spec/12 R239-R246, spec/18 R282-R296, and the register
tables: landings, tokens, bounds, runs, handlers, register writes, accesses at their owners, faults and their answers. -/
def Obligations.StreamSteps : Prop :=
  ∀ (i : Instr) (e : Event) (s : State), StreamEvent i e → e.need s → ∃ t, exec i s = .next t ∧ e.holds s t

/-- spec/10 R193, R204-R209, spec/11 R212-R234: the copy engine, rotations, leases and the matrix array. -/
def Obligations.EngineSteps : Prop :=
  ∀ (i : Instr) (e : Event) (s : State), EngineEvent i e → e.need s → ∃ t, exec i s = .next t ∧ e.holds s t

/-- spec/05 R76-R96, spec/12 R248-R251, spec/18 R299-R301, spec/21 R313-R325, spec/22 R327: queues, units, phases, barriers,
events, swaps and rollbacks. -/
def Obligations.JobSteps : Prop :=
  ∀ (i : Instr) (e : Event) (s : State), JobEvent i e → e.need s → ∃ t, exec i s = .next t ∧ e.holds s t

/-- spec/13 R265, spec/16 R273-R279, spec/22 R329-R334, spec/23 R336-R345: operating points, firmware, the host and the Span links.
The layout of a mailbox command's arguments is the model's choice (log 29). -/
def Obligations.DeviceSteps : Prop :=
  ∀ (i : Instr) (e : Event) (s : State), DeviceEvent i e → e.need s → ∃ t, exec i s = .next t ∧ e.holds s t

/-! ## The machine as a whole -/

/-- Every instruction and every step of the device goes on: none ends in a fault or a refusal. -/
def Obligations.NothingIsRefused : Prop := ∀ (i : Instr) (s : State), ∃ t, exec i s = .next t

/-- spec/00 R1-R3, R10, spec/06 R99-R101, spec/18 R282, R284: a step runs the due step of the agenda with its arguments; or the cause
that a word of the cycle meets, and the core's other words of the cycle do not issue; or the word that the stream of the turn decodes
at its pc, counts its cycle, and passes the turn on. -/
def Obligations.StepRunsDecoded : Prop :=
  (∀ (s : State) (d : Due) (l : List Due), s.agenda = d :: l → d.at_ ≤ s.cycle →
    step s = exec d.what { s with agenda := l, ev := d.args }) ∧
  (∀ s t : State, NothingDue s → Presents s → s.turn.stream = .a → (s.onStream .a).edgeCause = some t →
    step s = .next (t.nextTurn (s.turn.core.val + 1))) ∧
  (∀ (s : State) (w : BitVec 128) (i : Instr), ATurn s w i →
    step s = andThen (andThen (exec i (atWord w s)) fun t => t.afterWord .a) fun t => .next (t.passTurn s.turn.core s.turn.ctx .a)) ∧
  (∀ (s : State) (w : BitVec 128) (i : Instr) (t u : State), MTurn s w i → exec i (atWord w s) = .next t → t.afterWord .m = .next u →
    step s = .next ((unlessStopped (s.onStream .m) u).passTurn s.turn.core s.turn.ctx .m)) ∧
  ∀ (s : State) (c : Fin 4) (w : BitVec 128) (i : Instr) (t u : State), XTurn s c w i → exec i (atColumn c w s) = .next t →
    t.turn.how = .issued → (t.bank s.turn.core s.turn.ctx).st = .running →
    exec .xResultLanding { t.count s.turn.core .x [0] with ev := EvArgs.at s.turn.core s.turn.ctx } = .next u →
    step s = .next (((unlessStopped (s.onStream .x) u).endCore s.turn.core).passTurn s.turn.core s.turn.ctx .x)

/-- The words that the spec writes out decode to the instructions they stand for (spec/02 R40, spec/06, spec/07, spec/08, spec/10,
spec/18). -/
def Obligations.SpecWordsDecode : Prop :=
  (Words.x 0x21B020081021D600).decode =
    .ok (.vfma { joined := false, gp := 3, gn := false, wait := some 3, push := some 5 } (.reg 4) (.reg 1) (.reg 2) (.reg 4)) ∧
  (Words.x 0x13802802B3C00000).decode =
    .ok (.xLi { joined := false, gp := 0, gn := false, wait := none, push := none } (.reg 5) 0x5678) ∧
  (Words.x 0x5700283800000002).decode =
    .ok (.dget { joined := false, gp := 0, gn := false, wait := none, push := none } (.reg 5) 7 2) ∧
  (Words.x 0x7980003005A00000).decode =
    .ok (.xSysw { joined := false, gp := 0, gn := false, wait := none, push := none } (.reg 6) 0x0B4) ∧
  (Words.a 0xE0A00B000000).decode = .ok (.aSysr { wait := none, push := none } 5 0x0B0) ∧
  (Words.a 0xA3E42FD10000).decode = .ok (.bne { wait := none, push := none } .branch 4 5 0xFFD) ∧
  (Words.a 0xD0A218000000).decode = .ok (.barc { wait := none, push := none } 5 2 3)

/-- spec/02 R24-R40 and the encodings of every chapter: the words of a well-formed instruction decode to it, every operand at
every value its encoding admits. -/
def Obligations.EncodeRoundTrip : Prop :=
  ∀ i : Instr, i.wf = true → ∀ w : Words, encode i = some w → w.decode = .ok i

/-- Every step keeps every memory in its canonical form (log 1): equal memories stay equal data. -/
def Obligations.StepKeepsMemories : Prop :=
  ∀ s t : State, MemoriesCanonical s → step s = .next t → MemoriesCanonical t

/-- The memories of the state after reset have that form. -/
def Obligations.ResetMemories : Prop := MemoriesCanonical State.reset

/-- spec/05 R98, spec/08 R140, R162, spec/11 R237, spec/16 R271, spec/18 R302, spec/21 R326: what reset leaves, of the values the
spec gives. -/
def Obligations.ResetValues : Prop := ResetState State.reset

/-! ## Completion of `dpick` and of `sysw` of stream A -/

/-- spec/08 R149, R151: with no more than its guard, its tokens and column 0, `dpick` completes: its result is in flight for two X
cycles and the register is then that member alone, whatever the table wakes. -/
def Obligations.DpickCompletes : Prop :=
  ∀ (h : XHdr) (d : SDst) (a : Fin 32) (s : State), XReady h [] s → Column0 s →
    ∃ t, exec (.dpick h d a) s = .next t ∧ t.turn.how = .issued ∧ domReg t a = Dom.singleton (domReg s a).lo ∧
      t.tb.inflight = s.tb.inflight ++ [flightOf s (sdstCode d) .scalar ((domReg s a).lo.setWidth 1024) 2 0 h.push] ∧
      SameMemory s t

/-- spec/18 R293: under those conditions `sysw` of stream A completes: the register is written and the word retires, so that the
stream goes on to the next word. -/
def Obligations.AsyswCompletes : Prop :=
  ∀ (h : AHdr) (a : Fin 32) (cr : BitVec 12) (s : State), AReady h.wait h.push [a] [] [] s → s.mayWriteReg cr.toNat = true →
    s.resetBusy cr.toNat = false → ∃ t, exec (.aSysw h a cr) s = .next t ∧ t.turn.how = .issued
end

