-- ==== Sys2Proof/Laws/Exec.lean ====
section
/-! SUPPORT. Laws/Exec.lean: exec of each constructor is its meaning. -/
namespace Sys2Proof.Machine
open Sys2Proof

@[simp] theorem exec_xNop (h s) : exec (.xNop h) s = execXNop h s := rfl
@[simp] theorem exec_xAdd (h d a b s) : exec (.xAdd h d a b) s = execXAdd h d a b s := rfl
@[simp] theorem exec_xSub (h d a b s) : exec (.xSub h d a b) s = execXSub h d a b s := rfl
@[simp] theorem exec_xAnd (h d a b s) : exec (.xAnd h d a b) s = execXAnd h d a b s := rfl
@[simp] theorem exec_xOr (h d a b s) : exec (.xOr h d a b) s = execXOr h d a b s := rfl
@[simp] theorem exec_xXor (h d a b s) : exec (.xXor h d a b) s = execXXor h d a b s := rfl
@[simp] theorem exec_xShl (h d a b s) : exec (.xShl h d a b) s = execXShl h d a b s := rfl
@[simp] theorem exec_xShr (h d a b s) : exec (.xShr h d a b) s = execXShr h d a b s := rfl
@[simp] theorem exec_xSra (h d a b s) : exec (.xSra h d a b) s = execXSra h d a b s := rfl
@[simp] theorem exec_xMin (h uns d a b s) : exec (.xMin h uns d a b) s = execXMin h uns d a b s := rfl
@[simp] theorem exec_xMax (h uns d a b s) : exec (.xMax h uns d a b) s = execXMax h uns d a b s := rfl
@[simp] theorem exec_xMul (h d a b s) : exec (.xMul h d a b) s = execXMul h d a b s := rfl
@[simp] theorem exec_xMulh (h uns d a b s) : exec (.xMulh h uns d a b) s = execXMulh h uns d a b s := rfl
@[simp] theorem exec_xSel (h d a b p s) : exec (.xSel h d a b p) s = execXSel h d a b p s := rfl
@[simp] theorem exec_xClz (h d a s) : exec (.xClz h d a) s = execXClz h d a s := rfl
@[simp] theorem exec_xPopc (h d a s) : exec (.xPopc h d a) s = execXPopc h d a s := rfl
@[simp] theorem exec_xBfx (h sx w d a pos s) : exec (.xBfx h sx w d a pos) s = execXBfx h sx w d a pos s := rfl
@[simp] theorem exec_xBfi (h w d a b pos s) : exec (.xBfi h w d a b pos) s = execXBfi h w d a b pos s := rfl
@[simp] theorem exec_xLea (h k d a b s) : exec (.xLea h k d a b) s = execXLea h k d a b s := rfl
@[simp] theorem exec_xAddi (h d a i' s) : exec (.xAddi h d a i') s = execXAddi h d a i' s := rfl
@[simp] theorem exec_xAndi (h d a i' s) : exec (.xAndi h d a i') s = execXAndi h d a i' s := rfl
@[simp] theorem exec_xOri (h d a i' s) : exec (.xOri h d a i') s = execXOri h d a i' s := rfl
@[simp] theorem exec_xXori (h d a i' s) : exec (.xXori h d a i') s = execXXori h d a i' s := rfl
@[simp] theorem exec_xShli (h d a i' s) : exec (.xShli h d a i') s = execXShli h d a i' s := rfl
@[simp] theorem exec_xShri (h d a i' s) : exec (.xShri h d a i') s = execXShri h d a i' s := rfl
@[simp] theorem exec_xSrai (h d a i' s) : exec (.xSrai h d a i') s = execXSrai h d a i' s := rfl
@[simp] theorem exec_xLi (h d i' s) : exec (.xLi h d i') s = execXLi h d i' s := rfl
@[simp] theorem exec_xLih (h d a i' s) : exec (.xLih h d a i') s = execXLih h d a i' s := rfl
@[simp] theorem exec_xMuli (h d a i' s) : exec (.xMuli h d a i') s = execXMuli h d a i' s := rfl
@[simp] theorem exec_xCmp (h c p a b s) : exec (.xCmp h c p a b) s = execXCmp h c p a b s := rfl
@[simp] theorem exec_xCmpi (h c p a i' s) : exec (.xCmpi h c p a i') s = execXCmpi h c p a i' s := rfl
@[simp] theorem exec_xPand (h p a b s) : exec (.xPand h p a b) s = execXPand h p a b s := rfl
@[simp] theorem exec_xPor (h p a b s) : exec (.xPor h p a b) s = execXPor h p a b s := rfl
@[simp] theorem exec_xPxor (h p a b s) : exec (.xPxor h p a b) s = execXPxor h p a b s := rfl
@[simp] theorem exec_xPnot (h p a s) : exec (.xPnot h p a) s = execXPnot h p a s := rfl
@[simp] theorem exec_xPmov (h p a s) : exec (.xPmov h p a) s = execXPmov h p a s := rfl
@[simp] theorem exec_xPget (h d a s) : exec (.xPget h d a) s = execXPget h d a s := rfl
@[simp] theorem exec_vadd (h d a b s) : exec (.vadd h d a b) s = execVadd h d a b s := rfl
@[simp] theorem exec_vsub (h d a b s) : exec (.vsub h d a b) s = execVsub h d a b s := rfl
@[simp] theorem exec_vmul (h d a b s) : exec (.vmul h d a b) s = execVmul h d a b s := rfl
@[simp] theorem exec_vfma (h d a b c s) : exec (.vfma h d a b c) s = execVfma h d a b c s := rfl
@[simp] theorem exec_vfms (h d a b c s) : exec (.vfms h d a b c) s = execVfms h d a b c s := rfl
@[simp] theorem exec_vmin (h d a b s) : exec (.vmin h d a b) s = execVmin h d a b s := rfl
@[simp] theorem exec_vmax (h d a b s) : exec (.vmax h d a b) s = execVmax h d a b s := rfl
@[simp] theorem exec_vabs (h d a s) : exec (.vabs h d a) s = execVabs h d a s := rfl
@[simp] theorem exec_vneg (h d a s) : exec (.vneg h d a) s = execVneg h d a s := rfl
@[simp] theorem exec_vcmp (h c d a b s) : exec (.vcmp h c d a b) s = execVcmp h c d a b s := rfl
@[simp] theorem exec_vrcp (h d a s) : exec (.vrcp h d a) s = execVrcp h d a s := rfl
@[simp] theorem exec_vrsqrt (h d a s) : exec (.vrsqrt h d a) s = execVrsqrt h d a s := rfl
@[simp] theorem exec_vexp2 (h d a s) : exec (.vexp2 h d a) s = execVexp2 h d a s := rfl
@[simp] theorem exec_vlog2 (h d a s) : exec (.vlog2 h d a) s = execVlog2 h d a s := rfl
@[simp] theorem exec_vredsumO (h d a s) : exec (.vredsumO h d a) s = execVredsumO h d a s := rfl
@[simp] theorem exec_vredsumU (h d a s) : exec (.vredsumU h d a) s = execVredsumU h d a s := rfl
@[simp] theorem exec_vredmax (h d a s) : exec (.vredmax h d a) s = execVredmax h d a s := rfl
@[simp] theorem exec_viadd (h d a b s) : exec (.viadd h d a b) s = execViadd h d a b s := rfl
@[simp] theorem exec_visub (h d a b s) : exec (.visub h d a b) s = execVisub h d a b s := rfl
@[simp] theorem exec_vimul (h d a b s) : exec (.vimul h d a b) s = execVimul h d a b s := rfl
@[simp] theorem exec_vand (h d a b s) : exec (.vand h d a b) s = execVand h d a b s := rfl
@[simp] theorem exec_vor (h d a b s) : exec (.vor h d a b) s = execVor h d a b s := rfl
@[simp] theorem exec_vxor (h d a b s) : exec (.vxor h d a b) s = execVxor h d a b s := rfl
@[simp] theorem exec_vshl (h d a b s) : exec (.vshl h d a b) s = execVshl h d a b s := rfl
@[simp] theorem exec_vshr (h d a b s) : exec (.vshr h d a b) s = execVshr h d a b s := rfl
@[simp] theorem exec_vsra (h d a b s) : exec (.vsra h d a b) s = execVsra h d a b s := rfl
@[simp] theorem exec_vimin (h uns d a b s) : exec (.vimin h uns d a b) s = execVimin h uns d a b s := rfl
@[simp] theorem exec_vimax (h uns d a b s) : exec (.vimax h uns d a b) s = execVimax h uns d a b s := rfl
@[simp] theorem exec_vicmp (h c d a b s) : exec (.vicmp h c d a b) s = execVicmp h c d a b s := rfl
@[simp] theorem exec_vmacw (h uns pa pb d a b c s) : exec (.vmacw h uns pa pb d a b c) s = execVmacw h uns pa pb d a b c s := rfl
@[simp] theorem exec_vrsh (h t p d a b c s) : exec (.vrsh h t p d a b c) s = execVrsh h t p d a b c s := rfl
@[simp] theorem exec_vdot4 (h ua ub d a b c s) : exec (.vdot4 h ua ub d a b c) s = execVdot4 h ua ub d a b c s := rfl
@[simp] theorem exec_vcvt (h dst src p d a c s) : exec (.vcvt h dst src p d a c) s = execVcvt h dst src p d a c s := rfl
@[simp] theorem exec_vdq (h f p d a b c s) : exec (.vdq h f p d a b c) s = execVdq h f p d a b c s := rfl
@[simp] theorem exec_vbc (h d a s) : exec (.vbc h d a) s = execVbc h d a s := rfl
@[simp] theorem exec_vbcLn (h d a b s) : exec (.vbcLn h d a b) s = execVbcLn h d a b s := rfl
@[simp] theorem exec_vperm (h d a b c s) : exec (.vperm h d a b c) s = execVperm h d a b c s := rfl
@[simp] theorem exec_vnzscan (h f32 d a b s) : exec (.vnzscan h f32 d a b) s = execVnzscan h f32 d a b s := rfl
@[simp] theorem exec_vnzscanCnt (h f32 d a s) : exec (.vnzscanCnt h f32 d a) s = execVnzscanCnt h f32 d a s := rfl
@[simp] theorem exec_vnzscanMsk (h f32 d a s) : exec (.vnzscanMsk h f32 d a) s = execVnzscanMsk h f32 d a s := rfl
@[simp] theorem exec_vmerge (h d a b c s) : exec (.vmerge h d a b c) s = execVmerge h d a b c s := rfl
@[simp] theorem exec_vscan (h op ex d a s) : exec (.vscan h op ex d a) s = execVscan h op ex d a s := rfl
@[simp] theorem exec_dadd (h keep c a b s) : exec (.dadd h keep c a b) s = execDadd h keep c a b s := rfl
@[simp] theorem exec_dsub (h keep c a b s) : exec (.dsub h keep c a b) s = execDsub h keep c a b s := rfl
@[simp] theorem exec_dmulc (h keep c a k s) : exec (.dmulc h keep c a k) s = execDmulc h keep c a k s := rfl
@[simp] theorem exec_dlt (h keep a b s) : exec (.dlt h keep a b) s = execDlt h keep a b s := rfl
@[simp] theorem exec_dle (h keep a b s) : exec (.dle h keep a b) s = execDle h keep a b s := rfl
@[simp] theorem exec_deq (h keep a b s) : exec (.deq h keep a b) s = execDeq h keep a b s := rfl
@[simp] theorem exec_dne (h keep a b s) : exec (.dne h keep a b) s = execDne h keep a b s := rfl
@[simp] theorem exec_dint (h a lo hi s) : exec (.dint h a lo hi) s = execDint h a lo hi s := rfl
@[simp] theorem exec_dexcl (h a v s) : exec (.dexcl h a v) s = execDexcl h a v s := rfl
@[simp] theorem exec_dfix (h a v s) : exec (.dfix h a v) s = execDfix h a v s := rfl
@[simp] theorem exec_delem (h keep a i' t s) : exec (.delem h keep a i' t) s = execDelem h keep a i' t s := rfl
@[simp] theorem exec_dlo (h d a s) : exec (.dlo h d a) s = execDlo h d a s := rfl
@[simp] theorem exec_dhi (h d a s) : exec (.dhi h d a) s = execDhi h d a s := rfl
@[simp] theorem exec_dsize (h d a s) : exec (.dsize h d a) s = execDsize h d a s := rfl
@[simp] theorem exec_dget (h d a w s) : exec (.dget h d a w) s = execDget h d a w s := rfl
@[simp] theorem exec_dtestIn (h p a v s) : exec (.dtestIn h p a v) s = execDtestIn h p a v s := rfl
@[simp] theorem exec_dtestOne (h p a s) : exec (.dtestOne h p a) s = execDtestOne h p a s := rfl
@[simp] theorem exec_dpick (h d a s) : exec (.dpick h d a) s = execDpick h d a s := rfl
@[simp] theorem exec_dset (h a lo hi s) : exec (.dset h a lo hi) s = execDset h a lo hi s := rfl
@[simp] theorem exec_dsetw (h a lo w0 w1 s) : exec (.dsetw h a lo w0 w1) s = execDsetw h a lo w0 w1 s := rfl
@[simp] theorem exec_dprop (h s) : exec (.dprop h) s = execDprop h s := rfl
@[simp] theorem exec_dsave (h s) : exec (.dsave h) s = execDsave h s := rfl
@[simp] theorem exec_drest (h s) : exec (.drest h) s = execDrest h s := rfl
@[simp] theorem exec_ddrop (h s) : exec (.ddrop h) s = execDdrop h s := rfl
@[simp] theorem exec_dclr (h s) : exec (.dclr h) s = execDclr h s := rfl
@[simp] theorem exec_xBr (h disp s) : exec (.xBr h disp) s = execXBr h disp s := rfl
@[simp] theorem exec_xJr (h a s) : exec (.xJr h a) s = execXJr h a s := rfl
@[simp] theorem exec_xCall (h d disp s) : exec (.xCall h d disp) s = execXCall h d disp s := rfl
@[simp] theorem exec_xRet (h a s) : exec (.xRet h a) s = execXRet h a s := rfl
@[simp] theorem exec_brq (h disp s) : exec (.brq h disp) s = execBrq h disp s := rfl
@[simp] theorem exec_brqN (h disp s) : exec (.brqN h disp) s = execBrqN h disp s := rfl
@[simp] theorem exec_xLoop (h l a disp s) : exec (.xLoop h l a disp) s = execXLoop h l a disp s := rfl
@[simp] theorem exec_join (h b m s) : exec (.join h b m) s = execJoin h b m s := rfl
@[simp] theorem exec_ccset (h b s) : exec (.ccset h b) s = execCcset h b s := rfl
@[simp] theorem exec_ccclr (h b s) : exec (.ccclr h b) s = execCcclr h b s := rfl
@[simp] theorem exec_xPause (h n s) : exec (.xPause h n) s = execXPause h n s := rfl
@[simp] theorem exec_xFin (h s) : exec (.xFin h) s = execXFin h s := rfl
@[simp] theorem exec_xLd (h cls ty d a b s) : exec (.xLd h cls ty d a b) s = execXLd h cls ty d a b s := rfl
@[simp] theorem exec_xSt (h cls ty a b c s) : exec (.xSt h cls ty a b c) s = execXSt h cls ty a b c s := rfl
@[simp] theorem exec_vld (h cls d a b s) : exec (.vld h cls d a b) s = execVld h cls d a b s := rfl
@[simp] theorem exec_vst (h cls a b c s) : exec (.vst h cls a b c) s = execVst h cls a b c s := rfl
@[simp] theorem exec_vldx (h cls d a b s) : exec (.vldx h cls d a b) s = execVldx h cls d a b s := rfl
@[simp] theorem exec_vstx (h cls a b c s) : exec (.vstx h cls a b c) s = execVstx h cls a b c s := rfl
@[simp] theorem exec_ldacq (h cls d a b s) : exec (.ldacq h cls d a b) s = execLdacq h cls d a b s := rfl
@[simp] theorem exec_accrd (h d acc row cnt s) : exec (.accrd h d acc row cnt) s = execAccrd h d acc row cnt s := rfl
@[simp] theorem exec_xFence (h k sc s) : exec (.xFence h k sc) s = execXFence h k sc s := rfl
@[simp] theorem exec_xTrap (h n s) : exec (.xTrap h n) s = execXTrap h n s := rfl
@[simp] theorem exec_eret (h s) : exec (.eret h) s = execEret h s := rfl
@[simp] theorem exec_xSysr (h d cr s) : exec (.xSysr h d cr) s = execXSysr h d cr s := rfl
@[simp] theorem exec_xSysw (h a cr s) : exec (.xSysw h a cr) s = execXSysw h a cr s := rfl
@[simp] theorem exec_halt (h s) : exec (.halt h) s = execHalt h s := rfl
@[simp] theorem exec_dbgstop (h n s) : exec (.dbgstop h n) s = execDbgstop h n s := rfl
@[simp] theorem exec_yield (h s) : exec (.yield h) s = execYield h s := rfl
@[simp] theorem exec_aAdd (h d a b s) : exec (.aAdd h d a b) s = execAAdd h d a b s := rfl
@[simp] theorem exec_aSub (h d a b s) : exec (.aSub h d a b) s = execASub h d a b s := rfl
@[simp] theorem exec_aAnd (h d a b s) : exec (.aAnd h d a b) s = execAAnd h d a b s := rfl
@[simp] theorem exec_aOr (h d a b s) : exec (.aOr h d a b) s = execAOr h d a b s := rfl
@[simp] theorem exec_aXor (h d a b s) : exec (.aXor h d a b) s = execAXor h d a b s := rfl
@[simp] theorem exec_aShl (h d a b s) : exec (.aShl h d a b) s = execAShl h d a b s := rfl
@[simp] theorem exec_aShr (h d a b s) : exec (.aShr h d a b) s = execAShr h d a b s := rfl
@[simp] theorem exec_aSra (h d a b s) : exec (.aSra h d a b) s = execASra h d a b s := rfl
@[simp] theorem exec_aMul (h d a b s) : exec (.aMul h d a b) s = execAMul h d a b s := rfl
@[simp] theorem exec_aMin (h uns d a b s) : exec (.aMin h uns d a b) s = execAMin h uns d a b s := rfl
@[simp] theorem exec_aMax (h uns d a b s) : exec (.aMax h uns d a b) s = execAMax h uns d a b s := rfl
@[simp] theorem exec_aBfx (h sx w d a p s) : exec (.aBfx h sx w d a p) s = execABfx h sx w d a p s := rfl
@[simp] theorem exec_aAddi (h d a i' s) : exec (.aAddi h d a i') s = execAAddi h d a i' s := rfl
@[simp] theorem exec_aAndi (h d a i' s) : exec (.aAndi h d a i') s = execAAndi h d a i' s := rfl
@[simp] theorem exec_aLi (h d i' s) : exec (.aLi h d i') s = execALi h d i' s := rfl
@[simp] theorem exec_aLih (h d a i' k s) : exec (.aLih h d a i' k) s = execALih h d a i' k s := rfl
@[simp] theorem exec_aLd (h cls sp ty d a i' off s) : exec (.aLd h cls sp ty d a i' off) s = execALd h cls sp ty d a i' off s := rfl
@[simp] theorem exec_aSt (h cls sp ty d a i' off s) : exec (.aSt h cls sp ty d a i' off) s = execASt h cls sp ty d a i' off s := rfl
@[simp] theorem exec_lda (h cls sc ty d a i' off s) : exec (.lda h cls sc ty d a i' off) s = execLda h cls sc ty d a i' off s := rfl
@[simp] theorem exec_stl (h cls sc ty d a i' off s) : exec (.stl h cls sc ty d a i' off) s = execStl h cls sc ty d a i' off s := rfl
@[simp] theorem exec_ldq (h cls sp q a i' off s) : exec (.ldq h cls sp q a i' off) s = execLdq h cls sp q a i' off s := rfl
@[simp] theorem exec_ldd (h cls sp q hs c s) : exec (.ldd h cls sp q hs c) s = execLdd h cls sp q hs c s := rfl
@[simp] theorem exec_stz (h cls sp q hs c s) : exec (.stz h cls sp q hs c) s = execStz h cls sp q hs c s := rfl
@[simp] theorem exec_aswap (h cls w64 sem d a v s) : exec (.aswap h cls w64 sem d a v) s = execAswap h cls w64 sem d a v s := rfl
@[simp] theorem exec_acas (h cls w64 sem d a v s) : exec (.acas h cls w64 sem d a v) s = execAcas h cls w64 sem d a v s := rfl
@[simp] theorem exec_aadd (h cls w64 sem d a v s) : exec (.aadd h cls w64 sem d a v) s = execAadd h cls w64 sem d a v s := rfl
@[simp] theorem exec_aand (h cls w64 sem d a v s) : exec (.aand h cls w64 sem d a v) s = execAand h cls w64 sem d a v s := rfl
@[simp] theorem exec_aor (h cls w64 sem d a v s) : exec (.aor h cls w64 sem d a v) s = execAor h cls w64 sem d a v s := rfl
@[simp] theorem exec_axor (h cls w64 sem d a v s) : exec (.axor h cls w64 sem d a v) s = execAxor h cls w64 sem d a v s := rfl
@[simp] theorem exec_amin (h cls w64 sem d a v s) : exec (.amin h cls w64 sem d a v) s = execAmin h cls w64 sem d a v s := rfl
@[simp] theorem exec_amax (h cls w64 sem d a v s) : exec (.amax h cls w64 sem d a v) s = execAmax h cls w64 sem d a v s := rfl
@[simp] theorem exec_aminu (h cls w64 sem d a v s) : exec (.aminu h cls w64 sem d a v) s = execAminu h cls w64 sem d a v s := rfl
@[simp] theorem exec_amaxu (h cls w64 sem d a v s) : exec (.amaxu h cls w64 sem d a v) s = execAmaxu h cls w64 sem d a v s := rfl
@[simp] theorem exec_redadd (h cls w64 rel a v s) : exec (.redadd h cls w64 rel a v) s = execRedadd h cls w64 rel a v s := rfl
@[simp] theorem exec_redmin (h cls w64 uns rel a v s) : exec (.redmin h cls w64 uns rel a v) s =
    execRedmin h cls w64 uns rel a v s := rfl
@[simp] theorem exec_redmax (h cls w64 uns rel a v s) : exec (.redmax h cls w64 uns rel a v) s =
    execRedmax h cls w64 uns rel a v s := rfl
@[simp] theorem exec_redand (h cls w64 rel a v s) : exec (.redand h cls w64 rel a v) s = execRedand h cls w64 rel a v s := rfl
@[simp] theorem exec_redor (h cls w64 rel a v s) : exec (.redor h cls w64 rel a v) s = execRedor h cls w64 rel a v s := rfl
@[simp] theorem exec_redxor (h cls w64 rel a v s) : exec (.redxor h cls w64 rel a v) s = execRedxor h cls w64 rel a v s := rfl
@[simp] theorem exec_redfaddO (h cls rel a v s) : exec (.redfaddO h cls rel a v) s = execRedfaddO h cls rel a v s := rfl
@[simp] theorem exec_redfaddU (h cls rel a v s) : exec (.redfaddU h cls rel a v) s = execRedfaddU h cls rel a v s := rfl
@[simp] theorem exec_redfmin (h cls rel a v s) : exec (.redfmin h cls rel a v) s = execRedfmin h cls rel a v s := rfl
@[simp] theorem exec_redfmax (h cls rel a v s) : exec (.redfmax h cls rel a v) s = execRedfmax h cls rel a v s := rfl
@[simp] theorem exec_rgcfg (h r c s) : exec (.rgcfg h r c) s = execRgcfg h r c s := rfl
@[simp] theorem exec_rgwfree (h d r n s) : exec (.rgwfree h d r n) s = execRgwfree h d r n s := rfl
@[simp] theorem exec_rgwfill (h d r n s) : exec (.rgwfill h d r n) s = execRgwfill h d r n s := rfl
@[simp] theorem exec_rgput (h r n s) : exec (.rgput h r n) s = execRgput h r n s := rfl
@[simp] theorem exec_rgtake (h r n s) : exec (.rgtake h r n) s = execRgtake h r n s := rfl
@[simp] theorem exec_rgrel (h r n s) : exec (.rgrel h r n) s = execRgrel h r n s := rfl
@[simp] theorem exec_rgrot (h s' t s) : exec (.rgrot h s' t) s = execRgrot h s' t s := rfl
@[simp] theorem exec_give (h t n s) : exec (.give h t n) s = execGive h t n s := rfl
@[simp] theorem exec_take (h t n s) : exec (.take h t n) s = execTake h t n s := rfl
@[simp] theorem exec_beq (h mode a b disp s) : exec (.beq h mode a b disp) s = execBeq h mode a b disp s := rfl
@[simp] theorem exec_bne (h mode a b disp s) : exec (.bne h mode a b disp) s = execBne h mode a b disp s := rfl
@[simp] theorem exec_blt (h mode a b disp s) : exec (.blt h mode a b disp) s = execBlt h mode a b disp s := rfl
@[simp] theorem exec_bge (h mode a b disp s) : exec (.bge h mode a b disp) s = execBge h mode a b disp s := rfl
@[simp] theorem exec_bltu (h mode a b disp s) : exec (.bltu h mode a b disp) s = execBltu h mode a b disp s := rfl
@[simp] theorem exec_bgeu (h mode a b disp s) : exec (.bgeu h mode a b disp) s = execBgeu h mode a b disp s := rfl
@[simp] theorem exec_jmp (h disp s) : exec (.jmp h disp) s = execJmp h disp s := rfl
@[simp] theorem exec_aJr (h a s) : exec (.aJr h a) s = execAJr h a s := rfl
@[simp] theorem exec_aCall (h d disp s) : exec (.aCall h d disp) s = execACall h d disp s := rfl
@[simp] theorem exec_aRet (h a s) : exec (.aRet h a) s = execARet h a s := rfl
@[simp] theorem exec_aLoop (h l a disp s) : exec (.aLoop h l a disp) s = execALoop h l a disp s := rfl
@[simp] theorem exec_aPause (h n s) : exec (.aPause h n) s = execAPause h n s := rfl
@[simp] theorem exec_fenceAcq (h sc s) : exec (.fenceAcq h sc) s = execFenceAcq h sc s := rfl
@[simp] theorem exec_fenceRel (h sc s) : exec (.fenceRel h sc) s = execFenceRel h sc s := rfl
@[simp] theorem exec_fenceSc (h sc s) : exec (.fenceSc h sc) s = execFenceSc h sc s := rfl
@[simp] theorem exec_colarrRlx (h b s) : exec (.colarrRlx h b) s = execColarrRlx h b s := rfl
@[simp] theorem exec_colarrRel (h b s) : exec (.colarrRel h b) s = execColarrRel h b s := rfl
@[simp] theorem exec_colwait (h b s) : exec (.colwait h b) s = execColwait h b s := rfl
@[simp] theorem exec_colsync (h b s) : exec (.colsync h b) s = execColsync h b s := rfl
@[simp] theorem exec_barc (h d a e s) : exec (.barc h d a e) s = execBarc h d a e s := rfl
@[simp] theorem exec_aSysr (h d cr s) : exec (.aSysr h d cr) s = execASysr h d cr s := rfl
@[simp] theorem exec_aSysw (h a cr s) : exec (.aSysw h a cr) s = execASysw h a cr s := rfl
@[simp] theorem exec_aTrap (h n s) : exec (.aTrap h n) s = execATrap h n s := rfl
@[simp] theorem exec_tlbinv (h v l s) : exec (.tlbinv h v l) s = execTlbinv h v l s := rfl
@[simp] theorem exec_ctxsw (h b s) : exec (.ctxsw h b) s = execCtxsw h b s := rfl
@[simp] theorem exec_ctxbank (h s' v s) : exec (.ctxbank h s' v) s = execCtxbank h s' v s := rfl
@[simp] theorem exec_lnch (h d r q s) : exec (.lnch h d r q) s = execLnch h d r q s := rfl
@[simp] theorem exec_lcancel (h d i' s) : exec (.lcancel h d i') s = execLcancel h d i' s := rfl
@[simp] theorem exec_lcancelUnit (h d i' u s) : exec (.lcancelUnit h d i' u) s = execLcancelUnit h d i' u s := rfl
@[simp] theorem exec_lwait (h d i' s) : exec (.lwait h d i') s = execLwait h d i' s := rfl
@[simp] theorem exec_evset (h b c s) : exec (.evset h b c) s = execEvset h b c s := rfl
@[simp] theorem exec_evclr (h b c s) : exec (.evclr h b c) s = execEvclr h b c s := rfl
@[simp] theorem exec_evtest (h d b c s) : exec (.evtest h d b c) s = execEvtest h d b c s := rfl
@[simp] theorem exec_hld (h cls r a off s) : exec (.hld h cls r a off) s = execHld h cls r a off s := rfl
@[simp] theorem exec_hst (h cls r a off s) : exec (.hst h cls r a off) s = execHst h cls r a off s := rfl
@[simp] theorem exec_hview (h d s' k s) : exec (.hview h d s' k) s = execHview h d s' k s := rfl
@[simp] theorem exec_htrans (h d s' s) : exec (.htrans h d s') s = execHtrans h d s' s := rfl
@[simp] theorem exec_hshape (h d s' k s) : exec (.hshape h d s' k) s = execHshape h d s' k s := rfl
@[simp] theorem exec_cpy (h ss ds rp d s' s) : exec (.cpy h ss ds rp d s') s = execCpy h ss ds rp d s' s := rfl
@[simp] theorem exec_cpg (h ss ds rp d s' l s) : exec (.cpg h ss ds rp d s' l) s = execCpg h ss ds rp d s' l s := rfl
@[simp] theorem exec_cps (h ss ds rp d s' l s) : exec (.cps h ss ds rp d s' l) s = execCps h ss ds rp d s' l s := rfl
@[simp] theorem exec_cpq (h ss ds rp d s' s) : exec (.cpq h ss ds rp d s') s = execCpq h ss ds rp d s' s := rfl
@[simp] theorem exec_cpm (h o a b s) : exec (.cpm h o a b) s = execCpm h o a b s := rfl
@[simp] theorem exec_mnop (h s) : exec (.mnop h) s = execMnop h s := rfl
@[simp] theorem exec_mlease (h s) : exec (.mlease h) s = execMlease h s := rfl
@[simp] theorem exec_mfree (h s) : exec (.mfree h) s = execMfree h s := rfl
@[simp] theorem exec_mfin (h s) : exec (.mfin h) s = execMfin h s := rfl
@[simp] theorem exec_mmul (h t c ra rb acc ks fa fb bm nm ka kb wl i32 s) : exec (.mmul h t c ra rb acc ks fa fb bm nm ka kb wl i32) s =
    execMmul h t c ra rb acc ks fa fb bm nm ka kb wl i32 s := rfl
@[simp] theorem exec_mwload (h rb fb kb s) : exec (.mwload h rb fb kb) s = execMwload h rb fb kb s := rfl
@[simp] theorem exec_mwloadnm (h rb fb kb s) : exec (.mwloadnm h rb fb kb) s = execMwloadnm h rb fb kb s := rfl
@[simp] theorem exec_mdrain (h t c q ro acc f ko s) : exec (.mdrain h t c q ro acc f ko) s = execMdrain h t c q ro acc f ko s := rfl
@[simp] theorem exec_mzero (h acc i32 s) : exec (.mzero h acc i32) s = execMzero h acc i32 s := rfl
@[simp] theorem exec_msnap (h ro acc kd s) : exec (.msnap h ro acc kd) s = execMsnap h ro acc kd s := rfl
@[simp] theorem exec_mpred (h ra rb fa fb kd kt s) : exec (.mpred h ra rb fa fb kd kt) s = execMpred h ra rb fa fb kd kt s := rfl
@[simp] theorem exec_mscan (h ro km kb s) : exec (.mscan h ro km kb) s = execMscan h ro km kb s := rfl
@[simp] theorem exec_mkli (h kd i' s) : exec (.mkli h kd i') s = execMkli h kd i' s := rfl
@[simp] theorem exec_mkadd (h kd ks i' s) : exec (.mkadd h kd ks i') s = execMkadd h kd ks i' s := rfl
@[simp] theorem exec_mloop (h l n disp s) : exec (.mloop h l n disp) s = execMloop h l n disp s := rfl
@[simp] theorem exec_mbnz (h kn disp s) : exec (.mbnz h kn disp) s = execMbnz h kn disp s := rfl
@[simp] theorem exec_aFin (s) : exec .aFin s = execAFin s := rfl
@[simp] theorem exec_seal (s) : exec .seal s = execSeal s := rfl
@[simp] theorem exec_xResultLanding (s) : exec .xResultLanding s = execXResultLanding s := rfl
@[simp] theorem exec_tokenPoppable (s) : exec .tokenPoppable s = execTokenPoppable s := rfl
@[simp] theorem exec_queueEntryPoppable (s) : exec .queueEntryPoppable s = execQueueEntryPoppable s := rfl
@[simp] theorem exec_aWordRetire (s) : exec .aWordRetire s = execAWordRetire s := rfl
@[simp] theorem exec_stampOverrun (s) : exec .stampOverrun s = execStampOverrun s := rfl
@[simp] theorem exec_waitBound (s) : exec .waitBound s = execWaitBound s := rfl
@[simp] theorem exec_handlerStart (s) : exec .handlerStart s = execHandlerStart s := rfl
@[simp] theorem exec_boundaryCauseDelivery (s) : exec .boundaryCauseDelivery s = execBoundaryCauseDelivery s := rfl
@[simp] theorem exec_copyFault (s) : exec .copyFault s = execCopyFault s := rfl
@[simp] theorem exec_oredFull (s) : exec .oredFull s = execOredFull s := rfl
@[simp] theorem exec_propagationRun (s) : exec .propagationRun s = execPropagationRun s := rfl
@[simp] theorem exec_globalAccessAtOwner (s) : exec .globalAccessAtOwner s = execGlobalAccessAtOwner s := rfl
@[simp] theorem exec_pageTableWalk (s) : exec .pageTableWalk s = execPageTableWalk s := rfl
@[simp] theorem exec_pageFaultFreeze (s) : exec .pageFaultFreeze s = execPageFaultFreeze s := rfl
@[simp] theorem exec_faultBatchTimer (s) : exec .faultBatchTimer s = execFaultBatchTimer s := rfl
@[simp] theorem exec_faultBatchCount (s) : exec .faultBatchCount s = execFaultBatchCount s := rfl
@[simp] theorem exec_faultAnswer (s) : exec .faultAnswer s = execFaultAnswer s := rfl
@[simp] theorem exec_priGroupResponse (s) : exec .priGroupResponse s = execPriGroupResponse s := rfl
@[simp] theorem exec_priResponseFailure (s) : exec .priResponseFailure s = execPriResponseFailure s := rfl
@[simp] theorem exec_replayListResend (s) : exec .replayListResend s = execReplayListResend s := rfl
@[simp] theorem exec_invalidationComplete (s) : exec .invalidationComplete s = execInvalidationComplete s := rfl
@[simp] theorem exec_atsInvalidation (s) : exec .atsInvalidation s = execAtsInvalidation s := rfl
@[simp] theorem exec_inboundHostWrite (s) : exec .inboundHostWrite s = execInboundHostWrite s := rfl
@[simp] theorem exec_inboundHostRead (s) : exec .inboundHostRead s = execInboundHostRead s := rfl
@[simp] theorem exec_rgrotExchange (s) : exec .rgrotExchange s = execRgrotExchange s := rfl
@[simp] theorem exec_rgrotExchangeEnd (s) : exec .rgrotExchangeEnd s = execRgrotExchangeEnd s := rfl
@[simp] theorem exec_copyChannelStart (s) : exec .copyChannelStart s = execCopyChannelStart s := rfl
@[simp] theorem exec_copyRowCommit (s) : exec .copyRowCommit s = execCopyRowCommit s := rfl
@[simp] theorem exec_copyCommandComplete (s) : exec .copyCommandComplete s = execCopyCommandComplete s := rfl
@[simp] theorem exec_leaseGrant (s) : exec .leaseGrant s = execLeaseGrant s := rfl
@[simp] theorem exec_leaseEndCycles (s) : exec .leaseEndCycles s = execLeaseEndCycles s := rfl
@[simp] theorem exec_leaseEndCommands (s) : exec .leaseEndCommands s = execLeaseEndCommands s := rfl
@[simp] theorem exec_arrayCommandStart (s) : exec .arrayCommandStart s = execArrayCommandStart s := rfl
@[simp] theorem exec_arraySlotFetch (s) : exec .arraySlotFetch s = execArraySlotFetch s := rfl
@[simp] theorem exec_kStepStart (s) : exec .kStepStart s = execKStepStart s := rfl
@[simp] theorem exec_kStepLanding (s) : exec .kStepLanding s = execKStepLanding s := rfl
@[simp] theorem exec_arrayCommandRetire (s) : exec .arrayCommandRetire s = execArrayCommandRetire s := rfl
@[simp] theorem exec_drainStart (s) : exec .drainStart s = execDrainStart s := rfl
@[simp] theorem exec_drainWrite (s) : exec .drainWrite s = execDrainWrite s := rfl
@[simp] theorem exec_mzeroEffect (s) : exec .mzeroEffect s = execMzeroEffect s := rfl
@[simp] theorem exec_msnapWrite (s) : exec .msnapWrite s = execMsnapWrite s := rfl
@[simp] theorem exec_mpredResult (s) : exec .mpredResult s = execMpredResult s := rfl
@[simp] theorem exec_mscanWrite (s) : exec .mscanWrite s = execMscanWrite s := rfl
@[simp] theorem exec_arrayReplay (s) : exec .arrayReplay s = execArrayReplay s := rfl
@[simp] theorem exec_queueDoorbell (s) : exec .queueDoorbell s = execQueueDoorbell s := rfl
@[simp] theorem exec_queueHeadCheck (s) : exec .queueHeadCheck s = execQueueHeadCheck s := rfl
@[simp] theorem exec_entryDispatch (s) : exec .entryDispatch s = execEntryDispatch s := rfl
@[simp] theorem exec_unitDispatch (s) : exec .unitDispatch s = execUnitDispatch s := rfl
@[simp] theorem exec_unitStart (s) : exec .unitStart s = execUnitStart s := rfl
@[simp] theorem exec_unitCompletion (s) : exec .unitCompletion s = execUnitCompletion s := rfl
@[simp] theorem exec_hostNodeDoorbell (s) : exec .hostNodeDoorbell s = execHostNodeDoorbell s := rfl
@[simp] theorem exec_completionRecord (s) : exec .completionRecord s = execCompletionRecord s := rfl
@[simp] theorem exec_cancelStop (s) : exec .cancelStop s = execCancelStop s := rfl
@[simp] theorem exec_preemption (s) : exec .preemption s = execPreemption s := rfl
@[simp] theorem exec_phaseClose (s) : exec .phaseClose s = execPhaseClose s := rfl
@[simp] theorem exec_sealInputRise (s) : exec .sealInputRise s = execSealInputRise s := rfl
@[simp] theorem exec_sealLineFire (s) : exec .sealLineFire s = execSealLineFire s := rfl
@[simp] theorem exec_sealLineArrival (s) : exec .sealLineArrival s = execSealLineArrival s := rfl
@[simp] theorem exec_phaseOpen (s) : exec .phaseOpen s = execPhaseOpen s := rfl
@[simp] theorem exec_jobCompletion (s) : exec .jobCompletion s = execJobCompletion s := rfl
@[simp] theorem exec_closePhase (s) : exec .closePhase s = execClosePhase s := rfl
@[simp] theorem exec_endJob (s) : exec .endJob s = execEndJob s := rfl
@[simp] theorem exec_hostStop (s) : exec .hostStop s = execHostStop s := rfl
@[simp] theorem exec_hostResume (s) : exec .hostResume s = execHostResume s := rfl
@[simp] theorem exec_queueReset (s) : exec .queueReset s = execQueueReset s := rfl
@[simp] theorem exec_resetTruncatedTrace (s) : exec .resetTruncatedTrace s = execResetTruncatedTrace s := rfl
@[simp] theorem exec_partitionSwap (s) : exec .partitionSwap s = execPartitionSwap s := rfl
@[simp] theorem exec_bankSwitchTslice (s) : exec .bankSwitchTslice s = execBankSwitchTslice s := rfl
@[simp] theorem exec_colInputRise (s) : exec .colInputRise s = execColInputRise s := rfl
@[simp] theorem exec_colReleaseFire (s) : exec .colReleaseFire s = execColReleaseFire s := rfl
@[simp] theorem exec_colReleaseArrival (s) : exec .colReleaseArrival s = execColReleaseArrival s := rfl
@[simp] theorem exec_evsetEffect (s) : exec .evsetEffect s = execEvsetEffect s := rfl
@[simp] theorem exec_evclrEffect (s) : exec .evclrEffect s = execEvclrEffect s := rfl
@[simp] theorem exec_intervalRollback (s) : exec .intervalRollback s = execIntervalRollback s := rfl
@[simp] theorem exec_phaseRestart (s) : exec .phaseRestart s = execPhaseRestart s := rfl
@[simp] theorem exec_undoTimeout (s) : exec .undoTimeout s = execUndoTimeout s := rfl
@[simp] theorem exec_holdTimeout (s) : exec .holdTimeout s = execHoldTimeout s := rfl
@[simp] theorem exec_lineTagSweep (s) : exec .lineTagSweep s = execLineTagSweep s := rfl
@[simp] theorem exec_testPassComplete (s) : exec .testPassComplete s = execTestPassComplete s := rfl
@[simp] theorem exec_dvreqWrite (s) : exec .dvreqWrite s = execDvreqWrite s := rfl
@[simp] theorem exec_voltageRampEnd (s) : exec .voltageRampEnd s = execVoltageRampEnd s := rfl
@[simp] theorem exec_pllRelockEnd (s) : exec .pllRelockEnd s = execPllRelockEnd s := rfl
@[simp] theorem exec_dvfsSample (s) : exec .dvfsSample s = execDvfsSample s := rfl
@[simp] theorem exec_coolantShortfall (s) : exec .coolantShortfall s = execCoolantShortfall s := rfl
@[simp] theorem exec_mailboxPart (s) : exec .mailboxPart s = execMailboxPart s := rfl
@[simp] theorem exec_mailboxBind (s) : exec .mailboxBind s = execMailboxBind s := rfl
@[simp] theorem exec_mailboxOvfext (s) : exec .mailboxOvfext s = execMailboxOvfext s := rfl
@[simp] theorem exec_mailboxDvreq (s) : exec .mailboxDvreq s = execMailboxDvreq s := rfl
@[simp] theorem exec_mailboxVmin (s) : exec .mailboxVmin s = execMailboxVmin s := rfl
@[simp] theorem exec_mailboxPwrlim (s) : exec .mailboxPwrlim s = execMailboxPwrlim s := rfl
@[simp] theorem exec_mailboxStage (s) : exec .mailboxStage s = execMailboxStage s := rfl
@[simp] theorem exec_mailboxAttest (s) : exec .mailboxAttest s = execMailboxAttest s := rfl
@[simp] theorem exec_mailboxColspan (s) : exec .mailboxColspan s = execMailboxColspan s := rfl
@[simp] theorem exec_mailboxRetry (s) : exec .mailboxRetry s = execMailboxRetry s := rfl
@[simp] theorem exec_mailboxTlbinv (s) : exec .mailboxTlbinv s = execMailboxTlbinv s := rfl
@[simp] theorem exec_deviceResetStart (s) : exec .deviceResetStart s = execDeviceResetStart s := rfl
@[simp] theorem exec_bootctlGo (s) : exec .bootctlGo s = execBootctlGo s := rfl
@[simp] theorem exec_goTimeout (s) : exec .goTimeout s = execGoTimeout s := rfl
@[simp] theorem exec_firmwareEventAck (s) : exec .firmwareEventAck s = execFirmwareEventAck s := rfl
@[simp] theorem exec_spanReadRequest (s) : exec .spanReadRequest s = execSpanReadRequest s := rfl
@[simp] theorem exec_spanWrite (s) : exec .spanWrite s = execSpanWrite s := rfl
@[simp] theorem exec_spanReadCompletion (s) : exec .spanReadCompletion s = execSpanReadCompletion s := rfl
@[simp] theorem exec_spanAtomic (s) : exec .spanAtomic s = execSpanAtomic s := rfl
@[simp] theorem exec_spanCol (s) : exec .spanCol s = execSpanCol s := rfl
@[simp] theorem exec_spanSeal (s) : exec .spanSeal s = execSpanSeal s := rfl
@[simp] theorem exec_spanCredit (s) : exec .spanCredit s = execSpanCredit s := rfl
@[simp] theorem exec_spanFaultReply (s) : exec .spanFaultReply s = execSpanFaultReply s := rfl
@[simp] theorem exec_spanPortFail (s) : exec .spanPortFail s = execSpanPortFail s := rfl
@[simp] theorem exec_breakpoint (s) : exec .breakpoint s = execBreakpoint s := rfl
@[simp] theorem exec_headSample (s) : exec .headSample s = execHeadSample s := rfl
@[simp] theorem exec_recordedInputInject (s) : exec .recordedInputInject s = execRecordedInputInject s := rfl
@[simp] theorem exec_lcWrite (s) : exec .lcWrite s = execLcWrite s := rfl
@[simp] theorem exec_sfcloRead (s) : exec .sfcloRead s = execSfcloRead s := rfl
@[simp] theorem exec_colerrWrite (s) : exec .colerrWrite s = execColerrWrite s := rfl
@[simp] theorem exec_accliveWrite (s) : exec .accliveWrite s = execAccliveWrite s := rfl
@[simp] theorem exec_fltctlWrite (s) : exec .fltctlWrite s = execFltctlWrite s := rfl
@[simp] theorem exec_dbgctlPclr (s) : exec .dbgctlPclr s = execDbgctlPclr s := rfl
@[simp] theorem exec_trcctlWrite (s) : exec .trcctlWrite s = execTrcctlWrite s := rfl
@[simp] theorem exec_replayctlWrite (s) : exec .replayctlWrite s = execReplayctlWrite s := rfl
@[simp] theorem exec_registerWrite (s) : exec .registerWrite s = execRegisterWrite s := rfl
@[simp] theorem exec_imageLoad (s) : exec .imageLoad s = execImageLoad s := rfl
@[simp] theorem exec_queueTableRegistration (s) : exec .queueTableRegistration s = execQueueTableRegistration s := rfl
@[simp] theorem exec_frqheadWrite (s) : exec .frqheadWrite s = execFrqheadWrite s := rfl
@[simp] theorem exec_shadowWritebackEnd (s) : exec .shadowWritebackEnd s = execShadowWritebackEnd s := rfl

end Sys2Proof.Machine
end

