-- ==== Sys2Proof/Laws/State.lean ====
section
/-! SUPPORT. Laws/State.lean: what each update of the state leaves in each field, and reading a place after an update of a
place. -/
namespace Sys2Proof.Machine
open Sys2Proof

variable (s : State)

/-! ### `State.setCore` -/

@[simp] theorem State.setCore_cycle (g : Fin 512) (c : Core) : (s.setCore g c).cycle = s.cycle := rfl
@[simp] theorem State.setCore_turn (g : Fin 512) (c : Core) : (s.setCore g c).turn = s.turn := rfl
@[simp] theorem State.setCore_agenda (g : Fin 512) (c : Core) : (s.setCore g c).agenda = s.agenda := rfl
@[simp] theorem State.setCore_ev (g : Fin 512) (c : Core) : (s.setCore g c).ev = s.ev := rfl
@[simp] theorem State.setCore_free (g : Fin 512) (c : Core) : (s.setCore g c).free = s.free := rfl
@[simp] theorem State.setCore_dev (g : Fin 512) (c : Core) : (s.setCore g c).dev = s.dev := rfl
@[simp] theorem State.setCore_parts (g : Fin 512) (c : Core) : (s.setCore g c).parts = s.parts := rfl
@[simp] theorem State.setCore_dies (g : Fin 512) (c : Core) : (s.setCore g c).dies = s.dies := rfl
@[simp] theorem State.setCore_clusters (g : Fin 512) (c : Core) : (s.setCore g c).clusters = s.clusters := rfl
@[simp] theorem State.setCore_hbm (g : Fin 512) (c : Core) : (s.setCore g c).hbm = s.hbm := rfl
@[simp] theorem State.setCore_host (g : Fin 512) (c : Core) : (s.setCore g c).host = s.host := rfl

/-! ### `State.modCore` -/

@[simp] theorem State.modCore_cycle (g : Fin 512) (f : Core → Core) : (s.modCore g f).cycle = s.cycle := rfl
@[simp] theorem State.modCore_turn (g : Fin 512) (f : Core → Core) : (s.modCore g f).turn = s.turn := rfl
@[simp] theorem State.modCore_agenda (g : Fin 512) (f : Core → Core) : (s.modCore g f).agenda = s.agenda := rfl
@[simp] theorem State.modCore_ev (g : Fin 512) (f : Core → Core) : (s.modCore g f).ev = s.ev := rfl
@[simp] theorem State.modCore_free (g : Fin 512) (f : Core → Core) : (s.modCore g f).free = s.free := rfl
@[simp] theorem State.modCore_dev (g : Fin 512) (f : Core → Core) : (s.modCore g f).dev = s.dev := rfl
@[simp] theorem State.modCore_parts (g : Fin 512) (f : Core → Core) : (s.modCore g f).parts = s.parts := rfl
@[simp] theorem State.modCore_dies (g : Fin 512) (f : Core → Core) : (s.modCore g f).dies = s.dies := rfl
@[simp] theorem State.modCore_clusters (g : Fin 512) (f : Core → Core) : (s.modCore g f).clusters = s.clusters := rfl
@[simp] theorem State.modCore_hbm (g : Fin 512) (f : Core → Core) : (s.modCore g f).hbm = s.hbm := rfl
@[simp] theorem State.modCore_host (g : Fin 512) (f : Core → Core) : (s.modCore g f).host = s.host := rfl

/-! ### `State.setBank` -/

@[simp] theorem State.setBank_cycle (g : Fin 512) (k : Fin 3) (b : Bank) : (s.setBank g k b).cycle = s.cycle := rfl
@[simp] theorem State.setBank_turn (g : Fin 512) (k : Fin 3) (b : Bank) : (s.setBank g k b).turn = s.turn := rfl
@[simp] theorem State.setBank_agenda (g : Fin 512) (k : Fin 3) (b : Bank) : (s.setBank g k b).agenda = s.agenda := rfl
@[simp] theorem State.setBank_ev (g : Fin 512) (k : Fin 3) (b : Bank) : (s.setBank g k b).ev = s.ev := rfl
@[simp] theorem State.setBank_free (g : Fin 512) (k : Fin 3) (b : Bank) : (s.setBank g k b).free = s.free := rfl
@[simp] theorem State.setBank_dev (g : Fin 512) (k : Fin 3) (b : Bank) : (s.setBank g k b).dev = s.dev := rfl
@[simp] theorem State.setBank_parts (g : Fin 512) (k : Fin 3) (b : Bank) : (s.setBank g k b).parts = s.parts := rfl
@[simp] theorem State.setBank_dies (g : Fin 512) (k : Fin 3) (b : Bank) : (s.setBank g k b).dies = s.dies := rfl
@[simp] theorem State.setBank_clusters (g : Fin 512) (k : Fin 3) (b : Bank) : (s.setBank g k b).clusters = s.clusters := rfl
@[simp] theorem State.setBank_hbm (g : Fin 512) (k : Fin 3) (b : Bank) : (s.setBank g k b).hbm = s.hbm := rfl
@[simp] theorem State.setBank_host (g : Fin 512) (k : Fin 3) (b : Bank) : (s.setBank g k b).host = s.host := rfl

/-! ### `State.modBank` -/

@[simp] theorem State.modBank_cycle (g : Fin 512) (k : Fin 3) (f : Bank → Bank) : (s.modBank g k f).cycle = s.cycle := rfl
@[simp] theorem State.modBank_turn (g : Fin 512) (k : Fin 3) (f : Bank → Bank) : (s.modBank g k f).turn = s.turn := rfl
@[simp] theorem State.modBank_agenda (g : Fin 512) (k : Fin 3) (f : Bank → Bank) : (s.modBank g k f).agenda = s.agenda := rfl
@[simp] theorem State.modBank_ev (g : Fin 512) (k : Fin 3) (f : Bank → Bank) : (s.modBank g k f).ev = s.ev := rfl
@[simp] theorem State.modBank_free (g : Fin 512) (k : Fin 3) (f : Bank → Bank) : (s.modBank g k f).free = s.free := rfl
@[simp] theorem State.modBank_dev (g : Fin 512) (k : Fin 3) (f : Bank → Bank) : (s.modBank g k f).dev = s.dev := rfl
@[simp] theorem State.modBank_parts (g : Fin 512) (k : Fin 3) (f : Bank → Bank) : (s.modBank g k f).parts = s.parts := rfl
@[simp] theorem State.modBank_dies (g : Fin 512) (k : Fin 3) (f : Bank → Bank) : (s.modBank g k f).dies = s.dies := rfl
@[simp] theorem State.modBank_clusters (g : Fin 512) (k : Fin 3) (f : Bank → Bank) : (s.modBank g k f).clusters = s.clusters := rfl
@[simp] theorem State.modBank_hbm (g : Fin 512) (k : Fin 3) (f : Bank → Bank) : (s.modBank g k f).hbm = s.hbm := rfl
@[simp] theorem State.modBank_host (g : Fin 512) (k : Fin 3) (f : Bank → Bank) : (s.modBank g k f).host = s.host := rfl

/-! ### `State.modTb` -/

@[simp] theorem State.modTb_cycle (f : Bank → Bank) : (s.modTb f).cycle = s.cycle := rfl
@[simp] theorem State.modTb_turn (f : Bank → Bank) : (s.modTb f).turn = s.turn := rfl
@[simp] theorem State.modTb_agenda (f : Bank → Bank) : (s.modTb f).agenda = s.agenda := rfl
@[simp] theorem State.modTb_ev (f : Bank → Bank) : (s.modTb f).ev = s.ev := rfl
@[simp] theorem State.modTb_free (f : Bank → Bank) : (s.modTb f).free = s.free := rfl
@[simp] theorem State.modTb_dev (f : Bank → Bank) : (s.modTb f).dev = s.dev := rfl
@[simp] theorem State.modTb_parts (f : Bank → Bank) : (s.modTb f).parts = s.parts := rfl
@[simp] theorem State.modTb_dies (f : Bank → Bank) : (s.modTb f).dies = s.dies := rfl
@[simp] theorem State.modTb_clusters (f : Bank → Bank) : (s.modTb f).clusters = s.clusters := rfl
@[simp] theorem State.modTb_hbm (f : Bank → Bank) : (s.modTb f).hbm = s.hbm := rfl
@[simp] theorem State.modTb_host (f : Bank → Bank) : (s.modTb f).host = s.host := rfl

/-! ### `State.modTc` -/

@[simp] theorem State.modTc_cycle (f : Column → Column) : (s.modTc f).cycle = s.cycle := rfl
@[simp] theorem State.modTc_turn (f : Column → Column) : (s.modTc f).turn = s.turn := rfl
@[simp] theorem State.modTc_agenda (f : Column → Column) : (s.modTc f).agenda = s.agenda := rfl
@[simp] theorem State.modTc_ev (f : Column → Column) : (s.modTc f).ev = s.ev := rfl
@[simp] theorem State.modTc_free (f : Column → Column) : (s.modTc f).free = s.free := rfl
@[simp] theorem State.modTc_dev (f : Column → Column) : (s.modTc f).dev = s.dev := rfl
@[simp] theorem State.modTc_parts (f : Column → Column) : (s.modTc f).parts = s.parts := rfl
@[simp] theorem State.modTc_dies (f : Column → Column) : (s.modTc f).dies = s.dies := rfl
@[simp] theorem State.modTc_clusters (f : Column → Column) : (s.modTc f).clusters = s.clusters := rfl
@[simp] theorem State.modTc_hbm (f : Column → Column) : (s.modTc f).hbm = s.hbm := rfl
@[simp] theorem State.modTc_host (f : Column → Column) : (s.modTc f).host = s.host := rfl

/-! ### `State.modCluster` -/

@[simp] theorem State.modCluster_cycle (c : Fin 64) (f : Cluster → Cluster) : (s.modCluster c f).cycle = s.cycle := rfl
@[simp] theorem State.modCluster_turn (c : Fin 64) (f : Cluster → Cluster) : (s.modCluster c f).turn = s.turn := rfl
@[simp] theorem State.modCluster_agenda (c : Fin 64) (f : Cluster → Cluster) : (s.modCluster c f).agenda = s.agenda := rfl
@[simp] theorem State.modCluster_ev (c : Fin 64) (f : Cluster → Cluster) : (s.modCluster c f).ev = s.ev := rfl
@[simp] theorem State.modCluster_free (c : Fin 64) (f : Cluster → Cluster) : (s.modCluster c f).free = s.free := rfl
@[simp] theorem State.modCluster_dev (c : Fin 64) (f : Cluster → Cluster) : (s.modCluster c f).dev = s.dev := rfl
@[simp] theorem State.modCluster_parts (c : Fin 64) (f : Cluster → Cluster) : (s.modCluster c f).parts = s.parts := rfl
@[simp] theorem State.modCluster_dies (c : Fin 64) (f : Cluster → Cluster) : (s.modCluster c f).dies = s.dies := rfl
@[simp] theorem State.modCluster_cores (c : Fin 64) (f : Cluster → Cluster) : (s.modCluster c f).cores = s.cores := rfl
@[simp] theorem State.modCluster_hbm (c : Fin 64) (f : Cluster → Cluster) : (s.modCluster c f).hbm = s.hbm := rfl
@[simp] theorem State.modCluster_host (c : Fin 64) (f : Cluster → Cluster) : (s.modCluster c f).host = s.host := rfl

/-! ### `State.modDie` -/

@[simp] theorem State.modDie_cycle (d : Fin 8) (f : Die → Die) : (s.modDie d f).cycle = s.cycle := rfl
@[simp] theorem State.modDie_turn (d : Fin 8) (f : Die → Die) : (s.modDie d f).turn = s.turn := rfl
@[simp] theorem State.modDie_agenda (d : Fin 8) (f : Die → Die) : (s.modDie d f).agenda = s.agenda := rfl
@[simp] theorem State.modDie_ev (d : Fin 8) (f : Die → Die) : (s.modDie d f).ev = s.ev := rfl
@[simp] theorem State.modDie_free (d : Fin 8) (f : Die → Die) : (s.modDie d f).free = s.free := rfl
@[simp] theorem State.modDie_dev (d : Fin 8) (f : Die → Die) : (s.modDie d f).dev = s.dev := rfl
@[simp] theorem State.modDie_parts (d : Fin 8) (f : Die → Die) : (s.modDie d f).parts = s.parts := rfl
@[simp] theorem State.modDie_clusters (d : Fin 8) (f : Die → Die) : (s.modDie d f).clusters = s.clusters := rfl
@[simp] theorem State.modDie_cores (d : Fin 8) (f : Die → Die) : (s.modDie d f).cores = s.cores := rfl
@[simp] theorem State.modDie_hbm (d : Fin 8) (f : Die → Die) : (s.modDie d f).hbm = s.hbm := rfl
@[simp] theorem State.modDie_host (d : Fin 8) (f : Die → Die) : (s.modDie d f).host = s.host := rfl

/-! ### `State.modPart` -/

@[simp] theorem State.modPart_cycle (p : Fin 8) (f : Part → Part) : (s.modPart p f).cycle = s.cycle := rfl
@[simp] theorem State.modPart_turn (p : Fin 8) (f : Part → Part) : (s.modPart p f).turn = s.turn := rfl
@[simp] theorem State.modPart_agenda (p : Fin 8) (f : Part → Part) : (s.modPart p f).agenda = s.agenda := rfl
@[simp] theorem State.modPart_ev (p : Fin 8) (f : Part → Part) : (s.modPart p f).ev = s.ev := rfl
@[simp] theorem State.modPart_free (p : Fin 8) (f : Part → Part) : (s.modPart p f).free = s.free := rfl
@[simp] theorem State.modPart_dev (p : Fin 8) (f : Part → Part) : (s.modPart p f).dev = s.dev := rfl
@[simp] theorem State.modPart_dies (p : Fin 8) (f : Part → Part) : (s.modPart p f).dies = s.dies := rfl
@[simp] theorem State.modPart_clusters (p : Fin 8) (f : Part → Part) : (s.modPart p f).clusters = s.clusters := rfl
@[simp] theorem State.modPart_cores (p : Fin 8) (f : Part → Part) : (s.modPart p f).cores = s.cores := rfl
@[simp] theorem State.modPart_hbm (p : Fin 8) (f : Part → Part) : (s.modPart p f).hbm = s.hbm := rfl
@[simp] theorem State.modPart_host (p : Fin 8) (f : Part → Part) : (s.modPart p f).host = s.host := rfl

/-! ### `State.modJob` -/

@[simp] theorem State.modJob_cycle (p : Fin 8) (f : Job → Job) : (s.modJob p f).cycle = s.cycle := rfl
@[simp] theorem State.modJob_turn (p : Fin 8) (f : Job → Job) : (s.modJob p f).turn = s.turn := rfl
@[simp] theorem State.modJob_agenda (p : Fin 8) (f : Job → Job) : (s.modJob p f).agenda = s.agenda := rfl
@[simp] theorem State.modJob_ev (p : Fin 8) (f : Job → Job) : (s.modJob p f).ev = s.ev := rfl
@[simp] theorem State.modJob_free (p : Fin 8) (f : Job → Job) : (s.modJob p f).free = s.free := rfl
@[simp] theorem State.modJob_dev (p : Fin 8) (f : Job → Job) : (s.modJob p f).dev = s.dev := rfl
@[simp] theorem State.modJob_dies (p : Fin 8) (f : Job → Job) : (s.modJob p f).dies = s.dies := rfl
@[simp] theorem State.modJob_clusters (p : Fin 8) (f : Job → Job) : (s.modJob p f).clusters = s.clusters := rfl
@[simp] theorem State.modJob_cores (p : Fin 8) (f : Job → Job) : (s.modJob p f).cores = s.cores := rfl
@[simp] theorem State.modJob_hbm (p : Fin 8) (f : Job → Job) : (s.modJob p f).hbm = s.hbm := rfl
@[simp] theorem State.modJob_host (p : Fin 8) (f : Job → Job) : (s.modJob p f).host = s.host := rfl

/-! ### `State.modDev` -/

@[simp] theorem State.modDev_cycle (f : Device → Device) : (s.modDev f).cycle = s.cycle := rfl
@[simp] theorem State.modDev_turn (f : Device → Device) : (s.modDev f).turn = s.turn := rfl
@[simp] theorem State.modDev_agenda (f : Device → Device) : (s.modDev f).agenda = s.agenda := rfl
@[simp] theorem State.modDev_ev (f : Device → Device) : (s.modDev f).ev = s.ev := rfl
@[simp] theorem State.modDev_free (f : Device → Device) : (s.modDev f).free = s.free := rfl
@[simp] theorem State.modDev_parts (f : Device → Device) : (s.modDev f).parts = s.parts := rfl
@[simp] theorem State.modDev_dies (f : Device → Device) : (s.modDev f).dies = s.dies := rfl
@[simp] theorem State.modDev_clusters (f : Device → Device) : (s.modDev f).clusters = s.clusters := rfl
@[simp] theorem State.modDev_cores (f : Device → Device) : (s.modDev f).cores = s.cores := rfl
@[simp] theorem State.modDev_hbm (f : Device → Device) : (s.modDev f).hbm = s.hbm := rfl
@[simp] theorem State.modDev_host (f : Device → Device) : (s.modDev f).host = s.host := rfl

/-! ### `State.scheduleAt` -/

@[simp] theorem State.scheduleAt_cycle (n : Nat) (i : Instr) (a : EvArgs) : (s.scheduleAt n i a).cycle = s.cycle := rfl
@[simp] theorem State.scheduleAt_turn (n : Nat) (i : Instr) (a : EvArgs) : (s.scheduleAt n i a).turn = s.turn := rfl
@[simp] theorem State.scheduleAt_ev (n : Nat) (i : Instr) (a : EvArgs) : (s.scheduleAt n i a).ev = s.ev := rfl
@[simp] theorem State.scheduleAt_free (n : Nat) (i : Instr) (a : EvArgs) : (s.scheduleAt n i a).free = s.free := rfl
@[simp] theorem State.scheduleAt_dev (n : Nat) (i : Instr) (a : EvArgs) : (s.scheduleAt n i a).dev = s.dev := rfl
@[simp] theorem State.scheduleAt_parts (n : Nat) (i : Instr) (a : EvArgs) : (s.scheduleAt n i a).parts = s.parts := rfl
@[simp] theorem State.scheduleAt_dies (n : Nat) (i : Instr) (a : EvArgs) : (s.scheduleAt n i a).dies = s.dies := rfl
@[simp] theorem State.scheduleAt_clusters (n : Nat) (i : Instr) (a : EvArgs) : (s.scheduleAt n i a).clusters = s.clusters := rfl
@[simp] theorem State.scheduleAt_cores (n : Nat) (i : Instr) (a : EvArgs) : (s.scheduleAt n i a).cores = s.cores := rfl
@[simp] theorem State.scheduleAt_hbm (n : Nat) (i : Instr) (a : EvArgs) : (s.scheduleAt n i a).hbm = s.hbm := rfl
@[simp] theorem State.scheduleAt_host (n : Nat) (i : Instr) (a : EvArgs) : (s.scheduleAt n i a).host = s.host := rfl

/-! ### `State.schedule` -/

@[simp] theorem State.schedule_cycle (n : Nat) (i : Instr) (a : EvArgs) : (s.schedule n i a).cycle = s.cycle := rfl
@[simp] theorem State.schedule_turn (n : Nat) (i : Instr) (a : EvArgs) : (s.schedule n i a).turn = s.turn := rfl
@[simp] theorem State.schedule_ev (n : Nat) (i : Instr) (a : EvArgs) : (s.schedule n i a).ev = s.ev := rfl
@[simp] theorem State.schedule_free (n : Nat) (i : Instr) (a : EvArgs) : (s.schedule n i a).free = s.free := rfl
@[simp] theorem State.schedule_dev (n : Nat) (i : Instr) (a : EvArgs) : (s.schedule n i a).dev = s.dev := rfl
@[simp] theorem State.schedule_parts (n : Nat) (i : Instr) (a : EvArgs) : (s.schedule n i a).parts = s.parts := rfl
@[simp] theorem State.schedule_dies (n : Nat) (i : Instr) (a : EvArgs) : (s.schedule n i a).dies = s.dies := rfl
@[simp] theorem State.schedule_clusters (n : Nat) (i : Instr) (a : EvArgs) : (s.schedule n i a).clusters = s.clusters := rfl
@[simp] theorem State.schedule_cores (n : Nat) (i : Instr) (a : EvArgs) : (s.schedule n i a).cores = s.cores := rfl
@[simp] theorem State.schedule_hbm (n : Nat) (i : Instr) (a : EvArgs) : (s.schedule n i a).hbm = s.hbm := rfl
@[simp] theorem State.schedule_host (n : Nat) (i : Instr) (a : EvArgs) : (s.schedule n i a).host = s.host := rfl

/-! ### `State.unschedule` -/

@[simp] theorem State.unschedule_cycle (p : Due → Bool) : (s.unschedule p).cycle = s.cycle := rfl
@[simp] theorem State.unschedule_turn (p : Due → Bool) : (s.unschedule p).turn = s.turn := rfl
@[simp] theorem State.unschedule_ev (p : Due → Bool) : (s.unschedule p).ev = s.ev := rfl
@[simp] theorem State.unschedule_free (p : Due → Bool) : (s.unschedule p).free = s.free := rfl
@[simp] theorem State.unschedule_dev (p : Due → Bool) : (s.unschedule p).dev = s.dev := rfl
@[simp] theorem State.unschedule_parts (p : Due → Bool) : (s.unschedule p).parts = s.parts := rfl
@[simp] theorem State.unschedule_dies (p : Due → Bool) : (s.unschedule p).dies = s.dies := rfl
@[simp] theorem State.unschedule_clusters (p : Due → Bool) : (s.unschedule p).clusters = s.clusters := rfl
@[simp] theorem State.unschedule_cores (p : Due → Bool) : (s.unschedule p).cores = s.cores := rfl
@[simp] theorem State.unschedule_hbm (p : Due → Bool) : (s.unschedule p).hbm = s.hbm := rfl
@[simp] theorem State.unschedule_host (p : Due → Bool) : (s.unschedule p).host = s.host := rfl

/-! ### `State.useFree` -/

@[simp] theorem State.useFree_cycle : (s.useFree).cycle = s.cycle := rfl
@[simp] theorem State.useFree_turn : (s.useFree).turn = s.turn := rfl
@[simp] theorem State.useFree_agenda : (s.useFree).agenda = s.agenda := rfl
@[simp] theorem State.useFree_ev : (s.useFree).ev = s.ev := rfl
@[simp] theorem State.useFree_dev : (s.useFree).dev = s.dev := rfl
@[simp] theorem State.useFree_parts : (s.useFree).parts = s.parts := rfl
@[simp] theorem State.useFree_dies : (s.useFree).dies = s.dies := rfl
@[simp] theorem State.useFree_clusters : (s.useFree).clusters = s.clusters := rfl
@[simp] theorem State.useFree_cores : (s.useFree).cores = s.cores := rfl
@[simp] theorem State.useFree_hbm : (s.useFree).hbm = s.hbm := rfl
@[simp] theorem State.useFree_host : (s.useFree).host = s.host := rfl

/-! ### `State.how` -/

@[simp] theorem State.how_cycle (w : How) : (s.how w).cycle = s.cycle := rfl
@[simp] theorem State.how_agenda (w : How) : (s.how w).agenda = s.agenda := rfl
@[simp] theorem State.how_ev (w : How) : (s.how w).ev = s.ev := rfl
@[simp] theorem State.how_free (w : How) : (s.how w).free = s.free := rfl
@[simp] theorem State.how_dev (w : How) : (s.how w).dev = s.dev := rfl
@[simp] theorem State.how_parts (w : How) : (s.how w).parts = s.parts := rfl
@[simp] theorem State.how_dies (w : How) : (s.how w).dies = s.dies := rfl
@[simp] theorem State.how_clusters (w : How) : (s.how w).clusters = s.clusters := rfl
@[simp] theorem State.how_cores (w : How) : (s.how w).cores = s.cores := rfl
@[simp] theorem State.how_hbm (w : How) : (s.how w).hbm = s.hbm := rfl
@[simp] theorem State.how_host (w : How) : (s.how w).host = s.host := rfl

/-! ### `State.xNext` -/

@[simp] theorem State.xNext_cycle : (s.xNext).cycle = s.cycle := rfl
@[simp] theorem State.xNext_turn : (s.xNext).turn = s.turn := rfl
@[simp] theorem State.xNext_agenda : (s.xNext).agenda = s.agenda := rfl
@[simp] theorem State.xNext_ev : (s.xNext).ev = s.ev := rfl
@[simp] theorem State.xNext_free : (s.xNext).free = s.free := rfl
@[simp] theorem State.xNext_dev : (s.xNext).dev = s.dev := rfl
@[simp] theorem State.xNext_parts : (s.xNext).parts = s.parts := rfl
@[simp] theorem State.xNext_dies : (s.xNext).dies = s.dies := rfl
@[simp] theorem State.xNext_clusters : (s.xNext).clusters = s.clusters := rfl
@[simp] theorem State.xNext_hbm : (s.xNext).hbm = s.hbm := rfl
@[simp] theorem State.xNext_host : (s.xNext).host = s.host := rfl

/-! ### `State.wrS` -/

@[simp] theorem State.wrS_cycle (h : XHdr) (d : SDst) (v : Word) (l : Nat) (fl : FFlags) : (s.wrS h d v l fl).cycle = s.cycle := rfl
@[simp] theorem State.wrS_turn (h : XHdr) (d : SDst) (v : Word) (l : Nat) (fl : FFlags) : (s.wrS h d v l fl).turn = s.turn := rfl
@[simp] theorem State.wrS_agenda (h : XHdr) (d : SDst) (v : Word) (l : Nat) (fl : FFlags) : (s.wrS h d v l fl).agenda = s.agenda := rfl
@[simp] theorem State.wrS_ev (h : XHdr) (d : SDst) (v : Word) (l : Nat) (fl : FFlags) : (s.wrS h d v l fl).ev = s.ev := rfl
@[simp] theorem State.wrS_free (h : XHdr) (d : SDst) (v : Word) (l : Nat) (fl : FFlags) : (s.wrS h d v l fl).free = s.free := rfl
@[simp] theorem State.wrS_dev (h : XHdr) (d : SDst) (v : Word) (l : Nat) (fl : FFlags) : (s.wrS h d v l fl).dev = s.dev := rfl
@[simp] theorem State.wrS_parts (h : XHdr) (d : SDst) (v : Word) (l : Nat) (fl : FFlags) : (s.wrS h d v l fl).parts = s.parts := rfl
@[simp] theorem State.wrS_dies (h : XHdr) (d : SDst) (v : Word) (l : Nat) (fl : FFlags) : (s.wrS h d v l fl).dies = s.dies := rfl
@[simp] theorem State.wrS_clusters (h : XHdr) (d : SDst) (v : Word) (l : Nat) (fl : FFlags) : (s.wrS h d v l fl).clusters = s.clusters := rfl
@[simp] theorem State.wrS_hbm (h : XHdr) (d : SDst) (v : Word) (l : Nat) (fl : FFlags) : (s.wrS h d v l fl).hbm = s.hbm := rfl
@[simp] theorem State.wrS_host (h : XHdr) (d : SDst) (v : Word) (l : Nat) (fl : FFlags) : (s.wrS h d v l fl).host = s.host := rfl

/-! ### `State.wrV` -/

@[simp] theorem State.wrV_cycle (h : XHdr) (d : VDst) (v : Vec) (l : Nat) (fl : FFlags) : (s.wrV h d v l fl).cycle = s.cycle := rfl
@[simp] theorem State.wrV_turn (h : XHdr) (d : VDst) (v : Vec) (l : Nat) (fl : FFlags) : (s.wrV h d v l fl).turn = s.turn := rfl
@[simp] theorem State.wrV_agenda (h : XHdr) (d : VDst) (v : Vec) (l : Nat) (fl : FFlags) : (s.wrV h d v l fl).agenda = s.agenda := rfl
@[simp] theorem State.wrV_ev (h : XHdr) (d : VDst) (v : Vec) (l : Nat) (fl : FFlags) : (s.wrV h d v l fl).ev = s.ev := rfl
@[simp] theorem State.wrV_free (h : XHdr) (d : VDst) (v : Vec) (l : Nat) (fl : FFlags) : (s.wrV h d v l fl).free = s.free := rfl
@[simp] theorem State.wrV_dev (h : XHdr) (d : VDst) (v : Vec) (l : Nat) (fl : FFlags) : (s.wrV h d v l fl).dev = s.dev := rfl
@[simp] theorem State.wrV_parts (h : XHdr) (d : VDst) (v : Vec) (l : Nat) (fl : FFlags) : (s.wrV h d v l fl).parts = s.parts := rfl
@[simp] theorem State.wrV_dies (h : XHdr) (d : VDst) (v : Vec) (l : Nat) (fl : FFlags) : (s.wrV h d v l fl).dies = s.dies := rfl
@[simp] theorem State.wrV_clusters (h : XHdr) (d : VDst) (v : Vec) (l : Nat) (fl : FFlags) : (s.wrV h d v l fl).clusters = s.clusters := rfl
@[simp] theorem State.wrV_hbm (h : XHdr) (d : VDst) (v : Vec) (l : Nat) (fl : FFlags) : (s.wrV h d v l fl).hbm = s.hbm := rfl
@[simp] theorem State.wrV_host (h : XHdr) (d : VDst) (v : Vec) (l : Nat) (fl : FFlags) : (s.wrV h d v l fl).host = s.host := rfl

/-! ### `State.wrP` -/

@[simp] theorem State.wrP_cycle (h : XHdr) (p : Fin 8) (v : Bool) (l : Nat) : (s.wrP h p v l).cycle = s.cycle := rfl
@[simp] theorem State.wrP_turn (h : XHdr) (p : Fin 8) (v : Bool) (l : Nat) : (s.wrP h p v l).turn = s.turn := rfl
@[simp] theorem State.wrP_agenda (h : XHdr) (p : Fin 8) (v : Bool) (l : Nat) : (s.wrP h p v l).agenda = s.agenda := rfl
@[simp] theorem State.wrP_ev (h : XHdr) (p : Fin 8) (v : Bool) (l : Nat) : (s.wrP h p v l).ev = s.ev := rfl
@[simp] theorem State.wrP_free (h : XHdr) (p : Fin 8) (v : Bool) (l : Nat) : (s.wrP h p v l).free = s.free := rfl
@[simp] theorem State.wrP_dev (h : XHdr) (p : Fin 8) (v : Bool) (l : Nat) : (s.wrP h p v l).dev = s.dev := rfl
@[simp] theorem State.wrP_parts (h : XHdr) (p : Fin 8) (v : Bool) (l : Nat) : (s.wrP h p v l).parts = s.parts := rfl
@[simp] theorem State.wrP_dies (h : XHdr) (p : Fin 8) (v : Bool) (l : Nat) : (s.wrP h p v l).dies = s.dies := rfl
@[simp] theorem State.wrP_clusters (h : XHdr) (p : Fin 8) (v : Bool) (l : Nat) : (s.wrP h p v l).clusters = s.clusters := rfl
@[simp] theorem State.wrP_hbm (h : XHdr) (p : Fin 8) (v : Bool) (l : Nat) : (s.wrP h p v l).hbm = s.hbm := rfl
@[simp] theorem State.wrP_host (h : XHdr) (p : Fin 8) (v : Bool) (l : Nat) : (s.wrP h p v l).host = s.host := rfl

/-! ### `State.how`, `State.setTurn` on the turn -/

@[simp] theorem State.how_core (w : How) : (s.how w).turn.core = s.turn.core := rfl
@[simp] theorem State.how_ctx (w : How) : (s.how w).turn.ctx = s.turn.ctx := rfl
@[simp] theorem State.how_stream (w : How) : (s.how w).turn.stream = s.turn.stream := rfl
@[simp] theorem State.how_col (w : How) : (s.how w).turn.col = s.turn.col := rfl
@[simp] theorem State.how_word (w : How) : (s.how w).turn.word = s.turn.word := rfl
@[simp] theorem State.how_how (w : How) : (s.how w).turn.how = w := rfl
@[simp] theorem State.how_pops (w : How) : (s.how w).turn.pops = s.turn.pops := rfl

/-! ### Places read after an update of the same kind of place -/

theorem vector_get_set {α : Type} {n : Nat} (v : Vector α n) (i j : Fin n) (x : α) :
    (v.set i.val x i.isLt).get j = if j = i then x else v.get j := by
  show (v.set i.val x i.isLt)[j.val] = if j = i then x else v[j.val]
  rw [Vector.getElem_set]
  by_cases h : j = i
  · simp [h]
  · simp [h, Fin.val_ne_of_ne (Ne.symm h)]

@[simp] theorem State.core_setCore (g g' : Fin 512) (c : Core) :
    (s.setCore g c).core g' = if g' = g then c else s.core g' := vector_get_set ..

@[simp] theorem State.core_modCore (g g' : Fin 512) (f : Core → Core) :
    (s.modCore g f).core g' = if g' = g then f (s.core g) else s.core g' := vector_get_set ..

@[simp] theorem Core.bank_setBank (c : Core) (k k' : Fin 3) (b : Bank) :
    (c.setBank k b).bank k' = if k' = k then b else c.bank k' := vector_get_set ..

@[simp] theorem State.bank_setBank (g g' : Fin 512) (k k' : Fin 3) (b : Bank) :
    (s.setBank g k b).bank g' k' = if g' = g ∧ k' = k then b else s.bank g' k' := by
  unfold State.setBank State.bank
  rw [State.core_modCore]
  by_cases h : g' = g
  · subst h; simp
  · simp [h]

@[simp] theorem State.bank_modBank (g g' : Fin 512) (k k' : Fin 3) (f : Bank → Bank) :
    (s.modBank g k f).bank g' k' = if g' = g ∧ k' = k then f (s.bank g k) else s.bank g' k' := State.bank_setBank ..

@[simp] theorem State.core_modBank (g g' : Fin 512) (k : Fin 3) (f : Bank → Bank) :
    (s.modBank g k f).core g' = if g' = g then (s.core g).setBank k (f (s.bank g k)) else s.core g' :=
  State.core_modCore ..

@[simp] theorem State.cluster_modCluster (c c' : Fin 64) (f : Cluster → Cluster) :
    (s.modCluster c f).cluster c' = if c' = c then f (s.cluster c) else s.cluster c' := vector_get_set ..

@[simp] theorem State.die_modDie (d d' : Fin 8) (f : Die → Die) :
    (s.modDie d f).die d' = if d' = d then f (s.die d) else s.die d' := vector_get_set ..

@[simp] theorem State.part_modPart (p p' : Fin 8) (f : Part → Part) :
    (s.modPart p f).part p' = if p' = p then f (s.part p) else s.part p' := vector_get_set ..

@[simp] theorem Bank.col_modCol (b : Bank) (c c' : Fin 4) (f : Column → Column) :
    (b.modCol c f).col c' = if c' = c then f (b.col c) else b.col c' := vector_get_set ..

@[simp] theorem Bank.flag_modFlag (b : Bank) (i j : Fin 16) (u : FlagSt → FlagSt) :
    (b.modFlag i u).flag j = if j = i then u (b.flag i) else b.flag j := vector_get_set ..

/-! ### Places that an update of another kind leaves alone -/

@[simp] theorem State.cluster_setCore (g : Fin 512) (c : Core) (c0 : Fin 64) : (s.setCore g c).cluster c0 = s.cluster c0 := rfl
@[simp] theorem State.die_setCore (g : Fin 512) (c : Core) (d0 : Fin 8) : (s.setCore g c).die d0 = s.die d0 := rfl
@[simp] theorem State.part_setCore (g : Fin 512) (c : Core) (p0 : Fin 8) : (s.setCore g c).part p0 = s.part p0 := rfl
@[simp] theorem State.cluster_modCore (g : Fin 512) (f : Core → Core) (c0 : Fin 64) : (s.modCore g f).cluster c0 = s.cluster c0 := rfl
@[simp] theorem State.die_modCore (g : Fin 512) (f : Core → Core) (d0 : Fin 8) : (s.modCore g f).die d0 = s.die d0 := rfl
@[simp] theorem State.part_modCore (g : Fin 512) (f : Core → Core) (p0 : Fin 8) : (s.modCore g f).part p0 = s.part p0 := rfl
@[simp] theorem State.cluster_setBank (g : Fin 512) (k : Fin 3) (b : Bank) (c0 : Fin 64) : (s.setBank g k b).cluster c0 = s.cluster c0 := rfl
@[simp] theorem State.die_setBank (g : Fin 512) (k : Fin 3) (b : Bank) (d0 : Fin 8) : (s.setBank g k b).die d0 = s.die d0 := rfl
@[simp] theorem State.part_setBank (g : Fin 512) (k : Fin 3) (b : Bank) (p0 : Fin 8) : (s.setBank g k b).part p0 = s.part p0 := rfl
@[simp] theorem State.cluster_modBank (g : Fin 512) (k : Fin 3) (f : Bank → Bank) (c0 : Fin 64) : (s.modBank g k f).cluster c0 = s.cluster c0 := rfl
@[simp] theorem State.die_modBank (g : Fin 512) (k : Fin 3) (f : Bank → Bank) (d0 : Fin 8) : (s.modBank g k f).die d0 = s.die d0 := rfl
@[simp] theorem State.part_modBank (g : Fin 512) (k : Fin 3) (f : Bank → Bank) (p0 : Fin 8) : (s.modBank g k f).part p0 = s.part p0 := rfl
@[simp] theorem State.cluster_modTb (f : Bank → Bank) (c0 : Fin 64) : (s.modTb f).cluster c0 = s.cluster c0 := rfl
@[simp] theorem State.die_modTb (f : Bank → Bank) (d0 : Fin 8) : (s.modTb f).die d0 = s.die d0 := rfl
@[simp] theorem State.part_modTb (f : Bank → Bank) (p0 : Fin 8) : (s.modTb f).part p0 = s.part p0 := rfl
@[simp] theorem State.cluster_modTc (f : Column → Column) (c0 : Fin 64) : (s.modTc f).cluster c0 = s.cluster c0 := rfl
@[simp] theorem State.die_modTc (f : Column → Column) (d0 : Fin 8) : (s.modTc f).die d0 = s.die d0 := rfl
@[simp] theorem State.part_modTc (f : Column → Column) (p0 : Fin 8) : (s.modTc f).part p0 = s.part p0 := rfl
@[simp] theorem State.core_modCluster (c : Fin 64) (f : Cluster → Cluster) (g0 : Fin 512) : (s.modCluster c f).core g0 = s.core g0 := rfl
@[simp] theorem State.bank_modCluster (c : Fin 64) (f : Cluster → Cluster) (g0 : Fin 512) (k0 : Fin 3) : (s.modCluster c f).bank g0 k0 = s.bank g0 k0 := rfl
@[simp] theorem State.die_modCluster (c : Fin 64) (f : Cluster → Cluster) (d0 : Fin 8) : (s.modCluster c f).die d0 = s.die d0 := rfl
@[simp] theorem State.part_modCluster (c : Fin 64) (f : Cluster → Cluster) (p0 : Fin 8) : (s.modCluster c f).part p0 = s.part p0 := rfl
@[simp] theorem State.core_modDie (d : Fin 8) (f : Die → Die) (g0 : Fin 512) : (s.modDie d f).core g0 = s.core g0 := rfl
@[simp] theorem State.bank_modDie (d : Fin 8) (f : Die → Die) (g0 : Fin 512) (k0 : Fin 3) : (s.modDie d f).bank g0 k0 = s.bank g0 k0 := rfl
@[simp] theorem State.cluster_modDie (d : Fin 8) (f : Die → Die) (c0 : Fin 64) : (s.modDie d f).cluster c0 = s.cluster c0 := rfl
@[simp] theorem State.part_modDie (d : Fin 8) (f : Die → Die) (p0 : Fin 8) : (s.modDie d f).part p0 = s.part p0 := rfl
@[simp] theorem State.core_modPart (p : Fin 8) (f : Part → Part) (g0 : Fin 512) : (s.modPart p f).core g0 = s.core g0 := rfl
@[simp] theorem State.bank_modPart (p : Fin 8) (f : Part → Part) (g0 : Fin 512) (k0 : Fin 3) : (s.modPart p f).bank g0 k0 = s.bank g0 k0 := rfl
@[simp] theorem State.cluster_modPart (p : Fin 8) (f : Part → Part) (c0 : Fin 64) : (s.modPart p f).cluster c0 = s.cluster c0 := rfl
@[simp] theorem State.die_modPart (p : Fin 8) (f : Part → Part) (d0 : Fin 8) : (s.modPart p f).die d0 = s.die d0 := rfl
@[simp] theorem State.core_modJob (p : Fin 8) (f : Job → Job) (g0 : Fin 512) : (s.modJob p f).core g0 = s.core g0 := rfl
@[simp] theorem State.bank_modJob (p : Fin 8) (f : Job → Job) (g0 : Fin 512) (k0 : Fin 3) : (s.modJob p f).bank g0 k0 = s.bank g0 k0 := rfl
@[simp] theorem State.cluster_modJob (p : Fin 8) (f : Job → Job) (c0 : Fin 64) : (s.modJob p f).cluster c0 = s.cluster c0 := rfl
@[simp] theorem State.die_modJob (p : Fin 8) (f : Job → Job) (d0 : Fin 8) : (s.modJob p f).die d0 = s.die d0 := rfl
@[simp] theorem State.core_modDev (f : Device → Device) (g0 : Fin 512) : (s.modDev f).core g0 = s.core g0 := rfl
@[simp] theorem State.bank_modDev (f : Device → Device) (g0 : Fin 512) (k0 : Fin 3) : (s.modDev f).bank g0 k0 = s.bank g0 k0 := rfl
@[simp] theorem State.cluster_modDev (f : Device → Device) (c0 : Fin 64) : (s.modDev f).cluster c0 = s.cluster c0 := rfl
@[simp] theorem State.die_modDev (f : Device → Device) (d0 : Fin 8) : (s.modDev f).die d0 = s.die d0 := rfl
@[simp] theorem State.part_modDev (f : Device → Device) (p0 : Fin 8) : (s.modDev f).part p0 = s.part p0 := rfl
@[simp] theorem State.core_scheduleAt (n : Nat) (i : Instr) (a : EvArgs) (g0 : Fin 512) : (s.scheduleAt n i a).core g0 = s.core g0 := rfl
@[simp] theorem State.bank_scheduleAt (n : Nat) (i : Instr) (a : EvArgs) (g0 : Fin 512) (k0 : Fin 3) : (s.scheduleAt n i a).bank g0 k0 = s.bank g0 k0 := rfl
@[simp] theorem State.cluster_scheduleAt (n : Nat) (i : Instr) (a : EvArgs) (c0 : Fin 64) : (s.scheduleAt n i a).cluster c0 = s.cluster c0 := rfl
@[simp] theorem State.die_scheduleAt (n : Nat) (i : Instr) (a : EvArgs) (d0 : Fin 8) : (s.scheduleAt n i a).die d0 = s.die d0 := rfl
@[simp] theorem State.part_scheduleAt (n : Nat) (i : Instr) (a : EvArgs) (p0 : Fin 8) : (s.scheduleAt n i a).part p0 = s.part p0 := rfl
@[simp] theorem State.core_schedule (n : Nat) (i : Instr) (a : EvArgs) (g0 : Fin 512) : (s.schedule n i a).core g0 = s.core g0 := rfl
@[simp] theorem State.bank_schedule (n : Nat) (i : Instr) (a : EvArgs) (g0 : Fin 512) (k0 : Fin 3) : (s.schedule n i a).bank g0 k0 = s.bank g0 k0 := rfl
@[simp] theorem State.cluster_schedule (n : Nat) (i : Instr) (a : EvArgs) (c0 : Fin 64) : (s.schedule n i a).cluster c0 = s.cluster c0 := rfl
@[simp] theorem State.die_schedule (n : Nat) (i : Instr) (a : EvArgs) (d0 : Fin 8) : (s.schedule n i a).die d0 = s.die d0 := rfl
@[simp] theorem State.part_schedule (n : Nat) (i : Instr) (a : EvArgs) (p0 : Fin 8) : (s.schedule n i a).part p0 = s.part p0 := rfl
@[simp] theorem State.core_unschedule (p : Due → Bool) (g0 : Fin 512) : (s.unschedule p).core g0 = s.core g0 := rfl
@[simp] theorem State.bank_unschedule (p : Due → Bool) (g0 : Fin 512) (k0 : Fin 3) : (s.unschedule p).bank g0 k0 = s.bank g0 k0 := rfl
@[simp] theorem State.cluster_unschedule (p : Due → Bool) (c0 : Fin 64) : (s.unschedule p).cluster c0 = s.cluster c0 := rfl
@[simp] theorem State.die_unschedule (p : Due → Bool) (d0 : Fin 8) : (s.unschedule p).die d0 = s.die d0 := rfl
@[simp] theorem State.part_unschedule (p : Due → Bool) (p0 : Fin 8) : (s.unschedule p).part p0 = s.part p0 := rfl
@[simp] theorem State.core_useFree (g0 : Fin 512) : (s.useFree).core g0 = s.core g0 := rfl
@[simp] theorem State.bank_useFree (g0 : Fin 512) (k0 : Fin 3) : (s.useFree).bank g0 k0 = s.bank g0 k0 := rfl
@[simp] theorem State.cluster_useFree (c0 : Fin 64) : (s.useFree).cluster c0 = s.cluster c0 := rfl
@[simp] theorem State.die_useFree (d0 : Fin 8) : (s.useFree).die d0 = s.die d0 := rfl
@[simp] theorem State.part_useFree (p0 : Fin 8) : (s.useFree).part p0 = s.part p0 := rfl
@[simp] theorem State.core_how (w : How) (g0 : Fin 512) : (s.how w).core g0 = s.core g0 := rfl
@[simp] theorem State.bank_how (w : How) (g0 : Fin 512) (k0 : Fin 3) : (s.how w).bank g0 k0 = s.bank g0 k0 := rfl
@[simp] theorem State.cluster_how (w : How) (c0 : Fin 64) : (s.how w).cluster c0 = s.cluster c0 := rfl
@[simp] theorem State.die_how (w : How) (d0 : Fin 8) : (s.how w).die d0 = s.die d0 := rfl
@[simp] theorem State.part_how (w : How) (p0 : Fin 8) : (s.how w).part p0 = s.part p0 := rfl
@[simp] theorem State.cluster_xNext (c0 : Fin 64) : (s.xNext).cluster c0 = s.cluster c0 := rfl
@[simp] theorem State.die_xNext (d0 : Fin 8) : (s.xNext).die d0 = s.die d0 := rfl
@[simp] theorem State.part_xNext (p0 : Fin 8) : (s.xNext).part p0 = s.part p0 := rfl
@[simp] theorem State.cluster_wrS (h : XHdr) (d : SDst) (v : Word) (l : Nat) (fl : FFlags) (c0 : Fin 64) : (s.wrS h d v l fl).cluster c0 = s.cluster c0 := rfl
@[simp] theorem State.die_wrS (h : XHdr) (d : SDst) (v : Word) (l : Nat) (fl : FFlags) (d0 : Fin 8) : (s.wrS h d v l fl).die d0 = s.die d0 := rfl
@[simp] theorem State.part_wrS (h : XHdr) (d : SDst) (v : Word) (l : Nat) (fl : FFlags) (p0 : Fin 8) : (s.wrS h d v l fl).part p0 = s.part p0 := rfl
@[simp] theorem State.cluster_wrV (h : XHdr) (d : VDst) (v : Vec) (l : Nat) (fl : FFlags) (c0 : Fin 64) : (s.wrV h d v l fl).cluster c0 = s.cluster c0 := rfl
@[simp] theorem State.die_wrV (h : XHdr) (d : VDst) (v : Vec) (l : Nat) (fl : FFlags) (d0 : Fin 8) : (s.wrV h d v l fl).die d0 = s.die d0 := rfl
@[simp] theorem State.part_wrV (h : XHdr) (d : VDst) (v : Vec) (l : Nat) (fl : FFlags) (p0 : Fin 8) : (s.wrV h d v l fl).part p0 = s.part p0 := rfl
@[simp] theorem State.cluster_wrP (h : XHdr) (p : Fin 8) (v : Bool) (l : Nat) (c0 : Fin 64) : (s.wrP h p v l).cluster c0 = s.cluster c0 := rfl
@[simp] theorem State.die_wrP (h : XHdr) (p : Fin 8) (v : Bool) (l : Nat) (d0 : Fin 8) : (s.wrP h p v l).die d0 = s.die d0 := rfl
@[simp] theorem State.part_wrP (h : XHdr) (p : Fin 8) (v : Bool) (l : Nat) (p0 : Fin 8) : (s.wrP h p v l).part p0 = s.part p0 := rfl

/-! ### The bank and the column of the turn -/

@[simp] theorem State.tb_modTb (f : Bank → Bank) : (s.modTb f).tb = f s.tb := by simp [State.tb, State.modTb]
@[simp] theorem State.tc_modTc (f : Column → Column) : (s.modTc f).tc = f s.tc := by
  simp [State.tc, State.modTc]
@[simp] theorem State.tb_modTc (f : Column → Column) : (s.modTc f).tb = s.tb.modCol s.turn.col f := by
  simp [State.modTc]
@[simp] theorem State.tb_how (w : How) : (s.how w).tb = s.tb := rfl
@[simp] theorem State.tc_how (w : How) : (s.how w).tc = s.tc := rfl
@[simp] theorem State.tb_schedule (n : Nat) (i : Instr) (a : EvArgs) : (s.schedule n i a).tb = s.tb := rfl
@[simp] theorem State.bank_modTb (f : Bank → Bank) (g : Fin 512) (k : Fin 3) :
    (s.modTb f).bank g k = if g = s.turn.core ∧ k = s.turn.ctx then f s.tb else s.bank g k := by
  simp [State.modTb, State.tb]
@[simp] theorem State.core_modTb (f : Bank → Bank) (g : Fin 512) :
    (s.modTb f).core g = if g = s.turn.core then (s.core g).setBank s.turn.ctx (f s.tb) else s.core g := by
  unfold State.modTb State.tb
  rw [State.core_modBank]
  by_cases h : g = s.turn.core
  · subst h; simp
  · simp [h]

/-- Only the banks of a core that gets a bank differ. -/
theorem Core.setBank_eq (c : Core) (k : Fin 3) (b : Bank) : c.setBank k b = { c with banks := (c.setBank k b).banks } := rfl

end Sys2Proof.Machine
end

