-- ==== Sys2Proof/Laws/Queues.lean ====
section
/-! SUPPORT. Laws/Queues.lean: the queues and flags of a bank after a push, a pop, a token taken and a push owed. -/
namespace Sys2Proof.Machine
open Sys2Proof

theorem vector_getElem_set {α : Type} {n : Nat} (v : Vector α n) (i j : Nat) (hi : i < n) (hj : j < n) (x : α) :
    (v.set i x hi)[j] = if j = i then x else v[j] := by
  rw [Vector.getElem_set]
  by_cases h : j = i
  · simp [h]
  · simp [h, Ne.symm h]

/-- Reading an A→X queue after one was written. -/
theorem Bank.qAX_setQAX (b : Bank) (q r : Nat) (l : List QEntry) (hq : q < 9) (hr : r < 9) :
    (b.setQAX q l).qAX r = if r = q then l else b.qAX r := by
  unfold Bank.setQAX Bank.qAX
  by_cases h1 : q < 4
  · by_cases h2 : r < 4
    · simp only [h1, h2, dite_true, vector_getElem_set]
    · have : r ≠ q := by omega
      simp only [h1, h2, dite_true, dite_false, this, if_false]
  · by_cases h3 : q - 4 < 4
    · by_cases h2 : r < 4
      · have : r ≠ q := by omega
        simp only [h1, h2, h3, dite_true, dite_false, this, if_false]
      · by_cases h4 : r - 4 < 4
        · simp only [h1, h2, h3, h4, dite_true, dite_false, vector_getElem_set]
          by_cases h : r = q
          · simp [h]
          · have : r - 4 ≠ q - 4 := by omega
            simp only [h, this, if_false]
        · have : r ≠ q := by omega
          simp only [h1, h2, h3, h4, dite_true, dite_false, this, if_false]
    · by_cases h2 : r < 4
      · have : r ≠ q := by omega
        simp only [h1, h2, h3, dite_true, dite_false, this, if_false]
      · by_cases h4 : r - 4 < 4
        · have : r ≠ q := by omega
          simp only [h1, h2, h3, h4, dite_true, dite_false, this, if_false]
        · have : r = q := by omega
          simp only [h1, h2, h3, h4, dite_false, this, if_true]

/-- Reading an X→A queue after one was written. -/
theorem Bank.qXA_setQXA (b : Bank) (q r : Nat) (l : List QEntry) (hq : q < 8) (hr : r < 8) :
    (b.setQXA q l).qXA r = if r = q then l else b.qXA r := by
  unfold Bank.setQXA Bank.qXA
  by_cases h1 : q < 4
  · by_cases h2 : r < 4
    · simp only [h1, h2, dite_true, vector_getElem_set]
    · have : r ≠ q := by omega
      simp only [h1, h2, dite_true, dite_false, this, if_false]
  · have h3 : q - 4 < 4 := by omega
    by_cases h2 : r < 4
    · have : r ≠ q := by omega
      simp only [h1, h2, h3, dite_true, dite_false, this, if_false]
    · have h4 : r - 4 < 4 := by omega
      simp only [h1, h2, h3, h4, dite_true, dite_false, vector_getElem_set]
      by_cases h : r = q
      · simp [h]
      · have : r - 4 ≠ q - 4 := by omega
        simp only [h, this, if_false]

/-- A write of an A→X queue changes the queues alone. -/
theorem Bank.setQAX_eq (b : Bank) (q : Nat) (l : List QEntry) :
    b.setQAX q l = { b with qsAX := (b.setQAX q l).qsAX, qvAX := (b.setQAX q l).qvAX, brq := (b.setQAX q l).brq } := by
  unfold Bank.setQAX
  split
  · rfl
  · split <;> rfl

theorem Bank.setQXA_eq (b : Bank) (q : Nat) (l : List QEntry) :
    b.setQXA q l = { b with qsXA := (b.setQXA q l).qsXA, qvXA := (b.setQXA q l).qvXA } := by
  unfold Bank.setQXA
  split
  · rfl
  · split <;> rfl

/-- What the pops of an X syllable leave of a bank. -/
theorem Bank.popAX_eq (b : Bank) (q : Nat) :
    b.popAX q = { b with qsAX := (b.popAX q).qsAX, qvAX := (b.popAX q).qvAX, brq := (b.popAX q).brq, qx := b.qx + 1 } := by
  unfold Bank.popAX
  rw [Bank.setQAX_eq]

theorem Bank.popsAX_eq (l : List Nat) (b : Bank) :
    let r := l.foldl (fun b q => b.popAX q) b
    r = { b with qsAX := r.qsAX, qvAX := r.qvAX, brq := r.brq, qx := r.qx } := by
  induction l generalizing b with
  | nil => rfl
  | cons q l ih =>
    have h1 := ih (b.popAX q)
    have h2 := Bank.popAX_eq b q
    simp only [List.foldl_cons]
    rw [h1, h2]

/-- Each port of a duplicate-free list loses its head, every other port keeps its entries. -/
theorem Bank.qAX_popsAX (l : List Nat) (b : Bank) (hn : l.Nodup) (hl : ∀ q ∈ l, q < 9) (r : Nat) (hr : r < 9) :
    (l.foldl (fun b q => b.popAX q) b).qAX r = if r ∈ l then (b.qAX r).tail else b.qAX r := by
  induction l generalizing b with
  | nil => simp
  | cons q l ih =>
    have hq := hl q (List.mem_cons_self ..)
    obtain ⟨hql, hn⟩ := List.nodup_cons.mp hn
    rw [List.foldl_cons, ih (b.popAX q) hn fun x hx => hl x (List.mem_cons_of_mem _ hx)]
    have hp : (b.popAX q).qAX r = if r = q then (b.qAX q).tail else b.qAX r := Bank.qAX_setQAX b q r _ hq hr
    rw [hp]
    by_cases h : r = q
    · subst h; simp [hql]
    · simp [h]

theorem mem_dedup (l : List Nat) (q : Nat) : q ∈ dedup l ↔ q ∈ l := by
  induction l with
  | nil => simp [dedup]
  | cons x l ih =>
    have hd : dedup (x :: l) = if (dedup l).contains x then dedup l else x :: dedup l := rfl
    rw [hd]
    split
    · next h =>
      have hx : x ∈ dedup l := by simpa using h
      constructor
      · intro hq; exact List.mem_cons_of_mem _ (ih.mp hq)
      · intro hq
        rcases List.mem_cons.mp hq with rfl | hq
        · exact hx
        · exact ih.mpr hq
    · simp [ih]

theorem nodup_dedup (l : List Nat) : (dedup l).Nodup := by
  induction l with
  | nil => exact List.nodup_nil
  | cons x l ih =>
    have hd : dedup (x :: l) = if (dedup l).contains x then dedup l else x :: dedup l := rfl
    rw [hd]
    split
    · exact ih
    · next h => exact List.nodup_cons.mpr ⟨by simpa using h, ih⟩

/-! ### Tokens -/

theorem Bank.modFlag_eq (b : Bank) (f : Fin 16) (u : FlagSt → FlagSt) :
    b.modFlag f u = { b with flags := (b.modFlag f u).flags } := rfl

theorem Bank.popToken_eq (b : Bank) (f : Option (Fin 16)) : b.popToken f = { b with flags := (b.popToken f).flags } := by
  cases f <;> rfl

theorem Bank.owe_eq (b : Bank) (f : Option (Fin 16)) : b.owe f = { b with flags := (b.owe f).flags } := by
  cases f <;> rfl

theorem Bank.unowe_eq (b : Bank) (f : Option (Fin 16)) : b.unowe f = { b with flags := (b.unowe f).flags } := by
  cases f <;> rfl

/-- The flags after a wait token is taken and a push is owed. -/
theorem Bank.flag_take (b : Bank) (wait push : Option (Fin 16)) (f : Fin 16) :
    ((b.popToken wait).owe push).flag f =
      { held := (b.flag f).held - (if wait = some f then 1 else 0), travel := (b.flag f).travel,
        owed := (b.flag f).owed + (if push = some f then 1 else 0) } := by
  have hp : (b.popToken wait).flag f =
      { held := (b.flag f).held - (if wait = some f then 1 else 0), travel := (b.flag f).travel, owed := (b.flag f).owed } := by
    cases wait with
    | none => simp [Bank.popToken]
    | some w =>
      simp only [Bank.popToken, Bank.flag_modFlag]
      by_cases h : f = w
      · simp [h]
      · simp [h, Ne.symm h]
  cases push with
  | none => simp [Bank.owe, hp]
  | some p =>
    simp only [Bank.owe, Bank.flag_modFlag]
    by_cases h : f = p
    · subst h; simp [hp]
    · simp [h, Ne.symm h, hp]

end Sys2Proof.Machine
end

