-- ==== Sys2Proof/Laws/Issue.lean ====
section
/-! SUPPORT. Laws/Issue.lean: what issuing an X syllable does, once for every meaning: the gates it passes, what it takes,
and what a result or a push adds. -/
namespace Sys2Proof.Claims
open Sys2Proof Sys2Proof.Machine

/-! ### Frames -/

theorem OnlyBank.refl (s : State) : OnlyBank s s :=
  ⟨rfl, rfl, rfl, rfl, rfl, rfl, fun _ _ => rfl, rfl, fun _ _ => rfl⟩

/-- An update of the bank of the turn. -/
theorem OnlyBank.modTb {s t : State} (h : OnlyBank s t) (f : Bank → Bank) : OnlyBank s (t.modTb f) := by
  have hc := h.core
  have hk := h.ctx
  refine ⟨?_, h.core, h.ctx, h.stream, h.col, h.word, ?_, ?_, ?_⟩
  · exact congrArg (fun u : State => { u with cores := (t.modTb f).cores }) h.state
  · intro g hg
    rw [State.core_modTb, if_neg (by rw [hc]; exact hg)]
    exact h.cores g hg
  · rw [State.core_modTb, if_pos hc.symm, h.rest]
    rfl
  · intro k hk'
    rw [State.bank_modTb, if_neg (by rw [hk]; exact fun e => hk' e.2)]
    exact h.banks k hk'

theorem OnlyBank.modTc {s t : State} (h : OnlyBank s t) (f : Column → Column) : OnlyBank s (t.modTc f) := h.modTb _

theorem OnlyBank.how {s t : State} (h : OnlyBank s t) (w : How) : OnlyBank s (t.how w) :=
  ⟨congrArg (fun u : State => { u with turn := (t.how w).turn }) h.state, h.core, h.ctx, h.stream, h.col, h.word, h.cores,
    h.rest, h.banks⟩

theorem OnlyBank.turn {s t : State} (h : OnlyBank s t) (w : How) (l : List Nat) :
    OnlyBank s { t with turn := { t.turn with how := w, pops := l } } :=
  ⟨congrArg (fun u : State => { u with turn := { t.turn with how := w, pops := l } }) h.state, h.core, h.ctx, h.stream,
    h.col, h.word, h.cores, h.rest, h.banks⟩

theorem OnlyBank.schedule {s t : State} (h : OnlyBank s t) (n : Nat) (i : Instr) (a : EvArgs) :
    OnlyBank s (t.schedule n i a) :=
  ⟨congrArg (fun u : State => { u with agenda := (t.schedule n i a).agenda }) h.state, h.core, h.ctx, h.stream, h.col,
    h.word, h.cores, h.rest, h.banks⟩

theorem OnlyBank.trans {s t u : State} (h : OnlyBank s t) (h' : OnlyBank t u) : OnlyBank s u := by
  refine ⟨?_, h'.core.trans h.core, h'.ctx.trans h.ctx, h'.stream.trans h.stream, h'.col.trans h.col,
    h'.word.trans h.word, ?_, ?_, ?_⟩
  · exact h'.state.trans (congrArg (fun v : State => { v with cores := u.cores, turn := u.turn, agenda := u.agenda }) h.state)
  · intro g hg; rw [h'.cores g (by rw [h.core]; exact hg), h.cores g hg]
  · have h1 := h'.rest
    rw [h.core, h.rest] at h1
    exact h1
  · intro k hk
    have := h'.banks k (by rw [h.ctx]; exact hk)
    rw [h.core] at this
    rw [this, h.banks k hk]

theorem OnlyBank.cycle {s t : State} (h : OnlyBank s t) : t.cycle = s.cycle := by rw [h.state]

/-- A bank update leaves every byte of every memory alone. -/
theorem OnlyBank.memory {s t : State} (h : OnlyBank s t) : SameMemory s t := by
  refine ⟨fun a => by rw [h.state], fun a => by rw [h.state], fun g a => ?_⟩
  by_cases hg : g = s.turn.core
  · rw [hg, h.rest]
  · rw [h.cores g hg]

end Sys2Proof.Claims

namespace Sys2Proof.Machine
open Sys2Proof Sys2Proof.Claims

/-! ### The gates -/

theorem find_none_of_heads {l : List Nat} {b : Bank} (h : ∀ q ∈ l, headReady (b.qAX q) = true) :
    (l.find? fun q => !headReady (b.qAX q)) = none := by
  rw [List.find?_eq_none]
  intro q hq
  simp [h q hq]

/-- A free syllable whose ports have entries passes the gates. -/
theorem xGate_free {h : XHdr} {s : State} (f : XFree h s) {ports : List Nat}
    (hp : ∀ q ∈ ports, headReady (s.tb.qAX q) = true) : s.xGate h ports = none := by
  unfold State.xGate
  simp only [f.consumer, f.producer, f.token, f.room, f.landing, f.running, find_none_of_heads hp]
  rfl

/-- A ready syllable does what its meaning says after its pops. -/
theorem xIssue_ready {h : XHdr} {srcs : List Nat} {s : State} (r : XReady h srcs s) (l : Nat) {blk : State → Option State}
    (hb : blk s = none) (eff : State → State) :
    xIssue h l srcs blk eff s = .next (eff (s.xTake h (dedup srcs))) := by
  have hp : ∀ q ∈ dedup srcs, headReady (s.tb.qAX q) = true := fun q hq => r.heads q ((mem_dedup srcs q).mp hq)
  simp only [xIssue, r.guard, if_true, xGate_free r.toXFree hp, hb]

/-- A syllable that is guarded off takes its token, pops no queue and pushes when it would have retired. -/
theorem xIssue_off {h : XHdr} {s : State} (f : XFree h s) (hg : s.guard h = false) (l : Nat) (srcs : List Nat)
    (blk : State → Option State) (eff : State → State) :
    xIssue h l srcs blk eff s = .next ((s.xTake h []).xNext.xPush h l) := by
  simp [xIssue, hg, xGate_free f (ports := []) (by simp)]

theorem tb_schedule (s : State) (n : Nat) (i : Instr) (a : EvArgs) : (s.schedule n i a).tb = s.tb := rfl
theorem flag_modCol (b : Bank) (c : Fin 4) (f : Column → Column) (x : Fin 16) : (b.modCol c f).flag x = b.flag x := rfl

theorem schedule_agenda (s : State) (n : Nat) (i : Instr) (a : EvArgs) :
    (s.schedule n i a).agenda =
      insertBy (fun x y => decide (x.at_ < y.at_)) { at_ := s.cycle + n, what := i, args := a } s.agenda := rfl

/-! ### What an issued syllable takes -/

/-- The bank before its queues are popped. -/
def takenBank (s : State) (h : XHdr) : Bank :=
  let b := (s.tb.popToken h.wait).owe h.push
  let b := if h.wait.isSome then { b with qx := b.qx + 1 } else b
  { b with bpSkip := b.bpSkip.filter fun x => x != (.x, s.turn.col) }

theorem xTake_tb (s : State) (h : XHdr) (ports : List Nat) :
    (s.xTake h ports).tb =
      (ports.foldl (fun (b : Bank) q => b.popAX q) (takenBank s h)).modCol s.turn.col fun c => { c with wait := none } := by
  show ((s.modTb _).modTc _).tb = _
  rw [State.tb_modTc, State.tb_modTb]
  rfl

theorem takenBank_form (b c : Bank) (fl : Vector FlagSt 16) (e : b = { c with flags := fl }) (w : Bool)
    (k : Option (Stream × Fin 4)) :
    ({ (if w then { b with qx := b.qx + 1 } else b) with bpSkip := k } : Bank) =
      { c with flags := fl, qx := (if w then { b with qx := b.qx + 1 } else b).qx, bpSkip := k } := by
  subst e
  cases w <;> rfl

theorem takenBank_eq (s : State) (h : XHdr) :
    takenBank s h = { s.tb with flags := ((s.tb.popToken h.wait).owe h.push).flags, qx := (takenBank s h).qx,
                                bpSkip := (takenBank s h).bpSkip } := by
  have e : (s.tb.popToken h.wait).owe h.push = { s.tb with flags := ((s.tb.popToken h.wait).owe h.push).flags } := by
    rw [Bank.owe_eq, Bank.popToken_eq]
  have := takenBank_form _ s.tb _ e h.wait.isSome
    (((if h.wait.isSome then
        { (s.tb.popToken h.wait).owe h.push with qx := ((s.tb.popToken h.wait).owe h.push).qx + 1 }
      else (s.tb.popToken h.wait).owe h.push) : Bank).bpSkip.filter fun x => x != (Stream.x, s.turn.col))
  exact this

theorem xTake_bank_form (b c d : Bank) (fl : Vector FlagSt 16) (qx : Nat) (k : Option (Stream × Fin 4))
    (h1 : b = { c with qsAX := b.qsAX, qvAX := b.qvAX, brq := b.brq, qx := b.qx })
    (h2 : c = { d with flags := fl, qx := qx, bpSkip := k }) :
    b = { d with flags := fl, qsAX := b.qsAX, qvAX := b.qvAX, brq := b.brq, qx := b.qx, bpSkip := k } := by
  subst h2
  exact h1

theorem xTake_bank (s : State) (h : XHdr) (ports : List Nat) :
    (s.xTake h ports).tb =
      { s.tb with
        cols := (s.tb.modCol s.turn.col fun c => { c with wait := none }).cols,
        flags := ((s.tb.popToken h.wait).owe h.push).flags, qsAX := (s.xTake h ports).tb.qsAX,
        qvAX := (s.xTake h ports).tb.qvAX, brq := (s.xTake h ports).tb.brq, qx := (s.xTake h ports).tb.qx,
        bpSkip := (s.xTake h ports).tb.bpSkip } := by
  rw [xTake_tb]
  have h1 := xTake_bank_form (ports.foldl (fun (b : Bank) q => b.popAX q) (takenBank s h)) (takenBank s h) s.tb _ _ _
    (Bank.popsAX_eq ports (takenBank s h)) (takenBank_eq s h)
  generalize (ports.foldl (fun (b : Bank) q => b.popAX q) (takenBank s h)) = b at h1 ⊢
  rw [h1]
  rfl

theorem xTake_only (s : State) (h : XHdr) (ports : List Nat) : OnlyBank s (s.xTake h ports) :=
  (((OnlyBank.refl s).modTb _).modTc _).turn _ _

theorem xTake_queues (s : State) (h : XHdr) (srcs : List Nat) (hl : ∀ q ∈ srcs, q < 9) (q : Nat) (hq : q < 9) :
    (s.xTake h (dedup srcs)).tb.qAX q = if q ∈ srcs then (s.tb.qAX q).tail else s.tb.qAX q := by
  rw [xTake_tb]
  have hp := Bank.qAX_popsAX (dedup srcs) (takenBank s h) (nodup_dedup srcs)
    (fun x hx => hl x ((mem_dedup srcs x).mp hx)) q hq
  have ht : (takenBank s h).qAX q = s.tb.qAX q := by rw [takenBank_eq]; rfl
  have hm (b : Bank) (f : Column → Column) : (b.modCol s.turn.col f).qAX q = b.qAX q := rfl
  rw [hm]
  simp only [mem_dedup, ht] at hp
  exact hp

theorem xTake_flag (s : State) (h : XHdr) (ports : List Nat) : TokensOwed h.wait h.push s.tb (s.xTake h ports).tb := by
  intro f
  rw [xTake_bank]
  exact Bank.flag_take s.tb h.wait h.push f

theorem xTake_col (s : State) (h : XHdr) (ports : List Nat) (c : Fin 4) :
    (s.xTake h ports).tb.col c = if c = s.turn.col then { s.tc with wait := none } else s.tb.col c := by
  rw [xTake_bank]
  exact Bank.col_modCol s.tb s.turn.col c fun c => { c with wait := none }

@[simp] theorem xTake_turn_core (s : State) (h : XHdr) (ports : List Nat) : (s.xTake h ports).turn.core = s.turn.core := rfl
@[simp] theorem xTake_turn_ctx (s : State) (h : XHdr) (ports : List Nat) : (s.xTake h ports).turn.ctx = s.turn.ctx := rfl
@[simp] theorem xTake_turn_col (s : State) (h : XHdr) (ports : List Nat) : (s.xTake h ports).turn.col = s.turn.col := rfl
@[simp] theorem xTake_turn_how (s : State) (h : XHdr) (ports : List Nat) : (s.xTake h ports).turn.how = .issued := rfl
@[simp] theorem xTake_agenda (s : State) (h : XHdr) (ports : List Nat) : (s.xTake h ports).agenda = s.agenda := rfl

theorem xTake_inflight (s : State) (h : XHdr) (ports : List Nat) : (s.xTake h ports).tb.inflight = s.tb.inflight := by
  rw [xTake_bank]
theorem xTake_xcycle (s : State) (h : XHdr) (ports : List Nat) : (s.xTake h ports).tb.xcycle = s.tb.xcycle := by
  rw [xTake_bank]
theorem xTake_nextSeq (s : State) (h : XHdr) (ports : List Nat) : (s.xTake h ports).tb.nextSeq = s.tb.nextSeq := by
  rw [xTake_bank]

/-- The ports of a source are queue ports. -/
theorem sPorts_lt (x : SSrc) : ∀ q ∈ sPorts x, q < 9 := by
  cases x <;> simp [sPorts] <;> omega
theorem vPorts_lt (x : VSrc) : ∀ q ∈ vPorts x, q < 9 := by
  cases x <;> simp [vPorts] <;> omega
theorem append_lt {l m : List Nat} (hl : ∀ q ∈ l, q < 9) (hm : ∀ q ∈ m, q < 9) : ∀ q ∈ l ++ m, q < 9 := by
  intro q hq
  rcases List.mem_append.mp hq with h | h
  · exact hl q h
  · exact hm q h

/-- The taken state changes only the parts that issuing changes. -/
theorem xTake_parts (s : State) (h : XHdr) (ports : List Nat) : (s.xTake h ports).tb = xParts s.tb (s.xTake h ports).tb := by
  have := xTake_bank s h ports
  generalize (s.xTake h ports).tb = b at this ⊢
  rw [this]
  rfl

/-- A bank that keeps the taken queues, columns, flags and results. -/
structure TakenBy (r : XForm) (s : State) (b : Bank) : Prop where
  parts : b = xParts (r.upd s s.tb) b
  cols : b.cols = (s.xTake r.hdr (dedup r.srcs)).tb.cols
  qsAX : b.qsAX = (s.xTake r.hdr (dedup r.srcs)).tb.qsAX
  qvAX : b.qvAX = (s.xTake r.hdr (dedup r.srcs)).tb.qvAX
  brq : b.brq = (s.xTake r.hdr (dedup r.srcs)).tb.brq

theorem TakenBy.qAX {r : XForm} {s : State} {b : Bank} (h : TakenBy r s b) (q : Nat) :
    b.qAX q = (s.xTake r.hdr (dedup r.srcs)).tb.qAX q := by
  unfold Bank.qAX
  rw [h.qsAX, h.qvAX, h.brq]

theorem TakenBy.col {r : XForm} {s : State} {b : Bank} (h : TakenBy r s b) (c : Fin 4) :
    b.col c = (s.xTake r.hdr (dedup r.srcs)).tb.col c := by
  unfold Bank.col
  rw [h.cols]

/-- A form without a change of its own. -/
theorem takenBy_take {r : XForm} {s : State} (hr : r.upd s s.tb = s.tb) : TakenBy r s (s.xTake r.hdr (dedup r.srcs)).tb :=
  ⟨by rw [hr]; exact xTake_parts s _ _, rfl, rfl, rfl, rfl⟩

theorem xTook_of {r : XForm} {s t : State} (hl : ∀ q ∈ r.srcs, q < 9) (only : OnlyBank s t)
    (issued : t.turn.how = .issued) (b : Bank) (hb : TakenBy r s b)
    (ht : t.tb = b.modCol s.turn.col (r.col s)) : XTook r s t := by
  refine ⟨only, issued, ?_, ?_, ?_, ?_⟩
  · rw [ht]
    have h1 := hb.parts
    generalize b = b' at h1 ⊢
    rw [h1]
    rfl
  · intro q hq'
    rw [ht]
    exact (hb.qAX q).trans (xTake_queues s r.hdr r.srcs hl q hq')
  · intro c hc'
    rw [ht, Bank.col_modCol, if_neg hc', hb.col, xTake_col, if_neg hc']
  · have e : t.tc = t.tb.col s.turn.col := by
      show Bank.col _ _ = _
      rw [only.col]
    rw [e, ht, Bank.col_modCol, if_pos rfl, hb.col, xTake_col, if_pos rfl]

/-- The column of a state whose column is changed. -/
theorem modTc_tb_of {s t : State} (h : t.turn.col = s.turn.col) (f : Column → Column) :
    (t.modTc f).tb = t.tb.modCol s.turn.col f := by
  rw [State.tb_modTc, h]

/-- A state that has taken the syllable's tokens and entries and made its form's change, its column and its results still to
come. -/
structure TakenState (r : XForm) (s u : State) : Prop where
  only : OnlyBank s u
  issued : u.turn.how = .issued
  agenda : u.agenda = s.agenda
  bank : TakenBy r s u.tb
  inflight : u.tb.inflight = s.tb.inflight
  nextSeq : u.tb.nextSeq = s.tb.nextSeq
  flags : u.tb.flags = (s.xTake r.hdr (dedup r.srcs)).tb.flags
  xcycle : u.tb.xcycle = s.tb.xcycle

theorem takenState_take {r : XForm} {s : State} (hr : r.upd s s.tb = s.tb) :
    TakenState r s (s.xTake r.hdr (dedup r.srcs)) :=
  ⟨xTake_only s _ _, rfl, rfl, takenBy_take hr, xTake_inflight s _ _, xTake_nextSeq s _ _, rfl, xTake_xcycle s _ _⟩

/-- The form's own change of the bank, made after the take. -/
theorem takenState_upd {r : XForm} {s : State} (f : Bank → Bank) (hf : ∀ b, f b = xParts (f b) b)
    (hp : ∀ b n, f (xParts b n) = xParts (f b) n) (hx : ∀ b, (f b).xcycle = b.xcycle) (hr : r.upd s s.tb = f s.tb) :
    TakenState r s ((s.xTake r.hdr (dedup r.srcs)).modTb f) := by
  have e : ((s.xTake r.hdr (dedup r.srcs)).modTb f).tb = f (s.xTake r.hdr (dedup r.srcs)).tb := State.tb_modTb _ _
  have ht := xTake_parts s r.hdr (dedup r.srcs)
  refine ⟨(xTake_only s _ _).modTb f, rfl, rfl, ⟨?_, ?_, ?_, ?_, ?_⟩, ?_, ?_, ?_, ?_⟩
  · rw [e, hr]
    have h1 : f (s.xTake r.hdr (dedup r.srcs)).tb = xParts (f s.tb) (s.xTake r.hdr (dedup r.srcs)).tb := by
      rw [← hp, ← ht]
    have h2 : xParts (f s.tb) (f (s.xTake r.hdr (dedup r.srcs)).tb) = xParts (f s.tb) (s.xTake r.hdr (dedup r.srcs)).tb := by
      rw [hf (s.xTake r.hdr (dedup r.srcs)).tb]
      rfl
    exact h1.trans h2.symm
  · rw [e, hf]; rfl
  · rw [e, hf]; rfl
  · rw [e, hf]; rfl
  · rw [e, hf]; rfl
  · rw [e, hf]; exact xTake_inflight s _ _
  · rw [e, hf]; exact xTake_nextSeq s _ _
  · rw [e, hf]; rfl
  · rw [e, hx]; exact xTake_xcycle s _ _

/-- A result delivered by the taken state, whose column then goes on as the form says. -/
theorem xDelivers_of {r : XResult} {s u t : State} (hl : ∀ q ∈ r.srcs, q < 9) (hu : TakenState r.toXForm s u)
    (ht : t = (u.modTb fun b => b.deliver s.turn.col r.dst r.kind (r.val s) r.lat (r.flags s) r.hdr.push).modTc (r.col s)) :
    XDelivers r s t := by
  subst ht
  have htb : ((u.modTb fun b => b.deliver s.turn.col r.dst r.kind (r.val s) r.lat (r.flags s) r.hdr.push).modTc (r.col s)).tb =
      (u.tb.deliver s.turn.col r.dst r.kind (r.val s) r.lat (r.flags s) r.hdr.push).modCol s.turn.col (r.col s) := by
    refine (modTc_tb_of (s := s) (t := u.modTb _) hu.only.col (r.col s)).trans ?_
    rw [State.tb_modTb]
  refine ⟨?_, ?_, ?_, hu.agenda⟩
  · refine xTook_of hl ((hu.only.modTb _).modTc _) hu.issued _ ?_ htb
    refine ⟨?_, hu.bank.cols, hu.bank.qsAX, hu.bank.qvAX, hu.bank.brq⟩
    have h1 := hu.bank.parts
    generalize u.tb = b at h1 ⊢
    unfold Bank.deliver
    rw [h1]
    rfl
  · rw [htb]
    show u.tb.inflight ++ _ = _
    unfold flightOf
    rw [hu.xcycle, hu.inflight, hu.nextSeq]
  · intro f
    rw [htb]
    refine Eq.trans ?_ (xTake_flag s r.hdr (dedup r.srcs) f)
    show Vector.get u.tb.flags f = Vector.get _ f
    rw [hu.flags]

/-- A push at once after the taken state, whose column went on as the form says. -/
theorem xActs_of {r : XForm} {s u t : State} (hl : ∀ q ∈ r.srcs, q < 9) (hu : TakenState r s u)
    (ht : t = (u.modTc (r.col s)).xPush r.hdr 0) : XActs r s t := by
  have hut : (u.modTc (r.col s)).tb = u.tb.modCol s.turn.col (r.col s) := modTc_tb_of hu.only.col _
  have hflag : ∀ f, (u.tb.modCol s.turn.col (r.col s)).flag f = (s.xTake r.hdr (dedup r.srcs)).tb.flag f := by
    intro f
    show Vector.get u.tb.flags f = Vector.get _ f
    rw [hu.flags]
  have hcyc : u.cycle = s.cycle := hu.only.cycle
  cases hp : r.hdr.push with
  | none =>
    have e : t = u.modTc (r.col s) := by rw [ht]; unfold State.xPush; rw [hp]
    subst e
    refine ⟨xTook_of hl (hu.only.modTc _) hu.issued u.tb hu.bank hut, ?_, ?_, ?_⟩
    · rw [hut]
      exact ⟨hu.inflight, hu.nextSeq⟩
    · intro f
      have hx := xTake_flag s r.hdr (dedup r.srcs) f
      rw [hut, hflag f, hx, hp]
      simp
    · rw [hp]
      exact hu.agenda
  | some g =>
    have e : t = ((u.modTc (r.col s)).modTb fun b => b.modFlag g fun x => { x with owed := x.owed - 1, travel := x.travel + 1 }).schedule
        2 .tokenPoppable { EvArgs.at u.turn.core u.turn.ctx with n := g.val } := by
      rw [ht]; unfold State.xPush; rw [hp]; rfl
    have hb : t.tb = (u.tb.modFlag g fun x => { x with owed := x.owed - 1, travel := x.travel + 1 }).modCol s.turn.col (r.col s) := by
      rw [e]
      rw [tb_schedule, State.tb_modTb, hut]
      rfl
    refine ⟨?_, ?_, ?_, ?_⟩
    · refine xTook_of hl ?_ (by rw [e]; exact hu.issued) _ ?_ hb
      · rw [e]
        exact ((hu.only.modTc _).modTb _).schedule _ _ _
      · refine ⟨?_, hu.bank.cols, hu.bank.qsAX, hu.bank.qvAX, hu.bank.brq⟩
        have h1 := hu.bank.parts
        generalize u.tb = b at h1 ⊢
        unfold Bank.modFlag
        rw [h1]
        rfl
    · rw [hb]
      exact ⟨hu.inflight, hu.nextSeq⟩
    · intro f
      have hx := xTake_flag s r.hdr (dedup r.srcs) f
      rw [hb]
      rw [flag_modCol, Bank.flag_modFlag]
      have h1 := hflag f
      have h2 : u.tb.flag f = (s.xTake r.hdr (dedup r.srcs)).tb.flag f := h1
      by_cases hg : f = g
      · subst hg
        rw [if_pos rfl, h2, hx, hp]
        simp
      · rw [if_neg hg, h2, hx, hp]
        simp [Ne.symm hg]
    · rw [e, hp]
      show ((u.modTc (r.col s)).modTb _ |>.schedule 2 .tokenPoppable _).agenda = (s.schedule 2 .tokenPoppable _).agenda
      rw [schedule_agenda, schedule_agenda, ← hcyc, ← hu.agenda, hu.only.core, hu.only.ctx]
      rfl

/-- A scalar form delivers its value. -/
theorem xScalar_delivers {h : XHdr} {d : SDst} {l : Nat} {srcs : List Nat} {f : State → Word × FFlags} {s : State}
    (r : XReady h srcs s) (hl : ∀ q ∈ srcs, q < 9) {v : State → Word} {fl : State → FFlags} (hv : f s = (v s, fl s)) :
    ∃ t, xScalar h d l srcs f s = .next t ∧
      XDelivers { hdr := h, srcs := srcs, dst := sdstCode d, kind := .scalar, lat := l,
                  val := fun s => (v s).setWidth 1024, flags := fl } s t := by
  refine ⟨_, xIssue_ready r l rfl _, ?_⟩
  simp only [hv]
  exact xDelivers_of hl (takenState_take rfl) rfl

/-- A vector form delivers its value. -/
theorem xVector_delivers {h : XHdr} {d : VDst} {l : Nat} {srcs : List Nat} {f : State → Vec × FFlags} {s : State}
    (r : XReady h srcs s) (hl : ∀ q ∈ srcs, q < 9) {v : State → Vec} {fl : State → FFlags} (hv : f s = (v s, fl s)) :
    ∃ t, xVector h d l srcs f s = .next t ∧
      XDelivers { hdr := h, srcs := srcs, dst := vdstCode d, kind := .vector, lat := l, val := v, flags := fl } s t := by
  refine ⟨_, xIssue_ready r l rfl _, ?_⟩
  simp only [hv]
  exact xDelivers_of hl (takenState_take rfl) rfl

/-- A predicate form delivers its value. -/
theorem xPredicate_delivers {h : XHdr} {p : Fin 8} {l : Nat} {srcs : List Nat} {f : State → Bool} {s : State}
    (r : XReady h srcs s) (hl : ∀ q ∈ srcs, q < 9) {v : State → Bool} (hv : f s = v s) :
    ∃ t, xPredicate h p l srcs f s = .next t ∧ XDelivers (predTo h p l srcs v) s t := by
  refine ⟨_, xIssue_ready r l rfl _, ?_⟩
  simp only [hv]
  exact xDelivers_of (r := predTo h p l srcs v) hl (takenState_take rfl) rfl

end Sys2Proof.Machine
end

