-- ==== Sys2Proof/Laws/Values.lean ====
section
/-! SUPPORT. Laws/Values.lean: the model's value functions are the formulas that the statements write. -/
namespace Sys2Proof.Machine
open Sys2Proof Sys2Proof.Claims

theorem shlW_eq (a b : Word) : shlW a b = shiftLeft a b := by
  unfold shlW shiftLeft
  by_cases h : b.toNat < 32
  · rw [if_pos h, if_neg (by omega)]
  · rw [if_neg h, if_pos (by omega)]

theorem shrW_eq (a b : Word) : shrW a b = shiftRight a b := by
  unfold shrW shiftRight
  by_cases h : b.toNat < 32
  · rw [if_pos h, if_neg (by omega)]
  · rw [if_neg h, if_pos (by omega)]

theorem sraW_eq (a b : Word) : sraW a b = shiftArith a b := by
  unfold sraW shiftArith
  apply BitVec.eq_of_toInt_eq
  have ha := a.toInt_lt
  have ha' := a.le_toInt
  norm_num at ha ha'
  by_cases h : b.toNat < 32
  · rw [if_pos h, Nat.min_eq_left (by omega), BitVec.toInt_sshiftRight, BitVec.toInt_ofInt, Int.shiftRight_eq_div_pow]
    have hp : (0 : Int) < ((2 ^ b.toNat : Nat) : Int) := by exact_mod_cast Nat.two_pow_pos _
    have h1 : a.toInt / ((2 ^ b.toNat : Nat) : Int) < 2147483648 := by
      apply Int.ediv_lt_of_lt_mul hp
      nlinarith
    have h2 : -2147483648 ≤ a.toInt / ((2 ^ b.toNat : Nat) : Int) := by
      apply Int.le_ediv_of_mul_le hp
      nlinarith
    push_cast at h1 h2 ⊢
    rw [Int.bmod_eq_of_le (by norm_num; exact h2) (by norm_num; exact h1)]
  · rw [if_neg h, Nat.min_eq_right (by omega), BitVec.toInt_ofInt]
    have e : bit a 31 = decide (a.toInt < 0) := by
      have := BitVec.msb_eq_toInt (x := a)
      rw [← this]
      rfl
    rw [e]
    by_cases hn : a.toInt < 0
    · have : a.toInt / 2 ^ 31 = -1 := by omega
      rw [this, decide_eq_true hn]
      decide
    · have : a.toInt / 2 ^ 31 = 0 := by omega
      rw [this, decide_eq_false hn]
      decide

theorem minW_eq (u : Bool) (a b : Word) : minW u a b = lesser u a b := by
  unfold minW lesser
  cases u
  · simp only [Bool.false_eq_true, if_false, BitVec.slt_eq_decide, decide_eq_true_eq]
    by_cases h : b.toInt < a.toInt
    · rw [if_pos h, if_neg (by omega)]
    · rw [if_neg h, if_pos (by omega)]
  · simp only [if_true, BitVec.ult_eq_decide, decide_eq_true_eq]
    by_cases h : b.toNat < a.toNat
    · rw [if_pos h, if_neg (by omega)]
    · rw [if_neg h, if_pos (by omega)]

theorem maxW_eq (u : Bool) (a b : Word) : maxW u a b = greater u a b := by
  unfold maxW greater
  cases u
  · simp only [Bool.false_eq_true, if_false, BitVec.slt_eq_decide, decide_eq_true_eq]
    by_cases h : a.toInt < b.toInt
    · rw [if_pos h, if_neg (by omega)]
    · rw [if_neg h, if_pos (by omega)]
  · simp only [if_true, BitVec.ult_eq_decide, decide_eq_true_eq]
    by_cases h : a.toNat < b.toNat
    · rw [if_pos h, if_neg (by omega)]
    · rw [if_neg h, if_pos (by omega)]

theorem mulhW_eq (u : Bool) (a b : Word) : mulhW u a b = highProduct u a b := by
  unfold mulhW highProduct
  cases u
  · simp only [Bool.false_eq_true, if_false]
    apply BitVec.eq_of_toNat_eq
    have ha := a.toInt_lt
    have ha' := a.le_toInt
    have hb := b.toInt_lt
    have hb' := b.le_toInt
    norm_num at ha ha' hb hb'
    have h1 : (a.signExtend 64 * b.signExtend 64).toInt = a.toInt * b.toInt := by
      rw [BitVec.toInt_mul, BitVec.toInt_signExtend_of_le (by decide), BitVec.toInt_signExtend_of_le (by decide)]
      apply Int.bmod_eq_of_le
      · norm_num; nlinarith
      · norm_num; nlinarith
    rw [BitVec.toNat_setWidth, BitVec.toNat_ushiftRight, BitVec.toNat_ofInt]
    have h2 := BitVec.toInt_eq_toNat_bmod (a.signExtend 64 * b.signExtend 64)
    generalize (a.signExtend 64 * b.signExtend 64).toNat = n at h2 ⊢
    rw [h1] at h2
    have h3 : (a.toInt * b.toInt) % 2 ^ 64 = (n : Int) % 2 ^ 64 := by
      rw [h2]
      exact_mod_cast Int.bmod_emod
    rw [Nat.shiftRight_eq_div_pow]
    generalize a.toInt * b.toInt = p at h3 ⊢
    omega
  · simp only [if_true]
    apply BitVec.eq_of_toNat_eq
    have ha := a.isLt
    have hb := b.isLt
    have : a.toNat * b.toNat < 2 ^ 64 := by nlinarith
    simp only [BitVec.toNat_setWidth, BitVec.toNat_ushiftRight, BitVec.toNat_mul, BitVec.toNat_ofNat]
    rw [Nat.mod_eq_of_lt (by omega : a.toNat < 2 ^ 64), Nat.mod_eq_of_lt (by omega : b.toNat < 2 ^ 64),
      Nat.mod_eq_of_lt this, Nat.shiftRight_eq_div_pow]

theorem icond_eq (c : ICond) (a b : Word) : icond c a b = holdsFor c a b := by
  cases c <;> simp [icond, holdsFor, BitVec.slt_eq_decide, BitVec.sle_eq_decide, BitVec.ult_eq_decide, BitVec.ule_eq_decide]

theorem bfxW_eq (sx : Bool) (w : Nat) (a pos : Word) : bfxW sx w a pos = fieldOf sx w a pos := by
  unfold bfxW fieldOf
  have hm : ((a >>> (pos.toNat % 32)) &&& BitVec.ofNat 32 (2 ^ w - 1)) =
      BitVec.ofNat 32 ((a.toNat >>> (pos.toNat % 32)) % 2 ^ w) := by
    apply BitVec.eq_of_toNat_eq
    have ha := a.isLt
    have hs : a.toNat >>> (pos.toNat % 32) < 2 ^ 32 := by
      rw [Nat.shiftRight_eq_div_pow]
      exact lt_of_le_of_lt (Nat.div_le_self _ _) ha
    rw [BitVec.toNat_and, BitVec.toNat_ushiftRight, BitVec.toNat_ofNat, BitVec.toNat_ofNat]
    generalize a.toNat >>> (pos.toNat % 32) = n at hs ⊢
    rw [Nat.mod_eq_of_lt (lt_of_le_of_lt (Nat.mod_le n (2 ^ w)) hs)]
    apply Nat.eq_of_testBit_eq
    intro i
    rw [Nat.testBit_and, Nat.testBit_mod_two_pow, Nat.testBit_mod_two_pow, Nat.testBit_two_pow_sub_one]
    by_cases hi : i < 32
    · simp only [hi, decide_true, Bool.true_and, Bool.and_comm]
    · have : n.testBit i = false := Nat.testBit_lt_two_pow (lt_of_lt_of_le hs (Nat.pow_le_pow_right (by decide) (by omega)))
      simp [this]
  simp only [hm]
  set f := (a.toNat >>> (pos.toNat % 32)) % 2 ^ w with hf
  have hfw : f < 2 ^ w := Nat.mod_lt _ (Nat.two_pow_pos _)
  have hf32 : f < 2 ^ 32 := by
    have ha := a.isLt
    have : a.toNat >>> (pos.toNat % 32) < 2 ^ 32 := by
      rw [Nat.shiftRight_eq_div_pow]
      exact lt_of_le_of_lt (Nat.div_le_self _ _) ha
    exact lt_of_le_of_lt (Nat.mod_le _ _) this
  cases sx
  · simp
  · by_cases hw : w = 0
    · subst hw
      have : f = 0 := by omega
      simp [this]
    · by_cases hb : f.testBit (w - 1) = true
      · have hw32 : w ≤ 32 := by
          by_contra hc
          have := Nat.testBit_lt_two_pow (lt_of_lt_of_le hf32 (Nat.pow_le_pow_right (by decide : 0 < 2) (by omega : 32 ≤ w - 1)))
          rw [this] at hb
          cases hb
        have e : bit (BitVec.ofNat 32 f) (w - 1) = true := by
          unfold bit
          rw [BitVec.getLsbD_ofNat]
          simp [hb]
          omega
        have h1 : decide (1 ≤ w) = true := decide_eq_true (by omega)
        simp only [Bool.true_and, h1, e, hb, if_true]
        apply BitVec.eq_of_toNat_eq
        rw [BitVec.toNat_or, BitVec.toNat_ofNat, BitVec.toNat_ofNat, BitVec.toNat_ofInt, Nat.mod_eq_of_lt hf32]
        have hp : 2 ^ w ≤ 2 ^ 32 := Nat.pow_le_pow_right (by decide) hw32
        have hp0 : 0 < 2 ^ w := Nat.two_pow_pos _
        rw [Nat.mod_eq_of_lt (by omega : 2 ^ 32 - 2 ^ w < 2 ^ 32)]
        have e2 : 2 ^ 32 - 2 ^ w = 2 ^ w * (2 ^ (32 - w) - 1) := by
          rw [Nat.mul_sub, ← Nat.pow_add]
          simp [Nat.add_sub_cancel' hw32]
        have e3 : f ||| (2 ^ 32 - 2 ^ w) = (2 ^ 32 - 2 ^ w) + f := by
          rw [e2, Nat.lor_comm, Nat.two_pow_add_eq_or_of_lt hfw]
        rw [e3]
        have : ((f : Int) - 2 ^ w) % (2 ^ 32 : Nat) = ((2 ^ 32 - 2 ^ w + f : Nat) : Int) := by
          rw [← Int.add_emod_right, Int.emod_eq_of_lt]
          · rw [Nat.cast_add, Nat.cast_sub hp]; push_cast; ring
          · have : (2 : Int) ^ w ≤ 2 ^ 32 := by exact_mod_cast hp
            push_cast; omega
          · have : (f : Int) < 2 ^ w := by exact_mod_cast hfw
            push_cast; omega
        rw [this]
        rfl
      · have hb' : f.testBit (w - 1) = false := by simpa using hb
        have e : bit (BitVec.ofNat 32 f) (w - 1) = false := by
          unfold bit
          rw [BitVec.getLsbD_ofNat]
          simp [hb']
        simp [e, hb']

theorem bfiW_eq (w : Nat) (a b pos : Word) : bfiW w a b pos =
    (a &&& ~~~(BitVec.ofNat 32 ((2 ^ w - 1) * 2 ^ (pos.toNat % 32)))) |||
      ((b <<< (pos.toNat % 32)) &&& BitVec.ofNat 32 ((2 ^ w - 1) * 2 ^ (pos.toNat % 32))) := by
  unfold bfiW
  rw [Nat.shiftLeft_eq]

theorem leaW_eq (y : Word) (k : Nat) : y <<< k = y * BitVec.ofNat 32 (2 ^ k) := by
  apply BitVec.eq_of_toNat_eq
  rw [BitVec.toNat_shiftLeft, BitVec.toNat_mul, BitVec.toNat_ofNat, Nat.shiftLeft_eq]
  simp

theorem sPorts2_lt (a b : SSrc) : ∀ q ∈ sPorts a ++ sPorts b, q < 9 := append_lt (sPorts_lt a) (sPorts_lt b)
theorem vPorts2_lt (a b : VSrc) : ∀ q ∈ vPorts a ++ vPorts b, q < 9 := append_lt (vPorts_lt a) (vPorts_lt b)
theorem vPorts3_lt (a b c : VSrc) : ∀ q ∈ vPorts a ++ vPorts b ++ vPorts c, q < 9 := append_lt (vPorts2_lt a b) (vPorts_lt c)
theorem vsPorts_lt (a : VSrc) (b : SSrc) : ∀ q ∈ vPorts a ++ sPorts b, q < 9 := append_lt (vPorts_lt a) (sPorts_lt b)

theorem nzLanes_eq (f : Bool) (v : Vec) : nzLanes f v = nonZero f v := by
  unfold nzLanes nonZero
  congr 1
  funext l
  generalize lane v l = w
  cases f
  · simp
  · have hw := w.isLt
    rw [Bool.eq_iff_iff]
    simp only [if_true, Bool.true_and, bne_iff_ne, Bool.and_eq_true, Bool.not_eq_true', beq_eq_false_iff_ne, ne_eq,
      ← BitVec.toNat_inj, field, Nat.shiftRight_zero]
    change ¬w.toNat % 2 ^ 31 = 0 ↔ ¬w.toNat = 0 ∧ ¬w.toNat = 2147483648
    omega

theorem upTo_snoc (lo n : Nat) : upTo lo (n + 1) = upTo lo n ++ [lo + n] := by
  induction n generalizing lo with
  | zero => simp [upTo]
  | succ n ih => 
    rw [upTo, ih, upTo]
    simp; omega

theorem prefixVal_eq (f : Word → Word → Word) (v : Vec) (l : Nat) : prefixVal f v l = prefixUpTo f v l := by
  induction l with
  | zero => rfl
  | succ n ih => 
    rw [prefixVal, ih]
    unfold prefixUpTo
    rw [upTo_snoc, List.foldl_append]
    simp [Nat.add_comm]

theorem scanOp_eq (o : ScanOp) : scanOp o = (scanOperator o, scanIdentity o) := by
  cases o <;> simp only [scanOp, scanOperator, scanIdentity] <;> congr 1 <;> funext a b <;> simp only [minW_eq, maxW_eq]

theorem vscan_eq (o : ScanOp) (ex : Bool) (v : Vec) : vscanVal o ex v = ofLanes fun l =>
      if ex then (if l = 0 then scanIdentity o else prefixUpTo (scanOperator o) v (l - 1))
      else prefixUpTo (scanOperator o) v l := by
  unfold vscanVal
  simp only [scanOp_eq]
  congr 1
  funext l
  cases l <;> simp [prefixVal_eq]

theorem vperm_eq (a b c : Vec) : vpermVal a b c = ofLanes fun l =>
    let i := lane b l
    if i.getLsbD 31 then 0 else lane (if i.getLsbD 5 then c else a) (i.toNat % 32) := by
  unfold vpermVal bit
  congr 1
  funext l
  simp only
  split
  · rfl
  · split <;> rfl

theorem vmerge_eq (a b c : Vec) : (ofLanes fun l => if lane c l != 0 then lane a l else lane b l) = ofLanes fun l =>
      if lane c l = 0 then lane b l else lane a l := by
  congr 1
  funext l
  by_cases h : lane c l = 0#32 <;> simp [h]

theorem clamp32_eq (x : Int) : clamp32 x = clampTo32 x := by
  unfold clamp32 clampTo32 clampInt
  by_cases h : x < -2147483648
  · simp only [h, if_true]
    rw [if_neg (by omega)]; rfl
  · by_cases h' : x > 2147483647
    · have e : (2147483647 : Int) ≠ x := by omega
      simp only [h, h', e, if_true, if_false]
      rfl
    · simp only [h, h', if_true, if_false]
      rfl

theorem vmacwLane_eq (u : Bool) (p q : Nat) (a b c : Vec) (l : Nat) : vmacwLane u p q a b c l =
    clampTo32 ((lane c l).toInt + byteOf u a (32 * p + l) * byteOf false b (32 * q + l)) := by
  unfold vmacwLane
  rw [clamp32_eq]
  rfl

theorem vdot4Lane_eq (ua ub : Bool) (a b c : Vec) (l : Nat) : vdot4Lane ua ub a b c l =
    clampTo32 ((lane c l).toInt +
        (byteOf ua a (4 * l) * byteOf ub b (4 * l) + byteOf ua a (4 * l + 1) * byteOf ub b (4 * l + 1) +
          byteOf ua a (4 * l + 2) * byteOf ub b (4 * l + 2) + byteOf ua a (4 * l + 3) * byteOf ub b (4 * l + 3))) := by
  unfold vdot4Lane
  simp only [clamp32_eq]
  rfl

/-- Lanes without flags report none. -/
theorem mapF_noFlags (f : Nat → Word) : mapF (fun l => (f l, fNone)) = (ofLanes f, 0) := by
  have h : ∀ l : List Nat, l.foldl (fun x _ => x ||| fNone) fNone = (0 : FFlags) := by
    intro l
    induction l with
    | nil => rfl
    | cons a l ih => exact ih
  exact congrArg (Prod.mk (ofLanes f)) (h _)

theorem mapF_eq (f : Nat → Word × FFlags) : mapF f = (ofLanes fun l => (f l).1, (upTo 0 32).foldl (fun fl l => fl ||| (f l).2) 0) := rfl

end Sys2Proof.Machine
end

