-- ==== Sys2Proof/Laws/Forms.lean ====
section
/-! SUPPORT. Laws/Forms.lean: what the shared operations of the X instructions do when nothing stops them: control, memory,
domain and system. -/
namespace Sys2Proof.Machine
open Sys2Proof Sys2Proof.Claims

theorem xControl_ready {h : XHdr} {srcs : List Nat} {s : State} (r : XReady h srcs s) (hd : NoDelay s) {blk : State → Option State}
    (hb : blk s = none) (eff : State → State) :
    xControl h srcs blk eff s = .next (eff (s.xTake h (dedup srcs))) := by
  unfold xControl
  rw [show s.tc.brdly = 0 from hd]
  simp only [bne_self_eq_false, Bool.and_false, Bool.false_eq_true, if_false]
  exact xIssue_ready r 0 hb eff

theorem traceAt_untraced {s t : State} (hu : Untraced s) (e : OnlyBank s t) (hb : t.tb.unit = s.tb.unit) (st c kind : Nat) (pc : Word)
    (d0 d1 : DWord) : t.traceAt s.turn.core s.turn.ctx st c kind pc d0 d1 = t := by
  unfold State.traceAt
  have hb' : (t.bank s.turn.core s.turn.ctx).unit = s.tb.unit := by
    rw [← hb]
    unfold State.tb
    rw [e.core, e.ctx]
  have hp : ∀ p, t.part p = s.part p := fun p => by rw [e.state]; rfl
  simp only [hb', hp]
  cases hq : s.tb.unit with
  | none => rfl
  | some u => simp [hu u hq]

theorem xTake_unit (s : State) (h : XHdr) (p : List Nat) : (s.xTake h p).tb.unit = s.tb.unit := by rw [xTake_bank]
theorem xTake_tcpc (s : State) (h : XHdr) (p : List Nat) : (s.xTake h p).tc.pc = s.tc.pc := by
  show (Bank.col _ _).pc = _
  show (Bank.col (s.xTake h p).tb s.turn.col).pc = _
  rw [xTake_col, if_pos rfl]

theorem xTaken_untraced {s : State} (hu : Untraced s) (h : XHdr) (p : List Nat) (tgt : Word) :
    (s.xTake h p).xTaken tgt = (s.xTake h p).modTc fun c => c.taken tgt := by
  unfold State.xTaken
  have := traceAt_untraced hu (xTake_only s h p) (xTake_unit s h p) 1 (s.xTake h p).turn.col.val 3 (s.xTake h p).tc.pc (tgt.setWidth 64) 0
  rw [xTake_turn_core, xTake_turn_ctx, this]
  simp

theorem xReturn_untraced {s : State} (hu : Untraced s) (h : XHdr) (p : List Nat) (tgt : Word) :
    (s.xTake h p).xReturn tgt = (s.xTake h p).modTc fun c => c.taken tgt := by
  unfold State.xReturn
  have := traceAt_untraced hu (xTake_only s h p) (xTake_unit s h p) 1 (s.xTake h p).turn.col.val 4 (s.xTake h p).tc.pc (tgt.setWidth 64) 0
  rw [xTake_turn_core, xTake_turn_ctx, this]

theorem openAt_eq (pc n : Word) (disp : BitVec 16) : LoopReg.openAt pc n (disp.setWidth 32) = opened pc n disp := by
  unfold LoopReg.openAt opened
  by_cases h : n = 0#32 <;> simp [h]

theorem modCol_modCol (b : Bank) (c : Fin 4) (f g : Column → Column) : (b.modCol c f).modCol c g = b.modCol c fun x => g (f x) := by
  show ({ b.modCol c f with cols := (b.modCol c f).cols.set c.val (g ((b.modCol c f).col c)) c.isLt } : Bank) = _
  rw [Bank.col_modCol, if_pos rfl]
  show ({ b with cols := (b.cols.set c.val _ c.isLt).set c.val _ c.isLt } : Bank) = _
  rw [Vector.set_set]
  rfl

theorem setBank_setBank (c : Core) (k : Fin 3) (a b : Bank) : (c.setBank k a).setBank k b = c.setBank k b := by
  show ({ c with banks := (c.banks.set k.val a k.isLt).set k.val b k.isLt } : Core) = _
  rw [Vector.set_set]
  rfl

theorem setCore_setCore (s : State) (g : Fin 512) (a b : Core) : (s.setCore g a).setCore g b = s.setCore g b := by
  show ({ s with cores := (s.cores.set g.val a g.isLt).set g.val b g.isLt } : State) = _
  rw [Vector.set_set]
  rfl

theorem setBank_setBank' (s : State) (g : Fin 512) (k : Fin 3) (a b : Bank) : (s.setBank g k a).setBank g k b = s.setBank g k b := by
  show (s.setCore g ((s.core g).setBank k a)).setCore g (((s.setCore g ((s.core g).setBank k a)).core g).setBank k b) = _
  rw [setCore_setCore, State.core_setCore, if_pos rfl, setBank_setBank]
  rfl

theorem modTb_modTb (s : State) (f g : Bank → Bank) : (s.modTb f).modTb g = s.modTb fun b => g (f b) := by
  show (s.setBank s.turn.core s.turn.ctx (f s.tb)).setBank s.turn.core s.turn.ctx (g (s.modTb f).tb) = _
  rw [setBank_setBank', State.tb_modTb]
  rfl

theorem modTc_modTc (s : State) (f g : Column → Column) : (s.modTc f).modTc g = s.modTc fun c => g (f c) := by
  show (s.modTb fun b => b.modCol s.turn.col f).modTb (fun b => b.modCol s.turn.col g) = _
  rw [modTb_modTb]
  simp only [modCol_modCol]
  rfl

theorem xtySize_eq (t : XTy) : xtySize t = loadSize t := by cases t <;> rfl

theorem spCheck_ok {s : State} {wr : Bool} {size : Nat} {addrs : List Nat} (h : SpOk s wr size addrs) (a : Nat) (ha : a ∈ addrs)
    (ln : Nat) : s.spCheck s.turn.core s.turn.ctx wr a size ln = none := by
  unfold State.spCheck
  have h1 := h.range a ha
  have h2 := h.aligned a ha
  have e1 : ¬ spSize < a + size := by unfold spSize; omega
  simp only [e1, decide_false, Bool.false_eq_true, if_false, h2, bne_self_eq_false]
  by_cases hk : s.turn.ctx.val = 2
  · simp [hk]
  · have hk' : s.turn.ctx.val < 2 := by have := s.turn.ctx.isLt; omega
    have h3 := h.set hk' a ha
    have h4 := h.owner hk' a ha
    simp only [hk, if_false]
    show (if (!if wr = true then s.tb.mayWrite 0 (tileOf a) else s.tb.mayRead 0 (tileOf a)) = true then _ else _) = _
    unfold tileOf
    rw [h3, h4]
    rfl

theorem spCheckAll_ok {s : State} {wr : Bool} {size : Nat} {addrs : List Nat} (h : SpOk s wr size addrs) :
    s.spCheckAll s.turn.core s.turn.ctx wr size addrs = none := by
  unfold State.spCheckAll
  have : ∀ (l : List (Nat × Nat)), (∀ x ∈ l, x.1 ∈ addrs) →
      l.foldl (fun r a => match r with
        | some x => some x
        | none => s.spCheck s.turn.core s.turn.ctx wr a.1 size a.2) none = none := by
    intro l
    induction l with
    | nil => intro _; rfl
    | cons x l ih =>
      intro hx
      rw [List.foldl_cons]
      simp only [spCheck_ok h x.1 (hx x (List.mem_cons_self ..)) x.2]
      exact ih fun y hy => hx y (List.mem_cons_of_mem _ hy)
  exact this _ fun x hx => (List.mem_zipIdx hx).2.2 ▸ List.getElem_mem _

theorem xMemBlock_ok {s : State} {wr : Bool} {size : Nat} {addrs : State → List Nat} (h : SpOk s wr size (addrs s)) :
    xMemBlock wr size addrs s s = none := by
  unfold xMemBlock
  simp only [spCheckAll_ok h, h.slab]
  rfl

theorem xAlias_off {s t : State} (e : OnlyBank s t) (hb : t.tb.unit = s.tb.unit) (h : (s.part s.tb.part).aliasMode = false)
    (pc : Word) (cls : Fin 8) (wr : Bool) (size : Nat) (addrs : List Nat) : t.xAlias pc cls wr size addrs = t := by
  unfold State.xAlias
  have : ∀ a, t.aliasNote t.turn.core t.turn.ctx pc cls true wr a size (some t.turn.col) = t := by
    intro a
    unfold State.aliasNote
    have e1 : (t.bank t.turn.core t.turn.ctx).part = s.tb.part := by
      unfold Bank.part
      rw [show (t.bank t.turn.core t.turn.ctx).unit = s.tb.unit from hb]
    have e2 : ∀ p, t.part p = s.part p := fun p => by rw [e.state]; rfl
    simp [e1, e2, h]
  induction addrs with
  | nil => rfl
  | cons a l ih => rw [List.foldl_cons, this]; exact ih

theorem readN_map (m : Memory) (a n : Nat) : m.readN a n = (upTo a n).map m.read := by
  induction n generalizing a with
  | zero => rfl
  | succ n ih => simp only [Memory.readN, upTo, List.map_cons, ih]

theorem spRead_eq (s : State) (a n : Nat) : (s.core s.turn.core).spRead a n = spNumber s a n := by
  unfold Core.spRead Memory.readLE spNumber
  rw [readN_map]

theorem leNat_lt (l : List Byte) : leNat l < 2 ^ (8 * l.length) := by
  induction l with
  | nil => simp [leNat]
  | cons b l ih =>
    have hb := b.isLt
    have e : 2 ^ (8 * (b :: l).length) = 256 * 2 ^ (8 * l.length) := by
      rw [List.length_cons, Nat.mul_add, Nat.pow_add]; norm_num [Nat.mul_comm]
    rw [leNat, e]
    omega

theorem upTo_length (lo n : Nat) : (upTo lo n).length = n := by
  induction n generalizing lo with
  | zero => rfl
  | succ n ih => simp [upTo, ih]

theorem spNumber_lt (s : State) (a n : Nat) : spNumber s a n < 2 ^ (8 * n) := by
  have := leNat_lt ((upTo a n).map fun x => (s.core s.turn.core).sp.read x)
  rw [List.length_map, upTo_length] at this
  exact this

theorem xtyExtend_eq (t : XTy) (v : Nat) (hv : v < 2 ^ (8 * loadSize t)) : xtyExtend t v = loadValue t v := by
  cases t <;> simp only [xtyExtend, loadValue] <;> simp only [loadSize] at hv
  · have : ∀ v : Fin 256, (BitVec.ofNat 8 v.val).signExtend 32 =
      if 128 ≤ v.val then BitVec.ofNat 32 (v.val + (2 ^ 32 - 2 ^ 8)) else BitVec.ofNat 32 v.val := by decide +kernel
    exact this ⟨v, by omega⟩
  · apply BitVec.eq_of_toInt_eq
    rw [BitVec.toInt_signExtend_of_le (by decide)]
    split <;> simp only [BitVec.toInt_eq_toNat_bmod, BitVec.toNat_ofNat, Int.bmod_def] <;> omega

theorem strideAddrs_eq (a b : Word) : strideAddrs a b = laneAddrs (stridedAddr a b) := by
  unfold strideAddrs laneAddrs stridedAddr
  congr 1
  funext l
  have : (4 : Word) * b * BitVec.ofNat 32 l = BitVec.ofNat 32 (4 * l) * b := by
    have e : BitVec.ofNat 32 (4 * l) = (4 : Word) * BitVec.ofNat 32 l := BitVec.ofNat_mul ..
    rw [e, BitVec.mul_assoc, BitVec.mul_assoc, BitVec.mul_comm b]
  rw [this]

theorem indexAddrs_eq (a : Word) (v : Vec) : indexAddrs a v = laneAddrs (indexedAddr a v) := rfl

/-- Lane l of the addresses of an access. -/
theorem laneAddrs_getD (f : Nat → Nat) (l : Nat) (h : l < 32) : (laneAddrs f).getD l 0 = f l := by
  have : ∀ n lo k : Nat, k < n → (upTo lo n)[k]? = some (lo + k) := by
    intro n
    induction n with
    | zero => intro lo k hk; omega
    | succ n ih =>
      intro lo k hk
      cases k with
      | zero => rfl
      | succ k => rw [upTo, List.getElem?_cons_succ, ih (lo + 1) k (by omega)]; congr 1; omega
  unfold laneAddrs
  rw [List.getD_eq_getElem?_getD, List.getElem?_map, this 32 0 l h]
  simp

/-- Vectors that agree on their 32 lanes are the same. -/
theorem ofLanes_congr {f g : Nat → Word} (h : ∀ l, l < 32 → f l = g l) : ofLanes f = ofLanes g := by
  unfold ofLanes
  have : ∀ n, n ≤ 32 → packNat f n = packNat g n := by
    intro n
    induction n with
    | zero => intro _; rfl
    | succ n ih => intro hn; rw [packNat, packNat, ih (by omega), h n (by omega)]
  rw [this 32 (Nat.le_refl _)]

theorem leBytes_put (n v a k : Nat) : ((leBytes n v).zipIdx k).map (fun x => (a + x.2, x.1)) =
    (upTo k n).map fun j => (a + j, BitVec.ofNat 8 (v / 2 ^ (8 * (j - k)))) := by
  induction n generalizing v k with
  | zero => rfl
  | succ n ih =>
    rw [leBytes, List.zipIdx_cons, List.map_cons, ih, upTo, List.map_cons]
    congr 1
    · simp
    · have : ∀ j ∈ upTo (k + 1) n, k + 1 ≤ j := by
        have h : ∀ m lo, ∀ j ∈ upTo lo m, lo ≤ j := by
          intro m
          induction m with
          | zero => intro lo j hj; cases hj
          | succ m ih => 
            intro lo j hj
            rcases List.mem_cons.mp hj with h | h
            · omega
            · have := ih (lo + 1) j h; omega
        exact h n (k + 1)
      apply List.map_congr_left
      intro j hj
      have hj' := this j hj
      rw [Nat.div_div_eq_div_mul]
      have e : 256 * 2 ^ (8 * (j - (k + 1))) = 2 ^ (8 * (j - k)) := by
        rw [show 8 * (j - k) = 8 + 8 * (j - (k + 1)) by omega, Nat.pow_add]
      rw [e]

theorem xStore_eq (t : State) (a n v : Nat) : t.xStore a (leBytes n v) = t.modTb (storesNow (putBytes a n v)) := by
  unfold State.xStore storesNow putBytes
  have := leBytes_put n v a 0
  simp only [Nat.sub_zero] at this
  rw [this]

theorem storesNow_storesNow (l m : List (Nat × Byte)) (b : Bank) : storesNow m (storesNow l b) = storesNow (l ++ m) b := by
  unfold storesNow
  simp [List.append_assoc]

/-- The stores of all lanes are one change of the bank. -/
theorem xStore_lanes (t : State) (f : Nat → Nat) (v : Vec) :
    (laneAddrs f).zipIdx.foldl (fun t x => t.xStore x.1 (leBytes 4 (lane v x.2).toNat)) t =
      t.modTb (storesNow ((upTo 0 32).flatMap fun l => putBytes (f l) 4 (lane v l).toNat)) := by
  have h : ∀ n k (t : State) (acc : List (Nat × Byte)), 
      (((upTo k n).map f).zipIdx k).foldl (fun t x => t.xStore x.1 (leBytes 4 (lane v x.2).toNat)) (t.modTb (storesNow acc)) =
      t.modTb (storesNow (acc ++ (upTo k n).flatMap fun l => putBytes (f l) 4 (lane v l).toNat)) := by
    intro n
    induction n with
    | zero => intro k t acc; simp [upTo]
    | succ n ih =>
      intro k t acc
      rw [upTo, List.map_cons, List.zipIdx_cons, List.foldl_cons, xStore_eq, modTb_modTb]
      simp only [storesNow_storesNow]
      rw [ih (k + 1) t (acc ++ putBytes (f k) 4 (lane v k).toNat), List.flatMap_cons, List.append_assoc]
  have h0 := h 31 1 t (putBytes (f 0) 4 (lane v 0).toNat)
  rw [← xStore_eq] at h0
  unfold laneAddrs
  rw [show upTo 0 32 = 0 :: upTo 1 31 from rfl, List.map_cons, List.zipIdx_cons, List.foldl_cons, List.flatMap_cons]
  exact h0

/-- The column of a domain syllable that has issued holds for the rest of its occupancy. -/
def heldFor (n : Nat) (t : State) : State :=
  if t.turn.how == .issued then t.modTc fun c => { c with hold := BitVec.ofNat 12 (n - 1) } else t

/-- A domain syllable that may issue, in column 0. -/
theorem domIssue_ready {h : XHdr} {srcs : List Nat} {s : State} (r : XReady h srcs s) (hc : Column0 s) (n l : Nat)
    {blk : State → Option State} (hb : blk s = none) (eff : State → State) :
    domIssue h n l srcs blk eff s = .next (heldFor n (eff (s.xTake h (dedup srcs)))) := by
  unfold domIssue heldFor
  rw [show s.turn.col = 0 from hc, xIssue_ready r l hb eff]
  simp [r.guard]

theorem heldFor_issued (n : Nat) {t : State} (h : t.turn.how = .issued) :
    heldFor n t = t.modTc fun c => { c with hold := BitVec.ofNat 12 (n - 1) } := by
  unfold heldFor; rw [h]; rfl

theorem popNat_count (v : Nat) (n : Nat) : popNat v n = ((upTo 0 n).filter fun k => v.testBit k).length := by
  induction n with
  | zero => rfl
  | succ n ih => 
    rw [popNat, ih, upTo_snoc, List.filter_append, List.length_append]
    simp [List.filter_cons]
    split <;> simp [Nat.add_comm]

theorem upTo_le (v : BitVec 64) (m : Nat) (hm : m < 64) : ((upTo 0 64).filter fun k => decide (k ≤ m) && v.getLsbD k).length =
    ((upTo 0 (m + 1)).filter fun k => v.getLsbD k).length := by
  have h : ∀ n, m + 1 ≤ n → ((upTo 0 n).filter fun k => decide (k ≤ m) && v.getLsbD k).length =
      ((upTo 0 (m + 1)).filter fun k => v.getLsbD k).length := by
    intro n hn
    induction n, hn using Nat.le_induction with
    | base =>
      congr 1
      apply List.filter_congr
      intro k hk
      have : k ≤ m := by
        have hh : ∀ n lo, ∀ j ∈ upTo lo n, j < lo + n := by
          intro n
          induction n with
          | zero => intro lo j hj; cases hj
          | succ n ih =>
            intro lo j hj
            rcases List.mem_cons.mp hj with h | h
            · omega
            · have := ih (lo + 1) j h; omega
        have := hh (m + 1) 0 k hk; omega
      simp [this]
    | succ n hn ih =>
      rw [upTo_snoc, List.filter_append, List.length_append, ih]
      have : ¬ n ≤ m := by omega
      simp [this]
  exact h 64 (by omega)

theorem size_eq (d : Dom) : d.size = domCount d := by
  unfold Dom.size domCount Dom.span
  have e : (d.hi.toInt - d.lo.toInt - 63).toNat = (d.hi.toInt - d.lo.toInt).toNat - 63 := by omega
  generalize (d.hi.toInt - d.lo.toInt).toNat = sp at e ⊢
  simp only [e]
  congr 2
  rw [popNat_count]
  congr 1
  by_cases h : sp < 64
  · rw [upTo_le _ _ h, Nat.min_eq_right (by omega)]
    rfl
  · rw [Nat.min_eq_left (by omega)]
    congr 1
    apply List.filter_congr
    intro k hk
    have hh : ∀ n lo, ∀ j ∈ upTo lo n, j < lo + n := by
      intro n
      induction n with
      | zero => intro lo j hj; cases hj
      | succ n ih =>
        intro lo j hj
        rcases List.mem_cons.mp hj with h | h
        · omega
        · have := ih (lo + 1) j h; omega
    have := hh 64 0 k hk
    have h2 : k ≤ sp := by omega
    simp [h2]
    rfl

theorem domHas_eq (d : Dom) (x : Int) : d.set.mem x = domHasB d x := by
  unfold ISet.mem Dom.set domHasB
  congr 1
  by_cases h : x ≤ d.lo.toInt + 63
  · have : ¬ d.lo.toInt + 64 ≤ x := by omega
    simp [h, this]
    rfl
  · have : d.lo.toInt + 64 ≤ x := by omega
    simp [h, this]

theorem dget_eq (r : Dom) (w : Fin 4) :
    (match w.val with
      | 0 => r.lo
      | 1 => r.hi
      | 2 => r.win.setWidth 32
      | _ => (r.win >>> 32).setWidth 32) =
        if w = 0 then r.lo else if w = 1 then r.hi
        else if w = 2 then r.win.extractLsb' 0 32 else r.win.extractLsb' 32 32 := by
  rcases w with ⟨_ | _ | _ | _ | n, hw⟩
  · rfl
  · rfl
  · show r.win.setWidth 32 = r.win.extractLsb' 0 32
    ext i hi
    simp
  · show (r.win >>> 32).setWidth 32 = r.win.extractLsb' 32 32
    ext i hi
    simp
  · omega

/-- The carried push commutes with what the column does. -/
theorem xPush_modTc (u : State) (h : XHdr) (l : Nat) (hl : l ≠ 0) (f : Column → Column) :
    (u.xPush h l).modTc f = (u.modTc f).xPush h l := by
  unfold State.xPush
  cases h.push with
  | none => rfl
  | some g =>
    simp only [hl, if_false]
    show (u.modTb _).modTb _ = (u.modTb _).modTb _
    rw [modTb_modTb, modTb_modTb]
    rfl

/-- A push carried by an entry of latency l after the taken state. -/
theorem xPushesAt_of {l : Nat} (hl0 : l ≠ 0) {r : XForm} {s u t : State} (hl : ∀ q ∈ r.srcs, q < 9) (hu : TakenState r s u)
    (ht : t = (u.modTc (r.col s)).xPush r.hdr l) : XPushesAt l r s t := by
  cases hp : r.hdr.push with
  | none =>
    have e : t = u.modTc (r.col s) := by rw [ht]; unfold State.xPush; rw [hp]
    have hut : (u.modTc (r.col s)).tb = u.tb.modCol s.turn.col (r.col s) := modTc_tb_of hu.only.col _
    subst e
    refine ⟨xTook_of hl (hu.only.modTc _) hu.issued u.tb hu.bank hut, ?_, ?_, hu.agenda⟩
    · rw [hut, hp]
      show u.tb.inflight = _
      rw [hu.inflight, List.append_nil]
    · intro f
      have hx := xTake_flag s r.hdr (dedup r.srcs) f
      rw [hut, flag_modCol, hp]
      rw [hp] at hx
      rw [← hx]
      show Vector.get u.tb.flags f = Vector.get _ f
      rw [hu.flags]
  | some g =>
    have e : t = (u.modTc (r.col s)).modTb fun b => b.deliver u.turn.col 0 .pred 1 l fNone (some g) := by
      rw [ht]; unfold State.xPush; rw [hp]; simp only [hl0, if_false]; rfl
    have hd := xDelivers_of (r := { r with dst := 0, kind := .pred, lat := l, val := fun _ => 1, flags := fun _ => 0 }) (s := s) (u := u)
      (t := (u.modTb fun b => b.deliver s.turn.col 0 .pred 1 l 0 r.hdr.push).modTc (r.col s)) hl hu rfl
    have e2 : t = (u.modTb fun b => b.deliver s.turn.col 0 .pred 1 l 0 r.hdr.push).modTc (r.col s) := by
      rw [e]
      show (u.modTb _).modTb _ = (u.modTb _).modTb _
      rw [modTb_modTb, modTb_modTb, hp]
      show _ = u.modTb fun b => (b.deliver s.turn.col 0 .pred 1 l 0 (some g)).modCol u.turn.col (r.col s)
      rw [hu.only.col]
      rfl
    rw [e2]
    refine ⟨hd.took, ?_, hd.tokens, hd.agenda⟩
    rw [hd.flight, hp]

theorem xPush_how (u : State) (h : XHdr) (l : Nat) : (u.xPush h l).turn.how = u.turn.how := by
  unfold State.xPush
  cases h.push with
  | none => rfl
  | some g => simp only []; split <;> rfl

theorem xTake_dom (s : State) (h : XHdr) (p : List Nat) : (s.xTake h p).tb.dom = s.tb.dom := by rw [xTake_bank]

theorem wake_table (d : DomState) (c : Option Nat) (r : Nat) : (d.wake c r).table = d.table := by
  unfold DomState.wake
  have : ∀ (l : List (Standing × Nat)) (e : DomState), (l.foldl (fun d e =>
      if e.1.names r && !d.queue.contains e.2 && c != some e.2 then { d with queue := d.queue ++ [e.2] } else d) e).table = e.table := by
    intro l
    induction l with
    | nil => intro e; rfl
    | cons a l ih => intro e; rw [List.foldl_cons, ih]; split <;> rfl
  exact this _ _

theorem commit_table (d : DomState) (c : Option Nat) (x : DX) : (d.commit c x).table = d.table := by
  unfold DomState.commit
  have : ∀ (l : List Nat) (e : DomState), (l.foldl (fun d r => d.wake c r) e).table = e.table := by
    intro l
    induction l with
    | nil => intro e; rfl
    | cons a l ih => intro e; rw [List.foldl_cons, ih, wake_table]
  exact this _ _

theorem commit_proplim (d : DomState) (c : Option Nat) (x : DX) : (d.commit c x).proplim = d.proplim := by
  have hw : ∀ (d : DomState) r, (d.wake c r).proplim = d.proplim := by
    intro d r
    unfold DomState.wake
    have : ∀ (l : List (Standing × Nat)) (e : DomState), (l.foldl (fun d e =>
        if e.1.names r && !d.queue.contains e.2 && c != some e.2 then { d with queue := d.queue ++ [e.2] } else d) e).proplim = e.proplim := by
      intro l
      induction l with
      | nil => intro e; rfl
      | cons a l ih => intro e; rw [List.foldl_cons, ih]; split <;> rfl
    exact this _ _
  unfold DomState.commit
  have : ∀ (l : List Nat) (e : DomState), (l.foldl (fun d r => d.wake c r) e).proplim = e.proplim := by
    intro l
    induction l with
    | nil => intro e; rfl
    | cons a l ih => intro e; rw [List.foldl_cons, ih, hw]
  exact this _ _

theorem domAfter_eq (d : DomState) (x : DX) (k : Option Standing) : (d.commit none x).enter k = domAfter d x k := by
  cases k with
  | none => rfl
  | some e => simp only [domAfter, DomState.enter, commit_table]

theorem domRun_how (t s : State) (h : XHdr) : (t.domRun s h).turn.how = t.turn.how := xPush_how _ _ _

/-- An initiating execution issues its syllable, but for a failure that traps. -/
theorem domInit_how (t s : State) (h : XHdr) (x : DX) (k : Option Standing)
    (hx : x.fail = none ∨ (t.tb.dom.failpc ≠ 0 ∧ s.tc.brdly = 0)) : (t.domInit s h x k).turn.how = t.turn.how := by
  unfold State.domInit
  split
  · rename_i r hr
    rcases hx with hx | ⟨h1, h2⟩
    · rw [hx] at hr; cases hr
    · rw [if_pos (by simpa [h2] using h1)]
      exact xPush_how _ _ _
  · exact domRun_how ..

theorem dx_narrow (d : DomState) (a : Fin 32) (lo hi : Int) : d.start.narrowOpt a (if lo ≤ hi then some (.interval lo hi) else none) =
    if lo ≤ hi then d.start.narrow a (.interval lo hi) else { d.start with fail := some a } := by
  split
  · rfl
  · rfl

/-- The initiating execution of each form, as the model carries it out. -/
theorem narrows_exec {i : Instr} {h : XHdr} {srcs : List Nat} {x : State → DX} {keep : State → Option Standing} {s : State}
    (hr : NarrowsForm i h srcs x keep) (hx : XReady h srcs s) (hc : Column0 s)
    (hk : (keep s).isSome = true → s.tb.dom.table.length < 64) :
    exec i s = .next (heldFor 2 ((s.xTake h (dedup srcs)).domInit s h (x s) (keep s))) ∧ (∀ q ∈ srcs, q < 9) := by
  have h0 : ∀ q ∈ ([] : List Nat), q < 9 := by intro q h; cases h
  have rel (keep' : Bool) (srcs' : List Nat) (hx' : XReady h srcs' s) (op : DomOp) (c a b : Fin 32) (k : State → Word) (hkk : keep' = true → s.tb.dom.table.length < 64) :
      domRel h keep' srcs' op c a b k s = .next (heldFor 2 ((s.xTake h (dedup srcs')).domInit s h (relSteps op c a b (k s) s.tb.domLanes s.tb.dom.start)
        (if keep' then some { op := op, c := c, a := a, b := b, k := k s } else none))) := by
    unfold domRel
    refine domIssue_ready hx' hc 2 1 ?_ _
    cases keep'
    · rfl
    · have : ¬ 64 ≤ s.tb.dom.table.length := by have := hkk rfl; omega
      simp [this]
  have con (srcs' : List Nat) (hx' : XReady h srcs' s) (f : State → DX → DX) :
      domCon h srcs' f s = .next (heldFor 2 ((s.xTake h (dedup srcs')).domInit s h (f s s.tb.dom.start) none)) := by
    unfold domCon
    exact domIssue_ready hx' hc 2 1 rfl _
  have kp {keep' : Bool} {e : Standing} (h : (if keep' then some e else none : Option Standing).isSome = true → s.tb.dom.table.length < 64) :
      keep' = true → s.tb.dom.table.length < 64 := by
    intro hh; subst hh; exact h rfl
  cases hr
  case dadd => simp only [exec_dadd, execDadd]; exact ⟨rel _ [] hx .add _ _ _ noConst (kp hk), h0⟩
  case dsub => simp only [exec_dsub, execDsub]; exact ⟨rel _ [] hx .sub _ _ _ noConst (kp hk), h0⟩
  case dmulc => simp only [exec_dmulc, execDmulc]; exact ⟨rel _ _ hx .mulc _ _ _ _ (kp hk), sPorts_lt _⟩
  case dlt => simp only [exec_dlt, execDlt]; exact ⟨rel _ [] hx .lt _ _ _ noConst (kp hk), h0⟩
  case dle => simp only [exec_dle, execDle]; exact ⟨rel _ [] hx .le _ _ _ noConst (kp hk), h0⟩
  case deq => simp only [exec_deq, execDeq]; exact ⟨rel _ [] hx .eq _ _ _ noConst (kp hk), h0⟩
  case dne => simp only [exec_dne, execDne]; exact ⟨rel _ [] hx .ne _ _ _ noConst (kp hk), h0⟩
  case delem => simp only [exec_delem, execDelem]; exact ⟨rel _ [] hx .elem _ _ _ _ (kp hk), h0⟩
  case dint => 
    refine ⟨?_, sPorts2_lt _ _⟩
    simp only [exec_dint, execDint, ← dx_narrow]
    exact con _ hx _
  case dexcl => simp only [exec_dexcl, execDexcl]; exact ⟨con _ hx _, sPorts_lt _⟩
  case dfix => simp only [exec_dfix, execDfix]; exact ⟨con _ hx _, sPorts_lt _⟩
  case dset => simp only [exec_dset, execDset, domSet]; exact ⟨con _ hx _, sPorts2_lt _ _⟩
  case dsetw => simp only [exec_dsetw, execDsetw, domSet]; exact ⟨con _ hx _, append_lt (sPorts2_lt _ _) (sPorts_lt _)⟩

theorem modTb_const (s : State) (f : Bank → Bank) (g : Bank → Bank) (h : f s.tb = g s.tb) : s.modTb f = s.modTb g := by
  show s.setBank _ _ (f s.tb) = s.setBank _ _ (g s.tb)
  rw [h]

end Sys2Proof.Machine
end

