-- ==== Sys2Proof/Laws/Traps.lean ====
section
/-! SUPPORT. Laws/Traps.lean: what taking a trap, stopping a unit and ending a lease do, once for every cause. -/
namespace Sys2Proof.Machine
open Sys2Proof Sys2Proof.Claims

/-! ### The agenda -/

theorem mem_insertBy {α : Type} (lt : α → α → Bool) (x y : α) (l : List α) : y ∈ insertBy lt x l ↔ y = x ∨ y ∈ l := by
  induction l with
  | nil => simp [insertBy]
  | cons a l ih => unfold insertBy; split <;> simp [ih]; constructor <;> (intro h; rcases h with h | h | h <;> simp [h])

theorem mem_schedule (s : State) (n : Nat) (i : Instr) (a : EvArgs) (x : Due) :
    x ∈ (s.schedule n i a).agenda ↔ x = { at_ := s.cycle + n, what := i, args := a } ∨ x ∈ s.agenda := by
  rw [schedule_agenda, mem_insertBy]

/-! ### Leases -/

/-- Ending a lease touches the cluster and the agenda alone, and takes nothing off the agenda. -/
structure LeaseOnly (s t : State) : Prop where
  state : t = { s with clusters := t.clusters, agenda := t.agenda }
  agenda : ∀ x ∈ s.agenda, x ∈ t.agenda

theorem LeaseOnly.refl (s : State) : LeaseOnly s s := ⟨rfl, fun _ h => h⟩

theorem leaseEnds_only (s : State) (cl : Fin 64) : LeaseOnly s (s.leaseEnds cl) := by
  unfold State.leaseEnds
  split
  · exact .refl s
  · simp only []
    split
    · exact ⟨rfl, fun _ h => h⟩
    · exact ⟨rfl, fun x h => (mem_schedule _ _ _ _ x).mpr (.inr h)⟩

theorem endLease_only (s : State) (g : Fin 512) : LeaseOnly s (s.endLease g) := by
  unfold State.endLease
  simp only []
  split
  · have h := leaseEnds_only (s.modCluster (clusterOf g) fun c => { c with requests := setBit c.requests (inCluster g).val false })
      (clusterOf g)
    exact ⟨h.state.trans rfl, h.agenda⟩
  · exact ⟨rfl, fun _ h => h⟩

theorem LeaseOnly.cycle {s t : State} (h : LeaseOnly s t) : t.cycle = s.cycle := by rw [h.state]
theorem LeaseOnly.core {s t : State} (h : LeaseOnly s t) (g : Fin 512) : t.core g = s.core g := by rw [h.state]; rfl
theorem LeaseOnly.turn {s t : State} (h : LeaseOnly s t) : t.turn = s.turn := by rw [h.state]
theorem LeaseOnly.hbm {s t : State} (h : LeaseOnly s t) : t.hbm = s.hbm := by rw [h.state]
theorem LeaseOnly.host {s t : State} (h : LeaseOnly s t) : t.host = s.host := by rw [h.state]

/-! ### The edge of a trap -/

theorem core_modCore (s : State) (g g' : Fin 512) (f : Core → Core) :
    (s.modCore g f).core g' = if g' = g then f (s.core g) else s.core g' := State.core_setCore s g g' _

theorem bank_setBank (c : Core) (k j : Fin 3) (b : Bank) : (c.setBank k b).bank j = if j = k then b else c.bank j := by
  unfold Core.bank Core.setBank
  show (c.banks.set k.val b k.isLt)[j.val] = _
  rw [Vector.getElem_set]
  by_cases h : k = j
  · subst h; simp
  · rw [if_neg (fun e => h (Fin.ext e)), if_neg (fun e => h e.symm)]; rfl

/-- With no execution under way, there is none to end before the edge. -/
theorem endExec_idle {s : State} {g : Fin 512} {k : Fin 3} (h : PlaceIdle g k s) : s.endExec g k = s := by
  unfold State.endExec
  dsimp only []
  rw [List.find?_eq_none.mpr]
  intro x hx
  have := h.due x hx
  simp only [Bool.and_eq_true, beq_iff_eq, not_and]
  exact fun h1 h2 => this ⟨h1.1, h1.2, h2⟩

theorem settleCols_eq (b : Bank) : b.settleCols = columnsAtEdge b := by
  unfold Bank.settleCols columnsAtEdge
  have : Column.settle = evaluated := by funext c; unfold Column.settle evaluated; cases c.evalDue <;> rfl
  rw [this]

/-- What the edge makes of the core. -/
def edgeCore (s : State) (kb : Fin 2) (e : Edge) (c : Core) : Core :=
  { c.setBank (kb.castLE (by decide))
      { columnsAtEdge ((c.bank (kb.castLE (by decide))).holdSfc s.cycle) with
        st := .trapped
        trap := some { cause := e.cause, strm := e.st, col := e.col, word := e.word, detail0 := e.d0, detail1 := e.d1 } } with
    handling := some kb
    scause := BitVec.ofNat 32 (e.cause.toNat + kb.val * 256 + streamCode e.st * 512 + e.col.val * 2048) }

/-- The edge for a place of the turn's unit, whose cause is the word of the turn's. -/
theorem edge_edge {s : State} (e : Edge) (hk : s.turn.ctx.val < 2) (hu : Untraced s) (hst : e.st = s.turn.stream)
    (hcol : e.col = s.turn.col) (hword : e.word = s.turn.word) :
    TrapEdge e.cause e.d0 e.d1 s (s.edge s.turn.core s.turn.ctx e) := by
  have ht := fun (st c kind : Nat) (pc : Word) (e0 e1 : DWord) =>
    traceAt_untraced (s := s) (t := s) hu (OnlyBank.refl s) rfl st c kind pc e0 e1
  have eq : s.edge s.turn.core s.turn.ctx e = (((s.modCore s.turn.core (edgeCore s ⟨s.turn.ctx.val, hk⟩ e)).endLease
      s.turn.core).schedule 264 .handlerStart (EvArgs.at s.turn.core s.turn.ctx)).how .trapped := by
    unfold State.edge edgeCore
    rw [dif_pos hk]
    dsimp only []
    rw [ht]
    simp only [settleCols_eq]
    rfl
  rw [eq]
  generalize hm : s.modCore s.turn.core _ = m
  have hl := endLease_only m s.turn.core
  generalize m.endLease s.turn.core = l at hl
  have hcore : ∀ g, ((l.schedule 264 .handlerStart (EvArgs.at s.turn.core s.turn.ctx)).how .trapped).core g = m.core g := hl.core
  have hc : m.core s.turn.core = edgeCore s ⟨s.turn.ctx.val, hk⟩ e (s.core s.turn.core) := by rw [← hm, core_modCore, if_pos rfl]
  have hg : ∀ g, g ≠ s.turn.core → m.core g = s.core g := fun g h => by rw [← hm, core_modCore, if_neg h]
  have hkb : (⟨s.turn.ctx.val, hk⟩ : Fin 2).castLE (by decide) = s.turn.ctx := rfl
  refine ⟨⟨⟨s.turn.ctx.val, hk⟩, rfl, ?_⟩, ?_, ?_, ?_, ?_, ⟨?_, ?_, ?_⟩, ?_⟩
  · rw [hcore, hc]; rfl
  · rw [hcore, hc]
    unfold scauseOf edgeCore streamCode
    rw [← hst, ← hcol]
    show BitVec.ofNat 32 _ = _
    congr 1
    cases e.st <;> simp only [] <;> omega
  · show Core.bank (State.core _ _) _ = _
    rw [hcore, hc]
    show (Core.setBank _ _ _).bank _ = _
    rw [hkb, bank_setBank, if_pos rfl, ← hst, ← hcol, ← hword]
    rfl
  · intro k hk'
    show Core.bank (State.core _ _) _ = _
    rw [hcore, hc]
    show (Core.setBank _ _ _).bank _ = _
    rw [hkb, bank_setBank, if_neg hk']
    rfl
  · intro g hg'
    rw [hcore, hg g hg']
  · intro a
    show l.hbm.read a = _
    rw [hl.hbm, ← hm]; rfl
  · intro a
    show l.host.read a = _
    rw [hl.host, ← hm]; rfl
  · intro g a
    rw [hcore]
    by_cases h : g = s.turn.core
    · subst h; rw [hc]; rfl
    · rw [hg g h]
  · show _ ∈ (l.schedule 264 .handlerStart (EvArgs.at s.turn.core s.turn.ctx)).agenda
    rw [mem_schedule]
    left
    rw [hl.cycle, ← hm]
    rfl

/-- A trap of the word of the turn of a unit takes the edge. -/
theorem trap_edge {s : State} (cause : Byte) (d0 d1 : DWord) (hk : s.turn.ctx.val < 2) (hu : Untraced s) (hn : NoExecution s) :
    TrapEdge cause d0 d1 s (s.trap cause d0 d1) := by
  unfold State.trap State.takeTrap State.takeTrapAt
  dsimp only []
  rw [endExec_idle hn, if_neg (by rw [hn.raised]; simp)]
  exact edge_edge { st := s.turn.stream, col := s.turn.col, word := s.turn.word, pc := _, cause := cause, d0 := d0, d1 := d1 } hk hu
    rfl rfl rfl

/-! ### Stopping a unit -/

theorem modBank_core (s : State) (g g' : Fin 512) (k : Fin 3) (f : Bank → Bank) :
    (s.modBank g k f).core g' = if g' = g then (s.core g).setBank k (f (s.bank g k)) else s.core g' := by
  show (s.modCore g _).core g' = _
  rw [core_modCore]

theorem modBank_bank (s : State) (g g' : Fin 512) (k j : Fin 3) (f : Bank → Bank) :
    (s.modBank g k f).bank g' j = if g' = g ∧ j = k then f (s.bank g k) else s.bank g' j := by
  show Core.bank ((s.modBank g k f).core g') j = _
  rw [modBank_core]
  by_cases hg : g' = g
  · subst hg
    rw [if_pos rfl, bank_setBank]
    by_cases hj : j = k <;> simp [hj]
    rfl
  · simp [hg]
    rfl

/-- A change of the state outside the cores and the memories that only adds to the agenda. -/
structure Outside (s t : State) : Prop where
  cores : t.cores = s.cores
  cycle : t.cycle = s.cycle
  turn : t.turn = s.turn
  hbm : t.hbm = s.hbm
  host : t.host = s.host
  parts : t.parts = s.parts
  agenda : ∀ x ∈ s.agenda, x ∈ t.agenda

theorem Outside.refl (s : State) : Outside s s := ⟨rfl, rfl, rfl, rfl, rfl, rfl, fun _ h => h⟩
theorem Outside.trans {s t u : State} (h : Outside s t) (h' : Outside t u) : Outside s u :=
  ⟨h'.cores.trans h.cores, h'.cycle.trans h.cycle, h'.turn.trans h.turn, h'.hbm.trans h.hbm, h'.host.trans h.host,
    h'.parts.trans h.parts, fun x hx => h'.agenda x (h.agenda x hx)⟩
theorem Outside.schedule {s t : State} (h : Outside s t) (n : Nat) (i : Instr) (a : EvArgs) : Outside s (t.schedule n i a) :=
  h.trans ⟨rfl, rfl, rfl, rfl, rfl, rfl, fun x hx => (mem_schedule _ _ _ _ x).mpr (.inr hx)⟩
theorem Outside.modDie {s t : State} (h : Outside s t) (d : Fin 8) (f : Die → Die) : Outside s (t.modDie d f) :=
  h.trans ⟨rfl, rfl, rfl, rfl, rfl, rfl, fun _ hx => hx⟩
theorem Outside.modCluster {s t : State} (h : Outside s t) (c : Fin 64) (f : Cluster → Cluster) : Outside s (t.modCluster c f) :=
  h.trans ⟨rfl, rfl, rfl, rfl, rfl, rfl, fun _ hx => hx⟩
theorem Outside.foldl {α : Type} (f : State → α → State) (hf : ∀ s x, Outside s (f s x)) (l : List α) (s : State) :
    Outside s (l.foldl f s) := by
  induction l generalizing s with
  | nil => exact .refl s
  | cons x l ih => exact (hf s x).trans (ih _)
theorem Outside.endLease {s t : State} (h : Outside s t) (g : Fin 512) : Outside s (t.endLease g) := by
  have l := endLease_only t g
  exact h.trans ⟨by rw [l.state], by rw [l.state], by rw [l.state], by rw [l.state], by rw [l.state], by rw [l.state], l.agenda⟩
theorem Outside.core {s t : State} (h : Outside s t) (g : Fin 512) : t.core g = s.core g := by
  unfold State.core; rw [h.cores]

/-- An access that reaches its place although its unit has stopped. -/
def landsStill (o : AOp) : Bool := match o.body with | .load _ => o.performed | .gather _ => false | _ => true

/-- The bank of a unit that stops. -/
def stoppedBank (now : Nat) (status : Nat) (reason : Byte) (b : Bank) : Bank :=
  { b.holdSfc now with
    aEnded := true, mEnded := true, xEnded := true, left := 0,
    cols := b.cols.map fun (c : Column) => { c with ended := true, wait := none, evalDue := false },
    inflight := [], xstores := [], xsysw := [], aWait := none, mWait := none, aHold := .free,
    ops := (b.ops.filter landsStill).map fun (o : AOp) => { o with dst := .none, push := none },
    replay := (b.replay.filter fun (o : AOp) => landsStill o && o.answer != some false).map fun (o : AOp) =>
      { o with dst := .none, push := none },
    evops := b.evops.map fun e => { e with push := none }, pending := [],
    rings := Vector.replicate 16 none, dom := { b.dom with run := none, queue := [], trapDue := none },
    status := max b.status status, reason := if b.status < status then reason else b.reason,
    trap := none, st := .ready }

/-- Stopping a unit changes its bank so, leaves every other bank and every memory alone, and has the unit complete one
cycle later. -/
structure Stops (g : Fin 512) (k : Fin 3) (status : Nat) (reason : Byte) (s t : State) : Prop where
  bank : t.bank g k = stoppedBank s.cycle status reason (s.bank g k)
  banks : ∀ j, j ≠ k → t.bank g j = s.bank g j
  handling : (t.core g).handling = (s.core g).handling
  sp : (t.core g).sp = (s.core g).sp
  cores : ∀ g', g' ≠ g → t.core g' = s.core g'
  hbm : t.hbm = s.hbm
  host : t.host = s.host
  turn : t.turn = s.turn
  completes : { at_ := s.cycle + 1, what := .unitCompletion, args := EvArgs.at g k } ∈ t.agenda

theorem stopWith_stops (s : State) (run : Bool) (g : Fin 512) (k : Fin 3) (status : Nat) (reason : Byte) :
    Stops g k status reason s (s.stopWith run g k status reason) := by
  obtain ⟨R, X, hX, hO⟩ : ∃ (R : Core → Option Rot) (X : State),
      s.stopWith run g k status reason = State.schedule X 1 .unitCompletion (EvArgs.at g k) ∧
      Outside ((s.modBank g k (stoppedBank s.cycle status reason)).modCore g fun c => { c with rot := R c }) X := by
    refine ⟨fun c => c.rot.map fun x => if x.bank == k then { x with push := none } else x, _, rfl, ?_⟩
    refine Outside.schedule ?_ _ _ _
    have opt : ∀ (Y X : State), Outside Y X → ∀ (b : Bool), Outside Y (if b = true then X else X.schedule 0 .replayListResend (EvArgs.at g k)) := by
      intro Y X h b
      cases b
      · exact h.schedule _ _ _
      · exact h
    refine opt _ _ ?_ _
    have step : ∀ X, Outside ((s.modBank g k (stoppedBank s.cycle status reason)).modCore g fun c =>
        { c with rot := c.rot.map fun x => if x.bank == k then { x with push := none } else x }) X →
        ∀ (b : Bool), Outside ((s.modBank g k (stoppedBank s.cycle status reason)).modCore g fun c =>
        { c with rot := c.rot.map fun x => if x.bank == k then { x with push := none } else x })
          (if b = true then X.endLease g else X) := by
      intro X h b
      cases b
      · exact h
      · exact h.endLease g
    refine step _ ?_ _
    refine Outside.modCluster ?_ _ _
    refine Outside.trans (Outside.modDie (.refl _) _ _) (Outside.foldl _ (fun s x => (Outside.refl s).schedule _ _ _) _ _)
  rw [hX]
  have hc : ∀ g', ((X.schedule 1 .unitCompletion (EvArgs.at g k))).core g' = if g' = g then
      { (s.core g).setBank k (stoppedBank s.cycle status reason (s.bank g k)) with
        rot := R ((s.core g).setBank k (stoppedBank s.cycle status reason (s.bank g k))) } else s.core g' := by
    intro g'
    show X.core g' = _
    rw [hO.core, core_modCore, modBank_core]
    by_cases h : g' = g
    · subst h; simp only [if_true]
    · rw [if_neg h, if_neg h, modBank_core, if_neg h]
  have hb : ∀ j, ((X.schedule 1 .unitCompletion (EvArgs.at g k))).bank g j = if j = k then
      stoppedBank s.cycle status reason (s.bank g k) else s.bank g j := by
    intro j
    show Core.bank (State.core _ _) j = _
    rw [hc g, if_pos rfl]
    show ((s.core g).setBank k _).bank j = _
    rw [bank_setBank]
    rfl
  refine ⟨by rw [hb, if_pos rfl], fun j hj => by rw [hb, if_neg hj], ?_, ?_, fun g' hg => by rw [hc, if_neg hg], hO.hbm, hO.host, hO.turn, ?_⟩
  · rw [hc, if_pos rfl]; rfl
  · rw [hc, if_pos rfl]; rfl
  · rw [mem_schedule]
    left
    rw [hO.cycle]
    rfl

/-- A ready syllable whose meaning stops it before its pops. -/
theorem xIssue_stop {h : XHdr} {s : State} (hx : XReady h [] s) (l : Nat) {blk : State → Option State} {t : State} (hb : blk s = some t) (eff : State → State) :
    xIssue h l [] blk eff s = .next t := by
  unfold xIssue
  have hp : ∀ q ∈ dedup ([] : List Nat), headReady (s.tb.qAX q) = true := fun q hq => by cases hq
  simp only [hx.guard, if_true, xGate_free hx.toXFree hp, hb]

/-- A unit that stops for good with a cause. -/
theorem stoppedWith {s t : State} {g : Fin 512} {k : Fin 3} {cause : Byte} (h : Stops g k 2 cause s t) (hs : (s.bank g k).status < 2) :
    StoppedWith cause g k s t := by
  refine ⟨?_, ?_, ?_, h.banks, h.cores, ⟨?_, ?_, ?_⟩, h.completes⟩
  · rw [h.bank]
    constructor
    · show max _ 2 = 2
      have : ((s.bank g k).holdSfc s.cycle).status = (s.bank g k).status := by unfold Bank.holdSfc; split <;> rfl
      omega
    · show (if _ then cause else _) = cause
      rw [if_pos hs]
  · rw [h.bank]; exact ⟨rfl, rfl, rfl⟩
  · rw [h.bank]; exact ⟨rfl, rfl⟩
  · intro a; rw [h.hbm]
  · intro a; rw [h.host]
  · intro g' a
    by_cases hg : g' = g
    · subst hg; rw [h.sp]
    · rw [h.cores g' hg]

/-! ### Resuming a bank -/

/-- A unit whose saved image is sound, with no fault outstanding, runs again after 264 core cycles. -/
theorem resumeBank_runs (s : State) (g : Fin 512) (k : Fin 2) (u : UnitInfo)
    (hu : (s.bank g (k.castLE (by decide))).unit = some u) (hc : (s.bank g (k.castLE (by decide))).cancelled = false)
    (hr : (s.bank g (k.castLE (by decide))).replay = []) (hw : (s.core g).ctxsw = none)
    (hok : saveOk (s.saveRead (s.partAt g) (s.saveVA g k)) u = true) :
    ∃ skip pend, s.resumeBank g k =
      ((s.setBank g (k.castLE (by decide))
        { (s.bank g (k.castLE (by decide))).reload (s.saveRead (s.partAt g) (s.saveVA g k)) with
          st := .ready, trap := none, bpSkip := skip, pending := pend }).modCore g fun c =>
            { c with handling := none, ctxsw := none, stopped := false }).activate g k 264 := by
  have e : ∀ B, ((s.setBank g (k.castLE (by decide)) B).core g).ctxsw = none := by
    intro B
    show (State.core (State.modCore _ _ _) g).ctxsw = none
    rw [core_modCore, if_pos rfl]; exact hw
  refine ⟨match (s.bank g (k.castLE (by decide))).trap with
          | some x => if x.cause == 29 && (x.detail0 == 0x10000 || x.detail0 == 0x10001) then some (x.strm, x.col) else none
          | none => none,
    (s.bank g (k.castLE (by decide))).pending.filter fun x => (x.cause == 16 && ((s.saveRead (s.partAt g) (s.saveVA g k)) 3 1).testBit 0) || (x.cause == 18 && ((s.saveRead (s.partAt g) (s.saveVA g k)) 3 1).testBit 1), ?_⟩
  unfold State.resumeBank
  dsimp only []
  rw [hu]
  dsimp only []
  rw [hc, if_neg Bool.false_ne_true, hok, hr]
  simp only [Bool.not_true, Bool.false_eq_true, if_false, List.any_nil, Bool.false_and, e, Bool.false_or, show ∀ x : Fin 2, ((none : Option (Fin 2)) == some x) = false from fun _ => rfl, Bool.and_false]
  try rfl


end Sys2Proof.Machine
end

