-- ==== Sys2Proof/Laws/Access.lean ====
section
/-! SUPPORT. Laws/Access.lean: what issuing a word of stream A does, once for every meaning. -/
namespace Sys2Proof.Machine
open Sys2Proof Sys2Proof.Claims

/-! ### Pops of the X→A queues -/

theorem Bank.popXA_eq (b : Bank) (q : Nat) (hq : q < 4) : b.popXA q = { b with qsXA := (b.popXA q).qsXA, qa := b.qa + 1 } := by
  unfold Bank.popXA Bank.setQXA
  simp only [hq, dite_true]

theorem Bank.popsXA_eq (l : List Nat) (b : Bank) (hl : ∀ q ∈ l, q < 4) :
    l.foldl (fun b q => b.popXA q) b =
      { b with qsXA := (l.foldl (fun b q => b.popXA q) b).qsXA, qa := (l.foldl (fun b q => b.popXA q) b).qa } := by
  induction l generalizing b with
  | nil => rfl
  | cons q l ih =>
    have h1 := ih (b.popXA q) fun x hx => hl x (List.mem_cons_of_mem _ hx)
    have h2 := Bank.popXA_eq b q (hl q (List.mem_cons_self ..))
    simp only [List.foldl_cons]
    rw [h1, h2]

theorem Bank.qXA_popsXA (l : List Nat) (b : Bank) (hn : l.Nodup) (hl : ∀ q ∈ l, q < 8) (r : Nat) (hr : r < 8) :
    (l.foldl (fun b q => b.popXA q) b).qXA r = if r ∈ l then (b.qXA r).tail else b.qXA r := by
  induction l generalizing b with
  | nil => simp
  | cons q l ih =>
    have hq := hl q (List.mem_cons_self ..)
    obtain ⟨hql, hn⟩ := List.nodup_cons.mp hn
    rw [List.foldl_cons, ih (b.popXA q) hn fun x hx => hl x (List.mem_cons_of_mem _ hx)]
    have hp : (b.popXA q).qXA r = if r = q then (b.qXA q).tail else b.qXA r := Bank.qXA_setQXA b q r _ hq hr
    rw [hp]
    by_cases h : r = q
    · subst h; simp [hql]
    · simp [h]

/-- The X→A queues that a word's sources pop. -/
def aPops (srcs : List (Fin 32)) : List Nat := dedup ((srcs.filter fun n => decide (28 ≤ n.val)).map fun n => n.val - 28)

theorem mem_aPops (srcs : List (Fin 32)) (q : Nat) : q ∈ aPops srcs ↔ ∃ n ∈ srcs, n.val = 28 + q := by
  unfold aPops
  rw [mem_dedup, List.mem_map]
  constructor
  · rintro ⟨n, hn, rfl⟩
    rw [List.mem_filter] at hn
    exact ⟨n, hn.1, by have := of_decide_eq_true hn.2; omega⟩
  · rintro ⟨n, hn, h⟩
    exact ⟨n, List.mem_filter.mpr ⟨hn, decide_eq_true (by omega)⟩, by omega⟩

theorem aPops_lt (srcs : List (Fin 32)) : ∀ q ∈ aPops srcs, q < 4 := by
  intro q hq
  obtain ⟨n, _, h⟩ := (mem_aPops srcs q).mp hq
  have := n.isLt
  omega

/-! ### The gate -/

theorem aPending_landed {s : State} {n : Fin 32} (h : RegLanded s n) : s.tb.aPending s.cycle n = false := by
  unfold Bank.aPending
  rw [Bool.or_eq_false_iff, List.any_eq_false, List.any_eq_false]
  refine ⟨fun x hx => ?_, fun o ho => ?_⟩
  · intro hc
    rw [Bool.and_eq_true] at hc
    have h1 := h.1 x hx (by simpa using hc.1)
    have h2 := of_decide_eq_true hc.2
    omega
  · have := h.2 o ho
    split
    · rename_i m z sx he
      have := this m z sx he
      simpa using this
    · simp

theorem aGate_ready {s : State} {wait push : Option (Fin 16)} {srcs dsts : List (Fin 32)} {extra : List Nat}
    (r : AReady wait push srcs dsts extra s) : s.aGate wait push srcs dsts extra = none := by
  unfold State.aGate
  have h1 : ((srcs ++ dsts).any fun (n : Fin 32) => decide (0 < n.val) && decide (n.val < 28) && s.tb.aPending s.cycle n) = false := by
    rw [List.any_eq_false]
    intro n hn hc
    simp only [Bool.and_eq_true, decide_eq_true_eq] at hc
    rw [aPending_landed (r.landed n hn hc.1.1 hc.1.2)] at hc
    exact Bool.false_ne_true hc.2
  have h2 : ((aPops srcs).find? fun q => !headReady (s.tb.qXA q)) = none := by
    rw [List.find?_eq_none]
    intro q hq
    obtain ⟨n, hn, he⟩ := (mem_aPops srcs q).mp hq
    have := r.heads n hn (by omega)
    rw [show n.val - 28 = q by omega] at this
    simp [this]
  have h3 : ((((dsts.filter fun (n : Fin 32) => decide (28 ≤ n.val)).map fun (n : Fin 32) => n.val - 28) ++ extra).find?
      fun q => decide (qDepth q ≤ (s.tb.qAX q).length)) = none := by
    rw [List.find?_eq_none]
    intro q hq hc
    have hc := of_decide_eq_true hc
    rcases List.mem_append.mp hq with h | h
    · obtain ⟨n, hn, rfl⟩ := List.mem_map.mp h
      rw [List.mem_filter] at hn
      have hp := r.places n hn.1 (of_decide_eq_true hn.2)
      have : qDepth (n.val - 28) = 16 := by unfold qDepth; rw [if_pos (by have := n.isLt; omega)]
      omega
    · have := r.extras q h
      omega
  simp only [r.consumer, r.producer, r.token, r.room, h1, Bool.not_true, Bool.or_self, Bool.false_eq_true, if_false]
  show (match (aPops srcs).find? _ with | some q => _ | none => _) = none
  rw [h2]
  dsimp only []
  rw [h3]

/-- A ready word does what its meaning says after it has issued. -/
theorem aWord_ready {h : AHdr} {srcs dsts : List (Fin 32)} {extra : List Nat} {s : State}
    (r : AReady h.wait h.push srcs dsts extra s) {blk : State → Option State} (hb : blk s = none) (eff : State → State) :
    aWord h srcs dsts extra blk eff s = .next (eff (s.aTake h.wait h.push srcs 1)) := by
  unfold aWord
  rw [aGate_ready r]
  dsimp only []
  rw [hb]

/-! ### What an issued word takes -/

/-- The change of the bank by an issued word. -/
def aTakes (now : Nat) (wait push : Option (Fin 16)) (srcs : List (Fin 32)) (size : Word) (b : Bank) : Bank :=
  let b := (b.popToken wait).owe push
  let b := if wait.isSome then { b with qa := b.qa + 1 } else b
  let b := (aPops srcs).foldl (fun b q => b.popXA q) b
  { b.aNext size with
    aWait := none
    aBusy := 0
    colAt := none
    aReady := b.aReady.filter fun x => decide (now < x.2)
    bpSkip := b.bpSkip.filter fun x => x.1 != .a }

theorem aTake_eq (s : State) (wait push : Option (Fin 16)) (srcs : List (Fin 32)) (size : Word) :
    s.aTake wait push srcs size = (s.modTb (aTakes s.cycle wait push srcs size)).how .issued := rfl

theorem aTakes_parts (now : Nat) (wait push : Option (Fin 16)) (srcs : List (Fin 32)) (size : Word) (b : Bank) :
    ∃ qs qa bp, aTakes now wait push srcs size b =
        { movedOn size b with
          flags := ((b.popToken wait).owe push).flags, qsXA := qs, aWait := none, aBusy := 0, colAt := none,
          aReady := b.aReady.filter fun x => decide (now < x.2), bpSkip := bp, qa := qa } ∧
      ∀ q, q < 4 → (aTakes now wait push srcs size b).qXA q = if q ∈ aPops srcs then (b.qXA q).tail else b.qXA q := by
  unfold aTakes
  have h1 : (b.popToken wait).owe push = { b with flags := ((b.popToken wait).owe push).flags } := by
    rw [Bank.owe_eq, Bank.popToken_eq]
  generalize ((b.popToken wait).owe push).flags = fl at h1
  rw [h1]
  dsimp only []
  have h2 : ∃ n, (if wait.isSome = true then { ({ b with flags := fl } : Bank) with qa := b.qa + 1 } else { b with flags := fl }) =
      { b with flags := fl, qa := n } := by
    cases wait <;> exact ⟨_, rfl⟩
  obtain ⟨n, h2⟩ := h2
  rw [h2]
  have h3 := Bank.popsXA_eq (aPops srcs) { b with flags := fl, qa := n } (aPops_lt srcs)
  have h4 := fun r hr => Bank.qXA_popsXA (aPops srcs) { b with flags := fl, qa := n } (nodup_dedup _)
    (fun q hq => by have := aPops_lt srcs q hq; omega) r hr
  generalize (aPops srcs).foldl (fun b q => b.popXA q) { b with flags := fl, qa := n } = c at h3 h4
  refine ⟨c.qsXA, c.qa, c.bpSkip.filter fun x => x.1 != .a, ?_, ?_⟩
  · rw [h3]
    rfl
  · intro q hq
    exact h4 q (by omega)

/-- The word has issued: what it takes, and its push owed. -/
theorem aTake_owes (s : State) (wait push : Option (Fin 16)) (srcs dsts : List (Fin 32)) (extra : List Nat) (size : Word) :
    AOwes { wait := wait, push := push, srcs := srcs, dsts := dsts, extra := extra, size := size } s s
      (s.aTake wait push srcs size) := by
  rw [aTake_eq]
  have htb : ((s.modTb (aTakes s.cycle wait push srcs size)).how .issued).tb = aTakes s.cycle wait push srcs size s.tb :=
    State.tb_modTb _ _
  obtain ⟨qs, qa, bp, h1, h2⟩ := aTakes_parts s.cycle wait push srcs size s.tb
  refine ⟨⟨((OnlyBank.refl s).modTb _).how _, rfl, ?_, ?_, ?_, ?_⟩, ?_, rfl⟩
  · rw [htb, h1]; rfl
  · intro q hq
    rw [htb, h2 q hq]
    simp only [mem_aPops]
  · rw [htb, h1]; exact ⟨rfl, rfl⟩
  · rw [htb, h1]; exact (List.append_nil _).symm
  · intro f
    rw [htb, h1]
    exact Bank.flag_take s.tb wait push f

end Sys2Proof.Machine

namespace Sys2Proof.Claims
open Sys2Proof Sys2Proof.Machine

/-- The form's own change of the bank. -/
theorem AOwes.upd {r : AForm} {s u t : State} (h : AOwes r s u t) (f : Bank → Bank)
    (hf : ∀ b, f b = aParts (f b) b) (hp : ∀ b n, f (aParts b n) = aParts (f b) n) (r' : AForm)
    (e1 : r'.wait = r.wait) (e2 : r'.push = r.push) (e3 : r'.srcs = r.srcs) (e4 : r'.size = r.size)
    (e5 : r'.upd s (movedOn r.size s.tb) = f (r.upd s (movedOn r.size s.tb))) (e6 : r'.late s = r.late s)
    (e7 : (r'.plan u).agenda = (r.plan u).agenda) : AOwes r' s u (t.modTb f) := by
  have e : (t.modTb f).tb = f t.tb := State.tb_modTb _ _
  have hb : f t.tb = aParts (f (r.upd s (movedOn r.size s.tb))) t.tb := by rw [← hp, ← h.took.bank]
  have hq : ∀ q, q < 4 → (f t.tb).qXA q = t.tb.qXA q := by
    intro q hq
    rw [hf]
    unfold Bank.qXA
    simp only [hq, dite_true]
    rfl
  refine ⟨⟨h.took.only.modTb _, h.took.issued, ?_, ?_, ?_, ?_⟩, ?_, ?_⟩
  · rw [e, e4, e5, hb]; rfl
  · intro q hq'
    rw [e, hq q hq', e3]
    exact h.took.queues q hq'
  · rw [e, hf]; exact h.took.wait
  · rw [e, hf, e6]; exact h.took.ready
  · intro g
    rw [e, hf, e1, e2]
    exact h.tokens g
  · rw [e7]; exact h.agenda

/-- A count of the bank that no rule names. -/
theorem AOwes.count {r : AForm} {s u t : State} (h : AOwes r s u t) (f : Bank → Bank)
    (hf : ∀ b, f b = { b with pa := (f b).pa }) : AOwes r s u (t.modTb f) := by
  have e : (t.modTb f).tb = f t.tb := State.tb_modTb _ _
  refine ⟨⟨h.took.only.modTb _, h.took.issued, ?_, ?_, ?_, ?_⟩, ?_, h.agenda⟩
  · rw [e, hf]
    have := h.took.bank
    generalize t.tb = b at this ⊢
    rw [this]; rfl
  · intro q hq; rw [e, hf]; exact h.took.queues q hq
  · rw [e, hf]; exact h.took.wait
  · rw [e, hf]; exact h.took.ready
  · intro g; rw [e, hf]; exact h.tokens g

/-- A register that comes later. -/
theorem AOwes.ready {r : AForm} {s u t : State} (h : AOwes r s u t) (l : List (Fin 32 × Nat)) :
    AOwes { r with late := fun s => r.late s ++ l } s u (t.modTb fun b => { b with aReady := b.aReady ++ l }) := by
  have e : (t.modTb fun b => { b with aReady := b.aReady ++ l }).tb = { t.tb with aReady := t.tb.aReady ++ l } := State.tb_modTb _ _
  refine ⟨⟨h.took.only.modTb _, h.took.issued, ?_, ?_, ?_, ?_⟩, ?_, h.agenda⟩
  · rw [e]
    have := h.took.bank
    generalize t.tb = b at this ⊢
    rw [this]; rfl
  · intro q hq; rw [e]; exact h.took.queues q hq
  · rw [e]; exact h.took.wait
  · rw [e]
    show t.tb.aReady ++ l = _
    rw [h.took.ready, List.append_assoc]
  · intro g; rw [e]; exact h.tokens g

/-- A step planned. -/
theorem AOwes.schedule {r : AForm} {s u t : State} (h : AOwes r s u t) (n : Nat) (i : Instr) (a : EvArgs) (r' : AForm)
    (e1 : r' = { r with plan := r'.plan }) (e2 : (r'.plan u).agenda = ((r.plan u).schedule n i a).agenda)
    (e3 : (r.plan u).cycle = u.cycle) : AOwes r' s u (t.schedule n i a) := by
  rw [e1]
  refine ⟨⟨h.took.only.schedule _ _ _, h.took.issued, h.took.bank, h.took.queues, h.took.wait, h.took.ready⟩, h.tokens, ?_⟩
  show _ = (r'.plan u).agenda
  rw [e2, schedule_agenda, schedule_agenda, h.agenda, h.took.only.cycle, e3]

theorem AOwes.how {r : AForm} {s u t : State} (h : AOwes r s u t) (w : How) (hw : w = .issued) : AOwes r s u (t.how w) :=
  ⟨⟨h.took.only.how w, hw, h.took.bank, h.took.queues, h.took.wait, h.took.ready⟩, h.tokens, h.agenda⟩

/-- A base that differs outside the cores and the turn. -/
theorem AOwes.base {r : AForm} {s u t u' t' : State} (h : AOwes r s u t) (ht : OnlyBank u' t') (e1 : t'.tb = t.tb)
    (e2 : t'.turn = t.turn) (e3 : t'.agenda = (r.plan u').agenda) : AOwes r s u' t' := by
  refine ⟨⟨ht, by rw [e2]; exact h.took.issued, ?_, ?_, ?_, ?_⟩, ?_, e3⟩
  · rw [e1]; exact h.took.bank
  · rw [e1]; exact h.took.queues
  · rw [e1]; exact h.took.wait
  · rw [e1]; exact h.took.ready
  · rw [e1]; exact h.tokens

/-- The push at retirement. -/
theorem AOwes.retire {r : AForm} {s u t : State} (h : AOwes r s u t) (hc : (r.plan u).cycle = u.cycle)
    (hk : (r.plan u).turn.core = u.turn.core) (hx : (r.plan u).turn.ctx = u.turn.ctx) :
    ARetires r s u (t.retirePush r.push) := by
  unfold State.retirePush State.pushToken
  cases hp : r.push with
  | none =>
    dsimp only [Option.isSome]
    rw [if_neg Bool.false_ne_true]
    refine ⟨h.took, ?_, ?_⟩
    · intro f
      have := h.tokens f
      rw [hp] at this
      rw [this, hp]
      simp
    · rw [hp]; exact h.agenda
  | some g =>
    dsimp only [Option.isSome]
    rw [if_pos rfl]
    have hc1 := h.count (fun b => { b with pa := b.pa + 1 }) fun _ => rfl
    generalize t.modTb (fun b => { b with pa := b.pa + 1 }) = t' at hc1
    have e0 : (t'.modBank t'.turn.core t'.turn.ctx fun b => b.modFlag g fun x => { x with owed := x.owed - 1, travel := x.travel + 1 }) =
        t'.modTb fun b => b.modFlag g fun x => { x with owed := x.owed - 1, travel := x.travel + 1 } := rfl
    rw [e0]
    have e : (t'.modTb fun b => b.modFlag g fun x => { x with owed := x.owed - 1, travel := x.travel + 1 }).tb =
        t'.tb.modFlag g fun x => { x with owed := x.owed - 1, travel := x.travel + 1 } := State.tb_modTb _ _
    have ho := hc1.took.only.modTb fun b => b.modFlag g fun x => { x with owed := x.owed - 1, travel := x.travel + 1 }
    have hi : (t'.modTb fun b => b.modFlag g fun x => { x with owed := x.owed - 1, travel := x.travel + 1 }).turn = t'.turn := rfl
    have ha : (t'.modTb fun b => b.modFlag g fun x => { x with owed := x.owed - 1, travel := x.travel + 1 }).agenda = t'.agenda := rfl
    have hcy : (t'.modTb fun b => b.modFlag g fun x => { x with owed := x.owed - 1, travel := x.travel + 1 }).cycle = t'.cycle := rfl
    generalize (t'.modTb fun b => b.modFlag g fun x => { x with owed := x.owed - 1, travel := x.travel + 1 }) = W at e ho hi ha hcy ⊢
    refine ⟨⟨ho.schedule _ _ _, ?_, ?_, ?_, ?_, ?_⟩, ?_, ?_⟩
    · show W.turn.how = _
      rw [hi]; exact hc1.took.issued
    · rw [tb_schedule, e]
      have := hc1.took.bank
      unfold Bank.modFlag
      generalize t'.tb = b at this ⊢
      rw [this]; rfl
    · intro q hq
      rw [tb_schedule, e]; exact hc1.took.queues q hq
    · rw [tb_schedule, e]; exact hc1.took.wait
    · rw [tb_schedule, e]; exact hc1.took.ready
    · intro f
      rw [tb_schedule, e, Bank.flag_modFlag]
      have h2 := hc1.tokens f
      have h3 := hc1.tokens g
      rw [hp] at h2 h3 ⊢
      by_cases hg : f = g
      · subst hg
        rw [if_pos rfl, h3]
        simp
      · rw [if_neg hg, h2]
        simp [Ne.symm hg]
    · rw [hp]
      show _ = ((r.plan u).schedule 2 .tokenPoppable _).agenda
      rw [schedule_agenda, schedule_agenda, ha, hcy, hc1.took.only.core, hc1.took.only.ctx, hk, hx, hc, ← hc1.agenda,
        hc1.took.only.cycle]

end Sys2Proof.Claims

namespace Sys2Proof.Machine
open Sys2Proof Sys2Proof.Claims

/-! ### Results -/

theorem modTb_id (t : State) : (t.modTb fun b => b) = t := by
  have h1 : (t.modTb fun b => b) = t.setCore t.turn.core (t.core t.turn.core) := by
    show t.setCore t.turn.core ((t.core t.turn.core).setBank t.turn.ctx ((t.core t.turn.core).bank t.turn.ctx)) = _
    congr 1
    unfold Core.setBank Core.bank
    have : (t.core t.turn.core).banks.set t.turn.ctx.val ((t.core t.turn.core).banks.get t.turn.ctx) t.turn.ctx.isLt =
        (t.core t.turn.core).banks := by
      apply Vector.ext
      intro i hi
      rw [Vector.getElem_set]
      split
      · rename_i h; subst h; rfl
      · rfl
    rw [this]
  rw [h1]
  unfold State.setCore State.core
  have : t.cores.set t.turn.core.val (t.cores.get t.turn.core) t.turn.core.isLt = t.cores := by
    apply Vector.ext
    intro i hi
    rw [Vector.getElem_set]
    split
    · rename_i h; subst h; rfl
    · rfl
  rw [this]

/-- A place taken in an A→X queue is what `aPut` says. -/
theorem qAX_set (b : Bank) (d : Fin 32) (h1 : d.val ≠ 0) (h : ¬ d.val < 28) (v : DWord) (n : Nat) :
    ({ b.reserveAX (d.val - 28) ((v.setWidth 32).setWidth 1024) with pa := n } : Bank) = { aPut d v b with pa := n } := by
  unfold Bank.reserveAX Bank.setQAX aPut Bank.qAX
  have : d.val - 28 < 4 := by have := d.isLt; omega
  simp only [h, this, dite_true, dite_false, h1, if_false]

theorem aPut_parts (d : Fin 32) (v : DWord) (b n : Bank) : aPut d v b = aParts (aPut d v b) b ∧ aPut d v (aParts b n) = aParts (aPut d v b) n := by
  unfold aPut
  split
  · exact ⟨rfl, rfl⟩
  · split
    · exact ⟨rfl, rfl⟩
    · exact ⟨rfl, rfl⟩

theorem plan_turn (h : AHdr) (d : Fin 32) (srcs : List (Fin 32)) (lat : Nat) (v : State → DWord) (u : State) :
    ((aGives h d srcs lat v).plan u).cycle = u.cycle ∧ ((aGives h d srcs lat v).plan u).turn = u.turn := by
  unfold aGives
  dsimp only []
  split <;> exact ⟨rfl, rfl⟩

end Sys2Proof.Machine
namespace Sys2Proof.Claims
open Sys2Proof Sys2Proof.Machine
/-- A result after the word has issued. -/
theorem AOwes.put {h : AHdr} {d : Fin 32} {srcs : List (Fin 32)} {lat : Nat} {v : State → DWord} {s u t : State}
    (ho : AOwes { wait := h.wait, push := h.push, srcs := srcs, dsts := [d] } s u t) (hid : t.tb.nextId = u.tb.nextId)
    (hcy : u.cycle = s.cycle) : AOwes (aGives h d srcs lat v) s u (t.wrA d (v s) lat) := by
  unfold State.wrA
  by_cases h0 : d.val = 0
  · rw [if_pos h0]
    have := ho.upd (fun b => b) (fun _ => rfl) (fun _ _ => rfl) (aGives h d srcs lat v) rfl rfl rfl rfl
      (by show aPut d _ _ = _; unfold aPut; rw [if_pos h0]) (by show (if _ then _ else _) = _; rw [if_neg (by omega)])
      (by show (if _ then _ else _ : State).agenda = _; rw [if_neg (by omega)])
    have e := modTb_id t
    rw [e] at this
    exact this
  · rw [if_neg h0]
    by_cases h1 : d.val < 28
    · rw [dif_pos h1]
      have hp := aPut_parts d (v s)
      have e0 : ∀ b : Bank, aPut d (v s) b = { b with a := b.a.set d.val (v s) } := by
        intro b; unfold aPut; rw [if_neg h0, dif_pos h1]
      have h2 := ho.upd (aPut d (v s)) (fun b => (hp b b).1) (fun b n => (hp b n).2)
        { aGives h d srcs lat v with late := fun _ => [] } rfl rfl rfl rfl rfl rfl
        (by show (if _ then _ else _ : State).agenda = _; rw [if_neg (by omega)])
      by_cases hl : lat ≤ 1
      · have hl' : ¬ (0 < d.val ∧ d.val < 28 ∧ 1 < lat) := by omega
        have e1 : aGives h d srcs lat v = { aGives h d srcs lat v with late := fun _ => [] } := by
          unfold aGives; simp only [hl', if_false]
        rw [e1]
        have e2 : (t.modTb fun b => { b with a := b.a.set d.val (v s), aReady := if lat ≤ 1 then b.aReady else b.aReady ++ [(d, t.cycle + lat)] }) = t.modTb (aPut d (v s)) := by
          apply modTb_const
          rw [e0, if_pos hl]
        rw [e2]
        exact h2
      · have h3 := h2.ready [(d, s.cycle + lat)]
        have hl' : 0 < d.val ∧ d.val < 28 ∧ 1 < lat := by omega
        have e1 : aGives h d srcs lat v = { ({ aGives h d srcs lat v with late := fun _ => [] } : AForm) with late := fun s => ({ aGives h d srcs lat v with late := fun _ => [] } : AForm).late s ++ [(d, s.cycle + lat)] } := by
          unfold aGives; simp only [hl', if_true, List.nil_append, and_self]
        have e2 : (t.modTb fun b => { b with a := b.a.set d.val (v s), aReady := if lat ≤ 1 then b.aReady else b.aReady ++ [(d, t.cycle + lat)] }) =
            (t.modTb (aPut d (v s))).modTb fun b => { b with aReady := b.aReady ++ [(d, s.cycle + lat)] } := by
          rw [modTb_modTb]
          apply modTb_const
          rw [e0, if_neg hl, ho.took.only.cycle, hcy]
        rw [e2]
        have h4 : AOwes (aGives h d srcs lat v) s u ((t.modTb (aPut d (v s))).modTb fun b => { b with aReady := b.aReady ++ [(d, s.cycle + lat)] }) := by
          refine ⟨⟨h3.took.only, h3.took.issued, h3.took.bank, h3.took.queues, h3.took.wait, ?_⟩, h3.tokens, h3.agenda⟩
          rw [h3.took.ready]
          unfold aGives; simp only [hl', if_true, List.nil_append, and_self]
        exact h4
    · rw [dif_neg h1]
      have hp := aPut_parts d (v s)
      have h28 : 28 ≤ d.val := by omega
      have h2 := ho.upd (aPut d (v s)) (fun b => (hp b b).1) (fun b n => (hp b n).2)
        { aGives h d srcs lat v with late := fun _ => [], plan := fun s => s } rfl rfl rfl rfl rfl rfl rfl
      have h3 := h2.count (fun b => { b with pa := b.pa + 1 }) fun _ => rfl
      have e2 : (t.modTb fun b => { b.reserveAX (d.val - 28) (((v s).setWidth 32).setWidth 1024) with pa := b.pa + 1 }) =
            (t.modTb (aPut d (v s))).modTb fun b => { b with pa := b.pa + 1 } := by
        rw [modTb_modTb]
        congr 1
        funext b
        rw [qAX_set b d h0 h1]
        have : (aPut d (v s) b).pa = b.pa := by rw [(hp b b).1]; rfl
        rw [this]
      rw [e2]
      have h4 := h3.schedule 4 .queueEntryPoppable { EvArgs.at t.turn.core t.turn.ctx with n := d.val - 28, id := t.tb.nextId }
        { aGives h d srcs lat v with late := fun _ => [] } rfl (by
          show (if _ then _ else _ : State).agenda = _
          rw [if_pos h28]
          unfold poppable
          rw [hid, ho.took.only.core, ho.took.only.ctx]) rfl
      refine ⟨⟨h4.took.only, h4.took.issued, h4.took.bank, h4.took.queues, h4.took.wait, ?_⟩, h4.tokens, h4.agenda⟩
      rw [h4.took.ready]
      show _ = _ ++ (if _ then _ else _)
      rw [if_neg (by omega)]

end Sys2Proof.Claims
namespace Sys2Proof.Machine
open Sys2Proof Sys2Proof.Claims
/-- A word with one result retires with it. -/
theorem aResult_retires {h : AHdr} {d : Fin 32} {srcs : List (Fin 32)} {lat : Nat} {v : State → DWord} {s : State}
    (r : AReady h.wait h.push srcs [d] [] s) :
    ∃ t, aResult h d srcs lat v s = .next t ∧ ARetires (aGives h d srcs lat v) s s t := by
  refine ⟨_, aWord_ready r rfl _, ?_⟩
  have ho := aTake_owes s h.wait h.push srcs [d] [] 1
  have hid : (s.aTake h.wait h.push srcs 1).tb.nextId = s.tb.nextId := by
    rw [ho.took.bank]; rfl
  have hp := plan_turn h d srcs lat v s
  exact (ho.put (lat := lat) (v := v) hid rfl).retire hp.1 (by rw [hp.2]) (by rw [hp.2])

end Sys2Proof.Machine
end

