-- ==== Sys2Proof/Laws/Global.lean ====
section
/-! SUPPORT. Laws/Global.lean: what sending a global access does, once for every word of stream A that sends one. -/
namespace Sys2Proof.Machine
open Sys2Proof Sys2Proof.Claims

theorem gBlock_none {store : Bool} {release : Option Scope} {atom : Bool} {align va : Nat} {s : State}
    (h : GlobalOk store release atom align va s) : gBlock store release atom align va s = none := by
  unfold gBlock
  have h1 : (store && s.tb.sealed) = false := by cases store <;> simp [h.unsealed]
  have h2 : (atom && (vaOwner va == 8 || s.irrevocable s.tb.part (s.locate s.tb.part va))) = false := by
    cases atom
    · rfl
    · obtain ⟨a, b⟩ := h.target rfl
      simp [a, b]
  have h3 : (s.kindAt s.tb.part va == 0 && s.tb.ops.any fun (o : AOp) => !o.confirmed) = false := by
    rw [Bool.and_eq_false_iff]
    by_cases hk : s.kindAt s.tb.part va = 0
    · right
      rw [List.any_eq_false]
      intro o ho
      simp [h.strong hk o ho]
    · left; simpa using hk
  have h4 : (store && !s.relOk s.turn.core s.turn.ctx) = false := by
    cases store
    · rfl
    · rw [h.fence rfl]; rfl
  have h5 : (release.any fun sc => !s.released s.turn.core s.turn.ctx sc) = false := by
    cases hr : release with
    | none => rfl
    | some sc => simp [h.released sc hr]
  have h6 : ¬16 ≤ (s.tb.ops.filter fun (o : AOp) => !o.confirmed).length := Nat.not_le.mpr h.room
  simp [h1, h2, h3, h4, h5, h6, h.aligned, h.canonical, h.owner, h.quiet]

theorem aliasNote_off {t : State} {g : Fin 512} {k : Fin 3} (h : (t.part (t.bank g k).part).aliasMode = false) (pc : Word) (cls : Fin 8)
    (sp wr : Bool) (a n : Nat) (x : Option (Fin 4)) : t.aliasNote g k pc cls sp wr a n x = t := by
  unfold State.aliasNote
  simp only [h, Bool.not_false, if_true]

theorem OnlyBank.useFree {s t : State} (h : OnlyBank s t) : OnlyBank s.useFree t.useFree := by
  obtain ⟨e, h1, h2, h3, h4, h5, h6, h7, h8⟩ := h
  refine ⟨?_, h1, h2, h3, h4, h5, h6, h7, h8⟩
  unfold State.useFree
  rw [e]

/-- What `send` changes in the bank. -/
def sendsIn (r : Access) (s : State) (d : ADst) (b : Bank) : Bank :=
  { b with ops := b.ops ++ [r.op s d], nextId := r.id s + 1, digest := digested r s b.digest }

theorem digestNote_eq (t : State) (a n d : Nat) : t.digestNote a n d = t.modTb fun b =>
    { b with digest := if (t.part t.tb.part).rpMode = 0 then b.digest
             else b.digest ++ [(BitVec.ofNat 64 a, BitVec.ofNat 64 n, BitVec.ofNat 64 d)] } := by
  unfold State.digestNote
  split
  · exact (modTb_id t).symm
  · rfl

theorem send_eq (r : Access) (s t : State) (d : ADst) (ho : OnlyBank s t) (hid : t.tb.nextId = r.id s)
    (hu : t.tb.part = s.tb.part) (hr : (r.op s d).range.map (fun x => x.2) = r.range)  :
    t.send s r.cls (r.va s) (r.body s) d r.hdr.push r.acq =
      ((t.modTb (sendsIn r s d)).useFree).schedule (s.oneWay s.turn.core (r.va s) + Config.accessDelay t.free) .globalAccessAtOwner
        { EvArgs.at s.turn.core s.turn.ctx with id := r.id s } := by
  have e1 : t.oneWay t.turn.core (r.va s) = s.oneWay s.turn.core (r.va s) := by
    rw [ho.core, ho.state]; rfl
  have e2 : t.part t.tb.part = s.part s.tb.part := by
    rw [hu, ho.state]; rfl
  unfold State.send
  have e4 : ({
      id := t.tb.nextId, pc := s.tb.apc, sfc := s.sfc s.tb, va := BitVec.ofNat 64 (r.va s), cls := r.cls, body := r.body s,
      dst := d, push := r.hdr.push, after := s.tb.acquiring, acquire := r.acq && s.kindAt s.tb.part (r.va s) != 2,
      confirmed := false, performed := false, doneTo := 0, got := [], xlat := [], result := 0, fault := 0, answer := none } : AOp) =
      r.op s d := by
    rw [hid]; rfl
  have e5 : ∀ u : State, u.tb.nextId = t.tb.nextId → u.turn = t.turn → u.free = t.free → (u.modTb fun b => { b with ops := b.ops ++ [r.op s d], nextId := b.nextId + 1 }) = t.modTb (sendsIn r s d) →
      ((u.modTb fun b => { b with ops := b.ops ++ [r.op s d], nextId := b.nextId + 1 }).useFree).schedule
        (t.oneWay t.turn.core (r.va s) + Config.accessDelay t.free) .globalAccessAtOwner { EvArgs.at t.turn.core t.turn.ctx with id := (r.op s d).id } =
      ((t.modTb (sendsIn r s d)).useFree).schedule (s.oneWay s.turn.core (r.va s) + Config.accessDelay t.free) .globalAccessAtOwner
        { EvArgs.at s.turn.core s.turn.ctx with id := r.id s } := by
    intro u h1 h2 h3 h4
    rw [h4, e1, ho.core, ho.ctx]; rfl
  have hl : (if (r.body s).isLoad = true then t else t.digestNote (r.va s) (r.range.getD (r.body s).count) (leNat (r.body s).firstBytes)) = t.modTb fun b => { b with digest := digested r s b.digest } := by
    unfold digested
    by_cases hb : (r.body s).isLoad = true
    · rw [if_pos hb]
      simp only [hb, true_or, if_true]
      exact (modTb_id t).symm
    · rw [if_neg hb, digestNote_eq, e2]
      simp only [hb, Bool.false_eq_true, false_or]
  refine Eq.trans ?_ (e5 (t.modTb fun b => { b with digest := digested r s b.digest }) ?_ rfl rfl ?_)
  · dsimp only []
    rw [e4]
    have e6 : (r.op s d).range.map (fun x => x.2) = r.range := hr
    rw [e6, hl, hid]
    rfl
  · rw [State.tb_modTb]
  · rw [modTb_modTb]
    apply modTb_const
    unfold sendsIn
    rw [hid]

theorem sendsIn_parts (r : Access) (s : State) (d : ADst) (b n : Bank) :
    sendsIn r s d b = aParts (sendsIn r s d b) b ∧ sendsIn r s d (aParts b n) = aParts (sendsIn r s d b) n := ⟨rfl, rfl⟩

/-- An access is sent. -/
theorem access_owes (r : Access) {s t : State} {d : ADst}
    (h : AOwes { wait := r.hdr.wait, push := r.hdr.push, srcs := r.srcs, dsts := r.dsts, extra := r.extra, upd := fun _ b => (r.dst b).1 } s s t)
    (hd : ∀ b, b.nextId = s.tb.nextId → (r.dst b).2 = d)
    (hid : t.tb.nextId = r.id s) (hr : (r.op s d).range.map (fun x => x.2) = r.range) (hu : t.tb.part = s.tb.part)
    (hl1 : ∀ n b, r.last s n b = aParts (r.last s n b) b) (hl2 : ∀ k b n, r.last s k (aParts b n) = aParts (r.last s k b) n) :
    ∃ n, s.oneWay s.turn.core (r.va s) ≤ n ∧
      AOwes (r.form n) s s.useFree ((t.send s r.cls (r.va s) (r.body s) d r.hdr.push r.acq).modTb (r.last s (r.id s))) := by
  refine ⟨s.oneWay s.turn.core (r.va s) + Config.accessDelay t.free, Nat.le_add_right _ _, ?_⟩
  rw [send_eq r s t d h.took.only hid hu hr]
  have h2 := h.upd (sendsIn r s d) (fun b => (sendsIn_parts r s d b b).1) (fun b n => (sendsIn_parts r s d b n).2)
    { wait := r.hdr.wait, push := r.hdr.push, srcs := r.srcs, dsts := r.dsts, extra := r.extra,
      upd := fun s b => sendsIn r s d (r.dst b).1 } rfl rfl rfl rfl rfl rfl rfl
  have h3 := h2.base (u' := s.useFree) (t' := (t.modTb (sendsIn r s d)).useFree) (OnlyBank.useFree h2.took.only) rfl rfl h2.agenda
  have h4 := h3.schedule (s.oneWay s.turn.core (r.va s) + Config.accessDelay t.free) .globalAccessAtOwner
    { EvArgs.at s.turn.core s.turn.ctx with id := r.id s }
    { wait := r.hdr.wait, push := r.hdr.push, srcs := r.srcs, dsts := r.dsts, extra := r.extra,
      upd := fun s b => sendsIn r s d (r.dst b).1,
      plan := fun u => u.schedule (s.oneWay s.turn.core (r.va s) + Config.accessDelay t.free) .globalAccessAtOwner
        { EvArgs.at u.turn.core u.turn.ctx with id := r.id s } } rfl rfl rfl
  have h5 := h4.upd (r.last s (r.id s)) (hl1 _) (hl2 _) (r.form (s.oneWay s.turn.core (r.va s) + Config.accessDelay t.free)) rfl rfl rfl rfl
    (by
      show r.last s (r.id s) _ = r.last s (r.id s) (sendsIn r s d (r.dst (movedOn 1 s.tb)).1)
      congr 1
      unfold sendsIn
      rw [hd]
      rfl) rfl rfl
  exact h5

/-- A place that needs nothing. -/
theorem access_plain (r : Access) {s : State} (hd : r.dst = fun b => (b, .none)) (hr : (r.op s .none).range.map (fun x => x.2) = r.range)
    (hl1 : ∀ n b, r.last s n b = aParts (r.last s n b) b) (hl2 : ∀ k b n, r.last s k (aParts b n) = aParts (r.last s k b) n) :
    ∃ n, s.oneWay s.turn.core (r.va s) ≤ n ∧ AOwes (r.form n) s s.useFree
      (((s.aTake r.hdr.wait r.hdr.push r.srcs 1).send s r.cls (r.va s) (r.body s) .none r.hdr.push r.acq).modTb (r.last s (r.id s))) := by
  have h := aTake_owes s r.hdr.wait r.hdr.push r.srcs r.dsts r.extra 1
  have hb := h.took.bank
  refine access_owes r (d := .none) ?_ ?_ ?_ hr ?_ hl1 hl2
  · rw [hd]; exact h
  · rw [hd]; intro b _; rfl
  · rw [hb]; show s.tb.nextId = r.id s; unfold Access.id; rw [hd]
  · rw [hb]; rfl

/-- A place in a queue. -/
theorem access_queue (r : Access) {s : State} (port : Nat) (sx : Bool) (hd : r.dst = fun b => (b.reserveAX port 0, .queue (Fin.ofNat 8 port) b.nextId sx))
    (hr : (r.op s (.queue (Fin.ofNat 8 port) s.tb.nextId sx)).range.map (fun x => x.2) = r.range)
    (hl1 : ∀ n b, r.last s n b = aParts (r.last s n b) b) (hl2 : ∀ k b n, r.last s k (aParts b n) = aParts (r.last s k b) n) :
    ∃ n, s.oneWay s.turn.core (r.va s) ≤ n ∧ AOwes (r.form n) s s.useFree
      ((((s.aTake r.hdr.wait r.hdr.push r.srcs 1).modTb fun b => { b.reserveAX port 0 with pa := b.pa + 1 }).send s r.cls (r.va s) (r.body s)
        (.queue (Fin.ofNat 8 port) (s.aTake r.hdr.wait r.hdr.push r.srcs 1).tb.nextId sx) r.hdr.push r.acq).modTb (r.last s (r.id s))) := by
  have h := aTake_owes s r.hdr.wait r.hdr.push r.srcs r.dsts r.extra 1
  have hb := h.took.bank
  have hid : (s.aTake r.hdr.wait r.hdr.push r.srcs 1).tb.nextId = s.tb.nextId := by rw [hb]; rfl
  have hr1 : ∀ b : Bank, b.reserveAX port 0 = aParts (b.reserveAX port 0) b := by
    intro b; unfold Bank.reserveAX Bank.setQAX; split
    · rfl
    · split
      · rfl
      · rfl
  have hr2 : ∀ b n : Bank, (aParts b n).reserveAX port 0 = aParts (b.reserveAX port 0) n := by
    intro b n
    unfold Bank.reserveAX Bank.setQAX Bank.qAX; split
    · rfl
    · split
      · rfl
      · rfl
  have h2 := h.upd (fun b => b.reserveAX port 0) hr1 hr2
    { wait := r.hdr.wait, push := r.hdr.push, srcs := r.srcs, dsts := r.dsts, extra := r.extra, upd := fun _ b => b.reserveAX port 0 }
    rfl rfl rfl rfl rfl rfl rfl
  have h3 := h2.count (fun b => { b with pa := b.pa + 1 }) fun _ => rfl
  have e : ((s.aTake r.hdr.wait r.hdr.push r.srcs 1).modTb fun b => { b.reserveAX port 0 with pa := b.pa + 1 }) =
      ((s.aTake r.hdr.wait r.hdr.push r.srcs 1).modTb fun b => b.reserveAX port 0).modTb fun b => { b with pa := b.pa + 1 } := by
    rw [modTb_modTb]
    congr 1
    funext b
    have : (b.reserveAX port 0).pa = b.pa := by rw [hr1]; rfl
    rw [this]
  rw [e, hid]
  have hb2 := h3.took.bank
  refine access_owes r (d := .queue (Fin.ofNat 8 port) s.tb.nextId sx) ?_ ?_ ?_ hr ?_ hl1 hl2
  · rw [hd]; exact h3
  · rw [hd]; intro b hb; show ADst.queue _ b.nextId sx = _; rw [hb]
  · rw [hb2]; unfold Access.id; rw [hd]; rfl
  · rw [hb2]
    have hr3 : ∀ b : Bank, (b.reserveAX port 0).unit = b.unit := by
      intro b; unfold Bank.reserveAX Bank.setQAX; split
      · rfl
      · split
        · rfl
        · rfl
    unfold Bank.part
    have : (aParts ((movedOn 1 s.tb).reserveAX port 0) (((s.aTake r.hdr.wait r.hdr.push r.srcs 1).modTb fun b => b.reserveAX port 0).modTb fun b => { b with pa := b.pa + 1 }).tb).unit = s.tb.unit := (hr3 _).trans rfl
    rw [← this]

theorem loads_sent (r : Access) {s : State} {d : Fin 32} {n : Nat} {sx : Bool} (hd : r.dst = landsIn d n sx)
    (hr : ∀ x, (r.op s x).range.map (fun x => x.2) = r.range) (hl : r.last = fun _ _ b => b) :
    ∃ k t, ((let x := (s.aTake r.hdr.wait r.hdr.push r.srcs 1).loadDst d n sx
        x.1.send s r.cls (r.va s) (r.body s) x.2 r.hdr.push r.acq) = t) ∧ s.oneWay s.turn.core (r.va s) ≤ k ∧ AOwes (r.form k) s s.useFree t := by
  have hl1 : ∀ n b, r.last s n b = aParts (r.last s n b) b := by rw [hl]; intros; rfl
  have hl2 : ∀ k b n, r.last s k (aParts b n) = aParts (r.last s k b) n := by rw [hl]; intros; rfl
  have hid : ∀ t : State, (t.modTb (r.last s (r.id s))) = t := by rw [hl]; exact modTb_id
  unfold State.loadDst
  by_cases h0 : d.val = 0
  · rw [if_pos h0]
    obtain ⟨k, h1, h2⟩ := access_plain { r with dst := fun b => (b, .none) } (s := s) rfl (hr .none) hl1 hl2
    refine ⟨k, _, rfl, h1, ?_⟩
    have e : r = { r with dst := fun b => (b, .none) } := by
      have : r.dst = fun b => (b, .none) := by rw [hd]; funext b; unfold landsIn; rw [if_pos h0]
      rw [← this]
    rw [← e] at h2
    rw [hid] at h2
    exact h2
  · rw [if_neg h0]
    by_cases h1 : d.val < 28
    · rw [if_pos h1]
      have h := aTake_owes s r.hdr.wait r.hdr.push r.srcs r.dsts r.extra 1
      have hb := h.took.bank
      have hdd : r.dst = fun b => (b, .areg d n sx) := by rw [hd]; funext b; unfold landsIn; rw [if_neg h0, if_pos h1]
      obtain ⟨k, h2, h3⟩ := access_owes r (d := .areg d n sx) (s := s) (t := s.aTake r.hdr.wait r.hdr.push r.srcs 1)
        (by rw [hdd]; exact h) (by rw [hdd]; intro b _; rfl)
        (by rw [hb]; show s.tb.nextId = r.id s; unfold Access.id; rw [hdd]) (hr (.areg d n sx)) (by rw [hb]; rfl) hl1 hl2
      rw [hid] at h3
      exact ⟨k, _, rfl, h2, h3⟩
    · rw [if_neg h1]
      have hdd : r.dst = fun b => (b.reserveAX (d.val - 28) 0, .queue (Fin.ofNat 8 (d.val - 28)) b.nextId sx) := by
        rw [hd]; funext b; unfold landsIn; rw [if_neg h0, if_neg h1]
      obtain ⟨k, h2, h3⟩ := access_queue r (s := s) (d.val - 28) sx hdd (hr _) hl1 hl2
      rw [hid] at h3
      exact ⟨k, _, rfl, h2, h3⟩

theorem word_out {h : AHdr} {srcs dsts : List (Fin 32)} {extra : List Nat} {s : State} {blk : State → Option State} {eff : State → State}
    (hx : AReady h.wait h.push srcs dsts extra s) (hb : blk s = none) {P : State → Prop} (he : P (eff (s.aTake h.wait h.push srcs 1))) :
    ∃ t, aWord h srcs dsts extra blk eff s = .next t ∧ P t := ⟨_, aWord_ready hx hb eff, he⟩

theorem take_part (s : State) (w p : Option (Fin 16)) (srcs : List (Fin 32)) (n : Word) (q : Fin 8) : (s.aTake w p srcs n).part q = s.part q := by
  rw [(aTake_owes s w p srcs [] [] n).took.only.state]; rfl

theorem take_quiet {s : State} {w p : Option (Fin 16)} {srcs : List (Fin 32)} {n : Word} (h : (s.part s.tb.part).aliasMode = false)
    : ((s.aTake w p srcs n).part ((s.aTake w p srcs n).bank (s.aTake w p srcs n).turn.core (s.aTake w p srcs n).turn.ctx).part).aliasMode = false := by
  rw [take_part]
  have hb := (aTake_owes s w p srcs [] [] n).took.bank
  have : ((s.aTake w p srcs n).bank (s.aTake w p srcs n).turn.core (s.aTake w p srcs n).turn.ctx).part = s.tb.part := by
    show (s.aTake w p srcs n).tb.part = _
    rw [hb]; rfl
  rw [this]; exact h

/-- Loads, atomics and `barc`. -/
theorem global_returns (r : Access) {s : State} {d : Fin 32} {n k : Nat} {sx store atom wr : Bool} {release : Option Scope}
    {body : State → AccBody} (hb : r.body = body)
    (hx : AReady r.hdr.wait r.hdr.push r.srcs r.dsts r.extra s) (hn : GlobalOk store release atom k (r.va s) s)
    (hd : r.dst = landsIn d n sx) (hr : ∀ x, (r.op s x).range.map (fun x => x.2) = r.range) (hl : r.last = fun _ _ b => b) :
    ∃ m t, aGlobal r.hdr r.srcs r.dsts r.extra r.cls store release atom r.acq k r.va wr n body (fun t => t.loadDst d n sx) s = .next t ∧
      s.oneWay s.turn.core (r.va s) ≤ m ∧ AOwes (r.form m) s s.useFree t := by
  subst hb
  obtain ⟨m, t, h1, h2, h3⟩ := loads_sent r hd hr hl (s := s)
  refine ⟨m, ?_⟩
  unfold aGlobal
  refine word_out hx (gBlock_none hn) ?_
  refine ⟨h2, ?_⟩
  have := aliasNote_off (take_quiet hn.quiet (w := r.hdr.wait) (p := r.hdr.push) (srcs := r.srcs) (n := 1)) s.tb.apc r.cls false wr (r.va s) n none
  dsimp only []
  rw [this, h1]
  exact h3

/-- Stores and reductions. -/
theorem global_plain (r : Access) {s : State} {n k : Nat} {store atom wr : Bool} {release : Option Scope}
    {body : State → AccBody} (hb : r.body = body)
    (hx : AReady r.hdr.wait r.hdr.push r.srcs r.dsts r.extra s) (hn : GlobalOk store release atom k (r.va s) s)
    (hd : r.dst = fun b => (b, .none)) (hr : ∀ x, (r.op s x).range.map (fun x => x.2) = r.range) (hl : r.last = fun _ _ b => b) :
    ∃ m t, aGlobal r.hdr r.srcs r.dsts r.extra r.cls store release atom r.acq k r.va wr n body (fun t => (t, .none)) s = .next t ∧
      s.oneWay s.turn.core (r.va s) ≤ m ∧ AOwes (r.form m) s s.useFree t := by
  subst hb
  have hl1 : ∀ n b, r.last s n b = aParts (r.last s n b) b := by rw [hl]; intros; rfl
  have hl2 : ∀ k b n, r.last s k (aParts b n) = aParts (r.last s k b) n := by rw [hl]; intros; rfl
  obtain ⟨m, h2, h3⟩ := access_plain r hd (hr .none) hl1 hl2
  refine ⟨m, ?_⟩
  unfold aGlobal
  refine word_out hx (gBlock_none hn) ?_
  refine ⟨h2, ?_⟩
  have := aliasNote_off (take_quiet hn.quiet (w := r.hdr.wait) (p := r.hdr.push) (srcs := r.srcs) (n := 1)) s.tb.apc r.cls false wr (r.va s) n none
  dsimp only []
  rw [this]
  have e := modTb_id ((s.aTake r.hdr.wait r.hdr.push r.srcs 1).send s r.cls (r.va s) (r.body s) .none r.hdr.push r.acq)
  rw [hl] at h3
  rw [e] at h3
  exact h3

end Sys2Proof.Machine
end

