-- ==== Sys2Proof/Laws/Memory.lean ====
section
/-! SUPPORT. Laws/Memory.lean: what a write of memory does to every byte, and that every write keeps the canonical form. -/
namespace Sys2Proof.Machine
open Sys2Proof

@[simp] theorem Memory.wf_nil : Memory.wf [] = true := rfl

@[simp] theorem Memory.read_nil (a : Nat) : Memory.read [] a = 0 := rfl

/-- A lower bound may be weakened. -/
theorem Memory.wfFrom_mono {m : Memory} {lo : Nat} (h : Memory.wfFrom (some lo) m = true) :
    Memory.wfFrom none m = true := by
  cases m with
  | nil => rfl
  | cons c m => simp_all [Memory.wfFrom]

/-- Below its lower bound a canonical list reads 0. -/
theorem Memory.read_below {m : Memory} {lo a : Nat} (h : Memory.wfFrom (some lo) m = true) (ha : a ≤ lo) :
    m.read a = 0 := by
  cases m with
  | nil => rfl
  | cons c m =>
    simp only [Memory.wfFrom, Bool.and_eq_true, decide_eq_true_eq] at h
    have : c.1 ≠ a ∧ a < c.1 := by omega
    simp [Memory.read, this]

/-- A write keeps the canonical form above a lower bound that lies below its address. -/
theorem Memory.wfFrom_write (m : Memory) (lo : Option Nat) (a : Nat) (b : Byte)
    (h : Memory.wfFrom lo m = true) (hl : ∀ l, lo = some l → l < a) : Memory.wfFrom lo (m.write a b) = true := by
  induction m generalizing lo with
  | nil =>
    by_cases hb : b = 0#8
    · simp [Memory.write, hb, Memory.wfFrom]
    · cases lo with
      | none => simp [Memory.write, hb, Memory.wfFrom]
      | some l => simp [Memory.write, hb, Memory.wfFrom, hl l rfl]
  | cons c m ih =>
    have hc := h
    simp only [Memory.wfFrom, Bool.and_eq_true] at hc
    obtain ⟨⟨hlo, hz⟩, hm⟩ := hc
    unfold Memory.write
    by_cases h1 : a < c.1
    · by_cases hb : b = 0#8
      · simp [h1, hb, h]
      · cases lo with
        | none => simp_all [Memory.wfFrom]
        | some l => simp_all [Memory.wfFrom]
    · by_cases h2 : c.1 = a
      · subst h2
        by_cases hb : b = 0#8
        · cases lo with
          | none => simpa [hb] using Memory.wfFrom_mono hm
          | some l =>
            cases m with
            | nil => simp [hb, Memory.wfFrom]
            | cons d m =>
              simp only [Memory.wfFrom, Bool.and_eq_true, decide_eq_true_eq] at hm hlo
              have : l < d.1 := by omega
              simpa [hb, Memory.wfFrom, this] using ⟨by simpa using hm.1.2, hm.2⟩
        · cases lo with
          | none => simp_all [Memory.wfFrom]
          | some l => simp_all [Memory.wfFrom]
      · have := ih (some c.1) hm (by intro l hl; cases hl; omega)
        simp only [h1, h2, if_false, Memory.wfFrom, hlo, hz, this, Bool.and_self]

/-- One write keeps the canonical form. -/
theorem Memory.wf_write (m : Memory) (a : Nat) (b : Byte) (h : m.wf = true) : (m.write a b).wf = true :=
  Memory.wfFrom_write m none a b h (by simp)

/-- Writes of consecutive bytes keep the canonical form. -/
theorem Memory.wf_writeBytes (m : Memory) (a : Nat) (bs : List Byte) (h : m.wf = true) : (m.writeBytes a bs).wf = true := by
  induction bs generalizing m a with
  | nil => exact h
  | cons b bs ih => exact ih _ _ (Memory.wf_write m a b h)

/-- A little-endian store keeps the canonical form. -/
theorem Memory.wf_writeLE (m : Memory) (a n v : Nat) (h : m.wf = true) : (m.writeLE a n v).wf = true :=
  Memory.wf_writeBytes m a _ h

theorem Memory.read_write_from (m : Memory) (lo : Option Nat) (a x : Nat) (b : Byte) (h : Memory.wfFrom lo m = true) :
    (m.write a b).read x = if x = a then b else m.read x := by
  induction m generalizing lo with
  | nil =>
    by_cases hb : b = 0#8
    · simp [Memory.write, hb]
    · by_cases hx : x = a
      · simp [Memory.write, hb, Memory.read, hx]
      · simp [Memory.write, hb, Memory.read, hx, Ne.symm hx]
  | cons c m ih =>
    simp only [Memory.wfFrom, Bool.and_eq_true] at h
    obtain ⟨_, hm⟩ := h
    unfold Memory.write
    by_cases h1 : a < c.1
    · by_cases hb : b = 0#8
      · by_cases hx : x = a
        · subst hx
          have : ¬ c.1 = x := by omega
          simp [h1, hb, Memory.read, this]
        · simp [h1, hb, hx]
      · by_cases hx : x = a
        · simp [h1, hb, hx, Memory.read]
        · by_cases hl : x < a
          · have : ¬ c.1 = x ∧ x < c.1 := by omega
            simp [h1, hb, hx, Memory.read, Ne.symm hx, hl, this]
          · simp [h1, hb, hx, Memory.read, Ne.symm hx, hl]
    · by_cases h2 : c.1 = a
      · subst h2
        by_cases hb : b = 0#8
        · by_cases hx : x = c.1
          · subst hx
            simp [hb, Memory.read_below hm (Nat.le_refl _)]
          · by_cases hl : x < c.1
            · simp [hb, hx, Memory.read, Ne.symm hx, hl, Memory.read_below hm (Nat.le_of_lt hl)]
            · simp [hb, hx, Memory.read, Ne.symm hx, hl]
        · by_cases hx : x = c.1
          · simp [hb, Memory.read, hx]
          · simp [hb, Memory.read, hx, Ne.symm hx]
      · simp only [h1, h2, if_false]
        unfold Memory.read
        by_cases hc : c.1 = x
        · have : ¬ x = a := by omega
          simp [hc, this]
        · by_cases hl : x < c.1
          · have : ¬ x = a := by omega
            simp [hc, hl, this]
          · simp only [hc, hl, if_false]
            exact ih (some c.1) hm

/-- A byte read after a write: the byte written at its address, every other byte as before. -/
theorem Memory.read_write (m : Memory) (a x : Nat) (b : Byte) (h : m.wf = true) :
    (m.write a b).read x = if x = a then b else m.read x := Memory.read_write_from m none a x b h

/-- Consecutive writes leave every byte outside them alone. -/
theorem Memory.read_writeBytes_outside (m : Memory) (a x : Nat) (bs : List Byte) (h : m.wf = true)
    (hx : x < a ∨ a + bs.length ≤ x) : (m.writeBytes a bs).read x = m.read x := by
  induction bs generalizing m a with
  | nil => rfl
  | cons b bs ih =>
    simp only [List.length_cons] at hx
    have h1 : x ≠ a := by omega
    show ((m.write a b).writeBytes (a + 1) bs).read x = _
    rw [ih _ _ (Memory.wf_write m a b h) (by omega), Memory.read_write m a x b h, if_neg h1]

/-- Reading the bytes of consecutive writes gives them back. -/
theorem Memory.readN_writeBytes (m : Memory) (a : Nat) (bs : List Byte) (h : m.wf = true) :
    (m.writeBytes a bs).readN a bs.length = bs := by
  induction bs generalizing m a with
  | nil => rfl
  | cons b bs ih =>
    have hw := Memory.wf_write m a b h
    show ((m.write a b).writeBytes (a + 1) bs).read a :: ((m.write a b).writeBytes (a + 1) bs).readN (a + 1) bs.length = _
    rw [ih _ _ hw, Memory.read_writeBytes_outside _ _ _ _ hw (by omega), Memory.read_write m a a b h, if_pos rfl]

@[simp] theorem leBytes_length (n v : Nat) : (leBytes n v).length = n := by
  induction n generalizing v with
  | zero => rfl
  | succ n ih => simp [leBytes, ih]

/-- The bytes of a number stand for it modulo their range. -/
theorem leNat_leBytes (n v : Nat) : leNat (leBytes n v) = v % 256 ^ n := by
  induction n generalizing v with
  | zero => simp [leBytes, leNat, Nat.mod_one]
  | succ n ih =>
    simp only [leBytes, leNat, ih, BitVec.toNat_ofNat]
    rw [show (2 : Nat) ^ 8 = 256 from rfl, Nat.pow_succ, Nat.mul_comm (256 ^ n) 256, Nat.mod_mul]

/-- A value stored and loaded again with the same width comes back, cut to that width. -/
theorem Memory.readLE_writeLE (m : Memory) (a n v : Nat) (h : m.wf = true) :
    (m.writeLE a n v).readLE a n = v % 256 ^ n := by
  have := Memory.readN_writeBytes m a (leBytes n v) h
  rw [leBytes_length] at this
  rw [Memory.readLE, Memory.writeLE, this, leNat_leBytes]

/-- A store leaves every byte outside it alone. -/
theorem Memory.read_writeLE_outside (m : Memory) (a n v x : Nat) (h : m.wf = true) (hx : x < a ∨ a + n ≤ x) :
    (m.writeLE a n v).read x = m.read x :=
  Memory.read_writeBytes_outside m a x _ h (by simpa using hx)

end Sys2Proof.Machine
end

