-- ==== Sys2Proof/Laws/Special.lean ====
section
/-! SUPPORT. Laws/Special.lean: lemmas for the instructions of stream X whose effect is not one result of the bank alone. -/
namespace Sys2Proof.Machine
open Sys2Proof Sys2Proof.Claims

/-- The first index that meets a test, or none. -/
theorem firstIdx_spec (p : Nat → Bool) (n : Nat) :
    match firstIdx p n with
    | none => ∀ l, l < n → p l = false
    | some l => l < n ∧ p l = true ∧ ∀ k, k < l → p k = false := by
  unfold firstIdx
  have hm : ∀ n lo k, k ∈ upTo lo n ↔ lo ≤ k ∧ k < lo + n := by
    intro n
    induction n with
    | zero => intro lo k; simp [upTo]
    | succ n ih => intro lo k; rw [upTo, List.mem_cons, ih]; omega
  have hs : ∀ n lo, ∀ l, (upTo lo n).find? p = some l → ∀ k, lo ≤ k → k < l → p k = false := by
    intro n
    induction n with
    | zero => intro lo l h; cases h
    | succ n ih =>
      intro lo l h k h1 h2
      rw [upTo, List.find?_cons] at h
      cases hp : p lo with
      | true => rw [hp] at h; simp at h; omega
      | false =>
        rw [hp] at h
        rcases Nat.eq_or_lt_of_le h1 with e | e
        · rw [← e]; exact hp
        · exact ih (lo + 1) l h k e h2
  cases h : (upTo 0 n).find? p with
  | none => 
    intro l hl
    have := List.find?_eq_none.mp h l ((hm n 0 l).mpr (by omega))
    simpa using this
  | some l =>
    have h1 := List.mem_of_find?_eq_some h
    have h2 := List.find?_some h
    exact ⟨by have := (hm n 0 l).mp h1; omega, h2, fun k hk => hs n 0 l h k (by omega) hk⟩

/-- Every choice of the free value is a tree of rounded additions. -/
theorem anyTree_any (rm : RMode) (pick : Nat → Nat × Nat) (n i : Nat) (l : List Word) (f : FFlags) (hl : l.length = n + 1) :
    AnyTree rm l f (anyTree rm pick n i l f) := by
  induction n generalizing i l f with
  | zero =>
    match l, hl with
    | [x], _ => exact .done
  | succ n ih =>
    unfold anyTree
    have h2 : ¬ l.length < 2 := by omega
    rw [if_neg h2]
    simp only []
    have hx : (pick i).1 % l.length < l.length := Nat.mod_lt _ (by omega)
    generalize (pick i).1 % l.length = x at hx ⊢
    have hr : (l.eraseIdx x).length = n + 1 := by rw [List.length_eraseIdx_of_lt hx]; omega
    have hy : (pick i).2 % (l.eraseIdx x).length < (l.eraseIdx x).length := Nat.mod_lt _ (by omega)
    generalize (pick i).2 % (l.eraseIdx x).length = y at hy ⊢
    have p1 := List.getElem_cons_eraseIdx_perm hx
    have p2 := List.getElem_cons_eraseIdx_perm hy
    have e1 : l.getD x 0 = l[x] := by rw [List.getD_eq_getElem?_getD, List.getElem?_eq_getElem hx]; rfl
    have e2 : (l.eraseIdx x).getD y 0 = (l.eraseIdx x)[y] := by rw [List.getD_eq_getElem?_getD, List.getElem?_eq_getElem hy]; rfl
    rw [e1, e2]
    refine .node (p1.symm.trans (List.Perm.cons _ p2.symm)) ?_
    apply ih
    rw [List.length_append, List.length_eraseIdx_of_lt hy, hr]
    rfl

/-- Putting a core back changes nothing. -/
theorem setCore_self (s : State) (g : Fin 512) : s.setCore g (s.core g) = s := by
  unfold State.setCore State.core
  have : s.cores.set g.val (s.cores.get g) g.isLt = s.cores := by
    apply Vector.ext
    intro i hi
    rw [Vector.getElem_set]
    split
    · rename_i h; subst h; rfl
    · rfl
  rw [this]

/-- A change of the core beside its banks commutes with a change of the bank of the turn. -/
theorem modTb_modCore (s : State) (h : Core → Core) (h1 : ∀ c k b, h (c.setBank k b) = (h c).setBank k b)
    (h2 : ∀ c k, (h c).bank k = c.bank k) (F : Bank → Bank) :
    (s.modTb F).modCore s.turn.core h = (s.modCore s.turn.core h).modTb F := by
  show ((s.setCore s.turn.core ((s.core s.turn.core).setBank s.turn.ctx (F s.tb))).setCore s.turn.core _) =
    ((s.setCore s.turn.core (h (s.core s.turn.core))).setCore s.turn.core _)
  rw [setCore_setCore, setCore_setCore]
  congr 1
  have l : (s.modTb F).core s.turn.core = (s.core s.turn.core).setBank s.turn.ctx (F s.tb) := by
    show State.core (State.setCore _ _ _) _ = _
    rw [State.core_setCore, if_pos rfl]; rfl
  have r : (s.modCore s.turn.core h).core s.turn.core = h (s.core s.turn.core) := by rw [core_modCore, if_pos rfl]
  have r2 : (s.modCore s.turn.core h).tb = s.tb := by
    show Core.bank ((s.modCore s.turn.core h).core s.turn.core) s.turn.ctx = _
    rw [r, h2]; rfl
  show h ((s.modTb F).core s.turn.core) = Core.setBank ((s.modCore s.turn.core h).core s.turn.core) s.turn.ctx (F (s.modCore s.turn.core h).tb)
  rw [l, r, r2, h1]

/-- A state with another turn. -/
def withTurn (T : Turn) (u : State) : State := { u with turn := T }

/-- The take is one change of the bank. -/
theorem xTake_modTb (s : State) (h : XHdr) (ports : List Nat) : ∃ F T, ∀ u : State, u.turn = s.turn →
    u.xTake h ports = withTurn T (u.modTb F) := by
  let G (c : Fin 4) (b : Bank) : Bank := (ports.foldl (fun b q => b.popAX q)
    (let b := (b.popToken h.wait).owe h.push
     let b := if h.wait.isSome then { b with qx := b.qx + 1 } else b
     { b with bpSkip := b.bpSkip.filter fun x => x != (.x, c) }))
  refine ⟨fun b => (G s.turn.col b).modCol s.turn.col fun c => { c with wait := none },
    { s.turn with how := .issued, pops := ports }, fun u hu => ?_⟩
  have e : u.xTake h ports = withTurn { u.turn with how := .issued, pops := ports }
    ((u.modTb (G u.turn.col)).modTb fun b => b.modCol u.turn.col fun c => { c with wait := none }) := rfl
  rw [e, modTb_modTb, hu]

end Sys2Proof.Machine
end

