-- ==== Sys2Proof/Laws/Updates.lean ====
section
/-! SUPPORT. Laws/Updates.lean: what the updates of a stack, a clock domain, a command, a queue, an accumulator, a wide port and
the turn leave in each field, and what they make of the places they name. -/
namespace Sys2Proof.Machine
open Sys2Proof

variable (s : State)

/-! ### `State.modStack` -/

@[simp] theorem State.modStack_cycle (d : Fin 8) (k : Fin 2) (f : Stack → Stack) : (s.modStack d k f).cycle = s.cycle := rfl
@[simp] theorem State.modStack_turn (d : Fin 8) (k : Fin 2) (f : Stack → Stack) : (s.modStack d k f).turn = s.turn := rfl
@[simp] theorem State.modStack_agenda (d : Fin 8) (k : Fin 2) (f : Stack → Stack) : (s.modStack d k f).agenda = s.agenda := rfl
@[simp] theorem State.modStack_ev (d : Fin 8) (k : Fin 2) (f : Stack → Stack) : (s.modStack d k f).ev = s.ev := rfl
@[simp] theorem State.modStack_free (d : Fin 8) (k : Fin 2) (f : Stack → Stack) : (s.modStack d k f).free = s.free := rfl
@[simp] theorem State.modStack_dev (d : Fin 8) (k : Fin 2) (f : Stack → Stack) : (s.modStack d k f).dev = s.dev := rfl
@[simp] theorem State.modStack_parts (d : Fin 8) (k : Fin 2) (f : Stack → Stack) : (s.modStack d k f).parts = s.parts := rfl
@[simp] theorem State.modStack_clusters (d : Fin 8) (k : Fin 2) (f : Stack → Stack) : (s.modStack d k f).clusters = s.clusters := rfl
@[simp] theorem State.modStack_cores (d : Fin 8) (k : Fin 2) (f : Stack → Stack) : (s.modStack d k f).cores = s.cores := rfl
@[simp] theorem State.modStack_hbm (d : Fin 8) (k : Fin 2) (f : Stack → Stack) : (s.modStack d k f).hbm = s.hbm := rfl
@[simp] theorem State.modStack_host (d : Fin 8) (k : Fin 2) (f : Stack → Stack) : (s.modStack d k f).host = s.host := rfl

/-! ### `State.modDvfs` -/

@[simp] theorem State.modDvfs_cycle (d : Fin 8) (c : Fin 9) (f : Dvfs → Dvfs) : (s.modDvfs d c f).cycle = s.cycle := rfl
@[simp] theorem State.modDvfs_turn (d : Fin 8) (c : Fin 9) (f : Dvfs → Dvfs) : (s.modDvfs d c f).turn = s.turn := rfl
@[simp] theorem State.modDvfs_agenda (d : Fin 8) (c : Fin 9) (f : Dvfs → Dvfs) : (s.modDvfs d c f).agenda = s.agenda := rfl
@[simp] theorem State.modDvfs_ev (d : Fin 8) (c : Fin 9) (f : Dvfs → Dvfs) : (s.modDvfs d c f).ev = s.ev := rfl
@[simp] theorem State.modDvfs_free (d : Fin 8) (c : Fin 9) (f : Dvfs → Dvfs) : (s.modDvfs d c f).free = s.free := rfl
@[simp] theorem State.modDvfs_dev (d : Fin 8) (c : Fin 9) (f : Dvfs → Dvfs) : (s.modDvfs d c f).dev = s.dev := rfl
@[simp] theorem State.modDvfs_parts (d : Fin 8) (c : Fin 9) (f : Dvfs → Dvfs) : (s.modDvfs d c f).parts = s.parts := rfl
@[simp] theorem State.modDvfs_clusters (d : Fin 8) (c : Fin 9) (f : Dvfs → Dvfs) : (s.modDvfs d c f).clusters = s.clusters := rfl
@[simp] theorem State.modDvfs_cores (d : Fin 8) (c : Fin 9) (f : Dvfs → Dvfs) : (s.modDvfs d c f).cores = s.cores := rfl
@[simp] theorem State.modDvfs_hbm (d : Fin 8) (c : Fin 9) (f : Dvfs → Dvfs) : (s.modDvfs d c f).hbm = s.hbm := rfl
@[simp] theorem State.modDvfs_host (d : Fin 8) (c : Fin 9) (f : Dvfs → Dvfs) : (s.modDvfs d c f).host = s.host := rfl

/-! ### `State.modCopy` -/

@[simp] theorem State.modCopy_cycle (d : Fin 8) (id : Nat) (f : CopyCmd → CopyCmd) : (s.modCopy d id f).cycle = s.cycle := rfl
@[simp] theorem State.modCopy_turn (d : Fin 8) (id : Nat) (f : CopyCmd → CopyCmd) : (s.modCopy d id f).turn = s.turn := rfl
@[simp] theorem State.modCopy_agenda (d : Fin 8) (id : Nat) (f : CopyCmd → CopyCmd) : (s.modCopy d id f).agenda = s.agenda := rfl
@[simp] theorem State.modCopy_ev (d : Fin 8) (id : Nat) (f : CopyCmd → CopyCmd) : (s.modCopy d id f).ev = s.ev := rfl
@[simp] theorem State.modCopy_free (d : Fin 8) (id : Nat) (f : CopyCmd → CopyCmd) : (s.modCopy d id f).free = s.free := rfl
@[simp] theorem State.modCopy_dev (d : Fin 8) (id : Nat) (f : CopyCmd → CopyCmd) : (s.modCopy d id f).dev = s.dev := rfl
@[simp] theorem State.modCopy_parts (d : Fin 8) (id : Nat) (f : CopyCmd → CopyCmd) : (s.modCopy d id f).parts = s.parts := rfl
@[simp] theorem State.modCopy_clusters (d : Fin 8) (id : Nat) (f : CopyCmd → CopyCmd) : (s.modCopy d id f).clusters = s.clusters := rfl
@[simp] theorem State.modCopy_cores (d : Fin 8) (id : Nat) (f : CopyCmd → CopyCmd) : (s.modCopy d id f).cores = s.cores := rfl
@[simp] theorem State.modCopy_hbm (d : Fin 8) (id : Nat) (f : CopyCmd → CopyCmd) : (s.modCopy d id f).hbm = s.hbm := rfl
@[simp] theorem State.modCopy_host (d : Fin 8) (id : Nat) (f : CopyCmd → CopyCmd) : (s.modCopy d id f).host = s.host := rfl

/-! ### `State.modQueue` -/

@[simp] theorem State.modQueue_cycle (p : Fin 8) (q : Fin 64) (f : Queue → Queue) : (s.modQueue p q f).cycle = s.cycle := rfl
@[simp] theorem State.modQueue_turn (p : Fin 8) (q : Fin 64) (f : Queue → Queue) : (s.modQueue p q f).turn = s.turn := rfl
@[simp] theorem State.modQueue_agenda (p : Fin 8) (q : Fin 64) (f : Queue → Queue) : (s.modQueue p q f).agenda = s.agenda := rfl
@[simp] theorem State.modQueue_ev (p : Fin 8) (q : Fin 64) (f : Queue → Queue) : (s.modQueue p q f).ev = s.ev := rfl
@[simp] theorem State.modQueue_free (p : Fin 8) (q : Fin 64) (f : Queue → Queue) : (s.modQueue p q f).free = s.free := rfl
@[simp] theorem State.modQueue_dev (p : Fin 8) (q : Fin 64) (f : Queue → Queue) : (s.modQueue p q f).dev = s.dev := rfl
@[simp] theorem State.modQueue_dies (p : Fin 8) (q : Fin 64) (f : Queue → Queue) : (s.modQueue p q f).dies = s.dies := rfl
@[simp] theorem State.modQueue_clusters (p : Fin 8) (q : Fin 64) (f : Queue → Queue) : (s.modQueue p q f).clusters = s.clusters := rfl
@[simp] theorem State.modQueue_cores (p : Fin 8) (q : Fin 64) (f : Queue → Queue) : (s.modQueue p q f).cores = s.cores := rfl
@[simp] theorem State.modQueue_hbm (p : Fin 8) (q : Fin 64) (f : Queue → Queue) : (s.modQueue p q f).hbm = s.hbm := rfl
@[simp] theorem State.modQueue_host (p : Fin 8) (q : Fin 64) (f : Queue → Queue) : (s.modQueue p q f).host = s.host := rfl

/-! ### `State.modItem` -/

@[simp] theorem State.modItem_cycle (p : Fin 8) (n : Nat) (f : Item → Item) : (s.modItem p n f).cycle = s.cycle := rfl
@[simp] theorem State.modItem_turn (p : Fin 8) (n : Nat) (f : Item → Item) : (s.modItem p n f).turn = s.turn := rfl
@[simp] theorem State.modItem_agenda (p : Fin 8) (n : Nat) (f : Item → Item) : (s.modItem p n f).agenda = s.agenda := rfl
@[simp] theorem State.modItem_ev (p : Fin 8) (n : Nat) (f : Item → Item) : (s.modItem p n f).ev = s.ev := rfl
@[simp] theorem State.modItem_free (p : Fin 8) (n : Nat) (f : Item → Item) : (s.modItem p n f).free = s.free := rfl
@[simp] theorem State.modItem_dev (p : Fin 8) (n : Nat) (f : Item → Item) : (s.modItem p n f).dev = s.dev := rfl
@[simp] theorem State.modItem_dies (p : Fin 8) (n : Nat) (f : Item → Item) : (s.modItem p n f).dies = s.dies := rfl
@[simp] theorem State.modItem_clusters (p : Fin 8) (n : Nat) (f : Item → Item) : (s.modItem p n f).clusters = s.clusters := rfl
@[simp] theorem State.modItem_cores (p : Fin 8) (n : Nat) (f : Item → Item) : (s.modItem p n f).cores = s.cores := rfl
@[simp] theorem State.modItem_hbm (p : Fin 8) (n : Nat) (f : Item → Item) : (s.modItem p n f).hbm = s.hbm := rfl
@[simp] theorem State.modItem_host (p : Fin 8) (n : Nat) (f : Item → Item) : (s.modItem p n f).host = s.host := rfl

/-! ### `State.modCmd` -/

@[simp] theorem State.modCmd_cycle (c : Fin 64) (id : Nat) (f : ArrCmd → ArrCmd) : (s.modCmd c id f).cycle = s.cycle := rfl
@[simp] theorem State.modCmd_turn (c : Fin 64) (id : Nat) (f : ArrCmd → ArrCmd) : (s.modCmd c id f).turn = s.turn := rfl
@[simp] theorem State.modCmd_agenda (c : Fin 64) (id : Nat) (f : ArrCmd → ArrCmd) : (s.modCmd c id f).agenda = s.agenda := rfl
@[simp] theorem State.modCmd_ev (c : Fin 64) (id : Nat) (f : ArrCmd → ArrCmd) : (s.modCmd c id f).ev = s.ev := rfl
@[simp] theorem State.modCmd_free (c : Fin 64) (id : Nat) (f : ArrCmd → ArrCmd) : (s.modCmd c id f).free = s.free := rfl
@[simp] theorem State.modCmd_dev (c : Fin 64) (id : Nat) (f : ArrCmd → ArrCmd) : (s.modCmd c id f).dev = s.dev := rfl
@[simp] theorem State.modCmd_parts (c : Fin 64) (id : Nat) (f : ArrCmd → ArrCmd) : (s.modCmd c id f).parts = s.parts := rfl
@[simp] theorem State.modCmd_dies (c : Fin 64) (id : Nat) (f : ArrCmd → ArrCmd) : (s.modCmd c id f).dies = s.dies := rfl
@[simp] theorem State.modCmd_cores (c : Fin 64) (id : Nat) (f : ArrCmd → ArrCmd) : (s.modCmd c id f).cores = s.cores := rfl
@[simp] theorem State.modCmd_hbm (c : Fin 64) (id : Nat) (f : ArrCmd → ArrCmd) : (s.modCmd c id f).hbm = s.hbm := rfl
@[simp] theorem State.modCmd_host (c : Fin 64) (id : Nat) (f : ArrCmd → ArrCmd) : (s.modCmd c id f).host = s.host := rfl

/-! ### `State.modAcc` -/

@[simp] theorem State.modAcc_cycle (g : Fin 512) (n : Fin 4) (f : Acc → Acc) : (s.modAcc g n f).cycle = s.cycle := rfl
@[simp] theorem State.modAcc_turn (g : Fin 512) (n : Fin 4) (f : Acc → Acc) : (s.modAcc g n f).turn = s.turn := rfl
@[simp] theorem State.modAcc_agenda (g : Fin 512) (n : Fin 4) (f : Acc → Acc) : (s.modAcc g n f).agenda = s.agenda := rfl
@[simp] theorem State.modAcc_ev (g : Fin 512) (n : Fin 4) (f : Acc → Acc) : (s.modAcc g n f).ev = s.ev := rfl
@[simp] theorem State.modAcc_free (g : Fin 512) (n : Fin 4) (f : Acc → Acc) : (s.modAcc g n f).free = s.free := rfl
@[simp] theorem State.modAcc_dev (g : Fin 512) (n : Fin 4) (f : Acc → Acc) : (s.modAcc g n f).dev = s.dev := rfl
@[simp] theorem State.modAcc_parts (g : Fin 512) (n : Fin 4) (f : Acc → Acc) : (s.modAcc g n f).parts = s.parts := rfl
@[simp] theorem State.modAcc_dies (g : Fin 512) (n : Fin 4) (f : Acc → Acc) : (s.modAcc g n f).dies = s.dies := rfl
@[simp] theorem State.modAcc_clusters (g : Fin 512) (n : Fin 4) (f : Acc → Acc) : (s.modAcc g n f).clusters = s.clusters := rfl
@[simp] theorem State.modAcc_hbm (g : Fin 512) (n : Fin 4) (f : Acc → Acc) : (s.modAcc g n f).hbm = s.hbm := rfl
@[simp] theorem State.modAcc_host (g : Fin 512) (n : Fin 4) (f : Acc → Acc) : (s.modAcc g n f).host = s.host := rfl

/-! ### `State.useWide` -/

@[simp] theorem State.useWide_cycle (g : Fin 512) (r id n t : Nat) : (s.useWide g r id n t).cycle = s.cycle := rfl
@[simp] theorem State.useWide_turn (g : Fin 512) (r id n t : Nat) : (s.useWide g r id n t).turn = s.turn := rfl
@[simp] theorem State.useWide_agenda (g : Fin 512) (r id n t : Nat) : (s.useWide g r id n t).agenda = s.agenda := rfl
@[simp] theorem State.useWide_ev (g : Fin 512) (r id n t : Nat) : (s.useWide g r id n t).ev = s.ev := rfl
@[simp] theorem State.useWide_free (g : Fin 512) (r id n t : Nat) : (s.useWide g r id n t).free = s.free := rfl
@[simp] theorem State.useWide_dev (g : Fin 512) (r id n t : Nat) : (s.useWide g r id n t).dev = s.dev := rfl
@[simp] theorem State.useWide_parts (g : Fin 512) (r id n t : Nat) : (s.useWide g r id n t).parts = s.parts := rfl
@[simp] theorem State.useWide_dies (g : Fin 512) (r id n t : Nat) : (s.useWide g r id n t).dies = s.dies := rfl
@[simp] theorem State.useWide_clusters (g : Fin 512) (r id n t : Nat) : (s.useWide g r id n t).clusters = s.clusters := rfl
@[simp] theorem State.useWide_hbm (g : Fin 512) (r id n t : Nat) : (s.useWide g r id n t).hbm = s.hbm := rfl
@[simp] theorem State.useWide_host (g : Fin 512) (r id n t : Nat) : (s.useWide g r id n t).host = s.host := rfl

/-! ### `State.setTurn` -/

@[simp] theorem State.setTurn_cycle (g : Fin 512) (k : Fin 3) (st : Stream) : (s.setTurn g k st).cycle = s.cycle := rfl
@[simp] theorem State.setTurn_agenda (g : Fin 512) (k : Fin 3) (st : Stream) : (s.setTurn g k st).agenda = s.agenda := rfl
@[simp] theorem State.setTurn_ev (g : Fin 512) (k : Fin 3) (st : Stream) : (s.setTurn g k st).ev = s.ev := rfl
@[simp] theorem State.setTurn_free (g : Fin 512) (k : Fin 3) (st : Stream) : (s.setTurn g k st).free = s.free := rfl
@[simp] theorem State.setTurn_dev (g : Fin 512) (k : Fin 3) (st : Stream) : (s.setTurn g k st).dev = s.dev := rfl
@[simp] theorem State.setTurn_parts (g : Fin 512) (k : Fin 3) (st : Stream) : (s.setTurn g k st).parts = s.parts := rfl
@[simp] theorem State.setTurn_dies (g : Fin 512) (k : Fin 3) (st : Stream) : (s.setTurn g k st).dies = s.dies := rfl
@[simp] theorem State.setTurn_clusters (g : Fin 512) (k : Fin 3) (st : Stream) : (s.setTurn g k st).clusters = s.clusters := rfl
@[simp] theorem State.setTurn_cores (g : Fin 512) (k : Fin 3) (st : Stream) : (s.setTurn g k st).cores = s.cores := rfl
@[simp] theorem State.setTurn_hbm (g : Fin 512) (k : Fin 3) (st : Stream) : (s.setTurn g k st).hbm = s.hbm := rfl
@[simp] theorem State.setTurn_host (g : Fin 512) (k : Fin 3) (st : Stream) : (s.setTurn g k st).host = s.host := rfl

/-! ### `State.onStream` -/

@[simp] theorem State.onStream_cycle (st : Stream) : (s.onStream st).cycle = s.cycle := rfl
@[simp] theorem State.onStream_agenda (st : Stream) : (s.onStream st).agenda = s.agenda := rfl
@[simp] theorem State.onStream_ev (st : Stream) : (s.onStream st).ev = s.ev := rfl
@[simp] theorem State.onStream_free (st : Stream) : (s.onStream st).free = s.free := rfl
@[simp] theorem State.onStream_dev (st : Stream) : (s.onStream st).dev = s.dev := rfl
@[simp] theorem State.onStream_parts (st : Stream) : (s.onStream st).parts = s.parts := rfl
@[simp] theorem State.onStream_dies (st : Stream) : (s.onStream st).dies = s.dies := rfl
@[simp] theorem State.onStream_clusters (st : Stream) : (s.onStream st).clusters = s.clusters := rfl
@[simp] theorem State.onStream_cores (st : Stream) : (s.onStream st).cores = s.cores := rfl
@[simp] theorem State.onStream_hbm (st : Stream) : (s.onStream st).hbm = s.hbm := rfl
@[simp] theorem State.onStream_host (st : Stream) : (s.onStream st).host = s.host := rfl

/-! ### The places named -/

@[simp] theorem State.onStream_core (st : Stream) : (s.onStream st).turn.core = s.turn.core := rfl
@[simp] theorem State.onStream_ctx (st : Stream) : (s.onStream st).turn.ctx = s.turn.ctx := rfl
@[simp] theorem State.onStream_stream (st : Stream) : (s.onStream st).turn.stream = st := rfl
@[simp] theorem State.tb_onStream (st : Stream) : (s.onStream st).tb = s.tb := rfl
@[simp] theorem State.die_modStack (d d' : Fin 8) (k : Fin 2) (f : Stack → Stack) (h : d' ≠ d) :
    (s.modStack d k f).die d' = s.die d' := by simp [State.modStack, h]
@[simp] theorem State.die_modDvfs (d d' : Fin 8) (c : Fin 9) (f : Dvfs → Dvfs) (h : d' ≠ d) :
    (s.modDvfs d c f).die d' = s.die d' := by simp [State.modDvfs, h]
@[simp] theorem State.cluster_modCmd (c c' : Fin 64) (id : Nat) (f : ArrCmd → ArrCmd) (h : c' ≠ c) :
    (s.modCmd c id f).cluster c' = s.cluster c' := by simp [State.modCmd, h]
@[simp] theorem State.core_useWide (g g' : Fin 512) (r id n t : Nat) (h : g' ≠ g) : (s.useWide g r id n t).core g' = s.core g' := by
  simp [State.useWide, h]
@[simp] theorem State.core_modAcc (g g' : Fin 512) (n : Fin 4) (f : Acc → Acc) (h : g' ≠ g) : (s.modAcc g n f).core g' = s.core g' := by
  simp [State.modAcc, h]

end Sys2Proof.Machine
end

