-- ==== Sys2Proof/Laws/Words.lean ====
section
/-! SUPPORT. Laws/Words.lean: words of stream A that retire at once, whose effect also reaches their core or the device: changes
of a core that touch only owner bits, changes of the device that touch no core, and what the checks of rings, runs and barriers
let through. -/
namespace Sys2Proof.Claims
open Sys2Proof Sys2Proof.Machine

/-- What a word that retires did does not rest on what it asked. -/
theorem ARetires.needs {r : AForm} {s u t : State} (h : ARetires r s u t) (n : State → Prop) : ARetires { r with need := n } s u t :=
  ⟨⟨h.took.only, h.took.issued, h.took.bank, h.took.queues, h.took.wait, h.took.ready⟩, h.tokens, h.agenda⟩
theorem AOwes.needs {r : AForm} {s u t : State} (h : AOwes r s u t) (n : State → Prop) : AOwes { r with need := n } s u t :=
  ⟨⟨h.took.only, h.took.issued, h.took.bank, h.took.queues, h.took.wait, h.took.ready⟩, h.tokens, h.agenda⟩

end Sys2Proof.Claims
namespace Sys2Proof.Machine
open Sys2Proof Sys2Proof.Claims

/-- A change of a core that only sets owner bits and the pending rotation, and ends alias histories. -/
def OwnerLike (f : Core → Core) : Prop :=
  ∃ (ow : BitVec 768 → BitVec 768) (rt : Option Rot → Option Rot)
    (ps : BitVec 768 → List AliasRec → List AliasRec), ∀ c : Core,
    f c = { c with owner := ow c.owner, rot := rt c.rot, banks := c.banks.map fun b => { b with history := ps c.owner b.history } }

theorem OwnerLike.setOwner (t n : Nat) (e : Bool) : OwnerLike fun c => c.setOwner t n e :=
  ⟨fun o => setRun o t n e, id, fun o l => l.filter fun (r : AliasRec) =>
        !(r.sp && decide (t ≤ tileOf r.va) && decide (tileOf r.va < t + n) && o.getLsbD (tileOf r.va) != e), fun _ => rfl⟩

theorem OwnerLike.comp {f g : Core → Core} (hf : OwnerLike f) (hg : OwnerLike g) : OwnerLike fun c => g (f c) := by
  obtain ⟨o1, r1, p1, h1⟩ := hf
  obtain ⟨o2, r2, p2, h2⟩ := hg
  refine ⟨fun o => o2 (o1 o), fun r => r2 (r1 r), fun o l => p2 (o1 o) (p1 o l), fun c => ?_⟩
  show g (f c) = _
  rw [h2, h1]
  simp only [Vector.map_map]
  rfl

theorem banks_same (l : Vector Bank 3) : l.map (fun b => { b with history := b.history }) = l := Vector.map_id l

theorem OwnerLike.id : OwnerLike fun c => c :=
  ⟨fun o => o, fun r => r, fun _ l => l, fun c => by rw [banks_same]⟩

theorem OwnerLike.fold (l : List Nat) (f : Nat → Core → Core) (h : ∀ i, OwnerLike (f i)) :
    OwnerLike fun c => l.foldl (fun (c : Core) (i : Nat) => f i c) c := by
  induction l with
  | nil => exact OwnerLike.id
  | cons a l ih => exact (h a).comp ih

theorem OwnerLike.rot (x : Rot) : OwnerLike fun c => { c with rot := some x } :=
  ⟨fun o => o, fun _ => some x, fun _ l => l, fun c => by rw [banks_same]⟩

theorem OwnerLike.only {f : Core → Core} (hf : OwnerLike f) {s t : State} (h : OnlyBank s t) :
    OnlyBank (s.modCore s.turn.core f) (t.modCore s.turn.core f) ∧
    (t.modCore s.turn.core f).tb = { t.tb with history := (t.modCore s.turn.core f).tb.history } ∧
    (t.tb.history = s.tb.history → (t.modCore s.turn.core f).tb.history = (s.modCore s.turn.core f).tb.history) := by
  obtain ⟨ow, rt, ps, hf⟩ := hf
  have hc : ∀ u : State, (u.modCore s.turn.core f).core s.turn.core = f (u.core s.turn.core) := fun u => by rw [core_modCore, if_pos rfl]
  have hb : ∀ (u : State) (k : Fin 3), (u.modCore s.turn.core f).bank s.turn.core k = { u.bank s.turn.core k with history := ps (u.core s.turn.core).owner (u.bank s.turn.core k).history } := by
    intro u k
    show ((u.modCore s.turn.core f).core s.turn.core).bank k = _
    rw [hc, hf]
    show (Vector.map _ _).get k = _
    simp only [Vector.get_eq_getElem, Vector.getElem_map]
    rfl
  have ho : (t.core s.turn.core).owner = (s.core s.turn.core).owner := by rw [h.rest]
  have e1 : ∀ u : State, u.turn.core = s.turn.core → (u.modCore s.turn.core f).tb = (u.modCore s.turn.core f).bank s.turn.core u.turn.ctx := by
    intro u hu
    show (u.modCore s.turn.core f).bank u.turn.core u.turn.ctx = _
    rw [hu]
  refine ⟨⟨?_, h.core, h.ctx, h.stream, h.col, h.word, ?_, ?_, ?_⟩, ?_, ?_⟩
  · exact congrArg (fun v : State => { v with cores := (t.modCore s.turn.core f).cores, turn := t.turn, agenda := t.agenda }) h.state
  · intro g hg
    have : g ≠ s.turn.core := hg
    rw [core_modCore, core_modCore, if_neg this, if_neg this]
    exact h.cores g this
  · show (t.modCore s.turn.core f).core s.turn.core = { (s.modCore s.turn.core f).core s.turn.core with banks := ((t.modCore s.turn.core f).core s.turn.core).banks }
    rw [hc, hc, hf, hf, h.rest]
  · intro k hk
    have : k ≠ s.turn.ctx := hk
    show (t.modCore s.turn.core f).bank s.turn.core k = (s.modCore s.turn.core f).bank s.turn.core k
    rw [hb, hb, h.banks k this, ho]
  · have e3 : t.tb = t.bank s.turn.core t.turn.ctx := by show t.bank t.turn.core _ = _; rw [h.core]
    rw [e1 t h.core, hb, e3]
  · intro hh
    rw [e1 t h.core, e1 s rfl, hb, hb]
    show ps _ (t.bank _ _).history = ps _ (s.bank _ _).history
    rw [ho]
    have e3 : t.tb = t.bank s.turn.core t.turn.ctx := by show t.bank t.turn.core _ = _; rw [h.core]
    have e4 : s.tb = s.bank s.turn.core s.turn.ctx := rfl
    rw [e3, e4] at hh
    rw [hh]

end Sys2Proof.Machine
namespace Sys2Proof.Claims
open Sys2Proof Sys2Proof.Machine

/-- Owner bits set outside the bank after a change of the bank. -/
theorem AOwes.owners {r : AForm} {s t : State} (h : AOwes r s s t) {f : Core → Core} (hf : OwnerLike f) (r' : AForm)
    (e0 : r' = { r with upd := r'.upd })
    (e1 : r'.upd s (movedOn r.size s.tb) = { r.upd s (movedOn r.size s.tb) with history := (s.modCore s.turn.core f).tb.history })
    (e2 : (r.upd s (movedOn r.size s.tb)).history = s.tb.history) (e3 : ∀ u : State, r.plan u = u) :
    AOwes r' s (s.modCore s.turn.core f) (t.modCore s.turn.core f) := by
  obtain ⟨h1, h2, h3⟩ := hf.only h.took.only
  have h4 : t.tb.history = s.tb.history := by rw [h.took.bank]; exact e2
  have h5 := h3 h4
  have q : ∀ q, (t.modCore s.turn.core f).tb.qXA q = t.tb.qXA q := by intro q; rw [h2]; rfl
  rw [e0]
  refine ⟨⟨h1, h.took.issued, ?_, ?_, ?_, ?_⟩, ?_, ?_⟩
  · show _ = aParts (r'.upd s (movedOn r.size s.tb)) _
    rw [h2, e1, h5]
    have := h.took.bank
    generalize t.tb = b at this ⊢
    rw [this]
    rfl
  · intro i hi; rw [q]; exact h.took.queues i hi
  · rw [h2]; exact h.took.wait
  · rw [h2]; exact h.took.ready
  · intro g; rw [h2]; exact h.tokens g
  · show _ = (r.plan _).agenda
    rw [e3]
    have := h.agenda
    rw [e3] at this
    exact this

/-- A part of the core beside its banks set after the word has issued. -/
theorem AOwes.core {r : AForm} {s t : State} (h : AOwes r s s t) {f : Core → Core}
    (h1 : ∀ (c : Core) (l : Vector Bank 3), f { c with banks := l } = { f c with banks := l }) (e3 : ∀ u : State, r.plan u = u) :
    AOwes r s (s.modCore s.turn.core f) (t.modCore s.turn.core f) := by
  have hc : ∀ u : State, (u.modCore s.turn.core f).core s.turn.core = f (u.core s.turn.core) := fun u => by rw [core_modCore, if_pos rfl]
  have hb : ∀ (u : State) (k : Fin 3), (u.modCore s.turn.core f).bank s.turn.core k = u.bank s.turn.core k := by
    intro u k
    show ((u.modCore s.turn.core f).core s.turn.core).bank k = _
    rw [hc]
    show (f (u.core s.turn.core)).banks.get k = (u.core s.turn.core).banks.get k
    have := congrArg Core.banks (h1 (u.core s.turn.core) (u.core s.turn.core).banks)
    exact congrArg (fun l : Vector Bank 3 => l.get k) this
  have ht : (t.modCore s.turn.core f).tb = t.tb := by
    show (t.modCore s.turn.core f).bank t.turn.core t.turn.ctx = t.bank t.turn.core t.turn.ctx
    rw [h.took.only.core, hb]
  refine h.base ⟨?_, h.took.only.core, h.took.only.ctx, h.took.only.stream, h.took.only.col, h.took.only.word, ?_, ?_, ?_⟩ ht rfl ?_
  · exact congrArg (fun v : State => { v with cores := (t.modCore s.turn.core f).cores, turn := t.turn, agenda := t.agenda }) h.took.only.state
  · intro g hg
    have : g ≠ s.turn.core := hg
    rw [core_modCore, core_modCore, if_neg this, if_neg this]
    exact h.took.only.cores g this
  · show (t.modCore s.turn.core f).core s.turn.core = { (s.modCore s.turn.core f).core s.turn.core with banks := ((t.modCore s.turn.core f).core s.turn.core).banks }
    rw [hc, hc]
    have := h.took.only.rest
    generalize t.core s.turn.core = C at this ⊢
    rw [this, h1]
  · intro k hk
    have : k ≠ s.turn.ctx := hk
    show (t.modCore s.turn.core f).bank s.turn.core k = (s.modCore s.turn.core f).bank s.turn.core k
    rw [hb, hb, h.took.only.banks k this]
  · rw [e3]
    have := h.agenda
    rw [e3] at this
    exact this

end Sys2Proof.Claims
namespace Sys2Proof.Machine
open Sys2Proof Sys2Proof.Claims

theorem take_core (s : State) (w p : Option (Fin 16)) (srcs : List (Fin 32)) (n : Word) : (s.aTake w p srcs n).turn.core = s.turn.core := rfl

/-- A word with one result, of a value fixed at its presentation. -/
theorem gives_retires {h : AHdr} {d : Fin 32} {srcs : List (Fin 32)} {lat : Nat} {v : State → DWord} {s : State} {blk : State → Option State}
    {eff : State → State} (hx : AReady h.wait h.push srcs [d] [] s) (hb : blk s = none)
    (he : eff (s.aTake h.wait h.push srcs 1) = ((s.aTake h.wait h.push srcs 1).wrA d (v s) lat).retirePush h.push) :
    ∃ t, aWord h srcs [d] [] blk eff s = .next t ∧ ARetires (aGives h d srcs lat v) s s t := by
  refine ⟨_, aWord_ready hx hb _, ?_⟩
  rw [he]
  have ho := aTake_owes s h.wait h.push srcs [d] [] 1
  have hid : (s.aTake h.wait h.push srcs 1).tb.nextId = s.tb.nextId := by rw [ho.took.bank]; rfl
  have hp := plan_turn h d srcs lat v s
  exact (ho.put (lat := lat) (v := v) hid rfl).retire hp.1 (by rw [hp.2]) (by rw [hp.2])

/-- word whose effect is a change of the bank -/
theorem changes_retires {h : AHdr} {srcs : List (Fin 32)} {s : State} {need : State → Prop} {f : State → Bank → Bank} {g : Bank → Bank}
    {blk : State → Option State} (hx : AReady h.wait h.push srcs [] [] s) (hb : blk s = none)
    (hp : ∀ b n, g (aParts b n) = aParts (g b) n) (hg : ∀ b, g b = aParts (g b) b)
    (hf : g (movedOn 1 s.tb) = f s (movedOn 1 s.tb)) {eff : State → State}
    (he : eff (s.aTake h.wait h.push srcs 1) = ((s.aTake h.wait h.push srcs 1).modTb g).retirePush h.push) :
    ∃ t, aWord h srcs [] [] blk eff s = .next t ∧ ARetires (changes h srcs need f) s s t := by
  refine ⟨_, aWord_ready hx hb _, ?_⟩
  rw [he]
  have ho := aTake_owes s h.wait h.push srcs [] [] 1
  have := ho.upd g hg hp (changes h srcs need f) rfl rfl rfl rfl hf.symm rfl rfl
  exact this.retire rfl rfl rfl

/-- A word that changes its bank and then owner bits. -/
theorem owners_retires {h : AHdr} {srcs : List (Fin 32)} {s : State} {need : State → Prop} {f : State → Bank → Bank} {g : Bank → Bank}
    {F : Core → Core} {blk : State → Option State} (hx : AReady h.wait h.push srcs [] [] s) (hb : blk s = none) (hF : OwnerLike F)
    (hp : ∀ b n, g (aParts b n) = aParts (g b) n) (hg : ∀ b, g b = aParts (g b) b) (hh : ∀ b, (g b).history = b.history)
    (hf : f s (movedOn 1 s.tb) = { g (movedOn 1 s.tb) with history := (s.modCore s.turn.core F).tb.history }) {eff : State → State}
    (he : eff (s.aTake h.wait h.push srcs 1) = (((s.aTake h.wait h.push srcs 1).modTb g).modCore s.turn.core F).retirePush h.push) :
    ∃ t, aWord h srcs [] [] blk eff s = .next t ∧ ARetires (changes h srcs need f) s (s.modCore s.turn.core F) t := by
  refine ⟨_, aWord_ready hx hb _, ?_⟩
  rw [he]
  have ho := aTake_owes s h.wait h.push srcs [] [] 1
  have := ho.upd g hg hp (changes h srcs need fun _ => g) rfl rfl rfl rfl rfl rfl rfl
  have := this.owners hF (changes h srcs need f) rfl hf (hh _) fun u => rfl
  exact this.retire rfl rfl rfl

/-! ### What neither reads nor changes the cores and the turn -/

/-- The state with other cores and another turn. -/
def onCores (C : Vector Core 512) (T : Turn) (s : State) : State := { s with cores := C, turn := T }
/-- A change that neither reads nor changes the cores and the turn. -/
def Coreless (f : State → State) : Prop := ∀ C T s, f (onCores C T s) = onCores C T (f s)

section
variable (C : Vector Core 512) (T : Turn) (s : State)
@[simp] theorem part_onCores (p : Fin 8) : (onCores C T s).part p = s.part p := rfl
@[simp] theorem die_onCores (d : Fin 8) : (onCores C T s).die d = s.die d := rfl
@[simp] theorem cycle_onCores : (onCores C T s).cycle = s.cycle := rfl
@[simp] theorem queue_onCores (p : Fin 8) (q : Fin 64) : (onCores C T s).queue p q = s.queue p q := rfl
@[simp] theorem descVA_onCores (p : Fin 8) (q : Fin 64) : (onCores C T s).descVA p q = s.descVA p q := rfl
@[simp] theorem locate_onCores (p : Fin 8) (va : Nat) : (onCores C T s).locate p va = s.locate p va := rfl
@[simp] theorem greadLE_onCores (p : Fin 8) (va n : Nat) : (onCores C T s).greadLE p va n = s.greadLE p va n := rfl
@[simp] theorem greadN_onCores (p : Fin 8) (va n : Nat) : (onCores C T s).greadN p va n = s.greadN p va n := rfl
@[simp] theorem graphAt_onCores (p : Fin 8) (va : Nat) : (onCores C T s).graphAt p va = s.graphAt p va := rfl
@[simp] theorem launchAt_onCores (p : Fin 8) (va : Nat) : (onCores C T s).launchAt p va = s.launchAt p va := rfl
@[simp] theorem devTime_onCores (p : Fin 8) : (onCores C T s).devTime p = s.devTime p := rfl
@[simp] theorem cplRoom_onCores (p : Fin 8) (q : Fin 64) (x : Queue) : (onCores C T s).cplRoom p q x = s.cplRoom p q x := rfl
end

@[simp] theorem modJob_onCores (p : Fin 8) (f : Job → Job) (C : Vector Core 512) (T : Turn) (s : State) :
    (onCores C T s).modJob p f = onCores C T (s.modJob p f) := rfl
@[simp] theorem schedule_onCores (n : Nat) (i : Instr) (a : EvArgs) (C : Vector Core 512) (T : Turn) (s : State) :
    (onCores C T s).schedule n i a = onCores C T (s.schedule n i a) := rfl
@[simp] theorem modQueue_onCores (p : Fin 8) (q : Fin 64) (f : Queue → Queue) (C : Vector Core 512) (T : Turn) (s : State) :
    (onCores C T s).modQueue p q f = onCores C T (s.modQueue p q f) := rfl

theorem coreless_fold {α : Type} (f : State → α → State) (h : ∀ x, Coreless fun s => f s x) (l : List α) : Coreless fun s => l.foldl f s := by
  induction l with
  | nil => exact fun _ _ _ => rfl
  | cons a l ih =>
    intro C T s
    have := h a C T s
    simp only [List.foldl_cons]
    rw [show f (onCores C T s) a = onCores C T (f s a) from this]
    exact ih C T (f s a)

theorem rawWrite_onCores (p : Fin 8) (va : Nat) (b : Byte) (C : Vector Core 512) (T : Turn) (s : State) :
    (onCores C T s).rawWrite p va b = onCores C T (s.rawWrite p va b) := by
  unfold State.rawWrite
  rw [locate_onCores]
  split <;> rfl

theorem rawWriteN_onCores (p : Fin 8) (va : Nat) (l : List Byte) (C : Vector Core 512) (T : Turn) (s : State) :
    (onCores C T s).rawWriteN p va l = onCores C T (s.rawWriteN p va l) :=
  coreless_fold (fun (s : State) (x : Byte × Nat) => s.rawWrite p (va + x.2) x.1) (fun _ _ _ _ => rawWrite_onCores ..) l.zipIdx C T s

theorem syncQueue_onCores (p : Fin 8) (q : Fin 64) (C : Vector Core 512) (T : Turn) (s : State) :
    (onCores C T s).syncQueue p q = onCores C T (s.syncQueue p q) := by
  unfold State.syncQueue
  rw [queue_onCores]
  split
  · rfl
  · dsimp only
    rw [descVA_onCores, rawWriteN_onCores]
    split
    · rw [rawWriteN_onCores, rawWriteN_onCores, rawWriteN_onCores]
    · rw [rawWriteN_onCores, rawWriteN_onCores]

theorem setQueue_onCores (p : Fin 8) (q : Fin 64) (f : Queue → Queue) (C : Vector Core 512) (T : Turn) (s : State) :
    (onCores C T s).setQueue p q f = onCores C T (s.setQueue p q f) := by
  unfold State.setQueue
  rw [modQueue_onCores, syncQueue_onCores]

theorem pokeQueue_onCores (p : Fin 8) (q : Fin 64) (C : Vector Core 512) (T : Turn) (s : State) :
    (onCores C T s).pokeQueue p q = onCores C T (s.pokeQueue p q) := by
  unfold State.pokeQueue
  rw [queue_onCores]
  split
  · rfl
  · dsimp only
    split
    · rfl
    · split <;> rfl

theorem writeRecord_onCores (p : Fin 8) (q : Fin 64) (x : Queue) (r : BitVec 256) (C : Vector Core 512) (T : Turn) (s : State) :
    (onCores C T s).writeRecord p q x r = onCores C T (s.writeRecord p q x r) := by
  unfold State.writeRecord
  dsimp only
  rw [rawWriteN_onCores, setQueue_onCores]
  rfl

theorem putRecord_onCores (p : Fin 8) (q : Fin 64) (r : BitVec 256) (C : Vector Core 512) (T : Turn) (s : State) :
    (onCores C T s).putRecord p q r = onCores C T (s.putRecord p q r) := by
  unfold State.putRecord
  rw [queue_onCores]
  split
  · rfl
  · rw [cplRoom_onCores]
    split
    · rfl
    · split
      · exact writeRecord_onCores ..
      · exact setQueue_onCores ..

theorem endEntry_onCores (p : Fin 8) (q : Fin 64) (seq : Word) (st : Nat) (why : Byte) (C : Vector Core 512) (T : Turn) (s : State) :
    (onCores C T s).endEntry p q seq st why = onCores C T (s.endEntry p q seq st why) := by
  unfold State.endEntry
  rw [queue_onCores]
  split
  · rfl
  · dsimp only
    rw [graphAt_onCores, launchAt_onCores, devTime_onCores, putRecord_onCores]
    rfl

theorem advance_onCores (p : Fin 8) (q : Fin 64) (C : Vector Core 512) (T : Turn) (s : State) :
    (onCores C T s).advance p q = onCores C T (s.advance p q) := by
  unfold State.advance
  dsimp only
  rw [setQueue_onCores, pokeQueue_onCores, part_onCores]
  split
  · split <;> rfl
  · rfl

/-- Cancelling a waiting entry neither reads nor changes a core (spec/05 R94). -/
theorem cancelEntry_onCores (p : Fin 8) (q : Fin 64) (seq : Word) (C : Vector Core 512) (T : Turn) (s : State) :
    (onCores C T s).cancelEntry p q seq = onCores C T (s.cancelEntry p q seq) := by
  unfold State.cancelEntry
  rw [queue_onCores]
  split
  · rfl
  · dsimp only
    rw [endEntry_onCores]
    split
    · exact advance_onCores ..
    · exact setQueue_onCores ..

/-- Producing into a queue neither reads nor changes a core (spec/05 R95). -/
theorem produce_onCores (p : Fin 8) (q : Fin 64) (va : Nat) (C : Vector Core 512) (T : Turn) (s : State) :
    (onCores C T s).produce p q va = onCores C T (s.produce p q va) := by
  unfold State.produce
  rw [queue_onCores]
  split
  · rfl
  · dsimp only
    rw [greadN_onCores, rawWriteN_onCores, setQueue_onCores, pokeQueue_onCores]

theorem Coreless.core {f : State → State} (h : Coreless f) (s : State) (g : Fin 512) : (f s).core g = s.core g := by
  have := congrArg State.cores (h s.cores s.turn s)
  have e : onCores s.cores s.turn s = s := rfl
  rw [e] at this
  unfold State.core
  rw [this]; rfl

theorem Coreless.turn {f : State → State} (h : Coreless f) (s : State) : (f s).turn = s.turn := by
  have := h s.cores s.turn s
  have e : onCores s.cores s.turn s = s := rfl
  rw [e] at this
  rw [this]; rfl

/-- Such a change, made on the state a word leaves, is the change of the base. -/
theorem Coreless.tb {f : State → State} (h : Coreless f) (s : State) : (f s).tb = s.tb := by
  show (f s).bank (f s).turn.core (f s).turn.ctx = s.bank s.turn.core s.turn.ctx
  unfold State.bank
  rw [h.turn, h.core]

theorem Coreless.only {f : State → State} (h : Coreless f) {s t : State} (ho : OnlyBank s t) (ha : t.agenda = s.agenda) :
    OnlyBank (f s) (f t) ∧ (f t).tb = t.tb ∧ (f t).turn = t.turn ∧ (f t).agenda = (f s).agenda := by
  have e : t = onCores t.cores t.turn s := by
    have := ho.state
    rw [ha] at this
    exact this
  have e2 : f t = onCores t.cores t.turn (f s) := by
    rw [← h t.cores t.turn s, ← e]
  have ht := h.turn s
  have hc := h.core s
  refine ⟨⟨?_, ?_, ?_, ?_, ?_, ?_, ?_, ?_, ?_⟩, h.tb t, h.turn t, by rw [e2]; rfl⟩
  · rw [e2]; rfl
  · rw [h.turn, ht]; exact ho.core
  · rw [h.turn, ht]; exact ho.ctx
  · rw [h.turn, ht]; exact ho.stream
  · rw [h.turn, ht]; exact ho.col
  · rw [h.turn, ht]; exact ho.word
  · intro g hg
    rw [ht] at hg
    rw [h.core, hc]; exact ho.cores g hg
  · rw [ht, h.core, hc]; exact ho.rest
  · intro k hk
    rw [ht] at hk
    rw [ht]
    unfold State.bank
    rw [h.core, hc]
    exact ho.banks k hk

end Sys2Proof.Machine
namespace Sys2Proof.Claims
open Sys2Proof Sys2Proof.Machine

theorem AOwes.outside {r : AForm} {s t : State} (h : AOwes r s s t) {f : State → State} (hf : Coreless f) (e3 : ∀ u : State, r.plan u = u) :
    AOwes r s (f s) (f t) := by
  have ha := h.agenda
  rw [e3] at ha
  obtain ⟨h1, h2, h3, h4⟩ := hf.only h.took.only ha
  exact h.base h1 h2 h3 (by rw [h4, e3])

end Sys2Proof.Claims
namespace Sys2Proof.Machine
open Sys2Proof Sys2Proof.Claims

theorem mem_upTo (lo n i : Nat) : i ∈ upTo lo n ↔ lo ≤ i ∧ i < lo + n := by
  induction n generalizing lo with
  | zero => simp [upTo]
  | succ n ih => simp only [upTo, List.mem_cons, ih]; omega

theorem bit_eq (v : Word) (i : Nat) : bit v i = v.getLsbD i := rfl

theorem runBlock_ok {s : State} {f n : Nat} (h : RunOk f n s) : runBlock s f n = none := by
  unfold runBlock
  rw [if_neg (by have := h.1; simp; omega)]
  have : (upTo f n).findSome? (fun i => s.tb.ringOf i) = none := by
    rw [List.findSome?_eq_none_iff]
    intro i hi
    have := (mem_upTo f n i).1 hi
    exact h.2 i this.1 this.2
  rw [this]

theorem ringBlock_ok {s : State} {r : Fin 16} {n : Nat} {x : Ring} {legal wait : Ring → Bool} (h : RingUse r n x s) (hl : legal x = true)
    (hw : wait x = false) : ringBlock r n legal wait s = none := by
  unfold ringBlock
  have := h.count
  rw [if_neg (by simp; omega), h.config]
  dsimp only
  rw [if_neg (by simp [hl]; omega), if_neg (by simp [hw])]

theorem ringAt_ok {s : State} {r : Fin 16} {n : Nat} {x : Ring} (h : RingUse r n x s) : s.ringAt r = x := by
  unfold State.ringAt; rw [h.config]; rfl

theorem arriveBlock_ok {s : State} {c : Nat} (h : MayArrive c s) : arriveBlock c s = none := by
  unfold arriveBlock
  dsimp only
  obtain ⟨u, hu, hc⟩ := h.member
  have h1 : s.tb.member c = true := by unfold Bank.member; rw [hu]; exact hc
  have h2 : s.tb.arrived c = false := h.idle
  rw [if_neg (by simp [h.fence]), if_neg (by rw [bit_eq, h.good]; simp), if_neg (by simp [h1]), if_neg (by simp [h2])]

theorem colBlock_ok {s : State} {c : Nat} (h : ColOver c s) : colBlock c s = none := by
  unfold colBlock
  dsimp only
  have h2 : s.tb.arrived c = false := h.released
  rw [if_neg (by rw [bit_eq, h.good]; simp), if_neg]
  rw [h2]
  simp only [Bool.false_or, Bool.and_eq_true, not_and]
  intro h3 h4
  have := h.here h3
  rw [bit_eq, this] at h4
  cases h4

theorem handle_retires {h : AHdr} {d src : Fin 16} {srcs : List (Fin 32)} {pre : State → Option Nat} {f v : State → BitVec 256} {s : State}
    {bad : State → Prop} (hx : AReady h.wait h.push srcs [] [] s) (hn : HandleOk src bad v s) (hp : ¬bad s → pre s = none) (hf : f s = v s) :
    ∃ t, aHandle h d src srcs pre f s = .next t ∧ ARetires (makes h d srcs src bad v) s s t := by
  unfold aHandle
  refine changes_retires (g := fun b => { b with h := b.h.set d.val (f s) }) hx ?_ (fun _ _ => rfl) (fun _ => rfl) ?_ rfl
  · have h1 : ¬ (9 ≤ hFmt (s.hreg src)) := by have := hn.format; omega
    simp only [h1, decide_false, Bool.false_eq_true, if_false, hp hn.own, hf, hn.good]
    rfl
  · rw [hf]

theorem rises_retires {h : AHdr} {c : Nat} {s : State} {drain : Bool} {need} (hx : AReady h.wait h.push [] [] [] s) (hn : MayArrive c s) :
    ∃ t, aWord h [] [] [] (arriveBlock c) (fun t => (t.arrive c drain).retirePush h.push) s = .next t ∧
      ARetires { changes h [] need (fun _ => arrives c) with plan := rises c drain } s s t := by
  refine ⟨_, aWord_ready hx (arriveBlock_ok hn) _, ?_⟩
  have ho := aTake_owes s h.wait h.push [] [] [] 1
  have h1 := ho.upd (arrives c) (fun _ => rfl) (fun _ _ => rfl) (changes h [] need fun _ => arrives c) rfl rfl rfl rfl rfl rfl rfl
  have hb := ho.took.bank
  have hid : (s.aTake h.wait h.push [] 1).tb.nextId = s.tb.nextId := by rw [hb]; rfl
  have hpt : (s.aTake h.wait h.push [] 1).tb.part = s.tb.part := by rw [hb]; rfl
  have h2 := h1.schedule 0 .colInputRise
    { EvArgs.at s.turn.core s.turn.ctx with
      p := s.tb.part, id := c, flag := drain, n := (s.die (dieOf s.turn.core)).nextCopy, va := BitVec.ofNat 64 s.tb.nextId }
    { changes h [] need (fun _ => arrives c) with plan := rises c drain } rfl rfl rfl
  have h3 := h2.retire rfl rfl rfl
  unfold State.arrive
  dsimp only
  rw [hid, hpt]
  exact h3

theorem aTake_dieOf (s : State) (w p : Option (Fin 16)) (srcs : List (Fin 32)) (n : Word) (d : Fin 8) : (s.aTake w p srcs n).die d = s.die d := rfl

theorem wrA_retires {v : State → DWord} (h : AHdr) (d : Fin 32) (srcs : List (Fin 32)) (lat : Nat) (s : State) :
    ARetires (aGives h d srcs lat v) s s (((s.aTake h.wait h.push srcs 1).wrA d (v s) lat).retirePush h.push) := by
  have ho := aTake_owes s h.wait h.push srcs [d] [] 1
  have hid : (s.aTake h.wait h.push srcs 1).tb.nextId = s.tb.nextId := by rw [ho.took.bank]; rfl
  have hp := plan_turn h d srcs lat v s
  exact (ho.put (lat := lat) (v := v) hid rfl).retire hp.1 (by rw [hp.2]) (by rw [hp.2])

theorem field_lo (v : DWord) : field v 0 32 = lo32 v := by unfold field lo32; simp
theorem field_mid (v : DWord) : field v 32 24 = mid24 v := by unfold field mid24; rw [Nat.shiftRight_eq_div_pow]
theorem field_top (v : DWord) : field v 56 8 = v.toNat / 2 ^ 56 := by
  unfold field; rw [Nat.shiftRight_eq_div_pow]; have := v.isLt; omega

theorem owners_then {h : AHdr} {srcs : List (Fin 32)} {s : State} {need : State → Prop} {f : State → Bank → Bank} {g : Bank → Bank}
    {F : Core → Core} {blk : State → Option State} (hx : AReady h.wait h.push srcs [] [] s) (hb : blk s = none) (hF : OwnerLike F)
    (hp : ∀ b n, g (aParts b n) = aParts (g b) n) (hg : ∀ b, g b = aParts (g b) b)
    (hf : f s (movedOn 1 s.tb) = g { movedOn 1 s.tb with history := (s.modCore s.turn.core F).tb.history }) {eff : State → State}
    (he : eff (s.aTake h.wait h.push srcs 1) = (((s.aTake h.wait h.push srcs 1).modCore s.turn.core F).modTb g).retirePush h.push) :
    ∃ t, aWord h srcs [] [] blk eff s = .next t ∧ ARetires (changes h srcs need f) s (s.modCore s.turn.core F) t := by
  refine ⟨_, aWord_ready hx hb _, ?_⟩
  rw [he]
  have ho := aTake_owes s h.wait h.push srcs [] [] 1
  have := ho.owners hF { wait := h.wait, push := h.push, srcs := srcs, upd := fun s b => { b with history := (s.modCore s.turn.core F).tb.history } } rfl rfl rfl fun u => rfl
  have := this.upd g hg hp (changes h srcs need f) rfl rfl rfl rfl hf rfl rfl
  exact this.retire rfl rfl rfl

theorem ownerLike_slots (x : Ring) (a n : Nat) (e : Bool) :
    OwnerLike fun c => (upTo a n).foldl (fun (c : Core) (i : Nat) => c.setOwner (x.tile i) 1 e) c :=
  OwnerLike.fold (upTo a n) (fun i c => c.setOwner (x.tile i) 1 e) fun i => OwnerLike.setOwner _ _ _

def reCore (old new : Option Ring) (c : Core) : Core :=
  let c := match old with | some x => c.setOwner x.base x.count false | none => c
  match new with | some x => (upTo 0 x.count).foldl (fun (c : Core) (i : Nat) => c.setOwner (x.tile i) 1 (x.prod.val != 0)) c | none => c

theorem ownerLike_re (old new : Option Ring) : OwnerLike (reCore old new) := by
  unfold reCore
  cases old <;> cases new
  · exact OwnerLike.id
  · exact ownerLike_slots _ _ _ _
  · exact OwnerLike.setOwner _ _ _
  · exact (OwnerLike.setOwner _ _ _).comp (ownerLike_slots _ _ _ _)

theorem modCore_modCore (s : State) (g : Fin 512) (f h : Core → Core) : (s.modCore g f).modCore g h = s.modCore g fun c => h (f c) := by
  unfold State.modCore
  rw [setCore_setCore]
  rw [State.core_setCore, if_pos rfl]

theorem reconfigured_eq (old new : Option Ring) (s : State) : reconfigured old new s = s.modCore s.turn.core (reCore old new) := by
  unfold reconfigured reCore owns slotsOwn State.slotOwner
  cases old <;> cases new <;> dsimp only
  · exact (setCore_self s _).symm
  · exact modCore_modCore _ _ _ _

theorem rgcfg_eff (t : State) (old new : Option Ring) :
    (match new with
      | some x => (match old with | some y => t.unconfigure t.turn.core y | none => t).slotOwner t.turn.core x 0 x.count x.freeOwner
      | none => (match old with | some y => t.unconfigure t.turn.core y | none => t)) = t.modCore t.turn.core (reCore old new) := by
  rw [← reconfigured_eq]
  cases old <;> cases new <;> rfl

theorem outside_retires {f : State → State} (hf : Coreless f) {v : State → DWord} (h : AHdr) (d : Fin 32) (srcs : List (Fin 32)) (lat : Nat) (s : State)
    (hc : (f s).cycle = s.cycle) :
    ARetires (aGives h d srcs lat v) s (f s) (((f (s.aTake h.wait h.push srcs 1)).wrA d (v s) lat).retirePush h.push) := by
  have ho := (aTake_owes s h.wait h.push srcs [d] [] 1).outside hf fun _ => rfl
  have hid : (f (s.aTake h.wait h.push srcs 1)).tb.nextId = (f s).tb.nextId := by rw [hf.tb, hf.tb, (aTake_owes s h.wait h.push srcs [d] [] 1).took.bank]; rfl
  have hp := plan_turn h d srcs lat v (f s)
  exact (ho.put (lat := lat) (v := v) hid hc).retire hp.1 (by rw [hp.2]) (by rw [hp.2])

theorem rawWriteN_cycle (p : Fin 8) (va : Nat) (l : List Byte) (s : State) : (s.rawWriteN p va l).cycle = s.cycle := by
  unfold State.rawWriteN
  generalize l.zipIdx = k
  induction k generalizing s with
  | nil => rfl
  | cons a k ih =>
    rw [List.foldl_cons, ih]
    unfold State.rawWrite
    split <;> rfl
theorem syncQueue_cycle (p : Fin 8) (q : Fin 64) (s : State) : (s.syncQueue p q).cycle = s.cycle := by
  unfold State.syncQueue
  split
  · rfl
  · dsimp only
    rw [rawWriteN_cycle, rawWriteN_cycle]
    split <;> simp only [rawWriteN_cycle]
theorem setQueue_cycle (p : Fin 8) (q : Fin 64) (f : Queue → Queue) (s : State) : (s.setQueue p q f).cycle = s.cycle := syncQueue_cycle ..
theorem pokeQueue_cycle (p : Fin 8) (q : Fin 64) (s : State) : (s.pokeQueue p q).cycle = s.cycle := by
  unfold State.pokeQueue
  split
  · rfl
  · dsimp only
    split
    · rfl
    · split <;> rfl
theorem putRecord_cycle (p : Fin 8) (q : Fin 64) (r : BitVec 256) (s : State) : (s.putRecord p q r).cycle = s.cycle := by
  unfold State.putRecord State.writeRecord
  split
  · rfl
  · split
    · rfl
    · split
      · dsimp only
        rw [State.modDev_cycle, setQueue_cycle, rawWriteN_cycle]
      · rw [setQueue_cycle]
theorem endEntry_cycle (p : Fin 8) (q : Fin 64) (seq : Word) (st : Nat) (why : Byte) (u : State) : (u.endEntry p q seq st why).cycle = u.cycle := by
  unfold State.endEntry
  split
  · rfl
  · dsimp only
    rw [State.modJob_cycle, putRecord_cycle]
theorem advance_cycle (p : Fin 8) (q : Fin 64) (u : State) : (u.advance p q).cycle = u.cycle := by
  unfold State.advance
  dsimp only
  split
  · split
    · rw [State.schedule_cycle, pokeQueue_cycle, setQueue_cycle]
    · rw [pokeQueue_cycle, setQueue_cycle]
  · rw [pokeQueue_cycle, setQueue_cycle]
theorem cancelEntry_cycle (p : Fin 8) (q : Fin 64) (seq : Word) (s : State) : (s.cancelEntry p q seq).cycle = s.cycle := by
  unfold State.cancelEntry
  split
  · rfl
  · dsimp only
    split
    · rw [advance_cycle, endEntry_cycle]
    · rw [setQueue_cycle, endEntry_cycle]

end Sys2Proof.Machine
end

