-- ==== Sys2Proof/Safety.lean ====
section
/-! DEFINITION. Safety.lean: what counts as a safe run: one in which every step goes on (spec/21 R308: the device reports
its own errors as traps and containment causes, which are next states). -/
namespace Sys2Proof.Machine

/-- The state after `n` steps, when each of them goes on. -/
def runSteps : Nat → State → Option State
  | 0, s => some s
  | n + 1, s => match step s with | .next t => runSteps n t | _ => none

/-- The next step neither faults nor is refused. -/
def State.safe (s : State) : Bool := match step s with | .next _ => true | _ => false

/-- The first `n` steps go on. -/
def State.safeFor (s : State) (n : Nat) : Bool := (Sys2Proof.Machine.runSteps n s).isSome

end Sys2Proof.Machine
end

