-- ==== Sys2Proof/Tests/Slice0.lean ====
section
/-! SUPPORT. Tests/Slice0.lean: for each statement with hypotheses a state and operands that meet them together, an ill-formed
term for each check of WellFormed, the words that the spec writes out, and the values that it works out. -/
namespace Sys2Proof.Tests
open Sys2Proof Sys2Proof.Machine Sys2Proof.Claims
set_option Elab.async false
def h0 : XHdr := { joined := false, gp := 0, gn := false, wait := none, push := none }
def a0 : AHdr := { wait := none, push := none }
def m0 : MHdr := { wait := none, push := none, stamp := 0, bound := 0 }
def l0 : LHdr := { wait := none, push := none, stamp := 0, bound := 0, hb := false }
def entry (v : Vec) : QEntry := { id := 0, val := v, ready := true }
/-- A unit that runs in bank 0 of core 0, its queues all with a poppable head, its turn at column 0 of stream X. -/
def tx : State := (State.reset.withFetchWord 64 0).modTb fun b =>
  { b with
    qsAX := Vector.replicate 4 [entry 5], qvAX := Vector.replicate 4 [entry 7], brq := [entry 1]
    qsXA := Vector.replicate 4 [entry 9], qvXA := Vector.replicate 4 [entry 11] }
theorem free_tx : XFree h0 tx := ⟨by decide +kernel, by decide +kernel, by decide +kernel, by decide +kernel, by decide +kernel, by decide +kernel⟩
theorem heads_tx : ∀ q, q < 9 → headReady (tx.tb.qAX q) = true := by decide +kernel
theorem ready_tx {srcs : List Nat} (h : ∀ q ∈ srcs, q < 9) : XReady h0 srcs tx :=
  ⟨free_tx, by decide +kernel, fun q hq => heads_tx q (h q hq)⟩
/-- Nothing is due, so no execution of the domain unit is under way. -/
theorem idle_of {s : State} (h : s.agenda = []) (h2 : s.tb.dom.trapDue = none) : NoExecution s :=
  ⟨(by intro x hx; rw [h] at hx; cases hx), h2⟩
theorem placeIdle_of {g : Fin 512} {k : Fin 3} {s : State} (h : s.agenda = []) (h2 : (s.bank g k).dom.trapDue = none) : PlaceIdle g k s :=
  ⟨(by intro x hx; rw [h] at hx; cases hx), h2⟩
theorem idle_tx : NoExecution tx := idle_of (by decide +kernel) (by decide +kernel)
theorem unit_tx : tx.tb.unit = some (fetchUnit 0 1 0) := by decide +kernel
theorem untraced_tx : Untraced tx := by
  intro u hu; rw [unit_tx] at hu; cases hu; decide +kernel


/-! ## What a witness shows: a row of a table, and a state that meets all that the statement asks -/

def MeetsR (T : Instr → XResult → Prop) (i : Instr) (s : State) : Prop := ∃ r, T i r ∧ XReady r.hdr r.srcs s ∧ r.need s
def MeetsF (T : Instr → XForm → Prop) (i : Instr) (s : State) : Prop := ∃ r, T i r ∧ XReady r.hdr r.srcs s ∧ r.need s
def MeetsE (T : Instr → Event → Prop) (i : Instr) (s : State) : Prop := ∃ e, T i e ∧ e.need s


theorem witness_scalar : MeetsR ScalarForm (.xAdd h0 (.reg 1) (.queue 0) (.queue 3)) tx := ⟨_, .xAdd, ready_tx (by decide), trivial⟩
theorem witness_pred : MeetsR PredForm (.xCmp h0 .eq 1 (.queue 0) (.imm 0)) tx := ⟨_, .xCmp, ready_tx (by decide), trivial⟩
theorem witness_vector : MeetsR VectorForm (.vperm h0 (.reg 1) (.queue 0) (.queue 1) (.queue 3)) tx :=
  ⟨_, .vperm, ready_tx (by decide), trivial⟩
theorem witness_narrow : MeetsR NarrowForm (.vrsh h0 .i8 3 (.reg 1) (.queue 0) (.reg 2) (.reg 3)) tx :=
  ⟨_, .vrsh, ready_tx (by decide), trivial⟩
theorem witness_float : MeetsR FloatForm (.vfma h0 (.reg 1) (.queue 0) (.reg 2) (.reg 3)) tx := ⟨_, .vfma, ready_tx (by decide), trivial⟩
theorem witness_unorderedSum : XReady h0 (vPorts (.queue 2)) tx := ready_tx (by decide)
theorem witness_decode : XReady h0 (vPorts (.queue 0) ++ vPorts (.reg 1) ++ vPorts (.reg 2)) tx := ready_tx (by decide)
theorem witness_accumulatorRead : XReady h0 (sPorts (.queue 0)) tx ∧ AccUsable tx := ⟨ready_tx (by decide), .inr (.inr (by decide +kernel))⟩
theorem witness_lesserGreater : XReady h0 (vPorts (.queue 0) ++ vPorts (.queue 1)) tx := ready_tx (by decide)
theorem witness_permute : XReady h0 (vPorts (.queue 0) ++ vPorts (.reg 1) ++ vPorts (.queue 1)) tx := ready_tx (by decide)
theorem witness_merge : XReady h0 (vPorts (.queue 0) ++ sPorts (.queue 1)) tx := ready_tx (by decide)

theorem noDelay_tx : NoDelay tx := by unfold NoDelay; decide +kernel
theorem witness_branch : MeetsF ControlForm (.brq h0 0xFFFF) tx := ⟨_, .brq, ready_tx (by decide), noDelay_tx, untraced_tx⟩
theorem witness_loop : MeetsF ControlForm (.xLoop h0 true (.queue 0) 4) tx := ⟨_, .xLoop, ready_tx (by decide), noDelay_tx⟩
theorem witness_join : MeetsF ControlForm (.join h0 3 0xF)
    (tx.modTb fun b => { b with cols := b.cols.map fun c => { c with ccs := 8, ccsOld := 8 } }) :=
  ⟨_, .join, ⟨⟨by decide +kernel, by decide +kernel, by decide +kernel, by decide +kernel, by decide +kernel, by decide +kernel⟩,
    by decide +kernel, by decide⟩, by unfold NoDelay; decide +kernel, by unfold AllJoin; decide +kernel⟩
theorem witness_xFence : MeetsF ControlForm (.xFence h0 .sc .col) tx := ⟨_, .xFence, ready_tx (by decide), by unfold Landed; decide +kernel⟩
theorem witness_call : XReady h0 [] tx ∧ (callResult h0 (.reg 1) 5).need tx := ⟨ready_tx (by decide), noDelay_tx, untraced_tx⟩
def hn : XHdr := { h0 with gp := 1 }
theorem witness_guardedOff : ∃ r, Guarded (.xAdd hn (.reg 1) (.queue 0) (.queue 3)) r ∧ XFree r.hdr tx ∧ tx.guard r.hdr = false :=
  ⟨_, .scalar .xAdd, ⟨by decide +kernel, by decide +kernel, by decide +kernel, by decide +kernel, by decide +kernel, by decide +kernel⟩,
    by decide +kernel⟩
/-- The same state with its column in the first delay slot of a branch. -/
def txDelay : State := tx.modTc fun c => { c with brdly := 2 }
theorem untraced_same {s : State} (e : s.tb.unit = some (fetchUnit 0 1 0)) (h : (s.part 0).trcOpen = false) : Untraced s := by
  intro u hu; rw [e] at hu; cases hu; show ((s.part 0).trcOpen && _) = false; rw [h]; rfl
theorem witness_illegalInDelay : NotInDelay (.xBr h0 5) h0 ∧ txDelay.guard h0 = true ∧ txDelay.tc.brdly ≠ 0 ∧ txDelay.turn.ctx.val < 2 ∧
    Untraced txDelay ∧ NoExecution txDelay :=
  ⟨.form .xBr (by intro h e; cases e) (by intro h k c e; cases e), by decide +kernel, by decide +kernel, by decide +kernel,
    untraced_same (by decide +kernel) (by decide +kernel), idle_of (by decide +kernel) (by decide +kernel)⟩

/-! ### Scratchpad: the first and the last word -/
/-- x1 holds an address. -/
def txAt (a : Word) : State := tx.modTc fun c => { c with x := c.x.set 1 a }
theorem ready_at (a : Word) : XReady h0 [] (txAt a) :=
  ⟨⟨rfl, rfl, rfl, rfl, rfl, rfl⟩, rfl, by intro q h; cases h⟩

theorem spOk_at (wr : Bool) : SpOk (txAt 0x2FFFFC) wr 4 [scalarAddr (txAt 0x2FFFFC) (.reg 1) (.imm 0)] ∧
    SpOk (txAt 0) wr 4 [scalarAddr (txAt 0) (.reg 1) (.imm 0)] := by
  cases wr <;> exact ⟨⟨by decide +kernel, by decide +kernel, by decide +kernel, by decide +kernel, by decide +kernel, by decide +kernel⟩,
    ⟨by decide +kernel, by decide +kernel, by decide +kernel, by decide +kernel, by decide +kernel, by decide +kernel⟩⟩
theorem witness_load : MeetsR LoadForm (.xLd h0 0 .w32 (.reg 2) (.reg 1) (.imm 0)) (txAt 0x2FFFFC) ∧
    MeetsR LoadForm (.ldacq h0 0 (.reg 2) (.reg 1) (.imm 0)) (txAt 0) :=
  ⟨⟨_, .xLd, ready_at _, (spOk_at false).1⟩, ⟨_, .ldacq, ready_at _, (spOk_at false).2⟩⟩
theorem witness_vectorLoad : MeetsR LoadForm (.vld h0 0 (.reg 2) (.reg 1) (.imm 1)) (txAt 0x2FFF80) :=
  ⟨_, .vld, ready_at _, ⟨by decide +kernel, by decide +kernel, by decide +kernel, by decide +kernel, by decide +kernel, by decide +kernel⟩,
    by unfold PortReady; decide +kernel⟩
theorem witness_indexedLoad : MeetsR LoadForm (.vldx h0 0 (.reg 2) (.reg 1) (.reg 0)) (txAt 0x2FFFFC) :=
  ⟨_, .vldx, ready_at _, ⟨by decide +kernel, by decide +kernel, by decide +kernel, by decide +kernel, by decide +kernel, by decide +kernel⟩,
    by unfold PortReady; decide +kernel⟩
theorem witness_store : MeetsF StoreForm (.xSt h0 0 .w32 (.reg 1) (.imm 0) (.reg 2)) (txAt 0x2FFFFC) :=
  ⟨_, .xSt, ready_at _, (spOk_at true).1⟩
theorem witness_vectorStore : MeetsF StoreForm (.vst h0 0 (.reg 1) (.imm 1) (.reg 2)) (txAt 0) :=
  ⟨_, .vst, ready_at _, ⟨by decide +kernel, by decide +kernel, by decide +kernel, by decide +kernel, by decide +kernel, by decide +kernel⟩,
    by unfold PortReady; decide +kernel⟩
theorem witness_indexedStore : MeetsF StoreForm (.vstx h0 0 (.reg 1) (.reg 0) (.reg 2)) (txAt 0x2FFFFC) :=
  ⟨_, .vstx, ready_at _, ⟨by decide +kernel, by decide +kernel, by decide +kernel, by decide +kernel, by decide +kernel, by decide +kernel⟩,
    by unfold PortReady; decide +kernel⟩
/-- Two stores to one address wait for the end of the cycle. -/
def txStores : State := { tx.modTb (fun b => { b with xstores := [(8, 1), (8, 2), (0, 3)] }) with ev := EvArgs.at 0 0 }
theorem witness_storesLand : (evBank txStores).xsysw = [] ∧ (txStores.core txStores.ev.g).sp.wf = true ∧
    lastByte (evBank txStores).xstores 8 = some 2 ∧ lastByte (evBank txStores).xstores 9 = none := by decide +kernel
/-- The boundary of each check. -/
theorem witness_accessChecks :
    (XReady h0 [] (txAt 0x300000) ∧ AccessTrap (txAt 0x300000) false 4 (scalarAddr (txAt 0x300000) (.reg 1) (.imm 0)) 10 0x300000 0) ∧
    (XReady h0 [] (txAt 0x2FFFFD) ∧ AccessTrap (txAt 0x2FFFFD) true 2 (scalarAddr (txAt 0x2FFFFD) (.reg 1) (.imm 0)) 7 0x2FFFFD 0) :=
  ⟨⟨ready_at _, by
      rw [show scalarAddr (txAt 0x300000) (.reg 1) (.imm 0) = 0x300000 by decide +kernel]; exact .range (by decide)⟩,
    ⟨ready_at _, by
      rw [show scalarAddr (txAt 0x2FFFFD) (.reg 1) (.imm 0) = 0x2FFFFD by decide +kernel]; exact .aligned (by decide) (by decide)⟩⟩
def noSets (b : Bank) : Bank := { b with unit := b.unit.map fun u => { u with rd := Vector.replicate 3 0, wr := Vector.replicate 3 0 } }
theorem witness_setCheck : AccessTrap (tx.modTb noSets) true 4 0 13 0 0 ∧ AccessTrap (tx.modTb noSets) false 4 0 13 0 0 :=
  ⟨.set (by decide) (by decide) (by decide +kernel), .set (by decide) (by decide) (by decide +kernel)⟩
theorem witness_ownerCheck : AccessTrap (tx.modCore 0 fun c => c.setOwner 767 1 true) false 4 0x2FFFFC 11 767 0 :=
  .owner (by decide) (by decide) (by decide +kernel) (by decide +kernel)

/-! ### System syllables and traps -/
theorem witness_sysw : MeetsF SystemForm (.xSysw h0 (.queue 0) 0x020) tx := ⟨_, .xSysw, ready_tx (by decide), by decide +kernel, by decide +kernel⟩
theorem witness_dbgstop : MeetsF SystemForm (.dbgstop h0 7) tx := ⟨_, .dbgstop, ready_tx (by decide), by decide +kernel, by decide +kernel⟩
theorem witness_yieldStays : MeetsF SystemForm (.yield h0) (tx.modTb fun b => { b with unit := b.unit.map fun u => { u with detm := true } }) :=
  ⟨_, .yield, ⟨⟨by decide +kernel, by decide +kernel, by decide +kernel, by decide +kernel, by decide +kernel, by decide +kernel⟩,
    by decide +kernel, by intro q h; cases h⟩, by decide +kernel, by decide +kernel⟩
theorem witness_yield : XReady h0 [] tx ∧ tx.turn.ctx.val < 2 ∧ tx.tb.detm = false := ⟨ready_tx (by decide), by decide +kernel, by decide +kernel⟩
theorem witness_sysr : XReady h0 [] tx ∧ (sysrResult h0 (.reg 1) 0x020).need tx := ⟨ready_tx (by decide), by
    show (tx.readReg (0x020 : BitVec 12).toNat).isSome = true; decide +kernel⟩
def txStop : State := tx.modPart 0 fun p => { p with stopen := true }
theorem witness_dbgstopTraps : (txStop.part txStop.tb.part).stopen = true ∧ NoExecution txStop :=
  ⟨by decide +kernel, idle_of (by decide +kernel) (by decide +kernel)⟩
theorem witness_registerRefused : RegisterRefused tx (.xSysr h0 (.reg 1) 0xFFF) h0 ∧ RegisterRefused tx (.xSysw h0 (.reg 1) 0x010) h0 ∧
    tx.guard h0 = true ∧ tx.turn.ctx.val < 2 ∧ Untraced tx ∧ NoExecution tx :=
  ⟨.read (by decide +kernel), .write (by decide +kernel), by decide +kernel, by decide +kernel, untraced_tx, idle_tx⟩
theorem witness_systemOnly : SystemOnly tx (.eret h0) ∧ SystemOnly tx (.ctxsw a0 1) ∧ SystemOnly tx (.ctxbank a0 1 2) ∧
    SystemOnly tx (.tlbinv a0 1 2) := ⟨.eret (by decide +kernel), .ctxsw, .ctxbank, .tlbinv⟩
theorem witness_trap : XReady h0 [] tx ∧ tx.turn.ctx.val < 2 ∧ Untraced tx ∧ NoExecution tx ∧ tx.tb.status < 2 :=
  ⟨ready_tx (by decide), by decide +kernel, untraced_tx, idle_tx, by decide +kernel⟩
/-- The handler of bank 0 runs in the system context of core 0. -/
def txSystem : State :=
  let s := (State.reset.withFetchWord 64 0).modBank 0 0 fun b =>
    { b with st := .trapped, unit := some { fetchUnit 1 1 1 with xLen := Vector.replicate 4 1 } }
  let s := s.modBank 0 2 fun b => { b with st := .running, unit := some (fetchUnit 0 1 0), left := 1, aEnded := true, mEnded := true }
  { s.modCore 0 fun c => { c with handling := some 0 } with turn := { s.turn with ctx := 2 } }
theorem ready_system : XReady h0 [] txSystem :=
  ⟨⟨by decide +kernel, by decide +kernel, by decide +kernel, by decide +kernel, by decide +kernel, by decide +kernel⟩,
    by decide +kernel, by intro q h; cases h⟩
theorem witness_doubleTrap : XReady h0 [] txSystem ∧ txSystem.turn.ctx.val = 2 ∧ (txSystem.core txSystem.turn.core).handling = some 0 ∧
    (txSystem.bank txSystem.turn.core ((0 : Fin 2).castLE (by decide))).status < 2 := ⟨ready_system, by decide +kernel, by decide +kernel, by decide +kernel⟩
theorem witness_handlerDone : HandlerDone txSystem :=
  ⟨by decide +kernel, by decide +kernel, by decide +kernel, by
    intro o h; rw [show txSystem.tb.ops = [] by decide +kernel] at h; cases h⟩
theorem witness_resumes : Resumes txSystem 0 (txSystem.bank 0 0) (txSystem.saveRead 0 (txSystem.saveVA 0 0)) :=
  ⟨by decide +kernel, rfl, ⟨_, (by decide +kernel : (txSystem.bank 0 0).unit =
    some { fetchUnit 1 1 1 with xLen := Vector.replicate 4 1 }), by decide +kernel⟩, by decide +kernel, by decide +kernel, rfl,
    by decide +kernel⟩

/-! ### Domain registers -/
theorem witness_domainReads : XReady h0 [] tx ∧ Column0 tx := ⟨ready_tx (by decide), by unfold Column0; decide +kernel⟩
/-- A scalar that lands in lx in this X cycle. -/
def fl (dst : Byte) (land : Nat) : Flight :=
  { val := 5, dst := dst, col := 0, kind := .scalar, land := land, fpf := 0, push := none, seq := 0 }
def txFlight (f : Flight) (n : Nat) : State := { tx.modTb (fun b => { b with inflight := [f], xcycle := n }) with ev := EvArgs.at 0 0 }
theorem witness_lx : (lxLands (fl 55 3)).need (txFlight (fl 55 3) 3) := ⟨by decide +kernel, by decide +kernel, by decide +kernel, by decide +kernel⟩
theorem witness_domainTests : XReady h0 (sPorts (.queue 0)) tx ∧ Column0 tx := ⟨ready_tx (by decide), by unfold Column0; decide +kernel⟩
theorem witness_narrow_full : Canonical { lo := 0x80000000, hi := 0x7FFFFFFF, win := BitVec.allOnes 64 } :=
  ⟨by decide, by decide, by intro h; exact absurd h (by decide), by intro h; exact absurd h (by decide)⟩
theorem witness_narrow_one : Canonical { lo := 5, hi := 5, win := 1 } :=
  ⟨by decide, by decide, by intro _; decide, by
    intro _ k hk
    have : (1 : BitVec 64).getLsbD k = decide (k = 0) := by
      cases k with
      | zero => rfl
      | succ n => simp [BitVec.getLsbD, Nat.testBit_succ]
    rw [this]; simp only [decide_eq_false_iff_not]; intro e; subst e; exact absurd hk (by decide)⟩
/-- d1 = [0, 9], and a standing entry that names it where `keep` says so. -/
def txDom (keep : Bool) : State := tx.modTb fun b =>
  { b with dom := { b.dom with
      d := b.dom.d.set 1 { lo := 0, hi := 9, win := 0x3FF }
      table := if keep then [{ op := .ne, c := 0, a := 1, b := 2, k := 0 }] else [] } }
theorem ready_dom (k : Bool) {srcs : List Nat} (h : ∀ q ∈ srcs, q < 9) : XReady h0 srcs (txDom k) := by
  have hq : ∀ q, q < 9 → headReady ((txDom k).tb.qAX q) = true := by cases k <;> decide +kernel
  cases k <;> exact ⟨⟨by decide +kernel, by decide +kernel, by decide +kernel, by decide +kernel, by decide +kernel, by decide +kernel⟩,
    by decide +kernel, fun q hh => hq q (h q hh)⟩
/-- x ≤ 5 on d1. -/
theorem witness_settles : ∃ x k, NarrowsForm (.dint h0 1 (.imm 0) (.imm 5)) h0 [] x k ∧ XReady h0 [] (txDom false) ∧
    (settled h0 [] x k).need (txDom false) :=
  ⟨_, _, .dint, ready_dom false (by decide), by unfold Column0; decide +kernel, by decide +kernel, by decide +kernel, by decide⟩
theorem witness_runs : ∃ x k, NarrowsForm (.dint h0 1 (.imm 0) (.imm 5)) h0 [] x k ∧ XReady h0 [] (txDom true) ∧
    (running h0 [] x k).need (txDom true) :=
  ⟨_, _, .dint, ready_dom true (by decide), by unfold Column0; decide +kernel, by decide +kernel, by decide +kernel, by decide⟩
theorem witness_failTraps : ∃ x k, NarrowsForm (.dfix h0 1 (.imm 10)) h0 [] x k ∧ XReady h0 [] (txDom false) ∧
    (failTraps h0 [] x k 1).need (txDom false) ∧ (txDom false).turn.stream = .x ∧ (txDom false).turn.ctx.val < 2 ∧ Untraced (txDom false) ∧
    NoExecution (txDom false) :=
  ⟨_, _, .dfix, ready_dom false (by decide), ⟨by unfold Column0; decide +kernel, by decide +kernel, .inl (by decide +kernel), by decide⟩,
    by decide +kernel, by decide +kernel, untraced_same (by decide +kernel) (by decide +kernel), idle_of (by decide +kernel) (by decide +kernel)⟩
def txFailpc : State := (txDom false).modTb fun b => { b with dom := { b.dom with failpc := 40 } }
theorem witness_redirects : ∃ x k, NarrowsForm (.dfix h0 1 (.imm 10)) h0 [] x k ∧ (redirected h0 [] x k 1).need txFailpc :=
  ⟨_, _, .dfix, by unfold Column0; decide +kernel, by decide +kernel, by decide +kernel, by unfold NoDelay; decide +kernel, by decide⟩
theorem witness_pickSettles : XReady h0 [] (txDom false) ∧ (pickSettled h0 (.reg 1) 1).need (txDom false) :=
  ⟨ready_dom false (by decide), by unfold Column0; decide +kernel, by decide +kernel⟩
theorem witness_pickRuns : XReady h0 [] (txDom true) ∧ (pickRunning h0 (.reg 1) 1).need (txDom true) :=
  ⟨ready_dom true (by decide), by unfold Column0; decide +kernel, by decide +kernel⟩
theorem witness_dpickCompletes : XReady h0 [] (txDom true) ∧ Column0 (txDom true) :=
  ⟨ready_dom true (by decide), by unfold Column0; decide +kernel⟩
theorem witness_dsave : ∃ n r, StackForm (.dsave h0) n r ∧ XReady r.hdr r.srcs tx ∧ r.need tx :=
  ⟨_, _, .dsave, ready_tx (by decide), by unfold Column0; decide +kernel, by decide +kernel⟩
theorem witness_drest : ∃ n r, StackForm (.drest h0) n r ∧
    r.need (tx.modTb fun b => { b with dom := { b.dom with stack := [{ d := b.dom.d, fill := 0, dstat := b.dom.dstat, pending := [] }] } }) :=
  ⟨_, _, .drest, by unfold Column0; decide +kernel, by decide +kernel⟩
theorem witness_dprop : ∃ n r, StackForm (.dprop h0) n r ∧ XReady r.hdr r.srcs tx ∧ r.need tx :=
  ⟨_, _, .dprop, ready_tx (by decide), by unfold Column0; decide +kernel, by decide +kernel⟩

/-! ### Stream A -/
/-- The same unit, its turn at stream A. -/
def ta : State :=
  { (State.reset.withFetchWord 48 0).modTb (fun b =>
      { b with qsXA := Vector.replicate 4 [entry 9], qvXA := Vector.replicate 4 [entry 11] }) with cycle := 10 }
/-- a1 holds a value. -/
def taAt (v : DWord) : State := ta.modTb fun b => { b with a := b.a.set 1 v }
theorem quiet_ta (v : DWord) : (taAt v).tb.aReady = [] ∧ (taAt v).tb.ops = [] := ⟨rfl, rfl⟩
/-- A word with registers, X→A queue heads and A→X queue places is ready. -/
theorem ready_taAt (v : DWord) {srcs dsts : List (Fin 32)} {extra : List Nat} (he : ∀ q ∈ extra, q < 9) :
    AReady none none srcs dsts extra (taAt v) := by
  refine ⟨rfl, rfl, rfl, rfl, ?_, ?_, ?_, ?_⟩
  · intro n _ _ _
    refine ⟨?_, ?_⟩
    · intro x hx; rw [(quiet_ta v).1] at hx; cases hx
    · intro o ho; rw [(quiet_ta v).2] at ho; cases ho
  · have key : ∀ q, q < 4 → headReady ((taAt 0).tb.qXA q) = true := by decide +kernel
    intro n _ hn; exact key _ (by omega)
  · have key : ∀ q, q < 4 → ((taAt 0).tb.qAX q).length < 16 := by decide +kernel
    intro n _ hn; exact key _ (by omega)
  · have key : ∀ q, q < 9 → ((taAt 0).tb.qAX q).length < qDepth q := by decide +kernel
    intro q hq; exact key q (he q hq)
def MeetsA (T : Instr → AForm → Prop) (i : Instr) (s : State) : Prop :=
  ∃ r, T i r ∧ AReady r.wait r.push r.srcs r.dsts r.extra s ∧ r.need s
def MeetsB (T : Instr → AForm → (State → State) → Prop) (i : Instr) (s : State) : Prop :=
  ∃ r f, T i r f ∧ AReady r.wait r.push r.srcs r.dsts r.extra s ∧ r.need s
def MeetsAcc (i : Instr) (s : State) : Prop :=
  ∃ r, AccessOf i r ∧ AReady r.hdr.wait r.hdr.push r.srcs r.dsts r.extra s ∧ r.need s
theorem witness_arith : MeetsA ArithForm (.aAdd a0 31 28 5) (taAt 0) := ⟨_, .aAdd, ready_taAt _ (by decide), trivial⟩
theorem unit_ta (v : DWord) : (taAt v).tb.unit = some (fetchUnit 2 0 0) := rfl
theorem noTrace_ta (v : DWord) : NoTrace (taAt v) := by
  refine ⟨rfl, ?_⟩
  intro u hu; rw [unit_ta] at hu; cases hu; rfl
theorem witness_branchWord : MeetsA BranchForm (.bne a0 .qb 1 2 0xFFF) (taAt 7) := ⟨_, .bne, ready_taAt _ (by decide), noTrace_ta _⟩
theorem witness_fin : MeetsA BranchForm .aFin (taAt 0) := ⟨_, .aFin, ready_taAt _ (by decide), trivial⟩
/-- a1 holds the first address of the data area of the fetch image. -/
def tag : State := taAt 0x200000
theorem global_ta (st : Bool) (rel : Option Scope) (atom : Bool) (n : Nat) (h : 0x200000 % n = 0) : GlobalOk st rel atom n 0x200000 tag where
  unsealed _ := by decide +kernel
  aligned := h
  canonical := by decide +kernel
  owner := by decide +kernel
  target _ := by decide +kernel
  room := by decide +kernel
  strong _ := by decide +kernel
  fence _ := by decide +kernel
  released sc _ := by cases sc <;> decide +kernel
  quiet := by decide +kernel
theorem addr_tag (n : Nat) : addr 1 0 0 n tag = 0x200000 := by
  unfold addr
  rw [show tag.rA 1 = 0x200000 by decide +kernel, show tag.rA 0 = 0 by decide +kernel,
    show ((0 : BitVec 8).signExtend 64 : DWord) = 0 by decide]
  simp
theorem witness_globalLoad : MeetsAcc (.aLd a0 0 false .i8 2 1 0 0) tag ∧ MeetsAcc (.lda a0 1 .core .w64 28 1 0 0) tag :=
  ⟨⟨_, .aLd, ready_taAt _ (by decide), by
      rw [show (loads a0 0 false .i8 2 1 0 0).need tag = GlobalOk false none false 1 (addr 1 0 0 1 tag) tag from rfl, addr_tag]
      exact global_ta _ _ _ _ (by decide)⟩,
    ⟨_, .lda, ready_taAt _ (by decide), by
      rw [show (loads a0 1 true .w64 28 1 0 0).need tag = GlobalOk false none false 8 (addr 1 0 0 8 tag) tag from rfl, addr_tag]
      exact global_ta _ _ _ _ (by decide)⟩⟩
theorem witness_globalStore : MeetsAcc (.stl a0 0 .device .n8 28 1 0 0) tag :=
  ⟨_, .stl, ready_taAt _ (by decide), by
    rw [show (stores a0 0 (some .device) .n8 28 1 0 0).need tag = GlobalOk true (some .device) false 1 (addr 1 0 0 1 tag) tag from rfl, addr_tag]
    exact global_ta _ _ _ _ (by decide)⟩
theorem witness_globalVector : MeetsAcc (.ldq a0 0 false 0 1 0 0) tag :=
  ⟨_, .ldqV (by decide), ready_taAt _ (by decide), by
    show GlobalOk false none false 128 (addr 1 0 0 128 tag) tag
    rw [addr_tag]; exact global_ta _ _ _ _ (by decide)⟩
theorem a1_tag : (tag.rA 1).toNat = 0x200000 := by decide +kernel
theorem witness_atomic : MeetsAcc (.acas a0 0 true .ar 4 1 28) tag ∧ MeetsAcc (.barc a0 5 1 3) tag ∧ MeetsAcc (.redfaddO a0 0 true 1 3) tag :=
  ⟨⟨_, .acas, ready_taAt _ (by decide), by
      show GlobalOk true _ true 8 (tag.rA 1).toNat tag
      rw [a1_tag]; exact global_ta _ _ _ _ (by decide)⟩,
    ⟨_, .barc, ready_taAt _ (by decide), by
      show GlobalOk true _ true 4 (tag.rA 1).toNat tag
      rw [a1_tag]; exact global_ta _ _ _ _ (by decide)⟩,
    ⟨_, .redfaddO, ready_taAt _ (by decide), by
      show vaOwner (tag.rA 1).toNat < 8 ∧ GlobalOk true _ true 4 (tag.rA 1).toNat tag
      rw [a1_tag]; exact ⟨by decide, global_ta _ _ _ _ (by decide)⟩⟩⟩
theorem witness_handle : MeetsAcc (.hst a0 0 3 1 0) tag ∧ MeetsAcc (.hld a0 0 3 1 0) tag := by
  have e : (tag.rA 1 + (0 : BitVec 8).signExtend 64 * 32).toNat = 0x200000 := by decide +kernel
  refine ⟨⟨_, .hst, ready_taAt _ (by decide), ?_⟩, ⟨_, .hld, ready_taAt _ (by decide), ?_⟩⟩
  · show GlobalOk true none false 32 (tag.rA 1 + (0 : BitVec 8).signExtend 64 * 32).toNat tag
    rw [e]; exact global_ta _ _ _ _ (by decide)
  · show GlobalOk false none false 32 (tag.rA 1 + (0 : BitVec 8).signExtend 64 * 32).toNat tag
    rw [e]; exact global_ta _ _ _ _ (by decide)
/-- The last word of the scratchpad, and the first. -/
theorem scratch_ta (wr : Bool) : ScratchOk wr 0 0x2FFFF8 8 (taAt 0x2FFFF8) ∧ ScratchOk wr 0 0 128 (taAt 0) := by
  cases wr <;> exact ⟨⟨by decide, by decide, by decide +kernel, by decide +kernel, by decide +kernel, by decide +kernel, by decide +kernel, by decide +kernel,
      by decide +kernel⟩,
    ⟨by decide, by decide, by decide +kernel, by decide +kernel, by decide +kernel, by decide +kernel, by decide +kernel, by decide +kernel,
      by decide +kernel⟩⟩
theorem addr_last : addr 1 0 0 8 (taAt 0x2FFFF8) = 0x2FFFF8 := by decide +kernel
theorem witness_scratchLoad : ∃ r b, ScratchLoad (.aLd a0 0 true .w64 2 1 0 0) r b ∧ AReady r.wait r.push r.srcs r.dsts r.extra (taAt 0x2FFFF8) ∧
    r.need (taAt 0x2FFFF8) :=
  ⟨_, _, .aLd, ready_taAt _ (by decide), by
    show ScratchOk false 0 (addr 1 0 0 8 (taAt 0x2FFFF8)) 8 (taAt 0x2FFFF8)
    rw [addr_last]; exact (scratch_ta false).1⟩
theorem witness_scratchVector : ∃ r b, ScratchLoad (.ldq a0 0 true 0 1 0 0) r b ∧ AReady r.wait r.push r.srcs r.dsts r.extra (taAt 0) ∧
    r.need (taAt 0) :=
  ⟨_, _, .ldqV (by decide), ready_taAt _ (by decide), by
    show ScratchOk false 0 (addr 1 0 0 128 (taAt 0)) 128 (taAt 0)
    rw [show addr 1 0 0 128 (taAt 0) = 0 by decide +kernel]; exact (scratch_ta false).2⟩
theorem witness_scratchStore : ∃ r b, ScratchStore (.aSt a0 0 true .w64 28 1 0 0) r b ∧
    AReady r.wait r.push r.srcs r.dsts r.extra (taAt 0x2FFFF8) ∧ r.need (taAt 0x2FFFF8) :=
  ⟨_, _, .aSt, ready_taAt _ (by decide), by
    show ScratchOk true 0 (addr 1 0 0 8 (taAt 0x2FFFF8)) 8 (taAt 0x2FFFF8)
    rw [addr_last]; exact (scratch_ta true).1⟩
theorem witness_scratchFrame : AReady none none [28, 1, 0] [] [] (taAt 0x2FFFF8) ∧
    ScratchOk true 0 (addr 1 0 0 (atySize .w64) (taAt 0x2FFFF8)) (atySize .w64) (taAt 0x2FFFF8) ∧
    ((taAt 0x2FFFF8).core (taAt 0x2FFFF8).turn.core).sp.wf = true :=
  ⟨ready_taAt _ (by decide), by rw [show atySize .w64 = 8 from rfl, addr_last]; exact (scratch_ta true).1, by decide +kernel⟩

/-! ### The other words of stream A -/
def MeetsW (T : Instr → AForm → (State → State) → Prop) (i : Instr) (s : State) : Prop :=
  ∃ r f, T i r f ∧ AReady r.wait r.push r.srcs r.dsts r.extra s ∧ r.need s
theorem noOps_ta (v : DWord) : (taAt v).tb.ops = [] := rfl
theorem witness_seal : MeetsW RetireForm .seal (taAt 0) ∧
    MeetsW RetireForm .seal ((taAt 0).modTb fun b => { b with sealed := true }) :=
  ⟨⟨_, _, .seal, ready_taAt _ (by decide), by decide +kernel, by unfold AllPerformed; decide +kernel⟩,
    ⟨_, _, .sealAgain, ⟨rfl, rfl, rfl, rfl, (by intro n h; cases h), by decide, by decide, by decide⟩, by decide +kernel⟩⟩
theorem witness_fence : MeetsW RetireForm (.fenceRel a0 .core) (taAt 0) :=
  ⟨_, _, .fenceRel, ready_taAt _ (by decide), by decide +kernel, by rw [noOps_ta]; intro o h; cases h⟩
/-- A member of Col barrier 3. -/
def taCol : State := (taAt 0).modTb fun b => { b with unit := b.unit.map fun u => { u with colmask := 8 } }
theorem ready_taCol : AReady none none [] [] [] taCol :=
  ⟨rfl, rfl, rfl, rfl, (by intro n h; cases h), by decide, by decide, by decide⟩
theorem witness_colarr : MeetsW RetireForm (.colarrRel a0 3) taCol :=
  ⟨_, _, .colarrRel, ready_taCol, by decide +kernel, by decide +kernel, ⟨_, rfl, by decide +kernel⟩, by decide +kernel⟩
theorem witness_colwait : MeetsW RetireForm (.colwait a0 3) taCol :=
  ⟨_, _, .colwait, ready_taCol, by decide +kernel, by decide +kernel, fun _ => by decide +kernel⟩
theorem witness_aSysr : MeetsW RetireForm (.aSysr a0 28 0x0B0) (taAt 0) :=
  ⟨_, _, .sysr (w := ((taAt 0).readReg 0x0B0).getD 0), ready_taAt _ (by decide), by decide, by decide +kernel⟩
def f32Handle (rows cols : Nat) : BitVec 256 :=
  withPitch (4 * cols) (withCols cols (withRows rows (setBits (setBits 0 57 4 0) 0 57 0x200000)))
def taHandle : State := (taAt 0).modTb fun b => { b with h := b.h.set 1 (f32Handle 4 4), a := (b.a.set 2 0).set 3 0x0000000200000003 }
theorem ready_taHandle {srcs : List (Fin 32)} (h : ∀ n ∈ srcs, n.val < 28) : AReady none none srcs [] [] taHandle := by
  refine ⟨rfl, rfl, rfl, rfl, ?_, ?_, by decide, by decide⟩
  · intro n _ _ _
    refine ⟨?_, ?_⟩
    · intro x hx; rw [show taHandle.tb.aReady = [] from rfl] at hx; cases hx
    · intro o ho; rw [show taHandle.tb.ops = [] from rfl] at ho; cases ho
  · intro n hn hk; have := h n hn; omega
theorem witness_hview : MeetsW RetireForm (.hview a0 2 1 2) taHandle :=
  ⟨_, _, .hview, ready_taHandle (by decide), by decide +kernel, by unfold viewBad; decide +kernel, by decide +kernel⟩
/-- The last tile, and one tile too many. -/
theorem witness_give : MeetsW RetireForm (.give a0 1 0) (taAt 767) :=
  ⟨_, _, .give, ready_taAt _ (by decide), by decide +kernel, by
    intro t h1 h2
    have e : ((taAt 767).rA 1).toNat = 767 := by decide +kernel
    rw [e] at h1 h2
    obtain rfl : t = 767 := by simp at h2; omega
    decide +kernel⟩
def aRing : Ring :=
  { base := 8, count := 4, prod := 0, cons := 0, head := 0, tail := 0, clm := 0, nfill := 0, nclaim := 0, nres := 0, res := [] }
theorem witness_lwait : MeetsW RetireForm (.lcancel a0 3 1) (taAt 0) :=
  ⟨_, _, .lcancelNothing, ready_taAt _ (by decide), by decide +kernel⟩
theorem witness_evset : MeetsW LaterForm (.evset a0 1 (.ctx 0)) (taAt 255) := ⟨_, _, .evset, ready_taAt _ (by decide), by
  show ((taAt 255).rA 1).toNat < 256; decide +kernel⟩
/-- The system context of core 0 at stream A. -/
def taSystem : State :=
  let s := (taAt 0).modBank 0 2 fun b =>
    { b with st := .running, unit := some { fetchUnit 1 0 0 with mLen := 1 }, left := 1, a := (b.a.set 1 0x200000).set 2 4096 }
  { s with turn := { s.turn with ctx := 2 } }
theorem ready_taSystem : AReady none none [1, 2] [] [] taSystem := by
  refine ⟨rfl, rfl, rfl, rfl, ?_, by decide, by decide, by decide⟩
  intro n _ _ _
  refine ⟨?_, ?_⟩
  · intro x hx; rw [show taSystem.tb.aReady = [] from rfl] at hx; cases hx
  · intro o ho; rw [show taSystem.tb.ops = [] from rfl] at ho; cases ho
theorem witness_tlbinv : MeetsW LaterForm (.tlbinv a0 1 2) taSystem :=
  ⟨_, _, .tlbinv, ready_taSystem, by decide +kernel, by decide +kernel, by decide +kernel⟩
theorem witness_aSysw : AReady none none [1] [] [] (taAt 5) ∧ (taAt 5).mayWriteReg 0x020 = true ∧ (taAt 5).resetBusy 0x020 = false :=
  ⟨ready_taAt _ (by decide), by decide +kernel, by decide +kernel⟩
theorem witness_aTrap : AReady none none [] [] [] (taAt 0) ∧ (taAt 0).turn.ctx.val < 2 ∧ Untraced (taAt 0) ∧ NoExecution (taAt 0) :=
  ⟨ready_taAt _ (by decide), by decide +kernel, by intro u hu; rw [unit_ta] at hu; cases hu; decide +kernel,
    idle_of (by decide +kernel) (by decide +kernel)⟩
/-- Handles 1 and 2 over tiles that the engines own. -/
def taCopy : State :=
  ((taHandle.modTb fun b => { b with h := b.h.set 2 (f32Handle 4 4) }).modCore 0 fun c => c.setOwner 0 768 true).modDie 0 fun d =>
    { d with tlb := [{ base := 0, size := 2 ^ 30, pa := 0, attr := 0x10A }] }
theorem noOps_taCopy : taCopy.tb.aReady = [] ∧ taCopy.tb.ops = [] := by decide +kernel
theorem ready_taCopy {srcs : List (Fin 32)} (h : ∀ n ∈ srcs, n.val < 28) : AReady none none srcs [] [] taCopy := by
  refine ⟨rfl, rfl, rfl, rfl, ?_, ?_, by decide, by decide⟩
  · intro n _ _ _
    refine ⟨?_, ?_⟩
    · intro x hx; rw [noOps_taCopy.1] at hx; cases hx
    · intro o ho; rw [noOps_taCopy.2] at ho; cases ho
  · intro n hn hk; have := h n hn; omega
theorem copyReady_ta (glob : Bool) : CopyReady l0 none glob taCopy :=
  ⟨by decide +kernel, fun _ => by decide +kernel, by decide +kernel, (by
    intro o ho; rw [show taCopy.tb.live = [] by decide +kernel] at ho; cases ho), by decide +kernel, by decide +kernel, by intro r h; cases h⟩
theorem witness_cpy : ∃ r c, CopyForm (.cpy l0 true true none 1 2) r c ∧ AReady r.wait r.push r.srcs r.dsts r.extra taCopy ∧ r.need taCopy :=
  ⟨_, _, .cpy, ready_taCopy (by decide), copyReady_ta _,
    by decide +kernel, by decide +kernel, by decide +kernel, by decide +kernel, by intro a h; cases h⟩
theorem witness_cpm : ∃ r c, CopyForm (.cpm l0 1 2 0) r c ∧ AReady r.wait r.push r.srcs r.dsts r.extra taCopy ∧ r.need taCopy :=
  ⟨_, _, .cpm, ready_taCopy (by decide), copyReady_ta _, by decide +kernel, by decide +kernel, by decide +kernel⟩

/-! ### Stream M -/
/-- The same unit with its turn at stream M; core 0 holds the lease of its cluster, and rings 1, 2 and 3 feed and drain the
array. -/
def tm : State :=
  (((State.reset.withFetchWord 128 0).modTb fun b =>
    { b with
      k := b.k.set 1 5
      rings := ((b.rings.set 1 (some { aRing with prod := 1, cons := 2, nfill := 4 })).set 2
        (some { aRing with base := 16, prod := 1, cons := 2, nfill := 4 })).set 3 (some { aRing with base := 24, prod := 2, cons := 1 }) }).modCluster 0
    (fun c => { c with holder := some 0 })).modCore 0 fun c => c.setOwner 0 768 true
theorem kFree_tm : ∀ r : Fin 8, tm.kPending tm.turn.core tm.turn.ctx r = false := by decide +kernel
theorem ready_tm {ks : List (Fin 8)} : MReady m0 ks tm :=
  ⟨by decide +kernel, by decide +kernel, by decide +kernel, by decide +kernel, fun h => absurd h (by decide +kernel), fun r _ => kFree_tm r⟩
def MeetsM (T : Instr → MForm → Prop) (i : Instr) (s : State) : Prop := ∃ r, T i r ∧ MReady r.hdr r.ks s ∧ r.need s
theorem witness_mlease : MeetsM MWordForm (.mlease m0) tm := ⟨_, .mlease, ready_tm, by unfold Holds; decide +kernel⟩
theorem witness_mbnz : MeetsM MWordForm (.mbnz m0 1 0xFFF) tm ∧ MeetsM MWordForm (.mbnz m0 0 3) tm :=
  ⟨⟨_, .mbnzTaken, ready_tm, by decide +kernel, by decide +kernel⟩, ⟨_, .mbnzTaken, ready_tm, by decide +kernel, by decide +kernel⟩⟩
theorem holds_tm : Holds tm := by unfold Holds; decide +kernel
def MeetsC (i : Instr) (s : State) : Prop := ∃ r, MCmdForm i r ∧ MReady r.hdr r.ks s ∧ Holds s ∧ r.need s
theorem witness_mzero : MeetsC (.mzero m0 3 true) tm :=
  ⟨_, .mzero, ready_tm, holds_tm, by unfold AccFree; decide +kernel, by unfold ArrayRoom; decide +kernel⟩
theorem witness_mdrain : MeetsC (.mdrain m0 true false false 3 0 .bf16 none) tm :=
  ⟨_, .mdrain (x := { aRing with base := 24, prod := 2, cons := 1 }), ready_tm, holds_tm, by unfold AccFree; decide +kernel, by decide +kernel,
    by unfold ArrayRoom; decide +kernel, by decide +kernel, by decide +kernel, by decide +kernel, by decide +kernel⟩
theorem witness_mpred : MeetsC (.mpred m0 1 2 .f8 .bf16 2 1) tm :=
  ⟨_, .mpred (x := { aRing with prod := 1, cons := 2, nfill := 4 }) (y := { aRing with base := 16, prod := 1, cons := 2, nfill := 4 }) (by decide),
    ready_tm, holds_tm, by decide +kernel, by decide +kernel, by unfold ArrayRoom; decide +kernel, by unfold Feeds; decide +kernel,
    by unfold Feeds; decide +kernel⟩
theorem witness_mmul : MeetsC (.mmul m0 true false 1 2 0 4 .bf16 .bf16 false false 3 4 false false) tm :=
  ⟨_, .mmul (x := { aRing with prod := 1, cons := 2, nfill := 4 }) (y := { aRing with base := 16, prod := 1, cons := 2, nfill := 4 }) (by decide),
    ready_tm, holds_tm, by unfold AccFree; decide +kernel, by decide +kernel, by unfold ArrayRoom; decide +kernel, by unfold Feeds; decide +kernel,
    by unfold Feeds; decide +kernel, ⟨by decide +kernel, by decide +kernel, by decide +kernel⟩, ⟨by decide +kernel, by decide +kernel, by decide +kernel⟩,
    by decide +kernel, by decide, by decide +kernel, by decide, by decide⟩

/-! ### Steps between words -/
theorem of_need {need : State → Prop} {f : State → State} {s : State} (h : need s) : (becomesIf need f).need s := h
def at0 : EvArgs := EvArgs.at 0 0
/-- The unit of `taAt 0` with the step's arguments. -/
def te (a : EvArgs) (f : Bank → Bank) : State := { ((taAt 0).modTb f).modDie 0 (fun d =>
  { d with tlb := [{ base := 0, size := 2 ^ 30, pa := 0, attr := 0x10B }] }) with ev := a }
theorem witness_xCycle : MeetsE StreamEvent .xResultLanding txStores := ⟨_, .xCycle, by show (evBank txStores).xsysw = []; decide +kernel⟩
theorem witness_landing : MeetsE StreamEvent .xResultLanding (txFlight (fl 5 1) 3) ∧ MeetsE StreamEvent .xResultLanding (txFlight (fl 55 1) 1) :=
  ⟨⟨_, .lands (f := fl 5 1), by decide +kernel, by decide +kernel, by decide +kernel, by decide +kernel, by decide +kernel, by decide +kernel⟩,
    ⟨_, .lx (f := fl 55 1), by decide +kernel, by decide +kernel, by decide +kernel, by decide +kernel⟩⟩
theorem witness_tokenPoppable : MeetsE StreamEvent .tokenPoppable
    (te { at0 with n := 15 } fun b => { b with flags := b.flags.set 15 { b.flag 15 with travel := 1 } }) := ⟨_, .tokenPoppable, of_need (by decide +kernel)⟩
theorem witness_entryAX : MeetsE StreamEvent .queueEntryPoppable (te { at0 with n := 8 } id) := ⟨_, .entryAX, of_need (by decide +kernel)⟩
theorem witness_entryXA : MeetsE StreamEvent .queueEntryPoppable (te { at0 with n := 16 } id) := ⟨_, .entryXA, of_need (by decide +kernel)⟩
theorem witness_retiresPush : MeetsE StreamEvent .aWordRetire (te { at0 with flag := true, n := 16 } id) := ⟨_, .retiresPush, of_need (by decide +kernel)⟩
def anOp (body : AccBody) (dst : ADst) : AOp :=
  { id := 7, pc := 0, sfc := 0, va := 0x200000, cls := 0, body := body, dst := dst, push := none, after := [], acquire := false,
    confirmed := false, performed := false, doneTo := 0, got := [], xlat := [], result := 0, fault := 0, answer := none }
def withOps (l : List AOp) (b : Bank) : Bank := { b with ops := l }
theorem witness_retiresLoad : MeetsE StreamEvent .aWordRetire
    (te { at0 with id := 7 } (withOps [{ anOp (.load 4) (.areg 27 4 true) with performed := true, result := 5 }])) :=
  ⟨_, .retiresLoad (o := { anOp (.load 4) (.areg 27 4 true) with performed := true, result := 5 }) (n := 27) (size := 4) (sx := true),
    of_need (by decide +kernel)⟩
theorem witness_retiresStore : MeetsE StreamEvent .aWordRetire
    (te { at0 with id := 7 } (withOps [{ anOp (.store [1]) .none with performed := true, push := some 0 }])) :=
  ⟨_, .retiresStore (o := { anOp (.store [1]) .none with performed := true, push := some 0 }) (f := 0), of_need (by decide +kernel)⟩
theorem untraced_te {a : EvArgs} {f : Bank → Bank} (h : (te a f).tb.unit = some (fetchUnit 2 0 0)) : Untraced (te a f) := by
  intro u hu; rw [h] at hu; cases hu; exact (show ((false && _ : Bool)) = false by rfl)
theorem placeUntraced_te {a : EvArgs} {f : Bank → Bank} (h : (evBank (te a f)).unit = some (fetchUnit 2 0 0)) :
    PlaceUntraced (evBank (te a f)) (te a f) := by
  intro u hu; rw [h] at hu; cases hu; exact (show ((false && _ : Bool)) = false by rfl)
theorem witness_waitBound : MeetsE StreamEvent .waitBound (te at0 fun b => { b with aWait := some { obj := 7, detail := 1, since := 0 } }) :=
  ⟨_, .waitBound (w := { obj := 7, detail := 1, since := 0 }), by decide +kernel, by decide +kernel, untraced_te (by decide +kernel), by decide +kernel,
    by decide +kernel⟩
theorem witness_stampOverrun : MeetsE StreamEvent .stampOverrun (te at0 id) ∧ MeetsE StreamEvent .breakpoint (te at0 id) :=
  ⟨⟨_, .stampOverrun, by decide +kernel, untraced_te (by decide +kernel), by decide +kernel⟩,
    ⟨_, .breakpoint, by decide +kernel, untraced_te (by decide +kernel), by decide +kernel⟩⟩
theorem witness_boundary : MeetsE StreamEvent .boundaryCauseDelivery
    (te at0 fun b => { b with pending := [{ cause := 16, detail0 := 1, detail1 := 2 }] }) :=
  ⟨_, .boundary (x := { cause := 16, detail0 := 1, detail1 := 2 }) (l := []) (k := 0), by decide +kernel, by decide +kernel,
    placeUntraced_te (by decide +kernel), placeIdle_of (by decide +kernel) (by decide +kernel)⟩
def aRot : Rot := { bank := 0, src := 0, dst := 1, push := none, since := 3 }
/-- A rotation that has waited for its partners since cycle 3. -/
def teBound : State := (te { at0 with flag := true, id := 3 } id).modCore 0 fun c => { c with rot := some aRot }
theorem witness_rotationBound : MeetsE StreamEvent .waitBound teBound :=
  ⟨_, .rotationBound (k := 0) (x := aRot), by decide +kernel, by decide +kernel, by decide +kernel, by decide +kernel, by decide +kernel,
    by decide +kernel, by decide +kernel, (by
      intro u hu
      rw [show (evBank teBound).unit = some (fetchUnit 2 0 0) by decide +kernel] at hu
      cases hu; decide +kernel), placeIdle_of (by decide +kernel) (by decide +kernel)⟩
theorem witness_copyFault : MeetsE StreamEvent .copyFault (te at0 id) ∧ MeetsE StreamEvent .oredFull (te at0 id) :=
  ⟨⟨_, .copyFault, of_need (by decide +kernel)⟩, ⟨_, .oredFull, of_need (by decide +kernel)⟩⟩
/-- d1 = [0, 9], d2 = [3, 3], and a woken entry d1 ≠ d2 (c = 0 + 1 × d2). -/
def aRun : DomRun := { n := 0, limit := 0, pc := 0, delay := false, start := 0, word := 0 }
def anEntry : Standing := { op := .ne, c := 0, a := 1, b := 2, k := 0 }
def teRun : State := te at0 fun b =>
  { b with dom := { b.dom with
      d := (b.dom.d.set 1 { lo := 0, hi := 9, win := 0x3FF }).set 2 { lo := 3, hi := 3, win := 1 }
      table := [anEntry], queue := [0], run := some aRun } }
theorem witness_settles_run : MeetsE StreamEvent .propagationRun teRun :=
  ⟨_, .settles (e := 0) (en := anEntry) (q := []) (r := aRun), ⟨by decide +kernel, by decide +kernel, by decide +kernel, by decide +kernel,
    by decide +kernel⟩, by decide +kernel, by decide +kernel⟩
theorem witness_handlerWaits : MeetsE StreamEvent .handlerStart
    ((te at0 (withOps [anOp (.load 4) .none])).modCore 0 fun c => { c with handling := some 0 }) := ⟨_, .handlerWaits (k := 0), of_need (by decide +kernel)⟩
theorem witness_registerWrite : MeetsE StreamEvent .registerWrite (te { at0 with n := 0x081, w := 3 } id) ∧
    MeetsE StreamEvent .registerWrite (te { at0 with n := 0x0D3 } id) :=
  ⟨⟨_, .registerWrite .leasecyc, of_need (by decide +kernel)⟩, ⟨_, .registerWrite .perfidx, of_need (by decide +kernel)⟩⟩
theorem witness_lcWrite : MeetsE StreamEvent .lcWrite (te { at0 with st := .a } id) ∧ MeetsE StreamEvent .lcWrite (te { at0 with st := .x } id) :=
  ⟨⟨_, .lcWrite, of_need (by decide +kernel)⟩, ⟨_, .lcWriteX, of_need (by decide +kernel)⟩⟩
theorem witness_controlWrites : MeetsE StreamEvent .trcctlWrite (te at0 id) ∧
    MeetsE StreamEvent .trcctlWrite ((te at0 id).modDev fun d => { d with actfeat := 0xFFFF }) ∧
    MeetsE StreamEvent .replayctlWrite (te at0 id) ∧ MeetsE StreamEvent .replayctlWrite ((te at0 id).modDev fun d => { d with actfeat := 0xFFFF }) :=
  ⟨⟨_, .trcctlWrite, of_need (by decide +kernel)⟩, ⟨_, .trcctlOpens, by decide +kernel, by decide +kernel⟩, ⟨_, .replayctlWrite, of_need (by decide +kernel)⟩,
    ⟨_, .replayctlMode, by decide +kernel, by decide +kernel, by decide +kernel⟩⟩
def notPeer : Loc → Bool | .peer _ _ => false | _ => true
theorem arrives_te (o : AOp) (l : List AOp)
    (h : (o, l) ∈ [(anOp (.load 4) .none, []), (anOp (.store [1, 2]) .none, []), (anOp (.atomic .add false 5 0 true) .none, []),
      ({ anOp (.load 4) .none with after := [6] }, [{ anOp (.load 4) .none with id := 6 }])]) :
    Arrives o (te { at0 with id := 7 } (withOps (l ++ [o]))) := by
  simp only [List.mem_cons, List.not_mem_nil, or_false, Prod.mk.injEq] at h
  rcases h with ⟨rfl, rfl⟩ | ⟨rfl, rfl⟩ | ⟨rfl, rfl⟩ | ⟨rfl, rfl⟩ <;>
  exact ⟨by decide +kernel, by decide +kernel, by decide +kernel, by decide, by decide +kernel, by decide +kernel⟩
theorem mayPerform_te (o : AOp) (h : o ∈ [anOp (.load 4) .none, anOp (.store [1, 2]) .none, anOp (.atomic .add false 5 0 true) .none]) :
    MayPerform o (te { at0 with id := 7 } (withOps [o])) := by
  simp only [List.mem_cons, List.not_mem_nil, or_false] at h
  have hp (v : Nat) (s : State) (p : Fin 8) (h : notPeer (s.locate p v) = true) (a off : Nat) : s.locate p v ≠ .peer a off := by
    intro e; rw [e] at h; cases h
  have hm (a : EvArgs) (f : Bank → Bank) (d : Fin 8) (k : Fin 2) : ((te a f).stack d k).merges = [] :=
    (show ∀ (d : Fin 8) (k : Fin 2), ((te at0 id).stack d k).merges = [] by decide +kernel) d k
  rcases h with rfl | rfl | rfl <;>
  exact ⟨arrives_te _ [] (by decide +kernel), by decide +kernel, by decide +kernel, fun v hv => hp v _ _ (by revert v; decide +kernel),
    hm _ _, by decide +kernel, by decide +kernel⟩
theorem witness_loadAtOwner : MeetsE StreamEvent .globalAccessAtOwner (te { at0 with id := 7 } (withOps [anOp (.load 4) .none])) :=
  ⟨_, .loads (o := anOp (.load 4) .none) (n := 4), mayPerform_te _ (.head _), rfl, by intro a i h; cases h⟩
theorem inDie_te (n : Nat) (f : Bank → Bank) (h : n ≤ 4) (hp : (evBank (te { at0 with id := 7 } f)).part = 0)
    (hl : ∀ i, i < 4 → ∃ a, (te { at0 with id := 7 } f).locate 0 (0x200000 + i) = .dev 0 (0x200000 + i) a ∧ attrIRR a = false) :
    InDie (evBank (te { at0 with id := 7 } f)).part 0x200000 n 0 0x200000 (te { at0 with id := 7 } f) := by
  intro i hi; rw [hp]; exact hl i (by omega)
theorem witness_storeAtOwner : MeetsE StreamEvent .globalAccessAtOwner (te { at0 with id := 7 } (withOps [anOp (.store [1, 2]) .none])) :=
  ⟨_, .stores (o := anOp (.store [1, 2]) .none) (l := [1, 2]) (d := 0) (pa := 0x200000), mayPerform_te _ (.tail _ (.head _)), rfl,
    inDie_te _ _ (by decide) (by decide +kernel) (by
      have h : ∀ i, i < 4 → (te { at0 with id := 7 } (withOps [anOp (.store [1, 2]) .none])).locate 0 (0x200000 + i) =
        .dev 0 (0x200000 + i) 0x10B := by decide +kernel
      intro i hi; exact ⟨_, h i hi, by decide⟩), by unfold UndoRoom; decide +kernel, by decide +kernel⟩
theorem witness_atomicAtOwner : MeetsE StreamEvent .globalAccessAtOwner
    (te { at0 with id := 7 } (withOps [anOp (.atomic .add false 5 0 true) .none])) :=
  ⟨_, .atomics (o := anOp (.atomic .add false 5 0 true) .none) (d := 0) (pa := 0x200000), mayPerform_te _ (.tail _ (.tail _ (.head _))), rfl,
    by decide, by decide, inDie_te _ _ (by decide) (by decide +kernel) (by
      have h : ∀ i, i < 4 → (te { at0 with id := 7 } (withOps [anOp (.atomic .add false 5 0 true) .none])).locate 0 (0x200000 + i) =
        .dev 0 (0x200000 + i) 0x10B := by decide +kernel
      intro i hi; exact ⟨_, h i hi, by decide⟩), by unfold UndoRoom; decide +kernel, by decide +kernel, by decide +kernel⟩
theorem witness_accessWaits : MeetsE StreamEvent .globalAccessAtOwner
    (te { at0 with id := 7 } (withOps [{ anOp (.load 4) .none with id := 6 }, { anOp (.load 4) .none with after := [6] }])) :=
  ⟨_, .accessWaits (o := { anOp (.load 4) .none with after := [6] }), arrives_te _ [{ anOp (.load 4) .none with id := 6 }] (by decide +kernel),
    by decide +kernel, { anOp (.load 4) .none with id := 6 }, by decide +kernel, .inl (by decide)⟩
theorem noAgenda_te (a : EvArgs) (r : Requester) : ∀ x ∈ (te a id).agenda, x.serves r = false := by
  intro x hx; rw [show (te a id).agenda = [] from (show (taAt 0).agenda = [] by decide +kernel)] at hx; cases hx
theorem witness_walk : MeetsE StreamEvent .pageTableWalk (te { at0 with va := 0x200000, req := .access 0 0 7 } id) := by
  refine ⟨_, .walk (base := 0) (size := 2 ^ 30) (pa := 0) (at_ := 0x10B) (g := 0) (k := 0) (id := 7), ?_, by decide, rfl, noAgenda_te _ _⟩
  decide +kernel
theorem witness_freezes : MeetsE StreamEvent .pageFaultFreeze (te { at0 with id := 7 } (withOps [anOp (.load 4) .none])) :=
  ⟨_, .freezes (o := anOp (.load 4) .none), by decide +kernel, by decide, by decide, by decide +kernel, by decide +kernel⟩
def aJob : Job := Job.fresh 0 1 0 0 (Vector.replicate 64 none)
def inJob (j : Job) (s : State) : State := s.modPart 0 fun q => { q with job := some j }
theorem witness_batch : MeetsE StreamEvent .faultBatchTimer (inJob { aJob with batchFrom := some 3 } (te at0 id)) := ⟨_, .timer, _, rfl, rfl, by decide⟩
def aFault : PageFault := { va := 0x200000, kind := 2, wr := false, who := .channel 0 5, time := 0, reported := true, pri := none, batch := 0 }
def aCopy : CopyCmd := { CopyCmd.blank .cpy with id := 5, src := some (0, 0), st := .stalled, rows := 4 }
def teFault (f : PageFault) (a : EvArgs) : State := inJob { aJob with faults := [f] } ((te a id).modDie 0 fun d => { d with copies := [aCopy] })
theorem channelFault_te (f : PageFault) (h : f.who = .channel 0 5) (a : EvArgs) (hp : a.p = 0) : ChannelFault 0 5 f aCopy (teFault f a) := by
  have hp' : (teFault f a).ev.p = 0 := hp
  exact ⟨⟨{ aJob with faults := [f] }, by rw [hp']; rfl, rfl⟩, by rw [hp']; rfl, h, rfl, ⟨rfl, rfl⟩,
    fun x hx => noAgenda_te a _ x (show x ∈ (taAt 0).agenda from hx)⟩
theorem witness_faultRetry : MeetsE StreamEvent .faultAnswer (teFault aFault { at0 with w := 0, va := 0x200000, n := 1 }) ∧
    MeetsE StreamEvent .faultAnswer (teFault aFault { at0 with w := 1, va := 0x1F0000, n := 2 }) :=
  ⟨⟨_, .answerRetry, channelFault_te aFault rfl _ rfl, by decide, by decide, by decide, by decide⟩,
    ⟨_, .answerFail, channelFault_te aFault rfl _ rfl, by decide, by decide, by decide, by decide⟩⟩
theorem witness_priRetry : MeetsE StreamEvent .priGroupResponse (teFault { aFault with pri := some 3 } { at0 with w := 0, id := 3 }) ∧
    MeetsE StreamEvent .priResponseFailure (teFault aFault at0) :=
  ⟨⟨_, .priRetry, channelFault_te _ rfl _ rfl, by decide, by decide, by decide⟩, ⟨_, .priFail, channelFault_te _ rfl _ rfl⟩⟩
theorem witness_resends : MeetsE StreamEvent .replayListResend
    (te { at0 with id := 7 } fun b => { b with replay := [{ anOp (.load 4) .none with answer := some true }] }) := by
  refine ⟨_, .resends (o := { anOp (.load 4) .none with answer := some true }), ?_, ?_, ?_, ?_⟩ <;> decide +kernel
theorem witness_invalidated : MeetsE StreamEvent .invalidationComplete (te at0 id) := ⟨_, .invalidated (p := []), of_need (by decide +kernel)⟩
theorem witness_slice : MeetsE StreamEvent .bankSwitchTslice (te { at0 with flag := true } fun b => { b with st := .ready }) :=
  ⟨_, .slice, by decide +kernel, by decide +kernel, by decide +kernel, by decide +kernel, by decide +kernel, by decide +kernel,
    by decide +kernel, by decide +kernel, rfl⟩

/-! ### Steps of the engines -/
theorem witness_channel : MeetsE EngineEvent .copyChannelStart
    ((te { at0 with id := 5 } id).modDie 0 fun d => { d with copies := [{ aCopy with st := .queued, srcSp := true, dstSp := true }] }) := by
  refine ⟨_, .channel (c := { aCopy with st := .queued, srcSp := true, dstSp := true }) (n := 4), ?_, ?_, ?_, ?_⟩ <;> decide +kernel
def aRowCopy : CopyCmd :=
  { aCopy with st := .running, srcSp := true, dstSp := true, srcH := f32Handle 4 4, dstH := f32Handle 4 4, counted := true }
theorem witness_row : MeetsE EngineEvent .copyRowCommit
    ((te { at0 with id := 5, w := 1 } id).modDie 0 fun d => { d with copies := [aRowCopy] }) := by
  refine ⟨_, .row (c := aRowCopy) (g := 0) (k := 0), ?_, ?_, ?_, ?_, ?_, ?_, ?_, ?_, ?_, ?_, ?_, ?_, ?_, ?_⟩ <;> decide +kernel
theorem witness_copyEnds : MeetsE EngineEvent .copyCommandComplete
    ((te { at0 with id := 5 } id).modDie 0 fun d => { d with copies := [{ aCopy with st := .finished, push := some 3 }] }) := by
  refine ⟨_, .copyEnds (c := { aCopy with st := .finished, push := some 3 }) (g := 0) (k := 0) (f := 3), ?_, ?_, ?_, ?_, ?_, ?_, ?_, ?_, ?_, ?_, ?_⟩ <;>
    decide +kernel
/-- Every core of cluster 0 gives tile 0 and takes into tile 1. -/
def teRotate : State :=
  { te { at0 with cl := 0 } id with cores := (te at0 id).cores.map fun c => { c with rot := some aRot } }
theorem witness_rotation : MeetsE EngineEvent .rgrotExchangeEnd teRotate :=
  ⟨_, .rotationEnds (a := fun _ => 0) (b := fun _ => 1), by
    show ∀ i, rotTiles teRotate i = some (0, 1); decide +kernel⟩
theorem witness_grant : MeetsE EngineEvent .leaseGrant
    ((te { at0 with n := 7 } id).modCluster 0 fun c => { c with requests := 128 }) :=
  ⟨_, .grant (i := 7), of_need (by decide +kernel)⟩
def teHeld (a : EvArgs) : State := (te a id).modCluster 0 fun c => { c with holder := some 3, granted := 9, used := 64, leasecmd := 64 }
theorem witness_leases : MeetsE EngineEvent .leaseEndCycles (teHeld { at0 with n := 3, id := 9 }) ∧
    MeetsE EngineEvent .leaseEndCommands (teHeld at0) := by
  refine ⟨⟨_, .leaseCycles (h := 3), ?_, ?_, ?_⟩, ⟨_, .leaseCommands (h := 3), ?_, ?_⟩⟩ <;> decide +kernel
/-- A multiply of one dense step, in the array of cluster 0. -/
def aCmd (op : ArrOp) : ArrCmd :=
  { (te at0 id).newCmd op none with id := 7, core := 0, bank := 0, ksteps := 1, fa := .bf16, fb := .bf16, aSlots := [1], bSlots := [2], out := 767 }
def teCmd (a : ArrCmd) (e : EvArgs) : State := (te { e with id := 7 } id).modCluster 0 fun c => { c with cmds := [a], holder := some 0 }
theorem one_cmd (a : ArrCmd) (e : EvArgs) (h : a.id = 7) (hc : e.cl = 0) : StepOf a (teCmd a e) := by
  have hc' : (teCmd a e).ev.cl = 0 := hc
  refine ⟨?_, ?_⟩
  · rw [hc']
    show ([a].find? fun x => x.id == 7) = some a
    simp [h]
  · rw [hc']
    intro x hx _
    exact List.mem_singleton.mp hx
theorem witness_start : MeetsE EngineEvent .arrayCommandStart (teCmd (aCmd .wload) at0) ∧
    MeetsE EngineEvent .arrayCommandStart (teCmd { aCmd .mul with t := true } at0) := by
  refine ⟨⟨_, .startsFetch (a := aCmd .wload) (w := true), of_need ⟨⟨?_, one_cmd _ _ (by decide +kernel) rfl, ?_, ?_, ?_⟩, ?_⟩⟩,
    ⟨_, .mulStarts (a := { aCmd .mul with t := true }), ⟨?_, one_cmd _ _ (by decide +kernel) rfl, ?_, ?_, ?_⟩, ?_, ?_, ?_⟩⟩ <;> decide +kernel
theorem witness_fetch : MeetsE EngineEvent .arraySlotFetch (teCmd (aCmd .mul) at0) ∧
    MeetsE EngineEvent .arraySlotFetch (teCmd (aCmd .wload) { at0 with w := 1, flag := true }) := by
  refine ⟨⟨_, .fetchBegins (a := aCmd .mul) (n := 16), of_need ⟨⟨one_cmd _ _ (by decide +kernel) rfl, ?_, ?_⟩, ?_⟩⟩,
    ⟨_, .loadEnds (a := aCmd .wload), ⟨⟨one_cmd _ _ (by decide +kernel) rfl, ?_, ?_⟩, ?_⟩, ?_, ?_⟩⟩ <;> decide +kernel
theorem witness_kStep : MeetsE EngineEvent .kStepStart (teCmd (aCmd .mul) at0) ∧
    MeetsE EngineEvent .kStepLanding (teCmd { aCmd .mul with zeroed := true } at0) := by
  refine ⟨⟨_, .stepStarts (a := aCmd .mul), one_cmd _ _ (by decide +kernel) rfl, ?_, ?_, ?_⟩,
    ⟨_, .stepLands (a := { aCmd .mul with zeroed := true }), one_cmd _ _ (by decide +kernel) rfl, ?_, ?_, ?_, ?_⟩⟩ <;> decide +kernel
theorem witness_retires : MeetsE EngineEvent .arrayCommandRetire (teCmd { aCmd .zero with push := some 15 } at0) := by
  refine ⟨_, .retires (a := { aCmd .zero with push := some 15 }) (f := 15), one_cmd _ _ (by decide +kernel) rfl, ?_, ?_⟩ <;> decide +kernel
theorem witness_drain : MeetsE EngineEvent .drainStart (teCmd (aCmd .drain) at0) ∧
    MeetsE EngineEvent .drainWrite (teCmd { aCmd .drain with started := some 3 } at0) ∧
    MeetsE EngineEvent .drainWrite (teCmd { aCmd .drain with started := some 3 } { at0 with w := 1 }) := by
  refine ⟨⟨_, .drainStarts (a := aCmd .drain), one_cmd _ _ (by decide +kernel) rfl, ?_, ?_, ?_, ?_, ?_⟩,
    ⟨_, .drainPort (a := { aCmd .drain with started := some 3 }), of_need ⟨⟨one_cmd _ _ (by decide +kernel) rfl, ?_, ?_⟩, ?_⟩⟩,
    ⟨_, .drainWrites (a := { aCmd .drain with started := some 3 }), one_cmd _ _ (by decide +kernel) rfl, ?_, ?_⟩⟩ <;> decide +kernel
theorem witness_others : MeetsE EngineEvent .mzeroEffect (teCmd (aCmd .zero) at0) ∧ MeetsE EngineEvent .msnapWrite (teCmd (aCmd .snap) at0) ∧
    MeetsE EngineEvent .mpredResult (teCmd (aCmd .pred) at0) ∧
    MeetsE EngineEvent .mscanWrite (teCmd { aCmd .scan with started := some 3 } { at0 with w := 1 }) ∧
    MeetsE EngineEvent .msnapWrite (teCmd { aCmd .snap with started := some 3 } { at0 with w := 1 }) := by
  refine ⟨⟨_, .zeroes (a := aCmd .zero), one_cmd _ _ (by decide +kernel) rfl, ?_, ?_, ?_⟩,
    ⟨_, .snapTakes (a := aCmd .snap), of_need ⟨one_cmd _ _ (by decide +kernel) rfl, ?_, ?_⟩⟩,
    ⟨_, .predEnds (a := aCmd .pred), one_cmd _ _ (by decide +kernel) rfl⟩,
    ⟨_, .scanWrites (a := { aCmd .scan with started := some 3 }), ⟨one_cmd _ _ (by decide +kernel) rfl, ?_, ?_⟩, ?_⟩,
    ⟨_, .snapWrites (a := { aCmd .snap with started := some 3 }), ⟨one_cmd _ _ (by decide +kernel) rfl, ?_, ?_⟩, ?_⟩⟩ <;> decide +kernel
theorem witness_replay : MeetsE EngineEvent .arrayReplay (te at0 id) := by
  refine ⟨_, .replayEscalates, of_need ?_⟩; decide +kernel

/-! ### Steps of a job -/
def aQueue : Queue :=
  { base := 0x200000, logsize := 4, graph := false, device := false, ctx := 0, qprio := 0, qcap := 0, cplbase := 0x300000, cpllog := 4, head := 0,
    tail := 0, cpltail := 0, enabled := true, qovf := false, cplstall := false, baddesc := false, checked := false, cancelled := [],
    dropped := [], held := [] }
def aJobWith (q : Queue) : Job := { aJob with queues := aJob.queues.set 0 (some q) }
/-- A doorbell that fills the queue, and one that overflows it. -/
theorem witness_doorbell : MeetsE JobEvent .queueDoorbell (inJob (aJobWith aQueue) (te { at0 with w := 16 } id)) ∧
    MeetsE JobEvent .queueDoorbell (inJob (aJobWith aQueue) (te { at0 with w := 17 } id)) := by
  refine ⟨⟨_, .doorbell (x := aQueue), ?_, ?_, ?_, ?_, ?_⟩, ⟨_, .overflow (x := aQueue), of_need ⟨?_, ?_, ?_⟩⟩⟩ <;>
    first | decide +kernel | rfl
def filled : Queue := { aQueue with tail := 1 }
theorem witness_headCheck : MeetsE JobEvent .queueHeadCheck (inJob (aJobWith filled) (te at0 id)) := by
  refine ⟨_, .rejects (x := filled) (k := 2), of_need ⟨⟨?_, ?_, ?_, ?_, ?_, ?_⟩, ?_, ?_⟩⟩ <;> first | decide +kernel | rfl
def checked : Queue := { filled with checked := true }
theorem witness_dispatch : MeetsE JobEvent .entryDispatch (inJob (aJobWith checked) (te at0 id)) := by
  refine ⟨_, .launches (x := checked), of_need ⟨?_, ?_, ?_⟩⟩ <;> first | decide +kernel | rfl
def fresh (b : Bank) : Bank := { b with unit := some { fetchUnit 2 0 0 with started := false } }
theorem witness_unitStart : MeetsE JobEvent .unitStart (te at0 fresh) :=
  ⟨_, .starts (u := { fetchUnit 2 0 0 with started := false }), of_need ⟨rfl, rfl, by
    intro u hu
    rw [show (evBank (te at0 fresh)).unit = some { fetchUnit 2 0 0 with started := false } from rfl] at hu
    cases hu; decide +kernel⟩⟩
theorem witness_unitCompletes : MeetsE JobEvent .unitCompletion (te at0 fun b => { b with left := 0 }) ∧
    MeetsE JobEvent .unitCompletion (te at0 fun b => { b with left := 0, ops := [anOp (.load 4) .none] }) := by
  refine ⟨⟨_, .completes (u := fetchUnit 2 0 0), of_need ⟨?_, ?_, ?_⟩⟩, ⟨_, .stillOpen (u := fetchUnit 2 0 0), of_need ⟨?_, ?_, ?_⟩⟩⟩ <;> decide +kernel
theorem witness_cancels : MeetsE JobEvent .cancelStop (te at0 fun b => { b with cancelled := true }) :=
  ⟨_, .cancels, of_need (by decide +kernel)⟩
def closing : Job := { aJob with phase := { aJob.phase with closing := true, forced := true } }
theorem witness_phaseClose : MeetsE JobEvent .phaseClose (inJob closing (te at0 id)) := by
  refine ⟨_, .closes (j := closing), ⟨⟨rfl, rfl⟩, ⟨rfl, rfl⟩, rfl, .inl rfl, rfl, ?_⟩⟩
  decide +kernel
def sealing : Job := { aJob with phase := { aJob.phase with closing := true, sealing := true, jobEnd := true } }
theorem witness_sealRise : MeetsE JobEvent .sealInputRise
    (((inJob sealing (te { at0 with d := 0 } id)).modPart 0 fun q => { q with ndies := 2 }).modBank 0 0 fun b => { b with drained := true }) := by
  refine ⟨_, .inputRises (j := sealing), of_need ⟨⟨⟨rfl, rfl⟩, ?_, ?_, ?_, ?_⟩, ?_⟩⟩ <;> decide +kernel
theorem witness_jobEnd : MeetsE JobEvent .phaseOpen (inJob sealing (te at0 id)) ∧ MeetsE JobEvent .jobCompletion (inJob sealing (te at0 id)) :=
  ⟨⟨_, .jobEnd (j := sealing), of_need ⟨⟨rfl, rfl⟩, rfl, rfl, rfl, rfl⟩⟩, ⟨_, .jobCompletes (j := sealing), of_need ⟨rfl, rfl⟩⟩⟩
theorem witness_line : MeetsE JobEvent .sealLineArrival (te at0 id) := by
  refine ⟨_, .lineArrives, ?_, ?_, ?_⟩ <;> decide +kernel
theorem witness_commands : MeetsE JobEvent .closePhase (inJob aJob (te at0 id)) ∧ MeetsE JobEvent .endJob (inJob aJob (te at0 id)) ∧
    MeetsE JobEvent .hostStop (te at0 id) ∧ MeetsE JobEvent .hostResume ((te at0 id).modPart 0 fun q => { q with hstop := true }) :=
  ⟨⟨_, .closePhase (j := aJob), ⟨rfl, rfl⟩, rfl, rfl⟩, ⟨_, .endJob (j := aJob), ⟨rfl, rfl⟩, rfl, rfl⟩,
    ⟨_, .hostStop, rfl, rfl, rfl, rfl⟩, ⟨_, .hostResume, rfl, rfl, rfl⟩⟩
theorem witness_queueReset : MeetsE JobEvent .queueReset ((te at0 id).modPart 0 fun q => { q with qreset := some 3 }) :=
  ⟨_, .resetWaits (q := 3), of_need (by decide +kernel)⟩
theorem witness_swap : MeetsE JobEvent .partitionSwap ((te at0 id).modDev fun d => { d with actfeat := 0x80 }) :=
  ⟨_, .swaps, of_need ⟨rfl, rfl, by decide +kernel⟩⟩
theorem witness_col : MeetsE JobEvent .colInputRise (te { at0 with id := 3 } fun b => { b with colarr := 8 }) := by
  refine ⟨_, .rises, of_need ⟨?_, ?_⟩⟩ <;> decide +kernel
theorem witness_release : MeetsE JobEvent .colReleaseArrival (te { at0 with id := 3 } id) :=
  ⟨_, .arrives, by intro x hx; rw [show (te { at0 with id := 3 } id).agenda = [] by decide +kernel] at hx; cases hx⟩
def anEvOp (set : Bool) : EvOp := { id := 7, ctx := 7, bit := 255, set := set, push := some 3, after := [] }
theorem witness_event : MeetsE JobEvent .evsetEffect (inJob aJob (te { at0 with id := 7 } fun b => { b with evops := [anEvOp true] })) := by
  refine ⟨_, .sets (e := anEvOp true) (l := []) (j := aJob), rfl, rfl, rfl, fun _ => ⟨?_, ?_, ?_⟩⟩
  · intro o _ ho; cases ho
  · intro o _ ho; cases ho
  · decide +kernel
theorem witness_rollback : MeetsE JobEvent .intervalRollback (inJob aJob (te { at0 with n := 41 } id)) ∧
    MeetsE JobEvent .intervalRollback (inJob aJob (te { at0 with n := 44 } id)) := by
  refine ⟨⟨_, .rollsBack, of_need ⟨?_, ?_, ?_, ?_, ?_⟩⟩, ⟨_, .kills, of_need ⟨?_, ?_, ?_⟩⟩⟩ <;> decide +kernel
theorem witness_restart : MeetsE JobEvent .phaseRestart (inJob aJob (te at0 id)) := ⟨_, .restarts (j := aJob), rfl, rfl, rfl, by decide +kernel⟩

/-! ### Steps of the device -/
theorem witness_dvreq : MeetsE DeviceEvent .dvreqWrite (te { at0 with w := 0x6408 } id) ∧ MeetsE DeviceEvent .dvreqWrite (te { at0 with w := 0x6400 } id) ∧
    MeetsE DeviceEvent .dvreqWrite (te { at0 with w := 0x6509 } id) := by
  refine ⟨⟨_, .raises, of_need ⟨⟨?_, ?_, ?_, ?_⟩, ?_⟩⟩, ⟨_, .lowers, of_need ⟨⟨?_, ?_, ?_, ?_⟩, ?_⟩⟩, ⟨_, .denies (k := 2), of_need ?_⟩⟩ <;> decide +kernel
def mail (l : List Byte) : State := (te { at0 with data := l } id).modDev fun d => { d with actfeat := 0xFFFF }
theorem served (l : List Byte) (f : Option Nat) (h : ∀ i, f = some i → (mail l).feature i = true) : Served f (mail l) :=
  ⟨by rw [show (mail l).dev.mbStatus = (mail []).dev.mbStatus from rfl]; decide +kernel, rfl, h⟩
theorem witness_mailbox : MeetsE DeviceEvent .mailboxPwrlim (mail [0x20, 0x03, 0, 0]) ∧ MeetsE DeviceEvent .mailboxPwrlim (mail [0x1F, 0x03, 0, 0]) ∧
    MeetsE DeviceEvent .mailboxOvfext (mail [0, 1, 44, 0, 0, 0]) ∧ MeetsE DeviceEvent .mailboxVmin (mail [7, 8]) ∧
    MeetsE DeviceEvent .mailboxDvreq (mail [7, 8, 15, 255]) ∧ MeetsE DeviceEvent .mailboxStage (mail []) := by
  have sv := fun l => served l none (by intro i h; cases h)
  refine ⟨⟨_, .pwrlim, of_need ⟨sv _, ?_⟩⟩, ⟨_, .pwrlimBad, of_need ⟨sv _, ?_⟩⟩, ⟨_, .ovfext, of_need ⟨sv _, ?_⟩⟩, ⟨_, .vmin, of_need ⟨sv _, ?_⟩⟩,
    ⟨_, .dvreq, of_need ⟨sv _, ?_⟩⟩, ⟨_, .stage, of_need (sv _)⟩⟩ <;> decide +kernel
theorem witness_go : MeetsE DeviceEvent .bootctlGo ((te at0 id).modDev fun d => { d with go := false, stepsOk := true, reqfeat := 0 }) ∧
    MeetsE DeviceEvent .bootctlGo ((te at0 id).modDev fun d => { d with go := false, stepsOk := true, reqfeat := 1, drvfeat := 0 }) := by
  refine ⟨⟨_, .go, ?_, ?_, ?_⟩, ⟨_, .goFails, of_need ⟨?_, ?_, ?_⟩⟩⟩ <;> decide +kernel
theorem witness_boots : MeetsE DeviceEvent .deviceResetStart (te at0 id) := ⟨_, .boots, of_need ⟨rfl, rfl⟩⟩
/-- Pages that hit in their owners' TLBs need no walk. -/
theorem walkNow_hit {s : State} {p : Fin 8} (vas : List Nat) (h : ∀ x ∈ pagesOf vas, s.tlbMiss p x = none) : s.walkNow p vas = s := by
  unfold State.walkNow
  generalize pagesOf vas = l at h
  induction l with
  | nil => rfl
  | cons x l ih =>
    have hx : s.walkPage p x = s := by unfold State.walkPage; rw [h x (.head _)]
    rw [List.foldl_cons, hx]
    exact ih fun y hy => h y (.tail _ hy)
/-- Aperture 2 of partition 0 is bound to port 5. -/
def anAperture : Aperture := { ports := 32, peer := 1, ppart := 0, valid := true, sealgrp := false }
def teSpan (a : EvArgs) : State :=
  ((te { a with port := 5 } id).modDev fun d => { d with actfeat := 0xFFFF }).modPart 0 fun q => { q with apertures := q.apertures.set 2 anAperture }
theorem witness_span : MeetsE DeviceEvent .spanReadRequest (teSpan { at0 with n := 32, va := 0x200000 }) ∧
    MeetsE DeviceEvent .spanWrite (teSpan { at0 with data := [1, 2], va := 0x200000 }) ∧ MeetsE DeviceEvent .spanReadRequest (te at0 id) := by
  refine ⟨⟨_, .spanRead (a := 2) (ap := anAperture), of_need ⟨?_, ?_, ⟨?_, ?_⟩, ?_⟩⟩,
    ⟨_, .spanWrite (a := 2) (ap := anAperture), of_need ⟨?_, ⟨?_, ?_⟩, ?_, ?_, ?_⟩⟩, ⟨_, .unbound, of_need ?_⟩⟩ <;>
    first | (unfold AtHand; exact walkNow_hit _ (by decide +kernel)) | decide +kernel | (unfold Bound; decide +kernel)
theorem witness_host : MeetsE DeviceEvent .inboundHostWrite (te { at0 with va := 0x200000, data := [1] } id) ∧
    MeetsE DeviceEvent .inboundHostWrite (te { at0 with va := 0xFF00000000000000, data := [1] } id) ∧
    MeetsE DeviceEvent .inboundHostRead (te { at0 with va := 0x200000, n := 8 } id) := by
  refine ⟨⟨_, .hostWrites, of_need ⟨⟨?_, .inl ⟨?_, ?_⟩, ?_, ?_⟩, ?_⟩⟩, ⟨_, .hostUnsupported, of_need ⟨⟨?_, .inl ⟨?_, ?_⟩, ?_, ?_⟩, ?_⟩⟩,
    ⟨_, .hostReads, of_need ⟨?_, ?_, ?_, ?_, ?_, ?_⟩⟩⟩ <;>
    first | (unfold AtHand; exact walkNow_hit _ (by decide +kernel)) | decide +kernel | (unfold InTurn; decide +kernel)
theorem witness_registers : MeetsE DeviceEvent .queueTableRegistration (te { at0 with n := 64, va := 0x200000 } id) := by
  refine ⟨_, .registers, ?_, ?_, ?_, ?_, ?_⟩ <;> decide +kernel

/-! ### Steps of the machine -/
/-- Words at the pc: `bne a4, a5, -3` of stream A, `mkli k0, 0x5000` of stream M, `li x5, 0x5678` of stream X. -/
def stepA : State := State.reset.withFetchWord 48 0xA3E42FD10000
def stepM : State := State.reset.withFetchWord 128 0x50000000000000000000000000005000
def stepX : State := State.reset.withFetchWord 64 0x13802802B3C00000
theorem noDue {s : State} (h : s.agenda = []) : NothingDue s := by intro d l e; rw [h] at e; cases e
theorem presents_of {s : State} (h : (s.core s.turn.core).presenting = some s.turn.ctx) (h2 : (s.die (dieOf s.turn.core)).dvfsStopped = false) :
    Presents s := ⟨h, h2⟩
theorem witness_aTurn : ATurn stepA 0xA3E42FD10000 (.bne a0 .branch 4 5 0xFFD) :=
  ⟨noDue (by decide +kernel), presents_of (by decide +kernel) (by decide +kernel), by decide +kernel, by decide +kernel, by decide +kernel,
    by decide +kernel, by decide +kernel, by decide +kernel⟩
theorem witness_mTurn : MTurn stepM 0x50000000000000000000000000005000 (.mkli m0 0 0x5000) :=
  ⟨noDue (by decide +kernel), presents_of (by decide +kernel) (by decide +kernel), by decide +kernel, by decide +kernel, by decide +kernel, by decide +kernel, by decide +kernel⟩
theorem witness_xTurn : XTurn stepX 0 0x13802802B3C00000 (.xLi h0 (.reg 5) 0x5678) :=
  ⟨noDue (by decide +kernel), presents_of (by decide +kernel) (by decide +kernel), by decide +kernel, by decide +kernel, by decide +kernel, by decide +kernel,
    by decide +kernel, by decide +kernel, by decide +kernel⟩
/-- A token that reaches its consumer is due. -/
theorem witness_due : ({ stepA with agenda := [{ at_ := 0, what := .tokenPoppable, args := at0 }] } : State).agenda =
    [{ at_ := 0, what := .tokenPoppable, args := at0 }] := rfl
/-- The step of `mkli` sets k0, and the pc is at the next word. -/
def kAfter (o : Host.Outcome State Fault Refusal) : Option (Word × Word) :=
  match o with | .next t => some ((t.bank 0 0).k.get 0, (t.bank 0 0).mpc) | _ => none
theorem test_step_mkli : kAfter (step stepM) = some (0x5000, 1) := by decide +kernel
/-- The step of `li` puts its result into the landing flight of column 0 (R6). -/
def xAfter (o : Host.Outcome State Fault Refusal) : Option (Vec × Byte) :=
  match o with | .next t => (t.bank 0 0).inflight.head?.map fun f => (f.val, f.dst) | _ => none
theorem test_step_li : xAfter (step stepX) = some (0x5678, 5) := by decide +kernel

theorem witness_memories : MemoriesCanonical State.reset :=
  ⟨by decide +kernel, by decide +kernel, by intro g; exact congrArg (fun c : Core => c.sp.wf) (Vector.getElem_replicate _), by
    intro g; exact congrArg (fun c : Core => c.spShadow.wf) (Vector.getElem_replicate _)⟩
theorem witness_encode : (Instr.mkli m0 0 0x5000).wf = true ∧ encode (.mkli m0 0 0x5000) = some (.m 0x50000000000000000000000000005000) := by decide +kernel

/-! ## WellFormed refuses -/
theorem smoke_widths : (Instr.xBfx h0 false 0 (.reg 1) (.reg 1) (.reg 1)).wf = false ∧ (Instr.xBfi h0 33 (.reg 1) (.reg 1) (.reg 1) (.reg 1)).wf = false ∧
    (Instr.xShli h0 (.reg 1) (.reg 1) 32).wf = false ∧ (Instr.xLea h0 5 (.reg 1) (.reg 1) (.reg 1)).wf = false := by decide
theorem smoke_predicates : (Instr.xCmp h0 .eq 0 (.reg 1) (.reg 1)).wf = false ∧ (Instr.xPmov h0 0 1).wf = false ∧ (Instr.dtestOne h0 0 1).wf = false := by
  decide
theorem smoke_vectors : (Instr.vrsh h0 .i32 1 (.reg 1) (.reg 1) (.reg 1) (.reg 1)).wf = false ∧
    (Instr.vcvt h0 .bf16 .bf16 0 (.reg 1) (.reg 1) (.reg 1)).wf = false := by decide
theorem smoke_control : (Instr.xLoop h0 true (.reg 1) 0).wf = false ∧ (Instr.xLoop h0 true (.reg 1) 32768).wf = false ∧ (Instr.join h0 3 0).wf = false ∧
    (Instr.xPause h0 0).wf = false ∧ (Instr.xPause h0 4096).wf = false := by decide
theorem smoke_tokens : (Instr.xTrap { h0 with wait := some 1 } 5).wf = false ∧ (Instr.eret { h0 with push := some 1 }).wf = false ∧
    (Instr.halt { h0 with wait := some 1 }).wf = false := by decide
theorem smoke_a : (Instr.lda a0 0 .col .w64 1 1 1 0).wf = false ∧ (Instr.fenceSc a0 .col).wf = false ∧ (Instr.rgput a0 1 0).wf = false ∧
    (Instr.rgput a0 1 65).wf = false ∧ (Instr.beq a0 .q 1 2 5).wf = false ∧ (Instr.aLoop a0 false 1 0).wf = false ∧ (Instr.hview a0 1 2 3).wf = false ∧
    (Instr.hshape a0 1 2 28).wf = false := by decide
theorem smoke_m : (Instr.mmul m0 true false 1 2 0 0 .bf16 .bf16 false false 1 2 false false).wf = false ∧
    (Instr.mmul m0 true false 1 2 0 1 .bf16 .bf16 false false 1 0 true false).wf = false ∧
    (Instr.mdrain m0 false false true 3 0 .int8 none).wf = false ∧ (Instr.mpred m0 1 2 .bf16 .bf16 3 1).wf = false ∧ (Instr.mscan m0 1 3 0).wf = false ∧
    (Instr.mloop m0 true (.imm 5) 0).wf = false := by decide

/-! ## Decoding the words that the spec writes out -/
/-- spec/02 R30: `addi a3, a2, -4`. -/
theorem decode_addi : (Words.a 0x3062FFFC0000).decode = .ok (.aAddi a0 3 2 0xFFFC) := by rfl
/-- spec/02 R25: `(p3) vfma.f32 v4, v1, v2, v4 w:f3 p:f5`. -/
theorem decode_vfma : (Words.x 0x21B020081021D600).decode =
    .ok (.vfma { h0 with gp := 3, wait := some 3, push := some 5 } (.reg 4) (.reg 1) (.reg 2) (.reg 4)) := by rfl
/-- spec/07: `lih x5, lx0, 0x1234` and `vmacw.n8 v8, v1, v2, v8, 1, 0`. -/
theorem decode_lih : (Words.x 0x14002A4091A00000).decode = .ok (.xLih h0 (.reg 5) (.lx 0) 0x1234) := by rfl
theorem decode_vmacw : (Words.x 0x3E00400810400011).decode = .ok (.vmacw h0 true 1 0 (.reg 8) (.reg 1) (.reg 2) (.reg 8)) := by rfl
/-- spec/15: `vnzscan.f32 v4, v2, 32`; spec/17: `accrd v1, acc0, x1, x0`. -/
theorem decode_vnzscan : (Words.x 0x4880201500000040).decode = .ok (.vnzscan h0 true (.reg 4) (.reg 2) (.imm 32)) := by rfl
theorem decode_accrd : (Words.x 0x6F80080008000000).decode = .ok (.accrd h0 (.reg 1) 0 (.reg 1) (.reg 0)) := by rfl
/-- spec/08: `dadd.keep d3, d1, d2`; spec/18, spec/19: `trap 5`, `(p1) eret`, `sysw 0x0B4, x6`. -/
theorem decode_dadd : (Words.x 0x5000180810000040).decode = .ok (.dadd h0 true 3 1 2) := by rfl
theorem decode_trap : (Words.x 0x7800000000280000).decode = .ok (.xTrap h0 5) := by rfl
theorem decode_eret : (Words.x 0x7890000000000000).decode = .ok (.eret { h0 with gp := 1 }) := by rfl
theorem decode_sysw : (Words.x 0x7980003005A00000).decode = .ok (.xSysw h0 (.reg 6) 0x0B4) := by rfl
/-- spec/04: `hview h3, h1, a6`; spec/05: `lnch a4, a2, 3`, `evset a5`; spec/10: `ld.n32 a5, [a2 + 64] ac:2`, `give a6, 3`. -/
theorem decode_hview : (Words.a 0xEC6130020000).decode = .ok (.hview a0 3 1 6) := by rfl
theorem decode_lnch : (Words.a 0xE48200300000).decode = .ok (.lnch a0 4 2 3) := by rfl
theorem decode_evset : (Words.a 0xE80500800000).decode = .ok (.evset a0 5 .own) := by rfl
theorem decode_ld : (Words.a 0x40A204100010).decode = .ok (.aLd a0 2 false .n32 5 2 0 16) := by rfl
theorem decode_give : (Words.a 0x9C0600200000).decode = .ok (.give a0 6 2) := by rfl
/-- spec/15, spec/19: `ldd h2, a12, 0`, `stz h0, a8, 0`, and `cpg.gg h2, h1, a11 p:f1`; spec/17: `rgput ring1, 8`, `colsync 0`. -/
theorem decode_ldd : (Words.a 0x540260000000).decode = .ok (.ldd a0 0 false 0 2 12) := by rfl
theorem decode_stz : (Words.a 0x580040000000).decode = .ok (.stz a0 0 false 0 0 8) := by rfl
theorem decode_cpg : (Words.long 0xF441580000C0 0).decode = .ok (.cpg { l0 with push := some 1 } false false none 2 1 11) := by rfl
theorem decode_rgput : (Words.a 0x8C0100080000).decode = .ok (.rgput a0 1 8) := by rfl
theorem decode_colsync : (Words.a 0xCC0000000000).decode = .ok (.colsync a0 0) := by rfl
/-- spec/12 R252: `barc a5, a2, a3`; spec/18: `ctxbank a3, a4`, `tlbinv a6, a7`. -/
theorem decode_barc : (Words.a 0xD0A218000000).decode = .ok (.barc a0 5 2 3) := by rfl
theorem decode_ctxbank : (Words.a 0xE00320050000).decode = .ok (.ctxbank a0 3 4) := by rfl
/-- spec/11: the words of its worked program. -/
theorem decode_mmul : (Words.m 0x10000000000008240211000040000000).decode =
    .ok (.mmul m0 true false 1 2 0 2 .bf16 .bf16 false false 0 1 false false) := by rfl
theorem decode_mdrain : (Words.m 0x30000000000000600000003000000000).decode =
    .ok (.mdrain { m0 with push := some 1 } false false false 3 0 .fp32 none) := by rfl
theorem decode_mlease : (Words.m 0x01000000000000000000000000000000).decode = .ok (.mlease m0) := by rfl
theorem decode_mkli : (Words.m 0x50000000000000000000000200005040).decode = .ok (.mkli m0 1 0x5040) := by rfl
/-- spec/02 R24, R40: an encoding with an illegal field is refused. -/
def refused (w : Words) : Bool := match w.decode with | .ok _ => false | .error _ => true
theorem decode_refuses : refused (.a 0x3062FFFC0001) = true ∧ refused (.m 0x01000000000000000000000000000001) = true ∧
    refused (.x 0x7800000000284000) = true := by decide +kernel

/-! ## Values that the spec works out -/
/-- spec/00, spec/03: the dither at rows 0 and 1 of seed 0. -/
theorem test_dither : ditherJ 0 0 0 = 0 ∧ ditherJ 0 1 0 = 7 := by decide +kernel
/-- spec/03 R51: the digits 1, 0, −1, −1, 1. -/
theorem test_t5 : t5Byte (fun i => if i = 0 ∨ i = 4 then 1 else if i = 1 then 0 else -1) = 0xA7 := by decide +kernel
/-- spec/03 R48: 500.0 to F8 saturates at 0x7F; +∞ as well. -/
theorem test_f8 : (convertElem .rne .fp32 .f8 0x43FA0000).1 = 0x7F ∧ (convertElem .rne .fp32 .f8 0x7F800000).1 = 0x7F ∧
    (convertElem .rne .fp32 .f8 0x40533333).1 = 0x45 ∧ (convertElem .rne .fp32 .f8 0x3A83126F).1 = 0x01 := by decide +kernel
/-- spec/07 R133: 1,000, −1,000 and 100,000 shifted right by 4. -/
theorem test_vrsh : rshVal 1000 4 = 63 ∧ rshVal (-1000) 4 = -62 ∧ rshVal 100000 4 = 6250 := by decide +kernel
/-- spec/12 R252: four arrivals at a word with an expected count of 3. -/
theorem test_barc : barcNew 0 3 = 1 ∧ barcNew 1 3 = 2 ∧ barcNew 2 3 = 0x80000000 ∧ barcNew 0x80000000 3 = 0x80000001 := by decide +kernel

end Sys2Proof.Tests
end

/-! SUPPORT. Vector forms that return bits: what a packed X syllable encodes with, how a vector form without flags delivers,
and what `fmm32` picks (spec/07 R128, R136, R137). -/
namespace Sys2Proof.Machine
open Sys2Proof Sys2Proof.Claims

/-! ## The fields of a packed X syllable (spec/02 R25) -/

@[simp] theorem opField_xPack (f : XFields) : opField (xPack f) = f.op := congrArg XFields.op (xUnpack_xPack f)
@[simp] theorem subField_xPack (f : XFields) : subField (xPack f) = f.sub := congrArg XFields.sub (xUnpack_xPack f)
@[simp] theorem fnField_xPack (f : XFields) : fnField (xPack f) = f.fn := congrArg XFields.fn (xUnpack_xPack f)
@[simp] theorem sbField_xPack (f : XFields) : (xPack f).extractLsb' 27 8 = f.sb := congrArg XFields.sb (xUnpack_xPack f)

/-- An instruction encodes with the OP of the fields that it packs. -/
theorem encodesWith_op {i : Instr} {f : XFields} {op : Byte} (he : encode i = some (.x (xPack f))) (hop : f.op = op) :
    EncodesWith i op none none :=
  ⟨xPack f, he, by rw [opField_xPack, hop], nofun, nofun⟩

/-- An instruction encodes with the OP, SUB and FN of the fields that it packs. -/
theorem encodesWith_op_sub_fn {i : Instr} {f : XFields} {op : Byte} {sub fn : Nat} (he : encode i = some (.x (xPack f)))
    (hop : f.op = op) (hsub : f.sub.toNat = sub) (hfn : f.fn.toNat = fn) : EncodesWith i op (some sub) (some fn) :=
  ⟨xPack f, he, by rw [opField_xPack, hop], by simp [hsub], by simp [hfn]⟩

/-! ## Vector forms without flags -/

/-- A vector form that computes lanes and no flags delivers them. -/
theorem xVector_delivers_lanes {h : XHdr} {d : VDst} {l : Nat} {srcs : List Nat} {f : State → Vec × FFlags} {s : State}
    (r : XReady h srcs s) (hl : ∀ q ∈ srcs, q < 9) {v : State → Nat → Word} (hv : f s = (ofLanes (v s), fNone)) :
    ∃ t, xVector h d l srcs f s = .next t ∧ XDelivers (lanesTo h d l srcs v) s t :=
  xVector_delivers r hl (v := fun s => ofLanes (v s)) (fl := fun _ => fNone) hv

/-- A lane-wise form over two vectors that sets no flags. -/
theorem vBinF_delivers_lanes {h : XHdr} {d : VDst} {a b : VSrc} {s : State} (r : XReady h (vPorts a ++ vPorts b) s)
    (f : Word → Word → Word) :
    ∃ t, vBinF h d a b 2 (fun _ x y => (f x y, fNone)) s = .next t ∧ XDelivers (laneWise h d a b f) s t :=
  xVector_delivers_lanes r (vPorts2_lt a b) (mapF_noFlags _)

/-- A lane-wise form over one vector that sets no flags. -/
theorem vUnF_delivers_lanes {h : XHdr} {d : VDst} {a : VSrc} {l : Nat} {s : State} (r : XReady h (vPorts a) s) (f : Word → Word) :
    ∃ t, vUnF h d a l (fun _ x => (f x, fNone)) s = .next t ∧
      XDelivers (lanesTo h d l (vPorts a) fun s i => f (lane (s.rV a) i)) s t :=
  xVector_delivers_lanes r (vPorts_lt a) (mapF_noFlags _)

/-! ## The lesser and the greater lane (spec/07 R128) -/

theorem isNan32_eq_nanWord (w : Word) : isNan32 w = nanWord w := rfl

theorem fkey_eq_orderKey (w : Word) : fkey w = orderKey w := by
  have hsign : bit w 31 = decide (2 ^ 31 ≤ w.toNat) := BitVec.msb_eq_decide w
  have hfield : field w 0 31 = w.toNat % 2 ^ 31 := rfl
  unfold fkey orderKey
  rw [hsign, hfield]
  by_cases hneg : 2 ^ 31 ≤ w.toNat
  · rw [if_pos (decide_eq_true hneg), if_pos hneg]
  · rw [if_neg (by simpa using hneg), if_neg hneg, Nat.mod_eq_of_lt (by omega)]

theorem fmm32_nan_nan (g : Bool) {a b : Word} (ha : nanWord a = true) (hb : nanWord b = true) : fmm32 g a b = nan32 := by
  simp [fmm32, isNan32_eq_nanWord, ha, hb]

theorem fmm32_nan_left (g : Bool) {a b : Word} (ha : nanWord a = true) (hb : nanWord b = false) : fmm32 g a b = b := by
  simp [fmm32, isNan32_eq_nanWord, ha, hb]

theorem fmm32_nan_right (g : Bool) {a b : Word} (ha : nanWord a = false) (hb : nanWord b = true) : fmm32 g a b = a := by
  simp [fmm32, isNan32_eq_nanWord, ha, hb]

/-- Of two numbers the one whose key is less or greater, the first where the keys are equal. -/
theorem fmm32_numbers (g : Bool) {a b : Word} (ha : nanWord a = false) (hb : nanWord b = false) :
    fmm32 g a b =
      if g then (if orderKey a < orderKey b then b else a) else (if orderKey b < orderKey a then b else a) := by
  simp [fmm32, isNan32_eq_nanWord, fkey_eq_orderKey, ha, hb]

theorem fmm32_eq_or (g : Bool) {a b : Word} (ha : nanWord a = false) (hb : nanWord b = false) :
    fmm32 g a b = a ∨ fmm32 g a b = b := by
  rw [fmm32_numbers g ha hb]
  split <;> split <;> simp

theorem fmm32_least {a b : Word} (ha : nanWord a = false) (hb : nanWord b = false) :
    orderKey (fmm32 false a b) ≤ orderKey a ∧ orderKey (fmm32 false a b) ≤ orderKey b := by
  rw [fmm32_numbers false ha hb, if_neg Bool.false_ne_true]
  split <;> omega

theorem fmm32_greatest {a b : Word} (ha : nanWord a = false) (hb : nanWord b = false) :
    orderKey a ≤ orderKey (fmm32 true a b) ∧ orderKey b ≤ orderKey (fmm32 true a b) := by
  rw [fmm32_numbers true ha hb, if_pos rfl]
  split <;> omega

theorem picks_fmm32 (g : Bool) (a b : Word) : Picks g a b (fmm32 g a b) where
  both := fmm32_nan_nan g
  left := fmm32_nan_left g
  right := fmm32_nan_right g
  one := fmm32_eq_or g
  least ha hb := by
    cases g with
    | false => exact fmm32_least ha hb
    | true => exact fmm32_greatest ha hb

/-! ## The obligations -/

/-- Settles O9: `fmm32` picks as R128 says, and the four forms deliver their lanes without flags. -/
theorem lesserGreaterBits : Obligations.LesserGreaterBits := by
  refine ⟨fun a b => ⟨picks_fmm32 false a b, picks_fmm32 true a b⟩, fun h d a b => ?encodings, fun h d a b s => ⟨?two, ?one⟩⟩
  case encodings =>
    exact ⟨encodesWith_op rfl rfl, encodesWith_op rfl rfl, encodesWith_op rfl rfl, encodesWith_op rfl rfl⟩
  case two =>
    intro ready
    exact ⟨vBinF_delivers_lanes ready (fmm32 false), vBinF_delivers_lanes ready (fmm32 true)⟩
  case one =>
    intro ready
    exact ⟨vUnF_delivers_lanes ready (· &&& 0x7FFFFFFF), vUnF_delivers_lanes ready (· ^^^ 0x80000000)⟩

/-- `vperm` lane by lane: the sign of the index gives 0, its bit 5 the table, its low five bits the lane. -/
theorem vpermVal_eq_select (a b c : Vec) : vpermVal a b c = ofLanes fun l =>
    if (lane b l).getLsbD 31 = true then 0
    else if (lane b l).getLsbD 5 = false then lane a ((lane b l).toNat % 32)
    else lane c ((lane b l).toNat % 32) := by
  rw [vperm_eq]
  congr 1
  funext l
  cases h5 : (lane b l).getLsbD 5 <;> simp only [h5, reduceIte, reduceCtorEq]

/-- Settles O10: `vperm` computes the selection of R136 and no flags. -/
theorem permuteSelects : Obligations.PermuteSelects := by
  intro h d a b c
  refine ⟨encodesWith_op_sub_fn rfl rfl rfl rfl, fun s ready => ?_⟩
  rw [exec_vperm]
  exact xVector_delivers_lanes ready (vPorts3_lt a b c) (congrArg (·, fNone) (vpermVal_eq_select ..))

/-- `vbc` encodes with SB 0 (R137). -/
theorem vbc_sbField {h : XHdr} {d : VDst} {x : SSrc} {w : BitVec 64} (hw : encode (.vbc h d x) = some (.x w)) :
    w.extractLsb' 27 8 = 0 := by
  cases hw
  exact sbField_xPack _

/-- Settles O11: each form computes the lanes that R137 gives and no flags. -/
theorem broadcastMerge : Obligations.BroadcastMerge := by
  intro h d x a b c
  refine ⟨encodesWith_op_sub_fn rfl rfl rfl rfl, encodesWith_op_sub_fn rfl rfl rfl rfl, fun w => vbc_sbField, encodesWith_op_sub_fn rfl rfl rfl rfl,
    fun s => ⟨fun ready => ?vbc, fun ready => ?vbcLn, fun ready => ?vmerge⟩⟩
  case vbc =>
    rw [exec_vbc]
    exact xVector_delivers_lanes ready (sPorts_lt x) rfl
  case vbcLn =>
    rw [exec_vbcLn]
    exact xVector_delivers_lanes ready (vsPorts_lt a x) rfl
  case vmerge =>
    rw [exec_vmerge]
    refine xVector_delivers_lanes ready (vPorts3_lt a b c) ?_
    simp only [bne_iff_ne]

end Sys2Proof.Machine

/-! SUPPORT. Domain reads and tests: how a domain syllable of one X cycle delivers its result, and what stands in lx at the end
of an X cycle (spec/08 R143, R151, R152; spec/06 R102). -/
namespace Sys2Proof.Machine
open Sys2Proof Sys2Proof.Claims

/-! ## Domain syllables of one X cycle (spec/08 R143) -/

/-- A domain syllable of one X cycle that makes no change but its result delivers it, and holds its column no longer. -/
theorem domIssue_delivers {r : XResult} {s : State} (ready : XReady r.hdr r.srcs s) (hcol : Column0 s) (hl : ∀ q ∈ r.srcs, q < 9)
    (hupd : r.upd s s.tb = s.tb) (hnext : r.col s = holding 1) {eff : State → State}
    (heff : eff (s.xTake r.hdr (dedup r.srcs)) = ((s.xTake r.hdr (dedup r.srcs)).modTb fun b =>
      b.deliver s.turn.col r.dst r.kind (r.val s) r.lat (r.flags s) r.hdr.push).xNext) :
    ∃ t, domIssue r.hdr 1 r.lat r.srcs noBlock eff s = .next t ∧ XDelivers r s t := by
  refine ⟨_, domIssue_ready ready hcol 1 r.lat rfl eff, ?_⟩
  rw [heff, heldFor_issued 1 rfl]
  refine xDelivers_of hl (takenState_take hupd) ?_
  rw [hnext]
  exact modTc_modTc _ _ _

/-- A domain read delivers what it reads. -/
theorem domRead_delivers {h : XHdr} {a : Fin 32} {s : State} (ready : XReady h [] s) (hcol : Column0 s) (d : SDst)
    (f : Dom → Word) {v : State → Word} (hv : v s = f (domReg s a)) :
    ∃ t, domRead h d a f s = .next t ∧ XDelivers (domReadResult h d v) s t := by
  refine domIssue_delivers (r := domReadResult h d v) ready hcol nofun rfl rfl ?_
  simp only [domReadResult, scalarTo, hv]
  rfl

/-- A domain test delivers its predicate. -/
theorem domTest_delivers {h : XHdr} {srcs : List Nat} {s : State} (ready : XReady h srcs s) (hcol : Column0 s)
    (hl : ∀ q ∈ srcs, q < 9) (p : Fin 8) (b : Bool) :
    ∃ t, domIssue h 1 2 srcs noBlock (fun t => (t.wrP h p b 2).xNext) s = .next t ∧
      XDelivers { predTo h p 2 srcs (fun _ => b) with need := Column0, col := fun _ c => holding 1 c } s t :=
  domIssue_delivers (r := { predTo h p 2 srcs (fun _ => b) with need := Column0, col := fun _ c => holding 1 c })
    ready hcol hl rfl rfl rfl

/-- A syllable whose form makes no change of the bank leaves the domain unit as it was. -/
theorem dom_eq_of_xTook {r : XForm} {s t : State} (h : XTook r s t) (hupd : r.upd s s.tb = s.tb) : t.tb.dom = s.tb.dom := by
  rw [h.bank, hupd]
  rfl

theorem domHasB_iff_domHas (d : Dom) (x : Int) : domHasB d x = true ↔ domHas d x := by
  simp only [domHasB, domHas, Bool.and_eq_true, Bool.or_eq_true, Bool.not_eq_true', decide_eq_true_eq, decide_eq_false_iff_not,
    imp_iff_not_or, and_assoc]

theorem Dom.single_iff (d : Dom) : d.single = true ↔ d.lo = d.hi := beq_iff_eq

theorem domHas_iff_mem_set (d : Dom) (x : Int) : d.set.mem x = true ↔ domHas d x := by
  rw [domHas_eq, domHasB_iff_domHas]

/-! ## lx at the end of an X cycle (spec/06 R102) -/

/-! ### The parts of `State.landX` -/

/-- The results that reach lx in this cycle, and those that reach their place two cycles after it. -/
def reachLx (b : Bank) : List Flight := b.inflight.filter fun (f : Flight) => f.land == b.xcycle
def reachPlace (b : Bank) : List Flight := b.inflight.filter fun (f : Flight) => f.land + 2 == b.xcycle

/-- The register writes that the syllables of the cycle have left for its end. -/
def deferredWrites (g : Fin 512) (k : Fin 3) (l : List (Fin 4 × BitVec 12 × Word)) (s : State) : State :=
  l.foldl (fun (s : State) (x : Fin 4 × BitVec 12 × Word) => s.writeRegX g k x) s

/-- What lands in lx and in the operand registers, with no register write pending any more. -/
def landNow (b : Bank) : Bank := { b.landLx.landO with xsysw := [] }

/-- The pushes that the results carry. -/
def pushTokens (g : Fin 512) (k : Fin 3) (l : List Flight) (s : State) : State :=
  l.foldl (fun (s : State) (f : Flight) =>
    match f.push with
    | some p => (s.modBank g k fun b => { b with px := b.px + 1 }).pushToken g k (some p)
    | none => s) s

def landMains (l : List Flight) (b : Bank) : Bank := l.foldl (fun (b : Bank) (f : Flight) => b.landMain f) b

/-- The results that end in an X→A queue enter it in the order of their columns. -/
def pushPorts (g : Fin 512) (k : Fin 3) (l : List Flight) (s : State) : State :=
  (sortBy (fun (x y : Flight) => decide (x.col < y.col)) l).foldl
    (fun (s : State) (f : Flight) => match f.port with | some q => s.pushXA g k q f.val | none => s) s

def makeStores (g : Fin 512) (l : List Host.Cell) (s : State) : State :=
  s.modCore g fun c => { c with sp := l.foldl (fun (m : Memory) (x : Host.Cell) => m.write x.1 x.2) c.sp }

/-- The stores are made, the CCS flags move on and the X cycle advances. -/
def xCycleOver (b : Bank) : Bank :=
  { b with
    xstores := [], xBusy := 0
    cols := b.cols.map fun c => { c with ccsOld := c.ccs, ccs := c.ccsNext }
    inflight := b.inflight.filter fun (f : Flight) => decide (b.xcycle < f.lastWrite)
    xcycle := b.xcycle + 1 }

/-- Stream X ends once its columns have ended and nothing is in flight. -/
def endStreamX (g : Fin 512) (k : Fin 3) (s : State) : State :=
  if (s.bank g k).cols.toList.all (fun c => c.ended) && (s.bank g k).inflight.isEmpty && !(s.bank g k).xEnded then
    (s.modBank g k fun b => { b with xEnded := true }).streamEnd g k
  else s

/-- The end of an X cycle is the sequence of its parts. -/
theorem landX_eq (s : State) (g : Fin 512) (k : Fin 3) :
    s.landX g k =
      endStreamX g k ((makeStores g (s.bank g k).xstores (pushPorts g k (reachPlace (s.bank g k))
        ((pushTokens g k (reachLx (s.bank g k))
          ((deferredWrites g k (s.bank g k).xsysw s).modBank g k landNow)).modBank g k
            (landMains (reachPlace (s.bank g k)))))).modBank g k xCycleOver) :=
  rfl

/-! ### What they leave in lx -/

/-- lx of a column of a place. -/
def lxAt (g : Fin 512) (k : Fin 3) (c : Fin 4) (s : State) : Vec := ((s.bank g k).col c).lx

/-- What every step of a fold keeps, the fold keeps. -/
theorem foldl_keeps {α β γ : Type} {p : β → γ} {f : β → α → β} (hf : ∀ b a, p (f b a) = p b) (l : List α) (b : β) :
    p (l.foldl f b) = p b :=
  List.foldlRecOn (motive := fun x => p x = p b) l f rfl fun x hx a _ => (hf x a).trans hx

section
variable {g : Fin 512} {k : Fin 3} {c : Fin 4}

theorem lxAt_modBank (s : State) (f : Bank → Bank) : lxAt g k c (s.modBank g k f) = ((f (s.bank g k)).col c).lx := by
  simp [lxAt]

theorem lxAt_modBank_of_keeps {f : Bank → Bank} (hf : ∀ b, ((f b).col c).lx = (b.col c).lx) (s : State) :
    lxAt g k c (s.modBank g k f) = lxAt g k c s :=
  (lxAt_modBank s f).trans (hf _)

theorem lxAt_schedule (s : State) (n : Nat) (i : Instr) (a : EvArgs) : lxAt g k c (s.schedule n i a) = lxAt g k c s := rfl

theorem lxAt_pushToken (s : State) (f : Option (Fin 16)) : lxAt g k c (s.pushToken g k f) = lxAt g k c s := by
  cases f with
  | none => rfl
  | some f =>
    rw [State.pushToken, lxAt_schedule, lxAt_modBank]
    rfl

theorem col_setQXA (b : Bank) (q : Nat) (l : List QEntry) : (b.setQXA q l).col c = b.col c := by
  rw [Bank.setQXA_eq]
  rfl

theorem lxAt_pushXA (s : State) (q : Nat) (v : Vec) : lxAt g k c (s.pushXA g k q v) = lxAt g k c s := by
  rw [State.pushXA, lxAt_schedule, lxAt_modBank]
  exact congrArg Column.lx (col_setQXA ..)

theorem lxAt_makeStores (l : List Host.Cell) (s : State) : lxAt g k c (makeStores g l s) = lxAt g k c s := by
  unfold lxAt makeStores State.bank
  rw [State.core_modCore, if_pos rfl]
  rfl

theorem lxAt_streamEnd (s : State) : lxAt g k c (s.streamEnd g k) = lxAt g k c s := by
  simp only [State.streamEnd, apply_ite (lxAt g k c), lxAt_schedule, ite_self, lxAt_modBank]
  rfl

theorem lx_modCol (b : Bank) (c' : Fin 4) (f : Column → Column) (hf : ∀ x, (f x).lx = x.lx) :
    ((b.modCol c' f).col c).lx = (b.col c).lx := by
  rw [Bank.col_modCol]
  split
  · next h => rw [hf, h]
  · rfl

theorem lx_landO (b : Bank) : (b.landO.col c).lx = (b.col c).lx := by
  refine foldl_keeps (p := fun b : Bank => (b.col c).lx) (fun b f => ?_) _ b
  split
  · exact lx_modCol b _ _ fun _ => rfl
  · rfl

theorem lx_landMain (b : Bank) (f : Flight) : ((b.landMain f).col c).lx = (b.col c).lx := by
  refine lx_modCol b _ _ fun x => ?_
  cases f.kind with
  | scalar =>
    dsimp only
    split
    · split <;> rfl
    · rfl
  | vector =>
    dsimp only
    split <;> rfl
  | pred => rfl

theorem lx_landMains (l : List Flight) (b : Bank) : ((landMains l b).col c).lx = (b.col c).lx :=
  foldl_keeps (p := fun b : Bank => (b.col c).lx) lx_landMain l b

theorem lx_xCycleOver (b : Bank) : ((xCycleOver b).col c).lx = (b.col c).lx := by
  unfold xCycleOver Bank.col Vector.get
  simp

theorem lxAt_pushTokens (l : List Flight) (s : State) : lxAt g k c (pushTokens g k l s) = lxAt g k c s := by
  refine foldl_keeps (fun s f => ?_) l s
  cases f.push with
  | none => rfl
  | some p =>
    refine (lxAt_pushToken ..).trans ?_
    rw [lxAt_modBank]
    rfl

theorem lxAt_pushPorts (l : List Flight) (s : State) : lxAt g k c (pushPorts g k l s) = lxAt g k c s := by
  refine foldl_keeps (fun s f => ?_) _ s
  cases f.port with
  | none => rfl
  | some q => exact lxAt_pushXA ..

theorem lxAt_endStreamX (s : State) : lxAt g k c (endStreamX g k s) = lxAt g k c s := by
  unfold endStreamX
  split
  · rw [lxAt_streamEnd, lxAt_modBank]
    rfl
  · rfl

/-- Of all that the end of an X cycle does, only the results that reach lx in it change an lx. -/
theorem lxAt_landX {s : State} (hx : (s.bank g k).xsysw = []) : lxAt g k c (s.landX g k) = ((s.bank g k).landLx.col c).lx := by
  have hwrites : deferredWrites g k (s.bank g k).xsysw s = s := by rw [hx]; rfl
  rw [landX_eq, hwrites, lxAt_endStreamX, lxAt_modBank_of_keeps lx_xCycleOver, lxAt_makeStores, lxAt_pushPorts,
    lxAt_modBank_of_keeps (lx_landMains _), lxAt_pushTokens, lxAt_modBank]
  exact lx_landO _

/-- A scalar result that lands alone stands in lx of its column. -/
theorem lx_landLx_scalar {b : Bank} {f : Flight} (hin : b.inflight = [f]) (hk : f.kind = .scalar) (hl : f.land = b.xcycle) :
    (b.landLx.col f.col).lx = f.val := by
  simp [Bank.landLx, hin, hk, hl]

end

/-! ## The obligations -/

/-- Settles O25: a domain read delivers the field it names, and a scalar that lands alone is the value of lx. -/
theorem domainReads : Obligations.DomainReads := by
  refine ⟨fun h d a w s ready hcol => ⟨?dlo, ?dhi, ?dsize, ?dget⟩, fun f s => ?landing⟩
  case dlo => exact domRead_delivers ready hcol d _ rfl
  case dhi => exact domRead_delivers ready hcol d _ rfl
  case dsize => exact domRead_delivers ready hcol d _ (size_eq _).symm
  case dget =>
    rw [exec_dget, execDget]
    refine domRead_delivers ready hcol d _ ?_
    exact (dget_eq (domReg s a) w).symm
  case landing =>
    rintro ⟨hsysw, hin, hkind, hland⟩
    exact ⟨_, rfl, (lxAt_landX hsysw).trans (lx_landLx_scalar hin hkind hland)⟩

/-- Settles O26: each test delivers the predicate of R152 and leaves the domain unit as it was. -/
theorem domainTests : Obligations.DomainTests := by
  refine fun h p a v s hcol => ⟨fun ready => ?member, fun ready => ?single⟩
  case member =>
    obtain ⟨t, ht, hd⟩ := domTest_delivers ready hcol (sPorts_lt v) p ((domReg s a).set.mem (s.rS v).toInt)
    exact ⟨t, ht, dom_eq_of_xTook hd.took rfl, _, domHas_iff_mem_set _ _, hd⟩
  case single =>
    obtain ⟨t, ht, hd⟩ := domTest_delivers ready hcol nofun p (domReg s a).single
    exact ⟨t, ht, dom_eq_of_xTook hd.took rfl, _, Dom.single_iff _, hd⟩

end Sys2Proof.Machine

/-! SUPPORT. The encoding as a whole (spec/02 R24-R40): the laws of the single instructions cover every constructor, and a step of
the device has no words. -/
namespace Sys2Proof.Machine
open Sys2Proof Sys2Proof.Laws

/-- Settles O50, by cases on the instruction: each has its own law, and a step of the device encodes to nothing. -/
theorem encodeRoundTrip : Obligations.EncodeRoundTrip := by
  intro i
  cases i with
  | xNop h => exact Encoding.xNop h
  | xAdd h d a b => exact Encoding.xAdd h d a b
  | xSub h d a b => exact Encoding.xSub h d a b
  | xAnd h d a b => exact Encoding.xAnd h d a b
  | xOr h d a b => exact Encoding.xOr h d a b
  | xXor h d a b => exact Encoding.xXor h d a b
  | xShl h d a b => exact Encoding.xShl h d a b
  | xShr h d a b => exact Encoding.xShr h d a b
  | xSra h d a b => exact Encoding.xSra h d a b
  | xMin h uns d a b => exact Encoding.xMin h uns d a b
  | xMax h uns d a b => exact Encoding.xMax h uns d a b
  | xMul h d a b => exact Encoding.xMul h d a b
  | xMulh h uns d a b => exact Encoding.xMulh h uns d a b
  | xSel h d a b p => exact Encoding.xSel h d a b p
  | xClz h d a => exact Encoding.xClz h d a
  | xPopc h d a => exact Encoding.xPopc h d a
  | xBfx h sx w d a pos => exact Encoding.xBfx h sx w d a pos
  | xBfi h w d a b pos => exact Encoding.xBfi h w d a b pos
  | xLea h k d a b => exact Encoding.xLea h k d a b
  | xAddi h d a i => exact Encoding.xAddi h d a i
  | xAndi h d a i => exact Encoding.xAndi h d a i
  | xOri h d a i => exact Encoding.xOri h d a i
  | xXori h d a i => exact Encoding.xXori h d a i
  | xShli h d a i => exact Encoding.xShli h d a i
  | xShri h d a i => exact Encoding.xShri h d a i
  | xSrai h d a i => exact Encoding.xSrai h d a i
  | xLi h d i => exact Encoding.xLi h d i
  | xLih h d a i => exact Encoding.xLih h d a i
  | xMuli h d a i => exact Encoding.xMuli h d a i
  | xCmp h c p a b => exact Encoding.xCmp h c p a b
  | xCmpi h c p a i => exact Encoding.xCmpi h c p a i
  | xPand h p a b => exact Encoding.xPand h p a b
  | xPor h p a b => exact Encoding.xPor h p a b
  | xPxor h p a b => exact Encoding.xPxor h p a b
  | xPnot h p a => exact Encoding.xPnot h p a
  | xPmov h p a => exact Encoding.xPmov h p a
  | xPget h d a => exact Encoding.xPget h d a
  | vadd h d a b => exact Encoding.vadd h d a b
  | vsub h d a b => exact Encoding.vsub h d a b
  | vmul h d a b => exact Encoding.vmul h d a b
  | vfma h d a b c => exact Encoding.vfma h d a b c
  | vfms h d a b c => exact Encoding.vfms h d a b c
  | vmin h d a b => exact Encoding.vmin h d a b
  | vmax h d a b => exact Encoding.vmax h d a b
  | vabs h d a => exact Encoding.vabs h d a
  | vneg h d a => exact Encoding.vneg h d a
  | vcmp h c d a b => exact Encoding.vcmp h c d a b
  | vrcp h d a => exact Encoding.vrcp h d a
  | vrsqrt h d a => exact Encoding.vrsqrt h d a
  | vexp2 h d a => exact Encoding.vexp2 h d a
  | vlog2 h d a => exact Encoding.vlog2 h d a
  | vredsumO h d a => exact Encoding.vredsumO h d a
  | vredsumU h d a => exact Encoding.vredsumU h d a
  | vredmax h d a => exact Encoding.vredmax h d a
  | viadd h d a b => exact Encoding.viadd h d a b
  | visub h d a b => exact Encoding.visub h d a b
  | vimul h d a b => exact Encoding.vimul h d a b
  | vand h d a b => exact Encoding.vand h d a b
  | vor h d a b => exact Encoding.vor h d a b
  | vxor h d a b => exact Encoding.vxor h d a b
  | vshl h d a b => exact Encoding.vshl h d a b
  | vshr h d a b => exact Encoding.vshr h d a b
  | vsra h d a b => exact Encoding.vsra h d a b
  | vimin h uns d a b => exact Encoding.vimin h uns d a b
  | vimax h uns d a b => exact Encoding.vimax h uns d a b
  | vicmp h c d a b => exact Encoding.vicmp h c d a b
  | vmacw h uns pa pb d a b c => exact Encoding.vmacw h uns pa pb d a b c
  | vrsh h t p d a b c => exact Encoding.vrsh h t p d a b c
  | vdot4 h ua ub d a b c => exact Encoding.vdot4 h ua ub d a b c
  | vcvt h dst src p d a c => exact Encoding.vcvt h dst src p d a c
  | vdq h f p d a b c => exact Encoding.vdq h f p d a b c
  | vbc h d a => exact Encoding.vbc h d a
  | vbcLn h d a b => exact Encoding.vbcLn h d a b
  | vperm h d a b c => exact Encoding.vperm h d a b c
  | vnzscan h f32 d a b => exact Encoding.vnzscan h f32 d a b
  | vnzscanCnt h f32 d a => exact Encoding.vnzscanCnt h f32 d a
  | vnzscanMsk h f32 d a => exact Encoding.vnzscanMsk h f32 d a
  | vmerge h d a b c => exact Encoding.vmerge h d a b c
  | vscan h op ex d a => exact Encoding.vscan h op ex d a
  | dadd h keep c a b => exact Encoding.dadd h keep c a b
  | dsub h keep c a b => exact Encoding.dsub h keep c a b
  | dmulc h keep c a k => exact Encoding.dmulc h keep c a k
  | dlt h keep a b => exact Encoding.dlt h keep a b
  | dle h keep a b => exact Encoding.dle h keep a b
  | deq h keep a b => exact Encoding.deq h keep a b
  | dne h keep a b => exact Encoding.dne h keep a b
  | dint h a lo hi => exact Encoding.dint h a lo hi
  | dexcl h a v => exact Encoding.dexcl h a v
  | dfix h a v => exact Encoding.dfix h a v
  | delem h keep a i t => exact Encoding.delem h keep a i t
  | dlo h d a => exact Encoding.dlo h d a
  | dhi h d a => exact Encoding.dhi h d a
  | dsize h d a => exact Encoding.dsize h d a
  | dget h d a w => exact Encoding.dget h d a w
  | dtestIn h p a v => exact Encoding.dtestIn h p a v
  | dtestOne h p a => exact Encoding.dtestOne h p a
  | dpick h d a => exact Encoding.dpick h d a
  | dset h a lo hi => exact Encoding.dset h a lo hi
  | dsetw h a lo w0 w1 => exact Encoding.dsetw h a lo w0 w1
  | dprop h => exact Encoding.dprop h
  | dsave h => exact Encoding.dsave h
  | drest h => exact Encoding.drest h
  | ddrop h => exact Encoding.ddrop h
  | dclr h => exact Encoding.dclr h
  | xBr h disp => exact Encoding.xBr h disp
  | xJr h a => exact Encoding.xJr h a
  | xCall h d disp => exact Encoding.xCall h d disp
  | xRet h a => exact Encoding.xRet h a
  | brq h disp => exact Encoding.brq h disp
  | brqN h disp => exact Encoding.brqN h disp
  | xLoop h l a disp => exact Encoding.xLoop h l a disp
  | join h b m => exact Encoding.join h b m
  | ccset h b => exact Encoding.ccset h b
  | ccclr h b => exact Encoding.ccclr h b
  | xPause h n => exact Encoding.xPause h n
  | xFin h => exact Encoding.xFin h
  | xLd h cls ty d a b => exact Encoding.xLd h cls ty d a b
  | xSt h cls ty a b c => exact Encoding.xSt h cls ty a b c
  | vld h cls d a b => exact Encoding.vld h cls d a b
  | vst h cls a b c => exact Encoding.vst h cls a b c
  | vldx h cls d a b => exact Encoding.vldx h cls d a b
  | vstx h cls a b c => exact Encoding.vstx h cls a b c
  | ldacq h cls d a b => exact Encoding.ldacq h cls d a b
  | accrd h d acc row cnt => exact Encoding.accrd h d acc row cnt
  | xFence h k sc => exact Encoding.xFence h k sc
  | xTrap h n => exact Encoding.xTrap h n
  | eret h => exact Encoding.eret h
  | xSysr h d cr => exact Encoding.xSysr h d cr
  | xSysw h a cr => exact Encoding.xSysw h a cr
  | halt h => exact Encoding.halt h
  | dbgstop h n => exact Encoding.dbgstop h n
  | yield h => exact Encoding.yield h
  | aAdd h d a b => exact Encoding.aAdd h d a b
  | aSub h d a b => exact Encoding.aSub h d a b
  | aAnd h d a b => exact Encoding.aAnd h d a b
  | aOr h d a b => exact Encoding.aOr h d a b
  | aXor h d a b => exact Encoding.aXor h d a b
  | aShl h d a b => exact Encoding.aShl h d a b
  | aShr h d a b => exact Encoding.aShr h d a b
  | aSra h d a b => exact Encoding.aSra h d a b
  | aMul h d a b => exact Encoding.aMul h d a b
  | aMin h uns d a b => exact Encoding.aMin h uns d a b
  | aMax h uns d a b => exact Encoding.aMax h uns d a b
  | aBfx h sx w d a p => exact Encoding.aBfx h sx w d a p
  | aAddi h d a i => exact Encoding.aAddi h d a i
  | aAndi h d a i => exact Encoding.aAndi h d a i
  | aLi h d i => exact Encoding.aLi h d i
  | aLih h d a i k => exact Encoding.aLih h d a i k
  | aLd h cls sp ty d a i off => exact Encoding.aLd h cls sp ty d a i off
  | aSt h cls sp ty d a i off => exact Encoding.aSt h cls sp ty d a i off
  | lda h cls sc ty d a i off => exact Encoding.lda h cls sc ty d a i off
  | stl h cls sc ty d a i off => exact Encoding.stl h cls sc ty d a i off
  | ldq h cls sp q a i off => exact Encoding.ldq h cls sp q a i off
  | ldd h cls sp q hs c => exact Encoding.ldd h cls sp q hs c
  | stz h cls sp q hs c => exact Encoding.stz h cls sp q hs c
  | aswap h cls w64 sem d a v => exact Encoding.aswap h cls w64 sem d a v
  | acas h cls w64 sem d a v => exact Encoding.acas h cls w64 sem d a v
  | aadd h cls w64 sem d a v => exact Encoding.aadd h cls w64 sem d a v
  | aand h cls w64 sem d a v => exact Encoding.aand h cls w64 sem d a v
  | aor h cls w64 sem d a v => exact Encoding.aor h cls w64 sem d a v
  | axor h cls w64 sem d a v => exact Encoding.axor h cls w64 sem d a v
  | amin h cls w64 sem d a v => exact Encoding.amin h cls w64 sem d a v
  | amax h cls w64 sem d a v => exact Encoding.amax h cls w64 sem d a v
  | aminu h cls w64 sem d a v => exact Encoding.aminu h cls w64 sem d a v
  | amaxu h cls w64 sem d a v => exact Encoding.amaxu h cls w64 sem d a v
  | redadd h cls w64 rel a v => exact Encoding.redadd h cls w64 rel a v
  | redmin h cls w64 uns rel a v => exact Encoding.redmin h cls w64 uns rel a v
  | redmax h cls w64 uns rel a v => exact Encoding.redmax h cls w64 uns rel a v
  | redand h cls w64 rel a v => exact Encoding.redand h cls w64 rel a v
  | redor h cls w64 rel a v => exact Encoding.redor h cls w64 rel a v
  | redxor h cls w64 rel a v => exact Encoding.redxor h cls w64 rel a v
  | redfaddO h cls rel a v => exact Encoding.redfaddO h cls rel a v
  | redfaddU h cls rel a v => exact Encoding.redfaddU h cls rel a v
  | redfmin h cls rel a v => exact Encoding.redfmin h cls rel a v
  | redfmax h cls rel a v => exact Encoding.redfmax h cls rel a v
  | rgcfg h r c => exact Encoding.rgcfg h r c
  | rgwfree h d r n => exact Encoding.rgwfree h d r n
  | rgwfill h d r n => exact Encoding.rgwfill h d r n
  | rgput h r n => exact Encoding.rgput h r n
  | rgtake h r n => exact Encoding.rgtake h r n
  | rgrel h r n => exact Encoding.rgrel h r n
  | rgrot h s t => exact Encoding.rgrot h s t
  | give h t n => exact Encoding.give h t n
  | take h t n => exact Encoding.take h t n
  | beq h mode a b disp => exact Encoding.beq h mode a b disp
  | bne h mode a b disp => exact Encoding.bne h mode a b disp
  | blt h mode a b disp => exact Encoding.blt h mode a b disp
  | bge h mode a b disp => exact Encoding.bge h mode a b disp
  | bltu h mode a b disp => exact Encoding.bltu h mode a b disp
  | bgeu h mode a b disp => exact Encoding.bgeu h mode a b disp
  | jmp h disp => exact Encoding.jmp h disp
  | aJr h a => exact Encoding.aJr h a
  | aCall h d disp => exact Encoding.aCall h d disp
  | aRet h a => exact Encoding.aRet h a
  | aLoop h l a disp => exact Encoding.aLoop h l a disp
  | aPause h n => exact Encoding.aPause h n
  | fenceAcq h sc => exact Encoding.fenceAcq h sc
  | fenceRel h sc => exact Encoding.fenceRel h sc
  | fenceSc h sc => exact Encoding.fenceSc h sc
  | colarrRlx h b => exact Encoding.colarrRlx h b
  | colarrRel h b => exact Encoding.colarrRel h b
  | colwait h b => exact Encoding.colwait h b
  | colsync h b => exact Encoding.colsync h b
  | barc h d a e => exact Encoding.barc h d a e
  | aSysr h d cr => exact Encoding.aSysr h d cr
  | aSysw h a cr => exact Encoding.aSysw h a cr
  | aTrap h n => exact Encoding.aTrap h n
  | tlbinv h v l => exact Encoding.tlbinv h v l
  | ctxsw h b => exact Encoding.ctxsw h b
  | ctxbank h s v => exact Encoding.ctxbank h s v
  | lnch h d r q => exact Encoding.lnch h d r q
  | lcancel h d i => exact Encoding.lcancel h d i
  | lcancelUnit h d i u => exact Encoding.lcancelUnit h d i u
  | lwait h d i => exact Encoding.lwait h d i
  | evset h b c => exact Encoding.evset h b c
  | evclr h b c => exact Encoding.evclr h b c
  | evtest h d b c => exact Encoding.evtest h d b c
  | hld h cls r a off => exact Encoding.hld h cls r a off
  | hst h cls r a off => exact Encoding.hst h cls r a off
  | hview h d s k => exact Encoding.hview h d s k
  | htrans h d s => exact Encoding.htrans h d s
  | hshape h d s k => exact Encoding.hshape h d s k
  | cpy h ss ds rp d s => exact Encoding.cpy h ss ds rp d s
  | cpg h ss ds rp d s l => exact Encoding.cpg h ss ds rp d s l
  | cps h ss ds rp d s l => exact Encoding.cps h ss ds rp d s l
  | cpq h ss ds rp d s => exact Encoding.cpq h ss ds rp d s
  | cpm h o a b => exact Encoding.cpm h o a b
  | mnop h => exact Encoding.mnop h
  | mlease h => exact Encoding.mlease h
  | mfree h => exact Encoding.mfree h
  | mfin h => exact Encoding.mfin h
  | mmul h t c ra rb acc ks fa fb bm nm ka kb wl i32 => exact Encoding.mmul h t c ra rb acc ks fa fb bm nm ka kb wl i32
  | mwload h rb fb kb => exact Encoding.mwload h rb fb kb
  | mwloadnm h rb fb kb => exact Encoding.mwloadnm h rb fb kb
  | mdrain h t c q ro acc f ko => exact Encoding.mdrain h t c q ro acc f ko
  | mzero h acc i32 => exact Encoding.mzero h acc i32
  | msnap h ro acc kd => exact Encoding.msnap h ro acc kd
  | mpred h ra rb fa fb kd kt => exact Encoding.mpred h ra rb fa fb kd kt
  | mscan h ro km kb => exact Encoding.mscan h ro km kb
  | mkli h kd i => exact Encoding.mkli h kd i
  | mkadd h kd ks i => exact Encoding.mkadd h kd ks i
  | mloop h l n disp => exact Encoding.mloop h l n disp
  | mbnz h kn disp => exact Encoding.mbnz h kn disp
  | aFin => exact Encoding.aFin
  -- A seal is one word of no operands; a step of the device has no words.
  | _ => exact fun _ _ hw => by cases hw <;> rfl

end Sys2Proof.Machine

/-! SUPPORT. The canonical form of the memories (log 1) through every operation of the model: each function that answers a state
keeps it, and every instruction goes on to a state that has it. -/
namespace Sys2Proof.Claims
open Sys2Proof Sys2Proof.Machine
-- Each lemma here rests on many before it: elaborated side by side they hold a thread each while they wait.
set_option Elab.async false

/-! ## What is kept -/

/-- The memories of a core are canonical. -/
def CoreCanonical (c : Core) : Prop := c.sp.wf = true ∧ c.spShadow.wf = true

/-- Where a check stops an instruction, the state it answers has canonical memories. -/
def AllCanonical (o : Option State) : Prop := ∀ t, o = some t → MemoriesCanonical t

/-- The state of a pair that an operation may answer has canonical memories. -/
def FirstCanonical {α : Type} (o : Option (State × α)) : Prop := ∀ t x, o = some (t, x) → MemoriesCanonical t

/-- An instruction goes on to a next state, whose memories are canonical where those before it were. -/
def Goes (s : State) (o : Host.Outcome State Fault Refusal) : Prop := ∃ t, o = .next t ∧ (MemoriesCanonical s → MemoriesCanonical t)

section
variable {s : State}

theorem MemoriesCanonical.core (hs : MemoriesCanonical s) (g : Fin 512) : CoreCanonical (s.core g) := ⟨hs.sp g, hs.shadow g⟩

theorem MemoriesCanonical.ofCores {t : State} (hs : MemoriesCanonical s) (hbm : t.hbm = s.hbm) (host : t.host = s.host)
    (hc : ∀ g, CoreCanonical (t.core g)) : MemoriesCanonical t :=
  ⟨hbm ▸ hs.hbm, host ▸ hs.host, fun g => (hc g).1, fun g => (hc g).2⟩

/-- A state with the same memories and cores. -/
theorem MemoriesCanonical.same {cycle turn agenda ev free dev parts dies clusters} (hs : MemoriesCanonical s) :
    MemoriesCanonical (State.mk cycle turn agenda ev free dev parts dies clusters s.cores s.hbm s.host) :=
  ⟨hs.hbm, hs.host, hs.sp, hs.shadow⟩

/-- A core with the same memories. -/
theorem CoreCanonical.same {c : Core}
    {banks active handling ctxsw owner ownerShadow acc accOwn acclive spill0 spill1 rot wide window ovfcnt abftcnt replays
    scause savebase0 savebase1 tslice bp0 bp1 perfidx perf perfFrom heads stopped}
    (hc : CoreCanonical c) :
    CoreCanonical (Core.mk
      banks active handling ctxsw c.sp c.spShadow owner ownerShadow acc accOwn acclive spill0 spill1 rot wide window ovfcnt
      abftcnt replays scause savebase0 savebase1 tslice bp0 bp1 perfidx perf perfFrom heads stopped) :=
  hc

theorem MemoriesCanonical.hbmWrite {a b} (hs : MemoriesCanonical s) : MemoriesCanonical { s with hbm := s.hbm.write a b } :=
  ⟨Memory.wf_write _ _ _ hs.hbm, hs.host, hs.sp, hs.shadow⟩

theorem MemoriesCanonical.hbmWriteLE {a n v} (hs : MemoriesCanonical s) : MemoriesCanonical { s with hbm := s.hbm.writeLE a n v } :=
  ⟨Memory.wf_writeLE _ _ _ _ hs.hbm, hs.host, hs.sp, hs.shadow⟩

theorem MemoriesCanonical.hostWrite {a b} (hs : MemoriesCanonical s) : MemoriesCanonical { s with host := s.host.write a b } :=
  ⟨hs.hbm, Memory.wf_write _ _ _ hs.host, hs.sp, hs.shadow⟩

/-- Single writes in any order keep the canonical form. -/
theorem Memory.wf_foldl_write (l : List Host.Cell) (m : Memory) (h : m.wf = true) :
    (l.foldl (fun (m : Memory) (x : Host.Cell) => m.write x.1 x.2) m).wf = true :=
  List.foldlRecOn (motive := fun m => Memory.wf m = true) l _ h fun _ hm _ _ => Memory.wf_write _ _ _ hm

theorem CoreCanonical.reset : CoreCanonical Core.reset := ⟨rfl, rfl⟩

theorem reset_core_canonical (g : Fin 512) : CoreCanonical (State.reset.core g) := by
  have hg : State.reset.core g = Core.reset := Vector.getElem_replicate ..
  exact hg ▸ CoreCanonical.reset

/-! ### Branches and folds -/

section
variable {c : Prop} [Decidable c]

theorem MemoriesCanonical.ite {t u : State} (ht : MemoriesCanonical t) (hu : MemoriesCanonical u) :
    MemoriesCanonical (if c then t else u) := by
  split
  · exact ht
  · exact hu

theorem MemoriesCanonical.dite {t : c → State} {u : ¬c → State} (ht : ∀ h, MemoriesCanonical (t h)) (hu : ∀ h, MemoriesCanonical (u h)) :
    MemoriesCanonical (if h : c then t h else u h) := by
  split
  · exact ht _
  · exact hu _

theorem MemoriesCanonical.iteFst {α : Type} {t u : State × α} (ht : MemoriesCanonical t.1) (hu : MemoriesCanonical u.1) :
    MemoriesCanonical (if c then t else u).1 := by
  split
  · exact ht
  · exact hu

theorem CoreCanonical.ite {x y : Core} (hx : CoreCanonical x) (hy : CoreCanonical y) : CoreCanonical (if c then x else y) := by
  split
  · exact hx
  · exact hy

theorem CoreCanonical.dite {x : c → Core} {y : ¬c → Core} (hx : ∀ h, CoreCanonical (x h)) (hy : ∀ h, CoreCanonical (y h)) :
    CoreCanonical (if h : c then x h else y h) := by
  split
  · exact hx _
  · exact hy _

theorem AllCanonical.ite {o q : Option State} (ho : AllCanonical o) (hq : AllCanonical q) : AllCanonical (if c then o else q) := by
  split
  · exact ho
  · exact hq

theorem FirstCanonical.ite {α : Type} {o q : Option (State × α)} (ho : FirstCanonical o) (hq : FirstCanonical q) :
    FirstCanonical (if c then o else q) := by
  split
  · exact ho
  · exact hq

theorem Goes.ite {o q : Host.Outcome State Fault Refusal} (ho : Goes s o) (hq : Goes s q) : Goes s (if c then o else q) := by
  split
  · exact ho
  · exact hq

end

theorem MemoriesCanonical.foldl {α : Type} {f : State → α → State} {l : List α}
    (hf : ∀ t a, MemoriesCanonical t → MemoriesCanonical (f t a)) (hs : MemoriesCanonical s) : MemoriesCanonical (l.foldl f s) :=
  List.foldlRecOn l f hs fun t ht a _ => hf t a ht

theorem CoreCanonical.foldl {α : Type} {f : Core → α → Core} {l : List α} {x : Core}
    (hf : ∀ y a, CoreCanonical y → CoreCanonical (f y a)) (hx : CoreCanonical x) : CoreCanonical (l.foldl f x) :=
  List.foldlRecOn l f hx fun y hy a _ => hf y a hy

theorem MemoriesCanonical.foldlFst {α β : Type} {f : State × β → α → State × β} {l : List α} {r : State × β}
    (hf : ∀ t a, MemoriesCanonical t.1 → MemoriesCanonical (f t a).1) (hr : MemoriesCanonical r.1) :
    MemoriesCanonical (l.foldl f r).1 :=
  List.foldlRecOn (motive := fun r => MemoriesCanonical r.1) l f hr fun t ht a _ => hf t a ht

/-- The state of a pair that an operation answers. -/
theorem MemoriesCanonical.fst {α : Type} {r : State × α} {t : State} {x : α} (hr : MemoriesCanonical r.1) (e : r = (t, x)) :
    MemoriesCanonical t := by
  subst e
  exact hr

theorem MemoriesCanonical.pair {α : Type} {t : State} {x : α} (ht : MemoriesCanonical t) : MemoriesCanonical (t, x).1 := ht

/-! ### Checks -/

theorem AllCanonical.none : AllCanonical Option.none := fun t e => absurd e.symm (Option.some_ne_none t)
theorem AllCanonical.some {t : State} (ht : MemoriesCanonical t) : AllCanonical (Option.some t) := fun _ e => Option.some.inj e ▸ ht

theorem FirstCanonical.none {α : Type} : FirstCanonical (Option.none : Option (State × α)) := fun _ _ e => absurd e.symm (Option.some_ne_none _)
theorem FirstCanonical.some {α : Type} {t : State} {x : α} (ht : MemoriesCanonical t) : FirstCanonical (Option.some (t, x)) := by
  rintro _ _ ⟨⟩
  exact ht

theorem AllCanonical.findSome {α : Type} {f : α → Option State} {l : List α} (hf : ∀ a, AllCanonical (f a)) :
    AllCanonical (l.findSome? f) := by
  intro t ht
  obtain ⟨a, _, ha⟩ := List.exists_of_findSome?_eq_some ht
  exact hf a t ha

theorem AllCanonical.map {α : Type} {f : α → State} {o : Option α} (hf : ∀ a, MemoriesCanonical (f a)) : AllCanonical (o.map f) := by
  cases o with
  | none => exact .none
  | some a => exact .some (hf a)

theorem AllCanonical.orElse {a : Option State} {b : Unit → Option State} (ha : AllCanonical a) (hb : ∀ u, AllCanonical (b u)) :
    AllCanonical (orElseT a b) := by
  cases a with
  | none => exact hb ()
  | some t => exact ha

theorem MemoriesCanonical.noBlock (_ : MemoriesCanonical s) : AllCanonical (Machine.noBlock s) := .none

/-! ### Outcomes -/

theorem Goes.next {t : State} (ht : MemoriesCanonical s → MemoriesCanonical t) : Goes s (.next t) := ⟨t, rfl, ht⟩

theorem Goes.trans {t : State} {o : Host.Outcome State Fault Refusal} (ht : MemoriesCanonical s → MemoriesCanonical t) (ho : Goes t o) :
    Goes s o :=
  let ⟨u, e, hu⟩ := ho
  ⟨u, e, hu ∘ ht⟩

/-! ## The operations of the model, in the order of their use -/


theorem CoreCanonical.setBank {c k b} (hc : CoreCanonical c) : CoreCanonical (c.setBank k b) :=
  hc.same

theorem CoreCanonical.perfClear {c now} (hc : CoreCanonical c) : CoreCanonical (c.perfClear now) :=
  hc.same

theorem CoreCanonical.ownZero {c m} (hc : CoreCanonical c) : CoreCanonical (c.ownZero m) :=
  hc.same

theorem CoreCanonical.wiped {c} (hc : CoreCanonical c) : CoreCanonical (c.wiped) :=
  hc.same

theorem CoreCanonical.setSpill {c k v} (hc : CoreCanonical c) : CoreCanonical (c.setSpill k v) :=
  .ite hc.same (.ite hc.same hc)

theorem CoreCanonical.dropAcc {c k} (hc : CoreCanonical c) : CoreCanonical (c.dropAcc k) :=
  .setSpill (.ite hc.same hc)

theorem CoreCanonical.accTake {c k} (hc : CoreCanonical c) : CoreCanonical (c.accTake k) :=
  .ite hc hc.same

theorem CoreCanonical.writeAcclive {c k w} (hc : CoreCanonical c) : CoreCanonical (c.writeAcclive k w) :=
  .ite hc.same (.ite hc.same hc)

theorem CoreCanonical.cleared {c} (hc : CoreCanonical c) : CoreCanonical c.cleared := ⟨rfl, hc.2⟩

theorem CoreCanonical.swapIn {c x} (hc : CoreCanonical c) : CoreCanonical (Core.swapIn c x) := ⟨hc.2, hc.1⟩

theorem CoreCanonical.setOwner {c t n eng} (hc : CoreCanonical c) : CoreCanonical (c.setOwner t n eng) := by
  unfold Core.setOwner
  exact hc.same

theorem CoreCanonical.wideRow {c now id l} (hc : CoreCanonical c) : CoreCanonical (c.wideRow now id l) := by
  unfold Core.wideRow
  exact hc.same

theorem CoreCanonical.perfBump {c i} (hc : CoreCanonical c) : CoreCanonical (c.perfBump i) :=
  .dite (fun _ => hc.same) (fun _ => hc)

theorem CoreCanonical.useWide {c now rank id n tile} (hc : CoreCanonical c) : CoreCanonical (c.useWide now rank id n tile) := by
  unfold Core.useWide
  exact hc.same

theorem CoreCanonical.halt {c now} (hc : CoreCanonical c) : CoreCanonical (c.halt now) :=
  hc.same

theorem MemoriesCanonical.onStream {st} (hs : MemoriesCanonical s) : MemoriesCanonical (s.onStream st) := by
  unfold State.onStream
  exact hs.same

theorem MemoriesCanonical.setCore {g c} (hc : CoreCanonical c) (hs : MemoriesCanonical s) : MemoriesCanonical (s.setCore g c) :=
  .ofCores hs rfl rfl fun g' => by
    rw [State.core_setCore]
    split
    · exact hc
    · exact hs.core g'

theorem MemoriesCanonical.modCore {g f} (hf : ∀ c, CoreCanonical c → CoreCanonical (f c)) (hs : MemoriesCanonical s) :
    MemoriesCanonical (s.modCore g f) :=
  hs.setCore (hf _ (hs.core g))

theorem MemoriesCanonical.modCoreOther {g f} (hs : MemoriesCanonical s) (sp : ∀ c, (f c).sp = c.sp := by exact fun _ => rfl)
    (shadow : ∀ c, (f c).spShadow = c.spShadow := by exact fun _ => rfl) : MemoriesCanonical (s.modCore g f) :=
  hs.modCore fun c hc => ⟨sp c ▸ hc.1, shadow c ▸ hc.2⟩

theorem MemoriesCanonical.setBank {g k b} (hs : MemoriesCanonical s) : MemoriesCanonical (s.setBank g k b) :=
  hs.modCore (fun _ hc => hc.setBank)

theorem MemoriesCanonical.modBank {g k f} (hs : MemoriesCanonical s) : MemoriesCanonical (s.modBank g k f) :=
  hs.setBank

theorem MemoriesCanonical.modTb {f} (hs : MemoriesCanonical s) : MemoriesCanonical (s.modTb f) :=
  hs.modBank

theorem MemoriesCanonical.modTc {f} (hs : MemoriesCanonical s) : MemoriesCanonical (s.modTc f) :=
  hs.modTb

theorem MemoriesCanonical.xNext (hs : MemoriesCanonical s) : MemoriesCanonical (s.xNext) :=
  hs.modTc

theorem MemoriesCanonical.how {h} (hs : MemoriesCanonical s) : MemoriesCanonical (s.how h) := by
  unfold State.how
  exact hs.same

theorem MemoriesCanonical.stall {obj detail} (hs : MemoriesCanonical s) : MemoriesCanonical (s.stall obj detail) := by
  unfold State.stall
  exact .how (by
  split
  · exact hs.modBank
  · exact hs.modBank
  · exact hs.modBank)

theorem MemoriesCanonical.modDie {d f} (hs : MemoriesCanonical s) : MemoriesCanonical (s.modDie d f) :=
  hs.same

theorem MemoriesCanonical.rawWrite {p va b} (hs : MemoriesCanonical s) : MemoriesCanonical (s.rawWrite p va b) := by
  unfold State.rawWrite
  split
  · exact hs.hbmWrite
  · exact hs.hostWrite
  · exact hs

theorem MemoriesCanonical.rawWriteN {p va bs} (hs : MemoriesCanonical s) : MemoriesCanonical (s.rawWriteN p va bs) :=
  .foldl (fun _ _ hx => hx.rawWrite) hs

theorem MemoriesCanonical.modPart {p f} (hs : MemoriesCanonical s) : MemoriesCanonical (s.modPart p f) :=
  hs.same

theorem MemoriesCanonical.ringPut {p get set bs} (hs : MemoriesCanonical s) : MemoriesCanonical (s.ringPut p get set bs).1 := by
  unfold State.ringPut
  dsimp only
  split
  · exact .pair hs
  · exact .pair hs.rawWriteN.modPart

theorem MemoriesCanonical.traceDrain {p d} {l : List (BitVec 256)} (hs : MemoriesCanonical s) : MemoriesCanonical (s.traceDrain p d l) := by
  induction l generalizing s with
  | nil => exact hs.modDie
  | cons r l ih =>
    unfold State.traceDrain
    split
    · next t e => exact ih (hs.ringPut.fst e)
    · next t e => exact (hs.ringPut.fst e).modDie

theorem MemoriesCanonical.traceRecord {p d r} (hs : MemoriesCanonical s) : MemoriesCanonical (s.traceRecord p d r) := by
  unfold State.traceRecord
  exact .traceDrain (.ite hs.modDie hs.modDie)

theorem MemoriesCanonical.traceAt {g k stream col kind pc d0 d1} (hs : MemoriesCanonical s) : MemoriesCanonical (s.traceAt g k stream col kind pc d0 d1) := by
  unfold State.traceAt
  dsimp only
  split
  · exact hs
  · exact .ite hs.traceRecord hs

theorem MemoriesCanonical.modCluster {c f} (hs : MemoriesCanonical s) : MemoriesCanonical (s.modCluster c f) :=
  hs.same

theorem MemoriesCanonical.scheduleAt {t i a} (hs : MemoriesCanonical s) : MemoriesCanonical (s.scheduleAt t i a) :=
  hs.same

theorem MemoriesCanonical.schedule {n i a} (hs : MemoriesCanonical s) : MemoriesCanonical (s.schedule n i a) :=
  hs.scheduleAt

theorem MemoriesCanonical.leaseEnds {cl} (hs : MemoriesCanonical s) : MemoriesCanonical (s.leaseEnds cl) := by
  unfold State.leaseEnds
  dsimp only
  split
  · exact hs
  · split
    · exact hs.modCluster
    · exact hs.modCluster.schedule

theorem MemoriesCanonical.endLease {g} (hs : MemoriesCanonical s) : MemoriesCanonical (s.endLease g) := by
  unfold State.endLease
  exact .ite hs.modCluster.leaseEnds hs.modCluster

theorem MemoriesCanonical.stopWith {run g k status reason} (hs : MemoriesCanonical s) : MemoriesCanonical (s.stopWith run g k status reason) := by
  unfold State.stopWith
  exact .schedule (.schedule (.ite (.ite (.endLease (.modCluster (.foldl (fun _ _ hx1 => hx1.schedule) hs.modBank.modCoreOther.modDie))) (.modCluster (.foldl (fun _ _ hx1 => hx1.schedule) hs.modBank.modCoreOther.modDie))) (.schedule (.ite (.endLease (.modCluster (.foldl (fun _ _ hx1 => hx1.schedule) hs.modBank.modCoreOther.modDie))) (.modCluster (.foldl (fun _ _ hx1 => hx1.schedule) hs.modBank.modCoreOther.modDie))))))

theorem MemoriesCanonical.endHandler {g cause} (hs : MemoriesCanonical s) : MemoriesCanonical (s.endHandler g cause) := by
  unfold State.endHandler
  dsimp only
  split
  · exact hs
  · exact (hs.modCore (fun _ hc2 => hc2.setBank.same)).stopWith

theorem MemoriesCanonical.edge {g k e} (hs : MemoriesCanonical s) : MemoriesCanonical (s.edge g k e) := by
  unfold State.edge
  exact .dite (fun _ => (hs.traceAt.modCore (fun _ hc => hc.setBank.same)).endLease.schedule.how) (fun _ => hs.endHandler.how)

theorem MemoriesCanonical.domTrap {g k} (hs : MemoriesCanonical s) : MemoriesCanonical (s.domTrap g k) := by
  unfold State.domTrap
  dsimp only
  split
  · exact hs
  · exact hs.modBank.edge

theorem MemoriesCanonical.unschedule {p} (hs : MemoriesCanonical s) : MemoriesCanonical (s.unschedule p) :=
  hs.same

theorem MemoriesCanonical.endExec {g k} (hs : MemoriesCanonical s) : MemoriesCanonical (s.endExec g k) := by
  unfold State.endExec
  dsimp only
  split
  · exact hs
  · exact hs.unschedule.modBank

theorem MemoriesCanonical.takeTrapAt {g k st col word pc cause d0 d1} (hs : MemoriesCanonical s) : MemoriesCanonical (s.takeTrapAt g k st col word pc cause d0 d1) := by
  unfold State.takeTrapAt
  exact .ite hs.endExec.domTrap hs.endExec.edge

theorem MemoriesCanonical.takeTrap {g k st col word cause d0 d1} (hs : MemoriesCanonical s) : MemoriesCanonical (s.takeTrap g k st col word cause d0 d1) := by
  unfold State.takeTrap
  exact hs.takeTrapAt

theorem MemoriesCanonical.trap {cause d0 d1} (hs : MemoriesCanonical s) : MemoriesCanonical (s.trap cause d0 d1) :=
  hs.takeTrap

theorem MemoriesCanonical.illegal (hs : MemoriesCanonical s) : MemoriesCanonical (s.illegal) :=
  hs.trap.how

theorem MemoriesCanonical.xGate {h ports} (hs : MemoriesCanonical s) : AllCanonical (s.xGate h ports) := by
  unfold State.xGate
  dsimp only
  split
  · exact .some hs.illegal
  · split
    · exact .some hs.stall
    · split
      · exact .some hs.stall
      · split
        · exact .some (.ite hs.stall hs.stall)
        · split
          · exact .some hs.stall
          · exact .ite (.some hs.stall) .none

theorem MemoriesCanonical.xTake {h ports} (hs : MemoriesCanonical s) : MemoriesCanonical (s.xTake h ports) := by
  unfold State.xTake
  exact hs.modTb.modTc.same

theorem MemoriesCanonical.pushToken {g k f} (hs : MemoriesCanonical s) : MemoriesCanonical (s.pushToken g k f) := by
  unfold State.pushToken
  dsimp only
  split
  · exact hs
  · exact hs.modBank.schedule

theorem MemoriesCanonical.xPush {h l} (hs : MemoriesCanonical s) : MemoriesCanonical (s.xPush h l) := by
  unfold State.xPush
  split
  · exact hs
  · exact .ite hs.pushToken hs.modTb

theorem xIssue_goes {h l srcs blk eff} (hb : MemoriesCanonical s → AllCanonical (blk s))
    (he : ∀ t, MemoriesCanonical t → MemoriesCanonical (eff t)) : Goes s (xIssue h l srcs blk eff s) := by
  unfold xIssue
  dsimp only
  split
  · next t e => exact .next fun hs => (hs.xGate t e).same
  · split
    · split
      · next t e => exact .next fun hs => hb hs t e
      · exact .next fun hs => he _ hs.xTake
    · exact .next fun hs => hs.xTake.xNext.xPush

theorem MemoriesCanonical.wrP {h p v l} (hs : MemoriesCanonical s) : MemoriesCanonical (s.wrP h p v l) :=
  hs.modTb

theorem xPredicate_goes {h p l srcs f} : Goes s (xPredicate h p l srcs f s) := by
  unfold xPredicate
  exact xIssue_goes (fun hs => hs.noBlock) (fun _ hx => hx.wrP.xNext)

theorem MemoriesCanonical.modCmd {cl id f} (hs : MemoriesCanonical s) : MemoriesCanonical (s.modCmd cl id f) :=
  hs.modCluster

theorem MemoriesCanonical.slotOwner {g r from_ n eng} (hs : MemoriesCanonical s) : MemoriesCanonical (s.slotOwner g r from_ n eng) :=
  hs.modCore (fun _ hc => .foldl (fun _ _ hx1 => hx1.setOwner) hc)

theorem MemoriesCanonical.setRing {g k r x} (hs : MemoriesCanonical s) : MemoriesCanonical (s.setRing g k r x) :=
  hs.modBank

theorem MemoriesCanonical.ringPutSlot {g k n id} (hs : MemoriesCanonical s) : MemoriesCanonical (s.ringPutSlot g k n id) := by
  unfold State.ringPutSlot
  dsimp only
  split
  · exact hs
  · exact hs.setRing.slotOwner

theorem MemoriesCanonical.putOut {cl a} (hs : MemoriesCanonical s) : MemoriesCanonical (s.putOut cl a) := by
  unfold State.putOut
  exact .foldl (fun _ _ hx => .ite (.schedule (.ite hx.modBank hx)) hx) hs.modCmd.ringPutSlot

theorem MemoriesCanonical.useWide {g rank id n tile} (hs : MemoriesCanonical s) : MemoriesCanonical (s.useWide g rank id n tile) :=
  hs.modCore (fun _ hc => hc.useWide)

theorem MemoriesCanonical.takeWide {a i n tile} (hs : MemoriesCanonical s) : MemoriesCanonical (s.takeWide a i n tile) := by
  unfold State.takeWide
  exact hs.useWide.schedule

theorem MemoriesCanonical.spWrite {g addr bs} (hs : MemoriesCanonical s) : MemoriesCanonical (s.spWrite g addr bs) :=
  hs.modCore fun _ hc => ⟨Memory.wf_writeBytes _ _ _ hc.1, hc.2⟩

theorem execMsnapWrite_goes : Goes s (execMsnapWrite s) := by
  unfold execMsnapWrite
  dsimp only
  split
  · exact .next fun hs => hs
  · split
    · exact .next fun hs => hs.schedule
    · split
      · exact .next fun hs => hs.modCmd.schedule
      · split
        · exact .next fun hs => hs.scheduleAt
        · exact .ite (.next fun hs => hs.takeWide) (.next fun hs => .putOut (.foldl (fun _ _ hx4 => hx4.spWrite) hs))

theorem MemoriesCanonical.modDev {f} (hs : MemoriesCanonical s) : MemoriesCanonical (s.modDev f) :=
  hs.same

theorem MemoriesCanonical.startFails {reason detail} (hs : MemoriesCanonical s) : MemoriesCanonical (s.startFails reason detail) :=
  hs.modDev.unschedule

theorem execBootctlGo_goes : Goes s (execBootctlGo s) := by
  unfold execBootctlGo
  exact .ite (.next fun hs => hs) (.ite (.next fun hs => hs.startFails) (.next fun hs => hs.modDev.unschedule))

theorem MemoriesCanonical.wrV {h d v l fl} (hs : MemoriesCanonical s) : MemoriesCanonical (s.wrV h d v l fl) :=
  hs.modTb

theorem xVector_goes {h d l srcs f} : Goes s (xVector h d l srcs f s) := by
  unfold xVector
  exact xIssue_goes (fun hs => hs.noBlock) (fun _ hx => hx.wrV.xNext)

theorem vBinI_goes {h d a b f} : Goes s (vBinI h d a b f s) :=
  xVector_goes

theorem MemoriesCanonical.mPush {h} (hs : MemoriesCanonical s) : MemoriesCanonical (s.mPush h) :=
  hs.pushToken

theorem MemoriesCanonical.overrun (hs : MemoriesCanonical s) : MemoriesCanonical (s.overrun) :=
  hs.trap

theorem MemoriesCanonical.stampGate {stamp} (hs : MemoriesCanonical s) : AllCanonical (s.stampGate stamp) := by
  unfold State.stampGate
  exact .ite .none (.ite .none (.ite (.some hs.how) (.some hs.overrun)))

theorem MemoriesCanonical.mGate {h ks} (hs : MemoriesCanonical s) : AllCanonical (s.mGate h ks) := by
  unfold State.mGate
  dsimp only
  split
  · exact .some hs.illegal
  · split
    next t e =>
      exact .some (hs.stampGate _ e)
    · exact .ite (.some hs.stall) (.ite (.some hs.stall) (.ite (.some hs.stall) .none))

theorem MemoriesCanonical.mTake {h} (hs : MemoriesCanonical s) : MemoriesCanonical (s.mTake h) := by
  unfold State.mTake
  exact hs.modTb.how

theorem mWord_goes {h ks blk eff} (hb : MemoriesCanonical s → AllCanonical (blk s))
    (he : ∀ t, MemoriesCanonical t → MemoriesCanonical (eff t)) : Goes s (mWord h ks blk eff s) := by
  unfold mWord
  split
  · next t e => exact .next fun hs => hs.mGate t e
  · split
    · next t e => exact .next fun hs => hb hs t e
    · exact .next fun hs => he _ hs.mTake

theorem MemoriesCanonical.streamEnd {g k} (hs : MemoriesCanonical s) : MemoriesCanonical (s.streamEnd g k) := by
  unfold State.streamEnd
  exact .ite hs.modBank.schedule hs.modBank

theorem execMfin_goes {h} : Goes s (execMfin h s) := by
  unfold execMfin
  exact mWord_goes (fun hs => hs.noBlock) (fun _ hx => hx.mPush.modTb.streamEnd)

theorem MemoriesCanonical.gBlock {store release atom align va t} (hs : MemoriesCanonical t) : AllCanonical (gBlock store release atom align va t) := by
  unfold Machine.gBlock
  exact .ite (.some hs.trap) (.ite (.some hs.trap) (.ite (.some hs.trap) (.ite (.some hs.trap) (.ite (.some hs.trap) (.ite (.some hs.stall) (.ite (.some hs.stall) (.ite (.some hs.stall) (.ite (.some hs.stall) (.ite (.some hs.stall) .none)))))))))

theorem MemoriesCanonical.aGate {wait push srcs dsts extra} (hs : MemoriesCanonical s) : AllCanonical (s.aGate wait push srcs dsts extra) := by
  unfold State.aGate
  dsimp only
  split
  · exact .some hs.illegal
  · split
    · exact .some hs.stall
    · split
      · exact .some hs.stall
      · split
        · exact .some hs.stall
        · split
          · exact .some hs.stall
          · split
            · exact .some (.ite hs.stall hs.stall)
            · exact .none

theorem MemoriesCanonical.aTake {wait push srcs size} (hs : MemoriesCanonical s) : MemoriesCanonical (s.aTake wait push srcs size) := by
  unfold State.aTake
  exact hs.modTb.how

theorem aWord_goes {h srcs dsts extra blk eff} (hb : MemoriesCanonical s → AllCanonical (blk s))
    (he : ∀ t, MemoriesCanonical t → MemoriesCanonical (eff t)) : Goes s (aWord h srcs dsts extra blk eff s) := by
  unfold aWord
  split
  · next t e => exact .next fun hs => hs.aGate t e
  · split
    · next t e => exact .next fun hs => hb hs t e
    · exact .next fun hs => he _ hs.aTake

theorem MemoriesCanonical.aliasReport {g k stream col pc addr first second other} (hs : MemoriesCanonical s) : MemoriesCanonical (s.aliasReport g k stream col pc addr first second other) := by
  unfold State.aliasReport
  exact hs.traceAt.modPart

theorem MemoriesCanonical.aliasNote {g k pc cls sp wr addr size fromX} (hs : MemoriesCanonical s) : MemoriesCanonical (s.aliasNote g k pc cls sp wr addr size fromX) := by
  unfold State.aliasNote
  exact .ite hs (.modBank ((by
  split
  · exact .ite (.foldl (fun _ _ hx1 => (by
      split
      · exact .ite hx1.aliasReport hx1
      · exact hx1)) hs) (.foldl (fun _ _ hx4 => (by
      split
      · exact .ite hx4.aliasReport hx4
      · exact hx4)) (.foldl (fun _ _ hx1 => (by
      split
      · exact .ite hx1.aliasReport hx1
      · exact hx1)) hs))
  · exact .foldl (fun _ _ hx8 => (by
      split
      · exact .ite hx8.aliasReport hx8
      · exact hx8)) hs)))

theorem MemoriesCanonical.useFree (hs : MemoriesCanonical s) : MemoriesCanonical (s.useFree) :=
  hs.same

theorem MemoriesCanonical.digestNote {va size data} (hs : MemoriesCanonical s) : MemoriesCanonical (s.digestNote va size data) :=
  .ite hs hs.modTb

theorem MemoriesCanonical.send {t pre cls va body dst push acquire} (hs : MemoriesCanonical t) : MemoriesCanonical (t.send pre cls va body dst push acquire) := by
  unfold State.send
  exact .schedule (.useFree (.modTb (.ite hs hs.digestNote)))

theorem aGlobal_goes {h srcs dsts extra cls store release atom acq align va wr size body dst}
    (hd : ∀ t, MemoriesCanonical t → MemoriesCanonical (dst t).1) :
    Goes s (aGlobal h srcs dsts extra cls store release atom acq align va wr size body dst s) :=
  aWord_goes (fun hs => hs.gBlock) fun _ hx => (hd _ hx.aliasNote).send

theorem aReduce_goes {op h cls w64 rel a v} : Goes s (aReduce op h cls w64 rel a v s) := by
  unfold aReduce
  exact aGlobal_goes (fun _ hx => .pair hx)

theorem aLegal_goes {bad o} (ho : Goes s o) : Goes s (aLegal bad s o) := .ite (.next fun hs => hs.illegal) ho

theorem MemoriesCanonical.retirePush {push} (hs : MemoriesCanonical s) : MemoriesCanonical (s.retirePush push) := by
  unfold State.retirePush
  exact .pushToken (.ite hs.modTb hs)

theorem execCtxsw_goes {h b} : Goes s (execCtxsw h b s) := by
  unfold execCtxsw
  exact aLegal_goes (aWord_goes (fun hs => hs.noBlock) (fun _ hx => hx.modCoreOther.retirePush))

theorem MemoriesCanonical.ringTrap {t r} (hs : MemoriesCanonical t) : MemoriesCanonical (t.ringTrap r) :=
  hs.trap

theorem MemoriesCanonical.ringBlock {r n legal wait t} (hs : MemoriesCanonical t) : AllCanonical (ringBlock r n legal wait t) := by
  unfold Machine.ringBlock
  split
  · exact .some hs.illegal
  · split
    · exact .some hs.ringTrap
    · exact .ite (.some hs.ringTrap) (.ite (.some hs.stall) .none)

theorem execRgput_goes {h r n} : Goes s (execRgput h r n s) := by
  unfold execRgput
  exact aWord_goes (fun hs => hs.ringBlock) (fun _ hx => hx.setRing.slotOwner.retirePush)

theorem MemoriesCanonical.wrA {d v lat} (hs : MemoriesCanonical s) : MemoriesCanonical (s.wrA d v lat) := by
  unfold State.wrA
  exact .ite hs (.dite (fun _ => hs.modTb) (fun _ => hs.modTb.schedule))

theorem aResult_goes {h d srcs lat v} : Goes s (aResult h d srcs lat v s) := by
  unfold aResult
  exact aWord_goes (fun hs => hs.noBlock) (fun _ hx => hx.wrA.retirePush)

theorem aBin_goes {f h d a b} : Goes s (aBin f h d a b s) :=
  aResult_goes

theorem MemoriesCanonical.modJob {p f} (hs : MemoriesCanonical s) : MemoriesCanonical (s.modJob p f) :=
  hs.modPart

theorem MemoriesCanonical.modQueue {p q f} (hs : MemoriesCanonical s) : MemoriesCanonical (s.modQueue p q f) :=
  hs.modJob

theorem MemoriesCanonical.syncQueue {p q} (hs : MemoriesCanonical s) : MemoriesCanonical (s.syncQueue p q) := by
  unfold State.syncQueue
  dsimp only
  split
  · exact hs
  · exact .rawWriteN (.rawWriteN (.ite hs.rawWriteN.rawWriteN hs.rawWriteN))

theorem MemoriesCanonical.setQueue {p q f} (hs : MemoriesCanonical s) : MemoriesCanonical (s.setQueue p q f) :=
  hs.modQueue.syncQueue

theorem MemoriesCanonical.writeRecord {p q x r} (hs : MemoriesCanonical s) : MemoriesCanonical (s.writeRecord p q x r) := by
  unfold State.writeRecord
  exact hs.rawWriteN.setQueue.modDev

theorem MemoriesCanonical.putRecord {p q r} (hs : MemoriesCanonical s) : MemoriesCanonical (s.putRecord p q r) := by
  unfold State.putRecord
  split
  · exact hs
  · exact .ite hs (.ite hs.writeRecord hs.setQueue)

theorem MemoriesCanonical.endJobRecord {p status reason} (hs : MemoriesCanonical s) : MemoriesCanonical (s.endJobRecord p status reason) := by
  unfold State.endJobRecord
  exact hs.putRecord

theorem MemoriesCanonical.endEntry {p q seq status reason} (hs : MemoriesCanonical s) : MemoriesCanonical (s.endEntry p q seq status reason) := by
  unfold State.endEntry
  dsimp only
  split
  · exact hs
  · exact hs.putRecord.modJob

theorem MemoriesCanonical.cancelQueue {p q} (hs : MemoriesCanonical s) : MemoriesCanonical (s.cancelQueue p q) := by
  unfold State.cancelQueue
  dsimp only
  split
  · exact hs
  · exact .setQueue (.foldl (fun _ _ hx2 => .ite hx2 hx2.endEntry) hs)

theorem MemoriesCanonical.disableQueues {p} (hs : MemoriesCanonical s) : MemoriesCanonical (s.disableQueues p) :=
  .foldl (fun _ _ hx => (by
  split
  · exact hx
  · exact hx.cancelQueue.setQueue)) hs

theorem execJobCompletion_goes : Goes s (execJobCompletion s) := by
  unfold execJobCompletion
  dsimp only
  split
  · exact .next fun hs => hs
  · exact .ite (.next fun hs => hs) (.next fun hs => hs.modJob.endJobRecord.disableQueues.modPart)

theorem MemoriesCanonical.forceClose {p} (hs : MemoriesCanonical s) : MemoriesCanonical (s.forceClose p) := by
  unfold State.forceClose
  exact hs.modJob.schedule

theorem execClosePhase_goes : Goes s (execClosePhase s) := by
  unfold execClosePhase
  exact .ite (.next fun hs => hs) (.next fun hs => .ite hs.modPart hs.modPart.forceClose)

theorem MemoriesCanonical.priSend {p} {l : List PageFault} (hs : MemoriesCanonical s) : MemoriesCanonical (s.priSend p l) := by
  induction l generalizing s with
  | nil => exact hs
  | cons f l ih =>
    unfold State.priSend
    split
    · exact hs
    · dsimp only
      split
      · exact ih hs
      · exact ih hs.modJob.modDev

theorem MemoriesCanonical.priRefill {p} (hs : MemoriesCanonical s) : MemoriesCanonical (s.priRefill p) := by
  unfold State.priRefill
  exact .ite hs hs.priSend.modPart

theorem MemoriesCanonical.writeFltctl {p w} (hs : MemoriesCanonical s) : MemoriesCanonical (s.writeFltctl p w) :=
  hs.modPart.priRefill

theorem vUnF_goes {h d a l f} : Goes s (vUnF h d a l f s) := by
  unfold vUnF
  exact xVector_goes

theorem MemoriesCanonical.provRecord {d r} (hs : MemoriesCanonical s) : MemoriesCanonical (s.provRecord d r) :=
  hs.modDie

theorem MemoriesCanonical.arrEvents {cl id evs} (hs : MemoriesCanonical s) : MemoriesCanonical (s.arrEvents cl id evs) := by
  unfold State.arrEvents
  exact .foldl (fun _ _ hx => (by
  split
  · exact hx
  · exact .ite hx.modDie hx.provRecord.modCmd)) hs

theorem execDrainWrite_goes : Goes s (execDrainWrite s) := by
  unfold execDrainWrite
  dsimp only
  split
  · exact .next fun hs => hs
  · split
    · exact .next fun hs => hs.scheduleAt
    · exact .ite (.next fun hs => hs.takeWide) (.next fun hs => .putOut (.arrEvents (.foldl (fun _ _ hx4 => hx4.spWrite) hs)))

theorem execRgwfill_goes {h d r n} : Goes s (execRgwfill h d r n s) := by
  unfold execRgwfill
  exact aWord_goes (fun hs => hs.ringBlock) (fun _ hx => hx.wrA.retirePush)

theorem MemoriesCanonical.addCmd {t a} (hs : MemoriesCanonical t) : MemoriesCanonical (t.addCmd a) := by
  unfold State.addCmd
  exact .ite (.schedule (.schedule (.ite hs.modCluster.modCoreOther hs.modCluster))) (.schedule (.ite hs.modCluster.modCoreOther hs.modCluster))

theorem MemoriesCanonical.leaseWait {t} (hs : MemoriesCanonical t) : MemoriesCanonical (t.leaseWait) :=
  hs.stall

theorem MemoriesCanonical.grant {cl i} (hs : MemoriesCanonical s) : MemoriesCanonical (s.grant cl i) := by
  unfold State.grant
  exact hs.modCluster.schedule

theorem MemoriesCanonical.askLease {t asks} (hs : MemoriesCanonical t) : MemoriesCanonical (t.askLease asks).1 := by
  unfold State.askLease
  dsimp only
  split
  · exact .pair hs
  · split
    · exact .pair hs
    · split
      · exact .pair hs.grant
      · exact .pair hs.modCluster

theorem MemoriesCanonical.leaseGate {h ks lease} (hs : MemoriesCanonical s) : MemoriesCanonical (s.leaseGate h ks lease).1 := by
  have ha : MemoriesCanonical (if s.tb.detm || !s.tb.bindsM h then (s, true) else s.askLease true).1 := .iteFst hs hs.askLease
  unfold State.leaseGate
  dsimp only
  split
  · next t e => exact ha.mGate t e
  · have hb : MemoriesCanonical (if s.tb.detm then s.askLease lease
        else (if s.tb.detm || !s.tb.bindsM h then (s, true) else s.askLease true)).1 := .iteFst hs.askLease ha
    exact .iteFst hb (.pair hb.leaseWait)

theorem mCommand_goes {h ks pre build eff} (hp : ∀ t, MemoriesCanonical t → AllCanonical (pre t))
    (he : ∀ t, MemoriesCanonical t → MemoriesCanonical (eff t)) : Goes s (mCommand h ks pre build eff s) := by
  unfold mCommand
  split
  · next t e => exact .next fun hs => hs.leaseGate.fst e
  · next t e =>
    split
    · next u e' => exact .next fun hs => hp _ (hs.leaseGate.fst e) u e'
    · exact .next fun hs => he _ (hs.leaseGate.fst e).mTake.addCmd

theorem MemoriesCanonical.setTrap {t tile} (hs : MemoriesCanonical t) : MemoriesCanonical (setTrap t tile) :=
  hs.trap

theorem MemoriesCanonical.setCheck {t wr tiles} (hs : MemoriesCanonical t) : AllCanonical (t.setCheck wr tiles) := by
  unfold State.setCheck
  split
  · exact .some hs.setTrap
  · exact .none

theorem MemoriesCanonical.matrixTrap {t n} (hs : MemoriesCanonical t) : MemoriesCanonical (matrixTrap t n) :=
  hs.trap

theorem MemoriesCanonical.pieceCheck {t runs align n why bad} (hs : MemoriesCanonical t) : AllCanonical (t.pieceCheck runs align n why bad) := by
  unfold State.pieceCheck
  dsimp only
  split
  next t e =>
    exact .some (hs.setCheck _ e)
  · exact .ite (.some hs.matrixTrap) .none

theorem MemoriesCanonical.partsCheck {t u} (hs : MemoriesCanonical t) : AllCanonical (t.partsCheck u) := by
  unfold State.partsCheck
  exact .orElse (.ite hs.pieceCheck .none) (fun _ => .ite .none hs.pieceCheck)

theorem MemoriesCanonical.descCheck {t a} (hs : MemoriesCanonical t) : AllCanonical (t.descCheck a) := by
  unfold State.descCheck
  exact hs.pieceCheck

theorem MemoriesCanonical.reserveOut {t r id} (hs : MemoriesCanonical t) : MemoriesCanonical (t.reserveOut r id) := by
  unfold State.reserveOut
  exact hs.setRing.slotOwner

theorem MemoriesCanonical.freeWait {t r} (hs : MemoriesCanonical t) : AllCanonical (t.freeWait r) := by
  unfold State.freeWait
  exact .ite (.some hs.stall) .none

theorem MemoriesCanonical.writeRing {t r} (hs : MemoriesCanonical t) : AllCanonical (t.writeRing r) := by
  unfold State.writeRing
  split
  · exact .some hs.ringTrap
  · exact .ite (.some hs.ringTrap) .none

theorem MemoriesCanonical.formatTrap {t f} (hs : MemoriesCanonical t) : MemoriesCanonical (formatTrap t f) :=
  hs.trap

theorem MemoriesCanonical.accUse {t acc} (hs : MemoriesCanonical t) : AllCanonical (t.accUse acc) := by
  unfold State.accUse
  split
  · exact .some hs.trap
  · exact .none

theorem MemoriesCanonical.countWait {t} (hs : MemoriesCanonical t) : AllCanonical (t.countWait) :=
  .ite (.some hs.stall) .none

theorem execMdrain_goes {h tt c q ro acc f ko} : Goes s (execMdrain h tt c q ro acc f ko s) := by
  unfold execMdrain
  exact mCommand_goes (fun _ hs => .orElse hs.accUse (fun _ => .orElse (.ite .none (.some hs.formatTrap)) (fun _ => .orElse hs.writeRing (fun _ => .orElse hs.countWait (fun _ => .orElse hs.freeWait (fun _ => .orElse hs.setCheck (fun _ => (by
  split
  · exact .none
  · exact .orElse hs.descCheck (fun _ => hs.partsCheck))))))))) (fun _ hx2 => hx2.reserveOut.modCore (fun _ hc3 => .ite hc3.accTake.same hc3.accTake))

theorem MemoriesCanonical.sealFire {p} (hs : MemoriesCanonical s) : MemoriesCanonical (s.sealFire p) := by
  unfold State.sealFire
  dsimp only
  split
  · exact hs
  · exact .ite hs hs.modJob.schedule

theorem MemoriesCanonical.dropFlit (hs : MemoriesCanonical s) : MemoriesCanonical (s.dropFlit) :=
  hs.modDev

theorem execSpanSeal_goes : Goes s (execSpanSeal s) := by
  unfold execSpanSeal
  dsimp only
  split
  · exact .next fun hs => hs.dropFlit
  · exact .ite (.next fun hs => hs) (.next fun hs => hs.modJob.sealFire)

theorem MemoriesCanonical.writeReplayctl {p w} (hs : MemoriesCanonical s) : MemoriesCanonical (s.writeReplayctl p w) := by
  unfold State.writeReplayctl
  exact .ite hs hs.modPart

theorem vTerF_goes {h d a b c l f} : Goes s (vTerF h d a b c l f s) := by
  unfold vTerF
  exact xVector_goes

theorem execRgrotExchange_goes : Goes s (execRgrotExchange s) := by
  unfold execRgrotExchange
  exact .next fun hs => .schedule (.foldl (fun _ _ hx => hx.modCore (fun _ hc1 => (by
  split
  · exact hc1.useWide
  · exact hc1))) hs.modCluster)

theorem MemoriesCanonical.windowView {d phys} (hs : MemoriesCanonical s) : MemoriesCanonical (s.windowView d phys).1 := by
  unfold State.windowView
  dsimp only
  split
  · exact .pair hs
  · exact .pair (hs.modDie.modCore fun _ _ => CoreCanonical.reset).modCluster

theorem MemoriesCanonical.fwRaise {code die unit data} (hs : MemoriesCanonical s) : MemoriesCanonical (s.fwRaise code die unit data) := by
  unfold State.fwRaise
  exact hs.modDev

theorem MemoriesCanonical.raiseOverflow {d pa} (hs : MemoriesCanonical s) : MemoriesCanonical (s.raiseOverflow d pa) :=
  hs.fwRaise.useFree

theorem MemoriesCanonical.overflowBlocked {d pas} (hs : MemoriesCanonical s) : AllCanonical (s.overflowBlocked d pas) :=
  .map (fun _ => hs.raiseOverflow)

theorem MemoriesCanonical.mergesBlocked {p vas} (hs : MemoriesCanonical s) : AllCanonical (s.mergesBlocked p vas) :=
  AllCanonical.findSome (fun _ => (by
  split
  · exact .ite hs.overflowBlocked .none
  · exact .none))

theorem MemoriesCanonical.recordPut {p e} (hs : MemoriesCanonical s) : MemoriesCanonical (s.recordPut p e) :=
  .ite hs.ringPut hs

theorem MemoriesCanonical.pressure {p d stack} (hs : MemoriesCanonical s) : MemoriesCanonical (s.pressure p d stack) := by
  unfold State.pressure
  exact .ite (.modDie (.ite hs hs.fwRaise)) (.ite (.forceClose (.modJob (.modDie (.ite hs hs.fwRaise)))) (.schedule (.forceClose (.modJob (.modDie (.ite hs hs.fwRaise))))))

theorem MemoriesCanonical.modStack {d k f} (hs : MemoriesCanonical s) : MemoriesCanonical (s.modStack d k f) :=
  hs.modDie

theorem MemoriesCanonical.tagLine {p d pa} (hs : MemoriesCanonical s) : MemoriesCanonical (s.tagLine p d pa) := by
  unfold State.tagLine
  exact .ite hs (.ite hs.modStack.pressure hs.modStack)

theorem MemoriesCanonical.applyMerge {p d e} (hs : MemoriesCanonical s) : MemoriesCanonical (s.applyMerge p d e) := by
  unfold State.applyMerge
  exact hs.tagLine.hbmWriteLE.recordPut.useFree

theorem MemoriesCanonical.flushLines {p d pas} (hs : MemoriesCanonical s) : MemoriesCanonical (s.flushLines p d pas) := by
  unfold State.flushLines
  exact .foldl (fun _ _ hx => .ite hx (.foldl (fun _ _ hx1 => hx1.applyMerge) hx.modStack)) hs

theorem MemoriesCanonical.flushAt {p vas} (hs : MemoriesCanonical s) : MemoriesCanonical (s.flushAt p vas) :=
  .foldl (fun _ _ hx => .ite hx hx.flushLines) hs

theorem MemoriesCanonical.sectorErrors (hs : MemoriesCanonical s) : MemoriesCanonical (s.sectorErrors) := by
  unfold State.sectorErrors
  exact .foldl (fun _ _ hx => .ite hx.modDie (.ite hx.hbmWriteLE.useFree hx)) hs

theorem MemoriesCanonical.walkPage {p page} (hs : MemoriesCanonical s) : MemoriesCanonical (s.walkPage p page) := by
  unfold State.walkPage
  dsimp only
  split
  · exact hs
  · exact hs.modDie

theorem MemoriesCanonical.walkNow {p vas} (hs : MemoriesCanonical s) : MemoriesCanonical (s.walkNow p vas) :=
  .foldl (fun _ _ hx => hx.walkPage) hs

theorem MemoriesCanonical.inboundError {p va} (hs : MemoriesCanonical s) : MemoriesCanonical (s.inboundError p va) :=
  hs.modDie

theorem execInboundHostRead_goes : Goes s (execInboundHostRead s) := by
  unfold execInboundHostRead
  dsimp only
  split
  · exact .next fun hs => hs.useFree.schedule
  · split
    · exact .next fun hs => hs.modDev
    · split
      · exact .next fun hs => hs.sectorErrors.walkNow.inboundError.modDev
      · split
        next t e =>
          exact .next fun hs => (hs.sectorErrors.walkNow.mergesBlocked _ e).useFree.schedule
        · exact .next fun hs => hs.sectorErrors.walkNow.flushAt.modDev

theorem MemoriesCanonical.consume {p vas} (hs : MemoriesCanonical s) : MemoriesCanonical (s.consume p vas) := by
  unfold State.consume
  dsimp only
  split
  · exact hs
  · exact hs.schedule

theorem MemoriesCanonical.readBlock {t cls va n} (hs : MemoriesCanonical t) : AllCanonical (s.readBlock t cls va n) := by
  unfold State.readBlock
  dsimp only
  split
  · exact .some hs.trap
  · split
    · exact .some hs.trap
    · split
      · exact .some hs.stall
      · split
        · exact .ite (.some hs.consume.stall) .none
        · exact .ite (.some hs.stall) (.some hs.send.stall)

theorem MemoriesCanonical.readBlocks {t cls l} (hs : MemoriesCanonical t) : AllCanonical (s.readBlocks t cls l) :=
  AllCanonical.findSome (fun _ => hs.readBlock)

theorem MemoriesCanonical.copyWait {t} (hs : MemoriesCanonical t) : AllCanonical (copyWait t) := by
  unfold Machine.copyWait
  exact .ite (.some hs.stall) (.ite (.some hs.stall) (.ite (.some hs.stall) .none))

theorem MemoriesCanonical.ringPutBlock {rp ent t} (hs : MemoriesCanonical t) : AllCanonical (ringPutBlock rp ent t) := by
  unfold Machine.ringPutBlock
  split
  · exact .none
  · split
    · exact .some hs.ringTrap
    · exact .ite (.some hs.ringTrap) (.ite (.some hs.stall) .none)

theorem aCopy_goes {h srcs rp glob blk cmd} (hb : MemoriesCanonical s → AllCanonical (blk s)) :
    Goes s (aCopy h srcs rp glob blk cmd s) := by
  unfold aCopy
  refine .ite (.next fun hs => hs.illegal) ?_
  split
  · next t e => exact .next fun hs => hs.stampGate t e
  · split
    · next t e => exact .next fun hs => hs.aGate t e
    · refine .ite (.next fun hs => hs.trap) ?_
      split
      · next t e => exact .next fun hs => hs.copyWait t e
      · split
        · next t e => exact .next fun hs => hb hs t e
        · split
          · next t e => exact .next fun hs => hs.ringPutBlock t e
          · dsimp only
            refine .next fun hs => .schedule (.modDie (.modTb ?_))
            split
            · split
              · exact hs.aTake.setRing
              · exact hs.aTake
            · exact hs.aTake

theorem aCopy2_goes {op h ss ds rp d x l} : Goes s (aCopy2 op h ss ds rp d x l s) := by
  unfold aCopy2
  refine aCopy_goes fun hs => ?_
  split
  · exact .some hs.trap
  · split
    · next t e => exact .some (hs.readBlocks _ e)
    · dsimp only
      generalize List.findSome? id _ = o
      rcases o with _ | ⟨c, d0, d1⟩
      · exact .none
      · exact .some hs.trap

theorem execLineTagSweep_goes : Goes s (execLineTagSweep s) := by
  unfold execLineTagSweep
  dsimp only
  split
  · exact .next fun hs => hs
  · exact .next fun hs => hs.modDie

theorem MemoriesCanonical.loadDst {t d size sx} (hs : MemoriesCanonical t) : MemoriesCanonical (t.loadDst d size sx).1 := by
  unfold State.loadDst
  dsimp only
  split
  · exact .pair hs
  · split
    · exact .pair hs
    · exact .pair hs.modTb

theorem aAtomic_goes {op h cls w64 sem d a v} : Goes s (aAtomic op h cls w64 sem d a v s) := by
  unfold aAtomic
  exact aGlobal_goes (fun _ hx => hx.loadDst)

theorem MemoriesCanonical.arrive {t c drain} (hs : MemoriesCanonical t) : MemoriesCanonical (t.arrive c drain) := by
  unfold State.arrive
  exact hs.modTb.schedule

theorem MemoriesCanonical.colFault {t c reason} (hs : MemoriesCanonical t) : MemoriesCanonical (t.colFault c reason) := by
  unfold State.colFault
  exact .trap (.ite hs hs.modPart)

theorem MemoriesCanonical.arriveBlock {c t} (hs : MemoriesCanonical t) : AllCanonical (arriveBlock c t) := by
  unfold Machine.arriveBlock
  exact .ite (.some hs.stall) (.ite (.some hs.colFault) (.ite (.some hs.colFault) (.ite (.some hs.colFault) .none)))

theorem MemoriesCanonical.colBlock {c t} (hs : MemoriesCanonical t) : AllCanonical (colBlock c t) := by
  unfold Machine.colBlock
  exact .ite (.some hs.colFault) (.ite (.some hs.stall) .none)

theorem MemoriesCanonical.colDone {t c} (hs : MemoriesCanonical t) : MemoriesCanonical (t.colDone c) :=
  hs.modTb

theorem execColsync_goes {h b} : Goes s (execColsync h b s) := by
  unfold execColsync
  exact aWord_goes (fun hs => (by
  split
  · exact hs.colBlock
  · split
    next t e =>
      exact .some (hs.arriveBlock _ e)
    · exact .some hs.arrive.modTb.stall)) (fun _ hx2 => hx2.colDone.retirePush)

theorem MemoriesCanonical.domNext {t n} (hs : MemoriesCanonical t) : MemoriesCanonical (t.domNext n) :=
  hs.modTc

theorem MemoriesCanonical.domRun {t h} (hs : MemoriesCanonical t) : MemoriesCanonical (t.domRun s h) := by
  unfold State.domRun
  exact hs.modTb.domNext.xPush

theorem MemoriesCanonical.domInit {t h x keep} (hs : MemoriesCanonical t) : MemoriesCanonical (t.domInit s h x keep) := by
  unfold State.domInit
  dsimp only
  split
  · exact .ite hs.modTb.xPush.modTc hs.modTb.xPush.modTc.takeTrapAt
  · exact hs.modTb.domRun

theorem domIssue_goes {h n l srcs blk eff} (hb : MemoriesCanonical s → AllCanonical (blk s))
    (he : ∀ t, MemoriesCanonical t → MemoriesCanonical (eff t)) : Goes s (domIssue h n l srcs blk eff s) := by
  unfold domIssue
  obtain ⟨t, ht, hc⟩ := xIssue_goes (h := h) (l := l) (srcs := srcs) hb he
  rw [ht]
  exact .ite (.next fun hs => hs.illegal) (.next fun hs => .ite (hc hs).modTc (hc hs))

theorem domRel_goes {h keep srcs op c a b k} : Goes s (domRel h keep srcs op c a b k s) := by
  unfold domRel
  exact domIssue_goes (fun hs => .ite (.some hs.trap) .none) (fun _ hx => hx.domInit)

theorem MemoriesCanonical.readRing {t r n} (hs : MemoriesCanonical t) : AllCanonical (t.readRing r n) := by
  unfold State.readRing
  split
  · exact .some hs.ringTrap
  · exact .ite (.some hs.ringTrap) .none

theorem MemoriesCanonical.claim {t r n} (hs : MemoriesCanonical t) : MemoriesCanonical (t.claim r n) := by
  unfold State.claim
  exact .ite hs hs.setRing.slotOwner

theorem MemoriesCanonical.fillWait {t r n} (hs : MemoriesCanonical t) : AllCanonical (t.fillWait r n) := by
  unfold State.fillWait
  exact .ite (.some hs.stall) .none

theorem MemoriesCanonical.smodeCheck {t u} (hs : MemoriesCanonical t) : AllCanonical (t.smodeCheck u) := by
  unfold State.smodeCheck
  exact .ite (.some hs.matrixTrap) .none

theorem execMmul_goes {h tt c ra rb acc ks fa fb bm nm ka kb wl i32} : Goes s (execMmul h tt c ra rb acc ks fa fb bm nm ka kb wl i32 s) := by
  unfold execMmul
  exact mCommand_goes (fun _ hs => .orElse hs.accUse (fun _ => .orElse (.ite (.some hs.matrixTrap) .none) (fun _ => .orElse (by
  split
  · exact .some hs.formatTrap
  · exact .none) (fun _ => .orElse hs.readRing (fun _ => .orElse (.ite .none hs.readRing) (fun _ => .orElse (.ite (.some hs.ringTrap) .none) (fun _ => .orElse hs.countWait (fun _ => .orElse hs.fillWait (fun _ => .orElse (.ite .none hs.fillWait) (fun _ => .orElse hs.setCheck (fun _ => .orElse hs.descCheck (fun _ => .orElse (.ite .none hs.descCheck) (fun _ => .orElse hs.partsCheck (fun _ => .orElse (.ite .none hs.partsCheck) (fun _ => .orElse hs.smodeCheck (fun _ => .orElse (.ite .none hs.smodeCheck) (fun _ => .orElse (.ite (.some hs.matrixTrap) .none) (fun _ => .orElse (.ite (.some hs.matrixTrap) .none) (fun _ => .ite (.some hs.matrixTrap) .none))))))))))))))))))) (fun _ hx2 => hx2.claim.claim.modCore (fun _ hc3 => hc3.accTake.same))

theorem xControl_goes {h srcs blk eff} (hb : MemoriesCanonical s → AllCanonical (blk s))
    (he : ∀ t, MemoriesCanonical t → MemoriesCanonical (eff t)) : Goes s (xControl h srcs blk eff s) :=
  .ite (.next fun hs => hs.illegal) (xIssue_goes hb he)

theorem execCcset_goes {h b} : Goes s (execCcset h b s) := by
  unfold execCcset
  exact xControl_goes (fun hs => hs.noBlock) (fun _ hx => hx.modTc.xNext.xPush)

theorem MemoriesCanonical.holdByte {p die tagged va b} (hs : MemoriesCanonical s) : MemoriesCanonical (s.holdByte p die tagged va b) := by
  unfold State.holdByte
  exact hs.same.modDie

theorem MemoriesCanonical.storeByte {p die tagged va b} (hs : MemoriesCanonical s) : MemoriesCanonical (s.storeByte p die tagged va b) := by
  unfold State.storeByte
  dsimp only
  split
  · exact hs.holdByte
  · split
    · exact .hbmWrite (.ite hs.tagLine hs)
    · exact hs.hostWrite
    · exact hs

theorem MemoriesCanonical.clearPoison {d pas} (hs : MemoriesCanonical s) : MemoriesCanonical (s.clearPoison d pas) :=
  .ite hs hs.modDie

theorem MemoriesCanonical.storeBytes {p die tagged ws} (hs : MemoriesCanonical s) : MemoriesCanonical (s.storeBytes p die tagged ws) := by
  unfold State.storeBytes
  exact .useFree (.foldl (fun _ _ hx1 => hx1.clearPoison) (.foldl (fun _ _ hx => hx.storeByte) hs))

theorem MemoriesCanonical.writeUntagged {p va data} (hs : MemoriesCanonical s) : MemoriesCanonical (s.writeUntagged p va data) :=
  hs.flushAt.storeBytes

theorem MemoriesCanonical.holdPressure {p d} (hs : MemoriesCanonical s) : MemoriesCanonical (s.holdPressure p d) := by
  unfold State.holdPressure
  exact .ite hs.modDie (.ite hs.modDie.modJob.forceClose hs.modDie.modJob.forceClose.schedule)

theorem MemoriesCanonical.raiseBlocked {p die tagged vas why} (hs : MemoriesCanonical s) : MemoriesCanonical (s.raiseBlocked p die tagged vas why) := by
  unfold State.raiseBlocked
  dsimp only
  split
  · exact hs.holdPressure
  · exact hs.raiseOverflow
  · exact hs.pressure
  · exact hs

theorem MemoriesCanonical.inboundBlocked {p tagged vas} (hs : MemoriesCanonical s) : AllCanonical (s.inboundBlocked p tagged vas) := by
  unfold State.inboundBlocked
  dsimp only
  split
  · exact .some hs.raiseBlocked
  · exact hs.mergesBlocked

theorem MemoriesCanonical.pokeRecords {p} (hs : MemoriesCanonical s) : MemoriesCanonical (s.pokeRecords p) := by
  unfold State.pokeRecords
  exact .foldl (fun _ _ hx => (by
  split
  · exact .ite hx.schedule hx
  · exact hx)) hs

theorem execRecordedInputInject_goes : Goes s (execRecordedInputInject s) := by
  unfold execRecordedInputInject
  dsimp only
  split
  · exact .next fun hs => hs
  · split
    next t e =>
      exact .next fun hs => (hs.inboundBlocked _ e).schedule
    · exact .next fun hs => hs.writeUntagged.pokeRecords

theorem MemoriesCanonical.wrS {h d v l fl} (hs : MemoriesCanonical s) : MemoriesCanonical (s.wrS h d v l fl) :=
  hs.modTb

theorem execVredsumU_goes {h d a} : Goes s (execVredsumU h d a s) := by
  unfold execVredsumU
  exact xIssue_goes (fun hs => hs.noBlock) (fun _ hx => hx.useFree.wrS.xNext)

theorem domCon_goes {h srcs f} : Goes s (domCon h srcs f s) := by
  unfold domCon
  exact domIssue_goes (fun hs => hs.noBlock) (fun _ hx => hx.domInit)

theorem MemoriesCanonical.retireLater {t n push q id} (hs : MemoriesCanonical t) : MemoriesCanonical (t.retireLater n push q id) := by
  unfold State.retireLater
  exact .ite hs hs.schedule

theorem MemoriesCanonical.wrALater {t d v n push} (hs : MemoriesCanonical t) : MemoriesCanonical (t.wrALater d v n push) := by
  unfold State.wrALater
  exact .ite hs.wrA.retireLater hs.modTb.retireLater

theorem MemoriesCanonical.pokeQueue {p q} (hs : MemoriesCanonical s) : MemoriesCanonical (s.pokeQueue p q) := by
  unfold State.pokeQueue
  dsimp only
  split
  · exact hs
  · exact .ite hs (.ite hs.schedule hs.schedule)

theorem MemoriesCanonical.produce {p q va} (hs : MemoriesCanonical s) : MemoriesCanonical (s.produce p q va) := by
  unfold State.produce
  dsimp only
  split
  · exact hs
  · exact hs.rawWriteN.setQueue.pokeQueue

theorem execLnch_goes {h d r q} : Goes s (execLnch h d r q s) := by
  unfold execLnch
  exact aWord_goes (fun hs => (by
  split
  · exact .some hs.trap
  · split
    · exact .some hs.trap
    · split
      next t e =>
        exact .some (hs.readBlock _ e)
      · exact .ite .none (.ite (.some hs.stall) (.ite (.some hs.stall) .none)))) (fun _ hx2 => (by
  split
  · exact hx2.wrA.retirePush
  · split
    · exact hx2
    · exact hx2.produce.wrALater))

theorem execCoolantShortfall_goes : Goes s (execCoolantShortfall s) := by
  unfold execCoolantShortfall
  exact .next fun hs => .ite hs.modDev.fwRaise hs

theorem vBinF_goes {h d a b l f} : Goes s (vBinF h d a b l f s) := by
  unfold vBinF
  exact xVector_goes

theorem MemoriesCanonical.restoreRecord {d k r} (hs : MemoriesCanonical s) : MemoriesCanonical (s.restoreRecord d k r) := by
  unfold State.restoreRecord
  exact hs.hbmWriteLE.modStack.modDie

theorem MemoriesCanonical.restoreStack {d k} (hs : MemoriesCanonical s) : MemoriesCanonical (s.restoreStack d k) := by
  unfold State.restoreStack
  exact .modStack (.foldl (fun _ _ hx => hx.restoreRecord) hs)

theorem MemoriesCanonical.restore {p} (hs : MemoriesCanonical s) : MemoriesCanonical (s.restore p) :=
  .foldl (fun _ _ hx => hx.restoreStack.restoreStack) hs

theorem MemoriesCanonical.pokeQueues {p} (hs : MemoriesCanonical s) : MemoriesCanonical (s.pokeQueues p) :=
  .foldl (fun _ _ hx => hx.pokeQueue) hs

theorem MemoriesCanonical.eventOp {p ctx f} (hs : MemoriesCanonical s) : MemoriesCanonical (s.eventOp p ctx f) :=
  hs.modJob.pokeQueues

theorem MemoriesCanonical.modItem {p num f} (hs : MemoriesCanonical s) : MemoriesCanonical (s.modItem p num f) :=
  hs.modJob

theorem MemoriesCanonical.itemDone {p i} (hs : MemoriesCanonical s) : MemoriesCanonical (s.itemDone p i) := by
  unfold State.itemDone
  dsimp only
  split
  · exact .ite (.schedule (.ite (.pokeQueues (.ite hs.modItem.putRecord.modJob.eventOp hs.modItem.putRecord.modJob)) (.ite hs.modItem.putRecord.modJob.eventOp hs.modItem.putRecord.modJob))) (.ite (.pokeQueues (.ite hs.modItem.putRecord.modJob.eventOp hs.modItem.putRecord.modJob)) (.ite hs.modItem.putRecord.modJob.eventOp hs.modItem.putRecord.modJob))
  · exact .ite (.pokeQueues (.ite hs.modItem.putRecord.modJob.eventOp hs.modItem.putRecord.modJob)) (.ite hs.modItem.putRecord.modJob.eventOp hs.modItem.putRecord.modJob)

theorem MemoriesCanonical.endItems {p} (hs : MemoriesCanonical s) : MemoriesCanonical (s.endItems p) := by
  unfold State.endItems
  split
  · exact hs
  · exact .foldl (fun _ _ hx2 => hx2.modItem.itemDone) hs

theorem core_mapCores {p f} (g : Fin 512) : (s.mapCores p f).core g = if s.inPart p g then f g (s.core g) else s.core g :=
  Vector.get_ofFn ..

theorem MemoriesCanonical.mapCores {p f} (hf : ∀ g c, CoreCanonical c → CoreCanonical (f g c)) (hs : MemoriesCanonical s) :
    MemoriesCanonical (s.mapCores p f) := by
  have hc (g) : CoreCanonical ((s.mapCores p f).core g) := by
    rw [core_mapCores]
    split
    · exact hf g _ (hs.core g)
    · exact hs.core g
  exact ⟨by simpa only [State.mapCores] using hs.hbm, by simpa only [State.mapCores] using hs.host, fun g => (hc g).1, fun g => (hc g).2⟩

theorem MemoriesCanonical.mapCoresOther {p f} (hs : MemoriesCanonical s) (sp : ∀ g c, (f g c).sp = c.sp := by exact fun _ _ => rfl)
    (shadow : ∀ g c, (f g c).spShadow = c.spShadow := by exact fun _ _ => rfl) : MemoriesCanonical (s.mapCores p f) :=
  hs.mapCores fun g c hc => ⟨sp g c ▸ hc.1, shadow g c ▸ hc.2⟩

theorem MemoriesCanonical.keepHalted {p} (hs : MemoriesCanonical s) : MemoriesCanonical (s.keepHalted p) :=
  .ite hs.modPart.mapCoresOther hs

theorem MemoriesCanonical.stopAll {p} (hs : MemoriesCanonical s) : MemoriesCanonical (s.stopAll p) := by
  unfold State.stopAll
  exact .modPart (.modJob (.modDev (.mapCores (fun _ _ hc2 => hc2.wiped) (.foldl (fun _ _ hx1 => hx1.modCluster) (.foldl (fun _ _ hx => hx.modDie) hs.unschedule)))))

theorem MemoriesCanonical.dropUndo {p} (hs : MemoriesCanonical s) : MemoriesCanonical (s.dropUndo p) :=
  .foldl (fun _ _ hx => hx.modDie) hs

theorem MemoriesCanonical.killJob {p cause} (hs : MemoriesCanonical s) : MemoriesCanonical (s.killJob p cause) := by
  unfold State.killJob
  exact .ite hs (.keepHalted (.modPart (.modJob (.endJobRecord (.disableQueues (.endItems (.modPart (.ite hs.stopAll.dropUndo hs.stopAll.restore))))))))

theorem execUndoTimeout_goes : Goes s (execUndoTimeout s) := by
  unfold execUndoTimeout
  dsimp only
  split
  · exact .next fun hs => .ite hs.killJob hs
  · exact .next fun hs => hs

theorem MemoriesCanonical.rotBound (hs : MemoriesCanonical s) : MemoriesCanonical (s.rotBound) := by
  unfold State.rotBound
  dsimp only
  split
  · exact hs
  · exact .ite hs (.ite hs.takeTrapAt hs.schedule)

theorem execWaitBound_goes : Goes s (execWaitBound s) := by
  unfold execWaitBound
  split
  · exact .next fun hs => hs.rotBound
  · split
    · exact .next fun hs => hs.trap
    · exact .next fun hs => hs

theorem MemoriesCanonical.invalidate {p rank va len push inv} (hs : MemoriesCanonical s) : MemoriesCanonical (s.invalidate p rank va len push inv) := by
  unfold State.invalidate
  dsimp only
  split
  · exact hs.schedule
  · exact hs.modDie.same.schedule

theorem MemoriesCanonical.mailboxDone {r} (hs : MemoriesCanonical s) : MemoriesCanonical (s.mailboxDone r) :=
  hs.modDev

theorem mailbox_goes {n feat f} (hf : ∀ l t, MemoriesCanonical t → MemoriesCanonical (f l t).1) : Goes s (mailbox n feat f s) := by
  unfold mailbox
  dsimp only
  refine .ite (.next fun hs => hs) (.ite (.next fun hs => hs.modDev.mailboxDone) (.ite (.next fun hs => hs.modDev.mailboxDone) ?_))
  split
  · next t r e => exact .next fun hs => (MemoriesCanonical.fst (hf _ _ hs.modDev) e).mailboxDone
  · next t e => exact .next fun hs => .fst (hf _ _ hs.modDev) e

theorem execMailboxTlbinv_goes : Goes s (execMailboxTlbinv s) := by
  unfold execMailboxTlbinv
  refine mailbox_goes fun _ _ hx => ?_
  dsimp only
  exact .iteFst (.pair hx) (.pair hx.invalidate)

theorem execMailboxPwrlim_goes : Goes s (execMailboxPwrlim s) := by
  unfold execMailboxPwrlim
  refine mailbox_goes fun _ _ hx => ?_
  dsimp only
  exact .iteFst (.pair hx) (.pair hx.modDev)

theorem execMpredResult_goes : Goes s (execMpredResult s) := by
  unfold execMpredResult
  dsimp only
  split
  · exact .next fun hs => hs
  · exact .next fun hs => hs.arrEvents.modBank.schedule

theorem domRead_goes {h d a f} : Goes s (domRead h d a f s) := by
  unfold domRead
  exact domIssue_goes (fun hs => hs.noBlock) (fun _ hx => hx.wrS.xNext)

theorem MemoriesCanonical.modNode {p num n f} (hs : MemoriesCanonical s) : MemoriesCanonical (s.modNode p num n f) :=
  hs.modItem

theorem MemoriesCanonical.addSlot {d x} (hs : MemoriesCanonical s) : MemoriesCanonical (s.addSlot d x) :=
  hs.modDie.schedule

theorem MemoriesCanonical.enterSteppe {p i n} (hs : MemoriesCanonical s) : MemoriesCanonical (s.enterSteppe p i n) := by
  unfold State.enterSteppe
  dsimp only
  split
  · exact .foldl (fun _ _ hx1 => (by
      split
      · exact hx1.addSlot
      · exact hx1)) hs.modNode
  · exact hs

theorem MemoriesCanonical.finishNode {p num n f} (hs : MemoriesCanonical s) : MemoriesCanonical (s.finishNode p num n f) := by
  unfold State.finishNode
  exact hs.modItem

theorem MemoriesCanonical.settle {p num} (hs : MemoriesCanonical s) : MemoriesCanonical (s.settle p num) := by
  unfold State.settle
  dsimp only
  split
  · exact hs
  · split
    · exact .ite (.itemDone (.foldl (fun _ _ hx2 => (by
        split
        · exact hx2
        · split
          · exact hx2
          · split
            · exact hx2
            · split
              · exact hx2.finishNode
              · exact hx2
              · exact hx2.enterSteppe
              · exact hx2)) hs)) (.foldl (fun _ _ hx2 => (by
        split
        · exact hx2
        · split
          · exact hx2
          · split
            · exact hx2
            · split
              · exact hx2.finishNode
              · exact hx2
              · exact hx2.enterSteppe
              · exact hx2)) hs)
    · exact .foldl (fun _ _ hx2 => (by
        split
        · exact hx2
        · split
          · exact hx2
          · split
            · exact hx2
            · split
              · exact hx2.finishNode
              · exact hx2
              · exact hx2.enterSteppe
              · exact hx2)) hs

theorem MemoriesCanonical.nodeDone {p num n status reason} (hs : MemoriesCanonical s) : MemoriesCanonical (s.nodeDone p num n status reason) := by
  unfold State.nodeDone
  split
  · exact hs
  · exact .ite hs hs.finishNode.settle

theorem MemoriesCanonical.unitsDone {p num n units status reason} (hs : MemoriesCanonical s) : MemoriesCanonical (s.unitsDone p num n units status reason) := by
  unfold State.unitsDone
  dsimp only
  split
  · exact hs
  · split
    · exact .ite hs.modNode.nodeDone hs.modNode
    · exact hs.modNode

theorem MemoriesCanonical.dropSlots {d p} (hs : MemoriesCanonical s) : MemoriesCanonical (s.dropSlots d p) := by
  unfold State.dropSlots
  exact hs.modDie

theorem MemoriesCanonical.colLook {p d c} (hs : MemoriesCanonical s) : MemoriesCanonical (s.colLook p d c) := by
  unfold State.colLook
  dsimp only
  split
  · exact hs
  · exact .ite hs.modJob (.ite (.schedule (.ite hs.modJob (.foldl (fun _ _ hx2 => hx2.modDev) hs.modJob))) (.ite hs.modJob (.foldl (fun _ _ hx2 => hx2.modDev) hs.modJob)))

theorem MemoriesCanonical.colCheck {p d} (hs : MemoriesCanonical s) : MemoriesCanonical (s.colCheck p d) :=
  .foldl (fun _ _ hx => hx.colLook) hs

theorem MemoriesCanonical.dropOred {u} (hs : MemoriesCanonical s) : MemoriesCanonical (s.dropOred u) := by
  unfold State.dropOred
  exact .foldl (fun _ _ hx => hx.modDie) hs

theorem MemoriesCanonical.endSaved {g b u} (hs : MemoriesCanonical s) : MemoriesCanonical (s.endSaved g b u) := by
  unfold State.endSaved
  dsimp only
  split
  · exact (hs.dropOred.modCore (fun _ hc => hc.ownZero)).unitsDone
  · exact hs.dropOred.modCore (fun _ hc => hc.ownZero)

theorem MemoriesCanonical.dropSaved {p hit} (hs : MemoriesCanonical s) : MemoriesCanonical (s.dropSaved p hit) := by
  unfold State.dropSaved
  exact .foldl (fun _ _ hx => .ite hx (.colCheck (.foldl (fun _ _ hx1 => (by
  split
  · exact hx1.endSaved
  · exact hx1)) hx.modDie.dropSlots))) hs

theorem MemoriesCanonical.markUnit {g k} (hs : MemoriesCanonical s) : MemoriesCanonical (s.markUnit g k) := by
  unfold State.markUnit
  exact .ite hs hs.modBank.schedule

theorem MemoriesCanonical.cancelUnit {p i n u} (hs : MemoriesCanonical s) : MemoriesCanonical (s.cancelUnit p i n u).1 := by
  unfold State.cancelUnit
  dsimp only
  split
  · exact .pair hs
  · split
    · split
      · exact .pair hs
      · split
        · exact .pair hs
        · split
          · exact .pair (.foldl (fun _ _ hx3 => hx3.schedule) hs.modNode.unitsDone)
          · split
            · split
              · exact .pair hs
              · exact .pair hs.markUnit
            · split
              · exact .pair hs.dropSaved
              · exact .pair hs
    · exact .pair hs

theorem execLcancelUnit_goes {h d i u} : Goes s (execLcancelUnit h d i u s) := by
  unfold execLcancelUnit
  exact aWord_goes (fun hs => hs.noBlock) (fun _ hx => .retirePush (.wrA (by
  split
  · split
    · exact .pair hx
    · split
      · exact .pair hx
      · exact hx.cancelUnit
  · split
    · exact .pair hx
    · exact .pair hx
  · exact hx.cancelUnit
  · split
    · exact .pair hx
    · split
      · exact .pair hx
      · split
        · exact .pair hx
        · exact .pair hx.modQueue
  · exact .pair hx)))

theorem xScalar_goes {h d l srcs f} : Goes s (xScalar h d l srcs f s) := by
  unfold xScalar
  exact xIssue_goes (fun hs => hs.noBlock) (fun _ hx => hx.wrS.xNext)

theorem aImm_goes {f h d a} : Goes s (aImm f h d a s) :=
  aResult_goes

theorem xBin_goes {h d a b l f} : Goes s (xBin h d a b l f s) :=
  xScalar_goes

theorem execVbc_goes {h d a} : Goes s (execVbc h d a s) := by
  unfold execVbc
  exact xVector_goes

theorem MemoriesCanonical.newItem {p q seq graph width prio tag set nodes} (hs : MemoriesCanonical s) : MemoriesCanonical (s.newItem p q seq graph width prio tag set nodes) := by
  unfold State.newItem
  exact hs.modJob

theorem MemoriesCanonical.openGraph {p q x seq} (hs : MemoriesCanonical s) : MemoriesCanonical (s.openGraph p q x seq) := by
  unfold State.openGraph
  dsimp only
  split
  · exact hs.endEntry
  · exact hs.newItem.settle

theorem MemoriesCanonical.overlapEnds {p q seq} (hs : MemoriesCanonical s) : MemoriesCanonical (s.overlapEnds p q seq) := by
  unfold State.overlapEnds
  exact hs.endEntry.modJob

theorem MemoriesCanonical.applyDropped {p q seq num} (hs : MemoriesCanonical s) : MemoriesCanonical (s.applyDropped p q seq num) := by
  unfold State.applyDropped
  dsimp only
  split
  · exact hs
  · exact hs.modQueue.modNode.unitsDone

theorem MemoriesCanonical.advance {p q} (hs : MemoriesCanonical s) : MemoriesCanonical (s.advance p q) := by
  unfold State.advance
  dsimp only
  split
  · exact .ite hs.setQueue.pokeQueue.schedule hs.setQueue.pokeQueue
  · exact hs.setQueue.pokeQueue

theorem MemoriesCanonical.dispatchLaunch {p q x} (hs : MemoriesCanonical s) : MemoriesCanonical (s.dispatchLaunch p q x) := by
  unfold State.dispatchLaunch
  exact .ite hs.overlapEnds.advance hs.newItem.applyDropped.advance.settle

theorem MemoriesCanonical.startClose {p je} (hs : MemoriesCanonical s) : MemoriesCanonical (s.startClose p je) := by
  unfold State.startClose
  dsimp only
  split
  · exact hs
  · exact .ite hs.schedule hs.modJob.schedule

theorem MemoriesCanonical.consumed {p va n} (hs : MemoriesCanonical s) : AllCanonical (s.consumed p va n) :=
  .ite (.some hs.consume) .none

theorem execEntryDispatch_goes : Goes s (execEntryDispatch s) := by
  unfold execEntryDispatch
  dsimp only
  split
  · exact .next fun hs => hs
  · split
    · exact .next fun hs => hs.startClose
    · split
      · exact .next fun hs => hs
      · split
        · split
          next t e2 =>
            exact .next fun hs => (hs.consumed _ e2)
          · exact .next fun hs => hs.openGraph.advance
        · exact .next fun hs => hs.dispatchLaunch

theorem MemoriesCanonical.aTaken {pre tgt} (hs : MemoriesCanonical s) : MemoriesCanonical (s.aTaken pre tgt) := by
  unfold State.aTaken
  exact hs.modTb

theorem MemoriesCanonical.pushOutcome {o} (hs : MemoriesCanonical s) : MemoriesCanonical (s.pushOutcome o) := by
  unfold State.pushOutcome
  exact hs.modTb.schedule

theorem MemoriesCanonical.aTraceBr {pc tgt} (hs : MemoriesCanonical s) : MemoriesCanonical (s.aTraceBr pc tgt) :=
  .ite hs.traceAt hs

theorem aBranch_goes {c h mode a b disp} : Goes s (aBranch c h mode a b disp s) := by
  unfold aBranch
  exact aWord_goes (fun hs => hs.noBlock) (fun _ hx => .retirePush (.ite (.aTaken (.aTraceBr (.ite hx hx.pushOutcome))) (.ite hx hx.pushOutcome)))

theorem xLegal_goes {h bad o} (ho : Goes s o) : Goes s (xLegal h bad s o) := .ite (.next fun hs => hs.illegal) ho

theorem execDbgstop_goes {h n} : Goes s (execDbgstop h n s) := by
  unfold execDbgstop
  exact xLegal_goes (xIssue_goes (fun hs => hs.noBlock) (fun _ hx => .ite hx.xNext.xPush.trap hx.xNext.xPush))

theorem execLeaseEndCycles_goes : Goes s (execLeaseEndCycles s) := by
  unfold execLeaseEndCycles
  exact .ite (.next fun hs => hs.leaseEnds) (.next fun hs => hs)

theorem execAPause_goes {h n} : Goes s (execAPause h n s) := by
  unfold execAPause
  exact aWord_goes (fun hs => hs.noBlock) (fun _ hx => hx.modTb.retirePush)

theorem execQueueDoorbell_goes : Goes s (execQueueDoorbell s) := by
  unfold execQueueDoorbell
  dsimp only
  split
  · exact .next fun hs => hs
  · exact .ite (.next fun hs => hs) (.ite (.next fun hs => hs.setQueue) (.next fun hs => hs.modQueue.pokeQueue))

theorem execAccrd_goes {h d acc row cnt} : Goes s (execAccrd h d acc row cnt s) := by
  unfold execAccrd
  exact xIssue_goes (fun hs => (by
  split
  · exact .some hs.trap
  · exact .none)) (fun _ hx2 => (hx2.modCore (fun _ hc3 => hc3.accTake)).modTb.wrV.xNext)

theorem MemoriesCanonical.traceFlush {p} (hs : MemoriesCanonical s) : MemoriesCanonical (s.traceFlush p) :=
  .foldl (fun _ _ hx => hx.traceDrain) hs

theorem MemoriesCanonical.writeTrcctl {p w} (hs : MemoriesCanonical s) : MemoriesCanonical (s.writeTrcctl p w) := by
  unfold State.writeTrcctl
  exact .ite hs (.ite (.schedule (.unschedule (.modPart (.ite hs.traceFlush hs)))) (.unschedule (.modPart (.ite hs.traceFlush hs))))

theorem execVcmp_goes {h c d a b} : Goes s (execVcmp h c d a b s) := by
  unfold execVcmp
  exact vBinF_goes

theorem execMzero_goes {h acc i32} : Goes s (execMzero h acc i32 s) := by
  unfold execMzero
  exact mCommand_goes (fun _ hs => .orElse hs.accUse (fun _ => hs.countWait)) (fun _ hx => hx.modCore (fun _ hc1 => hc1.accTake.same))

theorem MemoriesCanonical.setH {n v} (hs : MemoriesCanonical s) : MemoriesCanonical (s.setH n v) :=
  hs.modTb

theorem aHandle_goes {h d src srcs pre f} : Goes s (aHandle h d src srcs pre f s) := by
  unfold aHandle
  refine aWord_goes (fun hs => ?_) fun _ hx => hx.setH.retirePush
  dsimp only
  split
  · exact .some hs.trap
  · exact .none

theorem execHshape_goes {h d src k} : Goes s (execHshape h d src k s) := by
  unfold execHshape
  exact aHandle_goes

theorem MemoriesCanonical.sideTrap {t n} (hs : MemoriesCanonical t) : MemoriesCanonical (t.sideTrap n) :=
  hs.trap

/-- Where the index of a window through a list cannot be read. -/
theorem MemoriesCanonical.indexBlock {t : State} {cls va} {ovl sp : Bool} (ht : MemoriesCanonical t) :
    AllCanonical (if !ovl then none
      else if sp then
        match t.spCheck t.turn.core t.turn.ctx false va 4 0 with
        | some (a, d0, d1) => some (t.trap a d0 d1)
        | none => none
      else s.readBlock t cls va 4) := by
  refine .ite .none (.ite ?_ ht.readBlock)
  split
  · exact .some ht.trap
  · exact .none

theorem MemoriesCanonical.quantBlock {t : State} {sp cls hs noInt32 k} (ht : MemoriesCanonical t) :
    AllCanonical (quantBlock sp cls hs noInt32 k s t) := by
  unfold Machine.quantBlock
  dsimp only
  cases fmtOf (hFmt (s.hreg hs)) with
  | none => exact .some ht.trap
  | some f =>
    refine .ite (.some ht.trap) (.ite (.some ht.trap) ?_)
    have hr := ht.readBlock (s := s) (cls := 0) (va := hSide (s.hreg hs)) (n := 64)
    split
    · next u e => exact .some (hr u e)
    · refine .ite (.some ht.trap) (.ite (.some ht.trap) (.ite (.some ht.sideTrap) (.ite (.some ht.sideTrap) (.ite (.some ht.sideTrap) ?_))))
      split
      · next u e => exact .some (ht.indexBlock u e)
      · exact ht.readBlocks

theorem MemoriesCanonical.elemAlias {t pc cls sp wr l} (hs : MemoriesCanonical t) : MemoriesCanonical (t.elemAlias pc cls sp wr l) :=
  .foldl (fun _ _ hx => hx.aliasNote) hs

theorem MemoriesCanonical.provAccess {g k sfc pc fmt ev} (hs : MemoriesCanonical s) : MemoriesCanonical (s.provAccess g k sfc pc fmt ev) := by
  unfold State.provAccess
  exact .foldl (fun _ _ hx => hx.provRecord) hs

theorem MemoriesCanonical.spWaits {t wr cls} (hs : MemoriesCanonical t) : AllCanonical (t.spWaits wr cls) :=
  .ite (.some hs.stall) .none

theorem MemoriesCanonical.elemBlock {sp wr cls l t} (hs : MemoriesCanonical t) : AllCanonical (elemBlock sp wr cls l t) := by
  unfold Machine.elemBlock
  dsimp only
  split
  · exact .some hs.trap
  · exact .ite (.ite (.some hs.stall) (.ite (.some hs.stall) hs.spWaits)) (.ite (.some hs.stall) (.ite (.some hs.stall) (.ite (.some hs.stall) .none)))

theorem execLdd_goes {h cls sp q hs c} : Goes s (execLdd h cls sp q hs c s) := by
  unfold execLdd
  exact aWord_goes (fun hs => (by
  split
  next t e =>
    exact .some (hs.quantBlock _ e)
  · exact hs.elemBlock)) (fun _ hx2 => .ite hx2.elemAlias.provAccess.modTb.retireLater hx2.elemAlias.modTb.send)

theorem execMfree_goes {h} : Goes s (execMfree h s) := by
  unfold execMfree
  exact mWord_goes (fun hs => hs.noBlock) (fun _ hx => hx.endLease.mPush)

theorem execIntervalRollback_goes : Goes s (execIntervalRollback s) := by
  unfold execIntervalRollback
  exact .ite (.next fun hs => hs) (.ite (.next fun hs => hs) (.ite (.next fun hs => hs.killJob) (.ite (.next fun hs => hs) (.ite (.next fun hs => hs.killJob) (.ite (.next fun hs => hs.killJob) (.next fun hs => hs.modPart.stopAll.restore.schedule))))))

theorem MemoriesCanonical.writeColerr {p w} (hs : MemoriesCanonical s) : MemoriesCanonical (s.writeColerr p w) := by
  unfold State.writeColerr
  exact .modPart (.foldl (fun _ _ hx1 => hx1.modDie) hs.unschedule.modJob.mapCoresOther)

theorem MemoriesCanonical.startReset {p q who} (hs : MemoriesCanonical s) : MemoriesCanonical (s.startReset p q who) :=
  hs.modPart.schedule

theorem MemoriesCanonical.clearPerf {p} (hs : MemoriesCanonical s) : MemoriesCanonical (s.clearPerf p) :=
  hs.mapCores (fun _ _ hc => hc.perfClear)

theorem MemoriesCanonical.writeDbgctl {p w} (hs : MemoriesCanonical s) : MemoriesCanonical (s.writeDbgctl p w) := by
  unfold State.writeDbgctl
  exact .modPart (.ite hs.clearPerf hs)

theorem MemoriesCanonical.sharedWrite {g k who n w} (hs : MemoriesCanonical s) : MemoriesCanonical (s.sharedWrite g k who n w) := by
  unfold State.sharedWrite
  dsimp only
  split
  · exact hs.modPart
  · exact hs.modDie
  · exact hs.writeFltctl
  · exact hs.modCluster
  · exact hs.modCluster
  · exact hs.modCluster
  · exact hs.modCoreOther
  · exact hs.modCoreOther
  · exact hs.writeColerr
  · exact hs.modCoreOther
  · exact hs.modCoreOther
  · exact hs.modPart
  · exact hs.modCoreOther
  · exact hs.modCore (fun _ hc19 => hc19.writeAcclive)
  · exact hs.modCoreOther
  · exact hs.modDie
  · exact hs.modDie
  · exact hs.startReset
  · exact hs.modPart
  · exact hs.modPart
  · exact hs.modPart
  · exact hs.modDie
  · exact hs.writeDbgctl
  · exact hs.modCoreOther
  · exact hs.modCoreOther
  · exact hs.modCoreOther
  · exact hs.writeTrcctl
  · exact hs.writeReplayctl
  · exact hs

theorem MemoriesCanonical.writeReg {n w} (hs : MemoriesCanonical s) : MemoriesCanonical (s.writeReg n w) :=
  .ite hs.modTb hs.sharedWrite

theorem execASysw_goes {h a cr} : Goes s (execASysw h a cr s) := by
  unfold execASysw
  exact aLegal_goes (aWord_goes (fun hs => .ite (.some hs.stall) .none) (fun _ hx => hx.writeReg.retirePush))

theorem xImm_goes {h d a l f} : Goes s (xImm h d a l f s) :=
  xScalar_goes

theorem MemoriesCanonical.xTaken {tgt} (hs : MemoriesCanonical s) : MemoriesCanonical (s.xTaken tgt) := by
  unfold State.xTaken
  exact .modTc (.ite hs.traceAt hs)

theorem xBrq_goes {h n disp} : Goes s (xBrq h n disp s) := by
  unfold xBrq
  exact xControl_goes (fun hs => hs.noBlock) (fun _ hx => .xPush (.ite hx.xTaken hx.xNext))

theorem execDtestIn_goes {h p a v} : Goes s (execDtestIn h p a v s) := by
  unfold execDtestIn
  exact domIssue_goes (fun hs => hs.noBlock) (fun _ hx => hx.wrP.xNext)

theorem execEndJob_goes : Goes s (execEndJob s) := by
  unfold execEndJob
  exact .ite (.next fun hs => hs) (.next fun hs => .ite hs.modPart.modJob hs.modPart.modJob.forceClose)

theorem execLwait_goes {h d i} : Goes s (execLwait h d i s) := by
  unfold execLwait
  exact aWord_goes (fun hs => .ite (.some hs.trap) (.ite (.some hs.stall) .none)) (fun _ hx => hx.wrA.retirePush)

theorem execMscan_goes {h ro km kb} : Goes s (execMscan h ro km kb s) := by
  unfold execMscan
  exact mCommand_goes (fun _ hs => .orElse hs.writeRing (fun _ => .orElse hs.countWait (fun _ => .orElse hs.freeWait (fun _ => hs.setCheck)))) (fun _ hx => hx.reserveOut)

theorem MemoriesCanonical.reply {kind port tag l} (hs : MemoriesCanonical s) : MemoriesCanonical (s.reply kind port tag l) :=
  hs.modDev

theorem MemoriesCanonical.gatherBatch {p} (hs : MemoriesCanonical s) : MemoriesCanonical (s.gatherBatch p) := by
  unfold State.gatherBatch
  dsimp only
  split
  · exact hs
  · exact .ite hs (.ite (.schedule (.ite hs (.ite hs.modJob hs.modJob.schedule))) (.ite hs (.ite hs.modJob hs.modJob.schedule)))

theorem MemoriesCanonical.gatherFaults {p pages wr who} (hs : MemoriesCanonical s) : MemoriesCanonical (s.gatherFaults p pages wr who) := by
  unfold State.gatherFaults
  dsimp only
  split
  · exact hs
  · exact .ite hs.modJob.priRefill hs.modJob.gatherBatch

theorem MemoriesCanonical.peerFault {p port tag bad wr} (hs : MemoriesCanonical s) : MemoriesCanonical (s.peerFault p port tag bad wr) :=
  hs.gatherFaults.reply

theorem peerRequest_goes {n wr f} (hf : ∀ a ap va t, Goes t (f a ap va t)) : Goes s (peerRequest n wr f s) := by
  unfold peerRequest
  dsimp only
  split
  · exact .next fun hs => hs.dropFlit
  · split
    · exact .trans (fun hs => hs.walkNow) (hf _ _ _ _)
    · exact .next fun hs => hs.walkNow.peerFault

theorem execSpanReadRequest_goes : Goes s (execSpanReadRequest s) := by
  unfold execSpanReadRequest
  exact .trans (fun hs => hs.sectorErrors) (peerRequest_goes (fun _ _ _ _ => (by
  split
  next t e =>
    exact .next fun hs => (hs.mergesBlocked _ e).schedule
  · exact .next fun hs => hs.flushAt.reply)))

theorem execColarrRlx_goes {h b} : Goes s (execColarrRlx h b s) := by
  unfold execColarrRlx
  exact aWord_goes (fun hs => hs.arriveBlock) (fun _ hx => hx.arrive.retirePush)

theorem execHeadSample_goes : Goes s (execHeadSample s) := by
  unfold execHeadSample
  exact .ite (.next fun hs => hs) (.next fun hs => .schedule (.foldl (fun _ _ hx => hx.traceAt) hs))

theorem MemoriesCanonical.startRelock {d c} (hs : MemoriesCanonical s) : MemoriesCanonical (s.startRelock d c) :=
  hs.schedule

theorem MemoriesCanonical.modDvfs {d c f} (hs : MemoriesCanonical s) : MemoriesCanonical (s.modDvfs d c f) :=
  hs.modDie

theorem MemoriesCanonical.startRamp {d c dest} (hs : MemoriesCanonical s) : MemoriesCanonical (s.startRamp d c dest) := by
  unfold State.startRamp
  exact hs.modDvfs.schedule

theorem MemoriesCanonical.startChange {d c f vc} (hs : MemoriesCanonical s) : MemoriesCanonical (s.startChange d c f vc) := by
  unfold State.startChange
  exact .ite hs.modDvfs.startRelock hs.modDvfs.startRamp

theorem MemoriesCanonical.stepDown {d c} (hs : MemoriesCanonical s) : MemoriesCanonical (s.stepDown d c) := by
  unfold State.stepDown
  exact .ite hs hs.unschedule.modDvfs.startChange

theorem MemoriesCanonical.tripDie {d} (hs : MemoriesCanonical s) : MemoriesCanonical (s.tripDie d) :=
  hs.modDie.unschedule.fwRaise

theorem MemoriesCanonical.domainLimits {d c} (hs : MemoriesCanonical s) : MemoriesCanonical (s.domainLimits d c) := by
  unfold State.domainLimits
  exact .ite (.modDvfs (.ite (.stepDown (.ite hs.useFree.useFree.modDvfs.tripDie hs.useFree.useFree.modDvfs)) (.ite hs.useFree.useFree.modDvfs.tripDie hs.useFree.useFree.modDvfs))) (.ite (.modDvfs (.ite (.stepDown (.ite hs.useFree.useFree.modDvfs.tripDie hs.useFree.useFree.modDvfs)) (.ite hs.useFree.useFree.modDvfs.tripDie hs.useFree.useFree.modDvfs))) (.ite (.stepDown (.ite hs.useFree.useFree.modDvfs.tripDie hs.useFree.useFree.modDvfs)) (.ite hs.useFree.useFree.modDvfs.tripDie hs.useFree.useFree.modDvfs)))

theorem MemoriesCanonical.takeSample {d c} (hs : MemoriesCanonical s) : MemoriesCanonical (s.takeSample d c) := by
  unfold State.takeSample
  exact hs.modDvfs

theorem execDvfsSample_goes : Goes s (execDvfsSample s) := by
  unfold execDvfsSample
  exact .next fun hs => .schedule ((by
  split
  · exact .stepDown (.useFree (.foldl (fun _ _ hx => hx.takeSample.domainLimits) hs))
  · exact .useFree (.foldl (fun _ _ hx => hx.takeSample.domainLimits) hs)))

theorem execYield_goes {h} : Goes s (execYield h s) := by
  unfold execYield
  exact xLegal_goes (xIssue_goes (fun hs => hs.noBlock) (fun _ hx => .ite hx.xNext.xPush hx.xNext.xPush.schedule))

theorem execColReleaseFire_goes : Goes s (execColReleaseFire s) := by
  unfold execColReleaseFire
  exact .next fun hs => .colLook (.modJob (.foldl (fun _ _ hx1 => hx1.modDie.schedule) hs.mapCoresOther))

theorem execQueueHeadCheck_goes : Goes s (execQueueHeadCheck s) := by
  unfold execQueueHeadCheck
  dsimp only
  split
  · exact .next fun hs => hs
  · split
    · exact .next fun hs => hs
    · split
      next t e2 =>
        exact .next fun hs => (hs.consumed _ e2)
      · split
        · exact .next fun hs => hs.endEntry.advance
        · exact .ite (.next fun hs => hs.modQueue.startClose) (.next fun hs => hs.modQueue.schedule)

theorem MemoriesCanonical.spBlock {wr cls addr n t} (hs : MemoriesCanonical t) : AllCanonical (spBlock wr cls addr n t) := by
  unfold Machine.spBlock
  split
  · exact .some hs.trap
  · split
    next t e2 =>
      exact .some (hs.spWaits _ e2)
    · exact .ite (.some hs.stall) .none

theorem aSpLoad_goes {h cls d srcs addr size sx} : Goes s (aSpLoad h cls d srcs addr size sx s) := by
  unfold aSpLoad
  exact aWord_goes (fun hs => hs.spBlock) (fun _ hx => .ite hx.aliasNote.wrA.retireLater hx.aliasNote.modTb.retireLater)

theorem execALd_goes {h cls sp ty d a i off} : Goes s (execALd h cls sp ty d a i off s) := by
  unfold execALd
  exact .ite aSpLoad_goes (aGlobal_goes (fun _ hx => hx.loadDst))

theorem MemoriesCanonical.xAlias {t pc cls wr size addrs} (hs : MemoriesCanonical t) : MemoriesCanonical (t.xAlias pc cls wr size addrs) :=
  .foldl (fun _ _ hx => hx.aliasNote) hs

theorem MemoriesCanonical.xStore {t addr bs} (hs : MemoriesCanonical t) : MemoriesCanonical (t.xStore addr bs) :=
  hs.modTb

theorem MemoriesCanonical.xMemBlock {wr size addrs t} (hs : MemoriesCanonical t) : AllCanonical (xMemBlock wr size addrs s t) := by
  unfold Machine.xMemBlock
  dsimp only
  split
  · exact .some hs.trap
  · exact .ite (.some hs.stall) .none

theorem execXSt_goes {h cls ty a b c} : Goes s (execXSt h cls ty a b c s) := by
  unfold execXSt
  exact xIssue_goes (fun hs => hs.xMemBlock) (fun _ hx => hx.xStore.xAlias.xNext.xPush)

theorem MemoriesCanonical.activate {g k n} (hs : MemoriesCanonical s) : MemoriesCanonical (s.activate g k n) := by
  unfold State.activate
  exact hs.modCoreOther.schedule

theorem MemoriesCanonical.startIfIdle {g k n} (hs : MemoriesCanonical s) : MemoriesCanonical (s.startIfIdle g k n) :=
  .ite hs hs.activate

theorem MemoriesCanonical.bankAnswered {g k} (hs : MemoriesCanonical s) : MemoriesCanonical (s.bankAnswered g k) := by
  unfold State.bankAnswered
  exact .ite hs.modBank.startIfIdle hs

theorem MemoriesCanonical.rerun {who} (hs : MemoriesCanonical s) : MemoriesCanonical (s.rerun who) := by
  unfold State.rerun
  dsimp only
  split
  · exact hs
  · split
    · exact hs.schedule
    · exact hs.schedule
    · exact hs

theorem MemoriesCanonical.handlerAnswered {g id} (hs : MemoriesCanonical s) : MemoriesCanonical (s.handlerAnswered g id) := by
  unfold State.handlerAnswered
  split
  · exact hs
  · split
    · exact hs.modBank.rerun
    · exact hs.takeTrap
    · exact hs

theorem MemoriesCanonical.answerOne {rest ok f} (hs : MemoriesCanonical s) : MemoriesCanonical (s.answerOne rest ok f) := by
  unfold State.answerOne
  dsimp only
  split
  · exact .ite hs.modBank.handlerAnswered hs.modBank.bankAnswered
  · exact .ite hs.modDie.schedule (.ite hs hs.modDie.rerun)
  · exact .ite hs hs.modDev

theorem MemoriesCanonical.endBatch {p} (hs : MemoriesCanonical s) : MemoriesCanonical (s.endBatch p) :=
  hs.unschedule.modJob

theorem MemoriesCanonical.answer {p hit ok} (hs : MemoriesCanonical s) : MemoriesCanonical (s.answer p hit ok) := by
  unfold State.answer
  dsimp only
  split
  · exact hs
  · exact .priRefill (.foldl (fun _ _ hx2 => hx2.answerOne) (.ite hs.modJob.endBatch hs.modJob))

theorem MemoriesCanonical.dispatchBy {d t} (hs : MemoriesCanonical s) : MemoriesCanonical (s.dispatchBy d t) :=
  .ite hs hs.scheduleAt

theorem MemoriesCanonical.wake {p} (hs : MemoriesCanonical s) : MemoriesCanonical (s.wake p) :=
  .foldl (fun _ _ hx => hx.dispatchBy) hs.pokeQueues

theorem MemoriesCanonical.swapResume {p} (hs : MemoriesCanonical s) : MemoriesCanonical (s.swapResume p) := by
  unfold State.swapResume
  exact .wake (.foldl (fun _ _ hx2 => hx2.answer) (.modPart (.foldl (fun _ _ hx1 => hx1.startIfIdle.startIfIdle) hs.mapCoresOther.modPart)))

theorem MemoriesCanonical.flip {p} (hs : MemoriesCanonical s) : MemoriesCanonical (s.flip p) := by
  unfold State.flip
  exact .schedule (.useFree (.foldl (fun _ _ hx2 => hx2.schedule) (.modPart (.foldl (fun _ _ hx1 => hx1.modDie) (hs.unschedule.mapCores (fun _ _ hc => hc.swapIn))))))

theorem execPartitionSwap_goes : Goes s (execPartitionSwap s) := by
  unfold execPartitionSwap
  dsimp only
  split
  · exact .ite (.next fun hs => hs) (.next fun hs => hs.modPart.schedule)
  · exact .ite (.next fun hs => hs.schedule) (.next fun hs => .schedule (.foldl (fun _ _ hx4 => hx4.endLease) (.mapCores (fun _ _ hc3 => hc3.halt) (.modPart (.foldl (fun _ _ hx2 => hx2.endExec.endExec) hs)))))
  · exact .ite (.next fun hs => hs.flip.schedule) (.next fun hs => hs.schedule)
  · exact .next fun hs => hs.swapResume

theorem execHoldTimeout_goes : Goes s (execHoldTimeout s) := by
  unfold execHoldTimeout
  dsimp only
  split
  · exact .next fun hs => .ite hs.killJob hs
  · exact .next fun hs => hs

theorem MemoriesCanonical.stopCore {p g} (hs : MemoriesCanonical s) : MemoriesCanonical (s.stopCore p g) := by
  unfold State.stopCore
  exact .modCoreOther (.ite hs.traceAt.endLease.endExec.modBank.schedule hs)

theorem MemoriesCanonical.dump {g k} (hs : MemoriesCanonical s) : MemoriesCanonical (s.dump g k) := by
  unfold State.dump
  exact hs.rawWriteN

theorem MemoriesCanonical.toDies {p i} (hs : MemoriesCanonical s) : MemoriesCanonical (s.toDies p i) := by
  unfold State.toDies
  exact .foldl (fun _ _ hx => hx.schedule) hs

theorem execHostStop_goes : Goes s (execHostStop s) := by
  unfold execHostStop
  exact .ite (.ite (.next fun hs => hs) (.next fun hs => hs.modPart.toDies)) (.ite (.ite (.next fun hs => hs) (.ite (.next fun hs => hs.dump) (.next fun hs => hs.schedule))) (.next fun hs => .ite (.foldl (fun _ _ hx => hx.stopCore) hs) (.modPart (.foldl (fun _ _ hx => hx.stopCore) hs))))

theorem MemoriesCanonical.setPart {p n} (hs : MemoriesCanonical s) : MemoriesCanonical (s.setPart p n) := by
  unfold State.setPart
  exact .ite hs hs.unschedule.modPart

theorem execMailboxPart_goes : Goes s (execMailboxPart s) := by
  unfold execMailboxPart
  refine mailbox_goes fun _ _ hx => ?_
  dsimp only
  split
  · exact .pair hx
  · exact .iteFst (.pair hx) (.pair (.foldl (fun _ _ hx1 => hx1.setPart) hx))

theorem domSet_goes {h srcs a f} : Goes s (domSet h srcs a f s) :=
  domCon_goes

theorem execDsetw_goes {h a lo w0 w1} : Goes s (execDsetw h a lo w0 w1 s) := by
  unfold execDsetw
  exact domSet_goes

theorem MemoriesCanonical.writeWaits {i d} (hs : MemoriesCanonical s) : MemoriesCanonical (s.writeWaits i d) := by
  unfold State.writeWaits
  exact hs.useFree.schedule

theorem MemoriesCanonical.recordInbound {p kind va data} (hs : MemoriesCanonical s) : MemoriesCanonical (s.recordInbound p kind va data) := by
  unfold State.recordInbound
  dsimp only
  split
  · exact hs
  · exact .foldl (fun _ _ hx2 => hx2.recordPut) hs

theorem MemoriesCanonical.poisonSectors {p va m} (hs : MemoriesCanonical s) : MemoriesCanonical (s.poisonSectors p va m) :=
  .foldl (fun _ _ hx => (by
  split
  · exact hx
  · split
    · exact hx.modDie
    · exact hx)) hs

theorem execSpanWrite_goes : Goes s (execSpanWrite s) := by
  unfold execSpanWrite
  refine .ite (.next fun hs => hs) (.ite (.next fun hs => hs.writeWaits) (peerRequest_goes fun _ _ _ _ => ?_))
  dsimp only
  split
  · next t e => exact .next fun hs => (hs.inboundBlocked _ e).writeWaits
  · exact .next fun hs =>
      have hw := (MemoriesCanonical.ite hs.flushAt.storeBytes hs.writeUntagged).poisonSectors.reply
      .ite hw hw.recordInbound.pokeRecords

theorem MemoriesCanonical.wrK {r v} (hs : MemoriesCanonical s) : MemoriesCanonical (s.wrK r v) :=
  hs.modTb

theorem MemoriesCanonical.mTaken {t old tgt} (hs : MemoriesCanonical t) : MemoriesCanonical (t.mTaken old tgt) := by
  unfold State.mTaken
  exact hs.modTb

theorem execMbnz_goes {h kn disp} : Goes s (execMbnz h kn disp s) := by
  unfold execMbnz
  exact mWord_goes (fun hs => hs.noBlock) (fun _ hx => .mPush (.ite hx.wrK (.mTaken (.ite hx.wrK.traceAt hx.wrK))))

theorem execXPause_goes {h n} : Goes s (execXPause h n s) := by
  unfold execXPause
  exact xControl_goes (fun hs => hs.noBlock) (fun _ hx => hx.modTc.xNext.xPush)

theorem MemoriesCanonical.modAcc {g n f} (hs : MemoriesCanonical s) : MemoriesCanonical (s.modAcc g n f) :=
  hs.modCoreOther

theorem MemoriesCanonical.openStep {cl a} (hs : MemoriesCanonical s) : MemoriesCanonical (s.openStep cl a) :=
  .ite hs hs.modAcc.modCmd

theorem execKStepLanding_goes : Goes s (execKStepLanding s) := by
  unfold execKStepLanding
  dsimp only
  split
  · exact .next fun hs => hs
  · exact .ite (.next fun hs => hs.schedule) (.ite (.next fun hs => .schedule (.modCmd (.ite hs.openStep.modAcc.arrEvents.modCoreOther.arrEvents hs.openStep.modAcc.arrEvents))) (.next fun hs => .modCmd (.ite hs.openStep.modAcc.arrEvents.modCoreOther.arrEvents hs.openStep.modAcc.arrEvents)))

theorem execBoundaryCauseDelivery_goes : Goes s (execBoundaryCauseDelivery s) := by
  unfold execBoundaryCauseDelivery
  dsimp only
  split
  · exact .next fun hs => hs.modBank.takeTrap
  · exact .next fun hs => hs

theorem execVmerge_goes {h d a b c} : Goes s (execVmerge h d a b c s) := by
  unfold execVmerge
  exact xVector_goes

theorem MemoriesCanonical.switchBank {g k reason} (hs : MemoriesCanonical s) : MemoriesCanonical (s.switchBank g k reason) := by
  unfold State.switchBank
  exact .ite hs (.activate (.endLease (.ite hs.endExec.traceAt.modBank hs.endExec.traceAt)))

theorem MemoriesCanonical.stopUnit {g k status reason} (hs : MemoriesCanonical s) : MemoriesCanonical (s.stopUnit g k status reason) :=
  hs.stopWith

theorem execBankSwitchTslice_goes : Goes s (execBankSwitchTslice s) := by
  unfold execBankSwitchTslice
  exact .ite (.ite (.ite (.next fun hs => hs.stopUnit) (.next fun hs => .ite hs.modBank hs.modBank.schedule)) (.ite (.next fun hs => hs.startIfIdle) (.next fun hs => hs))) (.ite (.next fun hs => hs.switchBank) (.next fun hs => hs))

theorem MemoriesCanonical.haltAt {g k} (hs : MemoriesCanonical s) : MemoriesCanonical (s.haltAt g k) :=
  .ite hs.endHandler hs.stopWith

theorem execHalt_goes {h} : Goes s (execHalt h s) := by
  unfold execHalt
  exact xIssue_goes (fun hs => .some hs.haltAt.how) (fun _ hx => hx)

theorem MemoriesCanonical.openBoundary {p pbq} (hs : MemoriesCanonical s) : MemoriesCanonical (s.openBoundary p pbq) :=
  .foldl (fun _ _ hx => (by
  split
  · exact hx.openGraph
  · exact hx)) hs

theorem MemoriesCanonical.armPlayback {p l} (hs : MemoriesCanonical s) : MemoriesCanonical (s.armPlayback p l) := by
  unfold State.armPlayback
  exact .foldl (fun _ _ hx => .ite hx.schedule (.ite hx.schedule hx)) hs

theorem MemoriesCanonical.loadPlayback {p} (hs : MemoriesCanonical s) : MemoriesCanonical (s.loadPlayback p) := by
  unfold State.loadPlayback
  exact .ite hs hs.modPart.armPlayback

theorem MemoriesCanonical.phaseState {p f} (hs : MemoriesCanonical s) : MemoriesCanonical (s.phaseState p f) := by
  unfold State.phaseState
  exact (hs.mapCores (fun _ _ hc => hc.perfClear.same)).modJob.modPart

theorem MemoriesCanonical.beginPhase {p num pbq} (hs : MemoriesCanonical s) : MemoriesCanonical (s.beginPhase p num pbq) := by
  unfold State.beginPhase
  exact hs.modPart.loadPlayback.phaseState.openBoundary.wake

theorem MemoriesCanonical.initDescriptor {p va x} (hs : MemoriesCanonical s) : MemoriesCanonical (s.initDescriptor p va x) :=
  hs.writeUntagged

theorem execQueueTableRegistration_goes : Goes s (execQueueTableRegistration s) := by
  unfold execQueueTableRegistration
  exact .ite (.next fun hs => hs) (.ite (.next fun hs => .modPart (.foldl (fun _ _ hx => (by
  split
  · exact hx.initDescriptor
  · exact hx)) hs)) (.next fun hs => .beginPhase (.modPart (.foldl (fun _ _ hx => (by
  split
  · exact hx.initDescriptor
  · exact hx)) hs))))

theorem MemoriesCanonical.resetDone {p q} (hs : MemoriesCanonical s) : MemoriesCanonical (s.resetDone p q) :=
  hs.modPart.pokeQueue

theorem MemoriesCanonical.modCopy {d id f} (hs : MemoriesCanonical s) : MemoriesCanonical (s.modCopy d id f) :=
  hs.modDie

theorem MemoriesCanonical.cancelNode {p num n} (hs : MemoriesCanonical s) : MemoriesCanonical (s.cancelNode p num n) := by
  unfold State.cancelNode
  dsimp only
  split
  · exact hs
  · split
    · exact hs
    · split
      · exact hs
      · split
        · exact .nodeDone (.foldl (fun _ _ hx4 => hx4.dropSlots.colCheck) hs)
        · split
          · exact .nodeDone (.foldl (fun _ _ hx4 => hx4.dropSlots.colCheck) hs)
          · split
            · exact .foldl (fun _ _ hx4 => hx4.dropSlots.colCheck) hs
            · split
              · exact .nodeDone (.foldl (fun _ _ hx4 => hx4.dropSlots.colCheck) hs)
              · exact .ite (.modCopy (.foldl (fun _ _ hx4 => hx4.dropSlots.colCheck) hs)) (.schedule (.modCopy (.foldl (fun _ _ hx4 => hx4.dropSlots.colCheck) hs)))
          · exact .dropSaved (.unitsDone (.foldl (fun _ _ hx12 => (by
              split
              · exact .ite hx12.markUnit hx12
              · exact hx12)) (.modNode (.foldl (fun _ _ hx4 => hx4.dropSlots.colCheck) hs))))

theorem MemoriesCanonical.cancelItem {p num} (hs : MemoriesCanonical s) : MemoriesCanonical (s.cancelItem p num) := by
  unfold State.cancelItem
  split
  · exact hs
  · exact .ite hs (.foldl (fun _ _ hx2 => hx2.cancelNode) hs)

theorem MemoriesCanonical.cancelItems {p hit} (hs : MemoriesCanonical s) : MemoriesCanonical (s.cancelItems p hit) := by
  unfold State.cancelItems
  split
  · exact hs
  · exact .foldl (fun _ _ hx2 => hx2.cancelItem) hs

theorem execQueueReset_goes : Goes s (execQueueReset s) := by
  unfold execQueueReset
  exact .ite (.next fun hs => .ite hs.cancelQueue.cancelItems.schedule hs.cancelQueue.cancelItems.resetDone) (.ite (.next fun hs => hs) (.ite (.next fun hs => hs.modPart.schedule) (.next fun hs => .ite hs.modPart.cancelQueue.cancelItems.schedule hs.modPart.cancelQueue.cancelItems.resetDone)))

theorem execHst_goes {h cls r a off} : Goes s (execHst h cls r a off s) := by
  unfold execHst
  exact aGlobal_goes (fun _ hx => .pair hx)

theorem MemoriesCanonical.fenceBlock {t} (hs : MemoriesCanonical t) : AllCanonical (fenceBlock t) :=
  .ite .none (.some hs.stall)

theorem execFenceAcq_goes {h _sc} : Goes s (execFenceAcq h _sc s) := by
  unfold execFenceAcq
  exact aWord_goes (fun hs => hs.fenceBlock) (fun _ hx => hx.modTb.retirePush)

theorem execMkli_goes {h kd i} : Goes s (execMkli h kd i s) := by
  unfold execMkli
  exact mWord_goes (fun hs => hs.noBlock) (fun _ hx => hx.wrK.mPush)

theorem MemoriesCanonical.endReplay {t g tiles} (hs : MemoriesCanonical t) : MemoriesCanonical (t.endReplay g tiles) := by
  unfold State.endReplay
  exact hs.modCoreOther

theorem MemoriesCanonical.freeClaimed {t g k r x n} (hs : MemoriesCanonical t) : MemoriesCanonical (t.freeClaimed g k r x n) := by
  unfold State.freeClaimed
  exact hs.endReplay.setRing.slotOwner

theorem execRgrel_goes {h r n} : Goes s (execRgrel h r n s) := by
  unfold execRgrel
  exact aWord_goes (fun hs => hs.ringBlock) (fun _ hx => hx.freeClaimed.retirePush)

theorem MemoriesCanonical.pokeDispatch {d} (hs : MemoriesCanonical s) : MemoriesCanonical (s.pokeDispatch d) :=
  hs.dispatchBy

theorem MemoriesCanonical.nodeCopyDone {d c p num n} (hs : MemoriesCanonical s) : MemoriesCanonical (s.nodeCopyDone d c p num n) := by
  unfold State.nodeCopyDone
  dsimp only
  split
  · exact .ite hs.modDie.nodeDone hs.modDie.nodeDone
  · exact hs.modDie.nodeDone

theorem MemoriesCanonical.freeFilled {t g k r x n} (hs : MemoriesCanonical t) : MemoriesCanonical (t.freeFilled g k r x n) := by
  unfold State.freeFilled
  exact hs.setRing.slotOwner

theorem MemoriesCanonical.consumeSlots {g k c} (hs : MemoriesCanonical s) : MemoriesCanonical (s.consumeSlots g k c) := by
  unfold State.consumeSlots
  exact .ite hs (.foldl (fun _ _ hx => (by
  split
  · exact .ite hx (.ite hx hx.freeFilled)
  · exact hx)) hs)

theorem MemoriesCanonical.finishCopy {g k c} (hs : MemoriesCanonical s) : MemoriesCanonical (s.finishCopy g k c) := by
  unfold State.finishCopy
  dsimp only
  split
  · exact .ite hs.modDie.modBank hs.modDie.modBank.schedule
  · exact .pushToken (.ite (.modBank (.ite (hs.modDie.modBank.consumeSlots.modCore (fun _ hc2 => .foldl (fun _ _ hx3 => .ite hx3.setOwner hx3) hc2)) hs.modDie.modBank.consumeSlots)) (.ite (hs.modDie.modBank.consumeSlots.modCore (fun _ hc2 => .foldl (fun _ _ hx3 => .ite hx3.setOwner hx3) hc2)) hs.modDie.modBank.consumeSlots))

theorem MemoriesCanonical.finishCopies {g} {n : Nat} (hs : MemoriesCanonical s) : MemoriesCanonical (State.finishCopies g n s) := by
  induction n generalizing s with
  | zero => exact hs
  | succ n ih =>
    unfold State.finishCopies
    split
    · exact hs
    · next c _ _ =>
      refine .ite hs ?_
      split
      · exact hs
      · next k _ =>
        have hp : MemoriesCanonical (match c.ring with
            | some r => s.ringPutSlot g (k.castLE (by decide)) r (2 ^ 32 + c.id)
            | none => s) := by
          split
          · exact hs.ringPutSlot
          · exact hs
        exact .ite hp.schedule (ih hp.finishCopy)

theorem MemoriesCanonical.closeLook {p} (hs : MemoriesCanonical s) : MemoriesCanonical (s.closeLook p) := by
  unfold State.closeLook
  split
  · exact .ite hs.schedule hs
  · exact hs

theorem execCopyCommandComplete_goes : Goes s (execCopyCommandComplete s) := by
  unfold execCopyCommandComplete
  dsimp only
  split
  · exact .next fun hs => hs
  · split
    · exact .next fun hs => hs.nodeCopyDone.pokeDispatch.closeLook
    · exact .next fun hs => hs.finishCopies.pokeDispatch
    · exact .next fun hs => hs

theorem MemoriesCanonical.cancelEntry {p q seq} (hs : MemoriesCanonical s) : MemoriesCanonical (s.cancelEntry p q seq) := by
  unfold State.cancelEntry
  dsimp only
  split
  · exact hs
  · exact .ite hs.endEntry.advance hs.endEntry.setQueue

theorem MemoriesCanonical.cancelRef {p r} (hs : MemoriesCanonical s) : MemoriesCanonical (s.cancelRef p r).1 := by
  unfold State.cancelRef
  dsimp only
  split
  · exact .pair hs
  · exact .pair hs.cancelEntry
  · split
    · exact .pair hs
    · exact .pair hs.cancelItem
  · split
    · split
      · exact .pair hs
      · exact .pair hs.cancelNode
    · exact .pair hs
  · exact .pair hs
  · exact .pair hs
  · exact .pair hs.cancelItems.forceClose
  · split
    · exact .pair hs
    · split
      · exact .pair hs
      · exact .pair hs.cancelItems.disableQueues.modJob.forceClose

theorem execLcancel_goes {h d i} : Goes s (execLcancel h d i s) := by
  unfold execLcancel
  exact aWord_goes (fun hs => hs.noBlock) (fun _ hx => hx.cancelRef.wrA.retirePush)

theorem MemoriesCanonical.failCopy {d c cause} (hs : MemoriesCanonical s) : MemoriesCanonical (s.failCopy d c cause) := by
  unfold State.failCopy
  exact hs.modCopy.schedule

theorem MemoriesCanonical.rung3 {p cause} (hs : MemoriesCanonical s) : MemoriesCanonical (s.rung3 p cause) := by
  unfold State.rung3
  exact hs.schedule

theorem MemoriesCanonical.joinPoison {who} (hs : MemoriesCanonical s) : MemoriesCanonical (s.joinPoison who) := by
  unfold State.joinPoison
  split
  · exact hs.rung3
  · split
    · exact hs.failCopy
    · exact hs
  · exact hs

theorem MemoriesCanonical.joinGot {who l} (hs : MemoriesCanonical s) : MemoriesCanonical (s.joinGot who l) := by
  unfold State.joinGot
  dsimp only
  split
  · exact hs.modBank
  · exact hs.modCopy
  · exact hs

theorem MemoriesCanonical.dropTag {tag} (hs : MemoriesCanonical s) : MemoriesCanonical (s.dropTag tag) :=
  hs.modDev

theorem MemoriesCanonical.askDone {x data bad} (hs : MemoriesCanonical s) : MemoriesCanonical (s.askDone x data bad) := by
  unfold State.askDone
  exact .ite (.ite hs.dropTag.joinGot.joinPoison hs.dropTag.joinGot) (.rerun (.ite hs.dropTag.joinGot.joinPoison hs.dropTag.joinGot))

theorem execSpanReadCompletion_goes : Goes s (execSpanReadCompletion s) := by
  unfold execSpanReadCompletion
  split
  · exact .next fun hs => hs
  · exact .next fun hs => hs.askDone

theorem domStack_goes {h n bad f} : Goes s (domStack h n bad f s) := by
  unfold domStack
  exact domIssue_goes (fun hs => .ite (.some hs.trap) .none) (fun _ hx => hx.modTb.domNext.xPush)

theorem execLeaseGrant_goes : Goes s (execLeaseGrant s) := by
  unfold execLeaseGrant
  dsimp only
  split
  · exact .next fun hs => hs
  · split
    · exact .next fun hs => hs.grant
    · split
      · exact .next fun hs => hs.grant
      · exact .next fun hs => hs

theorem MemoriesCanonical.writeRanges {p} {l : List FaultRange} (hs : MemoriesCanonical s) : MemoriesCanonical (s.writeRanges p l).1 := by
  induction l generalizing s with
  | nil => exact hs
  | cons r l ih =>
    unfold State.writeRanges
    split
    · next t e => exact hs.ringPut.fst e
    · next t e => exact ih (hs.ringPut.fst e).modJob

theorem MemoriesCanonical.writeBatches {p} {l : List Nat} (hs : MemoriesCanonical s) : MemoriesCanonical (s.writeBatches p l) := by
  induction l generalizing s with
  | nil => exact hs.modPart
  | cons n l ih =>
    unfold State.writeBatches
    split
    · exact hs
    · split
      · next t e => exact ih (hs.writeRanges.fst e)
      · next t e => exact (hs.writeRanges.fst e).modPart

theorem MemoriesCanonical.writeClosed {p} (hs : MemoriesCanonical s) : MemoriesCanonical (s.writeClosed p) := by
  unfold State.writeClosed
  split
  · exact hs.writeBatches
  · exact hs

theorem execFrqheadWrite_goes : Goes s (execFrqheadWrite s) := by
  unfold execFrqheadWrite
  exact .next fun hs => .ite hs.modPart.writeClosed hs.modPart

theorem MemoriesCanonical.writeRegX {g k x} (hs : MemoriesCanonical s) : MemoriesCanonical (s.writeRegX g k x) := by
  unfold State.writeRegX
  exact .ite hs.modBank hs.sharedWrite

theorem MemoriesCanonical.pushXA {g k q v} (hs : MemoriesCanonical s) : MemoriesCanonical (s.pushXA g k q v) := by
  unfold State.pushXA
  exact hs.modBank.schedule

theorem MemoriesCanonical.makeStores {g} {l : List Host.Cell} (hs : MemoriesCanonical s) : MemoriesCanonical (makeStores g l s) :=
  hs.modCore fun _ hc => ⟨Memory.wf_foldl_write _ _ hc.1, hc.2⟩

theorem MemoriesCanonical.deferredWrites {g k l} (hs : MemoriesCanonical s) : MemoriesCanonical (deferredWrites g k l s) :=
  .foldl (fun _ _ hx => hx.writeRegX) hs

theorem MemoriesCanonical.pushTokens {g k} {l : List Flight} (hs : MemoriesCanonical s) : MemoriesCanonical (pushTokens g k l s) :=
  .foldl (fun _ _ hx => by
    split
    · exact hx.modBank.pushToken
    · exact hx) hs

theorem MemoriesCanonical.pushPorts {g k} {l : List Flight} (hs : MemoriesCanonical s) : MemoriesCanonical (pushPorts g k l s) :=
  .foldl (fun _ _ hx => by
    split
    · exact hx.pushXA
    · exact hx) hs

theorem MemoriesCanonical.endStreamX {g k} (hs : MemoriesCanonical s) : MemoriesCanonical (endStreamX g k s) :=
  .ite hs.modBank.streamEnd hs

theorem MemoriesCanonical.landX {g k} (hs : MemoriesCanonical s) : MemoriesCanonical (s.landX g k) := by
  rw [landX_eq]
  exact hs.deferredWrites.modBank.pushTokens.modBank.pushPorts.makeStores.modBank.endStreamX

theorem MemoriesCanonical.evEffect {again} (ha : ∀ t, MemoriesCanonical t → MemoriesCanonical (again t)) (hs : MemoriesCanonical s) :
    MemoriesCanonical (s.evEffect again) := by
  unfold State.evEffect
  dsimp only
  split
  · exact hs
  · exact .ite (.ite (ha _ hs) hs) (.ite (ha _ hs) hs.modBank.eventOp.pushToken)

theorem MemoriesCanonical.prune {d} (hs : MemoriesCanonical s) : MemoriesCanonical (s.prune d) := by
  unfold State.prune
  split
  · exact hs
  · exact .ite hs.dropSlots.colCheck hs

theorem MemoriesCanonical.askHost {d x} (hs : MemoriesCanonical s) : MemoriesCanonical (s.askHost d x) := by
  unfold State.askHost
  dsimp only
  split
  · split
    · exact hs.dropSlots.putRecord
    · exact hs.dropSlots
  · exact hs.dropSlots

theorem MemoriesCanonical.placeUnit {d g k x it y r} (hs : MemoriesCanonical s) : MemoriesCanonical (s.placeUnit d g k x it y r) := by
  unfold State.placeUnit
  exact .colCheck (.schedule (.ite ((hs.modNode.modCore (fun _ hc => hc.setBank)).dropSlots) (hs.modNode.modCore (fun _ hc => hc.setBank))))

theorem MemoriesCanonical.resumeSaved {d g k x n} (hs : MemoriesCanonical s) : MemoriesCanonical (s.resumeSaved d g k x n) := by
  unfold State.resumeSaved
  dsimp only
  split
  · exact hs
  · split
    · exact hs.rawWriteN.modDie.dropSlots
    · exact .ite ((hs.rawWriteN.modDie.dropSlots.modCore (fun _ hc4 => hc4.setBank.setSpill)).stopUnit) ((hs.rawWriteN.modDie.dropSlots.modCore (fun _ hc4 => hc4.setBank.setSpill)).setBank.startIfIdle)

theorem MemoriesCanonical.useSlot {d g k x} (hs : MemoriesCanonical s) : MemoriesCanonical (s.useSlot d g k x) := by
  unfold State.useSlot
  split
  · exact hs.resumeSaved
  · split
    · split
      · exact hs.placeUnit
      · exact hs
    · exact hs

theorem MemoriesCanonical.startCopy {d x} (hs : MemoriesCanonical s) : MemoriesCanonical (s.startCopy d x) := by
  unfold State.startCopy
  dsimp only
  split
  · split
    · exact hs.dropSlots.modDie.schedule
    · exact hs.dropSlots
  · exact hs.dropSlots

theorem MemoriesCanonical.awaitAge {d} (hs : MemoriesCanonical s) : MemoriesCanonical (s.awaitAge d) := by
  unfold State.awaitAge
  split
  · exact hs
  · exact hs.dispatchBy

theorem execUnitDispatch_goes : Goes s (execUnitDispatch s) := by
  unfold execUnitDispatch
  dsimp only
  split
  · exact .next fun hs => hs.prune.askHost.pokeDispatch
  · split
    · exact .next fun hs => hs.prune.startCopy.pokeDispatch
    · split
      · exact .ite (.next fun hs => hs.prune.dispatchBy) (.next fun hs => hs.prune.modDie.useSlot.dispatchBy)
      · exact .ite (.next fun hs => hs.prune.schedule.awaitAge) (.next fun hs => hs.prune)

theorem MemoriesCanonical.startChosen {d g k} (hs : MemoriesCanonical s) : MemoriesCanonical (s.startChosen d g k) := by
  unfold State.startChosen
  split
  · exact .ite hs.modDie.useSlot.dispatchBy hs.pokeDispatch
  · exact hs.pokeDispatch

theorem MemoriesCanonical.leaveBank {g k} (hs : MemoriesCanonical s) : MemoriesCanonical (s.leaveBank g k) := by
  unfold State.leaveBank
  exact .setBank (.ite (.switchBank (.ite hs.unschedule.endLease hs.unschedule)) (.ite hs.unschedule.endLease hs.unschedule))

theorem MemoriesCanonical.spillLive {g k} (hs : MemoriesCanonical s) : MemoriesCanonical (s.spillLive g k) := by
  unfold State.spillLive
  exact .ite hs.modBank (.modCore (fun _ hc1 => hc1.setSpill.same) (.modBank (.foldl (fun _ _ hx => .ite hx.rawWriteN hx) hs)))

theorem MemoriesCanonical.saveUnit {d g k u slot froze} (hs : MemoriesCanonical s) : MemoriesCanonical (s.saveUnit d g k u slot froze) := by
  unfold State.saveUnit
  exact hs.dump.spillLive.rawWriteN.modDie.modDie.leaveBank

theorem execPreemption_goes : Goes s (execPreemption s) := by
  unfold execPreemption
  dsimp only
  split
  · split
    · exact .next fun hs => hs.pokeDispatch
    · exact .ite (.next fun hs => hs.stopUnit) (.ite (.next fun hs => hs.schedule) (.next fun hs => hs.saveUnit.startChosen))
  · split
    · exact .next fun hs => hs
    · split
      · split
        · exact .ite (.next fun hs => hs) (.next fun hs => .schedule (.modBank (.endExec (.ite hs.endLease hs))))
        · exact .next fun hs => hs
      · exact .next fun hs => hs

theorem execMailboxBind_goes : Goes s (execMailboxBind s) := by
  unfold execMailboxBind
  refine mailbox_goes fun _ _ hx => ?_
  dsimp only
  split
  · exact .pair hx
  · refine .iteFst (.pair hx) ?_
    split
    · exact .iteFst (.pair hx) (.pair hx.modPart)
    · exact .pair hx

theorem execCcclr_goes {h b} : Goes s (execCcclr h b s) := by
  unfold execCcclr
  exact xControl_goes (fun hs => hs.noBlock) (fun _ hx => hx.modTc.xNext.xPush)

theorem execMlease_goes {h} : Goes s (execMlease h s) := by
  unfold execMlease
  exact .next fun hs => .ite hs.leaseGate.mTake.mPush hs.leaseGate

theorem MemoriesCanonical.replayAttempt {p} (hs : MemoriesCanonical s) : MemoriesCanonical (s.replayAttempt p) := by
  unfold State.replayAttempt
  exact .ite hs hs.modPart.armPlayback

theorem MemoriesCanonical.markRollback {p ph cause count} (hs : MemoriesCanonical s) : MemoriesCanonical (s.markRollback p ph cause count) := by
  unfold State.markRollback
  exact .ite hs hs.modPart.recordPut

theorem execPhaseRestart_goes : Goes s (execPhaseRestart s) := by
  unfold execPhaseRestart
  dsimp only
  split
  · exact .next fun hs => hs
  · exact .ite (.next fun hs => .forceClose (.modJob (.wake (.keepHalted (.openBoundary (.replayAttempt (.phaseState (.markRollback (.putRecord (.modJob (.foldl (fun _ _ hx3 => (by
      split
      · exact hx3
      · exact hx3.setQueue)) (hs.mapCores (fun _ _ hc2 => hc2.cleared))))))))))))) (.next fun hs => .wake (.keepHalted (.openBoundary (.replayAttempt (.phaseState (.markRollback (.putRecord (.modJob (.foldl (fun _ _ hx3 => (by
      split
      · exact hx3
      · exact hx3.setQueue)) (hs.mapCores (fun _ _ hc2 => hc2.cleared)))))))))))

theorem mLoad_goes {nm h rb fb kb} : Goes s (mLoad nm h rb fb kb s) := by
  unfold mLoad
  exact mCommand_goes (fun _ hs => .orElse (.ite .none (.some hs.formatTrap)) (fun _ => .orElse hs.readRing (fun _ => .orElse hs.countWait (fun _ => .orElse hs.fillWait (fun _ => .orElse hs.setCheck (fun _ => .orElse hs.descCheck (fun _ => .orElse hs.partsCheck (fun _ => .orElse hs.smodeCheck (fun _ => .ite (.some hs.matrixTrap) .none))))))))) (fun _ hx => hx.claim)

theorem execStz_goes {h cls sp q hs c} : Goes s (execStz h cls sp q hs c s) := by
  unfold execStz
  exact aWord_goes (fun hs => (by
  split
  · exact .some hs.stall
  · split
    · exact .some hs.trap
    · split
      next t e =>
        exact .some (hs.quantBlock _ e)
      · exact hs.elemBlock)) (fun _ hx2 => .ite (.retirePush (.foldl (fun _ _ hx3 => hx3.spWrite) hx2.modTb.elemAlias.provAccess)) hx2.modTb.elemAlias.provAccess.send)

theorem execXCall_goes {h d disp} : Goes s (execXCall h d disp s) := by
  unfold execXCall
  exact .ite (.next fun hs => hs.illegal) (xIssue_goes (fun hs => hs.noBlock) (fun _ hx => hx.wrS.xTaken))

theorem MemoriesCanonical.dvreq {d c w} (hs : MemoriesCanonical s) : MemoriesCanonical (s.dvreq d c w) := by
  unfold State.dvreq
  dsimp only
  split
  · exact hs.modDvfs
  · exact hs.modDvfs.startChange

theorem MemoriesCanonical.mailboxReply {l} (hs : MemoriesCanonical s) : MemoriesCanonical (s.mailboxReply l) :=
  hs.modDev

theorem execMailboxDvreq_goes : Goes s (execMailboxDvreq s) := by
  unfold execMailboxDvreq
  exact mailbox_goes (fun _ _ hx => (by
  split
  · exact .pair hx
  · exact .pair hx.dvreq.mailboxReply))

theorem MemoriesCanonical.tryStart {cl} (hs : MemoriesCanonical s) : MemoriesCanonical (s.tryStart cl) := by
  unfold State.tryStart
  split
  · exact .ite hs.schedule hs
  · exact hs

theorem MemoriesCanonical.lastStep {cl id} (hs : MemoriesCanonical s) : MemoriesCanonical (s.lastStep cl id) :=
  hs.modCmd.tryStart

theorem MemoriesCanonical.fetchSlot {cl id n weight} (hs : MemoriesCanonical s) : MemoriesCanonical (s.fetchSlot cl id n weight) := by
  unfold State.fetchSlot
  exact hs.schedule

theorem MemoriesCanonical.stepReady {cl a n} (hs : MemoriesCanonical s) : MemoriesCanonical (s.stepReady cl a n) := by
  unfold State.stepReady
  exact hs.modCmd.scheduleAt

theorem execArraySlotFetch_goes : Goes s (execArraySlotFetch s) := by
  unfold execArraySlotFetch
  dsimp only
  split
  · exact .next fun hs => hs
  · split
    · exact .next fun hs => hs.scheduleAt
    · split
      · exact .next fun hs => hs.takeWide
      · split
        · exact .next fun hs => hs
        · split
          · split
            · exact .next fun hs => hs.modCluster.arrEvents.lastStep.schedule
            · exact .next fun hs => hs.stepReady
            · exact .ite (.next fun hs => hs.arrEvents.stepReady.fetchSlot) (.next fun hs => hs.arrEvents.stepReady)
          · exact .ite (.next fun hs => .stepReady (.ite hs.modCoreOther hs)) (.next fun hs => .fetchSlot (.ite hs.modCoreOther hs))

theorem execGoTimeout_goes : Goes s (execGoTimeout s) := by
  unfold execGoTimeout
  exact .ite (.next fun hs => hs) (.next fun hs => hs.startFails)

theorem execMzeroEffect_goes : Goes s (execMzeroEffect s) := by
  unfold execMzeroEffect
  dsimp only
  split
  · exact .next fun hs => hs
  · exact .ite (.next fun hs => hs) (.ite (.next fun hs => hs.schedule) (.next fun hs => hs.modAcc.modCmd.schedule))

theorem execCpm_goes {h o a b} : Goes s (execCpm h o a b s) := by
  unfold execCpm
  exact aCopy_goes (fun hs => (by
  split
  · exact .some hs.trap
  · exact .none))

theorem MemoriesCanonical.evBlock {v t} (hs : MemoriesCanonical t) : AllCanonical (evBlock v t) :=
  .ite (.some hs.trap) .none

theorem execEvtest_goes {h d b c} : Goes s (execEvtest h d b c s) := by
  unfold execEvtest
  exact aWord_goes (fun hs => (by
  split
  next t e =>
    exact .some (hs.evBlock _ e)
  · exact .ite .none (.some hs.stall))) (fun _ hx2 => hx2.wrA.retirePush)

theorem execDtestOne_goes {h p a} : Goes s (execDtestOne h p a s) := by
  unfold execDtestOne
  exact domIssue_goes (fun hs => hs.noBlock) (fun _ hx => hx.wrP.xNext)

theorem execAFin_goes : Goes s (execAFin s) := by
  unfold execAFin
  exact aWord_goes (fun hs => hs.noBlock) (fun _ hx => hx.modTb.streamEnd)

theorem execXJr_goes {h a} : Goes s (execXJr h a s) := by
  unfold execXJr
  exact xControl_goes (fun hs => hs.noBlock) (fun _ hx => hx.xTaken.xPush)

theorem execRgwfree_goes {h d r n} : Goes s (execRgwfree h d r n s) := by
  unfold execRgwfree
  exact aWord_goes (fun hs => hs.ringBlock) (fun _ hx => hx.wrA.retirePush)

theorem MemoriesCanonical.releaseLine {p h} (hs : MemoriesCanonical s) : MemoriesCanonical (s.releaseLine p h) :=
  .foldl (fun _ _ hx => (by
  split
  · exact hx.hbmWrite
  · exact hx.hostWrite
  · exact hx.modDev
  · exact hx)) hs

theorem execSealLineArrival_goes : Goes s (execSealLineArrival s) := by
  unfold execSealLineArrival
  dsimp only
  split
  · exact .next fun hs => .schedule (.ite hs hs.schedule)
  · split
    next t e =>
      exact .next fun hs => (AllCanonical.findSome (fun _ => hs.overflowBlocked) _ e).schedule
    · exact .ite (.ite (.next fun hs => .schedule (.modPart (.modJob (.unschedule (.foldl (fun _ _ hx3 => hx3.modDie) (.foldl (fun _ _ hx2 => hx2.releaseLine) hs.modDie)))))) (.next fun hs => .schedule (.useFree (.modPart (.modJob (.unschedule (.foldl (fun _ _ hx3 => hx3.modDie) (.foldl (fun _ _ hx2 => hx2.releaseLine) hs.modDie)))))))) (.next fun hs => .foldl (fun _ _ hx2 => hx2.releaseLine) hs.modDie)

theorem execTestPassComplete_goes : Goes s (execTestPassComplete s) := by
  unfold execTestPassComplete
  exact .ite (.next fun hs => hs.modDie) (.next fun hs => hs.modDie.fwRaise)

theorem execKStepStart_goes : Goes s (execKStepStart s) := by
  unfold execKStepStart
  dsimp only
  split
  · exact .next fun hs => hs
  · exact .ite (.next fun hs => hs.lastStep.schedule) (.ite (.next fun hs => hs) (.ite (.next fun hs => .lastStep (.schedule (.modCmd (.ite hs hs.modCluster)))) (.next fun hs => .schedule (.modCmd (.ite hs hs.modCluster)))))

theorem execDint_goes {h a lo hi} : Goes s (execDint h a lo hi s) := by
  unfold execDint
  exact domCon_goes

theorem execALoop_goes {h l a disp} : Goes s (execALoop h l a disp s) := by
  unfold execALoop
  exact aWord_goes (fun hs => hs.noBlock) (fun _ hx => hx.modTb.retirePush)

theorem execXFin_goes {h} : Goes s (execXFin h s) := by
  unfold execXFin
  exact xControl_goes (fun hs => hs.noBlock) (fun _ hx => hx.modTc.xNext.xPush)

theorem execColReleaseArrival_goes : Goes s (execColReleaseArrival s) := by
  unfold execColReleaseArrival
  exact .next fun hs => (hs.mapCores (fun _ _ hc => .ite hc.same hc)).modDie

theorem MemoriesCanonical.xVecBlock {wr addrs t} (hs : MemoriesCanonical t) : AllCanonical (xVecBlock wr addrs s t) := by
  unfold Machine.xVecBlock
  split
  next t e =>
    exact .some (hs.xMemBlock _ e)
  · exact .ite (.some hs.stall) .none

theorem xVLoad_goes {h cls d srcs addrs} : Goes s (xVLoad h cls d srcs addrs s) := by
  unfold xVLoad
  exact xIssue_goes (fun hs => hs.xVecBlock) (fun _ hx => hx.xAlias.wrV.xNext)

theorem execVoltageRampEnd_goes : Goes s (execVoltageRampEnd s) := by
  unfold execVoltageRampEnd
  dsimp only
  split
  · exact .next fun hs => hs
  · exact .next fun hs => .ite hs.modDvfs.modDvfs hs.modDvfs.startRelock

theorem execMkadd_goes {h kd ks i} : Goes s (execMkadd h kd ks i s) := by
  unfold execMkadd
  exact mWord_goes (fun hs => hs.noBlock) (fun _ hx => hx.wrK.mPush)

theorem execFenceRel_goes {h sc} : Goes s (execFenceRel h sc s) := by
  unfold execFenceRel
  exact aWord_goes (fun hs => hs.fenceBlock) (fun _ hx => hx.modTb.retirePush)

theorem execATrap_goes {h n} : Goes s (execATrap h n s) := by
  unfold execATrap
  exact aWord_goes (fun hs => hs.noBlock) (fun _ hx => hx.retirePush.trap)

theorem MemoriesCanonical.hand {g k first n v} (hs : MemoriesCanonical s) : MemoriesCanonical (s.hand g k first n v) :=
  hs.modBank

theorem MemoriesCanonical.runBlock {t first n} (hs : MemoriesCanonical t) : AllCanonical (runBlock t first n) := by
  unfold Machine.runBlock
  split
  · exact .some hs.trap
  · split
    · exact .some hs.trap
    · exact .none

theorem execTake_goes {h t n} : Goes s (execTake h t n s) := by
  unfold execTake
  exact aWord_goes (fun hs => (by
  split
  next t e =>
    exact .some (hs.runBlock _ e)
  · exact .ite (.some hs.stall) .none)) (fun _ hx2 => (hx2.hand.modCore (fun _ hc3 => hc3.setOwner)).retirePush)

theorem MemoriesCanonical.landHandle {g k o n v} (hs : MemoriesCanonical s) : MemoriesCanonical (s.landHandle g k o n v) := by
  unfold State.landHandle
  dsimp only
  split
  · exact hs.modBank.modBank.pushToken
  · exact .ite hs.modBank.modBank.takeTrap hs.modBank.modBank

theorem MemoriesCanonical.landAX {g k q id v} (hs : MemoriesCanonical s) : MemoriesCanonical (s.landAX g k q id v) := by
  unfold State.landAX
  exact hs.modBank.schedule

theorem execAWordRetire_goes : Goes s (execAWordRetire s) := by
  unfold execAWordRetire
  dsimp only
  split
  · exact .next fun hs => .pushToken (.ite (.modBank (.ite hs hs.schedule)) (.ite hs hs.schedule))
  · split
    · exact .next fun hs => hs
    · split
      · exact .next fun hs => .pushToken (.ite hs.modBank.modBank hs.modBank)
      · exact .next fun hs => .pushToken (.ite hs.modBank.modBank.modBank hs.modBank.modBank)
      · exact .next fun hs => .pushToken (.ite hs.modBank.landAX.modBank hs.modBank.landAX)
      · exact .next fun hs => .pushToken (.modBank (.ite hs.modBank.modBank hs.modBank))
      · exact .next fun hs => .landHandle (.ite hs.modBank.modBank hs.modBank)

theorem MemoriesCanonical.accessFaults {g k o kind answer} (hs : MemoriesCanonical s) : MemoriesCanonical (s.accessFaults g k o kind answer) := by
  unfold State.accessFaults
  exact hs.modBank.schedule

theorem MemoriesCanonical.faulted {who kind} (hs : MemoriesCanonical s) : MemoriesCanonical (s.faulted who kind) := by
  unfold State.faulted
  split
  · split
    · exact hs.accessFaults
    · exact hs
  · exact hs.modDie
  · exact hs

theorem execSpanFaultReply_goes : Goes s (execSpanFaultReply s) := by
  unfold execSpanFaultReply
  dsimp only
  split
  · exact .next fun hs => hs
  · exact .ite (.next fun hs => hs.modDev.faulted) (.next fun hs => hs.dropTag.answerOne)

theorem execRedfaddO_goes {h cls rel a v} : Goes s (execRedfaddO h cls rel a v s) := by
  unfold execRedfaddO
  exact aWord_goes (fun hs => .ite (.some hs.trap) hs.gBlock) (fun _ hx => hx.aliasNote.modTb.send)

theorem MemoriesCanonical.evIssue {t h set ctx n} (hs : MemoriesCanonical t) : MemoriesCanonical (t.evIssue h set ctx n) := by
  unfold State.evIssue
  exact .ite hs.modTb.schedule hs.modTb.schedule

theorem execEvset_goes {h b c} : Goes s (execEvset h b c s) := by
  unfold execEvset
  exact aWord_goes (fun hs => hs.evBlock) (fun _ hx => hx.evIssue)

theorem execGive_goes {h t n} : Goes s (execGive h t n s) := by
  unfold execGive
  exact aWord_goes (fun hs => hs.runBlock) (fun _ hx => (hx.hand.modCore (fun _ hc1 => hc1.setOwner)).retirePush)

theorem execColarrRel_goes {h b} : Goes s (execColarrRel h b s) := by
  unfold execColarrRel
  exact aWord_goes (fun hs => hs.arriveBlock) (fun _ hx => hx.arrive.retirePush)

theorem execPropagationRun_goes : Goes s (execPropagationRun s) := by
  unfold execPropagationRun
  exact .ite (.next fun hs => hs) (.ite (.next fun hs => hs.modBank.domTrap) (.ite (.next fun hs => hs.modBank.schedule) (.next fun hs => hs.modBank)))

theorem MemoriesCanonical.rotTile {t wr tile} (hs : MemoriesCanonical t) : AllCanonical (rotTile t wr tile) := by
  unfold Machine.rotTile
  dsimp only
  split
  · exact .some hs.trap
  · split
    · exact .some hs.trap
    · exact .ite (.some hs.trap) (.ite (.some hs.trap) .none)

theorem MemoriesCanonical.boundRot {t} (hs : MemoriesCanonical t) : MemoriesCanonical (t.boundRot s) := by
  unfold State.boundRot
  dsimp only
  split
  · exact hs
  · exact hs.schedule

theorem execRgrot_goes {h a b} : Goes s (execRgrot h a b s) := by
  unfold execRgrot
  exact aWord_goes (fun hs => (by
  split
  · exact .some hs.stall
  · split
    next t e =>
      exact .some (hs.rotTile _ e)
    · exact hs.rotTile)) (fun _ hx2 => .ite ((hx2.modCore (fun _ hc3 => hc3.setOwner.setOwner.same)).boundRot.schedule) ((hx2.modCore (fun _ hc3 => hc3.setOwner.setOwner.same)).boundRot))

theorem MemoriesCanonical.latchSfchi {g k} (hs : MemoriesCanonical s) : MemoriesCanonical (s.latchSfchi g k) :=
  hs.modBank

theorem execXSysr_goes {h d cr} : Goes s (execXSysr h d cr s) := by
  unfold execXSysr
  exact xLegal_goes (xIssue_goes (fun hs => hs.noBlock) (fun _ hx => .xNext (.wrS (.ite hx.latchSfchi hx))))

theorem MemoriesCanonical.diverge {p d where_ core queue time pc found} (hs : MemoriesCanonical s) : MemoriesCanonical (s.diverge p d where_ core queue time pc found) := by
  unfold State.diverge
  exact .ite hs (.ite hs.modPart.traceRecord.modPart.unschedule hs.modPart.traceRecord.schedule)

theorem MemoriesCanonical.closeUnitDigest {g k u} (hs : MemoriesCanonical s) : MemoriesCanonical (s.closeUnitDigest g k u) := by
  unfold State.closeUnitDigest
  dsimp only
  split
  · exact hs
  · split
    · split
      · exact .ite hs.modJob.recordPut hs.modJob.recordPut.diverge
      · exact hs.modJob.recordPut.diverge
    · exact hs.modJob.recordPut

theorem MemoriesCanonical.completeUnit {g k u} (hs : MemoriesCanonical s) : MemoriesCanonical (s.completeUnit g k u) := by
  unfold State.completeUnit
  exact .closeLook (.colCheck (.pokeDispatch ((by
  split
  · exact .unitsDone (.modCore (fun _ hc => hc.ownZero.dropAcc) (.leaveBank (.ite hs.closeUnitDigest.traceAt hs.closeUnitDigest.traceAt.dropOred)))
  · exact .modCore (fun _ hc => hc.ownZero.dropAcc) (.leaveBank (.ite hs.closeUnitDigest.traceAt hs.closeUnitDigest.traceAt.dropOred))))))

theorem execUnitCompletion_goes : Goes s (execUnitCompletion s) := by
  unfold execUnitCompletion
  dsimp only
  split
  · exact .next fun hs => hs
  · exact .ite (.next fun hs => hs) (.ite (.next fun hs => hs.schedule) (.next fun hs => hs.completeUnit))

theorem execXNop_goes {h} : Goes s (execXNop h s) := by
  unfold execXNop
  exact xIssue_goes (fun hs => hs.noBlock) (fun _ hx => hx.xNext.xPush)

theorem execMailboxRetry_goes : Goes s (execMailboxRetry s) := by
  unfold execMailboxRetry
  exact mailbox_goes (fun _ _ hx => .pair hx.modDev.schedule)

theorem MemoriesCanonical.applyPatch {p va h params entry launchw} (hs : MemoriesCanonical s) :
    FirstCanonical (s.applyPatch p va h params entry launchw) := by
  unfold State.applyPatch
  dsimp only
  split
  · split
    · exact .none
    · exact .ite .none (.ite (.some hs.writeUntagged.writeUntagged) (.some hs.writeUntagged))
  · exact .none

theorem MemoriesCanonical.applyPatches {p va h params table} {n : Nat} {i lw} (hs : MemoriesCanonical s) {t}
    (e : State.applyPatches p va h params table n i lw s = .inl t) : MemoriesCanonical t := by
  induction n generalizing s i lw with
  | zero =>
    cases e
    exact hs
  | succ n ih =>
    unfold State.applyPatches at e
    split at e
    · cases e
    · next u lw' e' => exact ih (hs.applyPatch u lw' e') e

theorem MemoriesCanonical.refuseLoad {p va entry} (hs : MemoriesCanonical s) : MemoriesCanonical (s.refuseLoad p va entry) :=
  hs.writeUntagged.modDev

theorem execImageLoad_goes : Goes s (execImageLoad s) := by
  unfold execImageLoad
  dsimp only
  split
  · exact .next fun hs => hs.modDev
  · refine .ite (.next fun hs => hs.refuseLoad) ?_
    split
    · exact .next fun hs => .refuseLoad (.ite hs.writeUntagged hs)
    · next t e => exact .next fun hs => (MemoriesCanonical.applyPatches (.ite hs.writeUntagged hs) e).modDev

theorem execVdq_goes {h f p d a b c} : Goes s (execVdq h f p d a b c s) := by
  unfold execVdq
  exact xIssue_goes (fun hs => hs.noBlock) (fun _ hx => .xNext (.wrV (by
  split
  · exact hx
  · exact hx.provRecord)))

theorem execHostNodeDoorbell_goes : Goes s (execHostNodeDoorbell s) := by
  unfold execHostNodeDoorbell
  dsimp only
  split
  · exact .next fun hs => hs
  · split
    · exact .next fun hs => hs
    · split
      · exact .next fun hs => hs
      · split
        · exact .next fun hs => hs
        · split
          · exact .next fun hs => .ite hs.nodeDone hs
          · exact .next fun hs => hs

theorem xLoad_goes {note h cls ty d a b} : Goes s (xLoad note h cls ty d a b s) := by
  unfold xLoad
  exact xIssue_goes (fun hs => hs.xMemBlock) (fun _ hx => .xNext (.wrS (.ite hx.xAlias hx)))

theorem execLdq_goes {h cls sp q a i off} : Goes s (execLdq h cls sp q a i off s) := by
  unfold execLdq
  exact .ite (aWord_goes (fun hs => hs.spBlock) (fun _ hx => hx.aliasNote.modTb.retireLater)) (aGlobal_goes (fun _ hx1 => .pair hx1.modTb))

theorem MemoriesCanonical.flushDie {p d} (hs : MemoriesCanonical s) : MemoriesCanonical (s.flushDie p d) := by
  unfold State.flushDie
  exact .foldl (fun _ _ hx => .foldl (fun _ _ hx1 => hx1.applyMerge) hx.modStack) hs

theorem execSealInputRise_goes : Goes s (execSealInputRise s) := by
  unfold execSealInputRise
  dsimp only
  split
  · exact .next fun hs => hs
  · split
    · exact .next fun hs => hs
    · split
      next t e2 =>
        exact .next fun hs => (hs.overflowBlocked _ e2).schedule
      · exact .ite (.next fun hs => hs.flushDie) (.ite (.next fun hs => hs.flushDie.sealFire) (.ite (.next fun hs => hs.flushDie.modJob) (.next fun hs => .sealFire (.foldl (fun _ _ hx4 => hx4.modDev) hs.flushDie.modJob))))

theorem MemoriesCanonical.afterReset (hs : MemoriesCanonical s) : MemoriesCanonical s.afterReset :=
  .ofCores hs rfl rfl reset_core_canonical

theorem MemoriesCanonical.runSteps {l : List Byte} (hs : MemoriesCanonical s) : MemoriesCanonical (s.runSteps l) := by
  induction l generalizing s with
  | nil => exact hs.modDev.schedule.schedule
  | cons r l ih =>
    unfold State.runSteps
    split
    · exact ih hs.useFree
    · exact hs.useFree.startFails

theorem execDeviceResetStart_goes : Goes s (execDeviceResetStart s) := by
  unfold execDeviceResetStart
  exact .ite (.next fun hs => hs.afterReset) (.ite (.next fun hs => hs.afterReset.modDev.runSteps) (.next fun hs => hs.afterReset.modDev.startFails))

theorem aSpStore_goes {h cls srcs addr bytes size} : Goes s (aSpStore h cls srcs addr bytes size s) := by
  unfold aSpStore
  exact aWord_goes (fun hs => hs.spBlock) (fun _ hx => hx.aliasNote.spWrite.retirePush)

theorem execASt_goes {h cls sp ty d a i off} : Goes s (execASt h cls sp ty d a i off s) := by
  unfold execASt
  exact .ite aSpStore_goes (aGlobal_goes (fun _ hx => .pair hx))

theorem execReplayListResend_goes : Goes s (execReplayListResend s) := by
  unfold execReplayListResend
  dsimp only
  split
  · exact .next fun hs => hs.schedule
  · split
    · exact .next fun hs => .ite hs.recordPut.modBank.takeTrap hs.recordPut.modBank.takeTrap
    · exact .next fun hs => .foldl (fun _ _ hx2 => hx2.useFree.schedule) hs.recordPut.modBank

theorem execTlbinv_goes {h v l} : Goes s (execTlbinv h v l s) := by
  unfold execTlbinv
  exact aLegal_goes (aWord_goes (fun hs => .ite (.some hs.illegal) .none) (fun _ hx => hx.modTb.invalidate))

theorem execPllRelockEnd_goes : Goes s (execPllRelockEnd s) := by
  unfold execPllRelockEnd
  dsimp only
  split
  · exact .next fun hs => hs
  · exact .next fun hs => .ite hs.modDvfs.modDvfs hs.modDvfs.startRamp

theorem MemoriesCanonical.unconfigure {g r} (hs : MemoriesCanonical s) : MemoriesCanonical (s.unconfigure g r) :=
  hs.modCore (fun _ hc => hc.setOwner)

theorem execRgcfg_goes {h r c} : Goes s (execRgcfg h r c s) := by
  unfold execRgcfg
  refine aWord_goes (fun hs => ?_) (fun t hx => ?_)
  · dsimp only
    generalize Ring.ofConfig (s.rA c) = o
    cases o with
    | none => exact .some hs.ringTrap
    | some n => exact .ite (.some hs.ringTrap) .none
  · have hu : MemoriesCanonical (match s.tb.ring r with
        | some x => (t.hand t.turn.core t.turn.ctx x.base x.count false).unconfigure t.turn.core x
        | none => t) := by
      split
      · exact hx.hand.unconfigure
      · exact hx
    refine .retirePush (.setRing ?_)
    split
    · exact hu.hand.slotOwner
    · exact hu

theorem execHview_goes {h d src k} : Goes s (execHview h d src k s) := by
  unfold execHview
  exact aHandle_goes

theorem execMailboxOvfext_goes : Goes s (execMailboxOvfext s) := by
  unfold execMailboxOvfext
  exact mailbox_goes (fun _ _ hx => (by
  split
  · exact .pair hx
  · exact .pair hx.modStack))

theorem MemoriesCanonical.actNow {i a} (hs : MemoriesCanonical s) : MemoriesCanonical (s.actNow i a) := by
  unfold State.actNow
  exact hs.same

theorem MemoriesCanonical.regWrite {off data} (hs : MemoriesCanonical s) : MemoriesCanonical (s.regWrite off data) := by
  unfold State.regWrite
  exact .foldl (fun _ _ hx => hx.actNow) hs

theorem MemoriesCanonical.blockWrite {off data} (hs : MemoriesCanonical s) : MemoriesCanonical (s.blockWrite off data) := by
  unfold State.blockWrite
  dsimp only
  split
  · exact .ite hs hs.modDev
  · split
    · exact .ite hs.actNow hs
    · split
      · exact hs.actNow
      · split
        · split
          · exact hs.actNow
          · exact hs
        · exact .ite hs.modDev hs

theorem MemoriesCanonical.pageCommand {p w} (hs : MemoriesCanonical s) : MemoriesCanonical (s.pageCommand p w) := by
  unfold State.pageCommand
  dsimp only
  split
  · exact .ite hs.actNow hs
  · split
    · exact hs
    · split
      · exact hs.actNow
      · exact hs.actNow
      · exact hs.actNow
      · exact hs.actNow
      · exact hs.actNow
      · exact hs

theorem MemoriesCanonical.pageWrite {p off data} (hs : MemoriesCanonical s) : MemoriesCanonical (s.pageWrite p off data) := by
  unfold State.pageWrite
  exact .ite (.ite hs.actNow hs) (.ite (.ite hs.actNow hs) (.ite hs.modPart (.ite (.ite hs.modPart.actNow hs.modPart) (.ite hs.actNow (.ite hs.modPart.actNow (.ite (.ite hs.modPart.traceFlush hs) (.ite (.ite hs.modPart hs) (.ite hs.pageCommand hs))))))))

theorem MemoriesCanonical.windowWrite {off data} (hs : MemoriesCanonical s) : MemoriesCanonical (s.windowWrite off data) :=
  .ite hs (.ite hs.blockWrite (.ite (.ite hs.modDie hs) (.ite hs.pageWrite (.ite hs.regWrite hs))))

theorem execInboundHostWrite_goes : Goes s (execInboundHostWrite s) := by
  unfold execInboundHostWrite
  dsimp only
  split
  · exact .next fun hs => hs.writeWaits
  · split
    · exact .next fun hs => hs.writeWaits
    · split
      · exact .next fun hs => hs.windowWrite
      · split
        · exact .next fun hs => hs
        · split
          · exact .next fun hs => hs.walkNow.inboundError
          · split
            next t e =>
              exact .next fun hs => (hs.walkNow.inboundBlocked _ e).writeWaits
            · exact .next fun hs => hs.walkNow.writeUntagged.recordInbound.pokeRecords

theorem MemoriesCanonical.holdWord {obj detail} (hs : MemoriesCanonical s) : MemoriesCanonical (s.holdWord obj detail) :=
  hs.stall.how

theorem execXFence_goes {h _k sc} : Goes s (execXFence h _k sc s) := by
  unfold execXFence
  exact xIssue_goes (fun hs => .ite (.some hs.holdWord) .none) (fun _ hx => hx.xNext.xPush)

theorem MemoriesCanonical.markRing {g k r} {n : Nat} (hs : MemoriesCanonical s) : MemoriesCanonical (s.markRing g k r n) := by
  induction n generalizing s with
  | zero => exact hs
  | succ n ih =>
    unfold State.markRing
    split
    · exact .ite (ih hs.freeClaimed) hs
    · exact hs

theorem execArrayCommandStart_goes : Goes s (execArrayCommandStart s) := by
  unfold execArrayCommandStart
  dsimp only
  split
  · exact .next fun hs => hs.tryStart
  · split
    · exact .next fun hs => hs
    · split
      · exact .next fun hs => hs
      · split
        · exact .next fun hs => .fetchSlot (.ite (.modCmd (.modCluster (.ite (.ite (.markRing (.ite hs.modCmd.markRing hs.modCmd)) (.ite hs.modCmd.markRing hs.modCmd)) (.openStep (.ite (.markRing (.ite hs.modCmd.markRing hs.modCmd)) (.ite hs.modCmd.markRing hs.modCmd)))))) (.ite (.ite (.markRing (.ite hs.modCmd.markRing hs.modCmd)) (.ite hs.modCmd.markRing hs.modCmd)) (.openStep (.ite (.markRing (.ite hs.modCmd.markRing hs.modCmd)) (.ite hs.modCmd.markRing hs.modCmd)))))
        · exact .next fun hs => hs.modCmd.fetchSlot
        · exact .next fun hs => hs.modCmd.fetchSlot

theorem aJump_goes {h srcs link tgt ret} : Goes s (aJump h srcs link tgt ret s) := by
  unfold aJump
  exact aWord_goes (fun hs => hs.noBlock) (fun _ hx => .retirePush (.aTaken ((by
  split
  · exact .wrA (.ite hx.traceAt hx.aTraceBr)
  · exact .ite hx.traceAt hx.aTraceBr))))

theorem execPageFaultFreeze_goes : Goes s (execPageFaultFreeze s) := by
  unfold execPageFaultFreeze
  dsimp only
  split
  · exact .next fun hs => hs
  · exact .ite (.next fun hs => hs.handlerAnswered) (.ite (.next fun hs => hs.modBank.endExec.modBank.endLease.switchBank.bankAnswered) (.ite (.next fun hs => hs.modBank.modBank.bankAnswered) (.next fun hs => hs.modBank)))

theorem execFenceSc_goes {h sc} : Goes s (execFenceSc h sc s) := by
  unfold execFenceSc
  exact aWord_goes (fun hs => hs.fenceBlock) (fun _ hx => hx.modTb.retirePush)

theorem execColwait_goes {h b} : Goes s (execColwait h b s) := by
  unfold execColwait
  exact aWord_goes (fun hs => hs.colBlock) (fun _ hx => hx.colDone.retirePush)

theorem execMsnap_goes {h ro acc kd} : Goes s (execMsnap h ro acc kd s) := by
  unfold execMsnap
  exact mCommand_goes (fun _ hs => .orElse hs.accUse (fun _ => .orElse hs.writeRing (fun _ => .orElse hs.countWait (fun _ => .orElse hs.freeWait (fun _ => hs.setCheck))))) (fun _ hx => hx.reserveOut.modCore (fun _ hc1 => hc1.accTake))

theorem execQueueEntryPoppable_goes : Goes s (execQueueEntryPoppable s) := by
  unfold execQueueEntryPoppable
  exact .next fun hs => hs.modBank

theorem MemoriesCanonical.forget {cl} (hs : MemoriesCanonical s) : MemoriesCanonical (s.forget cl) := by
  unfold State.forget
  exact hs.modCluster

theorem MemoriesCanonical.openWaiting {cl} (hs : MemoriesCanonical s) : MemoriesCanonical (s.openWaiting cl) := by
  unfold State.openWaiting
  split
  · exact hs.openStep
  · exact hs

theorem MemoriesCanonical.wakeAcc {cl a} (hs : MemoriesCanonical s) : MemoriesCanonical (s.wakeAcc cl a) :=
  .foldl (fun _ _ hx => (by
  split
  · split
    · exact hx.schedule
    · exact hx.schedule
    · exact hx
  · exact hx)) hs

theorem execArrayCommandRetire_goes : Goes s (execArrayCommandRetire s) := by
  unfold execArrayCommandRetire
  dsimp only
  split
  · exact .next fun hs => hs
  · exact .ite (.next fun hs => hs) (.next fun hs => hs.modCmd.pushToken.openWaiting.wakeAcc.forget)

theorem execVbcLn_goes {h d a b} : Goes s (execVbcLn h d a b s) := by
  unfold execVbcLn
  exact xVector_goes

theorem execPriResponseFailure_goes : Goes s (execPriResponseFailure s) := by
  unfold execPriResponseFailure
  exact .next fun hs => hs.modPart.answer

theorem MemoriesCanonical.resumeBank {g k} (hs : MemoriesCanonical s) : MemoriesCanonical (s.resumeBank g k) := by
  unfold State.resumeBank
  dsimp only
  split
  · exact hs
  · exact .ite hs.modCoreOther.stopUnit (.ite hs.modCoreOther.stopWith (.ite hs.setBank.modCoreOther hs.setBank.modCoreOther.activate))

theorem MemoriesCanonical.returnFromTrap {g} (hs : MemoriesCanonical s) : MemoriesCanonical (s.returnFromTrap g) := by
  unfold State.returnFromTrap
  split
  · exact hs
  · exact (hs.modCore (fun _ hc2 => hc2.setBank)).resumeBank

theorem execEret_goes {h} : Goes s (execEret h s) := by
  unfold execEret
  exact xLegal_goes (xIssue_goes (fun hs => .ite .none (.some hs.stall)) (fun _ hx => hx.returnFromTrap))

theorem MemoriesCanonical.holdAnswer {p hit x} (hs : MemoriesCanonical s) : MemoriesCanonical (s.holdAnswer p hit x) := by
  unfold State.holdAnswer
  split
  · exact .ite hs.modPart hs
  · exact hs

theorem execFaultAnswer_goes : Goes s (execFaultAnswer s) := by
  unfold execFaultAnswer
  exact .ite (.next fun hs => hs.modPart.holdAnswer.answer) (.next fun hs => hs.modPart)

theorem execSpanCol_goes : Goes s (execSpanCol s) := by
  unfold execSpanCol
  dsimp only
  split
  · exact .next fun hs => hs.dropFlit
  · split
    · exact .next fun hs => hs
    · split
      · exact .next fun hs => hs.modJob
      · exact .ite (.next fun hs => hs.modJob.schedule) (.next fun hs => hs.modJob)

theorem MemoriesCanonical.closeBatch {p id} (hs : MemoriesCanonical s) : MemoriesCanonical (s.closeBatch p id) := by
  unfold State.closeBatch
  split
  · exact hs
  · exact .ite hs.endBatch.writeClosed hs

theorem execResetTruncatedTrace_goes : Goes s (execResetTruncatedTrace s) := by
  unfold execResetTruncatedTrace
  exact .ite (.next fun hs => hs.schedule) (.next fun hs => hs.traceRecord.traceFlush.modPart.unschedule.resetDone)

theorem execRgrotExchangeEnd_goes : Goes s (execRgrotExchangeEnd s) := by
  unfold execRgrotExchangeEnd
  refine .next fun hs => .modCluster (.foldl (fun _ _ hx => ?_) (.foldl (fun _ _ hx => ?_) hs))
  · dsimp only
    split
    · exact hx.modCoreOther.pushToken
    · exact hx
  · dsimp only
    split
    · exact hx.spWrite
    · exact hx

theorem execLda_goes {h cls _sc ty d a i off} : Goes s (execLda h cls _sc ty d a i off s) := by
  unfold execLda
  exact aGlobal_goes (fun _ hx => hx.loadDst)

theorem execMailboxAttest_goes : Goes s (execMailboxAttest s) := by
  unfold execMailboxAttest
  exact mailbox_goes (fun _ _ hx => .pair hx.mailboxReply.useFree)

theorem execRgtake_goes {h r n} : Goes s (execRgtake h r n s) := by
  unfold execRgtake
  exact aWord_goes (fun hs => hs.ringBlock) (fun _ hx => hx.freeFilled.retirePush)

theorem xVStore_goes {h cls srcs addrs data} : Goes s (xVStore h cls srcs addrs data s) := by
  unfold xVStore
  exact xIssue_goes (fun hs => hs.xVecBlock) (fun _ hx => .xPush (.xNext (.xAlias (.foldl (fun _ _ hx1 => hx1.xStore) hx))))

theorem MemoriesCanonical.rowStepIn {d id n w} (hs : MemoriesCanonical s) : MemoriesCanonical (s.rowStepIn d id n w) := by
  unfold State.rowStepIn
  exact hs.schedule

theorem MemoriesCanonical.nextRow {d c} (hs : MemoriesCanonical s) : MemoriesCanonical (s.nextRow d c) := by
  unfold State.nextRow
  exact .ite hs.modCopy.schedule (.ite hs.modCopy.schedule hs.useFree.rowStepIn)

theorem MemoriesCanonical.showRows {c} (hs : MemoriesCanonical s) : MemoriesCanonical (s.showRows c) := by
  unfold State.showRows
  split
  · exact hs.modBank
  · exact hs

theorem MemoriesCanonical.rowPort {d c vas} (hs : MemoriesCanonical s) : AllCanonical (s.rowPort d c vas) := by
  unfold State.rowPort
  dsimp only
  split
  · exact .none
  · exact .ite .none (.ite (.ite (.some hs.rowStepIn) (.some ((hs.modCore (fun _ hc2 => hc2.wideRow)).rowStepIn))) (.ite (.some hs.rowStepIn) .none))

theorem MemoriesCanonical.commitMerge {d c} (hs : MemoriesCanonical s) : MemoriesCanonical (s.commitMerge d c) := by
  unfold State.commitMerge
  dsimp only
  split
  · exact hs.failCopy
  · split
    next t e2 =>
      exact (hs.rowPort _ e2)
    · exact .ite hs.spWrite.spWrite.modBank.modCopy.showRows.failCopy hs.spWrite.spWrite.modBank.modCopy.showRows.nextRow

theorem MemoriesCanonical.spanAsk {who kind body vas} (hs : MemoriesCanonical s) : MemoriesCanonical (s.spanAsk who kind body vas) := by
  unfold State.spanAsk
  exact .foldl (fun _ _ hx => hx.modDev) hs

theorem MemoriesCanonical.copyEvents {d id evs} (hs : MemoriesCanonical s) : MemoriesCanonical (s.copyEvents d id evs) := by
  unfold State.copyEvents
  exact .foldl (fun _ _ hx => (by
  split
  · exact hx
  · exact .ite hx.modDie hx.provRecord.modCopy)) hs

theorem MemoriesCanonical.rowLater {d id} (hs : MemoriesCanonical s) : MemoriesCanonical (s.rowLater d id) :=
  hs.useFree.rowStepIn

theorem MemoriesCanonical.startWalk {p d page wr who} (hs : MemoriesCanonical s) : MemoriesCanonical (s.startWalk p d page wr who) := by
  unfold State.startWalk
  exact .ite hs hs.modDie.useFree.schedule

theorem MemoriesCanonical.startWalks {p pages wr who} (hs : MemoriesCanonical s) : MemoriesCanonical (s.startWalks p pages wr who) :=
  .foldl (fun _ _ hx => (by
  split
  · exact hx.startWalk
  · exact hx)) hs

theorem MemoriesCanonical.rowGate {d c reads writes} (hs : MemoriesCanonical s) : AllCanonical (s.rowGate d c reads writes) := by
  unfold State.rowGate
  dsimp only
  split
  · exact .some hs.failCopy
  · split
    · exact .some hs.startWalks.startWalks
    · split
      · exact .some hs.gatherFaults.gatherFaults.modCopy
      · split
        · exact .none
        · split
          · exact .some (.ite hs hs.spanAsk)
          · split
            · exact .some hs.failCopy
            · split
              next t e =>
                exact .some ((hs.mergesBlocked _ e).rowStepIn)
              · exact .some (.ite hs.flushAt.modCopy.rowStepIn hs.flushAt.modCopy.rowLater)

theorem MemoriesCanonical.rowDone {d c} (hs : MemoriesCanonical s) : MemoriesCanonical (s.rowDone d c) := by
  unfold State.rowDone
  exact hs.modCopy.showRows.nextRow

theorem MemoriesCanonical.rowWrite {d c out} (hs : MemoriesCanonical s) : MemoriesCanonical (s.rowWrite d c out) := by
  unfold State.rowWrite
  dsimp only
  split
  next t e =>
    exact (hs.rowGate _ e)
  · split
    · exact .ite (.ite hs.rowDone hs.modCopy.rowLater) (.ite hs hs.spanAsk)
    · split
      · exact hs.raiseBlocked.rowStepIn
      · split
        next t e4 =>
          exact (hs.mergesBlocked _ e4).rowStepIn
        · exact .ite hs.flushAt.copyEvents.storeBytes.rowDone hs.flushAt.copyEvents.storeBytes.modCopy.rowLater

theorem MemoriesCanonical.countRows {d c} (hs : MemoriesCanonical s) : MemoriesCanonical (s.countRows d c) := by
  unfold State.countRows
  dsimp only
  split
  · exact hs.failCopy
  · exact hs.modCopy.nextRow

theorem MemoriesCanonical.nodeCounts {d c} (hs : MemoriesCanonical s) : MemoriesCanonical (s.nodeCounts d c) := by
  unfold State.nodeCounts
  split
  next t e =>
    exact (hs.rowGate _ e)
  · exact hs.countRows

theorem MemoriesCanonical.rowRead {d c} (hs : MemoriesCanonical s) : MemoriesCanonical (s.rowRead d c) := by
  unfold State.rowRead
  dsimp only
  split
  next t e =>
    exact (hs.rowGate _ e)
  · split
    · exact hs.failCopy
    · split
      next t e4 =>
        exact (hs.rowGate _ e4)
      · split
        next t e6 =>
          exact (hs.rowGate _ e6)
        · split
          · exact hs.failCopy
          · split
            next t e10 =>
              exact (hs.rowPort _ e10)
            · split
              · exact .rowDone (.foldl (fun _ _ hx13 => hx13.spWrite) hs.copyEvents.copyEvents)
              · exact .ite hs.copyEvents.rowDone hs.copyEvents.modCopy.rowStepIn

theorem MemoriesCanonical.failNode {d c cause} (hs : MemoriesCanonical s) : MemoriesCanonical (s.failNode d c cause) :=
  hs.failCopy

theorem MemoriesCanonical.prepNode {d c va} (hs : MemoriesCanonical s) : MemoriesCanonical (s.prepNode d c va) := by
  unfold State.prepNode
  dsimp only
  split
  · exact hs.failNode
  · split
    next t e =>
      exact (hs.rowGate _ e)
    · split
      · exact hs.failNode
      · split
        · exact hs.failNode
        · split
          · exact hs.failNode
          · split
            next t e6 =>
              exact (hs.rowGate _ e6)
            · split
              · exact hs.failNode
              · exact hs.modCopy.rowStepIn

theorem execCopyRowCommit_goes : Goes s (execCopyRowCommit s) := by
  unfold execCopyRowCommit
  dsimp only
  split
  · exact .next fun hs => hs
  · split
    · exact .next fun hs => hs.sectorErrors.prepNode
    · exact .next fun hs => hs.sectorErrors.rowWrite
    · exact .ite (.next fun hs => hs.sectorErrors.nodeCounts) (.ite (.next fun hs => hs.sectorErrors.commitMerge) (.next fun hs => hs.sectorErrors.rowRead))

theorem MemoriesCanonical.raiseBoundary {g k cause d0 d1} (hs : MemoriesCanonical s) : MemoriesCanonical (s.raiseBoundary g k cause d0 d1) :=
  hs.modBank

theorem MemoriesCanonical.consumeBoundary {p last} (hs : MemoriesCanonical s) : MemoriesCanonical (s.consumeBoundary p last).1 :=
  .foldlFst (fun _ _ hx => by
    split
    · exact hx
    · exact .iteFst hx.setQueue hx) hs

theorem MemoriesCanonical.closePhaseDigest {p j} (hs : MemoriesCanonical s) : MemoriesCanonical (s.closePhaseDigest p j) := by
  unfold State.closePhaseDigest
  dsimp only
  split
  · exact hs
  · split
    · split
      · exact .ite hs.recordPut hs.recordPut.diverge
      · exact hs.recordPut.diverge
    · exact hs.recordPut

theorem execPhaseOpen_goes : Goes s (execPhaseOpen s) := by
  unfold execPhaseOpen
  dsimp only
  split
  · exact .next fun hs => hs
  · exact .ite (.next fun hs => hs) (.ite (.next fun hs => .schedule (by
      split
      · exact hs.closePhaseDigest.putRecord.modJob.consumeBoundary
      · exact .pair hs.closePhaseDigest.putRecord.modJob)) (.next fun hs => .beginPhase (.foldl (fun _ _ hx2 => hx2.modDie) (.modPart (by
      split
      · exact hs.closePhaseDigest.putRecord.modJob.consumeBoundary
      · exact .pair hs.closePhaseDigest.putRecord.modJob)))))

theorem execRegisterWrite_goes : Goes s (execRegisterWrite s) := by
  unfold execRegisterWrite
  exact .ite (.next fun hs => hs.dvreq) (.ite (.next fun hs => hs.sharedWrite) (.next fun hs => hs))

theorem execPriGroupResponse_goes : Goes s (execPriGroupResponse s) := by
  unfold execPriGroupResponse
  exact .next fun hs => hs.holdAnswer.answer

theorem execSealLineFire_goes : Goes s (execSealLineFire s) := by
  unfold execSealLineFire
  exact .next fun hs => .foldl (fun _ _ hx => hx.schedule) hs

theorem execDprop_goes {h} : Goes s (execDprop h s) := by
  unfold execDprop
  exact domIssue_goes (fun hs => hs.noBlock) (fun _ hx => .ite hx.domRun hx.domNext.xPush)

theorem execBarc_goes {h d a e} : Goes s (execBarc h d a e s) := by
  unfold execBarc
  exact aGlobal_goes (fun _ hx => hx.loadDst)

theorem execStl_goes {h cls sc ty d a i off} : Goes s (execStl h cls sc ty d a i off s) := by
  unfold execStl
  exact aGlobal_goes (fun _ hx => .pair hx)

theorem execColInputRise_goes : Goes s (execColInputRise s) := by
  unfold execColInputRise
  exact .ite (.next fun hs => hs) (.ite (.next fun hs => hs.schedule) (.next fun hs => hs.colLook))

theorem execMailboxVmin_goes : Goes s (execMailboxVmin s) := by
  unfold execMailboxVmin
  exact mailbox_goes (fun _ _ hx => (by
  split
  · exact .pair hx
  · exact .pair hx.mailboxReply))

theorem execJoin_goes {h b m} : Goes s (execJoin h b m s) := by
  unfold execJoin
  exact xControl_goes (fun hs => .ite .none (.some hs.holdWord)) (fun _ hx => hx.xNext.xPush)

theorem MemoriesCanonical.addMerge {d pa v} (hs : MemoriesCanonical s) : MemoriesCanonical (s.addMerge d pa v) :=
  hs.modStack

theorem MemoriesCanonical.performAtomic {g k o op w64 v e ret} (hs : MemoriesCanonical s) : MemoriesCanonical (s.performAtomic g k o op w64 v e ret).1 := by
  unfold State.performAtomic
  dsimp only
  split
  · exact .pair hs.addMerge
  · split
    · exact .pair hs.schedule
    · exact .pair hs.modStack
  · exact .pair hs
  · exact .pair (.ite hs.storeBytes.recordPut hs.storeBytes)

theorem MemoriesCanonical.overtake {g k o part} (hs : MemoriesCanonical s) : MemoriesCanonical (s.overtake g k o part) := by
  unfold State.overtake
  exact .ite hs hs.modBank

theorem MemoriesCanonical.performBarc {g k o e} (hs : MemoriesCanonical s) : MemoriesCanonical (s.performBarc g k o e).1 := by
  unfold State.performBarc
  dsimp only
  split
  · exact .pair hs
  · exact .pair hs.storeBytes.recordPut

theorem MemoriesCanonical.perform {g k o part last} (hs : MemoriesCanonical s) : MemoriesCanonical (s.perform g k o part last).1 := by
  unfold State.perform
  dsimp only
  split
  · exact .pair ((by
      split
      · exact .modCoreOther (.ite hs.flushAt.consume hs.flushAt)
      · exact .ite hs.flushAt.consume hs.flushAt))
  · exact .pair (.overtake (.storeBytes (.ite hs.flushAt.consume hs.flushAt)))
  · exact .pair (.performAtomic (.ite hs.flushAt.consume hs.flushAt))
  · exact .pair (.performBarc (.ite hs.flushAt.consume hs.flushAt))
  · exact .pair (.ite (.provAccess (.ite hs.flushAt.consume hs.flushAt)) (.ite hs.flushAt.consume hs.flushAt))
  · exact .pair (.overtake (.storeBytes (.provAccess (.ite hs.flushAt.consume hs.flushAt))))

theorem MemoriesCanonical.raceEarly {g k o part} (hs : MemoriesCanonical s) : MemoriesCanonical (s.raceEarly g k o part) := by
  unfold State.raceEarly
  exact .ite hs (.useFree (.foldl (fun _ _ hx => (by
  split
  · exact hx
  · exact hx.storeBytes.modBank)) hs))

theorem MemoriesCanonical.performed {g k o v} (hs : MemoriesCanonical s) : MemoriesCanonical (s.performed g k o v) := by
  unfold State.performed
  exact hs.modBank.schedule

theorem MemoriesCanonical.accAdvance {g k o next last} (hs : MemoriesCanonical s) : MemoriesCanonical (s.accAdvance g k o next last) := by
  unfold State.accAdvance
  exact .ite hs.performed hs.modBank.useFree.schedule

theorem MemoriesCanonical.accessPart {g k o todo part next} (hs : MemoriesCanonical s) : MemoriesCanonical (s.accessPart g k o todo part next) := by
  unfold State.accessPart
  dsimp only
  split
  · exact hs.schedule
  · split
    · exact .ite hs.spanAsk hs
    · split
      · exact hs.raiseBlocked.schedule
      · split
        next t e2 =>
          exact (hs.mergesBlocked _ e2).schedule
        · exact hs.raceEarly.perform.accAdvance

theorem MemoriesCanonical.accessStep {g k o} (hs : MemoriesCanonical s) : MemoriesCanonical (s.accessStep g k o) := by
  unfold State.accessStep
  dsimp only
  split
  · exact hs.performed
  · split
    · exact hs.startWalks
    · split
      · exact hs.gatherFaults.accessFaults
      · exact .ite hs.accessFaults hs.modBank.accessPart

theorem MemoriesCanonical.withTlbs {t} (hs : MemoriesCanonical s) : MemoriesCanonical (s.withTlbs t) := by
  unfold State.withTlbs
  exact hs.same

theorem MemoriesCanonical.pinned {l} (hs : MemoriesCanonical s) : MemoriesCanonical (s.pinned l) :=
  .foldl (fun _ _ hx => hx.modDie) hs

theorem execGlobalAccessAtOwner_goes : Goes s (execGlobalAccessAtOwner s) := by
  unfold execGlobalAccessAtOwner
  dsimp only
  split
  · exact .next fun hs => hs
  · exact .ite (.next fun hs => hs) (.ite (.next fun hs => hs.sectorErrors.accessStep) (.next fun hs => hs.sectorErrors.pinned.accessStep.withTlbs))

theorem execSpanAtomic_goes : Goes s (execSpanAtomic s) := by
  unfold execSpanAtomic
  refine peerRequest_goes fun _ _ _ _ => ?_
  dsimp only
  split
  · exact .next fun hs => hs.addMerge.reply
  · exact .next fun hs => hs.modStack.reply
  · split
    · next t e => exact .next fun hs => (hs.inboundBlocked _ e).schedule
    · exact .next fun hs => hs.flushAt.consume.storeBytes.reply

theorem execXBr_goes {h disp} : Goes s (execXBr h disp s) := by
  unfold execXBr
  exact xControl_goes (fun hs => hs.noBlock) (fun _ hx => hx.xTaken.xPush)

theorem execHandlerStart_goes : Goes s (execHandlerStart s) := by
  unfold execHandlerStart
  dsimp only
  split
  · exact .next fun hs => hs
  · split
    · exact .next fun hs => hs.schedule
    · split
      · exact .next fun hs => hs.dump.modCoreOther.stopWith
      · exact .next fun hs => hs.dump.modBank

theorem execCopyChannelStart_goes : Goes s (execCopyChannelStart s) := by
  unfold execCopyChannelStart
  dsimp only
  split
  · exact .next fun hs => hs
  · exact .ite (.next fun hs => hs.schedule) (.next fun hs => .ite hs.modCopy.rowStepIn hs.modCopy.countRows)

theorem MemoriesCanonical.resumeCore {p g} (hs : MemoriesCanonical s) : MemoriesCanonical (s.resumeCore p g) := by
  unfold State.resumeCore
  exact .ite hs (.ite (.ite hs.schedule hs.resumeBank) hs.modCoreOther.startIfIdle.startIfIdle)

theorem execHostResume_goes : Goes s (execHostResume s) := by
  unfold execHostResume
  exact .ite (.ite (.next fun hs => hs) (.next fun hs => hs.modPart.toDies)) (.ite (.next fun hs => hs.resumeCore) (.next fun hs => .ite (.dispatchBy (.foldl (fun _ _ hx => hx.resumeCore) hs)) (.modPart (.dispatchBy (.foldl (fun _ _ hx => hx.resumeCore) hs)))))

theorem execMpred_goes {h ra rb fa fb kd kt} : Goes s (execMpred h ra rb fa fb kd kt s) := by
  unfold execMpred
  exact mCommand_goes (fun _ hs => .orElse (.ite .none (.some hs.formatTrap)) (fun _ => .orElse (.ite .none (.some hs.formatTrap)) (fun _ => .orElse hs.readRing (fun _ => .orElse hs.readRing (fun _ => .orElse (.ite (.some hs.ringTrap) .none) (fun _ => .orElse hs.countWait (fun _ => .orElse hs.fillWait (fun _ => .orElse hs.fillWait (fun _ => hs.setCheck))))))))) (fun _ hx => hx.claim.claim)

theorem execDpick_goes {h d a} : Goes s (execDpick h d a s) := by
  unfold execDpick
  exact domIssue_goes (fun hs => hs.noBlock) (fun _ hx => hx.wrS.domInit)

theorem execMscanWrite_goes : Goes s (execMscanWrite s) := by
  unfold execMscanWrite
  dsimp only
  split
  · exact .next fun hs => hs
  · split
    · exact .next fun hs => hs.scheduleAt
    · exact .ite (.next fun hs => hs.modCmd.useWide.schedule) (.next fun hs => hs.spWrite.putOut)

theorem execCtxbank_goes {h a v} : Goes s (execCtxbank h a v s) := by
  unfold execCtxbank
  exact aLegal_goes (aWord_goes (fun hs => (by
  split
  · exact .some hs.illegal
  · split
    next t e =>
      exact .some (hs.gBlock _ e)
    · exact .ite (.some hs.stall) .none)) (fun _ hx2 => .ite hx2.send.modTb hx2.send))

theorem execPageTableWalk_goes : Goes s (execPageTableWalk s) := by
  unfold execPageTableWalk
  dsimp only
  split
  · exact .next fun hs => .rerun (.ite hs hs.modDie)
  · exact .next fun hs => hs.gatherFaults.faulted

theorem execLeaseEndCommands_goes : Goes s (execLeaseEndCommands s) := by
  unfold execLeaseEndCommands
  exact .ite (.next fun hs => hs.leaseEnds) (.next fun hs => hs)

theorem execInvalidationComplete_goes : Goes s (execInvalidationComplete s) := by
  unfold execInvalidationComplete
  dsimp only
  split
  · exact .next fun hs => hs.schedule
  · split
    · exact .next fun hs => hs.modDev
    · exact .next fun hs => hs.modBank.pushToken

theorem execVnzscan_goes {h f32 d a b} : Goes s (execVnzscan h f32 d a b s) := by
  unfold execVnzscan
  exact xVector_goes

theorem execMnop_goes {h} : Goes s (execMnop h s) := by
  unfold execMnop
  exact mWord_goes (fun hs => hs.noBlock) (fun _ hx => hx.mPush)

theorem execSpanPortFail_goes : Goes s (execSpanPortFail s) := by
  unfold execSpanPortFail
  exact .next fun hs => .foldl (fun _ _ hx1 => hx1.rung3) (.ite (.foldl (fun _ _ hx => .ite hx.askDone hx) hs.modDev) (.fwRaise (.foldl (fun _ _ hx => .ite hx.askDone hx) hs.modDev)))

theorem MemoriesCanonical.xReturn {tgt} (hs : MemoriesCanonical s) : MemoriesCanonical (s.xReturn tgt) :=
  hs.traceAt.modTc

theorem execXRet_goes {h a} : Goes s (execXRet h a s) := by
  unfold execXRet
  exact xControl_goes (fun hs => hs.noBlock) (fun _ hx => hx.xReturn.xPush)

theorem execEvclr_goes {h b c} : Goes s (execEvclr h b c s) := by
  unfold execEvclr
  exact aWord_goes (fun hs => hs.evBlock) (fun _ hx => hx.evIssue)

theorem execASysr_goes {h d cr} : Goes s (execASysr h d cr s) := by
  unfold execASysr
  exact aLegal_goes (aWord_goes (fun hs => hs.noBlock) (fun _ hx => .retirePush (.wrA (.ite hx.latchSfchi hx))))

theorem execXLoop_goes {h l a disp} : Goes s (execXLoop h l a disp s) := by
  unfold execXLoop
  exact xControl_goes (fun hs => hs.noBlock) (fun _ hx => hx.modTc.xNext.xPush)

theorem execXSysw_goes {h a cr} : Goes s (execXSysw h a cr s) := by
  unfold execXSysw
  exact xLegal_goes (xIssue_goes (fun hs => .ite (.some hs.stall) .none) (fun _ hx => hx.modTb.xNext.xPush))

theorem execMailboxStage_goes : Goes s (execMailboxStage s) := by
  unfold execMailboxStage
  exact mailbox_goes (fun _ _ hx => (by
  split
  · exact .pair hx
  · exact .pair hx.modDev))

theorem execArrayReplay_goes : Goes s (execArrayReplay s) := by
  unfold execArrayReplay
  dsimp only
  split
  · exact .ite (.next fun hs => hs.rung3) (.next fun hs => hs.schedule)
  · split
    · exact .next fun hs => hs.modCluster.rung3
    · exact .ite (.next fun hs => .schedule (by
        split
        · exact hs.modCluster.modCoreOther.modAcc.arrEvents
        · exact hs.modCluster.modCoreOther.modAcc)) (.ite (.next fun hs => hs.modAcc.modCluster.tryStart.schedule) (.next fun hs => hs.modAcc.modCluster.tryStart))

theorem execDrainStart_goes : Goes s (execDrainStart s) := by
  unfold execDrainStart
  dsimp only
  split
  · exact .next fun hs => hs
  · exact .ite (.next fun hs => hs) (.ite (.next fun hs => hs.schedule) (.ite (.ite (.next fun hs => .rung3 (.ite hs.arrEvents hs)) (.next fun hs => .schedule (.modCmd (.ite hs.arrEvents hs)))) (.next fun hs => .schedule (.openWaiting (.modAcc (.modCmd (.ite hs.arrEvents hs)))))))

theorem execUnitStart_goes : Goes s (execUnitStart s) := by
  unfold execUnitStart
  dsimp only
  split
  · exact .next fun hs => hs
  · exact .ite (.next fun hs => hs) (.next fun hs => (hs.modBank.modCore (fun _ hc2 => hc2.ownZero.setSpill)).traceAt.startIfIdle)

theorem execSeal_goes : Goes s (execSeal s) := by
  unfold execSeal
  exact aWord_goes (fun hs => .ite .none (.some hs.stall)) (fun _ hx => .ite hx hx.modTb.schedule.schedule)

theorem MemoriesCanonical.applyOrdered {p d k} (hs : MemoriesCanonical s) : MemoriesCanonical (s.applyOrdered p d k) := by
  unfold State.applyOrdered
  exact .foldl (fun _ _ hx => hx.flushLines.tagLine.hbmWriteLE) hs.modStack

theorem MemoriesCanonical.sealLook {p} (hs : MemoriesCanonical s) : MemoriesCanonical (s.sealLook p) := by
  unfold State.sealLook
  exact .foldl (fun _ _ hx => hx.schedule) hs

theorem execPhaseClose_goes : Goes s (execPhaseClose s) := by
  unfold execPhaseClose
  dsimp only
  split
  · exact .next fun hs => hs
  · split
    · exact .next fun hs => hs
    · split
      · exact .next fun hs => hs.sealLook
      · split
        next t e2 =>
          exact .next fun hs => (AllCanonical.findSome (fun _ => hs.overflowBlocked) _ e2).schedule
        · exact .next fun hs => .sealLook (.modJob (.foldl (fun _ _ hx4 => hx4.applyOrdered.applyOrdered) hs))

theorem execXTrap_goes {h n} : Goes s (execXTrap h n s) := by
  unfold execXTrap
  exact xIssue_goes (fun hs => .some hs.xNext.trap) (fun _ hx => hx)

theorem MemoriesCanonical.drainRecords {p q} {n : Nat} (hs : MemoriesCanonical s) : MemoriesCanonical (State.drainRecords p q n s) := by
  induction n generalizing s with
  | zero => exact hs
  | succ n ih =>
    unfold State.drainRecords
    split
    · exact hs
    · split
      · exact hs.setQueue.pokeQueue
      · exact .ite (ih hs.writeRecord.setQueue) hs

theorem execCompletionRecord_goes : Goes s (execCompletionRecord s) := by
  unfold execCompletionRecord
  split
  · exact .next fun hs => hs
  · exact .next fun hs => .ite hs.drainRecords hs

theorem execFirmwareEventAck_goes : Goes s (execFirmwareEventAck s) := by
  unfold execFirmwareEventAck
  exact .next fun hs => hs.modDev

theorem execMloop_goes {h l n disp} : Goes s (execMloop h l n disp s) := by
  unfold execMloop
  exact mWord_goes (fun hs => hs.noBlock) (fun _ hx => hx.modTb.mPush)

theorem execHld_goes {h cls r a off} : Goes s (execHld h cls r a off s) := by
  unfold execHld
  exact aWord_goes (fun hs => hs.gBlock) (fun _ hx => hx.aliasNote.send.modTb)

theorem execCancelStop_goes : Goes s (execCancelStop s) := by
  unfold execCancelStop
  exact .ite (.next fun hs => hs.stopUnit) (.next fun hs => hs)

theorem execMailboxColspan_goes : Goes s (execMailboxColspan s) := by
  unfold execMailboxColspan
  refine mailbox_goes fun _ _ hx => ?_
  dsimp only
  exact .iteFst (.pair hx) (.pair hx.modPart)

theorem MemoriesCanonical.count {g st ks} (hs : MemoriesCanonical s) : MemoriesCanonical (s.count g st ks) := by
  unfold State.count
  exact .ite hs (.modDvfs (.ite (.modBank (hs.modCore (fun _ hc => (by
  split
  · exact .same (.foldl (fun _ _ hx1 => hx1.perfBump) hc)
  · exact .same (.foldl (fun _ _ hx1 => hx1.perfBump) hc)
  · exact .same (.foldl (fun _ _ hx1 => hx1.perfBump) hc))))) (hs.modCore (fun _ hc => (by
  split
  · exact .same (.foldl (fun _ _ hx1 => hx1.perfBump) hc)
  · exact .same (.foldl (fun _ _ hx1 => hx1.perfBump) hc)
  · exact .same (.foldl (fun _ _ hx1 => hx1.perfBump) hc))))))

theorem MemoriesCanonical.atCol {c w} (hs : MemoriesCanonical s) : MemoriesCanonical (s.atCol c w) := by
  unfold State.atCol
  exact hs.same

theorem MemoriesCanonical.seekRun {g k} (hs : MemoriesCanonical s) : MemoriesCanonical (s.seekRun g k) := by
  unfold State.seekRun
  exact .ite hs.schedule hs

theorem MemoriesCanonical.keepWaits {ps} (hs : MemoriesCanonical s) : MemoriesCanonical (s.keepWaits ps) :=
  .foldl (fun _ _ hx => .ite hx.modTb hx) hs

theorem MemoriesCanonical.setTurn {g k st} (hs : MemoriesCanonical s) : MemoriesCanonical (s.setTurn g k st) :=
  hs.same

theorem MemoriesCanonical.nextTurn {n} (hs : MemoriesCanonical s) : MemoriesCanonical (s.nextTurn n) := by
  unfold State.nextTurn
  dsimp only
  split
  · exact hs.setTurn
  · split
    · exact hs.same.setTurn
    · exact hs.same.setTurn

theorem MemoriesCanonical.passTurn {g k st} (hs : MemoriesCanonical s) : MemoriesCanonical (s.passTurn g k st) := by
  unfold State.passTurn
  split
  · exact hs.setTurn
  · exact hs.setTurn
  · exact hs.nextTurn

theorem MemoriesCanonical.endCore {g} (hs : MemoriesCanonical s) : MemoriesCanonical (s.endCore g) := by
  unfold State.endCore
  exact .ite hs.schedule hs
/-! ## Every instruction -/

/-- Every instruction goes on, and keeps the canonical form. -/
theorem exec_goes (i : Instr) (s : State) : Goes s (exec i s) := by
  cases i with
  | xNop => exact execXNop_goes
  | xAdd h d a b => exact (xBin_goes : Goes s (execXAdd h d a b s))
  | xSub h d a b => exact (xBin_goes : Goes s (execXSub h d a b s))
  | xAnd h d a b => exact (xBin_goes : Goes s (execXAnd h d a b s))
  | xOr h d a b => exact (xBin_goes : Goes s (execXOr h d a b s))
  | xXor h d a b => exact (xBin_goes : Goes s (execXXor h d a b s))
  | xShl h d a b => exact (xBin_goes : Goes s (execXShl h d a b s))
  | xShr h d a b => exact (xBin_goes : Goes s (execXShr h d a b s))
  | xSra h d a b => exact (xBin_goes : Goes s (execXSra h d a b s))
  | xMin h uns d a b => exact (xBin_goes : Goes s (execXMin h uns d a b s))
  | xMax h uns d a b => exact (xBin_goes : Goes s (execXMax h uns d a b s))
  | xMul h d a b => exact (xBin_goes : Goes s (execXMul h d a b s))
  | xMulh h uns d a b => exact (xBin_goes : Goes s (execXMulh h uns d a b s))
  | xSel h d a b p => exact (xScalar_goes : Goes s (execXSel h d a b p s))
  | xClz h d a => exact (xScalar_goes : Goes s (execXClz h d a s))
  | xPopc h d a => exact (xScalar_goes : Goes s (execXPopc h d a s))
  | xBfx h sx w d a pos => exact (xBin_goes : Goes s (execXBfx h sx w d a pos s))
  | xBfi h w d a b pos => exact (xScalar_goes : Goes s (execXBfi h w d a b pos s))
  | xLea h k d a b => exact (xBin_goes : Goes s (execXLea h k d a b s))
  | xAddi h d a i' => exact (xImm_goes : Goes s (execXAddi h d a i' s))
  | xAndi h d a i' => exact (xImm_goes : Goes s (execXAndi h d a i' s))
  | xOri h d a i' => exact (xImm_goes : Goes s (execXOri h d a i' s))
  | xXori h d a i' => exact (xImm_goes : Goes s (execXXori h d a i' s))
  | xShli h d a i' => exact (xImm_goes : Goes s (execXShli h d a i' s))
  | xShri h d a i' => exact (xImm_goes : Goes s (execXShri h d a i' s))
  | xSrai h d a i' => exact (xImm_goes : Goes s (execXSrai h d a i' s))
  | xLi h d i' => exact (xScalar_goes : Goes s (execXLi h d i' s))
  | xLih h d a i' => exact (xImm_goes : Goes s (execXLih h d a i' s))
  | xMuli h d a i' => exact (xImm_goes : Goes s (execXMuli h d a i' s))
  | xCmp h c p a b => exact (xPredicate_goes : Goes s (execXCmp h c p a b s))
  | xCmpi h c p a i' => exact (xPredicate_goes : Goes s (execXCmpi h c p a i' s))
  | xPand h p a b => exact (xPredicate_goes : Goes s (execXPand h p a b s))
  | xPor h p a b => exact (xPredicate_goes : Goes s (execXPor h p a b s))
  | xPxor h p a b => exact (xPredicate_goes : Goes s (execXPxor h p a b s))
  | xPnot h p a => exact (xPredicate_goes : Goes s (execXPnot h p a s))
  | xPmov h p a => exact (xPredicate_goes : Goes s (execXPmov h p a s))
  | xPget h d a => exact (xScalar_goes : Goes s (execXPget h d a s))
  | vadd h d a b => exact (vBinF_goes : Goes s (execVadd h d a b s))
  | vsub h d a b => exact (vBinF_goes : Goes s (execVsub h d a b s))
  | vmul h d a b => exact (vBinF_goes : Goes s (execVmul h d a b s))
  | vfma h d a b c => exact (vTerF_goes : Goes s (execVfma h d a b c s))
  | vfms h d a b c => exact (vTerF_goes : Goes s (execVfms h d a b c s))
  | vmin h d a b => exact (vBinF_goes : Goes s (execVmin h d a b s))
  | vmax h d a b => exact (vBinF_goes : Goes s (execVmax h d a b s))
  | vabs h d a => exact (vUnF_goes : Goes s (execVabs h d a s))
  | vneg h d a => exact (vUnF_goes : Goes s (execVneg h d a s))
  | vcmp => exact execVcmp_goes
  | vrcp h d a => exact (vUnF_goes : Goes s (execVrcp h d a s))
  | vrsqrt h d a => exact (vUnF_goes : Goes s (execVrsqrt h d a s))
  | vexp2 h d a => exact (vUnF_goes : Goes s (execVexp2 h d a s))
  | vlog2 h d a => exact (vUnF_goes : Goes s (execVlog2 h d a s))
  | vredsumO h d a => exact (xScalar_goes : Goes s (execVredsumO h d a s))
  | vredsumU => exact execVredsumU_goes
  | vredmax h d a => exact (xScalar_goes : Goes s (execVredmax h d a s))
  | viadd h d a b => exact (vBinI_goes : Goes s (execViadd h d a b s))
  | visub h d a b => exact (vBinI_goes : Goes s (execVisub h d a b s))
  | vimul h d a b => exact (vBinI_goes : Goes s (execVimul h d a b s))
  | vand h d a b => exact (vBinI_goes : Goes s (execVand h d a b s))
  | vor h d a b => exact (vBinI_goes : Goes s (execVor h d a b s))
  | vxor h d a b => exact (vBinI_goes : Goes s (execVxor h d a b s))
  | vshl h d a b => exact (vBinI_goes : Goes s (execVshl h d a b s))
  | vshr h d a b => exact (vBinI_goes : Goes s (execVshr h d a b s))
  | vsra h d a b => exact (vBinI_goes : Goes s (execVsra h d a b s))
  | vimin h uns d a b => exact (vBinI_goes : Goes s (execVimin h uns d a b s))
  | vimax h uns d a b => exact (vBinI_goes : Goes s (execVimax h uns d a b s))
  | vicmp h c d a b => exact (vBinI_goes : Goes s (execVicmp h c d a b s))
  | vmacw h uns pa pb d a b c => exact (xVector_goes : Goes s (execVmacw h uns pa pb d a b c s))
  | vrsh h t p d a b c => exact (xVector_goes : Goes s (execVrsh h t p d a b c s))
  | vdot4 h ua ub d a b c => exact (xVector_goes : Goes s (execVdot4 h ua ub d a b c s))
  | vcvt h dst src p d a c => exact (xVector_goes : Goes s (execVcvt h dst src p d a c s))
  | vdq => exact execVdq_goes
  | vbc => exact execVbc_goes
  | vbcLn => exact execVbcLn_goes
  | vperm h d a b c => exact (xVector_goes : Goes s (execVperm h d a b c s))
  | vnzscan => exact execVnzscan_goes
  | vnzscanCnt h f32 d a => exact (xScalar_goes : Goes s (execVnzscanCnt h f32 d a s))
  | vnzscanMsk h f32 d a => exact (xScalar_goes : Goes s (execVnzscanMsk h f32 d a s))
  | vmerge => exact execVmerge_goes
  | vscan h op ex d a => exact (xVector_goes : Goes s (execVscan h op ex d a s))
  | dadd h keep c a b => exact (domRel_goes : Goes s (execDadd h keep c a b s))
  | dsub h keep c a b => exact (domRel_goes : Goes s (execDsub h keep c a b s))
  | dmulc h keep c a k => exact (domRel_goes : Goes s (execDmulc h keep c a k s))
  | dlt h keep a b => exact (domRel_goes : Goes s (execDlt h keep a b s))
  | dle h keep a b => exact (domRel_goes : Goes s (execDle h keep a b s))
  | deq h keep a b => exact (domRel_goes : Goes s (execDeq h keep a b s))
  | dne h keep a b => exact (domRel_goes : Goes s (execDne h keep a b s))
  | dint => exact execDint_goes
  | dexcl h a v => exact (domCon_goes : Goes s (execDexcl h a v s))
  | dfix h a v => exact (domCon_goes : Goes s (execDfix h a v s))
  | delem h keep a i' t => exact (domRel_goes : Goes s (execDelem h keep a i' t s))
  | dlo h d a => exact (domRead_goes : Goes s (execDlo h d a s))
  | dhi h d a => exact (domRead_goes : Goes s (execDhi h d a s))
  | dsize h d a => exact (domRead_goes : Goes s (execDsize h d a s))
  | dget h d a w => exact (domRead_goes : Goes s (execDget h d a w s))
  | dtestIn => exact execDtestIn_goes
  | dtestOne => exact execDtestOne_goes
  | dpick => exact execDpick_goes
  | dset h a lo hi => exact (domSet_goes : Goes s (execDset h a lo hi s))
  | dsetw => exact execDsetw_goes
  | dprop => exact execDprop_goes
  | dsave h => exact (domStack_goes : Goes s (execDsave h s))
  | drest h => exact (domStack_goes : Goes s (execDrest h s))
  | ddrop h => exact (domStack_goes : Goes s (execDdrop h s))
  | dclr h => exact (domStack_goes : Goes s (execDclr h s))
  | xBr => exact execXBr_goes
  | xJr => exact execXJr_goes
  | xCall => exact execXCall_goes
  | xRet => exact execXRet_goes
  | brq h disp => exact (xBrq_goes : Goes s (execBrq h disp s))
  | brqN h disp => exact (xBrq_goes : Goes s (execBrqN h disp s))
  | xLoop => exact execXLoop_goes
  | join => exact execJoin_goes
  | ccset => exact execCcset_goes
  | ccclr => exact execCcclr_goes
  | xPause => exact execXPause_goes
  | xFin => exact execXFin_goes
  | xLd h cls ty d a b => exact (xLoad_goes : Goes s (execXLd h cls ty d a b s))
  | xSt => exact execXSt_goes
  | vld h cls d a b => exact (xVLoad_goes : Goes s (execVld h cls d a b s))
  | vst h cls a b c => exact (xVStore_goes : Goes s (execVst h cls a b c s))
  | vldx h cls d a b => exact (xVLoad_goes : Goes s (execVldx h cls d a b s))
  | vstx h cls a b c => exact (xVStore_goes : Goes s (execVstx h cls a b c s))
  | ldacq h cls d a b => exact (xLoad_goes : Goes s (execLdacq h cls d a b s))
  | accrd => exact execAccrd_goes
  | xFence _ k => exact execXFence_goes (_k := k)
  | xTrap => exact execXTrap_goes
  | eret => exact execEret_goes
  | xSysr => exact execXSysr_goes
  | xSysw => exact execXSysw_goes
  | halt => exact execHalt_goes
  | dbgstop => exact execDbgstop_goes
  | yield => exact execYield_goes
  | aAdd h d a b => exact (aBin_goes : Goes s (execAAdd h d a b s))
  | aSub h d a b => exact (aBin_goes : Goes s (execASub h d a b s))
  | aAnd h d a b => exact (aBin_goes : Goes s (execAAnd h d a b s))
  | aOr h d a b => exact (aBin_goes : Goes s (execAOr h d a b s))
  | aXor h d a b => exact (aBin_goes : Goes s (execAXor h d a b s))
  | aShl h d a b => exact (aBin_goes : Goes s (execAShl h d a b s))
  | aShr h d a b => exact (aBin_goes : Goes s (execAShr h d a b s))
  | aSra h d a b => exact (aBin_goes : Goes s (execASra h d a b s))
  | aMul h d a b => exact (aResult_goes : Goes s (execAMul h d a b s))
  | aMin h uns d a b => exact (aBin_goes : Goes s (execAMin h uns d a b s))
  | aMax h uns d a b => exact (aBin_goes : Goes s (execAMax h uns d a b s))
  | aBfx h sx w d a p => exact (aBin_goes : Goes s (execABfx h sx w d a p s))
  | aAddi h d a i' => exact (aImm_goes : Goes s (execAAddi h d a i' s))
  | aAndi h d a i' => exact (aImm_goes : Goes s (execAAndi h d a i' s))
  | aLi h d i' => exact (aResult_goes : Goes s (execALi h d i' s))
  | aLih h d a i' k => exact (aImm_goes : Goes s (execALih h d a i' k s))
  | aLd => exact execALd_goes
  | aSt => exact execASt_goes
  | lda _ _ sc => exact execLda_goes (_sc := sc)
  | stl => exact execStl_goes
  | ldq => exact execLdq_goes
  | ldd => exact execLdd_goes
  | stz => exact execStz_goes
  | aswap h cls w64 sem d a v => exact (aAtomic_goes : Goes s (execAswap h cls w64 sem d a v s))
  | acas h cls w64 sem d a v => exact (aAtomic_goes : Goes s (execAcas h cls w64 sem d a v s))
  | aadd h cls w64 sem d a v => exact (aAtomic_goes : Goes s (execAadd h cls w64 sem d a v s))
  | aand h cls w64 sem d a v => exact (aAtomic_goes : Goes s (execAand h cls w64 sem d a v s))
  | aor h cls w64 sem d a v => exact (aAtomic_goes : Goes s (execAor h cls w64 sem d a v s))
  | axor h cls w64 sem d a v => exact (aAtomic_goes : Goes s (execAxor h cls w64 sem d a v s))
  | amin h cls w64 sem d a v => exact (aAtomic_goes : Goes s (execAmin h cls w64 sem d a v s))
  | amax h cls w64 sem d a v => exact (aAtomic_goes : Goes s (execAmax h cls w64 sem d a v s))
  | aminu h cls w64 sem d a v => exact (aAtomic_goes : Goes s (execAminu h cls w64 sem d a v s))
  | amaxu h cls w64 sem d a v => exact (aAtomic_goes : Goes s (execAmaxu h cls w64 sem d a v s))
  | redadd h cls w64 rel a v => exact (aReduce_goes : Goes s (execRedadd h cls w64 rel a v s))
  | redmin h cls w64 uns rel a v => exact (aReduce_goes : Goes s (execRedmin h cls w64 uns rel a v s))
  | redmax h cls w64 uns rel a v => exact (aReduce_goes : Goes s (execRedmax h cls w64 uns rel a v s))
  | redand h cls w64 rel a v => exact (aReduce_goes : Goes s (execRedand h cls w64 rel a v s))
  | redor h cls w64 rel a v => exact (aReduce_goes : Goes s (execRedor h cls w64 rel a v s))
  | redxor h cls w64 rel a v => exact (aReduce_goes : Goes s (execRedxor h cls w64 rel a v s))
  | redfaddO => exact execRedfaddO_goes
  | redfaddU h cls rel a v => exact (aReduce_goes : Goes s (execRedfaddU h cls rel a v s))
  | redfmin h cls rel a v => exact (aReduce_goes : Goes s (execRedfmin h cls rel a v s))
  | redfmax h cls rel a v => exact (aReduce_goes : Goes s (execRedfmax h cls rel a v s))
  | rgcfg => exact execRgcfg_goes
  | rgwfree => exact execRgwfree_goes
  | rgwfill => exact execRgwfill_goes
  | rgput => exact execRgput_goes
  | rgtake => exact execRgtake_goes
  | rgrel => exact execRgrel_goes
  | rgrot => exact execRgrot_goes
  | give => exact execGive_goes
  | take => exact execTake_goes
  | beq h mode a b disp => exact (aBranch_goes : Goes s (execBeq h mode a b disp s))
  | bne h mode a b disp => exact (aBranch_goes : Goes s (execBne h mode a b disp s))
  | blt h mode a b disp => exact (aBranch_goes : Goes s (execBlt h mode a b disp s))
  | bge h mode a b disp => exact (aBranch_goes : Goes s (execBge h mode a b disp s))
  | bltu h mode a b disp => exact (aBranch_goes : Goes s (execBltu h mode a b disp s))
  | bgeu h mode a b disp => exact (aBranch_goes : Goes s (execBgeu h mode a b disp s))
  | jmp h disp => exact (aJump_goes : Goes s (execJmp h disp s))
  | aJr h a => exact (aJump_goes : Goes s (execAJr h a s))
  | aCall h d disp => exact (aJump_goes : Goes s (execACall h d disp s))
  | aRet h a => exact (aJump_goes : Goes s (execARet h a s))
  | aLoop => exact execALoop_goes
  | aPause => exact execAPause_goes
  | fenceAcq _ sc => exact execFenceAcq_goes (_sc := sc)
  | fenceRel => exact execFenceRel_goes
  | fenceSc => exact execFenceSc_goes
  | colarrRlx => exact execColarrRlx_goes
  | colarrRel => exact execColarrRel_goes
  | colwait => exact execColwait_goes
  | colsync => exact execColsync_goes
  | barc => exact execBarc_goes
  | aSysr => exact execASysr_goes
  | aSysw => exact execASysw_goes
  | aTrap => exact execATrap_goes
  | tlbinv => exact execTlbinv_goes
  | ctxsw => exact execCtxsw_goes
  | ctxbank => exact execCtxbank_goes
  | lnch => exact execLnch_goes
  | lcancel => exact execLcancel_goes
  | lcancelUnit => exact execLcancelUnit_goes
  | lwait => exact execLwait_goes
  | evset => exact execEvset_goes
  | evclr => exact execEvclr_goes
  | evtest => exact execEvtest_goes
  | hld => exact execHld_goes
  | hst => exact execHst_goes
  | hview => exact execHview_goes
  | htrans h d s' => exact (aHandle_goes : Goes s (execHtrans h d s' s))
  | hshape => exact execHshape_goes
  | cpy h ss ds rp d s' => exact (aCopy2_goes : Goes s (execCpy h ss ds rp d s' s))
  | cpg h ss ds rp d s' l => exact (aCopy2_goes : Goes s (execCpg h ss ds rp d s' l s))
  | cps h ss ds rp d s' l => exact (aCopy2_goes : Goes s (execCps h ss ds rp d s' l s))
  | cpq h ss ds rp d s' => exact (aCopy2_goes : Goes s (execCpq h ss ds rp d s' s))
  | cpm => exact execCpm_goes
  | mnop => exact execMnop_goes
  | mlease => exact execMlease_goes
  | mfree => exact execMfree_goes
  | mfin => exact execMfin_goes
  | mmul => exact execMmul_goes
  | mwload h rb fb kb => exact (mLoad_goes : Goes s (execMwload h rb fb kb s))
  | mwloadnm h rb fb kb => exact (mLoad_goes : Goes s (execMwloadnm h rb fb kb s))
  | mdrain => exact execMdrain_goes
  | mzero => exact execMzero_goes
  | msnap => exact execMsnap_goes
  | mpred => exact execMpred_goes
  | mscan => exact execMscan_goes
  | mkli => exact execMkli_goes
  | mkadd => exact execMkadd_goes
  | mloop => exact execMloop_goes
  | mbnz => exact execMbnz_goes
  | aFin => exact execAFin_goes
  | xResultLanding => exact (.next fun hs => hs.landX : Goes s (execXResultLanding s))
  | tokenPoppable => exact (.next fun hs => hs.modBank : Goes s (execTokenPoppable s))
  | queueEntryPoppable => exact execQueueEntryPoppable_goes
  | aWordRetire => exact execAWordRetire_goes
  | stampOverrun => exact (.next fun hs => hs.overrun : Goes s (execStampOverrun s))
  | waitBound => exact execWaitBound_goes
  | handlerStart => exact execHandlerStart_goes
  | boundaryCauseDelivery => exact execBoundaryCauseDelivery_goes
  | copyFault => exact (.next fun hs => hs.raiseBoundary : Goes s (execCopyFault s))
  | oredFull => exact (.next fun hs => hs.raiseBoundary : Goes s (execOredFull s))
  | propagationRun => exact execPropagationRun_goes
  | globalAccessAtOwner => exact execGlobalAccessAtOwner_goes
  | pageTableWalk => exact execPageTableWalk_goes
  | pageFaultFreeze => exact execPageFaultFreeze_goes
  | faultBatchTimer => exact (.next fun hs => hs.closeBatch : Goes s (execFaultBatchTimer s))
  | faultBatchCount => exact (.next fun hs => hs.closeBatch : Goes s (execFaultBatchCount s))
  | faultAnswer => exact execFaultAnswer_goes
  | priGroupResponse => exact execPriGroupResponse_goes
  | priResponseFailure => exact execPriResponseFailure_goes
  | replayListResend => exact execReplayListResend_goes
  | invalidationComplete => exact execInvalidationComplete_goes
  | atsInvalidation => exact (.next fun hs => hs.modDev : Goes s (execAtsInvalidation s))
  | inboundHostWrite => exact execInboundHostWrite_goes
  | inboundHostRead => exact execInboundHostRead_goes
  | rgrotExchange => exact execRgrotExchange_goes
  | rgrotExchangeEnd => exact execRgrotExchangeEnd_goes
  | copyChannelStart => exact execCopyChannelStart_goes
  | copyRowCommit => exact execCopyRowCommit_goes
  | copyCommandComplete => exact execCopyCommandComplete_goes
  | leaseGrant => exact execLeaseGrant_goes
  | leaseEndCycles => exact execLeaseEndCycles_goes
  | leaseEndCommands => exact execLeaseEndCommands_goes
  | arrayCommandStart => exact execArrayCommandStart_goes
  | arraySlotFetch => exact execArraySlotFetch_goes
  | kStepStart => exact execKStepStart_goes
  | kStepLanding => exact execKStepLanding_goes
  | arrayCommandRetire => exact execArrayCommandRetire_goes
  | drainStart => exact execDrainStart_goes
  | drainWrite => exact execDrainWrite_goes
  | mzeroEffect => exact execMzeroEffect_goes
  | msnapWrite => exact execMsnapWrite_goes
  | mpredResult => exact execMpredResult_goes
  | mscanWrite => exact execMscanWrite_goes
  | arrayReplay => exact execArrayReplay_goes
  | queueDoorbell => exact execQueueDoorbell_goes
  | queueHeadCheck => exact execQueueHeadCheck_goes
  | entryDispatch => exact execEntryDispatch_goes
  | unitDispatch => exact execUnitDispatch_goes
  | unitStart => exact execUnitStart_goes
  | unitCompletion => exact execUnitCompletion_goes
  | hostNodeDoorbell => exact execHostNodeDoorbell_goes
  | completionRecord => exact execCompletionRecord_goes
  | cancelStop => exact execCancelStop_goes
  | preemption => exact execPreemption_goes
  | phaseClose => exact execPhaseClose_goes
  | sealInputRise => exact execSealInputRise_goes
  | sealLineFire => exact execSealLineFire_goes
  | sealLineArrival => exact execSealLineArrival_goes
  | phaseOpen => exact execPhaseOpen_goes
  | jobCompletion => exact execJobCompletion_goes
  | closePhase => exact execClosePhase_goes
  | endJob => exact execEndJob_goes
  | hostStop => exact execHostStop_goes
  | hostResume => exact execHostResume_goes
  | queueReset => exact execQueueReset_goes
  | resetTruncatedTrace => exact execResetTruncatedTrace_goes
  | partitionSwap => exact execPartitionSwap_goes
  | bankSwitchTslice => exact execBankSwitchTslice_goes
  | colInputRise => exact execColInputRise_goes
  | colReleaseFire => exact execColReleaseFire_goes
  | colReleaseArrival => exact execColReleaseArrival_goes
  | evsetEffect => exact (.next fun hs => hs.evEffect (fun _ hx => hx.schedule) : Goes s (execEvsetEffect s))
  | evclrEffect => exact (.next fun hs => hs.evEffect (fun _ hx => hx.schedule) : Goes s (execEvclrEffect s))
  | intervalRollback => exact execIntervalRollback_goes
  | phaseRestart => exact execPhaseRestart_goes
  | undoTimeout => exact execUndoTimeout_goes
  | holdTimeout => exact execHoldTimeout_goes
  | lineTagSweep => exact execLineTagSweep_goes
  | testPassComplete => exact execTestPassComplete_goes
  | dvreqWrite => exact (.next fun hs => hs.dvreq : Goes s (execDvreqWrite s))
  | voltageRampEnd => exact execVoltageRampEnd_goes
  | pllRelockEnd => exact execPllRelockEnd_goes
  | dvfsSample => exact execDvfsSample_goes
  | coolantShortfall => exact execCoolantShortfall_goes
  | mailboxPart => exact execMailboxPart_goes
  | mailboxBind => exact execMailboxBind_goes
  | mailboxOvfext => exact execMailboxOvfext_goes
  | mailboxDvreq => exact execMailboxDvreq_goes
  | mailboxVmin => exact execMailboxVmin_goes
  | mailboxPwrlim => exact execMailboxPwrlim_goes
  | mailboxStage => exact execMailboxStage_goes
  | mailboxAttest => exact execMailboxAttest_goes
  | mailboxColspan => exact execMailboxColspan_goes
  | mailboxRetry => exact execMailboxRetry_goes
  | mailboxTlbinv => exact execMailboxTlbinv_goes
  | deviceResetStart => exact execDeviceResetStart_goes
  | bootctlGo => exact execBootctlGo_goes
  | goTimeout => exact execGoTimeout_goes
  | firmwareEventAck => exact execFirmwareEventAck_goes
  | spanReadRequest => exact execSpanReadRequest_goes
  | spanWrite => exact execSpanWrite_goes
  | spanReadCompletion => exact execSpanReadCompletion_goes
  | spanAtomic => exact execSpanAtomic_goes
  | spanCol => exact execSpanCol_goes
  | spanSeal => exact execSpanSeal_goes
  | spanCredit => exact (.next fun hs => .ite hs.dropFlit hs : Goes s (execSpanCredit s))
  | spanFaultReply => exact execSpanFaultReply_goes
  | spanPortFail => exact execSpanPortFail_goes
  | breakpoint => exact (.next fun hs => hs.trap : Goes s (execBreakpoint s))
  | headSample => exact execHeadSample_goes
  | recordedInputInject => exact execRecordedInputInject_goes
  | lcWrite => exact (.next fun hs => hs.modBank : Goes s (execLcWrite s))
  | sfcloRead => exact (.next fun hs => hs.latchSfchi : Goes s (execSfcloRead s))
  | colerrWrite => exact (.next fun hs => hs.writeColerr : Goes s (execColerrWrite s))
  | accliveWrite => exact (.next fun hs => hs.modCore (fun _ hc => hc.writeAcclive) : Goes s (execAccliveWrite s))
  | fltctlWrite => exact (.next fun hs => hs.writeFltctl : Goes s (execFltctlWrite s))
  | dbgctlPclr => exact (.next fun hs => hs.clearPerf : Goes s (execDbgctlPclr s))
  | trcctlWrite => exact (.next fun hs => hs.writeTrcctl : Goes s (execTrcctlWrite s))
  | replayctlWrite => exact (.next fun hs => hs.writeReplayctl : Goes s (execReplayctlWrite s))
  | registerWrite => exact execRegisterWrite_goes
  | imageLoad => exact execImageLoad_goes
  | queueTableRegistration => exact execQueueTableRegistration_goes
  | frqheadWrite => exact execFrqheadWrite_goes
  | shadowWritebackEnd => exact (.next fun hs => .foldl (fun _ _ hx => hx.modDie) hs : Goes s (execShadowWritebackEnd s))
  -- What is left is the seal.
  | _ => exact execSeal_goes

/-! ## The steps of the device -/

/-- The state that an outcome goes on with, if it does, has canonical memories. -/
def LeavesCanonical (o : Host.Outcome State Fault Refusal) : Prop := ∀ t, o = .next t → MemoriesCanonical t

/-- What each presented syllable leaves has canonical memories. -/
def PresentedCanonical (ps : List Presented) : Prop := ∀ p ∈ ps, MemoriesCanonical p.res

theorem Goes.leaves {o : Host.Outcome State Fault Refusal} (ho : Goes s o) (hs : MemoriesCanonical s) : LeavesCanonical o := by
  obtain ⟨t, rfl, ht⟩ := ho
  rintro _ ⟨⟩
  exact ht hs

theorem MemoriesCanonical.exec {i : Instr} (hs : MemoriesCanonical s) : LeavesCanonical (exec i s) := (exec_goes i s).leaves hs

theorem LeavesCanonical.next {t : State} (ht : MemoriesCanonical t) : LeavesCanonical (.next t) := by
  rintro _ ⟨⟩
  exact ht

theorem LeavesCanonical.fault {f : Fault} : LeavesCanonical (.fault f) := by
  rintro _ ⟨⟩

theorem LeavesCanonical.ite {c : Prop} [Decidable c] {o q : Host.Outcome State Fault Refusal} (ho : LeavesCanonical o)
    (hq : LeavesCanonical q) : LeavesCanonical (if c then o else q) := by
  split
  · exact ho
  · exact hq

theorem LeavesCanonical.andThen {o : Host.Outcome State Fault Refusal} {k : State → Host.Outcome State Fault Refusal}
    (ho : LeavesCanonical o) (hk : ∀ t, MemoriesCanonical t → LeavesCanonical (k t)) : LeavesCanonical (andThen o k) := by
  cases o with
  | next t => exact hk t (ho t rfl)
  | fault f => exact .fault
  | refused r => rintro _ ⟨⟩

/-! ### Words of A and M -/

theorem MemoriesCanonical.afterWord {st} (hs : MemoriesCanonical s) : LeavesCanonical (s.afterWord st) := by
  unfold State.afterWord
  dsimp only
  split
  · exact .next hs.count
  · exact .ite (.exec (.same (.count (.ite hs.modTb hs)))) (.next (.count (.ite hs.modTb hs)))
  · exact .next hs

theorem MemoriesCanonical.runFetched {st} (f : Fetched) (hs : MemoriesCanonical s) : LeavesCanonical (runFetched st f s) := by
  cases f with
  | untranslated => exact .fault
  | beyond => exact .next hs.illegal
  | cut w => exact .next (.illegal hs.same)
  | word w =>
    unfold Machine.runFetched
    dsimp only
    split
    · exact hs.same.exec
    · split
      · exact hs.same.exec
      · exact .next (.illegal hs.same)

theorem MemoriesCanonical.turnA (hs : MemoriesCanonical s) : LeavesCanonical (turnA s) := by
  unfold Machine.turnA
  dsimp only
  refine .ite (.next hs) (.ite (.next hs.modTb) ?_)
  split
  · exact .next hs.count
  · exact .next hs
  · exact .ite (.next hs.modTb) (.next hs)
  · exact .ite (.next hs) (.ite hs.same.exec (.andThen (hs.runFetched _) fun _ ht => ht.afterWord))

theorem MemoriesCanonical.turnM (hs : MemoriesCanonical s) : LeavesCanonical (turnM s) :=
  .ite (.next hs) (.ite (.next hs.modTb) (.andThen (hs.runFetched _) fun _ ht => ht.afterWord))

/-! ### X issue cycles -/

theorem MemoriesCanonical.execCol {c w} (hs : MemoriesCanonical s) : LeavesCanonical (execCol c w s) := by
  unfold Machine.execCol
  dsimp only
  split
  · exact .exec hs.atCol.same
  · split
    · exact hs.atCol.exec
    · exact .next hs.atCol.illegal

theorem MemoriesCanonical.boundCols {cs} (hs : MemoriesCanonical s) : LeavesCanonical (boundCols s cs) := by
  unfold Machine.boundCols
  split
  · exact .exec hs.atCol.same
  · exact .next hs

theorem PresentedCanonical.nil : PresentedCanonical [] := fun _ hp => absurd hp List.not_mem_nil

theorem PresentedCanonical.cons {p : Presented} {l : List Presented} (hp : MemoriesCanonical p.res) (hl : PresentedCanonical l) :
    PresentedCanonical (p :: l) :=
  List.forall_mem_cons.2 ⟨hp, hl⟩

theorem PresentedCanonical.filter {l : List Presented} {f} (hl : PresentedCanonical l) : PresentedCanonical (l.filter f) :=
  fun p hp => hl p (List.mem_of_mem_filter hp)

theorem PresentedCanonical.append {l r : List Presented} (hl : PresentedCanonical l) (hr : PresentedCanonical r) :
    PresentedCanonical (l ++ r) :=
  fun p hp => (List.mem_append.1 hp).elim (hl p) (hr p)

theorem MemoriesCanonical.presentCols (hs : MemoriesCanonical s) (l : List (Fin 4 × Fetched)) {ps} (e : presentCols s l = .ok ps) :
    PresentedCanonical ps := by
  induction l generalizing ps with
  | nil =>
    cases e
    exact .nil
  | cons x l ih =>
    obtain ⟨c, f⟩ := x
    unfold Machine.presentCols at e
    split at e
    · cases e
    · next r hr =>
      split at e
      · cases e
        exact ih hr
      · split at e
        · cases e
        · cases e
          exact .cons hs.atCol.illegal (ih hr)
        · cases e
          exact .cons hs.atCol.illegal (ih hr)
        · split at e
          · next t ht =>
            cases e
            exact .cons (hs.execCol t ht) (ih hr)
          · cases e
          · cases e
            exact ih hr

/-- The lowest cause is one of those presented. -/
theorem PresentedCanonical.lowestCause {l : List Presented} (hl : PresentedCanonical l) :
    ∀ p : Presented, lowestCause l = some p → MemoriesCanonical p.res := by
  unfold Machine.lowestCause
  refine List.foldlRecOn (motive := fun o => ∀ p : Presented, o = some p → MemoriesCanonical p.res) l _ (fun p e => ?_) fun o ho x hx p e => ?_
  · cases e
  · cases o with
    | none =>
      cases e
      exact hl x hx
    | some q =>
      dsimp only at e
      split at e
      · cases e
        exact hl x hx
      · cases e
        exact ho _ rfl

theorem MemoriesCanonical.issueCols {l : List Presented} (hs : MemoriesCanonical s) {t} (e : issueCols l s = .ok t) :
    MemoriesCanonical t := by
  induction l generalizing s with
  | nil =>
    cases e
    exact hs
  | cons p l ih =>
    unfold Machine.issueCols at e
    split at e
    · next u hu =>
      split at e
      · exact ih (hs.execCol u hu) e
      · cases e
    · cases e
      exact hs

theorem MemoriesCanonical.freezeCols {ps} (hs : MemoriesCanonical s) : LeavesCanonical (freezeCols s ps) :=
  MemoriesCanonical.boundCols (.modTb (.keepWaits hs.count))

theorem MemoriesCanonical.issueCycle {holding going} (hs : MemoriesCanonical s) : LeavesCanonical (issueCycle s holding going) := by
  unfold Machine.issueCycle
  dsimp only
  split
  · exact hs.freezeCols
  · next t e =>
    have ht : MemoriesCanonical t := .issueCols (.modTb (.keepWaits hs)) e
    have hu : MemoriesCanonical (if going.isEmpty then t else t.count s.turn.core .x [0]) := .ite ht ht.count
    exact .ite (.andThen (.exec hu.same) fun _ h => h.boundCols) (.next hu)

theorem MemoriesCanonical.turnX (hs : MemoriesCanonical s) : LeavesCanonical (turnX s) := by
  unfold Machine.turnX
  dsimp only
  refine .ite (.next hs) (.ite (.next hs.domTrap) ?_)
  split
  · exact .fault
  · next ps e =>
    have hps := hs.presentCols _ e
    split
    · next p hp =>
      refine .next (PresentedCanonical.lowestCause (.append (.append hps.filter ?_) ?_) p hp)
      · split
        · exact .cons hs.atCol.trap .nil
        · exact .nil
      · split
        · exact .nil
        · exact hps.filter.filter
    · exact .ite (.andThen hs.freezeCols fun _ h => .next h.seekRun) hs.issueCycle

/-! ### Acts -/

theorem MemoriesCanonical.edgeCause (hs : MemoriesCanonical s) : AllCanonical s.edgeCause := by
  intro t e
  obtain ⟨o, ho, e⟩ := List.exists_of_findSome?_eq_some e
  have hl : LeavesCanonical o := by
    simp only [List.mem_cons, List.not_mem_nil, or_false] at ho
    rcases ho with rfl | rfl | rfl
    · exact hs.onStream.turnX
    · exact hs.onStream.turnA
    · exact hs.onStream.turnM
  split at e
  · split at e
    · cases e
      exact hl _ rfl
    · cases e
  · cases e

theorem MemoriesCanonical.onNextEdge {o : Host.Outcome State Fault Refusal} (hs : MemoriesCanonical s) (ho : LeavesCanonical o) :
    LeavesCanonical (onNextEdge s o) :=
  .andThen ho fun _ ht => .next (.ite hs ht)

theorem MemoriesCanonical.actTurn (hs : MemoriesCanonical s) : LeavesCanonical (actTurn s) := by
  unfold Machine.actTurn
  dsimp only
  refine .ite (.next hs.nextTurn) ?_
  cases s.turn.stream with
  | a =>
    dsimp only
    split
    · next t e => exact .next (hs.onStream.edgeCause t e).nextTurn
    · exact .andThen hs.onStream.turnA fun _ h => .next h.passTurn
  | m => exact .andThen (hs.onStream.onNextEdge hs.onStream.turnM) fun _ h => .next h.passTurn
  | x => exact .andThen (hs.onStream.onNextEdge hs.onStream.turnX) fun _ h => .next h.endCore.passTurn

theorem MemoriesCanonical.act (hs : MemoriesCanonical s) : LeavesCanonical (act s) := by
  unfold Machine.act
  split
  · exact hs.actTurn
  · exact .ite hs.same.exec hs.actTurn

end

/-! ## What this settles -/

/-- Settles O47, by the meaning of each instruction: every operation that it is built from answers a next state. -/
theorem nothingIsRefused : Obligations.NothingIsRefused := by
  unfold Obligations.NothingIsRefused
  intro i s
  obtain ⟨t, ht, -⟩ := exec_goes i s
  exact ⟨t, ht⟩

/-- Settles O51: an act is a turn of a stream or an instruction of the agenda, and every instruction keeps the canonical form. -/
theorem stepKeepsMemories : Obligations.StepKeepsMemories := by
  unfold Obligations.StepKeepsMemories
  intro s t hs e
  exact hs.act t e

end Sys2Proof.Claims

/-! SUPPORT. The results of stream X: each family delivers the value, lanes or predicate that spec/07 gives its forms. -/
namespace Sys2Proof.Machine
open Sys2Proof Sys2Proof.Claims

/-! ## Scalars (spec/07 R121-R123) -/

section
variable {h : XHdr} {d : SDst} {l : Nat} {s : State}

/-- A scalar form that sets no flags delivers its word. -/
theorem xScalar_delivers_word {srcs : List Nat} {f : State → Word × FFlags} (r : XReady h srcs s) (hl : ∀ q ∈ srcs, q < 9)
    {v : State → Word} (hv : f s = (v s, fNone)) :
    ∃ t, xScalar h d l srcs f s = .next t ∧ XDelivers (scalarTo h d l srcs v) s t :=
  xScalar_delivers r hl (fl := fun _ => 0) hv

theorem xBin_delivers {a b : SSrc} {f : Word → Word → Word} (r : XReady h (sPorts a ++ sPorts b) s) {v : State → Word}
    (hv : f (s.rS a) (s.rS b) = v s) :
    ∃ t, xBin h d a b l f s = .next t ∧ XDelivers (scalarTo h d l (sPorts a ++ sPorts b) v) s t :=
  xScalar_delivers_word r (sPorts2_lt a b) (congrArg (·, fNone) hv)

theorem xImm_delivers {a : SSrc} {f : Word → Word} (r : XReady h (sPorts a) s) {v : State → Word} (hv : f (s.rS a) = v s) :
    ∃ t, xImm h d a l f s = .next t ∧ XDelivers (scalarTo h d l (sPorts a) v) s t :=
  xScalar_delivers_word r (sPorts_lt a) (congrArg (·, fNone) hv)

end

/-- Settles O1: every row of the table is a form over one or two words, whose value the rule writes out. -/
theorem scalarResults : Obligations.ScalarResults := by
  intro i r s hi ready
  cases hi with
  | xAdd =>
    rw [exec_xAdd, execXAdd]
    exact xBin_delivers ready rfl
  | xSub =>
    rw [exec_xSub, execXSub]
    exact xBin_delivers ready rfl
  | xAnd =>
    rw [exec_xAnd, execXAnd]
    exact xBin_delivers ready rfl
  | xOr =>
    rw [exec_xOr, execXOr]
    exact xBin_delivers ready rfl
  | xXor =>
    rw [exec_xXor, execXXor]
    exact xBin_delivers ready rfl
  | xShl =>
    rw [exec_xShl, execXShl]
    exact xBin_delivers ready (shlW_eq _ _)
  | xShr =>
    rw [exec_xShr, execXShr]
    exact xBin_delivers ready (shrW_eq _ _)
  | xSra =>
    rw [exec_xSra, execXSra]
    exact xBin_delivers ready (sraW_eq _ _)
  | xMin =>
    rw [exec_xMin, execXMin]
    exact xBin_delivers ready (minW_eq _ _ _)
  | xMax =>
    rw [exec_xMax, execXMax]
    exact xBin_delivers ready (maxW_eq _ _ _)
  | xMul =>
    rw [exec_xMul, execXMul]
    exact xBin_delivers ready rfl
  | xMulh =>
    rw [exec_xMulh, execXMulh]
    exact xBin_delivers ready (mulhW_eq _ _ _)
  | xBfx =>
    rw [exec_xBfx, execXBfx]
    exact xBin_delivers ready (bfxW_eq _ _ _ _)
  | xLea =>
    rw [exec_xLea, execXLea]
    exact xBin_delivers ready (congrArg (_ + ·) (leaW_eq _ _))
  | xSel =>
    rw [exec_xSel, execXSel]
    exact xScalar_delivers_word ready (sPorts2_lt _ _) rfl
  | xClz =>
    rw [exec_xClz, execXClz]
    exact xScalar_delivers_word ready (sPorts_lt _) rfl
  | xPopc =>
    rw [exec_xPopc, execXPopc]
    exact xScalar_delivers_word ready (sPorts_lt _) rfl
  | xBfi =>
    rw [exec_xBfi, execXBfi]
    exact xScalar_delivers_word ready (append_lt (sPorts2_lt _ _) (sPorts_lt _)) (congrArg (·, fNone) (bfiW_eq _ _ _ _))
  | xLi =>
    rw [exec_xLi, execXLi]
    exact xScalar_delivers_word ready nofun rfl
  | xPget =>
    rw [exec_xPget, execXPget]
    exact xScalar_delivers_word ready nofun rfl
  | xAddi =>
    rw [exec_xAddi, execXAddi]
    exact xImm_delivers ready rfl
  | xAndi =>
    rw [exec_xAndi, execXAndi]
    exact xImm_delivers ready rfl
  | xOri =>
    rw [exec_xOri, execXOri]
    exact xImm_delivers ready rfl
  | xXori =>
    rw [exec_xXori, execXXori]
    exact xImm_delivers ready rfl
  | xShli =>
    rw [exec_xShli, execXShli]
    exact xImm_delivers ready (shlW_eq _ _)
  | xShri =>
    rw [exec_xShri, execXShri]
    exact xImm_delivers ready (shrW_eq _ _)
  | xSrai =>
    rw [exec_xSrai, execXSrai]
    exact xImm_delivers ready (sraW_eq _ _)
  | xLih =>
    rw [exec_xLih, execXLih]
    exact xImm_delivers ready rfl
  | xMuli =>
    rw [exec_xMuli, execXMuli]
    exact xImm_delivers ready rfl

/-! ## Predicates (spec/07 R124) -/

/-- Settles O2: every row is a predicate of two words or of predicates. -/
theorem predicateResults : Obligations.PredicateResults := by
  intro i r s hi ready
  cases hi with
  | xCmp =>
    rw [exec_xCmp, execXCmp]
    exact xPredicate_delivers ready (sPorts2_lt _ _) (icond_eq _ _ _)
  | xCmpi =>
    rw [exec_xCmpi, execXCmpi]
    exact xPredicate_delivers ready (sPorts_lt _) (icond_eq _ _ _)
  | xPand =>
    rw [exec_xPand, execXPand]
    exact xPredicate_delivers ready nofun rfl
  | xPor =>
    rw [exec_xPor, execXPor]
    exact xPredicate_delivers ready nofun rfl
  | xPxor =>
    rw [exec_xPxor, execXPxor]
    exact xPredicate_delivers ready nofun (congrFun₂ Bool.bne_eq_xor _ _)
  | xPnot =>
    rw [exec_xPnot, execXPnot]
    exact xPredicate_delivers ready nofun rfl
  | xPmov =>
    rw [exec_xPmov, execXPmov]
    exact xPredicate_delivers ready nofun rfl

/-! ## Lanes (spec/07 R126-R139) -/

section
variable {h : XHdr} {d : VDst} {l : Nat} {s : State}

/-- A vector form whose lanes set flags delivers the lanes, and the flags of all of them. -/
theorem xVector_delivers_flagged {srcs : List Nat} {f : State → Vec × FFlags} (r : XReady h srcs s) (hl : ∀ q ∈ srcs, q < 9)
    {v : State → Nat → Word × FFlags} (hv : f s = mapF (v s)) :
    ∃ t, xVector h d l srcs f s = .next t ∧ XDelivers (flaggedTo h d l srcs v) s t :=
  xVector_delivers r hl (v := fun s => ofLanes fun l => (v s l).1)
    (fl := fun s => (upTo 0 32).foldl (fun fl l => fl ||| (v s l).2) 0) hv

theorem vBinI_delivers {a b : VSrc} {f g : Word → Word → Word} (r : XReady h (vPorts a ++ vPorts b) s) (hg : ∀ x y, f x y = g x y) :
    ∃ t, vBinI h d a b f s = .next t ∧ XDelivers (laneWise h d a b g) s t := by
  obtain rfl : f = g := funext₂ hg
  exact xVector_delivers_lanes r (vPorts2_lt a b) rfl

theorem vUnF_delivers {a : VSrc} {f : RMode → Word → Word × FFlags} (r : XReady h (vPorts a) s) :
    ∃ t, vUnF h d a 8 f s = .next t ∧ XDelivers (floatOne h d a f) s t :=
  xVector_delivers_flagged r (vPorts_lt a) rfl

theorem vBinF_delivers {a b : VSrc} {f : RMode → Word → Word → Word × FFlags} (r : XReady h (vPorts a ++ vPorts b) s) :
    ∃ t, vBinF h d a b l f s = .next t ∧ XDelivers (floatTwo h d a b l f) s t :=
  xVector_delivers_flagged r (vPorts2_lt a b) rfl

theorem vTerF_delivers {a b c : VSrc} {f : RMode → Word → Word → Word → Word × FFlags}
    (r : XReady h (vPorts a ++ vPorts b ++ vPorts c) s) :
    ∃ t, vTerF h d a b c 4 f s = .next t ∧ XDelivers (floatThree h d a b c f) s t :=
  xVector_delivers_flagged r (vPorts3_lt a b c) rfl

end

/-- Settles O3: lane-wise forms lane by lane; permutations, merges and scans by the values their laws give. -/
theorem vectorResults : Obligations.VectorResults := by
  intro i r s hi ready
  cases hi with
  | viadd =>
    rw [exec_viadd, execViadd]
    exact vBinI_delivers ready (fun _ _ => rfl)
  | visub =>
    rw [exec_visub, execVisub]
    exact vBinI_delivers ready (fun _ _ => rfl)
  | vimul =>
    rw [exec_vimul, execVimul]
    exact vBinI_delivers ready (fun _ _ => rfl)
  | vand =>
    rw [exec_vand, execVand]
    exact vBinI_delivers ready (fun _ _ => rfl)
  | vor =>
    rw [exec_vor, execVor]
    exact vBinI_delivers ready (fun _ _ => rfl)
  | vxor =>
    rw [exec_vxor, execVxor]
    exact vBinI_delivers ready (fun _ _ => rfl)
  | vshl =>
    rw [exec_vshl, execVshl]
    exact vBinI_delivers ready shlW_eq
  | vshr =>
    rw [exec_vshr, execVshr]
    exact vBinI_delivers ready shrW_eq
  | vsra =>
    rw [exec_vsra, execVsra]
    exact vBinI_delivers ready sraW_eq
  | vimin =>
    rw [exec_vimin, execVimin]
    exact vBinI_delivers ready (minW_eq _)
  | vimax =>
    rw [exec_vimax, execVimax]
    exact vBinI_delivers ready (maxW_eq _)
  | vicmp =>
    rw [exec_vicmp, execVicmp]
    exact vBinI_delivers ready (fun x y => by rw [icond_eq]; rfl)
  | vbc =>
    rw [exec_vbc, execVbc]
    exact xVector_delivers_lanes ready (sPorts_lt _) rfl
  | vbcLn =>
    rw [exec_vbcLn, execVbcLn]
    exact xVector_delivers_lanes ready (vsPorts_lt _ _) rfl
  | vperm =>
    rw [exec_vperm, execVperm]
    exact xVector_delivers_lanes ready (vPorts3_lt _ _ _) (congrArg (·, fNone) (vperm_eq _ _ _))
  | vmerge =>
    rw [exec_vmerge, execVmerge]
    exact xVector_delivers_lanes ready (vPorts3_lt _ _ _) (congrArg (·, fNone) (vmerge_eq _ _ _))
  | vnzscan =>
    rw [exec_vnzscan, execVnzscan]
    exact xVector_delivers_lanes ready (vsPorts_lt _ _) (by rw [nzLanes_eq] <;> rfl)
  | vnzscanCnt =>
    rw [exec_vnzscanCnt, execVnzscanCnt]
    exact xScalar_delivers_word ready (vPorts_lt _) (by rw [nzLanes_eq])
  | vnzscanMsk =>
    rw [exec_vnzscanMsk, execVnzscanMsk]
    exact xScalar_delivers_word ready (vPorts_lt _) (by rw [nzLanes_eq])
  | vscan =>
    rw [exec_vscan, execVscan]
    exact xVector_delivers_lanes ready (vPorts_lt _) (congrArg (·, fNone) (vscan_eq _ _ _))

/-- Settles O4: the lanes of `vmacw` and `vdot4` are clamped sums; `vrsh` and `vcvt` deliver their values with their flags. -/
theorem narrowResults : Obligations.NarrowResults := by
  intro i r s hi ready
  cases hi with
  | vmacw =>
    rw [exec_vmacw, execVmacw]
    exact xVector_delivers_flagged ready (vPorts3_lt _ _ _) (congrArg mapF (funext (vmacwLane_eq _ _ _ _ _ _)))
  | vdot4 =>
    rw [exec_vdot4, execVdot4]
    exact xVector_delivers_flagged ready (vPorts3_lt _ _ _) (congrArg mapF (funext (vdot4Lane_eq _ _ _ _ _)))
  | vrsh =>
    rw [exec_vrsh, execVrsh]
    exact xVector_delivers ready (vPorts3_lt _ _ _) rfl
  | vcvt =>
    rw [exec_vcvt, execVcvt]
    exact xVector_delivers ready (vPorts2_lt _ _) rfl

/-- Settles O5: the lane-wise forms in the rounding mode of FPCTL.RM, and the two reductions. -/
theorem floatResults : Obligations.FloatResults := by
  intro i r s hi ready
  cases hi with
  | vadd =>
    rw [exec_vadd, execVadd]
    exact vBinF_delivers ready
  | vsub =>
    rw [exec_vsub, execVsub]
    exact vBinF_delivers ready
  | vmul =>
    rw [exec_vmul, execVmul]
    exact vBinF_delivers ready
  | vfma =>
    rw [exec_vfma, execVfma]
    exact vTerF_delivers ready
  | vfms =>
    rw [exec_vfms, execVfms]
    exact vTerF_delivers ready
  | vmin =>
    rw [exec_vmin, execVmin]
    exact vBinF_delivers_lanes ready (fmm32 false)
  | vmax =>
    rw [exec_vmax, execVmax]
    exact vBinF_delivers_lanes ready (fmm32 true)
  | vabs =>
    rw [exec_vabs, execVabs]
    exact vUnF_delivers_lanes ready (· &&& 0x7FFFFFFF)
  | vneg =>
    rw [exec_vneg, execVneg]
    exact vUnF_delivers_lanes ready (· ^^^ 0x80000000)
  | vcmp =>
    rw [exec_vcmp, execVcmp]
    exact vBinF_delivers ready
  | vrcp =>
    rw [exec_vrcp, execVrcp]
    exact vUnF_delivers ready
  | vrsqrt =>
    rw [exec_vrsqrt, execVrsqrt]
    exact vUnF_delivers ready
  | vexp2 =>
    rw [exec_vexp2, execVexp2]
    exact vUnF_delivers ready
  | vlog2 =>
    rw [exec_vlog2, execVlog2]
    exact vUnF_delivers ready
  | vredsumO =>
    rw [exec_vredsumO, execVredsumO]
    exact xScalar_delivers ready (vPorts_lt _) rfl
  | vredmax =>
    rw [exec_vredmax, execVredmax]
    exact xScalar_delivers_word ready (vPorts_lt _) rfl

/-! ## Results with an effect beside them -/

/-- Settles O6: the free value chooses one of the trees that `anyTree_any` says it may. -/
theorem unorderedSum : Obligations.UnorderedSum := by
  intro h d a s ready
  have hlen : (lanesOf (s.rV a)).length = 31 + 1 := by simp [lanesOf, upTo_length]
  rw [exec_vredsumU, execVredsumU]
  refine ⟨_, _, xIssue_ready ready 16 rfl _, anyTree_any _ (Config.treePick s.free) 31 0 _ _ hlen, ?_⟩
  exact xDelivers_of (r := treeResult h d a _) (vPorts_lt a) (takenState_take rfl) rfl

/-! ### `vdq` (spec/07 R135) -/

/-- A lane reports a reserved byte where it decodes one. -/
theorem vdqLane_reserved (f : DqFmt) (p : Nat) (a b c : Vec) (l : Nat) : (vdqLane f p a b c l).2.2 = true ↔ decodesReserved f p a l := by
  cases f <;> simp [vdqLane, dqCode, decodesReserved]

/-- The state with the event of a lane in the provenance log of the die. -/
def vdqEvent (f : DqFmt) (s : State) (l : Nat) : State :=
  s.provRecord (dieOf s.turn.core)
    (provBits (s.sfc s.tb).toNat ((dieOf s.turn.core).val - (s.partAt s.turn.core).val) (16 + 64 * s.turn.col.val)
      (inDie s.turn.core) s.tc.pc.toNat 4 0xFF (fmtCode (dqFmtOf f) * 16) 0 0 0 l 0)

/-- The state in which the event of the first reserved lane stands, if there is one. -/
def vdqNoted (f : DqFmt) (s : State) : Option Nat → State
  | none => s
  | some l => vdqEvent f s l

/-- The first lane that reports a reserved byte is the one whose event the rule asks for. -/
theorem dqEvent_noted (f : DqFmt) (p : Nat) (a b c : Vec) (s : State) :
    DqEvent f p a s (vdqNoted f s (firstIdx (fun l => (vdqLane f p a b c l).2.2) 32)) := by
  have hspec := firstIdx_spec (fun l => (vdqLane f p a b c l).2.2) 32
  cases ho : firstIdx (fun l => (vdqLane f p a b c l).2.2) 32 with
  | none =>
    rw [ho] at hspec
    have hno : ∀ l, l < 32 → ¬decodesReserved f p a l := fun l hl hr =>
      Bool.false_ne_true ((hspec l hl).symm.trans ((vdqLane_reserved f p a b c l).2 hr))
    exact ⟨fun _ => rfl, fun l hl hr => absurd hr (hno l hl)⟩
  | some i =>
    rw [ho] at hspec
    obtain ⟨hi, hri, hbefore⟩ := hspec
    rw [vdqLane_reserved] at hri
    refine ⟨fun hno => absurd hri (hno i hi), fun l hl hr hfirst => ?_⟩
    have hil : i = l := by
      rcases Nat.lt_trichotomy i l with hlt | rfl | hgt
      · exact absurd hri (hfirst i hlt)
      · rfl
      · exact absurd ((vdqLane_reserved f p a b c l).2 hr) (by rw [hbefore l hgt]; exact Bool.false_ne_true)
    obtain ⟨rfl, -⟩ := hri
    rw [hil]
    rfl

/-- Settles O7: the event is that of the first lane that reports a reserved byte, and nothing of it meets the results. -/
theorem decodeResults : Obligations.DecodeResults := by
  intro h f p d a b c s ready
  rw [exec_vdq, execVdq]
  refine ⟨_, _, xIssue_ready ready 3 rfl _, dqEvent_noted f p.val (s.rV a) (s.rV b) (s.rV c) s, ?_⟩
  dsimp only
  cases firstIdx (fun l => (vdqLane f p.val (s.rV a) (s.rV b) (s.rV c) l).2.2) 32 with
  | none => exact xDelivers_of (r := dqResult h f p d a b c) (vPorts3_lt a b c) (takenState_take rfl) rfl
  | some l => exact xDelivers_of (r := dqResult h f p d a b c) (vPorts3_lt a b c) (takenState_take rfl) rfl

/-! ### `accrd` (spec/11 R227, spec/18 R297) -/

theorem accCheck_usable {s : State} (hu : AccUsable s) (acc : Fin 4) : (s.core s.turn.core).accCheck s.turn.ctx acc = none := by
  unfold Core.accCheck
  rcases hu with hsys | hown | ⟨hlive, hspill⟩
  · simp [hsys]
  · simp [hown]
  · split
    · rfl
    · rw [if_neg (by rcases hlive with h | h <;> simp [h])]
      exact if_neg (by rw [hspill]; decide)

theorem accTake_eq (s : State) : s.modCore s.turn.core (fun c => c.accTake s.turn.ctx) = accTaken s := by
  unfold accTaken Core.accTake
  split
  · exact setCore_self s _
  · rfl

theorem accTaken_tb (s : State) : (accTaken s).tb = s.tb := by
  unfold accTaken
  split
  · rfl
  · simp [State.tb, State.bank, Core.bank]

theorem accTaken_turn (s : State) : (accTaken s).turn = s.turn := by
  unfold accTaken
  split <;> rfl

theorem accTaken_agenda (s : State) : (accTaken s).agenda = s.agenda := by
  unfold accTaken
  split <;> rfl

/-- The accumulators are taken before or after the tokens of the syllable. -/
theorem accTaken_xTake (s : State) (h : XHdr) (ports : List Nat) :
    (s.xTake h ports).modCore s.turn.core (fun c => c.accTake s.turn.ctx) = (accTaken s).xTake h ports := by
  obtain ⟨F, T, hF⟩ := xTake_modTb s h ports
  rw [hF s rfl, hF (accTaken s) (accTaken_turn s), ← accTake_eq]
  exact congrArg (withTurn T) (modTb_modCore s (fun c => c.accTake s.turn.ctx)
    (fun c k b => by unfold Core.accTake; split <;> rfl) (fun c k => by unfold Core.accTake; split <;> rfl) F)

/-- A result put in flight leaves what the taken state took. -/
theorem TakenBy.deliver {r : XForm} {s : State} {b : Bank} (h : TakenBy r s b) (c : Fin 4) (dst : Byte) (kind : FlightKind) (v : Vec)
    (l : Nat) (fl : FFlags) (push : Option (Fin 16)) : TakenBy r s (b.deliver c dst kind v l fl push) := by
  refine ⟨?_, h.cols, h.qsAX, h.qvAX, h.brq⟩
  obtain ⟨hparts, -, -, -, -⟩ := h
  unfold Bank.deliver
  rw [hparts]
  rfl

/-- Settles O8: the row and its count word are in flight together, and the bank has taken the accumulators. -/
theorem accumulatorRead : Obligations.AccumulatorRead := by
  intro h d acc row cnt s ready usable
  rw [exec_accrd, execAccrd]
  refine ⟨_, xIssue_ready ready 12 (by rw [accCheck_usable usable]) _, ?_⟩
  dsimp only
  rw [xTake_turn_core, xTake_turn_ctx, accTaken_xTake]
  have htok := xTake_flag (accTaken s) h (dedup (sPorts row))
  have hu := takenState_take (r := { hdr := h, srcs := sPorts row }) (s := accTaken s) rfl
  dsimp only at hu
  generalize (accTaken s).xTake h (dedup (sPorts row)) = u at hu htok
  have hcol : u.turn.col = s.turn.col := by rw [hu.only.col, accTaken_turn]
  generalize hv : ((s.core s.turn.core).acc.get acc).rows.toList.getD ((s.rS row).toNat % 32) 0 = v
  generalize hn : (s.rowCount s.turn.core acc).setWidth 1024 = n
  have htb : (((u.modTb fun b => b.deliver s.turn.col (cntCode cnt) .scalar n 12 fNone none).wrV h d v 12 fNone).xNext).tb =
      ((u.tb.deliver s.turn.col (cntCode cnt) .scalar n 12 fNone none).deliver s.turn.col (vdstCode d) .vector v 12 fNone h.push).modCol
        s.turn.col Column.next := by
    rw [State.xNext, State.tb_modTc, State.wrV, State.tb_modTb, State.tb_modTb, ← hcol]
    rfl
  refine ⟨?_, ?_, ?_, ?_⟩
  · have htb' := htb.trans (congrArg (Bank.modCol _ · Column.next) (congrArg Turn.col (accTaken_turn s)).symm)
    exact xTook_of (sPorts_lt row) (((hu.only.modTb _).modTb _).modTc _) hu.issued _
      ((hu.bank.deliver _ _ _ _ _ _ _).deliver _ _ _ _ _ _ _) htb'
  · rw [htb]
    show (u.tb.inflight ++ _) ++ _ = _
    rw [hu.inflight, hu.nextSeq, accTaken_tb, List.append_assoc]
    simp only [List.cons_append, List.nil_append, Bank.deliver, hu.xcycle, hu.nextSeq, accTaken_tb, flightOf, hv, hn]
    rfl
  · intro f
    rw [accTaken_tb] at htok
    rw [htb]
    exact htok f
  · exact hu.agenda.trans (accTaken_agenda s)

end Sys2Proof.Machine

/-! SUPPORT. Control, guarded-off syllables, scratchpad accesses and system syllables of stream X: what each leaves when nothing stops
it, and the trap that stops it. -/
namespace Sys2Proof.Machine
open Sys2Proof Sys2Proof.Claims

/-! ## Control (spec/06 R105-R118) -/

section
variable {h : XHdr} {s : State}

/-- A control form that issues moves its column and pushes at once. -/
theorem xControl_acts {r : XForm} (ready : XReady r.hdr r.srcs s) (hd : NoDelay s) (hl : ∀ q ∈ r.srcs, q < 9)
    (hupd : r.upd s s.tb = s.tb) {blk : State → Option State} (hb : blk s = none) {eff : State → State}
    (heff : eff (s.xTake r.hdr (dedup r.srcs)) = ((s.xTake r.hdr (dedup r.srcs)).modTc (r.col s)).xPush r.hdr 0) :
    ∃ t, xControl r.hdr r.srcs blk eff s = .next t ∧ XActs r s t := by
  refine ⟨_, xControl_ready ready hd hb eff, ?_⟩
  rw [heff]
  exact xActs_of hl (takenState_take hupd) rfl

/-- `brq` goes by the outcome at the head of the branch-outcome queue. -/
theorem xBrq_acts (n : Bool) (disp : BitVec 16) (ready : XReady h [8] s) (hd : NoDelay s) (hu : Untraced s) (need : State → Prop)
    (col : State → Column → Column)
    (hcol : ∀ c, col s c = if (headVal s.tb.brq).getLsbD 0 != n then branchTo (s.tc.pc + disp.signExtend 32) c else c.next) :
    ∃ t, xBrq h n disp s = .next t ∧ XActs { hdr := h, srcs := [8], need := need, col := col } s t := by
  refine xControl_acts (r := { hdr := h, srcs := [8], need := need, col := col }) ready hd (List.forall_mem_singleton.2 (by decide)) rfl rfl ?_
  have hbit : bit (headVal s.tb.brq) 0 = (headVal s.tb.brq).getLsbD 0 := rfl
  dsimp only
  rw [hbit, funext hcol]
  split
  · rw [xTaken_untraced hu]
    rfl
  · rfl

theorem setBit_true {n : Nat} (v : BitVec n) (i : Nat) : setBit v i true = v ||| BitVec.ofNat n (2 ^ i) := by
  simp [setBit, Nat.shiftLeft_eq]

theorem setBit_false {n : Nat} (v : BitVec n) (i : Nat) : setBit v i false = v &&& ~~~(BitVec.ofNat n (2 ^ i)) := by
  simp [setBit, Nat.shiftLeft_eq]

theorem joined_of_allJoin {b : Fin 8} {m : BitVec 4} (hj : AllJoin s b m) : s.tb.joined s.turn.col b m = true := by
  simp only [Bank.joined, List.all_eq_true, Bool.or_eq_true, Bool.not_eq_true']
  intro c _
  cases hm : bit m c.val with
  | false => exact .inl rfl
  | true => exact .inr (hj c hm)

/-- The X fence finds what it waits for landed. -/
theorem fence_landed {sc : Scope} (hland : Landed s sc) :
    (s.tb.inflight.any fun f => decide (s.tb.xcycle < f.lastWrite) && (sc != .col || f.col == s.turn.col)) = false := by
  rw [List.any_eq_false]
  intro f hf hc
  rw [Bool.and_eq_true, decide_eq_true_eq, Bool.or_eq_true, bne_iff_ne, beq_iff_eq] at hc
  obtain ⟨hlate, hmine⟩ := hc
  exact absurd (hland f hf fun h => hmine.resolve_left (not_not_intro h)) (Nat.not_le.2 hlate)

/-- A form that issues without a control syllable's check. -/
theorem xIssue_acts {r : XForm} (ready : XReady r.hdr r.srcs s) (hl : ∀ q ∈ r.srcs, q < 9) (hupd : r.upd s s.tb = s.tb) (l : Nat)
    {blk : State → Option State} (hb : blk s = none) {eff : State → State}
    (heff : eff (s.xTake r.hdr (dedup r.srcs)) = ((s.xTake r.hdr (dedup r.srcs)).modTc (r.col s)).xPush r.hdr 0) :
    ∃ t, xIssue r.hdr l r.srcs blk eff s = .next t ∧ XActs r s t := by
  refine ⟨_, xIssue_ready ready l hb eff, ?_⟩
  rw [heff]
  exact xActs_of hl (takenState_take hupd) rfl

end

/-- Every form of the control table issues and moves its column as it says. -/
theorem control_acts {i : Instr} {r : XForm} {s : State} (hi : ControlForm i r) (ready : XReady r.hdr r.srcs s) (need : r.need s) :
    ∃ t, exec i s = .next t ∧ XActs r s t := by
  cases hi with
  | xNop =>
    rw [exec_xNop, execXNop]
    exact xIssue_acts ready nofun rfl 0 rfl rfl
  | xBr =>
    rw [exec_xBr, execXBr]
    exact xControl_acts ready need.1 nofun rfl rfl (congrArg (State.xPush · _ 0) (xTaken_untraced need.2 _ _ _))
  | xJr =>
    rw [exec_xJr, execXJr]
    exact xControl_acts ready need.1 (sPorts_lt _) rfl rfl (congrArg (State.xPush · _ 0) (xTaken_untraced need.2 _ _ _))
  | xRet =>
    rw [exec_xRet, execXRet]
    exact xControl_acts ready need.1 (sPorts_lt _) rfl rfl (congrArg (State.xPush · _ 0) (xReturn_untraced need.2 _ _ _))
  | brq =>
    rw [exec_brq, execBrq]
    exact xBrq_acts false _ ready need.1 need.2 _ _ fun c => by cases (headVal s.tb.brq).getLsbD 0 <;> rfl
  | brqN =>
    rw [exec_brqN, execBrqN]
    exact xBrq_acts true _ ready need.1 need.2 _ _ fun c => by cases (headVal s.tb.brq).getLsbD 0 <;> rfl
  | xLoop =>
    rw [exec_xLoop, execXLoop]
    refine xControl_acts ready need (sPorts_lt _) rfl rfl ?_
    dsimp only
    rw [State.xNext, modTc_modTc, openAt_eq]
  | join =>
    rw [exec_join, execJoin]
    exact xControl_acts ready need.1 nofun rfl (if_pos (joined_of_allJoin need.2)) rfl
  | ccset =>
    rw [exec_ccset, execCcset]
    refine xControl_acts ready need nofun rfl rfl ?_
    simp only [State.xNext, modTc_modTc, setBit_true]
  | ccclr =>
    rw [exec_ccclr, execCcclr]
    refine xControl_acts ready need nofun rfl rfl ?_
    simp only [State.xNext, modTc_modTc, setBit_false]
  | xPause =>
    rw [exec_xPause, execXPause]
    refine xControl_acts ready need nofun rfl rfl ?_
    simp only [State.xNext, modTc_modTc]
  | xFin =>
    rw [exec_xFin, execXFin]
    refine xControl_acts ready need nofun rfl rfl ?_
    simp only [State.xNext, modTc_modTc]
  | xFence =>
    rw [exec_xFence, execXFence]
    exact xIssue_acts ready nofun rfl 0 (if_neg (by rw [fence_landed need]; exact Bool.false_ne_true)) rfl

/-- No branch is recorded of an untraced unit, whatever its bank has changed but its unit. -/
theorem xTaken_of_only {s t : State} (hu : Untraced s) (ho : OnlyBank s t) (hunit : t.tb.unit = s.tb.unit) (tgt : Word) :
    t.xTaken tgt = t.modTc fun c => c.taken tgt := by
  unfold State.xTaken
  have htrace := traceAt_untraced hu ho hunit 1 t.turn.col.val 3 t.tc.pc (tgt.setWidth 64) 0
  rw [← ho.core, ← ho.ctx] at htrace
  rw [htrace, ite_self]

/-- `call` delivers its link and takes its branch. -/
theorem xCall_delivers {h : XHdr} (d : SDst) (disp : BitVec 16) {s : State} (ready : XReady h [] s) (need : (callResult h d disp).need s) :
    ∃ t, exec (.xCall h d disp) s = .next t ∧ XDelivers (callResult h d disp) s t := by
  obtain ⟨hd, hu⟩ := need
  have hdelay : (s.guard h && s.tc.brdly != 0) = false := by rw [show s.tc.brdly = 0 from hd]; simp
  rw [exec_xCall, execXCall, hdelay]
  refine ⟨_, (if_neg Bool.false_ne_true).trans (xIssue_ready ready 1 rfl _), ?_⟩
  refine xDelivers_of (r := callResult h d disp) nofun (takenState_take rfl) ?_
  refine xTaken_of_only hu ((xTake_only s h _).modTb _) ?_ _
  exact (congrArg Bank.unit (State.tb_modTb _ _)).trans (xTake_unit s h _)

/-- Settles O12: each control form moves its column as its rule says, and `call` delivers its link beside that. -/
theorem controlRuns : Obligations.ControlRuns :=
  ⟨fun _ _ _ hi ready need => control_acts hi ready need, fun _ d disp _ ready need => xCall_delivers d disp ready need⟩

/-! ## Guarded-off syllables (spec/02 R26) -/

/-- A meaning that is one issue of a syllable with this header and this latency. -/
def IssuesAs (o : Host.Outcome State Fault Refusal) (h : XHdr) (l : Nat) (s : State) : Prop := ∃ srcs blk eff, o = xIssue h l srcs blk eff s

section
variable {h : XHdr} {l : Nat} {srcs : List Nat} {s : State}

theorem xIssue_issues {blk eff} : IssuesAs (xIssue h l srcs blk eff s) h l s := ⟨_, _, _, rfl⟩
theorem xScalar_issues {d f} : IssuesAs (xScalar h d l srcs f s) h l s := xIssue_issues
theorem xVector_issues {d f} : IssuesAs (xVector h d l srcs f s) h l s := xIssue_issues
theorem xPredicate_issues {p f} : IssuesAs (xPredicate h p l srcs f s) h l s := xIssue_issues
theorem xBin_issues {d a b f} : IssuesAs (xBin h d a b l f s) h l s := xScalar_issues
theorem xImm_issues {d a f} : IssuesAs (xImm h d a l f s) h l s := xScalar_issues
theorem vBinI_issues {d a b f} : IssuesAs (vBinI h d a b f s) h 2 s := xVector_issues
theorem vUnF_issues {d a f} : IssuesAs (vUnF h d a l f s) h l s := xVector_issues
theorem vBinF_issues {d a b f} : IssuesAs (vBinF h d a b l f s) h l s := xVector_issues
theorem vTerF_issues {d a b c f} : IssuesAs (vTerF h d a b c l f s) h l s := xVector_issues
theorem xLoad_issues {note cls ty d a b} : IssuesAs (xLoad note h cls ty d a b s) h 6 s := by
  unfold xLoad
  exact xIssue_issues
theorem xVLoad_issues {cls d addrs} : IssuesAs (xVLoad h cls d srcs addrs s) h 6 s := xIssue_issues

end

theorem scalar_issues {i : Instr} {r : XResult} (hi : ScalarForm i r) (s : State) : IssuesAs (exec i s) r.hdr r.lat s := by
  cases hi <;>
    simp only [
      exec_xAdd, execXAdd, exec_xSub, execXSub, exec_xAnd, execXAnd, exec_xOr, execXOr, exec_xXor, execXXor, exec_xShl, execXShl,
      exec_xShr, execXShr, exec_xSra, execXSra, exec_xMin, execXMin, exec_xMax, execXMax, exec_xMul, execXMul, exec_xMulh,
      execXMulh, exec_xSel, execXSel, exec_xClz, execXClz, exec_xPopc, execXPopc, exec_xBfx, execXBfx, exec_xBfi, execXBfi,
      exec_xLea, execXLea, exec_xAddi, execXAddi, exec_xAndi, execXAndi, exec_xOri, execXOri, exec_xXori, execXXori, exec_xShli,
      execXShli, exec_xShri, execXShri, exec_xSrai, execXSrai, exec_xLi, execXLi, exec_xLih, execXLih, exec_xMuli, execXMuli,
      exec_xPget, execXPget, scalarTo, xBin_issues, xImm_issues, xScalar_issues]

theorem pred_issues {i : Instr} {r : XResult} (hi : PredForm i r) (s : State) : IssuesAs (exec i s) r.hdr r.lat s := by
  cases hi <;>
    simp only [
      exec_xCmp, execXCmp, exec_xCmpi, execXCmpi, exec_xPand, execXPand, exec_xPor, execXPor, exec_xPxor, execXPxor, exec_xPnot,
      execXPnot, exec_xPmov, execXPmov, predTo, xPredicate_issues]

theorem vector_issues {i : Instr} {r : XResult} (hi : VectorForm i r) (s : State) : IssuesAs (exec i s) r.hdr r.lat s := by
  cases hi <;>
    simp only [
      exec_viadd, execViadd, exec_visub, execVisub, exec_vimul, execVimul, exec_vand, execVand, exec_vor, execVor, exec_vxor,
      execVxor, exec_vshl, execVshl, exec_vshr, execVshr, exec_vsra, execVsra, exec_vimin, execVimin, exec_vimax, execVimax,
      exec_vicmp, execVicmp, exec_vbc, execVbc, exec_vbcLn, execVbcLn, exec_vperm, execVperm, exec_vmerge, execVmerge,
      exec_vnzscan, execVnzscan, exec_vnzscanCnt, execVnzscanCnt, exec_vnzscanMsk, execVnzscanMsk, exec_vscan, execVscan,
      laneWise, lanesTo, scalarTo, vBinI_issues, xVector_issues, xScalar_issues]

theorem narrow_issues {i : Instr} {r : XResult} (hi : NarrowForm i r) (s : State) : IssuesAs (exec i s) r.hdr r.lat s := by
  cases hi <;>
    simp only [
      exec_vmacw, execVmacw, exec_vdot4, execVdot4, exec_vrsh, execVrsh, exec_vcvt, execVcvt, flaggedTo, xVector_issues]

theorem float_issues {i : Instr} {r : XResult} (hi : FloatForm i r) (s : State) : IssuesAs (exec i s) r.hdr r.lat s := by
  cases hi <;>
    simp only [
      exec_vadd, execVadd, exec_vsub, execVsub, exec_vmul, execVmul, exec_vfma, execVfma, exec_vfms, execVfms, exec_vmin,
      execVmin, exec_vmax, execVmax, exec_vabs, execVabs, exec_vneg, execVneg, exec_vcmp, execVcmp, exec_vrcp, execVrcp,
      exec_vrsqrt, execVrsqrt, exec_vexp2, execVexp2, exec_vlog2, execVlog2, exec_vredsumO, execVredsumO, exec_vredmax,
      execVredmax, floatOne, floatTwo, floatThree, flaggedTo, laneWise, lanesTo, scalarTo, vUnF_issues, vBinF_issues,
      vTerF_issues, xScalar_issues]

theorem load_issues {i : Instr} {r : XResult} (hi : LoadForm i r) (s : State) : IssuesAs (exec i s) r.hdr r.lat s := by
  cases hi <;>
    simp only [
      exec_xLd, execXLd, exec_ldacq, execLdacq, exec_vld, execVld, exec_vldx, execVldx, scalarTo, lanesTo, xLoad_issues,
      xVLoad_issues]

theorem guarded_issues {i : Instr} {r : XResult} (hi : Guarded i r) (s : State) : IssuesAs (exec i s) r.hdr r.lat s := by
  cases hi with
  | scalar hi => exact scalar_issues hi s
  | pred hi => exact pred_issues hi s
  | vector hi => exact vector_issues hi s
  | narrow hi => exact narrow_issues hi s
  | float hi => exact float_issues hi s
  | load hi => exact load_issues hi s

/-- A result takes at least one cycle. -/
theorem guarded_lat_ne_zero {i : Instr} {r : XResult} (hi : Guarded i r) : r.lat ≠ 0 := by
  cases hi with
  | scalar hi => cases hi <;> exact nofun
  | pred hi => cases hi <;> exact nofun
  | vector hi => cases hi <;> exact nofun
  | narrow hi => cases hi <;> exact nofun
  | float hi => cases hi <;> exact nofun
  | load hi => cases hi <;> exact nofun

/-- Settles O13: a syllable whose guard is false issues with no ports, and its push is carried by an entry that writes nothing. -/
theorem guardedOff : Obligations.GuardedOff := by
  intro i r s hi free off
  obtain ⟨srcs, blk, eff, hex⟩ := guarded_issues hi s
  refine ⟨_, hex.trans (xIssue_off free off r.lat srcs blk eff), ?_⟩
  exact xPushesAt_of (guarded_lat_ne_zero hi) (r := { hdr := r.hdr, srcs := [] }) nofun (takenState_take rfl) rfl

/-! ## Illegal syllables (spec/06 R113, spec/18 R291-R293) -/

/-- The mark of the turn does not meet the edge of a trap. -/
theorem trapEdge_how {cause : Byte} {d0 d1 : DWord} {u t : State} (ht : TrapEdge cause d0 d1 u t) (w : How) : TrapEdge cause d0 d1 u (t.how w) := by
  obtain ⟨hhandling, hscause, hfrozen, hbanks, hcores, ⟨hhbm, hhost, hsp⟩, hhandler⟩ := ht
  exact ⟨hhandling, hscause, hfrozen, hbanks, hcores, ⟨hhbm, hhost, hsp⟩, hhandler⟩

/-- ILLEGAL_INSTR of the word of the turn of a unit takes the edge. -/
theorem illegal_edge {s : State} (hk : s.turn.ctx.val < 2) (hu : Untraced s) (hn : NoExecution s) : TrapEdge 1 0 0 s s.illegal :=
  trapEdge_how (trap_edge 1 0 0 hk hu hn) .illegal

/-- A control form but `nop` and the fence is illegal in a delay slot, before it pops anything. -/
theorem control_illegal {i : Instr} {h : XHdr} {s : State} (hi : NotInDelay i h) (guard : s.guard h = true) (hd : s.tc.brdly ≠ 0) :
    exec i s = .next s.illegal := by
  have hbad : (s.guard h && s.tc.brdly != 0) = true := by rw [guard, Bool.true_and, bne_iff_ne]; exact hd
  cases hi with
  | call => exact if_pos hbad
  | form hf hnop hfence =>
    cases hf with
    | xNop => exact absurd rfl (hnop _)
    | xFence => exact absurd rfl (hfence _ _ _)
    | _ => exact if_pos hbad

/-- Settles O14. -/
theorem illegalInDelay : Obligations.IllegalInDelay := fun _ _ s hi guard hd hk hu hn =>
  ⟨s.illegal, control_illegal hi guard hd, illegal_edge hk hu hn⟩

/-- Settles O20: the check of the register number comes before the syllable issues. -/
theorem registerAccessRefused : Obligations.RegisterAccessRefused := by
  intro i h s hi guard hk hu hn
  refine ⟨s.illegal, ?_, illegal_edge hk hu hn⟩
  cases hi with
  | read hr => exact if_pos (by rw [guard, hr]; rfl)
  | write hw => exact if_pos (by rw [guard, hw]; rfl)

/-- Settles O21: a unit is not the system context, which the four instructions ask first. -/
theorem systemOnlyRefused : Obligations.SystemOnlyRefused := by
  intro i s hi hk hu hn
  have hctx : (s.turn.ctx.val != 2) = true := by rw [bne_iff_ne]; omega
  refine ⟨s.illegal, ?_, illegal_edge hk hu hn⟩
  cases hi with
  | eret guard => exact if_pos (by rw [guard, hctx]; rfl)
  | ctxsw => exact if_pos hctx
  | ctxbank => exact if_pos hctx
  | tlbinv => exact if_pos hctx

/-! ## Scratchpad accesses (spec/10 R183-R186, R199) -/

section
variable {h : XHdr} {s : State}

/-- A vector access that passes its checks and has had its port cycles is not stopped. -/
theorem xVecBlock_ok {wr : Bool} {addrs : State → List Nat} (hok : SpOk s wr 4 (addrs s)) (hport : PortReady s (addrs s)) :
    xVecBlock wr addrs s s = none := by
  unfold xVecBlock
  rw [xMemBlock_ok hok]
  have hcycles : ¬s.tb.xBusy + 1 < portCycles (addrs s) := Nat.not_lt.2 hport
  simp only [hcycles, decide_false, Bool.false_eq_true, if_false]

/-- With `aliasMode` off an access leaves no note after its syllable has been taken. -/
theorem xAlias_take (hq : (s.part s.tb.part).aliasMode = false) (ports : List Nat) (pc : Word) (cls : Fin 8) (wr : Bool) (size : Nat)
    (addrs : List Nat) : (s.xTake h ports).xAlias pc cls wr size addrs = s.xTake h ports :=
  xAlias_off (xTake_only s h ports) (xTake_unit s h ports) hq ..

/-- A scalar load delivers the extended number at its address. -/
theorem xLoad_delivers {note : Bool} {cls : Fin 8} {ty : XTy} {d : SDst} {a b : SSrc} (ready : XReady h (sPorts a ++ sPorts b) s)
    (hok : SpOk s false (loadSize ty) [scalarAddr s a b]) {v : State → Word}
    (hv : loadValue ty (spNumber s (scalarAddr s a b) (loadSize ty)) = v s) (need : State → Prop) :
    ∃ t, xLoad note h cls ty d a b s = .next t ∧
      XDelivers { scalarTo h d 6 (sPorts a ++ sPorts b) v with need := need } s t := by
  rw [← xtySize_eq] at hok hv
  unfold xLoad
  refine ⟨_, xIssue_ready ready 6 (xMemBlock_ok hok) _, ?_⟩
  refine xDelivers_of (r := { scalarTo h d 6 (sPorts a ++ sPorts b) v with need := need }) (sPorts2_lt a b) (takenState_take rfl) ?_
  dsimp only [scalarTo]
  rw [xAlias_take hok.unwatched, ite_self, ← hv, ← xtyExtend_eq ty _ (by rw [xtySize_eq]; exact spNumber_lt s _ _), ← spRead_eq]
  rfl

/-- A vector load delivers the word at the address of each lane. -/
theorem xVLoad_delivers {cls : Fin 8} {d : VDst} {srcs : List Nat} {addrs : State → List Nat} {f : Nat → Nat} (ready : XReady h srcs s)
    (hl : ∀ q ∈ srcs, q < 9) (ha : addrs s = laneAddrs f) (hok : SpOk s false 4 (laneAddrs f)) (hport : PortReady s (laneAddrs f))
    {v : State → Nat → Word} (hv : ∀ l, BitVec.ofNat 32 (spNumber s (f l) 4) = v s l) (need : State → Prop) :
    ∃ t, xVLoad h cls d srcs addrs s = .next t ∧ XDelivers { lanesTo h d 6 srcs v with need := need } s t := by
  have hlanes : (ofLanes fun i => BitVec.ofNat 32 ((s.core s.turn.core).spRead ((laneAddrs f).getD i 0) 4)) = ofLanes (v s) :=
    ofLanes_congr fun l hlt => by rw [laneAddrs_getD f l hlt, spRead_eq, hv]
  rw [← ha] at hok hport
  refine ⟨_, xIssue_ready ready 6 (xVecBlock_ok hok hport) _, ?_⟩
  refine xDelivers_of (r := { lanesTo h d 6 srcs v with need := need }) hl (takenState_take rfl) ?_
  dsimp only [lanesTo]
  rw [xAlias_take hok.unwatched, ha, hlanes]
  rfl

/-- The stores of a syllable wait in its bank. -/
theorem takenState_stores {r : XForm} (l : List (Nat × Byte)) (hr : r.upd s s.tb = storesNow l s.tb) :
    TakenState r s ((s.xTake r.hdr (dedup r.srcs)).modTb (storesNow l)) :=
  takenState_upd (storesNow l) (fun _ => rfl) (fun _ _ => rfl) (fun _ => rfl) hr

/-- With `aliasMode` off an access leaves no note after its stores have been kept. -/
theorem xAlias_stores (hq : (s.part s.tb.part).aliasMode = false) (ports : List Nat) (l : List (Nat × Byte)) (pc : Word) (cls : Fin 8)
    (wr : Bool) (size : Nat) (addrs : List Nat) :
    ((s.xTake h ports).modTb (storesNow l)).xAlias pc cls wr size addrs = (s.xTake h ports).modTb (storesNow l) :=
  xAlias_off ((xTake_only s h ports).modTb _)
    ((congrArg Bank.unit (State.tb_modTb (storesNow l) (s := s.xTake h ports))).trans (xTake_unit s h ports)) hq ..

/-- A scalar store leaves the bytes of its element for the end of the X cycle. -/
theorem xSt_acts {cls : Fin 8} {ty : XTy} {a b c : SSrc} (ready : XReady h (sPorts a ++ sPorts b ++ sPorts c) s)
    (hok : SpOk s true (loadSize ty) [scalarAddr s a b]) (need : State → Prop) :
    ∃ t, execXSt h cls ty a b c s = .next t ∧
      XActs { hdr := h, srcs := sPorts a ++ sPorts b ++ sPorts c, need := need,
              upd := fun s => storesNow (putBytes (scalarAddr s a b) (loadSize ty) (s.rS c).toNat) } s t := by
  rw [← xtySize_eq] at hok
  unfold execXSt
  refine ⟨_, xIssue_ready ready 0 (xMemBlock_ok hok) _, ?_⟩
  refine xActs_of (append_lt (sPorts2_lt a b) (sPorts_lt c))
    (takenState_stores (putBytes (scalarAddr s a b) (loadSize ty) (s.rS c).toNat) rfl) ?_
  dsimp only
  rw [xStore_eq, xAlias_stores hok.unwatched, xtySize_eq]
  rfl

/-- A vector store leaves the bytes of its lanes, in their order. -/
theorem xVStore_acts {cls : Fin 8} {srcs : List Nat} {addrs : State → List Nat} {data : State → Vec} {f : Nat → Nat}
    (ready : XReady h srcs s) (hl : ∀ q ∈ srcs, q < 9) (ha : addrs s = laneAddrs f) (hok : SpOk s true 4 (laneAddrs f))
    (hport : PortReady s (laneAddrs f)) {upd : State → Bank → Bank}
    (hupd : upd s = storesNow ((upTo 0 32).flatMap fun l => putBytes (f l) 4 (lane (data s) l).toNat)) (need : State → Prop) :
    ∃ t, xVStore h cls srcs addrs data s = .next t ∧ XActs { hdr := h, srcs := srcs, need := need, upd := upd } s t := by
  rw [← ha] at hok hport
  refine ⟨_, xIssue_ready ready 0 (xVecBlock_ok hok hport) _, ?_⟩
  refine xActs_of (r := { hdr := h, srcs := srcs, need := need, upd := upd }) hl (takenState_stores _ (congrFun hupd s.tb)) ?_
  dsimp only
  rw [ha, xStore_lanes, xAlias_stores hok.unwatched]
  rfl

end

/-- Settles O15: each load reads its number at the address of its rule, lane by lane for the vector forms. -/
theorem scratchpadLoads : Obligations.ScratchpadLoads := by
  intro i r s hi ready need
  cases hi with
  | xLd =>
    rw [exec_xLd, execXLd]
    exact xLoad_delivers ready need rfl _
  | ldacq =>
    rw [exec_ldacq, execLdacq]
    exact xLoad_delivers (ty := .w32) ready need rfl _
  | vld =>
    rw [exec_vld, execVld]
    exact xVLoad_delivers ready (sPorts2_lt _ _) (strideAddrs_eq _ _) need.1 need.2 (fun _ => rfl) _
  | vldx =>
    rw [exec_vldx, execVldx]
    exact xVLoad_delivers ready (append_lt (sPorts_lt _) (vPorts_lt _)) (indexAddrs_eq _ _) need.1 need.2 (fun _ => rfl) _

/-- Settles O16: each store leaves the bytes of its elements at the addresses of its rule. -/
theorem scratchpadStores : Obligations.ScratchpadStores := by
  intro i r s hi ready need
  cases hi with
  | xSt => exact xSt_acts ready need _
  | vst =>
    rw [exec_vst, execVst]
    exact xVStore_acts ready (append_lt (sPorts2_lt _ _) (vPorts_lt _)) (strideAddrs_eq _ _) need.1 need.2 rfl _
  | vstx =>
    rw [exec_vstx, execVstx]
    exact xVStore_acts ready (append_lt (append_lt (sPorts_lt _) (vPorts_lt _)) (vPorts_lt _)) (indexAddrs_eq _ _) need.1 need.2 rfl _

/-! ### Checks (spec/10 R183, spec/13 R263) -/

/-- A syllable that may issue but for what its meaning finds stops there, before its pops. -/
theorem xIssue_blocked {h : XHdr} {srcs : List Nat} {s : State} (ready : XReady h srcs s) (l : Nat) {blk : State → Option State} {t : State}
    (hb : blk s = some t) (eff : State → State) : xIssue h l srcs blk eff s = .next t := by
  have hports : ∀ q ∈ dedup srcs, headReady (s.tb.qAX q) = true := fun q hq => ready.heads q ((mem_dedup srcs q).1 hq)
  unfold xIssue
  simp only [ready.guard, if_true, xGate_free ready.toXFree hports, hb]

/-- The first check that fails is the one that the scratchpad reports. -/
theorem spCheck_fails {s : State} {wr : Bool} {n a : Nat} {c : Byte} {d0 d1 : DWord} (hk : s.turn.ctx.val < 2)
    (ht : AccessTrap s wr n a c d0 d1) : s.spCheck s.turn.core s.turn.ctx wr a n 0 = some (c, d0, d1) := by
  have hunit : ¬s.turn.ctx.val = 2 := by omega
  have hset : (if wr then (s.bank s.turn.core s.turn.ctx).mayWrite 0 (tileOf a) else (s.bank s.turn.core s.turn.ctx).mayRead 0 (tileOf a)) =
      (if wr then s.tb.mayWrite 0 (a / 4096) else s.tb.mayRead 0 (a / 4096)) := rfl
  have hin (hr : a + n ≤ 3 * 2 ^ 20) : ¬decide (spSize < a + n) = true := by
    rw [decide_eq_true_eq, spSize]
    omega
  have hal (ha : a % n = 0) : ¬(a % n != 0) = true := by rw [ha]; decide
  unfold State.spCheck
  dsimp only
  rw [hset]
  cases ht with
  | range hr => exact if_pos (decide_eq_true hr)
  | aligned hr ha => rw [if_neg (hin hr), if_pos (bne_iff_ne.2 ha)]; rfl
  | set hr ha hs => rw [if_neg (hin hr), if_neg (hal ha), if_neg hunit, hs]; rfl
  | owner hr ha hs ho => rw [if_neg (hin hr), if_neg (hal ha), if_neg hunit, hs]; exact if_pos ho

theorem xMemBlock_fails {s : State} {wr : Bool} {n a : Nat} {addrs : State → List Nat} {c : Byte} {d0 d1 : DWord} (hk : s.turn.ctx.val < 2)
    (ha : addrs s = [a]) (ht : AccessTrap s wr n a c d0 d1) : xMemBlock wr n addrs s s = some (s.trap c d0 d1) := by
  unfold xMemBlock State.spCheckAll
  simp only [ha, List.zipIdx_cons, List.zipIdx_nil, List.foldl_cons, List.foldl_nil, spCheck_fails hk ht]

/-- A scalar access whose check fails stops at its trap. -/
theorem scalarAccess_traps {i : Instr} {h : XHdr} {srcs : List Nat} {va : State → Nat} {wr : Bool} {n : Nat} {s : State} {c : Byte}
    {d0 d1 : DWord} (hi : ScalarAccess i h srcs va wr n) (ready : XReady h srcs s) (hk : s.turn.ctx.val < 2)
    (ht : AccessTrap s wr n (va s) c d0 d1) : exec i s = .next (s.trap c d0 d1) := by
  cases hi with
  | ld =>
    rw [exec_xLd, execXLd, xLoad]
    rw [← xtySize_eq] at ht
    exact xIssue_blocked ready 6 (xMemBlock_fails hk rfl ht) _
  | ldacq =>
    rw [exec_ldacq, execLdacq, xLoad]
    exact xIssue_blocked ready 6 (xMemBlock_fails hk rfl ht) _
  | st =>
    rw [exec_xSt, execXSt]
    rw [← xtySize_eq] at ht
    exact xIssue_blocked ready 0 (xMemBlock_fails hk rfl ht) _

/-- Settles O18: the access stops at its first failing check, whose trap takes the edge. -/
theorem accessChecks : Obligations.AccessChecks := fun _ _ _ _ _ _ s c d0 d1 hi ready hk hu hn ht =>
  ⟨s.trap c d0 d1, scalarAccess_traps hi ready hk ht, trap_edge c d0 d1 hk hu hn⟩

/-! ### The end of an X cycle (spec/10 R199) -/

/-- HBM, host memory and the scratchpad of every core. -/
def memories (s : State) : Memory × Memory × (Fin 512 → Memory) := (s.hbm, s.host, fun g => (s.core g).sp)

section
variable {g : Fin 512} {k : Fin 3}

theorem memories_modBank (s : State) (f : Bank → Bank) : memories (s.modBank g k f) = memories s := by
  refine congrArg (fun m => (s.hbm, s.host, m)) (funext fun g' => ?_)
  rw [State.core_modBank]
  split
  · next hg => rw [hg]; rfl
  · rfl

theorem memories_schedule (s : State) (n : Nat) (i : Instr) (a : EvArgs) : memories (s.schedule n i a) = memories s := rfl

theorem memories_pushToken (s : State) (f : Option (Fin 16)) : memories (s.pushToken g k f) = memories s := by
  cases f with
  | none => rfl
  | some f => exact (memories_schedule _ _ _ _).trans (memories_modBank s _)

theorem memories_pushXA (s : State) (q : Nat) (v : Vec) : memories (s.pushXA g k q v) = memories s :=
  (memories_schedule _ _ _ _).trans (memories_modBank s _)

theorem memories_pushTokens (l : List Flight) (s : State) : memories (pushTokens g k l s) = memories s := by
  refine foldl_keeps (fun s f => ?_) l s
  cases f.push with
  | none => rfl
  | some p => exact (memories_pushToken _ _).trans (memories_modBank _ _)

theorem memories_pushPorts (l : List Flight) (s : State) : memories (pushPorts g k l s) = memories s := by
  refine foldl_keeps (fun s f => ?_) _ s
  cases f.port with
  | none => rfl
  | some q => exact memories_pushXA s _ _

theorem memories_endStreamX (s : State) : memories (endStreamX g k s) = memories s := by
  unfold endStreamX
  split
  · simp only [State.streamEnd, apply_ite memories, memories_schedule, ite_self, memories_modBank]
  · rfl

/-- Bytes written to a memory one after the other. -/
def writeAll (l : List Host.Cell) (m : Memory) : Memory := l.foldl (fun (m : Memory) (x : Host.Cell) => m.write x.1 x.2) m

theorem memories_makeStores (l : List Host.Cell) (s : State) :
    memories (makeStores g l s) = (s.hbm, s.host, fun g' => if g' = g then writeAll l (s.core g).sp else (s.core g').sp) := by
  refine congrArg (fun m => (s.hbm, s.host, m)) (funext fun g' => ?_)
  rw [makeStores, State.core_modCore]
  split <;> rfl

/-- Of all that the end of an X cycle does, only the stores of the bank reach a memory. -/
theorem memories_landX {s : State} (hx : (s.bank g k).xsysw = []) :
    memories (s.landX g k) =
      (s.hbm, s.host, fun g' => if g' = g then writeAll (s.bank g k).xstores (s.core g).sp else (s.core g').sp) := by
  have hwrites : deferredWrites g k (s.bank g k).xsysw s = s := by rw [hx]; rfl
  rw [landX_eq, hwrites, memories_endStreamX, memories_modBank, memories_makeStores]
  generalize hu : pushPorts g k _ _ = u
  have hm : memories u = memories s := by
    rw [← hu, memories_pushPorts, memories_modBank, memories_pushTokens, memories_modBank]
  obtain ⟨hhbm, hhost, hsp⟩ : u.hbm = s.hbm ∧ u.host = s.host ∧ ∀ g', (u.core g').sp = (s.core g').sp := by
    simp only [memories, Prod.mk.injEq] at hm
    exact ⟨hm.1, hm.2.1, congrFun hm.2.2⟩
  simp only [hhbm, hhost, hsp]

end

theorem lastByte_append (l : List Host.Cell) (x : Host.Cell) (a : Nat) :
    lastByte (l ++ [x]) a = if x.1 = a then some x.2 else lastByte l a := by
  simp only [lastByte, List.reverse_append, List.reverse_singleton, List.singleton_append, List.find?_cons]
  by_cases hx : x.1 = a
  · simp [hx]
  · simp only [beq_false_of_ne hx, if_neg hx]

theorem wf_writeAll (l : List Host.Cell) {m : Memory} (h : m.wf = true) : (writeAll l m).wf = true :=
  List.foldlRecOn (motive := fun m => Memory.wf m = true) l _ h fun _ hm _ _ => Memory.wf_write _ _ _ hm

/-- After several writes an address reads the last byte written to it, else what it read before. -/
theorem read_writeAll (l : List Host.Cell) {m : Memory} (h : m.wf = true) (a : Nat) :
    (writeAll l m).read a = (lastByte l a).getD (m.read a) := by
  induction l using List.reverseRecOn with
  | nil => rfl
  | append_singleton l x ih =>
    have hlast : writeAll (l ++ [x]) m = (writeAll l m).write x.1 x.2 := by simp [writeAll]
    rw [hlast, Memory.read_write _ _ _ _ (wf_writeAll l h), lastByte_append, ih]
    by_cases hx : x.1 = a
    · rw [if_pos hx.symm, if_pos hx]
      rfl
    · rw [if_neg (Ne.symm hx), if_neg hx]

/-- Settles O17: the stores of the cycle are written in their order, so the last one to an address stands. -/
theorem storesLandTogether : Obligations.StoresLandTogether := by
  intro s hx hwf
  have hm := memories_landX hx
  simp only [memories, Prod.mk.injEq] at hm
  obtain ⟨hhbm, hhost, hsp⟩ := hm
  have hown (a : Nat) : ((s.landX s.ev.g s.ev.k).core s.ev.g).sp.read a =
      (lastByte (evBank s).xstores a).getD ((s.core s.ev.g).sp.read a) := by
    rw [congrFun hsp s.ev.g, if_pos rfl, read_writeAll _ hwf]
    rfl
  refine ⟨s.landX s.ev.g s.ev.k, rfl, fun a b hb => ?last, fun a hn => ?none, fun g a hg => ?other, fun a => by rw [hhbm], fun a => by rw [hhost]⟩
  case last => rw [hown, hb]; rfl
  case none => rw [hown, hn]; rfl
  case other => rw [congrFun hsp g, if_neg hg]

end Sys2Proof.Machine

/-! SUPPORT. System syllables and traps: what a word leaves for the trap that follows it, the double trap, the return from a trap and
`halt` (spec/18 R282-R296). -/
namespace Sys2Proof.Machine
open Sys2Proof Sys2Proof.Claims

/-! ## What a word leaves quiet -/

section
variable {s t : State}

theorem untraced_of_only (ho : OnlyBank s t) (hunit : t.tb.unit = s.tb.unit) (hu : Untraced s) : Untraced t := by
  intro u h
  have hpart : t.part u.part = s.part u.part := by rw [ho.state]; rfl
  rw [hpart]
  exact hu u (hunit ▸ h)

theorem mem_pushAgenda {push : Option (Fin 16)} {x : Due} (hx : x ∈ pushAgenda s push) : x.what = .tokenPoppable ∨ x ∈ s.agenda := by
  cases push with
  | none => exact .inr hx
  | some f =>
    rcases (mem_schedule _ _ _ _ _).1 hx with rfl | hx
    · exact .inl rfl
    · exact .inr hx

theorem noExecution_of_only {push : Option (Fin 16)} (ho : OnlyBank s t) (hdom : t.tb.dom = s.tb.dom)
    (hag : t.agenda = pushAgenda s push) (hn : NoExecution s) : NoExecution t := by
  refine ⟨fun x hx hp => ?_, ?_⟩
  · obtain ⟨hwhat, hg, hk⟩ := hp
    rcases mem_pushAgenda (hag ▸ hx) with htok | hx
    · exact nomatch htok.symm.trans hwhat
    · exact hn.due x hx ⟨hwhat, hg.trans ho.core, hk.trans ho.ctx⟩
  · exact (congrArg DomState.trapDue hdom).trans hn.raised

/-- A trap of the word that has just moved on takes the edge from the state that the word left. -/
theorem trap_after {push : Option (Fin 16)} (cause : Byte) (d0 d1 : DWord) (ho : OnlyBank s t) (hunit : t.tb.unit = s.tb.unit)
    (hdom : t.tb.dom = s.tb.dom) (hag : t.agenda = pushAgenda s push) (hk : s.turn.ctx.val < 2) (hu : Untraced s) (hn : NoExecution s) :
    TrapEdge cause d0 d1 t (t.trap cause d0 d1) :=
  trap_edge cause d0 d1 (ho.ctx ▸ hk) (untraced_of_only ho hunit hu) (noExecution_of_only ho hdom hag hn)

/-- A syllable that issues with a plain form leaves its unit and its domain unit alone. -/
theorem trap_after_acts {h : XHdr} {srcs : List Nat} (cause : Byte) (d0 d1 : DWord) (ha : XActs { hdr := h, srcs := srcs } s t)
    (hk : s.turn.ctx.val < 2) (hu : Untraced s) (hn : NoExecution s) : TrapEdge cause d0 d1 t (t.trap cause d0 d1) :=
  trap_after cause d0 d1 ha.took.only ((congrArg Bank.unit ha.took.bank).trans rfl) ((congrArg Bank.dom ha.took.bank).trans rfl) ha.agenda hk hu hn

end

/-! ## System syllables (spec/18 R291-R296) -/

section
variable {h : XHdr} {s : State}

theorem xLegal_legal {bad : Bool} (hb : bad = false) (o : Host.Outcome State Fault Refusal) : xLegal h bad s o = o := by
  rw [hb, xLegal, Bool.and_false]
  rfl

/-- A syllable that does nothing but go on and push. -/
theorem plain_acts : XActs { hdr := h, srcs := [] } s ((s.xTake h []).xNext.xPush h 0) :=
  xActs_of (r := { hdr := h, srcs := [] }) nofun (takenState_take rfl) rfl

/-- A `sysw` keeps its write for the end of the X cycle. -/
def keepSysw (x : Fin 4 × BitVec 12 × Word) (b : Bank) : Bank := { b with xsysw := b.xsysw ++ [x] }

theorem notSystem (hk : s.turn.ctx.val < 2) : (s.turn.ctx.val == 2) = false := beq_false_of_ne (by omega)

theorem system_acts {i : Instr} {r : XForm} (hi : SystemForm i r) (ready : XReady r.hdr r.srcs s) (need : r.need s) :
    ∃ t, exec i s = .next t ∧ XActs r s t := by
  cases hi with
  | @xSysw h a cr =>
    obtain ⟨hmay, hbusy⟩ := need
    rw [exec_xSysw, execXSysw, xLegal_legal (by rw [hmay]; rfl)]
    refine ⟨_, xIssue_ready ready 0 (if_neg (by rw [hbusy]; exact Bool.false_ne_true)) _, ?_⟩
    refine xActs_of (sPorts_lt _) (takenState_upd (keepSysw (s.turn.col, cr, s.rS a)) (fun _ => rfl) (fun _ _ => rfl) (fun _ => rfl) ?_) ?_
    · rfl
    · rfl
  | dbgstop =>
    obtain ⟨hk, hstop⟩ := need
    rw [exec_dbgstop, execDbgstop, xLegal_legal (notSystem hk)]
    refine ⟨_, xIssue_ready ready 0 rfl _, ?_⟩
    rw [hstop]
    exact xActs_of nofun (takenState_take rfl) rfl
  | yield =>
    obtain ⟨hk, hdet⟩ := need
    rw [exec_yield, execYield, xLegal_legal (notSystem hk)]
    refine ⟨_, xIssue_ready ready 0 rfl _, ?_⟩
    rw [hdet]
    exact xActs_of nofun (takenState_take rfl) rfl

/-- A read of SFCLO leaves the upper half in SFCHI. -/
def readLatch (cr : BitVec 12) (s : State) (b : Bank) : Bank :=
  if cr = 0x040 then { b with sfchi := (s.sfc b).extractLsb' 32 16 } else b

theorem xSysr_delivers (d : SDst) (cr : BitVec 12) (ready : XReady h [] s) (need : (sysrResult h d cr).need s) :
    ∃ t, exec (.xSysr h d cr) s = .next t ∧ XDelivers (sysrResult h d cr) s t := by
  have hread : (s.readReg cr.toNat).isNone = false := Option.isNone_eq_false_iff.2 need
  rw [exec_xSysr, execXSysr, xLegal_legal hread]
  refine ⟨_, xIssue_ready ready 2 rfl _, ?_⟩
  have hcr : cr.toNat = 0x040 ↔ cr = 0x040 := BitVec.toNat_inj (y := 0x040)
  have hlatch : (if cr.toNat = 0x040 then (s.xTake h (dedup [])).latchSfchi (s.xTake h (dedup [])).turn.core (s.xTake h (dedup [])).turn.ctx
      else s.xTake h (dedup [])) = (s.xTake h (dedup [])).modTb (readLatch cr s) := by
    unfold readLatch
    simp only [hcr]
    split
    · rfl
    · exact (modTb_id _).symm
  dsimp only
  rw [hlatch]
  refine xDelivers_of (r := sysrResult h d cr) nofun (takenState_upd (readLatch cr s) ?_ ?_ ?_ ?_) rfl
  · intro b; unfold readLatch; split <;> rfl
  · intro b n; unfold readLatch; split <;> rfl
  · intro b; unfold readLatch; split <;> rfl
  · rfl

end

/-- Settles O19: each syllable does what its form says, `sysr` delivers, a debug stop traps after its syllable, and `yield` asks for the switch. -/
theorem systemSyllables : Obligations.SystemSyllables := by
  refine ⟨fun i r s hi ready need => system_acts hi ready need, fun h d cr s ready need => xSysr_delivers d cr ready need,
    fun h n s ready hk hu hn hstop => ?stop, fun h s ready hk hdet => ?yield⟩
  case stop =>
    rw [exec_dbgstop, execDbgstop, xLegal_legal (notSystem hk)]
    refine ⟨_, (s.xTake h []).xNext.xPush h 0, xIssue_ready ready 0 rfl _, plain_acts, ?_⟩
    rw [hstop]
    exact trap_after_acts _ _ _ (plain_acts) hk hu hn
  case yield =>
    refine ⟨(s.xTake h []).xNext.xPush h 0, plain_acts, ?_⟩
    rw [exec_yield, execYield, xLegal_legal (notSystem hk), xIssue_ready ready 0 rfl]
    rw [hdet]
    rfl

/-! ## Traps (spec/18 R282-R285) -/

theorem castLE_ne_two (k : Fin 2) : (k.castLE (by decide) : Fin 3) ≠ 2 := fun e => absurd (congrArg Fin.val e) (Nat.ne_of_lt k.isLt)

/-- What changes a bank of a core and the agenda at most: the other banks, the handling of a trap, the memories and the time stand. -/
structure OnlyPlace (g : Fin 512) (k : Fin 3) (s t : State) : Prop where
  banks : ∀ j, j ≠ k → t.bank g j = s.bank g j
  handling : (t.core g).handling = (s.core g).handling
  memory : memories t = memories s
  cycle : t.cycle = s.cycle

section
variable {g : Fin 512} {k : Fin 3} {s t : State}

theorem OnlyPlace.refl : OnlyPlace g k s s := ⟨fun _ _ => rfl, rfl, rfl, rfl⟩

theorem OnlyPlace.modBank (h : OnlyPlace g k s t) (f : Bank → Bank) : OnlyPlace g k s (t.modBank g k f) := by
  refine ⟨fun j hj => ?_, ?_, (memories_modBank t f).trans h.memory, h.cycle⟩
  · rw [State.bank_modBank, if_neg fun e => hj e.2]
    exact h.banks j hj
  · rw [State.core_modBank, if_pos rfl]
    exact h.handling

theorem OnlyPlace.unschedule (h : OnlyPlace g k s t) (p : Due → Bool) : OnlyPlace g k s (t.unschedule p) :=
  ⟨h.banks, h.handling, h.memory, h.cycle⟩

theorem OnlyPlace.endExec (h : OnlyPlace g k s t) : OnlyPlace g k s (t.endExec g k) := by
  unfold State.endExec
  dsimp only
  split
  · exact h
  · exact (h.unschedule _).modBank _

/-- The pc at which a trap of a stream's word is recorded. -/
def State.trapPc (t : State) (st : Stream) (col : Fin 4) : Word :=
  match st with | .a => t.tb.apc | .m => t.tb.mpc | .x => (t.tb.col col).pc

/-- Any trap in the system context is a double trap. -/
theorem takeTrapAt_system (h : OnlyPlace g 2 s t) (st : Stream) (col : Fin 4) (word : BitVec 128) (pc : Word) (cause : Byte)
    (d0 d1 : DWord) :
    ∃ u, OnlyPlace g 2 s u ∧ t.takeTrapAt g 2 st col word pc cause d0 d1 = (u.endHandler g 31).how .trapped := by
  unfold State.takeTrapAt State.domTrap
  dsimp only
  cases hdue : ((t.endExec g 2).bank g 2).dom.trapDue with
  | none => exact ⟨_, h.endExec, rfl⟩
  | some x => exact ⟨_, h.endExec.modBank _, rfl⟩

/-- The handler ends and its unit stops with the cause of the double trap. -/
theorem endHandler_stops {k : Fin 2} (cause : Byte) (hh : (s.core g).handling = some k) (hstatus : (s.bank g (k.castLE (by decide))).status < 2) :
    ((s.endHandler g cause).core g).handling = none ∧
      ((s.endHandler g cause).bank g (k.castLE (by decide))).status = 2 ∧
      ((s.endHandler g cause).bank g (k.castLE (by decide))).reason = cause ∧
      SameMemory s (s.endHandler g cause) ∧
      { at_ := s.cycle + 1, what := .unitCompletion, args := EvArgs.at g (k.castLE (by decide)) } ∈ (s.endHandler g cause).agenda := by
  unfold State.endHandler
  rw [hh]
  dsimp only
  generalize hm : s.modCore g (fun c => { (c.setBank 2 (c.bank 2).endSystem) with handling := none }) = m
  have hcore : m.core g = { (s.core g).setBank 2 ((s.core g).bank 2).endSystem with handling := none } := by
    rw [← hm, State.core_modCore, if_pos rfl]
  have hbank : m.bank g (k.castLE (by decide)) = s.bank g (k.castLE (by decide)) := by
    show (m.core g).bank _ = _
    rw [hcore]
    exact (Core.bank_setBank _ _ _ _).trans (if_neg (castLE_ne_two k))
  have hmem : SameMemory s m := by
    rw [← hm]
    refine ⟨fun _ => rfl, fun _ => rfl, fun g' a => ?_⟩
    rw [State.core_modCore]
    split
    · next hg => rw [hg]; rfl
    · rfl
  have hcycle : m.cycle = s.cycle := by rw [← hm]; rfl
  have hstop := stopWith_stops m true g (k.castLE (by decide)) 2 cause
  have hwith := stoppedWith hstop (by rw [hbank]; exact hstatus)
  refine ⟨?_, hwith.status.1, hwith.status.2, ⟨fun a => ?_, fun a => ?_, fun g' a => ?_⟩, hcycle ▸ hwith.completes⟩
  · rw [hstop.handling, hcore]
  · rw [hwith.memory.hbm, hmem.hbm]
  · rw [hwith.memory.host, hmem.host]
  · rw [hwith.memory.sp, hmem.sp]

end

theorem sameMemory_of_memories {s t : State} (h : memories t = memories s) : SameMemory s t := by
  simp only [memories, Prod.mk.injEq] at h
  obtain ⟨hhbm, hhost, hsp⟩ := h
  exact ⟨fun a => by rw [hhbm], fun a => by rw [hhost], fun g a => by rw [congrFun hsp g]⟩

theorem sameMemory_trans {s t u : State} (h : SameMemory s t) (h' : SameMemory t u) : SameMemory s u :=
  ⟨fun a => (h'.hbm a).trans (h.hbm a), fun a => (h'.host a).trans (h.host a), fun g a => (h'.sp g a).trans (h.sp g a)⟩

/-- Settles O22: `trap` takes the edge from the state its word leaves; in the system context every trap ends the handler. -/
theorem trapsTaken : Obligations.TrapsTaken := by
  refine ⟨fun h n s ready hk hu hn => ?x, fun h n s ready hk hu hn => ?a, fun h n s k ready hsys hh hstatus => ?double⟩
  case x =>
    rw [exec_xTrap, execXTrap]
    refine ⟨s.xNext.trap 28 (n.setWidth 64) 0, xIssue_stop ready 0 (by rfl) _, ?_⟩
    exact trap_after (push := none) 28 _ 0 ((OnlyBank.refl s).modTc Column.next) ((congrArg Bank.unit (State.tb_modTc s Column.next)).trans rfl)
      ((congrArg Bank.dom (State.tb_modTc s Column.next)).trans rfl) rfl hk hu hn
  case a =>
    have hret := (aTake_owes s h.wait h.push [] [] [] 1).retire rfl rfl rfl
    rw [exec_aTrap, execATrap]
    refine ⟨_, _, aWord_ready ready rfl _, hret, ?_⟩
    exact trap_after 28 _ 0 hret.took.only ((congrArg Bank.unit hret.took.bank).trans rfl) ((congrArg Bank.dom hret.took.bank).trans rfl) hret.agenda hk hu hn
  case double =>
    have hctx : s.turn.ctx = 2 := Fin.ext hsys
    rw [exec_xTrap, execXTrap]
    refine ⟨s.xNext.trap 28 (n.setWidth 64) 0, xIssue_stop ready 0 (by rfl) _, ?_⟩
    have hplace : OnlyPlace s.turn.core 2 s s.xNext := by
      rw [← hctx]
      exact OnlyPlace.refl.modBank fun b => b.modCol s.turn.col Column.next
    obtain ⟨u, hu, hdouble⟩ := takeTrapAt_system hplace s.turn.stream s.turn.col s.turn.word (s.xNext.trapPc s.turn.stream s.turn.col)
      28 (n.setWidth 64) 0
    have htrap : s.xNext.trap 28 (n.setWidth 64) 0 = (u.endHandler s.turn.core 31).how .trapped := by
      rw [← hdouble, ← hctx]
      rfl
    rw [htrap]
    have hbank : u.bank s.turn.core (k.castLE (by decide)) = s.bank s.turn.core (k.castLE (by decide)) :=
      hu.banks _ (castLE_ne_two k)
    obtain ⟨hhandling, hst, hreason, hmem, hcompletes⟩ :=
      endHandler_stops 31 (hu.handling.trans hh) (hbank ▸ hstatus)
    exact ⟨hhandling, hst, hreason, sameMemory_trans (sameMemory_of_memories hu.memory) ⟨hmem.hbm, hmem.host, hmem.sp⟩, hu.cycle ▸ hcompletes⟩


/-- Settles O24: the stop of `halt` is a stop with fault and cause HALTED, and how the word went changes nothing else. -/
theorem haltStops : Obligations.HaltStops := by
  intro h s ready hk hstatus
  rw [exec_halt, execHalt]
  refine ⟨(s.haltAt s.turn.core s.turn.ctx).how .trapped, xIssue_stop ready 0 (by rfl) _, ?_⟩
  have hunit : s.haltAt s.turn.core s.turn.ctx = s.stopWith true s.turn.core s.turn.ctx 2 30 := if_neg (by omega)
  have hw : StoppedWith 30 s.turn.core s.turn.ctx s (s.haltAt s.turn.core s.turn.ctx) :=
    hunit ▸ stoppedWith (stopWith_stops s true s.turn.core s.turn.ctx 2 30) hstatus
  exact ⟨hw.status, hw.ended, hw.inflight, hw.banks, hw.cores, ⟨hw.memory.hbm, hw.memory.host, hw.memory.sp⟩, hw.completes⟩

/-! ## `eret` (spec/18 R289) -/

section
variable {s : State} {k : Fin 2} {h : XHdr}

/-- The handler's stream and its stores are done, so nothing holds `eret`. -/
theorem storesDone_of_done (hdone : HandlerDone s) : s.tb.storesDone = true := by
  obtain ⟨-, -, -, hops⟩ := hdone
  refine List.all_eq_true.2 fun o ho => ?_
  rcases hops o ho with hp | ⟨n, hb⟩ | ⟨l, hb⟩
  · split
    · rfl
    · rfl
    · exact hp
  · rw [hb]
  · rw [hb]

/-- The state in which the unit resumes: the word has taken its token and the system context has ended. -/
def systemEnded (h : XHdr) (s : State) : State :=
  (s.xTake h []).modCore s.turn.core fun c => c.setBank 2 (c.bank 2).endSystem

theorem systemEnded_bank_system (hctx : s.turn.ctx = 2) : (systemEnded h s).bank s.turn.core 2 = s.tb.endSystem := by
  unfold systemEnded State.bank
  rw [State.core_modCore, if_pos rfl, Core.bank_setBank, if_pos rfl]
  have htb : ((s.xTake h []).core s.turn.core).bank 2 = (s.xTake h []).tb := by rw [← hctx]; rfl
  rw [htb, xTake_bank]
  rfl

theorem systemEnded_bank (hctx : s.turn.ctx = 2) (k : Fin 2) :
    (systemEnded h s).bank s.turn.core (k.castLE (by decide)) = s.bank s.turn.core (k.castLE (by decide)) := by
  unfold systemEnded State.bank
  rw [State.core_modCore, if_pos rfl, Core.bank_setBank, if_neg (castLE_ne_two k)]
  exact (xTake_only s h []).banks _ (hctx ▸ castLE_ne_two k)

/-- Beside the banks, the core is as it was. -/
theorem systemEnded_core : ∃ B, (systemEnded h s).core s.turn.core = { s.core s.turn.core with banks := B } := by
  unfold systemEnded
  rw [State.core_modCore, if_pos rfl, (xTake_only s h []).rest]
  exact ⟨_, rfl⟩

theorem systemEnded_cores {g : Fin 512} (hg : g ≠ s.turn.core) : (systemEnded h s).core g = s.core g := by
  unfold systemEnded
  rw [State.core_modCore, if_neg hg]
  exact (xTake_only s h []).cores g hg

theorem systemEnded_saveRead :
    (systemEnded h s).saveRead ((systemEnded h s).partAt s.turn.core) ((systemEnded h s).saveVA s.turn.core k) =
      s.saveRead (s.partAt s.turn.core) (s.saveVA s.turn.core k) := by
  obtain ⟨B, hB⟩ := systemEnded_core (h := h) (s := s)
  have hva : (systemEnded h s).saveVA s.turn.core k = s.saveVA s.turn.core k := by
    unfold State.saveVA
    rw [hB]
    rfl
  rw [hva]
  rfl

theorem eret_returns (ready : XReady h [] s) (hdone : HandlerDone s) (hh : (s.core s.turn.core).handling = some k) :
    exec (.eret h) s = .next ((systemEnded h s).resumeBank s.turn.core k) := by
  obtain ⟨hctx, hcol, haEnded, -⟩ := id hdone
  have hlegal : (s.turn.ctx.val != 2 || s.turn.col.val != 0) = false := by rw [hctx, hcol]; rfl
  have hfree : (if s.tb.aEnded && s.tb.storesDone then none else some (s.stall wOwner 0)) = none := by
    rw [haEnded, storesDone_of_done hdone]
    rfl
  have hhandling : ((s.xTake h []).core s.turn.core).handling = some k := by
    rw [(xTake_only s h []).rest]
    exact hh
  rw [exec_eret, execEret, xLegal_legal hlegal, xIssue_ready ready 0 hfree]
  show Host.Outcome.next ((s.xTake h []).returnFromTrap s.turn.core) = _
  unfold State.returnFromTrap
  rw [hhandling]
  rfl

end

section
variable (s : State) (g : Fin 512) (k : Fin 2) (b : Bank)

/-- A unit whose bank `b` is again on its core and starts after 264 cycles. -/
def State.runAgain : State :=
  ((s.setBank g (k.castLE (by decide)) b).modCore g fun c => { c with handling := none, ctxsw := none, stopped := false }).activate g k 264

theorem runAgain_core :
    (s.runAgain g k b).core g =
      { (s.core g).setBank (k.castLE (by decide)) b with handling := none, ctxsw := none, stopped := false, active := k } := by
  unfold State.runAgain State.activate State.setBank
  rw [State.core_schedule, State.core_modCore, if_pos rfl, State.core_modCore, if_pos rfl, State.core_modCore, if_pos rfl]

theorem runAgain_bank (j : Fin 3) :
    (s.runAgain g k b).bank g j = if j = k.castLE (by decide) then b else s.bank g j := by
  unfold State.bank
  rw [runAgain_core]
  exact Core.bank_setBank _ _ _ _

theorem runAgain_cores (g' : Fin 512) (hg : g' ≠ g) : (s.runAgain g k b).core g' = s.core g' := by
  unfold State.runAgain State.activate State.setBank
  rw [State.core_schedule, State.core_modCore, if_neg hg, State.core_modCore, if_neg hg, State.core_modCore, if_neg hg]

end

/-- Settles O23: the system context ends, the unit's bank is reloaded from its save area, and it starts after 264 cycles. -/
theorem handlerReturns : Obligations.HandlerReturns := by
  intro h s k b r ready hdone hres
  obtain ⟨hh, rfl, ⟨u, hunit, hok⟩, hcancelled, hreplay, rfl, hctxsw⟩ := hres
  have hctx : s.turn.ctx = 2 := Fin.ext hdone.1
  have hbank := systemEnded_bank (h := h) hctx k
  obtain ⟨B, hcore⟩ := systemEnded_core (h := h) (s := s)
  obtain ⟨skip, pend, hrun⟩ := resumeBank_runs (systemEnded h s) s.turn.core k u (by rw [hbank]; exact hunit)
    (by rw [hbank]; exact hcancelled) (by rw [hbank]; exact hreplay) (by rw [hcore]; exact hctxsw)
    (by rw [systemEnded_saveRead]; exact hok)
  rw [systemEnded_saveRead, hbank] at hrun
  refine ⟨_, eret_returns ready hdone hh, ?_⟩
  rw [hrun]
  show Resumed s ((systemEnded h s).runAgain s.turn.core k _) k _ _
  refine ⟨?handling, ?system, ⟨skip, pend, ?bank⟩, fun g hg => ?cores, ?memory, (mem_schedule ..).2 (.inl rfl)⟩
  case handling =>
    rw [runAgain_core]
    exact ⟨rfl, rfl⟩
  case system =>
    rw [runAgain_bank, if_neg (castLE_ne_two k).symm]
    exact systemEnded_bank_system hctx
  case bank => rw [runAgain_bank, if_pos rfl]
  case cores => rw [runAgain_cores _ _ _ _ _ hg, systemEnded_cores hg]
  case memory =>
    refine ⟨fun _ => rfl, fun _ => rfl, fun g a => ?_⟩
    by_cases hg : g = s.turn.core
    · rw [hg, runAgain_core, hcore]
      rfl
    · rw [runAgain_cores _ _ _ _ _ hg, systemEnded_cores hg]

end Sys2Proof.Machine

/-! SUPPORT. The machine as a whole: the words the spec writes out, the state after reset, and what one step runs (spec/00 R1-R3,
spec/06 R99-R101, spec/18 R302). -/
namespace Sys2Proof.Machine
open Sys2Proof Sys2Proof.Claims

/-- Settles O49: each word is decoded field by field. -/
theorem specWordsDecode : Obligations.SpecWordsDecode :=
  ⟨by rfl, by rfl, by rfl, by rfl, by rfl, by rfl, by rfl⟩

/-! ## Reset -/

/-- Settles O52: HBM and host memory are empty, and every core is as reset makes it. -/
theorem resetMemories : Obligations.ResetMemories :=
  ⟨rfl, rfl, fun g => (reset_core_canonical g).1, fun g => (reset_core_canonical g).2⟩

theorem core_reset (g : Fin 512) : State.reset.core g = Core.reset := Vector.getElem_replicate ..

theorem cluster_reset (c : Fin 64) : State.reset.cluster c = Cluster.reset := Vector.getElem_replicate ..

theorem part_reset (p : Fin 8) : State.reset.part p = Part.reset := Vector.getElem_replicate ..

theorem die_reset (d : Fin 8) : State.reset.die d = Die.reset d := Vector.getElem_ofFn ..

theorem bank_reset (g : Fin 512) (k : Fin 3) : State.reset.bank g k = Bank.reset := by
  unfold State.bank
  rw [core_reset]
  exact Vector.getElem_replicate ..

theorem resetBank_reset : ResetBank Bank.reset where
  empty := ⟨rfl, rfl⟩
  pcs := ⟨rfl, rfl, by decide⟩
  domains := by decide
  proplim := rfl
  queues := ⟨by decide, by decide⟩
  nothing := ⟨rfl, rfl, rfl⟩

/-- Settles O53: each part of the device is as its own reset value. -/
theorem resetValues : Obligations.ResetValues where
  banks g k := bank_reset g k ▸ resetBank_reset
  owners g := by rw [core_reset]; exact ⟨rfl, rfl, rfl⟩
  leases c := by rw [cluster_reset]; exact ⟨rfl, rfl, rfl, rfl⟩
  ages p := by rw [part_reset]; exact ⟨rfl, rfl⟩
  recovery p := by rw [part_reset]; exact ⟨rfl, rfl, rfl, rfl⟩
  clocks d c := by
    have hdvfs : State.reset.dvfsOf d c = Dvfs.reset d c := by
      unfold State.dvfsOf
      rw [die_reset]
      exact Vector.getElem_ofFn ..
    rw [hdvfs]
    rfl
  tlb d := by rw [die_reset]; exact ⟨rfl, rfl⟩

/-! ## One step -/

section
variable {s : State} {w : BitVec 128} {i : Instr}

theorem step_due {d : Due} {l : List Due} (hl : s.agenda = d :: l) (hd : d.at_ ≤ s.cycle) :
    step s = exec d.what { s with agenda := l, ev := d.args } := by
  unfold step act
  rw [hl]
  exact if_pos (decide_eq_true hd)

theorem step_turn (hn : NothingDue s) : step s = actTurn s := by
  unfold step act
  split
  · rfl
  · next d l hl => exact if_neg (by simpa using hn d l hl)

/-- The stream of the turn has its cycle when its context presents words. -/
theorem presents_goes (hp : Presents s) :
    ((s.core s.turn.core).presenting != some s.turn.ctx || (s.die (dieOf s.turn.core)).dvfsStopped) = false := by
  obtain ⟨hpresenting, hstopped⟩ := hp
  rw [hpresenting, hstopped, bne_self_eq_false]
  rfl

theorem step_cause {t : State} (hn : NothingDue s) (hp : Presents s) (hs : s.turn.stream = .a)
    (hc : (s.onStream .a).edgeCause = some t) : step s = .next (t.nextTurn (s.turn.core.val + 1)) := by
  rw [step_turn hn, actTurn]
  dsimp only
  rw [presents_goes hp, if_neg Bool.false_ne_true, hs]
  dsimp only
  rw [hc]

theorem onStream_self {st : Stream} (hs : s.turn.stream = st) (w : BitVec 128) :
    { s.onStream st with turn := { (s.onStream st).turn with word := w } } = atWord w s := by
  rw [← hs]
  rfl

/-- A fetched word that decodes and meets no breakpoint runs. -/
theorem runFetched_word (st : Stream) (hg : State.breakAt { s with turn := { s.turn with word := w } } = none) (hd : decodeWord st w = some i) :
    runFetched st (.word w) s = exec i { s with turn := { s.turn with word := w } } := by
  unfold runFetched
  dsimp only
  rw [hg, hd]

theorem turnA_runs (h : ATurn s w i) : turnA (s.onStream .a) = andThen (exec i (atWord w s)) fun t => t.afterWord .a := by
  obtain ⟨hended, hpause, hhold, hreplay, hpending⟩ := h.going
  have hself := onStream_self h.stream w
  have hfetch : (s.onStream .a).fetchA (s.onStream .a).tb = .word w := h.fetched
  unfold turnA
  dsimp only
  rw [show (s.onStream .a).tb = s.tb from rfl] at hfetch ⊢
  rw [hended, hpause, hhold, hreplay, hpending]
  simp only [Bool.false_eq_true, if_false, bne_self_eq_false, List.isEmpty_nil, Bool.not_true]
  rw [hfetch, runFetched_word .a (hself ▸ h.goes) h.decoded, hself]

theorem turnM_runs (h : MTurn s w i) : turnM (s.onStream .m) = andThen (exec i (atWord w s)) fun t => t.afterWord .m := by
  obtain ⟨hended, hpause⟩ := h.going
  have hself := onStream_self h.stream w
  have hfetch : (s.onStream .m).fetchM (s.onStream .m).tb = .word w := h.fetched
  unfold turnM
  dsimp only
  rw [show (s.onStream .m).tb = s.tb from rfl] at hfetch ⊢
  rw [hended, hpause]
  simp only [Bool.false_eq_true, if_false, bne_self_eq_false]
  rw [hfetch, runFetched_word .m (hself ▸ h.goes) h.decoded, hself]

theorem step_a (h : ATurn s w i) :
    step s = andThen (andThen (exec i (atWord w s)) fun t => t.afterWord .a) fun t => .next (t.passTurn s.turn.core s.turn.ctx .a) := by
  rw [step_turn h.due, actTurn]
  dsimp only
  rw [presents_goes h.presents, if_neg Bool.false_ne_true, h.stream]
  dsimp only
  rw [h.quiet, turnA_runs h]

theorem onNextEdge_next (s t : State) : onNextEdge s (.next t) = .next (unlessStopped s t) := rfl

theorem step_m {t u : State} (h : MTurn s w i) (he : exec i (atWord w s) = .next t) (ha : t.afterWord .m = .next u) :
    step s = .next ((unlessStopped (s.onStream .m) u).passTurn s.turn.core s.turn.ctx .m) := by
  have hturn : turnM (s.onStream .m) = .next u := by
    rw [turnM_runs h, he]
    exact ha
  rw [step_turn h.due, actTurn]
  dsimp only
  rw [presents_goes h.presents, if_neg Bool.false_ne_true, h.stream]
  dsimp only
  rw [hturn, onNextEdge_next]
  rfl

/-! ### The X cycle of one column -/

variable {c : Fin 4} {t : State}

/-- One column of four, when every other one has ended. -/
theorem filterMap_alone {α : Type} (x : α) (c : Fin 4) :
    (List.finRange 4).filterMap (fun j => if decide (j ≠ c) then none else some (j, x)) = [(c, x)] := by
  fin_cases c <;> rfl

theorem fetchCols_alone (h : XTurn s c w i) : (s.onStream .x).fetchCols = [(c, .word w)] := by
  have hpick : ∀ j, (if (s.tb.col j).ended then none else some (j, s.fetchX s.tb j)) = if decide (j ≠ c) then none else some (j, Fetched.word w) := by
    intro j
    rw [h.alone j]
    by_cases hj : j = c
    · rw [hj, h.fetched]
    · rw [decide_eq_true hj, if_pos rfl, if_pos rfl]
  rw [← filterMap_alone (Fetched.word w) c, ← funext hpick]
  rfl

theorem onStream_atCol (h : XTurn s c w i) : (s.onStream .x).atCol c w = atColumn c w s := by
  unfold atColumn
  rw [← h.stream]
  rfl

theorem execCol_runs {u : State} (hu : u.atCol c w = atColumn c w s) (h : XTurn s c w i) : execCol c w u = exec i (atColumn c w s) := by
  unfold execCol
  dsimp only
  rw [hu, h.goes, h.decoded]

theorem presentCols_alone (h : XTurn s c w i) (he : exec i (atColumn c w s) = .next t) :
    presentCols (s.onStream .x) [(c, .word w)] = .ok [{ col := c, word := w, res := t }] := by
  obtain ⟨hhold, heval⟩ := h.held
  have hfree : (((s.onStream .x).tb.col c).hold != 0 || ((s.onStream .x).tb.col c).evalDue) = false := by
    show ((s.tb.col c).hold != 0 || (s.tb.col c).evalDue) = false
    rw [hhold, heval]
    rfl
  unfold presentCols presentCols
  dsimp only
  rw [hfree, if_neg Bool.false_ne_true, execCol_runs (onStream_atCol h) h, he]

/-- No column pauses, so the base of the cycle is the state itself. -/
theorem tickCols_alone (h : XTurn s c w i) :
    ((s.onStream .x).tb.cols.map fun x => if x.ended || x.hold = 0 then x else x.tick (s.onStream .x).tb.dom.run.isSome) = (s.onStream .x).tb.cols := by
  refine Vector.ext fun j hj => ?_
  rw [Vector.getElem_map]
  have hended : ((s.onStream .x).tb.cols[j]).ended = decide ((⟨j, hj⟩ : Fin 4) ≠ c) := h.alone ⟨j, hj⟩
  by_cases hc : (⟨j, hj⟩ : Fin 4) = c
  · have hhold : ((s.onStream .x).tb.cols[j]).hold = 0 := by
      have := h.held.1
      rw [← hc] at this
      exact this
    exact if_pos (by rw [hhold]; simp)
  · exact if_pos (by rw [hended, decide_eq_true hc]; rfl)

theorem modTb_fixed {f : Bank → Bank} (hf : f s.tb = s.tb) : s.modTb f = s := by
  have hid := modTb_id s
  unfold State.modTb State.modBank at hid ⊢
  rw [show f (s.bank s.turn.core s.turn.ctx) = s.bank s.turn.core s.turn.ctx from hf]
  exact hid

theorem perfBump_banks (c : Core) (n : Nat) : (c.perfBump n).banks = c.banks := by
  unfold Core.perfBump
  split <;> rfl

theorem bank_modCore_keep {f : Core → Core} (hf : ∀ c, (f c).banks = c.banks) (t : State) (g g' : Fin 512) (k : Fin 3) :
    (t.modCore g f).bank g' k = t.bank g' k := by
  unfold State.bank Core.bank
  rw [State.core_modCore]
  split
  · next hg => rw [hf, hg]
  · rfl

theorem st_modBank_keep {f : Bank → Bank} (hf : ∀ b, (f b).st = b.st) (t : State) (g g' : Fin 512) (j k : Fin 3) :
    ((t.modBank g j f).bank g' k).st = (t.bank g' k).st := by
  rw [State.bank_modBank]
  split
  · next hg => rw [hf, hg.1, hg.2]
  · rfl

/-- What a core counts when a word of stream X issues at `now`. -/
def Core.countIssue (now : Nat) (c : Core) : Core :=
  { c.perfBump (32 * streamCode .x + 0) with heads := (c.perfBump (32 * streamCode .x + 0)).heads.set 1 (now, 0) }

def Dvfs.countIssue (v : Dvfs) : Dvfs :=
  { v with headIssue := v.headIssue + b01 true, headStall := v.headStall + b01 false }

theorem count_issue (t : State) (g : Fin 512) (h : ¬ t.turn.ctx.val = 2) :
    t.count g .x [0] = ((t.modCore g (Core.countIssue t.cycle)).modBank g t.turn.ctx fun b =>
      { b with lastWord := (t.modCore g (Core.countIssue t.cycle)).sfc b }).modDvfs (dieOf g) (t.physOf g) Dvfs.countIssue :=
  if_neg h

/-- Counting a cycle leaves every bank in its state. -/
theorem count_st (t : State) (g : Fin 512) (k : Fin 3) : ((t.count g .x [0]).bank g k).st = (t.bank g k).st := by
  by_cases h : t.turn.ctx.val = 2
  · exact congrArg (fun u : State => (u.bank g k).st) (if_pos h)
  · rw [count_issue t g h, State.modDvfs, State.bank_modDie, st_modBank_keep (by intro b; rfl), bank_modCore_keep]
    exact fun c => perfBump_banks c _

theorem issueCycle_alone (h : XTurn s c w i) (he : exec i (atColumn c w s) = .next t) (ht : t.turn.how = .issued)
    (hr : (t.bank s.turn.core s.turn.ctx).st = .running) {u : State}
    (hl : exec .xResultLanding { t.count s.turn.core .x [0] with ev := EvArgs.at s.turn.core s.turn.ctx } = .next u) :
    issueCycle (s.onStream .x) [] [{ col := c, word := w, res := t }] = .next u := by
  have hbase : ((s.onStream .x).keepWaits []).modTb (fun b =>
      { b with cols := b.cols.map fun x => if x.ended || x.hold = 0 then x else x.tick b.dom.run.isSome }) = s.onStream .x :=
    modTb_fixed (congrArg (fun cols => { (s.onStream .x).tb with cols := cols }) (tickCols_alone h))
  have horder (p : Presented) : [p].filter (fun p => isFence p.word) ++ [p].filter (fun p => !isFence p.word) = [p] := by
    cases hf : isFence p.word <;> simp [hf]
  have hcols : issueCols [{ col := c, word := w, res := t }] (s.onStream .x) = .ok t := by
    unfold issueCols issueCols
    rw [execCol_runs (onStream_atCol h) h, he]
    dsimp only
    rw [ht]
    rfl
  unfold issueCycle
  dsimp only
  rw [hbase, horder, hcols]
  dsimp only
  have hst : ((t.count s.turn.core .x [0]).bank s.turn.core s.turn.ctx).st = .running := (count_st ..).trans hr
  have hcore : (s.onStream .x).turn.core = s.turn.core := rfl
  have hctx : (s.onStream .x).turn.ctx = s.turn.ctx := rfl
  rw [List.isEmpty_cons, if_neg Bool.false_ne_true, hcore, hctx, hst, if_pos (beq_self_eq_true _), hl]
  rfl

theorem issued_not_holding : (How.issued == How.holding) = false := rfl
theorem issued_not_stalled : (How.issued == How.stalled) = false := rfl
theorem issued_not_illegal : (How.issued == How.illegal) = false := rfl
theorem issued_not_trapped : (How.issued == How.trapped) = false := rfl

/-- One syllable shares no port. -/
theorem conflictOf_single (p : Presented) : conflictOf [p] = none := by
  unfold conflictOf
  have hnone : (p.res.turn.pops.find? fun q => [p].any fun o => o.col != p.col && o.res.turn.pops.contains q) = none := by
    refine List.find?_eq_none.2 fun q _ => ?_
    simp
  rw [List.findSome?_cons, hnone]
  rfl

theorem turnX_alone (h : XTurn s c w i) (he : exec i (atColumn c w s) = .next t) (ht : t.turn.how = .issued)
    (hr : (t.bank s.turn.core s.turn.ctx).st = .running) {u : State}
    (hl : exec .xResultLanding { t.count s.turn.core .x [0] with ev := EvArgs.at s.turn.core s.turn.ctx } = .next u) :
    turnX (s.onStream .x) = .next u := by
  obtain ⟨hended, hfull, hfreezes, htrap⟩ := h.going
  have hissue := issueCycle_alone h he ht hr hl
  unfold turnX
  dsimp only
  rw [fetchCols_alone h, presentCols_alone h he]
  dsimp only
  have htb : (s.onStream .x).tb = s.tb := rfl
  have hj : holdsJoined (s.onStream .x) [(c, .word w)] [{ col := c, word := w, res := t }] = false := by
    unfold holdsJoined
    have hhold : ((s.onStream .x).tb.col c).hold = 0 := h.held.1
    simp only [List.any_cons, List.any_nil, hhold, ht, bne_self_eq_false, Bool.or_false, issued_not_holding, Bool.and_false]
  rw [hj, htb, hended, hfull, hfreezes, htrap]
  simp only [List.filter_cons, List.filter_nil, ht, Bool.false_and, Bool.or_false, issued_not_holding, issued_not_stalled,
    issued_not_illegal, issued_not_trapped, Bool.not_false, if_true, Bool.false_eq_true, if_false, conflictOf_single,
    List.any_cons, List.any_nil, Option.isSome_none, List.append_nil]
  exact hissue

end

/-- Settles O48: the due step, the cause of the cycle, and the turns of the three streams. -/
theorem stepRunsDecoded : Obligations.StepRunsDecoded := by
  refine ⟨fun s d l hl hd => step_due hl hd, fun s t hn hp hs hc => step_cause hn hp hs hc, fun s w i h => step_a h,
    fun s w i t u h he ha => step_m h he ha, fun s c w i t u h he ht hr hl => ?_⟩
  rw [step_turn h.due, actTurn]
  dsimp only
  rw [presents_goes h.presents, if_neg Bool.false_ne_true, h.stream]
  dsimp only
  rw [turnX_alone h he ht hr hl, onNextEdge_next]
  rfl

end Sys2Proof.Machine

/-! SUPPORT. The domain unit: relations and constants, failures, `dpick`, the checkpoint stack, and the exact intersection
(spec/08 R140-R161). -/
namespace Sys2Proof.Machine
open Sys2Proof Sys2Proof.Claims

/-! ## The domain state of a bank -/

def setDom (d : DomState) (b : Bank) : Bank := { b with dom := d }

/-- The domain state after an initiating execution that has left `d`: a run over the queue, or its end at once. -/
def runOver (s : State) (d : DomState) : DomState :=
  if d.queue.isEmpty then { d with bnd := false, drun := 0 }
  else
    { d with
      bnd := false
      run := some
        { n := 0, limit := d.proplim.toNat, pc := s.tc.pc, delay := s.tc.brdly != 0, start := s.tb.xcycle + 2
          word := s.turn.word.setWidth 64 } }

section
variable {s u : State} {h : XHdr} {srcs : List Nat}

theorem domRun_eq (t s : State) (h : XHdr) :
    t.domRun s h = ((t.modTb (setDom (runOver s t.tb.dom))).domNext 2).xPush h 1 := rfl

theorem modTb_setDom (u : State) (f : Bank → Bank) (d : DomState) (hf : ∀ b, setDom d (f b) = setDom d b) :
    (u.modTb f).modTb (setDom d) = u.modTb (setDom d) := by
  rw [modTb_modTb]
  exact congrArg u.modTb (funext hf)

theorem domInit_narrows {x : DX} {keep : Option Standing} (hx : x.fail = none) (hd : u.tb.dom = s.tb.dom) :
    u.domInit s h x keep = ((u.modTb (setDom (runOver s (domAfter s.tb.dom x keep)))).domNext 2).xPush h 1 := by
  unfold State.domInit
  rw [hx]
  dsimp only
  rw [domRun_eq, State.tb_modTb, domAfter_eq, hd]
  show (((u.modTb (setDom (domAfter s.tb.dom x keep))).modTb (setDom (runOver s (domAfter s.tb.dom x keep)))).domNext 2).xPush h 1 = _
  rw [modTb_setDom u (setDom (domAfter s.tb.dom x keep)) _ fun _ => rfl]

/-- The column of a domain syllable of n X cycles goes on and holds. -/
theorem domNext_holding (n : Nat) (u : State) :
    (u.domNext n).modTc (fun c => { c with hold := BitVec.ofNat 12 (n - 1) }) = u.modTc (holding n) := by
  unfold State.domNext
  rw [modTc_modTc]
  congr 1
  funext c
  unfold Column.domNext holding
  have hc : (decide (2 ≤ n) && c.atEnd) = true ↔ 2 ≤ n ∧ endsLoop c = true := by
    rw [Bool.and_eq_true, decide_eq_true_eq]
    rfl
  simp only [hc]

theorem heldFor_pushes {n l : Nat} (hl : l ≠ 0) (hu : u.turn.how = .issued) :
    heldFor n ((u.domNext n).xPush h l) = (u.modTc (holding n)).xPush h l := by
  have hissued : ((u.domNext n).xPush h l).turn.how = .issued := (xPush_how ..).trans hu
  rw [heldFor_issued n hissued, xPush_modTc _ _ _ hl, domNext_holding]

/-- The taken syllable with its domain state set. -/
theorem takenState_dom {r : XForm} (d : DomState) (hr : r.upd s s.tb = setDom d s.tb) :
    TakenState r s ((s.xTake r.hdr (dedup r.srcs)).modTb (setDom d)) :=
  takenState_upd (setDom d) (fun _ => rfl) (fun _ _ => rfl) (fun _ => rfl) hr

/-- A domain syllable of n X cycles that leaves the domain state `d` and pushes after its last. -/
theorem xPushesAt_dom {n : Nat} {r : XForm} (hn : n - 1 ≠ 0) (hl : ∀ q ∈ r.srcs, q < 9) (d : DomState)
    (hr : r.upd s s.tb = setDom d s.tb) (hc : r.col s = holding n) :
    XPushesAt (n - 1) r s
      (heldFor n ((((s.xTake r.hdr (dedup r.srcs)).modTb (setDom d)).domNext n).xPush r.hdr (n - 1))) :=
  xPushesAt_of hn hl (takenState_dom d hr) (by rw [heldFor_pushes (h := r.hdr) hn rfl, hc])

theorem runOver_settled {d : DomState} (hq : d.queue = []) : runOver s d = { d with bnd := false, drun := 0 } :=
  if_pos (by rw [hq]; rfl)

theorem runOver_running {d : DomState} (hq : d.queue ≠ []) {n : BitVec 16} (hn : d.proplim = n) :
    runOver s d =
      { d with
        bnd := false
        run := some
          { n := 0, limit := n.toNat, pc := s.tc.pc, delay := s.tc.brdly != 0, start := s.tb.xcycle + 2
            word := s.turn.word.setWidth 64 } } := by
  subst hn
  exact if_neg (by simpa using hq)

theorem domAfter_proplim (d : DomState) (x : DX) (keep : Option Standing) : (domAfter d x keep).proplim = d.proplim := by
  cases keep with
  | none => exact commit_proplim d none x
  | some e => exact commit_proplim d none x

variable {i : Instr} {x : State → DX} {keep : State → Option Standing}

/-- A relation or constant that does not fail leaves the domain state of its execution. -/
theorem narrows_pushes {r : XForm} (hi : NarrowsForm i h srcs x keep) (ready : XReady h srcs s) (hcol : Column0 s)
    (hkeep : (keep s).isSome = true → s.tb.dom.table.length < 64) (hfail : (x s).fail = none) (hh : r.hdr = h) (hsrcs : r.srcs = srcs)
    (hr : r.upd s s.tb = setDom (runOver s (domAfter s.tb.dom (x s) (keep s))) s.tb) (hc : r.col s = holding 2) :
    ∃ t, exec i s = .next t ∧ XPushesAt 1 r s t := by
  subst hh hsrcs
  obtain ⟨he, hl⟩ := narrows_exec hi ready hcol hkeep
  refine ⟨_, he, ?_⟩
  rw [domInit_narrows hfail (xTake_dom ..)]
  exact xPushesAt_dom (n := 2) Nat.one_ne_zero hl _ hr hc

end

/-- Settles O28: the execution's domain state is committed, with a run or its end at once. -/
theorem relationsNarrow : Obligations.RelationsNarrow := by
  refine fun i h srcs x keep s hi ready => ⟨fun ⟨hcol, hfail, hqueue, hkeep⟩ => ?settled, fun ⟨hcol, hfail, hqueue, hkeep⟩ => ?running⟩
  case settled =>
    refine narrows_pushes (r := settled h srcs x keep) hi ready hcol hkeep hfail rfl rfl ?_ rfl
    rw [runOver_settled hqueue]
    rfl
  case running =>
    refine narrows_pushes (r := running h srcs x keep) hi ready hcol hkeep hfail rfl rfl ?_ rfl
    rw [runOver_running hqueue (domAfter_proplim ..)]
    rfl

/-! ## Failures (spec/08 R159, R160) -/

section
variable {s : State} {h : XHdr} {srcs : List Nat} {r : Fin 32}

/-- The syllable has failed: the failure's registers are written, and its push is on its way. -/
def failedAt (h : XHdr) (srcs : List Nat) (r : Fin 32) (s : State) : State :=
  ((s.xTake h (dedup srcs)).modTb (setDom (domFailed s.tb.dom r s.tb.xcycle))).xPush h 1

theorem failed_modTb (u : State) (hd : u.tb.dom = s.tb.dom) (hx : u.tb.xcycle = s.tb.xcycle) :
    u.modTb (fun b => { b with dom := u.tb.dom.failed r 0xFF 0 (some b.xcycle) }) =
      u.modTb (setDom (domFailed s.tb.dom r s.tb.xcycle)) := by
  refine modTb_const _ _ _ ?_
  show setDom (u.tb.dom.failed r 0xFF 0 (some u.tb.xcycle)) u.tb = _
  rw [hd, hx]
  rfl

theorem domInit_fails {x : DX} (hx : x.fail = some r) (keep : Option Standing) :
    (s.xTake h (dedup srcs)).domInit s h x keep =
      if s.tb.dom.failpc != 0 && s.tc.brdly == 0 then (failedAt h srcs r s).modTc fun c => c.taken s.tb.dom.failpc
      else
        ((failedAt h srcs r s).modTc fun c => { c.next with hold := 1 }).takeTrapAt s.turn.core s.turn.ctx .x 0 s.turn.word s.tc.pc 22
          (BitVec.ofNat 64 r.val) 0xFF := by
  unfold State.domInit
  rw [hx]
  dsimp only
  rw [failed_modTb (s := s) _ (xTake_dom ..) (xTake_xcycle ..), xTake_dom]
  rfl

theorem failedAt_how : (failedAt h srcs r s).turn.how = .issued := xPush_how ..

/-- A failed syllable whose column then goes on as the form says. -/
theorem xPushesAt_failed {form : XForm} (hl : ∀ q ∈ srcs, q < 9) (hh : form.hdr = h) (hs : form.srcs = srcs)
    (hr : form.upd s s.tb = setDom (domFailed s.tb.dom r s.tb.xcycle) s.tb) :
    XPushesAt 1 form s ((failedAt h srcs r s).modTc (form.col s)) := by
  subst hh hs
  exact xPushesAt_of Nat.one_ne_zero hl (takenState_dom _ hr) (xPush_modTc _ _ _ Nat.one_ne_zero _)

end

/-- A trap of the word of the turn, recorded at `pc`. -/
def trapOf (s : State) (pc : Word) (cause : Byte) (d0 d1 : DWord) : State :=
  s.takeTrapAt s.turn.core s.turn.ctx s.turn.stream s.turn.col s.turn.word pc cause d0 d1

theorem trapOf_edge {s : State} (cause : Byte) (d0 d1 : DWord) (pc : Word) (hk : s.turn.ctx.val < 2) (hu : Untraced s)
    (hn : NoExecution s) : TrapEdge cause d0 d1 s (trapOf s pc cause d0 d1) ∧ (trapOf s pc cause d0 d1).turn.how = .trapped := by
  unfold trapOf State.takeTrapAt
  dsimp only
  rw [endExec_idle hn, if_neg (by rw [hn.raised]; simp)]
  refine ⟨edge_edge { st := s.turn.stream, col := s.turn.col, word := s.turn.word, pc := pc, cause := cause, d0 := d0, d1 := d1 } hk hu
    rfl rfl rfl, ?_⟩
  unfold State.edge
  rw [dif_pos hk]
  rfl

theorem noExecution_of_agenda {s t : State} (ho : OnlyBank s t) (hdue : t.tb.dom.trapDue = s.tb.dom.trapDue) (hag : t.agenda = s.agenda)
    (hn : NoExecution s) : NoExecution t := by
  refine ⟨fun x hx ⟨hwhat, hg, hk⟩ => ?_, hdue.trans hn.raised⟩
  exact hn.due x (hag ▸ hx) ⟨hwhat, hg.trans ho.core, hk.trans ho.ctx⟩

theorem heldFor_trapped (n : Nat) {t : State} (ht : t.turn.how = .trapped) : heldFor n t = t := by
  unfold heldFor
  rw [ht]
  rfl

/-- Settles O29: a failure redirects the column to FAILPC, or takes DOMAIN_FAIL from the state it leaves. -/
theorem relationsFail : Obligations.RelationsFail := by
  refine fun i h srcs x keep r s hi ready => ⟨fun ⟨hcol, hfail, hpc, hdelay, hkeep⟩ => ?redirects,
    fun ⟨hcol, hfail, hpc, hkeep⟩ hstream hk hu hn => ?traps⟩
  case redirects =>
    obtain ⟨he, hl⟩ := narrows_exec hi ready hcol hkeep
    have hgo : (s.tb.dom.failpc != 0 && s.tc.brdly == 0) = true := by
      rw [show s.tc.brdly = 0 from hdelay]
      simpa using hpc
    have hissued : ((failedAt h srcs r s).modTc fun c => c.taken s.tb.dom.failpc).turn.how = .issued := failedAt_how (h := h) (srcs := srcs)
    refine ⟨_, he, ?_⟩
    rw [domInit_fails hfail, if_pos hgo, heldFor_issued 2 hissued, modTc_modTc]
    exact xPushesAt_failed (form := redirected h srcs x keep r) hl rfl rfl rfl
  case traps =>
    obtain ⟨he, hl⟩ := narrows_exec hi ready hcol hkeep
    have hstay : ¬ (s.tb.dom.failpc != 0 && s.tc.brdly == 0) = true := by
      rcases hpc with hpc | hdelay
      · simp [hpc]
      · simpa using fun _ : ¬ s.tb.dom.failpc = 0 => (show ¬ s.tc.brdly = 0 from hdelay)
    have hpush : XPushesAt 1 (failTraps h srcs x keep r) s ((failedAt h srcs r s).modTc ((failTraps h srcs x keep r).col s)) :=
      xPushesAt_failed hl rfl rfl rfl
    have honly := hpush.took.only
    have hword : ((failedAt h srcs r s).modTc ((failTraps h srcs x keep r).col s)).takeTrapAt s.turn.core s.turn.ctx .x 0 s.turn.word
        s.tc.pc 22 (BitVec.ofNat 64 r.val) 0xFF = trapOf ((failedAt h srcs r s).modTc ((failTraps h srcs x keep r).col s)) s.tc.pc 22
          (BitVec.ofNat 64 r.val) 0xFF := by
      unfold trapOf
      rw [honly.core, honly.ctx, honly.stream, honly.col, honly.word, hstream, show s.turn.col = 0 from hcol]
    obtain ⟨hedge, hhow⟩ := trapOf_edge (s := (failedAt h srcs r s).modTc ((failTraps h srcs x keep r).col s)) 22 (BitVec.ofNat 64 r.val) 0xFF
      s.tc.pc (honly.ctx ▸ hk) (untraced_of_only honly ((congrArg Bank.unit hpush.took.bank).trans rfl) hu)
      (noExecution_of_agenda honly ((congrArg (fun b : Bank => b.dom.trapDue) hpush.took.bank).trans rfl) hpush.agenda hn)
    refine ⟨_, he, _, hpush, ?_⟩
    rw [domInit_fails hfail, if_neg hstay]
    show TrapEdge 22 _ _ _ (heldFor 2 (((failedAt h srcs r s).modTc ((failTraps h srcs x keep r).col s)).takeTrapAt s.turn.core s.turn.ctx .x 0
      s.turn.word s.tc.pc 22 (BitVec.ofNat 64 r.val) 0xFF))
    rw [hword, heldFor_trapped 2 hhow]
    exact hedge

/-! ## The checkpoint stack (spec/08 R158, R161) -/

section
variable {s : State} {h : XHdr}

/-- An action on the stack at a depth it admits leaves the domain state that it computes. -/
theorem domStack_pushes {n : Nat} {bad : Nat → Bool} {f : DomState → DomState} {r : XForm} (ready : XReady h [] s) (hcol : Column0 s)
    (hn : n - 1 ≠ 0) (hbad : bad s.tb.dom.stack.length = false) (hh : r.hdr = h) (hs : r.srcs = [])
    (hr : r.upd s s.tb = setDom (f s.tb.dom) s.tb) (hc : r.col s = holding n) :
    ∃ t, domStack h n bad f s = .next t ∧ XPushesAt (n - 1) r s t := by
  subst hh
  have hblk : (if bad s.tb.dom.stack.length then some (s.trap 24 (BitVec.ofNat 64 s.tb.dom.stack.length) 0) else none) = none :=
    if_neg (by rw [hbad]; exact Bool.false_ne_true)
  have hset : ((s.xTake r.hdr []).modTb fun b => { b with dom := f b.dom }) = (s.xTake r.hdr []).modTb (setDom (f s.tb.dom)) := by
    refine modTb_const _ _ _ ?_
    rw [xTake_dom]
    rfl
  refine ⟨_, domIssue_ready ready hcol n (n - 1) hblk _, ?_⟩
  show XPushesAt (n - 1) r s (heldFor n (((State.modTb (s.xTake r.hdr []) _).domNext n).xPush r.hdr (n - 1)))
  rw [hset]
  have hpush := xPushesAt_dom (s := s) (r := r) hn (by rw [hs]; nofun) (f s.tb.dom) hr hc
  rw [hs] at hpush
  exact hpush

end

/-- Settles O31: each action leaves the domain state it computes; `dprop` with nothing pending leaves it as it was. -/
theorem checkpointStack : Obligations.CheckpointStack := by
  intro i n r s hi ready need
  cases hi with
  | dsave =>
    obtain ⟨hcol, hdepth⟩ := need
    rw [exec_dsave, execDsave]
    exact domStack_pushes ready hcol (by decide) (decide_eq_false (by omega)) rfl rfl rfl rfl
  | drest =>
    obtain ⟨hcol, hdepth⟩ := need
    rw [exec_drest, execDrest]
    exact domStack_pushes ready hcol (by decide) (beq_false_of_ne (by omega)) rfl rfl rfl rfl
  | ddrop =>
    obtain ⟨hcol, hdepth⟩ := need
    rw [exec_ddrop, execDdrop]
    exact domStack_pushes ready hcol (by decide) (beq_false_of_ne (by omega)) rfl rfl rfl rfl
  | dclr =>
    rw [exec_dclr, execDclr]
    exact domStack_pushes ready need (by decide) rfl rfl rfl rfl rfl
  | @dprop h =>
    obtain ⟨hcol, hbnd⟩ := need
    rw [exec_dprop, execDprop]
    refine ⟨_, domIssue_ready ready hcol 2 1 rfl _, ?_⟩
    rw [if_neg (by rw [hbnd]; exact Bool.false_ne_true), heldFor_pushes Nat.one_ne_zero rfl]
    exact xPushesAt_of Nat.one_ne_zero nofun (takenState_take rfl) rfl

/-! ## `dpick` (spec/08 R149, R154) -/

section
variable {h : XHdr} {s : State} {a : Fin 32}

theorem put_fail (x : DX) (r : Fin 32) (d : Dom) : (x.put r d).fail = x.fail := by
  unfold DX.put
  split <;> rfl

/-- A put register holds what was put. -/
theorem put_get (x : DX) (r : Fin 32) (d : Dom) : (x.put r d).d.get r = d := by
  unfold DX.put
  split
  · next hd => exact hd.symm
  · exact Vector.getElem_set_self ..

/-- Setting the domain state and delivering a result commute. -/
theorem setDom_deliver (u : State) (d : DomState) (c : Fin 4) (dst : Byte) (k : FlightKind) (v : Vec) (l : Nat) (fl : FFlags)
    (p : Option (Fin 16)) :
    (u.modTb fun b => b.deliver c dst k v l fl p).modTb (setDom d) = (u.modTb (setDom d)).modTb fun b => b.deliver c dst k v l fl p := by
  rw [modTb_modTb, modTb_modTb]
  rfl

/-- What `dpick` delivers, with the domain state that it leaves. -/
theorem dpick_delivers (d : SDst) {r : XResult} (ready : XReady h [] s) (hcol : Column0 s) (hh : r.hdr = h) (hs : r.srcs = [])
    (hv : r.dst = sdstCode d ∧ r.kind = .scalar ∧ r.val s = (domReg s a).lo.setWidth 1024 ∧ r.lat = 2 ∧ r.flags s = 0)
    (hupd : r.upd s s.tb = setDom (runOver s (domAfter s.tb.dom (picked s a) none)) s.tb) (hc : r.col s = holding 2) :
    ∃ t, exec (.dpick h d a) s = .next t ∧ XDelivers r s t := by
  subst hh
  obtain ⟨hdst, hkind, hval, hlat, hflags⟩ := hv
  have hdom : ((s.xTake r.hdr []).wrS r.hdr d (domReg s a).lo 2 fNone).tb.dom = s.tb.dom := by
    unfold State.wrS
    rw [State.tb_modTb]
    exact xTake_dom ..
  rw [exec_dpick, execDpick]
  refine ⟨_, domIssue_ready ready hcol 2 2 rfl _, ?_⟩
  show XDelivers r s (heldFor 2 (((s.xTake r.hdr []).wrS r.hdr d (domReg s a).lo 2 fNone).domInit s { r.hdr with push := none }
    (picked s a) none))
  rw [domInit_narrows (put_fail ..) hdom]
  show XDelivers r s (heldFor 2 ((((s.xTake r.hdr []).wrS r.hdr d (domReg s a).lo 2 fNone).modTb (setDom (runOver s (domAfter s.tb.dom (picked s a) none)))).domNext 2))
  rw [heldFor_issued 2 rfl, domNext_holding, State.wrS, setDom_deliver]
  have hu := takenState_dom (s := s) (r := r.toXForm) _ hupd
  rw [hs] at hu
  refine xDelivers_of (by rw [hs]; nofun) hu ?_
  rw [hdst, hkind, hval, hlat, hflags, hc]
  rfl

theorem pickSettled_delivers (d : SDst) (ready : XReady h [] s) (need : (pickSettled h d a).need s) :
    ∃ t, exec (.dpick h d a) s = .next t ∧ XDelivers (pickSettled h d a) s t := by
  obtain ⟨hcol, hqueue⟩ := need
  refine dpick_delivers (r := pickSettled h d a) d ready hcol rfl rfl ⟨rfl, rfl, rfl, rfl, rfl⟩ ?_ rfl
  rw [runOver_settled hqueue]
  rfl

theorem pickRunning_delivers (d : SDst) (ready : XReady h [] s) (need : (pickRunning h d a).need s) :
    ∃ t, exec (.dpick h d a) s = .next t ∧ XDelivers (pickRunning h d a) s t := by
  obtain ⟨hcol, hqueue⟩ := need
  refine dpick_delivers (r := pickRunning h d a) d ready hcol rfl rfl ⟨rfl, rfl, rfl, rfl, rfl⟩ ?_ rfl
  rw [runOver_running hqueue (domAfter_proplim ..)]
  rfl

theorem wake_d (d : DomState) (c : Option Nat) (r : Nat) : (d.wake c r).d = d.d := by
  refine foldl_keeps (p := DomState.d) (fun d e => ?_) _ d
  split <;> rfl

theorem commit_d (d : DomState) (c : Option Nat) (x : DX) : (d.commit c x).d = x.d :=
  foldl_keeps (p := DomState.d) (fun d r => wake_d d c r) _ _

/-- Whatever the pick wakes, its register is its least member alone. -/
theorem domReg_picked {t : State} (b : Bank) (bnd : Bool) (drun : BitVec 16) (run : Option DomRun)
    (ht : t.tb = xParts { b with dom := { domAfter s.tb.dom (picked s a) none with bnd := bnd, drun := drun, run := run } } t.tb) :
    domReg t a = Dom.singleton (domReg s a).lo := by
  have hd : t.tb.dom.d = (picked s a).d := (congrArg (fun b : Bank => b.dom.d) ht).trans (commit_d ..)
  unfold domReg
  rw [hd]
  exact put_get _ _ _

end

/-- Settles O30: the least member is delivered, and the run over what the pick wakes is due. -/
theorem pickGuesses : Obligations.PickGuesses :=
  fun _ d _ _ ready => ⟨pickSettled_delivers d ready, pickRunning_delivers d ready⟩

/-- Settles O54: both forms of the pick complete, by whether it wakes an entry. -/
theorem dpickCompletes : Obligations.DpickCompletes := by
  intro h d a s ready hcol
  by_cases hqueue : (domAfter s.tb.dom (picked s a) none).queue = []
  · obtain ⟨t, he, hd⟩ := pickSettled_delivers d ready ⟨hcol, hqueue⟩
    exact ⟨t, he, hd.took.issued, domReg_picked _ _ _ _ hd.took.bank, hd.flight, hd.took.only.memory⟩
  · obtain ⟨t, he, hd⟩ := pickRunning_delivers d ready ⟨hcol, hqueue⟩
    exact ⟨t, he, hd.took.issued, domReg_picked _ _ _ _ hd.took.bank, hd.flight, hd.took.only.memory⟩

end Sys2Proof.Machine

/-! SUPPORT. The exact intersection of a domain register with a set (spec/00 R9, spec/08 R140). -/
namespace Sys2Proof.Machine
open Sys2Proof Sys2Proof.Claims

/-! ## Bit masks built one bit after another -/

theorem upTo_eq_range' (lo n : Nat) : upTo lo n = List.range' lo n := by
  induction n generalizing lo with
  | zero => rfl
  | succ n ih => rw [upTo, ih, List.range'_succ]

/-- The mask of the positions below n that meet p. -/
def maskOf (p : Nat → Bool) (n : Nat) : Nat := (upTo 0 n).foldl (fun w k => if p k then w + 2 ^ k else w) 0

theorem maskOf_succ (p : Nat → Bool) (n : Nat) : maskOf p (n + 1) = if p n then maskOf p n + 2 ^ n else maskOf p n := by
  unfold maskOf
  rw [upTo_snoc, List.foldl_append, Nat.zero_add]
  rfl

theorem maskOf_lt (p : Nat → Bool) (n : Nat) : maskOf p n < 2 ^ n := by
  induction n with
  | zero => exact Nat.one_pos
  | succ n ih =>
    rw [maskOf_succ, Nat.pow_succ]
    split <;> omega

theorem testBit_maskOf (p : Nat → Bool) (n k : Nat) : (maskOf p n).testBit k = (decide (k < n) && p k) := by
  induction n with
  | zero => exact Nat.zero_testBit k
  | succ n ih =>
    have hlt := maskOf_lt p n
    rw [maskOf_succ]
    rcases Nat.lt_trichotomy k n with hk | rfl | hk
    · rw [decide_eq_true (Nat.lt_succ_of_lt hk)]
      rw [decide_eq_true hk] at ih
      split
      · rw [Nat.add_comm, Nat.testBit_two_pow_add_gt hk, ih]
      · exact ih
    · rw [decide_eq_true (Nat.lt_succ_self k)]
      split
      · next hp => rw [Nat.add_comm, Nat.testBit_two_pow_add_eq, Nat.testBit_lt_two_pow hlt, hp]; rfl
      · next hp => rw [Nat.testBit_lt_two_pow hlt, Bool.eq_false_iff.2 hp]; rfl
    · rw [decide_eq_false (by omega)]
      refine Nat.testBit_lt_two_pow (Nat.lt_of_lt_of_le ?_ (Nat.pow_le_pow_right Nat.two_pos (Nat.succ_le_of_lt hk)))
      rw [← maskOf_succ]
      exact maskOf_lt p (n + 1)

/-! ## The register of a set -/

section
variable {m h : Int} {mem : Int → Bool}

/-- The members of [m, h] that meet `mem`, every value from m + 64 on being one. -/
def members (m h : Int) (mem : Int → Bool) : Set Int := { x | m ≤ x ∧ x ≤ h ∧ (m + 64 ≤ x ∨ mem x = true) }

/-- The register whose least and greatest members are lo and hi. -/
def domBetween (m : Int) (mem : Int → Bool) (lo hi : Int) : Dom :=
  { lo := BitVec.ofInt 32 lo, hi := BitVec.ofInt 32 hi
    win := BitVec.ofNat 64 (maskOf (fun k => decide (lo + (k : Int) ≤ hi) && (decide (m + 64 ≤ lo + (k : Int)) || mem (lo + (k : Int)))) 64) }

/-- The positions of the members of the window. -/
def windowMembers (m h : Int) (mem : Int → Bool) : List Nat :=
  (upTo 0 64).filter fun k => decide (m + (k : Int) ≤ h) && mem (m + (k : Int))

theorem mem_windowMembers {k : Nat} : k ∈ windowMembers m h mem ↔ k < 64 ∧ m + (k : Int) ≤ h ∧ mem (m + (k : Int)) = true := by
  unfold windowMembers
  rw [List.mem_filter, mem_upTo, Bool.and_eq_true, decide_eq_true_eq]
  exact and_congr_left fun _ => ⟨fun hk => hk.2.trans_eq (Nat.zero_add 64), fun hk => ⟨Nat.zero_le k, hk.trans_eq (Nat.zero_add 64).symm⟩⟩

theorem windowMembers_sorted : (windowMembers m h mem).Pairwise (· < ·) := by
  unfold windowMembers
  rw [upTo_eq_range']
  exact (List.pairwise_lt_range' (s := 0) (n := 64)).filter _

theorem member_of_window {k : Nat} (hk : k ∈ windowMembers m h mem) : m + (k : Int) ∈ members m h mem := by
  obtain ⟨-, hle, hmem⟩ := mem_windowMembers.1 hk
  exact ⟨by omega, hle, .inr hmem⟩

/-- A member stands in the window or beyond it. -/
theorem window_or_tail {x : Int} (hx : x ∈ members m h mem) :
    (∃ k ∈ windowMembers m h mem, x = m + (k : Int)) ∨ m + 64 ≤ x := by
  obtain ⟨hm, hh, hmem⟩ := hx
  by_cases ht : m + 64 ≤ x
  · exact .inr ht
  · have hcast : m + ((x - m).toNat : Int) = x := by omega
    refine .inl ⟨(x - m).toNat, mem_windowMembers.2 ⟨by omega, by omega, ?_⟩, hcast.symm⟩
    rw [hcast]
    exact hmem.resolve_left ht

theorem isLeast_window {k : Nat} {l : List Nat} (hk : windowMembers m h mem = k :: l) : IsLeast (members m h mem) (m + (k : Int)) := by
  have hfirst : k ∈ windowMembers m h mem := hk ▸ List.mem_cons_self
  obtain ⟨hk64, -, -⟩ := mem_windowMembers.1 hfirst
  refine ⟨member_of_window hfirst, fun x hx => ?_⟩
  rcases window_or_tail hx with ⟨j, hj, rfl⟩ | ht
  · have hsorted := windowMembers_sorted (m := m) (h := h) (mem := mem)
    rw [hk] at hj hsorted
    rcases List.mem_cons.1 hj with rfl | hj
    · exact le_refl _
    · have := (List.pairwise_cons.1 hsorted).1 j hj
      omega
  · omega

theorem isLeast_tail (hk : windowMembers m h mem = []) (ht : m + 64 ≤ h) : IsLeast (members m h mem) (m + 64) := by
  refine ⟨⟨by omega, ht, .inl (le_refl _)⟩, fun x hx => ?_⟩
  rcases window_or_tail hx with ⟨j, hj, rfl⟩ | ht
  · rw [hk] at hj
    exact nomatch hj
  · exact ht

theorem isGreatest_tail (ht : m + 64 ≤ h) : IsGreatest (members m h mem) h :=
  ⟨⟨by omega, le_refl _, .inl ht⟩, fun _ hx => hx.2.1⟩

theorem isGreatest_window {k : Nat} {l : List Nat} (hk : windowMembers m h mem = k :: l) (ht : ¬ m + 64 ≤ h) :
    IsGreatest (members m h mem) (m + (((windowMembers m h mem).getLast?.getD 0 : Nat) : Int)) := by
  have hne : windowMembers m h mem ≠ [] := by rw [hk]; exact List.cons_ne_nil _ _
  rw [List.getLast?_eq_some_getLast hne, Option.getD_some]
  refine ⟨member_of_window (List.getLast_mem hne), fun x hx => ?_⟩
  rcases window_or_tail hx with ⟨j, hj, rfl⟩ | hx'
  · have hsorted := windowMembers_sorted (m := m) (h := h) (mem := mem)
    rw [← List.dropLast_append_getLast hne, List.pairwise_append] at hsorted
    rw [← List.dropLast_append_getLast hne, List.mem_append, List.mem_singleton] at hj
    rcases hj with hj | rfl
    · have := hsorted.2.2 j hj _ (List.mem_singleton_self _)
      omega
    · exact le_refl _
  · have := hx.2.1
    omega

/-- `domOfMem` answers the register of its members, and none when there are none. -/
theorem domOfMem_spec :
    (domOfMem m h mem = none ∧ members m h mem = ∅) ∨
      ∃ lo hi, domOfMem m h mem = some (domBetween m mem lo hi) ∧ IsLeast (members m h mem) lo ∧ IsGreatest (members m h mem) hi := by
  have hdom : domOfMem m h mem =
      (match windowMembers m h mem with
        | k :: _ => some (m + (k : Int))
        | [] => if decide (m + 64 ≤ h) then some (m + 64) else none).map fun lo =>
      domBetween m mem lo (if decide (m + 64 ≤ h) then h else m + (((windowMembers m h mem).getLast?.getD 0 : Nat) : Int)) := by
    unfold domOfMem
    dsimp only
    have hks : ((upTo 0 64).filter fun k : Nat => decide (m + (k : Int) ≤ h) && mem (m + (k : Int))) = windowMembers m h mem := rfl
    rw [hks]
    cases windowMembers m h mem with
    | nil => cases decide (m + 64 ≤ h) <;> rfl
    | cons k l => rfl
  rw [hdom]
  cases hk : windowMembers m h mem with
  | nil =>
    by_cases ht : m + 64 ≤ h
    · refine .inr ⟨m + 64, h, ?_, isLeast_tail hk ht, isGreatest_tail ht⟩
      simp [ht]
    · refine .inl ⟨by simp [ht], Set.eq_empty_iff_forall_notMem.2 fun x hx => ?_⟩
      rcases window_or_tail hx with ⟨j, hj, -⟩ | hx'
      · rw [hk] at hj
        exact nomatch hj
      · exact ht (hx'.trans hx.2.1)
  | cons k l =>
    have hlo := isLeast_window hk
    by_cases ht : m + 64 ≤ h
    · refine .inr ⟨m + k, h, ?_, hlo, isGreatest_tail ht⟩
      simp [ht]
    · refine .inr ⟨m + k, _, ?_, hlo, isGreatest_window hk ht⟩
      simp [ht, hk]

/-! ## What the register of a set holds -/

variable {lo hi : Int}

/-- Bit k of the window stands for the member lo + k. -/
theorem win_domBetween (hlo : IsLeast (members m h mem) lo) (hhi : IsGreatest (members m h mem) hi) (k : Nat) :
    (domBetween m mem lo hi).win.getLsbD k = true ↔ k < 64 ∧ lo + (k : Int) ∈ members m h mem := by
  have hm := hlo.1.1
  have hle := hhi.1.2.1
  unfold domBetween
  dsimp only
  rw [BitVec.getLsbD_ofNat, testBit_maskOf]
  simp only [Bool.and_eq_true, Bool.or_eq_true, decide_eq_true_eq]
  constructor
  · rintro ⟨hk, -, hin, hmem⟩
    exact ⟨hk, by omega, by omega, hmem⟩
  · rintro ⟨hk, hin⟩
    exact ⟨hk, hk, hhi.2 hin, hin.2.2⟩

variable (hmin : -(2 ^ 31) ≤ m) (hmax : h < 2 ^ 31)
include hmin hmax

theorem toInt_of_member {x : Int} (hx : x ∈ members m h mem) : (BitVec.ofInt 32 x).toInt = x := by
  obtain ⟨hm, hh, -⟩ := hx
  rw [BitVec.toInt_ofInt]
  exact Int.bmod_eq_of_le (by omega) (by omega)

theorem domHas_domBetween (hlo : IsLeast (members m h mem) lo) (hhi : IsGreatest (members m h mem) hi) (x : Int) :
    domHas (domBetween m mem lo hi) x ↔ x ∈ members m h mem := by
  have hwin := win_domBetween hlo hhi
  have hm := hlo.1.1
  have hle := hhi.1.2.1
  unfold domHas
  rw [show (domBetween m mem lo hi).lo.toInt = lo from toInt_of_member hmin hmax hlo.1,
    show (domBetween m mem lo hi).hi.toInt = hi from toInt_of_member hmin hmax hhi.1, hwin]
  constructor
  · rintro ⟨hx, hx', hbit⟩
    by_cases hw : x ≤ lo + 63
    · have := (hbit hw).2
      rwa [show lo + ((x - lo).toNat : Int) = x by omega] at this
    · exact ⟨by omega, by omega, .inl (by omega)⟩
  · intro hx
    have hleast := hlo.2 hx
    refine ⟨hleast, hhi.2 hx, fun hw => ⟨by omega, ?_⟩⟩
    rwa [show lo + ((x - lo).toNat : Int) = x by omega]

theorem canonical_domBetween (hlo : IsLeast (members m h mem) lo) (hhi : IsGreatest (members m h mem) hi) :
    Canonical (domBetween m mem lo hi) := by
  have hwin := win_domBetween hlo hhi
  have hlohi := hlo.2 hhi.1
  have elo : (domBetween m mem lo hi).lo.toInt = lo := toInt_of_member hmin hmax hlo.1
  have ehi : (domBetween m mem lo hi).hi.toInt = hi := toInt_of_member hmin hmax hhi.1
  refine ⟨by omega, (hwin 0).2 ⟨by omega, by simpa using hlo.1⟩, fun hspan => ?greatest, fun hspan k hk => ?above⟩
  case greatest =>
    rw [elo, ehi] at hspan ⊢
    refine (hwin _).2 ⟨by omega, ?_⟩
    rw [show lo + ((hi - lo).toNat : Int) = hi by omega]
    exact hhi.1
  case above =>
    rw [elo, ehi] at hk
    refine Bool.eq_false_iff.2 fun hbit => ?_
    have := hhi.2 ((hwin k).1 hbit).2
    omega

end

theorem ISet.mem_iff (s : ISet) (x : Int) :
    s.mem x = true ↔ s.lo ≤ x ∧ x ≤ s.hi ∧ (s.lo + 64 ≤ x ∨ s.mask.testBit (x - s.lo).toNat = true) := by
  simp only [ISet.mem, Bool.and_eq_true, Bool.or_eq_true, decide_eq_true_eq, and_assoc]

/-- The members of an intersection are the common members. -/
theorem members_inter (d : Dom) (s : ISet) (x : Int) :
    x ∈ members (max d.lo.toInt s.lo) (min d.hi.toInt s.hi) (fun x => d.set.mem x && s.mem x) ↔ domHas d x ∧ s.mem x = true := by
  rw [← domHas_iff_mem_set]
  unfold members
  rw [Set.mem_ofPred_eq, Bool.and_eq_true]
  have hd : d.set.lo = d.lo.toInt ∧ d.set.hi = d.hi.toInt := ⟨rfl, rfl⟩
  constructor
  · rintro ⟨hm, hh, htail | hmem⟩
    · exact ⟨(ISet.mem_iff _ _).2 ⟨by omega, by omega, .inl (by omega)⟩, (ISet.mem_iff _ _).2 ⟨by omega, by omega, .inl (by omega)⟩⟩
    · exact hmem
  · intro hmem
    obtain ⟨hset, hset', -⟩ := (ISet.mem_iff _ _).1 hmem.1
    obtain ⟨hs, hs', -⟩ := (ISet.mem_iff _ _).1 hmem.2
    exact ⟨by omega, by omega, .inr hmem⟩

/-- Settles O27: the register holds the members of the two sets' common range, whose least and greatest it names. -/
theorem narrowIsExact : Obligations.NarrowIsExact := by
  intro d s hd
  have hmin : -(2 ^ 31) ≤ max d.lo.toInt s.lo := le_max_of_le_left (by have := d.lo.le_toInt; omega)
  have hmax : min d.hi.toInt s.hi < 2 ^ 31 := lt_of_le_of_lt (min_le_left _ _) (by have := d.hi.toInt_lt; omega)
  have hmembers := members_inter d s
  unfold Dom.inter
  dsimp only
  rcases domOfMem_spec (m := max d.lo.toInt s.lo) (h := min d.hi.toInt s.hi) (mem := fun x => d.set.mem x && s.mem x) with
    ⟨hnone, hempty⟩ | ⟨lo, hi, hsome, hlo, hhi⟩
  · have hnone' : domOfMem (max d.set.lo s.lo) (min d.set.hi s.hi) (fun x => d.set.mem x && s.mem x) = none := hnone
    rw [hnone']
    exact fun x hx => Set.notMem_empty x (hempty ▸ (hmembers x).2 hx)
  · have hsome' : domOfMem (max d.set.lo s.lo) (min d.set.hi s.hi) (fun x => d.set.mem x && s.mem x) = _ := hsome
    rw [hsome']
    exact ⟨canonical_domBetween hmin hmax hlo hhi, fun x => (domHas_domBetween hmin hmax hlo hhi x).trans (hmembers x)⟩

end Sys2Proof.Machine

/-! SUPPORT. The arithmetic of stream A, and its branches, jumps and loops (spec/10 R194, spec/06 R114-R118). -/
namespace Sys2Proof.Machine
open Sys2Proof Sys2Proof.Claims

/-! ## The model's 64-bit values are the formulas of the statements -/

theorem shr64_eq (a b : DWord) : a >>> b.toNat = if 64 ≤ b.toNat then 0 else a >>> b.toNat := by
  split
  · next h => exact BitVec.ushiftRight_eq_zero h
  · rfl

theorem sra64_eq (a b : DWord) : a.sshiftRight b.toNat = BitVec.ofInt 64 (a.toInt / 2 ^ (min b.toNat 63)) := by
  have hlo := a.le_toInt
  have hhi := a.toInt_lt
  norm_num at hlo hhi
  apply BitVec.eq_of_toInt_eq
  rw [BitVec.toInt_sshiftRight, Int.shiftRight_eq_div_pow, BitVec.toInt_ofInt]
  have hbounds (n : Nat) : -9223372036854775808 ≤ a.toInt / 2 ^ n ∧ a.toInt / 2 ^ n < 9223372036854775808 := by
    have hp : (0 : Int) < 2 ^ n := by positivity
    have hp1 : (1 : Int) ≤ 2 ^ n := hp
    exact ⟨Int.le_ediv_of_mul_le hp (by nlinarith), Int.ediv_lt_of_lt_mul hp (by nlinarith)⟩
  have hcap : a.toInt / ((2 ^ b.toNat : Nat) : Int) = a.toInt / 2 ^ (min b.toNat 63) := by
    push_cast
    by_cases hb : b.toNat ≤ 63
    · rw [Nat.min_eq_left hb]
    · rw [Nat.min_eq_right (by omega)]
      have hle : (2 : Int) ^ 64 ≤ 2 ^ b.toNat := pow_le_pow_right₀ (by norm_num) (by omega)
      norm_num at hle
      by_cases hn : a.toInt < 0
      · rw [show a.toInt / 2 ^ 63 = -1 by norm_num; omega]
        exact Int.ediv_eq_neg_one_of_neg_of_le hn (by omega)
      · rw [show a.toInt / 2 ^ 63 = 0 by norm_num; omega]
        exact Int.ediv_eq_zero_of_lt (by omega) (by omega)
  obtain ⟨h1, h2⟩ := hbounds (min b.toNat 63)
  rw [hcap, Int.bmod_eq_of_le (by norm_num; exact h1) (by norm_num; exact h2)]

theorem lesser64_eq (u : Bool) (a b : DWord) : (if (if u then b.ult a else b.slt a) then b else a) = lesser64 u a b := by
  unfold lesser64
  cases u
  · simp only [Bool.false_eq_true, if_false, BitVec.slt_eq_decide, decide_eq_true_eq, ← not_le, ite_not]
  · simp only [if_true, BitVec.ult_eq_decide, decide_eq_true_eq, ← not_le, ite_not]

theorem greater64_eq (u : Bool) (a b : DWord) : (if (if u then a.ult b else a.slt b) then b else a) = greater64 u a b := by
  unfold greater64
  cases u
  · simp only [Bool.false_eq_true, if_false, BitVec.slt_eq_decide, decide_eq_true_eq, ← not_le, ite_not]
  · simp only [if_true, BitVec.ult_eq_decide, decide_eq_true_eq, ← not_le, ite_not]

theorem bfx64_eq (sx : Bool) (w : Nat) (a p : DWord) : bfx64 sx w a p = fieldOf64 sx (w + 1) a p := by
  unfold bfx64 fieldOf64 field
  rw [Nat.shiftRight_eq_div_pow, Nat.add_sub_cancel]

theorem ofNat_shiftLeft (w n k : Nat) : BitVec.ofNat w (n <<< k) = BitVec.ofNat w n <<< k := by
  apply BitVec.eq_of_toNat_eq
  rw [BitVec.toNat_shiftLeft, BitVec.toNat_ofNat, BitVec.toNat_ofNat, Nat.shiftLeft_eq, Nat.shiftLeft_eq, Nat.mod_mul_mod]

theorem lih_eq (x : DWord) (i : BitVec 16) (k : Nat) :
    setBits x (16 * k) 16 i.toNat = (x &&& ~~~((0xFFFF : DWord) <<< (16 * k))) ||| (i.setWidth 64 <<< (16 * k)) := by
  unfold setBits
  dsimp only
  rw [ofNat_shiftLeft, ofNat_shiftLeft, Nat.mod_eq_of_lt i.isLt, BitVec.ofNat_toNat]
  rfl

/-- A word with one result, whose value is the one its form names. -/
theorem aResult_gives {h : AHdr} {d : Fin 32} {srcs : List (Fin 32)} {lat : Nat} {f v : State → DWord} {s : State}
    (ready : AReady h.wait h.push srcs [d] [] s) (hv : f = v) :
    ∃ t, aResult h d srcs lat f s = .next t ∧ ARetires (aGives h d srcs lat v) s s t :=
  hv ▸ aResult_retires ready

/-- Settles O32: each word gives one result, whose value the rules write otherwise. -/
theorem arithmeticWords : Obligations.ArithmeticWords := by
  intro i r s hi ready _
  cases hi with
  | aAdd => rw [exec_aAdd, execAAdd]; exact aResult_retires ready
  | aSub => rw [exec_aSub, execASub]; exact aResult_retires ready
  | aAnd => rw [exec_aAnd, execAAnd]; exact aResult_retires ready
  | aOr => rw [exec_aOr, execAOr]; exact aResult_retires ready
  | aXor => rw [exec_aXor, execAXor]; exact aResult_retires ready
  | aShl => rw [exec_aShl, execAShl]; exact aResult_gives ready (by simp only [decide_eq_true_eq])
  | aShr => rw [exec_aShr, execAShr]; exact aResult_gives ready (funext fun _ => shr64_eq _ _)
  | aSra => rw [exec_aSra, execASra]; exact aResult_gives ready (funext fun _ => sra64_eq _ _)
  | aMul => rw [exec_aMul, execAMul]; exact aResult_retires ready
  | aMin => rw [exec_aMin, execAMin]; exact aResult_gives ready (funext fun _ => lesser64_eq _ _ _)
  | aMax => rw [exec_aMax, execAMax]; exact aResult_gives ready (funext fun _ => greater64_eq _ _ _)
  | aBfx => rw [exec_aBfx, execABfx]; exact aResult_gives ready (funext fun _ => bfx64_eq _ _ _ _)
  | aAddi => rw [exec_aAddi, execAAddi]; exact aResult_retires ready
  | aAndi => rw [exec_aAndi, execAAndi]; exact aResult_retires ready
  | aLi => rw [exec_aLi, execALi]; exact aResult_retires ready
  | aLih => rw [exec_aLih, execALih]; exact aResult_gives ready (funext fun _ => lih_eq _ _ _)

/-! ## Branches, jumps, loops (spec/06 R114-R118) -/

section
variable {r : AForm} {s t : State}

theorem nextId_of_owes {u : State} (h : AOwes r s u t) (hid : (r.upd s (movedOn r.size s.tb)).nextId = s.tb.nextId) :
    t.tb.nextId = s.tb.nextId := (congrArg Bank.nextId h.took.bank).trans hid

theorem unit_of_owes {u : State} (h : AOwes r s u t) (hunit : (r.upd s (movedOn r.size s.tb)).unit = s.tb.unit) :
    t.tb.unit = s.tb.unit := (congrArg Bank.unit h.took.bank).trans hunit

/-- An outcome enters the branch-outcome queue, whose place is poppable four cycles later. -/
theorem owes_outcome (h : AOwes r s s t) (o : Bool) {r' : AForm} (hid : (r.upd s (movedOn r.size s.tb)).nextId = s.tb.nextId)
    (hplan : r.plan = fun s => s) (hr' : r' = { r with upd := r'.upd, plan := r'.plan }) (hplan' : r'.plan = poppable 8)
    (hupd : r'.upd s (movedOn r.size s.tb) = outcome o (r.upd s (movedOn r.size s.tb))) : AOwes r' s s (t.pushOutcome o) := by
  have hput := h.upd (outcome o) (fun _ => rfl) (fun _ _ => rfl) { r with upd := r'.upd } rfl rfl rfl rfl hupd rfl rfl
  have hcount := hput.count (fun b => { b with pa := b.pa + 1 }) fun _ => rfl
  have hplace : (t.modTb fun b => { b.reserveAX 8 (if o then 1 else 0) with pa := b.pa + 1 }) =
      (t.modTb (outcome o)).modTb fun b => { b with pa := b.pa + 1 } := by
    rw [modTb_modTb]
    rfl
  unfold State.pushOutcome
  rw [hplace]
  refine hcount.schedule 4 .queueEntryPoppable _ r' hr' ?_ (by rw [hplan])
  show (r'.plan s).agenda = ((r.plan s).schedule 4 _ _).agenda
  rw [hplan, hplan', h.took.only.core, h.took.only.ctx, nextId_of_owes h hid]
  rfl

/-- A taken branch. -/
theorem owes_jumped (h : AOwes r s s t) (tgt : Word) {r' : AForm} (hr' : r' = { r with upd := r'.upd, need := r'.need })
    (hupd : r'.upd s (movedOn r.size s.tb) = jumped s.tb tgt (r.upd s (movedOn r.size s.tb))) :
    AOwes r' s s (t.aTaken s.tb tgt) :=
  h.upd (jumped s.tb tgt) (fun _ => rfl) (fun _ _ => rfl) r' (by rw [hr']) (by rw [hr']) (by rw [hr']) (by rw [hr']) hupd (by rw [hr'])
    (by rw [hr'])

/-- A form that differs in what it asks and that says the same of the bank otherwise. -/
theorem owes_same {u : State} (h : AOwes r s u t) {r' : AForm} (hr' : r' = { r with upd := r'.upd, need := r'.need })
    (hupd : r'.upd s (movedOn r.size s.tb) = r.upd s (movedOn r.size s.tb)) : AOwes r' s u t := by
  have hbank := h.took.bank
  rw [← hupd] at hbank
  rw [hr']
  exact ⟨⟨h.took.only, h.took.issued, hbank, h.took.queues, h.took.wait, h.took.ready⟩, h.tokens, h.agenda⟩

theorem aTraceBr_untraced (ho : OnlyBank s t) (hunit : t.tb.unit = s.tb.unit) (hn : NoTrace s) (pc tgt : Word) :
    t.aTraceBr pc tgt = t := by
  have hpart : t.tb.part = s.tb.part := by unfold Bank.part; rw [hunit]
  have htrace : (t.part t.tb.part).trcBr = false := by
    rw [hpart, ho.state]
    exact hn.1
  unfold State.aTraceBr
  rw [htrace]
  rfl

end

/-- The outcome of a branch is pushed in every mode but the plain one. -/
def pushesOutcome (m : BrMod) (o : State → Bool) (s : State) (b : Bank) : Bank := if m = .branch then b else outcome (o s) b

theorem plan_branches (h : AHdr) (m : BrMod) (a b : Fin 32) (disp : BitVec 12) (c : DWord → DWord → Bool) (u : State) :
    ((branches h m a b disp c).plan u).cycle = u.cycle ∧ ((branches h m a b disp c).plan u).turn = u.turn := by
  unfold branches
  dsimp only
  split <;> exact ⟨rfl, rfl⟩

theorem branch_retires {h : AHdr} {m : BrMod} {a b : Fin 32} {disp : BitVec 12} {s : State} {f c : DWord → DWord → Bool}
    (hf : f = c) (ready : AReady h.wait h.push [a, b] [] (if m = .branch then [] else [8]) s) (hn : NoTrace s) :
    ∃ t, aBranch f h m a b disp s = .next t ∧ ARetires (branches h m a b disp c) s s t := by
  subst hf
  have htake := (aTake_owes s h.wait h.push [a, b] [] (if m = .branch then [] else [8]) 1).needs NoTrace
  have hpush : AOwes { branches h m a b disp f with upd := pushesOutcome m (fun s => f (s.rA a) (s.rA b)) } s s
      (if m = .branch then s.aTake h.wait h.push [a, b] 1 else (s.aTake h.wait h.push [a, b] 1).pushOutcome (f (s.rA a) (s.rA b))) := by
    by_cases hm : m = .branch
    · subst hm
      exact htake
    · rw [if_neg hm]
      refine owes_outcome htake (f (s.rA a) (s.rA b)) rfl rfl rfl ?_ ?_
      · exact funext fun u => if_neg hm
      · exact if_neg hm
  have hgo : AOwes (branches h m a b disp f) s s
      (let t := if m = .branch then s.aTake h.wait h.push [a, b] 1 else (s.aTake h.wait h.push [a, b] 1).pushOutcome (f (s.rA a) (s.rA b))
       if f (s.rA a) (s.rA b) && m != .q then (t.aTraceBr s.tb.apc (s.tb.apc + disp.signExtend 32)).aTaken s.tb (s.tb.apc + disp.signExtend 32)
       else t) := by
    dsimp only
    have hcond : (f (s.rA a) (s.rA b) && m != .q) = true ↔ f (s.rA a) (s.rA b) = true ∧ m ≠ .q := by
      rw [Bool.and_eq_true, bne_iff_ne]
    by_cases htaken : f (s.rA a) (s.rA b) = true ∧ m ≠ .q
    · rw [if_pos (hcond.2 htaken), aTraceBr_untraced hpush.took.only (unit_of_owes hpush (by unfold pushesOutcome; dsimp only; split <;> rfl)) hn]
      exact owes_jumped hpush _ rfl (if_pos htaken)
    · rw [if_neg (mt hcond.1 htaken)]
      exact owes_same hpush rfl (if_neg htaken)
  have hplan := plan_branches h m a b disp f s
  unfold aBranch
  simp only [beq_iff_eq]
  exact ⟨_, aWord_ready ready rfl _, hgo.retire hplan.1 (by rw [hplan.2]) (by rw [hplan.2])⟩

/-- A jump without a link. -/
theorem jump_retires {h : AHdr} {srcs : List (Fin 32)} {tgt : State → Word} {s : State} (ret : Bool)
    (ready : AReady h.wait h.push srcs [] [] s) (hn : NoTrace s) :
    ∃ t, aJump h srcs none tgt ret s = .next t ∧ ARetires (jumps h srcs tgt) s s t := by
  have htake := aTake_owes s h.wait h.push srcs [] [] 1
  have hquiet : (if ret then (s.aTake h.wait h.push srcs 1).traceAt (s.aTake h.wait h.push srcs 1).turn.core (s.aTake h.wait h.push srcs 1).turn.ctx 0 0 4 s.tb.apc ((tgt s).setWidth 64) 0
      else (s.aTake h.wait h.push srcs 1).aTraceBr s.tb.apc (tgt s)) = s.aTake h.wait h.push srcs 1 := by
    cases ret with
    | true => exact traceAt_untraced hn.2 htake.took.only (unit_of_owes htake rfl) ..
    | false => exact aTraceBr_untraced htake.took.only (unit_of_owes htake rfl) hn ..
  unfold aJump
  refine ⟨_, aWord_ready ready rfl _, ?_⟩
  show ARetires _ s s (State.retirePush (State.aTaken (if ret then _ else _) _ _) _)
  rw [hquiet]
  exact (owes_jumped (r' := jumps h srcs tgt) htake (tgt s) rfl rfl).retire rfl rfl rfl

/-- A call leaves the word after it in its register. -/
theorem call_retires {h : AHdr} {d : Fin 32} {disp : BitVec 21} {s : State} (ready : AReady h.wait h.push [] [d] [] s) (hn : NoTrace s) :
    ∃ t, execACall h d disp s = .next t ∧
      ARetires
        { aGives h d [] 1 (fun s => (s.tb.apc + 1).setWidth 64) with
          need := NoTrace
          upd := fun s b => jumped s.tb (s.tb.apc + disp.signExtend 32) (aPut d ((s.tb.apc + 1).setWidth 64) b) } s s t := by
  have htake := aTake_owes s h.wait h.push [] [d] [] 1
  have hlink := htake.put (lat := 1) (v := fun s => (s.tb.apc + 1).setWidth 64) (nextId_of_owes htake rfl) rfl
  have hplan := plan_turn h d [] 1 (fun s => (s.tb.apc + 1).setWidth 64) s
  unfold execACall aJump
  refine ⟨_, aWord_ready ready rfl _, ?_⟩
  show ARetires _ s s (State.retirePush (State.aTaken (State.wrA (State.aTraceBr _ _ _) _ _ _) _ _) _)
  rw [aTraceBr_untraced htake.took.only (unit_of_owes htake rfl) hn]
  refine (owes_jumped hlink (s.tb.apc + disp.signExtend 32) rfl ?_).retire hplan.1 ?_ ?_
  · rfl
  · exact congrArg Turn.core hplan.2
  · exact congrArg Turn.ctx hplan.2

theorem openAt_opens (pc count disp : Word) : LoopReg.openAt pc count disp = opens pc count disp := by
  unfold LoopReg.openAt opens
  split
  · rfl
  · rfl

/-- A word whose effect is one change of its bank. -/
theorem bank_retires {h : AHdr} {srcs : List (Fin 32)} {s : State} {f g : Bank → Bank} {r : AForm} {blk : State → Option State} {eff : State → State}
    (ready : AReady h.wait h.push srcs [] [] s) (hb : blk s = none) (hg : ∀ b, g b = aParts (g b) b) (hp : ∀ b n, g (aParts b n) = aParts (g b) n)
    (hr : r = { wait := h.wait, push := h.push, srcs := srcs, upd := r.upd, need := r.need })
    (hupd : r.upd s (movedOn 1 s.tb) = g (movedOn 1 s.tb)) (hf : f = g)
    (he : eff (s.aTake h.wait h.push srcs 1) = ((s.aTake h.wait h.push srcs 1).modTb f).retirePush h.push) :
    ∃ t, aWord h srcs [] [] blk eff s = .next t ∧ ARetires r s s t := by
  have howes := (aTake_owes s h.wait h.push srcs [] [] 1).upd g hg hp r (by rw [hr]) (by rw [hr]) (by rw [hr]) (by rw [hr]) hupd (by rw [hr]) (by rw [hr])
  have hplan : r.plan s = s := by rw [hr]
  have hpush : r.push = h.push := by rw [hr]
  refine ⟨_, aWord_ready ready hb _, ?_⟩
  have hret := howes.retire (by rw [hplan]) (by rw [hplan]) (by rw [hplan])
  rw [hpush] at hret
  rw [he, hf]
  exact hret

/-- Without a push nothing is owed and nothing is on its way. -/
theorem tokensSent_of_owed {wait : Option (Fin 16)} {b b' : Bank} (h : TokensOwed wait none b b') : TokensSent wait none b b' :=
  fun f => (h f).trans (by simp)

/-- `fin` ends the stream, and the unit completes when it was the last. -/
theorem fin_retires {s : State} (ready : AReady none none [] [] [] s) :
    ∃ t, execAFin s = .next t ∧ ARetires { upd := fun _ => ends, plan := endsUnit } s s t := by
  have htake := aTake_owes s none none [] [] [] 1
  have hends := htake.upd ends (fun _ => rfl) (fun _ _ => rfl) { upd := fun _ => ends } rfl rfl rfl rfl rfl rfl rfl
  have hleft : ((s.aTake none none [] 1).modTb ends).tb.left = s.tb.left - 1 := (congrArg Bank.left hends.took.bank).trans rfl
  have hmod : ((s.aTake none none [] 1).modTb fun b => { b with aEnded := true }).modTb (fun b => { b with left := b.left - 1 }) =
      (s.aTake none none [] 1).modTb ends := by
    rw [modTb_modTb]
    rfl
  have hcond : (decide (((s.aTake none none [] 1).modTb ends).tb.left = 0) && s.turn.ctx.val != 2) = true ↔
      s.tb.left - 1 = 0 ∧ s.turn.ctx.val ≠ 2 := by
    rw [hleft, Bool.and_eq_true, decide_eq_true_eq, bne_iff_ne]
  have hend : (((s.aTake none none [] 1).modTb fun b => { b with aEnded := true }).streamEnd s.turn.core s.turn.ctx) =
      if s.tb.left - 1 = 0 ∧ s.turn.ctx.val ≠ 2 then
        ((s.aTake none none [] 1).modTb ends).schedule 0 .unitCompletion (EvArgs.at s.turn.core s.turn.ctx)
      else (s.aTake none none [] 1).modTb ends := by
    refine Eq.trans ?_ (if_congr hcond rfl rfl)
    rw [← hmod]
    rfl
  refine ⟨_, aWord_ready ready rfl _, ?_⟩
  show ARetires _ s s (((s.aTake none none [] 1).modTb fun b => { b with aEnded := true }).streamEnd s.turn.core s.turn.ctx)
  rw [hend]
  by_cases hlast : s.tb.left - 1 = 0 ∧ s.turn.ctx.val ≠ 2
  · rw [if_pos hlast]
    have hdue := hends.schedule 0 .unitCompletion (EvArgs.at s.turn.core s.turn.ctx) { upd := fun _ => ends, plan := endsUnit } rfl
      (congrArg State.agenda (if_pos hlast)) rfl
    exact ⟨hdue.took, tokensSent_of_owed hdue.tokens, hdue.agenda⟩
  · rw [if_neg hlast]
    exact ⟨⟨hends.took.only, hends.took.issued, hends.took.bank, hends.took.queues, hends.took.wait, hends.took.ready⟩, tokensSent_of_owed hends.tokens,
      hends.agenda.trans (congrArg State.agenda (if_neg hlast)).symm⟩

/-- Settles O33: each word goes where its form says. -/
theorem branchWords : Obligations.BranchWords := by
  intro i r s hi ready need
  cases hi with
  | beq => rw [exec_beq, execBeq]; exact branch_retires rfl ready need
  | bne => rw [exec_bne, execBne]; exact branch_retires rfl ready need
  | blt => rw [exec_blt, execBlt]; exact branch_retires (by funext x y; exact BitVec.slt_eq_decide) ready need
  | bge => rw [exec_bge, execBge]; exact branch_retires (by funext x y; exact BitVec.sle_eq_decide) ready need
  | bltu => rw [exec_bltu, execBltu]; exact branch_retires (by funext x y; exact BitVec.ult_eq_decide) ready need
  | bgeu => rw [exec_bgeu, execBgeu]; exact branch_retires (by funext x y; exact BitVec.ule_eq_decide) ready need
  | jmp => rw [exec_jmp, execJmp]; exact jump_retires false ready need
  | aJr => rw [exec_aJr, execAJr]; exact jump_retires false ready need
  | aRet => rw [exec_aRet, execARet]; exact jump_retires true ready need
  | aCall => rw [exec_aCall]; exact call_retires ready need
  | @aLoop h l a k =>
    rw [exec_aLoop, execALoop]
    refine bank_retires (g := setLoop l (opens s.tb.apc ((s.rA a).setWidth 32) (k.setWidth 32))) ready rfl ?_ ?_ rfl rfl ?_ rfl
    · intro b; unfold setLoop; split <;> rfl
    · intro b n; unfold setLoop; split <;> rfl
    · rw [openAt_opens]; rfl
  | @aPause h n =>
    rw [exec_aPause, execAPause]
    exact bank_retires (g := pauses (n.setWidth 12)) ready rfl (fun _ => rfl) (fun _ _ => rfl) rfl rfl rfl rfl
  | aFin => rw [exec_aFin]; exact fin_retires ready

end Sys2Proof.Machine

/-! SUPPORT. The accesses of stream A: global accesses, the scratchpad, and the bytes a store leaves (spec/10 R183, R195-R198, spec/12
R238-R254). -/
namespace Sys2Proof.Machine
open Sys2Proof Sys2Proof.Claims

/-! ## Global accesses -/

section
variable {s t : State}

/-- Forms that say the same of the bank but for what every word may change. -/
theorem owes_parts {r r' : AForm} {u : State} (h : AOwes r s u t) (hr' : r' = { r with upd := r'.upd, need := r'.need })
    (hupd : ∀ n, aParts (r'.upd s (movedOn r.size s.tb)) n = aParts (r.upd s (movedOn r.size s.tb)) n) : AOwes r' s u t := by
  have hbank := h.took.bank
  rw [← hupd] at hbank
  rw [hr']
  exact ⟨⟨h.took.only, h.took.issued, hbank, h.took.queues, h.took.wait, h.took.ready⟩, h.tokens, h.agenda⟩

/-- A change of what counts the bank's queue traffic. -/
theorem owes_counted {r : AForm} {u : State} (h : AOwes r s u t) (f : Bank → Bank) (hf : ∀ b, f b = { b with qa := (f b).qa }) :
    AOwes r s u (t.modTb f) := by
  have e : (t.modTb f).tb = f t.tb := State.tb_modTb _ _
  refine ⟨⟨h.took.only.modTb _, h.took.issued, ?_, ?_, ?_, ?_⟩, ?_, h.agenda⟩
  · rw [e, hf]
    have := h.took.bank
    generalize t.tb = b at this ⊢
    rw [this]
    rfl
  · intro q hq; rw [e, hf]; exact h.took.queues q hq
  · rw [e, hf]; exact h.took.wait
  · rw [e, hf]; exact h.took.ready
  · intro g; rw [e, hf]; exact h.tokens g

theorem semRel_eq (m : Sem) : semRel m = decide (m = .rel ∨ m = .ar) := by cases m <;> rfl
theorem semAcq_eq (m : Sem) : semAcq m = decide (m = .acq ∨ m = .ar) := by cases m <;> rfl

end

section
variable {h : AHdr} {cls : Fin 8} {s : State}

theorem load_sent {acq : Bool} {ty : ATy} {d a i : Fin 32} {off : BitVec 8} (ready : AReady h.wait h.push [a, i] [d] [] s)
    (need : GlobalOk false none false (atySize ty) (addr a i off (atySize ty) s) s) :
    ∃ n t, aGlobal h [a, i] [d] [] cls false none false acq (atySize ty) (fun s => s.aAddr a i off (atySize ty)) false (atySize ty)
        (fun _ => .load (atySize ty)) (fun t => t.loadDst d (atySize ty) (atySigned ty)) s = .next t ∧
      s.oneWay s.turn.core (addr a i off (atySize ty) s) ≤ n ∧ AOwes ((loads h cls acq ty d a i off).form n) s s.useFree t :=
  global_returns (loads h cls acq ty d a i off) rfl ready need rfl (fun _ => rfl) rfl

theorem store_sent {rel : Option Scope} {ty : ATy} {d a i : Fin 32} {off : BitVec 8} (ready : AReady h.wait h.push [d, a, i] [] [] s)
    (need : GlobalOk true rel false (atySize ty) (addr a i off (atySize ty) s) s) :
    ∃ n t, aGlobal h [d, a, i] [] [] cls true rel false false (atySize ty) (fun s => s.aAddr a i off (atySize ty)) true (atySize ty)
        (fun s => .store (leBytes (atySize ty) (s.rA d).toNat)) (fun t => (t, .none)) s = .next t ∧
      s.oneWay s.turn.core (addr a i off (atySize ty) s) ≤ n ∧ AOwes ((stores h cls rel ty d a i off).form n) s s.useFree t := by
  refine global_plain (stores h cls rel ty d a i off) rfl ready need rfl (fun _ => ?_) rfl
  exact congrArg some (leBytes_length _ _)

theorem atomic_sent {op : AtomOp} {w : Bool} {m : Sem} {d a v : Fin 32}
    (ready : AReady h.wait h.push ([a, v] ++ if op == .cas then [d] else []) [d] [] s)
    (need : (atomic op h cls w m d a v).need s) :
    ∃ n t, aAtomic op h cls w m d a v s = .next t ∧ s.oneWay s.turn.core (s.rA a).toNat ≤ n ∧
      AOwes ((atomic op h cls w m d a v).form n) s s.useFree t := by
  unfold aAtomic
  rw [semRel_eq, semAcq_eq]
  exact global_returns (atomic op h cls w m d a v) rfl ready need rfl (fun _ => rfl) rfl

theorem reduction_sent {op : AtomOp} {w rel : Bool} {a v : Fin 32} (ready : AReady h.wait h.push [a, v] [] [] s)
    (need : (reduces op h cls w rel a v).need s) :
    ∃ n t, aReduce op h cls w rel a v s = .next t ∧ s.oneWay s.turn.core (s.rA a).toNat ≤ n ∧
      AOwes ((reduces op h cls w rel a v).form n) s s.useFree t := by
  unfold aReduce
  exact global_plain (reduces op h cls w rel a v) rfl ready need rfl (fun _ => rfl) rfl

end

/-! ### Words that reserve a queue entry, and those with more to do -/

section
variable {h : AHdr} {cls : Fin 8} {s : State}

/-- A global load of a queue. -/
theorem queue_sent {a i : Fin 32} {off : BitVec 8} {n port : Nat} (ready : AReady h.wait h.push [a, i] [] [port] s)
    (need : GlobalOk false none false n (addr a i off n s) s) :
    ∃ m t, aGlobal h [a, i] [] [port] cls false none false false n (fun s => s.aAddr a i off n) false n (fun _ => .load n)
        (fun t => (t.modTb fun b => { b.reserveAX port 0 with pa := b.pa + 1 }, .queue (Fin.ofNat 8 port) t.tb.nextId false)) s = .next t ∧
      s.oneWay s.turn.core (addr a i off n s) ≤ m ∧
      AOwes (Access.form
        { hdr := h, srcs := [a, i], extra := [port], cls := cls, va := addr a i off n, range := some n, body := fun _ => .load n
          need := fun s => GlobalOk false none false n (addr a i off n s) s, dst := landsAt port } m) s s.useFree t := by
  obtain ⟨m, htravel, howes⟩ := access_queue (s := s)
    { hdr := h, srcs := [a, i], extra := [port], cls := cls, va := addr a i off n, range := some n, body := fun _ => .load n
      need := fun s => GlobalOk false none false n (addr a i off n s) s, dst := landsAt port } port false rfl rfl (fun _ _ => rfl) (fun _ _ _ => rfl)
  refine ⟨m, _, aWord_ready ready (gBlock_none need) _, htravel, ?_⟩
  dsimp only
  rw [aliasNote_off (take_quiet need.quiet)]
  rw [modTb_id] at howes
  exact howes

/-- An access whose place needs nothing of the bank. -/
theorem access_at (r : Access) (d : ADst) (hd : r.dst = fun b => (b, d)) (hr : (r.op s d).range.map (fun x => x.2) = r.range)
    (hl1 : ∀ n b, r.last s n b = aParts (r.last s n b) b) (hl2 : ∀ k b n, r.last s k (aParts b n) = aParts (r.last s k b) n) :
    ∃ n, s.oneWay s.turn.core (r.va s) ≤ n ∧ AOwes (r.form n) s s.useFree
      (((s.aTake r.hdr.wait r.hdr.push r.srcs 1).send s r.cls (r.va s) (r.body s) d r.hdr.push r.acq).modTb (r.last s (r.id s))) := by
  have htake := aTake_owes s r.hdr.wait r.hdr.push r.srcs r.dsts r.extra 1
  refine access_owes r (d := d) ?_ ?_ ?_ hr ?_ hl1 hl2
  · rw [hd]; exact htake
  · rw [hd]; exact fun _ _ => rfl
  · rw [nextId_of_owes htake rfl]
    unfold Access.id
    rw [hd]
  · exact (congrArg Bank.part htake.took.bank).trans rfl

/-- The ordered reduction, whose key takes the count of those before it. -/
def faddOrdered (h : AHdr) (cls : Fin 8) (rel : Bool) (a v : Fin 32) : Access :=
  { reduces .faddO h cls false rel a v with
    body := fun s => .atomic .faddO false (s.rA v) (s.tb.oredseq.setWidth 64) false
    need := fun s => vaOwner (s.rA a).toNat < 8 ∧ GlobalOk true (relScope rel (s.rA a).toNat) true 4 (s.rA a).toNat s
    dst := fun b => ({ b with oredseq := b.oredseq + 1 }, .none) }

theorem faddOrdered_sent {rel : Bool} {a v : Fin 32} (ready : AReady h.wait h.push [a, v] [] [] s)
    (need : (faddOrdered h cls rel a v).need s) :
    ∃ n t, execRedfaddO h cls rel a v s = .next t ∧ s.oneWay s.turn.core (s.rA a).toNat ≤ n ∧
      AOwes ((faddOrdered h cls rel a v).form n) s s.useFree t := by
  obtain ⟨howner, hok⟩ := need
  have hblk : (if canonical (s.rA a).toNat && (s.rA a).toNat % 4 == 0 && !s.tb.sealed && decide (8 ≤ vaOwner (s.rA a).toNat) &&
        s.ownerOk s.tb.part (s.rA a).toNat then some (s.trap 17 (BitVec.ofNat 64 (s.rA a).toNat) 0)
      else gBlock true (relScope rel (s.rA a).toNat) true 4 (s.rA a).toNat s) = none := by
    rw [decide_eq_false (Nat.not_le.2 howner), Bool.and_false, Bool.false_and, if_neg Bool.false_ne_true]
    exact gBlock_none hok
  have htake := aTake_owes s h.wait h.push [a, v] [] [] 1
  have hseq := htake.upd (fun b => { b with oredseq := b.oredseq + 1 }) (fun _ => rfl) (fun _ _ => rfl)
    { wait := h.wait, push := h.push, srcs := [a, v], upd := fun _ b => ((faddOrdered h cls rel a v).dst b).1 } rfl rfl rfl rfl rfl rfl rfl
  obtain ⟨n, htravel, howes⟩ := access_owes (faddOrdered h cls rel a v) (d := .none) hseq (fun _ _ => rfl) (nextId_of_owes hseq rfl) rfl
    ((congrArg Bank.part hseq.took.bank).trans rfl) (fun _ _ => rfl) (fun _ _ _ => rfl)
  unfold execRedfaddO
  refine ⟨n, _, aWord_ready ready (by exact hblk) _, htravel, ?_⟩
  dsimp only
  rw [aliasNote_off (take_quiet hok.quiet)]
  have hlast : (faddOrdered h cls rel a v).last s ((faddOrdered h cls rel a v).id s) = fun b => b := rfl
  rw [hlast, modTb_id] at howes
  exact howes

/-- The fetch of a handle, at which the stream holds. -/
def handleLoad (h : AHdr) (cls : Fin 8) (r : Fin 16) (a : Fin 32) (off : BitVec 7) : Access :=
  { hdr := h, srcs := [a], cls := cls, va := fun s => (s.rA a + off.signExtend 64 * 32).toNat, range := some 32
    body := fun _ => .load 32
    need := fun s => GlobalOk false none false 32 (s.rA a + off.signExtend 64 * 32).toNat s
    dst := fun b => (b, .handle r)
    last := fun s n b => { b with aHold := .handle n, apc := s.tb.apc, aLoop0 := s.tb.aLoop0, aLoop1 := s.tb.aLoop1 } }

theorem handleLoad_sent {r : Fin 16} {a : Fin 32} {off : BitVec 7} (ready : AReady h.wait h.push [a] [] [] s)
    (need : (handleLoad h cls r a off).need s) :
    ∃ n t, execHld h cls r a off s = .next t ∧ s.oneWay s.turn.core (s.rA a + off.signExtend 64 * 32).toNat ≤ n ∧
      AOwes ((handleLoad h cls r a off).form n) s s.useFree t := by
  obtain ⟨n, htravel, howes⟩ := access_at (s := s) (handleLoad h cls r a off) (.handle r) rfl rfl (fun _ _ => rfl) (fun _ _ _ => rfl)
  unfold execHld
  refine ⟨n, _, aWord_ready ready (gBlock_none need) _, htravel, ?_⟩
  dsimp only
  rw [aliasNote_off (take_quiet need.quiet), nextId_of_owes (aTake_owes s h.wait h.push [a] [] [] 1) rfl]
  exact howes

/-! ### Live accumulators (spec/18 R294) -/

theorem aLegal_legal {bad : Bool} (hb : bad = false) (s : State) (k : Host.Outcome State Fault Refusal) : aLegal bad s k = k := by
  rw [hb]
  rfl

/-- What a move of an accumulator asks lets it go. -/
theorem accBlock_none {fill : Bool} {sel va : Nat} {n : Fin 4} (hsel : sel < 16) (hbusy : s.accBusy s.turn.core n = false)
    (hok : GlobalOk (!fill) none false 4096 va s) :
    (if decide (16 ≤ sel) then some s.illegal
      else match gBlock (!fill) none false 4096 va s with
        | some u => some u
        | none => if s.accBusy s.turn.core n then some (s.stall wOwner 0) else none) = none := by
  rw [decide_eq_false (Nat.not_le.2 hsel), if_neg Bool.false_ne_true, gBlock_none hok, hbusy]
  rfl

/-- An issued word leaves the accumulators of its core alone. -/
theorem take_acc (w p : Option (Fin 16)) (srcs : List (Fin 32)) (k : Word) :
    ((s.aTake w p srcs k).core (s.aTake w p srcs k).turn.core).acc = (s.core s.turn.core).acc := by
  obtain ⟨honly, -⟩ := (aTake_owes s w p srcs [] [] k).took
  rw [honly.core]
  exact (congrArg Core.acc honly.rest).trans rfl

/-- An accumulator is 4 KiB. -/
theorem length_bytes (acc : Acc) : acc.bytes.length = 4096 := by
  unfold Acc.bytes
  rw [List.length_flatMap, List.map_congr_left (fun r _ => leBytes_length 128 r.toNat), List.map_const', List.sum_replicate, Vector.length_toList]
  rfl

def accSpill (h : AHdr) (a v : Fin 32) : Access :=
  { hdr := h, srcs := [a, v], cls := 0, va := fun s => (s.rA v).toNat, range := some 4096
    body := fun s => .store ((s.core s.turn.core).acc.get (Fin.ofNat 4 (s.rA a).toNat)).bytes
    need := fun s => s.turn.ctx = 2 ∧ (s.rA a).toNat < 16 ∧ (s.rA a).getLsbD 2 = false ∧
      s.accBusy s.turn.core (Fin.ofNat 4 (s.rA a).toNat) = false ∧ GlobalOk true none false 4096 (s.rA v).toNat s }

theorem accSpill_sent {a v : Fin 32} (ready : AReady h.wait h.push [a, v] [] [] s) (need : (accSpill h a v).need s) :
    ∃ n t, execCtxbank h a v s = .next t ∧ s.oneWay s.turn.core (s.rA v).toNat ≤ n ∧
      AOwes ((accSpill h a v).form n) s s.useFree t := by
  obtain ⟨hctx, hsel, hbit, hbusy, hok⟩ := need
  obtain ⟨n, htravel, howes⟩ := access_at (s := s) (accSpill h a v) .none rfl (congrArg some (length_bytes _)) (fun _ _ => rfl) (fun _ _ _ => rfl)
  unfold execCtxbank
  rw [aLegal_legal (by rw [hctx]; rfl)]
  refine ⟨n, _, aWord_ready ready (by exact accBlock_none hsel hbusy (by rw [bit, hbit]; exact hok)) _, htravel, ?_⟩
  have hlast : (accSpill h a v).last s ((accSpill h a v).id s) = fun b => b := rfl
  rw [hlast, modTb_id] at howes
  rw [bit, hbit, if_neg Bool.false_ne_true, take_acc]
  exact howes

def accFill (h : AHdr) (a v : Fin 32) (n : Fin 4) (i32 : Bool) : Access :=
  { hdr := h, srcs := [a, v], cls := 0, va := fun s => (s.rA v).toNat, range := some 4096, body := fun _ => .load 4096
    need := fun s => s.turn.ctx = 2 ∧ (s.rA a).toNat < 16 ∧ (s.rA a).getLsbD 2 = true ∧
      n = Fin.ofNat 4 (s.rA a).toNat ∧ i32 = (s.rA a).getLsbD 3 ∧ s.accBusy s.turn.core n = false ∧
      GlobalOk false none false 4096 (s.rA v).toNat s
    dst := fun b => (b, .acc n i32), last := fun _ n b => { b with aHold := .handle n } }

theorem accFill_sent {a v : Fin 32} {n : Fin 4} {i32 : Bool} (ready : AReady h.wait h.push [a, v] [] [] s)
    (need : (accFill h a v n i32).need s) :
    ∃ m t, execCtxbank h a v s = .next t ∧ s.oneWay s.turn.core (s.rA v).toNat ≤ m ∧
      AOwes ((accFill h a v n i32).form m) s s.useFree t := by
  obtain ⟨hctx, hsel, hbit, hn, hi32, hbusy, hok⟩ := need
  obtain ⟨m, htravel, howes⟩ := access_at (s := s) (accFill h a v n i32) (.acc n i32) rfl rfl (fun _ _ => rfl) (fun _ _ _ => rfl)
  unfold execCtxbank
  rw [aLegal_legal (by rw [hctx]; rfl)]
  subst hn
  refine ⟨m, _, aWord_ready ready (by exact accBlock_none hsel hbusy (by rw [bit, hbit]; exact hok)) _, htravel, ?_⟩
  rw [bit, hbit, if_pos rfl, nextId_of_owes (aTake_owes s h.wait h.push [a, v] [] [] 1) rfl, bit, ← hi32]
  exact howes

/-! ### Handle accesses (spec/10 R197, R198) -/

/-- With `aliasMode` off the elements of a word are not noted. -/
theorem elemAlias_off {pc : Word} {sp wr : Bool} {l : List LaneSpec} {t : State}
    (hoff : (t.part (t.bank t.turn.core t.turn.ctx).part).aliasMode = false) : t.elemAlias pc cls sp wr l = t := by
  unfold State.elemAlias
  induction l with
  | nil => rfl
  | cons x l ih => rw [List.foldl_cons, aliasNote_off hoff]; exact ih

/-- A state with other dies. -/
def withDies (f : Vector Die 8 → Vector Die 8) (s : State) : State := { s with dies := f s.dies }

/-- One record in the provenance log of a die. -/
def recorded (d : Fin 8) (ds : Vector Die 8) (r : BitVec 256) : Vector Die 8 :=
  ds.set d.val (if decide ((ds.get d).prov.length < 65536) then
      { ds.get d with prov := (ds.get d).prov ++ [r], provTail := (ds.get d).provTail + 1 }
    else { ds.get d with provDrop := if (ds.get d).provDrop == BitVec.allOnes 32 then (ds.get d).provDrop else (ds.get d).provDrop + 1 }) d.isLt

/-- The record of an event of an access of stream A. -/
def accessRecord (g : Fin 512) (p : Fin 8) (sfc : BitVec 48) (pc : Word) (fmt : Nat) (x : PEvent × Nat) : BitVec 256 :=
  provBits sfc.toNat ((dieOf g).val - p.val) 0 (inDie g) pc.toNat x.1.kind 0xFF (fmt * 16) 0 x.1.row.toNat x.1.col.toNat x.1.i 0 +
    BitVec.ofNat 256 (x.2 * 2 ^ 208)

def accessRecorded (g : Fin 512) (p : Fin 8) (sfc : BitVec 48) (pc : Word) (fmt : Nat) (ev : List PEvent) (ds : Vector Die 8) : Vector Die 8 :=
  (firstKinds ev).foldl (fun ds x => recorded (dieOf g) ds (accessRecord g p sfc pc fmt x)) ds

/-- The events of an access change the logs of its die only. -/
theorem provAccess_eq (g : Fin 512) (k : Fin 3) (sfc : BitVec 48) (pc : Word) (fmt : Nat) (ev : List PEvent) (t : State) :
    t.provAccess g k sfc pc fmt ev = withDies (accessRecorded g (t.bank g k).part sfc pc fmt ev) t := by
  unfold State.provAccess accessRecorded
  generalize (t.bank g k).part = p
  dsimp only
  induction firstKinds ev generalizing t with
  | nil => rfl
  | cons x l ih => rw [List.foldl_cons, ih]; rfl

theorem onlyBank_withDies {t : State} (f : Vector Die 8 → Vector Die 8) (h : OnlyBank s t) : OnlyBank (withDies f s) (withDies f t) := by
  obtain ⟨hstate, hcore, hctx, hstream, hcol, hword, hcores, hrest, hbanks⟩ := h
  exact ⟨by unfold withDies; rw [hstate], hcore, hctx, hstream, hcol, hword, hcores, hrest, hbanks⟩

/-- What an access sends does not depend on the dies. -/
theorem send_withDies (f : Vector Die 8 → Vector Die 8) (t : State) (va : Nat) (body : AccBody) (dst : ADst) (push : Option (Fin 16)) (acq : Bool) :
    (withDies f t).send s cls va body dst push acq = withDies f (t.send s cls va body dst push acq) := by
  unfold State.send State.digestNote
  dsimp only
  by_cases hload : body.isLoad = true
  · rw [if_pos hload, if_pos hload]; rfl
  · rw [if_neg hload, if_neg hload]
    by_cases hrec : (t.part t.tb.part).rpMode = 0
    · rw [if_pos hrec, if_pos (by exact hrec)]; rfl
    · rw [if_neg hrec, if_neg (by exact hrec)]; rfl

/-- The checks of a handle load. -/
theorem lddBlock_none {sp : Bool} {hs : Fin 16} {k : DWord} (hok : QuantOk sp false cls hs k s) :
    (match quantBlock sp cls hs false k s s with
      | some u => some u
      | none => elemBlock sp false cls (s.quantSpecs sp hs k) s) = none := by
  rw [hok.handle]
  exact hok.elements

/-- The checks of a handle store. -/
theorem stzBlock_none {sp : Bool} {q : Fin 4} {hs : Fin 16} {k : DWord} (hhead : headReady (s.tb.qXA (4 + q.val)) = true)
    (hok : QuantOk sp true cls hs k s) :
    (if !headReady (s.tb.qXA (4 + q.val)) then some (s.stall 3 (BitVec.ofNat 64 ((8 + (4 + q.val)) * 2 ^ 32)))
      else if !sp && s.tb.sealed then some (s.trap 19 0 0)
      else match quantBlock sp cls hs true k s s with
        | some u => some u
        | none => elemBlock sp true cls (s.quantSpecs sp hs k) s) = none := by
  have hseal : (!sp && s.tb.sealed) = false := by
    cases sp
    · rw [hok.unsealed rfl rfl]; rfl
    · rfl
  rw [hhead, hseal, Bool.not_true, if_neg Bool.false_ne_true, if_neg Bool.false_ne_true, hok.handle]
  exact hok.elements

def gatherLoad (h : AHdr) (cls : Fin 8) (q : Fin 4) (hs : Fin 16) (k : Fin 32) : Access :=
  { hdr := h, srcs := [k], extra := [4 + q.val], cls := cls
    va := fun s => firstVa (s.quantSpecs false hs (s.rA k)), range := none
    body := fun s => .gather (s.quantSpecs false hs (s.rA k)), need := fun s => QuantOk false false cls hs (s.rA k) s
    dst := landsAt (4 + q.val) }

theorem gatherLoad_sent {q : Fin 4} {hs : Fin 16} {k : Fin 32} (ready : AReady h.wait h.push [k] [] [4 + q.val] s)
    (need : (gatherLoad h cls q hs k).need s) :
    ∃ n t, execLdd h cls false q hs k s = .next t ∧ s.oneWay s.turn.core (firstVa (s.quantSpecs false hs (s.rA k))) ≤ n ∧
      AOwes ((gatherLoad h cls q hs k).form n) s s.useFree t := by
  obtain ⟨n, htravel, howes⟩ := access_queue (s := s) (gatherLoad h cls q hs k) (4 + q.val) false rfl rfl (fun _ _ => rfl) (fun _ _ _ => rfl)
  unfold execLdd
  refine ⟨n, _, aWord_ready ready (by exact lddBlock_none need) _, htravel, ?_⟩
  have hlast : (gatherLoad h cls q hs k).last s ((gatherLoad h cls q hs k).id s) = fun b => b := rfl
  rw [hlast, modTb_id] at howes
  dsimp only
  rw [elemAlias_off (take_quiet need.quiet), if_neg Bool.false_ne_true]
  exact howes

def scatterStore (h : AHdr) (cls : Fin 8) (q : Fin 4) (hs : Fin 16) (k : Fin 32) : Access :=
  { hdr := h, srcs := [k], cls := cls, va := fun s => firstVa (s.quantSpecs false hs (s.rA k)), range := none
    body := fun s => .scatter (s.quantSpecs false hs (s.rA k)) (quantParts false q hs (s.rA k) s)
    need := fun s => headReady (s.tb.qXA (4 + q.val)) = true ∧ QuantOk false true cls hs (s.rA k) s
    dst := fun b => (b.popXA (4 + q.val), .none), base := fun s => quantNoted false q hs (s.rA k) s }

/-- A pop of a vector queue changes that queue and what counts the traffic. -/
theorem popXA_vector (q : Fin 4) (b : Bank) :
    b.popXA (4 + q.val) = { b with qvXA := b.qvXA.set q.val (b.qXA (4 + q.val)).tail, qa := b.qa + 1 } := by
  have hset : b.setQXA (4 + q.val) (b.qXA (4 + q.val)).tail = { b with qvXA := b.qvXA.set q.val (b.qXA (4 + q.val)).tail } := by
    unfold Bank.setQXA
    rw [dif_neg (by omega : ¬ 4 + q.val < 4), dif_pos (by omega : 4 + q.val - 4 < 4)]
    generalize (b.qXA (4 + q.val)).tail = l
    have hplace : ∀ n (hn : n < 4), n = q.val → b.qvXA.set n l hn = b.qvXA.set q.val l q.isLt := by
      rintro n hn rfl
      rfl
    rw [hplace _ _ (Nat.add_sub_cancel_left 4 q.val)]
  unfold Bank.popXA
  rw [hset]

/-- A vector queue does not depend on what an issued word may change. -/
theorem qXA_vector_parts (q : Fin 4) (b n : Bank) : (aParts b n).qXA (4 + q.val) = b.qXA (4 + q.val) := by
  unfold Bank.qXA
  rw [dif_neg (by omega : ¬ 4 + q.val < 4), dif_neg (by omega : ¬ 4 + q.val < 4)]
  rfl

/-- The queue of a handle store without its head. -/
def headTaken (q : Fin 4) (b : Bank) : Bank := { b with qvXA := b.qvXA.set q.val (b.qXA (4 + q.val)).tail }

/-- The word has issued and popped the queue of its values. -/
theorem popped_owes {q : Fin 4} {k : Fin 32} {t : State} (howes : AOwes { wait := h.wait, push := h.push, srcs := [k] } s s t) :
    AOwes { wait := h.wait, push := h.push, srcs := [k], upd := fun _ b => b.popXA (4 + q.val) } s s (t.modTb fun b => b.popXA (4 + q.val)) := by
  have htaken := howes.upd (headTaken q) (fun _ => rfl) (fun b n => by unfold headTaken; rw [qXA_vector_parts]; rfl)
    { wait := h.wait, push := h.push, srcs := [k], upd := fun _ => headTaken q } rfl rfl rfl rfl rfl rfl rfl
  have hcount := owes_counted htaken (fun b => { b with qa := b.qa + 1 }) (fun _ => rfl)
  rw [modTb_modTb] at hcount
  have he : (t.modTb fun b => b.popXA (4 + q.val)) = t.modTb fun b => { headTaken q b with qa := (headTaken q b).qa + 1 } :=
    congrArg t.modTb (funext (popXA_vector q))
  have hparts (b n : Bank) : aParts (b.popXA (4 + q.val)) n = aParts (headTaken q b) n := by rw [popXA_vector]; rfl
  rw [he]
  exact owes_parts (r := { wait := h.wait, push := h.push, srcs := [k], upd := fun _ => headTaken q })
    (r' := { wait := h.wait, push := h.push, srcs := [k], upd := fun _ b => b.popXA (4 + q.val) }) hcount rfl (hparts _)

theorem part_popped {q : Fin 4} {w p : Option (Fin 16)} {srcs : List (Fin 32)} :
    ((s.aTake w p srcs 1).modTb fun b => b.popXA (4 + q.val)).part s.tb.part = s.part s.tb.part := take_part s w p srcs 1 s.tb.part

theorem tb_part_popped {q : Fin 4} {k : Fin 32} :
    ((s.aTake h.wait h.push [k] 1).modTb fun b => b.popXA (4 + q.val)).tb.part = s.tb.part := by
  refine (congrArg Bank.part (popped_owes (q := q) (aTake_owes s h.wait h.push [k] [] [] 1)).took.bank).trans ?_
  show Bank.part (Bank.popXA (movedOn 1 s.tb) (4 + q.val)) = _
  rw [popXA_vector]
  rfl

theorem quiet_popped {q : Fin 4} {k : Fin 32} {u : State} (hu : u = (s.aTake h.wait h.push [k] 1).modTb fun b => b.popXA (4 + q.val))
    (hquiet : (s.part s.tb.part).aliasMode = false) : (u.part (u.bank u.turn.core u.turn.ctx).part).aliasMode = false := by
  rw [hu, show State.bank _ _ _ = State.tb _ from rfl, tb_part_popped]
  exact (congrArg Part.aliasMode part_popped).trans hquiet

theorem scatterStore_sent {q : Fin 4} {hs : Fin 16} {k : Fin 32} (ready : AReady h.wait h.push [k] [] [] s)
    (need : (scatterStore h cls q hs k).need s) :
    ∃ n t, execStz h cls false q hs k s = .next t ∧ s.oneWay s.turn.core (firstVa (s.quantSpecs false hs (s.rA k))) ≤ n ∧
      AOwes ((scatterStore h cls q hs k).form n) s (quantNoted false q hs (s.rA k) s).useFree t := by
  obtain ⟨hhead, hok⟩ := need
  have htook := popped_owes (q := q) (aTake_owes s h.wait h.push [k] [] [] 1)
  have hid : ((s.aTake h.wait h.push [k] 1).modTb fun b => b.popXA (4 + q.val)).tb.nextId = (scatterStore h cls q hs k).id s := by
    refine (congrArg Bank.nextId htook.took.bank).trans ?_
    show (Bank.popXA (movedOn 1 s.tb) (4 + q.val)).nextId = (Bank.popXA s.tb (4 + q.val)).nextId
    rw [popXA_vector, popXA_vector]
    rfl
  obtain ⟨n, htravel, howes⟩ := access_owes (s := s) (scatterStore h cls q hs k) (d := .none) htook (fun _ _ => rfl) hid rfl tb_part_popped
       (fun _ _ => rfl) (fun _ _ _ => rfl)
  unfold execStz
  refine ⟨n, _, aWord_ready ready (by exact stzBlock_none hhead hok) _, htravel, ?_⟩
  have hlast : (scatterStore h cls q hs k).last s ((scatterStore h cls q hs k).id s) = fun b => b := rfl
  rw [hlast, modTb_id] at howes
  dsimp only
  have hturn := htook.took.only
  rw [if_neg Bool.false_ne_true, if_neg Bool.false_ne_true, elemAlias_off (quiet_popped rfl hok.quiet), provAccess_eq, send_withDies]
  unfold quantNoted
  rw [if_neg Bool.false_ne_true, List.append_nil, provAccess_eq, hturn.core, hturn.ctx]
  have hrank := tb_part_popped (s := s) (h := h) (q := q) (k := k)
  unfold State.tb at hrank
  rw [hturn.core, hturn.ctx] at hrank
  rw [hrank]
  have hnoted := howes.base (onlyBank_withDies (accessRecorded s.turn.core (s.bank s.turn.core s.turn.ctx).part (s.sfc s.tb) s.tb.apc (hFmt (s.hreg hs))
    (((quantised false q hs (s.rA k) s).filter fun y => y.2.2 != 0).map fun y => y.1.event y.2.2)) howes.took.only) rfl rfl howes.agenda
  exact hnoted

end

/-- Settles O34: each word sends its access with its place, its data and its order. -/
theorem globalAccesses : Obligations.GlobalAccesses := by
  intro i r s hi ready need
  cases hi with
  | aLd => rw [exec_aLd, execALd]; exact load_sent ready need
  | aSt => rw [exec_aSt, execASt]; exact store_sent ready need
  | lda => rw [exec_lda, execLda]; exact load_sent ready need
  | stl => rw [exec_stl, execStl]; exact store_sent ready need
  | ldqV hq =>
    rw [exec_ldq, execLdq, if_neg Bool.false_ne_true]
    unfold ldqPort
    rw [if_pos hq, if_pos hq]
    exact queue_sent ready need
  | ldqS hq =>
    rw [exec_ldq, execLdq, if_neg Bool.false_ne_true]
    unfold ldqPort
    rw [if_neg (Nat.not_lt.2 hq), if_neg (Nat.not_lt.2 hq)]
    exact queue_sent ready need
  | ldd => rw [exec_ldd]; exact gatherLoad_sent ready need
  | stz => rw [exec_stz]; exact scatterStore_sent ready need
  | aswap => rw [exec_aswap, execAswap]; exact atomic_sent ready need
  | acas => rw [exec_acas, execAcas]; exact atomic_sent ready need
  | aadd => rw [exec_aadd, execAadd]; exact atomic_sent ready need
  | aand => rw [exec_aand, execAand]; exact atomic_sent ready need
  | aor => rw [exec_aor, execAor]; exact atomic_sent ready need
  | axor => rw [exec_axor, execAxor]; exact atomic_sent ready need
  | amin => rw [exec_amin, execAmin]; exact atomic_sent ready need
  | amax => rw [exec_amax, execAmax]; exact atomic_sent ready need
  | aminu => rw [exec_aminu, execAminu]; exact atomic_sent ready need
  | amaxu => rw [exec_amaxu, execAmaxu]; exact atomic_sent ready need
  | redadd => rw [exec_redadd, execRedadd]; exact reduction_sent ready need
  | redmin => rw [exec_redmin, execRedmin]; exact reduction_sent ready need
  | redmax => rw [exec_redmax, execRedmax]; exact reduction_sent ready need
  | redand => rw [exec_redand, execRedand]; exact reduction_sent ready need
  | redor => rw [exec_redor, execRedor]; exact reduction_sent ready need
  | redxor => rw [exec_redxor, execRedxor]; exact reduction_sent ready need
  | redfaddU => rw [exec_redfaddU, execRedfaddU]; exact reduction_sent ready need
  | redfmin => rw [exec_redfmin, execRedfmin]; exact reduction_sent ready need
  | redfmax => rw [exec_redfmax, execRedfmax]; exact reduction_sent ready need
  | redfaddO => rw [exec_redfaddO]; exact faddOrdered_sent ready need
  | barc => rw [exec_barc, execBarc]; exact global_returns _ rfl ready need rfl (fun _ => rfl) rfl
  | hld => rw [exec_hld]; exact handleLoad_sent ready need
  | hst => rw [exec_hst, execHst]; exact global_plain _ rfl ready need rfl (fun _ => congrArg some (leBytes_length 32 _)) rfl
  | spill => rw [exec_ctxbank]; exact accSpill_sent ready need
  | fill => rw [exec_ctxbank]; exact accFill_sent ready need

end Sys2Proof.Machine


/-! SUPPORT. The scratchpad accesses of stream A (spec/10 R183, R195-R198). -/
namespace Sys2Proof.Machine
open Sys2Proof Sys2Proof.Claims

/-! ## Scratchpad accesses -/

section
variable {h : AHdr} {cls : Fin 8} {s t : State}

theorem spCheck_none {wr : Bool} {a n : Nat} (hok : ScratchOk wr cls a n s) : s.spCheck s.turn.core s.turn.ctx wr a n 0 = none := by
  unfold State.spCheck
  have hrange : decide (spSize < a + n) = false := decide_eq_false (Nat.not_lt.2 hok.range)
  have haligned : (a % n != 0) = false := by rw [hok.aligned]; rfl
  dsimp only
  rw [hrange, haligned, if_neg Bool.false_ne_true, if_neg Bool.false_ne_true]
  by_cases hsys : s.turn.ctx.val = 2
  · rw [if_pos hsys]
  · have hset : (if wr = true then (s.bank s.turn.core s.turn.ctx).mayWrite 0 (tileOf a) else
        (s.bank s.turn.core s.turn.ctx).mayRead 0 (tileOf a)) = true := hok.sets hsys
    have howner : (s.core s.turn.core).owned (tileOf a) = false := hok.owner hsys
    rw [if_neg hsys, hset, howner]
    rfl

theorem spWaits_none {wr : Bool} {a n : Nat} (hok : ScratchOk wr cls a n s) : s.spWaits wr cls = none := by
  have hfence : (wr && !s.relOk s.turn.core s.turn.ctx) = false := by
    cases wr
    · rfl
    · rw [hok.fence rfl]; rfl
  have horder : (s.tb.live.any fun o => o.open_ && (classOrdered o.cls cls || (s.part s.tb.part).aliasMode)) = false := by
    rw [List.any_eq_false]
    intro o ho
    rw [hok.quiet, Bool.or_false]
    rcases hok.order o ho with hdone | hfree
    · unfold AOp.open_; rw [hdone]; exact Bool.false_ne_true
    · rw [hfree, Bool.and_false]; exact Bool.false_ne_true
  unfold State.spWaits
  rw [hok.acquires, hfence, horder]
  rfl

theorem spBlock_none {wr : Bool} {a n : Nat} (hok : ScratchOk wr cls a n s) : spBlock wr cls a n s = none := by
  have hslab : (s.core s.turn.core).slabBusy s.cycle [tileOf a] = false := hok.slab
  unfold spBlock
  rw [spCheck_none hok, spWaits_none hok]
  dsimp only
  rw [hslab, if_neg Bool.false_ne_true]

/-- A word that retires n cycles later plans what its rule plans. -/
theorem owes_later {r r' : AForm} {u : State} (howes : AOwes r s u t) (n q id : Nat) (hplan : r.plan = fun s => s)
    (hr' : r' = { r with plan := r'.plan }) (hplan' : r'.plan u = endsLater n h q id u) : AOwes r' s u (t.retireLater n h.push q id) := by
  have hu : endsLater n h q id u = u.retireLater n h.push q id := rfl
  rw [hu] at hplan'
  unfold State.retireLater at hplan' ⊢
  by_cases hnone : (h.push.isNone && decide (q = 0)) = true
  · rw [if_pos hnone] at hplan' ⊢
    rw [hr']
    refine ⟨⟨howes.took.only, howes.took.issued, howes.took.bank, howes.took.queues, howes.took.wait, howes.took.ready⟩, howes.tokens, ?_⟩
    rw [howes.agenda, hplan]
    exact congrArg State.agenda hplan'.symm
  · rw [if_neg hnone] at hplan' ⊢
    refine howes.schedule n .aWordRetire _ r' hr' ?_ (by rw [hplan])
    rw [hplan', hplan, howes.took.only.core, howes.took.only.ctx]

/-- A form that takes the same and leaves the same. -/
theorem owes_form {r r' : AForm} {u : State} (howes : AOwes r s u t) (hwait : r'.wait = r.wait) (hpush : r'.push = r.push)
    (hsrcs : r'.srcs = r.srcs) (hsize : r'.size = r.size)
    (hupd : r'.upd s (movedOn r.size s.tb) = r.upd s (movedOn r.size s.tb)) (hlate : r'.late s = r.late s)
    (hplan : (r'.plan u).agenda = (r.plan u).agenda) : AOwes r' s u t := by
  have hsame := howes.upd (fun b => b) (fun _ => rfl) (fun _ _ => rfl) r' hwait hpush hsrcs hsize hupd hlate hplan
  rw [modTb_id] at hsame
  exact hsame

theorem reserveAX_parts (port : Nat) (v : Vec) (b n : Bank) :
    b.reserveAX port v = aParts (b.reserveAX port v) b ∧ (aParts b n).reserveAX port v = aParts (b.reserveAX port v) n := by
  unfold Bank.reserveAX Bank.setQAX Bank.qAX
  by_cases hscalar : port < 4
  · simp only [dif_pos hscalar]
    exact ⟨rfl, rfl⟩
  · by_cases hvector : port - 4 < 4
    · simp only [dif_neg hscalar, dif_pos hvector]
      exact ⟨rfl, rfl⟩
    · simp only [dif_neg hscalar, dif_neg hvector]
      exact ⟨rfl, rfl⟩

/-- A queue entry reserved after the word has issued. -/
theorem owes_reserved {r : AForm} {u : State} (howes : AOwes r s u t) (port : Nat) (v : Vec)
    (hupd : r.upd s (movedOn r.size s.tb) = movedOn r.size s.tb) :
    AOwes { r with upd := fun _ b => b.reserveAX port v } s u (t.modTb fun b => { b.reserveAX port v with pa := b.pa + 1 }) := by
  have hreserved := howes.upd (fun b => b.reserveAX port v) (fun b => (reserveAX_parts port v b b).1)
    (fun b n => (reserveAX_parts port v b n).2) { r with upd := fun _ b => b.reserveAX port v } rfl rfl rfl rfl
    (by rw [hupd]) rfl rfl
  have hcount := hreserved.count (fun b => { b with pa := b.pa + 1 }) fun _ => rfl
  have hpa (b : Bank) : (b.reserveAX port v).pa = b.pa := (congrArg Bank.pa (reserveAX_parts port v b b).1).trans rfl
  rw [modTb_modTb] at hcount
  simp only [hpa] at hcount
  exact hcount

theorem aPut_queue {d : Fin 32} (hd : 28 ≤ d.val) (v : DWord) (b : Bank) :
    aPut d v b = b.reserveAX (d.val - 28) ((v.setWidth 32).setWidth 1024) := by
  have hport : d.val - 28 < 4 := by omega
  unfold aPut Bank.reserveAX Bank.setQAX Bank.qAX
  simp only [dif_pos hport, dif_neg (Nat.not_lt.2 hd), if_neg (by omega : ¬ d.val = 0)]

/-- A load of a queue from the scratchpad, after its bytes have been read. -/
theorem feeds_owes {srcs : List (Fin 32)} {port : Nat} {need : State → Prop} {v : State → Vec} {x : Vec} {id : Nat} (hx : v s = x)
    (hid : id = s.tb.nextId) :
    AOwes (spFeeds h srcs port need v) s s
      (((s.aTake h.wait h.push srcs 1).modTb fun b => { b.reserveAX port x with pa := b.pa + 1 }).retireLater 6 h.push (port + 1) id) := by
  have htook := aTake_owes s h.wait h.push srcs [] [port] 1
  have hreserved := owes_reserved htook port x rfl
  have hform := owes_form hreserved (r' := { spFeeds h srcs port need v with plan := fun s => s }) rfl rfl rfl rfl (by rw [← hx]; rfl) rfl rfl
  exact owes_later hform 6 (port + 1) id rfl rfl (by rw [hid]; rfl)

/-- What a word plans whose result comes n cycles later. -/
def laterPlan (h : AHdr) (d : Fin 32) (n : Nat) (s : State) : State :=
  if d.val < 28 then endsLater n h 0 0 s else endsLater n h (d.val - 27) s.tb.nextId s

/-- A result that comes n cycles later, with the push. -/
theorem later_owes {r : AForm} {u : State} {d : Fin 32} {srcs : List (Fin 32)} {n : Nat} {v : DWord} (hn : 1 < n)
    (howes : AOwes { wait := h.wait, push := h.push, srcs := srcs, dsts := [d] } s u t) (hid : t.tb.nextId = u.tb.nextId) (hcycle : u.cycle = s.cycle)
    (hr : r = { wait := h.wait, push := h.push, srcs := srcs, dsts := [d], need := r.need, upd := r.upd, late := r.late, plan := laterPlan h d n })
    (hupd : r.upd s (movedOn 1 s.tb) = aPut d v (movedOn 1 s.tb)) (hlate : r.late s = if 0 < d.val ∧ d.val < 28 then [(d, s.cycle + n)] else []) :
    AOwes r s u (t.wrALater d v n h.push) := by
  have hwait : r.wait = h.wait := by rw [hr]
  have hpush : r.push = h.push := by rw [hr]
  have hsrcs : r.srcs = srcs := by rw [hr]
  have hsize : r.size = 1 := by rw [hr]
  have hplan : r.plan = laterPlan h d n := by rw [hr]
  have hsame : r = { ({ r with plan := fun s => s } : AForm) with plan := r.plan } := rfl
  unfold State.wrALater
  by_cases hd : d.val < 28
  · rw [if_pos hd]
    have hput := howes.put (lat := n) (v := fun _ => v) hid hcycle
    have hform := owes_form hput (r' := { r with plan := fun s => s }) hwait hpush hsrcs hsize hupd ?_ ?_
    · exact owes_later hform n 0 0 rfl hsame (by rw [hplan]; exact if_pos hd)
    · refine hlate.trans ?_
      show _ = if 0 < d.val ∧ d.val < 28 ∧ 1 < n then _ else _
      simp only [hn, and_true]
    · show u.agenda = (if 28 ≤ d.val then _ else u).agenda
      rw [if_neg (Nat.not_le.2 hd)]
  · rw [if_neg hd]
    have hreserved := owes_reserved howes (d.val - 28) ((v.setWidth 32).setWidth 1024) rfl
    have hform := owes_form hreserved (r' := { r with plan := fun s => s }) hwait hpush hsrcs hsize ?_ ?_ rfl
    · exact owes_later hform n (d.val - 27) _ rfl hsame (by rw [hplan, hid]; exact if_neg hd)
    · exact hupd.trans (aPut_queue (Nat.not_lt.1 hd) _ _)
    · refine hlate.trans ?_
      rw [if_neg (fun hlt => hd hlt.2)]

theorem spLoad_owes {ty : ATy} {d a i : Fin 32} {off : BitVec 8} (ready : AReady h.wait h.push [a, i] [d] [] s)
    (need : ScratchOk false cls (addr a i off (atySize ty) s) (atySize ty) s) :
    ∃ t, aSpLoad h cls d [a, i] (fun s => s.aAddr a i off (atySize ty)) (atySize ty) (atySigned ty) s = .next t ∧
      AOwes (spLoads h cls ty d a i off) s s t := by
  unfold aSpLoad
  refine ⟨_, aWord_ready ready (by exact spBlock_none need) _, ?_⟩
  have htook := aTake_owes s h.wait h.push [a, i] [d] [] 1
  dsimp only
  rw [aliasNote_off (take_quiet need.quiet)]
  exact later_owes (n := 6) (r := spLoads h cls ty d a i off) (by decide) htook (nextId_of_owes htook rfl) rfl rfl rfl rfl

end

section
variable {h : AHdr} {cls : Fin 8} {s : State}

/-- Bytes in the scratchpad of a core. -/
def spBytes (a : Nat) (l : List Byte) (c : Core) : Core := { c with sp := c.sp.writeBytes a l }

/-- A word that stores in the scratchpad has stored and retires. -/
theorem stored_retires {r : AForm} {t : State} (howes : AOwes r s s t) (f : Core → Core)
    (hf : ∀ (c : Core) (l : Vector Bank 3), f { c with banks := l } = { f c with banks := l }) (hplan : r.plan = fun s => s) (g : Vector Die 8 → Vector Die 8) :
    ARetires r s (withDies g (s.modCore s.turn.core f)) ((withDies g (t.modCore s.turn.core f)).retirePush r.push) := by
  have hcore := howes.core hf (fun _ => by rw [hplan])
  have hdies := hcore.base (onlyBank_withDies g hcore.took.only) rfl rfl (by rw [hplan]; have := hcore.agenda; rw [hplan] at this; exact this)
  exact hdies.retire (by rw [hplan]) (by rw [hplan]) (by rw [hplan])


/-- Bytes stored one after the other in the scratchpad of a core. -/
def spMerged (l : List (PartW × Byte × Bool)) (c : Core) : Core := l.foldl (fun c m => spBytes m.1.va [m.2.1] c) c

theorem spMerged_banks (l : List (PartW × Byte × Bool)) (c : Core) (bs : Vector Bank 3) :
    spMerged l { c with banks := bs } = { spMerged l c with banks := bs } := by
  unfold spMerged
  induction l generalizing c with
  | nil => rfl
  | cons m l ih => exact ih (spBytes m.1.va [m.2.1] c)

/-- Stores of one word are one change of its core. -/
theorem spStored_fold (l : List (PartW × Byte × Bool)) (t : State) :
    l.foldl (fun (t : State) m => spStored m.1.va [m.2.1] t) t = t.modCore t.turn.core (spMerged l) := by
  induction l generalizing t with
  | nil => exact (setCore_self t _).symm
  | cons m l ih =>
    rw [List.foldl_cons, ih]
    exact modCore_modCore t t.turn.core (spBytes m.1.va [m.2.1]) (spMerged l)

theorem spStore_retires {d a i : Fin 32} {off : BitVec 8} {ty : ATy} (ready : AReady h.wait h.push [d, a, i] [] [] s)
    (need : ScratchOk true cls (addr a i off (atySize ty) s) (atySize ty) s) :
    aSpStore h cls [d, a, i] (fun s => s.aAddr a i off (atySize ty)) (fun s => leBytes (atySize ty) (s.rA d).toNat) (atySize ty) s =
        .next (((s.aTake h.wait h.push [d, a, i] 1).modCore s.turn.core
          (spBytes (addr a i off (atySize ty) s) (leBytes (atySize ty) (s.rA d).toNat))).retirePush h.push) := by
  unfold aSpStore
  rw [aWord_ready ready (by exact spBlock_none need) _]
  dsimp only
  rw [aliasNote_off (take_quiet need.quiet)]
  rfl

theorem modTb_withDies (f : Vector Die 8 → Vector Die 8) (g : Bank → Bank) (t : State) : (withDies f t).modTb g = withDies f (t.modTb g) := rfl

theorem retireLater_withDies (f : Vector Die 8 → Vector Die 8) (n : Nat) (p : Option (Fin 16)) (q id : Nat) (t : State) :
    (withDies f t).retireLater n p q id = withDies f (t.retireLater n p q id) := by
  unfold State.retireLater
  by_cases hnone : (p.isNone && decide (q = 0)) = true
  · rw [if_pos hnone, if_pos hnone]
  · rw [if_neg hnone, if_neg hnone]; rfl

/-- The events of a handle load, recorded beside it. -/
theorem feeds_noted {srcs : List (Fin 32)} {port : Nat} {need : State → Prop} {v : State → Vec} {t : State}
    (hfeeds : AOwes (spFeeds h srcs port need v) s s t) (f : Vector Die 8 → Vector Die 8) :
    AOwes (spFeeds h srcs port need v) s (withDies f s) (withDies f t) :=
  hfeeds.base (onlyBank_withDies f hfeeds.took.only) rfl rfl
    (hfeeds.agenda.trans (congrArg State.agenda (retireLater_withDies f 6 h.push _ _ s)).symm)

/-- A load of n bytes into a queue. -/
theorem spFeed_owes {a i : Fin 32} {off : BitVec 8} {n port : Nat} (ready : AReady h.wait h.push [a, i] [] [port] s)
    (need : ScratchOk false cls (addr a i off n s) n s) :
    ∃ t, aWord h [a, i] [] [port] (spBlock false cls (s.aAddr a i off n) n)
        (fun t =>
          let v : Vec := BitVec.ofNat 1024 ((s.core s.turn.core).spRead (s.aAddr a i off n) n)
          let t := t.aliasNote t.turn.core t.turn.ctx s.tb.apc cls true false (s.aAddr a i off n) n none
          let id := t.tb.nextId
          (t.modTb fun b => { b.reserveAX port v with pa := b.pa + 1 }).retireLater 6 h.push (port + 1) id) s = .next t ∧
      AOwes (spFeeds h [a, i] port (fun s => ScratchOk false cls (addr a i off n s) n s)
        fun s => BitVec.ofNat 1024 (spValue (addr a i off n s) n s)) s s t := by
  refine ⟨_, aWord_ready ready (by exact spBlock_none need) _, ?_⟩
  dsimp only
  rw [aliasNote_off (take_quiet need.quiet)]
  exact feeds_owes rfl (nextId_of_owes (aTake_owes s h.wait h.push [a, i] [] [port] 1) rfl)

/-- A handle load decodes its elements, records their events and feeds its queue. -/
theorem spGather_owes {q : Fin 4} {hs : Fin 16} {k : Fin 32} (ready : AReady h.wait h.push [k] [] [4 + q.val] s)
    (need : QuantOk true false cls hs (s.rA k) s) :
    ∃ t, execLdd h cls true q hs k s = .next t ∧
      AOwes (spFeeds h [k] (4 + q.val) (fun s => QuantOk true false cls hs (s.rA k) s) fun s => spLanes hs (s.rA k) s) s
        (spNoted hs (s.rA k) s) t := by
  unfold execLdd
  refine ⟨_, aWord_ready ready (by exact lddBlock_none need) _, ?_⟩
  have htook := aTake_owes s h.wait h.push [k] [] [4 + q.val] 1
  have hid := nextId_of_owes htook rfl
  dsimp only
  rw [elemAlias_off (take_quiet need.quiet), if_pos rfl, provAccess_eq, modTb_withDies, retireLater_withDies]
  have hfeeds := feeds_owes (h := h) (srcs := [k]) (port := 4 + q.val) (need := fun s => QuantOk true false cls hs (s.rA k) s)
    (v := fun s => spLanes hs (s.rA k) s) (s := s) rfl hid
  have hrank := (congrArg Bank.part htook.took.bank).trans (rfl : _ = s.tb.part)
  unfold State.tb at hrank
  rw [htook.took.only.core, htook.took.only.ctx] at hrank ⊢
  rw [hrank]
  unfold spNoted
  rw [provAccess_eq]
  exact feeds_noted hfeeds _

/-- A handle store merges its elements with the scratchpad, records their events and retires. -/
theorem spScatter_retires {q : Fin 4} {hs : Fin 16} {k : Fin 32} (ready : AReady h.wait h.push [k] [] [] s)
    (hhead : headReady (s.tb.qXA (4 + q.val)) = true) (need : QuantOk true true cls hs (s.rA k) s) {r : AForm}
    (hr : r = { wait := h.wait, push := h.push, srcs := [k], need := r.need, upd := fun _ b => b.popXA (4 + q.val) }) :
    ∃ t, execStz h cls true q hs k s = .next t ∧
      ARetires r s ((quantMerged q hs (s.rA k) s).foldl (fun (t : State) m => spStored m.1.va [m.2.1] t) (quantNoted true q hs (s.rA k) s)) t := by
  unfold execStz
  refine ⟨_, aWord_ready ready (by exact stzBlock_none hhead need) _, ?_⟩
  have htook := popped_owes (q := q) (aTake_owes s h.wait h.push [k] [] [] 1)
  dsimp only
  rw [elemAlias_off (quiet_popped rfl need.quiet), provAccess_eq, if_pos rfl, if_pos rfl]
  have hrank := tb_part_popped (s := s) (h := h) (q := q) (k := k)
  unfold State.tb at hrank
  rw [htook.took.only.core, htook.took.only.ctx] at hrank ⊢
  rw [hrank]
  unfold quantNoted
  rw [provAccess_eq, if_pos rfl, spStored_fold]
  show ARetires r s _ (State.retirePush ((quantMerged q hs (s.rA k) s).foldl (fun (t : State) m => spStored m.1.va [m.2.1] t) (withDies _ _)) h.push)
  rw [spStored_fold]
  have hret := stored_retires htook (spMerged (quantMerged q hs (s.rA k) s)) (spMerged_banks _) rfl
    (accessRecorded s.turn.core (s.bank s.turn.core s.turn.ctx).part (s.sfc s.tb) s.tb.apc (hFmt (s.hreg hs))
      ((((quantised true q hs (s.rA k) s).filter fun y => y.2.2 != 0).map fun y => y.1.event y.2.2) ++
        mergeEvents (s.quantSpecs true hs (s.rA k)) (quantMerged q hs (s.rA k) s)))
  rw [hr]
  exact hret.needs r.need

end

/-- Settles O35: loads give their value six cycles later, and stores change the scratchpad of their core at once. -/
theorem scratchpadWords : Obligations.ScratchpadWords := by
  refine ⟨fun i r base s hi ready need => ?_, fun i r base s hi ready need => ?_⟩
  · cases hi with
    | aLd => rw [exec_aLd, execALd, if_pos rfl]; exact spLoad_owes ready need
    | ldqV hq =>
      rw [exec_ldq, execLdq, if_pos rfl]
      unfold ldqPort
      rw [if_pos hq, if_pos hq]
      exact spFeed_owes ready need
    | ldqS hq =>
      rw [exec_ldq, execLdq, if_pos rfl]
      unfold ldqPort
      rw [if_neg (Nat.not_lt.2 hq), if_neg (Nat.not_lt.2 hq)]
      exact spFeed_owes ready need
    | ldd => rw [exec_ldd]; exact spGather_owes ready need
  · cases hi with
    | aSt => 
      rw [exec_aSt, execASt, if_pos rfl]
      refine ⟨_, spStore_retires ready need, ?_⟩
      exact (stored_retires (aTake_owes s _ _ _ [] [] 1) (spBytes _ _) (fun _ _ => rfl) rfl (fun d => d)).needs _
    | stz => rw [exec_stz]; exact spScatter_retires ready need.1 need.2 rfl

/-! ## The bytes a store leaves -/

/-- Byte k of a number. -/
theorem getElem_leBytes (n v k : Nat) (hk : k < (leBytes n v).length) : (leBytes n v)[k] = BitVec.ofNat 8 (v / 2 ^ (8 * k)) := by
  induction n generalizing v k with
  | zero => exact absurd hk (Nat.not_lt_zero k)
  | succ n ih =>
    cases k with
    | zero => simp [leBytes]
    | succ k =>
      simp only [leBytes, List.getElem_cons_succ]
      rw [ih, Nat.div_div_eq_div_mul, Nat.mul_add, Nat.pow_add, Nat.mul_comm (2 ^ (8 * k))]

/-- A byte read after consecutive writes that covered it. -/
theorem read_writeBytes_inside (m : Memory) (a k : Nat) (l : List Byte) (hwf : m.wf = true) (hk : k < l.length) :
    (m.writeBytes a l).read (a + k) = l[k] := by
  induction l generalizing m a k with
  | nil => exact absurd hk (Nat.not_lt_zero k)
  | cons b l ih =>
    show ((m.write a b).writeBytes (a + 1) l).read (a + k) = _
    have hw := Memory.wf_write m a b hwf
    cases k with
    | zero => rw [Memory.read_writeBytes_outside _ _ _ _ hw (by omega), Memory.read_write m a _ b hwf, if_pos (Nat.add_zero a)]; rfl
    | succ k =>
      rw [show a + (k + 1) = a + 1 + k by omega, ih _ _ _ hw (by simpa using hk)]
      rfl

/-- Settles O36: the store is one change of the core's scratchpad, the canonical memory's own write. -/
theorem scratchpadStoreFrame : Obligations.ScratchpadStoreFrame := by
  intro h c ty d a i off s ready need hwf
  rw [exec_aSt, execASt, if_pos rfl]
  refine ⟨_, spStore_retires ready need, ?_⟩
  have hret := stored_retires (aTake_owes s h.wait h.push [d, a, i] [] [] 1)
    (spBytes (addr a i off (atySize ty) s) (leBytes (atySize ty) (s.rA d).toNat)) (fun _ _ => rfl) rfl (fun d => d)
  have hmem := hret.took.only.memory
  have hcore : (s.modCore s.turn.core (spBytes (addr a i off (atySize ty) s) (leBytes (atySize ty) (s.rA d).toNat))).core s.turn.core =
      spBytes (addr a i off (atySize ty) s) (leBytes (atySize ty) (s.rA d).toNat) (s.core s.turn.core) := by
    rw [State.core_modCore, if_pos rfl]
  have hsp (x : Nat) := (hmem.sp s.turn.core x).trans (congrArg (fun c : Core => c.sp.read x) hcore)
  refine ⟨fun k hk => ?_, fun x hx => ?_, fun g x hg => ?_, hmem.hbm, hmem.host⟩
  · refine (hsp _).trans ((read_writeBytes_inside _ _ k _ hwf (by rw [leBytes_length]; exact hk)).trans ?_)
    exact getElem_leBytes _ _ _ _
  · exact (hsp x).trans (Memory.read_writeBytes_outside _ _ _ _ hwf (by rw [leBytes_length]; exact hx))
  · refine (hmem.sp g x).trans (congrArg (fun c : Core => c.sp.read x) ?_)
    exact (State.core_modCore ..).trans (if_neg hg)

end Sys2Proof.Machine


/-! SUPPORT. Special registers written by stream A: the word issues whatever register it writes (spec/18 R293). -/
namespace Sys2Proof.Machine
open Sys2Proof Sys2Proof.Claims

section
variable {s : State}

/-! ## No register write changes the turn -/

theorem turn_ringPut (p : Fin 8) (get : Part → HostRing) (set : Part → HostRing → Part) (l : List Byte) :
    (s.ringPut p get set l).1.turn = s.turn := by
  unfold State.ringPut
  dsimp only
  split
  · rfl
  · exact (Coreless.turn (f := fun s => s.rawWriteN p _ l) (rawWriteN_onCores p _ l) s :)

theorem turn_traceDrain (p d : Fin 8) (l : List (BitVec 256)) : (s.traceDrain p d l).turn = s.turn := by
  induction l generalizing s with
  | nil => rfl
  | cons r l ih =>
    have hput := turn_ringPut (s := s) p (fun q => q.trc) (fun q t => { q with trc := t }) (leBytes 32 r.toNat)
    unfold State.traceDrain
    split
    next u hu => rw [ih, ← hput, hu]
    next u hu => rw [← hput, hu, State.modDie_turn]

theorem turn_traceFlush (p : Fin 8) : (s.traceFlush p).turn = s.turn :=
  foldl_keeps (p := State.turn) (fun _ _ => turn_traceDrain ..) _ s

theorem turn_writeTrcctl (p : Fin 8) (w : Word) : (s.writeTrcctl p w).turn = s.turn := by
  have hclosed : (if ((s.part p).trcOpen && !bit w 31) = true then s.traceFlush p else s).turn = s.turn := by
    split
    · exact turn_traceFlush p
    · rfl
  unfold State.writeTrcctl
  split
  · rfl
  · dsimp only
    split
    · rw [State.schedule_turn, State.unschedule_turn, State.modPart_turn, hclosed]
    · rw [State.unschedule_turn, State.modPart_turn, hclosed]

theorem turn_priSend (p : Fin 8) (l : List PageFault) : (s.priSend p l).turn = s.turn := by
  induction l generalizing s with
  | nil => rfl
  | cons f l ih =>
    unfold State.priSend
    split
    · rfl
    · dsimp only
      split
      · exact ih
      · exact ih.trans rfl

theorem turn_priRefill (p : Fin 8) : (s.priRefill p).turn = s.turn := by
  unfold State.priRefill
  split
  · rfl
  · exact turn_priSend ..

theorem turn_writeColerr (p : Fin 8) (w : Word) : (s.writeColerr p w).turn = s.turn := by
  unfold State.writeColerr
  rw [State.modPart_turn]
  refine (foldl_keeps (p := State.turn) ?_ _ _).trans rfl
  exact fun _ _ => rfl

theorem turn_mapCores (p : Fin 8) (f : Fin 512 → Core → Core) : (s.mapCores p f).turn = s.turn := by
  simp only [State.mapCores]

theorem turn_writeDbgctl (p : Fin 8) (w : Word) : (s.writeDbgctl p w).turn = s.turn := by
  unfold State.writeDbgctl
  rw [State.modPart_turn]
  split
  · exact turn_mapCores ..
  · rfl

theorem turn_writeReplayctl (p : Fin 8) (w : Word) : (s.writeReplayctl p w).turn = s.turn := by
  unfold State.writeReplayctl
  split
  · rfl
  · exact State.modPart_turn ..

theorem turn_sharedWrite (g : Fin 512) (k : Fin 3) (who : EvArgs) (n : Nat) (w : Word) : (s.sharedWrite g k who n w).turn = s.turn := by
  unfold State.sharedWrite
  dsimp only
  split
  case h_3 => exact (turn_priRefill _).trans rfl
  case h_9 => exact turn_writeColerr ..
  case h_23 => exact turn_writeDbgctl ..
  case h_27 => exact turn_writeTrcctl ..
  case h_28 => exact turn_writeReplayctl ..
  all_goals rfl

theorem turn_writeReg (n : Nat) (w : Word) : (s.writeReg n w).turn = s.turn := by
  unfold State.writeReg
  split
  · rfl
  · exact turn_sharedWrite ..

end

theorem turn_retirePush (s : State) (p : Option (Fin 16)) : (s.retirePush p).turn = s.turn := by
  unfold State.retirePush State.pushToken
  cases p <;> rfl

section
variable {h : AHdr} {a : Fin 32} {cr : BitVec 12} {s : State}

/-- A ready write of a register that the context may write. -/
theorem sysw_writes (ready : AReady h.wait h.push [a] [] [] s) (hmay : s.mayWriteReg cr.toNat = true) (hreset : s.resetBusy cr.toNat = false) :
    exec (.aSysw h a cr) s =
      .next (((s.aTake h.wait h.push [a] 1).writeReg cr.toNat ((s.rA a).setWidth 32)).retirePush h.push) := by
  rw [exec_aSysw, execASysw, aLegal_legal (by rw [hmay]; rfl)]
  exact aWord_ready ready (by rw [hreset]; rfl) _

end

/-- Settles O39: the word issues, the write is the model's own, and it retires. -/
theorem registerWriteWords : Obligations.RegisterWriteWords :=
  fun h a _ s ready hmay hreset => ⟨_, sysw_writes ready hmay hreset, ⟨_, aTake_owes s h.wait h.push [a] [] [] 1, rfl⟩⟩

/-- Settles O55: no write of a register changes how the word of the turn ended. -/
theorem asyswCompletes : Obligations.AsyswCompletes := by
  intro h a cr s ready hmay hreset
  refine ⟨_, sysw_writes ready hmay hreset, ?_⟩
  rw [turn_retirePush, turn_writeReg]
  exact (aTake_owes s h.wait h.push [a] [] [] 1).took.issued

end Sys2Proof.Machine


/-! SUPPORT. The words of stream A that retire when they issue (spec/04 R71-R73, spec/05 R95-R97, spec/10 R187-R192, spec/12
R242-R254, spec/18 R292-R295). -/
namespace Sys2Proof.Machine
open Sys2Proof Sys2Proof.Claims

/-! ## Fences, the seal, and Col barriers -/

section
variable {h : AHdr} {s : State}

theorem fenceBlock_none (hconf : AllConfirmed s) : fenceBlock s = none := by
  obtain ⟨hreplay, hops⟩ := hconf
  have hall : s.tb.ops.all (fun o => o.confirmed) = true := List.all_eq_true.2 hops
  unfold fenceBlock
  rw [hreplay, hall]
  rfl

theorem seal_retires (ready : AReady none none [] [] [] s) (hopen : s.tb.sealed = false) (hdone : AllPerformed .system s) {r : AForm}
    (hr : r = { need := r.need, upd := fun _ => seals
                plan := fun s => (s.schedule 0 .sealInputRise { EvArgs.ofPart s.tb.part with d := dieOf s.turn.core }).schedule 0 .phaseClose
                  (EvArgs.ofPart s.tb.part) }) :
    ∃ t, execSeal s = .next t ∧ ARetires r s s t := by
  have hreleased : s.released s.turn.core s.turn.ctx .system = true := hdone
  have htook := aTake_owes s none none [] [] [] 1
  have hsealed : (s.aTake none none [] 1).tb.sealed = false := (congrArg Bank.sealed htook.took.bank).trans hopen
  have hpart : (s.aTake none none [] 1).tb.part = s.tb.part := (congrArg Bank.part htook.took.bank).trans rfl
  unfold execSeal
  refine ⟨_, aWord_ready ready (by rw [hreleased, Bool.or_true]; rfl) _, ?_⟩
  dsimp only
  rw [show (s.aTake noTokens.wait noTokens.push [] 1) = s.aTake none none [] 1 from rfl, hsealed, if_neg Bool.false_ne_true, hpart]
  have hseals := htook.upd seals (fun _ => rfl) (fun _ _ => rfl) { upd := fun _ => seals } rfl rfl rfl rfl rfl rfl rfl
  have hrise := hseals.schedule 0 .sealInputRise { EvArgs.ofPart s.tb.part with d := dieOf s.turn.core }
    { upd := fun _ => seals, plan := fun s => s.schedule 0 .sealInputRise { EvArgs.ofPart s.tb.part with d := dieOf s.turn.core } } rfl rfl rfl
  have hclose := hrise.schedule 0 .phaseClose (EvArgs.ofPart s.tb.part)
    { upd := fun _ => seals
      plan := fun s => (s.schedule 0 .sealInputRise { EvArgs.ofPart s.tb.part with d := dieOf s.turn.core }).schedule 0 .phaseClose
        (EvArgs.ofPart s.tb.part) } rfl rfl rfl
  rw [hr]
  exact (hclose.retire rfl rfl rfl).needs _

theorem sealAgain_retires (ready : AReady none none [] [] [] s) (hsealed : s.tb.sealed = true) {need : State → Prop} :
    ∃ t, execSeal s = .next t ∧ ARetires { need := need } s s t := by
  have htook := aTake_owes s none none [] [] [] 1
  unfold execSeal
  refine ⟨_, aWord_ready ready (by rw [hsealed, Bool.true_or]; rfl) _, ?_⟩
  dsimp only
  rw [show (s.aTake noTokens.wait noTokens.push [] 1) = s.aTake none none [] 1 from rfl,
    (congrArg Bank.sealed htook.took.bank).trans hsealed, if_pos rfl]
  exact (htook.retire rfl rfl rfl).needs _

/-- A full acquire fence picks every access. -/
theorem fenceAcq_all (b : Bank) : b.fenceAcq (fun _ => true) = acquires outstanding b := by
  unfold Bank.fenceAcq acquires outstanding
  simp only [Bool.true_or, List.filter_true]

theorem colDone_retires {c : Nat} {blk : State → Option State} {need : State → Prop} (ready : AReady h.wait h.push [] [] [] s) (hblk : blk s = none) :
    ∃ t, aWord h [] [] [] blk (fun t => (t.colDone c).retirePush h.push) s = .next t ∧ ARetires (changes h [] need fun _ => leaves c) s s t :=
  changes_retires (g := leaves c) ready hblk (fun _ _ => rfl) (fun _ => rfl) rfl rfl

theorem colsyncBlock_none {c : Nat} (hat : s.tb.colAt = some s.tb.apc) (hover : ColOver c s) :
    (if s.tb.colAt == some s.tb.apc then colBlock c s
      else match arriveBlock c s with
        | some u => some u
        | none => some (((s.arrive c true).modTb fun x => { x with colAt := some x.apc }).stall 8 (BitVec.ofNat 64 c))) = none := by
  rw [if_pos (by rw [hat]; exact beq_self_eq_true _)]
  exact colBlock_ok hover

/-! ## System words -/

/-- SFCHI latched. -/
def latches (x : BitVec 16) (b : Bank) : Bank := { b with sfchi := x }

theorem aPut_latches (d : Fin 32) (v : DWord) (x : BitVec 16) (b : Bank) : aPut d v { b with sfchi := x } = latches x (aPut d v b) := by
  unfold aPut
  by_cases hzero : d.val = 0
  · rw [if_pos hzero, if_pos hzero]; rfl
  · rw [if_neg hzero, if_neg hzero]
    by_cases hreg : d.val < 28
    · rw [dif_pos hreg, dif_pos hreg]; rfl
    · rw [dif_neg hreg, dif_neg hreg]; rfl

/-- A result and a latched register do not meet. -/
theorem wrA_latches (x : BitVec 16) (d : Fin 32) (v : DWord) (t : State) :
    (t.modTb (latches x)).wrA d v 1 = (t.wrA d v 1).modTb (latches x) := by
  unfold State.wrA
  by_cases hzero : d.val = 0
  · rw [if_pos hzero, if_pos hzero]
  · rw [if_neg hzero, if_neg hzero]
    by_cases hreg : d.val < 28
    · rw [dif_pos hreg, dif_pos hreg, modTb_modTb, modTb_modTb]
      rfl
    · have hid : (t.modTb (latches x)).tb.nextId = t.tb.nextId := by rw [State.tb_modTb]; rfl
      have hreserve (b : Bank) : (latches x b).reserveAX (d.val - 28) ((v.setWidth 32).setWidth 1024) =
          latches x (b.reserveAX (d.val - 28) ((v.setWidth 32).setWidth 1024)) := by
        rw [← aPut_queue (Nat.not_lt.1 hreg), ← aPut_queue (Nat.not_lt.1 hreg)]
        exact aPut_latches d v x b
      rw [dif_neg hreg, dif_neg hreg, hid, modTb_modTb]
      show _ = State.schedule ((t.modTb _).modTb (latches x)) 4 .queueEntryPoppable _
      rw [modTb_modTb]
      simp only [hreserve]
      rfl

theorem sysr_retires {d : Fin 32} {cr : BitVec 12} {w : Word} (ready : AReady h.wait h.push [] [d] [] s) (hcr : cr.toNat ≠ 0x040)
    (hread : s.readReg cr.toNat = some w) {need : State → Prop} :
    ∃ t, execASysr h d cr s = .next t ∧ ARetires { aGives h d [] 1 (fun _ => w.setWidth 64) with need := need } s s t := by
  unfold execASysr
  rw [aLegal_legal (by rw [hread]; rfl)]
  obtain ⟨t, ht, hret⟩ := gives_retires (v := fun _ => w.setWidth 64) (lat := 1) (blk := noBlock) ready rfl (eff := fun t =>
    ((if cr.toNat = 0x040 then t.latchSfchi t.turn.core t.turn.ctx else t).wrA d (((s.readReg cr.toNat).getD 0).setWidth 64) 1).retirePush h.push)
    (by rw [if_neg hcr, hread]; rfl)
  exact ⟨t, ht, hret.needs _⟩

theorem sfclo_retires {d : Fin 32} {w : Word} (ready : AReady h.wait h.push [] [d] [] s)
    (hread : s.readReg 0x040 = some w) {need : State → Prop} :
    ∃ t, execASysr h d 0x040 s = .next t ∧
      ARetires { aGives h d [] 1 (fun _ => w.setWidth 64) with
        need := need, upd := fun s b => aPut d (w.setWidth 64) { b with sfchi := (s.sfc s.tb).extractLsb' 32 16 } } s s t := by
  have htook := aTake_owes s h.wait h.push [] [d] [] 1
  unfold execASysr
  rw [aLegal_legal (by rw [show (0x040 : BitVec 12).toNat = 0x040 from rfl, hread]; rfl)]
  refine ⟨_, aWord_ready ready rfl _, ?_⟩
  have hput := htook.put (v := fun _ => w.setWidth 64) (lat := 1) (nextId_of_owes htook rfl) rfl
  have hlatch := hput.upd (latches ((s.sfc s.tb).extractLsb' 32 16)) (fun _ => rfl) (fun _ _ => rfl)
    { aGives h d [] 1 (fun _ => w.setWidth 64) with
      upd := fun s b => aPut d (w.setWidth 64) { b with sfchi := (s.sfc s.tb).extractLsb' 32 16 } } rfl rfl rfl rfl (aPut_latches ..) rfl rfl
  rw [← wrA_latches] at hlatch
  have hlatched : (s.aTake h.wait h.push [] 1).latchSfchi s.turn.core s.turn.ctx =
      (s.aTake h.wait h.push [] 1).modTb (latches ((s.sfc s.tb).extractLsb' 32 16)) := by
    have hsfc : (s.aTake h.wait h.push [] 1).sfc (s.aTake h.wait h.push [] 1).tb = s.sfc s.tb := by
      unfold State.sfc
      rw [(congrArg Bank.sfcSince htook.took.bank).trans rfl, (congrArg Bank.sfcBase htook.took.bank).trans rfl, htook.took.only.cycle]
      rfl
    exact modTb_const _ _ _ (by rw [hsfc]; rfl)
  simp only [show BitVec.toNat (64 : BitVec 12) = 64 from rfl, ↓reduceIte, hread, Option.getD_some]
  rw [htook.took.only.core, htook.took.only.ctx, hlatched]
  obtain ⟨hcycle, hturn⟩ := plan_turn h d [] 1 (fun _ => w.setWidth 64) s
  exact (hlatch.retire hcycle (congrArg Turn.core hturn) (congrArg Turn.ctx hturn)).needs need

theorem ctxsw_retires {b : Fin 32} (ready : AReady h.wait h.push [b] [] [] s) (hctx : s.turn.ctx = 2) {need : State → Prop} :
    ∃ t, execCtxsw h b s = .next t ∧ ARetires (changes h [b] need fun _ b => b) s
      (s.modCore s.turn.core fun c => { c with ctxsw := some (Fin.ofNat 2 (s.rA b).toNat) }) t := by
  unfold execCtxsw
  rw [aLegal_legal (by rw [hctx]; rfl)]
  refine ⟨_, aWord_ready ready rfl _, ?_⟩
  have hcore := (aTake_owes s h.wait h.push [b] [] [] 1).core (f := fun c => { c with ctxsw := some (Fin.ofNat 2 (s.rA b).toNat) })
    (fun _ _ => rfl) fun _ => rfl
  exact (hcore.retire rfl rfl rfl).needs need

/-! ## Handles -/

theorem view_retires {d x : Fin 16} {k : Fin 32} (ready : AReady h.wait h.push [k, succReg k] [] [] s)
    (need : HandleOk x (viewBad x k) (fun s => viewed s x k) s) :
    ∃ t, execHview h d x k s = .next t ∧ ARetires (makes h d [k, succReg k] x (viewBad x k) fun s => viewed s x k) s s t := by
  unfold execHview
  refine handle_retires ready need (fun hgood => ?_) ?_
  · unfold viewBad at hgood
    dsimp only at hgood ⊢
    rw [if_neg]
    simpa only [field_lo, field_mid, field_top, Bool.or_eq_true, beq_iff_eq, decide_eq_true_eq, bne_iff_ne, or_assoc] using hgood
  · unfold viewed
    dsimp only
    simp only [field_lo, field_mid]
    by_cases hTRx : hTR (s.hreg x) = true
    · rw [if_pos hTRx, if_pos hTRx]; rfl
    · rw [if_neg hTRx, if_neg hTRx]; rfl

theorem transpose_retires {d x : Fin 16} (ready : AReady h.wait h.push [] [] [] s)
    (need : HandleOk x (fun _ => False) (fun s => setBit (s.hreg x) 61 (!(s.hreg x).getLsbD 61)) s) :
    ∃ t, execHtrans h d x s = .next t ∧
      ARetires (makes h d [] x (fun _ => False) fun s => setBit (s.hreg x) 61 (!(s.hreg x).getLsbD 61)) s s t := by
  unfold execHtrans
  exact handle_retires ready need (fun _ => rfl) rfl

theorem shape_retires {d x : Fin 16} {k : Fin 32} (ready : AReady h.wait h.push [k] [] [] s)
    (need : HandleOk x (shapeBad x k) (fun s => shaped s x k) s) :
    ∃ t, execHshape h d x k s = .next t ∧ ARetires (makes h d [k] x (shapeBad x k) fun s => shaped s x k) s s t := by
  unfold execHshape
  refine handle_retires ready need (fun hgood => ?_) ?_
  · unfold shapeBad at hgood
    dsimp only at hgood ⊢
    rw [if_neg]
    simpa only [field_lo, field_mid, field_top, Bool.or_eq_true, Bool.and_eq_true, beq_iff_eq, bne_iff_ne, or_assoc] using hgood
  · unfold shaped
    simp only [field_lo, field_mid]
    rfl

end

/-! ## Owner bits and rings -/

section
variable {h : AHdr} {s : State}

def withHistory (l : List AliasRec) (b : Bank) : Bank := { b with history := l }

/-- A change of a bank beside its history and a change of owner bits do not meet. -/
theorem ownerLike_comm {f : Core → Core} (hf : OwnerLike f) {g : Bank → Bank}
    (hg : ∀ b l, g (withHistory l b) = withHistory l (g b)) (hkeep : ∀ b, (g b).history = b.history) (t : State) :
    (t.modTb g).modCore t.turn.core f = (t.modCore t.turn.core f).modTb g := by
  obtain ⟨ow, rt, ps, hf⟩ := hf
  have hf (c : Core) : f c =
    { c with owner := ow c.owner, rot := rt c.rot, banks := c.banks.map fun b => withHistory (ps c.owner b.history) b } := hf c
  have hcore (c : Core) (k : Fin 3) : f (c.setBank k (g (c.bank k))) = (f c).setBank k (g ((f c).bank k)) := by
    rw [hf, hf]
    unfold Core.setBank Core.bank
    have hboth (b : Bank) : withHistory (ps c.owner (g b).history) (g b) = g (withHistory (ps c.owner b.history) b) := by rw [hg, hkeep]
    simp only [Vector.map_set, hboth, Vector.get_eq_getElem, Vector.getElem_map]
  have hin (u : State) : u.modTb g = u.modCore u.turn.core fun c => c.setBank u.turn.ctx (g (c.bank u.turn.ctx)) := rfl
  rw [hin, hin, modCore_modCore, State.modCore_turn, modCore_modCore]
  simp only [hcore]

theorem give_retires {r : Fin 32} {n : Fin 128} (ready : AReady h.wait h.push [r] [] [] s) (hrun : RunOk (s.rA r).toNat (n.val + 1) s)
    {need : State → Prop} :
    ∃ t, execGive h r n s = .next t ∧ ARetires (changes h [r] need fun s b =>
        hands (s.rA r).toNat (n.val + 1) true (historyOf (owns (s.rA r).toNat (n.val + 1) true s) b)) s
      (owns (s.rA r).toNat (n.val + 1) true s) t := by
  unfold execGive
  exact owners_retires (g := hands (s.rA r).toNat (n.val + 1) true) ready (runBlock_ok hrun) (OwnerLike.setOwner _ _ _)
    (fun _ _ => rfl) (fun _ => rfl) (fun _ => rfl) rfl rfl

theorem take_retires {r : Fin 32} {n : Fin 128} (ready : AReady h.wait h.push [r] [] [] s) (hrun : RunOk (s.rA r).toNat (n.val + 1) s)
    (hidle : ∀ i, (s.rA r).toNat ≤ i → i < (s.rA r).toNat + (n.val + 1) → s.tileBusy s.turn.core i = false) {need : State → Prop} :
    ∃ t, execTake h r n s = .next t ∧ ARetires (changes h [r] need fun s b =>
        hands (s.rA r).toNat (n.val + 1) false (historyOf (owns (s.rA r).toNat (n.val + 1) false s) b)) s
      (owns (s.rA r).toNat (n.val + 1) false s) t := by
  have hany : ((upTo (s.rA r).toNat (n.val + 1)).any fun i => s.tileBusy s.turn.core i) = false := by
    rw [List.any_eq_false]
    intro i hi
    obtain ⟨hlo, hhi⟩ := (mem_upTo ..).1 hi
    rw [hidle i hlo hhi]
    exact Bool.false_ne_true
  unfold execTake
  refine owners_retires (g := hands (s.rA r).toNat (n.val + 1) false) ready ?_ (OwnerLike.setOwner _ _ _)
    (fun _ _ => rfl) (fun _ => rfl) (fun _ => rfl) rfl rfl
  rw [runBlock_ok hrun, hany]
  rfl

/-- Puts and takes: slots change hands, and with them their owner bits. -/
theorem slots_retires {r : Fin 16} {x y : Ring} {a n : Nat} {eng : Bool} {blk : State → Option State} (ready : AReady h.wait h.push [] [] [] s)
    (hblk : blk s = none) {need : State → Prop} {eff : State → State}
    (heff : eff (s.aTake h.wait h.push [] 1) = ((((s.aTake h.wait h.push [] 1).modTb (ringSet r (some y))).slotOwner s.turn.core x a n eng)).retirePush h.push) :
    ∃ t, aWord h [] [] [] blk eff s = .next t ∧
      ARetires (changes h [] need fun s b => ringSet r (some y) (historyOf (slotsOwn x a n eng s) b)) s (slotsOwn x a n eng s) t :=
  owners_retires (g := ringSet r (some y)) ready hblk (ownerLike_slots x a n eng) (fun _ _ => rfl) (fun _ => rfl) (fun _ => rfl) rfl heff

theorem hands_comm {f : Core → Core} (hf : OwnerLike f) (a n : Nat) (v : Bool) (t : State) :
    (t.modTb (hands a n v)).modCore t.turn.core f = (t.modCore t.turn.core f).modTb (hands a n v) :=
  ownerLike_comm (g := hands a n v) hf (fun _ _ => rfl) (fun _ => rfl) t

/-- The tiles of an old ring return and those of a new one are handed out. -/
def rehanded (g : Fin 512) (k : Fin 3) (old new : Option Ring) (t : State) : State :=
  let t := match old with | some x => (t.hand g k x.base x.count false).unconfigure g x | none => t
  match new with
  | some x => (t.hand g k x.base x.count true).slotOwner g x 0 x.count x.freeOwner
  | none => t

theorem rehanded_eq (old new : Option Ring) (t : State) :
    rehanded t.turn.core t.turn.ctx old new t = (t.modCore t.turn.core (reCore old new)).modTb (ringHands old new) := by
  have hreturn (x : Ring) : (t.hand t.turn.core t.turn.ctx x.base x.count false).unconfigure t.turn.core x =
      (t.modCore t.turn.core fun c => c.setOwner x.base x.count false).modTb (hands x.base x.count false) :=
    hands_comm (OwnerLike.setOwner _ _ _) _ _ _ t
  have hgive (x : Ring) (u : State) : (u.hand u.turn.core u.turn.ctx x.base x.count true).slotOwner u.turn.core x 0 x.count x.freeOwner =
      (u.modCore u.turn.core fun c => (upTo 0 x.count).foldl (fun (c : Core) (i : Nat) => c.setOwner (x.tile i) 1 (x.prod.val != 0)) c).modTb
        (hands x.base x.count true) :=
    hands_comm (ownerLike_slots _ _ _ _) _ _ _ u
  cases old with
  | none =>
    cases new with
    | none => exact ((modTb_id _).trans (setCore_self t _)).symm
    | some x => exact hgive x t
  | some y =>
    cases new with
    | none => exact hreturn y
    | some x =>
      have hcomm := hands_comm (ownerLike_slots x 0 x.count (x.prod.val != 0)) y.base y.count false
        (t.modCore t.turn.core fun c => c.setOwner y.base y.count false)
      unfold rehanded
      dsimp only
      rw [hreturn]
      refine (hgive x _).trans ?_
      rw [State.modTb_turn, hcomm, modTb_modTb, State.modCore_turn, modCore_modCore]
      rfl

theorem ringSet_parts (r : Fin 16) (x : Option Ring) (b n : Bank) :
    ringSet r x b = aParts (ringSet r x b) b ∧ ringSet r x (aParts b n) = aParts (ringSet r x b) n := ⟨rfl, rfl⟩

theorem ringHands_parts (old new : Option Ring) (b n : Bank) :
    ringHands old new b = aParts (ringHands old new b) b ∧ ringHands old new (aParts b n) = aParts (ringHands old new b) n := by
  cases old <;> cases new <;> exact ⟨rfl, rfl⟩

/-- What a new ring asks lets it be configured. -/
theorem rgcfgBlock_none {r : Fin 16} {v : DWord} {old new : Option Ring} :
    Ring.ofConfig v = some new → (∀ y, old = some y → Idle y) → (∀ x, new = some x → s.tb.ringOverlap r x = false) →
    (match Ring.ofConfig v with
      | none => some (s.ringTrap r)
      | some n =>
        if (match old with | some x => x.nfill != 0 || x.nclaim != 0 || x.nres != 0 | none => false) ||
            (match n with | some x => s.tb.ringOverlap r x | none => false) then some (s.ringTrap r) else none) = none := by
  intro hnew hidle hfree
  rw [hnew]
  cases old with
  | none =>
    cases new with
    | none => rfl
    | some x => simp [hfree x rfl]
  | some y =>
    obtain ⟨hfill, hclaim, hres⟩ := hidle y rfl
    cases new with
    | none => simp [hfill, hclaim, hres]
    | some x => simp [hfill, hclaim, hres, hfree x rfl]

theorem rgcfg_retires {r : Fin 16} {c : Fin 32} {old new : Option Ring} (ready : AReady h.wait h.push [c] [] [] s)
    (hnew : Ring.ofConfig (s.rA c) = some new) (hold : s.tb.ring r = old) (hidle : ∀ y, old = some y → Idle y)
    (hfree : ∀ x, new = some x → s.tb.ringOverlap r x = false) {need : State → Prop} :
    ∃ t, execRgcfg h r c s = .next t ∧
      ARetires (changes h [c] need fun s b => ringSet r new (ringHands old new (historyOf (reconfigured old new s) b))) s
        (reconfigured old new s) t := by
  unfold execRgcfg
  rw [reconfigured_eq, hold]
  refine owners_then (g := fun b => ringSet r new (ringHands old new b)) ready (rgcfgBlock_none hnew hidle hfree) (ownerLike_re old new)
    (fun b n => ?_) (fun b => ?_) ?_ ?_
  · rw [(ringHands_parts old new b n).2]; rfl
  · rw [(ringHands_parts old new b b).1]; rfl
  · rw [reconfigured_eq]; rfl
  · have hset (u : State) (hu : u = ((s.aTake h.wait h.push [c] 1).modCore s.turn.core (reCore old new)).modTb (ringHands old new)) :
        (u.setRing s.turn.core u.turn.ctx r new).retirePush h.push =
          (((s.aTake h.wait h.push [c] 1).modCore s.turn.core (reCore old new)).modTb fun b => ringSet r new (ringHands old new b)).retirePush h.push := by
      rw [hu]
      exact congrArg (State.retirePush · h.push) (modTb_modTb _ (ringHands old new) (ringSet r new))
    dsimp only
    rw [hnew, Option.getD_some]
    exact hset _ (rehanded_eq old new (s.aTake h.wait h.push [c] 1))

/-- A change of a core beside its banks, made on a state and on what differs from it in a bank. -/
theorem onlyBank_core {f : Core → Core} (hf : ∀ (c : Core) (l : Vector Bank 3), f { c with banks := l } = { f c with banks := l })
    {t : State} (honly : OnlyBank s t) : OnlyBank (s.modCore s.turn.core f) (t.modCore s.turn.core f) := by
  have hcore (u : State) : (u.modCore s.turn.core f).core s.turn.core = f (u.core s.turn.core) := by rw [State.core_modCore, if_pos rfl]
  have hbank (u : State) (k : Fin 3) : (u.modCore s.turn.core f).bank s.turn.core k = u.bank s.turn.core k := by
    show ((u.modCore s.turn.core f).core s.turn.core).bank k = _
    rw [hcore]
    have hkeep := congrArg Core.banks (hf (u.core s.turn.core) (u.core s.turn.core).banks)
    exact congrArg (fun l : Vector Bank 3 => l.get k) hkeep
  refine ⟨?_, honly.core, honly.ctx, honly.stream, honly.col, honly.word, fun g hg => ?_, ?_, fun k hk => ?_⟩
  · exact congrArg (fun v : State => { v with cores := (t.modCore s.turn.core f).cores, turn := t.turn, agenda := t.agenda }) honly.state
  · have hother : g ≠ s.turn.core := hg
    rw [State.core_modCore, State.core_modCore, if_neg hother, if_neg hother]
    exact honly.cores g hother
  · show (t.modCore s.turn.core f).core s.turn.core =
      { (s.modCore s.turn.core f).core s.turn.core with banks := ((t.modCore s.turn.core f).core s.turn.core).banks }
    rw [hcore, hcore]
    have hrest := honly.rest
    generalize t.core s.turn.core = c at hrest ⊢
    rw [hrest, hf]
  · show (t.modCore s.turn.core f).bank s.turn.core k = (s.modCore s.turn.core f).bank s.turn.core k
    rw [hbank, hbank]
    exact honly.banks k hk

/-- The replay window of a core ends over the commands that read one of some tiles. -/
def released (cmds : List ArrCmd) (g : Fin 512) (tiles : List Nat) (c : Core) : Core :=
  { c with
    window := c.window.map fun (w : ReplayCmd) =>
      if cmds.any fun (a : ArrCmd) => a.core == g && a.id == w.id && (a.aSlots ++ a.bSlots).any tiles.contains then { w with released := true } else w }

theorem released_banks (cmds : List ArrCmd) (g : Fin 512) (tiles : List Nat) (c : Core) (l : Vector Bank 3) :
    released cmds g tiles { c with banks := l } = { released cmds g tiles c with banks := l } := rfl

/-- Owner bits and the replay window do not meet, nor do a bank and the replay window. -/
theorem ownerLike_released {f : Core → Core} (hf : OwnerLike f) (cmds : List ArrCmd) (tiles : List Nat) (g : Fin 512) (t : State) :
    (t.modCore g (released cmds g tiles)).modCore g f = (t.modCore g f).modCore g (released cmds g tiles) := by
  obtain ⟨ow, rt, ps, hf⟩ := hf
  rw [modCore_modCore, modCore_modCore]
  congr 1
  funext c
  rw [hf, hf]
  rfl

theorem modTb_released (f : Bank → Bank) (cmds : List ArrCmd) (tiles : List Nat) (t : State) :
    (t.modCore t.turn.core (released cmds t.turn.core tiles)).modTb f = (t.modTb f).modCore t.turn.core (released cmds t.turn.core tiles) := by
  have hin (u : State) : u.modTb f = u.modCore u.turn.core fun c => c.setBank u.turn.ctx (f (c.bank u.turn.ctx)) := rfl
  rw [hin, hin, State.modCore_turn, modCore_modCore, modCore_modCore]
  rfl

theorem modTb_released_take (f : Bank → Bank) (cmds : List ArrCmd) (tiles : List Nat) (w p : Option (Fin 16)) (srcs : List (Fin 32)) :
    ((s.aTake w p srcs 1).modCore s.turn.core (released cmds s.turn.core tiles)).modTb f =
      ((s.aTake w p srcs 1).modTb f).modCore s.turn.core (released cmds s.turn.core tiles) :=
  modTb_released f cmds tiles (s.aTake w p srcs 1)

theorem tb_released (cmds : List ArrCmd) (tiles : List Nat) (t : State) : (t.modCore t.turn.core (released cmds t.turn.core tiles)).tb = t.tb := by
  show ((t.modCore t.turn.core _).core t.turn.core).bank t.turn.ctx = _
  rw [State.core_modCore, if_pos rfl]
  rfl

theorem windowEnds_eq (x : Ring) (m : Nat) (t : State) : windowEnds x m t =
    t.modCore t.turn.core (released (t.cluster (clusterOf t.turn.core)).cmds t.turn.core ((upTo x.clm m).map x.tile)) := by
  unfold windowEnds released
  simp only [Bool.and_left_comm, Bool.and_assoc]

theorem rgrel_retires {r : Fin 16} {n : Fin 128} {x : Ring} (ready : AReady h.wait h.push [] [] [] s) (huse : RingUse r n.val x s)
    (hcons : x.cons.val = 2) (hbusy : s.claimBusy s.turn.core x (min n.val x.nclaim) = false) {need : State → Prop} :
    ∃ t, execRgrel h r n s = .next t ∧
      ARetires (changes h [] need fun s b => ringSet r (some (releasing (min n.val x.nclaim) x))
          (historyOf (slotsOwn x x.clm (min n.val x.nclaim) (x.prod.val != 0) s) b)) s
        (slotsOwn x x.clm (min n.val x.nclaim) (x.prod.val != 0) (windowEnds x (min n.val x.nclaim) s)) t := by
  unfold execRgrel
  rw [ringAt_ok huse]
  refine ⟨_, aWord_ready ready (by exact ringBlock_ok huse (by rw [hcons]; rfl) hbusy) _, ?_⟩
  have hset := (aTake_owes s h.wait h.push [] [] [] 1).upd (ringSet r (some (releasing (min n.val x.nclaim) x))) (fun _ => rfl) (fun _ _ => rfl)
    (changes h [] need fun _ => ringSet r (some (releasing (min n.val x.nclaim) x))) rfl rfl rfl rfl rfl rfl rfl
  have howned := hset.owners (ownerLike_slots x x.clm (min n.val x.nclaim) (x.prod.val != 0))
    (changes h [] need fun s b => ringSet r (some (releasing (min n.val x.nclaim) x))
      (historyOf (slotsOwn x x.clm (min n.val x.nclaim) (x.prod.val != 0) s) b)) rfl rfl rfl fun _ => rfl
  have hF := ownerLike_slots x x.clm (min n.val x.nclaim) (x.prod.val != 0)
  have hrel := howned.base (onlyBank_core (released_banks (s.cluster (clusterOf s.turn.core)).cmds s.turn.core ((upTo x.clm (min n.val x.nclaim)).map x.tile))
    howned.took.only) ?_ rfl ?_
  · have hret := hrel.retire rfl rfl rfl
    rw [windowEnds_eq]
    have hbase := ownerLike_released hF (s.cluster (clusterOf s.turn.core)).cmds ((upTo x.clm (min n.val x.nclaim)).map x.tile) s.turn.core s
    have hgone := ownerLike_released hF (s.cluster (clusterOf s.turn.core)).cmds ((upTo x.clm (min n.val x.nclaim)).map x.tile) s.turn.core
      ((s.aTake h.wait h.push [] 1).modTb (ringSet r (some (releasing (min n.val x.nclaim) x))))
    rw [← modTb_released_take] at hgone
    have hret : ARetires _ s ((s.modCore s.turn.core _).modCore s.turn.core _)
      (State.retirePush ((((s.aTake h.wait h.push [] 1).modTb _).modCore s.turn.core _).modCore s.turn.core _) h.push) := hret
    rw [← hbase, ← hgone] at hret
    exact hret
  · exact tb_released ..
  · exact howned.agenda

end

/-! ## Launches, cancels, waits and event tests -/

section
variable {h : AHdr} {s : State}

theorem refused_retires {d r : Fin 32} {q : Fin 64} {k : Nat} (ready : AReady h.wait h.push [r] [d] [] s) (hopen : s.tb.sealed = false)
    (haligned : (s.rA r).toNat % 64 = 0) (hread : s.readBlock s 0 (s.rA r).toNat 128 = none)
    (hrefused : s.lnchRefusal s.tb.part q (s.rA r).toNat = some k) {need : State → Prop} :
    ∃ t, execLnch h d r q s = .next t ∧ ARetires { aGives h d [r] 1 (fun _ => BitVec.ofNat 64 (2 ^ 63 + k)) with need := need } s s t := by
  unfold execLnch
  refine ⟨_, aWord_ready ready ?_ _, ?_⟩
  · have hmod : ((s.rA r).toNat % 64 != 0) = false := by rw [haligned]; rfl
    rw [hopen, hmod, hread, hrefused]
    rfl
  · dsimp only
    rw [hrefused]
    exact (wrA_retires (v := fun _ => BitVec.ofNat 64 (2 ^ 63 + k)) h d [r] 1 s).needs need

/-- A cancel whose ID names nothing that runs leaves everything and gives a code. -/
theorem cancel_retires {d i : Fin 32} {code : Nat} (ready : AReady h.wait h.push [i] [d] [] s)
    (hcancel : ∀ t : State, t.cancelRef s.tb.part (s.resolve s.tb.part (s.rA i)) = (t, code)) {need : State → Prop} {v : DWord}
    (hv : v = BitVec.ofNat 64 code) :
    ∃ t, execLcancel h d i s = .next t ∧ ARetires { aGives h d [i] 1 (fun _ => v) with need := need } s s t := by
  unfold execLcancel
  refine ⟨_, aWord_ready ready rfl _, ?_⟩
  dsimp only
  rw [hcancel, hv]
  exact (wrA_retires (v := fun _ => BitVec.ofNat 64 code) h d [i] 1 s).needs need

theorem cancelQueued_retires {d i : Fin 32} {q : Fin 64} {seq : Word} (ready : AReady h.wait h.push [i] [d] [] s)
    (hentry : s.resolve s.tb.part (s.rA i) = .entry q seq) {need : State → Prop} :
    ∃ t, execLcancel h d i s = .next t ∧ ARetires { aGives h d [i] 1 (fun _ => 0) with need := need } s (s.cancelEntry s.tb.part q seq) t := by
  unfold execLcancel
  refine ⟨_, aWord_ready ready rfl _, ?_⟩
  dsimp only
  rw [hentry]
  exact (outside_retires (f := fun t => t.cancelEntry s.tb.part q seq) (cancelEntry_onCores _ _ _) (v := fun _ => 0) h d [i] 1 s
    (cancelEntry_cycle _ _ _ _)).needs need

/-- A cancel of a unit of a launch that is no longer queued or running. -/
theorem cancelUnit_retires {d i u : Fin 32} {ref : IdRef} {code : Nat} (ready : AReady h.wait h.push [i, u] [d] [] s)
    (href : s.resolve s.tb.part (s.rA i) = ref)
    (hcode : ref = .nothing ∧ code = 2 ∨ ∃ w st, ref = .aged (some w) st ∧ code = if w ≤ (s.rA u).toNat then 2 else 1) {need : State → Prop}
    {v : State → DWord} (hv : v s = BitVec.ofNat 64 code) :
    ∃ t, execLcancelUnit h d i u s = .next t ∧ ARetires { aGives h d [i, u] 1 v with need := need } s s t := by
  unfold execLcancelUnit
  refine ⟨_, aWord_ready ready rfl _, ?_⟩
  dsimp only
  rw [href]
  have hret := (wrA_retires (v := v) h d [i, u] 1 s).needs need
  rw [hv] at hret
  obtain ⟨rfl, rfl⟩ | ⟨w, st, rfl, rfl⟩ := hcode
  · exact hret
  · by_cases hwidth : w ≤ (s.rA u).toNat
    · rw [if_pos hwidth] at hret
      simp only [hwidth, decide_true, ↓reduceIte]
      exact hret
    · rw [if_neg hwidth] at hret
      simp only [hwidth, decide_false, Bool.false_eq_true, ↓reduceIte]
      exact hret

theorem cancelUnitQueued_retires {d i u : Fin 32} {q : Fin 64} {x : Queue} {seq : Word} (ready : AReady h.wait h.push [i, u] [d] [] s)
    (hentry : s.resolve s.tb.part (s.rA i) = .entry q seq) (hqueue : s.queue s.tb.part q = some x) (hlaunch : x.graph = false)
    (hwidth : (s.rA u).toNat < (s.launchAt s.tb.part (x.entryVA seq)).width) (hnew : (seq, (s.rA u).toNat) ∉ x.dropped) {need : State → Prop} :
    ∃ t, execLcancelUnit h d i u s = .next t ∧ ARetires { aGives h d [i, u] 1 (fun _ => 0) with need := need } s
      (s.modQueue s.tb.part q fun y => { y with dropped := y.dropped ++ [(seq, (s.rA u).toNat)] }) t := by
  have htaken : (s.aTake h.wait h.push [i, u] 1).queue s.tb.part q = some x := hqueue
  have hsame : (s.aTake h.wait h.push [i, u] 1).launchAt s.tb.part (x.entryVA seq) = s.launchAt s.tb.part (x.entryVA seq) := rfl
  have hkept : x.dropped.contains (seq, (s.rA u).toNat) = false := by
    rw [Bool.eq_false_iff]
    exact fun hc => hnew (List.contains_iff_mem.1 hc)
  unfold execLcancelUnit
  refine ⟨_, aWord_ready ready rfl _, ?_⟩
  simp only [hentry, htaken, hsame, hlaunch, hkept, Bool.false_or, decide_eq_false (Nat.not_le.2 hwidth), Bool.false_eq_true, ↓reduceIte]
  exact (outside_retires (f := fun t => t.modQueue s.tb.part q fun y => { y with dropped := y.dropped ++ [(seq, (s.rA u).toNat)] })
    (modQueue_onCores _ _ _) (v := fun _ => 0) h d [i, u] 1 s rfl).needs need

theorem wait_retires {d i : Fin 32} {st : Nat} (ready : AReady h.wait h.push [i] [d] [] s)
    (hstatus : State.refStatus (s.resolve s.tb.part (s.rA i)) = some st) (hother : s.containsMe (s.resolve s.tb.part (s.rA i)) = false)
    {need : State → Prop} :
    ∃ t, execLwait h d i s = .next t ∧ ARetires { aGives h d [i] 1 (fun _ => BitVec.ofNat 64 st) with need := need } s s t := by
  unfold execLwait
  refine ⟨_, aWord_ready ready (by rw [hother, hstatus]; rfl) _, ?_⟩
  dsimp only
  rw [hstatus]
  exact (wrA_retires (v := fun _ => BitVec.ofNat 64 st) h d [i] 1 s).needs need

theorem evBlock_none {v : DWord} (hv : v.toNat < 256) : evBlock v s = none := by
  unfold evBlock
  rw [decide_eq_false (Nat.not_le.2 hv), if_neg Bool.false_ne_true]

theorem evtest_retires {d b : Fin 32} {c : EvCtx} {j : Job} (ready : AReady h.wait h.push [b] [d] [] s) (hbit : (s.rA b).toNat < 256)
    (hidle : s.tb.evops = []) (hjob : (s.part s.tb.part).job = some j) {need : State → Prop} :
    ∃ t, execEvtest h d b c s = .next t ∧
      ARetires { aGives h d [b] 1 (fun s => if (j.ev.get (s.evCtx c)).getLsbD (s.rA b).toNat = true then 1 else 0) with need := need } s s t := by
  unfold execEvtest
  refine ⟨_, aWord_ready ready (by rw [evBlock_none hbit, hidle]; rfl) _, ?_⟩
  dsimp only
  rw [hjob]
  have hret := (wrA_retires (v := fun s => if (j.ev.get (s.evCtx c)).getLsbD (s.rA b).toNat = true then 1 else 0) h d [b] 1 s).needs need
  rw [show BitVec.ofNat 64 (b01 (bit (j.ev.get (s.evCtx c)) (s.rA b).toNat)) =
    (if (j.ev.get (s.evCtx c)).getLsbD (s.rA b).toNat = true then 1 else 0 : DWord) by unfold b01 bit; split <;> rfl]
  exact hret

end

/-- Settles O37: each word goes by the rule of its kind. -/
theorem wordsThatRetire : Obligations.WordsThatRetire := by
  intro i r base s hi ready need
  cases hi with
  | fenceAcq =>
    rw [exec_fenceAcq, execFenceAcq]
    exact changes_retires (g := acquires returning) ready (fenceBlock_none need) (fun _ _ => rfl) (fun _ => rfl) rfl rfl
  | @fenceRel h sc =>
    rw [exec_fenceRel, execFenceRel]
    exact changes_retires (g := releases sc s) ready (fenceBlock_none need) (fun _ _ => rfl) (fun _ => rfl) rfl rfl
  | @fenceSc h sc =>
    rw [exec_fenceSc, execFenceSc]
    refine changes_retires (g := fun b => releases sc s (acquires outstanding b)) ready (fenceBlock_none need) (fun _ _ => rfl) (fun _ => rfl) rfl ?_
    simp only [fenceAcq_all]
    rfl
  | sealAgain => rw [exec_seal]; exact sealAgain_retires ready need
  | colarrRlx => rw [exec_colarrRlx, execColarrRlx]; exact rises_retires ready need
  | colarrRel => rw [exec_colarrRel, execColarrRel]; exact rises_retires ready need
  | colwait => rw [exec_colwait, execColwait]; exact colDone_retires ready (colBlock_ok need)
  | colsync => rw [exec_colsync, execColsync]; exact colDone_retires ready (colsyncBlock_none need.1 need.2)
  | sysr => rw [exec_aSysr]; exact sysr_retires ready need.1 need.2
  | sfclo => rw [exec_aSysr]; exact sfclo_retires ready need
  | ctxsw => rw [exec_ctxsw]; exact ctxsw_retires ready need
  | hview => rw [exec_hview]; exact view_retires ready need
  | htrans => rw [exec_htrans]; exact transpose_retires ready need
  | hshape => rw [exec_hshape]; exact shape_retires ready need
  | give => rw [exec_give]; exact give_retires ready need
  | take => rw [exec_take]; exact take_retires ready need.1 need.2
  | rgcfg =>
    obtain ⟨hnew, hold, hidle, hfree⟩ := need
    rw [exec_rgcfg]
    exact rgcfg_retires ready hnew hold hidle fun x hx => Option.some.inj hx ▸ hfree
  | rgcfgOff =>
    obtain ⟨hnew, hold, hidle⟩ := need
    rw [exec_rgcfg]
    exact rgcfg_retires ready hnew hold hidle fun x hx => by cases hx
  | @rgwfree h d r n x =>
    obtain ⟨huse, hprod, hfree⟩ := need
    rw [exec_rgwfree, execRgwfree]
    obtain ⟨t, ht, hret⟩ := gives_retires (v := fun _ => BitVec.ofNat 64 (x.tile x.tail)) (lat := 1) ready
      (blk := ringBlock r n.val (fun x => x.prod.val != 2) (fun x => decide (x.free < n.val)))
      (ringBlock_ok huse (bne_iff_ne.2 hprod) (decide_eq_false (Nat.not_lt.2 hfree)))
      (eff := fun t => (t.wrA d (BitVec.ofNat 64 ((s.ringAt r).tile (s.ringAt r).tail)) 1).retirePush h.push) (by rw [ringAt_ok huse])
    exact ⟨t, ht, hret.needs _⟩
  | @rgwfill h d r n x =>
    obtain ⟨huse, hcons, hfill⟩ := need
    rw [exec_rgwfill, execRgwfill]
    obtain ⟨t, ht, hret⟩ := gives_retires (v := fun _ => BitVec.ofNat 64 (x.tile x.head)) (lat := 1) ready
      (blk := ringBlock r n.val (fun x => x.cons.val != 2) (fun x => decide (x.nfill < n.val)))
      (ringBlock_ok huse (bne_iff_ne.2 hcons) (decide_eq_false (Nat.not_lt.2 hfill)))
      (eff := fun t => (t.wrA d (BitVec.ofNat 64 ((s.ringAt r).tile (s.ringAt r).head)) 1).retirePush h.push) (by rw [ringAt_ok huse])
    exact ⟨t, ht, hret.needs _⟩
  | @rgput h r n x =>
    obtain ⟨huse, hprod, hfree⟩ := need
    rw [exec_rgput, execRgput, ringAt_ok huse]
    exact slots_retires ready (ringBlock_ok huse (by rw [hprod, decide_eq_true hfree]; rfl) rfl) rfl
  | @rgtake h r n x =>
    obtain ⟨huse, hcons, hfill⟩ := need
    rw [exec_rgtake, execRgtake, ringAt_ok huse]
    exact slots_retires ready (ringBlock_ok huse (by rw [hcons, decide_eq_true hfill]; rfl) rfl) rfl
  | rgrel => rw [exec_rgrel]; exact rgrel_retires ready need.1 need.2.1 need.2.2
  | lnchRefused =>
    obtain ⟨hopen, haligned, hread, hrefused⟩ := need
    rw [exec_lnch]
    exact refused_retires ready hopen haligned hread hrefused
  | lcancelQueued => rw [exec_lcancel]; exact cancelQueued_retires ready need
  | lcancelNothing => rw [exec_lcancel]; exact cancel_retires ready (fun t => by rw [need]; rfl) rfl
  | lcancelDone =>
    obtain ⟨hitem, hdone⟩ := need
    rw [exec_lcancel]
    exact cancel_retires ready (fun t => by rw [hitem]; exact if_pos hdone) rfl
  | lcancelAged => rw [exec_lcancel]; exact cancel_retires ready (fun t => by rw [need]; rfl) rfl
  | lcancelUnitAged => rw [exec_lcancelUnit]; exact cancelUnit_retires ready need (.inr ⟨_, _, rfl, rfl⟩) (by split <;> rfl)
  | lcancelPast => rw [exec_lcancel]; exact cancel_retires ready (fun t => by rw [need]; rfl) rfl
  | lcancelUnitNothing => rw [exec_lcancelUnit]; exact cancelUnit_retires ready need (.inl ⟨rfl, rfl⟩) rfl
  | lcancelUnitQueued =>
    obtain ⟨hentry, hqueue, hlaunch, hwidth, hnew⟩ := need
    rw [exec_lcancelUnit]
    exact cancelUnitQueued_retires ready hentry hqueue hlaunch hwidth hnew
  | lwait => rw [exec_lwait]; exact wait_retires ready need.1 need.2
  | evtest => rw [exec_evtest]; exact evtest_retires ready need.1 need.2.1 need.2.2
  -- What is left is the seal.
  | _ => rw [exec_seal]; exact seal_retires ready need.1 need.2 rfl

end Sys2Proof.Machine


/-! SUPPORT. The words of stream A that retire later: event operations, invalidation, launches and rotations (spec/05 R95, R96,
spec/09 R170, spec/10 R193). -/
namespace Sys2Proof.Machine
open Sys2Proof Sys2Proof.Claims

section
variable {h : AHdr} {s : State}

/-! ## Event operations -/

theorem asks_owes {set : Bool} {b : Fin 32} {c : EvCtx} (ready : AReady h.wait h.push [b] [] [] s) (hbit : (s.rA b).toNat < 256) :
    ∃ t, aWord h [b] [] [] (evBlock (s.rA b)) (fun t => t.evIssue h set (s.evCtx c) (s.rA b).toNat) s = .next t ∧
      AOwes (asks h set b c) s s t := by
  refine ⟨_, aWord_ready ready (evBlock_none hbit) _, ?_⟩
  have htook := aTake_owes s h.wait h.push [b] [] [] 1
  have hlive : (s.aTake h.wait h.push [b] 1).tb.live = s.tb.live := (congrArg Bank.live htook.took.bank).trans rfl
  have hpart : (s.aTake h.wait h.push [b] 1).tb.part = s.tb.part := (congrArg Bank.part htook.took.bank).trans rfl
  have hasked := htook.upd (fun k => { k with evops := k.evops ++ [eventOp h set (s.evCtx c) (s.rA b).toNat s.tb], nextId := k.nextId + 1 })
    (fun _ => rfl) (fun _ _ => rfl) { asks h set b c with plan := fun s => s } rfl rfl rfl rfl rfl rfl rfl
  have hplanned := hasked.schedule 20 (if set then .evsetEffect else .evclrEffect)
    { EvArgs.at s.turn.core s.turn.ctx with p := s.tb.part, id := s.tb.nextId, n := (s.die (dieOf s.turn.core)).nextCopy } (asks h set b c) rfl rfl rfl
  unfold State.evIssue
  dsimp only
  rw [nextId_of_owes htook rfl, hpart, hlive]
  cases set
  · exact hplanned
  · exact hplanned

/-! ## Invalidation -/

theorem invalidate_onCores (C : Vector Core 512) (T : Turn) (p : Fin 8) (rank va len push : Nat) (inv : InvFor)
    (husers : ∀ d lo hi, (onCores C T s).usersOf d lo hi = s.usersOf d lo hi) :
    (onCores C T s).invalidate p rank va len push inv = onCores C T (s.invalidate p rank va len push inv) := by
  unfold State.invalidate
  dsimp only
  rw [show (onCores C T s).dieOfRank p rank = s.dieOfRank p rank from rfl]
  split
  · rfl
  · rw [husers]; rfl

theorem invalidate_fields (p : Fin 8) (rank va len push : Nat) (inv : InvFor) :
    (s.invalidate p rank va len push inv).cores = s.cores ∧ (s.invalidate p rank va len push inv).turn = s.turn := by
  unfold State.invalidate
  dsimp only
  split <;> exact ⟨rfl, rfl⟩

/-- The accesses that translate through a range do not depend on what an issued word changes. -/
theorem usersOf_same {t : State} (hops : ∀ g k, (t.bank g k).ops = (s.bank g k).ops) (d : Fin 8) (lo hi : Nat) :
    t.usersOf d lo hi = s.usersOf d lo hi := by
  unfold State.usersOf
  simp only [hops]

theorem ops_same {r : AForm} {u t : State} (howes : AOwes r s u t) (hops : (r.upd s (movedOn r.size s.tb)).ops = s.tb.ops)
    (hu : ∀ g k, (u.bank g k).ops = (s.bank g k).ops) (hcore : u.turn.core = s.turn.core) (hctx : u.turn.ctx = s.turn.ctx) (g : Fin 512) (k : Fin 3) :
    (t.bank g k).ops = (s.bank g k).ops := by
  by_cases hg : g = u.turn.core
  · by_cases hk : k = u.turn.ctx
    · have htb : t.bank g k = t.tb := by rw [hg, hk, ← howes.took.only.core, ← howes.took.only.ctx]; rfl
      rw [htb, (congrArg Bank.ops howes.took.bank).trans hops, hg, hk, hcore, hctx]
      rfl
    · rw [hg, howes.took.only.banks k hk, hu]
  · unfold State.bank
    rw [howes.took.only.cores g hg]
    exact hu g k

/-- A change outside the cores and the turn, made on a state and on what differs from it in a bank. -/
theorem onlyBank_outside {t u : State} (honly : OnlyBank s t) (hcores : u.cores = s.cores) (hturn : u.turn = s.turn) :
    OnlyBank u (onCores t.cores t.turn u) := by
  have hcore (g : Fin 512) : u.core g = s.core g := by unfold State.core; rw [hcores]
  obtain ⟨hstate, h1, h2, h3, h4, h5, hother, hrest, hbanks⟩ := honly
  refine ⟨rfl, ?_, ?_, ?_, ?_, ?_, fun g hg => ?_, ?_, fun k hk => ?_⟩
  · rw [hturn]; exact h1
  · rw [hturn]; exact h2
  · rw [hturn]; exact h3
  · rw [hturn]; exact h4
  · rw [hturn]; exact h5
  · rw [hturn] at hg; rw [hcore]; exact hother g hg
  · rw [hturn, hcore]; exact hrest
  · rw [hturn] at hk ⊢
    unfold State.bank
    rw [hcore]
    exact hbanks k hk

/-- An invalidation after the word has issued. -/
theorem invalidated_owes {r : AForm} {t : State} (howes : AOwes r s s t) (hplan : r.plan = fun s => s) (p : Fin 8) (rank va len push : Nat)
    (inv : InvFor) (husers : ∀ d lo hi, t.usersOf d lo hi = s.usersOf d lo hi) :
    AOwes r s (s.invalidate p rank va len push inv) (t.invalidate p rank va len push inv) := by
  have hagenda : t.agenda = s.agenda := by rw [howes.agenda, hplan]
  have ht : t = onCores t.cores t.turn s := by
    have hstate := howes.took.only.state
    rw [hagenda] at hstate
    exact hstate
  have hinv : t.invalidate p rank va len push inv = onCores t.cores t.turn (s.invalidate p rank va len push inv) := by
    have hsame := invalidate_onCores t.cores t.turn p rank va len push inv (s := s) (by rw [← ht]; exact husers)
    rw [← ht] at hsame
    exact hsame
  obtain ⟨hcores, hturn⟩ := invalidate_fields (s := s) p rank va len push inv
  rw [hinv]
  exact howes.base (onlyBank_outside howes.took.only hcores hturn) rfl rfl (by rw [hplan]; rfl)

theorem tlbinv_owes {v l : Fin 32} (ready : AReady h.wait h.push [v, l] [] [] s) (hctx : s.turn.ctx = 2) (howner : vaOwner (s.rA v).toNat < 8)
    (hlen : s.rA l ≠ 0) {need : State → Prop} :
    ∃ t, execTlbinv h v l s = .next t ∧ AOwes (changes h [v, l] need fun _ b => { b with aHold := .invalidate }) s
      (s.invalidate (s.partAt s.turn.core) (vaOwner (s.rA v).toNat) (s.rA v).toNat (s.rA l).toNat
        (match h.push with | some f => f.val + 1 | none => 0) (.word s.turn.core)) t := by
  unfold execTlbinv
  rw [aLegal_legal (by rw [hctx]; rfl)]
  have hgood : (decide (8 ≤ vaOwner (s.rA v).toNat) || (s.rA l).toNat == 0) = false := by
    rw [decide_eq_false (Nat.not_le.2 howner), Bool.false_or, beq_eq_false_iff_ne]
    exact fun hzero => hlen (BitVec.eq_of_toNat_eq hzero)
  refine ⟨_, aWord_ready ready (by rw [hgood]; rfl) _, ?_⟩
  have hhold := (aTake_owes s h.wait h.push [v, l] [] [] 1).upd (fun b => { b with aHold := .invalidate }) (fun _ => rfl) (fun _ _ => rfl)
    (changes h [v, l] need fun _ b => { b with aHold := .invalidate }) rfl rfl rfl rfl rfl rfl rfl
  have hops := ops_same hhold rfl (fun _ _ => rfl) rfl rfl
  have hgone := fun push => invalidated_owes hhold rfl (s.partAt s.turn.core) (vaOwner (s.rA v).toNat) (s.rA v).toNat (s.rA l).toNat push (.word s.turn.core)
    (usersOf_same hops)
  exact hgone _

/-! ## Launches -/

theorem produce_cycle (p : Fin 8) (q : Fin 64) (va : Nat) : (s.produce p q va).cycle = s.cycle := by
  unfold State.produce
  split
  · rfl
  · rw [pokeQueue_cycle, setQueue_cycle, rawWriteN_cycle]

/-- The word of an accepted launch: its ID comes 24 cycles later. -/
def launches (h : AHdr) (d r : Fin 32) (q : Fin 64) (x : Queue) : AForm where
  wait := h.wait
  push := h.push
  srcs := [r]
  dsts := [d]
  need := fun s => LaunchOk q (s.rA r).toNat x s
  upd := fun _ => aPut d (workId (if x.graph then 2 else 1) q.val 0 x.tail)
  late := fun s => if 0 < d.val ∧ d.val < 28 then [(d, s.cycle + 24)] else []
  plan := fun s => if d.val < 28 then endsLater 24 h 0 0 s else endsLater 24 h (d.val - 27) s.tb.nextId s

theorem lnch_owes {d r : Fin 32} {q : Fin 64} {x : Queue} (ready : AReady h.wait h.push [r] [d] [] s) (hok : LaunchOk q (s.rA r).toNat x s) :
    ∃ t, execLnch h d r q s = .next t ∧ AOwes (launches h d r q x) s (s.produce s.tb.part q (s.rA r).toNat) t := by
  have hnone := hok.usable
  unfold execLnch
  refine ⟨_, aWord_ready ready ?_ _, ?_⟩
  · have hmod : ((s.rA r).toNat % 64 != 0) = false := by rw [hok.aligned]; rfl
    have hroom : s.lnchFull s.tb.part q = false := by
      unfold State.lnchFull
      rw [hok.queue]
      exact decide_eq_false (Nat.not_le.2 hok.room)
    have hdone : s.released s.turn.core s.turn.ctx .device = true := hok.performed
    rw [hok.unsealed, hmod, hok.read, hnone, hroom, hdone]
    rfl
  · rw [hnone, hok.queue]
    have hbase := (aTake_owes s h.wait h.push [r] [d] [] 1).outside (f := fun t => t.produce s.tb.part q (s.rA r).toNat)
      (produce_onCores _ _ _) fun _ => rfl
    have hid (t : State) : (t.produce s.tb.part q (s.rA r).toNat).tb = t.tb :=
      (Coreless.tb (f := fun t => t.produce s.tb.part q (s.rA r).toNat) (produce_onCores _ _ _) t :)
    refine later_owes (n := 24) (r := launches h d r q x) (by decide) hbase ?_ (produce_cycle ..) rfl rfl rfl
    rw [hid, hid]
    exact nextId_of_owes (aTake_owes s h.wait h.push [r] [d] [] 1) rfl

/-! ## Rotations -/

theorem tb_modCore (f : Core → Core) (t : State) : (t.modCore t.turn.core f).tb = (f (t.core t.turn.core)).bank t.turn.ctx := by
  show ((t.modCore t.turn.core f).core t.turn.core).bank t.turn.ctx = _
  rw [State.core_modCore, if_pos rfl]

/-- The tiles of a rotation go to the engines, and it waits for its partners. -/
def rotates (s : State) (src dst : Nat) (push : Option (Fin 16)) (c : Core) : Core :=
  { (c.setOwner src 1 true).setOwner dst 1 true with
    rot := some { bank := s.turn.ctx, src := src, dst := dst, push := push, since := s.cycle } }

theorem ownerLike_rotates (src dst : Nat) (push : Option (Fin 16)) : OwnerLike (rotates s src dst push) :=
  ((OwnerLike.setOwner _ _ _).comp (OwnerLike.setOwner _ _ _)).comp (OwnerLike.rot _)

theorem rotates_eq (src dst : Nat) (push : Option (Fin 16)) :
    (owns dst 1 true (owns src 1 true s)).modCore s.turn.core
        (fun c => { c with rot := some { bank := s.turn.ctx, src := src, dst := dst, push := push, since := s.cycle } }) =
      s.modCore s.turn.core (rotates s src dst push) := by
  unfold owns
  rw [State.modCore_turn, modCore_modCore, modCore_modCore]
  rfl

theorem history_rotates (src dst : Nat) (push : Option (Fin 16)) :
    (owns dst 1 true (owns src 1 true s)).tb.history = (s.modCore s.turn.core (rotates s src dst push)).tb.history := by
  unfold owns
  rw [State.modCore_turn, modCore_modCore, tb_modCore, tb_modCore]
  rfl

/-- The bound of a rotation's wait. -/
theorem bounded_owes {r r' : AForm} {t u : State} (howes : AOwes r s u t) (hplan : r.plan = fun s => s)
    (hr' : r' = { r with plan := rotBounded }) (hbnd : u.tb.waitbndA = s.tb.waitbndA) (hdetm : u.tb.detm = s.tb.detm) (hapc : u.tb.apc = s.tb.apc)
    (hcycle : u.cycle = s.cycle) (hturn : u.turn = s.turn) : AOwes r' s u (t.boundRot s) := by
  have hlater (n : Nat) (hu : rotBounded u = u.schedule n .waitBound
      { EvArgs.at s.turn.core s.turn.ctx with flag := true, id := s.cycle, w := s.tb.apc, va := s.turn.word.setWidth 64 }) :
      AOwes r' s u (t.schedule n .waitBound
        { EvArgs.at s.turn.core s.turn.ctx with flag := true, id := s.cycle, w := s.tb.apc, va := s.turn.word.setWidth 64 }) :=
    howes.schedule n .waitBound _ r' (by rw [hr']) (by rw [hr', hplan]; exact congrArg State.agenda hu) (by rw [hplan])
  unfold State.boundRot
  unfold rotBounded at hlater
  rw [hbnd, hdetm, hapc, hcycle, hturn] at hlater
  by_cases hbound : s.tb.waitbndA.toNat = 0
  · by_cases hd : s.tb.detm = true
    · simp only [hbound, hd, bne_self_eq_false, Bool.false_eq_true, ↓reduceIte]
      exact hlater _ (by rw [if_neg (not_not.2 hbound), if_pos hd])
    · simp only [hbound, hd, bne_self_eq_false, Bool.false_eq_true, ↓reduceIte]
      rw [hr']
      refine owes_form howes rfl rfl rfl rfl rfl rfl ?_
      rw [hplan]
      show (rotBounded u).agenda = u.agenda
      unfold rotBounded
      rw [hbnd, hdetm, if_neg (not_not.2 hbound), if_neg hd]
  · have hne : (s.tb.waitbndA.toNat != 0) = true := bne_iff_ne.2 hbound
    simp only [hne, ↓reduceIte]
    exact hlater _ (by rw [if_pos hbound])

theorem core_boundRot (t : State) (g : Fin 512) : (t.boundRot s).core g = t.core g := by
  unfold State.boundRot
  dsimp only
  split <;> rfl

theorem rgrot_owes {a b : Fin 32} (ready : AReady h.wait h.push [a, b] [] [] s) (hfree : (s.core s.turn.core).rot = none)
    (hsrc : rotTile s false (s.rA a).toNat = none) (hdst : rotTile s true (s.rA b).toNat = none)
    (hother : ∃ i : Fin 8, coreAt (clusterOf s.turn.core) i ≠ s.turn.core ∧ (s.core (coreAt (clusterOf s.turn.core) i)).rot = none)
    {need : State → Prop} :
    ∃ t, execRgrot h a b s = .next t ∧ AOwes
      { changes h [a, b] need fun s => historyOf (owns (s.rA b).toNat 1 true (owns (s.rA a).toNat 1 true s)) with plan := rotBounded } s
      ((owns (s.rA b).toNat 1 true (owns (s.rA a).toNat 1 true s)).modCore s.turn.core fun c =>
        { c with rot := some { bank := s.turn.ctx, src := (s.rA a).toNat, dst := (s.rA b).toNat, push := h.push, since := s.cycle } }) t := by
  unfold execRgrot
  refine ⟨_, aWord_ready ready (by rw [hfree, hsrc, hdst]; rfl) _, ?_⟩
  have hrot := (aTake_owes s h.wait h.push [a, b] [] [] 1).owners (ownerLike_rotates (s := s) (s.rA a).toNat (s.rA b).toNat h.push)
    (changes h [a, b] (fun _ => True) fun s => historyOf (owns (s.rA b).toNat 1 true (owns (s.rA a).toNat 1 true s))) rfl
    (by rw [← history_rotates]; rfl) rfl fun _ => rfl
  obtain ⟨-, htb, -⟩ := (ownerLike_rotates (s := s) (s.rA a).toNat (s.rA b).toNat h.push).only (OnlyBank.refl s)
  have hbounded := bounded_owes (hrot.needs need) rfl (r' := { changes h [a, b] need fun s =>
    historyOf (owns (s.rA b).toNat 1 true (owns (s.rA a).toNat 1 true s)) with plan := rotBounded }) rfl
    ((congrArg Bank.waitbndA htb).trans rfl) ((congrArg Bank.detm htb).trans rfl) ((congrArg Bank.apc htb).trans rfl) rfl rfl
  rw [rotates_eq]
  have hall : ((List.finRange 8).all fun i => ((((s.aTake h.wait h.push [a, b] 1).modCore s.turn.core
      (rotates s (s.rA a).toNat (s.rA b).toNat h.push)).boundRot s).core (coreAt (clusterOf s.turn.core) i)).rot.isSome) = false := by
    obtain ⟨i, hi, hnone⟩ := hother
    rw [List.all_eq_false]
    refine ⟨i, List.mem_finRange i, ?_⟩
    rw [core_boundRot, State.core_modCore, if_neg hi, (aTake_owes s h.wait h.push [a, b] [] [] 1).took.only.cores _ hi, hnone]
    exact Bool.false_ne_true
  dsimp only
  rw [if_neg (by exact (Bool.eq_false_iff.1 hall))]
  exact hbounded

end

/-- Settles O38: each word leaves what its rule says and owes its push. -/
theorem wordsThatRetireLater : Obligations.WordsThatRetireLater := by
  intro i r base s hi ready need
  cases hi with
  | evset => rw [exec_evset, execEvset]; exact asks_owes ready need
  | evclr => rw [exec_evclr, execEvclr]; exact asks_owes ready need
  | tlbinv => rw [exec_tlbinv]; exact tlbinv_owes ready need.1 need.2.1 need.2.2
  | lnch => rw [exec_lnch]; exact lnch_owes ready need
  | rgrot =>
    obtain ⟨hfree, hsrc, hdst, hother⟩ := need
    rw [exec_rgrot]
    exact rgrot_owes ready hfree hsrc hdst hother

end Sys2Proof.Machine


/-! SUPPORT. The copy long forms of stream A: the command in the buffer of its die (spec/10 R204-R209). -/
namespace Sys2Proof.Machine
open Sys2Proof Sys2Proof.Claims

section
variable {h : LHdr} {s : State} {rp : Option (Fin 16)} {glob : Bool}

theorem copyWait_none (hok : CopyReady h rp glob s) : copyWait s = none := by
  have hstores : (s.tb.live.any fun (o : AOp) => o.body.writes && o.open_) = false := by
    rw [List.any_eq_false]
    intro o ho hboth
    obtain ⟨hwrites, hopen⟩ := Bool.and_eq_true_iff.1 hboth
    unfold AOp.open_ at hopen
    rw [hok.stores o ho hwrites] at hopen
    exact Bool.false_ne_true hopen
  unfold copyWait
  dsimp only
  rw [decide_eq_false (Nat.not_le.2 hok.room), hstores, hok.acquires, hok.fence]
  rfl

theorem ringPutBlock_none (hok : CopyReady h rp glob s) : ringPutBlock rp 1 s = none := by
  cases rp with
  | none => rfl
  | some r =>
    obtain ⟨x, hring, hprod, hfree⟩ := hok.ring r rfl
    unfold ringPutBlock
    dsimp only
    rw [hring]
    dsimp only
    rw [hprod, if_neg (by decide), if_neg hfree]

/-- The slot that a command reserves in its ring. -/
def reserved (rp : Option (Fin 16)) (id : Nat) (b : Bank) : Bank :=
  match rp with
  | some r => (match b.ring r with | some x => ringSet r (some (x.reserve (2 ^ 32 + id))) b | none => b)
  | none => b

/-- CPISS, CPSTAT and the digest of a command. -/
def copyCounted (digest : List (DWord × DWord × DWord) → List (DWord × DWord × DWord)) (b : Bank) : Bank :=
  { b with
    cpiss := b.cpiss + 1
    cpstat := b.cpstat.set (b.cpiss.toNat % 8) (cpstatWord 1 0 0) (Nat.mod_lt _ (by decide))
    digest := digest b.digest }

theorem copyCounted_parts (digest : List (DWord × DWord × DWord) → List (DWord × DWord × DWord)) (b n : Bank) :
    copyCounted digest b = aParts (copyCounted digest b) b ∧
      copyCounted digest (aParts b n) = aParts (copyCounted digest b) n := ⟨rfl, rfl⟩

/-- What a command adds to the digest of a recording. -/
def copyDigest (c : CopyCmd) (s : State) (l : List (DWord × DWord × DWord)) : List (DWord × DWord × DWord) :=
  if (s.part s.tb.part).rpMode = 0 then l
  else l ++ [(BitVec.ofNat 64 c.dstS.base, BitVec.ofNat 64 (2 ^ 63 + (s.die (dieOf s.turn.core)).nextCopy), 0)]

theorem copyNoted_eq (c : CopyCmd) (b : Bank) :
    copyNoted rp c s b = copyCounted (copyDigest c s) (reserved rp (s.die (dieOf s.turn.core)).nextCopy b) := rfl

theorem reserved_parts (id : Nat) (b n : Bank) :
    reserved rp id b = aParts (reserved rp id b) b ∧ reserved rp id (aParts b n) = aParts (reserved rp id b) n := by
  cases rp with
  | none => exact ⟨rfl, rfl⟩
  | some r =>
    cases hring : b.ring r with
    | none =>
      have hb : reserved (some r) id b = b := by unfold reserved; simp only [hring]
      have hn : reserved (some r) id (aParts b n) = aParts b n := by
        unfold reserved; simp only [show (aParts b n).ring r = none from hring]
      rw [hb, hn]
      exact ⟨rfl, rfl⟩
    | some x =>
      have hb : reserved (some r) id b = ringSet r (some (x.reserve (2 ^ 32 + id))) b := by unfold reserved; simp only [hring]
      have hn : reserved (some r) id (aParts b n) = ringSet r (some (x.reserve (2 ^ 32 + id))) (aParts b n) := by
        unfold reserved; simp only [show (aParts b n).ring r = some x from hring]
      rw [hb, hn]
      exact ringSet_parts r _ b n

theorem copyNoted_parts (c : CopyCmd) (b n : Bank) :
    copyNoted rp c s b = aParts (copyNoted rp c s b) b ∧ copyNoted rp c s (aParts b n) = aParts (copyNoted rp c s b) n := by
  obtain ⟨hself, hmoved⟩ := reserved_parts (rp := rp) (s.die (dieOf s.turn.core)).nextCopy b n
  rw [copyNoted_eq, copyNoted_eq, hmoved]
  generalize reserved rp (s.die (dieOf s.turn.core)).nextCopy b = b' at hself ⊢
  refine ⟨?_, rfl⟩
  rw [hself]
  rfl

theorem reserve_modTb (id : Nat) (t : State) :
    (match rp with
      | some r => match t.tb.ring r with
        | some x => t.setRing t.turn.core t.turn.ctx r (some (x.reserve (2 ^ 32 + id)))
        | none => t
      | none => t) = t.modTb (reserved rp id) := by
  cases rp with
  | none => exact (modTb_id t).symm
  | some r =>
    dsimp only
    cases hring : t.tb.ring r with
    | none => exact (modTb_id t).symm.trans (modTb_const t _ _ (by unfold reserved; simp only [hring]))
    | some x => exact modTb_const t _ _ (by unfold reserved; simp only [hring]; rfl)

/-- CPISS, CPSTAT and the digest as the issue writes them. -/
def issueCounted (c : CopyCmd) (id : Nat) (t : State) (b : Bank) : Bank :=
  { b.setCpstat b.cpiss (cpstatWord 1 0 0) with
    cpiss := b.cpiss + 1
    digest := if (t.part b.part).rpMode = 0 then b.digest
      else b.digest ++ [(BitVec.ofNat 64 c.dstS.base, BitVec.ofNat 64 (2 ^ 63 + id), 0)] }

/-- The command enters the buffer of its die. -/
def enters (d : Fin 8) (c : CopyCmd) (s : State) : State :=
  s.modDie d fun x => { x with copies := x.copies ++ [c], nextCopy := x.nextCopy + 1 }

theorem enters_coreless (d : Fin 8) (c : CopyCmd) : Coreless (enters d c) := fun _ _ _ => rfl

/-- What the issue does once its slot is reserved. -/
def issuedFrom (c : CopyCmd) (s t : State) : State :=
  (enters (dieOf s.turn.core) c (t.modTb (issueCounted c (s.die (dieOf s.turn.core)).nextCopy t))).schedule 20 .copyChannelStart
    { EvArgs.ofDie (dieOf s.turn.core) with id := (s.die (dieOf s.turn.core)).nextCopy }

theorem reserved_part (id : Nat) (b : Bank) : (reserved rp id b).part = b.part := by
  unfold reserved
  cases rp with
  | none => rfl
  | some r =>
    dsimp only
    cases b.ring r with
    | none => rfl
    | some x => rfl

theorem issuedFrom_reserved {srcs : List (Fin 32)} (c : CopyCmd) :
    issuedFrom c s ((s.aTake h.wait h.push srcs 2).modTb (reserved rp (s.die (dieOf s.turn.core)).nextCopy)) =
      (enters (dieOf s.turn.core) c ((s.aTake h.wait h.push srcs 2).modTb (copyNoted rp c s))).schedule 20 .copyChannelStart
        { EvArgs.ofDie (dieOf s.turn.core) with id := (s.die (dieOf s.turn.core)).nextCopy } := by
  have hpart : (s.aTake h.wait h.push srcs 2).tb.part = s.tb.part := (congrArg Bank.part (aTake_owes s h.wait h.push srcs [] [] 2).took.bank).trans rfl
  unfold issuedFrom
  rw [modTb_modTb]
  rw [modTb_const (s.aTake h.wait h.push srcs 2) _ (copyNoted rp c s)]
  rw [copyNoted_eq]
  unfold issueCounted copyCounted copyDigest
  rw [reserved_part, hpart]
  rfl

theorem issued_owes {srcs : List (Fin 32)} {cmd : State → CopyCmd} {need : State → Prop} :
    AOwes (copies h srcs rp glob need fun s => bufferEntry h rp (cmd s) s) s (buffered (bufferEntry h rp (cmd s) s) s)
      (issuedFrom (bufferEntry h rp (cmd s) s) s
        ((s.aTake h.wait h.push srcs 2).modTb (reserved rp (s.die (dieOf s.turn.core)).nextCopy))) := by
  have hnoted := (aTake_owes s h.wait h.push srcs [] [] 2).upd (copyNoted rp (bufferEntry h rp (cmd s) s) s)
    (fun b => (copyNoted_parts _ b b).1) (fun b n => (copyNoted_parts _ b n).2)
    { wait := h.wait, push := h.push, srcs := srcs, size := 2, upd := fun s => copyNoted rp (bufferEntry h rp (cmd s) s) s }
    rfl rfl rfl rfl rfl rfl rfl
  have hentered := hnoted.outside (enters_coreless (dieOf s.turn.core) (bufferEntry h rp (cmd s) s)) fun _ => rfl
  have hid : ((buffered (bufferEntry h rp (cmd s) s) s).die (dieOf s.turn.core)).nextCopy - 1 = (s.die (dieOf s.turn.core)).nextCopy := by
    unfold buffered
    rw [State.die_modDie, if_pos rfl]
    rfl
  rw [issuedFrom_reserved]
  refine ((hentered.needs _).schedule 20 .copyChannelStart _ _ rfl ?_ rfl)
  show ((buffered _ s).schedule 20 .copyChannelStart
    { EvArgs.ofDie (dieOf s.turn.core) with id := ((buffered _ s).die (dieOf s.turn.core)).nextCopy - 1 }).agenda = _
  rw [hid]
  rfl

/-- A ready copy long form leaves its command in the buffer. -/
theorem copy_owes {srcs : List (Fin 32)} {blk : State → Option State} {raw cmd : State → CopyCmd} {need : State → Prop}
    (ready : AReady h.wait h.push srcs [] [] s) (hok : CopyReady h rp glob s) (hblk : blk s = none) (hcmd : raw s = cmd s) :
    ∃ t, aCopy h srcs rp glob blk raw s = .next t ∧
      AOwes (copies h srcs rp glob need fun s => bufferEntry h rp (cmd s) s) s (buffered (bufferEntry h rp (cmd s) s) s) t := by
  have hseal : (glob && s.tb.sealed) = false := by
    cases glob
    · rfl
    · rw [hok.unsealed rfl]; rfl
  have hreserve := congrArg (issuedFrom (bufferEntry h rp (raw s) s) s)
    (reserve_modTb (rp := rp) (s.die (dieOf s.turn.core)).nextCopy (s.aTake h.wait h.push srcs 2))
  refine ⟨_, ?_, issued_owes⟩
  rw [← hcmd, ← hreserve]
  unfold aCopy
  rw [ready.consumer, ready.producer, hok.stamp, aGate_ready ready, hseal, copyWait_none hok, hblk, ringPutBlock_none hok]
  rfl

theorem copy2_owes {op : CopyOp} {ss ds : Bool} {d x : Fin 16} {l : Option (Fin 32)} {need : State → Prop} (ready : AReady h.wait h.push l.toList [] [] s)
    (hready : CopyReady h rp (!ds) s) (hok : HandlesOk op ss ds d x (l.map fun a => (s.rA a).toNat) s) :
    ∃ t, aCopy2 op h ss ds rp d x l s = .next t ∧
      AOwes (copies h l.toList rp (!ds) need fun s => bufferEntry h rp (between op ss ds d x (l.map fun a => (s.rA a).toNat) s) s) s
        (buffered (bufferEntry h rp (between op ss ds d x (l.map fun a => (s.rA a).toNat) s) s) s) t := by
  unfold aCopy2
  have hhandles := hok.handles
  rw [Option.isSome_map] at hhandles
  refine copy_owes ready hready ?_ rfl
  dsimp only
  rw [hhandles, hok.read, hok.dst, hok.src]
  cases l with
  | none => rfl
  | some a => simp only [Option.map, Option.toList, hok.list _ rfl, List.cons_append, List.nil_append, List.findSome?, id]

end

/-- Settles O40: each form passes its checks and fills the buffer of its die. -/
theorem copyWords : Obligations.CopyWords := by
  intro i r c s hi ready need
  cases hi with
  | cpy => rw [exec_cpy, execCpy]; exact copy2_owes (l := none) ready need.1 need.2
  | @cpg h ss ds rp d x l => rw [exec_cpg, execCpg]; exact copy2_owes (l := some l) ready need.1 need.2
  | @cps h ss ds rp d x l hl => rw [exec_cps, execCps, if_neg hl]; exact copy2_owes (l := some l) ready need.1 need.2
  | cpsIdx => rw [exec_cps, execCps, if_pos (show (0 : Fin 32).val = 0 from rfl)]; exact copy2_owes (l := none) ready need.1 need.2
  | cpq => rw [exec_cpq, execCpq]; exact copy2_owes (l := none) ready need.1 need.2
  | cpm =>
    obtain ⟨hready, hout, hfirst, hsecond⟩ := need
    rw [exec_cpm, execCpm]
    exact copy_owes ready hready (by rw [hout, hfirst, hsecond]; rfl) rfl

end Sys2Proof.Machine

/-! SUPPORT. Stream M: what an issued word leaves, and its own words (spec/11 R212, R231). -/
namespace Sys2Proof.Machine
open Sys2Proof Sys2Proof.Claims

/-! ## An issued word of stream M -/

section
variable {h : MHdr} {ks : List (Fin 8)} {s u t : State} {b : Bank} {l : List Due}

theorem mGate_ready (ready : MReady h ks s) : s.mGate h ks = none := by
  have hbinds : s.tb.bindsM h = true := by unfold Bank.bindsM; rw [ready.consumer, ready.producer]; rfl
  have hregs : (ks.any fun r => s.kPending s.turn.core s.turn.ctx r) = false := by
    rw [List.any_eq_false]
    intro r hr
    rw [ready.regs r hr]
    exact Bool.false_ne_true
  have hstamp : s.stampGate (BitVec.ofNat 24 s.turn.stamp) = none := by
    unfold State.stampGate
    cases hdetm : s.tb.detm with
    | false => rfl
    | true =>
      dsimp only
      rw [ready.stamp hdetm]
      rfl
  unfold State.mGate
  dsimp only
  rw [hbinds, hstamp, ready.token, ready.room, hregs]
  rfl

theorem mWord_ready (ready : MReady h ks s) {blk : State → Option State} (hblk : blk s = none) (eff : State → State) :
    mWord h ks blk eff s = .next (eff (s.mTake h)) := by
  unfold mWord
  rw [mGate_ready ready]
  dsimp only
  rw [hblk]

/-- A word of stream M has issued over the state `u`, its push owed: its bank is `b` and the agenda `l`. -/
structure MOwes (h : MHdr) (s u : State) (b : Bank) (l : List Due) (t : State) : Prop where
  only : OnlyBank u t
  issued : t.turn.how = .issued
  bank : t.tb = mParts b t.tb
  tokens : TokensOwed h.wait h.push s.tb t.tb
  agenda : t.agenda = l

/-- What an issued word takes: its token, its place, and a breakpoint it has passed. -/
def mTakes (h : MHdr) (b : Bank) : Bank :=
  { mMoved ((b.popToken h.wait).owe h.push) with bpSkip := b.bpSkip.filter fun x => x.1 != .m }

theorem popToken_owe_flags (b : Bank) (wait push : Option (Fin 16)) : ∃ x, (b.popToken wait).owe push = { b with flags := x } := by
  cases wait <;> cases push <;> exact ⟨_, rfl⟩

theorem mTakes_parts (b : Bank) :
    mTakes h b = { mMoved b with
      flags := ((b.popToken h.wait).owe h.push).flags, bpSkip := b.bpSkip.filter fun x => x.1 != .m } := by
  obtain ⟨x, hx⟩ := popToken_owe_flags b h.wait h.push
  unfold mTakes
  rw [hx]
  rfl

theorem mTake_eq (s : State) (h : MHdr) : s.mTake h = (s.modTb (mTakes h)).how .issued := by
  have hskip (b : Bank) : ((b.popToken h.wait).owe h.push).bpSkip = b.bpSkip := by
    obtain ⟨x, hx⟩ := popToken_owe_flags b h.wait h.push
    rw [hx]
  unfold State.mTake
  refine congrArg (fun f => (s.modTb f).how .issued) (funext fun b => ?_)
  unfold mTakes
  rw [← hskip]
  rfl

theorem mTake_owes (s : State) (h : MHdr) : MOwes h s s (mMoved s.tb) s.agenda (s.mTake h) := by
  rw [mTake_eq]
  have htb : ((s.modTb (mTakes h)).how .issued).tb = mTakes h s.tb := State.tb_modTb _ _
  refine ⟨((OnlyBank.refl s).modTb _).how _, rfl, ?_, ?_, rfl⟩
  · rw [htb, mTakes_parts]
    rfl
  · intro f
    rw [htb, mTakes_parts]
    exact Bank.flag_take s.tb h.wait h.push f

theorem MOwes.upd (howes : MOwes h s u b l t) (g : Bank → Bank) (hself : ∀ b, g b = mParts (g b) b)
    (hmoved : ∀ b n, g (mParts b n) = mParts (g b) n) : MOwes h s u (g b) l (t.modTb g) := by
  have htb : (t.modTb g).tb = g t.tb := State.tb_modTb _ _
  refine ⟨howes.only.modTb g, howes.issued, ?_, ?_, howes.agenda⟩
  · rw [htb]
    have hbank := howes.bank
    generalize t.tb = c at hbank ⊢
    rw [hself c, hbank, hmoved]
    rfl
  · intro f
    rw [htb, hself]
    exact howes.tokens f

theorem MOwes.schedule (howes : MOwes h s u b l t) (n : Nat) (i : Instr) (a : EvArgs) :
    MOwes h s u b (insertBy (fun x y => decide (x.at_ < y.at_)) { at_ := u.cycle + n, what := i, args := a } l) (t.schedule n i a) :=
  ⟨howes.only.schedule n i a, howes.issued, howes.bank, howes.tokens, by rw [schedule_agenda, howes.agenda, howes.only.cycle]⟩

theorem MOwes.outside (howes : MOwes h s s b s.agenda t) {f : State → State} (hf : Coreless f) : MOwes h s (f s) b (f s).agenda (f t) := by
  obtain ⟨honly, htb, hturn, hagenda⟩ := hf.only howes.only howes.agenda
  exact ⟨honly, by rw [hturn]; exact howes.issued, by rw [htb]; exact howes.bank, by rw [htb]; exact howes.tokens, hagenda⟩

/-- A token owed is now travelling. -/
def sendsOwed (f : Fin 16) (b : Bank) : Bank :=
  b.modFlag f fun x => { x with owed := x.owed - 1, travel := x.travel + 1 }

theorem mPush_some {f : Fin 16} (hpush : h.push = some f) :
    t.mPush h = (t.modTb (sendsOwed f)).schedule 2 .tokenPoppable { EvArgs.at t.turn.core t.turn.ctx with n := f.val } := by
  unfold State.mPush State.pushToken
  rw [hpush]
  rfl

theorem MOwes.sent {f : Fin 16} (howes : MOwes h s u b l t) (hpush : h.push = some f) :
    TokensSent h.wait h.push s.tb (t.modTb (sendsOwed f)).tb := by
  have htb : (t.modTb (sendsOwed f)).tb = sendsOwed f t.tb := State.tb_modTb _ _
  have htokens := howes.tokens
  rw [hpush] at htokens ⊢
  intro e
  rw [htb]
  unfold sendsOwed
  rw [Bank.flag_modFlag]
  by_cases he : e = f
  · subst he
    rw [if_pos rfl, htokens e]
    simp
  · rw [if_neg he, htokens e]
    simp [Ne.symm he]

theorem MOwes.travels {f : Fin 16} (howes : MOwes h s u b l t) :
    (t.modTb (sendsOwed f)).tb = mParts b (t.modTb (sendsOwed f)).tb := by
  have htb : (t.modTb (sendsOwed f)).tb = sendsOwed f t.tb := State.tb_modTb _ _
  have hbank := howes.bank
  rw [htb]
  unfold sendsOwed Bank.modFlag
  generalize t.tb = c at hbank ⊢
  rw [hbank]
  rfl

/-- The push at retirement. -/
theorem MOwes.retire {r : MForm} (howes : MOwes r.hdr s (r.base s) (r.upd s (mMoved s.tb)) (r.plan (r.base s)).agenda t)
    (hcycle : (r.plan (r.base s)).cycle = (r.base s).cycle) (hcore : (r.plan (r.base s)).turn.core = (r.base s).turn.core)
    (hctx : (r.plan (r.base s)).turn.ctx = (r.base s).turn.ctx) : MRetires r s (t.mPush r.hdr) := by
  cases hpush : r.hdr.push with
  | none =>
    have hnone : t.mPush r.hdr = t := by unfold State.mPush State.pushToken; rw [hpush]
    have htokens := howes.tokens
    rw [hpush] at htokens
    rw [hnone]
    exact ⟨howes.only, howes.issued, howes.bank, by rw [hpush]; exact tokensSent_of_owed htokens, by rw [hpush]; exact howes.agenda⟩
  | some f =>
    rw [mPush_some hpush]
    have honly := howes.only.modTb (sendsOwed f)
    refine ⟨honly.schedule _ _ _, howes.issued, howes.travels, howes.sent hpush, ?_⟩
    unfold pushAgenda
    rw [hpush]
    dsimp only
    rw [schedule_agenda, schedule_agenda, hcycle, hcore, hctx, honly.cycle, howes.only.core, howes.only.ctx, ← howes.agenda]
    rfl

end

/-! ## The words -/

section
variable {h : MHdr} {ks : List (Fin 8)} {s : State}

/-- A word that only changes its bank. -/
theorem mChanges_retires {need : State → Prop} {f : State → Bank → Bank} {eff : State → State} (g : Bank → Bank)
    (ready : MReady h ks s) (hself : ∀ b, g b = mParts (g b) b) (hmoved : ∀ b n, g (mParts b n) = mParts (g b) n)
    (hf : g (mMoved s.tb) = f s (mMoved s.tb)) (heff : eff (s.mTake h) = ((s.mTake h).modTb g).mPush h) :
    ∃ t, mWord h ks noBlock eff s = .next t ∧ MRetires { hdr := h, ks := ks, need := need, upd := f } s t := by
  refine ⟨_, mWord_ready ready rfl _, ?_⟩
  rw [heff]
  have howes := (mTake_owes s h).upd g hself hmoved
  rw [hf] at howes
  exact MOwes.retire (r := { hdr := h, ks := ks, need := need, upd := f }) howes rfl rfl rfl

theorem mnop_retires (ready : MReady h [] s) : ∃ t, execMnop h s = .next t ∧ MRetires { hdr := h } s t :=
  mChanges_retires (f := fun _ b => b) (fun b => b) ready (fun _ => rfl) (fun _ _ => rfl) rfl (congrArg (State.mPush · h) (modTb_id _).symm)

theorem modCluster_coreless (cl : Fin 64) (f : Cluster → Cluster) : Coreless fun s => s.modCluster cl f := fun _ _ _ => rfl

theorem leaseEnds_coreless (cl : Fin 64) : Coreless fun s => s.leaseEnds cl := by
  intro C T s
  have hcluster (u : State) : (onCores C T u).cluster cl = u.cluster cl := rfl
  have hmod (u : State) (f : Cluster → Cluster) : (onCores C T u).modCluster cl f = onCores C T (u.modCluster cl f) := rfl
  show (onCores C T s).leaseEnds cl = onCores C T (s.leaseEnds cl)
  unfold State.leaseEnds
  rw [hcluster]
  cases (s.cluster cl).holder with
  | none => rfl
  | some i =>
    dsimp only
    rw [hmod, hcluster]
    cases ((s.modCluster cl fun c => { c with holder := none, last := i }).cluster cl).nextHolder i <;> rfl

theorem endLease_coreless (g : Fin 512) : Coreless fun s => s.endLease g := by
  intro C T s
  have hcluster (u : State) : (onCores C T u).cluster (clusterOf g) = u.cluster (clusterOf g) := rfl
  have hmod (u : State) (f : Cluster → Cluster) : (onCores C T u).modCluster (clusterOf g) f = onCores C T (u.modCluster (clusterOf g) f) := rfl
  show (onCores C T s).endLease g = onCores C T (s.endLease g)
  unfold State.endLease
  dsimp only
  rw [hmod, hcluster]
  split
  · exact leaseEnds_coreless _ C T _
  · rfl

theorem mfree_retires (ready : MReady h [] s) :
    ∃ t, execMfree h s = .next t ∧ MRetires { hdr := h, base := fun s => s.endLease s.turn.core } s t := by
  have hcoreless := endLease_coreless s.turn.core
  refine ⟨_, mWord_ready ready rfl _, ?_⟩
  have howes := (mTake_owes s h).outside hcoreless
  exact MOwes.retire (r := { hdr := h, base := fun s => s.endLease s.turn.core }) howes rfl rfl rfl

/-! ### Leases (R212) -/

theorem grant_coreless (cl : Fin 64) (i : Fin 8) : Coreless fun s => s.grant cl i := fun _ _ _ => rfl

theorem grant_kPending (cl : Fin 64) (i : Fin 8) (g : Fin 512) (k : Fin 3) (r : Fin 8) : (s.grant cl i).kPending g k r = s.kPending g k r := by
  have hcmds : ((s.grant cl i).cluster (clusterOf g)).cmds = (s.cluster (clusterOf g)).cmds := by
    show ((s.modCluster cl fun c =>
      { c with holder := some i, granted := s.cycle, used := 0, requests := setBit c.requests i.val false }).cluster (clusterOf g)).cmds = _
    rw [State.cluster_modCluster]
    by_cases hcl : clusterOf g = cl
    · rw [if_pos hcl, hcl]
    · rw [if_neg hcl]
  unfold State.kPending
  rw [hcmds]

theorem grant_ready (cl : Fin 64) (i : Fin 8) (ready : MReady h ks s) : MReady h ks (s.grant cl i) :=
  ⟨ready.consumer, ready.producer, ready.token, ready.room, ready.stamp, fun r hr => (grant_kPending ..).trans (ready.regs r hr)⟩

theorem askLease_holds {asks : Bool} (hholds : Holds s) : s.askLease asks = (s, true) := by
  unfold State.askLease
  dsimp only
  rw [hholds, if_pos (beq_self_eq_true _)]

theorem askLease_free (hfree : LeaseFree s) : s.askLease true = (s.grant (clusterOf s.turn.core) (inCluster s.turn.core), true) := by
  obtain ⟨hholder, hgrant⟩ := hfree
  have hmay : (s.tb.detm || !s.grantPending (clusterOf s.turn.core)) = true := by
    rcases hgrant with hgrant | hgrant
    · rw [hgrant]; rfl
    · rw [hgrant, Bool.not_false, Bool.or_true]
  unfold State.askLease
  dsimp only
  rw [hholder, hmay]
  rfl

theorem leaseGate_holds {lease : Bool} (ready : MReady h ks s) (hholds : Holds s) : s.leaseGate h ks lease = (s, true) := by
  have hasked : (if s.tb.detm || !s.tb.bindsM h then (s, true) else s.askLease true) = (s, true) := by
    rw [askLease_holds hholds, ite_self]
  unfold State.leaseGate
  dsimp only
  rw [hasked, askLease_holds hholds, ite_self]
  dsimp only
  rw [mGate_ready ready]
  rfl

theorem leaseGate_free (ready : MReady h ks s) (hfree : LeaseFree s) :
    s.leaseGate h ks true = (s.grant (clusterOf s.turn.core) (inCluster s.turn.core), true) := by
  have hbinds : s.tb.bindsM h = true := by unfold Bank.bindsM; rw [ready.consumer, ready.producer]; rfl
  unfold State.leaseGate
  dsimp only
  rw [hbinds, askLease_free hfree]
  cases s.tb.detm with
  | true =>
    simp only [Bool.true_or, ↓reduceIte]
    rw [mGate_ready ready]
  | false =>
    simp only [Bool.not_true, Bool.or_false, Bool.false_eq_true, ↓reduceIte]
    rw [mGate_ready (grant_ready _ _ ready)]

theorem mlease_retires (ready : MReady h [] s) (hholds : Holds s) :
    ∃ t, execMlease h s = .next t ∧ MRetires { hdr := h, need := Holds } s t := by
  refine ⟨_, rfl, ?_⟩
  rw [leaseGate_holds ready hholds]
  exact MOwes.retire (r := { hdr := h, need := Holds }) (mTake_owes s h) rfl rfl rfl

theorem mleaseTakes_retires (ready : MReady h [] s) (hfree : LeaseFree s) :
    ∃ t, execMlease h s = .next t ∧ MRetires { hdr := h, need := LeaseFree, base := leaseTaken } s t := by
  refine ⟨_, rfl, ?_⟩
  rw [leaseGate_free ready hfree]
  obtain ⟨honly, hissued, hbank, htokens, hagenda⟩ := mTake_owes (leaseTaken s) h
  exact MOwes.retire (r := { hdr := h, need := LeaseFree, base := leaseTaken }) ⟨honly, hissued, hbank, htokens, hagenda⟩ rfl rfl rfl

/-! ### The end of the stream -/

/-- Two steps planned for different times may be planned in either order. -/
theorem insertBy_swap {x y : Due} (hlt : x.at_ < y.at_) (l : List Due) :
    insertBy (fun x y => decide (x.at_ < y.at_)) x (insertBy (fun x y => decide (x.at_ < y.at_)) y l) =
      insertBy (fun x y => decide (x.at_ < y.at_)) y (insertBy (fun x y => decide (x.at_ < y.at_)) x l) := by
  have hge : ¬ y.at_ < x.at_ := Nat.not_lt.2 hlt.le
  induction l with
  | nil => simp [insertBy, hlt, hge]
  | cons z l ih =>
    by_cases hy : y.at_ < z.at_
    · have hx : x.at_ < z.at_ := hlt.trans hy
      simp [insertBy, hlt, hge, hy, hx]
    · by_cases hx : x.at_ < z.at_
      · simp [insertBy, hge, hy, hx]
      · simp [insertBy, hy, hx, ih]

theorem mfin_retires (ready : MReady h [] s) :
    ∃ t, execMfin h s = .next t ∧ MRetires { hdr := h, upd := fun _ => endsM, plan := endsUnit } s t := by
  have htake := mTake_owes s h
  have hpushed := MOwes.retire (r := { hdr := h }) htake rfl rfl rfl
  generalize ht : (s.mTake h).mPush h = t at hpushed
  have htb : (t.modTb endsM).tb = endsM t.tb := State.tb_modTb _ _
  have hleft : (t.modTb endsM).tb.left = s.tb.left - 1 := by
    rw [htb, hpushed.bank]
    rfl
  have hcore : t.turn.core = s.turn.core := hpushed.only.core
  have hctx : t.turn.ctx = s.turn.ctx := hpushed.only.ctx
  have hcond : (decide ((t.modTb endsM).tb.left = 0) && t.turn.ctx.val != 2) = true ↔ s.tb.left - 1 = 0 ∧ s.turn.ctx.val ≠ 2 := by
    rw [hleft, hctx, Bool.and_eq_true, decide_eq_true_eq, bne_iff_ne]
  have hmod : (t.modTb fun b => { b with mEnded := true }).modTb (fun b => { b with left := b.left - 1 }) = t.modTb endsM := by
    rw [modTb_modTb]
    rfl
  have hend : ((t.modTb fun b => { b with mEnded := true }).streamEnd t.turn.core t.turn.ctx) =
      if s.tb.left - 1 = 0 ∧ s.turn.ctx.val ≠ 2 then
        (t.modTb endsM).schedule 0 .unitCompletion (EvArgs.at s.turn.core s.turn.ctx)
      else t.modTb endsM := by
    refine Eq.trans ?_ (if_congr hcond rfl rfl)
    rw [← hmod, ← hcore, ← hctx]
    rfl
  have hbank : (t.modTb endsM).tb = mParts (endsM (mMoved s.tb)) (t.modTb endsM).tb := by
    rw [htb]
    have hbank := hpushed.bank
    generalize t.tb = c at hbank ⊢
    rw [hbank]
    rfl
  have htokens : TokensSent h.wait h.push s.tb (t.modTb endsM).tb := by
    intro f
    rw [htb]
    exact hpushed.tokens f
  refine ⟨_, mWord_ready ready rfl _, ?_⟩
  have hturn : ((s.mTake h).turn.core, (s.mTake h).turn.ctx) = (t.turn.core, t.turn.ctx) := by
    rw [hcore, hctx, htake.only.core, htake.only.ctx]
  obtain ⟨htc, htx⟩ := Prod.mk.inj hturn
  rw [htc, htx, ht, hend]
  by_cases hlast : s.tb.left - 1 = 0 ∧ s.turn.ctx.val ≠ 2
  · rw [if_pos hlast]
    refine ⟨(hpushed.only.modTb _).schedule _ _ _, hpushed.issued, hbank, htokens, ?_⟩
    rw [schedule_agenda, (hpushed.only.modTb endsM).cycle]
    show insertBy _ _ t.agenda = pushAgenda (endsUnit s) h.push
    unfold endsUnit
    rw [if_pos hlast, hpushed.agenda]
    unfold pushAgenda
    cases h.push with
    | none => rfl
    | some f => exact insertBy_swap (Nat.lt_add_of_pos_right (by decide)) _
  · rw [if_neg hlast]
    refine ⟨hpushed.only.modTb _, hpushed.issued, hbank, htokens, ?_⟩
    show t.agenda = pushAgenda (endsUnit s) h.push
    unfold endsUnit
    rw [if_neg hlast]
    exact hpushed.agenda

/-! ### Index registers and loops (R231) -/

theorem wrK_setK (t : State) (kd : Fin 8) (v : Word) : t.wrK kd v = t.modTb (setK kd v) := rfl

theorem openM_parts (l : Bool) (r : LoopReg) (b n : Bank) :
    openM l r b = mParts (openM l r b) b ∧ openM l r (mParts b n) = mParts (openM l r b) n := by
  cases l <;> exact ⟨rfl, rfl⟩

theorem mloop_opens {l : Bool} {c d : Word} (ready : MReady h ks s) :
    ∃ t, mWord h ks noBlock (fun t => (t.modTb fun b =>
        if l then { b with mLoop1 := LoopReg.openAt s.tb.mpc c d } else { b with mLoop0 := LoopReg.openAt s.tb.mpc c d }).mPush h) s = .next t ∧
      MRetires { hdr := h, ks := ks, upd := fun _ => openM l (opens s.tb.mpc c d) } s t :=
  mChanges_retires (f := fun _ => openM l (opens s.tb.mpc c d)) (openM l (opens s.tb.mpc c d)) ready
    (fun b => (openM_parts l _ b b).1) (fun b n => (openM_parts l _ b n).2) rfl (by rw [openAt_opens]; rfl)

theorem mbnz_taken {kn : Fin 8} {disp : BitVec 20} (ready : MReady h [kn] s) (hmore : s.tb.k.get kn ≠ 1)
    (htrace : (s.part s.tb.part).trcBr = false) :
    ∃ t, execMbnz h kn disp s = .next t ∧ MRetires
      { hdr := h, ks := [kn], need := fun s => s.tb.k.get kn ≠ 1 ∧ (s.part s.tb.part).trcBr = false
        upd := fun s b => jumpedM s.tb (s.tb.mpc + disp.signExtend 32) (setK kn (s.tb.k.get kn - 1) b) } s t := by
  have hnonzero : s.rK kn - 1 ≠ 0 := fun hzero => hmore (sub_eq_zero.1 hzero)
  unfold execMbnz
  refine mChanges_retires (f := fun s b => jumpedM s.tb (s.tb.mpc + disp.signExtend 32) (setK kn (s.tb.k.get kn - 1) b))
    (fun b => jumpedM s.tb (s.tb.mpc + disp.signExtend 32) (setK kn (s.tb.k.get kn - 1) b)) ready (fun _ => rfl) (fun _ _ => rfl) rfl ?_
  dsimp only
  rw [if_neg hnonzero, htrace]
  unfold State.mTaken
  dsimp only
  rw [wrK_setK, if_neg Bool.false_ne_true, modTb_modTb]
  rfl

theorem mbnz_ends {kn : Fin 8} {disp : BitVec 20} (ready : MReady h [kn] s) (hlast : s.tb.k.get kn = 1) :
    ∃ t, execMbnz h kn disp s = .next t ∧ MRetires
      { hdr := h, ks := [kn], need := fun s => s.tb.k.get kn = 1, upd := fun _ => setK kn 0 } s t := by
  have hzero : s.rK kn - 1 = 0 := by
    show s.tb.k.get kn - 1 = 0
    rw [hlast]
    rfl
  unfold execMbnz
  refine mChanges_retires (f := fun _ => setK kn 0) (setK kn 0) ready (fun _ => rfl) (fun _ _ => rfl) rfl ?_
  dsimp only
  rw [if_pos hzero, hzero]
  rfl

end

/-- Settles O41: each word passes its gates; what it changes is in its bank, its cluster's lease or the agenda. -/
theorem matrixWords : Obligations.MatrixWords := by
  intro i r s hi ready need
  cases hi with
  | mnop => rw [exec_mnop]; exact mnop_retires ready
  | mlease => rw [exec_mlease]; exact mlease_retires ready need
  | mleaseTakes => rw [exec_mlease]; exact mleaseTakes_retires ready need
  | mfree => rw [exec_mfree]; exact mfree_retires ready
  | mfin => rw [exec_mfin]; exact mfin_retires ready
  | mkli => rw [exec_mkli]; exact mChanges_retires (f := fun _ => setK _ _) (setK _ _) ready (fun _ => rfl) (fun _ _ => rfl) rfl rfl
  | @mkadd h kd ks i =>
    rw [exec_mkadd]
    exact mChanges_retires (f := fun s => setK kd (s.tb.k.get ks + i.signExtend 32)) (setK kd (s.tb.k.get ks + i.signExtend 32)) ready
      (fun _ => rfl) (fun _ _ => rfl) rfl rfl
  | mloopImm =>
    rw [exec_mloop]
    obtain ⟨t, hexec, hretires⟩ := mloop_opens ready
    exact ⟨t, hexec, hretires.only, hretires.issued, hretires.bank, hretires.tokens, hretires.agenda⟩
  | mloopReg =>
    rw [exec_mloop]
    obtain ⟨t, hexec, hretires⟩ := mloop_opens ready
    exact ⟨t, hexec, hretires.only, hretires.issued, hretires.bank, hretires.tokens, hretires.agenda⟩
  | mbnzTaken => rw [exec_mbnz]; exact mbnz_taken ready need.1 need.2
  | mbnzEnds => rw [exec_mbnz]; exact mbnz_ends ready need

end Sys2Proof.Machine

/-! SUPPORT. Stream M: the commands it sends to the array (spec/11 R213-R230). -/
namespace Sys2Proof.Machine
open Sys2Proof Sys2Proof.Claims

/-! ## What a command's word leaves of its core -/

/-- What a change of the core of the turn leaves when a command is sent: only rings, owner bits, histories and marks of the
accumulators may differ. -/
structure SendStep (t u : State) : Prop where
  turn : u.turn = t.turn
  agenda : u.agenda = t.agenda
  clusters : u.clusters = t.clusters
  hbm : u.hbm = t.hbm
  host : u.host = t.host
  cores : ∀ g, g ≠ t.turn.core → u.core g = t.core g
  sp : (u.core t.turn.core).sp = (t.core t.turn.core).sp
  rows : ∀ n, ((u.core t.turn.core).acc.get n).rows = ((t.core t.turn.core).acc.get n).rows
  flags : u.tb.flags = t.tb.flags
  moved : u.tb.mpc = t.tb.mpc ∧ u.tb.mLoop0 = t.tb.mLoop0 ∧ u.tb.mLoop1 = t.tb.mLoop1
  streams : u.tb.a = t.tb.a ∧ u.tb.k = t.tb.k ∧ u.tb.cols = t.tb.cols ∧ u.tb.inflight = t.tb.inflight ∧ u.tb.ops = t.tb.ops

section
variable {s t u v : State}

theorem SendStep.trans (h : SendStep t u) (h' : SendStep u v) : SendStep t v := by
  have hcore : u.turn.core = t.turn.core := congrArg Turn.core h.turn
  obtain ⟨hpc, h0, h1⟩ := h.moved
  obtain ⟨hpc', h0', h1'⟩ := h'.moved
  obtain ⟨ha, hk, hcols, hin, hops⟩ := h.streams
  obtain ⟨ha', hk', hcols', hin', hops'⟩ := h'.streams
  refine ⟨h'.turn.trans h.turn, h'.agenda.trans h.agenda, h'.clusters.trans h.clusters, h'.hbm.trans h.hbm, h'.host.trans h.host,
    fun g hg => (h'.cores g (hcore ▸ hg)).trans (h.cores g hg), ?_, ?_, h'.flags.trans h.flags,
    ⟨hpc'.trans hpc, h0'.trans h0, h1'.trans h1⟩, ⟨ha'.trans ha, hk'.trans hk, hcols'.trans hcols, hin'.trans hin, hops'.trans hops⟩⟩
  · rw [← hcore, h'.sp, hcore, h.sp]
  · intro n
    rw [← hcore, h'.rows, hcore, h.rows]

/-- Marks of the accumulators and their owner, without the rows and the banks. -/
theorem SendStep.marks {f : Core → Core} (hsp : ∀ c, (f c).sp = c.sp) (hbanks : ∀ c, (f c).banks = c.banks)
    (hrows : ∀ c n, ((f c).acc.get n).rows = (c.acc.get n).rows) : SendStep t (t.modCore t.turn.core f) := by
  have hcore : (t.modCore t.turn.core f).core t.turn.core = f (t.core t.turn.core) := by rw [core_modCore, if_pos rfl]
  have htb : (t.modCore t.turn.core f).tb = t.tb := by
    show ((t.modCore t.turn.core f).core t.turn.core).banks.get _ = (t.core t.turn.core).banks.get _
    rw [hcore, hbanks]
    rfl
  refine ⟨rfl, rfl, rfl, rfl, rfl, ?_, ?_, ?_, ?_, ?_, ?_⟩
  · intro g hg
    rw [core_modCore, if_neg hg]
  · rw [hcore, hsp]
  · intro n
    rw [hcore, hrows]
  · rw [htb]
  · rw [htb]
    exact ⟨rfl, rfl, rfl⟩
  · rw [htb]
    exact ⟨rfl, rfl, rfl, rfl, rfl⟩

/-- A ring of the bank is now `y`; the accumulators keep their marks. -/
structure Ringed (r : Fin 16) (y : Ring) (t u : State) : Prop where
  step : SendStep t u
  ring : u.tb.rings = t.tb.rings.set r.val (some y)
  acc : (u.core t.turn.core).acc = (t.core t.turn.core).acc
  live : (u.core t.turn.core).acclive = (t.core t.turn.core).acclive

theorem ringed_set (r : Fin 16) (y : Ring) : Ringed r y t (t.modTb (ringSet r (some y))) := by
  have htb : (t.modTb (ringSet r (some y))).tb = ringSet r (some y) t.tb := State.tb_modTb _ _
  have hcore : (t.modTb (ringSet r (some y))).core t.turn.core = (t.core t.turn.core).setBank t.turn.ctx (ringSet r (some y) t.tb) := by
    show (t.modCore t.turn.core fun c => c.setBank t.turn.ctx (ringSet r (some y) t.tb)).core t.turn.core = _
    rw [core_modCore, if_pos rfl]
  refine ⟨⟨rfl, rfl, rfl, rfl, rfl, ?_, ?_, ?_, ?_, ?_, ?_⟩, ?_, ?_, ?_⟩
  · intro g hg
    show (t.modCore t.turn.core fun c => c.setBank t.turn.ctx (ringSet r (some y) t.tb)).core g = _
    rw [core_modCore, if_neg hg]
  · rw [hcore]
    rfl
  · intro n
    rw [hcore]
    rfl
  · rw [htb]
    rfl
  · rw [htb]
    exact ⟨rfl, rfl, rfl⟩
  · rw [htb]
    exact ⟨rfl, rfl, rfl, rfl, rfl⟩
  · rw [htb]
    rfl
  · rw [hcore]
    rfl
  · rw [hcore]
    rfl

theorem ringed_owned {r : Fin 16} {y : Ring} (hringed : Ringed r y t u) {f : Core → Core} (hf : OwnerLike f) :
    Ringed r y t (u.modCore t.turn.core f) := by
  obtain ⟨ow, rt, ps, hf⟩ := hf
  have hcore : u.turn.core = t.turn.core := congrArg Turn.core hringed.step.turn
  have hfcore : (u.modCore u.turn.core f).core u.turn.core = f (u.core u.turn.core) := by rw [core_modCore, if_pos rfl]
  have htb : (u.modCore u.turn.core f).tb = { u.tb with history := ps (u.core u.turn.core).owner u.tb.history } := by
    show ((u.modCore u.turn.core f).core u.turn.core).banks.get u.turn.ctx = _
    rw [hfcore, hf]
    show (Vector.map _ _).get _ = _
    simp only [Vector.get_eq_getElem, Vector.getElem_map]
    rfl
  have hstep : SendStep u (u.modCore u.turn.core f) := by
    refine ⟨rfl, rfl, rfl, rfl, rfl, ?_, ?_, ?_, ?_, ?_, ?_⟩
    · intro g hg
      rw [core_modCore, if_neg hg]
    · rw [hfcore, hf]
    · intro n
      rw [hfcore, hf]
    · rw [htb]
    · rw [htb]
      exact ⟨rfl, rfl, rfl⟩
    · rw [htb]
      exact ⟨rfl, rfl, rfl, rfl, rfl⟩
  rw [← hcore]
  refine ⟨hringed.step.trans hstep, ?_, ?_, ?_⟩
  · rw [htb]
    exact hringed.ring
  · rw [← hcore, hfcore, hf, hcore]
    exact hringed.acc
  · rw [← hcore, hfcore, hf, hcore]
    exact hringed.live

theorem claim_ringed {r : Fin 16} {n : Nat} {x : Ring} (hring : t.tb.ring r = some x) (hn : n ≠ 0) :
    Ringed r (claimed n x) t (t.claim r n) := by
  have hat : t.ringAt r = x := by unfold State.ringAt; rw [hring]; rfl
  unfold State.claim
  dsimp only
  rw [if_neg hn, hat]
  exact ringed_owned (ringed_set r (claimed n x)) (ownerLike_slots x x.head n true)

theorem reserveOut_ringed {r : Fin 16} {id : Nat} {x : Ring} (hring : t.tb.ring r = some x) :
    Ringed r (reservedFor id x) t (t.reserveOut r id) := by
  have hat : t.ringAt r = x := by unfold State.ringAt; rw [hring]; rfl
  unfold State.reserveOut
  dsimp only
  rw [hat]
  exact ringed_owned (ringed_set r (reservedFor id x)) (ownerLike_slots x x.tail 1 true)

theorem Ringed.same {r : Fin 16} {y : Ring} (h : Ringed r y t u) : u.tb.ring r = some y := by
  show u.tb.rings.get r = _
  rw [h.ring]
  exact Vector.getElem_set_self _

theorem Ringed.other {r r' : Fin 16} {y : Ring} (h : Ringed r y t u) (hne : r ≠ r') : u.tb.ring r' = t.tb.ring r' := by
  show u.tb.rings.get r' = t.tb.rings.get r'
  rw [h.ring]
  exact Vector.getElem_set_ne _ _ (fun he => hne (Fin.ext he))

/-- The command is in the array of its cluster and its first event is planned. -/
structure Added (a : ArrCmd) (t u : State) : Prop where
  turn : u.turn = t.turn
  commands : (u.cluster (clusterOf a.core)).cmds = (t.cluster (clusterOf a.core)).cmds ++ [a]
  counted : (u.cluster (clusterOf a.core)).used = (t.cluster (clusterOf a.core)).used + 1
  next : (u.cluster (clusterOf a.core)).nextId = (t.cluster (clusterOf a.core)).nextId + 1
  first : { at_ := t.cycle + 6, what := a.op.first, args := { EvArgs.zero with cl := clusterOf a.core, id := a.id } } ∈ u.agenda
  clusters : ∀ c, c ≠ clusterOf a.core → u.cluster c = t.cluster c
  hbm : u.hbm = t.hbm
  host : u.host = t.host
  cores : ∀ g, g ≠ a.core → u.core g = t.core g
  own : ∃ w, u.core a.core = { t.core a.core with window := w }

/-- The cluster's account of a command. -/
def accounted (now : Nat) (a : ArrCmd) (c : Cluster) : Cluster :=
  { c with
    cmds := c.cmds ++ [a], nextId := c.nextId + 1, used := c.used + 1
    latchFmt := if a.op == .wload || (a.op == .mul && !a.wl) then some (a.fb, now) else c.latchFmt }

/-- The replay window of a core takes a multiply or a load. -/
def windowed (a : ArrCmd) (c : Core) : Core :=
  { c with window := keepLast 16 (c.window ++
      [{ cluster := clusterOf a.core, id := a.id, acc := if a.op == .mul then some a.acc else none, marker := a.op == .mul && a.t
         released := false }]) }

theorem accounted_added (a : ArrCmd) {u : State}
    (hu : u = (t.modCluster (clusterOf a.core) (accounted t.cycle a)).schedule 6 a.op.first { EvArgs.zero with cl := clusterOf a.core, id := a.id } ∨
      u = ((t.modCluster (clusterOf a.core) (accounted t.cycle a)).modCore a.core (windowed a)).schedule 6 a.op.first
        { EvArgs.zero with cl := clusterOf a.core, id := a.id }) : Added a t u := by
  have hcluster (c : Fin 64) : u.cluster c = if c = clusterOf a.core then accounted t.cycle a (t.cluster (clusterOf a.core)) else t.cluster c := by
    rw [← State.cluster_modCluster]
    rcases hu with hu | hu <;> rw [hu] <;> rfl
  have hself := hcluster (clusterOf a.core)
  rw [if_pos rfl] at hself
  refine ⟨?_, ?_, ?_, ?_, ?_, ?_, ?_, ?_, ?_, ?_⟩
  · rcases hu with hu | hu <;> rw [hu] <;> rfl
  · rw [hself]; rfl
  · rw [hself]; rfl
  · rw [hself]; rfl
  · rcases hu with hu | hu <;> rw [hu] <;> exact (mem_insertBy _ _ _ _).2 (Or.inl rfl)
  · intro c hc
    rw [hcluster, if_neg hc]
  · rcases hu with hu | hu <;> rw [hu] <;> rfl
  · rcases hu with hu | hu <;> rw [hu] <;> rfl
  · intro g hg
    rcases hu with hu | hu
    · rw [hu]
      rfl
    · rw [hu]
      exact (State.core_modCore (t.modCluster (clusterOf a.core) (accounted t.cycle a)) a.core g (windowed a)).trans (if_neg hg)
  · rcases hu with hu | hu
    · exact ⟨(t.core a.core).window, by rw [hu]; rfl⟩
    · refine ⟨(windowed a (t.core a.core)).window, ?_⟩
      rw [hu]
      exact (State.core_modCore (t.modCluster (clusterOf a.core) (accounted t.cycle a)) a.core a.core (windowed a)).trans (if_pos rfl)

theorem Added.schedule {a : ArrCmd} (hadded : Added a t u) (n : Nat) (i : Instr) (e : EvArgs) : Added a t (u.schedule n i e) :=
  { hadded with first := (mem_insertBy _ _ _ _).2 (Or.inr hadded.first) }

theorem addCmd_added (a : ArrCmd) (t : State) : Added a t (t.addCmd a) := by
  have hsteps {u : State} (hadded : Added a t u) :
      Added a t (if decide ((u.cluster (clusterOf a.core)).leasecmd.toNat ≤ (u.cluster (clusterOf a.core)).used) then
        u.schedule 0 .leaseEndCommands { EvArgs.zero with cl := clusterOf a.core } else u) := by
    split
    · exact hadded.schedule _ _ _
    · exact hadded
  unfold State.addCmd
  refine hsteps (accounted_added a ?_)
  by_cases hop : (a.op == .mul || a.op == .wload) = true
  · rw [if_pos hop]
    exact Or.inr rfl
  · rw [if_neg hop]
    exact Or.inl rfl

end

/-! ## The command is sent -/

section
variable {h : MHdr} {ks : List (Fin 8)} {s t u : State}

theorem mCommand_ready {pre : State → Option State} {build : State → ArrCmd} {eff : State → State} (ready : MReady h ks s)
    (hholds : Holds s) (hpre : pre s = none) : mCommand h ks pre build eff s = .next (eff ((s.mTake h).addCmd (build s))) := by
  unfold mCommand
  rw [leaseGate_holds ready hholds]
  dsimp only
  rw [hpre]

/-- A command in the array whose word then only changes rings, owner bits and marks of its core. -/
theorem sends_of {r : MCmd} (hcore : (r.cmd s).core = s.turn.core)
    (hid : (r.cmd s).id = (s.cluster (clusterOf s.turn.core)).nextId) (hstep : SendStep ((s.mTake r.hdr).addCmd (r.cmd s)) u)
    (hmore : r.more s u) : MSends r s u := by
  have htake := mTake_owes s r.hdr
  have hadded := addCmd_added (r.cmd s) (s.mTake r.hdr)
  generalize s.mTake r.hdr = t at htake hadded hstep
  generalize t.addCmd (r.cmd s) = v at hadded hstep
  obtain ⟨honly, hissued, hbank, htokens, -⟩ := htake
  obtain ⟨aturn, acommands, acounted, -, afirst, aclusters, ahbm, ahost, acores, ⟨w, aown⟩⟩ := hadded
  rw [hcore] at acommands acounted afirst aclusters acores aown
  have hcluster (c : Fin 64) : t.cluster c = s.cluster c := by rw [honly.state]; rfl
  have hucluster (c : Fin 64) : u.cluster c = v.cluster c := congrArg (fun l => l.get c) hstep.clusters
  have hvturn : v.turn.core = s.turn.core := by rw [aturn, honly.core]
  have hvtb : v.tb = t.tb := by
    show (v.core v.turn.core).banks.get v.turn.ctx = (t.core t.turn.core).banks.get t.turn.ctx
    rw [aturn, honly.core, aown]
  have hmoved := hstep.moved
  have hstreams := hstep.streams
  have hcores (g : Fin 512) (hg : g ≠ s.turn.core) : u.core g = s.core g := by
    rw [hstep.cores g (hvturn ▸ hg), acores g hg, honly.cores g hg]
  have hsp : (u.core s.turn.core).sp = (s.core s.turn.core).sp := by
    rw [← hvturn, hstep.sp, hvturn, aown, honly.rest]
  have hflags : u.tb.flags = t.tb.flags := by rw [hstep.flags, hvtb]
  refine ⟨?_, ?_, ?_, ?_, ?_, ?_, ?_, hcores, ⟨?_, ?_, ?_⟩, ?_, ?_, hmore⟩
  · rw [hstep.turn, aturn, hissued]
  · intro f
    exact (congrArg (fun l => l.get f) hflags).trans (htokens f)
  · rw [hmoved.1, hmoved.2.1, hmoved.2.2, hvtb, hbank]
    exact ⟨rfl, rfl, rfl⟩
  · rw [hucluster, acommands, hcluster]
  · rw [hucluster, acounted, hcluster]
  · rw [hstep.agenda, ← hid, ← honly.cycle]
    exact afirst
  · intro c hc
    rw [hucluster, aclusters c hc, hcluster]
  · intro a
    rw [hstep.hbm, ahbm, honly.state]
  · intro a
    rw [hstep.host, ahost, honly.state]
  · intro g a
    by_cases hg : g = s.turn.core
    · rw [hg, hsp]
    · rw [hcores g hg]
  · rw [hstreams.1, hstreams.2.1, hstreams.2.2.1, hstreams.2.2.2.1, hstreams.2.2.2.2, hvtb, hbank]
    exact ⟨rfl, rfl, rfl, rfl, rfl⟩
  · intro n
    rw [← hvturn, hstep.rows, hvturn, aown, honly.rest]

end

/-! ## What the checks of a command ask -/

section
variable {s : State}

theorem accUse_none {a : Fin 4} (hacc : AccFree a s) : s.accUse a = none := by
  unfold State.accUse
  rw [hacc]

theorem countWait_none (hroom : ArrayRoom s) : s.countWait = none := by
  unfold State.countWait
  rw [decide_eq_false (Nat.not_le.2 hroom)]
  rfl

theorem setCheck_none {wr : Bool} {l : List Nat} (hset : ∀ t ∈ l, (if wr then s.tb.mayWrite 2 t else s.tb.mayRead 2 t) = true) :
    s.setCheck wr l = none := by
  have hfind : (l.find? fun x => !(if wr then s.tb.mayWrite 2 x else s.tb.mayRead 2 x)) = none := by
    rw [List.find?_eq_none]
    intro t ht hbad
    rw [hset t ht] at hbad
    exact Bool.false_ne_true hbad
  unfold State.setCheck
  rw [hfind]

section
variable {r : Fin 16} {n : Nat} {x : Ring} (hfeeds : Feeds r n x s)
include hfeeds

theorem ringAt_feeds : s.ringAt r = x := by unfold State.ringAt; rw [hfeeds.1]; rfl

theorem readRing_none : s.readRing r n = none := by
  obtain ⟨hring, hcons, hcount, -, -⟩ := hfeeds
  unfold State.readRing
  rw [hring]
  dsimp only
  rw [hcons, decide_eq_false (Nat.not_lt.2 hcount)]
  rfl

theorem fillWait_none : s.fillWait r n = none := by
  have hat := ringAt_feeds hfeeds
  obtain ⟨-, -, -, hfill, -⟩ := hfeeds
  unfold State.fillWait
  dsimp only
  rw [hat, decide_eq_false (Nat.not_lt.2 hfill)]
  rfl

theorem nextSlots_feeds : s.nextSlots r n = (upTo x.head n).map x.tile := by
  unfold State.nextSlots
  rw [ringAt_feeds hfeeds]

theorem nextSlots_read : ∀ t ∈ s.nextSlots r n, s.tb.mayRead 2 t = true := by
  rw [nextSlots_feeds hfeeds]
  exact hfeeds.2.2.2.2

end

section
variable {r : Fin 16} {x : Ring} (hdrains : Drains r x s)
include hdrains

theorem ringAt_drains : s.ringAt r = x := by unfold State.ringAt; rw [hdrains.1]; rfl

theorem writeRing_none : s.writeRing r = none := by
  obtain ⟨hring, hprod, -, -⟩ := hdrains
  unfold State.writeRing
  rw [hring]
  dsimp only
  rw [hprod]
  rfl

theorem freeWait_none : s.freeWait r = none := by
  have hat := ringAt_drains hdrains
  obtain ⟨-, -, hfree, -⟩ := hdrains
  unfold State.freeWait
  dsimp only
  rw [hat, if_neg hfree]

theorem outTile_drains : s.outTile r = x.tile x.tail := by
  unfold State.outTile
  rw [ringAt_drains hdrains]

theorem outTile_writes : s.setCheck true [s.outTile r] = none := by
  refine setCheck_none fun t ht => ?_
  rw [List.mem_singleton.1 ht, outTile_drains hdrains]
  exact hdrains.2.2.2

end
end

/-! ## The core of the turn when a command is in the array -/

section
variable {h : MHdr} {s : State} {a : ArrCmd}

/-- The core of a command in the array, before its word claims its slots. -/
structure CoreSent (s t : State) : Prop where
  core : t.turn.core = s.turn.core
  ctx : t.turn.ctx = s.turn.ctx
  rings : t.tb.rings = s.tb.rings
  acc : (t.core s.turn.core).acc = (s.core s.turn.core).acc
  live : (t.core s.turn.core).acclive = (s.core s.turn.core).acclive
  next : (t.cluster (clusterOf s.turn.core)).nextId - 1 = (s.cluster (clusterOf s.turn.core)).nextId

theorem core_sent (h : MHdr) (hcore : a.core = s.turn.core) : CoreSent s ((s.mTake h).addCmd a) := by
  have htake := mTake_owes s h
  have hadded := addCmd_added a (s.mTake h)
  generalize s.mTake h = t at htake hadded
  generalize t.addCmd a = v at hadded
  obtain ⟨honly, -, hbank, -, -⟩ := htake
  obtain ⟨w, hown⟩ := hadded.own
  have hnext := hadded.next
  rw [hcore] at hown hnext
  have hturn := hadded.turn
  have hcluster : t.cluster (clusterOf s.turn.core) = s.cluster (clusterOf s.turn.core) := by rw [honly.state]; rfl
  have htb : v.tb = t.tb := by
    show (v.core v.turn.core).banks.get v.turn.ctx = (t.core t.turn.core).banks.get t.turn.ctx
    rw [hturn, honly.core, hown]
  refine ⟨?_, ?_, ?_, ?_, ?_, ?_⟩
  · rw [hturn, honly.core]
  · rw [hturn, honly.ctx]
  · rw [htb, hbank]
    rfl
  · rw [hown, honly.rest]
  · rw [hown, honly.rest]
  · rw [hnext, hcluster, Nat.add_sub_cancel]

theorem CoreSent.ring {t : State} (hsent : CoreSent s t) (r : Fin 16) : t.tb.ring r = s.tb.ring r :=
  congrArg (fun l => l.get r) hsent.rings

theorem accTake_parts (c : Core) (k : Fin 3) : ∃ o, c.accTake k = { c with accOwn := o } := by
  unfold Core.accTake
  split
  · exact ⟨c.accOwn, rfl⟩
  · exact ⟨_, rfl⟩

end

section
variable {h : MHdr} {s : State}

/-- A command's word: its checks pass, it builds the command, and its effect stays in the core of the turn. -/
theorem mCommand_sends {r : MCmd} {ks : List (Fin 8)} {pre : State → Option State} {build : State → ArrCmd} {eff : State → State}
    (hr : r.hdr = h) (ready : MReady h ks s) (hholds : Holds s) (hpre : pre s = none) (hbuild : build s = r.cmd s)
    (hcore : (r.cmd s).core = s.turn.core)
    (hid : (r.cmd s).id = (s.cluster (clusterOf s.turn.core)).nextId)
    (heff : ∀ t, CoreSent s t → SendStep t (eff t) ∧ r.more s (eff t)) :
    ∃ t, mCommand h ks pre build eff s = .next t ∧ MSends r s t := by
  subst hr
  obtain ⟨hstep, hmore⟩ := heff _ (core_sent r.hdr hcore)
  refine ⟨_, mCommand_ready ready hholds hpre, ?_⟩
  rw [hbuild]
  exact sends_of hcore hid hstep hmore

theorem getLsbD_setBit {n : Nat} (v : BitVec n) (i : Nat) (b : Bool) (hi : i < n) : (setBit v i b).getLsbD i = b := by
  cases b with
  | true => rw [setBit_true, BitVec.getLsbD_or, BitVec.getLsbD_ofNat, Nat.testBit_two_pow_self, decide_eq_true hi, Bool.and_self, Bool.or_true]
  | false =>
    rw [setBit_false, BitVec.getLsbD_and, BitVec.getLsbD_not, BitVec.getLsbD_ofNat, Nat.testBit_two_pow_self, decide_eq_true hi, Bool.and_self,
      Bool.not_true, Bool.and_false, Bool.and_false]

/-! ### Loads, the predictor, scans -/

theorem mscan_sends {r : MCmd} {ro : Fin 16} {km kb : Fin 8} (hform : MCmdForm (.mscan h ro km kb) r) (ready : MReady r.hdr r.ks s)
    (hholds : Holds s) (hneed : r.need s) : ∃ t, execMscan h ro km kb s = .next t ∧ MSends r s t := by
  cases hform with
  | mscan =>
    obtain ⟨hroom, hdrains⟩ := hneed
    unfold execMscan
    refine mCommand_sends rfl ready hholds ?_ ?_ rfl rfl ?_
    · rw [writeRing_none hdrains, countWait_none hroom, freeWait_none hdrains, outTile_writes hdrains]
      rfl
    · rw [outTile_drains hdrains]
      rfl
    · intro t hsent
      have hringed := reserveOut_ringed (id := (t.cluster (clusterOf t.turn.core)).nextId - 1) ((hsent.ring ro).trans hdrains.1)
      refine ⟨hringed.step, ?_⟩
      rw [hsent.core, hsent.next] at hringed
      rw [hsent.core, hsent.next]
      exact hringed.same

theorem mpred_sends {r : MCmd} {ra rb : Fin 16} {fa fb : Fmt} {kd kt : Fin 8} (hform : MCmdForm (.mpred h ra rb fa fb kd kt) r)
    (ready : MReady r.hdr r.ks s) (hholds : Holds s) (hneed : r.need s) :
    ∃ t, execMpred h ra rb fa fb kd kt s = .next t ∧ MSends r s t := by
  cases hform with
  | @mpred h ra rb fa fb kd kt x y hne =>
    obtain ⟨⟨hlo, hhi⟩, hfb, hroom, hx, hy⟩ := hneed
    have hfloat : (fb == .bf16 || fb == .fp16) = true := by
      rcases hfb with hfb | hfb <;> rw [hfb] <;> rfl
    unfold execMpred
    refine mCommand_sends rfl ready hholds ?_ ?_ rfl rfl ?_
    · have hset : s.setCheck false (s.nextSlots ra 1 ++ s.nextSlots rb 1) = none :=
        setCheck_none fun t ht => (List.mem_append.1 ht).elim (nextSlots_read hx t) (nextSlots_read hy t)
      rw [decide_eq_true hlo, decide_eq_true hhi, hfloat, readRing_none hx, readRing_none hy, countWait_none hroom, fillWait_none hx,
        fillWait_none hy, hset, beq_false_of_ne hne]
      rfl
    · rw [nextSlots_feeds hx, nextSlots_feeds hy]
      rfl
    · intro t hsent
      have hfirst := claim_ringed (n := 1) ((hsent.ring ra).trans hx.1) Nat.one_ne_zero
      have hsecond := claim_ringed (n := 1) ((hfirst.other hne).trans ((hsent.ring rb).trans hy.1)) Nat.one_ne_zero
      exact ⟨hfirst.step.trans hsecond.step, (hsecond.other hne.symm).trans hfirst.same, hsecond.same⟩

/-- The checks and the effect of a load of the shadow half. -/
theorem mLoad_sends {r : MCmd} {nm : Bool} {rb : Fin 16} {fb : Fmt} {kb : Fin 8} {y : Ring} (hr : r.hdr = h) (ready : MReady h [kb] s) (hholds : Holds s)
    (hformat : (decide (1 ≤ fmtCode fb) && decide (fmtCode fb ≤ if nm then 5 else 7)) = true) (hroom : ArrayRoom s) (hy : Feeds rb 1 y s)
    (hdesc : DescOk (nmUse s kb 1 fb nm) s)
    (hmeta : ((nm != (((s.core s.turn.core).descAt (s.tb.k.get kb).toNat).nmmode != 0)) ||
      (nm && ((s.core s.turn.core).descAt (s.tb.k.get kb).toNat).tr)) = false)
    (hcmd : r.cmd s = { s.newCmd .wload h.push with
      fb := fb, nm := nm, rb := rb, bSlots := (upTo y.head 1).map y.tile, db := some (s.readDesc (nmUse s kb 1 fb nm)) })
    (hmore : ∀ u, RingIs rb (claimed 1 y) u → r.more s u) :
    ∃ t, mLoad nm h rb fb kb s = .next t ∧ MSends r s t := by
  unfold mLoad
  refine mCommand_sends hr ready hholds ?_ ?_ ?_ ?_ ?_
  · have hset : s.setCheck false (s.nextSlots rb 1) = none := setCheck_none (nextSlots_read hy)
    dsimp only
    rw [hformat, readRing_none hy, countWait_none hroom, fillWait_none hy, hset, hdesc.fields, hdesc.parts, hdesc.smode]
    show (if _ then some (matrixTrap s 4) else none) = none
    exact if_neg (ne_true_of_eq_false hmeta)
  · rw [nextSlots_feeds hy, hcmd]
  · rw [hcmd]
    rfl
  · rw [hcmd]
    rfl
  · intro t hsent
    have hringed := claim_ringed (n := 1) ((hsent.ring rb).trans hy.1) Nat.one_ne_zero
    exact ⟨hringed.step, hmore _ hringed.same⟩

theorem mwload_sends {r : MCmd} {rb : Fin 16} {fb : Fmt} {kb : Fin 8} (hform : MCmdForm (.mwload h rb fb kb) r)
    (ready : MReady r.hdr r.ks s) (hholds : Holds s) (hneed : r.need s) : ∃ t, execMwload h rb fb kb s = .next t ∧ MSends r s t := by
  cases hform with
  | @mwload h rb fb kb y =>
    obtain ⟨hlo, hhi, hroom, hy, hdesc, hmode⟩ := hneed
    refine mLoad_sends (y := y) rfl ready hholds ?_ hroom hy hdesc ?_ rfl fun _ h => h
    · rw [decide_eq_true hlo, decide_eq_true (show fmtCode fb ≤ if false then 5 else 7 from hhi)]
      rfl
    · rw [hmode]
      rfl

theorem mwloadnm_sends {r : MCmd} {rb : Fin 16} {fb : Fmt} {kb : Fin 8} (hform : MCmdForm (.mwloadnm h rb fb kb) r)
    (ready : MReady r.hdr r.ks s) (hholds : Holds s) (hneed : r.need s) : ∃ t, execMwloadnm h rb fb kb s = .next t ∧ MSends r s t := by
  cases hform with
  | @mwloadnm h rb fb kb y =>
    obtain ⟨hlo, hhi, hroom, hy, hdesc, hmode, htr⟩ := hneed
    refine mLoad_sends (y := y) rfl ready hholds ?_ hroom hy hdesc ?_ rfl fun _ h => h
    · rw [decide_eq_true hlo, decide_eq_true (show fmtCode fb ≤ if true then 5 else 7 from hhi)]
      rfl
    · rw [htr, bne_iff_ne.2 hmode]
      rfl

/-! ### Commands of an accumulator -/

/-- A word takes an accumulator: it is live or not, and may have a new mode. -/
def marked (a : Fin 4) (live : Option Bool) (mode : Option Bool) (k : Fin 3) (c : Core) : Core :=
  { c.accTake k with
    acclive := (match live with | some v => setBit (c.accTake k).acclive a.val v | none => (c.accTake k).acclive)
    acc := (match mode with | some i => (c.accTake k).acc.set a.val { (c.accTake k).acc.get a with i32 := i } | none => (c.accTake k).acc) }

theorem marked_step (a : Fin 4) (live mode : Option Bool) (k : Fin 3) (t : State) : SendStep t (t.modCore t.turn.core (marked a live mode k)) := by
  have hparts (c : Core) := accTake_parts c k
  refine SendStep.marks (fun c => ?_) (fun c => ?_) (fun c n => ?_)
  · obtain ⟨o, ho⟩ := hparts c
    unfold marked
    rw [ho]
  · obtain ⟨o, ho⟩ := hparts c
    unfold marked
    rw [ho]
  · obtain ⟨o, ho⟩ := hparts c
    unfold marked
    rw [ho]
    cases mode with
    | none => rfl
    | some i =>
      show ((c.acc.set a.val { c.acc.get a with i32 := i }).get n).rows = (c.acc.get n).rows
      rw [vector_get_set]
      split
      · rename_i hn
        rw [hn]
      · rfl

theorem marked_live {s u : State} {a : Fin 4} {v : Bool} {mode : Option Bool} {k : Fin 3} (hcore : u.turn.core = s.turn.core) :
    Live a v s (u.modCore u.turn.core (marked a (some v) mode k)) := by
  unfold Live
  rw [hcore, core_modCore, if_pos rfl]
  exact getLsbD_setBit _ _ _ a.isLt

theorem marked_mode {u : State} {a : Fin 4} {i : Bool} {live : Option Bool} {k : Fin 3} :
    (((u.modCore u.turn.core (marked a live (some i) k)).core u.turn.core).acc.get a).i32 = i := by
  rw [core_modCore, if_pos rfl]
  show (((_ : Vector Acc 4).set a.val _).get a).i32 = i
  rw [vector_get_set, if_pos rfl]

theorem marked_keeps {u : State} {a : Fin 4} {live : Option Bool} {k : Fin 3} :
    ((u.modCore u.turn.core (marked a live none k)).core u.turn.core).acc = (u.core u.turn.core).acc := by
  obtain ⟨o, ho⟩ := accTake_parts (u.core u.turn.core) k
  rw [core_modCore, if_pos rfl]
  unfold marked
  rw [ho]

theorem marked_rings {u : State} {a : Fin 4} {live mode : Option Bool} {k : Fin 3} (r : Fin 16) :
    (u.modCore u.turn.core (marked a live mode k)).tb.ring r = u.tb.ring r := by
  obtain ⟨o, ho⟩ := accTake_parts (u.core u.turn.core) k
  show (((u.modCore u.turn.core (marked a live mode k)).core u.turn.core).banks.get u.turn.ctx).ring r = ((u.core u.turn.core).banks.get u.turn.ctx).ring r
  rw [core_modCore, if_pos rfl]
  unfold marked
  rw [ho]

theorem mzero_sends {r : MCmd} {acc : Fin 4} {i32 : Bool} (hform : MCmdForm (.mzero h acc i32) r) (ready : MReady r.hdr r.ks s)
    (hholds : Holds s) (hneed : r.need s) : ∃ t, execMzero h acc i32 s = .next t ∧ MSends r s t := by
  cases hform with
  | mzero =>
    obtain ⟨hacc, hroom⟩ := hneed
    unfold execMzero
    refine mCommand_sends rfl ready hholds ?_ rfl rfl rfl ?_
    · rw [accUse_none hacc, countWait_none hroom]
      rfl
    · intro t hsent
      refine ⟨marked_step acc (some true) (some i32) t.turn.ctx t, marked_live (mode := some i32) hsent.core, ?_⟩
      rw [← hsent.core]
      exact marked_mode (live := some true)

/-- A word that reserves a slot and takes an accumulator. -/
theorem reserved_marks {t : State} {ro : Fin 16} {acc : Fin 4} {x : Ring} (hsent : CoreSent s t) (hdrains : Drains ro x s) (live : Option Bool) :
    SendStep t ((t.reserveOut ro ((t.cluster (clusterOf t.turn.core)).nextId - 1)).modCore t.turn.core (marked acc live none t.turn.ctx)) ∧
    RingIs ro (reservedFor (s.cluster (clusterOf s.turn.core)).nextId x)
      ((t.reserveOut ro ((t.cluster (clusterOf t.turn.core)).nextId - 1)).modCore t.turn.core (marked acc live none t.turn.ctx)) := by
  have hringed := reserveOut_ringed (id := (t.cluster (clusterOf t.turn.core)).nextId - 1) ((hsent.ring ro).trans hdrains.1)
  have hnext : (t.cluster (clusterOf t.turn.core)).nextId - 1 = (s.cluster (clusterOf s.turn.core)).nextId := by rw [hsent.core, hsent.next]
  refine ⟨hringed.step.trans (marked_step acc live none _ _), ?_⟩
  rw [← hnext]
  exact (marked_rings ro).trans hringed.same

theorem msnap_sends {r : MCmd} {ro : Fin 16} {acc : Fin 4} {kd : Fin 8} (hform : MCmdForm (.msnap h ro acc kd) r)
    (ready : MReady r.hdr r.ks s) (hholds : Holds s) (hneed : r.need s) : ∃ t, execMsnap h ro acc kd s = .next t ∧ MSends r s t := by
  cases hform with
  | @msnap h ro acc kd x =>
    obtain ⟨hacc, hroom, hdrains⟩ := hneed
    unfold execMsnap
    refine mCommand_sends rfl ready hholds ?_ ?_ rfl rfl ?_
    · rw [accUse_none hacc, writeRing_none hdrains, countWait_none hroom, freeWait_none hdrains, outTile_writes hdrains]
      rfl
    · rw [outTile_drains hdrains]
    · intro t hsent
      exact reserved_marks (acc := acc) hsent hdrains none

/-- What a drain does with its slot and its accumulator. -/
theorem drain_marks {t : State} {ro : Fin 16} {acc : Fin 4} {x : Ring} {tt : Bool} (hsent : CoreSent s t) (hdrains : Drains ro x s) :
    let u := (t.reserveOut ro ((t.cluster (clusterOf t.turn.core)).nextId - 1)).modCore t.turn.core fun x =>
      let y := x.accTake t.turn.ctx
      if tt then { y with acclive := setBit y.acclive acc.val false } else y
    SendStep t u ∧ RingIs ro (reservedFor (s.cluster (clusterOf s.turn.core)).nextId x) u ∧ (tt = true → Live acc false s u) := by
  cases tt with
  | true =>
    obtain ⟨hstep, hring⟩ := reserved_marks (acc := acc) hsent hdrains (some false)
    exact ⟨hstep, hring, fun _ => marked_live (u := t.reserveOut ro _) (mode := none) hsent.core⟩
  | false =>
    obtain ⟨hstep, hring⟩ := reserved_marks (acc := acc) hsent hdrains none
    exact ⟨hstep, hring, fun hfalse => absurd hfalse Bool.false_ne_true⟩

theorem mdrain_sends {r : MCmd} {tt c q : Bool} {ro : Fin 16} {acc : Fin 4} {f : Fmt} {ko : Option (Fin 8)} (hform : MCmdForm (.mdrain h tt c q ro acc f ko) r)
    (ready : MReady r.hdr r.ks s) (hholds : Holds s) (hneed : r.need s) : ∃ t, execMdrain h tt c q ro acc f ko s = .next t ∧ MSends r s t := by
  unfold execMdrain
  cases hform with
  | @mdrain h tt c ro acc f x =>
    obtain ⟨hacc, hformat, hroom, hdrains⟩ := hneed
    refine mCommand_sends rfl ready hholds ?_ ?_ rfl rfl ?_
    · dsimp only
      rw [accUse_none hacc, hformat, writeRing_none hdrains, countWait_none hroom, freeWait_none hdrains, outTile_writes hdrains]
      rfl
    · rw [outTile_drains hdrains]
      rfl
    · exact fun t hsent => drain_marks hsent hdrains
  | @mdrainDesc h tt c q ro acc f k x =>
    obtain ⟨hacc, hformat, hroom, hdrains, hdesc, hparts⟩ := hneed
    refine mCommand_sends rfl ready hholds ?_ ?_ rfl rfl ?_
    · dsimp only
      rw [accUse_none hacc, hformat, writeRing_none hdrains, countWait_none hroom, freeWait_none hdrains, outTile_writes hdrains]
      unfold State.rK
      rw [hdesc]
      exact hparts
    · rw [outTile_drains hdrains]
      rfl
    · exact fun t hsent => drain_marks hsent hdrains

/-! ### Multiplies -/

/-- What a multiply leaves of its accumulator once its rings are claimed. -/
theorem mul_marks {t u : State} {acc : Fin 4} {tt i32 : Bool} (hsent : CoreSent s t) (hstep : SendStep t u)
    (hacc : (u.core t.turn.core).acc = (t.core t.turn.core).acc) :
    let v := u.modCore t.turn.core fun x =>
      let y := x.accTake u.turn.ctx
      { y with
        acclive := setBit y.acclive acc.val true
        acc := if tt then y.acc.set acc.val { y.acc.get acc with i32 := i32 } else y.acc }
    SendStep t v ∧ Live acc true s v ∧ (∀ r, v.tb.ring r = u.tb.ring r) ∧
      ((v.core s.turn.core).acc.get acc).i32 = (if tt then i32 else ((s.core s.turn.core).acc.get acc).i32) := by
  have hcore : u.turn.core = t.turn.core := congrArg Turn.core hstep.turn
  have hucore : u.turn.core = s.turn.core := hcore.trans hsent.core
  rw [← hcore, ← hucore]
  cases tt with
  | true =>
    exact ⟨hstep.trans (marked_step acc (some true) (some i32) u.turn.ctx u), marked_live (s := s) (mode := some i32) hucore,
      fun r => marked_rings (live := some true) (mode := some i32) r, marked_mode (live := some true)⟩
  | false =>
    refine ⟨hstep.trans (marked_step acc (some true) none u.turn.ctx u), marked_live (s := s) (mode := none) hucore,
      fun r => marked_rings (live := some true) (mode := none) r, ?_⟩
    show (((u.modCore u.turn.core (marked acc (some true) none u.turn.ctx)).core u.turn.core).acc.get acc).i32 = _
    rw [marked_keeps, hcore, hacc, hsent.core, hsent.acc]
    rfl

/-- A descriptor without N:M metadata, whose bitmap has no transposed operand. -/
theorem plain_operand {d : Desc} {bm : Bool} (hmode : d.nmmode = 0) (htr : bm = true → d.tr = false) :
    (d.nmmode != 0 || (bm && d.tr)) = false := by
  rw [hmode]
  cases bm with
  | true => rw [htr rfl]; rfl
  | false => rfl

/-- A descriptor has N:M metadata as its word says, and then no transposed operand. -/
theorem metadata_operand {d : Desc} {nm : Bool} (hmode : nm = true ↔ d.nmmode ≠ 0) (htr : nm = true → d.tr = false) :
    ((nm != (d.nmmode != 0)) || (nm && d.tr)) = false := by
  cases nm with
  | true => rw [htr rfl, bne_iff_ne.2 (hmode.1 rfl)]; rfl
  | false =>
    have hzero : d.nmmode = 0 := by
      by_contra hne
      exact Bool.false_ne_true (hmode.2 hne)
    rw [hzero]
    rfl

theorem perSlot_pos (f : Fmt) : 0 < perSlot f := by cases f <;> decide

theorem mmul_sends {r : MCmd} {tt c : Bool} {ra rb : Fin 16} {acc : Fin 4} {ks : Fin 128} {fa fb : Fmt} {bm nm : Bool} {ka kb : Fin 8} {wl i32 : Bool}
    (hform : MCmdForm (.mmul h tt c ra rb acc ks fa fb bm nm ka kb wl i32) r) (ready : MReady r.hdr r.ks s) (hholds : Holds s) (hneed : r.need s) :
    ∃ t, execMmul h tt c ra rb acc ks fa fb bm nm ka kb wl i32 s = .next t ∧ MSends r s t := by
  unfold execMmul
  cases hform with
  | @mmul h tt c ra rb acc ks fa fb bm nm ka kb i32 x y hne =>
    obtain ⟨hacc, hformat, hroom, hx, hy, ⟨hfieldsA, hpartsA, hsmodeA⟩, ⟨hfieldsB, hpartsB, hsmodeB⟩, hmodeA, htrA, hmodeB, htrB, hpos⟩ := hneed
    have hslots : aCount ks.val fa ≠ 0 := by
      unfold aCount
      have := perSlot_pos fa
      exact Nat.ne_of_gt (Nat.div_pos (by omega) this)
    have hset : s.setCheck false (s.nextSlots ra (aCount ks.val fa) ++ s.nextSlots rb ks.val) = none :=
      setCheck_none fun t ht => (List.mem_append.1 ht).elim (nextSlots_read hx t) (nextSlots_read hy t)
    refine mCommand_sends rfl ready hholds ?_ ?_ rfl rfl ?_
    · dsimp only
      have hA := ne_true_of_eq_false (plain_operand (d := (s.core s.turn.core).descAt (mulUseA s ka ks.val fa bm).addr) hmodeA htrA)
      have hB := ne_true_of_eq_false (metadata_operand (d := (s.core s.turn.core).descAt (nmUse s kb ks.val fb nm).addr) hmodeB htrB)
      rw [show (ks.val + perSlot fa - 1) / perSlot fa = aCount ks.val fa from rfl]
      simp only [Bool.false_and, Bool.not_false, Bool.true_and, Bool.false_eq_true, ↓reduceIte, beq_false_of_ne hne]
      rw [accUse_none hacc, hformat, readRing_none hx, readRing_none hy, countWait_none hroom, fillWait_none hx, fillWait_none hy, hset,
        hfieldsA, hfieldsB, hpartsA, hpartsB, hsmodeA, hsmodeB]
      simp only [orElseT]
      rw [if_neg hA, if_neg hB]
    · rw [← nextSlots_feeds hx, ← nextSlots_feeds hy]
      rfl
    · intro t hsent
      have hfirst := claim_ringed (n := aCount ks.val fa) ((hsent.ring ra).trans hx.1) hslots
      have hsecond := claim_ringed (n := ks.val) ((hfirst.other hne).trans ((hsent.ring rb).trans hy.1)) (Nat.ne_of_gt hpos)
      have haccs : (((t.claim ra (aCount ks.val fa)).claim rb ks.val).core t.turn.core).acc = (t.core t.turn.core).acc := by
        have hturn : (t.claim ra (aCount ks.val fa)).turn.core = t.turn.core := congrArg Turn.core hfirst.step.turn
        rw [← hturn, hsecond.acc, hturn, hfirst.acc]
      obtain ⟨hstep, hlive, hrings, hmode⟩ := mul_marks (acc := acc) (tt := tt) (i32 := i32) hsent (hfirst.step.trans hsecond.step) haccs
      exact ⟨hstep, hlive, (hrings ra).trans ((hsecond.other hne.symm).trans hfirst.same), (hrings rb).trans hsecond.same, hmode⟩
  | @mmulLatched h tt c ra rb acc fa fb bm nm ka kb i32 x f =>
    obtain ⟨hacc, hlatched, hformat, hroom, hx, ⟨hfields, hparts, hsmode⟩, hmode, htr⟩ := hneed
    have hone : (1 + perSlot fa - 1) / perSlot fa = 1 := by
      rw [Nat.add_sub_cancel_left]
      exact Nat.div_self (perSlot_pos fa)
    have hset : s.setCheck false (s.nextSlots ra 1 ++ []) = none :=
      setCheck_none fun t ht => nextSlots_read hx t (List.append_nil (s.nextSlots ra 1) ▸ ht)
    refine mCommand_sends rfl ready hholds ?_ ?_ rfl rfl ?_
    · dsimp only
      have hA := ne_true_of_eq_false (plain_operand (d := (s.core s.turn.core).descAt (mulUseA s ka 1 fa bm).addr) hmode htr)
      simp only [Bool.not_true, Bool.false_and, Bool.true_and, Bool.false_eq_true, ↓reduceIte, hlatched, Option.isNone]
      rw [show ((1 : Fin 128).val + perSlot fa - 1) / perSlot fa = 1 from hone, show ((1 : Fin 128).val) = 1 from rfl]
      rw [accUse_none hacc, hformat, readRing_none hx, countWait_none hroom, fillWait_none hx, hset, hfields, hparts, hsmode]
      simp only [orElseT]
      rw [if_neg hA]
      rfl
    · dsimp only
      rw [show ((1 : Fin 128).val + perSlot fa - 1) / perSlot fa = 1 from hone, ← nextSlots_feeds hx]
      rfl
    · intro t hsent
      have hfirst := claim_ringed (n := 1) ((hsent.ring ra).trans hx.1) Nat.one_ne_zero
      obtain ⟨hstep, hlive, hrings, -⟩ := mul_marks (acc := acc) (tt := tt) (i32 := i32) hsent hfirst.step hfirst.acc
      have heff : (t.claim ra (((1 : Fin 128).val + perSlot fa - 1) / perSlot fa)).claim rb 0 = t.claim ra 1 := by
        rw [show ((1 : Fin 128).val + perSlot fa - 1) / perSlot fa = 1 from hone]
        rfl
      dsimp only
      rw [if_pos rfl, heff]
      exact ⟨hstep, hlive, (hrings ra).trans hfirst.same⟩

end

/-- Settles O42: each command's checks pass, it enters the array, and its word changes only its core's rings and marks. -/
theorem matrixCommands : Obligations.MatrixCommands := by
  intro i r s hi ready hholds need
  cases i with
  | mmul => rw [exec_mmul]; exact mmul_sends hi ready hholds need
  | mwload => rw [exec_mwload]; exact mwload_sends hi ready hholds need
  | mwloadnm => rw [exec_mwloadnm]; exact mwloadnm_sends hi ready hholds need
  | mdrain => rw [exec_mdrain]; exact mdrain_sends hi ready hholds need
  | mzero => rw [exec_mzero]; exact mzero_sends hi ready hholds need
  | msnap => rw [exec_msnap]; exact msnap_sends hi ready hholds need
  | mpred => rw [exec_mpred]; exact mpred_sends hi ready hholds need
  | mscan => rw [exec_mscan]; exact mscan_sends hi ready hholds need
  | _ => cases hi

end Sys2Proof.Machine

/-! SUPPORT. Steps of the engines: what they leave beside their own place (spec/10 R204-R210, spec/11 R212-R235). -/
namespace Sys2Proof.Machine
open Sys2Proof Sys2Proof.Claims

/-! ## Changes beside the cores -/

/-- A change of clusters, dies, partitions or the agenda only: what is planned stays planned. -/
structure Beside (s t : State) : Prop where
  cores : t.cores = s.cores
  hbm : t.hbm = s.hbm
  host : t.host = s.host
  cycle : t.cycle = s.cycle
  ev : t.ev = s.ev
  agenda : ∀ x ∈ s.agenda, x ∈ t.agenda

section
variable {s t u : State}

theorem Beside.refl (s : State) : Beside s s := ⟨rfl, rfl, rfl, rfl, rfl, fun _ h => h⟩

theorem Beside.trans (h : Beside s t) (h' : Beside t u) : Beside s u :=
  ⟨h'.cores.trans h.cores, h'.hbm.trans h.hbm, h'.host.trans h.host, h'.cycle.trans h.cycle, h'.ev.trans h.ev, fun x hx => h'.agenda x (h.agenda x hx)⟩

theorem Beside.memory (h : Beside s t) : SameMemory s t :=
  ⟨fun a => by rw [h.hbm], fun a => by rw [h.host], fun g a => by unfold State.core; rw [h.cores]⟩

theorem Beside.core (h : Beside s t) (g : Fin 512) : t.core g = s.core g := by unfold State.core; rw [h.cores]

theorem Beside.bank (h : Beside s t) (g : Fin 512) (k : Fin 3) : t.bank g k = s.bank g k := by unfold State.bank; rw [h.core]

theorem Beside.modCluster (c : Fin 64) (f : Cluster → Cluster) : Beside s (s.modCluster c f) := ⟨rfl, rfl, rfl, rfl, rfl, fun _ h => h⟩
theorem Beside.modCmd (c : Fin 64) (id : Nat) (f : ArrCmd → ArrCmd) : Beside s (s.modCmd c id f) := ⟨rfl, rfl, rfl, rfl, rfl, fun _ h => h⟩
theorem Beside.modDie (d : Fin 8) (f : Die → Die) : Beside s (s.modDie d f) := ⟨rfl, rfl, rfl, rfl, rfl, fun _ h => h⟩
theorem Beside.provRecord (d : Fin 8) (r : BitVec 256) : Beside s (s.provRecord d r) := Beside.modDie _ _
theorem Beside.useFree : Beside s s.useFree := ⟨rfl, rfl, rfl, rfl, rfl, fun _ h => h⟩

theorem mem_scheduleAt {n : Nat} {i : Instr} {a : EvArgs} {x : Due} (hx : x ∈ s.agenda) : x ∈ (s.scheduleAt n i a).agenda :=
  (mem_insertBy _ _ _ _).2 (Or.inr hx)

theorem mem_scheduleAt_self (s : State) (n : Nat) (i : Instr) (a : EvArgs) : { at_ := n, what := i, args := a } ∈ (s.scheduleAt n i a).agenda :=
  (mem_insertBy _ _ _ _).2 (Or.inl rfl)

theorem Beside.scheduleAt (n : Nat) (i : Instr) (a : EvArgs) : Beside s (s.scheduleAt n i a) := ⟨rfl, rfl, rfl, rfl, rfl, fun _ h => mem_scheduleAt h⟩
theorem Beside.schedule (n : Nat) (i : Instr) (a : EvArgs) : Beside s (s.schedule n i a) := Beside.scheduleAt _ i a

/-- What is planned now is planned after what comes beside. -/
theorem Beside.planned (h : Beside s t) {n : Nat} {i : Instr} {a : EvArgs} : Planned s (t.schedule n i a) n i a := by
  unfold Planned
  rw [← h.cycle]
  exact mem_scheduleAt_self t (t.cycle + n) i a

theorem Planned.later {n : Nat} {i : Instr} {a : EvArgs} (h : Planned s t n i a) (h' : ∀ x ∈ t.agenda, x ∈ u.agenda) : Planned s u n i a := h' _ h

/-- A step that keeps to what is beside the cores, folded over a list. -/
theorem Beside.foldl {α : Type} {f : State → α → State} (hf : ∀ s x, Beside s (f s x)) (l : List α) (s : State) : Beside s (l.foldl f s) := by
  induction l generalizing s with
  | nil => exact Beside.refl s
  | cons x l ih => exact (hf s x).trans (ih (f s x))

theorem Beside.arrEvents (cl : Fin 64) (id : Nat) (l : List ArrEvent) (s : State) : Beside s (s.arrEvents cl id l) := by
  refine Beside.foldl (fun s e => ?_) l s
  cases hcmd : s.cmd cl id with
  | none => exact Beside.refl s
  | some a =>
    dsimp only
    split
    · exact Beside.modDie _ _
    · exact (Beside.provRecord _ _).trans (Beside.modCmd _ _ _)

theorem Beside.tryStart (cl : Fin 64) (s : State) : Beside s (s.tryStart cl) := by
  unfold State.tryStart
  cases (s.cluster cl).cmds.find? fun (a : ArrCmd) => a.op.cell && a.started.isNone with
  | none => exact Beside.refl s
  | some a =>
    dsimp only
    split
    · exact Beside.schedule _ _ _
    · exact Beside.refl s

theorem Beside.lastStep (cl : Fin 64) (id : Nat) (s : State) : Beside s (s.lastStep cl id) :=
  (Beside.modCmd cl id _).trans (Beside.tryStart cl _)

theorem Beside.stepReady (cl : Fin 64) (a : ArrCmd) (n : Nat) (s : State) : Beside s (s.stepReady cl a n) :=
  (Beside.modCmd cl a.id _).trans (Beside.scheduleAt _ _ _)

theorem Beside.fetchSlot (cl : Fin 64) (id n : Nat) (weight : Bool) (s : State) : Beside s (s.fetchSlot cl id n weight) := Beside.schedule _ _ _

end

/-! ## Leases (R212) -/

section
variable {s : State}

theorem grant_goes {i : Fin 8} (hfree : (s.cluster s.ev.cl).holder = none) (hi : i = Fin.ofNat 8 s.ev.n)
    (hasks : bit (s.cluster s.ev.cl).requests i.val = true) : execLeaseGrant s = .next (leaseGoes i s) := by
  subst hi
  unfold execLeaseGrant
  dsimp only
  rw [hfree, hasks]
  rfl

theorem leaseEnds_over {h : Fin 8} (hholder : (s.cluster s.ev.cl).holder = some h) : LeaseOver h s (s.leaseEnds s.ev.cl) := by
  have hrequests (f : Cluster → Cluster) (hf : ∀ c, (f c).requests = c.requests) (h : Fin 8) :
      (f (s.cluster s.ev.cl)).nextHolder h = (s.cluster s.ev.cl).nextHolder h := by
    unfold Cluster.nextHolder
    rw [hf]
  have hcluster : (s.modCluster s.ev.cl fun c => { c with holder := none, last := h }).cluster s.ev.cl =
      { s.cluster s.ev.cl with holder := none, last := h } := by
    rw [State.cluster_modCluster, if_pos rfl]
  have hnext := hrequests (fun c => { c with holder := none, last := h }) (fun _ => rfl) h
  unfold State.leaseEnds
  rw [hholder]
  dsimp only
  rw [hcluster, hnext]
  have hbeside : Beside s (s.modCluster s.ev.cl fun c => { c with holder := none, last := h }) := Beside.modCluster _ _
  cases hi : (s.cluster s.ev.cl).nextHolder h with
  | none =>
    refine ⟨?_, ?_, rfl, hbeside.memory⟩
    · show (State.cluster _ _).holder = none ∧ (State.cluster _ _).last = h
      rw [hcluster]
      exact ⟨rfl, rfl⟩
    · intro i hsome
      rw [hi] at hsome
      exact absurd hsome (by simp)
  | some i =>
    refine ⟨?_, ?_, rfl, (hbeside.trans (Beside.schedule _ _ _)).memory⟩
    · show ((s.modCluster s.ev.cl fun c => { c with holder := none, last := h }).cluster s.ev.cl).holder = none ∧ ((s.modCluster s.ev.cl fun c => { c with holder := none, last := h }).cluster s.ev.cl).last = h
      rw [hcluster]
      exact ⟨rfl, rfl⟩
    · intro j hsome
      rw [hi] at hsome
      obtain rfl := Option.some.inj hsome
      exact hbeside.planned

theorem leaseCycles_ends {h : Fin 8} (hholder : (s.cluster s.ev.cl).holder = some h) (hi : h = Fin.ofNat 8 s.ev.n)
    (hgranted : (s.cluster s.ev.cl).granted = s.ev.id) : ∃ t, execLeaseEndCycles s = .next t ∧ LeaseOver h s t := by
  refine ⟨_, ?_, leaseEnds_over hholder⟩
  unfold execLeaseEndCycles
  dsimp only
  rw [hholder, hgranted, ← hi, beq_self_eq_true, beq_self_eq_true]
  rfl

theorem leaseCommands_ends {h : Fin 8} (hholder : (s.cluster s.ev.cl).holder = some h)
    (hused : (s.cluster s.ev.cl).leasecmd.toNat ≤ (s.cluster s.ev.cl).used) :
    ∃ t, execLeaseEndCommands s = .next t ∧ LeaseOver h s t := by
  refine ⟨_, ?_, leaseEnds_over hholder⟩
  unfold execLeaseEndCommands
  dsimp only
  rw [hholder, decide_eq_true hused]
  rfl

end

/-! ## Commands of the array -/

section
variable {s : State} {a : ArrCmd}

theorem cmd_id (hstep : StepOf a s) : a.id = s.ev.id := by
  have hfound := List.find?_some hstep.1
  exact beq_iff_eq.1 hfound

theorem wideLate_served (hserved : SlotServed a s) : s.wideLate a = none := by
  obtain ⟨-, hw, hend⟩ := hserved
  unfold State.wideLate
  dsimp only
  rw [if_neg hw, if_neg (Nat.not_lt.2 hend)]

theorem wideLate_free (hfree : PortFree a s) : s.wideLate a = none := by
  obtain ⟨-, hw, hend⟩ := hfree
  unfold State.wideLate
  dsimp only
  rw [if_pos hw, if_neg (Nat.not_lt.2 hend)]

theorem wideLate_waits {n : Nat} (hlater : s.cycle < n)
    (hn : n = if s.ev.w = 0 then (s.core a.core).wideFree s.cycle 1 else (s.core a.core).wideEnd s.cycle 1 a.id) : s.wideLate a = some n := by
  unfold State.wideLate
  dsimp only
  rw [← hn, if_pos hlater]

/-! ### Starts (R222) -/

/-- The markers of a tile's start on the rings of a multiply. -/
def marksStart (a : ArrCmd) (s : State) : State :=
  let t := if a.t then s.markRing a.core (a.bank.castLE (by decide)) a.ra 64 else s
  if a.t && !a.wl then t.markRing a.core (a.bank.castLE (by decide)) a.rb 64 else t

/-- A multiply of the loaded tile makes the shadow half active and keeps its tile. -/
def latchStarts (cl : Fin 64) (a : ArrCmd) (s : State) : State :=
  if a.wl then
    let s := s.modCluster cl fun c =>
      match c.latchShadow with
      | some w => { c with latchActive := some w, latchShadow := none }
      | none => c
    let w := (s.cluster cl).latchActive
    s.modCmd cl a.id fun a => { a with wt := w }
  else s

/-- The zeroing of a multiply, unless an earlier command is still to take effect. -/
def opensStart (cl : Fin 64) (a : ArrCmd) (s : State) : State := if s.accEarlier cl a then s else s.openStep cl a

theorem start_goes (hmay : MayStart a s) : execArrayCommandStart s =
    (match a.op with
      | .mul => .next ((latchStarts s.ev.cl a (opensStart s.ev.cl a (marksStart a (s.modCmd s.ev.cl a.id (startedNow s))))).fetchSlot s.ev.cl a.id 0 false)
      | .wload => .next ((s.modCmd s.ev.cl a.id (startedNow s)).fetchSlot s.ev.cl a.id 0 true)
      | _ => .next ((s.modCmd s.ev.cl a.id (startedNow s)).fetchSlot s.ev.cl a.id 0 false)) := by
  obtain ⟨hflag, ⟨hcmd, -⟩, hstarted, hreplaying, hmay⟩ := hmay
  unfold execArrayCommandStart
  dsimp only
  rw [hflag, hcmd]
  dsimp only
  rw [hstarted, hreplaying, hmay]
  rfl

theorem start_fetches {weight : Bool} (hmay : MayStart a s) (hop : a.op = (if weight then .wload else .pred)) :
    execArrayCommandStart s =
      .next ((s.modCmd s.ev.cl a.id (startedNow s)).schedule 0 .arraySlotFetch { cmdEv s a with n := 0, flag := weight }) := by
  rw [start_goes hmay, hop]
  cases weight <;> rfl

/-- Rows, places and memories that a start may not touch. -/
structure RowsKept (s t : State) : Prop where
  acc : ∀ g, (t.core g).acc = (s.core g).acc
  sp : ∀ g, (t.core g).sp = (s.core g).sp
  hbm : t.hbm = s.hbm
  host : t.host = s.host
  cycle : t.cycle = s.cycle

theorem RowsKept.memory {t : State} (h : RowsKept s t) : SameMemory s t :=
  ⟨fun a => by rw [h.hbm], fun a => by rw [h.host], fun g a => by rw [h.sp]⟩

theorem RowsKept.refl (s : State) : RowsKept s s := ⟨fun _ => rfl, fun _ => rfl, rfl, rfl, rfl⟩
theorem RowsKept.trans {t u : State} (h : RowsKept s t) (h' : RowsKept t u) : RowsKept s u :=
  ⟨fun g => (h'.acc g).trans (h.acc g), fun g => (h'.sp g).trans (h.sp g), h'.hbm.trans h.hbm, h'.host.trans h.host, h'.cycle.trans h.cycle⟩

theorem Beside.rowsKept {t : State} (h : Beside s t) : RowsKept s t :=
  ⟨fun g => by rw [h.core], fun g => by rw [h.core], h.hbm, h.host, h.cycle⟩

theorem RowsKept.modCore (g : Fin 512) {f : Core → Core} (hacc : ∀ c, (f c).acc = c.acc) (hsp : ∀ c, (f c).sp = c.sp) : RowsKept s (s.modCore g f) := by
  refine ⟨fun g' => ?_, fun g' => ?_, rfl, rfl, rfl⟩
  · rw [core_modCore]
    split
    · rename_i hg
      rw [hg, hacc]
    · rfl
  · rw [core_modCore]
    split
    · rename_i hg
      rw [hg, hsp]
    · rfl

theorem RowsKept.slotOwner (g : Fin 512) (r : Ring) (m n : Nat) (e : Bool) : RowsKept s (s.slotOwner g r m n e) := by
  obtain ⟨ow, rt, ps, hf⟩ := ownerLike_slots r m n e
  exact RowsKept.modCore g (fun c => (congrArg Core.acc (hf c)).trans rfl) (fun c => (congrArg Core.sp (hf c)).trans rfl)

theorem RowsKept.modBank (g : Fin 512) (k : Fin 3) (f : Bank → Bank) : RowsKept s (s.modBank g k f) :=
  RowsKept.modCore g (f := fun c => c.setBank k (f (s.bank g k))) (fun _ => rfl) (fun _ => rfl)

theorem RowsKept.freeClaimed (g : Fin 512) (k : Fin 3) (r : Fin 16) (x : Ring) (n : Nat) : RowsKept s (s.freeClaimed g k r x n) := by
  have hended : RowsKept s (s.endReplay g ((upTo x.clm n).map x.tile)) := by
    unfold State.endReplay
    exact RowsKept.modCore g (fun _ => rfl) (fun _ => rfl)
  unfold State.freeClaimed
  exact (hended.trans (RowsKept.modBank g k _)).trans (RowsKept.slotOwner g x x.clm n _)

theorem RowsKept.markRing (g : Fin 512) (k : Fin 3) (r : Fin 16) (n : Nat) (s : State) : RowsKept s (s.markRing g k r n) := by
  induction n generalizing s with
  | zero => exact RowsKept.refl s
  | succ n ih =>
    unfold State.markRing
    cases (s.bank g k).ring r with
    | none => exact RowsKept.refl s
    | some x =>
      dsimp only
      split
      · exact (RowsKept.freeClaimed g k r x 1).trans (ih _)
      · exact RowsKept.refl s

theorem markRing_clusters (g : Fin 512) (k : Fin 3) (r : Fin 16) (n : Nat) (s : State) : (s.markRing g k r n).clusters = s.clusters := by
  induction n generalizing s with
  | zero => rfl
  | succ n ih =>
    unfold State.markRing
    cases (s.bank g k).ring r with
    | none => rfl
    | some x =>
      dsimp only
      split
      · rw [ih]
        rfl
      · rfl

theorem markRing_agenda (g : Fin 512) (k : Fin 3) (r : Fin 16) (n : Nat) (s : State) : (s.markRing g k r n).agenda = s.agenda := by
  induction n generalizing s with
  | zero => rfl
  | succ n ih =>
    unfold State.markRing
    cases (s.bank g k).ring r with
    | none => rfl
    | some x =>
      dsimp only
      split
      · rw [ih]
        rfl
      · rfl

/-- The markers of a tile's start leave rows and clusters alone. -/
theorem marksStart_kept (a : ArrCmd) (s : State) : RowsKept s (marksStart a s) ∧ (marksStart a s).clusters = s.clusters := by
  unfold marksStart
  cases a.t with
  | false => exact ⟨RowsKept.refl s, rfl⟩
  | true =>
    cases a.wl with
    | true => exact ⟨RowsKept.markRing _ _ _ _ _, markRing_clusters _ _ _ _ _⟩
    | false =>
      exact ⟨(RowsKept.markRing _ _ _ _ _).trans (RowsKept.markRing _ _ _ _ _),
        (markRing_clusters _ _ _ _ _).trans (markRing_clusters _ _ _ _ _)⟩

theorem latchStarts_beside (cl : Fin 64) (a : ArrCmd) (s : State) : Beside s (latchStarts cl a s) := by
  unfold latchStarts
  split
  · exact (Beside.modCluster _ _).trans (Beside.modCmd _ _ _)
  · exact Beside.refl s

theorem cmds_modCmd (s : State) (cl : Fin 64) (id : Nat) (f : ArrCmd → ArrCmd) :
    ((s.modCmd cl id f).cluster cl).cmds = (s.cluster cl).cmds.map fun a => if a.id == id then f a else a := by
  unfold State.modCmd
  rw [State.cluster_modCluster, if_pos rfl]

/-- A command that comes before another on its accumulator and has not taken effect. -/
def comesBefore (a b : ArrCmd) : Bool :=
  b.core == a.core && b.acc == a.acc && decide (b.id < a.id) && !b.retired &&
    match b.op with
    | .mul => decide (b.landed < b.ksteps)
    | .drain => b.started.isNone
    | .zero => true
    | _ => false

theorem accEarlier_any (s : State) (cl : Fin 64) (a : ArrCmd) : s.accEarlier cl a = (s.cluster cl).cmds.any (comesBefore a) := rfl

theorem comesBefore_same {a b : ArrCmd} (hid : b.id = a.id) : comesBefore a b = false := by
  unfold comesBefore
  rw [decide_eq_false (show ¬ b.id < a.id by omega)]
  simp only [Bool.and_false, Bool.false_and]

/-- A command that starts leaves what comes before it as it was. -/
theorem accEarlier_started (s : State) (cl : Fin 64) (a : ArrCmd) (f : ArrCmd → ArrCmd) (hf : ∀ b, (f b).id = b.id) :
    (s.modCmd cl a.id f).accEarlier cl a = s.accEarlier cl a := by
  rw [accEarlier_any, accEarlier_any, cmds_modCmd, List.any_map]
  refine congrArg (List.any _) (funext fun b => ?_)
  show comesBefore a (if b.id == a.id then f b else b) = comesBefore a b
  split
  · rename_i hb
    have hid : b.id = a.id := beq_iff_eq.1 hb
    rw [comesBefore_same ((hf b).trans hid), comesBefore_same hid]
  · rfl

theorem openAcc_rows (a : ArrCmd) (x : Acc) : (a.openAcc true x).rows = if a.t then Vector.replicate 32 0 else x.rows := by
  unfold ArrCmd.openAcc
  cases a.t <;> rfl

theorem rows_modAcc (s : State) (g : Fin 512) (n : Fin 4) (f : Acc → Acc) (g' : Fin 512) (n' : Fin 4) :
    ((s.modAcc g n f).core g').acc.get n' = if g' = g ∧ n' = n then f ((s.core g).acc.get n) else (s.core g').acc.get n' := by
  unfold State.modAcc
  rw [core_modCore]
  by_cases hg : g' = g
  · rw [if_pos hg]
    show ((s.core g).acc.set n.val (f ((s.core g).acc.get n))).get n' = _
    rw [vector_get_set, hg]
    by_cases hn : n' = n
    · rw [if_pos hn, if_pos ⟨rfl, hn⟩]
    · rw [if_neg hn, if_neg fun h => hn h.2]
  · rw [if_neg hg, if_neg fun h => hg h.1]

theorem modAcc_memory (s : State) (g : Fin 512) (n : Fin 4) (f : Acc → Acc) : SameMemory s (s.modAcc g n f) := by
  refine ⟨fun _ => rfl, fun _ => rfl, fun g' a => ?_⟩
  unfold State.modAcc
  rw [core_modCore]
  split
  · rename_i hg
    rw [hg]
  · rfl

theorem mul_starts (hmay : MayStart a s) (hop : a.op = .mul) (hzeroed : a.zeroed = false) (hearlier : s.accEarlier s.ev.cl a = false) :
    ∃ t, execArrayCommandStart s = .next t ∧ (mulStarts a).holds s t := by
  have hstart := start_goes hmay
  rw [hop] at hstart
  obtain ⟨hkept, hclusters⟩ := marksStart_kept a (s.modCmd s.ev.cl a.id (startedNow s))
  generalize marksStart a (s.modCmd s.ev.cl a.id (startedNow s)) = u at hkept hclusters hstart
  have hmarked : RowsKept s u := (Beside.modCmd s.ev.cl a.id (startedNow s)).rowsKept.trans hkept
  have hnone : u.accEarlier s.ev.cl a = false := by
    rw [← hearlier, ← accEarlier_started s s.ev.cl a (startedNow s) fun _ => rfl, accEarlier_any, accEarlier_any]
    unfold State.cluster
    rw [hclusters]
  have hopens : opensStart s.ev.cl a u = (u.modAcc a.core a.acc (a.openAcc true)).modCmd s.ev.cl a.id fun a => { a with zeroed := true } := by
    unfold opensStart State.openStep
    rw [hnone, hzeroed]
    rfl
  rw [hopens] at hstart
  refine ⟨_, hstart, ?_⟩
  have hlast : Beside (u.modAcc a.core a.acc (a.openAcc true)) (latchStarts s.ev.cl a ((u.modAcc a.core a.acc (a.openAcc true)).modCmd s.ev.cl a.id
      fun a => { a with zeroed := true })) := (Beside.modCmd _ _ _).trans (latchStarts_beside _ _ _)
  generalize latchStarts s.ev.cl a _ = v at hlast
  have hrows : ((v.core a.core).acc.get a.acc).rows = if a.t then Vector.replicate 32 0 else ((s.core a.core).acc.get a.acc).rows := by
    rw [hlast.core, rows_modAcc, if_pos ⟨rfl, rfl⟩, openAcc_rows, hmarked.acc]
  have hcycle : v.cycle = s.cycle := hlast.cycle.trans hmarked.cycle
  refine ⟨?_, fun i => ?_, ?_⟩
  · show _ ∈ (v.fetchSlot s.ev.cl a.id 0 false).agenda
    rw [← hcycle]
    exact mem_scheduleAt_self v (v.cycle + 0) _ _
  · show ((v.core a.core).acc.get a.acc).rows.toList[i]? = _
    rw [hrows]
    cases a.t with
    | true =>
      rw [if_pos rfl, if_pos rfl, Vector.toList_replicate, List.getElem?_replicate]
    | false => rfl
  · exact sameMemory_trans hmarked.memory (sameMemory_trans (modAcc_memory u a.core a.acc _) (sameMemory_trans hlast.memory (Beside.fetchSlot _ _ _ _ _).memory))

/-! ### Fetches (R221-R224) -/

theorem fetch_waits {n : Nat} (hstep : StepOf a s) (hlate : s.wideLate a = some n) :
    execArraySlotFetch s = .next (s.scheduleAt n .arraySlotFetch s.ev) := by
  unfold execArraySlotFetch
  dsimp only
  rw [hstep.1]
  dsimp only
  rw [hlate]

theorem fetch_begins {len : Nat} (hfree : PortFree a s) (hlen : len = (if s.ev.flag && a.nm then 8 else 16)) :
    execArraySlotFetch s = .next ((s.useWide a.core 1 a.id len (fetched a s)).schedule len .arraySlotFetch { s.ev with w := 1 }) := by
  have hlate := wideLate_free hfree
  obtain ⟨⟨hcmd, -⟩, hw, -⟩ := hfree
  subst hlen
  unfold execArraySlotFetch
  dsimp only
  rw [hcmd]
  dsimp only
  rw [hlate]
  dsimp only
  rw [if_pos hw]
  rfl

theorem fetch_ends (hdone : FetchDone a s) : execArraySlotFetch s =
    (if s.ev.flag then
      match a.op with
      | .wload => .next ((((s.modCluster s.ev.cl fun c => { c with latchShadow := some (s.weightTile a 0) }).arrEvents s.ev.cl a.id
          (s.weightTile a 0).events).lastStep s.ev.cl a.id).schedule 0 .arrayCommandRetire (EvArgs.cmd s.ev.cl a.id))
      | .pred => .next (s.stepReady s.ev.cl a 0)
      | _ =>
        let s' := (s.arrEvents s.ev.cl a.id (s.weightTile a s.ev.n).events).stepReady s.ev.cl a s.ev.n
        if s.ev.n + 1 < a.ksteps then .next (s'.fetchSlot s.ev.cl a.id (s.ev.n + 1) ((s.ev.n + 1) % perSlot a.fa != 0)) else .next s'
    else
      let count := match a.da with | some d => a.bm && !a.sparseSlot d s.ev.n | none => false
      let s' := if count then s.modCore a.core fun c => { c with ovfcnt := c.ovfcnt + 1 } else s
      if a.wl then .next (s'.stepReady s.ev.cl a s.ev.n) else .next (s'.fetchSlot s.ev.cl a.id s.ev.n true)) := by
  obtain ⟨hserved, hlast⟩ := hdone
  have hlate := wideLate_served hserved
  obtain ⟨⟨hcmd, -⟩, hw, -⟩ := hserved
  unfold execArraySlotFetch
  dsimp only
  rw [hcmd]
  dsimp only
  rw [hlate]
  dsimp only
  rw [if_neg hw, hlast]
  rfl

/-- Of every cluster only the list of commands may differ. -/
def CmdsOnly (s t : State) : Prop := ∀ c, ∃ l, t.cluster c = { s.cluster c with cmds := l }

theorem CmdsOnly.refl (s : State) : CmdsOnly s s := fun c => ⟨(s.cluster c).cmds, rfl⟩

theorem CmdsOnly.trans {t u : State} (h : CmdsOnly s t) (h' : CmdsOnly t u) : CmdsOnly s u := by
  intro c
  obtain ⟨l, hl⟩ := h c
  obtain ⟨l', hl'⟩ := h' c
  exact ⟨l', by rw [hl', hl]⟩

theorem CmdsOnly.of_clusters {t : State} (h : t.clusters = s.clusters) : CmdsOnly s t :=
  fun c => ⟨(s.cluster c).cmds, by unfold State.cluster; rw [h]⟩

theorem CmdsOnly.modCmd (cl : Fin 64) (id : Nat) (f : ArrCmd → ArrCmd) : CmdsOnly s (s.modCmd cl id f) := by
  intro c
  unfold State.modCmd
  rw [State.cluster_modCluster]
  split
  · rename_i hc
    rw [hc]
    exact ⟨_, rfl⟩
  · exact ⟨_, rfl⟩

theorem CmdsOnly.arrEvents (cl : Fin 64) (id : Nat) (l : List ArrEvent) (s : State) : CmdsOnly s (s.arrEvents cl id l) := by
  unfold State.arrEvents
  induction l generalizing s with
  | nil => exact CmdsOnly.refl s
  | cons e l ih =>
    rw [List.foldl_cons]
    refine CmdsOnly.trans ?_ (ih _)
    cases s.cmd cl id with
    | none => exact CmdsOnly.refl s
    | some a =>
      dsimp only
      split
      · exact CmdsOnly.of_clusters rfl
      · exact (CmdsOnly.of_clusters (t := s.provRecord _ _) rfl).trans (CmdsOnly.modCmd _ _ _)

theorem CmdsOnly.tryStart (cl : Fin 64) (s : State) : CmdsOnly s (s.tryStart cl) := by
  unfold State.tryStart
  cases (s.cluster cl).cmds.find? fun (a : ArrCmd) => a.op.cell && a.started.isNone with
  | none => exact CmdsOnly.refl s
  | some a =>
    dsimp only
    split
    · exact CmdsOnly.of_clusters rfl
    · exact CmdsOnly.refl s

theorem CmdsOnly.lastStep (cl : Fin 64) (id : Nat) (s : State) : CmdsOnly s (s.lastStep cl id) :=
  (CmdsOnly.modCmd cl id _).trans (CmdsOnly.tryStart cl _)

theorem load_ends (hdone : FetchDone a s) (hflag : s.ev.flag = true) (hop : a.op = .wload) :
    ∃ t, execArraySlotFetch s = .next t ∧ (loadEnds a).holds s t := by
  have hends := fetch_ends hdone
  rw [hflag, hop] at hends
  have hlatch : ((s.modCluster s.ev.cl fun c => { c with latchShadow := some (s.weightTile a 0) }).cluster s.ev.cl).latchShadow =
      some (s.weightTile a 0) := by
    rw [State.cluster_modCluster, if_pos rfl]
  have hset : Beside s (s.modCluster s.ev.cl fun c => { c with latchShadow := some (s.weightTile a 0) }) := Beside.modCluster _ _
  generalize s.modCluster s.ev.cl (fun c => { c with latchShadow := some (s.weightTile a 0) }) = u at hends hlatch hset
  have hlogged := (Beside.arrEvents s.ev.cl a.id (s.weightTile a 0).events u).trans (Beside.lastStep s.ev.cl a.id _)
  obtain ⟨l, hcluster⟩ := ((CmdsOnly.arrEvents s.ev.cl a.id (s.weightTile a 0).events u).trans (CmdsOnly.lastStep s.ev.cl a.id _)) s.ev.cl
  generalize (u.arrEvents s.ev.cl a.id (s.weightTile a 0).events).lastStep s.ev.cl a.id = v at hends hlogged hcluster
  have hall := (hset.trans hlogged).trans (Beside.schedule 0 .arrayCommandRetire (EvArgs.cmd s.ev.cl a.id))
  refine ⟨_, hends, ?_, (hset.trans hlogged).planned, hall.cores, hall.memory⟩
  show (v.cluster s.ev.cl).latchShadow = _
  rw [hcluster]
  exact hlatch

theorem slot_ends (hdone : FetchDone a s) (hflag : s.ev.flag = false) (hbm : a.bm = false) (hwl : a.wl = false) :
    execArraySlotFetch s = .next (s.schedule 0 .arraySlotFetch { cmdEv s a with n := s.ev.n, flag := true }) := by
  have hcount : (match a.da with | some d => a.bm && !a.sparseSlot d s.ev.n | none => false) = false := by
    cases a.da with
    | none => rfl
    | some d =>
      rw [hbm]
      rfl
  rw [fetch_ends hdone, hflag]
  dsimp only
  rw [hcount, hwl]
  rfl

theorem weight_ends (hdone : FetchDone a s) (hflag : s.ev.flag = true) (hop : a.op = .mul) :
    ∃ t, execArraySlotFetch s = .next t ∧ (weightEnds a).holds s t := by
  have hends := fetch_ends hdone
  rw [hflag, hop] at hends
  have hlogged := Beside.arrEvents s.ev.cl a.id (s.weightTile a s.ev.n).events s
  generalize s.arrEvents s.ev.cl a.id (s.weightTile a s.ev.n).events = u at hends hlogged
  have hready := hlogged.trans (Beside.stepReady s.ev.cl a s.ev.n u)
  have hplanned : { at_ := max a.nextStart (8 * s.cycle) / 8, what := Instr.kStepStart, args := { cmdEv s a with n := s.ev.n } } ∈
      (u.stepReady s.ev.cl a s.ev.n).agenda := by
    rw [← hlogged.cycle]
    exact mem_scheduleAt_self _ _ _ _
  by_cases hmore : s.ev.n + 1 < a.ksteps
  · refine ⟨_, hends.trans (if_pos hmore), ?_⟩
    have hfetch := Beside.fetchSlot s.ev.cl a.id (s.ev.n + 1) ((s.ev.n + 1) % perSlot a.fa != 0) (u.stepReady s.ev.cl a s.ev.n)
    exact ⟨hfetch.agenda _ hplanned, (hready.trans hfetch).cores, (hready.trans hfetch).memory⟩
  · exact ⟨_, hends.trans (if_neg hmore), hplanned, hready.cores, hready.memory⟩

/-! ### K-steps (R220-R222) -/

theorem step_starts (hstep : StepOf a s) (hop : a.op = .mul) (hlast : a.lastBegun = false) (hwl : a.wl = false) :
    ∃ t, execKStepStart s = .next t ∧ (stepStarts a).holds s t := by
  have hstart : execKStepStart s =
      (let u := ((s.modCluster s.ev.cl fun c => { c with latchActive := some (s.weightTile a s.ev.n), latchShadow := none }).modCmd s.ev.cl a.id fun b =>
          { b with begun := s.ev.n + 1, nextStart := b.nextStart + b.interval (match a.wt with | some w => w.fmt | none => a.fb) s.ev.n }).schedule 48
            .kStepLanding { EvArgs.cmd s.ev.cl a.id with n := s.ev.n }
      if s.ev.n + 1 = a.ksteps then .next (u.lastStep s.ev.cl a.id) else .next u) := by
    unfold execKStepStart
    dsimp only
    rw [hstep.1]
    dsimp only
    rw [hop, hlast, hwl]
    rfl
  have hset : Beside s (s.modCluster s.ev.cl fun c => { c with latchActive := some (s.weightTile a s.ev.n), latchShadow := none }) := Beside.modCluster _ _
  have hlatch : (s.modCluster s.ev.cl fun c => { c with latchActive := some (s.weightTile a s.ev.n), latchShadow := none }).cluster s.ev.cl =
      { s.cluster s.ev.cl with latchActive := some (s.weightTile a s.ev.n), latchShadow := none } := by
    rw [State.cluster_modCluster, if_pos rfl]
  generalize s.modCluster s.ev.cl (fun c => { c with latchActive := some (s.weightTile a s.ev.n), latchShadow := none }) = v at hstart hset hlatch
  dsimp only at hstart
  have hbegun (f : ArrCmd → ArrCmd) : Beside s (v.modCmd s.ev.cl a.id f) ∧ CmdsOnly v (v.modCmd s.ev.cl a.id f) :=
    ⟨hset.trans (Beside.modCmd _ _ _), CmdsOnly.modCmd _ _ _⟩
  obtain ⟨hmarked, hcmds⟩ := hbegun fun b =>
    { b with begun := s.ev.n + 1, nextStart := b.nextStart + b.interval (match a.wt with | some w => w.fmt | none => a.fb) s.ev.n }
  generalize v.modCmd s.ev.cl a.id (fun b =>
    { b with begun := s.ev.n + 1, nextStart := b.nextStart + b.interval (match a.wt with | some w => w.fmt | none => a.fb) s.ev.n }) = u at hstart hmarked hcmds
  have hdone {t : State} (hbeside : Beside (u.schedule 48 .kStepLanding { EvArgs.cmd s.ev.cl a.id with n := s.ev.n }) t)
      (hkept : CmdsOnly (u.schedule 48 .kStepLanding { EvArgs.cmd s.ev.cl a.id with n := s.ev.n }) t) : (stepStarts a).holds s t := by
    obtain ⟨l, hl⟩ := ((hcmds.trans (CmdsOnly.of_clusters rfl)).trans hkept) s.ev.cl
    have hall := (hmarked.trans (Beside.schedule _ _ _)).trans hbeside
    refine ⟨?_, ?_, Planned.later hmarked.planned hbeside.agenda, hall.cores, hall.memory⟩
    · rw [hl, hlatch]
    · rw [hl, hlatch]
  by_cases hmore : s.ev.n + 1 = a.ksteps
  · exact ⟨_, hstart.trans (if_pos hmore), hdone (Beside.lastStep _ _ _) (CmdsOnly.lastStep _ _ _)⟩
  · exact ⟨_, hstart.trans (if_neg hmore), hdone (Beside.refl _) (CmdsOnly.refl _)⟩

theorem pred_starts (hstep : StepOf a s) (hop : a.op = .pred) : ∃ t, execKStepStart s = .next t ∧ (predStarts a).holds s t := by
  have hlast := Beside.lastStep s.ev.cl a.id s
  have hall := hlast.trans (Beside.schedule 50 .mpredResult (EvArgs.cmd s.ev.cl a.id))
  refine ⟨(s.lastStep s.ev.cl a.id).schedule 50 .mpredResult (EvArgs.cmd s.ev.cl a.id), ?_, hlast.planned, hall.cores, hall.memory⟩
  unfold execKStepStart
  dsimp only
  rw [hstep.1]
  dsimp only
  rw [hop]
  rfl

theorem step_waits (hstep : StepOf a s) (hlate : a.landed ≠ s.ev.n ∨ s.accEarlier s.ev.cl a = true) :
    execKStepLanding s = .next (s.schedule 1 .kStepLanding s.ev) := by
  have hwait : (a.landed != s.ev.n || s.accEarlier s.ev.cl a) = true := by
    rcases hlate with hlate | hlate
    · rw [bne_iff_ne.2 hlate, Bool.true_or]
    · rw [hlate, Bool.or_true]
  unfold execKStepLanding
  dsimp only
  rw [hstep.1]
  dsimp only
  rw [hwait]
  rfl

theorem step_lands (hstep : StepOf a s) (hlanded : a.landed = s.ev.n) (hearlier : s.accEarlier s.ev.cl a = false) (hzeroed : a.zeroed = true)
    (hflag : s.ev.flag = false) : ∃ t, execKStepLanding s = .next t ∧ (stepLands a).holds s t := by
  have hland : execKStepLanding s =
      (let r := s.stepOf a s.ev.n ((s.core a.core).acc.get a.acc)
      let u := ((s.modAcc a.core a.acc fun _ => r.1).arrEvents s.ev.cl a.id r.2).modCmd s.ev.cl a.id fun b => { b with landed := s.ev.n + 1 }
      if decide (a.ksteps ≤ s.ev.n + 1) then .next (u.schedule 0 .arrayCommandRetire (EvArgs.cmd s.ev.cl a.id)) else .next u) := by
    have hopened : s.openStep s.ev.cl a = s := by
      unfold State.openStep
      rw [hzeroed, if_pos rfl]
    unfold execKStepLanding
    dsimp only
    rw [hstep.1]
    dsimp only
    rw [hlanded, bne_self_eq_false, hearlier, hopened, (Beside.arrEvents _ _ _ _).ev]
    show (if false = true then _ else _) = _
    rw [if_neg Bool.false_ne_true, show (s.modAcc a.core a.acc _).ev.flag = false from hflag]
    rfl
  dsimp only at hland
  generalize hr : s.stepOf a s.ev.n ((s.core a.core).acc.get a.acc) = r at hland
  have hbeside : Beside (s.modAcc a.core a.acc fun _ => r.1)
      (((s.modAcc a.core a.acc fun _ => r.1).arrEvents s.ev.cl a.id r.2).modCmd s.ev.cl a.id fun b => { b with landed := s.ev.n + 1 }) :=
    (Beside.arrEvents _ _ _ _).trans (Beside.modCmd _ _ _)
  generalize ((s.modAcc a.core a.acc fun _ => r.1).arrEvents s.ev.cl a.id r.2).modCmd s.ev.cl a.id (fun b => { b with landed := s.ev.n + 1 }) = u at hland hbeside
  have hdone {t : State} (hlater : Beside u t) (hretires : a.ksteps ≤ s.ev.n + 1 → Retiring a s t) : (stepLands a).holds s t := by
    have hall := hbeside.trans hlater
    refine ⟨?_, fun n hn => ?_, ?_, fun g hg => ?_, sameMemory_trans (modAcc_memory s a.core a.acc _) hall.memory, hretires⟩
    · rw [hall.core, rows_modAcc, if_pos ⟨rfl, rfl⟩, hr]
    · rw [hall.core, rows_modAcc, if_neg fun h => hn h.2]
    · rw [hall.core]
      unfold State.modAcc
      rw [core_modCore, if_pos rfl]
    · rw [hall.core]
      unfold State.modAcc
      rw [core_modCore, if_neg hg]
  by_cases hmore : a.ksteps ≤ s.ev.n + 1
  · refine ⟨_, hland.trans (if_pos (decide_eq_true hmore)), hdone (Beside.schedule _ _ _) fun _ => ?_⟩
    show _ ∈ (u.schedule 0 .arrayCommandRetire (EvArgs.cmd s.ev.cl a.id)).agenda
    have hcycle : u.cycle = s.cycle := hbeside.cycle
    rw [← hcycle]
    exact mem_scheduleAt_self u (u.cycle + 0) _ _
  · exact ⟨_, hland.trans (if_neg fun h => hmore (of_decide_eq_true h)), hdone (Beside.refl _) fun h => absurd h hmore⟩

/-! ### Retirement (R232) -/

/-- What a started multiply that waited does when it may zero: nothing waits, or one zeroes its accumulator. -/
theorem openWaiting_cases (s : State) (cl : Fin 64) : s.openWaiting cl = s ∨
    ∃ b ∈ (s.cluster cl).cmds, b.op = .mul ∧ b.t = true ∧ s.openWaiting cl =
      (s.modAcc b.core b.acc (b.openAcc true)).modCmd cl b.id fun b => { b with zeroed := true } := by
  unfold State.openWaiting
  cases hfind : (s.cluster cl).cmds.find? fun (a : ArrCmd) =>
    a.op == .mul && a.t && !a.zeroed && a.started.isSome && !a.retired && !s.accEarlier cl a with
  | none => exact Or.inl rfl
  | some b =>
    have hb := List.find?_some hfind
    simp only [Bool.and_eq_true, beq_iff_eq, Bool.not_eq_true'] at hb
    obtain ⟨⟨⟨⟨⟨hop, ht⟩, hzeroed⟩, -⟩, -⟩, -⟩ := hb
    refine Or.inr ⟨b, List.mem_of_find?_eq_some hfind, hop, ht, ?_⟩
    dsimp only
    unfold State.openStep
    rw [hzeroed]
    rfl

theorem bank_modAcc (s : State) (g : Fin 512) (n : Fin 4) (f : Acc → Acc) (g' : Fin 512) (k : Fin 3) : (s.modAcc g n f).bank g' k = s.bank g' k := by
  unfold State.bank State.modAcc
  rw [core_modCore]
  split
  · rename_i hg
    rw [hg]
    rfl
  · rfl

/-- Banks and memories as before, and what was planned is planned. -/
structure BanksKept (s t : State) : Prop where
  bank : ∀ g k, t.bank g k = s.bank g k
  sp : ∀ g, (t.core g).sp = (s.core g).sp
  hbm : t.hbm = s.hbm
  host : t.host = s.host
  cycle : t.cycle = s.cycle
  agenda : ∀ x ∈ s.agenda, x ∈ t.agenda

theorem BanksKept.memory {t : State} (h : BanksKept s t) : SameMemory s t :=
  ⟨fun a => by rw [h.hbm], fun a => by rw [h.host], fun g a => by rw [h.sp]⟩
theorem BanksKept.trans {t u : State} (h : BanksKept s t) (h' : BanksKept t u) : BanksKept s u :=
  ⟨fun g k => (h'.bank g k).trans (h.bank g k), fun g => (h'.sp g).trans (h.sp g), h'.hbm.trans h.hbm, h'.host.trans h.host,
    h'.cycle.trans h.cycle, fun x hx => h'.agenda x (h.agenda x hx)⟩
theorem Beside.banksKept {t : State} (h : Beside s t) : BanksKept s t :=
  ⟨h.bank, fun g => by rw [h.core], h.hbm, h.host, h.cycle, h.agenda⟩

theorem BanksKept.modAcc (g : Fin 512) (n : Fin 4) (f : Acc → Acc) : BanksKept s (s.modAcc g n f) := by
  refine ⟨bank_modAcc s g n f, fun g' => ?_, rfl, rfl, rfl, fun _ h => h⟩
  unfold State.modAcc
  rw [core_modCore]
  split
  · rename_i hg
    rw [hg]
  · rfl

theorem BanksKept.openWaiting (s : State) (cl : Fin 64) : BanksKept s (s.openWaiting cl) := by
  rcases openWaiting_cases s cl with h | ⟨b, -, -, -, h⟩
  · rw [h]
    exact (Beside.refl s).banksKept
  · rw [h]
    exact (BanksKept.modAcc _ _ _).trans (Beside.modCmd _ _ _).banksKept

/-- What one waiting command does when an accumulator is free again. -/
def wakes (cl : Fin 64) (a : ArrCmd) (s : State) (b : ArrCmd) : State :=
  if b.core == a.core && b.acc == a.acc && !b.retired && b.started.isNone && decide (b.issued + 6 ≤ s.cycle) then
    match b.op with
    | .drain => s.schedule 0 .drainStart (EvArgs.cmd cl b.id)
    | .zero => s.schedule 0 .mzeroEffect (EvArgs.cmd cl b.id)
    | _ => s
  else s

theorem wakes_beside (cl : Fin 64) (a : ArrCmd) (s : State) (b : ArrCmd) : Beside s (wakes cl a s b) ∧ (wakes cl a s b).clusters = s.clusters := by
  unfold wakes
  split
  · split
    · exact ⟨Beside.schedule _ _ _, rfl⟩
    · exact ⟨Beside.schedule _ _ _, rfl⟩
    · exact ⟨Beside.refl s, rfl⟩
  · exact ⟨Beside.refl s, rfl⟩

theorem wakeAcc_foldl (cl : Fin 64) (a : ArrCmd) (s : State) : s.wakeAcc cl a = (s.cluster cl).cmds.foldl (wakes cl a) s := rfl

theorem Beside.wakeAcc (cl : Fin 64) (a : ArrCmd) (s : State) : Beside s (s.wakeAcc cl a) := by
  rw [wakeAcc_foldl]
  exact Beside.foldl (fun s b => (wakes_beside cl a s b).1) _ s

theorem wakeAcc_clusters (cl : Fin 64) (a : ArrCmd) (s : State) : (s.wakeAcc cl a).clusters = s.clusters := by
  rw [wakeAcc_foldl]
  exact foldl_keeps (p := State.clusters) (fun s b => (wakes_beside cl a s b).2) _ s

theorem Beside.forget (cl : Fin 64) (s : State) : Beside s (s.forget cl) := by
  unfold State.forget
  exact Beside.modCluster _ _

/-- Every command of a number has retired. -/
def AllRetired (cl : Fin 64) (id : Nat) (s : State) : Prop := ∀ x ∈ (s.cluster cl).cmds, x.id = id → x.retired = true

theorem allRetired_modCmd {cl : Fin 64} {id id' : Nat} {f : ArrCmd → ArrCmd} (hf : ∀ b, (f b).id = b.id) (hr : ∀ b, (f b).retired = b.retired)
    (h : AllRetired cl id s) : AllRetired cl id (s.modCmd cl id' f) := by
  intro x hx hid
  rw [cmds_modCmd] at hx
  obtain ⟨b, hb, rfl⟩ := List.mem_map.1 hx
  by_cases hsame : (b.id == id') = true
  · rw [if_pos hsame] at hid ⊢
    rw [hr]
    exact h b hb ((hf b).symm.trans hid)
  · rw [if_neg hsame] at hid ⊢
    exact h b hb hid

theorem allRetired_self {cl : Fin 64} {id : Nat} {f : ArrCmd → ArrCmd} (hr : ∀ b, (f b).retired = true) :
    AllRetired cl id (s.modCmd cl id f) := by
  intro x hx hid
  rw [cmds_modCmd] at hx
  obtain ⟨b, hb, rfl⟩ := List.mem_map.1 hx
  by_cases hsame : (b.id == id) = true
  · rw [if_pos hsame]
    exact hr b
  · rw [if_neg hsame] at hid
    exact absurd (beq_iff_eq.2 hid) hsame

theorem allRetired_openWaiting {cl : Fin 64} {id : Nat} (h : AllRetired cl id s) : AllRetired cl id (s.openWaiting cl) := by
  rcases openWaiting_cases s cl with he | ⟨b, -, -, -, he⟩
  · rw [he]
    exact h
  · rw [he]
    exact allRetired_modCmd (s := s.modAcc _ _ _) (fun _ => rfl) (fun _ => rfl) h

theorem allRetired_forget {cl : Fin 64} {id : Nat} (h : AllRetired cl id s) : AllRetired cl id (s.forget cl) := by
  intro x hx hid
  unfold State.forget at hx
  rw [State.cluster_modCluster, if_pos rfl] at hx
  exact h x (List.mem_of_mem_filter hx) hid

/-- A token that is pushed travels. -/
theorem travel_pushToken (s : State) (g : Fin 512) (k : Fin 3) (f : Fin 16) :
    (((s.pushToken g k (some f)).bank g k).flag f).travel = ((s.bank g k).flag f).travel + 1 := by
  have hbank : (s.pushToken g k (some f)).bank g k =
      (s.bank g k).modFlag f fun t => { t with owed := t.owed - 1, travel := t.travel + 1 } := by
    show (s.modBank g k fun b => b.modFlag f fun t => { t with owed := t.owed - 1, travel := t.travel + 1 }).bank g k = _
    rw [State.bank_modBank, if_pos ⟨rfl, rfl⟩]
  rw [hbank, Bank.flag_modFlag, if_pos rfl]

theorem pushToken_memory (s : State) (g : Fin 512) (k : Fin 3) (f : Option (Fin 16)) : SameMemory s (s.pushToken g k f) := by
  unfold State.pushToken
  cases f with
  | none => exact (Beside.refl s).memory
  | some f => exact sameMemory_trans (RowsKept.modBank g k _).memory (Beside.schedule _ _ _).memory

theorem command_retires {f : Fin 16} (hstep : StepOf a s) (hretired : a.retired = false) (hpush : a.push = some f) :
    ∃ t, execArrayCommandRetire s = .next t ∧ (retires a f).holds s t := by
  have hexec : execArrayCommandRetire s = .next ((((((s.modCmd s.ev.cl a.id fun a => { a with retired := true, lastBegun := true }).pushToken a.core
      (a.bank.castLE (by decide)) (some f)).openWaiting s.ev.cl).wakeAcc s.ev.cl a).forget s.ev.cl)) := by
    unfold execArrayCommandRetire
    dsimp only
    rw [hstep.1]
    dsimp only
    rw [hretired, hpush]
    rfl
  have hmarked : Beside s (s.modCmd s.ev.cl a.id fun a => { a with retired := true, lastBegun := true }) := Beside.modCmd _ _ _
  have hgone : AllRetired s.ev.cl a.id (s.modCmd s.ev.cl a.id fun a => { a with retired := true, lastBegun := true }) :=
    allRetired_self fun _ => rfl
  generalize s.modCmd s.ev.cl a.id (fun a => { a with retired := true, lastBegun := true }) = u at hexec hmarked hgone
  have hpushed := pushToken_memory u a.core (a.bank.castLE (by decide)) (some f)
  have htravel := travel_pushToken u a.core (a.bank.castLE (by decide)) f
  have hgone' : AllRetired s.ev.cl a.id (u.pushToken a.core (a.bank.castLE (by decide)) (some f)) := hgone
  generalize u.pushToken a.core (a.bank.castLE (by decide)) (some f) = v at hexec hpushed htravel hgone'
  have hkept := ((BanksKept.openWaiting v s.ev.cl).trans (Beside.wakeAcc s.ev.cl a _).banksKept).trans (Beside.forget s.ev.cl _).banksKept
  refine ⟨_, hexec, ?_, ?_, sameMemory_trans hmarked.memory (sameMemory_trans hpushed hkept.memory)⟩
  · rw [hkept.bank, htravel, hmarked.bank]
  · refine allRetired_forget ?_
    intro x hx hid
    have hx' : x ∈ ((v.openWaiting s.ev.cl).cluster s.ev.cl).cmds := by
      unfold State.cluster at hx ⊢
      rw [← wakeAcc_clusters s.ev.cl a]
      exact hx
    exact allRetired_openWaiting hgone' x hx' hid

end

end Sys2Proof.Machine

/-! SUPPORT. Commands of the array that read or write an accumulator or a tile (spec/11 R225-R230, R234). -/
namespace Sys2Proof.Machine
open Sys2Proof Sys2Proof.Claims

section
variable {s : State} {a : ArrCmd}

theorem cmd_modCmd (s : State) (cl : Fin 64) (id id' : Nat) {f : ArrCmd → ArrCmd} (hf : ∀ b, (f b).id = b.id) :
    (s.modCmd cl id' f).cmd cl id = (s.cmd cl id).map fun b => if b.id == id' then f b else b := by
  unfold State.cmd
  rw [cmds_modCmd, List.find?_map]
  refine congrArg (fun p => Option.map _ (List.find? p _)) (funext fun b => ?_)
  show ((if b.id == id' then f b else b).id == id) = (b.id == id)
  split
  · rw [hf]
  · rfl

theorem mem_cmds_modCmd {cl : Fin 64} {id : Nat} {f : ArrCmd → ArrCmd} {b : ArrCmd} (hb : b ∈ ((s.modCmd cl id f).cluster cl).cmds) :
    ∃ x ∈ (s.cluster cl).cmds, b = if x.id == id then f x else x := by
  rw [cmds_modCmd] at hb
  obtain ⟨x, hx, hbx⟩ := List.mem_map.1 hb
  exact ⟨x, hx, hbx.symm⟩

/-! ### Drains (R225) -/

theorem drain_waits (hstep : StepOf a s) (hstarted : a.started = none) (hearlier : s.accUnretired s.ev.cl a = false)
    (hreplay : s.accReplaying a.core a.acc = true) : execDrainStart s = .next (s.schedule 1 .drainStart s.ev) := by
  unfold execDrainStart
  dsimp only
  rw [hstep.1]
  dsimp only
  rw [hstarted, hearlier, hreplay]
  rfl

/-- The command of a drain that has read its tile. -/
def drainRead (s : State) (a b : ArrCmd) : ArrCmd := { b with started := some s.cycle, snapRows := ((s.core a.core).acc.get a.acc).rows }

theorem drain_exec (hstep : StepOf a s) (hstarted : a.started = none) (hearlier : s.accUnretired s.ev.cl a = false)
    (hc : a.c = false) (hreplay : s.accReplaying a.core a.acc = false) : execDrainStart s =
      .next (((((s.modCmd s.ev.cl a.id (drainRead s a)).modAcc a.core a.acc a.drained).openWaiting s.ev.cl)).schedule 48 .drainWrite (EvArgs.cmd s.ev.cl a.id)) := by
  unfold execDrainStart
  dsimp only
  rw [hstep.1]
  dsimp only
  rw [hstarted, hearlier, hreplay, hc]
  rfl

theorem drained_rows (a : ArrCmd) (x : Acc) (ht : a.t = true) : (a.drained x).rows = Vector.replicate 32 0 := by
  unfold ArrCmd.drained
  rw [ht]
  rfl

theorem drained_sum (a : ArrCmd) (x : Acc) (hc : a.c = false) : (a.drained x).sumValid = false := by
  unfold ArrCmd.drained
  rw [hc]
  cases a.t <;> exact Bool.and_false _

theorem drain_starts (hstep : StepOf a s) (hop : a.op = .drain) (hstarted : a.started = none) (hearlier : s.accUnretired s.ev.cl a = false)
    (hc : a.c = false) (hreplay : s.accReplaying a.core a.acc = false) :
    ∃ t, execDrainStart s = .next t ∧ (drainStarts a).holds s t := by
  refine ⟨_, drain_exec hstep hstarted hearlier hc hreplay, ?_⟩
  have hread : Beside s (s.modCmd s.ev.cl a.id (drainRead s a)) := Beside.modCmd _ _ _
  have hcmd : (s.modCmd s.ev.cl a.id (drainRead s a)).cmd s.ev.cl a.id = some (drainRead s a a) := by
    refine (cmd_modCmd (f := drainRead s a) s s.ev.cl a.id a.id fun _ => rfl).trans ?_
    rw [cmd_id hstep, hstep.1, ← cmd_id hstep]
    show some (if (a.id == a.id) = true then _ else _) = _
    rw [beq_self_eq_true, if_pos rfl]
  have hops {b : ArrCmd} (hb : b ∈ ((s.modCmd s.ev.cl a.id (drainRead s a)).cluster s.ev.cl).cmds) :
      (b.id = a.id → b.op = .drain) ∧ ∃ x ∈ (s.cluster s.ev.cl).cmds, x.op = b.op := by
    obtain ⟨x, hx, rfl⟩ := mem_cmds_modCmd hb
    refine ⟨fun hid => ?_, x, hx, ?_⟩
    · split at hid
      · rw [if_pos (by assumption)]
        show x.op = .drain
        rw [hstep.2 x hx hid, hop]
      · rw [if_neg (by assumption)]
        rw [hstep.2 x hx hid, hop]
    · split <;> rfl
  have hkept : BanksKept s ((s.modCmd s.ev.cl a.id (drainRead s a)).modAcc a.core a.acc a.drained) := hread.banksKept.trans (BanksKept.modAcc _ _ _)
  have hacc : (((s.modCmd s.ev.cl a.id (drainRead s a)).modAcc a.core a.acc a.drained).core a.core).acc.get a.acc = a.drained ((s.core a.core).acc.get a.acc) := by
    rw [rows_modAcc, if_pos ⟨rfl, rfl⟩, hread.core]
  have hcmd' : ((s.modCmd s.ev.cl a.id (drainRead s a)).modAcc a.core a.acc a.drained).cmd s.ev.cl a.id = some (drainRead s a a) := hcmd
  have hops' {b : ArrCmd} (hb : b ∈ (((s.modCmd s.ev.cl a.id (drainRead s a)).modAcc a.core a.acc a.drained).cluster s.ev.cl).cmds) :
      (b.id = a.id → b.op = .drain) ∧ ∃ x ∈ (s.cluster s.ev.cl).cmds, x.op = b.op := hops hb
  generalize (s.modCmd s.ev.cl a.id (drainRead s a)).modAcc a.core a.acc a.drained = u at hkept hacc hcmd' hops'
  have hopen := BanksKept.openWaiting u s.ev.cl
  have hall := (hkept.trans hopen).trans (Beside.schedule 48 .drainWrite (EvArgs.cmd s.ev.cl a.id)).banksKept
  have hcycle : (u.openWaiting s.ev.cl).cycle = s.cycle := (hkept.trans hopen).cycle
  refine ⟨?_, ?_, fun ht => ?_, fun hmul => ?_, hall.memory⟩
  · show (u.openWaiting s.ev.cl).cmd s.ev.cl a.id = _
    rcases openWaiting_cases u s.ev.cl with he | ⟨b, hb, hmul, -, he⟩
    · rw [he]
      exact hcmd'
    · have hne : (a.id == b.id) = false := by
        refine beq_false_of_ne fun hid => ?_
        rw [(hops' hb).1 hid.symm] at hmul
        exact absurd hmul (by decide)
      rw [he]
      refine (cmd_modCmd (f := fun b => { b with zeroed := true }) _ s.ev.cl a.id b.id fun _ => rfl).trans ?_
      rw [show (u.modAcc b.core b.acc (b.openAcc true)).cmd s.ev.cl a.id = some (drainRead s a a) from hcmd']
      show some (if (a.id == b.id) = true then _ else _) = _
      rw [hne]
      rfl
  · show _ ∈ ((u.openWaiting s.ev.cl).schedule 48 .drainWrite (EvArgs.cmd s.ev.cl a.id)).agenda
    rw [← hcycle]
    exact mem_scheduleAt_self _ _ _ _
  · show (((u.openWaiting s.ev.cl).core a.core).acc.get a.acc).rows = _
    rcases openWaiting_cases u s.ev.cl with he | ⟨b, -, -, hbt, he⟩
    · rw [he, hacc, drained_rows a _ ht]
    · rw [he]
      show (((u.modAcc b.core b.acc (b.openAcc true)).core a.core).acc.get a.acc).rows = _
      rw [rows_modAcc]
      split
      · rw [openAcc_rows, if_pos hbt]
      · rw [hacc, drained_rows a _ ht]
  · show (((u.openWaiting s.ev.cl).core a.core).acc.get a.acc).sumValid = _
    rcases openWaiting_cases u s.ev.cl with he | ⟨b, hb, hbop, -, -⟩
    · rw [he, hacc, drained_sum a _ hc]
    · obtain ⟨x, hx, hxop⟩ := (hops' hb).2
      exact absurd (hxop.trans hbop) (hmul x hx)

/-! ### Zeroes (R226) -/

theorem zero_waits (hstep : StepOf a s) (hretired : a.retired = false) (hearlier : s.accUnretired s.ev.cl a = false)
    (hreplay : s.accReplaying a.core a.acc = true) : execMzeroEffect s = .next (s.schedule 1 .mzeroEffect s.ev) := by
  unfold execMzeroEffect
  dsimp only
  rw [hstep.1]
  dsimp only
  rw [hretired, hearlier, hreplay]
  rfl

theorem zero_effect (hstep : StepOf a s) (hretired : a.retired = false) (hearlier : s.accUnretired s.ev.cl a = false)
    (hreplay : s.accReplaying a.core a.acc = false) : ∃ t, execMzeroEffect s = .next t ∧ (zeroes a).holds s t := by
  have hexec : execMzeroEffect s = .next (((s.modAcc a.core a.acc fun x => { x.zeroed with sumValid := false, sumInt := false, crow := 0, ccol := 0 }).modCmd
      s.ev.cl a.id fun a => { a with started := some s.cycle }).schedule 0 .arrayCommandRetire (EvArgs.cmd s.ev.cl a.id)) := by
    unfold execMzeroEffect
    dsimp only
    rw [hstep.1]
    dsimp only
    rw [hretired, hearlier, hreplay]
    rfl
  refine ⟨_, hexec, ?_⟩
  have hacc (n : Fin 4) := rows_modAcc s a.core a.acc (fun x => { x.zeroed with sumValid := false, sumInt := false, crow := 0, ccol := 0 }) a.core n
  have hmemory := modAcc_memory s a.core a.acc fun x => { x.zeroed with sumValid := false, sumInt := false, crow := 0, ccol := 0 }
  have hcycle : (s.modAcc a.core a.acc fun x => { x.zeroed with sumValid := false, sumInt := false, crow := 0, ccol := 0 }).cycle = s.cycle := rfl
  generalize s.modAcc a.core a.acc (fun x => { x.zeroed with sumValid := false, sumInt := false, crow := 0, ccol := 0 }) = u at hacc hmemory hcycle
  have hstarted : Beside u (u.modCmd s.ev.cl a.id fun a => { a with started := some s.cycle }) := Beside.modCmd _ _ _
  have hall := hstarted.trans (Beside.schedule 0 .arrayCommandRetire (EvArgs.cmd s.ev.cl a.id))
  have hself := hacc a.acc
  rw [if_pos ⟨rfl, rfl⟩] at hself
  refine ⟨?_, ?_, fun n hn => ?_, ?_, sameMemory_trans hmemory hall.memory⟩
  · rw [hall.core, hself]
    rfl
  · rw [hall.core, hself]
  · rw [hall.core, hacc, if_neg fun h => hn h.2]
  · have hplanned : Planned u _ 0 .arrayCommandRetire (cmdEv s a) := hstarted.planned
    unfold Planned at hplanned
    rw [hcycle] at hplanned
    exact hplanned

/-! ### Output tiles (R225, R227, R230) -/

theorem drain_port_waits {n : Nat} (hstep : StepOf a s) (hlate : s.wideLate a = some n) :
    execDrainWrite s = .next (s.scheduleAt n .drainWrite s.ev) := by
  unfold execDrainWrite
  dsimp only
  rw [hstep.1]
  dsimp only
  rw [hlate]

theorem drain_takes (hfree : PortFree a s) :
    execDrainWrite s = .next ((s.useWide a.core 1 a.id 16 a.out).schedule 16 .drainWrite { s.ev with w := 1 }) := by
  have hlate := wideLate_free hfree
  obtain ⟨⟨hcmd, -⟩, hw, -⟩ := hfree
  unfold execDrainWrite
  dsimp only
  rw [hcmd]
  dsimp only
  rw [hlate]
  dsimp only
  rw [if_pos hw]
  rfl

theorem snap_port_waits {n : Nat} (hstep : StepOf a s) (hstarted : a.started.isSome = true) (hlate : s.wideLate a = some n) :
    execMsnapWrite s = .next (s.scheduleAt n .msnapWrite s.ev) := by
  obtain ⟨t, ht⟩ := Option.isSome_iff_exists.1 hstarted
  unfold execMsnapWrite
  dsimp only
  rw [hstep.1]
  dsimp only
  rw [ht, hlate]
  rfl

theorem snap_takes_port (hfree : PortFree a s) (hstarted : a.started.isSome = true) :
    execMsnapWrite s = .next ((s.useWide a.core 1 a.id 16 a.out).schedule 16 .msnapWrite { s.ev with w := 1 }) := by
  have hlate := wideLate_free hfree
  obtain ⟨⟨hcmd, -⟩, hw, -⟩ := hfree
  obtain ⟨t, ht⟩ := Option.isSome_iff_exists.1 hstarted
  unfold execMsnapWrite
  dsimp only
  rw [hcmd]
  dsimp only
  rw [ht, hlate]
  dsimp only
  rw [if_pos hw]
  rfl

theorem snap_waits (hstep : StepOf a s) (hstarted : a.started = none) (hreplay : s.accReplaying a.core a.acc = true) :
    execMsnapWrite s = .next (s.schedule 1 .msnapWrite s.ev) := by
  unfold execMsnapWrite
  dsimp only
  rw [hstep.1]
  dsimp only
  rw [hstarted, hreplay]
  rfl

theorem snap_takes (hstep : StepOf a s) (hstarted : a.started = none) (hreplay : s.accReplaying a.core a.acc = false) :
    execMsnapWrite s = .next ((s.modCmd s.ev.cl a.id fun x =>
      { x with
        started := some s.cycle, snapRows := ((s.core a.core).acc.get a.acc).rows
        kdata0 := s.rowCount a.core a.acc }).schedule 48 .msnapWrite (cmdEv s a)) := by
  unfold execMsnapWrite
  dsimp only
  rw [hstep.1]
  dsimp only
  rw [hstarted, hreplay]
  rfl

theorem scan_port_waits {n : Nat} (hstep : StepOf a s) (hlate : s.wideLate a = some n) :
    execMscanWrite s = .next (s.scheduleAt n .mscanWrite s.ev) := by
  unfold execMscanWrite
  dsimp only
  rw [hstep.1]
  dsimp only
  rw [hlate]

/-- Scratchpads and memories as before. -/
structure SpSame (s t : State) : Prop where
  sp : ∀ g, (t.core g).sp = (s.core g).sp
  hbm : t.hbm = s.hbm
  host : t.host = s.host

theorem SpSame.refl (s : State) : SpSame s s := ⟨fun _ => rfl, rfl, rfl⟩
theorem SpSame.trans {t u : State} (h : SpSame s t) (h' : SpSame t u) : SpSame s u :=
  ⟨fun g => (h'.sp g).trans (h.sp g), h'.hbm.trans h.hbm, h'.host.trans h.host⟩
theorem Beside.spSame {t : State} (h : Beside s t) : SpSame s t := ⟨fun g => by rw [h.core], h.hbm, h.host⟩
theorem RowsKept.spSame {t : State} (h : RowsKept s t) : SpSame s t := ⟨h.sp, h.hbm, h.host⟩

theorem SpSame.foldl {α : Type} {f : State → α → State} (hf : ∀ s x, SpSame s (f s x)) (l : List α) (s : State) : SpSame s (l.foldl f s) := by
  induction l generalizing s with
  | nil => exact SpSame.refl s
  | cons x l ih => exact (hf s x).trans (ih (f s x))

theorem SpSame.ringPutSlot (g : Fin 512) (k : Fin 3) (n : Fin 16) (id : Nat) (s : State) : SpSame s (s.ringPutSlot g k n id) := by
  unfold State.ringPutSlot
  cases (s.bank g k).ring n with
  | none => exact SpSame.refl s
  | some r => exact ((RowsKept.modBank g k _).trans (RowsKept.slotOwner g _ _ _ _)).spSame

/-- What a command whose slot is put does. -/
def putsOut (cl : Fin 64) (a : ArrCmd) (s : State) (b : ArrCmd) : State :=
  if b.core == a.core && b.bank == a.bank && (b.op == .drain || b.op == .snap || b.op == .scan) && !b.retired &&
      b.landed == 1 && b.ra == a.ra && !s.putWaits b.core (a.bank.castLE (by decide)) b.ra b.id then
    (if b.op == .snap then s.modBank b.core (a.bank.castLE (by decide)) fun x => { x with k := x.k.set b.kd.val b.kdata0 } else s).schedule 0
      .arrayCommandRetire (EvArgs.cmd cl b.id)
  else s

theorem putOut_foldl (cl : Fin 64) (a : ArrCmd) (s : State) : s.putOut cl a =
    (let u := (s.modCmd cl a.id fun a => { a with landed := 1 }).ringPutSlot a.core (a.bank.castLE (by decide)) a.ra a.id
    (u.cluster cl).cmds.foldl (putsOut cl a) u) := rfl

theorem SpSame.putOut (cl : Fin 64) (a : ArrCmd) (s : State) : SpSame s (s.putOut cl a) := by
  rw [putOut_foldl]
  refine ((Beside.modCmd _ _ _).spSame.trans (SpSame.ringPutSlot _ _ _ _ _)).trans (SpSame.foldl (fun s b => ?_) _ _)
  unfold putsOut
  split
  · refine SpSame.trans ?_ (Beside.schedule _ _ _).spSame
    split
    · exact (RowsKept.modBank _ _ _).spSame
    · exact SpSame.refl s
  · exact SpSame.refl s

/-- Writes of a list of pieces into one scratchpad. -/
theorem spWrites_foldl {α : Type} (g : Fin 512) (addr : α → Nat) (bytes : α → List Byte) (l : List α) (s : State) :
    (l.foldl (fun (s : State) (x : α) => s.spWrite g (addr x) (bytes x)) s) =
      s.modCore g fun c => { c with sp := l.foldl (fun m x => m.writeBytes (addr x) (bytes x)) c.sp } := by
  induction l generalizing s with
  | nil =>
    refine (?_ : s = _)
    show s = s.setCore g (s.core g)
    rw [setCore_self]
  | cons x l ih =>
    rw [List.foldl_cons, ih]
    unfold State.spWrite
    rw [modCore_modCore]
    rfl

theorem output_of {m : Memory} {t : State} {f : Core → Core} (hsp : (f (s.core a.core)).sp = m) (hsame : SpSame (s.modCore a.core f) t) : Output a m s t := by
  refine ⟨?_, fun g hg => ?_, hsame.hbm, hsame.host⟩
  · rw [hsame.sp, core_modCore, if_pos rfl, hsp]
  · rw [hsame.sp, core_modCore, if_neg hg]

/-- One row of a drained tile goes to its place in the scratchpad. -/
def drainRow (a : ArrCmd) (s : State) (r : (List Byte × List ArrEvent) × Nat) : State := s.spWrite a.core (4096 * a.out + 128 * r.2) r.1.1

theorem drain_writes (hserved : SlotServed a s) : ∃ t, execDrainWrite s = .next t ∧ (drainWrites a).holds s t := by
  have hlate := wideLate_served hserved
  obtain ⟨⟨hcmd, -⟩, hw, -⟩ := hserved
  have hexec : execDrainWrite s = .next
      (((((upTo 0 32).map fun i => a.outRow a.i32 (a.snapRows.toList.getD i 0) i).zipIdx.foldl (drainRow a) s).arrEvents s.ev.cl a.id
        (((upTo 0 32).map fun i => a.outRow a.i32 (a.snapRows.toList.getD i 0) i).flatMap fun r => r.2)).putOut s.ev.cl a) := by
    unfold execDrainWrite
    dsimp only
    rw [hcmd]
    dsimp only
    rw [hlate]
    dsimp only
    rw [if_neg hw]
    rfl
  refine ⟨_, hexec, ?_⟩
  have hwrites := spWrites_foldl a.core (fun r : (List Byte × List ArrEvent) × Nat => 4096 * a.out + 128 * r.2) (fun r => r.1.1)
    ((upTo 0 32).map fun i => a.outRow a.i32 (a.snapRows.toList.getD i 0) i).zipIdx s
  have hfold : ((upTo 0 32).map fun i => a.outRow a.i32 (a.snapRows.toList.getD i 0) i).zipIdx.foldl (drainRow a) s = _ := hwrites
  rw [hfold]
  refine output_of ?_ ((Beside.arrEvents _ _ _ _).spSame.trans (SpSame.putOut _ _ _))
  have hfirst : ((upTo 0 32).map fun i => (a.outRow a.i32 (a.snapRows.toList.getD i 0) i).1) =
      ((upTo 0 32).map fun i => a.outRow a.i32 (a.snapRows.toList.getD i 0) i).map fun r => r.1 := List.map_map.symm
  unfold rowsWritten
  rw [hfirst, List.zipIdx_map, List.foldl_map]
  rfl

theorem snap_writes (hserved : SlotServed a s) (hstarted : a.started.isSome = true) :
    ∃ t, execMsnapWrite s = .next t ∧ (snapWrites a).holds s t := by
  have hlate := wideLate_served hserved
  obtain ⟨⟨hcmd, -⟩, hw, -⟩ := hserved
  obtain ⟨t, ht⟩ := Option.isSome_iff_exists.1 hstarted
  have hexec : execMsnapWrite s = .next (((upTo 0 32).foldl (fun (s : State) (i : Nat) =>
      s.spWrite a.core (4096 * a.out + 128 * i) (leBytes 128 (a.snapRows.toList.getD i 0).toNat)) s).putOut s.ev.cl a) := by
    unfold execMsnapWrite
    dsimp only
    rw [hcmd]
    dsimp only
    rw [ht, hlate]
    dsimp only
    rw [if_neg hw]
    rfl
  have hwrites := spWrites_foldl a.core (fun i => 4096 * a.out + 128 * i) (fun i => leBytes 128 (a.snapRows.toList.getD i 0).toNat) (upTo 0 32) s
  rw [hwrites] at hexec
  refine ⟨_, hexec, ?_⟩
  have hcore := (SpSame.putOut s.ev.cl a (s.modCore a.core fun c =>
    { c with sp := (upTo 0 32).foldl (fun m i => m.writeBytes (4096 * a.out + 128 * i) (leBytes 128 (a.snapRows.toList.getD i 0).toNat)) c.sp }))
  unfold snapWrites
  dsimp only
  generalize (leBytes 128) = lb at *
  refine output_of ?_ hcore
  rfl

theorem scan_writes (hserved : SlotServed a s) (hstarted : a.started.isSome = true) :
    ∃ t, execMscanWrite s = .next t ∧ (scanWrites a).holds s t := by
  have hlate := wideLate_served hserved
  obtain ⟨⟨hcmd, -⟩, hw, -⟩ := hserved
  obtain ⟨t, ht⟩ := Option.isSome_iff_exists.1 hstarted
  have hexec : execMscanWrite s =
      .next ((s.spWrite a.core (4096 * a.out) ((scanList a).flatMap fun w => leBytes 4 w)).putOut s.ev.cl a) := by
    unfold execMscanWrite
    dsimp only
    rw [hcmd]
    dsimp only
    rw [hlate]
    dsimp only
    rw [ht]
    rfl
  exact ⟨_, hexec, output_of rfl (SpSame.putOut _ _ _)⟩

/-! ### Predictors (R229) -/

/-- The 64 neurons of a predictor step. -/
def neurons (a : ArrCmd) (s : State) : List (Bool × List ArrEvent) :=
  (upTo 0 64).map fun n => predNeuron a.fa a.fb ((s.core a.core).tileRows (a.aSlots.getD 0 0))
    ((s.core a.core).tileRows (a.bSlots.getD 0 0)) a.kdata0 n

/-- The pair of registers of a predictor step after its mask. -/
def predMask (a : ArrCmd) (mask : Nat) (b : Bank) : Bank :=
  { b with k := (b.k.set a.kd.val (BitVec.ofNat 32 mask)).set (a.kd + 1).val (BitVec.ofNat 32 (mask / 2 ^ 32)) }

theorem pred_exec (hstep : StepOf a s) : execMpredResult s =
    .next (((s.arrEvents s.ev.cl a.id ((neurons a s).flatMap fun r => r.2)).modBank a.core (a.bank.castLE (by decide))
      (predMask a (liveMask a s))).schedule 0 .arrayCommandRetire (cmdEv s a)) := by
  unfold execMpredResult
  dsimp only
  rw [hstep.1]
  rfl

theorem pred_ends (hstep : StepOf a s) : ∃ t, execMpredResult s = .next t ∧ (predEnds a).holds s t := by
  refine ⟨_, pred_exec hstep, ?_⟩
  have hevents := Beside.arrEvents s.ev.cl a.id ((neurons a s).flatMap fun r => r.2) s
  generalize s.arrEvents s.ev.cl a.id ((neurons a s).flatMap fun r => r.2) = u at hevents
  refine ⟨?_, ?_, ?_⟩
  · have hbank := State.bank_modBank u a.core a.core (a.bank.castLE (by decide)) (a.bank.castLE (by decide)) (predMask a (liveMask a s))
    rw [if_pos ⟨rfl, rfl⟩, hevents.bank] at hbank
    exact congrArg Bank.k hbank
  · show _ ∈ (State.schedule _ 0 .arrayCommandRetire (cmdEv s a)).agenda
    rw [← hevents.cycle]
    exact mem_scheduleAt_self _ _ _ _
  · exact sameMemory_trans hevents.memory (sameMemory_trans (RowsKept.modBank _ _ _).memory (Beside.schedule _ _ _).memory)

/-! ### Replay (R234) -/

theorem replay_waits (hflag : s.ev.flag = false) (hreplaying : (s.cluster (clusterOf s.ev.g)).replaying = true)
    (hother : s.accReplaying s.ev.g (Fin.ofNat 4 s.ev.n) = false) : execArrayReplay s = .next (s.schedule 1 .arrayReplay s.ev) := by
  unfold execArrayReplay
  dsimp only
  rw [hflag, hreplaying, hother]
  rfl

theorem replay_escalates (hcl : s.ev.cl = clusterOf s.ev.g) (hnone : s.replayCmds s.ev.cl s.ev.g (Fin.ofNat 4 s.ev.n) = none)
    (hmay : s.ev.flag = true ∨ (s.cluster s.ev.cl).replaying = false) :
    execArrayReplay s = .next ((s.modCluster s.ev.cl fun c => { c with replaying := false }).schedule 0 .intervalRollback
      { EvArgs.ofPart (s.partAt s.ev.g) with n := 42 }) := by
  have hends : (!s.ev.flag && (s.cluster s.ev.cl).replaying) = false := by
    rcases hmay with h | h <;> rw [h]
    · rfl
    · exact Bool.and_false _
  unfold execArrayReplay
  dsimp only
  rw [← hcl, hends, hnone]
  rfl

/-- The record of a replay that begins. -/
def replayRecord (l : List ArrCmd) (cl : Fin 64) (s : State) : State :=
  match l with
  | a :: _ => s.arrEvents cl a.id [{ kind := 7, step := 0, row := 0, col := 0, i := 0, n := 0 }]
  | [] => s

theorem replayRecord_beside (l : List ArrCmd) (cl : Fin 64) (s : State) : Beside s (replayRecord l cl s) := by
  cases l with
  | nil => exact Beside.refl s
  | cons a l => exact Beside.arrEvents _ _ _ _

theorem replayRecord_cluster (l : List ArrCmd) (cl : Fin 64) (s : State) : ((replayRecord l cl s).cluster cl).replaying = (s.cluster cl).replaying := by
  cases l with
  | nil => rfl
  | cons a l =>
    obtain ⟨cmds, hcluster⟩ := CmdsOnly.arrEvents cl a.id [{ kind := 7, step := 0, row := 0, col := 0, i := 0, n := 0 }] s cl
    exact (congrArg Cluster.replaying hcluster).trans rfl

theorem replay_begins {l : List ArrCmd} (hcl : s.ev.cl = clusterOf s.ev.g) (hcmds : s.replayCmds s.ev.cl s.ev.g (Fin.ofNat 4 s.ev.n) = some l)
    (hflag : s.ev.flag = false) (hreplaying : (s.cluster s.ev.cl).replaying = false) :
    ∃ t, execArrayReplay s = .next t ∧ (replayBegins l).holds s t := by
  have hexec : ∀ v, v = replayRecord l s.ev.cl
      (((s.modCluster s.ev.cl fun c => { c with replaying := true }).modCore s.ev.g fun c => { c with replays := c.replays + 1 }).modAcc s.ev.g
        (Fin.ofNat 4 s.ev.n) Acc.zeroed) → execArrayReplay s = .next (v.schedule (replayTime l) .arrayReplay { v.ev with flag := true }) := by
    rintro v rfl
    unfold execArrayReplay
    dsimp only
    rw [← hcl, hflag, hreplaying, hcmds]
    cases l <;> rfl
  refine ⟨_, hexec _ rfl, ?_⟩
  have hcore : RowsKept s ((s.modCluster s.ev.cl fun c => { c with replaying := true }).modCore s.ev.g fun c => { c with replays := c.replays + 1 }) :=
    (Beside.modCluster _ _).rowsKept.trans (RowsKept.modCore _ (fun _ => rfl) fun _ => rfl)
  have hreplays : (((s.modCluster s.ev.cl fun c => { c with replaying := true }).modCore s.ev.g fun c => { c with replays := c.replays + 1 }).core
      s.ev.g).replays = (s.core s.ev.g).replays + 1 := by
    rw [core_modCore, if_pos rfl]
    rfl
  have hcluster : (((s.modCluster s.ev.cl fun c => { c with replaying := true }).modCore s.ev.g fun c => { c with replays := c.replays + 1 }).cluster
      s.ev.cl).replaying = true := by
    show ((s.modCluster s.ev.cl fun c => { c with replaying := true }).cluster s.ev.cl).replaying = true
    rw [State.cluster_modCluster, if_pos rfl]
  have hev : ((s.modCluster s.ev.cl fun c => { c with replaying := true }).modCore s.ev.g fun c => { c with replays := c.replays + 1 }).ev = s.ev := rfl
  generalize (s.modCluster s.ev.cl fun c => { c with replaying := true }).modCore s.ev.g _ = u at hcore hreplays hcluster hev
  have hzero := rows_modAcc u s.ev.g (Fin.ofNat 4 s.ev.n) Acc.zeroed s.ev.g (Fin.ofNat 4 s.ev.n)
  rw [if_pos ⟨rfl, rfl⟩] at hzero
  have hacc : ((u.modAcc s.ev.g (Fin.ofNat 4 s.ev.n) Acc.zeroed).core s.ev.g).replays = (u.core s.ev.g).replays := by
    unfold State.modAcc
    rw [core_modCore, if_pos rfl]
  have hmemory := sameMemory_trans hcore.memory (modAcc_memory u s.ev.g (Fin.ofNat 4 s.ev.n) Acc.zeroed)
  have hcluster' : ((u.modAcc s.ev.g (Fin.ofNat 4 s.ev.n) Acc.zeroed).cluster s.ev.cl).replaying = true := hcluster
  have hcycle : (u.modAcc s.ev.g (Fin.ofNat 4 s.ev.n) Acc.zeroed).cycle = s.cycle := hcore.cycle
  have hev' : (u.modAcc s.ev.g (Fin.ofNat 4 s.ev.n) Acc.zeroed).ev = s.ev := hev
  generalize u.modAcc s.ev.g (Fin.ofNat 4 s.ev.n) Acc.zeroed = v at hzero hacc hmemory hcluster' hcycle hev'
  have hrecord := replayRecord_beside l s.ev.cl v
  refine ⟨?_, ?_, ?_, ?_, sameMemory_trans hmemory (hrecord.trans (Beside.schedule _ _ _)).memory⟩
  · exact (replayRecord_cluster l s.ev.cl v).trans hcluster'
  · show ((replayRecord l s.ev.cl v).core s.ev.g).replays = _
    rw [hrecord.core, hacc, hreplays]
  · show (((replayRecord l s.ev.cl v).core s.ev.g).acc.get _).rows = _
    rw [hrecord.core, hzero]
    rfl
  · have hplanned : Planned v _ (replayTime l) .arrayReplay { s.ev with flag := true } := hrecord.planned
    unfold Planned at hplanned
    rw [hcycle] at hplanned
    show _ ∈ (State.schedule _ _ _ _).agenda
    rw [hrecord.ev, hev']
    exact hplanned

end

end Sys2Proof.Machine

/-! SUPPORT. Rotations and copy commands (spec/10 R193, R204-R209). -/
namespace Sys2Proof.Machine
open Sys2Proof Sys2Proof.Claims

/-! ## Rotations (R193) -/

section
variable {s : State} {β : Type}

/-- A fold that does to the core of each index what `f` says, and leaves the cores of the other indices alone. -/
theorem coreFold_at {at_ : Fin 8 → Fin 512} (hinj : Function.Injective at_) {F : State → Fin 8 → State} {π : Core → β} {f : Fin 8 → β → β}
    (hother : ∀ u j g, g ≠ at_ j → π ((F u j).core g) = π (u.core g)) (hself : ∀ u i, π ((F u i).core (at_ i)) = f i (π (u.core (at_ i))))
    (i : Fin 8) {l : List (Fin 8)} (hl : l.Nodup) (s : State) :
    π ((l.foldl F s).core (at_ i)) = if i ∈ l then f i (π (s.core (at_ i))) else π (s.core (at_ i)) := by
  induction l generalizing s with
  | nil => rfl
  | cons j l ih =>
    obtain ⟨hj, hl⟩ := List.nodup_cons.1 hl
    rw [List.foldl_cons, ih hl]
    by_cases hi : i = j
    · subst hi
      rw [if_neg hj, if_pos List.mem_cons_self, hself]
    · rw [hother s j _ fun h => hi (hinj h)]
      simp only [List.mem_cons, hi, false_or]

theorem coreFold_all {at_ : Fin 8 → Fin 512} (hinj : Function.Injective at_) {F : State → Fin 8 → State} {π : Core → β} {f : Fin 8 → β → β}
    (hother : ∀ u j g, g ≠ at_ j → π ((F u j).core g) = π (u.core g)) (hself : ∀ u i, π ((F u i).core (at_ i)) = f i (π (u.core (at_ i))))
    (i : Fin 8) (s : State) : π (((List.finRange 8).foldl F s).core (at_ i)) = f i (π (s.core (at_ i))) := by
  rw [coreFold_at hinj hother hself i (List.nodup_finRange 8), if_pos (List.mem_finRange i)]

theorem coreAt_injective (cl : Fin 64) : Function.Injective (coreAt cl) := by
  intro i j h
  have hval := congrArg Fin.val h
  simp only [coreAt] at hval
  omega

theorem setRun_clear {n : Nat} (v : BitVec n) (t : Nat) : bit (setRun v t 1 false) t = false := by
  unfold bit setRun
  rw [if_neg Bool.false_ne_true, BitVec.getLsbD_and, BitVec.getLsbD_not, BitVec.getLsbD_ofNat]
  by_cases ht : t < n
  · simp [ht]
  · rw [BitVec.getLsbD_of_ge v t (by omega), Bool.false_and]

theorem setRun_cleared {n : Nat} (v : BitVec n) (lo m t : Nat) (hv : bit v t = false) : bit (setRun v lo m false) t = false := by
  unfold bit at hv
  unfold bit setRun
  rw [if_neg Bool.false_ne_true, BitVec.getLsbD_and, hv, Bool.false_and]

/-- The wide port of a core that takes part in an exchange. -/
def exchanging (s : State) (c : Core) : Core :=
  match c.rot with
  | some x => c.useWide s.cycle 0 0 16 x.src
  | none => c

/-- One core of an exchange. -/
def exchange (cl : Fin 64) (s : State) (i : Fin 8) : State := s.modCore (coreAt cl i) (exchanging s)

theorem exchanging_parts (s : State) (c : Core) : (exchanging s c).sp = c.sp ∧ (exchanging s c).owner = c.owner ∧ (exchanging s c).banks = c.banks := by
  unfold exchanging
  cases c.rot <;> exact ⟨rfl, rfl, rfl⟩

theorem exchange_core (cl : Fin 64) (s : State) (i : Fin 8) (g : Fin 512) :
    (((exchange cl s i).core g).sp, ((exchange cl s i).core g).owner, ((exchange cl s i).core g).banks) =
      ((s.core g).sp, (s.core g).owner, (s.core g).banks) := by
  unfold exchange
  rw [core_modCore]
  split
  · rename_i hg
    obtain ⟨hsp, howner, hbanks⟩ := exchanging_parts s (s.core (coreAt cl i))
    rw [hg, hsp, howner, hbanks]
  · rfl

theorem rotation_exec (v : State)
    (hv : v = (List.finRange 8).foldl (exchange s.ev.cl) (s.modCluster s.ev.cl fun c => { c with rotating := true })) :
    execRgrotExchange s = .next (v.schedule 16 .rgrotExchangeEnd v.ev) := by
  rw [hv]
  rfl

theorem rotation_starts : ∃ t, execRgrotExchange s = .next t ∧ rotationStarts.holds s t := by
  refine ⟨_, rotation_exec _ rfl, ?_⟩
  have hcore (g : Fin 512) := foldl_keeps (p := fun u : State => ((u.core g).sp, (u.core g).owner, (u.core g).banks))
    (fun u i => exchange_core s.ev.cl u i g) (List.finRange 8) (s.modCluster s.ev.cl fun c => { c with rotating := true })
  have hrest := foldl_keeps (p := fun u : State => (u.clusters, u.cycle, u.ev, u.hbm, u.host)) (f := exchange s.ev.cl)
    (fun _ _ => rfl) (List.finRange 8) (s.modCluster s.ev.cl fun c => { c with rotating := true })
  generalize (List.finRange 8).foldl (exchange s.ev.cl) (s.modCluster s.ev.cl fun c => { c with rotating := true }) = v at hcore hrest
  obtain ⟨hclusters, hcycle, hev, hhbm, hhost⟩ := by simpa only [Prod.mk.injEq] using hrest
  have hparts (g : Fin 512) := by simpa only [Prod.mk.injEq] using hcore g
  refine ⟨?_, ?_, ⟨fun a => ?_, fun a => ?_, fun g a => ?_⟩, fun g => ⟨(hparts g).2.1, (hparts g).2.2⟩⟩
  · show (v.cluster s.ev.cl).rotating = true
    unfold State.cluster
    rw [hclusters]
    show ((s.modCluster s.ev.cl fun c => { c with rotating := true }).cluster s.ev.cl).rotating = true
    rw [State.cluster_modCluster, if_pos rfl]
  · show _ ∈ (v.schedule 16 .rgrotExchangeEnd v.ev).agenda
    have hev' : v.ev = s.ev := hev
    have hcycle' : v.cycle = s.cycle := hcycle
    rw [hev', ← hcycle']
    exact mem_scheduleAt_self v (v.cycle + 16) _ _
  · show v.hbm.read a = _
    rw [hhbm]
    rfl
  · show v.host.read a = _
    rw [hhost]
    rfl
  · show (v.core g).sp.read a = _
    rw [(hparts g).1]
    rfl

/-- The tile of core `i` goes to the next core. -/
def gives (old : State) (cl : Fin 64) (s : State) (i : Fin 8) : State :=
  match (old.core (coreAt cl i)).rot, (old.core (coreAt cl (i + 1))).rot with
  | some x, some y => s.spWrite (coreAt cl (i + 1)) (4096 * y.dst) ((old.core (coreAt cl i)).sp.readN (4096 * x.src) 4096)
  | _, _ => s

/-- The two tiles of a core return to its streams. -/
def returns (x : Rot) (c : Core) : Core := { (c.setOwner x.src 1 false).setOwner x.dst 1 false with rot := none }

/-- The word of a core retires. -/
def givenBack (old : State) (cl : Fin 64) (s : State) (i : Fin 8) : State :=
  match (old.core (coreAt cl i)).rot with
  | some x => (s.modCore (coreAt cl i) (returns x)).pushToken (coreAt cl i) x.bank x.push
  | none => s

theorem rotation_ends_exec : execRgrotExchangeEnd s = .next (((List.finRange 8).foldl (givenBack s s.ev.cl)
    ((List.finRange 8).foldl (gives s s.ev.cl) s)).modCluster s.ev.cl fun c => { c with rotating := false }) := rfl

theorem pushToken_core (s : State) (g : Fin 512) (k : Fin 3) (f : Option (Fin 16)) (g' : Fin 512) :
    (((s.pushToken g k f).core g').sp, ((s.pushToken g k f).core g').rot, ((s.pushToken g k f).core g').owner) =
      ((s.core g').sp, (s.core g').rot, (s.core g').owner) := by
  cases f with
  | none => rfl
  | some f =>
    show (((s.modCore g fun c => c.setBank k _).core g').sp, ((s.modCore g fun c => c.setBank k _).core g').rot,
      ((s.modCore g fun c => c.setBank k _).core g').owner) = _
    rw [core_modCore]
    split
    · rename_i hg
      rw [hg]
      rfl
    · rfl

theorem pushToken_rest (s : State) (g : Fin 512) (k : Fin 3) (f : Option (Fin 16)) :
    ((s.pushToken g k f).clusters, (s.pushToken g k f).hbm, (s.pushToken g k f).host) = (s.clusters, s.hbm, s.host) := by
  cases f <;> rfl

theorem rotation_ends {give take : Fin 8 → Nat} (hneed : ∀ i, rotTiles s i = some (give i, take i)) :
    ∃ t, execRgrotExchangeEnd s = .next t ∧ (rotationEnds give take).holds s t := by
  refine ⟨_, rotation_ends_exec, ?_⟩
  have hrot (i : Fin 8) : ∃ x, (s.core (coreAt s.ev.cl i)).rot = some x ∧ x.src = give i ∧ x.dst = take i := by
    have hi := hneed i
    unfold rotTiles at hi
    obtain ⟨x, hx, htiles⟩ := Option.map_eq_some_iff.1 hi
    exact ⟨x, hx, congrArg Prod.fst htiles, congrArg Prod.snd htiles⟩
  have hgives (u : State) (i : Fin 8) : gives s s.ev.cl u i =
      u.spWrite (coreAt s.ev.cl (i + 1)) (4096 * take (i + 1)) ((s.core (coreAt s.ev.cl i)).sp.readN (4096 * give i) 4096) := by
    obtain ⟨x, hx, hsrc, -⟩ := hrot i
    obtain ⟨y, hy, -, hdst⟩ := hrot (i + 1)
    unfold gives
    rw [hx, hy]
    dsimp only
    rw [hsrc, hdst]
  have hback (u : State) (i : Fin 8) : ∃ x, x.src = give i ∧ x.dst = take i ∧ givenBack s s.ev.cl u i =
      (u.modCore (coreAt s.ev.cl i) (returns x)).pushToken (coreAt s.ev.cl i) x.bank x.push := by
    obtain ⟨x, hx, hsrc, hdst⟩ := hrot i
    refine ⟨x, hsrc, hdst, ?_⟩
    unfold givenBack
    rw [hx]
  have hinj := coreAt_injective s.ev.cl
  have hinj' : Function.Injective fun i : Fin 8 => coreAt s.ev.cl (i + 1) := fun i j h => by
    have := hinj h
    omega
  have hsp (i : Fin 8) := coreFold_all (s := s) (β := Memory) (π := Core.sp) hinj' (F := gives s s.ev.cl)
    (f := fun i m => m.writeBytes (4096 * take (i + 1)) ((s.core (coreAt s.ev.cl i)).sp.readN (4096 * give i) 4096))
    (fun u j g hg => by
      rw [hgives]
      unfold State.spWrite
      rw [core_modCore, if_neg hg])
    (fun u i => by
      rw [hgives]
      unfold State.spWrite
      rw [core_modCore, if_pos rfl]) i
  have hrest := foldl_keeps (p := fun u : State => (u.clusters, u.hbm, u.host)) (f := gives s s.ev.cl)
    (fun u i => by rw [hgives]; rfl) (List.finRange 8) s
  generalize (List.finRange 8).foldl (gives s s.ev.cl) s = u at hsp hrest
  have hsp' (g : Fin 512) := foldl_keeps (p := fun u : State => (u.core g).sp) (f := givenBack s s.ev.cl)
    (fun u i => by
      obtain ⟨x, -, -, hx⟩ := hback u i
      rw [hx]
      refine (congrArg Prod.fst (pushToken_core _ _ _ _ g)).trans ?_
      show ((u.modCore _ (returns x)).core g).sp = _
      rw [core_modCore]
      split
      · rename_i hg
        rw [hg]
        rfl
      · rfl) (List.finRange 8) u
  have hrest' := foldl_keeps (p := fun u : State => (u.clusters, u.hbm, u.host)) (f := givenBack s s.ev.cl)
    (fun u i => by
      obtain ⟨x, -, -, hx⟩ := hback u i
      rw [hx]
      exact pushToken_rest _ _ _ _) (List.finRange 8) u
  have htiles (i : Fin 8) := coreFold_all (s := u) (β := Option Rot × BitVec 768) (π := fun c => (c.rot, c.owner)) hinj (F := givenBack s s.ev.cl)
    (f := fun i r => (none, setRun (setRun r.2 (give i) 1 false) (take i) 1 false))
    (fun u j g hg => by
      obtain ⟨x, -, -, hx⟩ := hback u j
      rw [hx]
      refine (congrArg Prod.snd (pushToken_core _ _ _ _ g)).trans ?_
      show ((((u.modCore _ (returns x)).core g).rot), ((u.modCore _ (returns x)).core g).owner) = _
      rw [core_modCore, if_neg hg])
    (fun u i => by
      obtain ⟨x, hsrc, hdst, hx⟩ := hback u i
      rw [hx]
      refine (congrArg Prod.snd (pushToken_core _ _ _ _ _)).trans ?_
      show ((((u.modCore _ (returns x)).core _).rot), ((u.modCore _ (returns x)).core _).owner) = _
      rw [core_modCore, if_pos rfl, ← hsrc, ← hdst]
      rfl) i
  generalize (List.finRange 8).foldl (givenBack s s.ev.cl) u = v at hsp' hrest' htiles
  obtain ⟨-, hhbm, hhost⟩ := by simpa only [Prod.mk.injEq] using hrest'.trans hrest
  refine ⟨fun i => (hsp' _).trans (hsp i), fun i => ?_, ?_, hhbm, hhost⟩
  · obtain ⟨hnone, howner⟩ := by simpa only [Prod.mk.injEq] using htiles i
    refine ⟨hnone, ?_, ?_⟩
    · show bit (v.core (coreAt s.ev.cl i)).owner _ = false
      rw [howner]
      exact setRun_cleared _ _ _ _ (setRun_clear _ _)
    · show bit (v.core (coreAt s.ev.cl i)).owner _ = false
      rw [howner]
      exact setRun_clear _ _
  · rw [State.cluster_modCluster, if_pos rfl]

end

/-! ## Channels (R204, R206) -/

section
variable {s : State} {c : CopyCmd}

theorem copies_modCopy (s : State) (d : Fin 8) (id : Nat) (f : CopyCmd → CopyCmd) :
    ((s.modCopy d id f).die d).copies = (s.die d).copies.map fun c => if c.id == id then f c else c := by
  unfold State.modCopy
  rw [State.die_modDie, if_pos rfl]

theorem Beside.modCopy (d : Fin 8) (id : Nat) (f : CopyCmd → CopyCmd) : Beside s (s.modCopy d id f) := ⟨rfl, rfl, rfl, rfl, rfl, fun _ h => h⟩

/-- A change of the copy commands leaves every translation. -/
theorem locate_modCopy (s : State) (d : Fin 8) (id : Nat) (f : CopyCmd → CopyCmd) (p : Fin 8) (va : Nat) : (s.modCopy d id f).locate p va = s.locate p va := by
  have hxlat (d' : Fin 8) (off : Nat) : (s.modCopy d id f).xlat d' off = s.xlat d' off := by
    unfold State.xlat State.modCopy
    rw [State.die_modDie]
    split
    · rename_i hd
      rw [hd]
      rfl
    · rfl
  unfold State.locate
  simp only [hxlat]
  rfl

theorem rowTime_modCopy (s : State) (d : Fin 8) (id : Nat) (f : CopyCmd → CopyCmd) (c : CopyCmd) : (s.modCopy d id f).rowTime d c = s.rowTime d c := by
  unfold State.rowTime State.hbmTime
  simp only [locate_modCopy]
  rfl

theorem nextRow_goes {d : Fin 8} (hstopping : c.stopping = false) (hrow : c.row < c.rows) :
    s.nextRow d c = (s.useFree).rowStepIn d c.id (s.rowTime d c + Config.rowDelay s.free) 0 := by
  unfold State.nextRow
  dsimp only
  rw [hstopping, decide_eq_false (Nat.not_le.2 hrow)]
  rfl

theorem countRows_goes {d : Fin 8} {n : Nat} (hcounts : s.readCounts c = .inl n) : s.countRows d c =
    (s.modCopy d c.id fun _ => { c with counted := true, rows := n, got := [] }).nextRow d { c with counted := true, rows := n, got := [] } := by
  unfold State.countRows
  rw [hcounts]

theorem channel_starts {n : Nat} (hneed : (channelStarts c n).need s) : ∃ t, execCopyChannelStart s = .next t ∧ (channelStarts c n).holds s t := by
  obtain ⟨hfind, hbusy, hdesc, hstopping, hcounts, hrow⟩ := hneed
  have hcounts' : (s.modCopy s.ev.d c.id fun _ => { c with st := .running }).readCounts { c with st := .running } = .inl n := hcounts
  have hexec : execCopyChannelStart s = .next (((s.modCopy s.ev.d c.id fun _ => { c with st := .running }).modCopy s.ev.d c.id fun _ => copyRuns c n).nextRow
      s.ev.d (copyRuns c n)) := by
    unfold execCopyChannelStart
    dsimp only
    unfold evCopies at hfind
    unfold busyCopies evCopies at hbusy
    rw [hfind]
    dsimp only
    rw [decide_eq_false (Nat.not_le.2 hbusy), if_neg Bool.false_ne_true, if_neg (show ¬ c.desc.isSome = true by rw [hdesc]; exact Bool.false_ne_true)]
    exact congrArg _ (countRows_goes hcounts')
  rw [nextRow_goes (c := copyRuns c n) hstopping hrow, rowTime_modCopy, rowTime_modCopy] at hexec
  refine ⟨_, hexec, ⟨_, Nat.le_add_right _ (Config.rowDelay s.free), ?_⟩, ?_, rfl, ⟨fun _ => rfl, fun _ => rfl, fun _ _ => rfl⟩⟩
  · exact mem_scheduleAt_self _ _ _ _
  · show (((s.modCopy _ _ _).modCopy s.ev.d c.id _).die s.ev.d).copies = _
    rw [copies_modCopy, copies_modCopy, List.map_map]
    refine List.map_congr_left fun x _ => ?_
    show (if (if x.id == c.id then _ else x : CopyCmd).id == c.id then _ else if x.id == c.id then _ else x) = _
    by_cases hx : x.id == c.id
    · rw [if_pos hx, if_pos hx]
      exact if_pos (beq_self_eq_true c.id)
    · rw [if_neg hx, if_neg hx]

theorem channel_waits (hfind : (evCopies s).find? (fun c => c.id == s.ev.id && c.st == .queued) = some c) (hbusy : 16 ≤ busyCopies s) :
    execCopyChannelStart s = .next (s.schedule 1 .copyChannelStart s.ev) := by
  unfold evCopies at hfind
  unfold busyCopies evCopies at hbusy
  unfold execCopyChannelStart
  dsimp only
  rw [hfind]
  dsimp only
  rw [decide_eq_true hbusy]
  rfl

end

/-! ## Rows of a copy inside one scratchpad (R206) -/

section
variable {s : State} {c : CopyCmd}

/-- A step with no global bytes meets nothing. -/
theorem rowGate_none (s : State) (d : Fin 8) (c : CopyCmd) : s.rowGate d c [] [] = none := rfl

theorem usesScale_cpy (h : BitVec 256) : usesScale .cpy h = false := rfl

theorem laneScale_cpy (hop : c.op = .cpy) (h : BitVec 256) (x : Side) (l : LaneSpec) : laneScale c.op h x l = none := by
  unfold laneScale
  rw [hop]
  rfl

/-- The scale entries that a row's elements name. -/
def scalesOf (op : CopyOp) (h : BitVec 256) (x : Side) (l : List (Option LaneSpec)) : List Nat :=
  l.flatMap fun y => match y.bind (laneScale op h x) with | some va => upTo va 4 | none => []

theorem scalesOf_cpy (hop : c.op = .cpy) (h : BitVec 256) (x : Side) (l : List (Option LaneSpec)) : scalesOf c.op h x l = [] := by
  unfold scalesOf
  refine List.flatMap_eq_nil_iff.2 fun y _ => ?_
  cases y with
  | none => rfl
  | some y =>
    show (match laneScale c.op h x y with | some va => upTo va 4 | none => []) = []
    rw [laneScale_cpy hop]

/-- The parts and events of a row of a copy inside one scratchpad. -/
def rowParts (s : State) (c : CopyCmd) : List RowPart × List PEvent :=
  s.rowOut c c.row (rowElems s c c.srcH c.srcS c.row) (rowElems s c c.dstH c.dstS c.row) []

/-- The bytes and events of their merge. -/
def rowMerged (s : State) (c : CopyCmd) : List (Nat × Byte) × List PEvent := mergeRow (fun a => BitVec.ofNat 8 (s.endRead c true a 1)) (rowParts s c).1

/-- A row goes to the scratchpad of a core. -/
def rowWritten (g : Fin 512) (d : Fin 8) (c : CopyCmd) (s : State) : State :=
  (((rowMerged s c).1.foldl (fun (s : State) (x : Nat × Byte) => s.spWrite g x.1 [x.2])
    ((s.copyEvents d c.id (rowParts s c).2).copyEvents d c.id (rowMerged s c).2))).rowDone d c

theorem rowRead_commits {g : Fin 512} {k : Fin 2} {d : Fin 8} (hop : c.op = .cpy) (hsrc : c.src = some (g, k)) (hsrcSp : c.srcSp = true) (hdstSp : c.dstSp = true)
    (hrow : c.row < winRows c.srcH) (hw : s.ev.w ≠ 0)
    (hport : (s.core g).wideEnd s.cycle 2 c.id ≤ s.cycle) : s.rowRead d c = rowWritten g d c s := by
  have hpairs : c.pairBytes c.row = [] := by
    unfold CopyCmd.pairBytes
    rw [hsrc, hop]
    rfl
  have hpair : s.rowPair c c.row = some (c.row, c.row) := by
    unfold State.rowPair
    rw [hop]
  have hfault (vas : List Nat) : s.rowFault c c.row vas = none := by
    unfold State.rowFault
    rw [hsrc]
    dsimp only
    rw [hsrcSp, decide_eq_true hrow]
    rfl
  have hserved (vas : List Nat) : s.rowPort d c vas = none := by
    unfold State.rowPort
    rw [hsrc]
    dsimp only
    rw [if_neg hw, decide_eq_false (Nat.not_lt.2 hport)]
    cases vas <;> rfl
  have hside (l : Nat) : c.sidecar c.row l = [] := by
    unfold CopyCmd.sidecar
    rw [hop]
    rfl
  unfold State.rowRead
  rw [hpairs, rowGate_none]
  dsimp only
  rw [hpair]
  dsimp only
  simp only [hside, hsrcSp, hdstSp, hfault, hserved, if_true, List.append_nil, List.map_nil]
  rw [rowGate_none]
  dsimp only
  change (match s.rowGate d c (([] : List Nat) ++ scalesOf c.op c.srcH c.srcS _ ++ scalesOf c.op c.dstH c.dstS _) [] with
    | some t => t
    | none => _) = _
  rw [scalesOf_cpy hop, scalesOf_cpy hop, hsrc]
  rfl

theorem Beside.copyEvents (d : Fin 8) (id : Nat) (evs : List PEvent) (s : State) : Beside s (s.copyEvents d id evs) := by
  unfold State.copyEvents
  refine Beside.foldl (fun s e => ?_) evs s
  cases (s.die d).copies.find? fun c => c.id == id with
  | none => exact Beside.refl s
  | some c =>
    dsimp only
    split
    · exact Beside.modDie _ _
    · exact (Beside.provRecord _ _).trans (Beside.modCopy _ _ _)

theorem Beside.nextRow (d : Fin 8) (c : CopyCmd) (s : State) : Beside s (s.nextRow d c) := by
  unfold State.nextRow
  dsimp only
  split
  · exact (Beside.modCopy _ _ _).trans (Beside.schedule _ _ _)
  · split
    · exact (Beside.modCopy _ _ _).trans (Beside.schedule _ _ _)
    · exact Beside.useFree.trans (Beside.schedule _ _ _)

theorem row_exec {g : Fin 512} {k : Fin 2} (hneed : (rowCommits c g k).need s) : execCopyRowCommit s = .next (rowWritten g s.ev.d c s) := by
  obtain ⟨hwords, hfind, hop, hsrc, hsrcSp, hdstSp, -, -, hrow, hdesc, hout, hcounted, hw, hport⟩ := hneed
  have herrors : s.sectorErrors = s := by
    unfold State.sectorErrors
    rw [hwords]
    rfl
  have hread := rowRead_commits (d := s.ev.d) hop hsrc hsrcSp hdstSp hrow hw hport
  unfold evCopies at hfind
  unfold execCopyRowCommit
  dsimp only
  rw [hfind]
  dsimp only
  rw [herrors, hdesc, hout, hcounted, hop, ← hread]
  rfl

/-- A core with the bytes of a row. -/
def rowStored (s : State) (c : CopyCmd) (x : Core) : Core := { x with sp := (rowBytes s c).foldl (fun m x => m.write x.1 x.2) x.sp }

/-- A row that has committed shows in CPSTAT of its bank. -/
theorem rowDone_shows {g : Fin 512} {k : Fin 2} (v : State) (d : Fin 8) (hsrc : c.src = some (g, k)) : ∃ w, v.rowDone d c = w ∧
    Beside (v.modBank g (k.castLE (by decide)) fun b => b.setCpstat c.kth (cpstatWord 1 0 (c.row + 1))) w := by
  refine ⟨_, rfl, ?_⟩
  have hshows (u : State) : u.showRows { c with row := c.row + 1, got := [], out := none } =
      u.modBank g (k.castLE (by decide)) fun b => b.setCpstat c.kth (cpstatWord 1 0 (c.row + 1)) := by
    unfold State.showRows
    dsimp only
    rw [hsrc]
  unfold State.rowDone
  dsimp only
  rw [hshows]
  exact (Beside.modCopy (s := v.modBank g (k.castLE (by decide)) fun b => b.setCpstat c.kth (cpstatWord 1 0 (c.row + 1))) d c.id
    fun c => { c with row := c.row + 1, got := [], out := none }).trans (Beside.nextRow _ _ _)

theorem row_commits {g : Fin 512} {k : Fin 2} (hneed : (rowCommits c g k).need s) :
    ∃ t, execCopyRowCommit s = .next t ∧ (rowCommits c g k).holds s t := by
  refine ⟨_, row_exec hneed, ?_⟩
  obtain ⟨-, -, -, hsrc, -⟩ := hneed
  have hlogged := (Beside.copyEvents s.ev.d c.id (rowParts s c).2 s).trans (Beside.copyEvents s.ev.d c.id (rowMerged s c).2 _)
  have hwrites := spWrites_foldl g (fun x : Nat × Byte => x.1) (fun x => [x.2]) (rowMerged s c).1
    ((s.copyEvents s.ev.d c.id (rowParts s c).2).copyEvents s.ev.d c.id (rowMerged s c).2)
  unfold rowWritten
  rw [hwrites]
  generalize (s.copyEvents s.ev.d c.id (rowParts s c).2).copyEvents s.ev.d c.id (rowMerged s c).2 = u at hlogged
  have hstored (g' : Fin 512) : (u.modCore g fun x => rowStored s c x).core g' = if g' = g then rowStored s c (s.core g) else s.core g' := by
    rw [core_modCore, hlogged.core, hlogged.core]
  change (rowCommits c g k).holds s ((u.modCore g fun x => rowStored s c x).rowDone s.ev.d c)
  have hmemories : (u.modCore g fun x => rowStored s c x).hbm = s.hbm ∧ (u.modCore g fun x => rowStored s c x).host = s.host := ⟨hlogged.hbm, hlogged.host⟩
  generalize (u.modCore g fun x => rowStored s c x) = v at hstored hmemories
  obtain ⟨w, hdone, hw⟩ := rowDone_shows v s.ev.d hsrc
  rw [hdone]
  have hcore (g' : Fin 512) : (w.core g') = if g' = g then (rowStored s c (s.core g)).setBank (k.castLE (by decide))
      (((rowStored s c (s.core g)).bank (k.castLE (by decide))).setCpstat c.kth (cpstatWord 1 0 (c.row + 1))) else s.core g' := by
    rw [hw.core, State.core_modBank]
    unfold State.bank
    rw [hstored, hstored, if_pos rfl]
    split <;> rfl
  refine ⟨?_, ?_, fun g' hg => ?_, hw.hbm.trans hmemories.1, hw.host.trans hmemories.2⟩
  · rw [hcore, if_pos rfl]
    rfl
  · show ((w.core g).bank _).cpstat = _
    rw [hcore, if_pos rfl, Core.bank_setBank, if_pos rfl]
    rfl
  · rw [hcore, if_neg hg]

/-! ## Commands that end (R204, R208, R209) -/

/-- The engine of a die without a command that has ended. -/
def copyLeft (g : Fin 512) (c : CopyCmd) (s : State) : State :=
  s.modDie (dieOf g) fun d => { d with copies := d.copies.filter fun x => x.id != c.id }

theorem copyLeft_beside (g : Fin 512) (c : CopyCmd) (s : State) : Beside s (copyLeft g c s) := Beside.modDie _ _

theorem copyLeft_copies (g : Fin 512) (c : CopyCmd) (s : State) :
    ((copyLeft g c s).die (dieOf g)).copies = (s.die (dieOf g)).copies.filter fun x => x.id != c.id := by
  unfold copyLeft
  rw [State.die_modDie, if_pos rfl]

/-- The only command of a core leaves none behind. -/
theorem copiesOf_ended {g : Fin 512} (honly : s.copiesOf g = [c]) :
    (copyLeft g c s).copiesOf g = [] := by
  unfold State.copiesOf at honly ⊢
  rw [copyLeft_copies]
  refine List.filter_eq_nil_iff.2 fun x hx hsrc => ?_
  obtain ⟨hx, hid⟩ := List.mem_filter.1 hx
  have hmem : x ∈ [c] := honly ▸ List.mem_filter.2 ⟨hx, hsrc⟩
  rw [List.mem_singleton.1 hmem] at hid
  exact absurd hid (by simp)

theorem Beside.pokeDispatch (d : Fin 8) (s : State) : Beside s (s.pokeDispatch d) := by
  unfold State.pokeDispatch State.dispatchBy
  split
  · exact Beside.refl s
  · exact Beside.scheduleAt _ _ _

theorem pokeDispatch_dies (d d' : Fin 8) (s : State) : (s.pokeDispatch d).die d' = s.die d' := by
  unfold State.pokeDispatch State.dispatchBy
  split <;> rfl

/-- The bank of a command that has ended well. -/
def endedBank (c : CopyCmd) (b : Bank) : Bank := { b.setCpstat c.kth (cpstatWord 2 0 c.row) with digest := closeDigest c.id true c b.digest }

theorem bank_pushToken (s : State) (g : Fin 512) (k : Fin 3) (f : Fin 16) : (s.pushToken g k (some f)).bank g k =
    (s.bank g k).modFlag f fun t => { t with owed := t.owed - 1, travel := t.travel + 1 } := by
  refine (State.bank_modBank s g g k k fun b => b.modFlag f fun t => { t with owed := t.owed - 1, travel := t.travel + 1 }).trans ?_
  rw [if_pos ⟨rfl, rfl⟩]

theorem finishCopy_goes {g : Fin 512} {k : Fin 3} {f : Fin 16} (hst : c.st = .finished) (hsrcSp : c.srcSp = false) (hhb : c.hb = false) (hpush : c.push = some f) :
    s.finishCopy g k c = (((copyLeft g c s).modBank g k
      (endedBank c)).modBank g k fun b => { b with pa := b.pa + 1 }).pushToken g k (some f) := by
  unfold State.finishCopy State.consumeSlots
  dsimp only
  rw [hst, hsrcSp, hhb, hpush]
  rfl

theorem finishCopies_only {g : Fin 512} {k : Fin 2} {n : Nat} {t : State} (honly : s.copiesOf g = [c]) (hdone : c.inFlight = false)
    (hsrc : c.src = some (g, k)) (hring : c.ring = none) (hfinish : s.finishCopy g (k.castLE (by decide)) c = t) (hnone : t.copiesOf g = []) :
    State.finishCopies g (n + 2) s = t := by
  unfold State.finishCopies
  rw [honly]
  dsimp only
  rw [hdone, hsrc]
  dsimp only
  rw [hring]
  dsimp only
  rw [if_neg Bool.false_ne_true, if_neg Bool.false_ne_true, hfinish]
  unfold State.finishCopies
  rw [hnone]

theorem copy_ends {g : Fin 512} {k : Fin 2} {f : Fin 16} (hneed : (copyEnds c g k f).need s) :
    ∃ t, execCopyCommandComplete s = .next t ∧ (copyEnds c g k f).holds s t := by
  obtain ⟨hdie, hfind, honly, huniq, hst, hnode, hsrc, hring, hsrcSp, hhb, hpush⟩ := hneed
  have hdone : c.inFlight = false := by
    unfold CopyCmd.inFlight
    rw [hst]
    rfl
  have hfinish := finishCopy_goes (s := s) (g := g) (k := k.castLE (by decide)) hst hsrcSp hhb hpush
  have hexec : execCopyCommandComplete s = .next ((State.finishCopies g 16 s).pokeDispatch s.ev.d) := by
    unfold evCopies at hfind
    unfold execCopyCommandComplete
    dsimp only
    rw [hfind]
    dsimp only
    rw [hnode, hsrc]
  rw [finishCopies_only honly hdone hsrc hring hfinish (copiesOf_ended honly)] at hexec
  have hbank : (((copyLeft g c s).modBank g (k.castLE (by decide))
      (endedBank c)).modBank g (k.castLE (by decide)) fun b => { b with pa := b.pa + 1 }).bank g (k.castLE (by decide)) =
      { endedBank c (s.bank g (k.castLE (by decide))) with pa := (s.bank g (k.castLE (by decide))).pa + 1 } := by
    rw [State.bank_modBank, if_pos ⟨rfl, rfl⟩, State.bank_modBank, if_pos ⟨rfl, rfl⟩]
    rfl
  have hmemory := (((copyLeft_beside g c s).rowsKept.trans
    (RowsKept.modBank g (k.castLE (by decide)) (endedBank c))).trans (RowsKept.modBank g (k.castLE (by decide)) fun b => { b with pa := b.pa + 1 })).memory
  have hcopies : evCopies s = (s.die (dieOf g)).copies := congrArg (fun d => (s.die d).copies) hdie
  have hdies : ((((copyLeft g c s).modBank g (k.castLE (by decide))
      (endedBank c)).modBank g (k.castLE (by decide)) fun b => { b with pa := b.pa + 1 }).die (dieOf g)).copies =
      (evCopies s).filter fun x => x.id != c.id := by
    show ((copyLeft g c s).die (dieOf g)).copies = _
    rw [copyLeft_copies, hcopies]
  refine ⟨_, hexec, ?_⟩
  have hev : (((copyLeft g c s).modBank g (k.castLE (by decide)) (endedBank c)).modBank g (k.castLE (by decide)) fun b =>
      { b with pa := b.pa + 1 }).ev = s.ev := rfl
  generalize ((copyLeft g c s).modBank g (k.castLE (by decide))
      (endedBank c)).modBank g (k.castLE (by decide)) (fun b => { b with pa := b.pa + 1 }) = u at hbank hmemory hdies hev
  have hpoked := Beside.pokeDispatch s.ev.d (u.pushToken g (k.castLE (by decide)) (some f))
  refine ⟨?_, ?_, ?_, ?_, sameMemory_trans hmemory (sameMemory_trans (pushToken_memory _ _ _ _) hpoked.memory)⟩
  · unfold evCopies
    rw [hpoked.ev, pokeDispatch_dies]
    show (u.die u.ev.d).copies = _
    rw [hev, hdie]
    exact hdies.trans (congrArg _ hcopies)
  · rw [hpoked.bank, bank_pushToken, hbank]
    rfl
  · rw [hpoked.bank, travel_pushToken, hbank]
    rfl
  · rw [hpoked.bank, bank_pushToken, hbank]
    rfl

end

end Sys2Proof.Machine

/-! Steps of the copy engine and of the matrix array (O44). -/
namespace Sys2Proof.Machine
open Sys2Proof Sys2Proof.Claims

/-- Settles O44: each row of the table of engine steps. -/
theorem engineSteps : Obligations.EngineSteps := by
  intro i e s hi need
  cases hi with
  | channel => rw [exec_copyChannelStart]; exact channel_starts need
  | channelWaits => rw [exec_copyChannelStart]; exact ⟨_, channel_waits need.1 need.2, rfl⟩
  | row => rw [exec_copyRowCommit]; exact row_commits need
  | copyEnds => rw [exec_copyCommandComplete]; exact copy_ends need
  | rotation => rw [exec_rgrotExchange]; exact rotation_starts
  | rotationEnds => rw [exec_rgrotExchangeEnd]; exact rotation_ends need
  | grant =>
    obtain ⟨hfree, hi, hasks⟩ := need
    rw [exec_leaseGrant]
    exact ⟨_, grant_goes hfree hi hasks, rfl⟩
  | leaseCycles =>
    obtain ⟨hholder, hi, hgranted⟩ := need
    rw [exec_leaseEndCycles]
    exact leaseCycles_ends hholder hi hgranted
  | leaseCommands => rw [exec_leaseEndCommands]; exact leaseCommands_ends need.1 need.2
  | startsFetch => rw [exec_arrayCommandStart]; exact ⟨_, start_fetches need.1 need.2, rfl⟩
  | mulStarts =>
    obtain ⟨hmay, hop, hzeroed, hearlier⟩ := need
    rw [exec_arrayCommandStart]
    exact mul_starts hmay hop hzeroed hearlier
  | fetchBegins => rw [exec_arraySlotFetch]; exact ⟨_, fetch_begins need.1 need.2, rfl⟩
  | fetchWaits =>
    obtain ⟨hstep, -, hlater, hn⟩ := need
    rw [exec_arraySlotFetch]
    exact ⟨_, fetch_waits hstep (wideLate_waits hlater hn), rfl⟩
  | loadEnds =>
    obtain ⟨hdone, hflag, hop⟩ := need
    rw [exec_arraySlotFetch]
    exact load_ends hdone hflag hop
  | slotEnds =>
    obtain ⟨hdone, hflag, hbm, hwl⟩ := need
    rw [exec_arraySlotFetch]
    exact ⟨_, slot_ends hdone hflag hbm hwl, rfl⟩
  | weightEnds =>
    obtain ⟨hdone, hflag, hop⟩ := need
    rw [exec_arraySlotFetch]
    exact weight_ends hdone hflag hop
  | stepStarts =>
    obtain ⟨hstep, hop, hlast, hwl⟩ := need
    rw [exec_kStepStart]
    exact step_starts hstep hop hlast hwl
  | predStarts => rw [exec_kStepStart]; exact pred_starts need.1 need.2
  | stepLands =>
    obtain ⟨hstep, hlanded, hearlier, hzeroed, hflag⟩ := need
    rw [exec_kStepLanding]
    exact step_lands hstep hlanded hearlier hzeroed hflag
  | stepWaits => rw [exec_kStepLanding]; exact ⟨_, step_waits need.1 need.2, rfl⟩
  | retires =>
    obtain ⟨hstep, hretired, hpush⟩ := need
    rw [exec_arrayCommandRetire]
    exact command_retires hstep hretired hpush
  | drainStarts =>
    obtain ⟨hstep, hop, hstarted, hearlier, hc, hreplay⟩ := need
    rw [exec_drainStart]
    exact drain_starts hstep hop hstarted hearlier hc hreplay
  | drainWaits =>
    obtain ⟨hstep, hstarted, -, hearlier, hreplay⟩ := need
    rw [exec_drainStart]
    exact ⟨_, drain_waits hstep hstarted hearlier hreplay, rfl⟩
  | zeroWaits =>
    obtain ⟨hstep, -, hretired, hearlier, hreplay⟩ := need
    rw [exec_mzeroEffect]
    exact ⟨_, zero_waits hstep hretired hearlier hreplay, rfl⟩
  | snapWaits =>
    obtain ⟨hstep, hstarted, -, -, hreplay⟩ := need
    rw [exec_msnapWrite]
    exact ⟨_, snap_waits hstep hstarted hreplay, rfl⟩
  | drainPortWaits =>
    obtain ⟨hstep, -, hlater, hn⟩ := need
    rw [exec_drainWrite]
    exact ⟨_, drain_port_waits hstep (wideLate_waits hlater hn), rfl⟩
  | snapPortWaits =>
    obtain ⟨hstep, hstarted, hlater, hn⟩ := need
    rw [exec_msnapWrite]
    exact ⟨_, snap_port_waits hstep hstarted (wideLate_waits hlater hn), rfl⟩
  | scanPortWaits =>
    obtain ⟨hstep, -, hlater, hn⟩ := need
    rw [exec_mscanWrite]
    exact ⟨_, scan_port_waits hstep (wideLate_waits hlater hn), rfl⟩
  | drainPort => rw [exec_drainWrite]; exact ⟨_, drain_takes need.1, rfl⟩
  | drainWrites => rw [exec_drainWrite]; exact drain_writes need
  | zeroes =>
    obtain ⟨hstep, hretired, hearlier, hreplay⟩ := need
    rw [exec_mzeroEffect]
    exact zero_effect hstep hretired hearlier hreplay
  | snapTakes =>
    obtain ⟨hstep, hstarted, hreplay⟩ := need
    rw [exec_msnapWrite]
    exact ⟨_, snap_takes hstep hstarted hreplay, rfl⟩
  | snapPort => rw [exec_msnapWrite]; exact ⟨_, snap_takes_port need.1 need.2, rfl⟩
  | snapWrites => rw [exec_msnapWrite]; exact snap_writes need.1 need.2
  | predEnds => rw [exec_mpredResult]; exact pred_ends need
  | scanWrites => rw [exec_mscanWrite]; exact scan_writes need.1 need.2
  | replayBegins =>
    obtain ⟨hcl, hcmds, hflag, hreplaying⟩ := need
    rw [exec_arrayReplay]
    exact replay_begins hcl hcmds hflag hreplaying
  | replayWaits =>
    obtain ⟨hflag, hreplaying, hother⟩ := need
    rw [exec_arrayReplay]
    exact ⟨_, replay_waits hflag hreplaying hother, rfl⟩
  | replayEscalates =>
    obtain ⟨hcl, hnone, hmay⟩ := need
    rw [exec_arrayReplay]
    exact ⟨_, replay_escalates hcl hnone hmay, rfl⟩

end Sys2Proof.Machine

/-! Steps of power, firmware, host and links (O46): a refutation. -/
namespace Sys2Proof.Machine
open Sys2Proof Sys2Proof.Claims

/-- A read request of a peer whose port no aperture binds arrives while the reads of sector 0 of die 0 meet an uncorrectable error. -/
def strayRead : State := { State.reset with ev := { EvArgs.zero with w2 := 2, words := [0] } }

theorem strayRead_unbound : strayRead.portAperture strayRead.ev.p strayRead.ev.port = none := rfl

/-- The request poisons the sector before it is dropped. -/
theorem strayRead_exec : exec .spanReadRequest strayRead = .next strayRead.sectorErrors.dropFlit := rfl

theorem strayRead_poisons : (strayRead.sectorErrors.dropFlit.die 0).poison = [0] := rfl

/-- Refutes O46: a read request that no binding explains is not dropped with nothing but its count. `strayRead` meets what the row
`unbound` asks, and its step also poisons the sector that its word names. -/
theorem not_deviceSteps : ¬ Obligations.DeviceSteps := by
  intro h
  obtain ⟨t, hexec, ht⟩ := h _ _ strayRead .unbound strayRead_unbound
  rw [strayRead_exec] at hexec
  have hpoison : (strayRead.sectorErrors.dropFlit.die 0).poison = (t.die 0).poison := by rw [Host.Outcome.next.inj hexec]
  rw [strayRead_poisons, show t = _ from ht] at hpoison
  exact absurd hpoison (List.cons_ne_nil 0 [])

end Sys2Proof.Machine

/-! Steps of queues, dispatch and units (spec/05 R76-R93, spec/01 R11-R15, spec/18 R299). -/
namespace Sys2Proof.Machine
open Sys2Proof Sys2Proof.Claims

section
variable {s : State}

/-! ## Queues and their heads -/

theorem doorbell_taken {x : Queue} (hqueue : EvQueue x s) (henabled : x.enabled = true) (hdevice : x.device = false)
    (hroom : ahead x s ≤ 2 ^ x.logsize) (hahead : (x.tail - x.head).toNat ≤ ahead x s) :
    execQueueDoorbell s = .next ((s.modQueue s.ev.p s.ev.q fun x => { x with tail := s.ev.w }).pokeQueue s.ev.p s.ev.q) := by
  have hroom' : ¬ 2 ^ x.logsize < (s.ev.w - x.head).toNat := Nat.not_lt.2 hroom
  have hahead' : ¬ (s.ev.w - x.head).toNat < (x.tail - x.head).toNat := Nat.not_lt.2 hahead
  unfold execQueueDoorbell
  dsimp only
  rw [show s.queue s.ev.p s.ev.q = some x from hqueue]
  simp only [henabled, hdevice, hroom', hahead', Bool.not_true, Bool.false_eq_true, decide_false, Bool.or_self, if_false]

theorem doorbell_overflows {x : Queue} (hqueue : EvQueue x s) (henabled : x.enabled = true)
    (hover : x.device = true ∨ 2 ^ x.logsize < ahead x s) :
    execQueueDoorbell s = .next (s.setQueue s.ev.p s.ev.q fun x => { x with qovf := true }) := by
  have hover' : (x.device || decide (2 ^ x.logsize < (s.ev.w - x.head).toNat)) = true := by
    rcases hover with h | h
    · rw [h, Bool.true_or]
    · rw [decide_eq_true (show 2 ^ x.logsize < (s.ev.w - x.head).toNat from h), Bool.or_true]
  unfold execQueueDoorbell
  dsimp only
  rw [show s.queue s.ev.p s.ev.q = some x from hqueue]
  simp only [henabled, hover', Bool.not_true, Bool.false_eq_true, Bool.true_or, if_false, if_true]

/-- A head that may be looked at takes the outcome of its check. -/
theorem head_checked {x : Queue} (hwaits : HeadWaits x s) (hgraph : x.graph = false) : execQueueHeadCheck s =
    match s.checkLaunch s.ev.p (headVA x) with
    | some k => .next ((s.endEntry s.ev.p s.ev.q x.head 3 (BitVec.ofNat 8 k)).advance s.ev.p s.ev.q)
    | none => .next ((s.modQueue s.ev.p s.ev.q setChecked).schedule 0 .entryDispatch s.ev) := by
  obtain ⟨hqueue, henabled, hchecked, hhead, hreset, hsound⟩ := hwaits
  have hnone : s.consumed s.ev.p (x.entryVA x.head) 128 = none := by
    unfold State.consumed
    rw [show s.readsPoison s.ev.p (upTo (x.entryVA x.head) 128) = false from hsound]
    rfl
  have hstays : (!x.enabled || x.checked || x.head == x.tail || (s.part s.ev.p).qreset == some s.ev.q) = false := by
    rw [henabled, hchecked, beq_false_of_ne hhead, beq_false_of_ne hreset]
    rfl
  unfold execQueueHeadCheck
  dsimp only
  rw [show s.queue s.ev.p s.ev.q = some x from hqueue]
  dsimp only
  rw [hstays, hnone, hgraph]
  simp only [Bool.false_eq_true, if_false, Bool.false_and]
  show (match s.checkLaunch s.ev.p (headVA x) with | some k => _ | none => _) = _
  cases s.checkLaunch s.ev.p (headVA x) with
  | none => rfl
  | some k => rfl

theorem launch_dispatched {x : Queue} (hqueue : EvQueue x s) (hgraph : x.graph = false) : execEntryDispatch s =
    .next (if s.mayDispatch s.ev.p s.ev.q x then s.dispatchLaunch s.ev.p s.ev.q x else s) := by
  unfold execEntryDispatch
  dsimp only
  rw [show s.queue s.ev.p s.ev.q = some x from hqueue]
  dsimp only
  rw [hgraph, Bool.and_false, Bool.false_and, Bool.false_and]
  cases s.mayDispatch s.ev.p s.ev.q x <;> rfl

/-! ## The Steppe's choice -/

theorem host_asked {x : Slot} (hpruned : s.prune s.ev.d = s)
    (hbest : s.bestSlot s.ev.d (fun x => !(s.part x.part).halted && s.kindOf x == 2) = some x) :
    execUnitDispatch s = .next ((s.askHost s.ev.d x).pokeDispatch s.ev.d) := by
  unfold execUnitDispatch
  dsimp only
  rw [hpruned, hbest]

theorem unit_chosen {g : Fin 512} {k : Fin 3} {x : Slot} (hturn : UnitsTurn s) (hchosen : Chosen g k x s) : execUnitDispatch s =
    if decide (s.cycle < (s.die s.ev.d).dispatchAt) then .next (s.dispatchBy s.ev.d (s.die s.ev.d).dispatchAt)
    else .next (((s.modDie s.ev.d (dispatchedAt (s.cycle + 2))).useSlot s.ev.d g k x).dispatchBy s.ev.d (s.cycle + 2)) := by
  obtain ⟨hpruned, hhosts, hcopies⟩ := hturn
  have hnone : (if decide (s.busyChannels s.ev.d < 16) then s.bestSlot s.ev.d fun x => !(s.part x.part).halted && s.kindOf x == 1 else none) = none := by
    rcases hcopies with h | h
    · rw [decide_eq_false (Nat.not_lt.2 h)]
      rfl
    · rw [h, ite_self]
  unfold execUnitDispatch
  dsimp only
  rw [hpruned, hhosts]
  dsimp only
  rw [hnone]
  dsimp only
  rw [show _ = some (g, k, x) from hchosen]
  rfl

/-! ## Units -/

theorem placeTrace_none {t : State} {g : Fin 512} {k : Fin 3} {u : UnitInfo} (hunit : (t.bank g k).unit = some u)
    (hun : ((t.part u.part).trcOpen && u.queue == (t.part u.part).trcQueue) = false) (st c kind : Nat) (pc : Word) (d0 d1 : DWord) :
    t.traceAt g k st c kind pc d0 d1 = t := by
  unfold State.traceAt
  dsimp only
  rw [hunit]
  dsimp only
  rw [hun, if_neg Bool.false_ne_true]

theorem setSpill_bank (c : Core) (k : Fin 3) (v : BitVec 4) (k' : Fin 3) : (c.setSpill k v).bank k' = c.bank k' := by
  unfold Core.setSpill
  split
  · rfl
  · split <;> rfl

theorem bank_setSpill (t : State) (g : Fin 512) (k : Fin 3) (m : BitVec 768) (v : BitVec 4) (g' : Fin 512) (k' : Fin 3) :
    (t.modCore g fun c => (c.ownZero m).setSpill k v).bank g' k' = t.bank g' k' := by
  unfold State.bank
  rw [core_modCore]
  split
  · next h =>
    subst h
    exact setSpill_bank ..
  · rfl

theorem unit_starts {u : UnitInfo} (hunit : (evBank s).unit = some u) (hstarted : u.started = false) (hun : PlaceUntraced (evBank s) s) :
    execUnitStart s = .next (((s.modBank s.ev.g s.ev.k fun b => { b with unit := some (startedUnit s.cycle u) }).modCore s.ev.g fun c =>
          (c.ownZero u.tiles).setSpill s.ev.k 0).startIfIdle s.ev.g s.ev.k 0) := by
  have hquiet := placeTrace_none (t := (s.modBank s.ev.g s.ev.k fun b => { b with unit := some (startedUnit s.cycle u) }).modCore s.ev.g fun c =>
    (c.ownZero u.tiles).setSpill s.ev.k 0) (u := startedUnit s.cycle u) (g := s.ev.g) (k := s.ev.k) (by
      rw [bank_setSpill]
      rw [State.bank_modBank, if_pos ⟨rfl, rfl⟩]) (hun u hunit) 3 0 1 0 u.launch (u.index.setWidth 64)
  unfold execUnitStart
  dsimp only
  rw [show (s.bank s.ev.g s.ev.k).unit = some u from hunit]
  dsimp only
  rw [hstarted, if_neg Bool.false_ne_true]
  exact congrArg (fun t => Host.Outcome.next (State.startIfIdle t s.ev.g s.ev.k 0)) hquiet

theorem unit_completes {u : UnitInfo} (hunit : (evBank s).unit = some u) (hleft : (evBank s).left = 0) : execUnitCompletion s =
    .next (if s.unitOpen s.ev.g s.ev.k then s.schedule 1 .unitCompletion s.ev else s.completeUnit s.ev.g s.ev.k u) := by
  unfold execUnitCompletion
  dsimp only
  rw [show (s.bank s.ev.g s.ev.k).unit = some u from hunit]
  dsimp only
  rw [show (s.bank s.ev.g s.ev.k).left = 0 from hleft, bne_self_eq_false, if_neg Bool.false_ne_true]
  split <;> rfl

theorem host_node_ends {j : Job} {i : Item} {n : Nat} {y : NodeSt} (hasked : AskedNode j i n y s) :
    execHostNodeDoorbell s = .next (s.nodeDone s.ev.p i.num n 0 0) := by
  obtain ⟨⟨hlevel, hn⟩, hjob, hitem, hnode, ⟨obj, hhost⟩, ⟨hready, hopen⟩, hasked⟩ := hasked
  have hgone : ((s.partDies s.ev.p).any fun d => ((s.die d).steppe ++ (s.die d).outside).any fun (x : Slot) =>
      x.part == s.ev.p && x.item == i.num && x.node == n + 1 - 1) = false := by
    rw [List.any_eq_false]
    intro d hd hany
    obtain ⟨x, hx, hsame⟩ := List.any_eq_true.1 hany
    simp only [Bool.and_eq_true, beq_iff_eq, Nat.add_sub_cancel] at hsame
    exact hasked d hd x hx ⟨hsame.1.1, hsame.1.2, hsame.2⟩
  unfold execHostNodeDoorbell
  dsimp only
  rw [hlevel, hn, hjob]
  dsimp only
  rw [hitem]
  dsimp only
  rw [Nat.add_sub_cancel] at hgone ⊢
  rw [hnode]
  show (match y.kind with | .host _ => _ | _ => _) = _
  rw [hhost, hgone, hready, hopen]
  rfl

theorem records_drain {x : Queue} (hqueue : EvQueue x s) (hstall : x.cplstall = true) :
    execCompletionRecord s = .next (State.drainRecords s.ev.p s.ev.q (x.held.length + 1) s) := by
  unfold execCompletionRecord
  rw [show s.queue s.ev.p s.ev.q = some x from hqueue]
  show Host.Outcome.next (if x.cplstall then _ else _) = _
  rw [hstall]
  rfl

theorem cancel_stops (hcancelled : (evBank s).cancelled = true) (hunit : (evBank s).unit.isSome = true)
    (hst : (evBank s).st = .running ∨ (evBank s).st = .ready) : execCancelStop s = .next (s.stopUnit s.ev.g s.ev.k 1 0) := by
  have hruns : ((evBank s).st == .running || (evBank s).st == .ready) = true := by
    rcases hst with h | h <;> rw [h] <;> rfl
  unfold execCancelStop
  dsimp only
  rw [if_pos]
  rw [show (s.bank s.ev.g s.ev.k).cancelled = true from hcancelled, show (s.bank s.ev.g s.ev.k).unit.isSome = true from hunit]
  exact hruns

/-! ## Pre-emption -/

theorem endExec_cycle (s : State) (g : Fin 512) (k : Fin 3) : (s.endExec g k).cycle = s.cycle := by
  unfold State.endExec
  dsimp only
  split <;> rfl

theorem victim_freezes {x : Slot} {slot : Nat} {g : Fin 512} {k : Fin 3} {q : Nat} (h : MovesOut x slot g k q s) :
    execPreemption s = .next (((s.endExec g k).modBank g k fun b => b.park s.cycle .trapped).schedule 1 .preemption
      { EvArgs.at g k with
        d := s.ev.d, flag := true, id := slot, n := s.cycle, p := x.part, va := BitVec.ofNat 64 x.item, w := BitVec.ofNat 32 x.node }) := by
  obtain ⟨⟨hflag, hnone, hfree⟩, hwaiting, hroom, hvictim, ⟨hdelta, habove⟩, hasleep⟩ := h
  have hmay : ((s.part x.part).predelta.toNat = 0 || decide (s.slotPrio x < q + (s.part x.part).predelta.toNat)) = false := by
    rw [decide_eq_false (Nat.not_lt.2 habove), decide_eq_false (show (s.part x.part).predelta.toNat ≠ 0 from fun h => hdelta (BitVec.eq_of_toNat_eq h))]
    rfl
  unfold execPreemption
  dsimp only
  rw [hflag, hnone, hfree, hwaiting, hroom]
  simp only [Bool.false_eq_true, if_false, Option.isSome_none, List.isEmpty_nil, Bool.not_true, Bool.or_self]
  rw [hvictim]
  dsimp only
  rw [hmay, beq_false_of_ne hasleep]
  simp only [Bool.false_eq_true, if_false]
  rw [show ((s.endExec g k).modBank g k fun b => b.park s.cycle .trapped).cycle = s.cycle from endExec_cycle s g k]

theorem frozen_saves {u : UnitInfo} (hflag : s.ev.flag = true) (hunit : (evBank s).unit = some u) (hcancelled : (evBank s).cancelled = false) :
    execPreemption s = .next (if !s.saveReady s.ev.g s.ev.k || decide (s.cycle < (s.die s.ev.d).dispatchAt) then s.schedule 1 .preemption s.ev
      else (s.saveUnit s.ev.d s.ev.g s.ev.k u s.ev.id s.ev.n).startChosen s.ev.d s.ev.g s.ev.k) := by
  unfold execPreemption
  dsimp only
  rw [hflag, show (s.bank s.ev.g s.ev.k).unit = some u from hunit]
  dsimp only
  rw [show (s.bank s.ev.g s.ev.k).cancelled = false from hcancelled, if_pos rfl, if_neg Bool.false_ne_true]
  split <;> rfl

end

end Sys2Proof.Machine

/-! Steps of phases, jobs and host commands (spec/05 R86, R87, spec/21 R313-R325, spec/22 R327, spec/18 R300, R301). -/
namespace Sys2Proof.Machine
open Sys2Proof Sys2Proof.Claims

section
variable {s t u : State}

/-! ## What looking at phases leaves -/

theorem Beside.modPart (p : Fin 8) (f : Part → Part) : Beside s (s.modPart p f) := ⟨rfl, rfl, rfl, rfl, rfl, fun _ h => h⟩
theorem Beside.modJob (p : Fin 8) (f : Job → Job) : Beside s (s.modJob p f) := Beside.modPart _ _

/-- A step of each die of a partition is planned. -/
def looks (n : Fin 8 → Nat) (i : Instr) (a : Fin 8 → EvArgs) (s : State) (d : Fin 8) : State := s.schedule (n d) i (a d)

theorem looks_beside (n : Fin 8 → Nat) (i : Instr) (a : Fin 8 → EvArgs) (l : List (Fin 8)) (s : State) : Beside s (l.foldl (looks n i a) s) :=
  Beside.foldl (fun _ _ => Beside.schedule _ _ _) l s

theorem looks_planned (n : Fin 8 → Nat) (i : Instr) (a : Fin 8 → EvArgs) (l : List (Fin 8)) (s : State) (d : Fin 8) (hd : d ∈ l) :
    Planned s (l.foldl (looks n i a) s) (n d) i (a d) := by
  induction l generalizing s with
  | nil => cases hd
  | cons x l ih =>
    rcases List.mem_cons.1 hd with rfl | h
    · exact Planned.later (Beside.refl s).planned (looks_beside n i a l _).agenda
    · exact ih (s.schedule (n x) i (a x)) h

theorem looks_parts (n : Fin 8 → Nat) (i : Instr) (a : Fin 8 → EvArgs) (l : List (Fin 8)) (s : State) : (l.foldl (looks n i a) s).parts = s.parts := by
  induction l generalizing s with
  | nil => rfl
  | cons x l ih => exact ih _

theorem part_of_parts (h : t.parts = s.parts) (p : Fin 8) : t.part p = s.part p := by unfold State.part; rw [h]

theorem job_modJob (s : State) (p : Fin 8) (f : Job → Job) : ((s.modJob p f).part p).job = (s.part p).job.map f := by
  unfold State.modJob
  rw [State.part_modPart, if_pos rfl]

theorem partDies_of_ndies {p : Fin 8} (h : (t.part p).ndies = (s.part p).ndies) : t.partDies p = s.partDies p := by
  unfold State.partDies
  rw [h]

theorem ndies_modJob (p p' : Fin 8) (f : Job → Job) : ((s.modJob p f).part p').ndies = (s.part p').ndies := by
  unfold State.modJob
  rw [State.part_modPart]
  split
  · next h => rw [h]
  · rfl

/-! ## The close of a phase -/

theorem vector_set_self {α : Type} {n : Nat} (v : Vector α n) (i : Fin n) : v.set i.val (v.get i) i.isLt = v := by
  apply Vector.ext
  intro j hj
  rw [Vector.getElem_set]
  split
  · next h => subst h; rfl
  · rfl

theorem modDie_self (d : Fin 8) {f : Die → Die} (hf : f (s.die d) = s.die d) : s.modDie d f = s := by
  unfold State.modDie
  rw [hf]
  exact congrArg (fun v => { s with dies := v }) (vector_set_self s.dies d)

theorem modStack_self (d : Fin 8) (k : Fin 2) {f : Stack → Stack} (hf : f (s.stack d k) = s.stack d k) : s.modStack d k f = s := by
  unfold State.modStack
  refine modDie_self d ?_
  rw [show f ((s.die d).hbmStacks.get k) = (s.die d).hbmStacks.get k from hf, vector_set_self]

theorem applyOrdered_none (p d : Fin 8) (k : Fin 2) (hnone : (s.stack d k).ored = []) : s.applyOrdered p d k = s := by
  have hself : (s.modStack d k fun t => { t with ored := [] }) = s := modStack_self d k (by rw [← hnone])
  unfold State.applyOrdered
  rw [hnone, hself]
  rfl

theorem orderedWords_none (d : Fin 8) (hnone : ∀ k, (s.stack d k).ored = []) : s.orderedWords d = [] := by
  unfold State.orderedWords
  refine List.flatMap_eq_nil_iff.2 fun t ht => ?_
  obtain ⟨k, hk, rfl⟩ := List.getElem_of_mem ht
  have hlt : k < 2 := by simpa using hk
  have := hnone ⟨k, hlt⟩
  rw [List.map_eq_nil_iff]
  exact this

/-- The seal of the phase begins. -/
def beginSeal (j : Job) : Job := { j with phase := { j.phase with sealing := true } }

/-- The step of a die of a partition. -/
def atDie (p d : Fin 8) : EvArgs := { EvArgs.ofPart p with d := d }

theorem sealLook_looks (s : State) (p : Fin 8) : s.sealLook p = (s.partDies p).foldl (looks (fun _ => 0) .sealInputRise (atDie p)) s := rfl

theorem phase_closes {j : Job} (hmay : MayClose j s) : ∃ t, execPhaseClose s = .next t ∧
    (∃ i, (t.part s.ev.p).job = some i ∧ i.phase.sealing = true) ∧
      ∀ d ∈ s.partDies s.ev.p, Planned s t 0 .sealInputRise { EvArgs.ofPart s.ev.p with d := d } := by
  obtain ⟨⟨hjob, hended⟩, ⟨hclosing, hsealing⟩, hgraphs, hqueues, hruns, hordered⟩ := hmay
  have hboundary : s.boundary s.ev.p j = true := by
    unfold State.boundary
    rcases hqueues with h | h
    · rw [h, Bool.true_or]
    · rw [Bool.or_eq_true, List.all_eq_true]
      refine Or.inr fun x hx => ?_
      cases x with
      | none => rfl
      | some x => exact h x hx
  have hroom : ((s.partDies s.ev.p).findSome? fun d => s.overflowBlocked d (s.orderedWords d)) = none := by
    rw [List.findSome?_eq_none_iff]
    intro d hd
    rw [orderedWords_none d (hordered d)]
    rfl
  have happlied : ((s.partDies s.ev.p).foldl (fun (s' : State) (d : Fin 8) => (s'.applyOrdered s.ev.p d 0).applyOrdered s.ev.p d 1) s) = s :=
    List.foldl_fixed' (fun d => by rw [applyOrdered_none s.ev.p d 0 (hordered d 0), applyOrdered_none s.ev.p d 1 (hordered d 1)]) _
  have hexec : execPhaseClose s = .next ((s.modJob s.ev.p beginSeal).sealLook s.ev.p) := by
    unfold execPhaseClose
    dsimp only
    rw [hjob]
    dsimp only
    rw [hended, hclosing, hsealing, hruns, hgraphs, hboundary, hroom, happlied]
    rfl
  refine ⟨_, hexec, ⟨beginSeal j, ?_, rfl⟩, fun d hd => ?_⟩
  · rw [sealLook_looks, part_of_parts (looks_parts ..), job_modJob, hjob]
    rfl
  · rw [← partDies_of_ndies (ndies_modJob s.ev.p s.ev.p beginSeal)] at hd
    exact looks_planned (fun _ => 0) .sealInputRise (atDie s.ev.p) _ _ d hd

/-! ## The seal -/

/-- What the lines of a seal rest on: the dies and peers of the partitions, and that their jobs are there. -/
structure LineKept (s t : State) : Prop where
  cycle : t.cycle = s.cycle
  actfeat : t.dev.actfeat = s.dev.actfeat
  ndies : ∀ p, (t.part p).ndies = (s.part p).ndies
  apertures : ∀ p, (t.part p).apertures = (s.part p).apertures
  job : ∀ p, (t.part p).job.isSome = (s.part p).job.isSome

theorem LineKept.refl (s : State) : LineKept s s := ⟨rfl, rfl, fun _ => rfl, fun _ => rfl, fun _ => rfl⟩

theorem LineKept.trans (h : LineKept s t) (h' : LineKept t u) : LineKept s u :=
  ⟨h'.cycle.trans h.cycle, h'.actfeat.trans h.actfeat, fun p => (h'.ndies p).trans (h.ndies p), fun p => (h'.apertures p).trans (h.apertures p),
    fun p => (h'.job p).trans (h.job p)⟩

/-- A change that keeps the partitions, the device and the cycle. -/
theorem LineKept.of_parts (hcycle : t.cycle = s.cycle) (hdev : t.dev.actfeat = s.dev.actfeat) (hparts : t.parts = s.parts) : LineKept s t :=
  ⟨hcycle, hdev, fun p => by rw [part_of_parts hparts], fun p => by rw [part_of_parts hparts], fun p => by rw [part_of_parts hparts]⟩

theorem LineKept.ite {c : Prop} [Decidable c] (ht : LineKept s t) (hu : LineKept s u) : LineKept s (if c then t else u) := by
  split
  · exact ht
  · exact hu

theorem LineKept.foldl {α : Type} {f : State → α → State} (hf : ∀ s x, LineKept s (f s x)) (l : List α) (s : State) : LineKept s (l.foldl f s) := by
  induction l generalizing s with
  | nil => exact LineKept.refl s
  | cons x l ih => exact (hf s x).trans (ih (f s x))

theorem LineKept.modPart (p : Fin 8) {f : Part → Part} (hdies : ∀ q, (f q).ndies = q.ndies) (hap : ∀ q, (f q).apertures = q.apertures)
    (hjob : ∀ q, (f q).job.isSome = q.job.isSome) : LineKept s (s.modPart p f) := by
  refine ⟨rfl, rfl, fun p' => ?_, fun p' => ?_, fun p' => ?_⟩
  all_goals
    rw [State.part_modPart]
    split
    · next h =>
      rw [h]
      simp only [hdies, hap, hjob]
    · rfl

theorem LineKept.modJob (p : Fin 8) (f : Job → Job) : LineKept s (s.modJob p f) :=
  LineKept.modPart p (fun _ => rfl) (fun _ => rfl) fun _ => Option.isSome_map ..

theorem LineKept.modDie (d : Fin 8) (f : Die → Die) : LineKept s (s.modDie d f) := LineKept.of_parts rfl rfl rfl
theorem LineKept.modStack (d : Fin 8) (k : Fin 2) (f : Stack → Stack) : LineKept s (s.modStack d k f) := LineKept.modDie _ _
theorem LineKept.schedule (n : Nat) (i : Instr) (a : EvArgs) : LineKept s (s.schedule n i a) := LineKept.of_parts rfl rfl rfl
theorem LineKept.useFree : LineKept s s.useFree := LineKept.of_parts rfl rfl rfl

theorem LineKept.rawWrite (p : Fin 8) (va : Nat) (b : Byte) (s : State) : LineKept s (s.rawWrite p va b) := by
  unfold State.rawWrite
  split
  · exact LineKept.of_parts rfl rfl rfl
  · exact LineKept.of_parts rfl rfl rfl
  · exact LineKept.refl s

theorem LineKept.rawWriteN (p : Fin 8) (va : Nat) (bs : List Byte) (s : State) : LineKept s (s.rawWriteN p va bs) :=
  LineKept.foldl (α := Byte × Nat) (f := fun s x => s.rawWrite p (va + x.2) x.1) (fun s x => LineKept.rawWrite p _ x.1 s) _ s

theorem LineKept.recordPut (p : Fin 8) (e : BitVec 256) (s : State) : LineKept s (s.recordPut p e) := by
  unfold State.recordPut State.ringPut
  dsimp only
  split
  · split
    · exact LineKept.refl s
    · exact (LineKept.rawWriteN p _ _ s).trans (LineKept.modPart p (f := fun q => { q with rcd := { q.rcd with tail := q.rcd.tail + 1 } })
        (fun _ => rfl) (fun _ => rfl) fun _ => rfl)
  · exact LineKept.refl s

theorem LineKept.fwRaise (code die unit : Byte) (data : DWord) (s : State) : LineKept s (s.fwRaise code die unit data) := by
  refine LineKept.of_parts rfl ?_ rfl
  unfold State.fwRaise State.modDev
  dsimp only
  split
  · rfl
  · split <;> rfl

theorem LineKept.forceClose (p : Fin 8) (s : State) : LineKept s (s.forceClose p) := (LineKept.modJob p _).trans (LineKept.schedule ..)

/-- Undo pressure is noted, and the phase starts to close. -/
def pressArmed (p : Fin 8) (s : State) : State := (s.modJob p fun j => { j with phase := { j.phase with pressFrom := some s.cycle } }).forceClose p

theorem LineKept.pressArmed (p : Fin 8) (s : State) : LineKept s (pressArmed p s) := (LineKept.modJob p _).trans (LineKept.forceClose p _)

theorem LineKept.pressure (p d : Fin 8) (stack : Nat) (s : State) : LineKept s (s.pressure p d stack) := by
  have hraised : LineKept s (if (s.die d).press then s else s.fwRaise 1 (BitVec.ofNat 8 d.val) (BitVec.ofNat 8 (2 * d.val + stack)) 0) := by
    split
    · exact LineKept.refl s
    · exact LineKept.fwRaise ..
  have hpress := hraised.trans (LineKept.modDie d fun x => { x with press := true })
  have hforced := hpress.trans (LineKept.pressArmed p _)
  exact LineKept.ite hpress (LineKept.ite hforced (hforced.trans (LineKept.schedule ..)))

theorem LineKept.tagLine (p d : Fin 8) (pa : Nat) (s : State) : LineKept s (s.tagLine p d pa) := by
  unfold State.tagLine
  dsimp only
  split
  · exact LineKept.refl s
  · split
    · exact (LineKept.modStack ..).trans (LineKept.pressure ..)
    · exact LineKept.modStack ..

theorem LineKept.applyMerge (p d : Fin 8) (e : MergeEntry) (s : State) : LineKept s (s.applyMerge p d e) := by
  unfold State.applyMerge
  dsimp only
  refine LineKept.trans ?_ LineKept.useFree
  refine LineKept.trans ?_ (LineKept.recordPut ..)
  exact (LineKept.tagLine p d e.pa s).trans (LineKept.of_parts rfl rfl rfl)

theorem LineKept.flushDie (p d : Fin 8) (s : State) : LineKept s (s.flushDie p d) :=
  LineKept.foldl (fun _ _ => (LineKept.modStack ..).trans (LineKept.foldl (fun _ _ => LineKept.applyMerge ..) _ _)) _ s

theorem LineKept.sealPeers (h : LineKept s t) (p : Fin 8) : t.sealPeers p = s.sealPeers p := by
  unfold State.sealPeers State.feature
  rw [h.actfeat, h.apertures]

theorem LineKept.partDies (h : LineKept s t) (p : Fin 8) : t.partDies p = s.partDies p := partDies_of_ndies (h.ndies p)

theorem input_exec {j : Job} (hmay : InputMay j s) : execSealInputRise s =
    .next (if allInputs s j then
      (((s.flushDie s.ev.p s.ev.d).modJob s.ev.p fun _ => sealInput s j).sealPeers s.ev.p).foldl (fun (s' : State) (a : Nat) =>
        s'.modDev fun v => { v with spanOut := v.spanOut ++ [(6, a, 0, [BitVec.ofNat 8 (edgeOf s.ev.p s.ev.d)])] })
          ((s.flushDie s.ev.p s.ev.d).modJob s.ev.p fun _ => sealInput s j) |>.sealFire s.ev.p
      else (s.flushDie s.ev.p s.ev.d).modJob s.ev.p fun _ => sealInput s j) := by
  obtain ⟨⟨hjob, hended⟩, hdrained, hroom, ⟨hclosing, hsealing⟩, hlow⟩ := hmay
  have hkept := (LineKept.flushDie s.ev.p s.ev.d s).trans (LineKept.modJob s.ev.p fun _ => sealInput s j)
  have hrise : (s.flushDie s.ev.p s.ev.d).mayRise s.ev.p s.ev.d j = true := by
    unfold State.mayRise
    rw [hclosing, hsealing]
    rfl
  have hall : (((s.flushDie s.ev.p s.ev.d).modJob s.ev.p fun _ => sealInput s j).partDies s.ev.p).all (fun d => bit (sealInput s j).phase.inputs d.val) =
      allInputs s j := by
    rw [hkept.partDies]
    rfl
  have hgoes : (j.ended || !s.dieDrained s.ev.p s.ev.d) = false := by
    rw [hended, hdrained]
    rfl
  unfold execSealInputRise
  dsimp only
  rw [hjob]
  dsimp only
  rw [hgoes, if_neg Bool.false_ne_true, hroom]
  dsimp only
  rw [hrise, hlow, Bool.not_true, if_neg Bool.false_ne_true, if_neg Bool.false_ne_true]
  generalize s.flushDie s.ev.p s.ev.d = f at hall ⊢
  show (if !((f.modJob s.ev.p fun _ => sealInput s j).partDies s.ev.p).all (fun d => bit (sealInput s j).phase.inputs d.val) then
    Host.Outcome.next (f.modJob s.ev.p fun _ => sealInput s j) else _) = _
  rw [hall]
  cases allInputs s j with
  | false => rfl
  | true => rfl

/-- The line of the seal has fired. -/
def lineFired (j : Job) : Job := { j with phase := { j.phase with fired := true } }

theorem sealFire_fires {j : Job} {p : Fin 8} (hjob : (s.part p).job = some j) (hsealing : j.phase.sealing = true) (hfired : j.phase.fired = false)
    (hhigh : s.sealHigh p j = true) : s.sealFire p = (s.modJob p lineFired).schedule 0 .sealLineFire { EvArgs.ofPart p with d := p, n := j.phase.lastEdge } := by
  unfold State.sealFire
  rw [hjob]
  dsimp only
  rw [hsealing, hfired, hhigh]
  rfl

theorem last_input {j : Job} (hmay : InputMay j s) (hall : allInputs s j = true) (hfired : j.phase.fired = false) (hpeers : s.sealPeers s.ev.p = []) :
    ∃ t, execSealInputRise s = .next t ∧ Planned s t 0 .sealLineFire { EvArgs.ofPart s.ev.p with d := s.ev.p, n := edgeOf s.ev.p s.ev.d } ∧
      ∃ i, (t.part s.ev.p).job = some i ∧ i.phase.fired = true := by
  have hkept := (LineKept.flushDie s.ev.p s.ev.d s).trans (LineKept.modJob s.ev.p fun _ => sealInput s j)
  have hnone := (hkept.sealPeers s.ev.p).trans hpeers
  have hexec := input_exec hmay
  obtain ⟨⟨hjob, hended⟩, hdrained, hroom, ⟨hclosing, hsealing⟩, hlow⟩ := hmay
  rw [hall, if_pos rfl, hnone] at hexec
  obtain ⟨i, hi⟩ := Option.isSome_iff_exists.1 (((LineKept.flushDie s.ev.p s.ev.d s).job s.ev.p).trans (by rw [hjob]; rfl))
  have hjob' : (((s.flushDie s.ev.p s.ev.d).modJob s.ev.p fun _ => sealInput s j).part s.ev.p).job = some (sealInput s j) := by
    rw [job_modJob, hi]
    rfl
  have hhigh : ((s.flushDie s.ev.p s.ev.d).modJob s.ev.p fun _ => sealInput s j).sealHigh s.ev.p (sealInput s j) = true := by
    unfold State.sealHigh
    rw [hkept.partDies, hnone, Bool.and_eq_true]
    exact ⟨hall, rfl⟩
  have hcycle := hkept.cycle
  generalize (s.flushDie s.ev.p s.ev.d).modJob s.ev.p (fun _ => sealInput s j) = v at hexec hjob' hhigh hcycle
  rw [List.foldl_nil, sealFire_fires hjob' hsealing hfired hhigh] at hexec
  refine ⟨_, hexec, ?_, lineFired (sealInput s j), ?_, rfl⟩
  · unfold Planned
    rw [← hcycle]
    exact mem_scheduleAt_self (v.modJob s.ev.p lineFired) (v.cycle + 0) .sealLineFire _
  · show ((v.modJob s.ev.p lineFired).part s.ev.p).job = _
    rw [job_modJob, hjob']
    rfl

/-- The line reaches a die of the partition. -/
def reaches (p : Fin 8) (s : State) (d : Fin 8) : State := s.schedule (12 + 20 * (s.ev.n + edgeOf p d)) .sealLineArrival (atDie p d)

theorem reaches_looks (p : Fin 8) (n : Nat) (l : List (Fin 8)) : ∀ s : State, s.ev.n = n →
    l.foldl (reaches p) s = l.foldl (looks (fun d => 12 + 20 * (n + edgeOf p d)) .sealLineArrival (atDie p)) s := by
  induction l with
  | nil => exact fun _ _ => rfl
  | cons d l ih =>
    rintro s rfl
    exact ih (reaches p s d) rfl

theorem line_fires : ∃ t, execSealLineFire s = .next t ∧ ∀ d ∈ s.partDies s.ev.p,
    Planned s t (12 + 20 * (s.ev.n + edgeOf s.ev.p d)) .sealLineArrival { EvArgs.ofPart s.ev.p with d := d } := by
  refine ⟨(s.partDies s.ev.p).foldl (reaches s.ev.p) s, rfl, fun d hd => ?_⟩
  rw [reaches_looks s.ev.p s.ev.n _ s rfl]
  exact looks_planned (fun d => 12 + 20 * (s.ev.n + edgeOf s.ev.p d)) .sealLineArrival (atDie s.ev.p) _ s d hd

/-! ## The end of a job -/

theorem job_ends {j : Job} (hopen : JobOpen j s) (hsealing : j.phase.sealing = true) (hpb : j.phase.pb = false) (hend : j.phase.jobEnd = true)
    (hmode : (s.part s.ev.p).rpMode = 0) : execPhaseOpen s =
      .next (((s.putRecord s.ev.p 0 (phaseRecord j s)).modJob s.ev.p (tookPhase j.phase)).schedule 0 .jobCompletion (EvArgs.ofPart s.ev.p)) := by
  have hdigest : s.closePhaseDigest s.ev.p j = s := by
    unfold State.closePhaseDigest
    rw [hmode]
    rfl
  have hgoes : (j.ended || !j.phase.sealing) = false := by
    rw [hopen.2, hsealing]
    rfl
  unfold execPhaseOpen
  dsimp only
  rw [hopen.1]
  dsimp only
  rw [hgoes, if_neg Bool.false_ne_true, hend, if_pos rfl, hpb, if_neg Bool.false_ne_true, hdigest]
  rfl

theorem job_completes {j : Job} (hopen : JobOpen j s) : execJobCompletion s =
    .next ((((s.modJob s.ev.p jobEnds).endJobRecord s.ev.p j.status j.reason).disableQueues s.ev.p).modPart s.ev.p cmdOver) := by
  unfold execJobCompletion
  dsimp only
  rw [hopen.1]
  dsimp only
  rw [hopen.2, if_neg Bool.false_ne_true]
  rfl

/-! ## Commands -/

theorem jobOpen_of {j : Job} (hopen : JobOpen j s) : s.jobOpen s.ev.p = true := by
  unfold State.jobOpen
  rw [hopen.1]
  dsimp only
  rw [hopen.2]
  rfl

theorem isClosing_of {j : Job} {p : Fin 8} (hjob : (s.part p).job = some j) : s.isClosing p = j.phase.closing := by
  unfold State.isClosing
  rw [hjob]

end

end Sys2Proof.Machine

/-! Steps of the seal's line, of host commands, queue resets and swaps (spec/21 R318, spec/05 R87, spec/22 R327, spec/18 R300, R301). -/
namespace Sys2Proof.Machine
open Sys2Proof Sys2Proof.Claims

section
variable {s t u : State}

/-! ## The line reaches a die -/

/-- The records of a die are free, and its held lines have left. -/
def sealedDie (x : Die) : Die :=
  { x with hbmStacks := x.hbmStacks.map fun (t : Stack) => { t with undo := [] }
           hold := [], press := false, holdfull := false, sealDone := true }

/-- The dies of a partition wait for the next seal. -/
def seals (s : State) (d : Fin 8) : State := s.modDie d fun x => { x with sealDone := false }

/-- The limits of the phase are over. -/
def limitsOver (j : Job) : Job := { j with phase := { j.phase with pressFrom := none, holdFrom := none } }

/-- The interval has a number. -/
def intervalIs (n : BitVec 20) (q : Part) : Part := { q with rincur := n }

/-- The state after a seal whose last die it has reached. -/
def phaseSealed (p d : Fin 8) (s : State) : State :=
  (((((s.partDies p).foldl seals (s.modDie d sealedDie)).unschedule fun (x : Due) => (x.what == .undoTimeout || x.what == .holdTimeout) && x.args.p == p).modJob p
    limitsOver).modPart p (intervalIs ((s.part p).rincur + 1))).schedule 0 .phaseOpen (EvArgs.ofPart p)

theorem carries_none {d : Fin 8} {v : BitVec 20} (h : ∀ k, (s.stack d k).carries v = false) :
    ((s.die d).hbmStacks.toList.any fun (t : Stack) => t.carries v) = false := by
  rw [List.any_eq_false]
  intro t ht
  obtain ⟨k, hk, rfl⟩ := List.getElem_of_mem ht
  have := h ⟨k, by simpa using hk⟩
  exact Bool.not_eq_true _ ▸ this

theorem foldl_seals (l : List (Fin 8)) (s : State) : (l.foldl seals s).cores = s.cores ∧ (l.foldl seals s).hbm = s.hbm ∧ (l.foldl seals s).host = s.host ∧
    (l.foldl seals s).parts = s.parts ∧ (l.foldl seals s).dev = s.dev ∧ (l.foldl seals s).cycle = s.cycle := by
  induction l generalizing s with
  | nil => exact ⟨rfl, rfl, rfl, rfl, rfl, rfl⟩
  | cons d l ih => exact ih (seals s d)

theorem foldl_seals_stacks (l : List (Fin 8)) (s : State) (d : Fin 8) : ((l.foldl seals s).die d).hbmStacks = (s.die d).hbmStacks := by
  refine foldl_keeps (p := fun s : State => (s.die d).hbmStacks) (fun s x => ?_) l s
  show ((State.modDie s x _).die d).hbmStacks = _
  rw [State.die_modDie]
  split
  · next h => rw [h]
  · rfl

theorem seal_exec (hcarries : ∀ k, (s.stack s.ev.d k).carries ((s.part s.ev.p).rincur + 1) = false) (hhold : (s.die s.ev.d).hold = [])
    (hdone : ∀ d ∈ s.partDies s.ev.p, d ≠ s.ev.d → (s.die d).sealDone = true) (hpeers : s.sealPeers s.ev.p = []) :
    execSealLineArrival s = .next (phaseSealed s.ev.p s.ev.d s) := by
  have hwords : s.heldWords s.ev.p s.ev.d = [] := by
    unfold State.heldWords
    rw [hhold]
    rfl
  have hall : (((s.modDie s.ev.d sealedDie).partDies s.ev.p).all fun x => ((s.modDie s.ev.d sealedDie).die x).sealDone) = true := by
    rw [List.all_eq_true]
    intro d hd
    rw [State.die_modDie]
    split
    · rfl
    · next h => exact hdone d hd h
  have hpeers' : (((((s.partDies s.ev.p).foldl seals (s.modDie s.ev.d sealedDie)).unschedule fun (x : Due) =>
      (x.what == .undoTimeout || x.what == .holdTimeout) && x.args.p == s.ev.p).modJob s.ev.p limitsOver).modPart s.ev.p
        (intervalIs ((s.part s.ev.p).rincur + 1))).sealPeers s.ev.p = [] := by
    have hkept : LineKept s ((s.partDies s.ev.p).foldl seals (s.modDie s.ev.d sealedDie)) :=
      (LineKept.modDie ..).trans (LineKept.foldl (fun _ _ => LineKept.modDie ..) _ _)
    have hkept' := (hkept.trans (LineKept.of_parts (t := State.unschedule _ fun (x : Due) =>
      (x.what == .undoTimeout || x.what == .holdTimeout) && x.args.p == s.ev.p) rfl rfl rfl)).trans ((LineKept.modJob s.ev.p limitsOver).trans
        (LineKept.modPart s.ev.p (f := intervalIs ((s.part s.ev.p).rincur + 1)) (fun _ => rfl) (fun _ => rfl) fun _ => rfl))
    exact (hkept'.sealPeers s.ev.p).trans hpeers
  unfold execSealLineArrival
  dsimp only
  rw [carries_none hcarries, if_neg Bool.false_ne_true, hwords, hhold]
  show (if ((s.modDie s.ev.d sealedDie).partDies s.ev.p).all (fun x => ((s.modDie s.ev.d sealedDie).die x).sealDone) then
    (if (State.sealPeers _ s.ev.p).isEmpty then _ else _) else _) = _
  rw [hall, if_pos rfl]
  refine (if_pos ?_).trans rfl
  exact List.isEmpty_iff.2 hpeers'

theorem line_arrives (hcarries : ∀ k, (s.stack s.ev.d k).carries ((s.part s.ev.p).rincur + 1) = false) (hhold : (s.die s.ev.d).hold = [])
    (hdone : ∀ d ∈ s.partDies s.ev.p, d ≠ s.ev.d → (s.die d).sealDone = true) (hpeers : s.sealPeers s.ev.p = []) :
    ∃ t, execSealLineArrival s = .next t ∧ Sealed s t := by
  obtain ⟨hcores, hhbm, hhost, hparts, hdev, hcycle⟩ := foldl_seals (s.partDies s.ev.p) (s.modDie s.ev.d sealedDie)
  have hstacks := foldl_seals_stacks (s.partDies s.ev.p) (s.modDie s.ev.d sealedDie) s.ev.d
  refine ⟨_, seal_exec hcarries hhold hdone hpeers, ?_⟩
  unfold phaseSealed
  generalize (s.partDies s.ev.p).foldl seals (s.modDie s.ev.d sealedDie) = v at hcores hhbm hhost hparts hdev hcycle hstacks
  refine ⟨?_, ?_, fun k => ?_, fun a => by show v.hbm.read a = _; rw [hhbm]; rfl, fun a => by show v.host.read a = _; rw [hhost]; rfl, fun g a => ?_⟩
  · show ((State.modPart (State.modJob (v.unschedule _) s.ev.p limitsOver) s.ev.p (intervalIs ((s.part s.ev.p).rincur + 1))).part s.ev.p).rincur = _
    rw [State.part_modPart, if_pos rfl]
    rfl
  · unfold Planned
    rw [show s.cycle = v.cycle from hcycle.symm]
    exact mem_scheduleAt_self _ _ _ _
  · show ((v.die s.ev.d).hbmStacks.get k).undo = []
    rw [hstacks, State.die_modDie, if_pos rfl]
    exact congrArg Stack.undo (Vector.getElem_map (xs := (s.die s.ev.d).hbmStacks) (fun (t : Stack) => { t with undo := [] }) k.isLt)
  · show ((v.cores.get g)).sp.read a = _
    rw [hcores]
    rfl

/-! ## Commands 5 and 6 -/

/-- The host's command is in progress. -/
def cmdIs (n : Nat) (q : Part) : Part := { q with cmd := n }

/-- The job ends with its phase. -/
def endsWithPhase (j : Job) : Job := { j with phase := { j.phase with jobEnd := true } }

/-- The phase starts to close at once. -/
def closesNow (j : Job) : Job := { j with phase := { j.phase with closing := true, forced := true } }

theorem forceClose_closes {v : State} {n : Nat} {ends : Bool} {i j : Job} (hbeside : Beside s v) (hcmd : (v.part s.ev.p).cmd = n)
    (hjob : (v.part s.ev.p).job = some i) (hend : i.phase.jobEnd = (j.phase.jobEnd || ends)) : ClosesOn n ends j s (v.forceClose s.ev.p) := by
  have hclosed : Beside s (v.modJob s.ev.p closesNow) := hbeside.trans (Beside.modJob _ _)
  refine ⟨?_, ⟨closesNow i, ?_, rfl, rfl, hend⟩, hclosed.planned, (hclosed.trans (Beside.schedule ..)).memory, (hclosed.trans (Beside.schedule ..)).cores⟩
  · show ((State.modPart v s.ev.p fun q => { q with job := q.job.map closesNow }).part s.ev.p).cmd = n
    rw [State.part_modPart, if_pos rfl]
    exact hcmd
  · show ((State.modJob v s.ev.p _).part s.ev.p).job = _
    rw [job_modJob, hjob]
    rfl

theorem phase_commanded {j : Job} (hmay : MayCommand j s) : ∃ t, execClosePhase s = .next t ∧ ClosesOn 5 false j s t := by
  obtain ⟨hopen, hcmd, hclosing⟩ := hmay
  have hjob : ((s.modPart s.ev.p (cmdIs 5)).part s.ev.p).job = some j := by
    rw [State.part_modPart, if_pos rfl]
    exact hopen.1
  have hexec : execClosePhase s = .next ((s.modPart s.ev.p (cmdIs 5)).forceClose s.ev.p) := by
    unfold execClosePhase
    dsimp only
    rw [jobOpen_of hopen, hcmd]
    show Host.Outcome.next (if (s.modPart s.ev.p (cmdIs 5)).isClosing s.ev.p then _ else _) = _
    rw [isClosing_of hjob, hclosing]
    rfl
  refine ⟨_, hexec, forceClose_closes (Beside.modPart _ _) ?_ hjob (Bool.or_false _).symm⟩
  rw [State.part_modPart, if_pos rfl]
  rfl

theorem job_commanded {j : Job} (hmay : MayCommand j s) : ∃ t, execEndJob s = .next t ∧ ClosesOn 6 true j s t := by
  obtain ⟨hopen, hcmd, hclosing⟩ := hmay
  have hjob : (((s.modPart s.ev.p (cmdIs 6)).modJob s.ev.p endsWithPhase).part s.ev.p).job = some (endsWithPhase j) := by
    rw [job_modJob, State.part_modPart, if_pos rfl]
    exact congrArg (Option.map endsWithPhase) hopen.1
  have hexec : execEndJob s = .next (((s.modPart s.ev.p (cmdIs 6)).modJob s.ev.p endsWithPhase).forceClose s.ev.p) := by
    unfold execEndJob
    dsimp only
    rw [jobOpen_of hopen, hcmd]
    show Host.Outcome.next (if ((s.modPart s.ev.p (cmdIs 6)).modJob s.ev.p endsWithPhase).isClosing s.ev.p then _ else _) = _
    rw [isClosing_of hjob, show (endsWithPhase j).phase.closing = false from hclosing]
    rfl
  refine ⟨_, hexec, forceClose_closes ((Beside.modPart _ _).trans (Beside.modJob _ _)) ?_ hjob (Bool.or_true _).symm⟩
  show ((State.modPart (s.modPart s.ev.p (cmdIs 6)) s.ev.p _).part s.ev.p).cmd = 6
  rw [State.part_modPart, if_pos rfl, State.part_modPart, if_pos rfl]
  rfl

/-! ## Host stop and resume -/

/-- A command goes to a die. -/
def toDie (p d : Fin 8) : EvArgs := { EvArgs.ofPart p with d := d, flag := true }

theorem toDies_looks (s : State) (p : Fin 8) (i : Instr) :
    s.toDies p i = (s.partDies p).foldl (looks (fun d => 12 + 20 * edgeOf p d + 12) i (toDie p)) s := rfl

/-- A command that a partition has taken goes to its dies. -/
theorem toDies_goes {f : Part → Part} (hdies : ∀ q, (f q).ndies = q.ndies) (i : Instr) :
    ToDies i s ((s.modPart s.ev.p f).toDies s.ev.p i) ∧ ((s.modPart s.ev.p f).toDies s.ev.p i).cores = s.cores ∧
      ((s.modPart s.ev.p f).toDies s.ev.p i).part s.ev.p = f (s.part s.ev.p) := by
  have hsame : ((s.modPart s.ev.p f).part s.ev.p).ndies = (s.part s.ev.p).ndies := by rw [State.part_modPart, if_pos rfl, hdies]
  rw [toDies_looks, partDies_of_ndies hsame]
  refine ⟨fun d hd => ?_, (looks_beside ..).cores, ?_⟩
  · exact looks_planned _ i (toDie s.ev.p) _ (s.modPart s.ev.p f) d hd
  · rw [part_of_parts (looks_parts ..), State.part_modPart, if_pos rfl]

theorem host_stops (hflag : s.ev.flag = false) (hid : s.ev.id = 0) (hcmd : (s.part s.ev.p).cmd = 0) (hstop : (s.part s.ev.p).hstop = false) :
    ∃ t, execHostStop s = .next t ∧ (t.part s.ev.p).hstop = true ∧ (t.part s.ev.p).cmd = 1 ∧ ToDies .hostStop s t ∧ t.cores = s.cores := by
  obtain ⟨hto, hcores, hpart⟩ := toDies_goes (s := s) (f := fun q => { q with hstop := true, cmd := if s.ev.id = 0 then 1 else q.cmd }) (fun _ => rfl) .hostStop
  have hexec : execHostStop s = .next ((s.modPart s.ev.p fun q => { q with hstop := true, cmd := if s.ev.id = 0 then 1 else q.cmd }).toDies s.ev.p .hostStop) := by
    have hgoes : ((decide (s.ev.id = 0) && (s.part s.ev.p).cmd != 0) || (s.part s.ev.p).hstop) = false := by
      rw [hcmd, hstop, hid]
      rfl
    unfold execHostStop
    dsimp only
    rw [hflag, Bool.not_false, if_pos rfl, hgoes, if_neg Bool.false_ne_true]
  refine ⟨_, hexec, ?_, ?_, hto, hcores⟩
  · rw [hpart]
  · rw [hpart]
    exact if_pos hid

theorem host_resumes (hflag : s.ev.flag = false) (hcmd : (s.part s.ev.p).cmd = 0) (hstop : (s.part s.ev.p).hstop = true) :
    ∃ t, execHostResume s = .next t ∧ (t.part s.ev.p).hstop = false ∧ (t.part s.ev.p).cmd = 2 ∧ ToDies .hostResume s t ∧ t.cores = s.cores := by
  obtain ⟨hto, hcores, hpart⟩ := toDies_goes (s := s) (f := fun q => { q with hstop := false, cmd := 2 }) (fun _ => rfl) .hostResume
  have hexec : execHostResume s = .next ((s.modPart s.ev.p fun q => { q with hstop := false, cmd := 2 }).toDies s.ev.p .hostResume) := by
    unfold execHostResume
    dsimp only
    rw [hflag, Bool.not_false, if_pos rfl, hcmd, hstop]
    rfl
  exact ⟨_, hexec, by rw [hpart], by rw [hpart], hto, hcores⟩

/-! ## Queue reset -/

theorem queue_resets (hflag : s.ev.flag = false) (hcmd : (s.part s.ev.p).cmd = 0) (hreset : (s.part s.ev.p).qreset = none)
    (hclosed : ((queueCleared s).part s.ev.p).trcOpen = false) : execQueueReset s = .next ((queueCleared s).resetDone s.ev.p s.ev.q) := by
  unfold execQueueReset
  dsimp only
  rw [hflag, if_neg Bool.false_ne_true, hcmd, hreset]
  show (if (decide (s.ev.id = 0) && false) = true then _ else
    Host.Outcome.next (if ((queueCleared s).part s.ev.p).trcOpen && _ then _ else (queueCleared s).resetDone s.ev.p s.ev.q)) = _
  rw [hclosed, Bool.and_false]
  rfl

theorem queue_reset_waits {q : Fin 64} (hflag : s.ev.flag = false) (hcmd : (s.part s.ev.p).cmd = 0)
    (hreset : (s.part s.ev.p).qreset = some q) :
    execQueueReset s = .next ((s.modPart s.ev.p fun x => { x with cmd := 3 }).schedule 1 .queueReset { s.ev with id := 1 }) := by
  unfold execQueueReset
  dsimp only
  rw [hflag, if_neg Bool.false_ne_true, hcmd, hreset]
  show (if (decide (s.ev.id = 0) && false) = true then _ else _) = _
  rw [Bool.and_false]
  rfl

/-! ## The closing record of a session -/

theorem rawWrite_cores (p : Fin 8) (va : Nat) (b : Byte) (s : State) : (s.rawWrite p va b).cores = s.cores := by
  unfold State.rawWrite
  split <;> rfl

theorem rawWriteN_cores (p : Fin 8) (va : Nat) (bs : List Byte) (s : State) : (s.rawWriteN p va bs).cores = s.cores :=
  foldl_keeps (p := State.cores) (f := fun (s : State) (x : Byte × Nat) => s.rawWrite p (va + x.2) x.1) (fun s x => rawWrite_cores p _ x.1 s) _ s

theorem ringPut_cores (p : Fin 8) (get : Part → HostRing) (set : Part → HostRing → Part) (bs : List Byte) (s : State) :
    (s.ringPut p get set bs).1.cores = s.cores := by
  unfold State.ringPut
  dsimp only
  split
  · rfl
  · exact rawWriteN_cores ..

theorem traceDrain_cores (p d : Fin 8) (l : List (BitVec 256)) (s : State) : (s.traceDrain p d l).cores = s.cores := by
  induction l generalizing s with
  | nil => rfl
  | cons r l ih =>
    have hput := ringPut_cores p (fun q => q.trc) (fun q t => { q with trc := t }) (leBytes 32 r.toNat) s
    unfold State.traceDrain
    split
    · next v heq =>
      rw [heq] at hput
      exact (ih v).trans hput
    · next v heq =>
      rw [heq] at hput
      exact hput

theorem traceRecord_cores (p d : Fin 8) (r : BitVec 256) (s : State) : (s.traceRecord p d r).cores = s.cores := by
  unfold State.traceRecord
  dsimp only
  rw [traceDrain_cores, apply_ite State.cores]
  exact ite_self s.cores

theorem traceFlush_cores (p : Fin 8) (s : State) : (s.traceFlush p).cores = s.cores :=
  foldl_keeps (p := State.cores) (f := fun (s : State) (d : Fin 8) => s.traceDrain p d (s.die d).trace) (fun s d => traceDrain_cores p d _ s) _ s

theorem pokeQueue_cases (p : Fin 8) (q : Fin 64) (s : State) : s.pokeQueue p q = s ∨
    ∃ i, s.pokeQueue p q = s.schedule 0 i { EvArgs.ofPart p with q := q } ∧ (i = .entryDispatch ∨ i = .queueHeadCheck) := by
  unfold State.pokeQueue
  dsimp only
  split
  · exact Or.inl rfl
  · split
    · exact Or.inl rfl
    · split
      · exact Or.inr ⟨_, rfl, Or.inl rfl⟩
      · exact Or.inr ⟨_, rfl, Or.inr rfl⟩

theorem Beside.pokeQueue (p : Fin 8) (q : Fin 64) (s : State) : Beside s (s.pokeQueue p q) := by
  rcases pokeQueue_cases p q s with h | ⟨i, h, -⟩ <;> rw [h]
  · exact Beside.refl s
  · exact Beside.schedule ..

theorem pokeQueue_parts (p : Fin 8) (q : Fin 64) (s : State) : (s.pokeQueue p q).parts = s.parts := by
  rcases pokeQueue_cases p q s with h | ⟨i, h, -⟩
  · rw [h]
  · rw [h]
    rfl

/-- The session is closed, and its samples are over. -/
def sessionOver (p : Fin 8) (s : State) : State :=
  (s.modPart p fun x => { x with trcOpen := false }).unschedule fun (x : Due) => x.what == .headSample && x.args.p == p

theorem sessionOver_closed (p : Fin 8) (s : State) : ((sessionOver p s).part p).trcOpen = false := by
  show ((s.modPart p fun x => { x with trcOpen := false }).part p).trcOpen = false
  rw [State.part_modPart, if_pos rfl]

theorem session_truncated (hjob : (s.part s.ev.p).job = none) : ∃ t, execResetTruncatedTrace s = .next t ∧
    (t.part s.ev.p).trcOpen = false ∧ (t.part s.ev.p).qreset = none ∧ t.cores = s.cores := by
  have hexec : ∃ d r, execResetTruncatedTrace s = .next ((sessionOver s.ev.p ((s.traceRecord s.ev.p d r).traceFlush s.ev.p)).resetDone s.ev.p s.ev.q) := by
    unfold execResetTruncatedTrace
    dsimp only
    rw [hjob]
    dsimp only
    rw [if_neg Bool.false_ne_true]
    exact ⟨_, _, rfl⟩
  obtain ⟨d, r, hexec⟩ := hexec
  have hcores := (traceFlush_cores s.ev.p (s.traceRecord s.ev.p d r)).trans (traceRecord_cores ..)
  generalize (s.traceRecord s.ev.p d r).traceFlush s.ev.p = v at hexec hcores
  refine ⟨_, hexec, ?_, ?_, ?_⟩
  all_goals unfold State.resetDone
  · rw [part_of_parts (pokeQueue_parts ..), State.part_modPart, if_pos rfl]
    exact sessionOver_closed s.ev.p v
  · rw [part_of_parts (pokeQueue_parts ..), State.part_modPart, if_pos rfl]
  · exact (Beside.pokeQueue ..).cores.trans hcores

/-! ## Swaps -/

theorem swap_begins (hid : s.ev.id = 0) (hcmd : (s.part s.ev.p).cmd = 0) (hfeature : s.feature 7 = true) :
    execPartitionSwap s = .next ((s.modPart s.ev.p fun q => { q with cmd := 4 }).schedule 0 .partitionSwap { s.ev with id := 1 }) := by
  unfold execPartitionSwap
  dsimp only
  rw [hid]
  show (if ((s.part s.ev.p).cmd != 0 || !s.feature 7) = true then _ else _) = _
  rw [hcmd, hfeature]
  rfl

theorem swap_resumes (hid : s.ev.id = 3) : execPartitionSwap s = .next (s.swapResume s.ev.p) := by
  unfold execPartitionSwap
  rw [hid]
  rfl

theorem swap_flips_exec (hid : s.ev.id = 2) (hdone : s.haltDone s.ev.p = true) :
    execPartitionSwap s = .next ((s.flip s.ev.p).schedule swapCycles .partitionSwap { s.ev with id := 3 }) := by
  unfold execPartitionSwap
  dsimp only
  rw [hid]
  show (if s.haltDone s.ev.p = true then _ else _) = _
  rw [hdone, if_pos rfl]

/-- The active job and the one in shadow storage have changed places. -/
structure Flipped (p : Fin 8) (s t : State) : Prop where
  job : (t.part p).job = (s.part p).shadowJob
  shadow : (t.part p).shadowJob = (s.part p).job
  cores : ∀ g, s.inPart p g = true → ∃ x, t.core g = (s.core g).swapIn x
  hbm : t.hbm = s.hbm
  host : t.host = s.host
  cycle : t.cycle = s.cycle

theorem core_mapCores (s : State) (p : Fin 8) (f : Fin 512 → Core → Core) (g : Fin 512) :
    (s.mapCores p f).core g = if s.inPart p g then f g (s.core g) else s.core g :=
  Vector.getElem_ofFn ..

/-- The steps of the incoming job are due again. -/
def dueAgain (s : State) (x : Due) : State := s.schedule x.at_ x.what x.args

theorem dueAgain_beside (l : List Due) (s : State) : Beside s (l.foldl dueAgain s) := Beside.foldl (fun _ _ => Beside.schedule ..) l s
theorem dueAgain_parts (l : List Due) (s : State) : (l.foldl dueAgain s).parts = s.parts := foldl_keeps (p := State.parts) (f := dueAgain) (fun _ _ => rfl) l s

/-- A flip moves cores, dies and the jobs of the partition, and then plans. -/
theorem flip_shape (p : Fin 8) (s : State) : ∃ (x : Fin 512 → SwapCore) (y : Fin 8 → Die → Die) (f : Part → Part) (n : Nat) (l : List Due),
    (∀ q, (f q).job = q.shadowJob ∧ (f q).shadowJob = q.job) ∧
    s.flip p = (l.foldl dueAgain (((s.partDies p).foldl (fun (s : State) (d : Fin 8) => s.modDie d (y d))
      ((s.unschedule fun x => s.ofPartition p x).mapCores p fun g c => c.swapIn (x g))).modPart p f)).useFree.schedule n .shadowWritebackEnd (EvArgs.ofPart p) := by
  refine ⟨_, _, _, _, _, ?_, rfl⟩
  exact fun _ => ⟨rfl, rfl⟩

theorem flip_flips (p : Fin 8) (s : State) : Flipped p s (s.flip p) := by
  obtain ⟨x, y, f, n, l, hf, hflip⟩ := flip_shape p s
  have hdies : Beside ((s.unschedule fun x => s.ofPartition p x).mapCores p fun g c => c.swapIn (x g)) ((s.partDies p).foldl
      (fun (s : State) (d : Fin 8) => s.modDie d (y d)) ((s.unschedule fun x => s.ofPartition p x).mapCores p fun g c => c.swapIn (x g))) :=
    Beside.foldl (fun _ _ => Beside.modDie ..) _ _
  have hparts : ((s.partDies p).foldl (fun (s : State) (d : Fin 8) => s.modDie d (y d))
      ((s.unschedule fun x => s.ofPartition p x).mapCores p fun g c => c.swapIn (x g))).parts = s.parts :=
    foldl_keeps (p := State.parts) (f := fun (s : State) (d : Fin 8) => s.modDie d (y d)) (fun _ _ => rfl) _ _
  generalize (s.partDies p).foldl (fun (s : State) (d : Fin 8) => s.modDie d (y d))
      ((s.unschedule fun x => s.ofPartition p x).mapCores p fun g c => c.swapIn (x g)) = v at hdies hparts hflip
  have hall : Beside v (s.flip p) := by
    rw [hflip]
    exact (((Beside.modPart p f).trans (dueAgain_beside l _)).trans Beside.useFree).trans (Beside.schedule ..)
  have hpart : (s.flip p).part p = f (s.part p) := by
    rw [hflip]
    show (List.foldl dueAgain (v.modPart p f) l).part p = _
    rw [part_of_parts (dueAgain_parts ..), State.part_modPart, if_pos rfl, part_of_parts hparts]
  refine ⟨by rw [hpart, (hf _).1], by rw [hpart, (hf _).2], fun g hg => ⟨x g, ?_⟩, (hdies.trans hall).hbm, (hdies.trans hall).host, (hdies.trans hall).cycle⟩
  rw [(hdies.trans hall).core, core_mapCores]
  exact if_pos hg

theorem swap_flips (hid : s.ev.id = 2) (hdone : s.haltDone s.ev.p = true) : ∃ t, execPartitionSwap s = .next t ∧
    (t.part s.ev.p).job = (s.part s.ev.p).shadowJob ∧ (t.part s.ev.p).shadowJob = (s.part s.ev.p).job ∧
    (∀ g, s.inPart s.ev.p g = true → (t.core g).sp = (s.core g).spShadow ∧ (t.core g).spShadow = (s.core g).sp ∧
      (t.core g).owner = (s.core g).ownerShadow ∧ (t.core g).ownerShadow = (s.core g).owner) ∧
    t.hbm = s.hbm ∧ t.host = s.host ∧ Planned s t swapCycles .partitionSwap { s.ev with id := 3 } := by
  obtain ⟨hjob, hshadow, hcores, hhbm, hhost, hcycle⟩ := flip_flips s.ev.p s
  refine ⟨_, swap_flips_exec hid hdone, hjob, hshadow, fun g hg => ?_, hhbm, hhost, ?_⟩
  · obtain ⟨x, hx⟩ := hcores g hg
    rw [show ((s.flip s.ev.p).schedule swapCycles .partitionSwap { s.ev with id := 3 }).core g = (s.flip s.ev.p).core g from rfl, hx]
    exact ⟨rfl, rfl, rfl, rfl⟩
  · unfold Planned
    rw [← hcycle]
    exact mem_scheduleAt_self _ _ _ _

end

end Sys2Proof.Machine

/-! Steps of barriers, event operations, rollbacks and tests (spec/12 R248-R251, spec/05 R96, spec/21 R312-R325). -/
namespace Sys2Proof.Machine
open Sys2Proof Sys2Proof.Claims

section
variable {s t u : State}

/-- The background write of a die is over. -/
def writebackOver (s : State) (d : Fin 8) : State := s.modDie d fun x => { x with writeback := false }

theorem writebackOver_all (l : List (Fin 8)) (s : State) (d : Fin 8) (h : d ∈ l ∨ (s.die d).writeback = false) :
    ((l.foldl writebackOver s).die d).writeback = false := by
  induction l generalizing s with
  | nil => exact h.resolve_left List.not_mem_nil
  | cons x l ih =>
    refine ih (writebackOver s x) ?_
    have hx : ((writebackOver s x).die d).writeback = if d = x then false else (s.die d).writeback := by
      unfold writebackOver
      rw [State.die_modDie]
      split <;> rfl
    rw [hx]
    rcases h with h | h
    · rcases List.mem_cons.1 h with h | h
      · exact Or.inr (if_pos h)
      · exact Or.inl h
    · rw [h, ite_self]
      exact Or.inr rfl

theorem writeback_ends : ∃ t, execShadowWritebackEnd s = .next t ∧
    (∀ d ∈ s.partDies s.ev.p, (t.die d).writeback = false) ∧ t.cores = s.cores ∧ SameMemory s t := by
  have hbeside : Beside s ((s.partDies s.ev.p).foldl writebackOver s) := Beside.foldl (fun _ _ => Beside.modDie ..) _ _
  exact ⟨_, rfl, fun d hd => writebackOver_all _ s d (Or.inl hd), hbeside.cores, hbeside.memory⟩

/-! ## Barriers -/

theorem Beside.ite {c : Prop} [Decidable c] (ht : Beside s t) (hu : Beside s u) : Beside s (if c then t else u) := by
  split
  · exact ht
  · exact hu

theorem input_rises (harrived : (evBank s).arrived s.ev.id = true)
    (hdone : s.ev.flag = true → s.doneBelow s.ev.g s.ev.k s.ev.va.toNat s.ev.n .system = true) :
    execColInputRise s = .next (s.colLook s.ev.p (dieOf s.ev.g) s.ev.id) := by
  have hgoes : (s.ev.flag && !s.doneBelow s.ev.g s.ev.k s.ev.va.toNat s.ev.n .system) = false := by
    cases hflag : s.ev.flag with
    | false => rfl
    | true => rw [hdone hflag]; rfl
  unfold execColInputRise
  dsimp only
  rw [show (s.bank s.ev.g s.ev.k).arrived s.ev.id = true from harrived, hgoes]
  rfl

theorem Beside.colLook (p d : Fin 8) (c : Nat) (s : State) : Beside s (s.colLook p d c) := by
  unfold State.colLook
  split
  · exact Beside.refl s
  · next j hjob =>
    have hhigh : Beside s (s.modJob p fun j => { j with colHigh := setBit j.colHigh c true }) := Beside.modJob ..
    have htold : ∀ (l : List Nat) (v : State), Beside v (l.foldl (fun (s : State) (a : Nat) =>
        s.modDev fun v => { v with spanOut := v.spanOut ++ [(5, a, BitVec.ofNat 64 c, [BitVec.ofNat 8 (edgeOf p d)])] }) v) :=
      Beside.foldl fun _ _ => ⟨rfl, rfl, rfl, rfl, rfl, fun _ h => h⟩
    have hall := Beside.ite (c := bit j.colHigh c = true) hhigh (hhigh.trans (htold (if bit (s.part p).colspan c then s.sealPeers p else []) _))
    exact Beside.ite (Beside.modJob ..) (Beside.ite (hall.trans (Beside.schedule ..)) hall)

/-- The saved units of a die are released too, and the release travels to it. -/
def releaseTravels (p : Fin 8) (n c : Nat) (s : State) (d : Fin 8) : State :=
  (s.modDie d fun x => { x with saved := x.saved.map fun (y : Nat × Bank) => (y.1, releasedBank c y.2) }).schedule
    (12 + 20 * (n + edgeOf p d)) .colReleaseArrival { EvArgs.ofPart p with d := d, id := c }

theorem releaseTravels_beside (p : Fin 8) (n c : Nat) (l : List (Fin 8)) (s : State) : Beside s (l.foldl (releaseTravels p n c) s) :=
  Beside.foldl (fun _ _ => (Beside.modDie ..).trans (Beside.schedule ..)) l s

theorem releaseTravels_planned (p : Fin 8) (n c : Nat) (l : List (Fin 8)) (s : State) (d : Fin 8) (hd : d ∈ l) :
    Planned s (l.foldl (releaseTravels p n c) s) (12 + 20 * (n + edgeOf p d)) .colReleaseArrival { EvArgs.ofPart p with d := d, id := c } := by
  induction l generalizing s with
  | nil => cases hd
  | cons x l ih =>
    rcases List.mem_cons.1 hd with rfl | h
    · exact Planned.later (Beside.modDie d _).planned (releaseTravels_beside p n c l _).agenda
    · exact ih (releaseTravels p n c s x) h

theorem bank_mapBanks (s : State) (p : Fin 8) (f : Bank → Bank) (g : Fin 512) (k : Fin 3) :
    (s.mapCores p fun _ c => { c with banks := c.banks.map f }).bank g k = if s.inPart p g then f (s.bank g k) else s.bank g k := by
  unfold State.bank
  rw [core_mapCores]
  split
  · exact Vector.getElem_map ..
  · rfl

/-- The members of a barrier are released. -/
def membersReleased (s : State) : State := s.mapCores s.ev.p fun _ c => { c with banks := c.banks.map (releasedBank s.ev.id) }

theorem mapCores_rest (s : State) (p : Fin 8) (f : Fin 512 → Core → Core) : (s.mapCores p f).parts = s.parts ∧ (s.mapCores p f).hbm = s.hbm ∧
    (s.mapCores p f).host = s.host ∧ (s.mapCores p f).cycle = s.cycle ∧ (s.mapCores p f).agenda = s.agenda := by
  unfold State.mapCores
  dsimp only
  exact ⟨rfl, rfl, rfl, rfl, rfl⟩

theorem partDies_mapCores (s : State) (p p' : Fin 8) (f : Fin 512 → Core → Core) : (s.mapCores p f).partDies p' = s.partDies p' :=
  partDies_of_ndies (congrArg Part.ndies (part_of_parts (mapCores_rest s p f).1 p'))

theorem mapBanks_memory (s : State) (p : Fin 8) (f : Bank → Bank) : SameMemory s (s.mapCores p fun _ c => { c with banks := c.banks.map f }) := by
  obtain ⟨-, hhbm, hhost, -, -⟩ := mapCores_rest s p fun _ c => { c with banks := c.banks.map f }
  refine ⟨fun a => by rw [hhbm], fun a => by rw [hhost], fun g a => ?_⟩
  rw [core_mapCores]
  split <;> rfl

/-- The generation of a barrier is over. -/
def generationOver (a : EvArgs) (span : Bool) (j : Job) : Job :=
  { j with
    colPeers := j.colPeers.filter fun (x : Nat × Nat) => x.2 != a.id
    colHigh := if span then setBit j.colHigh a.id false else j.colHigh }

/-- What follows the release of the members. -/
def releaseRest (a : EvArgs) (s : State) : State :=
  let s := (s.partDies a.p).foldl (releaseTravels a.p a.n a.id) s
  (s.modJob a.p (generationOver a (bit (s.part a.p).colspan a.id && !(s.sealPeers a.p).isEmpty))).colLook a.p a.d a.id

theorem releaseRest_beside (a : EvArgs) (s : State) : Beside s (releaseRest a s) :=
  (releaseTravels_beside ..).trans ((Beside.modJob a.p _).trans (Beside.colLook ..))

theorem releaseRest_planned (a : EvArgs) (s : State) (d : Fin 8) (hd : d ∈ s.partDies a.p) :
    Planned s (releaseRest a s) (12 + 20 * (a.n + edgeOf a.p d)) .colReleaseArrival { EvArgs.ofPart a.p with d := d, id := a.id } :=
  Planned.later (releaseTravels_planned a.p a.n a.id _ s d hd) ((Beside.modJob a.p _).trans (Beside.colLook ..)).agenda

theorem release_fires : ∃ t, execColReleaseFire s = .next t ∧ Releases s t := by
  obtain ⟨-, -, -, hcycle, -⟩ := mapCores_rest s s.ev.p fun _ c => { c with banks := c.banks.map (releasedBank s.ev.id) }
  have hbeside := releaseRest_beside s.ev (membersReleased s)
  have hexec : execColReleaseFire s = .next (releaseRest s.ev (membersReleased s)) := rfl
  refine ⟨_, hexec, fun d hd => ?_, fun g k => ?_, sameMemory_trans (mapBanks_memory s s.ev.p (releasedBank s.ev.id)) hbeside.memory⟩
  · unfold Planned
    rw [← hcycle]
    exact releaseRest_planned s.ev (membersReleased s) d (by unfold membersReleased; rwa [partDies_mapCores])
  · rw [hbeside.bank]
    exact bank_mapBanks ..

/-- A bank hears of the release. -/
def hears (c : Nat) (b : Bank) : Bank := { b with colTravel := setBit b.colTravel c false }

/-- The members of a die hear of the release. -/
def dieHears (a : EvArgs) (s : State) : State :=
  s.mapCores a.p fun g c => if dieOf g == a.d then { c with banks := c.banks.map (hears a.id) } else c

theorem release_arrives (honly : ∀ x ∈ s.agenda, x.what = .colReleaseArrival → x.args.p = s.ev.p → x.args.d = s.ev.d → x.args.id ≠ s.ev.id) :
    ∃ t, execColReleaseArrival s = .next t ∧ ReleaseComes s t := by
  have hmore : (s.agenda.any fun (x : Due) => x.what == .colReleaseArrival && x.args.p == s.ev.p && x.args.d == s.ev.d && x.args.id == s.ev.id) = false := by
    rw [List.any_eq_false]
    intro x hx h
    simp only [Bool.and_eq_true, beq_iff_eq] at h
    exact honly x hx h.1.1.1 h.1.1.2 h.1.2 h.2
  have hexec : ∃ f, execColReleaseArrival s = .next ((dieHears s.ev s).modDie s.ev.d f) := by
    unfold execColReleaseArrival
    dsimp only
    rw [hmore]
    exact ⟨_, rfl⟩
  obtain ⟨f, hexec⟩ := hexec
  have hbeside := Beside.modDie (s := dieHears s.ev s) s.ev.d f
  obtain ⟨-, hhbm, hhost, -, -⟩ := mapCores_rest s s.ev.p fun g c => if dieOf g == s.ev.d then { c with banks := c.banks.map (hears s.ev.id) } else c
  refine ⟨_, hexec, fun g k hg hd => ?_, fun g hg => ?_, sameMemory_trans ⟨fun a => ?_, fun a => ?_, fun g a => ?_⟩ hbeside.memory⟩
  · have hbank : (dieHears s.ev s).bank g k = hears s.ev.id (s.bank g k) := by
      unfold dieHears State.bank
      rw [core_mapCores, if_pos hg, hd, beq_self_eq_true, if_pos rfl]
      exact Vector.getElem_map ..
    rw [hbeside.bank, hbank]
    exact ⟨rfl, rfl⟩
  · rw [hbeside.core]
    unfold dieHears
    rw [core_mapCores, beq_false_of_ne hg]
    exact ite_self _
  · exact congrArg (fun m => m.read a) hhbm
  · exact congrArg (fun m => m.read a) hhost
  · unfold dieHears
    rw [core_mapCores]
    split
    · split <;> rfl
    · rfl

/-! ## Event operations -/

theorem Beside.pokeQueues (p : Fin 8) (s : State) : Beside s (s.pokeQueues p) :=
  Beside.foldl (f := fun (s : State) (q : Fin 64) => s.pokeQueue p q) (fun s q => Beside.pokeQueue p q s) _ s

theorem pokeQueues_parts (p : Fin 8) (s : State) : (s.pokeQueues p).parts = s.parts :=
  foldl_keeps (p := State.parts) (f := fun (s : State) (q : Fin 64) => s.pokeQueue p q) (fun s q => pokeQueue_parts p q s) _ s

/-- One operation on the event vector. -/
def eventSet (e : EvOp) (j : Job) : Job := { j with ev := j.ev.set e.ctx.val (setBit (j.ev.get e.ctx) e.bit e.set) e.ctx.isLt }

/-- The operation leaves the bank's list, and its push is counted. -/
def eventLeaves (e : EvOp) (l : List EvOp) (b : Bank) : Bank := { b with evops := l, pa := if e.push.isSome then b.pa + 1 else b.pa }

/-- The state in which an operation has taken effect. -/
def eventDone (e : EvOp) (l : List EvOp) (s : State) : State :=
  (((s.modBank s.ev.g s.ev.k (eventLeaves e l)).modJob s.ev.p (eventSet e)).pokeQueues s.ev.p).pushToken s.ev.g s.ev.k e.push

theorem event_exec {e : EvOp} {l : List EvOp} {j : Job} {again : State → State} (hmay : EventMay e l j s) : s.evEffect again = eventDone e l s := by
  obtain ⟨hops, hid, hjob, hset⟩ := hmay
  have hfree : (e.set && ((s.bank s.ev.g s.ev.k).ops.any (fun (o : AOp) => e.after.contains o.id && !o.doneAt .device) ||
      (s.bank s.ev.g s.ev.k).replay.any (fun (o : AOp) => e.after.contains o.id) || s.copiesOpen s.ev.g s.ev.k s.ev.n)) = false := by
    cases he : e.set with
    | false => rfl
    | true =>
      obtain ⟨hdone, hreplay, hcopies⟩ := hset he
      rw [hcopies, Bool.true_and, Bool.or_false, Bool.or_eq_false_iff, List.any_eq_false, List.any_eq_false]
      refine ⟨fun o ho h => ?_, fun o ho h => hreplay o ho (List.contains_iff_mem.1 h)⟩
      rw [Bool.and_eq_true, List.contains_iff_mem] at h
      rw [hdone o ho h.1] at h
      exact Bool.false_ne_true h.2
  unfold State.evEffect
  dsimp only
  rw [show (s.bank s.ev.g s.ev.k).evops = e :: l from hops]
  dsimp only
  rw [hid, bne_self_eq_false, if_neg Bool.false_ne_true, hfree, if_neg Bool.false_ne_true]
  rfl

theorem eventDone_takes {e : EvOp} {l : List EvOp} {j : Job} (hjob : (s.part s.ev.p).job = some j) : EventTakes e l j s (eventDone e l s) := by
  have hpoked : Beside (s.modBank s.ev.g s.ev.k (eventLeaves e l))
      (((s.modBank s.ev.g s.ev.k (eventLeaves e l)).modJob s.ev.p (eventSet e)).pokeQueues s.ev.p) := (Beside.modJob ..).trans (Beside.pokeQueues ..)
  have hpart : ((((s.modBank s.ev.g s.ev.k (eventLeaves e l)).modJob s.ev.p (eventSet e)).pokeQueues s.ev.p).part s.ev.p).job = some (eventSet e j) := by
    rw [part_of_parts (pokeQueues_parts ..), job_modJob]
    exact congrArg (Option.map (eventSet e)) hjob
  unfold eventDone
  generalize ((s.modBank s.ev.g s.ev.k (eventLeaves e l)).modJob s.ev.p (eventSet e)).pokeQueues s.ev.p = v at hpoked hpart
  have hbank : v.bank s.ev.g s.ev.k = eventLeaves e l (evBank s) := by
    rw [hpoked.bank, State.bank_modBank, if_pos ⟨rfl, rfl⟩]
    rfl
  refine ⟨⟨eventSet e j, ?_, ?_, fun c hc => ?_⟩, ?_, fun f hf => ?_, ?_⟩
  · rw [show (v.pushToken s.ev.g s.ev.k e.push).part s.ev.p = v.part s.ev.p by cases e.push <;> rfl]
    exact hpart
  · exact (vector_get_set ..).trans (if_pos rfl)
  · exact (vector_get_set ..).trans (if_neg hc)
  · cases e.push with
    | none => exact congrArg Bank.evops hbank
    | some f =>
      rw [bank_pushToken, hbank]
      rfl
  · rw [hf, travel_pushToken, hbank]
    rfl
  · exact sameMemory_trans (sameMemory_trans (RowsKept.modBank ..).memory hpoked.memory) (pushToken_memory ..)

theorem event_sets {e : EvOp} {l : List EvOp} {j : Job} (hmay : EventMay e l j s) : ∃ t, execEvsetEffect s = .next t ∧ EventTakes e l j s t :=
  ⟨_, congrArg Host.Outcome.next (event_exec hmay), eventDone_takes hmay.2.2.1⟩

theorem event_clears {e : EvOp} {l : List EvOp} {j : Job} (hmay : EventMay e l j s) : ∃ t, execEvclrEffect s = .next t ∧ EventTakes e l j s t :=
  ⟨_, congrArg Host.Outcome.next (event_exec hmay), eventDone_takes hmay.2.2.1⟩

/-! ## Rollback -/

theorem rolls_back (hmay : MayRollBack s) : execIntervalRollback s =
    .next ((((s.modPart s.ev.p (rolledBack s.ev.n)).stopAll s.ev.p).restore s.ev.p).schedule 1 .phaseRestart (EvArgs.ofPart s.ev.p)) := by
  obtain ⟨hopen, hflag, hrestarting, hcause, hpoison, hlimit⟩ := hmay
  unfold execIntervalRollback
  dsimp only
  rw [hopen, hflag, hrestarting, decide_eq_false (Nat.not_le.2 hcause), decide_eq_false (Nat.not_lt.2 hlimit), if_neg (show ¬ (decide (s.ev.n = 40) && s.poisonSealed s.ev.p s.ev.words) = true by
    rw [decide_eq_false hpoison]; exact Bool.false_ne_true)]
  rfl

theorem job_killed (hopen : s.jobOpen s.ev.p = true) (hflag : s.ev.flag = false) (hcause : 44 ≤ s.ev.n) :
    execIntervalRollback s = .next (s.killJob s.ev.p s.ev.n) := by
  unfold execIntervalRollback
  dsimp only
  rw [hopen, hflag, decide_eq_true hcause]
  rfl

theorem undo_expires {j : Job} (hjob : (s.part s.ev.p).job = some j) (hpress : j.phase.pressFrom.isSome = true) :
    execUndoTimeout s = .next (s.killJob s.ev.p 44) := by
  unfold execUndoTimeout
  dsimp only
  rw [hjob]
  exact congrArg Host.Outcome.next (if_pos hpress)

theorem hold_expires {j : Job} (hjob : (s.part s.ev.p).job = some j) (hheld : j.phase.holdFrom.isSome = true) :
    execHoldTimeout s = .next (s.killJob s.ev.p 45) := by
  unfold execHoldTimeout
  dsimp only
  rw [hjob]
  exact congrArg Host.Outcome.next (if_pos hheld)

theorem pass_counts (hflag : s.ev.flag = true) : execTestPassComplete s =
    .next (s.modDie s.ev.d fun x => { x with passes := if x.passes = 255 then 255 else x.passes + 1 }) := by
  unfold execTestPassComplete
  dsimp only
  rw [hflag, if_pos rfl]

theorem pass_fails (hflag : s.ev.flag = false) : execTestPassComplete s =
    .next ((s.modDie s.ev.d fun x => { x with failed := setBit x.failed (s.die s.ev.d).spare.val true }).fwRaise 4
          (BitVec.ofNat 8 s.ev.d.val) (BitVec.ofNat 8 (s.die s.ev.d).spare.val) 0) := by
  unfold execTestPassComplete
  dsimp only
  rw [hflag, if_neg Bool.false_ne_true]

/-- A swept stack. -/
def sweptStack (rin : BitVec 20) (t : Stack) : Stack :=
  { t with tagRest := sweepTag rin t.tagRest, tags := t.tags.map fun (y : Nat × BitVec 20) => (y.1, sweepTag rin y.2) }

theorem tags_swept {p : Fin 8} (hpart : s.partOfDie s.ev.d = some p) : ∃ t, execLineTagSweep s = .next t ∧
    ∀ k, (t.stack s.ev.d k).tagRest = sweepTag (s.part p).rincur (s.stack s.ev.d k).tagRest ∧
      (t.stack s.ev.d k).tags = (s.stack s.ev.d k).tags.map (fun y => (y.1, sweepTag (s.part p).rincur y.2)) ∧
      (t.stack s.ev.d k).undo = (s.stack s.ev.d k).undo := by
  have hexec : execLineTagSweep s = .next (s.modDie s.ev.d fun x => { x with hbmStacks := x.hbmStacks.map (sweptStack (s.part p).rincur) }) := by
    unfold execLineTagSweep
    dsimp only
    rw [hpart]
    rfl
  refine ⟨_, hexec, fun k => ?_⟩
  have hstack : (s.modDie s.ev.d fun x => { x with hbmStacks := x.hbmStacks.map (sweptStack (s.part p).rincur) }).stack s.ev.d k =
      sweptStack (s.part p).rincur (s.stack s.ev.d k) := by
    unfold State.stack
    rw [State.die_modDie, if_pos rfl]
    exact Vector.getElem_map ..
  rw [hstack]
  exact ⟨rfl, rfl, rfl⟩

end

end Sys2Proof.Machine

/-! The restart of a phase after a rollback (spec/21 R321, R324). -/
namespace Sys2Proof.Machine
open Sys2Proof Sys2Proof.Claims

section
variable {s t u : State} {p : Fin 8} {k : Nat}

/-! ## What rings and queues leave of a job -/

/-- What a restart sets of a job. -/
def jobShape (j : Job) : Vector (BitVec 256) 8 × List Item × Nat := (j.ev, j.items, j.phase.num)

/-- A change of queues, rings and the agenda: the scratchpads and the shape of the job stand, and no swap begins. -/
structure RingStep (p : Fin 8) (s t : State) : Prop where
  sp : ∀ g, (t.core g).sp = (s.core g).sp
  part : ((t.part p).ndies, (t.part p).cmd, (t.part p).halted, (t.part p).job.map jobShape) =
    ((s.part p).ndies, (s.part p).cmd, (s.part p).halted, (s.part p).job.map jobShape)
  swaps : ∀ x ∈ t.agenda, x.what = .partitionSwap → x ∈ s.agenda

theorem RingStep.refl (p : Fin 8) (s : State) : RingStep p s s := ⟨fun _ => rfl, rfl, fun _ h _ => h⟩

theorem RingStep.trans (h : RingStep p s t) (h' : RingStep p t u) : RingStep p s u :=
  ⟨fun g => (h'.sp g).trans (h.sp g), h'.part.trans h.part, fun x hx hw => h.swaps x (h'.swaps x hx hw) hw⟩

theorem RingStep.foldl {α : Type} {f : State → α → State} (hf : ∀ s x, RingStep p s (f s x)) (l : List α) (s : State) : RingStep p s (l.foldl f s) := by
  induction l generalizing s with
  | nil => exact RingStep.refl p s
  | cons x l ih => exact (hf s x).trans (ih (f s x))

theorem RingStep.ite {c : Prop} [Decidable c] (ht : RingStep p s t) (hu : RingStep p s u) : RingStep p s (if c then t else u) := by
  split
  · exact ht
  · exact hu

/-- A change that keeps cores, partitions and the agenda. -/
theorem RingStep.of_parts (hcores : t.cores = s.cores) (hparts : t.parts = s.parts) (hagenda : t.agenda = s.agenda) : RingStep p s t :=
  ⟨fun g => by unfold State.core; rw [hcores], by rw [part_of_parts hparts], fun x hx _ => hagenda ▸ hx⟩

theorem RingStep.schedule {i : Instr} (hi : i ≠ .partitionSwap) (n : Nat) (a : EvArgs) : RingStep p s (s.schedule n i a) := by
  refine ⟨fun _ => rfl, rfl, fun x hx hw => ?_⟩
  rcases (mem_insertBy _ _ _ _).1 hx with rfl | h
  · exact absurd hw hi
  · exact h

theorem RingStep.modPart {f : Part → Part} (hf : ∀ q, ((f q).ndies, (f q).cmd, (f q).halted, (f q).job.map jobShape) = (q.ndies, q.cmd, q.halted, q.job.map jobShape)) :
    RingStep p s (s.modPart p f) := by
  refine ⟨fun _ => rfl, ?_, fun _ h _ => h⟩
  rw [State.part_modPart, if_pos rfl]
  exact hf _

theorem RingStep.modQueue (q : Fin 64) (f : Queue → Queue) (s : State) : RingStep p s (s.modQueue p q f) := by
  unfold State.modQueue State.modJob
  refine RingStep.modPart fun x => ?_
  cases x.job <;> rfl

theorem RingStep.rawWrite (va : Nat) (b : Byte) (s : State) : RingStep p s (s.rawWrite p va b) := by
  unfold State.rawWrite
  split
  · exact RingStep.of_parts rfl rfl rfl
  · exact RingStep.of_parts rfl rfl rfl
  · exact RingStep.refl p s

theorem RingStep.rawWriteN (va : Nat) (bs : List Byte) (s : State) : RingStep p s (s.rawWriteN p va bs) :=
  RingStep.foldl (α := Byte × Nat) (f := fun s x => s.rawWrite p (va + x.2) x.1) (fun s x => RingStep.rawWrite _ x.1 s) _ s

theorem RingStep.syncQueue (q : Fin 64) (s : State) : RingStep p s (s.syncQueue p q) := by
  unfold State.syncQueue
  split
  · exact RingStep.refl p s
  · next x hx =>
    have hhead := RingStep.rawWriteN (p := p) (s.descVA p q + 32) (leBytes 4 x.head.toNat) s
    have htail := RingStep.ite (c := x.device = true) (hhead.trans (RingStep.rawWriteN (s.descVA p q + 36) (leBytes 4 x.tail.toNat) _)) hhead
    exact (htail.trans (RingStep.rawWriteN ..)).trans (RingStep.rawWriteN ..)

theorem RingStep.setQueue (q : Fin 64) (f : Queue → Queue) (s : State) : RingStep p s (s.setQueue p q f) :=
  (RingStep.modQueue q f s).trans (RingStep.syncQueue q _)

theorem RingStep.modDev (f : Device → Device) : RingStep p s (s.modDev f) := RingStep.of_parts rfl rfl rfl

theorem RingStep.writeRecord (q : Fin 64) (x : Queue) (r : BitVec 256) (s : State) : RingStep p s (s.writeRecord p q x r) := by
  unfold State.writeRecord
  exact ((RingStep.rawWriteN ..).trans (RingStep.setQueue ..)).trans (RingStep.modDev _)

theorem RingStep.putRecord (q : Fin 64) (r : BitVec 256) (s : State) : RingStep p s (s.putRecord p q r) := by
  unfold State.putRecord
  split
  · exact RingStep.refl p s
  · exact RingStep.ite (RingStep.refl p s) (RingStep.ite (RingStep.writeRecord ..) (RingStep.setQueue ..))

theorem RingStep.recordPut (e : BitVec 256) (s : State) : RingStep p s (s.recordPut p e) := by
  have hput : RingStep p s (s.ringPut p (fun q => q.rcd) (fun q r => { q with rcd := r }) (leBytes 32 e.toNat)).1 := by
    unfold State.ringPut
    dsimp only
    split
    · exact RingStep.refl p s
    · exact (RingStep.rawWriteN ..).trans (RingStep.modPart (f := fun q => { q with rcd := { q.rcd with tail := q.rcd.tail + 1 } }) fun _ => rfl)
  exact RingStep.ite hput (RingStep.refl p s)

theorem RingStep.markRollback (ph : Phase) (cause count : Nat) (s : State) : RingStep p s (s.markRollback p ph cause count) :=
  RingStep.ite (RingStep.refl p s) ((RingStep.modPart (f := fun q => { q with rcd := { q.rcd with tail := ph.rcdStart } }) fun _ => rfl).trans (RingStep.recordPut ..))

theorem RingStep.armPlayback (l : List (BitVec 256)) (s : State) : RingStep p s (s.armPlayback p l) := by
  unfold State.armPlayback
  refine RingStep.foldl (fun s e => ?_) _ s
  exact RingStep.ite (RingStep.schedule (by decide) ..) (RingStep.ite (RingStep.schedule (by decide) ..) (RingStep.refl p s))

/-- The recorded entries that a partition has still to play. -/
def playsOn (l : List (BitVec 256)) (q : Part) : Part := { q with playback := l }

theorem RingStep.replayAttempt (s : State) : RingStep p s (s.replayAttempt p) := by
  have hplays : ∀ l, RingStep p s ((s.modPart p (playsOn l)).armPlayback p l) := fun l =>
    (RingStep.modPart (f := playsOn l) fun _ => rfl).trans (RingStep.armPlayback l _)
  exact RingStep.ite (RingStep.refl p s) (hplays _)

theorem RingStep.pokeQueue (q : Fin 64) (s : State) : RingStep p s (s.pokeQueue p q) := by
  rcases pokeQueue_cases p q s with h | ⟨i, h, rfl | rfl⟩ <;> rw [h]
  · exact RingStep.refl p s
  · exact RingStep.schedule (by decide) ..
  · exact RingStep.schedule (by decide) ..

theorem RingStep.wake (s : State) : RingStep p s (s.wake p) := by
  have hpoked : RingStep p s (s.pokeQueues p) := RingStep.foldl (f := fun (s : State) (q : Fin 64) => s.pokeQueue p q) (fun s q => RingStep.pokeQueue q s) _ s
  have hchosen : ∀ (d : Fin 8) (v : State), RingStep p v (v.dispatchBy d v.cycle) := fun d v =>
    RingStep.ite (RingStep.refl p v) (⟨fun _ => rfl, rfl, fun x hx hw => by
      rcases (mem_insertBy _ _ _ _).1 hx with rfl | h
      · exact absurd hw (show Instr.unitDispatch ≠ .partitionSwap by decide)
      · exact h⟩)
  exact hpoked.trans (RingStep.foldl (f := fun (s : State) (d : Fin 8) => s.dispatchBy d s.cycle) (fun v d => hchosen d v) _ _)

/-! ## The restart -/

/-- The queues of the job stand as at the opening of the phase. -/
def queuesBack (p : Fin 8) (ph : Phase) (s : State) : State :=
  (List.finRange 64).foldl (fun (s : State) (q : Fin 64) =>
    match s.queue p q with
    | none => s
    | some _ => s.setQueue p q fun x => x.rewind (ph.heads.get q) (ph.tails.get q)) s

theorem RingStep.queuesBack (ph : Phase) (s : State) : RingStep p s (queuesBack p ph s) := by
  refine RingStep.foldl (fun s q => ?_) _ s
  split
  · exact RingStep.refl p s
  · exact RingStep.setQueue ..

/-- The items of the phase are gone, and its events stand as at its opening. -/
def itemsBack (ph : Phase) (j : Job) : Job := { j with ev := ph.evs, items := j.items.filter fun (i : Item) => decide (i.num < ph.firstItem) }

/-- The partition up to the notice of the rollback to the host. -/
def phaseBack (p : Fin 8) (ph : Phase) (cause : Byte) (count : Nat) (s : State) : State :=
  let s := (queuesBack p ph (s.mapCores p fun _ c => c.cleared)).modJob p (itemsBack ph)
  (s.putRecord p 0 (recordBits (workId 3 0 0 (BitVec.ofNat 32 ph.num)) 0 2 cause 2 count (s.devTime p))).markRollback p ph cause.toNat count

/-- The phase opens anew. -/
def phaseAgain (p : Fin 8) (ph : Phase) (s : State) : State :=
  let rcd := (s.part p).rcd.tail
  let now := s.cycle
  let left := s.poisonLeft p
  ((((s.phaseState p fun j => Phase.start ph.num j.nextItem now ph.heads ph.tails ph.evs ph.pbq rcd left).replayAttempt p).openBoundary p
    ph.pbq).keepHalted p).wake p

/-- A command that stood at the rollback closes the phase again. -/
def restartEnds (p : Fin 8) (s : State) : Host.Outcome State Fault Refusal :=
  let cmd := (s.part p).cmd
  if cmd = 5 || cmd = 6 then
    let s := s.modJob p fun j => { j with phase := { j.phase with jobEnd := cmd == 6 } }
    .next (s.forceClose p)
  else .next s

theorem restartEnds_of_commandless (h : (s.part p).cmd = 0) : restartEnds p s = .next s := by
  unfold restartEnds
  dsimp only
  rw [h]
  rfl

theorem execPhaseRestart_eq {j : Job} (hj : (s.part s.ev.p).job = some j) :
    execPhaseRestart s = restartEnds s.ev.p
      (phaseAgain s.ev.p j.phase (phaseBack s.ev.p j.phase (s.part s.ev.p).contCause (s.part s.ev.p).rbCount.toNat s)) := by
  unfold execPhaseRestart
  extract_lets p
  rw [show (s.part p).job = some j from hj]
  show restartEnds p (phaseAgain p j.phase _) = _
  refine congrArg (fun t => restartEnds p (phaseAgain p j.phase t)) ?_
  rfl

/-- What the partition holds on the way: its dies, its command, whether it stands, and the shape of its job. -/
def partShape (q : Part) : Nat × Nat × Bool × Option (Vector (BitVec 256) 8 × List Item × Nat) := (q.ndies, q.cmd, q.halted, q.job.map jobShape)

theorem phaseBack_sp (ph : Phase) (cause : Byte) (count : Nat) {g : Fin 512} (hg : s.inPart p g = true) :
    ((phaseBack p ph cause count s).core g).sp = [] := by
  have hcleared : ((s.mapCores p fun _ c => c.cleared).core g).sp = [] := by
    rw [core_mapCores, if_pos hg]
    rfl
  unfold phaseBack
  dsimp only
  generalize s.mapCores p (fun _ c => c.cleared) = m at hcleared ⊢
  refine ((RingStep.markRollback ..).sp g).trans (((RingStep.putRecord ..).sp g).trans ?_)
  rw [State.core_modJob]
  exact ((RingStep.queuesBack ph m).sp g).trans hcleared

theorem part_itemsBack {j : Job} (hj : ((s.part p).job).map jobShape = some (jobShape j)) (ph : Phase) :
    partShape ((s.modJob p (itemsBack ph)).part p) = ((s.part p).ndies, (s.part p).cmd, (s.part p).halted, some (jobShape (itemsBack ph j))) := by
  obtain ⟨i, hi, hshape⟩ := Option.map_eq_some_iff.1 hj
  obtain ⟨-, hitems, hnum⟩ : i.ev = j.ev ∧ i.items = j.items ∧ i.phase.num = j.phase.num := by simpa only [jobShape, Prod.mk.injEq] using hshape
  unfold State.modJob partShape
  rw [State.part_modPart, if_pos rfl, hi]
  simp only [Option.map_some, jobShape, itemsBack, hitems, hnum]

theorem phaseBack_part {j : Job} (hj : (s.part p).job = some j) (ph : Phase) (cause : Byte) (count : Nat) :
    partShape ((phaseBack p ph cause count s).part p) =
      ((s.part p).ndies, (s.part p).cmd, (s.part p).halted, some (jobShape (itemsBack ph j))) := by
  have hcleared : (s.mapCores p fun _ c => c.cleared).part p = s.part p := part_of_parts (mapCores_rest s p _).1 p
  unfold phaseBack
  dsimp only
  refine (RingStep.markRollback ..).part.trans ((RingStep.putRecord ..).part.trans ?_)
  generalize s.mapCores p (fun _ c => c.cleared) = m at hcleared ⊢
  obtain ⟨hdies, hcmd, hhalted, hjob⟩ : _ ∧ _ ∧ _ ∧ _ := by simpa only [Prod.mk.injEq] using (RingStep.queuesBack (p := p) ph m).part
  rw [hcleared] at hdies hcmd hhalted hjob
  rw [hj] at hjob
  rw [← hdies, ← hcmd, ← hhalted]
  exact part_itemsBack hjob ph

theorem phaseState_sp (f : Job → Phase) (g : Fin 512) : ((s.phaseState p f).core g).sp = (s.core g).sp := by
  unfold State.phaseState
  dsimp only
  rw [State.core_modPart, State.core_modJob, core_mapCores]
  split
  · rfl
  · rfl

theorem phaseState_part {j : Job} (hj : ((s.part p).job).map jobShape = some (jobShape j)) {f : Job → Phase} (hf : ∀ j, (f j).num = k) :
    partShape ((s.phaseState p f).part p) = ((s.part p).ndies, (s.part p).cmd, false, some (j.ev, j.items, k)) := by
  obtain ⟨i, hi, hshape⟩ := Option.map_eq_some_iff.1 hj
  obtain ⟨hev, hitems, -⟩ : i.ev = j.ev ∧ i.items = j.items ∧ i.phase.num = j.phase.num := by simpa only [jobShape, Prod.mk.injEq] using hshape
  unfold State.phaseState State.modJob
  dsimp only
  rw [State.part_modPart, if_pos rfl, State.part_modPart, if_pos rfl, part_of_parts (mapCores_rest s p _).1, hi]
  simp only [partShape, Option.map_some, jobShape, hev, hitems, hf]

theorem phaseState_agenda (f : Job → Phase) : (s.phaseState p f).agenda = s.agenda := by
  unfold State.phaseState State.modJob
  dsimp only
  rw [State.modPart_agenda, State.modPart_agenda]
  exact (mapCores_rest s p _).2.2.2.2

theorem keepHalted_of_running (h : s.swapHalted p = false) : s.keepHalted p = s := by
  unfold State.keepHalted
  rw [h, if_neg Bool.false_ne_true]

/-- No swap that stands has halted the partition. -/
theorem swapHalted_of_swaps (hswaps : ∀ x ∈ t.agenda, x.what = .partitionSwap → x ∈ s.agenda) (h : s.swapHalted p = false) :
    t.swapHalted p = false := by
  unfold State.swapHalted at h ⊢
  rw [List.any_eq_false] at h ⊢
  intro x hx hswap
  have hwhat : x.what = .partitionSwap := by
    rw [Bool.and_eq_true, Bool.and_eq_true] at hswap
    exact eq_of_beq hswap.1.1
  exact h x (hswaps x hx hwhat) hswap

theorem phaseBack_agenda (ph : Phase) (cause : Byte) (count : Nat) {x : Due} (hx : x ∈ (phaseBack p ph cause count s).agenda)
    (hw : x.what = .partitionSwap) : x ∈ s.agenda := by
  have hcleared : (s.mapCores p fun _ c => c.cleared).agenda = s.agenda := (mapCores_rest s p _).2.2.2.2
  unfold phaseBack at hx
  dsimp only at hx
  generalize s.mapCores p (fun _ c => c.cleared) = m at hcleared hx
  rw [← hcleared]
  have hjob := (RingStep.putRecord ..).swaps x ((RingStep.markRollback ..).swaps x hx hw) hw
  rw [State.modJob_agenda] at hjob
  exact (RingStep.queuesBack ph m).swaps x hjob hw

/-- The state in which the phase stands open again, before what it plays and dispatches. -/
def phaseOpen (p : Fin 8) (ph : Phase) (s : State) : State :=
  s.phaseState p fun j => Phase.start ph.num j.nextItem s.cycle ph.heads ph.tails ph.evs ph.pbq (s.part p).rcd.tail (s.poisonLeft p)

/-- With no header at its opening and no swap that holds the partition, the opened phase keeps its scratchpads, its command and its job. -/
theorem RingStep.phaseAgain {ph : Phase} (hpbq : ph.pbq = []) (hswap : s.swapHalted p = false) :
    RingStep p (phaseOpen p ph s) (phaseAgain p ph s) := by
  have hplays : RingStep p (phaseOpen p ph s) ((phaseOpen p ph s).replayAttempt p) := RingStep.replayAttempt _
  have hruns : ((phaseOpen p ph s).replayAttempt p).swapHalted p = false :=
    swapHalted_of_swaps (fun x hx hw => phaseState_agenda (s := s) _ ▸ hplays.swaps x hx hw) hswap
  have hopened : (((phaseOpen p ph s).replayAttempt p).openBoundary p ph.pbq).keepHalted p = (phaseOpen p ph s).replayAttempt p := by
    rw [hpbq]
    exact keepHalted_of_running hruns
  show RingStep p _ (((((phaseOpen p ph s).replayAttempt p).openBoundary p ph.pbq).keepHalted p).wake p)
  rw [hopened]
  exact hplays.trans (RingStep.wake _)

/-- R321, R324: the phase starts again from its opening state, with its scratchpads empty and its items gone. -/
theorem phase_restarts {j : Job} (hj : (s.part s.ev.p).job = some j) (hpbq : j.phase.pbq = []) (hcmd : (s.part s.ev.p).cmd = 0)
    (hswap : s.swapHalted s.ev.p = false) :
    ∃ t, execPhaseRestart s = .next t ∧ (∀ g, s.inPart s.ev.p g = true → (t.core g).sp = []) ∧ (t.part s.ev.p).halted = false ∧
      ∃ i, (t.part s.ev.p).job = some i ∧ i.ev = j.phase.evs ∧ i.phase.num = j.phase.num ∧
        i.items = j.items.filter fun (i : Item) => decide (i.num < j.phase.firstItem) := by
  rw [execPhaseRestart_eq hj]
  have hsp := fun g hg => phaseBack_sp (s := s) (p := s.ev.p) j.phase (s.part s.ev.p).contCause (s.part s.ev.p).rbCount.toNat (g := g) hg
  have hback := phaseBack_part hj j.phase (s.part s.ev.p).contCause (s.part s.ev.p).rbCount.toNat
  have hagenda := fun x hx hw => phaseBack_agenda (s := s) (p := s.ev.p) j.phase (s.part s.ev.p).contCause (s.part s.ev.p).rbCount.toNat (x := x) hx hw
  generalize phaseBack s.ev.p j.phase (s.part s.ev.p).contCause (s.part s.ev.p).rbCount.toNat s = u at hsp hback hagenda ⊢
  obtain ⟨-, hucmd, -, hujob⟩ : _ ∧ _ ∧ _ ∧ _ := by simpa only [partShape, Prod.mk.injEq] using hback
  have hagain := RingStep.phaseAgain hpbq (swapHalted_of_swaps hagenda hswap)
  have hopen := phaseState_part (s := u) hujob (k := j.phase.num)
    (f := fun i => Phase.start j.phase.num i.nextItem u.cycle j.phase.heads j.phase.tails j.phase.evs j.phase.pbq (u.part s.ev.p).rcd.tail (u.poisonLeft s.ev.p))
    fun _ => rfl
  obtain ⟨-, htcmd, hhalted, hjob⟩ : _ ∧ _ ∧ _ ∧ _ := by simpa only [partShape, Prod.mk.injEq] using hagain.part.trans hopen
  have hcommandless := restartEnds_of_commandless ((htcmd.trans hucmd).trans hcmd)
  refine ⟨_, hcommandless, fun g hg => ?_, hhalted, ?_⟩
  · exact (hagain.sp g).trans ((phaseState_sp _ g).trans (hsp g hg))
  · obtain ⟨i, hi, hshape⟩ := Option.map_eq_some_iff.1 hjob
    obtain ⟨hev, hitems, hnum⟩ : i.ev = j.phase.evs ∧ i.items = _ ∧ i.phase.num = j.phase.num := by
      simpa only [jobShape, itemsBack, Prod.mk.injEq] using hshape
    exact ⟨i, hi, hev, hnum, hitems⟩

end

end Sys2Proof.Machine

/-! Steps of queues, units, phases and barriers (O45). -/
namespace Sys2Proof.Machine
open Sys2Proof Sys2Proof.Claims

/-- Settles O45: each row of the table of job steps. -/
theorem jobSteps : Obligations.JobSteps := by
  intro i e s hi need
  cases hi with
  | doorbell =>
    obtain ⟨hqueue, henabled, hdevice, hroom, hahead⟩ := need
    rw [exec_queueDoorbell]
    exact ⟨_, doorbell_taken hqueue henabled hdevice hroom hahead, rfl⟩
  | overflow =>
    obtain ⟨hqueue, henabled, hover⟩ := need
    rw [exec_queueDoorbell]
    exact ⟨_, doorbell_overflows hqueue henabled hover, rfl⟩
  | accepts =>
    obtain ⟨hwaits, hgraph, hcheck⟩ := need
    rw [exec_queueHeadCheck, head_checked hwaits hgraph, hcheck]
    exact ⟨_, rfl, rfl⟩
  | rejects =>
    obtain ⟨hwaits, hgraph, hcheck⟩ := need
    rw [exec_queueHeadCheck, head_checked hwaits hgraph, hcheck]
    exact ⟨_, rfl, rfl⟩
  | launches =>
    obtain ⟨hqueue, hgraph, hmay⟩ := need
    rw [exec_entryDispatch, launch_dispatched hqueue hgraph, if_pos hmay]
    exact ⟨_, rfl, rfl⟩
  | waitsForBits =>
    obtain ⟨hqueue, hgraph, hmay⟩ := need
    rw [exec_entryDispatch, launch_dispatched hqueue hgraph, if_neg (Bool.eq_false_iff.1 hmay)]
    exact ⟨_, rfl, rfl⟩
  | places =>
    obtain ⟨hturn, hchosen, hpaced⟩ := need
    rw [exec_unitDispatch, unit_chosen hturn hchosen, if_neg (by simpa using hpaced)]
    exact ⟨_, rfl, rfl⟩
  | paced =>
    obtain ⟨hturn, hchosen, hpaced⟩ := need
    rw [exec_unitDispatch, unit_chosen hturn hchosen, if_pos (decide_eq_true hpaced)]
    exact ⟨_, rfl, rfl⟩
  | asksHost => rw [exec_unitDispatch]; exact ⟨_, host_asked need.1 need.2, rfl⟩
  | starts =>
    obtain ⟨hunit, hstarted, hun⟩ := need
    rw [exec_unitStart]
    exact ⟨_, unit_starts hunit hstarted hun, rfl⟩
  | completes =>
    obtain ⟨hunit, hleft, hopen⟩ := need
    rw [exec_unitCompletion, unit_completes hunit hleft, if_neg (Bool.eq_false_iff.1 hopen)]
    exact ⟨_, rfl, rfl⟩
  | stillOpen =>
    obtain ⟨hunit, hleft, hopen⟩ := need
    rw [exec_unitCompletion, unit_completes hunit hleft, if_pos hopen]
    exact ⟨_, rfl, rfl⟩
  | hostNode => rw [exec_hostNodeDoorbell]; exact ⟨_, host_node_ends need, rfl⟩
  | records => rw [exec_completionRecord]; exact ⟨_, records_drain need.1 need.2, rfl⟩
  | cancels =>
    obtain ⟨hcancelled, hunit, hst⟩ := need
    rw [exec_cancelStop]
    exact ⟨_, cancel_stops hcancelled hunit hst, rfl⟩
  | freezes => rw [exec_preemption]; exact ⟨_, victim_freezes need, rfl⟩
  | saves =>
    obtain ⟨hflag, hunit, hcancelled, hready, hpaced⟩ := need
    rw [exec_preemption, frozen_saves hflag hunit hcancelled, hready, if_neg (by simpa using hpaced)]
    exact ⟨_, rfl, rfl⟩
  | savesLater =>
    obtain ⟨hflag, hunit, hcancelled, hlater⟩ := need
    rw [exec_preemption, frozen_saves hflag hunit hcancelled, if_pos (by simpa using hlater)]
    exact ⟨_, rfl, rfl⟩
  | closes => rw [exec_phaseClose]; exact phase_closes need
  | inputRises =>
    obtain ⟨hmay, hall⟩ := need
    rw [exec_sealInputRise, input_exec hmay, if_neg (Bool.eq_false_iff.1 hall)]
    exact ⟨_, rfl, rfl⟩
  | lastInput =>
    obtain ⟨hmay, hall, hfired, hpeers⟩ := need
    rw [exec_sealInputRise]
    exact last_input hmay hall hfired hpeers
  | lineFires => rw [exec_sealLineFire]; exact line_fires
  | lineArrives =>
    obtain ⟨hcarries, hhold, hdone, hpeers⟩ := need
    rw [exec_sealLineArrival]
    exact line_arrives hcarries hhold hdone hpeers
  | jobEnd =>
    obtain ⟨hopen, hsealing, hpb, hend, hmode⟩ := need
    rw [exec_phaseOpen]
    exact ⟨_, job_ends hopen hsealing hpb hend hmode, rfl⟩
  | jobCompletes => rw [exec_jobCompletion]; exact ⟨_, job_completes need, rfl⟩
  | closePhase => rw [exec_closePhase]; exact phase_commanded need
  | endJob => rw [exec_endJob]; exact job_commanded need
  | hostStop =>
    obtain ⟨hflag, hid, hcmd, hstop⟩ := need
    rw [exec_hostStop]
    exact host_stops hflag hid hcmd hstop
  | hostResume =>
    obtain ⟨hflag, hcmd, hstop⟩ := need
    rw [exec_hostResume]
    exact host_resumes hflag hcmd hstop
  | resets =>
    obtain ⟨hflag, -, hcmd, hreset, hclosed⟩ := need
    rw [exec_queueReset]
    exact ⟨_, queue_resets hflag hcmd hreset hclosed, rfl⟩
  | resetWaits =>
    obtain ⟨hflag, -, hcmd, hreset⟩ := need
    rw [exec_queueReset]
    exact ⟨_, queue_reset_waits hflag hcmd hreset, rfl⟩
  | truncated => rw [exec_resetTruncatedTrace]; exact session_truncated need
  | swaps =>
    obtain ⟨hid, hcmd, hfeature⟩ := need
    rw [exec_partitionSwap]
    exact ⟨_, swap_begins hid hcmd hfeature, rfl⟩
  | flips => rw [exec_partitionSwap]; exact swap_flips need.1 need.2
  | swapResumes => rw [exec_partitionSwap]; exact ⟨_, swap_resumes need, rfl⟩
  | writebackEnds => rw [exec_shadowWritebackEnd]; exact writeback_ends
  | rises => rw [exec_colInputRise]; exact ⟨_, input_rises need.1 need.2, rfl⟩
  | fires => rw [exec_colReleaseFire]; exact release_fires
  | arrives => rw [exec_colReleaseArrival]; exact release_arrives need
  | sets => rw [exec_evsetEffect]; exact event_sets need
  | clears => rw [exec_evclrEffect]; exact event_clears need
  | rollsBack => rw [exec_intervalRollback]; exact ⟨_, rolls_back need, rfl⟩
  | kills =>
    obtain ⟨hopen, hflag, hcause⟩ := need
    rw [exec_intervalRollback]
    exact ⟨_, job_killed hopen hflag hcause, rfl⟩
  | restarts =>
    obtain ⟨hjob, hpbq, hcmd, hswap⟩ := need
    rw [exec_phaseRestart]
    exact phase_restarts hjob hpbq hcmd hswap
  | undo => rw [exec_undoTimeout]; exact ⟨_, undo_expires need.1 need.2, rfl⟩
  | hold => rw [exec_holdTimeout]; exact ⟨_, hold_expires need.1 need.2, rfl⟩
  | sweeps => rw [exec_lineTagSweep]; exact tags_swept need
  | passes => rw [exec_testPassComplete]; exact ⟨_, pass_counts need, rfl⟩
  | fails => rw [exec_testPassComplete]; exact ⟨_, pass_fails need, rfl⟩

end Sys2Proof.Machine

/-! SUPPORT. Steps between the words of a stream that change one place: landings in flags and queues, retirements, boundary causes and
registers (spec/06 R104-R117, spec/12 R247, spec/18 R302). -/
namespace Sys2Proof.Machine
open Sys2Proof Sys2Proof.Claims

section
variable {s : State}

theorem modBank_modBank (s : State) (g : Fin 512) (k : Fin 3) (f f' : Bank → Bank) :
    (s.modBank g k f).modBank g k f' = s.modBank g k fun b => f' (f b) := by
  show (s.setBank g k (f (s.bank g k))).setBank g k (f' ((s.modBank g k f).bank g k)) = _
  rw [setBank_setBank', State.bank_modBank, if_pos ⟨rfl, rfl⟩]
  rfl

theorem modBank_congr {g : Fin 512} {k : Fin 3} {f f' : Bank → Bank} (h : f (s.bank g k) = f' (s.bank g k)) : s.modBank g k f = s.modBank g k f' := by
  unfold State.modBank
  rw [h]

theorem token_arrives (htravel : 0 < ((evBank s).flag (Fin.ofNat 16 s.ev.n)).travel) : execTokenPoppable s =
    .next (s.modBank s.ev.g s.ev.k fun b => tokenArrives b (Fin.ofNat 16 s.ev.n)) := by
  unfold execTokenPoppable
  congr 1
  refine modBank_congr ?_
  unfold Bank.modFlag tokenArrives
  dsimp only
  rw [if_neg (show ¬ ((s.bank s.ev.g s.ev.k).flag (Fin.ofNat 16 s.ev.n)).travel = 0 from Nat.ne_of_gt htravel)]

theorem entryAX_arrives (hport : s.ev.n < 9) : execQueueEntryPoppable s =
    .next (s.modBank s.ev.g s.ev.k fun b => b.setQAX s.ev.n (entryReady s.ev.id (b.qAX s.ev.n))) := by
  have hax : ¬16 ≤ s.ev.n := by omega
  unfold execQueueEntryPoppable
  simp only [hax, decide_false, Bool.false_eq_true, if_false]
  rfl

theorem entryXA_arrives (hport : 16 ≤ s.ev.n) : execQueueEntryPoppable s =
    .next (s.modBank s.ev.g s.ev.k fun b => b.setQXA (s.ev.n - 16) (entryReady s.ev.id (b.qXA (s.ev.n - 16)))) := by
  unfold execQueueEntryPoppable
  simp only [hport, decide_true, if_true]
  rfl

theorem push_retires (hflag : s.ev.flag = true) (hn : s.ev.n ≠ 0) (hq : s.ev.q = 0) : execAWordRetire s =
    .next (pushed s (Fin.ofNat 16 (s.ev.n - 1))) := by
  unfold execAWordRetire
  simp only [hflag, hn, hq, if_true, if_false]
  rfl

theorem load_retires {o : AOp} {n : Fin 32} {size : Nat} {sx : Bool} (hflag : s.ev.flag = false)
    (hop : (evBank s).ops.find? (fun x => x.id == s.ev.id && x.performed) = some o) (hdst : o.dst = .areg n size sx) (hpush : o.push = none) :
    execAWordRetire s = .next (s.modBank s.ev.g s.ev.k fun b => registerTakes b o n (loadedValue o size sx)) := by
  unfold execAWordRetire
  rw [hflag]
  simp only [Bool.false_eq_true, if_false]
  rw [show (s.bank s.ev.g s.ev.k).ops.find? (fun x => x.id == s.ev.id && x.performed) = some o from hop]
  simp only [hdst, hpush, State.pushToken, Option.isSome_none, Bool.false_eq_true, if_false]
  rw [modBank_modBank]
  congr 1
  refine modBank_congr ?_
  unfold registerTakes
  dsimp only
  split <;> rfl

theorem store_retires {o : AOp} {f : Fin 16} (hflag : s.ev.flag = false)
    (hop : (evBank s).ops.find? (fun x => x.id == s.ev.id && x.performed) = some o) (hdst : o.dst = .none) (hpush : o.push = some f) :
    execAWordRetire s = .next (pushed (s.modBank s.ev.g s.ev.k fun b => { b with ops := b.ops.filter fun x => x.id != o.id }) f) := by
  unfold execAWordRetire
  rw [hflag]
  simp only [Bool.false_eq_true, if_false]
  rw [show (s.bank s.ev.g s.ev.k).ops.find? (fun x => x.id == s.ev.id && x.performed) = some o from hop]
  simp only [hdst, hpush, Option.isSome_some, if_true]
  rfl

theorem boundary_raised {g : Fin 512} {k : Fin 3} {cause : Byte} {d0 d1 : DWord} (hunit : (s.bank g k).unit.isSome = true) :
    s.raiseBoundary g k cause d0 d1 = s.modBank g k (waits cause d0 d1) := by
  refine modBank_congr ?_
  rw [if_pos hunit]
  rfl

theorem atFetch_eq (pc : Word) (l : LoopReg) : l.fetch pc = atFetch pc l := by
  unfold LoopReg.fetch atFetch LoopReg.off
  simp only [BitVec.ult, Bool.and_eq_true, decide_eq_true_eq]

theorem count_written_a (hst : s.ev.st = .a) : execLcWrite s = .next (s.modBank s.ev.g s.ev.k fun b =>
    { b with
      aLoop0 := atFetch b.apc (if s.ev.flag then b.aLoop0 else { b.aLoop0 with lc := s.ev.w })
      aLoop1 := atFetch b.apc (if s.ev.flag then { b.aLoop1 with lc := s.ev.w } else b.aLoop1) }) := by
  unfold execLcWrite
  rw [hst]
  congr 1
  refine modBank_congr ?_
  unfold Bank.ctrlWrite
  cases s.ev.flag <;> simp [isLoopReg, loopWrite, fetchBoth, atFetch_eq]

theorem count_written_x (hst : s.ev.st = .x) (hdelay : ((evBank s).col s.ev.col).brdly = 0) (heval : ((evBank s).col s.ev.col).evalDue = false) :
    execLcWrite s = .next (s.modBank s.ev.g s.ev.k fun b => b.modCol s.ev.col fun c =>
      { c with
        loop0 := atFetch c.pc (if s.ev.flag then c.loop0 else { c.loop0 with lc := s.ev.w })
        loop1 := atFetch c.pc (if s.ev.flag then { c.loop1 with lc := s.ev.w } else c.loop1) }) := by
  unfold execLcWrite
  rw [hst]
  congr 1
  refine modBank_congr ?_
  unfold Bank.ctrlWrite Bank.modCol
  have hdelay' : ((s.bank s.ev.g s.ev.k).col s.ev.col).brdly = 0 := hdelay
  have heval' : ((s.bank s.ev.g s.ev.k).col s.ev.col).evalDue = false := heval
  cases s.ev.flag <;> simp [isLoopReg, loopWrite, fetchBoth, atFetch_eq, hdelay', heval']

theorem acclive_written : execAccliveWrite s = .next (s.modCore s.ev.g fun c =>
    { c with acclive := if s.ev.k = 2 then s.ev.w.setWidth 4
        else if c.accOwn = s.ev.k then c.acclive &&& s.ev.w.setWidth 4 else c.acclive }) := by
  unfold execAccliveWrite
  congr 2
  funext c
  unfold Core.writeAcclive
  have h2 : s.ev.k.val = 2 ↔ s.ev.k = 2 := (Fin.ext_iff (b := (2 : Fin 3))).symm
  simp only [h2, ← Fin.ext_iff]
  split
  · rfl
  · split <;> rfl

theorem trace_absent (hfeature : s.feature 5 = false) : execTrcctlWrite s = .next s := by
  unfold execTrcctlWrite State.writeTrcctl
  rw [hfeature]
  rfl

theorem replay_absent (hfeature : s.feature 6 = false) : execReplayctlWrite s = .next s := by
  unfold execReplayctlWrite State.writeReplayctl
  rw [hfeature]
  rfl

theorem replay_mode (hfeature : s.feature 6 = true) (hmode : s.ev.w.toNat % 4 ≠ 3) (hjob : (s.part s.ev.p).job = none) :
    execReplayctlWrite s = .next (s.modPart s.ev.p fun q =>
      { q with ondiv := s.ev.w.getLsbD 2, rpMode := s.ev.w.setWidth 2, rpNext := none }) := by
  have hmode' : ¬ s.ev.w.setWidth 2 = (3 : BitVec 2) := fun h => hmode (by simpa using congrArg BitVec.toNat h)
  unfold execReplayctlWrite State.writeReplayctl State.modPart
  rw [hfeature, if_neg (by decide)]
  dsimp only
  rw [hjob, if_neg hmode', if_neg (by decide)]
  rfl

theorem register_written {n : Nat} {f : Fin 512 → Word → State → State} (h : WritesReg n f) (hn : s.ev.n = n) (hflag : s.ev.flag = false) :
    execRegisterWrite s = .next (f s.ev.g s.ev.w s) := by
  unfold execRegisterWrite
  dsimp only
  rw [hn, hflag]
  cases h <;> rfl

theorem spare_written {n : Nat} {f : Fin 512 → Word → State → State} (h : WritesReg n f) (hn : s.ev.n = n) (hflag : s.ev.flag = true) (hcore : n ∈ coreRegs) :
    execRegisterWrite s = .next s := by
  have hspare : coreRegs.contains n = true := List.contains_iff_mem.2 hcore
  unfold execRegisterWrite
  dsimp only
  rw [hn, hflag, hspare]
  cases h <;> rfl
end

end Sys2Proof.Machine

/-! SUPPORT. Traps that no word raises: bounds, stamps, breakpoints and causes at a boundary (spec/18 R282, R284). -/
namespace Sys2Proof.Machine
open Sys2Proof Sys2Proof.Claims

section
variable {s : State}

/-! ## Traps of the word of the turn (spec/18 R282) -/

/-- What a woken execution leaves of a bank: its unit and the accesses that have not retired. -/
def placeShape (b : Bank) : Option UnitInfo × List AOp × List AOp := (b.unit, b.ops, b.replay)

theorem woken_place (b : Bank) : placeShape b.woken = placeShape b := by
  unfold Bank.woken
  split
  · rfl
  · rfl
  · dsimp only
    split
    · rfl
    · split
      · split <;> rfl
      · split
        · rfl
        · split
          · split <;> rfl
          · rfl

/-- Ending the execution of a place changes its bank and the agenda alone, and neither unit nor accesses. -/
theorem endExec_shape (s : State) (g : Fin 512) (k : Fin 3) : s.endExec g k = s ∨
    ∃ (f : Bank → Bank) (p : Due → Bool), (∀ b, placeShape (f b) = placeShape b) ∧ s.endExec g k = (s.unschedule p).modBank g k f := by
  unfold State.endExec
  dsimp only
  split
  · exact Or.inl rfl
  · next x _ =>
    exact Or.inr ⟨fun b => { b.woken with sfcBase := b.sfcBase + BitVec.ofNat 48 (x.at_ - s.cycle - 1) }, _, fun b => woken_place b, rfl⟩

theorem afterExecution_turn (s : State) : (afterExecution s).turn = s.turn := by
  unfold afterExecution
  rcases endExec_shape s s.turn.core s.turn.ctx with h | ⟨f, p, -, h⟩
  · rw [h]
  · rw [h]
    rfl

theorem afterExecution_untraced (hu : Untraced s) : Untraced (afterExecution s) := by
  unfold Untraced State.tb
  rw [afterExecution_turn]
  unfold afterExecution
  rcases endExec_shape s s.turn.core s.turn.ctx with h | ⟨f, p, hf, h⟩ <;> rw [h]
  · exact hu
  · rw [State.bank_modBank, if_pos ⟨rfl, rfl⟩, show (f _).unit = _ from congrArg Prod.fst (hf _)]
    exact hu

/-- A trap of the word of the turn takes the edge from the state in which the execution of its place has ended. -/
theorem trap_edge_after (cause : Byte) (d0 d1 : DWord) (hk : s.turn.ctx.val < 2) (hu : Untraced s) (hdue : (afterExecution s).tb.dom.trapDue = none) :
    TrapEdge cause d0 d1 (afterExecution s) (s.trap cause d0 d1) := by
  have hturn := afterExecution_turn s
  have hdue' : ((afterExecution s).bank s.turn.core s.turn.ctx).dom.trapDue.isSome = false := by
    unfold State.tb at hdue
    rw [hturn] at hdue
    rw [hdue]
    rfl
  unfold State.trap State.takeTrap State.takeTrapAt
  dsimp only
  rw [show s.endExec s.turn.core s.turn.ctx = afterExecution s from rfl, hdue', if_neg Bool.false_ne_true]
  have h := fun pc => edge_edge (s := afterExecution s)
    { st := s.turn.stream, col := s.turn.col, word := s.turn.word, pc := pc, cause := cause, d0 := d0, d1 := d1 }
    (by rw [hturn]; exact hk) (afterExecution_untraced hu) (by rw [hturn]) (by rw [hturn]) (by rw [hturn])
  rw [hturn] at h
  exact h _

/-! ## Traps of a place (spec/18 R282, R284) -/

theorem traceAt_place {g : Fin 512} {k : Fin 3} (hu : PlaceUntraced (s.bank g k) s) (st c kind : Nat) (pc : Word) (d0 d1 : DWord) :
    s.traceAt g k st c kind pc d0 d1 = s := by
  unfold State.traceAt
  dsimp only
  split
  · rfl
  · next u hunit => rw [if_neg (by rw [hu u hunit]; decide)]

/-- What the edge of a place leaves: the trapped bank, what waits for the next boundary and the rotation of the core as they were. -/
structure EdgeAt (g : Fin 512) (k : Fin 2) (e : Edge) (s t : State) : Prop where
  core : t.core g = edgeCore s k e (s.core g)
  cores : ∀ g', g' ≠ g → t.core g' = s.core g'
  hbm : t.hbm = s.hbm
  host : t.host = s.host
  handler : Planned s t 264 .handlerStart (EvArgs.at g (k.castLE (by decide)))

theorem edge_at {g : Fin 512} {k : Fin 2} (e : Edge) (hu : PlaceUntraced (s.bank g (k.castLE (by decide))) s) :
    EdgeAt g k e s (s.edge g (k.castLE (by decide)) e) := by
  have heq : s.edge g (k.castLE (by decide)) e =
      (((s.modCore g (edgeCore s k e)).endLease g).schedule 264 .handlerStart (EvArgs.at g (k.castLE (by decide)))).how .trapped := by
    unfold State.edge edgeCore
    rw [dif_pos (show (k.castLE (by decide) : Fin 3).val < 2 from k.isLt)]
    dsimp only
    rw [traceAt_place hu]
    simp only [settleCols_eq]
    rfl
  rw [heq]
  have hl := endLease_only (s.modCore g (edgeCore s k e)) g
  generalize State.endLease _ g = l at hl
  refine ⟨?_, fun g' hg' => ?_, hl.hbm, hl.host, ?_⟩
  · rw [State.core_how, State.core_schedule, hl.core, core_modCore, if_pos rfl]
  · rw [State.core_how, State.core_schedule, hl.core, core_modCore, if_neg hg']
  · show _ ∈ (l.schedule 264 .handlerStart (EvArgs.at g (k.castLE (by decide)))).agenda
    rw [mem_schedule]
    exact Or.inl (by rw [hl.cycle]; rfl)

theorem EdgeAt.bank {g : Fin 512} {k : Fin 2} {e : Edge} {t : State} (h : EdgeAt g k e s t) : t.bank g (k.castLE (by decide)) =
    { columnsAtEdge ((s.bank g (k.castLE (by decide))).holdSfc s.cycle) with
      st := .trapped
      trap := some { cause := e.cause, strm := e.st, col := e.col, word := e.word, detail0 := e.d0, detail1 := e.d1 } } := by
  unfold State.bank
  rw [h.core]
  unfold edgeCore
  show Core.bank (Core.setBank _ _ _) _ = _
  rw [bank_setBank, if_pos rfl]

theorem EdgeAt.trapped {g : Fin 512} {k : Fin 2} {cause : Byte} {d0 d1 : DWord} {word : BitVec 128} {pc : Word} {t : State}
    (h : EdgeAt g k { st := .a, col := 0, word := word, pc := pc, cause := cause, d0 := d0, d1 := d1 } s t) : Trapped cause d0 d1 g k s t where
  state := by rw [h.bank]
  trap := ⟨word, by rw [h.bank]⟩
  handling := by rw [h.core]; rfl
  handler := h.handler
  cores := h.cores
  memory := by
    refine ⟨fun a => by rw [h.hbm], fun a => by rw [h.host], fun g' a => ?_⟩
    by_cases hg : g' = g
    · rw [hg, h.core]
      rfl
    · rw [h.cores g' hg]

theorem takeTrapAt_place {g : Fin 512} {k : Fin 2} {st : Stream} {col : Fin 4} {word : BitVec 128} {pc : Word} {cause : Byte} {d0 d1 : DWord}
    (hidle : PlaceIdle g (k.castLE (by decide)) s) : s.takeTrapAt g (k.castLE (by decide)) st col word pc cause d0 d1 =
      s.edge g (k.castLE (by decide)) { st := st, col := col, word := word, pc := pc, cause := cause, d0 := d0, d1 := d1 } := by
  unfold State.takeTrapAt
  dsimp only
  rw [endExec_idle hidle, hidle.raised]
  rfl

theorem holdSfc_pending (b : Bank) (n : Nat) : (columnsAtEdge (b.holdSfc n)).pending = b.pending := by
  unfold columnsAtEdge Bank.holdSfc
  split <;> split <;> rfl

theorem rotation_bound {k : Fin 2} {x : Rot} (hflag : s.ev.flag = true) (hk : s.ev.k = k.castLE (by decide)) (hrot : (s.core s.ev.g).rot = some x)
    (hbank : x.bank = s.ev.k) (hsince : x.since = s.ev.id) (hrotating : (s.cluster (clusterOf s.ev.g)).rotating = false)
    (hrunning : (evBank s).st = .running) (hu : PlaceUntraced (evBank s) s) (hidle : PlaceIdle s.ev.g s.ev.k s) :
    ∃ t, execWaitBound s = .next t ∧ Trapped 3 7 0 s.ev.g k s t ∧ (t.core s.ev.g).rot = some x := by
  have hexec : execWaitBound s = .next (s.takeTrapAt s.ev.g s.ev.k .a 0 (s.ev.va.setWidth 128) s.ev.w 3 7 0) := by
    have hst : ((s.bank s.ev.g s.ev.k).st == .running) = true := by rw [show (s.bank s.ev.g s.ev.k).st = .running from hrunning]; rfl
    unfold execWaitBound State.rotBound
    rw [hflag, if_pos rfl]
    dsimp only
    rw [hrot]
    dsimp only
    rw [hbank, hsince, hrotating, hst]
    simp
  unfold evBank at hu
  rw [hk] at hu hidle
  rw [hexec, hk, takeTrapAt_place hidle]
  have h := edge_at { st := .a, col := 0, word := s.ev.va.setWidth 128, pc := s.ev.w, cause := 3, d0 := 7, d1 := 0 } hu
  refine ⟨_, rfl, h.trapped, ?_⟩
  rw [h.core]
  exact hrot

theorem boundary_taken {x : Boundary} {l : List Boundary} {k : Fin 2} (hk : s.ev.k = k.castLE (by decide)) (hpending : (evBank s).pending = x :: l)
    (hu : PlaceUntraced (evBank s) s) (hidle : PlaceIdle s.ev.g s.ev.k s) :
    ∃ t, execBoundaryCauseDelivery s = .next t ∧ Trapped x.cause x.detail0 x.detail1 s.ev.g k s t ∧ (t.bank s.ev.g s.ev.k).pending = l := by
  have hexec : execBoundaryCauseDelivery s =
      .next ((s.modBank s.ev.g s.ev.k fun b => { b with pending := l }).takeTrap s.ev.g s.ev.k .a 0 s.turn.word x.cause x.detail0 x.detail1) := by
    unfold execBoundaryCauseDelivery
    dsimp only
    rw [show (s.bank s.ev.g s.ev.k).pending = x :: l from hpending]
  rw [hexec]
  unfold evBank at hu
  generalize hm : (s.modBank s.ev.g s.ev.k fun b => { b with pending := l }) = m
  have hbank : m.bank s.ev.g s.ev.k = { s.bank s.ev.g s.ev.k with pending := l } := by rw [← hm, State.bank_modBank, if_pos ⟨rfl, rfl⟩]
  have hu' : PlaceUntraced (m.bank s.ev.g s.ev.k) m := by
    rw [hbank, ← hm]
    exact hu
  have hidle' : PlaceIdle s.ev.g s.ev.k m := ⟨by rw [← hm]; exact hidle.due, by rw [hbank]; exact hidle.raised⟩
  rw [hk] at hbank hu' hidle' ⊢
  unfold State.takeTrap
  dsimp only
  rw [takeTrapAt_place hidle']
  have h := fun pc => edge_at { st := .a, col := 0, word := s.turn.word, pc := pc, cause := x.cause, d0 := x.detail0, d1 := x.detail1 } hu'
  replace h := h (m.bank s.ev.g (k.castLE (by decide))).apc
  obtain ⟨hstate, htrap, hhandling, hhandler, hcores, hmem⟩ := h.trapped
  refine ⟨_, rfl, ⟨hstate, htrap, hhandling, ?_, fun g' hg' => ?_, ?_⟩, ?_⟩
  · unfold Planned
    rw [← show m.cycle = s.cycle by rw [← hm]; rfl]
    exact hhandler
  · rw [hcores g' hg', ← hm, State.core_modBank, if_neg hg']
  · refine ⟨fun a => (hmem.hbm a).trans (by rw [← hm]; rfl), fun a => (hmem.host a).trans (by rw [← hm]; rfl), fun g' a => (hmem.sp g' a).trans ?_⟩
    rw [← hm, State.core_modBank]
    split
    · next hg => rw [hg]; rfl
    · rfl
  · rw [h.bank]
    show (columnsAtEdge _).pending = l
    rw [holdSfc_pending, hbank]
end

end Sys2Proof.Machine

/-! SUPPORT. Propagation runs: one woken execution and what follows it (spec/08 R154-R160). -/
namespace Sys2Proof.Machine
open Sys2Proof Sys2Proof.Claims

section
variable {s : State}

/-! ## Propagation -/

theorem settle_eq : Column.settle = evaluated := by
  funext c
  unfold Column.settle evaluated
  cases c.evalDue <;> rfl

/-- What the wakes of a committed execution leave as they were: a trap that is due, the run in progress and BT. -/
def runShape (d : DomState) : Option DomTrap × Option DomRun × Bool := (d.trapDue, d.run, d.bt)

theorem wake_shape (d : DomState) (cur : Option Nat) (n : Nat) : runShape (d.wake cur n) = runShape d :=
  foldl_keeps (p := runShape) (fun b a => by split <;> rfl) d.table.zipIdx d

theorem commit_shape (d : DomState) (cur : Option Nat) (x : DX) : runShape (d.commit cur x) = runShape d :=
  foldl_keeps (p := runShape) (fun b a => wake_shape b cur a) _ _

theorem runAfter_shape (b : Bank) (e : Nat) (en : Standing) (q : List Nat) (r : DomRun) :
    (runAfter b e en q r).trapDue = b.dom.trapDue ∧ (runAfter b e en q r).run = some { r with n := r.n + 1 } ∧
      (runAfter b e en q r).bt = b.dom.bt := by
  have h : runShape (runAfter b e en q r) = (b.dom.trapDue, some { r with n := r.n + 1 }, b.dom.bt) := commit_shape _ _ _
  simpa only [runShape, Prod.mk.injEq] using h

section
variable {e : Nat} {en : Standing} {q : List Nat} {r : DomRun} (hruns : RunsOn e en q r s)
include hruns

theorem run_exec {f : Bank → Bank} (hwoken : (evBank s).woken = f (evBank s)) (hraised : (f (evBank s)).dom.trapDue = none) : execPropagationRun s =
    .next (if (f (evBank s)).dom.run.isSome then (s.modBank s.ev.g s.ev.k f).schedule 2 .propagationRun (EvArgs.at s.ev.g s.ev.k)
      else s.modBank s.ev.g s.ev.k f) := by
  have hst : ((s.bank s.ev.g s.ev.k).st != .running) = false := by rw [show (s.bank s.ev.g s.ev.k).st = .running from hruns.running]; rfl
  have hm : s.modBank s.ev.g s.ev.k Bank.woken = s.modBank s.ev.g s.ev.k f := modBank_congr hwoken
  unfold execPropagationRun
  dsimp only
  rw [hst, if_neg Bool.false_ne_true, hm, show (s.modBank s.ev.g s.ev.k f).bank s.ev.g s.ev.k = f (evBank s) by simp [evBank], hraised]
  simp only [Option.isSome_none, Bool.false_eq_true, if_false]
  split <;> rfl

theorem woken_step {b : Bank} (hb : b = evBank s) : b.woken =
    match (runStep b en q r).fail with
    | some reg =>
      let b' : Bank := { b with dom := failedRun b.dom reg e (r.n + 1) }
      if b.dom.failpc != 0 && !r.delay then b'.modCol 0 fun c => c.redirect r.pc b.dom.failpc
      else b'.endRun.owesTrap 22 (BitVec.ofNat 64 reg.val) (BitVec.ofNat 64 e) r
    | none =>
      let d := runAfter b e en q r
      if d.queue.isEmpty then ({ b with dom := { d with run := none, drun := BitVec.ofNat 16 (r.n + 1) } } : Bank).endRun
      else if r.n + 1 = r.limit then
        let b' := ({ b with dom := { d with run := none, bnd := true, drun := BitVec.ofNat 16 (r.n + 1) } } : Bank).endRun
        if d.bt then b'.owesTrap 25 (BitVec.ofNat 64 (r.n + 1)) 0 r else b'
      else { b with dom := d } := by
  subst hb
  unfold Bank.woken
  rw [hruns.run, hruns.queue]
  dsimp only
  rw [hruns.entry]
  rfl

theorem run_goes_on (hfail : (runStep (evBank s) en q r).fail = none) (hqueue : (runAfter (evBank s) e en q r).queue ≠ []) (hlimit : r.n + 1 ≠ r.limit) :
    execPropagationRun s = .next ((s.modBank s.ev.g s.ev.k fun b => withDom (runAfter b e en q r) b).schedule 2 .propagationRun
      (EvArgs.at s.ev.g s.ev.k)) := by
  have hwoken : (evBank s).woken = withDom (runAfter (evBank s) e en q r) (evBank s) := by
    rw [woken_step hruns rfl, hfail]
    dsimp only
    rw [if_neg (by simpa using hqueue), if_neg hlimit]
    rfl
  have hrun : (runAfter (evBank s) e en q r).run = some { r with n := r.n + 1 } := (runAfter_shape _ e en q r).2.1
  rw [run_exec hruns (f := fun b => withDom (runAfter b e en q r) b) hwoken ((runAfter_shape _ e en q r).1.trans hruns.raised),
    if_pos (show (withDom (runAfter (evBank s) e en q r) (evBank s)).dom.run.isSome = true from congrArg Option.isSome hrun)]

theorem run_settles (hfail : (runStep (evBank s) en q r).fail = none) (hqueue : (runAfter (evBank s) e en q r).queue = []) :
    execPropagationRun s = .next (s.modBank s.ev.g s.ev.k fun b =>
      Claims.runOver (withDom { runAfter b e en q r with run := none, drun := BitVec.ofNat 16 (r.n + 1) } b)) := by
  have hwoken : (evBank s).woken =
      Claims.runOver (withDom { runAfter (evBank s) e en q r with run := none, drun := BitVec.ofNat 16 (r.n + 1) } (evBank s)) := by
    rw [woken_step hruns rfl, hfail]
    dsimp only
    rw [if_pos (List.isEmpty_iff.2 hqueue)]
    unfold Claims.runOver Bank.endRun
    rw [settle_eq]
    rfl
  rw [run_exec hruns (f := fun b => Claims.runOver (withDom { runAfter b e en q r with run := none, drun := BitVec.ofNat 16 (r.n + 1) } b)) hwoken
    ((runAfter_shape _ e en q r).1.trans hruns.raised)]
  rfl

theorem run_bounded (hfail : (runStep (evBank s) en q r).fail = none) (hqueue : (runAfter (evBank s) e en q r).queue ≠ []) (hlimit : r.n + 1 = r.limit)
    (hbt : (evBank s).dom.bt = false) : execPropagationRun s = .next (s.modBank s.ev.g s.ev.k fun b =>
      Claims.runOver (withDom { runAfter b e en q r with run := none, bnd := true, drun := BitVec.ofNat 16 (r.n + 1) } b)) := by
  have hwoken : (evBank s).woken =
      Claims.runOver (withDom { runAfter (evBank s) e en q r with run := none, bnd := true, drun := BitVec.ofNat 16 (r.n + 1) } (evBank s)) := by
    rw [woken_step hruns rfl, hfail]
    dsimp only
    rw [if_neg (by simpa using hqueue), if_pos hlimit, (runAfter_shape _ e en q r).2.2.trans hbt, if_neg Bool.false_ne_true]
    unfold Claims.runOver Bank.endRun
    rw [settle_eq]
    rfl
  rw [run_exec hruns
    (f := fun b => Claims.runOver (withDom { runAfter b e en q r with run := none, bnd := true, drun := BitVec.ofNat 16 (r.n + 1) } b)) hwoken
    ((runAfter_shape _ e en q r).1.trans hruns.raised)]
  rfl

theorem run_fails {f : Fin 32} (hfail : (runStep (evBank s) en q r).fail = some f) (hpc : (evBank s).dom.failpc ≠ 0) (hdelay : r.delay = false) :
    execPropagationRun s = .next (s.modBank s.ev.g s.ev.k fun b =>
      (withDom (failedRun b.dom f e (r.n + 1)) b).modCol 0 (failBranch r.pc b.dom.failpc)) := by
  have hwoken : (evBank s).woken =
      (withDom (failedRun (evBank s).dom f e (r.n + 1)) (evBank s)).modCol 0 (failBranch r.pc (evBank s).dom.failpc) := by
    have hgoes : ((evBank s).dom.failpc != 0 && !r.delay) = true := by rw [hdelay]; simpa using hpc
    rw [woken_step hruns rfl, hfail]
    dsimp only
    rw [if_pos hgoes]
    rfl
  rw [run_exec hruns (f := fun b => (withDom (failedRun b.dom f e (r.n + 1)) b).modCol 0 (failBranch r.pc b.dom.failpc)) hwoken hruns.raised]
  rfl

end
end

end Sys2Proof.Machine

/-! SUPPORT. The handler's start, bank switches, walks and the control registers of a partition (spec/09 R169, R177, spec/18 R283). -/
namespace Sys2Proof.Machine
open Sys2Proof Sys2Proof.Claims

section
variable {s t u : State}

/-! ## Untagged writes of memory -/

/-- Only HBM and host memory differ. -/
def MemoryOnly (s t : State) : Prop := t = { s with hbm := t.hbm, host := t.host }

theorem MemoryOnly.refl (s : State) : MemoryOnly s s := rfl
theorem MemoryOnly.trans (h : MemoryOnly s t) (h' : MemoryOnly t u) : MemoryOnly s u := by
  unfold MemoryOnly at *
  rw [h', h]

theorem rawWrite_memory (p : Fin 8) (va : Nat) (b : Byte) (s : State) : MemoryOnly s (s.rawWrite p va b) := by
  unfold State.rawWrite
  split <;> rfl

theorem rawWriteN_memory (p : Fin 8) (va : Nat) (bs : List Byte) (s : State) : MemoryOnly s (s.rawWriteN p va bs) :=
  List.foldlRecOn (motive := MemoryOnly s) bs.zipIdx _ (MemoryOnly.refl s) fun t ht x _ => ht.trans (rawWrite_memory p (va + x.2) x.1 t)

/-! ## The handler (spec/18 R283, R286) -/

theorem handler_waits {k : Fin 2} (hhandling : (s.core s.ev.g).handling = some k) (hquiet : s.quiet s.ev.g (k.castLE (by decide)) = false) :
    execHandlerStart s = .next (s.schedule 1 .handlerStart s.ev) := by
  unfold execHandlerStart
  dsimp only
  rw [hhandling]
  dsimp only
  rw [hquiet]
  rfl

theorem dump_memory (g : Fin 512) (k : Fin 2) (s : State) : MemoryOnly s (s.dump g k) := rawWriteN_memory _ _ _ s

theorem saveVA_of_memory (h : MemoryOnly s t) (g : Fin 512) (k : Fin 2) : t.saveVA g k = s.saveVA g k := by
  rw [h]
  rfl

theorem handler_starts {k : Fin 2} {u : UnitInfo} (hhandling : (s.core s.ev.g).handling = some k) (hquiet : s.quiet s.ev.g (k.castLE (by decide)) = true)
    (hunit : (s.dump s.ev.g k).handlerUnit s.ev.g = some u) : ∃ c, execHandlerStart s =
      .next ((s.dump s.ev.g k).modBank s.ev.g 2 fun b => b.handlerStart u (s.saveVA s.ev.g k) c) := by
  rw [← saveVA_of_memory (dump_memory s.ev.g k s)]
  unfold execHandlerStart
  dsimp only
  rw [hhandling]
  dsimp only
  rw [hquiet]
  simp only [Bool.not_true, Bool.false_eq_true, if_false]
  rw [hunit]
  exact ⟨_, rfl⟩

/-! ## Switches, walks and invalidations -/

theorem slice_begins (hflag : s.ev.flag = true) (hst : (evBank s).st = .ready) (hrunnable : (evBank s).runnable = true)
    (hactive : (s.core s.ev.g).active = asBank s.ev.k) (hhandling : (s.core s.ev.g).handling = none) (hstopped : (s.core s.ev.g).stopped = false)
    (hcancelled : (evBank s).cancelled = false) (hreplay : (evBank s).replay = []) :
    execBankSwitchTslice s = .next (s.modBank s.ev.g s.ev.k fun b => { b.runSfc s.cycle with st := .running, sliceStart := s.cycle }) := by
  have hgoes : ((s.bank s.ev.g s.ev.k).st == .ready && (s.bank s.ev.g s.ev.k).runnable && (s.core s.ev.g).active == asBank s.ev.k &&
      (s.core s.ev.g).handling.isNone && !(s.core s.ev.g).stopped) = true := by
    rw [show (s.bank s.ev.g s.ev.k).st = .ready from hst, show (s.bank s.ev.g s.ev.k).runnable = true from hrunnable, hactive, hhandling, hstopped,
      beq_self_eq_true, beq_self_eq_true]
    rfl
  unfold execBankSwitchTslice
  dsimp only
  rw [hflag, if_pos rfl, hgoes, if_pos rfl, show (s.bank s.ev.g s.ev.k).cancelled = false from hcancelled,
    show (s.bank s.ev.g s.ev.k).replay = [] from hreplay]
  rfl

theorem serves_any {who : Requester} (h : ∀ x ∈ s.agenda, x.serves who = false) : (s.agenda.any fun x => x.serves who) = false :=
  List.any_eq_false.2 fun x hx => by rw [h x hx]; exact Bool.false_ne_true

/-- A request of which no step is due goes on. -/
theorem rerun_access {g : Fin 512} {k : Fin 3} {id : Nat} (h : ∀ x ∈ s.agenda, x.serves (.access g k id) = false) :
    s.rerun (.access g k id) = s.schedule 0 .globalAccessAtOwner { EvArgs.at g k with id := id } := by
  unfold State.rerun
  rw [serves_any h, if_neg Bool.false_ne_true]

theorem walk_finds {base size pa id : Nat} {at_ : BitVec 9} {g : Fin 512} {k : Fin 3}
    (hwalk : walk s.hbm s.ev.d (s.die s.ev.d).xlatroot (vaOffset s.ev.va.toNat) = .page base size pa at_) (hn : s.ev.n ≠ 1)
    (hreq : s.ev.req = .access g k id) (hidle : ∀ x ∈ s.agenda, x.serves (.access g k id) = false) : execPageTableWalk s =
    .next ((s.modDie s.ev.d fun x =>
      { x with
        tlb := { base := base, size := size, pa := pa, attr := at_ } ::
          x.tlb.filter fun y => y != { base := base, size := size, pa := pa, attr := at_ } }).schedule 0 .globalAccessAtOwner
        { EvArgs.at g k with id := id }) := by
  unfold execPageTableWalk
  dsimp only
  rw [hwalk]
  dsimp only
  rw [if_neg hn, State.modDie_ev, hreq, rerun_access (s := State.modDie _ _ _) hidle]

theorem mailbox_hears (hflag : s.ev.flag = false) (hinv : s.ev.inv = .mailbox) : execInvalidationComplete s =
    .next (s.modDev fun d => { d with mbStatus := 0, msix := d.msix ++ [0] }) := by
  unfold execInvalidationComplete
  dsimp only
  rw [hflag, hinv]
  rfl

/-! ## Control registers of a partition -/

theorem frq_freed (hfull : (s.part s.ev.p).frqfull = false) : execFrqheadWrite s =
    .next (s.modPart s.ev.p fun q => { q with frq := { q.frq with head := s.ev.w } }) := by
  unfold execFrqheadWrite
  dsimp only
  rw [State.part_modPart, if_pos rfl, hfull]
  rfl

theorem trace_opens (hfeature : s.feature 5 = true) (hopen : (s.part s.ev.p).trcOpen = false) : ∃ t, execTrcctlWrite s = .next t ∧
    (t.part s.ev.p).trcOpen = s.ev.w.getLsbD 31 ∧ (t.part s.ev.p).trcBr = s.ev.w.getLsbD 30 ∧
      (t.part s.ev.p).trcQueue = Fin.ofNat 64 (s.ev.w.toNat / 2 ^ 16) ∧ (t.part s.ev.p).sampint = s.ev.w.setWidth 16 ∧
      t.cores = s.cores ∧ t.hbm = s.hbm := by
  have hqueue : Fin.ofNat 64 (field s.ev.w 16 6) = Fin.ofNat 64 (s.ev.w.toNat / 2 ^ 16) := by
    apply Fin.ext
    simp [field, Fin.ofNat, Nat.shiftRight_eq_div_pow]
  unfold execTrcctlWrite State.writeTrcctl
  rw [hfeature, hopen]
  refine ⟨_, rfl, ?_⟩
  simp only [Bool.not_true, Bool.false_eq_true, if_false, Bool.false_and, ← hqueue]
  split
  · rw [State.part_schedule, State.part_unschedule, State.part_modPart, if_pos rfl]
    exact ⟨rfl, rfl, rfl, rfl, rfl, rfl⟩
  · rw [State.part_unschedule, State.part_modPart, if_pos rfl]
    exact ⟨rfl, rfl, rfl, rfl, rfl, rfl⟩

/-- What page requests going out leave of a partition. -/
def pageShape (q : Part) : Bool × BitVec 15 × BitVec 12 × Bool := (q.fltMode, q.fltTimer, q.fltCount, q.pristop)

/-- The faults of the job of a partition. -/
def faultsOf (p : Fin 8) (s : State) : Option (List PageFault) := (s.part p).job.map fun j => j.faults

/-- Page requests go out: only what the faults of the job say of that, what is sent and ALLOWWAIT differ. -/
structure PagesAsked (p : Fin 8) (s t : State) : Prop where
  cores : t.cores = s.cores
  hbm : t.hbm = s.hbm
  dies : t.dies = s.dies
  agenda : t.agenda = s.agenda
  part : pageShape (t.part p) = pageShape (s.part p)
  faultless : faultsOf p s = some [] → faultsOf p t = some []

theorem PagesAsked.refl (p : Fin 8) (s : State) : PagesAsked p s s := ⟨rfl, rfl, rfl, rfl, rfl, id⟩
theorem PagesAsked.trans {p : Fin 8} (h : PagesAsked p s t) (h' : PagesAsked p t u) : PagesAsked p s u :=
  ⟨h'.cores.trans h.cores, h'.hbm.trans h.hbm, h'.dies.trans h.dies, h'.agenda.trans h.agenda, h'.part.trans h.part,
    fun x => h'.faultless (h.faultless x)⟩

theorem PagesAsked.modPart {p : Fin 8} {f : Part → Part} (hf : ∀ q, pageShape (f q) = pageShape q)
    (hjob : ∀ q, q.job.map Job.faults = some [] → (f q).job.map Job.faults = some []) (s : State) : PagesAsked p s (s.modPart p f) := by
  refine ⟨rfl, rfl, rfl, rfl, ?_, ?_⟩
  · rw [State.part_modPart, if_pos rfl, hf]
  · unfold faultsOf
    rw [State.part_modPart, if_pos rfl]
    exact hjob _

theorem PagesAsked.modDev {p : Fin 8} (f : Device → Device) (s : State) : PagesAsked p s (s.modDev f) := ⟨rfl, rfl, rfl, rfl, rfl, id⟩

theorem faults_marked {f : PageFault → PageFault} {o : Option Job} (h : o.map Job.faults = some []) :
    (o.map fun j => { j with faults := j.faults.map f }).map Job.faults = some [] := by
  rw [Option.map_map, show (Job.faults ∘ fun j : Job => { j with faults := j.faults.map f }) = List.map f ∘ Job.faults from rfl, ← Option.map_map, h]
  rfl

theorem priSend_asks (p : Fin 8) (l : List PageFault) (s : State) : PagesAsked p s (s.priSend p l) := by
  induction l generalizing s with
  | nil => exact PagesAsked.refl p s
  | cons f l ih =>
    unfold State.priSend
    split
    · exact PagesAsked.refl p s
    · dsimp only
      split
      · exact ih s
      · exact ((PagesAsked.modPart (by exact fun _ => rfl) (fun q h => faults_marked h) s).trans (PagesAsked.modDev _ _)).trans (ih _)

theorem priRefill_asks (p : Fin 8) (s : State) : PagesAsked p s (s.priRefill p) := by
  unfold State.priRefill
  split
  · exact PagesAsked.refl p s
  · exact (priSend_asks p _ s).trans (PagesAsked.modPart (by exact fun _ => rfl) (by exact fun _ h => h) _)

theorem flt_written : ∃ t, execFltctlWrite s = .next t ∧
    (t.part s.ev.p).fltMode = s.ev.w.getLsbD 31 ∧ (t.part s.ev.p).fltTimer = s.ev.w.setWidth 15 ∧ (t.part s.ev.p).pristop = false ∧
      (t.part s.ev.p).fltCount = (if s.ev.w.extractLsb' 16 12 = 0 then (s.part s.ev.p).fltCount else s.ev.w.extractLsb' 16 12) ∧
      t.cores = s.cores ∧ t.hbm = s.hbm := by
  have hzero : field s.ev.w 16 12 = 0 ↔ s.ev.w.extractLsb' 16 12 = 0 := by
    rw [BitVec.toNat_eq]
    simp [field, BitVec.extractLsb'_toNat, Nat.shiftRight_eq_div_pow]
  obtain ⟨hcores, hhbm, -, -, hpart, -⟩ := priRefill_asks s.ev.p (s.modPart s.ev.p fun q =>
    { q with fltMode := bit s.ev.w 31, fltTimer := s.ev.w.setWidth 15, pristop := false
             fltCount := if field s.ev.w 16 12 = 0 then q.fltCount else s.ev.w.extractLsb' 16 12 })
  rw [State.part_modPart, if_pos rfl] at hpart
  obtain ⟨hmode, htimer, hcount, hstop⟩ : _ ∧ _ ∧ _ ∧ _ := by simpa only [pageShape, Prod.mk.injEq] using hpart
  refine ⟨_, rfl, hmode, htimer, hstop, hcount.trans ?_, hcores, hhbm⟩
  simp only [hzero]

end

end Sys2Proof.Machine

/-! SUPPORT. Batches of page faults (spec/09 R178). -/
namespace Sys2Proof.Machine
open Sys2Proof Sys2Proof.Claims

section
variable {s t u : State}
/-! ## Fault batches (spec/09 R178) -/

/-- Whether a batch of the job of a partition is being gathered, and its number. -/
def batchShape (q : Part) : Option (Option Nat × Nat) := q.job.map fun j => (j.batchFrom, j.batchNo)

/-- Records are written: the batch and the agenda are as they were. -/
structure BatchKept (p : Fin 8) (s t : State) : Prop where
  agenda : t.agenda = s.agenda
  batch : batchShape (t.part p) = batchShape (s.part p)

theorem BatchKept.refl (p : Fin 8) (s : State) : BatchKept p s s := ⟨rfl, rfl⟩
theorem BatchKept.trans {p : Fin 8} (h : BatchKept p s t) (h' : BatchKept p t u) : BatchKept p s u :=
  ⟨h'.agenda.trans h.agenda, h'.batch.trans h.batch⟩

theorem BatchKept.modPart {p : Fin 8} {f : Part → Part} (hf : ∀ q, batchShape (f q) = batchShape q) (s : State) : BatchKept p s (s.modPart p f) :=
  ⟨rfl, by rw [State.part_modPart, if_pos rfl, hf]⟩

theorem MemoryOnly.batchKept {p : Fin 8} (h : MemoryOnly s t) : BatchKept p s t := by
  rw [h]
  exact ⟨rfl, rfl⟩

theorem ringPut_batch (p : Fin 8) (bs : List Byte) (s : State) :
    BatchKept p s (s.ringPut p (fun q => q.frq) (fun q x => { q with frq := x }) bs).1 := by
  unfold State.ringPut
  dsimp only
  split
  · exact BatchKept.refl p s
  · have hwrite := (rawWriteN_memory p ((s.part p).frq.base.toNat + 32 * ((s.part p).frq.tail.toNat % 2 ^ (s.part p).frq.log)) bs s).batchKept (p := p)
    exact hwrite.trans (BatchKept.modPart (f := fun q => { q with frq := { q.frq with tail := q.frq.tail + 1 } }) (fun _ => rfl) _)

theorem writeRanges_batch (p : Fin 8) (l : List FaultRange) (s : State) : BatchKept p s (s.writeRanges p l).1 := by
  induction l generalizing s with
  | nil => exact BatchKept.refl p s
  | cons r l ih =>
    have hput := ringPut_batch p r.bytes s
    unfold State.writeRanges
    split
    · next h => rw [h] at hput; exact hput
    · next h =>
      rw [h] at hput
      refine hput.trans ((BatchKept.modPart (fun q => ?_) _).trans (ih _))
      unfold batchShape
      rw [Option.map_map]
      rfl

theorem writeBatches_batch (p : Fin 8) (l : List Nat) (s : State) : BatchKept p s (s.writeBatches p l) := by
  induction l generalizing s with
  | nil => exact BatchKept.modPart (by exact fun _ => rfl) s
  | cons n l ih =>
    unfold State.writeBatches
    split
    · exact BatchKept.refl p s
    · next j _ =>
      have hwrite := writeRanges_batch p (j.ranges n) s
      split
      · next h => rw [h] at hwrite; exact hwrite.trans (ih _)
      · next h => rw [h] at hwrite; exact hwrite.trans (BatchKept.modPart (by exact fun _ => rfl) _)

theorem writeClosed_batch (p : Fin 8) (s : State) : BatchKept p s (s.writeClosed p) := by
  unfold State.writeClosed
  split
  · exact writeBatches_batch p _ s
  · exact BatchKept.refl p s

theorem batch_closes (hneed : batchCloses.need s) : batchCloses.holds s (s.closeBatch s.ev.p s.ev.id) := by
  obtain ⟨j, hjob, hno, hfrom⟩ := hneed
  have hcloses : (j.batchNo == s.ev.id && j.batchFrom.isSome) = true := by
    rw [hno, beq_self_eq_true, Option.isSome_iff_ne_none.2 hfrom]
    rfl
  have hexec : s.closeBatch s.ev.p s.ev.id = (s.endBatch s.ev.p).writeClosed s.ev.p := by
    unfold State.closeBatch
    rw [hjob]
    dsimp only
    rw [if_pos hcloses]
  obtain ⟨hagenda, hbatch⟩ := writeClosed_batch s.ev.p (s.endBatch s.ev.p)
  have hended : batchShape ((s.endBatch s.ev.p).part s.ev.p) = some (none, s.ev.id + 1) := by
    unfold batchShape State.endBatch
    rw [job_modJob, State.part_unschedule, hjob, ← hno]
    rfl
  rw [hexec]
  refine ⟨fun i hi => ?_, fun x hx hwhat hp => ?_⟩
  · rw [hended] at hbatch
    unfold batchShape at hbatch
    rw [hi] at hbatch
    simpa only [Option.map_some, Option.some.injEq, Prod.mk.injEq] using hbatch
  · rw [hagenda] at hx
    have hkeeps := (List.mem_filter.1 (show x ∈ s.agenda.filter fun y => !(y.what == .faultBatchTimer && y.args.p == s.ev.p) from hx)).2
    rw [hwhat, hp, beq_self_eq_true, beq_self_eq_true] at hkeeps
    exact Bool.false_ne_true hkeeps

theorem batch_gone (hgone : ∀ j, (s.part s.ev.p).job = some j → j.batchNo ≠ s.ev.id) : s.closeBatch s.ev.p s.ev.id = s := by
  unfold State.closeBatch
  split
  · rfl
  · next j hjob => rw [beq_false_of_ne (hgone j hjob), Bool.false_and, if_neg Bool.false_ne_true]

end

end Sys2Proof.Machine

/-! SUPPORT. The answer of a copy channel's fault, by doorbell and by page request group (spec/09 R174, R177). -/
namespace Sys2Proof.Machine
open Sys2Proof Sys2Proof.Claims

section
variable {s t u : State}

/-! ## Answers (spec/09 R174, R177) -/

theorem holdAnswer_none {p : Fin 8} (h : (s.part p).shadowJob = none) (hit : PageFault → Bool) (x : Nat × Nat × Option Nat × Bool) :
    s.holdAnswer p hit x = s := by
  unfold State.holdAnswer
  rw [h]

section
variable {p d : Fin 8} {id : Nat} {f : PageFault} {c : CopyCmd}

/-- The command of a channel hears the answer of its only fault. -/
def channelHears (d : Fin 8) (c : CopyCmd) (ok : Bool) (s : State) : State :=
  (s.modDie d fun x => { x with copies := [{ c with st := if ok then .running else .failed 1 }] }).schedule 0
    (if ok then .copyRowCommit else .copyCommandComplete) { EvArgs.ofDie d with id := c.id }

theorem modDie_congr {g g' : Die → Die} (h : g (s.die d) = g' (s.die d)) : s.modDie d g = s.modDie d g' := by
  unfold State.modDie
  rw [h]

theorem answerOne_channel (hwho : f.who = .channel d c.id) (hcopies : (s.die d).copies = [c]) (hst : c.st = .stalled)
    (hidle : ∀ x ∈ s.agenda, x.serves (.channel d c.id) = false) (ok : Bool) : s.answerOne [] ok f = channelHears d c ok s := by
  have hdie (st : CopySt) : (s.modDie d fun x =>
      { x with copies := x.copies.map fun (y : CopyCmd) => if y.id == c.id && y.st == .stalled then { y with st := st } else y }) =
      s.modDie d fun x => { x with copies := [{ c with st := st }] } := by
    apply modDie_congr
    rw [hcopies, List.map_singleton, beq_self_eq_true, hst, beq_self_eq_true]
    rfl
  unfold State.answerOne channelHears
  rw [hwho]
  cases ok with
  | false =>
    dsimp only
    rw [hdie]
    rfl
  | true =>
    dsimp only
    rw [Bool.not_true, if_neg Bool.false_ne_true, List.any_nil, if_neg Bool.false_ne_true, hdie]
    unfold State.rerun
    rw [serves_any (s := State.modDie _ _ _) hidle]
    rfl

/-- The job's only fault is answered: nothing of the job's faults is left, and the batch may end. -/
theorem answer_only {j : Job} {hit : PageFault → Bool} {ok : Bool} (hjob : (s.part p).job = some j) (hfaults : j.faults = [f]) (hhit : hit f = true) :
    s.answer p hit ok = (State.answerOne (if j.batchFrom.isSome then (s.modJob p fun j => { j with faults := [] }).endBatch p
      else s.modJob p fun j => { j with faults := [] }) [] ok f).priRefill p := by
  unfold State.answer
  rw [hjob]
  dsimp only
  rw [hfaults]
  simp only [List.filter_cons, hhit, List.filter_nil, Bool.not_true, Bool.false_eq_true, if_false, if_true, List.foldl_cons, List.foldl_nil]
  have hfresh : ({ j with faults := [] } : Job).freshFaults.isEmpty = true := rfl
  rw [hfresh, Bool.and_true]

/-- What comes before the answer: the job has no fault left, no die has changed, and no step is due that was not. -/
structure Faultless (p : Fin 8) (s t : State) : Prop where
  faults : faultsOf p t = some []
  part : pageShape (t.part p) = pageShape (s.part p)
  dies : t.dies = s.dies
  cycle : t.cycle = s.cycle
  agenda : ∀ x ∈ t.agenda, x ∈ s.agenda

theorem faults_dropped {j : Job} (hjob : (s.part p).job = some j) (b : Bool) : Faultless p s
    (if b then (s.modJob p fun j => { j with faults := [] }).endBatch p else s.modJob p fun j => { j with faults := [] }) := by
  cases b with
  | false =>
    rw [if_neg Bool.false_ne_true]
    refine ⟨?_, ?_, rfl, rfl, fun _ h => h⟩
    · show Option.map _ (((s.modJob p _).part p).job) = _
      rw [job_modJob, hjob]
      rfl
    · show pageShape ((s.modPart p _).part p) = _
      rw [State.part_modPart, if_pos rfl]
      rfl
  | true =>
    rw [if_pos rfl]
    refine ⟨?_, ?_, rfl, rfl, fun _ h => (List.mem_filter.1 h).1⟩
    · show Option.map _ ((((((s.modJob p _).unschedule _).modJob p _)).part p).job) = _
      rw [job_modJob, State.part_unschedule, job_modJob, hjob]
      rfl
    · show pageShape ((((s.modPart p _).unschedule _).modPart p _).part p) = _
      rw [State.part_modPart, if_pos rfl, State.part_unschedule, State.part_modPart, if_pos rfl]
      rfl

theorem channel_answered {hit : PageFault → Bool} {ok : Bool} (hfault : ChannelFault d id f c s) (hp : p = s.ev.p) (hhit : hit f = true) :
    answered d c ok (if ok then .copyRowCommit else .copyCommandComplete) s (s.answer p hit ok) ∧
      ((s.answer p hit ok).part p).pristop = (s.part p).pristop := by
  subst hp
  obtain ⟨⟨j, hjob, hfaults⟩, -, hwho, hcopies, ⟨hid, hst⟩, hidle⟩ := hfault
  rw [answer_only hjob hfaults hhit]
  subst hid
  have hdrop := faults_dropped hjob j.batchFrom.isSome
  generalize (if j.batchFrom.isSome then _ else _ : State) = m at hdrop ⊢
  have hdie : (m.die d).copies = [c] := by
    unfold State.die
    rw [hdrop.dies]
    exact hcopies
  rw [answerOne_channel hwho hdie hst fun x hx => hidle x (hdrop.agenda x hx)]
  have hasks := priRefill_asks s.ev.p (channelHears d c ok m)
  refine ⟨⟨?_, ?_, ?_⟩, ?_⟩
  · obtain ⟨i, hi, hnone⟩ := Option.map_eq_some_iff.1 (hasks.faultless hdrop.faults)
    exact ⟨i, hi, hnone⟩
  · unfold State.die
    rw [hasks.dies]
    show (((m.modDie d fun x => { x with copies := [{ c with st := if ok then .running else .failed 1 }] }).die d).copies) = _
    rw [State.die_modDie, if_pos rfl]
  · unfold Planned
    rw [hasks.agenda, ← hdrop.cycle]
    exact mem_scheduleAt_self _ _ _ _
  · have h := hasks.part.trans (show pageShape ((channelHears d c ok m).part s.ev.p) = _ from hdrop.part)
    exact congrArg (fun x => x.2.2.2) h

theorem channelFault_modPart {q : Part → Part} (hfault : ChannelFault d id f c s) (hjob : ∀ x, (q x).job = x.job) (hshadow : ∀ x, (q x).shadowJob = x.shadowJob) :
    ChannelFault d id f c (s.modPart s.ev.p q) := by
  have hpart : (s.modPart s.ev.p q).part s.ev.p = q (s.part s.ev.p) := by rw [State.part_modPart, if_pos rfl]
  obtain ⟨hj, hs, hwho, hcopies, hstalled, hidle⟩ := hfault
  refine ⟨?_, ?_, hwho, hcopies, hstalled, hidle⟩
  · show ∃ j, ((s.modPart s.ev.p q).part s.ev.p).job = some j ∧ _
    rw [hpart, hjob]
    exact hj
  · show ((s.modPart s.ev.p q).part s.ev.p).shadowJob = none
    rw [hpart, hshadow]
    exact hs

/-- The faults that an answer doorbell names: those of a range of pages that no page request carries. -/
def ranged (first n : Nat) (f : PageFault) : Bool := f.pri.isNone && decide (first ≤ f.page) && decide (f.page < first + n)

theorem ranged_page (hpri : f.pri = none) (hfirst : s.ev.va.toNat / 65536 ≤ f.va / 65536) (hlast : f.va / 65536 < s.ev.va.toNat / 65536 + s.ev.n) :
    ranged (s.ev.va.toNat / 65536) s.ev.n f = true := by
  rw [ranged, hpri, Option.isNone_none, Bool.true_and, Bool.and_eq_true, decide_eq_true_eq, decide_eq_true_eq]
  exact ⟨hfirst, hlast⟩

/-- The doorbell's registers take its arguments. -/
def doorbellNamed (s : State) : State := s.modPart s.ev.p fun q => { q with fansVA := s.ev.va, fansPages := BitVec.ofNat 32 s.ev.n }

theorem doorbell_hears (hstatus : s.ev.w = 0 ∨ s.ev.w = 1) (hshadow : ((doorbellNamed s).part s.ev.p).shadowJob = none) :
    execFaultAnswer s = .next ((doorbellNamed s).answer s.ev.p (ranged (s.ev.va.toNat / 65536) s.ev.n) (s.ev.w == 0)) := by
  have hpos : (decide (s.ev.w = 0) || decide (s.ev.w = 1)) = true := by simpa only [Bool.or_eq_true, decide_eq_true_eq] using hstatus
  unfold execFaultAnswer
  dsimp only
  exact (if_pos hpos).trans (congrArg (fun t => Host.Outcome.next (State.answer t _ _ _)) (holdAnswer_none hshadow _ _))

theorem doorbell_answers {ok : Bool} (hfault : ChannelFault d id f c s) (hw : s.ev.w = if ok then 0 else 1) (hpri : f.pri = none)
    (hfirst : s.ev.va.toNat / 65536 ≤ f.va / 65536) (hlast : f.va / 65536 < s.ev.va.toNat / 65536 + s.ev.n) :
    ∃ t, execFaultAnswer s = .next t ∧ answered d c ok (if ok then .copyRowCommit else .copyCommandComplete) s t := by
  have hfault' : ChannelFault d id f c (doorbellNamed s) := channelFault_modPart hfault (fun _ => rfl) (fun _ => rfl)
  have hok : (s.ev.w == 0) = ok := by rw [hw]; cases ok <;> rfl
  have hstatus : s.ev.w = 0 ∨ s.ev.w = 1 := by rw [hw]; cases ok <;> simp
  refine ⟨_, doorbell_hears hstatus hfault'.shadow, ?_⟩
  rw [hok]
  exact (channel_answered hfault' rfl (ranged_page hpri hfirst hlast)).1

theorem group_answered (hfault : ChannelFault d id f c s) (hw : s.ev.w = 0) (hreported : f.reported = true) (hpri : f.pri = some s.ev.id) :
    ∃ t, execPriGroupResponse s = .next t ∧ answered d c true .copyRowCommit s t := by
  have hhit : (f.reported && f.pri == some s.ev.id) = true := by rw [hreported, hpri, beq_self_eq_true]; rfl
  refine ⟨_, ?_, (channel_answered (ok := true) (hit := fun f => f.reported && f.pri == some s.ev.id) hfault rfl hhit).1⟩
  unfold execPriGroupResponse
  dsimp only
  rw [hw, beq_self_eq_true, holdAnswer_none hfault.shadow]

theorem group_fails (hfault : ChannelFault d id f c s) :
    ∃ t, execPriResponseFailure s = .next t ∧ answered d c false .copyCommandComplete s t ∧ (t.part s.ev.p).pristop = true := by
  have hfault' := channelFault_modPart hfault (q := fun q => { q with pristop := true }) (fun _ => rfl) (fun _ => rfl)
  obtain ⟨hanswered, hstop⟩ := channel_answered (ok := false) (hit := fun _ => true) hfault' rfl rfl
  exact ⟨_, rfl, hanswered, hstop.trans (congrArg Part.pristop ((State.part_modPart ..).trans (if_pos rfl)))⟩

end

end

end Sys2Proof.Machine

/-! SUPPORT. Frozen banks, their replay lists, and COLERR (spec/09 R173, R174, spec/12 R251). -/
namespace Sys2Proof.Machine
open Sys2Proof Sys2Proof.Claims

section
variable {s t u : State}

/-! ## Frozen banks and their replay lists (spec/09 R173, R174) -/

theorem mem_sortBy {α : Type} (lt : α → α → Bool) (x : α) (l : List α) : x ∈ sortBy lt l ↔ x ∈ l := by
  have hfold (l r : List α) : x ∈ l.foldl (fun r y => insertBy lt y r) r ↔ x ∈ l ∨ x ∈ r := by
    induction l generalizing r with
    | nil => simp
    | cons a l ih => rw [List.foldl_cons, ih, mem_insertBy, List.mem_cons]; tauto
  exact (hfold l []).trans (by simp)

theorem endExec_place (s : State) (g : Fin 512) (k : Fin 3) : placeShape ((s.endExec g k).bank g k) = placeShape (s.bank g k) := by
  rcases endExec_shape s g k with h | ⟨f, p, hf, h⟩ <;> rw [h]
  rw [State.bank_modBank, if_pos ⟨rfl, rfl⟩, hf]
  rfl

theorem endExec_only (s : State) (g : Fin 512) (k : Fin 3) : OnlyPlace g k s (s.endExec g k) := OnlyPlace.refl.endExec

/-- An access waits in the replay list of its bank. -/
def toReplay (o : AOp) (b : Bank) : Bank :=
  { b with
    ops := b.ops.filter fun (x : AOp) => x.id != o.id
    replay := sortBy (fun (x y : AOp) => decide (x.id < y.id)) (b.replay ++ [{ o with confirmed := false }]) }

theorem switchBank_none {g : Fin 512} {k : Fin 3} (h : (s.bank g (otherBank k)).runnable = false) (n : Nat) : s.switchBank g k n = s := by
  unfold State.switchBank
  dsimp only
  rw [h, Bool.not_false, if_pos rfl]

theorem bankAnswered_waits {g : Fin 512} {k : Fin 3} {o : AOp} (ho : o ∈ (s.bank g k).replay) (hanswer : o.answer = none) : s.bankAnswered g k = s := by
  have hall : ((s.bank g k).replay.all fun (o : AOp) => o.answer.isSome) = false :=
    List.all_eq_false.2 ⟨o, ho, by rw [hanswer]; decide⟩
  unfold State.bankAnswered
  dsimp only
  rw [hall, Bool.and_false, if_neg Bool.false_ne_true]

/-- The bank of a place stops running until its faults are answered. -/
def frozenAt (g : Fin 512) (k : Fin 3) (s : State) : State :=
  ((s.endExec g k).modBank g k fun b => b.park s.cycle .awaiting).endLease g

theorem frozenAt_bank (g : Fin 512) (k : Fin 3) (s : State) : (frozenAt g k s).bank g k = ((s.endExec g k).bank g k).park s.cycle .awaiting := by
  unfold frozenAt
  unfold State.bank
  rw [(endLease_only _ g).core]
  exact (State.bank_modBank ..).trans (if_pos ⟨rfl, rfl⟩)

theorem frozenAt_only (g : Fin 512) (k : Fin 3) (s : State) : OnlyPlace g k s (frozenAt g k s) := by
  have hpark := (endExec_only s g k).modBank fun b => b.park s.cycle .awaiting
  have hlease := endLease_only ((s.endExec g k).modBank g k fun b => b.park s.cycle .awaiting) g
  refine ⟨fun j hj => ?_, ?_, ?_, hlease.cycle.trans hpark.cycle⟩
  · rw [← hpark.banks j hj]
    unfold State.bank
    rw [frozenAt, hlease.core]
  · rw [frozenAt, hlease.core]
    exact hpark.handling
  · rw [← hpark.memory]
    unfold memories
    rw [frozenAt, hlease.hbm, hlease.host, funext fun g => congrArg Core.sp (hlease.core g)]

theorem park_place (b : Bank) (n : Nat) (st : BankSt) : placeShape (b.park n st) = placeShape b := by
  unfold placeShape Bank.park Bank.settleCols Bank.holdSfc
  cases b.sfcSince <;> dsimp only <;> split <;> rfl

theorem otherBank_ne {k : Fin 3} (hk : k.val ≠ 2) : otherBank k ≠ k := by
  unfold otherBank
  revert k
  decide

theorem access_freezes {o : AOp} (hneed : (faultFreezes o).need s) : ∃ t, execPageFaultFreeze s = .next t ∧ (faultFreezes o).holds s t := by
  obtain ⟨hfound, hk, hanswer, hst, hother⟩ := hneed
  have hbank : (s.modBank s.ev.g s.ev.k (toReplay o)).bank s.ev.g s.ev.k = toReplay o (evBank s) := (State.bank_modBank ..).trans (if_pos ⟨rfl, rfl⟩)
  have honly : OnlyPlace s.ev.g s.ev.k s (s.modBank s.ev.g s.ev.k (toReplay o)) := OnlyPlace.refl.modBank _
  have hfrozen := frozenAt_only s.ev.g s.ev.k (s.modBank s.ev.g s.ev.k (toReplay o))
  have hfrozenBank := frozenAt_bank s.ev.g s.ev.k (s.modBank s.ev.g s.ev.k (toReplay o))
  have hexec : execPageFaultFreeze s =
      .next (((frozenAt s.ev.g s.ev.k (s.modBank s.ev.g s.ev.k (toReplay o))).switchBank s.ev.g s.ev.k 0).bankAnswered s.ev.g s.ev.k) := by
    unfold execPageFaultFreeze
    dsimp only
    rw [show (s.bank s.ev.g s.ev.k).ops.find? _ = some o from hfound]
    dsimp only
    rw [if_neg hk]
    exact if_pos (beq_iff_eq.2 hst)
  generalize frozenAt s.ev.g s.ev.k (s.modBank s.ev.g s.ev.k (toReplay o)) = u at hfrozen hfrozenBank hexec
  have hshape : placeShape (u.bank s.ev.g s.ev.k) = placeShape (toReplay o (evBank s)) := by
    rw [hfrozenBank, park_place, endExec_place, hbank]
  obtain ⟨hops, hreplay⟩ : (u.bank s.ev.g s.ev.k).ops = (toReplay o (evBank s)).ops ∧ (u.bank s.ev.g s.ev.k).replay = (toReplay o (evBank s)).replay :=
    ⟨congrArg (fun x => x.2.1) hshape, congrArg (fun x => x.2.2) hshape⟩
  have hmem : { o with confirmed := false } ∈ (u.bank s.ev.g s.ev.k).replay := by
    rw [hreplay]
    exact (mem_sortBy _ _ _).2 (List.mem_append.2 (Or.inr (List.mem_singleton.2 rfl)))
  have hnone : (u.bank s.ev.g (otherBank s.ev.k)).runnable = false := by
    rw [hfrozen.banks _ (otherBank_ne hk), honly.banks _ (otherBank_ne hk), hother]
  rw [switchBank_none hnone, bankAnswered_waits hmem hanswer] at hexec
  refine ⟨u, hexec, by rw [hfrozenBank]; rfl, hmem, fun x hx => ?_, sameMemory_of_memories (hfrozen.memory.trans honly.memory)⟩
  rw [hops] at hx
  simpa using (List.mem_filter.1 hx).2

theorem recordPut_cores (p : Fin 8) (e : BitVec 256) (s : State) : (s.recordPut p e).cores = s.cores := by
  unfold State.recordPut
  split
  · exact ringPut_cores ..
  · rfl

theorem dieOfRank_of_ndies (h : ∀ p, (t.part p).ndies = (s.part p).ndies) (p : Fin 8) (r : Nat) : t.dieOfRank p r = s.dieOfRank p r := by
  unfold State.dieOfRank
  simp only [h]

theorem oneWay_of_ndies (h : ∀ p, (t.part p).ndies = (s.part p).ndies) (g : Fin 512) (va : Nat) : t.oneWay g va = s.oneWay g va := by
  unfold State.oneWay State.partAt State.partOfDie
  simp only [dieOfRank_of_ndies h, h]

/-- An access as it is sent again. -/
def unanswered (o : AOp) : AOp := { o with fault := 0, answer := none, confirmed := false }

/-- The replay list of a bank that holds one access is sent. -/
def resentBank (o : AOp) (b : Bank) : Bank :=
  { b with replay := [], ops := sortBy (fun (x y : AOp) => decide (x.id < y.id)) ([unanswered o] ++ b.ops) }

/-- The replay list of the step's place is sent: its one access travels to its owner. -/
def resent (o : AOp) (s : State) : State :=
  ((s.modBank s.ev.g s.ev.k (resentBank o)).useFree).schedule
    ((s.modBank s.ev.g s.ev.k (resentBank o)).oneWay s.ev.g o.va.toNat + Config.accessDelay s.free) .globalAccessAtOwner
      { EvArgs.at s.ev.g s.ev.k with id := o.id }

theorem MemoryOnly.ev (h : MemoryOnly s t) : t.ev = s.ev := by
  rw [show t = _ from h]

theorem recordPut_ev (p : Fin 8) (e : BitVec 256) (s : State) : (s.recordPut p e).ev = s.ev := by
  unfold State.recordPut State.ringPut
  dsimp only
  split
  · split
    · rfl
    · exact (rawWriteN_memory ..).ev
  · rfl

theorem resend_eq {o : AOp} (hneed : (resends o).need s) : ∃ p e, execReplayListResend s = .next (resent o (s.recordPut p e)) := by
  obtain ⟨hdelay, hreplay, hops, hanswer⟩ := hneed
  refine ⟨(evBank s).part, recEntry (s.sfc (evBank s)).toNat (rankAt s s.ev.g s.ev.k) (inDie s.ev.g) 0 4
    (s.sfc (s.bank s.ev.g (otherBank s.ev.k))).toNat 0, ?_⟩
  unfold execReplayListResend resent
  dsimp only
  rw [hdelay, show (s.bank s.ev.g s.ev.k).replay = [o] from hreplay, List.find?_singleton, hanswer, recordPut_ev]
  rfl

theorem access_resent {o : AOp} (hneed : (resends o).need s) : ∃ t, execReplayListResend s = .next t ∧ (resends o).holds s t := by
  obtain ⟨p, e, hexec⟩ := resend_eq hneed
  obtain ⟨hdelay, hreplay, hops, hanswer⟩ := hneed
  have hkept := LineKept.recordPut p e s
  have hbank : ((s.recordPut p e).modBank s.ev.g s.ev.k (resentBank o)).bank s.ev.g s.ev.k = resentBank o (evBank s) := by
    have hcores : (s.recordPut p e).bank s.ev.g s.ev.k = evBank s := by
      unfold State.bank State.core
      rw [recordPut_cores]
      rfl
    rw [State.bank_modBank, if_pos ⟨rfl, rfl⟩, hcores]
  unfold resent at hexec
  rw [recordPut_ev] at hexec
  refine ⟨_, hexec, congrArg Bank.replay hbank, (congrArg Bank.ops hbank).trans ?_,
    ((s.recordPut p e).modBank s.ev.g s.ev.k (resentBank o)).oneWay s.ev.g o.va.toNat + Config.accessDelay (s.recordPut p e).free, ?_, ?_⟩
  · unfold resentBank
    rw [hops]
    rfl
  · have hway : ((s.recordPut p e).modBank s.ev.g s.ev.k (resentBank o)).oneWay s.ev.g o.va.toNat = s.oneWay s.ev.g o.va.toNat :=
      oneWay_of_ndies hkept.ndies _ _
    exact hway.ge.trans (Nat.le_add_right _ _)
  · unfold Planned
    rw [← hkept.cycle]
    exact mem_scheduleAt_self ..

/-! ## COLERR (spec/12 R251) -/

/-- The barriers of the ones of a value are IDLE for a unit. -/
def barriersIdle (w : Word) (b : Bank) : Bank :=
  { b with colarr := b.colarr &&& ~~~w, colrel := b.colrel &&& ~~~w, colTravel := b.colTravel &&& ~~~w }

/-- The die's saved banks are idle too. -/
def savedIdle (w : Word) (x : Die) : Die := { x with saved := x.saved.map fun (y : Nat × Bank) => (y.1, barriersIdle w y.2) }

/-- The inputs and releases of the barriers are gone. -/
def inputsIdle (p : Fin 8) (w : Word) (s : State) : State :=
  (s.unschedule fun (x : Due) => (x.what == .colInputRise || x.what == .colReleaseArrival) && x.args.p == p && bit w x.args.id).modJob p fun j =>
    { j with colHigh := j.colHigh &&& ~~~w }

/-- Nor has a place of the partition any of them. -/
def placesIdle (p : Fin 8) (w : Word) (s : State) : State :=
  (inputsIdle p w s).mapCores p fun _ c => { c with banks := c.banks.map (barriersIdle w) }

theorem writeColerr_eq (p : Fin 8) (w : Word) (s : State) : s.writeColerr p w =
    (((placesIdle p w s).partDies p).foldl (fun (s : State) (d : Fin 8) => s.modDie d (savedIdle w)) (placesIdle p w s)).modPart p
      fun q => { q with colerr := q.colerr &&& ~~~w } := rfl

theorem part_inputsIdle (p : Fin 8) (w : Word) (s : State) : (inputsIdle p w s).part p =
    { s.part p with job := (s.part p).job.map fun j => { j with colHigh := j.colHigh &&& ~~~w } } :=
  (State.part_modPart ..).trans (if_pos rfl)

theorem inPart_inputsIdle (p : Fin 8) (w : Word) (s : State) (g : Fin 512) : (inputsIdle p w s).inPart p g = s.inPart p g := by
  unfold State.inPart
  rw [part_inputsIdle]

theorem part_placesIdle (p : Fin 8) (w : Word) (s : State) : (placesIdle p w s).part p = (inputsIdle p w s).part p :=
  part_of_parts (mapCores_rest _ p _).1 p

theorem partDies_nodup (s : State) (p : Fin 8) : (s.partDies p).Nodup := (List.nodup_finRange 8).filter _

/-- A change of each die of a list reaches a die of the list once, and no other. -/
theorem die_eachDie (f : Die → Die) {l : List (Fin 8)} (hl : l.Nodup) (s : State) (d : Fin 8) :
    (l.foldl (fun (s : State) (d : Fin 8) => s.modDie d f) s).die d = if d ∈ l then f (s.die d) else s.die d := by
  induction l generalizing s with
  | nil => simp
  | cons a l ih =>
    obtain ⟨ha, hl⟩ := List.nodup_cons.1 hl
    rw [List.foldl_cons, ih hl, State.die_modDie]
    by_cases hd : d = a
    · subst hd
      simp [ha]
    · simp [hd]

theorem eachDie_parts (f : Die → Die) (l : List (Fin 8)) (s : State) :
    (l.foldl (fun (s : State) (d : Fin 8) => s.modDie d f) s).parts = s.parts :=
  foldl_keeps (p := State.parts) (f := fun (s : State) (d : Fin 8) => s.modDie d f) (fun _ _ => rfl) l s

theorem eachDie_beside (f : Die → Die) (l : List (Fin 8)) (s : State) : Beside s (l.foldl (fun (s : State) (d : Fin 8) => s.modDie d f) s) :=
  Beside.foldl (fun _ _ => Beside.modDie ..) l s

theorem dies_placesIdle (p : Fin 8) (w : Word) (s : State) : (placesIdle p w s).dies = s.dies := by
  unfold placesIdle State.mapCores
  rfl

theorem colerr_written (p : Fin 8) (w : Word) (s : State) : ColReset p w s (s.writeColerr p w) := by
  have hbeside : Beside (placesIdle p w s) (s.writeColerr p w) := by
    rw [writeColerr_eq]
    exact (eachDie_beside ..).trans (Beside.modPart ..)
  have hdies : (placesIdle p w s).partDies p = s.partDies p :=
    partDies_of_ndies (by rw [part_placesIdle, part_inputsIdle])
  refine ⟨?_, ?_, ?_, ?_, ?_⟩
  · rw [writeColerr_eq, State.part_modPart, if_pos rfl]
    rw [part_of_parts (eachDie_parts ..), part_placesIdle, part_inputsIdle]
  · intro g k hin
    rw [hbeside.bank, placesIdle, bank_mapBanks, inPart_inputsIdle, if_pos hin]
    exact ⟨rfl, rfl⟩
  · intro d hd
    have hdie : (s.writeColerr p w).die d = savedIdle w (s.die d) := by
      rw [writeColerr_eq, hdies]
      refine (die_eachDie (savedIdle w) (partDies_nodup s p) _ d).trans ?_
      rw [if_pos hd, State.die, dies_placesIdle]
      rfl
    rw [hdie, savedIdle, List.map_map]
    rfl
  · intro g hin
    rw [hbeside.core, placesIdle, core_mapCores, inPart_inputsIdle, hin, if_neg Bool.false_ne_true]
    rfl
  · have hidle : SameMemory s (inputsIdle p w s) := ⟨fun _ => rfl, fun _ => rfl, fun _ _ => rfl⟩
    exact sameMemory_trans hidle (sameMemory_trans (mapBanks_memory (inputsIdle p w s) p (barriersIdle w)) hbeside.memory)

end

end Sys2Proof.Machine

/-! SUPPORT. The end of an X issue cycle as a whole (spec/00 R6, spec/06 R100, R102). -/
namespace Sys2Proof.Machine
open Sys2Proof Sys2Proof.Claims

section
variable {s t u : State}

/-! ## The end of an X cycle (spec/00 R6, spec/06 R100, R102) -/

/-- What a bank has of stream X: its cycle, what is in flight, the stores of the cycle and the columns. -/
def laneShape (b : Bank) : Nat × List Flight × List Host.Cell × Vector Column 4 := (b.xcycle, b.inflight, b.xstores, b.cols)

section
variable {g : Fin 512} {k : Fin 3}

/-- What a place has of stream X. -/
def lanesAt (g : Fin 512) (k : Fin 3) (s : State) : Nat × List Flight × List Host.Cell × Vector Column 4 := laneShape (s.bank g k)

theorem lanesAt_modBank {f : Bank → Bank} (s : State) : lanesAt g k (s.modBank g k f) = laneShape (f (s.bank g k)) := by
  simp [lanesAt]

theorem lanesAt_schedule (n : Nat) (i : Instr) (a : EvArgs) (s : State) : lanesAt g k (s.schedule n i a) = lanesAt g k s := rfl

theorem lanesAt_pushToken (f : Option (Fin 16)) (s : State) : lanesAt g k (s.pushToken g k f) = lanesAt g k s := by
  cases f with
  | none => rfl
  | some f =>
    rw [State.pushToken, lanesAt_schedule, lanesAt_modBank]
    rfl

theorem lanesAt_pushTokens (l : List Flight) (s : State) : lanesAt g k (pushTokens g k l s) = lanesAt g k s := by
  refine foldl_keeps (fun s f => ?_) l s
  cases f.push with
  | none => rfl
  | some p => exact (lanesAt_pushToken _ _).trans (lanesAt_modBank s)

theorem lanesAt_pushXA (q : Nat) (v : Vec) (s : State) : lanesAt g k (s.pushXA g k q v) = lanesAt g k s := by
  rw [State.pushXA, lanesAt_schedule, lanesAt_modBank, Bank.setQXA_eq]
  rfl

theorem lanesAt_pushPorts (l : List Flight) (s : State) : lanesAt g k (pushPorts g k l s) = lanesAt g k s := by
  refine foldl_keeps (fun s f => ?_) _ s
  cases f.port with
  | none => rfl
  | some q => exact lanesAt_pushXA ..

theorem lanesAt_makeStores (l : List Host.Cell) (s : State) : lanesAt g k (makeStores g l s) = lanesAt g k s := by
  unfold lanesAt makeStores State.bank
  rw [State.core_modCore, if_pos rfl]
  rfl

theorem lanesAt_endStreamX (s : State) : lanesAt g k (endStreamX g k s) = lanesAt g k s := by
  have hended : lanesAt g k ((s.modBank g k fun b => { b with xEnded := true }).modBank g k fun b => { b with left := b.left - 1 }) = lanesAt g k s :=
    (lanesAt_modBank _).trans (lanesAt_modBank s)
  unfold endStreamX State.streamEnd
  split
  · dsimp only
    split
    · exact hended
    · exact hended
  · rfl

theorem laneShape_landMains {b b' : Bank} (h : laneShape b = laneShape b') (l : List Flight) : laneShape (landMains l b) = laneShape (landMains l b') := by
  induction l generalizing b b' with
  | nil => exact h
  | cons f l ih =>
    refine ih ?_
    obtain ⟨hcycle, hflight, hstores, hcols⟩ : b.xcycle = b'.xcycle ∧ b.inflight = b'.inflight ∧ b.xstores = b'.xstores ∧ b.cols = b'.cols := by
      simpa [laneShape] using h
    unfold laneShape Bank.landMain Bank.modCol Bank.col
    simp only [hcycle, hflight, hstores, hcols]

theorem laneShape_xCycleOver {b b' : Bank} (h : laneShape b = laneShape b') : laneShape (xCycleOver b) = laneShape (xCycleOver b') := by
  obtain ⟨hcycle, hflight, -, hcols⟩ : b.xcycle = b'.xcycle ∧ b.inflight = b'.inflight ∧ b.xstores = b'.xstores ∧ b.cols = b'.cols := by
    simpa [laneShape] using h
  unfold laneShape xCycleOver
  simp only [hcycle, hflight, hcols]

/-- The lanes at the end of an X cycle: what is due lands, and the cycle is over. -/
theorem lanesAt_landX (hx : (s.bank g k).xsysw = []) :
    lanesAt g k (s.landX g k) = laneShape (xCycleOver (landMains (reachPlace (s.bank g k)) (landNow (s.bank g k)))) := by
  have hwrites : deferredWrites g k (s.bank g k).xsysw s = s := by rw [hx]; rfl
  rw [landX_eq, hwrites, lanesAt_endStreamX, lanesAt_modBank]
  refine laneShape_xCycleOver ?_
  show lanesAt g k _ = _
  rw [lanesAt_makeStores, lanesAt_pushPorts, lanesAt_modBank]
  refine laneShape_landMains ?_ _
  show lanesAt g k _ = _
  rw [lanesAt_pushTokens, lanesAt_modBank]

/-! ### What landing leaves of a bank -/

/-- A bank's clock and flags of stream X. -/
def clockShape (b : Bank) : Nat × List Flight × (Fin 4 → BitVec 8 × BitVec 8 × BitVec 8) :=
  (b.xcycle, b.inflight, fun c => ((b.col c).ccs, (b.col c).ccsOld, (b.col c).ccsNext))

theorem clockShape_modCol (b : Bank) (c : Fin 4) {f : Column → Column} (hf : ∀ x, ((f x).ccs, (f x).ccsOld, (f x).ccsNext) = (x.ccs, x.ccsOld, x.ccsNext)) :
    clockShape (b.modCol c f) = clockShape b := by
  refine congrArg (fun x => (b.xcycle, b.inflight, x)) (funext fun c' => ?_)
  rw [Bank.col_modCol]
  split
  · next h => rw [h, hf]
  · rfl

theorem clockShape_landMain (b : Bank) (f : Flight) : clockShape (b.landMain f) = clockShape b := by
  refine clockShape_modCol b _ fun x => ?_
  cases f.kind with
  | scalar =>
    dsimp only
    split
    · split <;> rfl
    · rfl
  | vector =>
    dsimp only
    split <;> rfl
  | pred => rfl

theorem clockShape_landMains (l : List Flight) (b : Bank) : clockShape (landMains l b) = clockShape b :=
  foldl_keeps clockShape_landMain l b

theorem clockShape_landLx (b : Bank) : clockShape b.landLx = clockShape b := by
  refine foldl_keeps (fun b f => ?_) _ b
  refine (clockShape_modCol _ _ fun x => ?_).trans rfl
  split
  · split <;> rfl
  · rfl

theorem clockShape_landO (b : Bank) : clockShape b.landO = clockShape b := by
  refine foldl_keeps (fun b f => ?_) _ b
  split
  · exact clockShape_modCol b _ fun _ => rfl
  · rfl

theorem clockShape_landNow (b : Bank) : clockShape (landNow b) = clockShape b :=
  (clockShape_landO b.landLx).trans (clockShape_landLx b)

theorem col_xCycleOver (b : Bank) (c : Fin 4) : (xCycleOver b).col c = { b.col c with ccsOld := (b.col c).ccs, ccs := (b.col c).ccsNext } := by
  unfold xCycleOver Bank.col Vector.get
  simp

/-! ### Beside the place -/

theorem core_modBank_of_ne {g' : Fin 512} (hg : g' ≠ g) (f : Bank → Bank) (s : State) : (s.modBank g k f).core g' = s.core g' := by
  rw [State.core_modBank, if_neg hg]

theorem core_pushToken_of_ne {g' : Fin 512} (hg : g' ≠ g) (f : Option (Fin 16)) (s : State) : (s.pushToken g k f).core g' = s.core g' := by
  cases f with
  | none => rfl
  | some f =>
    rw [State.pushToken, State.core_schedule, core_modBank_of_ne hg]

theorem core_pushTokens_of_ne {g' : Fin 512} (hg : g' ≠ g) (l : List Flight) (s : State) : (pushTokens g k l s).core g' = s.core g' := by
  refine foldl_keeps (p := fun s : State => s.core g') (fun s f => ?_) l s
  cases f.push with
  | none => rfl
  | some p => exact (core_pushToken_of_ne hg _ _).trans (core_modBank_of_ne hg _ s)

theorem core_pushPorts_of_ne {g' : Fin 512} (hg : g' ≠ g) (l : List Flight) (s : State) : (pushPorts g k l s).core g' = s.core g' := by
  refine foldl_keeps (p := fun s : State => s.core g') (fun s f => ?_) _ s
  cases f.port with
  | none => rfl
  | some q =>
    dsimp only
    rw [State.pushXA, State.core_schedule, core_modBank_of_ne hg]

theorem core_endStreamX_of_ne {g' : Fin 512} (hg : g' ≠ g) (s : State) : (endStreamX g k s).core g' = s.core g' := by
  have hended : ((s.modBank g k fun b => { b with xEnded := true }).modBank g k fun b => { b with left := b.left - 1 }).core g' = s.core g' :=
    (core_modBank_of_ne hg _ _).trans (core_modBank_of_ne hg _ s)
  unfold endStreamX State.streamEnd
  split
  · dsimp only
    split
    · exact hended
    · exact hended
  · rfl

theorem core_landX_of_ne {g' : Fin 512} (hx : (s.bank g k).xsysw = []) (hg : g' ≠ g) : (s.landX g k).core g' = s.core g' := by
  have hwrites : deferredWrites g k (s.bank g k).xsysw s = s := by rw [hx]; rfl
  rw [landX_eq, hwrites, core_endStreamX_of_ne hg, core_modBank_of_ne hg, makeStores, State.core_modCore, if_neg hg, core_pushPorts_of_ne hg,
    core_modBank_of_ne hg, core_pushTokens_of_ne hg, core_modBank_of_ne hg]

end

theorem col_of_lanes {b b' : Bank} (h : laneShape b = laneShape b') (c : Fin 4) : b.col c = b'.col c :=
  congrArg (fun x : Nat × List Flight × List Host.Cell × Vector Column 4 => x.2.2.2.get c) h

theorem xCycle_ends (hx : (evBank s).xsysw = []) : XCycleEnds s (s.landX s.ev.g s.ev.k) := by
  have hlanes := lanesAt_landX hx
  have hclock := (clockShape_landMains (reachPlace (evBank s)) (landNow (evBank s))).trans (clockShape_landNow (evBank s))
  have hmem := memories_landX hx
  have hcores (g : Fin 512) (hg : g ≠ s.ev.g) := core_landX_of_ne hx hg
  generalize s.landX s.ev.g s.ev.k = t at hlanes hmem hcores ⊢
  unfold lanesAt evBank at *
  generalize landMains (reachPlace (s.bank s.ev.g s.ev.k)) (landNow (s.bank s.ev.g s.ev.k)) = b at hlanes hclock
  have hcycle : b.xcycle = (s.bank s.ev.g s.ev.k).xcycle := congrArg (fun x => x.1) hclock
  have hflight : b.inflight = (s.bank s.ev.g s.ev.k).inflight := congrArg (fun x => x.2.1) hclock
  have hccs (c : Fin 4) := congrFun (congrArg (fun x => x.2.2) hclock) c
  refine ⟨?_, ?_, ?_, ?_, fun c => ?_, hcores, congrArg (fun x => x.1) hmem, congrArg (fun x => x.2.1) hmem⟩
  · rw [show (t.bank s.ev.g s.ev.k).xcycle = (xCycleOver b).xcycle from congrArg (fun x => x.1) hlanes]
    exact congrArg (· + 1) hcycle
  · rw [show (t.bank s.ev.g s.ev.k).inflight = (xCycleOver b).inflight from congrArg (fun x => x.2.1) hlanes]
    unfold xCycleOver
    rw [hflight, hcycle]
    rfl
  · exact congrArg (fun x => x.2.2.1) hlanes
  · have hsp := congrFun (congrArg (fun x => x.2.2) hmem) s.ev.g
    exact hsp.trans (if_pos rfl)
  · rw [col_of_lanes hlanes c, col_xCycleOver]
    exact ⟨congrArg (fun x => x.2.2) (hccs c), congrArg (fun x => x.1) (hccs c)⟩

/-- A scalar result that reaches its place alone stands in its register. -/
theorem landMain_scalar {b : Bank} {f : Flight} (hkind : f.kind = .scalar) (hpos : 0 < f.dst.toNat) (hdst : f.dst.toNat < 56) :
    ((b.landMain f).col f.col).x.toList[f.dst.toNat]? = some (f.val.setWidth 32) := by
  have hne : f.dst ≠ 0 := fun h => by rw [h] at hpos; exact absurd hpos (by decide)
  rw [Bank.landMain, Bank.col_modCol, if_pos rfl, hkind]
  dsimp only
  rw [dif_pos hdst, if_neg hne, Vector.getElem?_toList, Vector.getElem?_set_self]

theorem scalar_lands {f : Flight} (hneed : (scalarLands f).need s) : (scalarLands f).holds s (s.landX s.ev.g s.ev.k) := by
  obtain ⟨hx, hin, hkind, hpos, hdst, hland⟩ := hneed
  have hmain : reachPlace (evBank s) = [f] := by
    unfold reachPlace
    rw [hin]
    simp [hland]
  have hlanes := lanesAt_landX hx
  rw [show reachPlace (s.bank s.ev.g s.ev.k) = [f] from hmain] at hlanes
  have hcol := congrArg Column.x ((col_of_lanes hlanes f.col).trans (col_xCycleOver _ f.col))
  show (((s.landX s.ev.g s.ev.k).bank s.ev.g s.ev.k).col f.col).x.toList[f.dst.toNat]? = _
  rw [hcol]
  exact landMain_scalar hkind hpos hdst

end

end Sys2Proof.Machine

/-! SUPPORT. Accesses at their owners: what sends one back, what keeps one waiting, and loads (spec/09 R169-R171, R182, spec/12 R239). -/
namespace Sys2Proof.Machine
open Sys2Proof Sys2Proof.Claims

section
variable {s t u : State} {o : AOp}

/-! ## Accesses that reach their owner (spec/09 R169-R171) -/

/-- The access that arrives as its bank keeps it from here on. -/
def waitingOp (o : AOp) (s : State) : AOp :=
  s.atOwner (evBank s).part o.vas (!o.vas.any fun a => s.atPeer (evBank s).part o.body.writes a) o

/-- The state in which an access looks whether it can perform. -/
def reached (o : AOp) (s : State) : State := s.modBank s.ev.g s.ev.k fun b => b.modOp o.id fun _ => waitingOp o s

theorem arrival_todo (h : Arrives o s) : o.todo = o.vas := by
  obtain ⟨hperformed, -⟩ := h.open_
  obtain ⟨-, hdone, -, -⟩ := h.fresh
  unfold AOp.todo
  rw [hperformed, if_neg Bool.false_ne_true, hdone]
  exact List.filter_eq_self.2 fun a _ => decide_eq_true a.zero_le

theorem arrival_pages (h : Arrives o s) : s.badPages (evBank s).part o.vas o.body.writes = [] := by
  unfold State.badPages
  rw [List.filterMap_eq_nil_iff]
  intro x hx
  rw [(h.pages x hx).2]
  rfl

theorem arrival_hits (h : Arrives o s) : ((pagesOf o.vas).filter fun x => (s.tlbMiss (evBank s).part x).isSome) = [] := by
  rw [List.filter_eq_nil_iff]
  intro x hx
  rw [(h.pages x hx).1]
  decide

theorem arrival_exec (h : Arrives o s) : execGlobalAccessAtOwner s = .next (s.accessStep s.ev.g s.ev.k o) := by
  obtain ⟨hperformed, hfault⟩ := h.open_
  obtain ⟨hxlat, -, -, hwords⟩ := h.fresh
  have herrors : s.sectorErrors = s := by
    unfold State.sectorErrors
    rw [hwords]
    rfl
  unfold execGlobalAccessAtOwner
  dsimp only
  rw [show (s.bank s.ev.g s.ev.k).ops.find? _ = some o from h.found]
  dsimp only
  rw [hperformed, hfault, herrors, hxlat]
  rfl

/-- An access that arrives goes back, when its target is irrevocable, or looks whether it can perform. -/
theorem arrival_step (h : Arrives o s) : s.accessStep s.ev.g s.ev.k o =
    if s.badTarget (evBank s).part o then s.accessFaults s.ev.g s.ev.k o 17 (some false)
    else (reached o s).accessPart s.ev.g s.ev.k (waitingOp o s) o.vas o.vas (s.partOf (evBank s).part o.vas).2 := by
  have hbytes : o.vas.isEmpty = false := by
    rw [List.isEmpty_eq_false_iff]
    exact h.bytes
  have hgot : o.got = [] := h.fresh.2.2.1
  unfold State.accessStep
  dsimp only
  rw [arrival_todo h, show (s.bank s.ev.g s.ev.k).part = (evBank s).part from rfl, arrival_hits h, arrival_pages h, h.leaf, arrival_pages h, hbytes, hgot]
  simp only [List.isEmpty_nil, Bool.not_true, Bool.false_eq_true, if_false, List.any_nil, Bool.not_false, Bool.and_true, Bool.true_and]
  rfl

theorem modOp_ids {b : Bank} {id : Nat} {f : AOp → AOp} (hf : ∀ x, x.id = id → (f x).id = id) :
    (b.modOp id f).ops.map (fun x => x.id) = b.ops.map fun x => x.id := by
  refine (List.map_map ..).trans (List.map_congr_left fun x _ => ?_)
  show (if x.id == id then f x else x).id = x.id
  split
  · next h => rw [hf x (beq_iff_eq.1 h), beq_iff_eq.1 h]
  · rfl

theorem mem_modOp {b : Bank} {id : Nat} {f : AOp → AOp} {x : AOp} (hx : x ∈ (b.modOp id f).ops) (hid : x.id = id) :
    ∃ y ∈ b.ops, y.id = id ∧ x = f y := by
  obtain ⟨y, hy, hxy⟩ := List.mem_map.1 hx
  by_cases h : y.id = id
  · rw [if_pos (beq_iff_eq.2 h)] at hxy
    exact ⟨y, hy, h, hxy.symm⟩
  · rw [if_neg fun e => h (beq_iff_eq.1 e)] at hxy
    exact absurd (hxy ▸ hid) h

theorem bank_modBank_self (g : Fin 512) (k : Fin 3) (f : Bank → Bank) (s : State) : (s.modBank g k f).bank g k = f (s.bank g k) :=
  (State.bank_modBank ..).trans (if_pos ⟨rfl, rfl⟩)

theorem modBank_memory (g : Fin 512) (k : Fin 3) (f : Bank → Bank) (s : State) : SameMemory s (s.modBank g k f) :=
  sameMemory_of_memories (memories_modBank s f)

theorem target_bad (hneed : (badTargets o).need s) : ∃ t, execGlobalAccessAtOwner s = .next t ∧ (badTargets o).holds s t := by
  obtain ⟨harrives, hbad⟩ := hneed
  refine ⟨s.accessFaults s.ev.g s.ev.k o 17 (some false), ?_, ?_, mem_scheduleAt_self ..,
    sameMemory_trans (modBank_memory ..) (Beside.schedule ..).memory⟩
  · rw [arrival_exec harrives, arrival_step harrives, hbad, if_pos rfl]
  · intro x hx hid
    have hops : ((s.accessFaults s.ev.g s.ev.k o 17 (some false)).bank s.ev.g s.ev.k) =
        (evBank s).modOp o.id fun (x : AOp) => { x with fault := 17, answer := some false } := by
      rw [State.accessFaults, State.bank_schedule, bank_modBank_self]
      rfl
    rw [hops] at hx
    obtain ⟨y, -, -, rfl⟩ := mem_modOp hx hid
    exact ⟨rfl, rfl⟩

/-! ### What keeps it waiting -/

theorem reached_bank (o : AOp) (s : State) : (reached o s).bank s.ev.g s.ev.k = (evBank s).modOp o.id fun _ => waitingOp o s := bank_modBank_self ..

theorem reached_memory (o : AOp) (s : State) : SameMemory s (reached o s) := modBank_memory ..

/-- The access looks again in the next cycle. -/
def againAt (o : AOp) (s t : State) : State := t.schedule 1 .globalAccessAtOwner { EvArgs.at s.ev.g s.ev.k with id := o.id }

theorem again_looks (h : Beside (reached o s) t) : LooksAgain o s (againAt o s t) := by
  refine ⟨?_, sameMemory_trans (reached_memory o s) (h.trans (Beside.schedule ..)).memory⟩
  unfold Planned
  rw [show s.cycle = t.cycle from h.cycle.symm]
  exact mem_scheduleAt_self ..

theorem live_any_modOp {b : Bank} {id : Nat} {f : AOp → AOp} {p : AOp → Bool} (hp : ∀ x, x.id = id → p (f x) = p x) :
    (b.modOp id f).live.any p = b.live.any p := by
  have hops : (b.ops.map fun (x : AOp) => if x.id == id then f x else x).any p = b.ops.any p := by
    rw [List.any_map]
    refine congrArg (List.any b.ops) (funext fun x => ?_)
    show p (if x.id == id then f x else x) = p x
    split
    · next h => exact hp x (beq_iff_eq.1 h)
    · rfl
  unfold Bank.live Bank.modOp
  rw [List.any_append, List.any_append, hops]

theorem mayPerform_reached : (reached o s).mayPerform ((reached o s).bank s.ev.g s.ev.k) (waitingOp o s) o.vas = s.mayPerform (evBank s) o o.vas := by
  have hacquires : ((waitingOp o s).after.any fun i => ((reached o s).bank s.ev.g s.ev.k).live.any fun x => x.id == i) =
      o.after.any fun i => (evBank s).live.any fun x => x.id == i := by
    refine congrArg (List.any o.after) (funext fun i => ?_)
    rw [reached_bank]
    refine live_any_modOp fun x hx => ?_
    show (o.id == i) = (x.id == i)
    rw [hx]
  have hearlier : (((reached o s).bank s.ev.g s.ev.k).live.any fun x =>
        decide (x.id < o.id) && (reached o s).follows ((reached o s).bank s.ev.g s.ev.k).part o.cls o.body o.vas x) =
      (evBank s).live.any fun x => decide (x.id < o.id) && s.follows (evBank s).part o.cls o.body o.vas x := by
    rw [reached_bank]
    refine live_any_modOp fun x hx => ?_
    have hself : decide ((waitingOp o s).id < o.id) = false := decide_eq_false (lt_irrefl o.id)
    rw [hself, hx, decide_eq_false (lt_irrefl o.id), Bool.false_and, Bool.false_and]
  unfold State.mayPerform
  rw [hacquires]
  exact congrArg (fun b => _ && !b) hearlier

theorem access_waits (hneed : (accessWaits o).need s) : ∃ t, execGlobalAccessAtOwner s = .next t ∧ (accessWaits o).holds s t := by
  obtain ⟨harrives, hbad, x, hx, hwhy⟩ := hneed
  have hmay : s.mayPerform (evBank s) o o.vas = false := by
    unfold State.mayPerform
    rcases hwhy with hafter | ⟨hid, hfollows⟩
    · have hacquire : (o.after.any fun i => (evBank s).live.any fun x => x.id == i) = true :=
        List.any_eq_true.2 ⟨x.id, hafter, List.any_eq_true.2 ⟨x, hx, beq_self_eq_true x.id⟩⟩
      rw [hacquire]
      rfl
    · have hlater : (evBank s).live.any (fun x => decide (x.id < o.id) && s.follows (evBank s).part o.cls o.body o.vas x) = true :=
        List.any_eq_true.2 ⟨x, hx, by rw [decide_eq_true hid, hfollows]; rfl⟩
      rw [hlater, Bool.not_true, Bool.and_false]
  refine ⟨againAt o s (reached o s), ?_, again_looks (Beside.refl _)⟩
  rw [arrival_exec harrives, arrival_step harrives, hbad, if_neg Bool.false_ne_true]
  unfold State.accessPart
  dsimp only
  rw [mayPerform_reached, hmay, Bool.not_false, if_pos rfl]
  rfl

/-! ### What it meets when it may perform -/

theorem free_may (h : MayPerform o s) : s.mayPerform (evBank s) o o.vas = true := by
  have hacquires : (o.after.any fun i => (evBank s).live.any fun x => x.id == i) = false := by
    rw [List.any_eq_false]
    intro i hi
    rw [Bool.not_eq_true, List.any_eq_false]
    exact fun x hx hid => h.order i hi x hx (beq_iff_eq.1 hid)
  have hearlier : ((evBank s).live.any fun x => decide (x.id < o.id) && s.follows (evBank s).part o.cls o.body o.vas x) = false := by
    rw [List.any_eq_false]
    intro x hx hboth
    obtain ⟨hid, hfollows⟩ := Bool.and_eq_true_iff.1 hboth
    rw [h.earlier x hx (of_decide_eq_true hid)] at hfollows
    exact Bool.false_ne_true hfollows
  unfold State.mayPerform
  rw [hacquires, hearlier]
  rfl

theorem free_here (h : MayPerform o s) (wr : Bool) {a : Nat} (ha : a ∈ o.vas) : s.atPeer (evBank s).part wr a = false := by
  unfold State.atPeer
  split
  · next x off heq => exact absurd heq (h.here a ha x off)
  · rfl

theorem free_unasked (h : MayPerform o s) (p : Nat → Bool) : (o.vas.filter fun a => s.atPeer (evBank s).part o.body.writes a && p a) = [] := by
  rw [List.filter_eq_nil_iff]
  intro a ha
  rw [free_here h _ ha, Bool.false_and]
  exact Bool.false_ne_true

theorem unmerged_unblocked (h : ∀ d k, (s.stack d k).merges = []) (p : Fin 8) (vas : List Nat) : s.mergesBlocked p vas = none := by
  unfold State.mergesBlocked
  rw [List.findSome?_eq_none_iff]
  intro a _
  split
  · rw [h]
    rfl
  · rfl

theorem reached_part (o : AOp) (s : State) : ((reached o s).bank s.ev.g s.ev.k).part = (evBank s).part := by
  rw [reached_bank]
  rfl

theorem races_reached (h : MayPerform o s) {x : AOp} (hx : x ∈ ((evBank s).modOp o.id fun _ => waitingOp o s).ops) :
    s.races (evBank s).part o x o.vas = false := by
  obtain ⟨y, hy, rfl⟩ := List.mem_map.1 hx
  split
  · have hself : (o.id != (waitingOp o s).id) = false := bne_self_eq_false o.id
    unfold State.races
    rw [hself]
    rfl
  · exact h.races y hy

theorem free_early (h : MayPerform o s) : (reached o s).raceEarly s.ev.g s.ev.k (waitingOp o s) o.vas = reached o s := by
  have hnone : (((reached o s).bank s.ev.g s.ev.k).ops.any fun x => (reached o s).races (evBank s).part (waitingOp o s) x o.vas) = false := by
    rw [reached_bank, List.any_eq_false]
    intro x hx hraces
    rw [show (reached o s).races (evBank s).part (waitingOp o s) x o.vas = _ from races_reached h hx] at hraces
    exact Bool.false_ne_true hraces
  unfold State.raceEarly
  dsimp only
  rw [reached_part, hnone, Bool.not_false, if_pos rfl]

/-- What an access that may perform does when it is told what keeps its bytes from performing. -/
def goesOrWaits (o : AOp) (s : State) : Option Nat → State
  | some why => againAt o s ((reached o s).raiseBlocked (evBank s).part (dieOf s.ev.g) true o.vas why)
  | none => ((reached o s).perform s.ev.g s.ev.k (waitingOp o s) o.vas true).1.performed s.ev.g s.ev.k
      ((reached o s).perform s.ev.g s.ev.k (waitingOp o s) o.vas true).2 ((reached o s).perform s.ev.g s.ev.k (waitingOp o s) o.vas true).2.result

/-- An access that may perform does so where its bytes find room. -/
theorem free_goes (h : MayPerform o s) (htarget : s.badTarget (evBank s).part o = false) : execGlobalAccessAtOwner s =
    .next (goesOrWaits o s (if o.storesNow then s.storeBlocked (evBank s).part (dieOf s.ev.g) true o.vas else none)) := by
  have hasked (p : Nat → Bool) : (o.vas.filter fun a => (reached o s).atPeer (evBank s).part (waitingOp o s).body.writes a && p a) = [] := free_unasked h p
  have hmerges : (reached o s).mergesBlocked (evBank s).part o.vas = none := unmerged_unblocked (s := reached o s) h.merges _ _
  rw [arrival_exec h.toArrives, arrival_step h.toArrives, htarget, if_neg Bool.false_ne_true]
  unfold State.accessPart
  dsimp only
  rw [mayPerform_reached, free_may h, Bool.not_true, if_neg Bool.false_ne_true, reached_part, hasked, List.isEmpty_nil, Bool.not_true,
    if_neg Bool.false_ne_true, hmerges, free_early h, beq_self_eq_true]
  show Host.Outcome.next (match (if o.storesNow then s.storeBlocked (evBank s).part (dieOf s.ev.g) true o.vas else none) with | some why => _ | none => _) = _
  cases (if o.storesNow then s.storeBlocked (evBank s).part (dieOf s.ev.g) true o.vas else none) with
  | none => rfl
  | some why => rfl

/-! ### A full overflow table (spec/09 R182) -/

theorem findSome_of_only {α β : Type} {f : α → Option β} {c : β} {l : List α} (hf : ∀ x ∈ l, f x = none ∨ f x = some c) (hex : ∃ x ∈ l, f x ≠ none) :
    l.findSome? f = some c := by
  induction l with
  | nil => simp at hex
  | cons a l ih =>
    rcases hf a List.mem_cons_self with ha | ha
    · rw [List.findSome?_cons, ha]
      refine ih (fun x hx => hf x (List.mem_cons_of_mem a hx)) ?_
      obtain ⟨x, hx, hne⟩ := hex
      rcases List.mem_cons.1 hx with rfl | hx
      · exact absurd ha hne
      · exact ⟨x, hx, hne⟩
    · rw [List.findSome?_cons, ha]

/-- What keeps a byte of a die from performing where there is room for its undo record. -/
theorem byte_blocked {p d die : Fin 8} {va pa : Nat} {a : BitVec 9} (hloc : s.locate p va = .dev d pa a) (hirr : attrIRR a = false)
    (hroom : s.needsRecord p d pa = true → (s.stack d (stackOf pa)).undo.length < (s.part p).hwm.toNat) :
    s.storeBlocked p die true [va] = if s.overflowFull d pa then some 3 else none := by
  have hrecord : (true && s.needsRecord p d pa && decide ((s.part p).hwm.toNat ≤ (s.stack d (stackOf pa)).undo.length)) = false := by
    rw [Bool.true_and, Bool.and_eq_false_imp]
    exact fun h => decide_eq_false (Nat.not_le.2 (hroom h))
  have hrevocable : s.irrevocable p (.dev d pa a) = false := hirr
  unfold State.storeBlocked
  rw [List.findSome?_singleton, hloc]
  dsimp only
  rw [hrevocable, hrecord, if_neg Bool.false_ne_true, if_neg Bool.false_ne_true]

theorem storeBlocked_bytes (p die : Fin 8) (tagged : Bool) (vas : List Nat) (s : State) :
    s.storeBlocked p die tagged vas = vas.findSome? fun va => s.storeBlocked p die tagged [va] := by
  unfold State.storeBlocked
  simp only [List.findSome?_singleton]

theorem overflow_blocks {p d die : Fin 8} {va pa n : Nat} (hin : InDie p va n d pa s)
    (hroom : ∀ i, i < n → s.needsRecord p d (pa + i) = true → (s.stack d (stackOf (pa + i))).undo.length < (s.part p).hwm.toNat)
    (hfull : OverflowFull d pa n s) : s.storeBlocked p die true (upTo va n) = some 3 := by
  have hbyte (i : Nat) (hi : i < n) : s.storeBlocked p die true [va + i] = if s.overflowFull d (pa + i) then some 3 else none := by
    obtain ⟨a, hloc, hirr⟩ := hin i hi
    exact byte_blocked hloc hirr (hroom i hi)
  rw [storeBlocked_bytes]
  refine findSome_of_only (fun x hx => ?_) ?_
  · obtain ⟨hlo, hhi⟩ := (mem_upTo va n x).1 hx
    rw [show x = va + (x - va) by omega, hbyte (x - va) (by omega)]
    split
    · exact Or.inr rfl
    · exact Or.inl rfl
  · obtain ⟨i, hi, hov⟩ := hfull
    refine ⟨va + i, (mem_upTo va n _).2 ⟨by omega, by omega⟩, ?_⟩
    rw [hbyte i hi, show s.overflowFull d (pa + i) = true from hov, if_pos rfl]
    exact Option.some_ne_none 3

theorem raiseOverflow_beside (d : Fin 8) (pa : Nat) (s : State) : Beside s (s.raiseOverflow d pa) := ⟨rfl, rfl, rfl, rfl, rfl, fun _ h => h⟩

theorem raiseBlocked_beside (p die : Fin 8) (tagged : Bool) (vas : List Nat) (s : State) : Beside s (s.raiseBlocked p die tagged vas 3) := by
  unfold State.raiseBlocked
  generalize s.locate p _ = l
  cases l with
  | dev d pa a => exact raiseOverflow_beside d pa s
  | host a w => exact Beside.refl s
  | peer a off => exact Beside.refl s
  | fault k => exact Beside.refl s

/-- A write of a die's bytes meets a full overflow table and looks again. -/
theorem full_looks {d : Fin 8} {pa n : Nat} (h : MayPerform o s) (htarget : s.badTarget (evBank s).part o = false) (hstores : o.storesNow = true)
    (hvas : o.vas = upTo o.va.toNat n) (hin : InDie (evBank s).part o.va.toNat n d pa s) (hroom : UndoRoom d pa n s) (hfull : OverflowFull d pa n s) :
    ∃ t, execGlobalAccessAtOwner s = .next t ∧ LooksAgain o s t := by
  refine ⟨_, ?_, again_looks (raiseBlocked_beside (evBank s).part (dieOf s.ev.g) true o.vas (reached o s))⟩
  rw [free_goes h htarget, hstores, if_pos rfl, hvas, overflow_blocks hin hroom hfull]
  rw [← hvas]
  rfl

/-! ### Loads and loads of elements (spec/10 R195-R197, spec/12 R239) -/

theorem unmerged_flush (h : ∀ d k, (s.stack d k).merges = []) (p : Fin 8) (vas : List Nat) : s.flushAt p vas = s := by
  have hall (d : Fin 8) : ((s.die d).hbmStacks.toList.all fun t => t.merges.isEmpty) = true := by
    rw [List.all_eq_true]
    intro t ht
    obtain ⟨k, hk, rfl⟩ := List.mem_iff_getElem.1 ht
    rw [Vector.getElem_toList]
    exact List.isEmpty_iff.2 (h d ⟨k, by simpa using hk⟩)
  exact List.foldl_fixed' (fun d => if_pos (hall d)) (List.finRange 8)

theorem sound_consume {p : Fin 8} {vas : List Nat} (h : s.poisonIds p vas = []) : s.consume p vas = s := by
  unfold State.consume
  rw [h]

theorem find_read {β : Type} (f : Nat → β) {a : Nat} {l : List Nat} (ha : a ∈ l) : ((l.map fun a => (a, f a)).find? fun x => x.1 == a) = some (a, f a) := by
  induction l with
  | nil => cases ha
  | cons b l ih =>
    rw [List.map_cons, List.find?_cons]
    by_cases hb : b = a
    · simp [hb]
    · rw [beq_false_of_ne (show (b, f b).1 ≠ a from hb)]
      exact ih ((List.mem_cons.1 ha).resolve_left fun e => hb e.symm)

theorem readLoc_held (held : List HeldLine) (a : Nat) (l : Loc) (s : State) :
    s.readLoc held a l = (match heldByte held a with | some b => b | none => s.readLoc [] a l) := by
  unfold State.readLoc
  cases heldByte held a <;> rfl

/-- An access that has read a list of bytes has the value of those of a run among them. -/
theorem gotLE_read {vas : List Nat} {va n : Nat} (p : Fin 8) (h : ∀ a ∈ upTo va n, a ∈ vas) (s : State) :
    gotLE (s.readPart p [] vas) va n = s.readVa (s.heldLines p) p va n := by
  unfold gotLE State.readVa State.readPart
  refine congrArg leNat (List.map_congr_left fun a ha => ?_)
  dsimp only
  rw [find_read _ (h a ha), readLoc_held (s.heldLines p) a (s.locate p a)]
  cases heldByte (s.heldLines p) a <;> rfl

/-- An access performs at its owner, in a state that differs from the one it looked in beside the cores alone. -/
theorem performed_performs {m : State} {r : AOp} {v : Vec} (hid : r.id = o.id) (hm : Beside (reached o s) m) (hwait : (waitingOp o s).confirmed = true) {n : Nat}
    (hn : (if r.body.returns then m.oneWay s.ev.g r.va.toNat + m.hbmTime (m.bank s.ev.g s.ev.k).part r.va.toNat else 0) = n) :
    Performed o v n s (m.performed s.ev.g s.ev.k r v) := by
  have hbank : (m.performed s.ev.g s.ev.k r v).bank s.ev.g s.ev.k =
      ((evBank s).modOp o.id fun _ => waitingOp o s).modOp o.id fun (x : AOp) => { x with performed := true, result := v } := by
    rw [State.performed, State.bank_schedule, bank_modBank_self, hm.bank, reached_bank, hid]
  refine ⟨fun x hx hxid => ?_, ?_, ?_⟩
  · rw [hbank] at hx
    obtain ⟨y, hy, hyid, rfl⟩ := mem_modOp hx hxid
    obtain ⟨z, -, -, rfl⟩ := mem_modOp hy hyid
    exact ⟨rfl, hwait, rfl⟩
  · rw [hbank]
    exact (modOp_ids (f := fun (x : AOp) => { x with performed := true, result := v }) fun x h => h).trans
      (modOp_ids (f := fun _ => waitingOp o s) fun _ _ => rfl)
  · unfold Planned State.performed
    dsimp only
    rw [hn, hid, show s.cycle = m.cycle from hm.cycle.symm]
    exact mem_scheduleAt_self ..

theorem free_confirmed (h : MayPerform o s) : (waitingOp o s).confirmed = true := by
  show (!o.vas.any fun a => s.atPeer (evBank s).part o.body.writes a) = true
  rw [Bool.not_eq_true', List.any_eq_false]
  intro a ha
  rw [free_here h _ ha]
  exact Bool.false_ne_true

/-- The access with what it has read. -/
def readOp (o : AOp) (s : State) (v : Vec) : AOp :=
  { waitingOp o s with got := (reached o s).readPart (evBank s).part [] o.vas, result := v }

/-- The value of a run of bytes as memory and held lines have it. -/
def valueAt (s : State) (a n : Nat) : Nat := s.readVa (s.heldLines (evBank s).part) (evBank s).part a n

theorem perform_load {n : Nat} (h : MayPerform o s) (hbody : o.body = .load n) (hdst : ∀ a i, o.dst ≠ .acc a i) :
    (reached o s).perform s.ev.g s.ev.k (waitingOp o s) o.vas true = (reached o s, readOp o s (BitVec.ofNat 1024 (valueAt s o.va.toNat n))) := by
  have hvas : o.vas = upTo o.va.toNat n := by unfold AOp.vas AOp.range; rw [hbody]
  have hgot : (waitingOp o s).got = [] := h.fresh.2.2.1
  have hread : gotLE ((reached o s).readPart (evBank s).part [] o.vas) (waitingOp o s).va.toNat n = valueAt s o.va.toNat n :=
    gotLE_read (evBank s).part (fun a ha => hvas ▸ ha) (reached o s)
  have hconsume : (reached o s).consume (evBank s).part o.vas = reached o s := sound_consume (s := reached o s) h.sound
  have hbody' : (waitingOp o s).body = .load n := hbody
  have hdst' (a : Fin 4) (i : Bool) : (waitingOp o s).dst ≠ .acc a i := hdst a i
  unfold State.perform
  dsimp only
  rw [reached_part, unmerged_flush (s := reached o s) h.merges, hbody']
  dsimp only
  rw [Bool.not_false, if_pos rfl, hconsume, hgot, List.filter_nil, List.nil_append, hread]
  split
  · next a i heq => exact absurd heq (hdst' a i)
  · rw [readOp, hbody']

theorem load_performs {n : Nat} (hneed : (loadPerforms o n).need s) : ∃ t, execGlobalAccessAtOwner s = .next t ∧ (loadPerforms o n).holds s t := by
  obtain ⟨hmay, hbody, hdst⟩ := hneed
  have htarget : s.badTarget (evBank s).part o = false := by unfold State.badTarget; rw [hbody]; rfl
  have hstores : o.storesNow = false := by unfold AOp.storesNow; rw [hbody]; rfl
  refine ⟨(reached o s).performed s.ev.g s.ev.k (readOp o s (BitVec.ofNat 1024 (valueAt s o.va.toNat n))) (BitVec.ofNat 1024 (valueAt s o.va.toNat n)),
    ?_, performed_performs rfl (Beside.refl _) (free_confirmed hmay) ?_, ?_⟩
  · rw [free_goes hmay htarget, hstores, if_neg Bool.false_ne_true, goesOrWaits, perform_load hmay hbody hdst]
    rfl
  · show (if o.body.returns then _ else 0) = _
    rw [hbody, reached_part]
    rfl
  · exact sameMemory_trans (reached_memory o s) (sameMemory_trans (modBank_memory ..) (Beside.schedule ..).memory)

theorem mem_elements {l : List LaneSpec} {x : LaneSpec} {a : Nat} (hbody : o.body = .gather l) (hx : x ∈ l) (ha : a ∈ upTo x.va (elemBytes x.fmt)) : a ∈ o.vas := by
  unfold AOp.vas
  rw [hbody]
  exact List.mem_flatMap.2 ⟨x, hx, ha⟩

/-- The value of an element depends on its own bytes alone. -/
theorem decodeLane_congr {rd rd' : Nat → Nat → Nat} {x : LaneSpec} (h : rd x.va (elemBytes x.fmt) = rd' x.va (elemBytes x.fmt)) :
    decodeLane rd x = decodeLane rd' x := by
  unfold decodeLane
  cases hfmt : x.fmt <;> (rw [hfmt] at h; dsimp only [elemBytes] at h ⊢; rw [h])

theorem gathered_read {l : List LaneSpec} (hbody : o.body = .gather l) :
    gathered ((reached o s).readPart (evBank s).part [] o.vas) l = ofLanes fun i => match l.find? fun x => x.lane == i with
      | some x => (decodeLane (valueAt s) x).1
      | none => 0 := by
  unfold gathered
  refine congrArg ofLanes (funext fun i => ?_)
  cases hfind : l.find? fun x => x.lane == i with
  | none => rfl
  | some x =>
    have hx : x ∈ l := List.mem_of_find?_eq_some hfind
    exact congrArg Prod.fst (decodeLane_congr (gotLE_read (evBank s).part (fun a ha => mem_elements hbody hx ha) (reached o s)))

theorem provAccess_beside (g : Fin 512) (k : Fin 3) (sfc : BitVec 48) (pc : Word) (fmt : Nat) (ev : List PEvent) (s : State) :
    Beside s (s.provAccess g k sfc pc fmt ev) := Beside.foldl (fun _ _ => Beside.provRecord ..) _ s

/-- The value that a load of elements returns. -/
def elementsAt (s : State) (l : List LaneSpec) : Vec := ofLanes fun i => match l.find? fun x => x.lane == i with
  | some x => (decodeLane (valueAt s) x).1
  | none => 0

/-- Two states of one memory map: they place every byte alike. -/
structure SameMap (s t : State) : Prop where
  parts : t.parts = s.parts
  dev : t.dev = s.dev
  hbm : t.hbm = s.hbm
  walks : ∀ d, ((t.die d).tlb, (t.die d).xlatroot) = ((s.die d).tlb, (s.die d).xlatroot)

theorem SameMap.refl (s : State) : SameMap s s := ⟨rfl, rfl, rfl, fun _ => rfl⟩
theorem SameMap.trans (h : SameMap s t) (h' : SameMap t u) : SameMap s u :=
  ⟨h'.parts.trans h.parts, h'.dev.trans h.dev, h'.hbm.trans h.hbm, fun d => (h'.walks d).trans (h.walks d)⟩

theorem SameMap.locate (h : SameMap s t) (p : Fin 8) (va : Nat) : t.locate p va = s.locate p va := by
  have hrank (p : Fin 8) (r : Nat) : t.dieOfRank p r = s.dieOfRank p r := dieOfRank_of_ndies (fun p => by rw [part_of_parts h.parts]) p r
  have hwalk (d : Fin 8) (off : Nat) : t.xlat d off = s.xlat d off := by
    unfold State.xlat
    rw [h.hbm, show (t.die d).tlb = (s.die d).tlb from congrArg Prod.fst (h.walks d),
      show (t.die d).xlatroot = (s.die d).xlatroot from congrArg Prod.snd (h.walks d)]
  unfold State.locate State.pasid
  simp only [hrank, hwalk, h.dev, part_of_parts h.parts]

theorem SameMap.modDie {f : Die → Die} (hf : ∀ x, ((f x).tlb, (f x).xlatroot) = (x.tlb, x.xlatroot)) (d : Fin 8) (s : State) : SameMap s (s.modDie d f) := by
  refine ⟨rfl, rfl, rfl, fun d' => ?_⟩
  rw [State.die_modDie]
  split
  · next h => rw [h, hf]
  · rfl

theorem SameMap.provAccess (g : Fin 512) (k : Fin 3) (sfc : BitVec 48) (pc : Word) (fmt : Nat) (ev : List PEvent) (s : State) :
    SameMap s (s.provAccess g k sfc pc fmt ev) := by
  refine List.foldlRecOn (motive := SameMap s) _ _ (SameMap.refl s) fun m hm x _ => hm.trans ?_
  refine SameMap.modDie (fun x => ?_) _ m
  split <;> rfl

/-- The format that the provenance of a load of elements names. -/
def firstFormat : List LaneSpec → Nat
  | x :: _ => fmtCode x.fmt
  | [] => 0

theorem perform_gather {l : List LaneSpec} (h : MayPerform o s) (hbody : o.body = .gather l) : ∃ fmt events,
    (reached o s).perform s.ev.g s.ev.k (waitingOp o s) o.vas true =
      ((reached o s).provAccess s.ev.g s.ev.k o.sfc o.pc fmt events, readOp o s (elementsAt s l)) := by
  have hgot : (waitingOp o s).got = [] := h.fresh.2.2.1
  have hconsume : (reached o s).consume (evBank s).part o.vas = reached o s := sound_consume (s := reached o s) h.sound
  have hbody' : (waitingOp o s).body = .gather l := hbody
  have hread : gathered ((reached o s).readPart (evBank s).part [] o.vas) l = elementsAt s l := gathered_read hbody
  refine ⟨firstFormat l, decodeEvents (gotLE ((reached o s).readPart (evBank s).part [] o.vas)) l, ?_⟩
  unfold State.perform
  dsimp only
  rw [reached_part, unmerged_flush (s := reached o s) h.merges, hbody']
  dsimp only
  simp only [Bool.not_false, if_true, hconsume, hgot, List.filter_nil, List.nil_append, hread]
  rw [readOp, hbody']
  cases l <;> rfl

theorem gather_performs {l : List LaneSpec} (hneed : (gatherPerforms o l).need s) :
    ∃ t, execGlobalAccessAtOwner s = .next t ∧ (gatherPerforms o l).holds s t := by
  obtain ⟨hmay, hbody⟩ := hneed
  have htarget : s.badTarget (evBank s).part o = false := by unfold State.badTarget; rw [hbody]; rfl
  have hstores : o.storesNow = false := by unfold AOp.storesNow; rw [hbody]; rfl
  obtain ⟨fmt, events, hperform⟩ := perform_gather hmay hbody
  have hbeside := provAccess_beside s.ev.g s.ev.k o.sfc o.pc fmt events (reached o s)
  have hmap := SameMap.provAccess s.ev.g s.ev.k o.sfc o.pc fmt events (reached o s)
  generalize (reached o s).provAccess s.ev.g s.ev.k o.sfc o.pc fmt events = m at hperform hbeside hmap
  refine ⟨m.performed s.ev.g s.ev.k (readOp o s (elementsAt s l)) (elementsAt s l), ?_,
    performed_performs rfl hbeside (free_confirmed hmay) ?_, ?_⟩
  · rw [free_goes hmay htarget, hstores, if_neg Bool.false_ne_true, goesOrWaits, hperform]
    rfl
  · show (if o.body.returns then m.oneWay s.ev.g o.va.toNat + m.hbmTime _ o.va.toNat else 0) = _
    rw [hbody, hbeside.bank, reached_part, oneWay_of_ndies (s := reached o s) (fun p => by rw [part_of_parts hmap.parts])]
    unfold State.hbmTime
    rw [hmap.locate]
    rfl
  · exact sameMemory_trans (reached_memory o s) (sameMemory_trans hbeside.memory (sameMemory_trans (modBank_memory ..) (Beside.schedule ..).memory))

end

end Sys2Proof.Machine

/-! SUPPORT. The table of the steps between the words of a stream, up to the value of one free function. A store that performs keeps
the result its access came with, and `storePerforms` gives it the result 0 without asking that the access has 0 there; that shows wherever
the overflow table has room. Whether it ever has is `Config.overflowFull`, an opaque constant. So the table holds if every overflow table
is full (`streamSteps_of_tables`), and only if that of the first stack is (`table_of_streamSteps`). -/
namespace Sys2Proof.Machine
open Sys2Proof Sys2Proof.Claims

section
variable {s t u : State} {o : AOp}

/-! ## Stores and atomics: the part of their rows that holds (spec/09 R182, spec/12 R244) -/

/-- The overflow table of every stack is full, whatever its extension holds. -/
def TablesFull : Prop := ∀ free d k gib, Config.overflowFull free d k gib = true

theorem full_of_tables (h : TablesFull) (d : Fin 8) (pa : Nat) {n : Nat} (hn : 0 < n) : OverflowFull d pa n s := ⟨0, hn, h ..⟩

theorem store_looks {l : List Byte} {d : Fin 8} {pa : Nat} (htables : TablesFull) (hneed : (storePerforms o l d pa).need s) :
    ∃ t, execGlobalAccessAtOwner s = .next t ∧ (storePerforms o l d pa).holds s t := by
  obtain ⟨hmay, hbody, hin, hroom, -⟩ := hneed
  have htarget : s.badTarget (evBank s).part o = false := by unfold State.badTarget; rw [hbody]; rfl
  have hstores : o.storesNow = true := by unfold AOp.storesNow; rw [hbody]; rfl
  have hvas : o.vas = upTo o.va.toNat l.length := by unfold AOp.vas AOp.range; rw [hbody]
  have hpos : 0 < l.length := by
    by_contra h
    have hbytes := hmay.bytes
    rw [hvas, Nat.eq_zero_of_not_pos h] at hbytes
    exact hbytes rfl
  have hfull : OverflowFull d pa l.length s := full_of_tables htables d pa hpos
  obtain ⟨t, hexec, hlooks⟩ := full_looks hmay htarget hstores hvas hin hroom hfull
  exact ⟨t, hexec, fun h => absurd hfull h, fun _ => hlooks⟩

theorem atomic_looks {op : AtomOp} {w : Bool} {v e : DWord} {ret : Bool} {d : Fin 8} {pa : Nat} (htables : TablesFull)
    (hneed : (atomicPerforms o op w v e ret d pa).need s) :
    ∃ t, execGlobalAccessAtOwner s = .next t ∧ (atomicPerforms o op w v e ret d pa).holds s t := by
  obtain ⟨hmay, hbody, -, hordered, hin, hroom, -, -⟩ := hneed
  have hpos : 0 < width w := by unfold width; split <;> decide
  have htarget : s.badTarget (evBank s).part o = false := by
    obtain ⟨a, hloc, hirr⟩ := hin 0 hpos
    unfold State.badTarget
    rw [show s.locate (evBank s).part o.va.toNat = .dev d pa a from hloc, show s.irrevocable (evBank s).part (.dev d pa a) = false from hirr,
      Bool.and_false]
  have hstores : o.storesNow = true := by
    unfold AOp.storesNow
    rw [hbody]
    cases op with
    | faddO => exact absurd rfl hordered
    | _ => rfl
  have hvas : o.vas = upTo o.va.toNat (width w) := by unfold AOp.vas AOp.range; rw [hbody]; rfl
  have hfull : OverflowFull d pa (width w) s := full_of_tables htables d pa hpos
  obtain ⟨t, hexec, hlooks⟩ := full_looks hmay htarget hstores hvas hin hroom hfull
  exact ⟨t, hexec, fun h => absurd hfull h, fun _ => hlooks⟩

/-! ## The rest of the store row -/

theorem unfull_unblocked {p d die : Fin 8} {va pa n : Nat} (hin : InDie p va n d pa s)
    (hroom : ∀ i, i < n → s.needsRecord p d (pa + i) = true → (s.stack d (stackOf (pa + i))).undo.length < (s.part p).hwm.toNat)
    (hfull : ¬OverflowFull d pa n s) : s.storeBlocked p die true (upTo va n) = none := by
  rw [storeBlocked_bytes, List.findSome?_eq_none_iff]
  intro x hx
  obtain ⟨hlo, hhi⟩ := (mem_upTo va n x).1 hx
  obtain ⟨a, hloc, hirr⟩ := hin (x - va) (by omega)
  rw [show x = va + (x - va) by omega, byte_blocked hloc hirr (hroom (x - va) (by omega)), if_neg]
  exact fun h => hfull ⟨x - va, by omega, h⟩

theorem result_performed {g : Fin 512} {k : Fin 3} {r : AOp} {v : Vec} {x : AOp} (hx : x ∈ ((s.performed g k r v).bank g k).ops) (hid : x.id = r.id) :
    x.result = v := by
  rw [State.performed, State.bank_schedule, bank_modBank_self] at hx
  obtain ⟨y, -, -, rfl⟩ := mem_modOp hx hid
  rfl

/-- A store that performs keeps the result its access has: the row's value 0 asks for an access that has 0 there, which `State.send`
gives it, but which no hypothesis of the row names. -/
theorem store_result {l : List Byte} {d : Fin 8} {pa : Nat} (hneed : (storePerforms o l d pa).need s) (hfull : ¬OverflowFull d pa l.length s)
    (hexec : execGlobalAccessAtOwner s = .next t) {x : AOp} (hx : x ∈ (t.bank s.ev.g s.ev.k).ops) (hid : x.id = o.id) : x.result = o.result := by
  obtain ⟨hmay, hbody, hin, hroom, -⟩ := hneed
  have htarget : s.badTarget (evBank s).part o = false := by unfold State.badTarget; rw [hbody]; rfl
  have hstores : o.storesNow = true := by unfold AOp.storesNow; rw [hbody]; rfl
  have hvas : o.vas = upTo o.va.toNat l.length := by unfold AOp.vas AOp.range; rw [hbody]
  have hop : ((reached o s).perform s.ev.g s.ev.k (waitingOp o s) o.vas true).2 = waitingOp o s := by
    unfold State.perform
    rw [show (waitingOp o s).body = .store l from hbody]
  have hblocked : s.storeBlocked (evBank s).part (dieOf s.ev.g) true o.vas = none := by
    rw [hvas]
    exact unfull_unblocked hin hroom hfull
  rw [free_goes hmay htarget, hstores, if_pos rfl, hblocked, goesOrWaits, hop] at hexec
  injection hexec with ht
  subst ht
  exact result_performed hx hid

theorem stores_ask_zero (h : Obligations.StreamSteps) {l : List Byte} {d : Fin 8} {pa : Nat} (hneed : (storePerforms o l d pa).need s)
    (hfull : ¬OverflowFull d pa l.length s) : o.result = 0 := by
  obtain ⟨t, hexec, hholds, -⟩ := h _ _ s .stores hneed
  obtain ⟨hperformed, -⟩ := hholds hfull
  have hfound : o ∈ (evBank s).ops := List.mem_of_find?_eq_some hneed.1.found
  have hlisted : o.id ∈ (t.bank s.ev.g s.ev.k).ops.map fun x => x.id := by
    rw [hperformed.listed]
    exact List.mem_map_of_mem hfound
  obtain ⟨x, hx, hid⟩ := List.mem_map.1 hlisted
  obtain ⟨-, -, hzero⟩ := hperformed.done x hx hid
  exact (store_result hneed hfull hexec hx hid).symm.trans hzero

/-- A store of one byte that has a result left from before. -/
def staleStore : AOp :=
  { id := 7, pc := 0, sfc := 0, va := 0, cls := 0, body := .store [1], dst := .none, push := none, after := [], acquire := false, confirmed := false
    performed := false, doneTo := 0, got := [], xlat := [], result := 1, fault := 0, answer := none }

/-- It arrives at its owner, a die whose TLB has its page. -/
def staleState : State :=
  { ((State.reset.modPart 0 fun q => { q with ndies := 1 }).modDie 0 fun x =>
      { x with tlb := [{ base := 0, size := 65536, pa := 0, attr := 0x108 }] }).modBank 0 0 fun b => { b with ops := [staleStore] } with
    ev := { EvArgs.at 0 0 with id := 7 } }

theorem staleState_locate : staleState.locate 0 0 = .dev 0 0 0x108 := by decide +kernel

theorem staleState_part : (evBank staleState).part = 0 := by decide +kernel

theorem staleState_arrives : Arrives staleStore staleState where
  found := by decide +kernel
  open_ := by decide
  fresh := by decide +kernel
  bytes := by decide
  pages := by decide +kernel
  leaf := by decide +kernel

theorem staleState_mayPerform : MayPerform staleStore staleState where
  toArrives := staleState_arrives
  order := by decide +kernel
  earlier := by decide +kernel
  here v hv a off := by
    rw [show v = 0 from List.mem_singleton.1 hv, staleState_part, staleState_locate]
    exact Loc.noConfusion
  merges := by decide +kernel
  sound := by decide +kernel
  races := by decide +kernel

theorem staleState_needs : (storePerforms staleStore [1] 0 0).need staleState := by
  refine ⟨staleState_mayPerform, rfl, fun i hi => ⟨0x108, ?_, by decide⟩, ?_, by decide +kernel⟩
  · rw [Nat.lt_one_iff.1 hi, staleState_part]
    exact staleState_locate
  · unfold UndoRoom
    decide +kernel

theorem table_of_streamSteps (h : Obligations.StreamSteps) : Config.overflowFull 0 0 0 0 = true := by
  by_contra hempty
  have hroom : ¬OverflowFull 0 0 [(1 : Byte)].length staleState := by
    rintro ⟨i, hi, hfull⟩
    rw [Nat.lt_one_iff.1 hi] at hfull
    exact hempty hfull
  have hzero := stores_ask_zero h staleState_needs hroom
  simp [staleStore] at hzero

/-! ## The table -/

theorem bound_trips {w : Waiting} (hflag : s.ev.flag = false) (hwait : s.turnWait = some w) :
    execWaitBound s = .next (s.trap 3 (BitVec.ofNat 64 w.obj) w.detail) := by
  unfold execWaitBound
  rw [hflag, if_neg Bool.false_ne_true, hwait]

/-- Every row of the table holds where every overflow table is full. -/
theorem streamSteps_of_tables (htables : TablesFull) : Obligations.StreamSteps := by
  intro i e s hi need
  cases hi with
  | xCycle =>
    rw [exec_xResultLanding]
    exact ⟨_, rfl, xCycle_ends need⟩
  | lands =>
    rw [exec_xResultLanding]
    exact ⟨_, rfl, scalar_lands need⟩
  | lx =>
    obtain ⟨hx, hin, hkind, hland⟩ := need
    rw [exec_xResultLanding]
    exact ⟨_, rfl, (lxAt_landX hx).trans (lx_landLx_scalar hin hkind hland)⟩
  | tokenPoppable => exact ⟨_, token_arrives need, rfl⟩
  | entryAX => exact ⟨_, entryAX_arrives need, rfl⟩
  | entryXA => exact ⟨_, entryXA_arrives need.1, rfl⟩
  | retiresPush =>
    obtain ⟨hflag, hn, hq⟩ := need
    exact ⟨_, push_retires hflag hn hq, rfl⟩
  | retiresLoad =>
    obtain ⟨hflag, hop, hdst, hpush⟩ := need
    exact ⟨_, load_retires hflag hop hdst hpush, rfl⟩
  | retiresStore =>
    obtain ⟨hflag, hop, hdst, hpush⟩ := need
    exact ⟨_, store_retires hflag hop hdst hpush, rfl⟩
  | stampOverrun =>
    obtain ⟨hctx, huntraced, hdue⟩ := need
    exact ⟨_, rfl, trap_edge_after _ _ _ hctx huntraced hdue⟩
  | waitBound =>
    obtain ⟨hflag, hctx, huntraced, hwait, hdue⟩ := need
    exact ⟨_, bound_trips hflag hwait, trap_edge_after _ _ _ hctx huntraced hdue⟩
  | breakpoint =>
    obtain ⟨hctx, huntraced, hdue⟩ := need
    exact ⟨_, rfl, trap_edge_after _ _ _ hctx huntraced hdue⟩
  | rotationBound =>
    obtain ⟨hflag, hk, hrot, hbank, hsince, hrotating, hrunning, huntraced, hidle⟩ := need
    exact rotation_bound hflag hk hrot hbank hsince hrotating hrunning huntraced hidle
  | boundary =>
    obtain ⟨hk, hpending, huntraced, hidle⟩ := need
    exact boundary_taken hk hpending huntraced hidle
  | copyFault => exact ⟨_, congrArg Host.Outcome.next (boundary_raised need), rfl⟩
  | oredFull => exact ⟨_, congrArg Host.Outcome.next (boundary_raised need), rfl⟩
  | runs =>
    obtain ⟨hruns, hfail, hqueue, hlimit⟩ := need
    exact ⟨_, run_goes_on hruns hfail hqueue hlimit, rfl⟩
  | settles =>
    obtain ⟨hruns, hfail, hqueue⟩ := need
    exact ⟨_, run_settles hruns hfail hqueue, rfl⟩
  | runBound =>
    obtain ⟨hruns, hfail, hqueue, hlimit, hbt⟩ := need
    exact ⟨_, run_bounded hruns hfail hqueue hlimit hbt, rfl⟩
  | runFails =>
    obtain ⟨hruns, hfail, hpc, hdelay⟩ := need
    exact ⟨_, run_fails hruns hfail hpc hdelay, rfl⟩
  | handlerStart =>
    obtain ⟨hhandling, hquiet, hunit⟩ := need
    obtain ⟨c, hexec⟩ := handler_starts hhandling hquiet hunit
    exact ⟨_, hexec, c, rfl⟩
  | handlerWaits =>
    obtain ⟨hhandling, hquiet⟩ := need
    exact ⟨_, handler_waits hhandling hquiet, rfl⟩
  | lcWrite => exact ⟨_, count_written_a need, rfl⟩
  | lcWriteX =>
    obtain ⟨hst, hdelay, heval⟩ := need
    exact ⟨_, count_written_x hst hdelay heval, rfl⟩
  | sfcloRead => exact ⟨_, rfl, rfl⟩
  | colerrWrite =>
    rw [exec_colerrWrite]
    exact ⟨_, rfl, colerr_written ..⟩
  | accliveWrite => exact ⟨_, acclive_written, rfl⟩
  | fltctlWrite => exact flt_written
  | dbgctlPclr => exact ⟨_, rfl, rfl⟩
  | trcctlWrite => exact ⟨_, trace_absent need, rfl⟩
  | trcctlOpens => exact trace_opens need.1 need.2
  | replayctlWrite => exact ⟨_, replay_absent need, rfl⟩
  | replayctlMode =>
    obtain ⟨hfeature, hmode, hjob⟩ := need
    exact ⟨_, replay_mode hfeature hmode hjob, rfl⟩
  | registerWrite hwrites => exact ⟨_, register_written hwrites need.1 need.2, rfl⟩
  | spareWrite hwrites =>
    obtain ⟨hn, hflag, hcore⟩ := need
    exact ⟨_, spare_written hwrites hn hflag hcore, rfl⟩
  | loads => exact load_performs need
  | stores => exact store_looks htables need
  | atomics => exact atomic_looks htables need
  | gathers => exact gather_performs need
  | accessWaits => exact access_waits need
  | badTargets => exact target_bad need
  | walk =>
    obtain ⟨hwalk, hn, hreq, hidle⟩ := need
    exact ⟨_, walk_finds hwalk hn hreq hidle, rfl⟩
  | freezes => exact access_freezes need
  | timer => exact ⟨_, rfl, batch_closes need⟩
  | count => exact ⟨_, rfl, batch_closes need⟩
  | timerGone => exact ⟨_, congrArg Host.Outcome.next (batch_gone need), rfl⟩
  | frqhead => exact ⟨_, frq_freed need, rfl⟩
  | answerRetry =>
    obtain ⟨hfault, hw, hpri, hfirst, hlast⟩ := need
    exact doorbell_answers (ok := true) hfault hw hpri hfirst hlast
  | answerFail =>
    obtain ⟨hfault, hw, hpri, hfirst, hlast⟩ := need
    exact doorbell_answers (ok := false) hfault hw hpri hfirst hlast
  | priRetry =>
    obtain ⟨hfault, hw, hreported, hpri⟩ := need
    exact group_answered hfault hw hreported hpri
  | priFail => exact group_fails need
  | resends => exact access_resent need
  | invalidated =>
    obtain ⟨hflag, hinv, hmsix⟩ := need
    exact ⟨_, mailbox_hears hflag hinv, by rw [hmsix]; rfl⟩
  | ats => exact ⟨_, rfl, rfl⟩
  | slice =>
    obtain ⟨hflag, hst, hrunnable, hactive, hhandling, hstopped, hcancelled, hreplay, hn⟩ := need
    exact ⟨_, slice_begins hflag hst hrunnable hactive hhandling hstopped hcancelled hreplay, by rw [hn]⟩

end

end Sys2Proof.Machine
